-- ==== Sys2Proof/Word.lean ====
section
/-! DEFINITION. The words of the machine and the two kinds of finite table that its state is made of:
`Tbl`, a sorted association list, and byte memory in one canonical form (R3: every multi-byte value is
little-endian). -/

namespace Sys2Proof

/-- A 32-bit word. -/
abbrev W32 := BitVec 32

/-- A 64-bit word. -/
abbrev W64 := BitVec 64

/-- A set of the 32 lanes of a weave, bit L for lane L (R110). -/
abbrev Lanes := BitVec 32

/-- A finite map from names to entries, sorted by name. An absent name has no entry. -/
abbrev Tbl (β : Type) := List (Nat × β)

namespace Tbl

/-- The entry of a name, if it has one. -/
def find {β : Type} : Tbl β → Nat → Option β
  | [], _ => none
  | (k, v) :: r, n => if k = n then some v else find r n

/-- The entry of a name, or `d` where it has none. -/
def get {β : Type} (t : Tbl β) (d : β) (n : Nat) : β := (find t n).getD d

/-- The table without any entry of a name. -/
def del {β : Type} : Tbl β → Nat → Tbl β
  | [], _ => []
  | (k, v) :: r, n => if k = n then del r n else (k, v) :: del r n

/-- Places a new entry before the first greater name. -/
def ins {β : Type} : Tbl β → Nat → β → Tbl β
  | [], n, x => [(n, x)]
  | (k, v) :: r, n, x => if n < k then (n, x) :: (k, v) :: r else (k, v) :: ins r n x

/-- The table with the entry of a name replaced or added. -/
def put {β : Type} (t : Tbl β) (n : Nat) (x : β) : Tbl β := ins (del t n) n x

/-- The table with `x` under the name, kept free of entries equal to the default `d`. -/
def set {β : Type} [DecidableEq β] (t : Tbl β) (d : β) (n : Nat) (x : β) : Tbl β :=
  if x = d then del t n else put t n x

/-- Changes the entry of a name, if it has one. -/
def upd {β : Type} (t : Tbl β) (n : Nat) (f : β → β) : Tbl β :=
  match find t n with
  | some x => put t n (f x)
  | none => t

/-- The names in rising order. -/
def keys {β : Type} (t : Tbl β) : List Nat := t.map (·.1)

/-- The entries in rising order of name. -/
def vals {β : Type} (t : Tbl β) : List β := t.map (·.2)

/-- Names strictly rising. -/
def sorted {β : Type} : Tbl β → Bool
  | [] => true
  | [_] => true
  | (a, _) :: (b, y) :: r => decide (a < b) && sorted ((b, y) :: r)

end Tbl

/-- Is lane `l` in the set. -/
abbrev Lanes.has (m : Lanes) (l : Nat) : Bool := m.getLsbD l

/-- The lanes of a set in increasing order. -/
def Lanes.toList (m : Lanes) : List Nat := (List.range 32).filter (fun l => m.getLsbD l)

/-- The set of the lanes that satisfy a test. -/
def Lanes.ofFn (f : Nat → Bool) : Lanes :=
  (List.range 32).foldl (fun m l => if f l then m ||| (1#32 <<< l) else m) 0#32

end Sys2Proof
end

