-- ==== Sys2Proof/Syntax.lean ====
section
/-! DEFINITION. The steps of the machine as syntax: one constructor for each row of the opcode table. The rows
of the ISA carry their decoded fields; the rows that are steps of the device or acts of the outside world carry
what they name (a queue, a copy, a register value) and what the outside supplies (data of a peer's response). -/

namespace Sys2Proof

/-! ### Fields of program instructions -/

/-- The fields every instruction word shares: the guard PG, the flag slot FS and the run boundary BND
(R286, R288). -/
structure Hd where
  pg  : BitVec 4
  fs  : Bool
  bnd : Bool
  deriving DecidableEq, Repr

/-- Number formats by their codes 0 to 12 (R198). -/
inductive Fmt where
  | fp32 | bf16 | fp16 | e4m3 | e5m2 | e8m0 | e5f2 | cb2 | int8 | uint8 | int16 | int32 | uint32
  deriving DecidableEq, Repr

/-- Scopes, codes 0 to 5 (R148). -/
inductive Scope where
  | team | coh | die | mod | dom | sys
  deriving DecidableEq, Repr

/-- Routing classes (R34). -/
inductive RClass where
  | om | ad | rt
  deriving DecidableEq, Repr

/-- Semantics of an LS access (R151). -/
inductive Sem where
  | weak | rlx | acq | rel | acqrel
  deriving DecidableEq, Repr

/-- Element sizes (R290). -/
inductive Size where
  | b8 | b16 | b32 | b64 | cap
  deriving DecidableEq, Repr

/-- Access paths (R150). -/
inductive Path where
  | ls | cp | mx | kv
  deriving DecidableEq, Repr

/-- The integer type TY: width and signedness (R306). -/
inductive Ty where
  | u32 | s32 | u64 | s64
  deriving DecidableEq, Repr

/-- Form of an integer instruction: scalar or per lane, and its type (R306). -/
structure IntF where
  s  : Bool
  ty : Ty
  deriving DecidableEq, Repr

/-- Shift operations of SHR (R306 Table 4). -/
inductive ShrOp where
  | log | ari | fun_
  deriving DecidableEq, Repr

/-- Conditions of ISETP (R306 Table 4). -/
inductive ICond where
  | eq | ne | lt | le | gt | ge
  deriving DecidableEq, Repr

/-- Operations of PLOG (R344). -/
inductive PlogOp where
  | and | or | xor | andn | orn | not | mov
  deriving DecidableEq, Repr

/-- Operations of VOTE (R349). -/
inductive VoteOp where
  | all | any | eq | maj | none
  deriving DecidableEq, Repr

/-- Operations of SHFL (R350). -/
inductive ShflOp where
  | idx | rotu | rotd | xor
  deriving DecidableEq, Repr

/-- Operations of IREDUX (R351). -/
inductive ReduxOp where
  | add | min | max | and | or | xor
  deriving DecidableEq, Repr

/-- Conditions of FSETP (R357). -/
inductive FCond where
  | eq | ne | lt | le | gt | ge | nan | num
  deriving DecidableEq, Repr

/-- Operations of FREDUX (R369). -/
inductive FReduxOp where
  | add | min | max
  deriving DecidableEq, Repr

/-- Operations of ATOM and RED (R309 Table 7). -/
inductive AtomOp where
  | add | smin | umin | smax | umax | and | or | xor | exch | cas
  deriving DecidableEq, Repr

/-- The modifier fields of a memory instruction (R290). -/
structure MemF where
  s     : Bool
  sem   : Sem
  cls   : RClass
  scope : Scope
  size  : Size
  deriving DecidableEq, Repr

/-- Modes of CAPNEW (R310, R390). -/
inductive CapMode where
  | bnd | prm | ctx | own
  deriving DecidableEq, Repr

/-- Selectors of CAPGET (R391). -/
inductive CapSel where
  | base | len | perm | space | tag
  deriving DecidableEq, Repr

/-- Completion modes of a copy (R311). -/
inductive CopyMode where
  | tok | ph | tph
  deriving DecidableEq, Repr

/-- The modifier fields of a copy (R311), its phase operand included (R400). -/
structure CopyF where
  mode  : CopyMode
  tok   : BitVec 3
  cls   : RClass
  scope : Scope
  pk    : BitVec 4
  obj   : BitVec 8
  deriving DecidableEq, Repr

/-- Selectors of KVSTAT (R424). -/
inductive KvSel where
  | pos | front | start | end_ | state
  deriving DecidableEq, Repr

/-- What a rounding prefix MOD carries (R293). -/
inductive Rnd where
  | rne | rz | ru | rd | ro | rna
  deriving DecidableEq, Repr

/-- A capability: 128 bits and its tag (R124). -/
structure Cap where
  bits : BitVec 128
  tag  : Bool
  deriving DecidableEq, Repr

/-! ### What the outside supplies to device steps -/

/-- Who made an access: module, partition, die, core group, core within the group, team place, field number,
and the model's names of its team and cohort (R162, R183). -/
structure Ident where
  phys   : Nat
  part   : Nat
  peer   : Nat
  die    : Nat
  cg     : Nat
  core   : Nat
  place  : Nat
  field  : Nat
  team   : Nat
  cohort : Nat
  deriving DecidableEq, Repr

/-- What one element access of a fabric request does at its target. -/
inductive ReqOp where
  | read
  | fetch
  | write (data : BitVec 128) (tag : Bool)
  | atom (op : AtomOp) (x y : W64)
  deriving DecidableEq, Repr

/-- One element access of a request: its local address at the target and its size in bytes. -/
structure ReqAcc where
  lane : Nat
  lva  : BitVec 55
  size : Nat
  op   : ReqOp
  deriving DecidableEq, Repr

/-- One request packet: the accesses of one instruction to one granule (R36), the flag of an STF (R44), the release that it
carries, if any, the path of the agent that makes it (R150) and the link session whose keys protect it, by its index at the
module at hand (R47). -/
structure Packet where
  srcPhys : Nat
  srcPart : Nat
  dstPart : Nat
  cls     : RClass
  scope   : Scope
  rel     : Bool
  acq     : Bool
  ident   : Ident
  accs    : List ReqAcc
  flag    : Option (BitVec 55)
  path    : Path
  session : Nat
  deriving DecidableEq, Repr

/-- What comes back for one packet: an error, or a value for each access, with its tag. -/
inductive Reply where
  | error
  | values (vs : List (BitVec 128 × Bool)) (mismatch : Bool)
  deriving DecidableEq, Repr

/-- How an accepted copy failed: an unresolvable fault or a remote error (R398). -/
inductive CopyErr where
  | page (ecc : Bool)
  | remote (peer : BitVec 9)
  deriving DecidableEq, Repr

/-- The functions that report ready, by their bit of READY_STATUS (R11 Table 2). -/
abbrev ReadyBit := Nat

/-- Register fields are numbers so that a REP step can leave their class (R295). -/
abbrev Reg := Nat

/-! ### The steps -/

/-- Every row of the opcode table. -/
inductive Instr where
  -- bring-up, power, firmware
  | moduleReset (imageGood : Bool)
  | functionReady (bit : ReadyBit)
  | readyLimitExpiry (bit : ReadyBit)
  | heldAccessRelease (op : Nat)
  | linkStateChange (bit : ReadyBit) (up : Bool)
  | cgofflineWrite (v : W32)
  | recoveryGo (v : W64)
  | recoveryVerifyDone (good : Bool)
  | ltolWrite (part : Nat) (v : W32)
  | powerStateEntry (die : Nat)
  | wakeEvent (die : Nat)
  | dieExitComplete (die : Nat)
  | thermalShutdown (die : Nat)
  -- fabric
  | remoteRequestArrival (p : Packet)
  | rtForward (p : Packet)
  | remoteResponseArrival (ott : Nat) (r : Reply)
  | holdNoticeSend (req : Nat)
  | holdNoticeArrival (ott : Nat)
  | remoteRequestTimeout (ott : Nat)
  | authTagFailure (port : Nat) (part : Nat)
  | keyUpdate (session : Nat)
  | stallResume (weave gid : Nat)
  -- endpoint
  | partitionConfigWrite (offset : Nat) (v : W64)
  | qcfgWrite (queue word : Nat) (v : W64)
  | doorbell (vf index : Nat) (tail : W32)
  | apertureAccess (vf : Nat) (offset : BitVec 32) (write : Bool) (len : Nat) (data : List (BitVec 8))
  | lockInterfaceRequest (part : Nat)
  | lockScrubDone (part : Nat)
  | startInterfaceRequest (part : Nat)
  | stopInterfaceRequest (part : Nat)
  | getDeviceInterfaceReport (part : Nat)
  | getMeasurements (index : Nat)
  | ideIntegrityFailure (vf : Nat)
  | cxlIdeFailure (port : Nat)
  | coreGroupsFreed (part : Nat)
  -- scheduling
  | queueRecordTake (part : Nat)
  | dependenceMet (record : Nat)
  | cohortPlacement (part : Nat) (picks : List Nat)
  | preempt (part : Nat)
  | weaveHalt (weave gid : Nat)
  | cohortQuiesced (cohort : Nat)
  | saveComplete (cohort : Nat)
  | cancelDrained (part scope : Nat)
  | weaveSlotRelease (weave : Nat)
  | teamEnd (team : Nat)
  | fieldEnd (field : Nat)
  | voidWrite (id : Nat)
  -- fault service
  | faultPost (id : Nat)
  | faultRetry (id : Nat)
  | faultFail (id : Nat)
  | faultTimeout (id : Nat)
  | shootgoWrite (part : Nat) (v : W64)
  | shootdownDone (part : Nat)
  -- engines (`peerData` carries nothing: what peers answer comes by REMOTE_RESPONSE_ARRIVAL)
  | copyAccept (core : Nat)
  | copyComplete (id : Nat) (peerData : Unit)
  | copyFail (id : Nat) (err : CopyErr)
  | accessComplete (op : Nat)
  | uncorrectableMemoryError (pa : Nat)
  | scratchEcc (team : Nat)
  | kvstSlotWrite (id : Nat)
  | kvpubStep (id : Nat)
  | poolLend (part die pool : Nat) (req : Option (Nat × Nat)) (offer : List W64)
  | poolCtrlWrite (part die pool : Nat) (v : W64)
  | poolApply (part die pool : Nat)
  | saffronEnqueue (req : Nat)
  | batchDeadline (batch : Nat)
  | batchDispatch (cg : Nat)
  | budgetRefill (cg : Nat) (units : W32)
  | batchComplete (batch : Nat) (peerData : Unit)
  | mldmaskComplete (id : Nat) (peerData : Unit)
  | waittWake (weave gid : Nat)
  -- control, tasks and system
  | nop (h : Hd)
  | run (wait : BitVec 12) (a b : Option (BitVec 4))
  | bra (h : Hd) (imm : W32)
  | call (h : Hd) (imm : W32)
  | brx (h : Hd) (a : Reg)
  | ret (h : Hd)
  | exit (h : Hd)
  | loopBeg (h : Hd) (lvl : BitVec 2) (a : Reg) (endOff startOff : BitVec 16)
  | loopEnd (h : Hd) (lvl : BitVec 2)
  | lbrk (h : Hd) (lvl : BitVec 2)
  | waitt (h : Hd) (a : Reg)
  | kpoint (h : Hd)
  | trap (h : Hd) (imm : BitVec 16)
  | brk (h : Hd) (imm : BitVec 16)
  | sreg (h : Hd) (num : BitVec 4) (d : Reg)
  | swreg (h : Hd) (a : Reg)
  | spawn (h : Hd) (d a b : Reg) (imm : W32) (inherit : Bool)
  | cscope (h : Hd) (flag : Bool) (d a b : Reg)
  | cancel (h : Hd) (d a : Reg)
  | cwait (h : Hd) (d a : Reg)
  -- integer and weave
  | iadd (h : Hd) (f : IntF) (d a b : Reg)
  | isub (h : Hd) (f : IntF) (d a b : Reg)
  | imul (h : Hd) (f : IntF) (d a b : Reg)
  | imulh (h : Hd) (f : IntF) (d a b : Reg)
  | imad (h : Hd) (f : IntF) (d a b c : Reg)
  | imin (h : Hd) (f : IntF) (d a b : Reg)
  | imax (h : Hd) (f : IntF) (d a b : Reg)
  | iabs (h : Hd) (f : IntF) (d a : Reg)
  | and (h : Hd) (f : IntF) (d a b : Reg)
  | or (h : Hd) (f : IntF) (d a b : Reg)
  | xor (h : Hd) (f : IntF) (d a b : Reg)
  | andn (h : Hd) (f : IntF) (d a b : Reg)
  | shl (h : Hd) (f : IntF) (d a b : Reg)
  | shr (h : Hd) (f : IntF) (op : ShrOp) (d a b c : Reg)
  | rol (h : Hd) (f : IntF) (d a b : Reg)
  | bfe (h : Hd) (f : IntF) (d a b : Reg)
  | bfi (h : Hd) (f : IntF) (d a b c : Reg)
  | popc (h : Hd) (f : IntF) (d a : Reg)
  | clz (h : Hd) (f : IntF) (d a : Reg)
  | brev (h : Hd) (f : IntF) (d a : Reg)
  | bswz (h : Hd) (s : Bool) (d a b c : Reg)
  | isetp (h : Hd) (ty : Ty) (op : ICond) (d a b : Reg)
  | sel (h : Hd) (ty : Ty) (d a b c : Reg)
  | plog (h : Hd) (op : PlogOp) (d a b : Reg)
  | mov (h : Hd) (f : IntF) (d a : Reg)
  | movi32 (h : Hd) (s : Bool) (d : Reg) (imm : W32)
  | movi64 (h : Hd) (s : Bool) (d : Reg) (imm : W64)
  | lea (h : Hd) (s : Bool) (shift : Fin 5) (d a b : Reg)
  | ballot (h : Hd) (d a : Reg)
  | vote (h : Hd) (op : VoteOp) (d a : Reg)
  | shfl (h : Hd) (ty : Ty) (op : ShflOp) (d a b : Reg)
  | iredux (h : Hd) (ty : Ty) (op : ReduxOp) (d a : Reg)
  -- floating point, conversion and hash
  | fadd (h : Hd) (s : Bool) (fmt : Fmt) (d a b : Reg)
  | fmul (h : Hd) (s : Bool) (fmt : Fmt) (d a b : Reg)
  | ffma (h : Hd) (s : Bool) (fmt : Fmt) (d a b c : Reg)
  | fmin (h : Hd) (s : Bool) (fmt : Fmt) (d a b : Reg)
  | fmax (h : Hd) (s : Bool) (fmt : Fmt) (d a b : Reg)
  | fsetp (h : Hd) (fmt : Fmt) (op : FCond) (d a b : Reg)
  | fcvt (h : Hd) (s : Bool) (tgt src : Fmt) (mid : Option Fmt) (d a : Reg)
  | ftoi (h : Hd) (s : Bool) (tgt src : Fmt) (d a : Reg)
  | itof (h : Hd) (s : Bool) (tgt src : Fmt) (d a : Reg)
  | frcp (h : Hd) (s : Bool) (d a : Reg)
  | frsq (h : Hd) (s : Bool) (d a : Reg)
  | fexp2 (h : Hd) (s : Bool) (d a : Reg)
  | flog2 (h : Hd) (s : Bool) (d a : Reg)
  | ftrig (h : Hd) (s : Bool) (cos : Bool) (d a : Reg)
  | fargmax (h : Hd) (fmt : Fmt) (d a : Reg)
  | vdot4 (h : Hd) (s : Bool) (fmt : Fmt) (d a b c : Reg)
  | vhad (h : Hd) (wide : Bool) (d a : Reg)
  | fredux (h : Hd) (op : FReduxOp) (d a : Reg)
  | fpack (h : Hd) (s : Bool) (fmt : Fmt) (d a b : Reg)
  | funpk (h : Hd) (s : Bool) (fmt : Fmt) (d a : Reg)
  | fkey (h : Hd) (s : Bool) (desc : Bool) (fmt : Fmt) (d a : Reg)
  | fclass (h : Hd) (s : Bool) (fmt : Fmt) (d a : Reg)
  | hash64 (h : Hd) (s : Bool) (d a b c : Reg)
  | gumb (h : Hd) (s : Bool) (d a b c : Reg)
  -- memory, atomics and capabilities
  | ld (h : Hd) (m : MemF) (d a b : Reg) (imm : W32)
  | st (h : Hd) (m : MemF) (a b c : Reg) (imm : W32)
  | atom (h : Hd) (m : MemF) (op : AtomOp) (d a b c : Reg) (imm : W32)
  | red (h : Hd) (m : MemF) (op : AtomOp) (a b c : Reg) (imm : W32)
  | stf (h : Hd) (m : MemF) (a b c : Reg) (imm : W32) (fk : Reg) (foff : BitVec 24)
  | fence (h : Hd) (scope : Scope) (classes : BitVec 3)
  | pfence (h : Hd) (scope : Scope) (wpath rpath : Path)
  | vcompst (h : Hd) (m : MemF) (a b c : Reg) (imm : W32)
  | vexpld (h : Hd) (m : MemF) (d a b : Reg) (imm : W32)
  | capnew (h : Hd) (mode : CapMode) (space : BitVec 4) (mask : BitVec 8) (d a b c : Reg)
  | capget (h : Hd) (sel : CapSel) (d a : Reg)
  | capchk (h : Hd) (mask : BitVec 8) (d a b c : Reg)
  | stag (h : Hd) (d a : Reg)
  | stagset (h : Hd) (d a b : Reg)
  | staginv (h : Hd) (a : Reg)
  -- copy engine and synchronisation
  | copy (h : Hd) (f : CopyF) (d a b c : Reg)
  | copym (h : Hd) (f : CopyF) (d a b c : Reg) (tmask : BitVec 8)
  | copysel (h : Hd) (f : CopyF) (d a b c : Reg)
  | phinit (h : Hd) (bytes : Bool) (a b c : Reg)
  | pharr (h : Hd) (a b c : Reg)
  | phwait (h : Hd) (d a b c : Reg)
  | phtest (h : Hd) (d a b c : Reg)
  | bar (h : Hd) (d a b : Reg)
  -- attention contexts and matrix
  | apos (h : Hd) (d a b c : Reg)
  | kvst (h : Hd) (ksrc vsrc : Fmt) (a b c : Reg) (imm : W32)
  | kvpub (h : Hd) (void : Bool) (scope : Scope) (a b c : Reg)
  | kvacq (h : Hd) (scope : Scope) (d a b : Reg)
  | kvld (h : Hd) (v : Bool) (head layer : BitVec 8) (elem : BitVec 16) (d a b c : Reg)
  | kvfork (h : Hd) (scope : Scope) (d a c : Reg)
  | kvrel (h : Hd) (d a : Reg)
  | qrot (h : Hd) (fmt : Fmt) (d a b c : Reg)
  | kvstat (h : Hd) (sel : KvSel) (d a b : Reg)
  | mdecl (h : Hd) (d a : Reg)
  | msign (h : Hd) (attn : Bool) (d b : Reg)
  | mldmask (h : Hd) (d a b : Reg)
  | mzero (h : Hd) (mask : BitVec 16)
  | mbudget (h : Hd) (a : Reg)
  | mstat (h : Hd) (sel : BitVec 8) (d a : Reg)
  | fill
  -- session set-up, KV steps and scope-table steps
  | ideKm (fn : Nat)
  | securedSession (up : Bool)
  | kvPathStep (id : Nat) (peerData : Unit)
  | scopeTableOperation (id : Nat)
  deriving DecidableEq, Repr

end Sys2Proof
end

