-- ==== Sys2Proof/WellFormed.lean ====
section
/-! DEFINITION. Which instructions have an encoding that the decoder accepts (R287, R288, R302–R313 and the field
tables of the instruction chapters). Register numbers outside their class are not ill-formed: they trap REG_RANGE
when the instruction runs (R116). Steps of the device and of the outside have no encoding. -/

namespace Sys2Proof

/-- What an opcode fixes of word 0 (R302, R304, R313, R334, R352, R372, R394, R410): the length codes it allows,
and whether it requires PG 0111, FS 0 and BND 1. -/
structure OpRule where
  lens : List (BitVec 2)
  pg7  : Bool
  fs0  : Bool
  bnd1 : Bool
  deriving DecidableEq, Repr

/-- The opcode map (R302) with each opcode's rule. `none`: unassigned. -/
def opRule (opc : BitVec 8) : Option OpRule :=
  match opc.toNat with
  | 0x00 => some ⟨[0], false, true, false⟩
  | 0x01 => some ⟨[0], true, true, false⟩
  | 0x02 => some ⟨[1], false, true, true⟩
  | 0x03 => some ⟨[0], false, true, true⟩
  | 0x04 => some ⟨[1], false, true, true⟩
  | 0x05 => some ⟨[0], false, true, true⟩
  | 0x06 => some ⟨[1], false, true, false⟩
  | 0x07 => some ⟨[0], false, true, true⟩
  | 0x08 => some ⟨[0], false, true, true⟩
  | 0x09 => some ⟨[0], true, true, false⟩
  | 0x0B => some ⟨[0], false, true, false⟩
  | 0x0C => some ⟨[0], false, true, false⟩
  | 0x0D => some ⟨[0], false, true, false⟩
  | 0x0E => some ⟨[0], true, true, false⟩
  | 0x10 => some ⟨[2], true, false, false⟩
  | 0x11 => some ⟨[0], true, false, false⟩
  | 0x12 => some ⟨[0], true, false, false⟩
  | 0x13 => some ⟨[0], true, false, false⟩
  | 0x14 => some ⟨[0], true, true, false⟩
  | 0x37 => some ⟨[1, 2], false, true, false⟩
  | 0x70 => some ⟨[1], false, false, false⟩
  | 0x71 => some ⟨[1], false, false, false⟩
  | 0x72 => some ⟨[1], false, false, false⟩
  | 0x73 => some ⟨[1], false, false, false⟩
  | 0x74 => some ⟨[2], false, false, false⟩
  | 0x75 => some ⟨[0], true, true, false⟩
  | 0x76 => some ⟨[0], true, true, false⟩
  | 0x77 => some ⟨[1], false, false, false⟩
  | 0x78 => some ⟨[1], false, false, false⟩
  | 0x79 => some ⟨[0], true, true, false⟩
  | 0x7A => some ⟨[0], true, true, false⟩
  | 0x7B => some ⟨[0], true, true, false⟩
  | 0x7C => some ⟨[0], false, true, false⟩
  | 0x7D => some ⟨[0], false, true, false⟩
  | 0x7E => some ⟨[0], false, true, false⟩
  | 0x90 => some ⟨[2], true, true, false⟩
  | 0x91 => some ⟨[2], true, true, false⟩
  | 0x92 => some ⟨[2], true, true, false⟩
  | 0x93 => some ⟨[0], true, true, false⟩
  | 0x94 => some ⟨[0], true, true, false⟩
  | 0x95 => some ⟨[0], true, true, false⟩
  | 0x96 => some ⟨[0], true, true, false⟩
  | 0x97 => some ⟨[0], true, true, false⟩
  | 0xA0 => some ⟨[0], true, false, false⟩
  | 0xA1 => some ⟨[2], true, false, false⟩
  | 0xA2 => some ⟨[0], true, false, false⟩
  | 0xA3 => some ⟨[0], true, false, false⟩
  | 0xA4 => some ⟨[2], false, false, false⟩
  | 0xA5 => some ⟨[0], true, false, false⟩
  | 0xA6 => some ⟨[0], true, false, false⟩
  | 0xA7 => some ⟨[0], false, true, false⟩
  | 0xA8 => some ⟨[0], true, false, false⟩
  | 0xB0 => some ⟨[0], true, true, false⟩
  | 0xB1 => some ⟨[0], false, false, false⟩
  | 0xB2 => some ⟨[0], true, false, false⟩
  | 0xB3 => some ⟨[0], true, true, false⟩
  | 0xB4 => some ⟨[0], true, true, false⟩
  | 0xB5 => some ⟨[0], true, true, false⟩
  | n =>
    if (0x20 ≤ n ∧ n ≤ 0x3E) ∨ (0x40 ≤ n ∧ n ≤ 0x55) ∨ n = 0x60 ∨ n = 0x61 then some ⟨[0], false, true, false⟩
    else none

/-- Does a header part obey an opcode's rule: PG 1111 is refused everywhere (R288). -/
def Hd.obeys (h : Hd) (r : OpRule) : Bool :=
  h.pg != 15 && (!r.pg7 || h.pg == 7) && (!r.fs0 || !h.fs) && (!r.bnd1 || h.bnd)

/-- `Hd.obeys` for an opcode number. -/
def Hd.okFor (h : Hd) (opc : BitVec 8) : Bool :=
  match opRule opc with
  | some r => h.obeys r
  | none => false

/-- A register number that a field can hold. -/
def reg8 (n : Nat) : Bool := n < 256

/-- TY of a 64-bit or 32-bit logical instruction (R306 Table 4: codes 00 and 10). -/
def Ty.logical : Ty → Bool
  | .u32 | .u64 => true
  | _ => false

/-- TY 01 or 11. -/
def Ty.signed : Ty → Bool
  | .s32 | .s64 => true
  | _ => false

/-- A `.s` form requires PG 0111 (R304). -/
def Hd.scalarOk (h : Hd) (s : Bool) : Bool := !s || h.pg == 7

/-- Formats 0, 1 and 2. -/
def Fmt.vec : Fmt → Bool
  | .fp32 | .bf16 | .fp16 => true
  | _ => false

/-- Formats 0 to 4. -/
def Fmt.flt : Fmt → Bool
  | .fp32 | .bf16 | .fp16 | .e4m3 | .e5m2 => true
  | _ => false

/-- Formats 0 to 6 (FCVT). -/
def Fmt.conv : Fmt → Bool
  | .fp32 | .bf16 | .fp16 | .e4m3 | .e5m2 | .e8m0 | .e5f2 => true
  | _ => false

/-- Integer formats 8 to 12. -/
def Fmt.int : Fmt → Bool
  | .int8 | .uint8 | .int16 | .int32 | .uint32 => true
  | _ => false

/-- Input formats of VDOT4: 3, 4, 8, 9. -/
def Fmt.dot : Fmt → Bool
  | .e4m3 | .e5m2 | .int8 | .uint8 => true
  | _ => false

/-- Packed formats of FPACK and FUNPK: 1, 2, 3, 4, 6. -/
def Fmt.packed : Fmt → Bool
  | .bf16 | .fp16 | .e4m3 | .e5m2 | .e5f2 => true
  | _ => false

/-- Significand bits of the formats 0 to 6 (R358 Table 2). -/
def Fmt.sigBits : Fmt → Nat
  | .fp32 => 24 | .bf16 => 8 | .fp16 => 11 | .e4m3 => 4 | .e5m2 => 3 | .e8m0 => 1 | .e5f2 => 3
  | _ => 0

/-- May `mid` stand between source and target (R206, R358). -/
def midOk (tgt : Fmt) : Option Fmt → Bool
  | none => true
  | some m => m.flt && tgt.sigBits + 2 ≤ m.sigBits

/-- Sizes 0 to 3. -/
def Size.plain : Size → Bool
  | .cap => false
  | _ => true

/-- SEM of a load: 00, 01, 10 (R151). -/
def Sem.load : Sem → Bool
  | .weak | .rlx | .acq => true
  | _ => false

/-- SEM of a store: 00, 01, 10 (R151). -/
def Sem.store : Sem → Bool
  | .weak | .rlx | .rel => true
  | _ => false

/-- SEM of an ATOM: 01, 10, 11 (R151). -/
def Sem.atom : Sem → Bool
  | .rlx | .acq | .acqrel => true
  | _ => false

/-- SEM of a RED: 01, 10 (R151). -/
def Sem.red : Sem → Bool
  | .rlx | .rel => true
  | _ => false

/-- 32-bit or 64-bit. -/
def Size.word : Size → Bool
  | .b32 | .b64 => true
  | _ => false

/-- Operations of RED (R309: codes 0 to 7). -/
def AtomOp.red : AtomOp → Bool
  | .exch | .cas => false
  | _ => true

/-- A copy's token and phase operand agree with its mode (R311, R396). -/
def CopyF.ok (f : CopyF) : Bool :=
  match f.mode with
  | .tok => f.pk == 0 && f.obj == 0
  | .ph => f.tok == 0
  | .tph => true

/-- Do SPACE and PERM of CAPNEW suit its mode (R310, R390). -/
def capnewOk (mode : CapMode) (space : BitVec 4) (mask : BitVec 8) (a b c : Reg) : Bool :=
  match mode with
  | .bnd => space == 0 && mask == 0
  | .prm => space == 0 && !mask.getLsbD 7 && b == 0 && c == 0
  | .ctx => space == 0 && mask == 0 && c == 0
  | .own => (space == 1 || space == 2 || space == 4 || space == 5) && !mask.getLsbD 7 && a == 0

/-- Selectors of MSTAT (R238 Table 6); `a` must be zero for 0x02 (R431). -/
def mstatOk (sel : BitVec 8) (a : Reg) : Bool :=
  sel == 0 || sel == 1 || (sel == 2 && a == 0) || (0x40 ≤ sel.toNat && sel.toNat ≤ 0xBF)

/-- Steps of the device and of the outside world: no encoding. -/
def Instr.isEvent : Instr → Bool
  | .moduleReset _ | .functionReady _ | .readyLimitExpiry _ | .heldAccessRelease _ | .linkStateChange _ _
  | .cgofflineWrite _ | .recoveryGo _ | .recoveryVerifyDone _ | .ltolWrite _ _ | .powerStateEntry _ | .wakeEvent _
  | .dieExitComplete _ | .thermalShutdown _ | .remoteRequestArrival _ | .rtForward _ | .remoteResponseArrival _ _
  | .holdNoticeSend _ | .holdNoticeArrival _ | .remoteRequestTimeout _ | .authTagFailure _ _ | .keyUpdate _
  | .stallResume _ _ | .partitionConfigWrite _ _ | .qcfgWrite _ _ _ | .doorbell _ _ _ | .apertureAccess _ _ _ _ _
  | .lockInterfaceRequest _ | .lockScrubDone _ | .startInterfaceRequest _ | .stopInterfaceRequest _
  | .getDeviceInterfaceReport _ | .getMeasurements _ | .ideIntegrityFailure _ | .cxlIdeFailure _
  | .coreGroupsFreed _ | .queueRecordTake _ | .dependenceMet _ | .cohortPlacement _ _ | .preempt _
  | .weaveHalt _ _ | .cohortQuiesced _ | .saveComplete _ | .cancelDrained _ _ | .weaveSlotRelease _ | .teamEnd _
  | .fieldEnd _ | .voidWrite _ | .faultPost _ | .faultRetry _ | .faultFail _ | .faultTimeout _ | .shootgoWrite _ _
  | .shootdownDone _ | .copyAccept _ | .copyComplete _ _ | .copyFail _ _ | .accessComplete _
  | .uncorrectableMemoryError _ | .scratchEcc _ | .kvstSlotWrite _ | .kvpubStep _ | .poolLend _ _ _ _ _
  | .poolCtrlWrite _ _ _ _ | .poolApply _ _ _ | .saffronEnqueue _ | .batchDeadline _ | .batchDispatch _
  | .budgetRefill _ _ | .batchComplete _ _ | .mldmaskComplete _ _ | .waittWake _ _ | .ideKm _ | .securedSession _
  | .kvPathStep _ _ | .scopeTableOperation _ => true
  | _ => false

/-- Is the instruction one that its encoding can hold and the decoder accepts. -/
def Instr.wf : Instr → Bool
  | .nop h => h.okFor 0x00
  | .run _ a b => (a.all (· ≤ 11)) && (b.all (· ≤ 11))
  | .bra h _ => h.okFor 0x02
  | .call h _ => h.okFor 0x04
  | .brx h a => h.okFor 0x03 && reg8 a
  | .ret h => h.okFor 0x05
  | .exit h => h.okFor 0x08
  | .loopBeg h _ a _ _ => h.okFor 0x06 && reg8 a
  | .loopEnd h _ => h.okFor 0x06 && h.bnd
  | .lbrk h _ => h.okFor 0x07
  | .waitt h a => h.okFor 0x09 && reg8 a
  | .kpoint h => h.okFor 0x14
  | .trap h _ => h.okFor 0x0B
  | .brk h _ => h.okFor 0x0C
  | .sreg h _ d => h.okFor 0x0D && reg8 d
  | .swreg h a => h.okFor 0x0E && reg8 a
  | .spawn h d a b _ _ => h.okFor 0x10 && reg8 d && reg8 a && reg8 b
  | .cscope h _ d a b => h.okFor 0x13 && reg8 d && reg8 a && reg8 b
  | .cancel h d a => h.okFor 0x11 && reg8 d && reg8 a
  | .cwait h d a => h.okFor 0x12 && reg8 d && reg8 a
  | .iadd h f d a b => h.okFor 0x20 && h.scalarOk f.s && reg8 d && reg8 a && reg8 b
  | .isub h f d a b => h.okFor 0x21 && h.scalarOk f.s && reg8 d && reg8 a && reg8 b
  | .imul h f d a b => h.okFor 0x22 && h.scalarOk f.s && reg8 d && reg8 a && reg8 b
  | .imulh h f d a b => h.okFor 0x23 && h.scalarOk f.s && reg8 d && reg8 a && reg8 b
  | .imad h f d a b c => h.okFor 0x24 && h.scalarOk f.s && reg8 d && reg8 a && reg8 b && reg8 c
  | .imin h f d a b => h.okFor 0x25 && h.scalarOk f.s && reg8 d && reg8 a && reg8 b
  | .imax h f d a b => h.okFor 0x26 && h.scalarOk f.s && reg8 d && reg8 a && reg8 b
  | .iabs h f d a => h.okFor 0x27 && h.scalarOk f.s && f.ty.signed && reg8 d && reg8 a
  | .and h f d a b => h.okFor 0x28 && h.scalarOk f.s && f.ty.logical && reg8 d && reg8 a && reg8 b
  | .or h f d a b => h.okFor 0x29 && h.scalarOk f.s && f.ty.logical && reg8 d && reg8 a && reg8 b
  | .xor h f d a b => h.okFor 0x2A && h.scalarOk f.s && f.ty.logical && reg8 d && reg8 a && reg8 b
  | .andn h f d a b => h.okFor 0x2B && h.scalarOk f.s && f.ty.logical && reg8 d && reg8 a && reg8 b
  | .shl h f d a b => h.okFor 0x2C && h.scalarOk f.s && f.ty.logical && reg8 d && reg8 a && reg8 b
  | .shr h f op d a b c => h.okFor 0x2D && h.scalarOk f.s && f.ty.logical && reg8 d && reg8 a && reg8 b && reg8 c
      && (op == .fun_ || c == 0)
  | .rol h f d a b => h.okFor 0x2E && h.scalarOk f.s && f.ty.logical && reg8 d && reg8 a && reg8 b
  | .bfe h f d a b => h.okFor 0x2F && h.scalarOk f.s && reg8 d && reg8 a && reg8 b
  | .bfi h f d a b c => h.okFor 0x30 && h.scalarOk f.s && f.ty.logical && reg8 d && reg8 a && reg8 b && reg8 c
  | .popc h f d a => h.okFor 0x31 && h.scalarOk f.s && f.ty.logical && reg8 d && reg8 a
  | .clz h f d a => h.okFor 0x32 && h.scalarOk f.s && f.ty.logical && reg8 d && reg8 a
  | .brev h f d a => h.okFor 0x33 && h.scalarOk f.s && f.ty.logical && reg8 d && reg8 a
  | .bswz h s d a b c => h.okFor 0x3E && h.scalarOk s && reg8 d && reg8 a && reg8 b && reg8 c
  | .isetp h _ _ d a b => h.okFor 0x34 && reg8 d && reg8 a && reg8 b
  | .sel h ty d a b c => h.okFor 0x35 && ty.logical && reg8 d && reg8 a && reg8 b && reg8 c
  | .plog h op d a b => h.okFor 0x39 && reg8 d && reg8 a && reg8 b && (!(op == .not || op == .mov) || b == 0)
  | .mov h f d a => h.okFor 0x36 && h.scalarOk f.s && f.ty.logical && reg8 d && reg8 a
  | .movi32 h s d _ => h.okFor 0x37 && h.scalarOk s && reg8 d
  | .movi64 h s d _ => h.okFor 0x37 && h.scalarOk s && reg8 d
  | .lea h s _ d a b => h.okFor 0x38 && h.scalarOk s && reg8 d && reg8 a && reg8 b
  | .ballot h d a => h.okFor 0x3A && reg8 d && reg8 a
  | .vote h _ d a => h.okFor 0x3B && reg8 d && reg8 a
  | .shfl h ty _ d a b => h.okFor 0x3C && ty.logical && reg8 d && reg8 a && reg8 b
  | .iredux h _ _ d a => h.okFor 0x3D && reg8 d && reg8 a
  | .fadd h s fm d a b => h.okFor 0x40 && h.scalarOk s && fm.vec && reg8 d && reg8 a && reg8 b
  | .fmul h s fm d a b => h.okFor 0x41 && h.scalarOk s && fm.vec && reg8 d && reg8 a && reg8 b
  | .ffma h s fm d a b c => h.okFor 0x42 && h.scalarOk s && fm.vec && reg8 d && reg8 a && reg8 b && reg8 c
  | .fmin h s fm d a b => h.okFor 0x43 && h.scalarOk s && fm.vec && reg8 d && reg8 a && reg8 b
  | .fmax h s fm d a b => h.okFor 0x44 && h.scalarOk s && fm.vec && reg8 d && reg8 a && reg8 b
  | .fsetp h fm _ d a b => h.okFor 0x45 && fm.vec && reg8 d && reg8 a && reg8 b
  | .fcvt h s tgt src mid d a => h.okFor 0x46 && h.scalarOk s && tgt.conv && src.conv && tgt != src && midOk tgt mid
      && reg8 d && reg8 a
  | .ftoi h s tgt src d a => h.okFor 0x47 && h.scalarOk s && tgt.int && src.flt && reg8 d && reg8 a
  | .itof h s tgt src d a => h.okFor 0x48 && h.scalarOk s && tgt.flt && src.int && reg8 d && reg8 a
  | .frcp h s d a => h.okFor 0x49 && h.scalarOk s && reg8 d && reg8 a
  | .frsq h s d a => h.okFor 0x4A && h.scalarOk s && reg8 d && reg8 a
  | .fexp2 h s d a => h.okFor 0x4B && h.scalarOk s && reg8 d && reg8 a
  | .flog2 h s d a => h.okFor 0x4C && h.scalarOk s && reg8 d && reg8 a
  | .ftrig h s _ d a => h.okFor 0x4D && h.scalarOk s && reg8 d && reg8 a
  | .fargmax h fm d a => h.okFor 0x4E && fm.vec && reg8 d && reg8 a
  | .vdot4 h s fm d a b c => h.okFor 0x4F && h.scalarOk s && fm.dot && reg8 d && reg8 a && reg8 b && reg8 c
  | .vhad h _ d a => h.okFor 0x50 && reg8 d && reg8 a
  | .fredux h _ d a => h.okFor 0x51 && reg8 d && reg8 a
  | .fpack h s fm d a b => h.okFor 0x52 && h.scalarOk s && fm.packed && reg8 d && reg8 a && reg8 b
  | .funpk h s fm d a => h.okFor 0x53 && h.scalarOk s && fm.packed && reg8 d && reg8 a
  | .fkey h s _ fm d a => h.okFor 0x54 && h.scalarOk s && fm.vec && reg8 d && reg8 a
  | .fclass h s fm d a => h.okFor 0x55 && h.scalarOk s && fm.flt && reg8 d && reg8 a
  | .hash64 h s d a b c => h.okFor 0x60 && h.scalarOk s && reg8 d && reg8 a && reg8 b && reg8 c
  | .gumb h s d a b c => h.okFor 0x61 && h.scalarOk s && reg8 d && reg8 a && reg8 b && reg8 c
  | .ld h m d a b _ => h.okFor 0x70 && h.scalarOk m.s && m.sem.load && (m.s || m.size.plain)
      && reg8 d && reg8 a && reg8 b
  | .st h m a b c _ => h.okFor 0x71 && h.scalarOk m.s && m.sem.store && (m.s || m.size.plain)
      && reg8 a && reg8 b && reg8 c
  | .atom h m _ d a b c _ => h.okFor 0x72 && h.scalarOk m.s && m.sem.atom && m.size.word
      && reg8 d && reg8 a && reg8 b && reg8 c
  | .red h m op a b c _ => h.okFor 0x73 && h.scalarOk m.s && m.sem.red && m.size.word && op.red
      && reg8 a && reg8 b && reg8 c
  | .stf h m a b c _ fk _ => h.okFor 0x74 && h.scalarOk m.s && m.sem.store && m.size.plain
      && reg8 a && reg8 b && reg8 c && reg8 fk
  | .fence h _ cls => h.okFor 0x75 && cls != 0
  | .pfence h _ w r => h.okFor 0x76 && w != r
  | .vcompst h m a b c _ => h.okFor 0x77 && !m.s && m.sem.store && m.size.plain && reg8 a && reg8 b && reg8 c
  | .vexpld h m d a b _ => h.okFor 0x78 && !m.s && m.sem.load && m.size.plain && reg8 d && reg8 a && reg8 b
  | .capnew h mode space mask d a b c => h.okFor 0x79 && capnewOk mode space mask a b c
      && reg8 d && reg8 a && reg8 b && reg8 c
  | .capget h _ d a => h.okFor 0x7A && reg8 d && reg8 a
  | .capchk h mask d a b c => h.okFor 0x7B && !mask.getLsbD 7 && reg8 d && reg8 a && reg8 b && reg8 c
  | .stag h d a => h.okFor 0x7C && reg8 d && reg8 a
  | .stagset h d a b => h.okFor 0x7D && reg8 d && reg8 a && reg8 b
  | .staginv h a => h.okFor 0x7E && reg8 a
  | .copy h f d a b c => h.okFor 0x90 && f.ok && reg8 d && reg8 a && reg8 b && reg8 c
  | .copym h f d a b c tmask => h.okFor 0x91 && f.ok && tmask != 0 && reg8 d && reg8 a && reg8 b && reg8 c
  | .copysel h f d a b c => h.okFor 0x92 && f.ok && reg8 d && reg8 a && reg8 b && reg8 c
  | .phinit h _ a b c => h.okFor 0x93 && reg8 a && reg8 b && reg8 c
  | .pharr h a b c => h.okFor 0x94 && reg8 a && reg8 b && reg8 c
  | .phwait h d a b c => h.okFor 0x95 && reg8 d && reg8 a && reg8 b && reg8 c
  | .phtest h d a b c => h.okFor 0x96 && reg8 d && reg8 a && reg8 b && reg8 c
  | .bar h d a b => h.okFor 0x97 && reg8 d && reg8 a && reg8 b
  | .apos h d a b c => h.okFor 0xA0 && reg8 d && reg8 a && reg8 b && reg8 c
  | .kvst h ks vs a b c _ => h.okFor 0xA1 && ks.flt && vs.flt && reg8 a && reg8 b && reg8 c
  | .kvpub h _ _ a b c => h.okFor 0xA2 && reg8 a && reg8 b && reg8 c
  | .kvacq h _ d a b => h.okFor 0xA3 && reg8 d && reg8 a && reg8 b
  | .kvld h _ _ _ _ d a b c => h.okFor 0xA4 && reg8 d && reg8 a && reg8 b && reg8 c
  | .kvfork h _ d a c => h.okFor 0xA5 && reg8 d && reg8 a && reg8 c
  | .kvrel h d a => h.okFor 0xA6 && reg8 d && reg8 a
  | .qrot h fm d a b c => h.okFor 0xA7 && fm.vec && reg8 d && reg8 a && reg8 b && reg8 c
  | .kvstat h q d a b => h.okFor 0xA8 && (q != .pos || b == 0) && reg8 d && reg8 a && reg8 b
  | .mdecl h d a => h.okFor 0xB0 && reg8 d && reg8 a
  | .msign h _ d b => h.okFor 0xB1 && reg8 d && reg8 b
  | .mldmask h d a b => h.okFor 0xB2 && reg8 d && reg8 a && reg8 b
  | .mzero h _ => h.okFor 0xB3
  | .mbudget h a => h.okFor 0xB4 && reg8 a
  | .mstat h q d a => h.okFor 0xB5 && mstatOk q a && reg8 d && reg8 a
  | .fill => true
  | i => i.isEvent

end Sys2Proof
end

