-- ==== Sys2Proof/Decode.lean ====
section
/-! DEFINITION. From bits to instructions and back (chapters 16 and 17): the kinds of word group, the decoder, which
rejects by name, the encoder, and which instructions the prefixes MOD and REP may modify. -/

namespace Sys2Proof

/-! ### Word groups -/

/-- The fields of a word group of up to 128 bits, as R286 and R289 lay them out. -/
structure Raw where
  ext : BitVec 32
  imm : BitVec 32
  x   : BitVec 8
  sub : BitVec 8
  c   : BitVec 8
  b   : BitVec 8
  a   : BitVec 8
  d   : BitVec 8
  pg  : BitVec 4
  opc : BitVec 8
  fs  : Bool
  bnd : Bool
  len : BitVec 2
  deriving DecidableEq, Repr

/-- Cuts a word group into its fields. -/
def Raw.ofBits (w : BitVec 128) : Raw where
  ext := w.extractLsb' 96 32
  imm := w.extractLsb' 64 32
  x   := w.extractLsb' 56 8
  sub := w.extractLsb' 48 8
  c   := w.extractLsb' 40 8
  b   := w.extractLsb' 32 8
  a   := w.extractLsb' 24 8
  d   := w.extractLsb' 16 8
  pg  := w.extractLsb' 12 4
  opc := w.extractLsb' 4 8
  fs  := w.getLsbD 3
  bnd := w.getLsbD 2
  len := w.extractLsb' 0 2

/-- Lays the fields out as a word group. -/
def Raw.toBits (r : Raw) : BitVec 128 :=
  r.ext ++ r.imm ++ r.x ++ r.sub ++ r.c ++ r.b ++ r.a ++ r.d ++ r.pg ++ r.opc ++ BitVec.ofBool r.fs
    ++ BitVec.ofBool r.bnd ++ r.len

/-- The bytes of a word group by the low three bits of its first word (R284 Table 1). -/
def groupBytes (w0 : W32) : Nat :=
  if w0.extractLsb' 0 2 = 0#2 then 8
  else if w0.extractLsb' 0 2 = 1#2 then 12
  else if w0.extractLsb' 0 2 = 2#2 then 16
  else if w0.getLsbD 2 then 4 else 8

/-- Does a word group at this address stay inside its 32-byte block (R285). -/
def inBlock (addr len : Nat) : Bool := addr % 32 + len ≤ 32

/-- Is the first word that of a prefix, and of which kind: bits [7:3] (R292). -/
def prefixKind (w0 : W32) : Option (BitVec 5) :=
  if w0.extractLsb' 0 3 = 3#3 then some (w0.extractLsb' 3 5) else none

/-- Is the first word that of a RUN header: LEN 00 and OPC 0x01 (R291). -/
def isHeader (w0 : W32) : Bool := w0.extractLsb' 0 2 == 0#2 && w0.extractLsb' 4 8 == 1#8

/-- Why a word group is no instruction. Every name but the prefix ones is ILLEGAL_OPCODE (R298, R299). -/
inductive DecErr where
  /-- LEN 11 with bit 2 set and not FILL (R298). -/
  | filler
  /-- A prefix where an instruction must stand (R299). -/
  | isPrefix
  /-- An opcode of the map that is not assigned (R303). -/
  | unassigned
  /-- A LEN that its opcode does not allow (R284). -/
  | length
  /-- PG 1111, or a PG other than 0111 where it is required (R288). -/
  | guarded
  /-- FS 1 on an instruction of fixed latency (R313). -/
  | slot
  /-- A transfer of control without BND (R103). -/
  | boundary
  /-- A reserved field or code (R287). -/
  | reserved
  deriving DecidableEq, Repr

/-! ### Codes -/

def Fmt.code : Fmt → Nat
  | .fp32 => 0 | .bf16 => 1 | .fp16 => 2 | .e4m3 => 3 | .e5m2 => 4 | .e8m0 => 5 | .e5f2 => 6 | .cb2 => 7
  | .int8 => 8 | .uint8 => 9 | .int16 => 10 | .int32 => 11 | .uint32 => 12

def Fmt.ofCode : Nat → Option Fmt
  | 0 => some .fp32 | 1 => some .bf16 | 2 => some .fp16 | 3 => some .e4m3 | 4 => some .e5m2 | 5 => some .e8m0
  | 6 => some .e5f2 | 7 => some .cb2 | 8 => some .int8 | 9 => some .uint8 | 10 => some .int16 | 11 => some .int32
  | 12 => some .uint32 | _ => none

def Scope.code : Scope → Nat
  | .team => 0 | .coh => 1 | .die => 2 | .mod => 3 | .dom => 4 | .sys => 5

def Scope.ofCode : Nat → Option Scope
  | 0 => some .team | 1 => some .coh | 2 => some .die | 3 => some .mod | 4 => some .dom | 5 => some .sys | _ => none

def RClass.code : RClass → Nat
  | .om => 0 | .ad => 1 | .rt => 2

def RClass.ofCode : Nat → Option RClass
  | 0 => some .om | 1 => some .ad | 2 => some .rt | _ => none

def Path.code : Path → Nat
  | .ls => 0 | .cp => 1 | .mx => 2 | .kv => 3

def Path.ofCode : Nat → Path
  | 0 => .ls | 1 => .cp | 2 => .mx | _ => .kv

def Ty.code : Ty → Nat
  | .u32 => 0 | .s32 => 1 | .u64 => 2 | .s64 => 3

def Ty.ofCode : Nat → Ty
  | 0 => .u32 | 1 => .s32 | 2 => .u64 | _ => .s64

def ShrOp.code : ShrOp → Nat
  | .log => 0 | .ari => 1 | .fun_ => 2

def ShrOp.ofCode : Nat → Option ShrOp
  | 0 => some .log | 1 => some .ari | 2 => some .fun_ | _ => none

def ICond.code : ICond → Nat
  | .eq => 0 | .ne => 1 | .lt => 2 | .le => 3 | .gt => 4 | .ge => 5

def ICond.ofCode : Nat → Option ICond
  | 0 => some .eq | 1 => some .ne | 2 => some .lt | 3 => some .le | 4 => some .gt | 5 => some .ge | _ => none

def PlogOp.code : PlogOp → Nat
  | .and => 0 | .or => 1 | .xor => 2 | .andn => 3 | .orn => 4 | .not => 5 | .mov => 6

def PlogOp.ofCode : Nat → Option PlogOp
  | 0 => some .and | 1 => some .or | 2 => some .xor | 3 => some .andn | 4 => some .orn | 5 => some .not
  | 6 => some .mov | _ => none

def VoteOp.code : VoteOp → Nat
  | .all => 0 | .any => 1 | .eq => 2 | .maj => 3 | .none => 4

def VoteOp.ofCode : Nat → Option VoteOp
  | 0 => some .all | 1 => some .any | 2 => some .eq | 3 => some .maj | 4 => some .none | _ => .none

def ShflOp.code : ShflOp → Nat
  | .idx => 0 | .rotu => 1 | .rotd => 2 | .xor => 3

def ShflOp.ofCode : Nat → Option ShflOp
  | 0 => some .idx | 1 => some .rotu | 2 => some .rotd | 3 => some .xor | _ => none

def ReduxOp.code : ReduxOp → Nat
  | .add => 0 | .min => 1 | .max => 2 | .and => 3 | .or => 4 | .xor => 5

def ReduxOp.ofCode : Nat → Option ReduxOp
  | 0 => some .add | 1 => some .min | 2 => some .max | 3 => some .and | 4 => some .or | 5 => some .xor | _ => none

def FCond.code : FCond → Nat
  | .eq => 0 | .ne => 1 | .lt => 2 | .le => 3 | .gt => 4 | .ge => 5 | .nan => 6 | .num => 7

def FCond.ofCode : Nat → FCond
  | 0 => .eq | 1 => .ne | 2 => .lt | 3 => .le | 4 => .gt | 5 => .ge | 6 => .nan | _ => .num

def FReduxOp.code : FReduxOp → Nat
  | .add => 0 | .min => 1 | .max => 2

def FReduxOp.ofCode : Nat → Option FReduxOp
  | 0 => some .add | 1 => some .min | 2 => some .max | _ => none

def AtomOp.code : AtomOp → Nat
  | .add => 0 | .smin => 1 | .umin => 2 | .smax => 3 | .umax => 4 | .and => 5 | .or => 6 | .xor => 7 | .exch => 8
  | .cas => 9

def AtomOp.ofCode : Nat → Option AtomOp
  | 0 => some .add | 1 => some .smin | 2 => some .umin | 3 => some .smax | 4 => some .umax | 5 => some .and
  | 6 => some .or | 7 => some .xor | 8 => some .exch | 9 => some .cas | _ => none

def Size.code : Size → Nat
  | .b8 => 0 | .b16 => 1 | .b32 => 2 | .b64 => 3 | .cap => 4

def Size.ofCode : Nat → Option Size
  | 0 => some .b8 | 1 => some .b16 | 2 => some .b32 | 3 => some .b64 | 4 => some .cap | _ => none

/-- Code 10 names acquire for a load or atomic and release for a store (R151 Table 3). -/
def Sem.code : Sem → Nat
  | .weak => 0 | .rlx => 1 | .acq => 2 | .rel => 2 | .acqrel => 3

def Sem.ofCode (store : Bool) : Nat → Sem
  | 0 => .weak | 1 => .rlx | 2 => if store then .rel else .acq | _ => .acqrel

def CapMode.code : CapMode → Nat
  | .bnd => 0 | .prm => 1 | .ctx => 2 | .own => 3

def CapMode.ofCode : Nat → Option CapMode
  | 0 => some .bnd | 1 => some .prm | 2 => some .ctx | 3 => some .own | _ => none

def CapSel.code : CapSel → Nat
  | .base => 0 | .len => 1 | .perm => 2 | .space => 3 | .tag => 4

def CapSel.ofCode : Nat → Option CapSel
  | 0 => some .base | 1 => some .len | 2 => some .perm | 3 => some .space | 4 => some .tag | _ => none

def CopyMode.code : CopyMode → Nat
  | .tok => 1 | .ph => 2 | .tph => 3

def CopyMode.ofCode : Nat → Option CopyMode
  | 1 => some .tok | 2 => some .ph | 3 => some .tph | _ => none

def KvSel.code : KvSel → Nat
  | .pos => 0 | .front => 1 | .start => 2 | .end_ => 3 | .state => 4

def KvSel.ofCode : Nat → Option KvSel
  | 0 => some .pos | 1 => some .front | 2 => some .start | 3 => some .end_ | 4 => some .state | _ => none

def Rnd.code : Rnd → Nat
  | .rne => 0 | .rz => 1 | .ru => 2 | .rd => 3 | .ro => 4 | .rna => 5

def Rnd.ofCode : Nat → Option Rnd
  | 0 => some .rne | 1 => some .rz | 2 => some .ru | 3 => some .rd | 4 => some .ro | 5 => some .rna | _ => none

/-! ### The encoder -/

/-- The fields every form shares, with all others zero. -/
def Raw.base (opc : BitVec 8) (len : BitVec 2) (h : Hd) : Raw :=
  { ext := 0, imm := 0, x := 0, sub := 0, c := 0, b := 0, a := 0, d := 0, pg := h.pg, opc := opc, fs := h.fs,
    bnd := h.bnd, len := len }

/-- SUB of the integer group (R306 Table 3). -/
def intSub (f : IntF) (op5 : Nat) : BitVec 8 := BitVec.ofNat 8 ((if f.s then 128 else 0) + op5 * 4 + f.ty.code)

/-- SUB of the floating-point group (R307). -/
def fpSub (s : Bool) (op3 : Nat) (fm : Fmt) : BitVec 8 :=
  BitVec.ofNat 8 ((if s then 128 else 0) + op3 * 16 + fm.code)

/-- SUB and X of the memory format (R290). -/
def memSub (m : MemF) (op : Nat) : BitVec 8 :=
  BitVec.ofNat 8 (op * 16 + (if m.s then 8 else 0) + m.size.code)

def memX (m : MemF) : BitVec 8 := BitVec.ofNat 8 (m.sem.code * 32 + m.cls.code * 8 + m.scope.code)

/-- X of a copy (R311 Table 9). -/
def copyX (f : CopyF) : BitVec 8 := BitVec.ofNat 8 (f.tok.toNat * 32 + f.cls.code * 8 + f.scope.code)

/-- EXT32 of a copy's phase operand (R400). -/
def copyExt (f : CopyF) : BitVec 32 := (0#20) ++ f.obj ++ f.pk

def Raw.dab (r : Raw) (d a b : Nat) : Raw :=
  { r with d := BitVec.ofNat 8 d, a := BitVec.ofNat 8 a, b := BitVec.ofNat 8 b }

def Raw.dabc (r : Raw) (d a b c : Nat) : Raw := { r.dab d a b with c := BitVec.ofNat 8 c }

/-- The fields of an instruction's encoding; `none` for the steps that have no word, and for FILL, which is one
fixed word of 32 bits (R298). -/
def encodeRaw : Instr → Option Raw
  | .nop h => some (.base 0x00 0 h)
  | .run wait a b => some
      { (Raw.base 0x01 0 ⟨7, false, false⟩) with
        a := (a.getD 0).extractLsb' 0 4 ++ wait.extractLsb' 8 4, d := wait.extractLsb' 0 8
        b := (0#2) ++ BitVec.ofBool b.isSome ++ (b.getD 0) ++ BitVec.ofBool a.isSome }
  | .bra h imm => some { (Raw.base 0x02 1 h) with imm := imm }
  | .call h imm => some { (Raw.base 0x04 1 h) with imm := imm }
  | .brx h a => some ((Raw.base 0x03 0 h).dab 0 a 0)
  | .ret h => some (.base 0x05 0 h)
  | .exit h => some (.base 0x08 0 h)
  | .loopBeg h lvl a e st => some { (Raw.base 0x06 1 h).dab 0 a 0 with sub := (0#6) ++ lvl, imm := e ++ st }
  | .loopEnd h lvl => some { (Raw.base 0x06 1 h) with sub := (4#6) ++ lvl }
  | .lbrk h lvl => some { (Raw.base 0x07 0 h) with sub := (0#6) ++ lvl }
  | .waitt h a => some ((Raw.base 0x09 0 h).dab 0 a 0)
  | .kpoint h => some (.base 0x14 0 h)
  | .trap h i => some { (Raw.base 0x0B 0 h) with sub := i.extractLsb' 0 8, x := i.extractLsb' 8 8 }
  | .brk h i => some { (Raw.base 0x0C 0 h) with sub := i.extractLsb' 0 8, x := i.extractLsb' 8 8 }
  | .sreg h num d => some { (Raw.base 0x0D 0 h).dab d 0 0 with sub := (0#4) ++ num }
  | .swreg h a => some { (Raw.base 0x0E 0 h).dab 0 a 0 with sub := 9 }
  | .spawn h d a b imm inh =>
      some { (Raw.base 0x10 2 h).dab d a b with imm := imm, ext := BitVec.ofBool inh ++ (0#31) }
  | .cscope h fl d a b => some { (Raw.base 0x13 0 h).dab d a b with sub := (0#7) ++ BitVec.ofBool fl }
  | .cancel h d a => some ((Raw.base 0x11 0 h).dab d a 0)
  | .cwait h d a => some ((Raw.base 0x12 0 h).dab d a 0)
  | .iadd h f d a b => some { (Raw.base 0x20 0 h).dab d a b with sub := intSub f 0 }
  | .isub h f d a b => some { (Raw.base 0x21 0 h).dab d a b with sub := intSub f 0 }
  | .imul h f d a b => some { (Raw.base 0x22 0 h).dab d a b with sub := intSub f 0 }
  | .imulh h f d a b => some { (Raw.base 0x23 0 h).dab d a b with sub := intSub f 0 }
  | .imad h f d a b c => some { (Raw.base 0x24 0 h).dabc d a b c with sub := intSub f 0 }
  | .imin h f d a b => some { (Raw.base 0x25 0 h).dab d a b with sub := intSub f 0 }
  | .imax h f d a b => some { (Raw.base 0x26 0 h).dab d a b with sub := intSub f 0 }
  | .iabs h f d a => some { (Raw.base 0x27 0 h).dab d a 0 with sub := intSub f 0 }
  | .and h f d a b => some { (Raw.base 0x28 0 h).dab d a b with sub := intSub f 0 }
  | .or h f d a b => some { (Raw.base 0x29 0 h).dab d a b with sub := intSub f 0 }
  | .xor h f d a b => some { (Raw.base 0x2A 0 h).dab d a b with sub := intSub f 0 }
  | .andn h f d a b => some { (Raw.base 0x2B 0 h).dab d a b with sub := intSub f 0 }
  | .shl h f d a b => some { (Raw.base 0x2C 0 h).dab d a b with sub := intSub f 0 }
  | .shr h f op d a b c => some { (Raw.base 0x2D 0 h).dabc d a b c with sub := intSub f op.code }
  | .rol h f d a b => some { (Raw.base 0x2E 0 h).dab d a b with sub := intSub f 0 }
  | .bfe h f d a b => some { (Raw.base 0x2F 0 h).dab d a b with sub := intSub f 0 }
  | .bfi h f d a b c => some { (Raw.base 0x30 0 h).dabc d a b c with sub := intSub f 0 }
  | .popc h f d a => some { (Raw.base 0x31 0 h).dab d a 0 with sub := intSub f 0 }
  | .clz h f d a => some { (Raw.base 0x32 0 h).dab d a 0 with sub := intSub f 0 }
  | .brev h f d a => some { (Raw.base 0x33 0 h).dab d a 0 with sub := intSub f 0 }
  | .bswz h s d a b c => some { (Raw.base 0x3E 0 h).dabc d a b c with sub := intSub ⟨s, .u32⟩ 0 }
  | .isetp h ty op d a b => some { (Raw.base 0x34 0 h).dab d a b with sub := intSub ⟨false, ty⟩ op.code }
  | .sel h ty d a b c => some { (Raw.base 0x35 0 h).dabc d a b c with sub := intSub ⟨false, ty⟩ 0 }
  | .plog h op d a b => some { (Raw.base 0x39 0 h).dab d a b with sub := intSub ⟨false, .u32⟩ op.code }
  | .mov h f d a => some { (Raw.base 0x36 0 h).dab d a 0 with sub := intSub f 0 }
  | .movi32 h s d imm => some { (Raw.base 0x37 1 h).dab d 0 0 with sub := intSub ⟨s, .u32⟩ 0, imm := imm }
  | .movi64 h s d imm => some { (Raw.base 0x37 2 h).dab d 0 0 with
      sub := intSub ⟨s, .u64⟩ 0, imm := imm.extractLsb' 0 32, ext := imm.extractLsb' 32 32 }
  | .lea h s sh d a b => some { (Raw.base 0x38 0 h).dab d a b with sub := intSub ⟨s, .u64⟩ sh.val }
  | .ballot h d a => some { (Raw.base 0x3A 0 h).dab d a 0 with sub := intSub ⟨false, .u32⟩ 0 }
  | .vote h op d a => some { (Raw.base 0x3B 0 h).dab d a 0 with sub := intSub ⟨false, .u32⟩ op.code }
  | .shfl h ty op d a b => some { (Raw.base 0x3C 0 h).dab d a b with sub := intSub ⟨false, ty⟩ op.code }
  | .iredux h ty op d a => some { (Raw.base 0x3D 0 h).dab d a 0 with sub := intSub ⟨false, ty⟩ op.code }
  | .fadd h s fm d a b => some { (Raw.base 0x40 0 h).dab d a b with sub := fpSub s 0 fm }
  | .fmul h s fm d a b => some { (Raw.base 0x41 0 h).dab d a b with sub := fpSub s 0 fm }
  | .ffma h s fm d a b c => some { (Raw.base 0x42 0 h).dabc d a b c with sub := fpSub s 0 fm }
  | .fmin h s fm d a b => some { (Raw.base 0x43 0 h).dab d a b with sub := fpSub s 0 fm }
  | .fmax h s fm d a b => some { (Raw.base 0x44 0 h).dab d a b with sub := fpSub s 0 fm }
  | .fsetp h fm op d a b => some { (Raw.base 0x45 0 h).dab d a b with sub := fpSub false op.code fm }
  | .fcvt h s tgt src mid d a => some { (Raw.base 0x46 0 h).dab d a 0 with
      sub := fpSub s 0 tgt, x := BitVec.ofNat 8 ((match mid with | some m => m.code | none => 15) * 16 + src.code) }
  | .ftoi h s tgt src d a => some { (Raw.base 0x47 0 h).dab d a 0 with
      sub := fpSub s 0 tgt, x := BitVec.ofNat 8 src.code }
  | .itof h s tgt src d a => some { (Raw.base 0x48 0 h).dab d a 0 with
      sub := fpSub s 0 tgt, x := BitVec.ofNat 8 src.code }
  | .frcp h s d a => some { (Raw.base 0x49 0 h).dab d a 0 with sub := fpSub s 0 .fp32 }
  | .frsq h s d a => some { (Raw.base 0x4A 0 h).dab d a 0 with sub := fpSub s 0 .fp32 }
  | .fexp2 h s d a => some { (Raw.base 0x4B 0 h).dab d a 0 with sub := fpSub s 0 .fp32 }
  | .flog2 h s d a => some { (Raw.base 0x4C 0 h).dab d a 0 with sub := fpSub s 0 .fp32 }
  | .ftrig h s cos d a => some { (Raw.base 0x4D 0 h).dab d a 0 with sub := fpSub s (if cos then 1 else 0) .fp32 }
  | .fargmax h fm d a => some { (Raw.base 0x4E 0 h).dab d a 0 with sub := fpSub false 0 fm }
  | .vdot4 h s fm d a b c => some { (Raw.base 0x4F 0 h).dabc d a b c with sub := fpSub s 0 fm }
  | .vhad h wide d a => some { (Raw.base 0x50 0 h).dab d a 0 with sub := fpSub false (if wide then 1 else 0) .fp32 }
  | .fredux h op d a => some { (Raw.base 0x51 0 h).dab d a 0 with sub := fpSub false op.code .fp32 }
  | .fpack h s fm d a b => some { (Raw.base 0x52 0 h).dab d a b with sub := fpSub s 0 fm }
  | .funpk h s fm d a => some { (Raw.base 0x53 0 h).dab d a 0 with sub := fpSub s 0 fm }
  | .fkey h s desc fm d a => some { (Raw.base 0x54 0 h).dab d a 0 with sub := fpSub s (if desc then 1 else 0) fm }
  | .fclass h s fm d a => some { (Raw.base 0x55 0 h).dab d a 0 with sub := fpSub s 0 fm }
  | .hash64 h s d a b c => some { (Raw.base 0x60 0 h).dabc d a b c with sub := fpSub s 0 .fp32 }
  | .gumb h s d a b c => some { (Raw.base 0x61 0 h).dabc d a b c with sub := fpSub s 0 .fp32 }
  | .ld h m d a b imm => some { (Raw.base 0x70 1 h).dab d a b with sub := memSub m 0, x := memX m, imm := imm }
  | .st h m a b c imm => some { (Raw.base 0x71 1 h).dabc 0 a b c with sub := memSub m 0, x := memX m, imm := imm }
  | .atom h m op d a b c imm =>
      some { (Raw.base 0x72 1 h).dabc d a b c with sub := memSub m op.code, x := memX m, imm := imm }
  | .red h m op a b c imm =>
      some { (Raw.base 0x73 1 h).dabc 0 a b c with sub := memSub m op.code, x := memX m, imm := imm }
  | .stf h m a b c imm fk foff => some { (Raw.base 0x74 2 h).dabc 0 a b c with
      sub := memSub m 0, x := memX m, imm := imm, ext := foff ++ BitVec.ofNat 8 fk }
  | .fence h sc cls => some { (Raw.base 0x75 0 h) with sub := (0#5) ++ cls, x := BitVec.ofNat 8 sc.code }
  | .pfence h sc w r => some { (Raw.base 0x76 0 h) with
      sub := BitVec.ofNat 8 (r.code * 4 + w.code), x := BitVec.ofNat 8 sc.code }
  | .vcompst h m a b c imm =>
      some { (Raw.base 0x77 1 h).dabc 0 a b c with sub := memSub m 0, x := memX m, imm := imm }
  | .vexpld h m d a b imm => some { (Raw.base 0x78 1 h).dab d a b with sub := memSub m 0, x := memX m, imm := imm }
  | .capnew h mode space mask d a b c => some { (Raw.base 0x79 0 h).dabc d a b c with
      sub := BitVec.ofNat 8 (space.toNat * 8 + mode.code), x := mask }
  | .capget h q d a => some { (Raw.base 0x7A 0 h).dab d a 0 with sub := BitVec.ofNat 8 q.code }
  | .capchk h mask d a b c => some { (Raw.base 0x7B 0 h).dabc d a b c with sub := mask }
  | .stag h d a => some ((Raw.base 0x7C 0 h).dab d a 0)
  | .stagset h d a b => some ((Raw.base 0x7D 0 h).dab d a b)
  | .staginv h a => some ((Raw.base 0x7E 0 h).dab 0 a 0)
  | .copy h f d a b c => some { (Raw.base 0x90 2 h).dabc d a b c with
      sub := BitVec.ofNat 8 f.mode.code, x := copyX f, ext := copyExt f }
  | .copym h f d a b c tm => some { (Raw.base 0x91 2 h).dabc d a b c with
      sub := BitVec.ofNat 8 f.mode.code, x := copyX f, ext := copyExt f, imm := (0#24) ++ tm }
  | .copysel h f d a b c => some { (Raw.base 0x92 2 h).dabc d a b c with
      sub := BitVec.ofNat 8 f.mode.code, x := copyX f, ext := copyExt f }
  | .phinit h bytes a b c => some { (Raw.base 0x93 0 h).dabc 0 a b c with sub := (0#7) ++ BitVec.ofBool bytes }
  | .pharr h a b c => some ((Raw.base 0x94 0 h).dabc 0 a b c)
  | .phwait h d a b c => some ((Raw.base 0x95 0 h).dabc d a b c)
  | .phtest h d a b c => some ((Raw.base 0x96 0 h).dabc d a b c)
  | .bar h d a b => some ((Raw.base 0x97 0 h).dab d a b)
  | .apos h d a b c => some ((Raw.base 0xA0 0 h).dabc d a b c)
  | .kvst h ks vs a b c imm => some { (Raw.base 0xA1 2 h).dabc 0 a b c with
      imm := imm, ext := BitVec.ofNat 32 (vs.code * 16 + ks.code) }
  | .kvpub h void sc a b c => some { (Raw.base 0xA2 0 h).dabc 0 a b c with
      sub := (0#7) ++ BitVec.ofBool void, x := BitVec.ofNat 8 sc.code }
  | .kvacq h sc d a b => some { (Raw.base 0xA3 0 h).dab d a b with x := BitVec.ofNat 8 sc.code }
  | .kvld h v head layer elem d a b c => some { (Raw.base 0xA4 2 h).dabc d a b c with
      imm := (0#16) ++ elem, ext := (0#15) ++ BitVec.ofBool v ++ head ++ layer }
  | .kvfork h sc d a c => some { (Raw.base 0xA5 0 h).dabc d a 0 c with x := BitVec.ofNat 8 sc.code }
  | .kvrel h d a => some ((Raw.base 0xA6 0 h).dab d a 0)
  | .qrot h fm d a b c => some { (Raw.base 0xA7 0 h).dabc d a b c with sub := BitVec.ofNat 8 fm.code }
  | .kvstat h q d a b => some { (Raw.base 0xA8 0 h).dab d a b with sub := BitVec.ofNat 8 q.code }
  | .mdecl h d a => some ((Raw.base 0xB0 0 h).dab d a 0)
  | .msign h attn d b => some { (Raw.base 0xB1 0 h).dab d 0 b with sub := (0#7) ++ BitVec.ofBool attn }
  | .mldmask h d a b => some ((Raw.base 0xB2 0 h).dab d a b)
  | .mzero h m => some { (Raw.base 0xB3 0 h) with sub := m.extractLsb' 0 8, x := m.extractLsb' 8 8 }
  | .mbudget h a => some ((Raw.base 0xB4 0 h).dab 0 a 0)
  | .mstat h q d a => some { (Raw.base 0xB5 0 h).dab d a 0 with sub := q }
  | _ => none

/-- The word FILL (R298). -/
def fillWord : BitVec 128 := 7

/-- Length in bits and word of an instruction: `none` for the steps that have no encoding. -/
def encode (i : Instr) : Option (Nat × BitVec 128) :=
  match i with
  | .fill => some (32, fillWord)
  | i =>
    match encodeRaw i with
    | some r => some (if r.len = 0 then 64 else if r.len = 1 then 96 else 128, r.toBits)
    | none => none

/-! ### The decoder -/

/-- No register field but those given, and no immediate. -/
def Raw.noImm (r : Raw) : Bool := r.imm == 0 && r.ext == 0

/-- A condition of a field, by name. -/
def need {β : Type} (b : Bool) (v : Option β) : Option β := if b then v else none

/-- Form, type and OP5 of an integer instruction; X is zero, and `.s` requires PG 0111 (R304, R306). -/
def Raw.int (r : Raw) (scalar : Bool) (k : IntF → Nat → Option Instr) : Option Instr :=
  need (r.x == 0 && r.noImm && (!r.sub.getLsbD 7 || (scalar && r.pg == 7)))
    (k ⟨r.sub.getLsbD 7, Ty.ofCode (r.sub.extractLsb' 0 2).toNat⟩ (r.sub.extractLsb' 2 5).toNat)

/-- Form, OP3 and format of a floating-point instruction (R307). -/
def Raw.fp (r : Raw) (scalar : Bool) (k : Bool → Nat → Fmt → Option Instr) : Option Instr :=
  need (r.noImm && (!r.sub.getLsbD 7 || (scalar && r.pg == 7)))
    (match Fmt.ofCode (r.sub.extractLsb' 0 4).toNat with
     | some fm => k (r.sub.getLsbD 7) (r.sub.extractLsb' 4 3).toNat fm
     | none => none)

/-- The memory format's modifier fields and OP; `store` says how SEM 10 reads (R290). -/
def Raw.mem (r : Raw) (store : Bool) (k : MemF → Nat → Option Instr) : Option Instr :=
  match RClass.ofCode (r.x.extractLsb' 3 2).toNat, Scope.ofCode (r.x.extractLsb' 0 3).toNat,
    Size.ofCode (r.sub.extractLsb' 0 3).toNat with
  | some cls, some scope, some size =>
    need (!r.x.getLsbD 7 && (!r.sub.getLsbD 3 || r.pg == 7))
      (k ⟨r.sub.getLsbD 3, Sem.ofCode store (r.x.extractLsb' 5 2).toNat, cls, scope, size⟩
        (r.sub.extractLsb' 4 4).toNat)
  | _, _, _ => none

/-- The modifier fields of a copy (R311, R400). -/
def Raw.copyF (r : Raw) (k : CopyF → Option Instr) : Option Instr :=
  match CopyMode.ofCode r.sub.toNat, RClass.ofCode (r.x.extractLsb' 3 2).toNat,
    Scope.ofCode (r.x.extractLsb' 0 3).toNat with
  | some mode, some cls, some scope =>
    need (r.ext.extractLsb' 12 20 == 0)
      (k ⟨mode, r.x.extractLsb' 5 3, cls, scope, r.ext.extractLsb' 0 4, r.ext.extractLsb' 4 8⟩)
  | _, _, _ => none

/-- A scope in X[2:0], the other bits of X zero. -/
def Raw.scopeX (r : Raw) (k : Scope → Option Instr) : Option Instr :=
  need (r.x.extractLsb' 3 5 == 0)
    (match Scope.ofCode (r.x.extractLsb' 0 3).toNat with
     | some sc => k sc
     | none => none)

/-- An optional value, or reserved. -/
def onSome {β : Type} (o : Option β) (k : β → Option Instr) : Option Instr :=
  match o with
  | some v => k v
  | none => none

/-- Are the register fields that an instruction leaves unused zero (R287). -/
def Raw.zero (r : Raw) (d a b c : Bool) : Bool :=
  (!d || r.d == 0) && (!a || r.a == 0) && (!b || r.b == 0) && (!c || r.c == 0)

/-- SUB and X zero, no immediate. -/
def Raw.plain (r : Raw) : Bool := r.sub == 0 && r.x == 0 && r.noImm

/-- The control group (R305, R313). -/
def decControl (r : Raw) (h : Hd) : Option Instr :=
  let d := r.d.toNat
  let a := r.a.toNat
  let b := r.b.toNat
  match r.opc.toNat with
  | 0x00 => need (r.plain && r.zero true true true true) (some (.nop h))
  | 0x01 =>
    let va := r.b.getLsbD 0
    let vb := r.b.getLsbD 5
    let fa := r.a.extractLsb' 4 4
    let fb := r.b.extractLsb' 1 4
    need (r.sub == 0 && r.x == 0 && r.c == 0 && r.noImm && !r.bnd && r.b.extractLsb' 6 2 == 0
        && (if va then fa ≤ 11 else fa == 0) && (if vb then fb ≤ 11 else fb == 0))
      (some (.run (r.a.extractLsb' 0 4 ++ r.d) (if va then some fa else none) (if vb then some fb else none)))
  | 0x02 => need (r.sub == 0 && r.x == 0 && r.ext == 0 && r.zero true true true true) (some (.bra h r.imm))
  | 0x04 => need (r.sub == 0 && r.x == 0 && r.ext == 0 && r.zero true true true true) (some (.call h r.imm))
  | 0x03 => need (r.plain && r.zero true false true true) (some (.brx h a))
  | 0x05 => need (r.plain && r.zero true true true true) (some (.ret h))
  | 0x08 => need (r.plain && r.zero true true true true) (some (.exit h))
  | 0x06 =>
    if r.sub.getLsbD 4 then
      need (r.sub.extractLsb' 2 6 == 4 && r.x == 0 && r.noImm && r.zero true true true true && r.bnd)
        (some (.loopEnd h (r.sub.extractLsb' 0 2)))
    else
      need (r.sub.extractLsb' 2 6 == 0 && r.x == 0 && r.ext == 0 && r.zero true false true true)
        (some (.loopBeg h (r.sub.extractLsb' 0 2) a (r.imm.extractLsb' 16 16) (r.imm.extractLsb' 0 16)))
  | 0x07 => need (r.sub.extractLsb' 2 6 == 0 && r.x == 0 && r.noImm && r.zero true true true true)
      (some (.lbrk h (r.sub.extractLsb' 0 2)))
  | 0x09 => need (r.plain && r.zero true false true true) (some (.waitt h a))
  | 0x0B => need (r.noImm && r.zero true true true true) (some (.trap h (r.x ++ r.sub)))
  | 0x0C => need (r.noImm && r.zero true true true true) (some (.brk h (r.x ++ r.sub)))
  | 0x0D => need (r.sub.extractLsb' 4 4 == 0 && r.x == 0 && r.noImm && r.zero false true true true)
      (some (.sreg h (r.sub.extractLsb' 0 4) d))
  | 0x0E => need (r.sub == 9 && r.x == 0 && r.noImm && r.zero true false true true) (some (.swreg h a))
  | 0x10 => need (r.sub == 0 && r.x == 0 && r.ext.extractLsb' 0 31 == 0 && r.c == 0)
      (some (.spawn h d a b r.imm (r.ext.getLsbD 31)))
  | 0x11 => need (r.plain && r.zero false false true true) (some (.cancel h d a))
  | 0x12 => need (r.plain && r.zero false false true true) (some (.cwait h d a))
  | 0x13 => need (r.sub.extractLsb' 1 7 == 0 && r.x == 0 && r.noImm && r.c == 0)
      (some (.cscope h (r.sub.getLsbD 0) d a b))
  | 0x14 => need (r.plain && r.zero true true true true) (some (.kpoint h))
  | _ => none

/-- The integer and weave group (R306, R334–R351). -/
def decInteger (r : Raw) (h : Hd) : Option Instr :=
  let d := r.d.toNat
  let a := r.a.toNat
  let b := r.b.toNat
  let c := r.c.toNat
  match r.opc.toNat with
  | 0x20 => r.int true fun f o => need (o == 0 && r.c == 0) (some (.iadd h f d a b))
  | 0x21 => r.int true fun f o => need (o == 0 && r.c == 0) (some (.isub h f d a b))
  | 0x22 => r.int true fun f o => need (o == 0 && r.c == 0) (some (.imul h f d a b))
  | 0x23 => r.int true fun f o => need (o == 0 && r.c == 0) (some (.imulh h f d a b))
  | 0x24 => r.int true fun f o => need (o == 0) (some (.imad h f d a b c))
  | 0x25 => r.int true fun f o => need (o == 0 && r.c == 0) (some (.imin h f d a b))
  | 0x26 => r.int true fun f o => need (o == 0 && r.c == 0) (some (.imax h f d a b))
  | 0x27 => r.int true fun f o => need (o == 0 && f.ty.signed && r.b == 0 && r.c == 0) (some (.iabs h f d a))
  | 0x28 => r.int true fun f o => need (o == 0 && f.ty.logical && r.c == 0) (some (.and h f d a b))
  | 0x29 => r.int true fun f o => need (o == 0 && f.ty.logical && r.c == 0) (some (.or h f d a b))
  | 0x2A => r.int true fun f o => need (o == 0 && f.ty.logical && r.c == 0) (some (.xor h f d a b))
  | 0x2B => r.int true fun f o => need (o == 0 && f.ty.logical && r.c == 0) (some (.andn h f d a b))
  | 0x2C => r.int true fun f o => need (o == 0 && f.ty.logical && r.c == 0) (some (.shl h f d a b))
  | 0x2D => r.int true fun f o => onSome (ShrOp.ofCode o) fun op =>
      need (f.ty.logical && (op == .fun_ || r.c == 0)) (some (.shr h f op d a b c))
  | 0x2E => r.int true fun f o => need (o == 0 && f.ty.logical && r.c == 0) (some (.rol h f d a b))
  | 0x2F => r.int true fun f o => need (o == 0 && r.c == 0) (some (.bfe h f d a b))
  | 0x30 => r.int true fun f o => need (o == 0 && f.ty.logical) (some (.bfi h f d a b c))
  | 0x31 => r.int true fun f o => need (o == 0 && f.ty.logical && r.b == 0 && r.c == 0) (some (.popc h f d a))
  | 0x32 => r.int true fun f o => need (o == 0 && f.ty.logical && r.b == 0 && r.c == 0) (some (.clz h f d a))
  | 0x33 => r.int true fun f o => need (o == 0 && f.ty.logical && r.b == 0 && r.c == 0) (some (.brev h f d a))
  | 0x34 => r.int false fun f o => onSome (ICond.ofCode o) fun op =>
      need (r.c == 0) (some (.isetp h f.ty op d a b))
  | 0x35 => r.int false fun f o => need (o == 0 && f.ty.logical) (some (.sel h f.ty d a b c))
  | 0x36 => r.int true fun f o => need (o == 0 && f.ty.logical && r.b == 0 && r.c == 0) (some (.mov h f d a))
  | 0x37 =>
    let f : IntF := ⟨r.sub.getLsbD 7, Ty.ofCode (r.sub.extractLsb' 0 2).toNat⟩
    need (r.x == 0 && r.sub.extractLsb' 2 5 == 0 && r.zero false true true true && h.scalarOk f.s)
      (if r.len == 1 then need (f.ty == .u32 && r.ext == 0) (some (.movi32 h f.s d r.imm))
       else need (f.ty == .u64) (some (.movi64 h f.s d (r.ext ++ r.imm))))
  | 0x38 => r.int true fun f o =>
      if hs : o < 5 then need (f.ty == .u64 && r.c == 0) (some (.lea h f.s ⟨o, hs⟩ d a b)) else none
  | 0x39 => r.int false fun f o => onSome (PlogOp.ofCode o) fun op =>
      need (f.ty == .u32 && r.c == 0 && (!(op == .not || op == .mov) || r.b == 0)) (some (.plog h op d a b))
  | 0x3A => r.int false fun f o => need (o == 0 && f.ty == .u32 && r.b == 0 && r.c == 0) (some (.ballot h d a))
  | 0x3B => r.int false fun f o => onSome (VoteOp.ofCode o) fun op =>
      need (f.ty == .u32 && r.b == 0 && r.c == 0) (some (.vote h op d a))
  | 0x3C => r.int false fun f o => onSome (ShflOp.ofCode o) fun op =>
      need (f.ty.logical && r.c == 0) (some (.shfl h f.ty op d a b))
  | 0x3D => r.int false fun f o => onSome (ReduxOp.ofCode o) fun op =>
      need (r.b == 0 && r.c == 0) (some (.iredux h f.ty op d a))
  | 0x3E => r.int true fun f o => need (o == 0 && f.ty == .u32) (some (.bswz h f.s d a b c))
  | _ => none

/-- The floating-point and hash groups (R307, R308). -/
def decFloat (r : Raw) (h : Hd) : Option Instr :=
  let d := r.d.toNat
  let a := r.a.toNat
  let b := r.b.toNat
  let c := r.c.toNat
  let x0 := r.x == 0
  match r.opc.toNat with
  | 0x40 => r.fp true fun s o fm => need (o == 0 && x0 && fm.vec && r.c == 0) (some (.fadd h s fm d a b))
  | 0x41 => r.fp true fun s o fm => need (o == 0 && x0 && fm.vec && r.c == 0) (some (.fmul h s fm d a b))
  | 0x42 => r.fp true fun s o fm => need (o == 0 && x0 && fm.vec) (some (.ffma h s fm d a b c))
  | 0x43 => r.fp true fun s o fm => need (o == 0 && x0 && fm.vec && r.c == 0) (some (.fmin h s fm d a b))
  | 0x44 => r.fp true fun s o fm => need (o == 0 && x0 && fm.vec && r.c == 0) (some (.fmax h s fm d a b))
  | 0x45 => r.fp false fun _ o fm => need (x0 && fm.vec && r.c == 0) (some (.fsetp h fm (FCond.ofCode o) d a b))
  | 0x46 => r.fp true fun s o tgt => onSome (Fmt.ofCode (r.x.extractLsb' 0 4).toNat) fun src =>
      let mid := Fmt.ofCode (r.x.extractLsb' 4 4).toNat
      need (o == 0 && tgt.conv && src.conv && tgt != src && (r.x.extractLsb' 4 4 == 15 || mid.isSome)
          && midOk tgt mid && r.b == 0 && r.c == 0) (some (.fcvt h s tgt src mid d a))
  | 0x47 => r.fp true fun s o tgt => onSome (Fmt.ofCode r.x.toNat) fun src =>
      need (o == 0 && tgt.int && src.flt && r.b == 0 && r.c == 0) (some (.ftoi h s tgt src d a))
  | 0x48 => r.fp true fun s o tgt => onSome (Fmt.ofCode r.x.toNat) fun src =>
      need (o == 0 && tgt.flt && src.int && r.b == 0 && r.c == 0) (some (.itof h s tgt src d a))
  | 0x49 => r.fp true fun s o fm => need (o == 0 && x0 && fm == .fp32 && r.b == 0 && r.c == 0) (some (.frcp h s d a))
  | 0x4A => r.fp true fun s o fm => need (o == 0 && x0 && fm == .fp32 && r.b == 0 && r.c == 0) (some (.frsq h s d a))
  | 0x4B => r.fp true fun s o fm => need (o == 0 && x0 && fm == .fp32 && r.b == 0 && r.c == 0) (some (.fexp2 h s d a))
  | 0x4C => r.fp true fun s o fm => need (o == 0 && x0 && fm == .fp32 && r.b == 0 && r.c == 0) (some (.flog2 h s d a))
  | 0x4D => r.fp true fun s o fm =>
      need (o ≤ 1 && x0 && fm == .fp32 && r.b == 0 && r.c == 0) (some (.ftrig h s (o == 1) d a))
  | 0x4E => r.fp false fun _ o fm => need (o == 0 && x0 && fm.vec && r.b == 0 && r.c == 0) (some (.fargmax h fm d a))
  | 0x4F => r.fp true fun s o fm => need (o == 0 && x0 && fm.dot) (some (.vdot4 h s fm d a b c))
  | 0x50 => r.fp false fun _ o fm =>
      need (o ≤ 1 && x0 && fm == .fp32 && r.b == 0 && r.c == 0) (some (.vhad h (o == 1) d a))
  | 0x51 => r.fp false fun _ o fm => onSome (FReduxOp.ofCode o) fun op =>
      need (x0 && fm == .fp32 && r.b == 0 && r.c == 0) (some (.fredux h op d a))
  | 0x52 => r.fp true fun s o fm => need (o == 0 && x0 && fm.packed && r.c == 0) (some (.fpack h s fm d a b))
  | 0x53 => r.fp true fun s o fm =>
      need (o == 0 && x0 && fm.packed && r.b == 0 && r.c == 0) (some (.funpk h s fm d a))
  | 0x54 => r.fp true fun s o fm =>
      need (o ≤ 1 && x0 && fm.vec && r.b == 0 && r.c == 0) (some (.fkey h s (o == 1) fm d a))
  | 0x55 => r.fp true fun s o fm => need (o == 0 && x0 && fm.flt && r.b == 0 && r.c == 0) (some (.fclass h s fm d a))
  | 0x60 => r.fp true fun s o fm => need (o == 0 && x0 && fm == .fp32) (some (.hash64 h s d a b c))
  | 0x61 => r.fp true fun s o fm => need (o == 0 && x0 && fm == .fp32) (some (.gumb h s d a b c))
  | _ => none

/-- Memory, atomics and capabilities (R290, R309, R310, R43, R158, R159). -/
def decMemory (r : Raw) (h : Hd) : Option Instr :=
  let d := r.d.toNat
  let a := r.a.toNat
  let b := r.b.toNat
  let c := r.c.toNat
  match r.opc.toNat with
  | 0x70 => r.mem false fun m o => need (o == 0 && r.ext == 0 && r.c == 0 && m.sem.load && (m.s || m.size.plain))
      (some (.ld h m d a b r.imm))
  | 0x71 => r.mem true fun m o => need (o == 0 && r.ext == 0 && r.d == 0 && m.sem.store && (m.s || m.size.plain))
      (some (.st h m a b c r.imm))
  | 0x72 => r.mem false fun m o => onSome (AtomOp.ofCode o) fun op =>
      need (r.ext == 0 && m.sem.atom && m.size.word) (some (.atom h m op d a b c r.imm))
  | 0x73 => r.mem true fun m o => onSome (AtomOp.ofCode o) fun op =>
      need (r.ext == 0 && r.d == 0 && m.sem.red && m.size.word && op.red) (some (.red h m op a b c r.imm))
  | 0x74 => r.mem true fun m o => need (o == 0 && r.d == 0 && m.sem.store && m.size.plain)
      (some (.stf h m a b c r.imm (r.ext.extractLsb' 0 8).toNat (r.ext.extractLsb' 8 24)))
  | 0x75 => r.scopeX fun sc => need (r.noImm && r.sub.extractLsb' 3 5 == 0 && r.sub.extractLsb' 0 3 != 0
      && r.zero true true true true) (some (.fence h sc (r.sub.extractLsb' 0 3)))
  | 0x76 => r.scopeX fun sc =>
      let w := Path.ofCode (r.sub.extractLsb' 0 2).toNat
      let p := Path.ofCode (r.sub.extractLsb' 2 2).toNat
      need (r.noImm && r.sub.extractLsb' 4 4 == 0 && w != p && r.zero true true true true) (some (.pfence h sc w p))
  | 0x77 => r.mem true fun m o => need (o == 0 && r.ext == 0 && r.d == 0 && !m.s && m.sem.store && m.size.plain)
      (some (.vcompst h m a b c r.imm))
  | 0x78 => r.mem false fun m o => need (o == 0 && r.ext == 0 && r.c == 0 && !m.s && m.sem.load && m.size.plain)
      (some (.vexpld h m d a b r.imm))
  | 0x79 => onSome (CapMode.ofCode (r.sub.extractLsb' 0 3).toNat) fun mode =>
      need (r.noImm && !r.sub.getLsbD 7 && capnewOk mode (r.sub.extractLsb' 3 4) r.x a b c)
        (some (.capnew h mode (r.sub.extractLsb' 3 4) r.x d a b c))
  | 0x7A => onSome (CapSel.ofCode r.sub.toNat) fun q =>
      need (r.noImm && r.x == 0 && r.b == 0 && r.c == 0) (some (.capget h q d a))
  | 0x7B => need (r.noImm && r.x == 0 && !r.sub.getLsbD 7) (some (.capchk h r.sub d a b c))
  | 0x7C => need (r.plain && r.b == 0 && r.c == 0) (some (.stag h d a))
  | 0x7D => need (r.plain && r.c == 0) (some (.stagset h d a b))
  | 0x7E => need (r.plain && r.zero true false true true) (some (.staginv h a))
  | _ => none

/-- Copy engine and synchronisation (R311, R394). -/
def decCopy (r : Raw) (h : Hd) : Option Instr :=
  let d := r.d.toNat
  let a := r.a.toNat
  let b := r.b.toNat
  let c := r.c.toNat
  match r.opc.toNat with
  | 0x90 => r.copyF fun f => need (f.ok && r.imm == 0) (some (.copy h f d a b c))
  | 0x91 => r.copyF fun f => need (f.ok && r.imm.extractLsb' 8 24 == 0 && r.imm.extractLsb' 0 8 != 0)
      (some (.copym h f d a b c (r.imm.extractLsb' 0 8)))
  | 0x92 => r.copyF fun f => need (f.ok && r.imm == 0) (some (.copysel h f d a b c))
  | 0x93 => need (r.sub.extractLsb' 1 7 == 0 && r.x == 0 && r.noImm && r.d == 0)
      (some (.phinit h (r.sub.getLsbD 0) a b c))
  | 0x94 => need (r.plain && r.d == 0) (some (.pharr h a b c))
  | 0x95 => need r.plain (some (.phwait h d a b c))
  | 0x96 => need r.plain (some (.phtest h d a b c))
  | 0x97 => need (r.plain && r.c == 0) (some (.bar h d a b))
  | _ => none

/-- Attention contexts and matrix (R312, R410). -/
def decAttention (r : Raw) (h : Hd) : Option Instr :=
  let d := r.d.toNat
  let a := r.a.toNat
  let b := r.b.toNat
  let c := r.c.toNat
  match r.opc.toNat with
  | 0xA0 => need r.plain (some (.apos h d a b c))
  | 0xA1 => onSome (Fmt.ofCode (r.ext.extractLsb' 0 4).toNat) fun ks =>
      onSome (Fmt.ofCode (r.ext.extractLsb' 4 4).toNat) fun vs =>
      need (r.sub == 0 && r.x == 0 && r.d == 0 && r.ext.extractLsb' 8 24 == 0 && ks.flt && vs.flt)
        (some (.kvst h ks vs a b c r.imm))
  | 0xA2 => r.scopeX fun sc => need (r.noImm && r.sub.extractLsb' 1 7 == 0 && r.d == 0)
      (some (.kvpub h (r.sub.getLsbD 0) sc a b c))
  | 0xA3 => r.scopeX fun sc => need (r.noImm && r.sub == 0 && r.c == 0) (some (.kvacq h sc d a b))
  | 0xA4 => need (r.sub == 0 && r.x == 0 && r.imm.extractLsb' 16 16 == 0 && r.ext.extractLsb' 17 15 == 0)
      (some (.kvld h (r.ext.getLsbD 16) (r.ext.extractLsb' 8 8) (r.ext.extractLsb' 0 8) (r.imm.extractLsb' 0 16)
        d a b c))
  | 0xA5 => r.scopeX fun sc => need (r.noImm && r.sub == 0 && r.b == 0) (some (.kvfork h sc d a c))
  | 0xA6 => need (r.plain && r.b == 0 && r.c == 0) (some (.kvrel h d a))
  | 0xA7 => onSome (Fmt.ofCode r.sub.toNat) fun fm => need (r.noImm && r.x == 0 && fm.vec) (some (.qrot h fm d a b c))
  | 0xA8 => onSome (KvSel.ofCode r.sub.toNat) fun q =>
      need (r.noImm && r.x == 0 && r.c == 0 && (q != .pos || r.b == 0)) (some (.kvstat h q d a b))
  | 0xB0 => need (r.plain && r.b == 0 && r.c == 0) (some (.mdecl h d a))
  | 0xB1 => need (r.sub.extractLsb' 1 7 == 0 && r.x == 0 && r.noImm && r.a == 0 && r.c == 0)
      (some (.msign h (r.sub.getLsbD 0) d b))
  | 0xB2 => need (r.plain && r.c == 0) (some (.mldmask h d a b))
  | 0xB3 => need (r.noImm && r.zero true true true true) (some (.mzero h (r.x ++ r.sub)))
  | 0xB4 => need (r.plain && r.zero true false true true) (some (.mbudget h a))
  | 0xB5 => need (r.x == 0 && r.noImm && r.b == 0 && r.c == 0 && mstatOk r.sub a) (some (.mstat h r.sub d a))
  | _ => none

/-- The fields of an opcode by its group. -/
def decBody (r : Raw) : Option Instr :=
  let h : Hd := ⟨r.pg, r.fs, r.bnd⟩
  let n := r.opc.toNat
  if n < 0x20 then decControl r h
  else if n < 0x40 then decInteger r h
  else if n < 0x70 then decFloat r h
  else if n < 0x80 then decMemory r h
  else if n < 0xA0 then decCopy r h
  else decAttention r h

/-- Decodes the fields of a word group whose LEN is not 11: the opcode, its length, PG, FS, BND, then the fields of
its entry. -/
def decodeRaw (r : Raw) : Except DecErr Instr :=
  match opRule r.opc with
  | none => .error .unassigned
  | some rule =>
    if !rule.lens.contains r.len then .error .length
    else if r.pg = 15 ∨ (rule.pg7 ∧ r.pg ≠ 7) then .error .guarded
    else if rule.fs0 ∧ r.fs then .error .slot
    else if rule.bnd1 ∧ ¬ r.bnd then .error .boundary
    else
      match decBody r with
      | some i => .ok i
      | none => .error .reserved

/-- The bits of a word group above its own length are not part of it (R284). -/
def trimGroup (w : BitVec 128) : BitVec 128 :=
  let n := groupBytes (w.extractLsb' 0 32)
  if n = 4 then w &&& 0xFFFFFFFF#128
  else if n = 8 then w &&& 0xFFFFFFFFFFFFFFFF#128
  else if n = 12 then w &&& 0xFFFFFFFFFFFFFFFFFFFFFFFF#128
  else w

/-- Decodes a word group that starts in bit 0: total on any bits, rejecting by name.
Open points: DEDUCED, log 40 and 57 and 59. -/
def decode (w : BitVec 128) : Except DecErr Instr :=
  let w := trimGroup w
  if w.extractLsb' 0 2 = 3#2 then
    if w.getLsbD 2 then (if w = fillWord then .ok .fill else .error .filler)
    else .error .isPrefix
  else decodeRaw (Raw.ofBits w)

/-- The instruction the decoder reads from a row of the opcode table: bits above `nbits` are zero. -/
def decodeTableWord (nbits w : Nat) : Option Instr :=
  match decode (BitVec.ofNat 128 (w % 2 ^ nbits)) with
  | .ok i => some i
  | .error _ => none

/-- The bytes of a word group as memory holds them, the lowest address first (R3, R284). -/
def groupMem (w : BitVec 128) : List (BitVec 8) := (List.range 16).map fun n => w.extractLsb' (8 * n) 8

/-! ### Prefixes -/

/-- A REP prefix: repeats and the step of each register field (R294). -/
structure RepF where
  reps : Nat
  d    : Nat
  a    : Nat
  b    : Nat
  c    : Nat
  deriving DecidableEq, Repr

/-- Step codes of REP: +0, +1, +2, +4 (R294). -/
def stepOf (code : BitVec 2) : Nat :=
  if code = 0#2 then 0 else if code = 1#2 then 1 else if code = 2#2 then 2 else 4

/-- A MOD prefix: rounding mode and SAT; `none` where a reserved bit or mode 6 or 7 stands (R293). -/
def decodeMod (w : W64) : Option (Rnd × Bool) :=
  if w.extractLsb' 12 52 = 0#52 then
    match Rnd.ofCode (w.extractLsb' 8 3).toNat with
    | some m => some (m, w.getLsbD 11)
    | none => none
  else none

/-- A REP prefix; `none` where a reserved bit stands (R294). -/
def decodeRep (w : W64) : Option RepF :=
  if w.extractLsb' 22 42 = 0#42 then
    some { reps := (w.extractLsb' 8 6).toNat + 1, d := stepOf (w.extractLsb' 14 2), a := stepOf (w.extractLsb' 16 2)
           b := stepOf (w.extractLsb' 18 2), c := stepOf (w.extractLsb' 20 2) }
  else none

/-- May MOD modify an opcode: the floating-point group 0x40–0x55 (R293). -/
def modMay (opc : BitVec 8) : Bool := 0x40 ≤ opc.toNat && opc.toNat ≤ 0x55

/-- May REP modify an opcode (R294). -/
def repMay (opc : BitVec 8) : Bool :=
  let n := opc.toNat
  (0x20 ≤ n && n ≤ 0x3E) || (0x40 ≤ n && n ≤ 0x55) || n == 0x60 || n == 0x61 || (0x70 ≤ n && n ≤ 0x74) || n == 0x78

/-- The register fields D, A, B, C that an instruction uses as register fields (R294). -/
def Instr.uses : Instr → Bool × Bool × Bool × Bool
  | .iadd .. | .isub .. | .imul .. | .imulh .. | .imin .. | .imax .. | .and .. | .or .. | .xor .. | .andn ..
  | .shl .. | .rol .. | .bfe .. | .isetp .. | .lea .. | .shfl .. => (true, true, true, false)
  | .imad .. | .bfi .. | .bswz .. | .sel .. => (true, true, true, true)
  | .shr _ _ op _ _ _ _ => (true, true, true, op == .fun_)
  | .iabs .. | .popc .. | .clz .. | .brev .. | .mov .. | .ballot .. | .vote .. | .iredux .. =>
      (true, true, false, false)
  | .plog _ op _ _ _ => (true, true, !(op == .not || op == .mov), false)
  | .movi32 .. | .movi64 .. => (true, false, false, false)
  | .fadd .. | .fmul .. | .fmin .. | .fmax .. | .fsetp .. | .fpack .. => (true, true, true, false)
  | .ffma .. | .vdot4 .. | .hash64 .. | .gumb .. => (true, true, true, true)
  | .fcvt .. | .ftoi .. | .itof .. | .frcp .. | .frsq .. | .fexp2 .. | .flog2 .. | .ftrig .. | .fargmax ..
  | .vhad .. | .fredux .. | .funpk .. | .fkey .. | .fclass .. => (true, true, false, false)
  | .ld .. | .vexpld .. => (true, true, true, false)
  | .st .. | .red .. | .stf .. => (false, true, true, true)
  | .atom .. => (true, true, true, true)
  | _ => (false, false, false, false)

/-- Does REP step only fields that the instruction uses (R294). -/
def RepF.fits (r : RepF) (i : Instr) : Bool :=
  let (ud, ua, ub, uc) := i.uses
  (ud || r.d == 0) && (ua || r.a == 0) && (ub || r.b == 0) && (uc || r.c == 0)

/-- The instruction with its register fields moved on (R295: no wrap). -/
def Instr.stepped (i : Instr) (sd sa sb sc : Nat) : Instr :=
  match i with
  | .iadd h f d a b => .iadd h f (d + sd) (a + sa) (b + sb)
  | .isub h f d a b => .isub h f (d + sd) (a + sa) (b + sb)
  | .imul h f d a b => .imul h f (d + sd) (a + sa) (b + sb)
  | .imulh h f d a b => .imulh h f (d + sd) (a + sa) (b + sb)
  | .imad h f d a b c => .imad h f (d + sd) (a + sa) (b + sb) (c + sc)
  | .imin h f d a b => .imin h f (d + sd) (a + sa) (b + sb)
  | .imax h f d a b => .imax h f (d + sd) (a + sa) (b + sb)
  | .iabs h f d a => .iabs h f (d + sd) (a + sa)
  | .and h f d a b => .and h f (d + sd) (a + sa) (b + sb)
  | .or h f d a b => .or h f (d + sd) (a + sa) (b + sb)
  | .xor h f d a b => .xor h f (d + sd) (a + sa) (b + sb)
  | .andn h f d a b => .andn h f (d + sd) (a + sa) (b + sb)
  | .shl h f d a b => .shl h f (d + sd) (a + sa) (b + sb)
  | .shr h f op d a b c => .shr h f op (d + sd) (a + sa) (b + sb) (c + sc)
  | .rol h f d a b => .rol h f (d + sd) (a + sa) (b + sb)
  | .bfe h f d a b => .bfe h f (d + sd) (a + sa) (b + sb)
  | .bfi h f d a b c => .bfi h f (d + sd) (a + sa) (b + sb) (c + sc)
  | .popc h f d a => .popc h f (d + sd) (a + sa)
  | .clz h f d a => .clz h f (d + sd) (a + sa)
  | .brev h f d a => .brev h f (d + sd) (a + sa)
  | .bswz h s d a b c => .bswz h s (d + sd) (a + sa) (b + sb) (c + sc)
  | .isetp h ty op d a b => .isetp h ty op (d + sd) (a + sa) (b + sb)
  | .sel h ty d a b c => .sel h ty (d + sd) (a + sa) (b + sb) (c + sc)
  | .plog h op d a b => .plog h op (d + sd) (a + sa) (b + sb)
  | .mov h f d a => .mov h f (d + sd) (a + sa)
  | .movi32 h s d imm => .movi32 h s (d + sd) imm
  | .movi64 h s d imm => .movi64 h s (d + sd) imm
  | .lea h s sh d a b => .lea h s sh (d + sd) (a + sa) (b + sb)
  | .ballot h d a => .ballot h (d + sd) (a + sa)
  | .vote h op d a => .vote h op (d + sd) (a + sa)
  | .shfl h ty op d a b => .shfl h ty op (d + sd) (a + sa) (b + sb)
  | .iredux h ty op d a => .iredux h ty op (d + sd) (a + sa)
  | .fadd h s fm d a b => .fadd h s fm (d + sd) (a + sa) (b + sb)
  | .fmul h s fm d a b => .fmul h s fm (d + sd) (a + sa) (b + sb)
  | .ffma h s fm d a b c => .ffma h s fm (d + sd) (a + sa) (b + sb) (c + sc)
  | .fmin h s fm d a b => .fmin h s fm (d + sd) (a + sa) (b + sb)
  | .fmax h s fm d a b => .fmax h s fm (d + sd) (a + sa) (b + sb)
  | .fsetp h fm op d a b => .fsetp h fm op (d + sd) (a + sa) (b + sb)
  | .fcvt h s t c m d a => .fcvt h s t c m (d + sd) (a + sa)
  | .ftoi h s t c d a => .ftoi h s t c (d + sd) (a + sa)
  | .itof h s t c d a => .itof h s t c (d + sd) (a + sa)
  | .frcp h s d a => .frcp h s (d + sd) (a + sa)
  | .frsq h s d a => .frsq h s (d + sd) (a + sa)
  | .fexp2 h s d a => .fexp2 h s (d + sd) (a + sa)
  | .flog2 h s d a => .flog2 h s (d + sd) (a + sa)
  | .ftrig h s c d a => .ftrig h s c (d + sd) (a + sa)
  | .fargmax h fm d a => .fargmax h fm (d + sd) (a + sa)
  | .vdot4 h s fm d a b c => .vdot4 h s fm (d + sd) (a + sa) (b + sb) (c + sc)
  | .vhad h w d a => .vhad h w (d + sd) (a + sa)
  | .fredux h op d a => .fredux h op (d + sd) (a + sa)
  | .fpack h s fm d a b => .fpack h s fm (d + sd) (a + sa) (b + sb)
  | .funpk h s fm d a => .funpk h s fm (d + sd) (a + sa)
  | .fkey h s k fm d a => .fkey h s k fm (d + sd) (a + sa)
  | .fclass h s fm d a => .fclass h s fm (d + sd) (a + sa)
  | .hash64 h s d a b c => .hash64 h s (d + sd) (a + sa) (b + sb) (c + sc)
  | .gumb h s d a b c => .gumb h s (d + sd) (a + sa) (b + sb) (c + sc)
  | .ld h m d a b imm => .ld h m (d + sd) (a + sa) (b + sb) imm
  | .st h m a b c imm => .st h m (a + sa) (b + sb) (c + sc) imm
  | .atom h m op d a b c imm => .atom h m op (d + sd) (a + sa) (b + sb) (c + sc) imm
  | .red h m op a b c imm => .red h m op (a + sa) (b + sb) (c + sc) imm
  | .stf h m a b c imm fk fo => .stf h m (a + sa) (b + sb) (c + sc) imm fk fo
  | .vexpld h m d a b imm => .vexpld h m (d + sd) (a + sa) (b + sb) imm
  | i => i

end Sys2Proof
end

