-- ==== Sys2Proof/Config.lean ====
section
/-! DEFINITION. What the module fixes once, and the free values: values that the spec leaves open. A free value
is an opaque constant applied to the plain counter `State.freeIdx`; no proof can see what it is. -/

namespace Sys2Proof.Config

/-- Offset of a copy's promise from CLOCK at issue, before it is bounded by 2^32 (R142 gives only the bounds).
A free value (log 4). -/
opaque freePromise : Nat → BitVec 33

/-- Does a failed copy write the given byte of its destination (R398: an unknown subset). A free value (log 4). -/
opaque freeWritten : Nat → Bool

/-- A byte that a failed copy writes without having read it (R398 does not say which bytes arrive). A free value (log 4). -/
opaque freeByte : Nat → BitVec 8

/-- A byte of the digest of the boot ROM, whose contents the spec does not give (R57). A free value (log 4). -/
opaque freeRom : Nat → BitVec 8

/-- AES-XTS-256 of one granule under a named key with a tweak, and its decryption (R54). The keys come from the module's
random number generator and never leave it (R55). Free values (log 66). -/
opaque xtsEnc : Nat → Nat → BitVec 512 → BitVec 512

opaque xtsDec : Nat → Nat → BitVec 512 → BitVec 512

/-- The choice among the least-loaded ports for an AD packet (R34). A free value (log 67). -/
opaque freePort : Nat → Nat

/-- The hash of source, target and sequence number that chooses an RT packet's intermediate module (R34). A free value
(log 67). -/
opaque freeHop : Nat → Nat → Nat → Nat

/-- The certificate chain in slot 0 and the device identity key held in fuses (R57). Free values (log 68). -/
opaque certChain : List (BitVec 8)

opaque identityKey : Nat

/-- An ECDSA P-384 signature of a digest under a key (R57). A free value (log 68). -/
opaque freeSignature : Nat → List Nat → List Nat

/-- Bytes of one GiB. -/
def gib : Nat := 2 ^ 30

/-- Cycles of CLOCK in one microsecond at 4.0 GHz (R26). -/
def us : Nat := 4000

/-- Bytes of one DRAM stack (R6: 256 GiB). -/
def stackBytes : Nat := 256 * gib

/-- Where the second tier begins in device physical memory (R52: 16 TiB). -/
def tierBase : Nat := 16 * 1024 * gib

/-- Entries of one core's outstanding-transaction table, and those reserved for the progress team (R37). -/
def ottEntries : Nat := 256
def ottReserved : Nat := 8

/-- Entries of a core's copy queue and the copies it runs at once (R140). -/
def copyQueue : Nat := 64
def copyActive : Nat := 8

/-- Requests held by a core group's Saffron queue (R232) and rows of a full batch (R233). -/
def saffronEntries : Nat := 64
def batchRows : Nat := 256

/-- Records of a partition's pending store and those reserved for spawned records (R76). -/
def pendingEntries : Nat := 1024
def pendingReserved : Nat := 64

end Sys2Proof.Config
end

