-- ==== Sys2Proof/Machine/State.lean ====
section
/-! DEFINITION. The state of one CHM-408 module as plain data: every register, memory, table and queue that the
spec names, the work in flight, and the model's own bookkeeping (INVENTORY.md, '## State'). -/

namespace Sys2Proof.Machine

open Sys2Proof

/-- Why the machine stops. Every trap, TDISP error and failed operation of the spec is a NEXT state and none of
these. -/
inductive Fault where
  /-- Raised by UNCORRECTABLE_MEMORY_ERROR alone: the named device physical address lies in no DRAM stack and in
  no populated second-tier port (R52), so there is no such memory. Safe: nothing goes on. -/
  | noSuchMemory (pa : Nat)
  deriving DecidableEq, Repr

/-- Why the machine has no meaning for a step. -/
inductive Refusal where
  /-- Raised by an arm of `exec` whose meaning is not written yet. Safe: nothing goes on. -/
  | notModelled (mnemonic : String)
  deriving DecidableEq, Repr

/-! ### Traps -/

/-- Trap codes (R252). -/
inductive TrapCode where
  | illegalOpcode | illegalPrefix | runHazard | branchTarget | capBounds | capPerm | capTag | pageFault | peerAbsent
  | peerDown | promiseMissed | convMismatch | maskTopology | scratchEcc | remoteFault | misaligned | regRange
  | software | break_
  deriving DecidableEq, Repr

def TrapCode.code : TrapCode → Nat
  | .illegalOpcode => 0x01 | .illegalPrefix => 0x02 | .runHazard => 0x03 | .branchTarget => 0x04
  | .capBounds => 0x05 | .capPerm => 0x06 | .capTag => 0x07 | .pageFault => 0x08 | .peerAbsent => 0x09
  | .peerDown => 0x0A | .promiseMissed => 0x0B | .convMismatch => 0x0C | .maskTopology => 0x0D | .scratchEcc => 0x0E
  | .remoteFault => 0x0F | .misaligned => 0x10 | .regRange => 0x11 | .software => 0x12 | .break_ => 0x13

/-- Where the handler's return resumes (R252 Table 1). -/
inductive Resume where
  /-- The trapping word, prefix or instruction. -/
  | same
  /-- The instruction after. -/
  | after
  /-- The first instruction of the run whose header trapped. -/
  | runStart
  deriving DecidableEq, Repr

/-- A trap as its cause states it (R252, R254): code, DETAIL, the lane whose operand caused it (none for a uniform
cause), the HDR and FNC bits, and where the return resumes. -/
structure Trap where
  code   : TrapCode
  detail : BitVec 16
  lane   : Option Nat
  hdr    : Bool
  fnc    : Bool
  resume : Resume
  deriving DecidableEq, Repr

/-! ### Weaves, groups and threads -/

/-- Where an issue group stands: arrived by a transfer (launch, branch, handler entry), between runs after a
boundary, or inside a run (R299). -/
inductive Pos where
  | arrived | between | inRun
  deriving DecidableEq, Repr

/-- The run an issue group is in: its header, the latched slots (R317), the instructions already counted (R102)
and the registers that variable-latency instructions of the run write (R109 case 1: class and number). -/
structure Run where
  hdr   : W64
  slotA : Option (BitVec 4)
  slotB : Option (BitVec 4)
  count : Nat
  vl    : List (Nat × Nat)
  deriving DecidableEq, Repr

/-- What an issue group waits for. -/
inductive Sleep where
  /-- In the ready set, or held at a header by its flags. -/
  | awake
  /-- Held at a RUN header by the wait mask (R108). -/
  | header (mask : BitVec 12)
  /-- PHWAIT or BAR on an object of a cohort instance, awaiting the end of a parity; the status goes to `s d`
  (R146, R406). -/
  | phase (inst : Nat) (obj : Nat) (parity : Bool) (d : Nat)
  /-- PHWAIT or BAR whose operation has not yet been applied at the barrier unit (R399); the status goes to `s d`. -/
  | unit (d : Nat)
  /-- WAITT until CLOCK reaches the promise (R325), with its boundary bit. -/
  | clock (t : W64) (bnd : Bool)
  /-- CWAIT by a scope-table operation (R97). -/
  | scope (op : Nat)
  /-- An LS, KV or fetch fault under service (R139). -/
  | fault (id : Nat)
  /-- A stall inside a run (R104). -/
  | stall
  /-- Another group of the weave is in its handler; the trap is not yet taken (R255): its address, the length and the
  boundary bit of its word group, and the trap. -/
  | handler (addr : W64) (len : Nat) (bnd : Bool) (trap : Trap)
  deriving DecidableEq, Repr

/-- An issue group: threads of one weave that share one PC (R110), its progress index (R120), the runs its weave has
issued since it issued last (R112), whether it holds an issue port of its quarter (R104, R111), and the address and bytes of
an instruction that it has fetched and must issue again (R301). -/
structure Group where
  gid      : Nat
  lanes    : Lanes
  pc       : W64
  pos      : Pos
  run      : Run
  progress : Nat
  sleep    : Sleep
  halted   : Bool
  skipped  : Nat
  port     : Bool
  latch    : Option (W64 × List (BitVec 8))
  deriving DecidableEq, Repr

/-- A frame of a thread's stack: a call frame or a trap frame (R316, R255). -/
inductive Frame where
  | call (ret : W64)
  | trap (resume : W64) (pos : Pos) (run : Run) (progress : Nat)
  deriving DecidableEq, Repr

/-- An active hardware-loop level (R322); a level without an entry is inactive. -/
structure Loop where
  iter  : W32
  start : W64
  stop  : W64
  inner : BitVec 4
  deriving DecidableEq, Repr

/-- Register classes as R254 numbers them for RUN_HAZARD. -/
inductive RegCls where
  | v | s | p | k
  deriving DecidableEq, Repr

/-- A pending write (R109): a register, the threads that carry the mark, and the operation that writes it. -/
structure Mark where
  cls   : RegCls
  reg   : Nat
  lanes : Lanes
  op    : Nat
  deriving DecidableEq, Repr

/-- An error known to the machine and not yet raised: at a FENCE or at a completion wait (R40, R139, R230,
R398). -/
inductive Deferred where
  | remote (store : Bool) (flag : Option Nat) (peer : BitVec 9) (cls : RClass)
  | page (flag : Option Nat) (path : Path) (kind : Nat) (ecc : Bool)
  | copyPage (kind : Nat) (ecc : Bool)
  | copyRemote (peer : BitVec 9) (cls : RClass)
  | mxRemote (flag : Option Nat) (peer : BitVec 9)
  | mask (flag : Option Nat) (cv : Nat) (detail : BitVec 16)
  deriving DecidableEq, Repr

/-- A weave: its per-weave registers (s, k, flags, WSTAT, TRAPINFO), its threads' registers (v keyed by
register × 32 + lane, p as lane sets), frames, loop levels (lane × 4 + level) and issue groups. A register without
an entry is zero, false or untagged. `dead` names the threads that a kill has ended, not EXIT (R91, R257). -/
structure Weave where
  team     : Nat
  idx      : Nat
  slot     : Nat
  age      : Nat
  live     : Lanes
  s        : Tbl W64
  k        : Tbl Cap
  cf       : Tbl Nat
  v        : Tbl W32
  p        : Tbl Lanes
  wstat    : W64
  trapinfo : W64
  frames   : Tbl (List Frame)
  loops    : Tbl Loop
  marks    : List Mark
  errs     : List Deferred
  groups   : List Group
  killed   : Bool
  dead     : Lanes
  deriving DecidableEq, Repr

/-! ### Teams, cohorts, fields, records -/

/-- A mask parameter block as latched (R229). -/
structure MaskBlk where
  count  : Nat
  base   : Nat
  parent : List Nat
  depth  : List Nat
  row    : List W64
  deriving DecidableEq, Repr

/-- State of a convergence register (R218). -/
inductive CvSt where
  | clear | declared | signing
  deriving DecidableEq, Repr

/-- The first signer's snapshot (R220): kind, descriptor words and the k registers named. -/
structure Snap where
  attn  : Bool
  words : List W64
  caps  : List Cap
  deriving DecidableEq, Repr

/-- A convergence register (R218–R231): signers are kept per weave, with the flag each issue counted on; `pend`
names the submitted requests that wait for a Saffron entry. -/
structure Cv where
  st     : CvSt
  set    : W32
  signed : Tbl Lanes
  signers : List (Nat × Option Nat)
  snap   : Option Snap
  pend   : List Nat
  mask   : Option MaskBlk
  deriving DecidableEq, Repr

/-- A resident or saved team (R74, R131, R237). Its scratchpad bytes, tags and accumulator elements (block × 4096 +
row × 64 + column) without an entry are zero. -/
structure Team where
  cohort   : Nat
  num      : Nat
  core     : Nat
  place    : Nat
  spad     : List Host.Cell
  spadTags : List Nat
  stag     : Tbl W32
  acc      : Tbl W32
  cv       : Tbl Cv
  deadline : Nat
  unitcap  : Nat
  charged  : W32
  charges  : List (Nat × Nat)
  killed   : Bool
  ending   : Bool
  ended    : Bool
  deriving DecidableEq, Repr

/-- A phase object (R144). `arrived` and `arrivedLast` name the cohorts of whose weaves an arrival counted in the
present phase and in the last completed one, `copied` and `copiedLast` say that a copy's arrival did (R409). -/
structure Phase where
  owner       : W32
  poison      : Bool
  bytes       : Bool
  parity      : Bool
  remain      : W32
  expect      : W32
  arrived     : List Nat
  arrivedLast : List Nat
  copied      : Bool
  copiedLast  : Bool
  deriving DecidableEq, Repr

/-- What an operation does to a phase object (R404–R408, R398). -/
inductive PhKind where
  | init (bytes : Bool) (expect owner : W32)
  | arrive (units : W32)
  | wait (parity : Bool) (d : Nat)
  | bar (d : Nat)
  | copy (bytes : Nat)
  deriving DecidableEq, Repr

/-- An operation on a phase object that is still to be applied (R399, R268): the object, the issuing weave, group and
cohort. -/
structure PhOp where
  part   : Nat
  inst   : Nat
  obj    : Nat
  weave  : Nat
  gid    : Nat
  cohort : Nat
  kind   : PhKind
  deriving DecidableEq, Repr

/-- Where a cohort stands (R264–R269): an ended one is kept while something of it is still in flight. -/
inductive CohSt where
  | resident | halting | saving | saved | ended
  deriving DecidableEq, Repr

/-- A placed cohort (R75, R130). `lost` says that a scratchpad error has killed it (R261). -/
structure Cohort where
  field    : Nat
  index    : Nat
  inst     : Nat
  cg       : Nat
  st       : CohSt
  placedAt : Nat
  phases   : Tbl Phase
  held     : List PhOp
  lost     : Bool
  deriving DecidableEq, Repr

/-- The fields of a launch record (R68). -/
structure LaunchRec where
  code    : Cap
  param   : Cap
  trap    : Cap
  dep     : Cap
  cohorts : Nat
  stages  : Nat
  teams   : Nat
  threads : Nat
  vregs   : Nat
  spadKib : Nat
  accBlk  : Nat
  prio    : Nat
  scope   : Nat
  depVal  : W64
  argPtr  : W64
  flags   : W32
  deriving DecidableEq, Repr

/-- Where a record came from: a host queue by its local index, or SPAWN (R68). -/
inductive RecSrc where
  | queue (lidx : Nat)
  | spawn
  deriving DecidableEq, Repr

/-- A record in the pending store (R76), with what is still unplaced of it. `found` says that its dependence has been
found met (R72), `met` that its arguments have been read too (R70); `redo` lists cohorts to be placed again: index, and
the saved cohort's name + 1, or 0 for a relaunch. -/
structure Record where
  part   : Nat
  lr     : LaunchRec
  src    : RecSrc
  addr   : W64
  scope  : W32
  seq    : Nat
  found  : Bool
  met    : Bool
  args   : List W64
  field  : Option Nat
  next   : Nat
  redo   : List (Nat × Nat)
  fault  : Option Nat
  deriving DecidableEq, Repr

/-- A started field (R100). `left` counts cohorts not yet ended; `redone` the relaunches of each cohort index
(R262); `lastBy` says, once its last weave has ended, which cancellation its scope was then under (R94); `ended` says that
FIELD_END has come. -/
structure Field where
  part   : Nat
  number : Nat
  lr     : LaunchRec
  src    : RecSrc
  scope  : W32
  args   : List W64
  seq    : Nat
  left   : Nat
  redone : Tbl Nat
  failed : Bool
  lastBy : Option (Option Nat)
  ended  : Bool
  deriving DecidableEq, Repr

/-! ### Operations in flight -/

/-- Where one element access lands: device physical memory, a team's scratchpad, a team's accumulator, a peer, or an
address of the own module that is not translated yet. -/
inductive Loc where
  | virt (lva : BitVec 55)
  | mem (pa : Nat)
  | spad (team off : Nat)
  | acc (team idx : Nat)
  | remote (peer : BitVec 9) (lva : BitVec 55)
  deriving DecidableEq, Repr

/-- One element access of an LS instruction. `inc` marks the flag increment of an STF's lane (R44); `got` is the value
once the access has performed, `torn` the bytes of an unaligned access that have been read or written before (R153). -/
structure Acc where
  lane : Nat
  loc  : Loc
  size : Nat
  op   : ReqOp
  inc  : Bool
  got  : Option (BitVec 128 × Bool)
  torn : Tbl (BitVec 8)
  deriving DecidableEq, Repr

/-- What an LS operation is for the rules of ordering and of errors: VEXPLD is a load, VCOMPST a store (R154, R40). -/
inductive LsKind where
  | ld | st | atom | red | stf
  deriving DecidableEq, Repr

/-- Where results go. -/
inductive Dest where
  | none
  | v (reg : Nat) (wide : Bool)
  | s (reg : Nat)
  | k (reg : Nat)
  deriving DecidableEq, Repr

/-- An LS operation in flight (R107, R378): the active threads, whether it is scalar, its accesses, what it completes
on, and an STF's flag address. `hole` names the group of a VCOMPST whose later elements are not translated yet
(R387). -/
structure LsOp where
  weave  : Nat
  part   : Nat
  ident  : Ident
  scopeH : W32
  lanes  : Lanes
  sc     : Bool
  kind   : LsKind
  sem    : Sem
  cls    : RClass
  scope  : Scope
  accs   : List Acc
  flag   : Option Nat
  dest   : Dest
  stf    : Option W64
  hole   : Option Nat
  err    : Option (BitVec 9)
  ecc    : Bool
  deriving DecidableEq, Repr

/-- An entry of a core's outstanding-transaction table (R37): one packet of one instruction, with the granules it
names at its peer (an STF's flag is another one) and its accesses by their place in the operation. -/
structure Ott where
  core     : Nat
  weave    : Nat
  op       : Nat
  peer     : BitVec 9
  granules : List Nat
  cls      : RClass
  writes   : Bool
  accs     : List Nat
  sent     : Bool
  heard    : Nat
  deriving DecidableEq, Repr

/-- Where a copy stands (R140). -/
inductive CopySt where
  | queued | accepted
  deriving DecidableEq, Repr

/-- The three copy instructions. -/
inductive CopyKind where
  | plain
  | multi (tmask : BitVec 8)
  | sel (s0 s1 s2 : W64)
  deriving DecidableEq, Repr

/-- A copy in a core's queue (R140, R395): descriptor, capabilities as read at issue, promise, the translations it has made
(granule and kind of access), the bytes it has read (source bytes in row order; an ACCUM COPYSEL's old records from 2^40 on),
the pieces it has written, the destinations that are complete, and the kind and memory-error bit of an unresolvable fault. -/
structure Copy where
  weave    : Nat
  team     : Nat
  cohort   : Nat
  part     : Nat
  core     : Nat
  ident    : Ident
  scopeH   : W32
  kind     : CopyKind
  f        : CopyF
  src      : Cap
  dst      : Cap
  ph       : Option W64
  srcOff   : W64
  dstOff   : W64
  rows     : Nat
  rowBytes : Nat
  srcStr   : Nat
  dstStr   : Nat
  promise  : W64
  st       : CopySt
  xl       : Tbl Nat
  got      : Tbl (BitVec 8)
  put      : List Nat
  arrived  : List Nat
  fault    : Option Nat
  err      : Option (Nat × Bool)
  deriving DecidableEq, Repr

/-- A context descriptor's fields (R163) as they passed R164; `ctx`, `rot` and `pt` are LVAs of the own module. -/
structure KvDesc where
  ctx    : Nat
  layers : Nat
  heads  : Nat
  dim    : Nat
  kfmt   : Fmt
  vfmt   : Fmt
  sinks  : Nat
  window : Nat
  wlimit : Nat
  seed   : Nat
  rot    : Nat
  pt     : Nat
  deriving DecidableEq, Repr

/-- A slot as a query read it, once and whole (R178): generation, state, and the bytes of its K and V. -/
structure SlotView where
  gen  : Nat
  st   : Nat
  data : List (BitVec 8)
  deriving DecidableEq, Repr

/-- What a KV operation does at its context (R414). -/
inductive KvKind where
  | apos (w n : W64) (d : Nat)
  | kvst (p w l : Nat) (ksrc vsrc : Fmt) (src : List (Loc × Nat))
  | kvpub (p0 p1 w l : Nat) (void : Bool) (scope : Scope)
  | kvacq (l : Nat) (scope : Scope) (d : Nat)
  | kvld (v : Bool) (head layer elem : Nat) (pos : List (Nat × Nat)) (d : Nat)
  | kvfork (child : KvDesc) (scope : Scope) (d : Nat)
  | kvrel (d : Nat)
  | kvstat (sel : KvSel) (l w : Nat) (d : Nat)
  deriving DecidableEq, Repr

/-- The register results of a step at a context. -/
inductive KvOut where
  | none
  | s (d : Nat) (v : W64)
  | v (d : Nat) (vals : List (Nat × W64))
  deriving DecidableEq, Repr

/-- A KV operation accepted by the KV path (R414), with the cycle of its acceptance; `seen` holds the slots a KVLD has
read already, `res` the results and the WSTAT bits of a step whose writes at a peer are not all acknowledged (R184). -/
structure KvOp where
  weave : Nat
  part  : Nat
  ident : Ident
  lanes : Lanes
  scopeH : W32
  desc  : KvDesc
  kind  : KvKind
  flag  : Option Nat
  at_   : Nat
  seen  : Tbl SlotView
  res   : Option (KvOut × List Nat)
  fault : Option Nat
  deriving DecidableEq, Repr

/-- Reference count of a context's page, its origin — the context into which it was allocated or copied (R190, R193) — and
its size in units of 4 KiB (R166). -/
structure PageRec where
  count  : Nat
  origin : Nat
  units  : Nat
  deriving DecidableEq, Repr

/-- A context that the KV path knows: its descriptor, for a forked child the forking weave's identity and scope and
the Fmin below which that weave counts as the publisher (R181), and the cohort that made each writer's last
reservation (R261). -/
structure CtxRec where
  desc : KvDesc
  fork : Option (Ident × Scope × Nat)
  owners : Tbl Nat
  deriving DecidableEq, Repr

/-- Reservations of an ended field, or of one killed cohort of it, in one context that are still to be voided (R94, R182,
R261): the field's number and its scope's handle, the cohort, the cancellation that counts the voids, whether an entry
of KIND 3 reports them, the voids so far, and the cycle from which they are asked for (R193). -/
structure Void where
  part   : Nat
  desc   : KvDesc
  field  : Nat
  cohort : Option Nat
  scope  : W32
  cancel : Option Nat
  report : Bool
  count  : Nat
  at_    : Nat
  fault  : Option Nat
  deriving DecidableEq, Repr

/-- An issued scope-table operation that has not yet reached the table (R333). A SPAWN's record lies at `src`; none where
it cannot be read. -/
inductive ScopeKind where
  | spawn (src : Option Loc) (addr : W64) (handle : W64) (prio : Option Nat)
  | cscope (parent : W64) (ack : Cap) (flag : Bool)
  | cancel (handle : W64)
  | cwait (handle : W64)
  deriving DecidableEq, Repr

/-- Such an operation, with the threads that issued it; `asleep` says that a CWAIT has reached the table and waits for the drain. -/
structure ScopeOp where
  weave : Nat
  gid   : Nat
  lanes : Lanes
  part  : Nat
  core  : Nat
  scopeH : W32
  kind  : ScopeKind
  d     : Nat
  flag  : Option Nat
  asleep : Bool
  fault : Option Nat
  deriving DecidableEq, Repr

/-- A scope-table entry (R85). STATE: 0 free, 1 live, 2 cancelling. INFLIGHT is derived from the operations in
flight; `by_` names the cancellation that marked the entry. -/
structure ScopeEnt where
  st     : Nat
  gen    : BitVec 20
  parent : Nat
  depth  : Nat
  teams  : Nat
  queued : Nat
  spawns : Nat
  ack    : Cap
  ackFlag : Bool
  byOp   : Option Nat
  deriving DecidableEq, Repr

/-- A cancellation that has not yet drained, with the counts of its record (R90–R95); `written` says that the record
stands in memory. -/
structure Cancel where
  part    : Nat
  top     : Nat
  marked  : List Nat
  killed  : Nat
  records : Nat
  spawns  : Nat
  copies  : Nat
  status  : BitVec 3
  voided  : Nat
  written : Bool
  fault   : Option Nat
  deriving DecidableEq, Repr

/-- A mask load in flight (R229, R230): the block's space and address, and the pieces of it that have been read. -/
structure MaskLoad where
  weave : Nat
  team  : Nat
  part  : Nat
  core  : Nat
  cv    : Nat
  cap   : Cap
  addr  : Nat
  got   : List (List (BitVec 8))
  flag  : Option Nat
  fault : Option Nat
  deriving DecidableEq, Repr

/-- Where a matrix request stands (R221, R232–R236). -/
inductive MxSt where
  | forming | pending | queued | running
  deriving DecidableEq, Repr

/-- A matrix request (R221): snapshot, an attention tile's context, the tile's mask, the signers, its place in the order of
arrival (R232, R236), and the rows of its activations or queries that have been read (R233). -/
structure MxReq where
  team    : Nat
  part    : Nat
  scopeH  : W32
  cg      : Nat
  cv      : Nat
  snap    : Snap
  desc    : Option KvDesc
  mask    : Option MaskBlk
  signers : List (Nat × Option Nat)
  st      : MxSt
  batch   : Option Nat
  cancelled : Bool
  submittedAt : Nat
  arrival : Nat
  rowsRead : List (List (BitVec 8))
  fault   : Option Nat
  deriving DecidableEq, Repr

/-- A batch of the Saffron queue (R232, R233): `tile` holds the weight rows that its array has loaded — their number is the
row-progress register (R235) —, `seen` the slots and `pc` the POSCNT that it has read, `got` granules read early. -/
structure Batch where
  cg       : Nat
  reqs     : List Nat
  closeAt  : Nat
  closed   : Bool
  passed   : Nat
  core     : Option Nat
  got      : List (Loc × List (BitVec 8))
  tile     : List (List (BitVec 8))
  pc       : Option Nat
  seen     : Tbl SlotView
  fault    : Option Nat
  deriving DecidableEq, Repr

/-- The bucket of a core group (R237) and the weight tile each of its arrays has latched. -/
structure Bucket where
  units   : Nat
  latched : Tbl (Nat × Nat)
  deriving DecidableEq, Repr

/-- Whose access met a fault, or whose remote request is under way; `code` is the instruction fetch of a core, `nobody` what no
longer waits for its answer. -/
inductive Owner where
  | group (weave gid : Nat)
  | lsOp (op : Nat)
  | copy (id : Nat)
  | kv (id : Nat)
  | mx (req : Nat)
  | batch (id : Nat)
  | maskLoad (id : Nat)
  | void (id : Nat)
  | record (id : Nat)
  | slotRead (queue : Nat)
  | cancel (id : Nat)
  | scopeOp (id : Nat)
  | aperture (id : Nat)
  | inbound (id : Nat)
  | code (core : Nat)
  | nobody
  deriving DecidableEq, Repr

/-- Where a fault in service stands (R138). -/
inductive FaultSt where
  | waiting | posted (slot : Nat)
  deriving DecidableEq, Repr

/-- A fault in service (R138): the LVA and kind, the entry's fields, and the time it was posted. `alloc` marks a
page allocation of the KV path (R188). -/
structure Flt where
  part   : Nat
  lva    : BitVec 55
  kind   : Nat
  path   : Path
  src    : Nat
  core   : Nat
  st     : FaultSt
  at_    : Nat
  owner  : Owner
  lane   : Option Nat
  alloc  : Bool
  deriving DecidableEq, Repr

/-- A shootdown in progress (R137). -/
structure Shoot where
  part : Nat
  va   : BitVec 55
  code : Nat
  wait : List Nat
  deriving DecidableEq, Repr

/-- A request from a peer that this module holds (R41), since when, and whether a hold notice has been sent. -/
structure Inbound where
  pkt    : Packet
  fault  : Option Nat
  since  : Nat
  noticed : Bool
  deriving DecidableEq, Repr

/-- A host access of a VF that is held (R64), or a doorbell held behind one: its local index and tail (R66). -/
structure ApOp where
  part  : Nat
  lva   : BitVec 55
  write : Bool
  len   : Nat
  data  : List (BitVec 8)
  bell  : Option (Nat × W32)
  fault : Option Nat
  deriving DecidableEq, Repr

/-- How a packet travels (R34, R47): the fabric port it leaves by, an RT packet's intermediate module, the session and the generation
of its keys under which it is protected, and the IV's direction identifier and sequence number. -/
structure Wire where
  port    : Nat
  via     : Option Nat
  session : Nat
  gen     : Nat
  dir     : W32
  seq     : Nat
  deriving DecidableEq, Repr

/-- A remote request of an engine (R41, R140, R150, R184): whose it is, the handle of the scope under which it was made, the
peer, the packet, when it was last heard of, and the answer. -/
structure Leg where
  owner  : Owner
  scopeH : W32
  peer   : BitVec 9
  pkt    : Packet
  heard  : Nat
  answer : Option Reply
  deriving DecidableEq, Repr

/-- What the module has sent to the outside. Open points: DESIGN CHOICE, log 3 and 64. -/
inductive Out where
  | msix (fn vec : Nat)
  | apData (part : Nat) (data : List (BitVec 8))
  | apDone (part : Nat)
  | completerAbort (part : Nat)
  | response (pkt : Packet) (r : Reply) (wire : Wire)
  | request (ott : Nat) (pkt : Packet) (wire : Wire)
  | holdNotice (req : Nat) (wire : Wire)
  | tdisp (part : Nat) (code : Nat)
  | report (part : Nat) (bytes : List Nat)
  | measurement (index : Nat) (items : List Nat)
  | peerAbsent (part : Nat) (peer : BitVec 9) (core : Nat)
  | rejected (pkt : Packet)
  | dropped (part : Nat) (index : Nat)
  | authFailure (part : Nat)
  | fatal
  | retire (pa : Nat)
  | forwarded (pkt : Packet)
  | lendRequest (peer : BitVec 9) (die pool : Nat) (wire : Wire)
  | lendReply (peer : BitVec 9) (pages : List W64) (wire : Wire)
  | pageReturn (peer : BitVec 9) (page : W64) (wire : Wire)
  | keyUpdate (session : Nat)
  | regData (fn offset : Nat) (value : W64)
  | rpData (port : Nat) (data : List (BitVec 8))
  | rpDone (port : Nat)
  | rpRefused (port : Nat)
  | certificate (chain : List (BitVec 8))
  | signature (sig : List Nat)
  | corrected (pa : Nat)
  deriving DecidableEq, Repr

/-! ### Partitions, endpoint, host die -/

/-- TDISP state (R58). -/
inductive Tdi where
  | unlocked | locked | run | error
  deriving DecidableEq, Repr

/-- A partition's configuration and its per-partition counters and tables. Peer-table, window and scope entries
without an entry are zero. `held` names the core groups that are not free yet after ERROR or STOP, `heldAt` says when
that was (R60). -/
structure Partition where
  tdi      : Tdi
  locking  : Bool
  cgmask   : W32
  msixn    : BitVec 7
  win      : Tbl W64
  peers    : Tbl W64
  ltol     : W32
  apbase   : W64
  key      : Option Nat
  instCtr  : Nat
  fieldCtr : Nat
  faultSeq : Nat
  turn     : Nat
  scopes   : Tbl ScopeEnt
  held     : W32
  heldAt   : Nat
  deriving DecidableEq, Repr

/-- A hardware queue: its QCFG (R63) and the recorded tail (R65). -/
structure Queue where
  en    : Bool
  ring  : W64
  msix  : BitVec 8
  part  : BitVec 4
  lidx  : BitVec 12
  log2n : BitVec 5
  head  : W32
  qerr  : BitVec 8
  tail  : W32
  fault : Option Nat
  deriving DecidableEq, Repr

/-- An Umber pool (R186–R189): the applied entry, the translations made for each arena, free pages (own ones in
address order, borrowed ones in order of arrival) and the outstanding borrow. Pages are domain addresses with the
device physical address of each 4 KiB unit. -/
structure Pool where
  en       : Bool
  pgsz     : Nat
  low      : Nat
  lendPeer : Option (BitVec 9)
  lendDie  : Nat
  lendPool : Nat
  arenas   : List (W64 × Nat)
  trans    : Tbl Nat
  free     : List W64
  borrowed : List W64
  asking   : Bool
  asked    : Option Nat
  deriving DecidableEq, Repr

/-- Compute-die power states (R20). -/
inductive Ps where
  | ps0 | ps1 | ps2 | ps3
  deriving DecidableEq, Repr

/-- A die's power state, and when an exit in progress must be over (R21). -/
structure DieSt where
  ps      : Ps
  exiting : Option Nat
  deriving DecidableEq, Repr

/-- A link session (R47): the partition for which it stands, the generation of its keys, its direction identifier, and the
sequence numbers used since the last key. -/
structure LinkSess where
  part : Nat
  gen  : Nat
  dir  : W32
  seq  : Nat
  deriving DecidableEq, Repr

/-- Device physical memory whose ciphertext stands under one key (R54): first byte, length, the key's name. -/
structure KeyRange where
  base : Nat
  len  : Nat
  key  : Nat
  deriving DecidableEq, Repr

/-- Registers and functions of the host die (R10–R27, R55, R57, R61, R62). `reported` holds the functions that have come up
since module reset (R15), `unreach` the modules to which a fabric port has no trained path, `iommu` the pages that devices
behind the root ports reach, `foreign` what peer tables of other modules list: module and partition of the table, then those
of a VALID entry (R447). -/
structure HostDie where
  readyStatus    : W64
  readyFail      : W64
  reported       : W64
  resetAt        : Nat
  cgOffline      : W32
  recovery       : Bool
  recoveryStatus : BitVec 2
  mailbox        : List (BitVec 8)
  flash          : List (BitVec 8)
  deviceKey      : Nat
  session        : Bool
  ide            : List Nat
  linkSessions   : Tbl LinkSess
  unreach        : List (Nat × Nat)
  iommu          : Tbl Nat
  foreign        : List (Nat × Nat × Nat × Nat)
  cxlGiB         : Tbl Nat
  fatal          : Bool
  deriving DecidableEq, Repr

/-- A translation that a die's TLB holds (R137): die, partition, first LVA, page-size code, physical page, permissions. -/
structure TlbEnt where
  die  : Nat
  part : Nat
  lva  : Nat
  code : Nat
  pa   : Nat
  r    : Bool
  w    : Bool
  x    : Bool
  deriving DecidableEq, Repr

/-- Read-side staging of one core on one path (R133, R160): the 64 bytes of the granule at `loc` as they were read. -/
structure Stage where
  core : Nat
  path : Path
  loc  : Loc
  data : List (BitVec 8)
  deriving DecidableEq, Repr

/-- The record a granule keeps of the last release written to it (R162); bit i of `bytes` says that it wrote byte i. -/
structure Rel where
  scope : Scope
  ident : Ident
  bytes : BitVec 64
  deriving DecidableEq, Repr

/-- Code that a core holds (R105): 32 bytes of a fetch block as they were fetched. -/
structure CodeLine where
  core : Nat
  loc  : Loc
  data : List (BitVec 8)
  deriving DecidableEq, Repr

/-- A write of the device into a partition's direct space that its memory holds (R14, R134): the address and the bytes, whether
it goes past what software may not write, and the scope of the release that it is. -/
structure DevWrite where
  part : Nat
  pa   : Nat
  data : List (BitVec 8)
  own  : Bool
  rel  : Option Scope
  deriving DecidableEq, Repr

/-- The instruction being issued: weave, group, its address and length (prefixes included), its rounding prefix,
its repeat and repeat count, and its bytes. -/
structure Cur where
  weave : Nat
  gid   : Nat
  addr  : W64
  len   : Nat
  rnd   : Rnd
  sat   : Bool
  rep   : Nat
  reps  : Nat
  code  : List (BitVec 8)
  deriving DecidableEq, Repr

/-- Acts of the host, of the module's firmware, of devices and of the panel for which the opcode table has no row: a
write of the recovery mailbox (R19), of APBASE (R64), the capacity a CXL port presents (R52), an established link session
(R47), a function that fails to come up (R11), a path of a fabric port to a module that comes or goes (R32), reads of PF0
BAR0 (R50) and of a VF's BAR0 (R64), a mapping of the IOMMU and a request from a device behind a root port (R62), the
certificate chain and a challenge (R57), a corrected memory error (R260), an entry of another module's peer table (R447). Open points: DESIGN CHOICE, log 1 and 64. -/
inductive Act where
  | mailbox (offset : Nat) (data : List (BitVec 8))
  | apbase (part : Nat) (v : W64)
  | cxlPresent (port gib : Nat)
  | linkSession (session part : Nat) (dir : W32)
  | functionFails (bit : ReadyBit)
  | path (port phys : Nat) (up : Bool)
  | pfRead (offset : Nat)
  | vfRead (vf offset : Nat)
  | iommuMap (page : Nat) (pa : Option Nat)
  | rpAccess (port addr : Nat) (write : Bool) (len : Nat) (data : List (BitVec 8))
  | certificate
  | challenge (nonce : List Nat)
  | correctable (pa : Nat)
  | foreignEntry (e : Nat × Nat × Nat × Nat) (valid : Bool)
  deriving DecidableEq, Repr

/-- One thing the outside, or the scheduler of the model, does next. `dt` cycles of CLOCK pass first.
Open points: DESIGN CHOICE, log 1 and 64. -/
inductive Item where
  | issue (weave gid : Nat) (dt : Nat)
  | event (e : Instr) (dt : Nat)
  | send (ott : Nat) (dt : Nat)
  | perform (op acc : Nat) (dt : Nat)
  | tear (op acc byte : Nat) (dt : Nat)
  | copyRead (copy byte : Nat) (dt : Nat)
  | copyWrite (copy byte : Nat) (dt : Nat)
  | phase (op : Nat) (dt : Nat)
  | stage (core : Nat) (path : Path) (loc : Loc) (dt : Nat)
  | kvRead (op slot : Nat) (dt : Nat)
  | mxRead (batch : Nat) (loc : Loc) (dt : Nat)
  | mxSlot (batch slot : Nat) (dt : Nat)
  | evictTlb (die part lva : Nat) (dt : Nat)
  | fillTlb (die part lva : Nat) (dt : Nat)
  | stageCode (core : Nat) (loc : Loc) (dt : Nat)
  | dropCode (core : Nat) (loc : Loc) (dt : Nat)
  | act (a : Act) (dt : Nat)
  deriving DecidableEq, Repr

/-- The state of the module. Tables of work are keyed by names from `nextId`; `last` holds the weave, cycle and PC of the
issues of the present cycle (R114). CLOCK (`clock`) goes on past 2^64 − 1, and software reads it modulo 2^64. Open points: DESIGN
CHOICE, log 63. -/
structure State where
  clock    : Nat
  agenda   : List Item
  nextId   : Nat
  freeIdx  : Nat
  cur      : Option Cur
  last     : List (Nat × Nat × W64)
  physNum  : Nat
  hd       : HostDie
  dies     : Tbl DieSt
  parts    : Tbl Partition
  queues   : Tbl Queue
  mem      : List Host.Cell
  tags     : List Nat
  keyed    : List KeyRange
  rel      : Tbl Rel
  bad      : List Nat
  tlb      : List TlbEnt
  staging  : List Stage
  icache   : List CodeLine
  pages    : Tbl PageRec
  pubs     : Tbl Ident
  ctxs     : Tbl CtxRec
  pools    : Tbl Pool
  buckets  : Tbl Bucket
  records  : Tbl Record
  fields   : Tbl Field
  cohorts  : Tbl Cohort
  teams    : Tbl Team
  weaves   : Tbl Weave
  lsOps    : Tbl LsOp
  ott      : Tbl Ott
  legs     : Tbl Leg
  rtSeq    : Tbl Nat
  phOps    : Tbl PhOp
  copies   : Tbl Copy
  kvOps    : Tbl KvOp
  voids    : Tbl Void
  scopeOps : Tbl ScopeOp
  cancels  : Tbl Cancel
  maskLoads : Tbl MaskLoad
  mxReqs   : Tbl MxReq
  batches  : Tbl Batch
  faults   : Tbl Flt
  shoots   : Tbl Shoot
  inbound  : Tbl Inbound
  apOps    : Tbl ApOp
  devWrites : List DevWrite
  out      : List Out
  deriving DecidableEq, Repr

/-! ### Values without an entry, and reset -/

/-- An untagged zero capability: a k register at launch (R122), memory without a tag. -/
def nullCap : Cap := { bits := 0, tag := false }

/-- A free scope-table entry of generation 0 (R85). -/
def ScopeEnt.free : ScopeEnt where
  st := 0
  gen := 0
  parent := 0
  depth := 0
  teams := 0
  queued := 0
  spawns := 0
  ack := nullCap
  ackFlag := false
  byOp := none

/-- The root entry of a partition in RUN: live, depth 1 (R85). -/
def ScopeEnt.root : ScopeEnt := { ScopeEnt.free with st := 1, depth := 1 }

/-- A partition after module reset: CONFIG_UNLOCKED (R58), LTOL 0 (R22), no key (R55); CGMASK, MSIXN, WIN, PEER and
APBASE zero are DESIGN CHOICEs (log 2). -/
def Partition.initial : Partition where
  tdi := .unlocked
  locking := false
  cgmask := 0
  msixn := 0
  win := []
  peers := []
  ltol := 0
  apbase := 0
  key := none
  instCtr := 1
  fieldCtr := 1
  faultSeq := 0
  turn := 0
  scopes := []
  held := 0
  heldAt := 0

/-- A queue after module reset: QCFG zero, tail zero (R63, R65). Open points: DESIGN CHOICE, log 2. -/
def Queue.initial : Queue where
  en := false
  ring := 0
  msix := 0
  part := 0
  lidx := 0
  log2n := 0
  head := 0
  qerr := 0
  tail := 0
  fault := none

/-- A disabled pool (R186). Open points: DESIGN CHOICE, log 2. -/
def Pool.initial : Pool where
  en := false
  pgsz := 0
  low := 0
  lendPeer := none
  lendDie := 0
  lendPool := 0
  arenas := []
  trans := []
  free := []
  borrowed := []
  asking := false
  asked := none

/-- A die in PS0 (log 2). -/
def DieSt.initial : DieSt := { ps := .ps0, exiting := none }

/-- An empty bucket, no tile latched (log 2). -/
def Bucket.initial : Bucket := { units := 0, latched := [] }

/-- A phase object at launch: zero in every field (R144, R440). -/
def Phase.initial : Phase where
  owner := 0
  poison := false
  bytes := false
  parity := false
  remain := 0
  expect := 0
  arrived := []
  arrivedLast := []
  copied := false
  copiedLast := false

/-- A convergence register at launch (R122, R218). -/
def Cv.initial : Cv where
  st := .clear
  set := 0
  signed := []
  signers := []
  snap := none
  pend := []
  mask := none

/-- The host die after module reset: READY registers clear (R11), the device key live (R55); the rest are DESIGN
CHOICEs (log 2). -/
def HostDie.initial : HostDie where
  readyStatus := 0
  readyFail := 0
  reported := 0
  resetAt := 0
  cgOffline := 0
  recovery := false
  recoveryStatus := 0
  mailbox := []
  flash := []
  deviceKey := 0
  session := false
  ide := []
  linkSessions := []
  unreach := []
  iommu := []
  foreign := []
  cxlGiB := []
  fatal := false

/-- The module right after reset: every function still coming up, every partition CONFIG_UNLOCKED, memory zero, no
work anywhere. Open points: DESIGN CHOICE, log 2. -/
def State.reset : State where
  clock := 0
  agenda := []
  nextId := 0
  freeIdx := 0
  cur := none
  last := []
  physNum := 0
  hd := HostDie.initial
  dies := []
  parts := []
  queues := []
  mem := []
  tags := []
  keyed := []
  rel := []
  bad := []
  tlb := []
  staging := []
  icache := []
  pages := []
  pubs := []
  ctxs := []
  pools := []
  buckets := []
  records := []
  fields := []
  cohorts := []
  teams := []
  weaves := []
  lsOps := []
  ott := []
  legs := []
  rtSeq := []
  phOps := []
  copies := []
  kvOps := []
  voids := []
  scopeOps := []
  cancels := []
  maskLoads := []
  mxReqs := []
  batches := []
  faults := []
  shoots := []
  inbound := []
  apOps := []
  devWrites := []
  out := []

end Sys2Proof.Machine
end

