-- ==== Sys2Proof/Machine/Ops.lean ====
section
/-! DEFINITION. The named operations that meanings are written over: byte memory, entities by name, registers,
capabilities, translation, what the module sends out, and the taking of an exception with the return from it. -/

namespace Sys2Proof.Machine

open Sys2Proof

/-! ### Bytes (R3) -/

/-- The value of bytes, the first least significant. -/
def bytesToNat : List (BitVec 8) → Nat
  | [] => 0
  | b :: r => b.toNat + 256 * bytesToNat r

/-- The low `n` bytes of a value, the first least significant. -/
def natToBytes : Nat → Nat → List (BitVec 8)
  | 0, _ => []
  | n + 1, x => BitVec.ofNat 8 (x % 256) :: natToBytes n (x / 256)

/-- What a byte of memory that is not listed reads as: stacks are initialised to zero (R11), windows scrubbed to zero
(R59). -/
def unlisted : BitVec 8 := 0

/-- Byte memory: cells with rising addresses, none equal to what an unlisted address reads as. -/
abbrev Memory := List Host.Cell

/-- The canonical form of byte memory. -/
def Memory.wf (m : Memory) : Bool := Tbl.sorted m && m.all fun c => c.2 != unlisted

/-- One byte. Open points: DESIGN CHOICE, log 2. -/
def Memory.get (m : Memory) (a : Nat) : BitVec 8 := Tbl.get m unlisted a

/-- Memory with one byte written. -/
def Memory.set (m : Memory) (a : Nat) (b : BitVec 8) : Memory := Tbl.set m unlisted a b

/-- Consecutive bytes written from an address on. -/
def Memory.writes (m : Memory) (a : Nat) : List (BitVec 8) → Memory
  | [] => m
  | b :: r => Memory.writes (Memory.set m a b) (a + 1) r

/-- `n` consecutive bytes. -/
def Memory.reads (m : Memory) (a : Nat) : Nat → List (BitVec 8)
  | 0 => []
  | n + 1 => Memory.get m a :: Memory.reads m (a + 1) n

/-- `n` bytes as a number. -/
def Memory.num (m : Memory) (a n : Nat) : Nat := bytesToNat (Memory.reads m a n)

/-- Removes a name from a sorted list of names. -/
def dropName (t : List Nat) (n : Nat) : List Nat := t.filter (· != n)

/-- Adds a name to a sorted list of names. -/
def addName : List Nat → Nat → List Nat
  | [], n => [n]
  | a :: r, n => if n < a then n :: a :: r else if n = a then a :: r else a :: addName r n

/-- The tags of the 16-byte units that `n` bytes from `a` touch, cleared (R125). -/
def clearTags (t : List Nat) (a n : Nat) : List Nat := t.filter fun u => !(a / 16 ≤ u && u ≤ (a + n - 1) / 16)

/-- The low 64 bits of a number. -/
def w64 (n : Nat) : W64 := BitVec.ofNat 64 n

def w32 (n : Nat) : W32 := BitVec.ofNat 32 n

/-- Signed value of a 32-bit immediate. -/
def sImm (x : W32) : Int := x.toInt

/-! ### Entities by name -/

def State.part (s : State) (p : Nat) : Partition := Tbl.get s.parts Partition.initial p

def State.setPart (s : State) (p : Nat) (x : Partition) : State :=
  { s with parts := Tbl.set s.parts Partition.initial p x }

def State.queue (s : State) (q : Nat) : Queue := Tbl.get s.queues Queue.initial q

def State.setQueue (s : State) (q : Nat) (x : Queue) : State :=
  { s with queues := Tbl.set s.queues Queue.initial q x }

def State.die (s : State) (d : Nat) : DieSt := Tbl.get s.dies DieSt.initial d

def State.setDie (s : State) (d : Nat) (x : DieSt) : State := { s with dies := Tbl.set s.dies DieSt.initial d x }

/-- Pools are keyed by partition × 64 + die × 16 + pool (R186). -/
def poolKey (part die pool : Nat) : Nat := part * 64 + die * 16 + pool

def State.pool (s : State) (k : Nat) : Pool := Tbl.get s.pools Pool.initial k

def State.setPool (s : State) (k : Nat) (x : Pool) : State := { s with pools := Tbl.set s.pools Pool.initial k x }

def State.bucket (s : State) (cg : Nat) : Bucket := Tbl.get s.buckets Bucket.initial cg

def State.setBucket (s : State) (cg : Nat) (x : Bucket) : State :=
  { s with buckets := Tbl.set s.buckets Bucket.initial cg x }

def State.weave (s : State) (id : Nat) : Option Weave := Tbl.find s.weaves id

def State.setWeave (s : State) (id : Nat) (x : Weave) : State := { s with weaves := Tbl.put s.weaves id x }

def State.updWeave (s : State) (id : Nat) (f : Weave → Weave) : State := { s with weaves := Tbl.upd s.weaves id f }

def State.team (s : State) (id : Nat) : Option Team := Tbl.find s.teams id

def State.updTeam (s : State) (id : Nat) (f : Team → Team) : State := { s with teams := Tbl.upd s.teams id f }

def State.cohort (s : State) (id : Nat) : Option Cohort := Tbl.find s.cohorts id

def State.updCohort (s : State) (id : Nat) (f : Cohort → Cohort) : State := { s with cohorts := Tbl.upd s.cohorts id f }

def State.field (s : State) (id : Nat) : Option Field := Tbl.find s.fields id

def State.updField (s : State) (id : Nat) (f : Field → Field) : State := { s with fields := Tbl.upd s.fields id f }

def State.updLs (s : State) (id : Nat) (f : LsOp → LsOp) : State := { s with lsOps := Tbl.upd s.lsOps id f }

def State.updCopy (s : State) (id : Nat) (f : Copy → Copy) : State := { s with copies := Tbl.upd s.copies id f }

def State.updKv (s : State) (id : Nat) (f : KvOp → KvOp) : State := { s with kvOps := Tbl.upd s.kvOps id f }

def State.updReq (s : State) (id : Nat) (f : MxReq → MxReq) : State := { s with mxReqs := Tbl.upd s.mxReqs id f }

def State.updBatch (s : State) (id : Nat) (f : Batch → Batch) : State := { s with batches := Tbl.upd s.batches id f }

/-- A name that no entity bears yet, and the state in which it is taken. Open points: DESIGN CHOICE, log 3. -/
def State.fresh (s : State) : Nat × State := (s.nextId, { s with nextId := s.nextId + 1 })

/-- Something sent to the outside. Open points: DESIGN CHOICE, log 3. -/
def State.emit (s : State) (o : Out) : State := { s with out := s.out ++ [o] }

/-- The first entry of a table that satisfies a test. -/
def firstKey {β : Type} (t : Tbl β) (f : Nat → β → Bool) : Option Nat :=
  match t with
  | [] => none
  | (k, v) :: r => if f k v then some k else firstKey r f

/-- The names of the entries that satisfy a test. -/
def keysOf {β : Type} (t : Tbl β) (f : Nat → β → Bool) : List Nat := (t.filter fun e => f e.1 e.2).map (·.1)

/-- Keeps the entries that satisfy a test. -/
def keep {β : Type} (t : Tbl β) (f : Nat → β → Bool) : Tbl β := t.filter fun e => f e.1 e.2

/-- Changes every entry. -/
def mapT {β : Type} (t : Tbl β) (f : Nat → β → β) : Tbl β := t.map fun e => (e.1, f e.1 e.2)

/-- Does some entry satisfy a test. -/
def someT {β : Type} (t : Tbl β) (f : Nat → β → Bool) : Bool := t.any fun e => f e.1 e.2

/-- How many entries satisfy a test. -/
def countT {β : Type} (t : Tbl β) (f : Nat → β → Bool) : Nat := (t.filter fun e => f e.1 e.2).length

/-! ### Where things are (R6, R17, R52) -/

/-- Cores are numbered die × 64 + core within the die; core groups die × 8 + group (R17). -/
def coreDie (core : Nat) : Nat := core / 64

def coreCg (core : Nat) : Nat := core / 8

/-- A bit of READY_STATUS or READY_FAIL (R11). -/
def State.ready (s : State) (bit : Nat) : Bool := s.hd.readyStatus.getLsbD bit

def State.failedBit (s : State) (bit : Nat) : Bool := s.hd.readyFail.getLsbD bit

/-- Bits of READY_STATUS (R11 Table 2). -/
def cdrdy (die : Nat) : Nat := die

def stkrdy (die : Nat) : Nat := 8 + die

def svcFlt : Nat := 12

def svcSched : Nat := 13

def svcSpdm : Nat := 14

def svcPwr : Nat := 15

def rprdy (n : Nat) : Nat := 20 + n

def cxlrdy (n : Nat) : Nat := 24 + n

def fprdy (n : Nat) : Nat := 32 + n

/-- Sets or clears one bit. -/
def setBit64 (v : W64) (n : Nat) (b : Bool) : W64 := if b then v ||| (1#64 <<< n) else v &&& ~~~(1#64 <<< n)

/-- The part of memory that holds a device physical address: a stack, or a CXL port; the ports' capacities follow
one another from 16 TiB on in increasing port number (log 5). -/
inductive Bank where
  | stack (die : Nat)
  | cxl (port : Nat)
  | absent
  deriving DecidableEq, Repr

/-- The CXL port of an offset into the second tier. Open points: DESIGN CHOICE, log 5. -/
def cxlPort (gibs : Tbl Nat) : List Nat → Nat → Bank
  | [], _ => .absent
  | n :: r, off =>
    let sz := Tbl.get gibs 0 n * Config.gib
    if off < sz then .cxl n else cxlPort gibs r (off - sz)

/-- Where a device physical address lies: a DRAM stack, a second-tier port or nowhere (R52; DESIGN CHOICE, log 5). -/
def State.bank (s : State) (pa : Nat) : Bank :=
  if pa < 4 * Config.stackBytes then .stack (pa / Config.stackBytes)
  else if pa < Config.tierBase then .absent
  else cxlPort s.hd.cxlGiB (List.range 8) (pa - Config.tierBase)

/-- Can memory serve an access now (R14). -/
inductive MemSt where
  | ready | held | failed
  deriving DecidableEq, Repr

/-- The die that homes a physical address (R133). -/
def State.homeDie (s : State) (pa : Nat) : Nat :=
  match s.bank pa with
  | .stack d => d
  | _ => (pa / 4096) % 4

/-- Exit latency in nanoseconds (R20 Table 4). -/
def Ps.exitNs : Ps → Nat
  | .ps0 => 0
  | .ps1 => 1000
  | .ps2 => 20000
  | .ps3 => 250000

/-- Exit latency in cycles. -/
def Ps.exit (p : Ps) : Nat := p.exitNs * Config.us / 1000

/-- Does the die's cache serve accesses in the present power state (R20). Open points: DESIGN CHOICE, log 51. -/
def State.dieServes (s : State) (d : Nat) : Bool := (s.die d).ps == .ps0 || (s.die d).ps == .ps1

/-- How memory answers at an address. A module whose dies have been stopped serves none (R27).
Open points: DESIGN CHOICE, log 51. -/
def State.memSt (s : State) (pa : Nat) : MemSt :=
  let awake := s.dieServes (s.homeDie pa) && !s.hd.fatal
  match s.bank pa with
  | .stack d => if s.failedBit (stkrdy d) then .failed else if s.ready (stkrdy d) && awake then .ready else .held
  | .cxl n => if s.failedBit (cxlrdy n) then .failed else if s.ready (cxlrdy n) && awake then .ready else .held
  | .absent => .failed

/-- Is the granule uncorrectable, or in a failed stack (R14, R260). -/
def State.eccBad (s : State) (pa : Nat) : Bool := s.bad.contains (pa / 64) || s.memSt pa == .failed

/-! ### Windows, direct addresses and the page walk (R52, R53, R134–R137) -/

/-- Base and length in bytes of a valid window entry. Open points: DEDUCED, log 50. -/
def winRange (v : W64) : Option (Nat × Nat) :=
  if v.getLsbD 63 then some ((v.extractLsb' 0 24).toNat * Config.gib, (v.extractLsb' 24 24).toNat * Config.gib)
  else none

/-- A partition's valid windows in increasing number. -/
def Partition.windows (p : Partition) : List (Nat × Nat) :=
  (List.range 32).filterMap fun w => winRange (Tbl.get p.win 0 w)

/-- Does a range of physical memory lie wholly inside one window. -/
def Partition.holds (p : Partition) (pa len : Nat) : Bool :=
  p.windows.any fun r => r.1 ≤ pa && pa + len ≤ r.1 + r.2

/-- Byte `d` of the concatenation of windows. -/
def concatAt : List (Nat × Nat) → Nat → Option Nat
  | [], _ => none
  | (b, n) :: r, d => if d < n then some (b + d) else concatAt r (d - n)

/-- Physical address of a direct offset (R134). -/
def Partition.direct (p : Partition) (d : Nat) : Option Nat := concatAt p.windows d

/-- Where the direct offset of a physical address stands, if a window holds it. -/
def offsetOf : List (Nat × Nat) → Nat → Nat → Option Nat
  | [], _, _ => none
  | (b, n) :: r, acc, pa => if b ≤ pa && pa < b + n then some (acc + (pa - b)) else offsetOf r (acc + n) pa

def Partition.directOf (p : Partition) (pa : Nat) : Option Nat := offsetOf p.windows 0 pa

/-- Why a translation fails: resolvable by the fault service, or not; with a memory error (R136, R260). `held` says that
memory holds the read of a table (R14). -/
inductive XErr where
  | held
  | resolvable
  | unresolvable (ecc : Bool)
  deriving DecidableEq, Repr

/-- A finished walk: the leaf's page, its size code and its permissions. -/
structure Leaf where
  page : Nat
  code : Nat
  r    : Bool
  w    : Bool
  x    : Bool
  deriving DecidableEq, Repr

/-- Bytes of a page of a size code (R135: 4 KiB × 4^SIZE). -/
def pageBytes (code : Nat) : Nat := 4096 * 4 ^ code

/-- Leaf sizes a level allows (R135 Table 5). -/
def levelAllows (level code : Nat) : Bool :=
  (level == 2 && code == 9) || (level == 1 && 5 ≤ code && code ≤ 8) || (level == 0 && code ≤ 4)

/-- Index bits of a level. -/
def levelShift (level : Nat) : Nat := 12 + 9 * level

def levelIndex (level lva : Nat) : Nat := (lva / 2 ^ levelShift level) % (if level = 4 then 64 else 512)

/-- The walk below a table at `table`, from a level down (R135, R136, R53). A table in memory that holds an
uncorrectable error is unresolvable. Open points: DEDUCED, log 40; DESIGN CHOICE, log 65. -/
def walkFrom (s : State) (p : Partition) (lva : Nat) : Nat → Nat → Except XErr Leaf
  | level, table =>
    let at_ := table + 8 * levelIndex level lva
    if !p.holds at_ 8 then .error (.unresolvable false)
    else if s.memSt at_ = .held then .error .held
    else if s.eccBad at_ then .error (.unresolvable true)
    else
      let e := w64 (Memory.num s.mem at_ 8)
      let code := (e.extractLsb' 8 4).toNat
      let pa := (e.extractLsb' 12 40).toNat * 4096
      if !e.getLsbD 0 then .error .resolvable
      else if e.extractLsb' 52 12 != 0 || e.extractLsb' 5 3 != 0 || e.getLsbD 1 then .error (.unresolvable false)
      else if code = 15 then
        match level with
        | 0 => .error (.unresolvable false)
        | l + 1 => walkFrom s p lva l pa
      else if !levelAllows level code || pa % pageBytes code != 0 || !p.holds pa (pageBytes code) then
        .error (.unresolvable false)
      else .ok { page := pa, code := code, r := e.getLsbD 2, w := e.getLsbD 3, x := e.getLsbD 4 }

/-- Kinds of access as R138 numbers them: 0 read, 1 write, 2 atomic, 3 fetch. -/
def Leaf.permits (l : Leaf) (kind : Nat) : Bool :=
  if kind = 0 then l.r else if kind = 3 then l.x else l.w

/-- The entry of a die's TLB that maps an LVA of a partition (R137). -/
def tlbFind (t : List TlbEnt) (die part lva : Nat) : Option TlbEnt :=
  t.find? fun e => e.die == die && e.part == part && e.lva ≤ lva && lva < e.lva + pageBytes e.code

/-- Translates an LVA for an agent on a die: direct addresses (R134), then an entry of the die's TLB that permits the
access, then the walk. Every page lies inside a window (R53). Open points: DESIGN CHOICE, log 65. -/
def State.xlate (s : State) (die part lva kind : Nat) : Except XErr Nat :=
  let p := s.part part
  if lva / 2 ^ 54 % 2 = 1 then
    match p.direct (lva % 2 ^ 54) with
    | some pa => .ok pa
    | none => .error (.unresolvable false)
  else
    match tlbFind s.tlb die part lva with
    | some e =>
      if !p.holds e.pa (pageBytes e.code) then .error (.unresolvable false)
      else if ({ page := e.pa, code := e.code, r := e.r, w := e.w, x := e.x } : Leaf).permits kind then
        .ok (e.pa + (lva - e.lva))
      else .error .resolvable
    | none =>
      match p.direct 0 with
      | none => .error (.unresolvable false)
      | some root =>
        match walkFrom s p lva 4 root with
        | .error e => .error e
        | .ok l =>
          if l.permits kind then .ok (l.page + lva % pageBytes l.code) else .error .resolvable

/-- A new entry in its die's TLB, which holds 4,096 (R137); the oldest makes room. -/
def tlbPut (t : List TlbEnt) (e : TlbEnt) : List TlbEnt :=
  e :: ((t.filter (·.die == e.die)).take 4095 ++ t.filter (·.die != e.die))

/-- Keeps a translation of a partition in RUN in a die's TLB (R137: only valid ones). Direct addresses need no entry.
Open points: DESIGN CHOICE, log 65. -/
def State.fillTlb (s : State) (die part lva : Nat) : State :=
  if lva / 2 ^ 54 % 2 = 1 || (s.part part).tdi != .run then s
  else
    match tlbFind s.tlb die part lva, (s.part part).direct 0 with
    | none, some root =>
      match walkFrom s (s.part part) lva 4 root with
      | .ok l =>
        let e : TlbEnt := { die := die, part := part, lva := lva - lva % pageBytes l.code, code := l.code, pa := l.page,
                            r := l.r, w := l.w, x := l.x }
        { s with tlb := tlbPut s.tlb e }
      | .error _ => s
    | _, _ => s

/-- The own peer number: the entry that names this module and this partition (R31). -/
def State.ownPeer (s : State) (part : Nat) : Nat :=
  ((List.range 512).find? fun e =>
    let v := Tbl.get (s.part part).peers 0 e
    v.getLsbD 63 && (v.extractLsb' 0 9).toNat == s.physNum && (v.extractLsb' 48 4).toNat == part).getD 0

/-- PEER and LVA of a domain address (R28). -/
def peerOf (a : W64) : Nat := (a.extractLsb' 55 9).toNat

def lvaOf (a : W64) : Nat := (a.extractLsb' 0 55).toNat

/-- A domain address. -/
def domain (peer lva : Nat) : W64 := w64 (peer * 2 ^ 55 + lva % 2 ^ 55)

/-- Fields of a peer-table entry (R31). -/
def State.peerEnt (s : State) (part peer : Nat) : W64 := Tbl.get (s.part part).peers 0 peer

def entValid (e : W64) : Bool := e.getLsbD 63

def entEnable (e : W64) : Bool := e.getLsbD 62

def entPart (e : W64) : Nat := (e.extractLsb' 48 4).toNat

def entSession (e : W64) : Nat := (e.extractLsb' 32 16).toNat

def entPhys (e : W64) : Nat := (e.extractLsb' 0 9).toNat

/-- Has a fabric port a trained path to a module (R32). Open points: DESIGN CHOICE, log 67. -/
def State.portUp (s : State) (port phys : Nat) : Bool :=
  s.ready (fprdy port) && !s.hd.unreach.contains (port, phys)

/-- The ports of a die with a trained path to a module (R15, R32). -/
def State.portsUp (s : State) (die phys : Nat) : List Nat :=
  ((List.range 8).map (die * 8 + ·)).filter fun n => s.portUp n phys

/-- Has some port of a die a trained path to a module. -/
def State.dieUp (s : State) (die phys : Nat) : Bool := !(s.portsUp die phys).isEmpty

/-- Why a peer cannot be reached (R32). -/
inductive PeerErr where
  | absent | down
  deriving DecidableEq, Repr

/-- The peer checks of R32 for an agent of a partition on a die, and one PEER. Open points: DEDUCED, log 34. -/
def State.peerErr (s : State) (part die peer : Nat) : Option PeerErr :=
  let v := s.peerEnt part peer
  if !entValid v then some .absent
  else if peer == s.ownPeer part then none
  else if !entEnable v || !s.dieUp die (entPhys v) then some .down
  else none

/-! ### Memory keys (R54, R55) -/

/-- The key of a granule: p + 1 inside a valid window of partition p, whether its key lives or not, else the device key 0
(R54). Open points: DESIGN CHOICE, log 66. -/
def State.keyNum (s : State) (pa : Nat) : Nat :=
  match s.parts.find? fun e => e.2.holds (pa / 64 * 64) 64 with
  | some e => e.1 + 1
  | none => 0

/-- The name of a key by its number, if it lives (R55). -/
def State.keyName (s : State) (n : Nat) : Option Nat := if n = 0 then some s.hd.deviceKey else (s.part (n - 1)).key

/-- The key under which the ciphertext of a granule stands: that of the last write, the device key from reset on. -/
def State.keyOf (s : State) (g : Nat) : Nat :=
  ((s.keyed.find? fun r => r.base ≤ g * 64 && g * 64 < r.base + r.len).map (·.key)).getD s.hd.deviceKey

/-- What a granule held when it was encrypted. -/
def State.granuleVal (s : State) (g : Nat) : BitVec 512 := BitVec.ofNat 512 (Memory.num s.mem (g * 64) 64)

/-- The ciphertext of a granule: AES-XTS-256 with the granule's address divided by 64 as the tweak (R54). -/
def State.ciphertext (s : State) (g : Nat) : BitVec 512 := Config.xtsEnc (s.keyOf g) g (s.granuleVal g)

/-- A granule as an access under a key reads it: a line of another key never satisfies it (R54).
Open points: DESIGN CHOICE, log 66. -/
def State.readUnder (s : State) (key g : Nat) : BitVec 512 :=
  if s.keyOf g = key then s.granuleVal g else Config.xtsDec key g (s.ciphertext g)

/-! ### Capabilities (R124–R127) -/

end Sys2Proof.Machine

namespace Sys2Proof

def Cap.base (c : Cap) : Nat := (c.bits.extractLsb' 0 64).toNat

def Cap.len (c : Cap) : Nat := (c.bits.extractLsb' 64 40).toNat

def Cap.perm (c : Cap) : BitVec 8 := c.bits.extractLsb' 104 8

def Cap.space (c : Cap) : Nat := (c.bits.extractLsb' 112 4).toNat

def mkCap (base len : Nat) (perm : BitVec 8) (space : Nat) : Cap :=
  { bits := (0#12) ++ BitVec.ofNat 4 space ++ perm ++ BitVec.ofNat 40 len ++ BitVec.ofNat 64 base, tag := true }

/-- Is a capability value one that a tag may stand on (R125, R445). -/
def Cap.wellFormed (c : Cap) : Bool :=
  c.bits.extractLsb' 116 12 == 0 && !c.perm.getLsbD 7 && c.space ≤ 5

/-- Do the bytes [a, a + n) lie within a capability, sums unwrapped (R126 step 4). -/
def Cap.covers (c : Cap) (a : Int) (n : Nat) : Bool :=
  (c.base : Int) ≤ a && a + n ≤ (c.base : Int) + c.len && a + n ≤ 2 ^ 64

end Sys2Proof

namespace Sys2Proof.Machine

/-- Permission bits (R124). -/
def permR : BitVec 8 := 1

def permW : BitVec 8 := 2

def permA : BitVec 8 := 4

def permC : BitVec 8 := 8

def permP : BitVec 8 := 16

def permF : BitVec 8 := 32

def permM : BitVec 8 := 64

/-- A trap at an instruction with a uniform cause. -/
def Trap.plain (c : TrapCode) (detail : Nat) : Trap :=
  { code := c, detail := BitVec.ofNat 16 detail, lane := none, hdr := false, fnc := false, resume := .same }

/-- The trap with the lane that caused it. -/
def Trap.atLane (t : Trap) (l : Nat) : Trap := { t with lane := some l }

/-- The element size a space allows for an LS use: space 4 takes 32 and 64 bits only (R375). -/
def spaceTakes (space size : Nat) : Bool := space != 4 || size == 4 || size == 8

/-- Steps 1 to 3 of R126: tag, space, permissions. -/
def capTagPerm (c : Cap) (spaces : List Nat) (perm : BitVec 8) (detail : Nat) : Option Trap :=
  if !c.tag then some (.plain .capTag detail)
  else if !spaces.contains c.space then some (.plain .capPerm detail)
  else if c.perm &&& perm != perm then some (.plain .capPerm detail)
  else none

/-- Bytes of each team's scratchpad in the cohort space (R128). -/
def cohortStride : Nat := 524288

/-! ### Registers of a weave (R114, R116, R117, R119) -/

def Weave.getS (w : Weave) (n : Nat) : W64 := Tbl.get w.s 0 n

def Weave.setS (w : Weave) (n : Nat) (x : W64) : Weave := { w with s := Tbl.set w.s 0 n x }

def Weave.getK (w : Weave) (n : Nat) : Cap := Tbl.get w.k nullCap n

def Weave.setK (w : Weave) (n : Nat) (x : Cap) : Weave := { w with k := Tbl.set w.k nullCap n x }

/-- v255 reads zero (R116). -/
def Weave.getV (w : Weave) (n lane : Nat) : W32 := if n = 255 then 0 else Tbl.get w.v 0 (n * 32 + lane)

/-- A write of v255 is discarded (R116). -/
def Weave.setV (w : Weave) (n lane : Nat) (x : W32) : Weave :=
  if n = 255 then w else { w with v := Tbl.set w.v 0 (n * 32 + lane) x }

/-- A 64-bit operand: the even register is the low half (R117). Open points: DEDUCED, log 42. -/
def Weave.getV64 (w : Weave) (n lane : Nat) : W64 :=
  if n = 255 then 0 else w.getV (n + 1) lane ++ w.getV n lane

/-- Writes a 64-bit pair; v255 discards it (R117; DEDUCED, log 42). -/
def Weave.setV64 (w : Weave) (n lane : Nat) (x : W64) : Weave :=
  if n = 255 then w else (w.setV n lane (x.extractLsb' 0 32)).setV (n + 1) lane (x.extractLsb' 32 32)

/-- p7 reads true (R116). -/
def Weave.getP (w : Weave) (n lane : Nat) : Bool := if n = 7 then true else (Tbl.get w.p 0 n : Lanes).getLsbD lane

/-- A write of p7 is discarded (R116). -/
def Weave.setP (w : Weave) (n lane : Nat) (b : Bool) : Weave :=
  if n = 7 then w
  else
    let m : Lanes := Tbl.get w.p 0 n
    { w with p := Tbl.set w.p 0 n (if b then m ||| (1#32 <<< lane) else m &&& ~~~(1#32 <<< lane)) }

def Weave.getCf (w : Weave) (n : Nat) : Nat := Tbl.get w.cf 0 n

def Weave.setCf (w : Weave) (n x : Nat) : Weave := { w with cf := Tbl.set w.cf 0 n x }

def Weave.frame (w : Weave) (lane : Nat) : List Frame := Tbl.get w.frames [] lane

def Weave.setFrame (w : Weave) (lane : Nat) (f : List Frame) : Weave := { w with frames := Tbl.set w.frames [] lane f }

def Weave.loop (w : Weave) (lane lvl : Nat) : Option Loop := Tbl.find w.loops (lane * 4 + lvl)

def Weave.setLoop (w : Weave) (lane lvl : Nat) (l : Option Loop) : Weave :=
  match l with
  | some x => { w with loops := Tbl.put w.loops (lane * 4 + lvl) x }
  | none => { w with loops := Tbl.del w.loops (lane * 4 + lvl) }

def Weave.group (w : Weave) (gid : Nat) : Option Group := w.groups.find? (·.gid == gid)

def Weave.updGroup (w : Weave) (gid : Nat) (f : Group → Group) : Weave :=
  { w with groups := w.groups.map fun g => if g.gid == gid then f g else g }

def Weave.delGroup (w : Weave) (gid : Nat) : Weave := { w with groups := w.groups.filter (·.gid != gid) }

/-- Is a frame a trap frame. -/
def Frame.isTrap : Frame → Bool
  | .trap .. => true
  | .call _ => false

/-- Does a thread hold a trap frame (R255, R315). -/
def Weave.inTrap (w : Weave) (lane : Nat) : Bool := (w.frame lane).any Frame.isTrap

/-- Does some thread of a set hold a trap frame. -/
def Weave.anyTrap (w : Weave) (ls : Lanes) : Bool := ls.toList.any fun l => w.inTrap l

/-- Is some thread of a set ended, or its lane empty. -/
def lanesMinus (a b : Lanes) : Lanes := a &&& ~~~b

/-! ### WSTAT (R120) -/

def wsMismatch : Nat := 0

def wsSat : Nat := 1

def wsStale : Nat := 2

def wsCancel : Nat := 3

def wsInexact : Nat := 4

/-- Sets bits of a weave's WSTAT. -/
def Weave.sticky (w : Weave) (bit : Nat) : Weave := { w with wstat := setBit64 w.wstat bit true }

def State.sticky (s : State) (weave bit : Nat) : State := s.updWeave weave fun w => w.sticky bit

/-! ### The surroundings of a weave -/

/-- A weave with its team, cohort and field. -/
structure Env where
  wid  : Nat
  w    : Weave
  tid  : Nat
  t    : Team
  cid  : Nat
  c    : Cohort
  fid  : Nat
  f    : Field
  deriving DecidableEq, Repr

def State.env (s : State) (wid : Nat) : Option Env :=
  match s.weave wid with
  | none => none
  | some w =>
    match s.team w.team with
    | none => none
    | some t =>
      match s.cohort t.cohort with
      | none => none
      | some c =>
        match s.field c.field with
        | none => none
        | some f => some { wid := wid, w := w, tid := w.team, t := t, cid := t.cohort, c := c, fid := c.field, f := f }

def Env.part (e : Env) : Nat := e.f.part

/-- Teams of a cohort: T × S (R74). -/
def LaunchRec.width (r : LaunchRec) : Nat := r.teams * r.stages

/-- v registers allocated: roundup(VREGS, 8), at most v254 (R116). -/
def LaunchRec.vAlloc (r : LaunchRec) : Nat := Nat.min 255 ((r.vregs + 7) / 8 * 8)

/-- Weaves of a team (R101). -/
def LaunchRec.weaves (r : LaunchRec) : Nat := (r.threads + 31) / 32

/-- The identity that R162 and R183 record. -/
def State.ident (s : State) (e : Env) : Ident :=
  { phys := s.physNum, part := e.part, peer := s.ownPeer e.part, die := coreDie e.t.core, cg := coreCg e.t.core % 8
    core := e.t.core % 8, place := e.t.place, field := e.f.number, team := e.tid, cohort := e.cid }

/-- Team `j` of a cohort. Open points: DESIGN CHOICE, log 41. -/
def State.teamOf (s : State) (cohort j : Nat) : Option Nat :=
  firstKey s.teams fun _ t => t.cohort == cohort && t.num == j

/-! ### Scopes of the scope table (R85, R86) -/

def State.scopeEnt (s : State) (part id : Nat) : ScopeEnt := Tbl.get (s.part part).scopes ScopeEnt.free id

def State.setScope (s : State) (part id : Nat) (e : ScopeEnt) : State :=
  let p := s.part part
  s.setPart part { p with scopes := Tbl.set p.scopes ScopeEnt.free id e }

def State.updScope (s : State) (part id : Nat) (f : ScopeEnt → ScopeEnt) : State :=
  s.setScope part id (f (s.scopeEnt part id))

/-- Handle of an id: generation in [31:12] (R86). -/
def handleOf (gen : BitVec 20) (id : Nat) : W32 := gen ++ BitVec.ofNat 12 id

def handleId (h : W32) : Nat := (h.extractLsb' 0 12).toNat

def handleGen (h : W32) : BitVec 20 := h.extractLsb' 12 20

/-- Is a handle current (R86). -/
def State.current (s : State) (part : Nat) (h : W32) : Bool :=
  let e := s.scopeEnt part (handleId h)
  e.st != 0 && e.gen == handleGen h

/-- Is the scope of a handle being cancelled. -/
def State.cancelling (s : State) (part : Nat) (h : W32) : Bool :=
  s.current part h && (s.scopeEnt part (handleId h)).st == 2

/-- Is the scope of a weave's field being cancelled (R92). -/
def State.envCancelling (s : State) (e : Env) : Bool := s.cancelling e.part e.f.scope

/-- Does the weave end at its next kill point: its scope is cancelling (R92), its team ends by a trap (R257), or its
field has failed (R262). Open points: DESIGN CHOICE, log 11; DEDUCED, log 56. -/
def State.killDue (s : State) (e : Env) : Bool := s.envCancelling e || e.t.ending || e.f.failed

/-! ### Locations -/

/-- Bytes of one location. -/
def State.locBytes (s : State) (l : Loc) (n : Nat) : List (BitVec 8) :=
  match l with
  | .mem pa => Memory.reads s.mem pa n
  | .spad t off => match s.team t with
    | some tm => Memory.reads tm.spad off n
    | none => natToBytes n 0
  | .acc t idx => match s.team t with
    | some tm => natToBytes n (bytesToNat ((List.range ((n + 3) / 4)).flatMap fun i =>
        natToBytes 4 (Tbl.get tm.acc 0 (idx + i) : W32).toNat))
    | none => natToBytes n 0
  | _ => natToBytes n 0

/-- The capability tag of a 16-byte location. -/
def State.locTag (s : State) (l : Loc) : Bool :=
  match l with
  | .mem pa => s.tags.contains (pa / 16)
  | .spad t off => match s.team t with
    | some tm => tm.spadTags.contains (off / 16)
    | none => false
  | _ => false

/-- Granules of `n` bytes from an address. -/
def granulesOf (a n : Nat) : List Nat := (List.range ((a + n - 1) / 64 - a / 64 + 1)).map (· + a / 64)

/-- Does a write leave the byte at a direct offset as it is: SHOOTGO and a pool's CTRL while bit 63 (`go`) is set (R137,
R187), and a pool's ERR and FREE, which are read-only (R186). Open points: DESIGN CHOICE, log 28 and 45. -/
def keptOffset (d : Nat) (go : Bool) : Bool :=
  if d < 0x2000 then 0x208 ≤ d && d < 0x210 && go
  else d < 0x4000 && ((d % 128 < 8 && (go || d % 128 == 1)) || (20 ≤ d % 128 && d % 128 < 24))

/-- Does a write leave a byte of memory as it is. -/
def State.kept (s : State) (a : Nat) : Bool :=
  s.parts.any fun e => e.2.tdi == .run && (match e.2.directOf a with
    | some d => keptOffset d ((Memory.get s.mem (a / 8 * 8 + 7)).getLsbD 7)
    | none => false)

/-- The bytes that a write of `bs` from an address on leaves there. -/
def State.keepBytes (s : State) (a : Nat) : List (BitVec 8) → List (BitVec 8)
  | [] => []
  | b :: r => (if s.kept a then Memory.get s.mem a else b) :: State.keepBytes s (a + 1) r

/-- Bytes written at a physical address, with the tags they touch cleared; a write of global memory ends the granule's
release record (R125, R162). Open points: DEDUCED, log 36. -/
def State.memWrite (s : State) (pa : Nat) (bs : List (BitVec 8)) : State :=
  { s with mem := Memory.writes s.mem pa bs, tags := clearTags s.tags pa bs.length,
           rel := (granulesOf pa bs.length).foldl Tbl.del s.rel }

/-- Writes bytes at a location and clears the tags they touch (R125). -/
def State.locWrite (s : State) (l : Loc) (bs : List (BitVec 8)) : State :=
  match l with
  | .mem pa => s.memWrite pa (s.keepBytes pa bs)
  | .spad t off => s.updTeam t fun tm =>
      { tm with spad := Memory.writes tm.spad off bs, spadTags := clearTags tm.spadTags off bs.length }
  | .acc t idx => s.updTeam t fun tm =>
      { tm with acc := (List.range (bs.length / 4)).foldl (init := tm.acc) fun a i =>
          Tbl.set a (0 : W32) (idx + i) (w32 (bytesToNat ((bs.drop (4 * i)).take 4))) }
  | _ => s

/-- Sets the tag of a 16-byte location (R125: a `.cap` store). -/
def State.locSetTag (s : State) (l : Loc) (tag : Bool) : State :=
  if !tag then s
  else
    match l with
    | .mem pa => { s with tags := addName s.tags (pa / 16) }
    | .spad t off => s.updTeam t fun tm => { tm with spadTags := addName tm.spadTags (off / 16) }
    | _ => s

/-- The agent as which a flag increment, a cancel record or a publication by the device is recorded: its module's own,
on no die (log 9). Open points: DEDUCED, log 36. -/
def State.deviceIdent (s : State) (part : Nat) : Ident :=
  { phys := s.physNum, part := part, peer := s.ownPeer part, die := 4, cg := 0, core := 0, place := 0, field := 0
    team := 0, cohort := 0 }

/-- The bytes of a granule that `n` bytes from an address on cover. -/
def relMask (pa n : Nat) : BitVec 64 := (BitVec.ofNat 64 (2 ^ n - 1)) <<< (pa % 64)

/-- A release, before the bytes that it writes are known. -/
def Rel.by_ (sc : Scope) (who : Ident) : Rel := { scope := sc, ident := who, bytes := 0 }

/-- The record of the last release at a global location. -/
def State.relAt (s : State) : Loc → Option Rel
  | .mem pa => Tbl.find s.rel (pa / 64)
  | _ => none

/-- Records a release of `n` bytes at a global location, beside what the same agent has released at the same scope in the granule
since its last other write (R162). Open points: DEDUCED, log 36. -/
def State.recordRel (s : State) (l : Loc) (n : Nat) (old r : Option Rel) : State :=
  match l, r with
  | .mem pa, some x =>
    let before : BitVec 64 := match old with
      | some o => if o.scope == x.scope && o.ident == x.ident then o.bytes else 0
      | none => 0
    { s with rel := Tbl.put s.rel (pa / 64) { x with bytes := before ||| relMask pa n } }
  | _, _ => s

/-! ### The device's own accesses to direct space (R134) -/

/-- A die starts to leave its state for PS0, in which it is within the state's exit latency (R21, R24). -/
def State.wake (s : State) (die : Nat) : State :=
  let d := s.die die
  if d.ps = .ps0 ∨ d.exiting.isSome then s else s.setDie die { d with exiting := some (s.clock + d.ps.exit) }

/-- An access to the memory that a die homes wakes the die (R21). -/
def State.touch (s : State) (pa : Nat) : State := s.wake (s.homeDie pa)

/-- A write of the device is made; in a failed stack it is lost (R14). -/
def State.devPerform (s : State) (w : DevWrite) : State :=
  let s := s.touch w.pa
  if s.memSt w.pa = .failed then s
  else
    let s := if w.own then s.memWrite w.pa w.data else s.locWrite (.mem w.pa) w.data
    match w.rel with
    | some sc => (granulesOf w.pa w.data.length).foldl (fun s g =>
        s.recordRel (.mem (g * 64)) 64 none (some (Rel.by_ sc (s.deviceIdent w.part)))) s
    | none => s

/-- Are accesses of the device to a place of direct space held: by memory (R14, R20), or behind an earlier write of its own.
Open points: DESIGN CHOICE, log 45. -/
def State.devHeld (s : State) (part d : Nat) : Bool :=
  (s.devWrites.any fun w => w.part == part) || (match (s.part part).direct d with
    | some pa => s.memSt pa == .held
    | none => false)

/-- The device writes bytes into direct space, at once or when memory lets it. -/
def State.devWrite (s : State) (part d : Nat) (bs : List (BitVec 8)) (own : Bool) (rel : Option Scope) : State :=
  match (s.part part).direct d with
  | none => s
  | some pa =>
    let w : DevWrite := { part := part, pa := pa, data := bs, own := own, rel := rel }
    if s.devHeld part d then { s with devWrites := s.devWrites ++ [w] } else s.devPerform w

/-- Writes into the partition's direct space (control page, fault ring, pool table). -/
def State.directWrite (s : State) (part d : Nat) (bs : List (BitVec 8)) : State := s.devWrite part d bs false none

/-- The device's own write of a word that software cannot write at the time. -/
def State.ctlWrite (s : State) (part d : Nat) (bs : List (BitVec 8)) : State := s.devWrite part d bs true none

/-- Makes the held write of the device at the head of those of its partition, if memory lets it. -/
def State.devStep (s : State) (w : DevWrite) : State :=
  match s.devWrites.find? fun x => x.part == w.part with
  | some x =>
    if x == w && s.memSt w.pa != .held then State.devPerform { s with devWrites := s.devWrites.erase w } w else s
  | none => s

/-- Makes what of the held writes of the device memory lets it make, in their order. -/
def State.devFlush (s : State) : State := s.devWrites.foldl State.devStep s

/-- A number that the device reads in direct space; a failed stack gives none (R14). Open points: DESIGN CHOICE, log 45. -/
def State.directNum (s : State) (part d n : Nat) : Nat :=
  match (s.part part).direct d with
  | some pa => if s.memSt pa = .failed then 0 else Memory.num s.mem pa n
  | none => 0

/-! ### The partition fault record (R259) -/

/-- What an entry of the fault record says (R259 Table 3). -/
structure FaultEntry where
  kind   : Nat
  status : Nat
  double : Bool
  queue  : Nat
  team   : Nat
  cohort : Nat
  field  : Nat
  addr   : W64
  info   : W64
  scope  : W32
  deriving DecidableEq, Repr

def FaultEntry.blank : FaultEntry :=
  { kind := 0, status := 0, double := false, queue := 0xFFFF, team := 0, cohort := 0, field := 0, addr := 0, info := 0
    scope := 0 }

/-- The device writes an entry: numbered from 1, at 0x4000 + 64 × (SEQ mod 64). The write is a release at system
scope by the device. -/
def State.record (s : State) (part : Nat) (e : FaultEntry) : State :=
  let p := s.part part
  let seq := p.faultSeq + 1
  let s := s.setPart part { p with faultSeq := seq }
  s.devWrite part (0x4000 + 64 * (seq % 64))
    (natToBytes 8 seq ++ natToBytes 1 e.kind ++ natToBytes 1 e.status ++ natToBytes 1 (if e.double then 1 else 0)
      ++ natToBytes 1 0 ++ natToBytes 2 e.queue ++ natToBytes 2 e.team ++ natToBytes 4 e.cohort
      ++ natToBytes 4 e.field ++ natToBytes 8 e.addr.toNat ++ natToBytes 8 e.info.toNat ++ natToBytes 4 e.scope.toNat
      ++ natToBytes 20 0) false (some .sys)

/-- Queue names that belong to a partition (R63). -/
def State.queuesOf (s : State) (part : Nat) : List Nat := keysOf s.queues fun _ q => q.en && q.part.toNat == part

/-- The queue of a partition with a local index. -/
def State.queueAt (s : State) (part lidx : Nat) : Option Nat :=
  firstKey s.queues fun _ q => q.en && q.part.toNat == part && q.lidx.toNat == lidx

/-- The queue with the lowest local index (R69). -/
def State.lowQueue (s : State) (part : Nat) : Option Nat :=
  (s.queuesOf part).foldl (fun b q =>
    match b with
    | none => some q
    | some x => if (s.queue q).lidx.toNat < (s.queue x).lidx.toNat then some q else some x) none

/-- VF number of a partition (R49). -/
def vfOf (part : Nat) : Nat := part + 1

/-- The MSI-X vector of the queue that supplied a record; for a spawned record that of the lowest queue, if any
(R69). -/
def State.reportVector (s : State) (part : Nat) (src : RecSrc) : State :=
  match src with
  | .queue l => match s.queueAt part l with
    | some q => s.emit (.msix (vfOf part) (s.queue q).msix.toNat)
    | none => s
  | .spawn => match s.lowQueue part with
    | some q => s.emit (.msix (vfOf part) (s.queue q).msix.toNat)
    | none => s

/-- QUEUE field of a fault record entry. -/
def RecSrc.entry : RecSrc → Nat
  | .queue l => l
  | .spawn => 0xFFFF

/-! ### Taking an exception and returning from it (R252–R258, R432) -/

/-- TRAPINFO as R254 lays it out: the trap's address is `addr`, the code capability gives CODECAP.base. -/
def trapInfo (code : Cap) (addr : W64) (t : Trap) (lanes : Lanes) : W64 :=
  let off := (addr.toNat + 2 ^ 64 - code.base) % 2 ^ 64 / 4
  let pcoff := if off < 0xFFFFFF then off else 0xFFFFFF
  let lane := t.lane.getD (lanes.toList.headD 0)
  w64 (pcoff * 2 ^ 40 + lane * 2 ^ 32 + t.detail.toNat * 2 ^ 16 + (if t.hdr then 2 ^ 15 else 0)
    + (if t.fnc then 2 ^ 14 else 0) + t.code.code)

/-- Pushes a trap frame on each thread of a group. -/
def Weave.pushTrap (w : Weave) (ls : Lanes) (resume : W64) (pos : Pos) (run : Run) (progress : Nat) : Weave :=
  ls.toList.foldl (fun w l => w.setFrame l (Frame.trap resume pos run progress :: w.frame l)) w

/-- Where the handler's return resumes, and in which run (R252 Table 1, R256). -/
def Group.resumeAt (g : Group) (addr : W64) (len : Nat) (bnd : Bool) (t : Trap) : W64 × Pos × Run :=
  match t.resume with
  | .same => (addr, g.pos, g.run)
  | .after => (addr + w64 len, if bnd then .between else .inRun, { g.run with count := g.run.count + 1 })
  | .runStart => (g.run.hdr + 8, .inRun, g.run)

/-- A group enters its handler: frames pushed, TRAPINFO and LASTTRAP written, the PC at TRAPCAP.base. -/
def Weave.enterHandler (w : Weave) (lr : LaunchRec) (g : Group) (addr : W64) (len : Nat) (bnd : Bool) (t : Trap) :
    Weave :=
  let (pc, pos, run) := g.resumeAt addr len bnd t
  let w := w.pushTrap g.lanes pc pos run g.progress
  let w := { w with trapinfo := trapInfo lr.code addr t g.lanes,
                    wstat := (w.wstat &&& ~~~(0xFF00#64)) ||| w64 (t.code.code * 256) }
  w.updGroup g.gid fun g =>
    { g with pc := w64 lr.trap.base, pos := .arrived, progress := 0, sleep := .awake, port := false, latch := none }

/-- Once no thread of the weave holds a trap frame, the first group that waits with a trap takes it (R255). -/
def Weave.releaseHandler (w : Weave) (lr : LaunchRec) : Weave :=
  if w.anyTrap w.live then w
  else
    match w.groups.findSome? (fun g => match g.sleep with
      | .handler a n b t => some (g, a, n, b, t)
      | _ => none) with
    | some (g, a, n, b, t) => w.enterHandler lr g a n b t
    | none => w

/-! ### Ending threads (R92, R123, R257) -/

/-- Threads leave their groups, an empty group is gone, and the frames of ended threads go with them. -/
def Weave.endLanes (w : Weave) (ls : Lanes) : Weave :=
  { w with
    live := lanesMinus w.live ls,
    groups := (w.groups.map fun g => { g with lanes := lanesMinus g.lanes ls }).filter (·.lanes != 0),
    frames := keep w.frames fun l _ => !(ls.has l) }

/-- Ends threads of a weave by EXIT (R123). -/
def State.exitThreads (s : State) (wid : Nat) (ls : Lanes) : State :=
  match s.env wid with
  | none => s
  | some e => s.updWeave wid fun w => (w.endLanes ls).releaseHandler e.f.lr

/-- Ends threads of a weave by a kill: what of theirs is in flight has its data discarded (R91, R257). `killed` says that they
end by cancellation. -/
def State.endThreads (s : State) (wid : Nat) (ls : Lanes) (killed : Bool) : State :=
  match s.env wid with
  | none => s
  | some e => s.updWeave wid fun w =>
      ({ (w.endLanes ls) with killed := w.killed || killed, dead := w.dead ||| (w.live &&& ls) }).releaseHandler e.f.lr

/-- Does a result that threads of the weave have asked for still go to its s and k registers: they are the weave's while it
lives (R114, R376), but a kill discards what it has ended (R91, R257). -/
def Weave.takes (w : Weave) (ls : Lanes) : Bool := w.live != 0 && lanesMinus ls w.dead != 0

/-- Every group of a weave ends at once (R60, R261). -/
def State.killWeave (s : State) (wid : Nat) (killed : Bool) : State :=
  match s.weave wid with
  | some w => s.endThreads wid w.live killed
  | none => s

/-- A team ends without a handler or by a double trap: its other weaves end at their next kill point, the entry of
KIND 2 is written and the vector raised once for the team (R257, R258, R432). Open points: DEDUCED, log 21. -/
def State.teamNoHandler (s : State) (e : Env) (lanes : Lanes) (t : Nat) (info : W64) (double : Bool) : State :=
  let already := e.t.ending
  let s := s.endThreads e.wid lanes false
  let s := s.updTeam e.tid fun tm => { tm with ending := true }
  if already then s
  else
    let s := s.record e.part { FaultEntry.blank with
      kind := 2, status := t, double := double, queue := e.f.src.entry, team := e.t.num, cohort := e.c.index,
      field := e.f.number, info := info, scope := e.f.scope }
    s.reportVector e.part e.f.src

/-- TAKING AN EXCEPTION (R255). A group traps at `addr`; `len` is the length of the trapping word group and `bnd` its
boundary bit. In order: under a cancelling scope the threads end as killed (R92); a thread in its handler makes a double trap; another
group's handler makes the group sleep with the trap not yet taken; no handler ends the team; else the group enters
its handler, where a RUN header must be. Open points: DEDUCED, log 21 and 61. -/
def State.takeTrap (s : State) (wid gid : Nat) (addr : W64) (len : Nat) (bnd : Bool) (t : Trap) : State :=
  match s.env wid with
  | none => s
  | some e =>
    match e.w.group gid with
    | none => s
    | some g =>
      let info := trapInfo e.f.lr.code addr t g.lanes
      if s.envCancelling e then s.endThreads wid g.lanes true
      else if e.w.anyTrap g.lanes then s.teamNoHandler e g.lanes t.code.code info true
      else if e.w.anyTrap (lanesMinus e.w.live g.lanes) then
        s.updWeave wid fun w => w.updGroup gid fun g => { g with sleep := .handler addr len bnd t, port := false }
      else if !e.f.lr.trap.tag then s.teamNoHandler e g.lanes t.code.code info false
      else s.updWeave wid fun w => w.enterHandler e.f.lr g addr len bnd t

/-- A handler whose first word is no RUN header: a double trap that reports the trap which could not be delivered
(R258). Open points: DEDUCED, log 21. -/
def State.handlerLost (s : State) (wid gid : Nat) : State :=
  match s.env wid with
  | none => s
  | some e =>
    match e.w.group gid with
    | none => s
    | some g =>
      if s.envCancelling e then s.endThreads wid g.lanes true
      else s.teamNoHandler e g.lanes (e.w.trapinfo.toNat % 256) e.w.trapinfo true

/-- THE RETURN FROM AN EXCEPTION (R256) for one thread: the innermost trap frame gives the resume address, the run
it continues and the progress index. -/
structure Return where
  pc       : W64
  pos      : Pos
  run      : Run
  progress : Nat
  deriving DecidableEq, Repr

/-- For case 1 of R109 only the instructions of the continuation count. -/
def popTrap (f : List Frame) : Option (Return × List Frame) :=
  match f with
  | .trap pc pos run progress :: r => some ({ pc := pc, pos := pos, run := { run with vl := [] }, progress := progress }, r)
  | _ => none

end Sys2Proof.Machine
end

