-- ==== Sys2Proof/Machine/Flags.lean ====
section
/-! DEFINITION. Completion flags, pending-write marks and the errors that wait for a completion wait or a FENCE
(R106–R109, R40, R139, R230, R398). -/

namespace Sys2Proof.Machine

open Sys2Proof

/-- The flag a header's slot names for FS (R107). -/
def Run.slot (r : Run) (fs : Bool) : Option Nat := ((if fs then r.slotB else r.slotA).map (·.toNat))

/-- May an operation count on the flag, or does it stall at 255 (R106). -/
def Weave.canCount (w : Weave) : Option Nat → Bool
  | some f => w.getCf f < 255
  | none => true

/-- An operation counts on its flag at issue (R106). -/
def Weave.countUp (w : Weave) : Option Nat → Weave
  | some f => w.setCf f (w.getCf f + 1)
  | none => w

/-- The flag falls by one when the operation completes (R106). -/
def Weave.countDown (w : Weave) : Option Nat → Weave
  | some f => w.setCf f (w.getCf f - 1)
  | none => w

/-- Are all flags of a wait mask clear (R108). -/
def Weave.flagsClear (w : Weave) (mask : BitVec 12) : Bool :=
  (List.range 12).all fun i => !(mask.getLsbD i) || w.getCf i == 0

/-- The pending writes of an operation end when it completes (R109). -/
def Weave.unmark (w : Weave) (op : Nat) : Weave := { w with marks := w.marks.filter (·.op != op) }

/-- Registers an operation will write, marked (R109). -/
def Weave.mark (w : Weave) (op : Nat) (lanes : Lanes) (regs : List (RegCls × Nat)) : Weave :=
  { w with marks := w.marks ++ regs.map fun r => { cls := r.1, reg := r.2, lanes := lanes, op := op } }

/-- An error to be raised later. -/
def Weave.defer (w : Weave) (d : Deferred) : Weave := { w with errs := w.errs ++ [d] }

/-- Is an error raised by a header that waits on these flags (R40, R139, R230, R398): a copy's error, and a memory error of a RED
that counts on no flag (R260), by any header; the others by the wait on the flag they count on. Open points: DESIGN CHOICE, log 33. -/
def Deferred.atHeader (mask : BitVec 12) : Deferred → Bool
  | .remote false (some f) _ _ => mask.getLsbD f
  | .remote _ _ _ _ => false
  | .page (some f) _ _ _ => mask.getLsbD f
  | .page none path _ _ => path == .ls
  | .copyPage _ _ => true
  | .copyRemote _ _ => true
  | .mxRemote (some f) _ => mask.getLsbD f
  | .mxRemote none _ => false
  | .mask (some f) _ _ => mask.getLsbD f
  | .mask none _ _ => false

/-- A routing class named in a FENCE's class mask (R158). -/
def classBit (m : BitVec 3) : RClass → Bool
  | .om => m.getLsbD 0
  | .ad => m.getLsbD 1
  | .rt => m.getLsbD 2

/-- Is an error raised by a FENCE that names these classes (R40). -/
def Deferred.atFence (classes : BitVec 3) : Deferred → Bool
  | .remote _ _ _ cls => classBit classes cls
  | _ => false

def clsCode : RClass → Nat
  | .om => 0
  | .ad => 1
  | .rt => 2

/-- The trap that raises an error at a completion wait or a FENCE (R252, R254). -/
def Deferred.trap (hdr fnc : Bool) (d : Deferred) : Trap :=
  let mk (c : TrapCode) (detail : Nat) (r : Resume) : Trap :=
    { code := c, detail := BitVec.ofNat 16 detail, lane := none, hdr := hdr, fnc := fnc, resume := r }
  let r : Resume := if fnc then .after else .runStart
  match d with
  | .remote _ _ peer cls => mk .remoteFault (peer.toNat + clsCode cls * 512) r
  | .page _ path kind ecc => mk .pageFault (path.code + kind * 4 + (if ecc then 16 else 0)) r
  | .copyPage kind ecc => mk .pageFault (1 + kind * 4 + (if ecc then 16 else 0)) r
  | .copyRemote peer cls => mk .remoteFault (peer.toNat + clsCode cls * 512) r
  | .mxRemote _ peer => mk .remoteFault peer.toNat r
  | .mask _ _ detail => mk .maskTopology detail.toNat r

/-- The first error a header raises, and the weave without it (R252: the trap consumes it). -/
def Weave.takeErr (w : Weave) (f : Deferred → Bool) : Option (Deferred × Weave) :=
  match w.errs.find? f with
  | some d => some (d, { w with errs := w.errs.erase d })
  | none => none

end Sys2Proof.Machine
end

