-- ==== Sys2Proof/Machine/Operands.lean ====
section
/-! DEFINITION. Every operand form: which register class each field of an instruction names, whether it is written,
the checks of REG_RANGE (R116, R117) and RUN_HAZARD (R109), and the guard (R288). -/

namespace Sys2Proof.Machine

open Sys2Proof

/-- What a register field names (R116, R117, R335, R353, R372, R383, R394, R410). -/
inductive Kind where
  /-- One v register. -/
  | v1
  /-- An even v register and the next. -/
  | v2
  /-- An even v register and the next, v255 not allowed (R361, R383, R420, R423). -/
  | v2c
  /-- Four v registers from a multiple of 4, below 252 (R362, R383). -/
  | v4
  /-- A block of s registers. -/
  | s (n : Nat)
  /-- A block of s registers from an even one (R362). -/
  | sEven (n : Nat)
  | p
  | k
  | cv
  deriving DecidableEq, Repr

/-- A register field: its code in TRAPINFO.DETAIL (0 D, 1 A, 2 B, 3 C, 4 EXT32), what it names, whether a
variable-latency or other result is written there. -/
structure Opnd where
  fld : Nat
  kind : Kind
  n   : Nat
  wr  : Bool
  deriving DecidableEq, Repr

/-- Is a number inside its class: `alloc` v registers are allocated. Open points: DEDUCED, log 42. -/
def Kind.inClass (k : Kind) (n alloc : Nat) : Bool :=
  match k with
  | .v1 => n == 255 || n < alloc
  | .v2 => n == 255 || (n % 2 == 0 && n + 1 < alloc)
  | .v2c => n % 2 == 0 && n + 1 < alloc
  | .v4 => n % 4 == 0 && n < 252 && n + 3 < alloc
  | .s c => n + c ≤ 64
  | .sEven c => n % 2 == 0 && n + c ≤ 64
  | .p => n ≤ 7
  | .k => n ≤ 15
  | .cv => n ≤ 15

/-- The registers of classes v, s, p and k that a field covers (R109); v255 and p7 are no registers to wait for. -/
def Opnd.regs (o : Opnd) : List (RegCls × Nat) :=
  match o.kind with
  | .v1 => if o.n = 255 then [] else [(.v, o.n)]
  | .v2 | .v2c => if o.n = 255 then [] else [(.v, o.n), (.v, o.n + 1)]
  | .v4 => [(.v, o.n), (.v, o.n + 1), (.v, o.n + 2), (.v, o.n + 3)]
  | .s c | .sEven c => (List.range c).map fun i => (.s, o.n + i)
  | .p => if o.n = 7 then [] else [(.p, o.n)]
  | .k => [(.k, o.n)]
  | .cv => []

def opD (k : Kind) (n : Nat) : Opnd := ⟨0, k, n, true⟩

/-- A D field that is read or names no register result. -/
def opDr (k : Kind) (n : Nat) : Opnd := ⟨0, k, n, false⟩

def opA (k : Kind) (n : Nat) : Opnd := ⟨1, k, n, false⟩

def opB (k : Kind) (n : Nat) : Opnd := ⟨2, k, n, false⟩

def opC (k : Kind) (n : Nat) : Opnd := ⟨3, k, n, false⟩

def opE (k : Kind) (n : Nat) : Opnd := ⟨4, k, n, false⟩

/-- Is N 64 (R335). -/
def Ty.wide : Ty → Bool
  | .u64 | .s64 => true
  | _ => false

/-- A field marked "w" in R335. -/
def kw (s : Bool) (ty : Ty) : Kind := if s then .s 1 else if Ty.wide ty then .v2 else .v1

/-- A field marked "c" or "32". -/
def k1 (s : Bool) : Kind := if s then .s 1 else .v1

/-- A field marked "pair". -/
def k2 (s : Bool) : Kind := if s then .s 1 else .v2

/-- Is a format 8 bits wide. -/
def Fmt.byte : Fmt → Bool
  | .e4m3 | .e5m2 | .e8m0 | .e5f2 | .int8 | .uint8 => true
  | _ => false

/-- The data register of a memory instruction (R372 "w"; k under `.cap`). -/
def memW (m : MemF) : Kind :=
  if m.size = .cap then .k else if m.s then .s 1 else if m.size = .b64 then .v2 else .v1

/-- The data operand of ATOM (R383). -/
def atomC (m : MemF) (op : AtomOp) : Kind :=
  if op = .cas then (if m.s then .s 2 else if m.size = .b64 then .v4 else .v2c) else memW m

/-- Every register field of an instruction, in the order of R300. -/
def operands : Instr → List Opnd
  | .brx _ a => [opA .v1 a]
  | .loopBeg _ _ a _ _ => [opA .v1 a]
  | .waitt _ a => [opA (.s 1) a]
  | .sreg _ num d => [opD (if num = 0 then .v1 else .s 1) d]
  | .swreg _ a => [opA (.s 1) a]
  | .spawn _ d a b _ _ => [opD (.s 1) d, opA .k a, opB (.s 1) b]
  | .cscope _ _ d a b => [opD (.s 1) d, opA .k a, opB (.s 1) b]
  | .cancel _ d a => [opD (.s 1) d, opA (.s 1) a]
  | .cwait _ d a => [opD (.s 1) d, opA (.s 1) a]
  | .iadd _ f d a b | .isub _ f d a b | .imul _ f d a b | .imulh _ f d a b | .imin _ f d a b | .imax _ f d a b
  | .and _ f d a b | .or _ f d a b | .xor _ f d a b | .andn _ f d a b =>
      [opD (kw f.s f.ty) d, opA (kw f.s f.ty) a, opB (kw f.s f.ty) b]
  | .imad _ f d a b c => [opD (kw f.s f.ty) d, opA (kw f.s f.ty) a, opB (kw f.s f.ty) b, opC (kw f.s f.ty) c]
  | .iabs _ f d a | .mov _ f d a | .brev _ f d a => [opD (kw f.s f.ty) d, opA (kw f.s f.ty) a]
  | .shl _ f d a b | .rol _ f d a b | .bfe _ f d a b => [opD (kw f.s f.ty) d, opA (kw f.s f.ty) a, opB (k1 f.s) b]
  | .shr _ f op d a b c => [opD (kw f.s f.ty) d, opA (kw f.s f.ty) a, opB (k1 f.s) b]
      ++ (if op = .fun_ then [opC (kw f.s f.ty) c] else [])
  | .bfi _ f d a b c => [opD (kw f.s f.ty) d, opA (kw f.s f.ty) a, opB (k1 f.s) b, opC (kw f.s f.ty) c]
  | .popc _ f d a | .clz _ f d a => [opD (k1 f.s) d, opA (kw f.s f.ty) a]
  | .bswz _ s d a b c => [opD (k1 s) d, opA (k1 s) a, opB (k1 s) b, opC (k1 s) c]
  | .isetp _ ty _ d a b => [opD .p d, opA (kw false ty) a, opB (kw false ty) b]
  | .sel _ ty d a b c => [opD (kw false ty) d, opA (kw false ty) a, opB (kw false ty) b, opC .p c]
  | .plog _ op d a b => [opD .p d, opA .p a] ++ (if op = .not ∨ op = .mov then [] else [opB .p b])
  | .movi32 _ s d _ => [opD (k1 s) d]
  | .movi64 _ s d _ => [opD (k2 s) d]
  | .lea _ s _ d a b => [opD (k2 s) d, opA (.s 1) a, opB (k1 s) b]
  | .ballot _ d a => [opD (.s 1) d, opA .p a]
  | .vote _ _ d a => [opD .p d, opA .p a]
  | .shfl _ ty _ d a b => [opD (kw false ty) d, opA (kw false ty) a, opB .v1 b]
  | .iredux _ ty _ d a => [opD (.s 1) d, opA (kw false ty) a]
  | .fadd _ s _ d a b | .fmul _ s _ d a b | .fmin _ s _ d a b | .fmax _ s _ d a b =>
      [opD (k1 s) d, opA (k1 s) a, opB (k1 s) b]
  | .ffma _ s _ d a b c | .vdot4 _ s _ d a b c => [opD (k1 s) d, opA (k1 s) a, opB (k1 s) b, opC (k1 s) c]
  | .fsetp _ _ _ d a b => [opD .p d, opA .v1 a, opB .v1 b]
  | .fcvt _ s _ _ _ d a | .ftoi _ s _ _ d a | .itof _ s _ _ d a | .ftrig _ s _ d a | .fkey _ s _ _ d a
  | .fclass _ s _ d a => [opD (k1 s) d, opA (k1 s) a]
  | .frcp _ s d a | .frsq _ s d a | .fexp2 _ s d a | .flog2 _ s d a => [opD (k1 s) d, opA (k1 s) a]
  | .fargmax _ _ d a => [opD (.s 1) d, opA .v1 a]
  | .vhad _ _ d a => [opD .v1 d, opA .v1 a]
  | .fredux _ _ d a => [opD (.s 1) d, opA .v1 a]
  | .fpack _ s fm d a b =>
      let k : Kind := if s then .s 1 else if Fmt.byte fm then .v2c else .v1
      [opD (k1 s) d, opA k a, opB k b]
  | .funpk _ s fm d a =>
      let k : Kind := if s then .sEven (if Fmt.byte fm then 2 else 1) else if Fmt.byte fm then .v4 else .v2
      [opD k d, opA (k1 s) a]
  | .hash64 _ s d a b c => [opD (k2 s) d, opA (k2 s) a, opB (k2 s) b, opC (k1 s) c]
  | .gumb _ s d a b c => [opD (k1 s) d, opA (k2 s) a, opB (k2 s) b, opC (k1 s) c]
  | .ld _ m d a b _ => [opD (memW m) d, opA .k a, opB (k1 m.s) b]
  | .st _ m a b c _ => [opA .k a, opB (k1 m.s) b, opC (memW m) c]
  | .atom _ m op d a b c _ => [opD (memW m) d, opA .k a, opB (k1 m.s) b, opC (atomC m op) c]
  | .red _ m _ a b c _ => [opA .k a, opB (k1 m.s) b, opC (memW m) c]
  | .stf _ m a b c _ fk _ => [opA .k a, opB (k1 m.s) b, opC (memW m) c, opE .k fk]
  | .vcompst _ m a b c _ => [opA .k a, opB .v1 b, opC (memW m) c]
  | .vexpld _ m d a b _ => [opD (memW m) d, opA .k a, opB .v1 b]
  | .capnew _ mode _ _ d a b c =>
      [opD .k d] ++ (if mode = .own then [] else [opA .k a])
      ++ (if mode = .prm then [] else [opB (.s 1) b]) ++ (if mode = .prm ∨ mode = .ctx then [] else [opC (.s 1) c])
  | .capget _ _ d a => [opD (.s 1) d, opA .k a]
  | .capchk _ _ d a b c => [opD (.s 1) d, opA .k a, opB (.s 1) b, opC (.s 1) c]
  | .stag _ d a => [opD .v1 d, opA .v2 a]
  | .stagset _ d a b => [opD .v1 d, opA .v2 a, opB .v1 b]
  | .staginv _ a => [opA .v2 a]
  | .copy _ f d a b c => [opD (.s 1) d, opA .k a, opB (.s 4) b, opC .k c] ++
      (if f.mode = .tok then [] else [opE .k f.pk.toNat])
  | .copym _ f d a b c _ => [opD (.s 1) d, opA .k a, opB (.s 4) b, opC .k c] ++
      (if f.mode = .tok then [] else [opE .k f.pk.toNat])
  | .copysel _ f d a b c => [opD (.s 1) d, opA .k a, opB (.s 7) b, opC .k c] ++
      (if f.mode = .tok then [] else [opE .k f.pk.toNat])
  | .phinit _ _ a b c | .pharr _ a b c => [opA .k a, opB (.s 1) b, opC (.s 1) c]
  | .phwait _ d a b c | .phtest _ d a b c => [opD (.s 1) d, opA .k a, opB (.s 1) b, opC (.s 1) c]
  | .bar _ d a b => [opD (.s 1) d, opA .k a, opB (.s 1) b]
  | .apos _ d a b c => [opD (.s 1) d, opA .k a, opB (.s 1) b, opC (.s 1) c]
  | .kvst _ _ _ a b c _ => [opA .k a, opB (.s 3) b, opC .k c]
  | .kvpub _ _ _ a b c => [opA .k a, opB (.s 2) b, opC (.s 1) c]
  | .kvacq _ _ d a b => [opD (.s 1) d, opA .k a, opB (.s 1) b]
  | .kvld _ _ _ _ _ d a b c => [opD .v2c d, opA .k a, opB .v1 b, opC (.s 1) c]
  | .kvfork _ _ d a c => [opD (.s 1) d, opA .k a, opC .k c]
  | .kvrel _ d a => [opD (.s 1) d, opA .k a]
  | .qrot _ _ d a b c => [opD .v2c d, opA .v2c a, opB .v2c b, opC .v2c c]
  | .kvstat _ q d a b => [opD (.s 1) d, opA .k a] ++ (if q = .pos then [] else [opB (.s 1) b])
  | .mdecl _ d a => [opDr .cv d, opA (.s 1) a]
  | .msign _ attn d b => [opDr .cv d, opB (.s (if attn then 5 else 4)) b]
  | .mldmask _ d a b => [opDr .cv d, opA .k a, opB (.s 1) b]
  | .mbudget _ a => [opA (.s 1) a]
  | .mstat _ q d a => [opD (.s 1) d] ++ (if q = 2 then [] else [opA .cv a])
  | _ => []

/-- The header part of a program instruction. -/
def hdOf : Instr → Option Hd
  | .nop h | .bra h _ | .call h _ | .brx h _ | .ret h | .exit h | .loopBeg h _ _ _ _ | .loopEnd h _ | .lbrk h _
  | .waitt h _ | .kpoint h | .trap h _ | .brk h _ | .sreg h _ _ | .swreg h _ | .spawn h _ _ _ _ _
  | .cscope h _ _ _ _ | .cancel h _ _ | .cwait h _ _ => some h
  | .iadd h .. | .isub h .. | .imul h .. | .imulh h .. | .imad h .. | .imin h .. | .imax h .. | .iabs h .. | .and h ..
  | .or h .. | .xor h .. | .andn h .. | .shl h .. | .shr h .. | .rol h .. | .bfe h .. | .bfi h .. | .popc h ..
  | .clz h .. | .brev h .. | .bswz h .. | .isetp h .. | .sel h .. | .plog h .. | .mov h .. | .movi32 h ..
  | .movi64 h .. | .lea h .. | .ballot h .. | .vote h .. | .shfl h .. | .iredux h .. => some h
  | .fadd h .. | .fmul h .. | .ffma h .. | .fmin h .. | .fmax h .. | .fsetp h .. | .fcvt h .. | .ftoi h ..
  | .itof h .. | .frcp h .. | .frsq h .. | .fexp2 h .. | .flog2 h .. | .ftrig h .. | .fargmax h .. | .vdot4 h ..
  | .vhad h .. | .fredux h .. | .fpack h .. | .funpk h .. | .fkey h .. | .fclass h .. | .hash64 h .. | .gumb h .. =>
      some h
  | .ld h .. | .st h .. | .atom h .. | .red h .. | .stf h .. | .fence h .. | .pfence h .. | .vcompst h ..
  | .vexpld h .. | .capnew h .. | .capget h .. | .capchk h .. | .stag h .. | .stagset h .. | .staginv h .. => some h
  | .copy h .. | .copym h .. | .copysel h .. | .phinit h .. | .pharr h .. | .phwait h .. | .phtest h .. | .bar h .. =>
      some h
  | .apos h .. | .kvst h .. | .kvpub h .. | .kvacq h .. | .kvld h .. | .kvfork h .. | .kvrel h .. | .qrot h ..
  | .kvstat h .. | .mdecl h .. | .msign h .. | .mldmask h .. | .mzero h .. | .mbudget h .. | .mstat h .. => some h
  | _ => none

/-- The opcode of an instruction, as DETAIL of ILLEGAL_OPCODE names it. -/
def opcOf (i : Instr) : Nat :=
  match encodeRaw i with
  | some r => r.opc.toNat
  | none => 0xFF

/-- Instructions with a variable-latency register result: they need a valid slot (R107). -/
def needsSlot : Instr → Bool
  | .ld .. | .atom .. | .vexpld .. | .spawn .. | .cscope .. | .cancel .. | .cwait .. | .apos .. | .kvld .. | .kvacq ..
  | .kvfork .. | .kvrel .. | .kvstat .. => true
  | _ => false

/-- The active threads: those of the group whose guard is true (R110, R288). -/
def Weave.active (w : Weave) (lanes : Lanes) (pg : BitVec 4) : Lanes :=
  Lanes.ofFn fun l => lanes.has l && (w.getP (pg.extractLsb' 0 3).toNat l != pg.getLsbD 3)

/-- The REG_RANGE check in the order D, A, B, C, EXT32 (R300 step 3). Open points: DEDUCED, log 42. -/
def regRange (alloc : Nat) : List Opnd → Option Trap
  | [] => none
  | o :: r =>
    if o.kind.inClass o.n alloc then regRange alloc r
    else some (.plain .regRange (o.n % 256 + o.fld * 256))

def RegCls.code : RegCls → Nat
  | .v => 0 | .s => 1 | .p => 2 | .k => 3

/-- DETAIL of RUN_HAZARD (R254). -/
def hazardDetail (c : RegCls) (n : Nat) (slot : Bool) : Nat := n % 256 + c.code * 256 + (if slot then 1024 else 0)

/-- Does a pending write of the weave cover the register for a thread of the group (R109). -/
def Mark.hits (m : Mark) (lanes : Lanes) (c : RegCls) (n : Nat) : Bool :=
  m.cls == c && m.reg == n && (c == .s || c == .k || (m.lanes &&& lanes) != 0)

/-- The lane to report: the lowest thread that carries the mark; the lowest of the group where the run itself is the
cause (R254). -/
def hazardAt (w : Weave) (g : Group) (c : RegCls) (n : Nat) : Option Trap :=
  if g.run.vl.contains (c.code, n) then some (.plain .runHazard (hazardDetail c n false))
  else
    match w.marks.find? fun m => m.hits g.lanes c n with
    | some m =>
      let t := Trap.plain .runHazard (hazardDetail c n false)
      some (if c == .s || c == .k then t else { t with lane := some ((m.lanes &&& g.lanes).toList.headD 0) })
    | none => none

/-- The hazard check of R109 over registers in field order. -/
def hazard (w : Weave) (g : Group) : List (RegCls × Nat) → Option Trap
  | [] => none
  | (c, n) :: r =>
    match hazardAt w g c n with
    | some t => some t
    | none => hazard w g r

/-- The k registers that a descriptor in s registers names and the instruction reads (R220 step 5). -/
def namedK (w : Weave) : Instr → List (RegCls × Nat)
  | .msign _ attn _ b =>
    let x := (w.getS (b + if attn then 3 else 2)).toNat
    if attn then [(.k, x / 2 ^ 60), (.k, x / 2 ^ 56 % 16)] else [(.k, x / 2 ^ 52 % 16), (.k, x / 2 ^ 56 % 16)]
  | _ => []

/-- The slot part of R300 step 4 (R107): an instruction with a register result and a clear slot. -/
def slotHazard (g : Group) (i : Instr) (h : Hd) (ops : List Opnd) : Option Trap :=
  if needsSlot i && (g.run.slot h.fs).isNone then
    match ops with
    | o :: _ =>
      let c : RegCls := match o.kind with
        | .k => .k
        | .s _ | .sEven _ => .s
        | _ => .v
      some (.plain .runHazard (hazardDetail c o.n true))
    | [] => some (.plain .runHazard 1024)
  else none

/-- The registers of the operands that are written. -/
def written (ops : List Opnd) : List (RegCls × Nat) := (ops.filter (·.wr)).flatMap Opnd.regs

end Sys2Proof.Machine
end

