-- ==== Sys2Proof/Machine/Fetch.lean ====
section
/-! DEFINITION. Faults that the fault service takes up (R138, R139), instruction fetch (R285, R298, R299, R315, R433)
with the prefix groups (R292–R297), and which group may issue (R80, R104, R108, R111, R112). -/

namespace Sys2Proof.Machine

open Sys2Proof

/-! ### Raising a fault -/

/-- SRCCORE of a fault-ring entry for a core (R138 Table 7). -/
def srcCore (core : Nat) : Nat := core / 64 * 64 + core % 64

/-- SRCCORE of a device agent on a die (R446). Open points: DESIGN CHOICE, log 20. -/
def srcAgent (die : Nat) : Nat := 256 + die * 64

/-- A resolvable fault goes to the fault service, which takes it up with FAULT_POST (R138). -/
def State.raise (s : State) (part lva kind : Nat) (path : Path) (src core : Nat) (owner : Owner) (lane : Option Nat)
    (alloc : Bool) : Nat × State :=
  let (id, s) := s.fresh
  let f : Flt := { part := part, lva := BitVec.ofNat 55 lva, kind := kind, path := path, src := src, core := core,
                   st := .waiting, at_ := s.clock, owner := owner, lane := lane, alloc := alloc }
  (id, { s with faults := Tbl.put s.faults id f })

/-- A group sleeps on a fault of an LS access or a fetch, before its instruction has any effect (R139). `latch` is the
instruction that it has fetched and issues again (R301). -/
def State.sleepOnFault (s : State) (e : Env) (gid lva kind : Nat) (lane : Option Nat)
    (latch : Option (W64 × List (BitVec 8))) : State :=
  let (id, s) := s.raise e.part lva kind .ls (s.ownPeer e.part) (srcCore e.t.core) (.group e.wid gid) lane false
  s.updWeave e.wid fun w => w.updGroup gid fun g => { g with sleep := .fault id, port := false, latch := latch }

/-! ### Fetch -/

/-- The code capabilities that the threads of a group hold (R315). -/
def Env.codeCaps (e : Env) (lanes : Lanes) : List Cap :=
  (if lanes.toList.any fun l => e.w.inTrap l then [e.f.lr.trap] else [])
    ++ (if lanes.toList.any fun l => !e.w.inTrap l then [e.f.lr.code] else [])

/-- The peer checks of R32 for one PEER. -/
def State.peerCheck (s : State) (e : Env) (peer : Nat) : Option PeerErr := s.peerErr e.part (coreDie e.t.core) peer

/-- Why code at an address cannot be read: outside the capability, a fault, memory that holds the read (R14), a peer's block
that has not arrived, a peer that cannot be reached (R32). -/
inductive CodeErr where
  | bounds
  | fault (lva : Nat)
  | page (ecc : Bool)
  | held
  | away (peer lva : Nat)
  | peer (p : Nat) (why : PeerErr)
  deriving DecidableEq, Repr

/-- Who fetches: the weave, the code capabilities its threads hold, and the instruction that the group has fetched already. -/
structure CodeSrc where
  e     : Env
  caps  : List Cap
  latch : Option (W64 × List (BitVec 8))
  deriving DecidableEq, Repr

/-- Bytes of the instruction fetched before: no later store can change them (R301). -/
def CodeSrc.latched (x : CodeSrc) (addr n : Nat) : Option Nat :=
  match x.latch with
  | some (a, bs) =>
    if a.toNat ≤ addr && addr + n ≤ a.toNat + bs.length then some (bytesToNat ((bs.drop (addr - a.toNat)).take n)) else none
  | none => none

/-- Bytes of a fetch block that a core holds (R105). -/
def State.codeLine (s : State) (core : Nat) (block : Loc) (off n : Nat) : Option Nat :=
  (s.icache.find? fun x => x.core == core && x.loc == block).map fun x => bytesToNat ((x.data.drop off).take n)

/-- Code at a local address: the block that the core holds, else memory as it stands (R105, R301, R260). -/
def State.localCode (s : State) (x : CodeSrc) (addr n : Nat) : Except CodeErr Nat :=
  let core := x.e.t.core
  match s.xlate (coreDie core) x.e.part (addr % 2 ^ 55) 3 with
  | .error .held => .error .held
  | .error .resolvable => .error (.fault (addr % 2 ^ 55))
  | .error (.unresolvable ecc) => .error (.page ecc)
  | .ok pa =>
    match s.codeLine core (.mem (pa / 32 * 32)) (pa % 32) n with
    | some v => .ok v
    | none =>
      if s.memSt pa = .held then .error .held else if s.eccBad pa then .error (.page true) else .ok (Memory.num s.mem pa n)

/-- `n` bytes of code at an address inside one fetch block (R126, R301, R315, R433). Open points: DESIGN CHOICE, log 69. -/
def State.code (s : State) (x : CodeSrc) (addr n : Nat) : Except CodeErr Nat :=
  match x.latched addr n with
  | some v => .ok v
  | none =>
    let peer := addr / 2 ^ 55
    let block := addr % 2 ^ 55 / 32 * 32
    if !(x.caps.all fun c => c.covers addr n) then .error .bounds
    else
      match s.peerCheck x.e peer with
      | some why => .error (.peer peer why)
      | none =>
        if peer = s.ownPeer x.e.part then s.localCode x addr n
        else
          match s.codeLine x.e.t.core (.remote (BitVec.ofNat 9 peer) (BitVec.ofNat 55 block)) (addr % 32) n with
          | some v => .ok v
          | none => .error (.away peer block)

/-- What stands at a group's PC. -/
inductive Fetched where
  /-- An instruction, a header or FILL, with the surroundings of its issue. -/
  | word (i : Instr) (c : Cur)
  | trap (addr : W64) (t : Trap)
  /-- No RUN header at handler entry (R258). -/
  | lost
  | fault (lva : Nat)
  /-- Nothing yet: memory holds the read. -/
  | held
  /-- A peer's block that has not arrived. -/
  | away (peer lva : Nat)
  /-- A peer that the checks of R32 refuse. -/
  | peer (addr : W64) (p : Nat) (why : PeerErr)
  deriving DecidableEq, Repr

def illegal (detail : Nat) : Trap := .plain .illegalOpcode detail

/-- ILLEGAL_OPCODE at a RUN header (R291, R102). -/
def illegalHeader : Trap := { illegal 1 with hdr := true }

/-- ILLEGAL_PREFIX: the kind of the prefix, and the kind of the group after it if that is a prefix (R254). -/
def badPrefix (kind : BitVec 5) (next : Option (BitVec 5)) : Trap :=
  .plain .illegalPrefix (kind.toNat + (next.getD 0).toNat * 256)

/-- The trap or fault that a failed read of code gives, raised at `addr`. -/
def CodeErr.fetched (x : CodeErr) (addr : W64) : Fetched :=
  match x with
  | .bounds => .trap addr (.plain .capBounds 0x20)
  | .fault lva => .fault lva
  | .page ecc => .trap addr (.plain .pageFault (12 + (if ecc then 16 else 0)))
  | .held => .held
  | .away p lva => .away p lva
  | .peer p why => .peer addr p why

/-- DETAIL of ILLEGAL_OPCODE for a word: bits [11:4] (R254). -/
def opcBits (w0 : W32) : Nat := (w0.extractLsb' 4 8).toNat

/-- A whole word group at `a`; errors are raised at `first` (R285, R433). -/
def State.groupAt (s : State) (x : CodeSrc) (a : Nat) (first : W64) : Except Fetched (BitVec 128 × Nat) :=
  match s.code x a 4 with
  | .error r => .error (r.fetched first)
  | .ok n0 =>
    let w0 := w32 n0
    let len := groupBytes w0
    if !inBlock a len then .error (.trap first (illegal (opcBits w0)))
    else
      match s.code x a len with
      | .error r => .error (r.fetched first)
      | .ok n => .ok (BitVec.ofNat 128 n, len)

def lowW (w : BitVec 128) : W32 := w.extractLsb' 0 32

/-- A prefix as its fields (R292–R294); `none` breaks R292 or R293. -/
inductive Prefix where
  | mod (r : Rnd) (sat : Bool)
  | rep (r : RepF)
  deriving DecidableEq, Repr

def decodePrefix (w : BitVec 128) : Option Prefix :=
  let w64' : W64 := w.extractLsb' 0 64
  if prefixKind (lowW w) = some 1#5 then
    match decodeMod w64' with
    | some (r, s) => some (.mod r s)
    | none => none
  else if prefixKind (lowW w) = some 2#5 then
    match decodeRep w64' with
    | some r => some (.rep r)
    | none => none
  else none

/-- May a prefix stand before the word group: LEN other than 11, no header, an opcode it modifies (R293, R294). -/
def Prefix.may (p : Prefix) (w : BitVec 128) : Bool :=
  match p with
  | .mod _ _ => modMay (w.extractLsb' 4 8)
  | .rep _ => repMay (w.extractLsb' 4 8)

/-- Does a prefix suit the decoded instruction (R294). -/
def Prefix.fits (p : Prefix) (i : Instr) : Bool :=
  match p with
  | .mod _ _ => true
  | .rep r => r.fits i

/-- The instruction that the prefixes leave to be executed: MOD's rounding, REP's repeat (R293, R295). -/
def prefixed (c : Cur) (g : Group) : List Prefix → Instr → Instr × Cur
  | [], i => (i, c)
  | .mod r sat :: rest, i => prefixed { c with rnd := r, sat := sat } g rest i
  | .rep r :: rest, i =>
    let n := g.progress
    prefixed { c with rep := n, reps := r.reps } g rest (i.stepped (n * r.d) (n * r.a) (n * r.b) (n * r.c))

/-- A prefix group from its first prefix `w` at `a` (R296, R299, R433): every successor is fetched first; then the
first prefix to break a rule traps at its own address. -/
def State.prefixGroup (s : State) (x : CodeSrc) (g : Group) (c : Cur) (w : BitVec 128) : Fetched :=
  let a := c.addr
  let k0 := (prefixKind (lowW w)).getD 0
  match s.groupAt x (a.toNat + 8) a with
  | .error f => f
  | .ok (w1, n1) =>
    let k1 := prefixKind (lowW w1)
    let bad0 : Fetched := .trap a (badPrefix k0 k1)
    let judge (ps : List Prefix) (code : List (BitVec 8)) (last : W64) (kl : BitVec 5) (x : BitVec 128) (nx : Nat) : Fetched :=
      let kx := prefixKind (lowW x)
      let badL : Fetched := .trap last (badPrefix kl kx)
      match kx with
      | some k => if k = 1 ∨ k = 2 then badL else bad0
      | none =>
        if (lowW x).extractLsb' 0 2 = 3#2 ∨ isHeader (lowW x) then badL
        else if ps.length = 2 ∧ (match ps with | p :: _ => p.may x | [] => true) = false then bad0
        else
          match decode x with
          | .error _ => badL
          | .ok i =>
            if ps.all fun p => p.may x && p.fits i then
              let (i', c') := prefixed { c with len := 8 * ps.length + nx, code := code ++ natToBytes nx x.toNat } g ps i
              .word i' c'
            else badL
    match decodePrefix w with
    | none =>
      if k0 = 1 ∧ k1 = some 2#5 then
        match s.groupAt x (a.toNat + 16) a with
        | .error f => f
        | .ok _ => bad0
      else bad0
    | some p0 =>
      if k0 = 1 ∧ k1 = some 2#5 then
        match s.groupAt x (a.toNat + 16) a with
        | .error f => f
        | .ok (w2, n2) =>
          match decodePrefix w1 with
          | none => .trap (a + 8) (badPrefix 2#5 (prefixKind (lowW w2)))
          | some p1 => judge [p0, p1] (natToBytes 8 w.toNat ++ natToBytes 8 w1.toNat) (a + 8) 2#5 w2 n2
      else judge [p0] (natToBytes 8 w.toNat) a k0 w1 n1

/-- What stands at a group's PC, judged by R299 Table 7; the fetch-block check of R285 comes first. -/
def State.fetch (s : State) (e : Env) (g : Group) : Fetched :=
  let x : CodeSrc := { e := e, caps := e.codeCaps g.lanes, latch := g.latch }
  let a := g.pc
  let c : Cur := { weave := e.wid, gid := g.gid, addr := a, len := 0, rnd := .rne, sat := false, rep := 0, reps := 1, code := [] }
  match s.code x a.toNat 4 with
  | .error r => r.fetched a
  | .ok n0 =>
    let w0 := w32 n0
    if !inBlock a.toNat (groupBytes w0) then .trap a (illegal (opcBits w0))
    else if g.pos = .arrived ∧ !isHeader w0 then
      if e.w.anyTrap g.lanes then .lost else .trap a (.plain .branchTarget 0)
    else
      match s.groupAt x a.toNat a with
      | .error f => f
      | .ok (w, len) =>
        let c := { c with len := len, code := natToBytes len w.toNat }
        if (lowW w).extractLsb' 0 3 = 7#3 then
          if lowW w = 7 then .word .fill c else .trap a (illegal 0xFF)
        else if g.pos ≠ .inRun then
          if isHeader w0 then
            match decode w with
            | .ok i => .word i c
            | .error _ => .trap a illegalHeader
          else .trap a (illegal (opcBits w0))
        else if isHeader w0 then .trap a illegalHeader
        else
          match prefixKind w0 with
          | some _ => s.prefixGroup x g c w
          | none =>
            match decode w with
            | .ok i => .word i c
            | .error _ => .trap a (illegal (opcBits w0))

/-! ### Which group may issue -/

/-- Number of a team in its field (R74). -/
def teamLinear (f : Field) (c : Cohort) (t : Team) : Nat := c.index * f.lr.width + t.num

/-- The lowest unfinished team of a field, with its number: cohorts that wait to be placed again count (R80, R262). -/
def State.lowestTeam (s : State) (fid : Nat) (f : Field) : Option Nat :=
  let here := s.teams.filterMap fun (tid, t) =>
    match s.cohort t.cohort with
    | some c => if c.field == fid && !t.ended then some (teamLinear f c t, tid) else none
    | none => none
  let redo := (Tbl.vals s.records).flatMap fun r =>
    if r.field == some fid then r.redo.map (·.1 * f.lr.width) else []
  match here.foldl (fun (b : Option (Nat × Nat)) x =>
      match b with
      | none => some x
      | some y => if x.1 < y.1 then some x else b) none with
  | some (n, tid) => if redo.any (· < n) then none else some tid
  | none => none

/-- The progress team of a core (R80): among resident teams that are the lowest of their field, the one whose field
started first. -/
def State.progressTeam (s : State) (core : Nat) : Option Nat :=
  s.fields.findSome? fun (fid, f) =>
    match s.lowestTeam fid f with
    | none => none
    | some tid =>
      match s.team tid with
      | some t =>
        match s.cohort t.cohort with
        | some c => if t.core == core && c.st != .saved then some tid else none
        | none => none
      | none => none

/-- The weaves of a quarter that still have threads. -/
def State.quarterWeaves (s : State) (core quarter : Nat) : List (Nat × Weave) :=
  s.weaves.filter fun (_, w) =>
    w.live != 0 && w.slot / 16 == quarter &&
      (match s.team w.team with
       | some t => t.core == core && (match s.cohort t.cohort with
         | some c => c.st != .saved
         | none => false)
       | none => false)

/-- Does a group stand in the gap between two repeats (R264). -/
def State.atGap (s : State) (e : Env) (g : Group) : Bool :=
  g.pos == .inRun && g.progress > 0 && (match s.fetch e g with
    | .word _ c => c.reps > 1
    | _ => false)

/-- Has a core asked a peer for a block of code. -/
def State.codeAsked (s : State) (core peer lva : Nat) : Bool :=
  someT s.legs fun _ l => l.owner == .code core && l.peer.toNat == peer && l.pkt.accs.any fun a => a.lva.toNat / 32 * 32 == lva

/-- Is a group ready (R108, R111): it does not sleep, its code can be read, and its header's wait mask is satisfied, or a
kill point or a halt precedes the wait. -/
def State.groupReady (s : State) (e : Env) (g : Group) : Bool :=
  !g.halted && !(e.c.st == .halting && s.atGap e g) &&
    (match g.sleep with
     | .awake => true
     | .header _ => true
     | _ => false) &&
    (match s.fetch e g with
     | .word (.run mask _ _) _ => s.killDue e || e.c.st == .halting || e.w.flagsClear mask
     | .held => false
     | .away peer lva => !s.codeAsked e.t.core peer lva
     | _ => true)

/-- Does the group stand at a FILL between runs, which takes no issue slot (R298). -/
def State.atFill (s : State) (e : Env) (g : Group) : Bool :=
  g.pos == .between && g.sleep == .awake && (match s.fetch e g with
    | .word .fill _ => true
    | _ => false)

/-- Does the group stand at a RUN header that it can read. -/
def State.atHeader (s : State) (e : Env) (g : Group) : Bool :=
  g.pos != .inRun && (match s.fetch e g with
    | .word (.run _ _ _) _ => true
    | _ => false)

/-- Has the group reached a RUN header whose wait mask is not satisfied: it fetches the header, once and for all (R301), and is
held at it (R108), which takes no issue slot. -/
def State.atWait (s : State) (e : Env) (g : Group) : Bool :=
  !g.halted && g.pos != .inRun && g.sleep == .awake && (match s.fetch e g with
    | .word (.run mask _ _) _ => !(s.killDue e || e.c.st == .halting || e.w.flagsClear mask)
    | _ => false)

/-- Slices of four lanes that a set touches. -/
def slicesOf (l : Lanes) : List Nat := (List.range 8).filter fun i => l.extractLsb' (4 * i) 4 != 0

/-- May a group take a second port beside others (R111 item 3): its slices are disjoint from theirs, and every
thread of each of its slices belongs to it. -/
def secondPort (w : Weave) (g : Group) (others : List (Nat × Group)) : Bool :=
  let sl := slicesOf g.lanes
  others.length == 1 && (others.all fun o => (slicesOf o.2.lanes).all fun i => !sl.contains i)
    && (sl.all fun i => w.live.extractLsb' (4 * i) 4 == g.lanes.extractLsb' (4 * i) 4)

/-- Must the group that has waited longest go now, so that none of the ready groups waits for more than 63 runs (R112): for
some number of runs, that many groups and more have no further one to spare. -/
def overdue (gs : List Group) : Bool :=
  (List.range 64).any fun k => (gs.filter fun g => 63 - g.skipped ≤ k).length > k

/-- The group of a weave to issue (R111 rule 2, R112): lowest PC, unless the one that has waited longest must go. -/
def pickGroup (gs : List Group) : Option Group :=
  if overdue gs then gs.foldl (fun b g =>
      match b with
      | none => some g
      | some x => if g.skipped > x.skipped then some g else b) none
  else gs.foldl (fun b g =>
      match b with
      | none => some g
      | some x => if g.pc.toNat < x.pc.toNat then some g else b) none

/-- The ready groups of a weave that hold no port. -/
def State.waitingGroups (s : State) (e : Env) : List Group := e.w.groups.filter fun g => !g.port && s.groupReady e g

/-- May a group begin a run though it is not the choice of rule 2 of R111: not where R112 gives the turn to another. -/
def State.turnOk (s : State) (e : Env) (g : Group) : Bool :=
  let gs := s.waitingGroups e
  !overdue gs || (pickGroup gs).map (·.gid) == some g.gid

/-- Writes to the shared state of a weave take effect in issue order, and in one cycle that of the lower PC comes first
(R114): no group issues after one of a higher PC in the same cycle. -/
def State.inOrder (s : State) (e : Env) (g : Group) : Bool :=
  s.last.all fun (w, t, pc) => !(w == e.wid && t == s.clock && decide (g.pc.toNat < pc.toNat))

/-- The group that a quarter issues next when no port is taken (R111 rule 1). -/
def State.quarterPick (s : State) (core quarter : Nat) : Option (Nat × Nat) :=
  let prog := s.progressTeam core
  let cands := (s.quarterWeaves core quarter).filterMap fun (wid, w) =>
    match s.env wid with
    | none => none
    | some e =>
      match pickGroup (w.groups.filter fun g => s.groupReady e g) with
      | some g => some (prog != some w.team, w.age, wid, g.gid)
      | none => none
  (cands.foldl (fun (b : Option (Bool × Nat × Nat × Nat)) x =>
    match b with
    | none => some x
    | some y => if (!x.1 && y.1) || (x.1 == y.1 && x.2.1 < y.2.1) then some x else b) none).map fun x => (x.2.2.1, x.2.2.2)

/-- Groups of a quarter that hold an issue port. -/
def State.ports (s : State) (core quarter : Nat) : List (Nat × Group) :=
  (s.quarterWeaves core quarter).flatMap fun (wid, w) => (w.groups.filter (·.port)).map fun g => (wid, g)

/-- May a group issue now: it is to be held at its header; or it is on a port; or it stands at FILL; or it is the quarter's choice
and a port is free; or it takes the second port. A header waits until the weave's other groups have passed their FILL words, so that groups
whose PCs become equal merge first (R113). Where the first port falls free while the second still runs a group, the next
group must meet the second port's conditions against that one. Open points: DESIGN CHOICE, log 69. -/
def State.mayIssue (s : State) (e : Env) (g : Group) : Bool :=
  let core := e.t.core
  let q := e.w.slot / 16
  e.c.st != .saved && (s.atWait e g || (s.groupReady e g && s.inOrder e g &&
    (g.port || s.atFill e g ||
      ((g.pos == .inRun || !(e.w.groups.any fun o => o.gid != g.gid && s.atFill e o)) &&
        (match s.ports core q with
         | [] => s.quarterPick core q == some (e.wid, g.gid)
         | os => secondPort e.w g os && s.turnOk e g)))))

end Sys2Proof.Machine
end

