-- ==== Sys2Proof/Machine/Issue.lean ====
section
/-! DEFINITION. The issue of one instruction by a group: the checks of R300, the guard, and what follows the
instruction's own effect — the advance of the group, a trap, a stall or a sleep (R102–R104, R253, R295). -/

namespace Sys2Proof.Machine

open Sys2Proof

/-- The surroundings of an instruction that has passed the checks of R300 steps 1 to 4. `act` holds its active
threads (R110). -/
structure Ctx where
  s   : State
  e   : Env
  g   : Group
  c   : Cur
  h   : Hd
  act : Lanes
  deriving DecidableEq, Repr

/-- What an instruction's own entry answers. -/
inductive Res where
  /-- Its effect is made; the group goes on. -/
  | done (s : State)
  /-- A precise trap: no effect (R253). -/
  | trap (t : Trap)
  /-- A trap that consumes what caused it (R252). -/
  | trapIn (s : State) (t : Trap)
  /-- No effect yet; the group issues it again (R104). -/
  | stall
  /-- The group goes on and sleeps. -/
  | sleep (s : State) (why : Sleep)
  /-- The meaning has placed the group itself: a transfer, an end, a fault under service. -/
  | stay (s : State)
  deriving DecidableEq, Repr

/-- A run that is not begun. -/
def Run.none_ : Run := { hdr := 0, slotA := none, slotB := none, count := 0, vl := [] }

/-- A group at the end of its run (R102, R103). -/
def Group.boundary (g : Group) : Group :=
  { g with pos := .between, run := Run.none_, progress := 0, port := false, latch := none }

/-- The group after one instruction or one repeat (R102, R295). In the gap between two repeats the port serves other groups,
and the instruction that goes on has been fetched (R104, R301). -/
def Group.advance (g : Group) (c : Cur) (bnd : Bool) (vl : List (RegCls × Nat)) : Group :=
  let vl' := g.run.vl ++ vl.map fun r => (r.1.code, r.2)
  if c.rep + 1 < c.reps then 
    { g with progress := c.rep + 1, run := { g.run with vl := vl' }, port := false, latch := some (c.addr, c.code) }
  else
    let g := { g with progress := 0, pc := c.addr + w64 c.len,
                      run := { g.run with count := g.run.count + 1, vl := vl' }, port := true, latch := none }
    if bnd then g.boundary else g

/-- Changes the issuing group. -/
def State.onGroup (s : State) (c : Cur) (f : Group → Group) : State :=
  s.updWeave c.weave fun w => w.updGroup c.gid f

/-- The check on the 24th instruction of a run (R102, R300 step 2). -/
def tooLong (g : Group) (h : Hd) (i : Instr) : Option Trap :=
  if g.run.count ≥ 23 ∧ !h.bnd then some (illegal (opcOf i)) else none

/-- The first trap of R300 steps 2 to 4. -/
def preTrap (e : Env) (g : Group) (h : Hd) (i : Instr) : Option Trap :=
  let ops := operands i
  match tooLong g h i with
  | some t => some t
  | none =>
    match regRange e.f.lr.vAlloc ops with
    | some t => some t
    | none =>
      match slotHazard g i h ops with
      | some t => some t
      | none => hazard e.w g (ops.flatMap Opnd.regs ++ namedK e.w i)

/-- The registers that an instruction writes when it completes (R109). -/
def lateRegs (i : Instr) : List (RegCls × Nat) := if needsSlot i then written (operands i) else []

/-- Takes the trap of the issuing group. -/
def State.trapNow (s : State) (x : Ctx) (t : Trap) : State :=
  s.takeTrap x.c.weave x.c.gid x.c.addr x.c.len x.h.bnd t

/-- What follows the answer of an instruction's own entry. -/
def Res.apply (r : Res) (x : Ctx) (i : Instr) : State :=
  match r with
  | .done s => s.onGroup x.c fun g => g.advance x.c x.h.bnd (lateRegs i)
  | .trap t => x.s.trapNow x t
  | .trapIn s t => s.trapNow x t
  | .stall => x.s.onGroup x.c fun g => { g with sleep := .stall, port := false, latch := some (x.c.addr, x.c.code) }
  | .sleep s why =>
    s.onGroup x.c fun g => { g.advance x.c x.h.bnd (lateRegs i) with sleep := why, port := false }
  | .stay s => s

/-- The issuing weave and group of a program instruction. Without them the instruction is not issued and nothing
happens (log 1). -/
def State.issuer (s : State) : Option (Cur × Env × Group) :=
  match s.cur with
  | none => none
  | some c =>
    match s.env c.weave with
    | none => none
    | some e =>
      match e.w.group c.gid with
      | none => none
      | some g => some (c, e, g)

/-- The open operation of a VCOMPST of a group, if it continues one (R387). -/
def State.openOf (s : State) (wid gid : Nat) : Option (Nat × LsOp) :=
  s.lsOps.findSome? fun (k, p) => if p.weave == wid && p.hole == some gid then some (k, p) else none

/-- Does an instruction go on with an operation that it has begun: its registers were read when it issued (R109, R376,
R438). -/
def State.continues (s : State) (c : Cur) : Instr → Bool
  | .vcompst .. => (s.openOf c.weave c.gid).isSome
  | _ => false

/-- Issues one instruction: the checks of R300, then its own entry. Open points: DESIGN CHOICE, log 1. -/
def issue (i : Instr) (s : State) (body : Ctx → Res) : Host.Outcome State Fault Refusal :=
  match s.issuer, hdOf i with
  | some (c, e, g), some h =>
    let x : Ctx := { s := s, e := e, g := g, c := c, h := h, act := e.w.active g.lanes h.pg }
    .next (match (if s.continues c i then none else preTrap e g h i) with
      | some t => s.trapNow x t
      | none => (body x).apply x i)
  | _, _ => .next s

/-! ### Reading and writing registers under the guard -/

/-- The active threads' lanes in increasing order. -/
def Ctx.lanes (x : Ctx) : List Nat := x.act.toList

/-- The weave of the instruction. -/
def Ctx.w (x : Ctx) : Weave := x.e.w

/-- Changes the issuing weave. -/
def Ctx.upd (x : Ctx) (f : Weave → Weave) : State := x.s.updWeave x.c.weave f

/-- Writes a v register of each active thread; every value is computed from the state before. -/
def Ctx.putV (x : Ctx) (d : Nat) (f : Nat → W32) : State :=
  x.upd fun w => x.lanes.foldl (fun w l => w.setV d l (f l)) w

def Ctx.putV64 (x : Ctx) (d : Nat) (f : Nat → W64) : State :=
  x.upd fun w => x.lanes.foldl (fun w l => w.setV64 d l (f l)) w

def Ctx.putP (x : Ctx) (d : Nat) (f : Nat → Bool) : State :=
  x.upd fun w => x.lanes.foldl (fun w l => w.setP d l (f l)) w

/-- Writes an s register once, if some thread is active. -/
def Ctx.putS (x : Ctx) (d : Nat) (v : W64) : State :=
  x.upd fun w => if x.act = 0 then w else w.setS d v

/-- Writes the scalar or the per-thread destination of a form: 32 bits zero-extended, or 64 bits. -/
def Ctx.put32 (x : Ctx) (sc : Bool) (d : Nat) (f : Nat → W32) : State :=
  if sc then x.putS d ((f 0).setWidth 64) else x.putV d f

def Ctx.put64 (x : Ctx) (sc : Bool) (d : Nat) (f : Nat → W64) : State :=
  if sc then x.putS d (f 0) else x.putV64 d f

/-- A 32-bit source: a v register of a thread, or the low half of an s register. -/
def Ctx.src32 (x : Ctx) (sc : Bool) (n lane : Nat) : W32 :=
  if sc then (x.w.getS n).extractLsb' 0 32 else x.w.getV n lane

def Ctx.src64 (x : Ctx) (sc : Bool) (n lane : Nat) : W64 :=
  if sc then x.w.getS n else x.w.getV64 n lane

/-- The weave's WSTAT with a sticky bit set if `b` (R120). -/
def State.stickyIf (s : State) (wid bit : Nat) (b : Bool) : State := if b then s.sticky wid bit else s

end Sys2Proof.Machine
end

