-- ==== Sys2Proof/Machine/Access.lean ====
section
/-! DEFINITION. LS accesses between issue and completion: the scopes that release and acquire meet under (R148, R161,
R162, R447), atomics (R381), read-side staging (R133, R160), the orders of R153–R157, R377 and R382 that hold an access
back, and completion (R378). -/

namespace Sys2Proof.Machine

open Sys2Proof

end Sys2Proof.Machine

/-- The core of an identity. -/
def Sys2Proof.Ident.coreNum (i : Sys2Proof.Ident) : Nat := i.die * 64 + i.cg * 8 + i.core

namespace Sys2Proof.Machine

open Sys2Proof

/-! ### Scopes (R148, R149, R447) -/

def Scope.num : Scope → Nat
  | .team => 0 | .coh => 1 | .die => 2 | .mod => 3 | .dom => 4 | .sys => 5

/-- Does the peer table of one partition of this module list a module and partition as VALID. -/
def State.lists (s : State) (part phys other : Nat) : Bool :=
  (Tbl.vals (s.part part).peers).any fun v => entValid v && entPhys v == phys && entPart v == other

/-- Does the peer table of one party list the other as VALID (R447): a table of this module, or what another module's
table is known to list. A party of another module that has reached memory of partition `at_` of this module lists that
partition (R32). Open points: PRESUMED, log 8. -/
def State.listed (s : State) (at_ : Option Nat) (a b : Ident) : Bool :=
  if a.phys = s.physNum then s.lists a.part b.phys b.part
  else (b.phys == s.physNum && at_ == some b.part) || s.hd.foreign.contains (a.phys, a.part, b.phys, b.part)

/-- Does domain scope of one party include the other: each lists the other (R447). -/
def State.domainPair (s : State) (at_ : Option Nat) (a b : Ident) : Bool :=
  (a.phys == b.phys && a.part == b.part) || (s.listed at_ a b && s.listed at_ b a)

/-- Does the scope, taken relative to `a`, include `b` (R148, R149), where they meet in memory of partition `at_`.
Open points: PRESUMED, log 8. -/
def State.includes (s : State) (at_ : Option Nat) (sc : Scope) (a b : Ident) : Bool :=
  let same := a.phys == b.phys && a.part == b.part
  match sc with
  | .team => same && a.team == b.team
  | .coh => same && a.cohort == b.cohort
  | .die => same && a.die == b.die
  | .mod => same
  | .dom | .sys => s.domainPair at_ a b

/-- The partition in whose windows a physical address lies. -/
def State.windowOf (s : State) (pa : Nat) : Option Nat := (s.parts.find? fun e => e.2.holds pa 1).map (·.1)

/-- Does an acquire that reads `n` bytes of the location read from a release that it cannot synchronise with (R162). Only
granules of global memory keep the record: R30 defines a granule in domain address space. Open points: DEDUCED, log 36. -/
def State.mismatched (s : State) (l : Loc) (n : Nat) (sc : Scope) (who : Ident) : Bool :=
  match l with
  | .mem pa => match Tbl.find s.rel (pa / 64) with
    | some r =>
      let at_ := s.windowOf pa
      r.bytes &&& relMask pa n != 0 && !(s.includes at_ r.scope r.ident who && s.includes at_ sc who r.ident)
    | none => false
  | _ => false

/-! ### Atomics (R381) -/

/-- New value of an atomic on `size` bytes; `none` for a failing CAS. -/
def atomNew (op : AtomOp) (size : Nat) (old x y : Nat) : Option Nat :=
  let m := 256 ^ size
  let c := x % m
  let sg (v : Nat) : Int := if v < m / 2 then v else (v : Int) - m
  match op with
  | .add => some ((old + c) % m)
  | .smin => some (if sg old ≤ sg c then old else c)
  | .umin => some (Nat.min old c)
  | .smax => some (if sg c ≤ sg old then old else c)
  | .umax => some (Nat.max old c)
  | .and => some (old &&& c)
  | .or => some (old ||| c)
  | .xor => some (old ^^^ c)
  | .exch => some c
  | .cas => if old = c then some (y % m) else none

/-! ### Read-side staging (R133, R160) -/

/-- The granule that holds a location. -/
def Loc.granule : Loc → Loc
  | .mem pa => .mem (pa / 64 * 64)
  | .spad t off => .spad t (off / 64 * 64)
  | .acc t i => .acc t (i / 16 * 16)
  | .remote p a => .remote p (BitVec.ofNat 55 (a.toNat / 64 * 64))
  | .virt a => .virt a

/-- Offset of a location in its granule, in bytes. -/
def Loc.inGranule : Loc → Nat
  | .mem pa => pa % 64
  | .spad _ off => off % 64
  | .acc _ i => i % 16 * 4
  | .remote _ a => a.toNat % 64
  | .virt _ => 0

/-- The staged line of a location. Open points: DEDUCED, log 35. -/
def State.staged (s : State) (core : Nat) (path : Path) (l : Loc) : Option Stage :=
  s.staging.find? fun x => x.core == core && x.path == path && x.loc == l.granule

/-- Bytes of a location as a path of a core reads them: staged ones where a line is staged. -/
def State.readVia (s : State) (core : Nat) (path : Path) (l : Loc) (n : Nat) : List (BitVec 8) :=
  match s.staged core path l with
  | some x => (x.data.drop l.inGranule).take n
  | none => s.locBytes l n

def Loc.isMem : Loc → Bool
  | .mem _ => true
  | _ => false

/-- Is a line one of the L1 data cache of a core. -/
def Stage.inL1 (x : Stage) (core : Nat) : Bool := x.core == core && x.path == .ls && x.loc.isMem

/-- Lines of an L1 data cache (R133: 128 KiB). -/
def l1Lines : Nat := 2048

/-- A new line among the staged ones; in a full L1 data cache the oldest makes room. -/
def stagePut (t : List Stage) (x : Stage) : List Stage :=
  let t := t.filter fun y => !(y.core == x.core && y.path == x.path && y.loc == x.loc)
  if x.inL1 x.core then x :: ((t.filter (·.inL1 x.core)).take (l1Lines - 1) ++ t.filter fun y => !y.inL1 x.core) else x :: t

/-- Stages a granule on a path, as it is now. Open points: DEDUCED, log 35. -/
def State.stageNow (s : State) (core : Nat) (path : Path) (l : Loc) : State :=
  { s with staging := stagePut s.staging { core := core, path := path, loc := l.granule, data := s.locBytes l.granule 64 } }

/-- A line with new bytes at a location. -/
def Stage.patch (x : Stage) (l : Loc) (bs : List (BitVec 8)) : Stage :=
  { x with data := x.data.take l.inGranule ++ bs ++ x.data.drop (l.inGranule + bs.length) }

/-- In the lines that hold the location and satisfy a test, `n` bytes take their present values (R133). -/
def State.patch (s : State) (l : Loc) (n : Nat) (f : Stage → Bool) : State :=
  { s with staging := s.staging.map fun x => if x.loc == l.granule && f x then x.patch l (s.locBytes l n) else x }

/-- Drops the lines that satisfy a test. -/
def State.unstage (s : State) (f : Stage → Bool) : State := { s with staging := s.staging.filter fun x => !f x }

/-- An LS write updates what it stores in the lines of its own core; lines of scratchpad and accumulator banks follow every
LS write (R133, R152). -/
def State.afterLsWrite (s : State) (core : Nat) (l : Loc) (n : Nat) : State :=
  s.patch l n fun x => x.path == .ls && (x.core == core || !l.isMem)

/-- A weave that acquires reads no L1 line of its core from before (R161, R133). Open points: DESIGN CHOICE, log 16. -/
def State.acquireAt (s : State) (core : Nat) : State := s.unstage fun x => x.core == core && x.path == .ls && x.loc.isMem

/-! ### Performing one access at its home (R152) -/

/-- Reads a value and, for 16 bytes, its tag. -/
def State.peek (s : State) (l : Loc) (size : Nat) : BitVec 128 × Bool :=
  (BitVec.ofNat 128 (bytesToNat (s.locBytes l size)), size == 16 && s.locTag l)

/-- Does an access read what is at its place: every one but a plain write. -/
def reqReads : ReqOp → Bool
  | .write _ _ => false
  | _ => true

/-- Performs an access; a write leaves out the bytes of which `skip` holds, and records its release. -/
def State.doAcc (s : State) (l : Loc) (size : Nat) (op : ReqOp) (rel : Option Rel) (skip : Nat → Bool) :
    State × (BitVec 128 × Bool) :=
  match op with
  | .read | .fetch => (s, s.peek l size)
  | .write data tag =>
    let bs := natToBytes size data.toNat
    let old := s.locBytes l size
    let new := (List.range size).map fun i => if skip i then old.getD i 0 else bs.getD i 0
    if (List.range size).all skip then (s, (0, false))
    else (((s.locWrite l new).locSetTag l (size == 16 && tag)).recordRel l size (s.relAt l) rel, (0, false))
  | .atom o x y =>
    let old := (s.peek l size).1
    match atomNew o size old.toNat x.toNat y.toNat with
    | some v => ((s.locWrite l (natToBytes size v)).recordRel l size (s.relAt l) rel, (old, false))
    | none => (s, (old, false))

/-- Does performing the access write (R381: a failing CAS does not). -/
def State.writes (s : State) (l : Loc) (size : Nat) : ReqOp → Bool
  | .read | .fetch => false
  | .write _ _ => true
  | .atom o x y => (atomNew o size (s.peek l size).1.toNat x.toNat y.toNat).isSome

/-! ### Order (R153–R157, R377, R382) -/

/-- Kinds of R154. -/
inductive Ord where
  | wl | ws | sl | ss | acq | rel
  deriving DecidableEq, Repr

def kindsOf (k : LsKind) (sem : Sem) : List Ord :=
  match k, sem with
  | .ld, .weak => [.wl]
  | .ld, .acq => [.acq]
  | .ld, _ => [.sl]
  | .atom, .acq => [.acq]
  | .atom, .acqrel => [.acq, .rel]
  | .atom, _ => [.sl, .ss]
  | _, .weak => [.ws]
  | _, .rel => [.rel]
  | _, _ => [.ss]

/-- Tables 4 and 5 of R154 and R155: is the pair kept. `wide` is domain or system scope; `om` says that both accesses
are OM. -/
def keptPair (wide om : Bool) (earlier later : Ord) : Bool :=
  if later = .rel then true
  else
    match earlier with
    | .acq => true
    | .wl | .ws => false
    | .sl => (later == .sl || later == .ss || later == .acq) && (!wide || om)
    | .ss | .rel => later == .ss && (!wide || om)

/-- Bytes of a location that `n` bytes cover, as a bank, and the first and the end of them. -/
def Loc.span (l : Loc) (n : Nat) : (Nat × Nat × Nat) × Nat × Nat :=
  match l with
  | .mem pa => ((0, 0, 0), pa, pa + n)
  | .spad t off => ((1, t, 0), off, off + n)
  | .acc t i => ((2, t, 0), i * 4, i * 4 + n)
  | .remote p a => ((3, p.toNat, 0), a.toNat, a.toNat + n)
  | .virt a => ((4, 0, 0), a.toNat, a.toNat + n)

/-- Do two accesses touch a common byte. -/
def Acc.overlaps (a b : Acc) : Bool :=
  let x := a.loc.span a.size
  let y := b.loc.span b.size
  x.1 == y.1 && x.2.1 < y.2.2 && y.2.1 < x.2.2

/-- Does `a` cover every byte of `b`. -/
def Acc.coversAcc (a b : Acc) : Bool :=
  let x := a.loc.span a.size
  let y := b.loc.span b.size
  x.1 == y.1 && x.2.1 ≤ y.2.1 && y.2.2 ≤ x.2.2

def Loc.isRemote : Loc → Bool
  | .remote _ _ => true
  | _ => false

/-- Do lanes of one load read one element in one access (R377). -/
def Acc.shares (a b : Acc) : Bool :=
  a.op == .read && b.op == .read && a.loc == b.loc && a.size == b.size && (match a.loc with
    | .mem pa => pa % a.size == 0
    | .spad _ off => off % a.size == 0
    | .acc _ _ => true
    | _ => false)

/-- The threads in whose program order an access stands: that of its lane and of the lanes that share it (R377); a scalar
access stands in that of every thread of its group (R154). -/
def LsOp.threads (o : LsOp) (a : Acc) : Lanes :=
  if o.sc then o.lanes
  else o.accs.foldl (fun m b => if a.shares b then m ||| (1#32 <<< b.lane) else m) (1#32 <<< a.lane)

/-- A local access counts as OM (R29). -/
def LsOp.clsOf (o : LsOp) (a : Acc) : RClass := if a.loc.isRemote then o.cls else .om

/-- A remote access at a narrower scope is performed as at domain scope (R149). -/
def LsOp.scopeNum (o : LsOp) (a : Acc) : Nat := if a.loc.isRemote then Nat.max 4 (Scope.num o.scope) else Scope.num o.scope

/-- The module an access goes to; `none` for the own one. -/
def State.target (s : State) (part : Nat) (a : Acc) : Option Nat :=
  match a.loc with
  | .remote p _ => some (entPhys (s.peerEnt part p.toNat))
  | _ => none

/-- The location `i` bytes on. -/
def Loc.at (l : Loc) (i : Nat) : Loc :=
  match l with
  | .mem pa => .mem (pa + i)
  | .spad t off => .spad t (off + i)
  | .acc t j => .acc t (j + i / 4)
  | l => l

/-- Does a higher lane of the same store write byte `i` of the access (R36, R377). -/
def LsOp.masked (o : LsOp) (a : Acc) (i : Nat) : Bool :=
  (o.kind == .st || o.kind == .stf) && !a.inc
    && o.accs.any fun b => !b.inc && b.lane > a.lane && b.overlaps { a with loc := a.loc.at i, size := 1 }

/-- A store of the same thread, or of the same threads, whose value a later load may take before it is performed (R152, R154
note 3). -/
def LsOp.forwards (q : LsOp) (b : Acc) (p : LsOp) (a : Acc) : Bool :=
  p.kind == .ld && lanesMinus (p.threads a) (q.threads b) == 0 && (q.kind == .st || q.kind == .stf) && !b.inc && a.size ≤ 8 && b.coversAcc a
    && !((List.range b.size).any fun i => q.masked b i)

/-- Must access `a` of the later operation `p` wait for the unperformed access `b` of the earlier operation `q` of the
same weave. `sent` says that `b` has left for a peer. -/
def State.blocks (s : State) (q : LsOp) (b : Acc) (sent : Bool) (p : LsOp) (a : Acc) : Bool :=
  let kp := kindsOf p.kind p.sem
  let kq := kindsOf q.kind q.sem
  let om := p.clsOf a == .om && q.clsOf b == .om
  let strong := p.sem != .weak && q.sem != .weak
  let tp := s.target p.part a
  let tq := s.target q.part b
  if kp.contains .rel || kq.contains .acq then true
  else if strong && om && tp != tq && !(p.kind == .ld && (q.kind == .st || q.kind == .red || q.kind == .stf)) then true
  else if a.overlaps b && (p.kind == .atom || p.kind == .red) && (q.kind == .atom || q.kind == .red) then !sent
  else if p.threads a &&& q.threads b == 0 then false
  else if sent && a.loc.isRemote && om && tp == tq then false
  else if a.overlaps b then !q.forwards b p a
  else
    let wide := Nat.min (p.scopeNum a) (q.scopeNum b) ≥ 4
    kq.any fun x => kp.any fun y => keptPair wide om x y

/-- Has access `i` of an operation left for its peer. -/
def State.sentAcc (s : State) (op i : Nat) : Bool := someT s.ott fun _ o => o.op == op && o.sent && o.accs.contains i

def KvKind.isAcq : KvKind → Bool
  | .kvacq .. => true
  | _ => false

def ScopeKind.isSpawn : ScopeKind → Bool
  | .spawn .. => true
  | _ => false

/-- Is an acquire of the weave from before still to be performed: on the LS path, or the one by which SPAWN reads (R157,
R82). -/
def State.acqBehind (s : State) (wid id : Nat) : Bool :=
  (someT s.lsOps fun k p => k < id && p.weave == wid && (p.sem == .acq || p.sem == .acqrel) && p.accs.any (·.got.isNone))
    || someT s.scopeOps fun k o => k < id && o.weave == wid && o.kind.isSpawn

/-- Do the earlier operations of the weave let an access go (R154–R157); a KVACQ holds every later one (R419), and so
does the acquire by which SPAWN reads (R82). -/
def State.ordered (s : State) (id : Nat) (p : LsOp) (a : Acc) : Bool :=
  !(someT s.kvOps fun k o => k < id && o.weave == p.weave && o.kind.isAcq) &&
    !(someT s.scopeOps fun k o => k < id && o.weave == p.weave && o.kind.isSpawn) &&
    s.lsOps.all fun (k, q) =>
      k ≥ id || q.weave != p.weave ||
        q.accs.zipIdx.all fun (b, i) => b.got.isSome || !s.blocks q b (s.sentAcc k i) p a

/-- Is `q` an earlier local STF of the same core, all of whose data must be visible before an increment (R44). -/
def LsOp.sameCoreStf (q p : LsOp) : Bool :=
  q.kind == .stf && q.ident.phys == p.ident.phys && q.ident.die == p.ident.die && q.ident.cg == p.ident.cg
    && q.ident.core == p.ident.core

/-- The order within one operation, and of an STF's increments (R377, R382, R44). -/
def State.inner (s : State) (id : Nat) (p : LsOp) (a : Acc) (i : Nat) : Bool :=
  if a.inc then
    (p.accs.all fun b => b.inc || b.lane != a.lane || b.got.isSome)
      && s.lsOps.all fun (k, q) => k ≥ id || !q.sameCoreStf p || q.accs.all fun b => b.inc || b.loc.isRemote || b.got.isSome
  else if p.kind == .atom || p.kind == .red then
    p.accs.zipIdx.all fun (b, j) => j ≥ i || b.got.isSome || !b.overlaps a
  else true

/-- Can memory serve a location now (R14, R20). -/
def State.locReady (s : State) : Loc → Bool
  | .mem pa => s.memSt pa != .held
  | .spad _ _ | .acc _ _ => true
  | _ => false

/-- May a local access be performed now. -/
def State.eligible (s : State) (id : Nat) (p : LsOp) (a : Acc) (i : Nat) : Bool :=
  a.got.isNone && s.locReady a.loc && s.inner id p a i && s.ordered id p a

/-- The value of the youngest earlier store of the same thread that a load takes over. -/
def State.forwarded (s : State) (id : Nat) (p : LsOp) (a : Acc) : Option (BitVec 128) :=
  let c := s.lsOps.flatMap fun (k, q) =>
    if k < id && q.weave == p.weave then
      q.accs.filterMap fun b =>
        if b.got.isNone && b.overlaps a && q.forwards b p a then
          match b.op with
          | .write d _ => some (BitVec.ofNat 128 (d.toNat / 256 ^ ((a.loc.span a.size).2.1 - (b.loc.span b.size).2.1)
              % 256 ^ a.size))
          | _ => none
        else none
    else []
  c.getLast?

/-- May a line of its core serve a load: at team scope without acquire, for global memory (R133). -/
def LsOp.viaLine (p : LsOp) (a : Acc) : Bool :=
  a.op == .read && a.size ≤ 8 && (!a.loc.isMem || (p.scope == .team && p.sem != .acq))

/-- A value with the bytes that have been read before put in (R153). -/
def Acc.withTorn (a : Acc) (v : BitVec 128) : BitVec 128 :=
  if a.torn.isEmpty then v
  else BitVec.ofNat 128 (bytesToNat ((natToBytes a.size v.toNat).zipIdx.map fun (b, i) => (Tbl.find a.torn i).getD b))

/-- What a load reads: a line of its core where one may serve it, else the home's value (R133). -/
def State.loadVal (s : State) (p : LsOp) (a : Acc) : BitVec 128 × Bool :=
  if p.viaLine a then
    (a.withTorn (BitVec.ofNat 128 (bytesToNat (s.readVia p.ident.coreNum .ls a.loc a.size))), false)
  else
    let v := s.peek a.loc a.size
    (a.withTorn v.1, v.2)

/-- A read beyond the lines of a core brings what it reads into the core's line, so that no later load of the core returns an
older value (R153). -/
def State.refreshL1 (s : State) (core : Nat) (l : Loc) (n : Nat) : State := s.patch l n fun x => x.inL1 core

/-- The effect of an access at its home, and its value. An atomic on an uncorrectable granule changes nothing (R260). -/
def State.performOp (s : State) (id : Nat) (p : LsOp) (a : Acc) (rel : Option Rel) (bad : Bool) :
    State × (BitVec 128 × Bool) :=
  let core := p.ident.coreNum
  match a.op with
  | .read =>
    match s.forwarded id p a with
    | some d => (s, (d, false))
    | none => (if p.viaLine a then s else s.refreshL1 core a.loc a.size, s.loadVal p a)
  | op =>
    if bad && reqReads op then (s, (0, false))
    else
      let r := s.doAcc a.loc a.size op rel fun i => p.masked a i || (Tbl.find a.torn i).isSome
      (if s.writes a.loc a.size op then r.1.afterLsWrite core a.loc a.size else r.1.refreshL1 core a.loc a.size, r.2)

/-- Performs access `i` of an operation. -/
def State.performAcc (s : State) (id : Nat) (p : LsOp) (a : Acc) (i : Nat) : State :=
  let core := p.ident.coreNum
  let rel : Option Rel :=
    if a.inc then some (Rel.by_ .mod (s.deviceIdent p.part))
    else if p.sem == .rel || p.sem == .acqrel then some (Rel.by_ p.scope p.ident) else none
  let acq : Bool := p.sem == .acq || p.sem == .acqrel
  let mm : Bool := acq && s.mismatched a.loc a.size p.scope p.ident && (s.forwarded id p a).isNone
  let bad : Bool := match a.loc with
    | .mem pa => s.eccBad pa
    | _ => false
  let r : State × (BitVec 128 × Bool) := s.performOp id p a rel bad
  let s := r.1
  let v := r.2
  let s := if mm then s.sticky p.weave wsMismatch else if acq then s.acquireAt core else s
  s.updLs id fun o =>
    { o with accs := (o.accs.set i { a with got := some v }).map fun b =>
               if b.got.isNone && a.shares b then { b with got := some v } else b
             ecc := o.ecc || (bad && reqReads a.op) }

/-- Performs access `i` if it may be performed. Open points: DESIGN CHOICE, log 55. -/
def State.tryAcc (s : State) (id i : Nat) : State :=
  match Tbl.find s.lsOps id with
  | some p =>
    match p.accs[i]? with
    | some a => if s.eligible id p a i then s.performAcc id p a i else s
    | none => s
  | none => s

/-- Is an access one that is single-copy atomic per byte only: it is not naturally aligned (R153). -/
def Acc.splits (a : Acc) : Bool :=
  match a.op, a.loc with
  | .atom .., _ => false
  | _, .mem pa => pa % a.size != 0
  | _, .spad _ off => off % a.size != 0
  | _, _ => false

/-- Performs byte `j` of an unaligned access before the others (R153). -/
def State.tearAcc (s : State) (id i j : Nat) : State :=
  match (Tbl.find s.lsOps id).bind fun p => (p.accs[i]?).map fun a => (p, a) with
  | none => s
  | some (p, a) =>
    if !(a.splits && s.eligible id p a i && decide (j < a.size)) || (Tbl.find a.torn j).isSome || (s.forwarded id p a).isSome then s
    else
      let b : Acc := { a with loc := a.loc.at j, size := 1 }
      let byte : BitVec 8 := match a.op with
        | .write d _ => (natToBytes a.size d.toNat).getD j 0
        | _ => (s.loadVal p { b with torn := [] }).1.setWidth 8
      let s' := match a.op with
        | .read => if p.viaLine a then s else s.refreshL1 p.ident.coreNum b.loc 1
        | _ => if p.masked a j then s else (s.locWrite b.loc [byte]).afterLsWrite p.ident.coreNum b.loc 1
      s'.updLs id fun o => { o with accs := o.accs.set i { a with torn := Tbl.put a.torn j byte } }

/-- Performs what of an operation may be performed, in the order of its accesses. -/
def State.tryOp (s : State) (id : Nat) : State :=
  match Tbl.find s.lsOps id with
  | some p => (List.range p.accs.length).foldl (fun s i => s.tryAcc id i) s
  | none => s

/-! ### Completion (R376, R378, R40) -/

/-- The capability that a `.cap` load returns (R125). -/
def capLoaded (v : BitVec 128) (tag : Bool) : Cap :=
  let c : Cap := { bits := v, tag := tag }
  { c with tag := tag && c.wellFormed }

/-- Writes the destinations of a load. Threads that have ended have none; an s or k register is the weave's (`Weave.takes`). -/
def Weave.writeDest (w : Weave) (p : LsOp) : Weave :=
  let alive := w.takes p.lanes
  let first := (p.accs.head?.bind (·.got)).getD (0, false)
  match p.dest with
  | .none => w
  | .s r => if alive then w.setS r (first.1.extractLsb' 0 64) else w
  | .k r => if alive then w.setK r (capLoaded first.1 first.2) else w
  | .v r wide => p.accs.foldl (fun w a =>
      match a.got with
      | some (x, _) =>
        if !w.live.has a.lane then w
        else if wide then w.setV64 r a.lane (x.extractLsb' 0 64) else w.setV r a.lane (x.extractLsb' 0 32)
      | none => w) w

/-- A subtree access that ends with an error sets bit 2 of the record's STATUS of the cancellation that marked its
scope (R91, R95), whatever it was: a store, a load, a copy, a KV operation or a matrix request. Open points: DESIGN CHOICE, log 11. -/
def State.noteStatus (s : State) (part : Nat) (h : W32) (bit : BitVec 3) : State :=
  if s.cancelling part h then
    match (s.scopeEnt part (handleId h)).byOp with
    | some c => { s with cancels := Tbl.upd s.cancels c fun x => { x with status := x.status ||| bit } }
    | none => s
  else s

/-- The errors an operation leaves for a later wait or FENCE. -/
def LsOp.errors (p : LsOp) : List Deferred :=
  (match p.err with
   | some peer => [Deferred.remote (p.kind != .ld && p.kind != .atom) p.flag peer p.cls]
   | none => [])
  ++ (if p.ecc then [Deferred.page p.flag .ls (if p.kind == .ld then 0 else 2) true] else [])

/-- Has every access of an operation performed and every packet of it been answered. -/
def State.opDone (s : State) (id : Nat) (p : LsOp) : Bool :=
  p.hole.isNone && (p.accs.all (·.got.isSome)) && !(someT s.ott fun _ o => o.op == id)

/-- The operation completes: destinations, marks, flag, errors. -/
def State.finishLs (s : State) (id : Nat) (p : LsOp) : State :=
  let s := if p.errors.isEmpty then s else s.noteStatus p.part p.scopeH 4
  let s := s.updWeave p.weave fun w =>
    let w := if p.errors.isEmpty then w.writeDest p else w
    let w := (w.unmark id).countDown p.flag
    { w with errs := w.errs ++ p.errors }
  { s with lsOps := Tbl.del s.lsOps id }

/-- A VCOMPST whose group is gone keeps only what has been translated (R387, R388). -/
def State.closeHole (s : State) (id : Nat) (p : LsOp) : State :=
  match p.hole with
  | none => s
  | some gid =>
    let there := match s.weave p.weave with
      | some w => (w.group gid).isSome
      | none => false
    if there then s
    else s.updLs id fun o => { o with hole := none, accs := o.accs.filter fun a => match a.loc with
      | .virt _ => false
      | _ => true }

/-- Completes an operation if it is done. -/
def State.finishIfDone (s : State) (id : Nat) : State :=
  match Tbl.find s.lsOps id with
  | some p => if s.opDone id p then s.finishLs id p else s
  | none => s

/-- ACCESS_COMPLETE (R378): what may be performed of the operation is, and it completes if nothing is left.
Open points: DESIGN CHOICE, log 55. -/
def execAccessComplete (op : Nat) (s : State) : Host.Outcome State Fault Refusal :=
  .next (match Tbl.find s.lsOps op with
    | some p => ((s.closeHole op p).tryOp op).finishIfDone op
    | none => s)

end Sys2Proof.Machine
end

