-- ==== Sys2Proof/Machine/Memory.lean ====
section
/-! DEFINITION. The memory, atomic and capability instructions (chapter 21, R42–R44, R158–R160, R372–R393): their
checks in the order of R374, and what they send. -/

namespace Sys2Proof.Machine

open Sys2Proof

/-! ### Addresses and checks (R373–R375, R126, R129, R32) -/

/-- What one use of a capability requires (R126 Table 2): spaces, permissions, the kind of access as R138 numbers it, and
whether natural alignment is required. -/
structure Use where
  spaces : List Nat
  perm   : BitVec 8
  kind   : Nat
  nat    : Bool
  deriving DecidableEq, Repr

/-- One element an instruction asks for: its lane and its unwrapped address. -/
structure Elem where
  lane : Nat
  addr : Int
  deriving DecidableEq, Repr

def Size.bytes : Size → Nat
  | .b8 => 1 | .b16 => 2 | .b32 => 4 | .b64 => 8 | .cap => 16

/-- The elements of an LS instruction (R373, R376): one for each active lane, or one for the weave. -/
def Ctx.elems (x : Ctx) (m : MemF) (a b : Nat) (imm : W32) : List Elem :=
  let base : Int := (x.w.getK a).base
  let at_ (l : Nat) : Int := base + (if m.s then (x.w.getS b).toNat else (x.w.getV b l).toNat) + sImm imm
  if m.s then (x.lanes.head?.map fun l => { lane := l, addr := at_ l }).toList
  else x.lanes.map fun l => { lane := l, addr := at_ l }

/-- Consecutive elements for the active lanes, from the lowest lane's offset (R386, R389). -/
def Ctx.packed (x : Ctx) (a b : Nat) (imm : W32) (size : Nat) : List Elem :=
  match x.lanes with
  | [] => []
  | l0 :: _ =>
    let base : Int := (x.w.getK a).base + (x.w.getV b l0).toNat + sImm imm
    x.lanes.zipIdx.map fun (l, j) => { lane := l, addr := base + (j * size : Nat) }

/-- The first element that a check refuses, with its lane (R374, R254). -/
def firstBad (es : List Elem) (f : Elem → Option Trap) : Option Trap :=
  es.findSome? fun e => (f e).map fun t => t.atLane e.lane

/-- Does a relative capability stand in its range, and do the bytes lie in the resources of the team or cohort (R129). -/
def relativeOk (e : Env) (c : Cap) (addr size : Nat) : Bool :=
  let r := e.f.lr
  let spad := r.spadKib * 1024
  c.base < 2 ^ 23 &&
    (match c.space with
     | 1 => addr + size ≤ spad
     | 2 => addr / cohortStride < r.width && addr % cohortStride + size ≤ spad
     | 4 => (addr + size - 1) / 16384 < r.accBlk
     | _ => true)

/-- Steps 1 to 4 of R126 for one range of bytes, R129 apart. -/
def Ctx.capCheck (x : Ctx) (u : Use) (k : Nat) (detail : Nat) (size : Nat) (addr : Int) (len : Nat) : Option Trap :=
  let c := x.w.getK k
  if !c.tag then some (.plain .capTag detail)
  else if !u.spaces.contains c.space || !spaceTakes c.space size then some (.plain .capPerm detail)
  else if c.perm &&& u.perm != u.perm then some (.plain .capPerm detail)
  else if !c.covers addr len then some (.plain .capBounds detail)
  else none

/-- The part of step 4 that R129 adds for the relative spaces. -/
def Ctx.relCheck (x : Ctx) (k size : Nat) (addr : Int) : Option Trap :=
  if (x.w.getK k).space != 0 && !relativeOk x.e (x.w.getK k) addr.toNat size then some (.plain .capBounds k) else none

/-- Is an address of a capability's space a remote one (R29). -/
def Ctx.remote (x : Ctx) (c : Cap) (addr : Int) : Bool :=
  c.space == 0 && addr.toNat / 2 ^ 55 != x.s.ownPeer x.e.part

/-- R375. -/
def Ctx.alignCheck (x : Ctx) (u : Use) (k : Nat) (size : Nat) (addr : Int) : Option Trap :=
  let c := x.w.getK k
  let a := addr.toNat
  let ok := if u.nat || c.space == 4 || x.remote c addr then a % size == 0 else a / 64 == (a + size - 1) / 64
  if ok then none else some (.plain .misaligned k)

/-- The answer to a failed peer check: PEER_ABSENT is logged for the host (R32). Open points: DEDUCED, log 34. -/
def Ctx.peerTrap (x : Ctx) (peer lane : Nat) (p : PeerErr) : Res :=
  match p with
  | .absent => .trapIn (x.s.emit (.peerAbsent x.e.part (BitVec.ofNat 9 peer) x.e.t.core))
      ((Trap.plain .peerAbsent peer).atLane lane)
  | .down => .trap ((Trap.plain .peerDown peer).atLane lane)

/-- The first element of space 0 whose peer fails. -/
def Ctx.badPeer (x : Ctx) (c : Cap) (es : List Elem) : Option (Nat × Nat × PeerErr) :=
  if c.space != 0 then none
  else es.findSome? fun e =>
    let peer := e.addr.toNat / 2 ^ 55
    (x.s.peerCheck x.e peer).map fun p => (peer, e.lane, p)

/-- A fault of a translation at issue (R139), or memory that holds the read of a table (R14). -/
inductive XFault where
  | held
  | resolvable (lva lane : Nat)
  | page (lane : Nat) (ecc : Bool)
  deriving DecidableEq, Repr

/-- Translates a local address for an agent on a die; an uncorrectable granule is an unresolvable fault of a read or atomic
(R260), a failed stack of every access (R14). -/
def State.xlateLs (s : State) (die part lva kind lane : Nat) : Except XFault Nat :=
  match s.xlate die part lva kind with
  | .error .held => .error .held
  | .error .resolvable => .error (.resolvable lva lane)
  | .error (.unresolvable ecc) => .error (.page lane ecc)
  | .ok pa => if (kind != 1 && s.eccBad pa) || s.memSt pa == .failed then .error (.page lane true) else .ok pa

/-- PAGE_FAULT at an LS instruction (R254). -/
def pageTrap (kind : Nat) (ecc : Bool) (lane : Nat) : Trap :=
  (Trap.plain .pageFault (kind * 4 + (if ecc then 16 else 0))).atLane lane

/-- Where an element lies; a local address of space 0 is left untranslated. -/
def Ctx.place (x : Ctx) (c : Cap) (addr : Int) : Loc :=
  let a := addr.toNat
  match c.space with
  | 1 => .spad x.e.tid a
  | 2 => .spad ((x.s.teamOf x.e.cid (a / cohortStride)).getD 0) (a % cohortStride)
  | 4 => .acc x.e.tid (a / 4)
  | _ =>
    if x.remote c addr then .remote (BitVec.ofNat 9 (a / 2 ^ 55)) (BitVec.ofNat 55 a) else .virt (BitVec.ofNat 55 a)

/-- Translates the accesses in order, and fills the die's TLB (R137). -/
def State.xlateAccs (s : State) (die part kind : Nat) : List Acc → Except XFault (State × List Acc)
  | [] => .ok (s, [])
  | a :: r =>
    match a.loc with
    | .virt lva =>
      match s.xlateLs die part lva.toNat kind a.lane with
      | .error f => .error f
      | .ok pa =>
        match State.xlateAccs (s.fillTlb die part lva.toNat) die part kind r with
        | .error f => .error f
        | .ok (s', r') => .ok (s', { a with loc := .mem pa } :: r')
    | _ =>
      match State.xlateAccs s die part kind r with
      | .error f => .error f
      | .ok (s', r') => .ok (s', a :: r')

/-- The die of the issuing weave. -/
def Ctx.die (x : Ctx) : Nat := coreDie x.e.t.core

/-- The instruction at issue as the group has fetched it (R301). -/
def Ctx.latch (x : Ctx) : Option (W64 × List (BitVec 8)) := some (x.c.addr, x.c.code)

/-- The group sleeps on the fault, or takes PAGE_FAULT. -/
def Ctx.onFault (x : Ctx) (kind : Nat) : XFault → Res
  | .held => .stall
  | .resolvable lva lane => .stay (x.s.sleepOnFault x.e x.g.gid lva kind (some lane) x.latch)
  | .page lane ecc => .trap (pageTrap kind ecc lane)

/-! ### What an instruction waits for before it issues (R37, R38, R106) -/

/-- The packets of remote accesses: peer, granule and the accesses' places (R36). -/
def packetsOf (accs : List Acc) : List (BitVec 9 × Nat × List Nat) :=
  accs.zipIdx.foldl (fun ps (a, i) =>
    match a.loc with
    | .remote p lva =>
      let g := lva.toNat / 64
      if ps.any fun q => q.1 == p && q.2.1 == g then
        ps.map fun q => if q.1 == p && q.2.1 == g then (q.1, q.2.1, q.2.2 ++ [i]) else q
      else ps ++ [(p, g, [i])]
    | _ => ps) []

/-- Entries of a core's table that are held, and those held by its progress team (R37). -/
def State.ottHeld (s : State) (core : Nat) : Nat := countT s.ott fun _ o => o.core == core

/-- Is there room for `n` more entries (R37): other teams leave eight for the progress team. -/
def State.ottRoom (s : State) (e : Env) (n : Nat) : Bool :=
  let prog := s.progressTeam e.t.core == some e.tid
  let others := countT s.ott fun _ o => o.core == e.t.core && (match s.weave o.weave with
    | some w => s.progressTeam e.t.core != some w.team
    | none => true)
  n = 0 || (s.ottHeld e.t.core + n ≤ Config.ottEntries &&
    (prog || others + n ≤ Config.ottEntries - Config.ottReserved))

/-- Does an unacknowledged access of the weave to one of the granules hold a new access back (R38). -/
def State.granuleBusy (s : State) (weave : Nat) (cls : RClass) (peer : BitVec 9) (gs : List Nat) : Bool :=
  someT s.ott fun _ o =>
    o.weave == weave && o.peer == peer && (o.granules.any gs.contains) && (o.writes || !(o.cls == .om && cls == .om))

/-- Granules that a packet of an operation names at its peer: its own, and an STF's flag. -/
def packetGranules (stf : Option W64) (g : Nat) : List Nat :=
  match stf with
  | some fa => [g, lvaOf fa / 64]
  | none => [g]

/-- Sends an operation on its way: entries of the table, the flag's count, the marks.
Open points: DESIGN CHOICE, log 55. -/
def Ctx.launch (x : Ctx) (s : State) (p : LsOp) (regs : List (RegCls × Nat)) : State :=
  let (id, s) := s.fresh
  let s := (packetsOf p.accs).foldl (fun s (peer, g, is) =>
    let (oid, s) := s.fresh
    let o : Ott := { core := x.e.t.core, weave := x.e.wid, op := id, peer := peer, granules := packetGranules p.stf g
                     cls := p.cls, writes := p.kind != .ld, accs := is, sent := false, heard := s.clock }
    { s with ott := Tbl.put s.ott oid o }) s
  let s := s.updWeave x.e.wid fun w => (w.countUp p.flag).mark id x.g.lanes regs
  { s with lsOps := Tbl.put s.lsOps id p }

/-- Must the instruction wait before it issues. -/
def Ctx.mustStall (x : Ctx) (p : LsOp) : Bool :=
  let ps := packetsOf p.accs
  !(x.w.canCount p.flag) || !(x.s.ottRoom x.e ps.length)
    || ps.any fun (peer, g, _) => x.s.granuleBusy x.e.wid p.cls peer (packetGranules p.stf g)

/-- Sends the accesses of a checked instruction, or stalls (R104); without accesses it completes at once. -/
def Ctx.send (x : Ctx) (s : State) (p : LsOp) (regs : List (RegCls × Nat)) : Res :=
  if p.accs.isEmpty && p.hole.isNone then .done x.s
  else if x.mustStall p then .stall
  else .done (x.launch s p regs)

/-- An operation of the issuing weave, still without accesses. -/
def Ctx.lsOp (x : Ctx) (m : MemF) (kind : LsKind) (dest : Dest) : LsOp where
  weave := x.e.wid
  part := x.e.part
  ident := x.s.ident x.e
  scopeH := x.e.f.scope
  lanes := x.act
  sc := m.s
  kind := kind
  sem := m.sem
  cls := m.cls
  scope := m.scope
  accs := []
  flag := x.g.run.slot x.h.fs
  dest := dest
  stf := none
  hole := none
  err := none
  ecc := false

/-- The destination of a load or atomic (R376). -/
def destOf (m : MemF) (d : Nat) : Dest := if m.size = .cap then .k d else if m.s then .s d else .v d (m.size = .b64)

/-- Registers a destination covers (R109). -/
def Dest.regs : Dest → List (RegCls × Nat)
  | .none => []
  | .s r => [(.s, r)]
  | .k r => [(.k, r)]
  | .v r wide => if r = 255 then [] else if wide then [(.v, r), (.v, r + 1)] else [(.v, r)]

/-- Checks 1 and 2 of R374. -/
def Ctx.lsChecks (x : Ctx) (u : Use) (a size : Nat) (es : List Elem) : Option Trap :=
  match firstBad es fun e => (x.capCheck u a a size e.addr size).or (x.relCheck a size e.addr) with
  | some t => some t
  | none => firstBad es fun e => x.alignCheck u a size e.addr

/-- Checks 4 and 5 of R374, then the accesses go. -/
def Ctx.route (x : Ctx) (u : Use) (a : Nat) (es : List Elem) (p : LsOp) (accs : List Acc) : Res :=
  match x.badPeer (x.w.getK a) es with
  | some (peer, lane, why) => x.peerTrap peer lane why
  | none =>
    match x.s.xlateAccs x.die x.e.part u.kind accs with
    | .error f => x.onFault u.kind f
    | .ok (s, accs) => x.send s { p with accs := accs } p.dest.regs

/-- An LS instruction whose lanes have addresses of their own. Open points: DESIGN CHOICE, log 55. -/
def Ctx.lsIssue (x : Ctx) (u : Use) (m : MemF) (kind : LsKind) (dest : Dest) (a b : Nat) (imm : W32)
    (op : Nat → ReqOp) : Res :=
  let size := Size.bytes m.size
  let es := x.elems m a b imm
  match x.lsChecks u a size es with
  | some t => .trap t
  | none => x.route u a es (x.lsOp m kind dest) (es.map fun e =>
      { lane := e.lane, loc := x.place (x.w.getK a) e.addr, size := size, op := op e.lane, inc := false, got := none, torn := [] })

/-- Semantics that require natural alignment (R375). -/
def needsAlign (sem : Sem) : Bool := sem == .acq || sem == .rel || sem == .acqrel

/-- Data of a store (R376, R380). -/
def Ctx.data (x : Ctx) (m : MemF) (c lane : Nat) : ReqOp :=
  if m.size = .cap then .write (x.w.getK c).bits (x.w.getK c).tag
  else .write ((if m.s then x.w.getS c else if m.size = .b64 then x.w.getV64 c lane
      else (x.w.getV c lane).setWidth 64).setWidth 128) false

/-- Data of an atomic (R383). -/
def Ctx.atomData (x : Ctx) (m : MemF) (op : AtomOp) (c lane : Nat) : ReqOp :=
  let one : W64 := if m.s then x.w.getS c else if m.size = .b64 then x.w.getV64 c lane else (x.w.getV c lane).setWidth 64
  let two : W64 := if m.s then x.w.getS (c + 1)
    else if m.size = .b64 then x.w.getV64 (c + 2) lane else (x.w.getV (c + 1) lane).setWidth 64
  .atom op one (if op = .cas then two else 0)

/-! ### LD, ST, ATOM, RED (R379–R384) -/

/-- LD (R379, R380). -/
def execLd (h : Hd) (m : MemF) (d a b : Nat) (imm : W32) (s : State) : Host.Outcome State Fault Refusal :=
  issue (.ld h m d a b imm) s fun x =>
    x.lsIssue { spaces := [0, 1, 2, 4], perm := permR, kind := 0, nat := needsAlign m.sem || m.size == .cap } m .ld
      (destOf m d) a b imm fun _ => .read

/-- ST (R379, R380). -/
def execSt (h : Hd) (m : MemF) (a b c : Nat) (imm : W32) (s : State) : Host.Outcome State Fault Refusal :=
  issue (.st h m a b c imm) s fun x =>
    let cap : Bool := m.size == .cap
    x.lsIssue { spaces := if cap then [0, 1, 2] else [0, 1, 2, 4], perm := if cap then permW ||| permC else permW,
                kind := 1, nat := needsAlign m.sem || cap } m .st .none a b imm fun l => x.data m c l

/-- ATOM (R381–R383). -/
def execAtom (h : Hd) (m : MemF) (op : AtomOp) (d a b c : Nat) (imm : W32) (s : State) :
    Host.Outcome State Fault Refusal :=
  issue (.atom h m op d a b c imm) s fun x =>
    x.lsIssue { spaces := [0, 1, 2], perm := permA, kind := 2, nat := true } m .atom (destOf m d) a b imm fun l =>
      x.atomData m op c l

/-- RED (R384). -/
def execRed (h : Hd) (m : MemF) (op : AtomOp) (a b c : Nat) (imm : W32) (s : State) : Host.Outcome State Fault Refusal :=
  issue (.red h m op a b c imm) s fun x =>
    x.lsIssue { spaces := [0, 1, 2], perm := permA, kind := 2, nat := true } m .red .none a b imm fun l =>
      x.atomData m op c l

/-! ### STF (R42–R44, R385) -/

/-- The flag checks of R44; they name no lane. -/
def Ctx.flagCheck (x : Ctx) (fk : Nat) (fa : Int) : Option Trap :=
  match x.capCheck { spaces := [0], perm := permF, kind := 2, nat := true } fk (fk + 16) 8 fa 8 with
  | some t => some t
  | none => if fa.toNat % 8 != 0 then some (.plain .misaligned (fk + 16)) else none

/-- The flag increment of one lane, as an access of the own module. -/
def incAcc (lane : Nat) (fa : W64) : Acc :=
  { lane := lane, loc := .virt (BitVec.ofNat 55 (lvaOf fa)), size := 8, op := .atom .add 1 0, inc := true, got := none
    torn := [] }

/-- STF (R42–R44, R385; DEDUCED, log 34). -/
def execStf (h : Hd) (m : MemF) (a b c : Nat) (imm : W32) (fk : Nat) (foff : BitVec 24) (s : State) :
    Host.Outcome State Fault Refusal :=
  issue (.stf h m a b c imm fk foff) s fun x =>
    let u : Use := { spaces := [0], perm := permW, kind := 1, nat := true }
    let size := Size.bytes m.size
    let es := x.elems m a b imm
    let fa : Int := (x.w.getK fk).base + foff.toNat
    match x.lsChecks u a size es with
    | some t => .trap t
    | none =>
      match x.flagCheck fk fa with
      | some t => .trap t
      | none =>
        let fpeer := fa.toNat / 2 ^ 55
        match firstBad es fun e => if e.addr.toNat / 2 ^ 55 != fpeer then some (.plain .capBounds a) else none with
        | some t => .trap t
        | none =>
          match x.s.peerCheck x.e fpeer with
          | some why => x.peerTrap fpeer (x.lanes.headD (x.g.lanes.toList.headD 0)) why
          | none =>
            let fw := w64 fa.toNat
            let data := es.map fun e =>
              ({ lane := e.lane, loc := x.place (x.w.getK a) e.addr, size := size, op := x.data m c e.lane, inc := false,
                 got := none, torn := [] } : Acc)
            let incs := if fpeer == x.s.ownPeer x.e.part then es.map fun e => incAcc e.lane fw else []
            match x.s.xlateAccs x.die x.e.part 1 data with
            | .error f => x.onFault 1 f
            | .ok (s, data) =>
              match s.xlateAccs x.die x.e.part 2 incs with
              | .error f => x.onFault 2 f
              | .ok (s, incs) => x.send s { x.lsOp m .stf .none with accs := data ++ incs, stf := some fw } []

/-! ### VEXPLD and VCOMPST (R386–R389, R437–R439) -/

/-- The range check and the alignment of packed elements. -/
def Ctx.packedChecks (x : Ctx) (u : Use) (a size : Nat) (es : List Elem) : Option Trap :=
  match es with
  | [] => none
  | e0 :: _ =>
    match x.capCheck u a a size e0.addr (es.length * size) with
    | some t => some (t.atLane e0.lane)
    | none =>
      match firstBad es fun e => x.relCheck a size e.addr with
      | some t => some t
      | none => if e0.addr.toNat % size != 0 then some ((Trap.plain .misaligned a).atLane e0.lane) else none

/-- VEXPLD (R389). -/
def execVexpld (h : Hd) (m : MemF) (d a b : Nat) (imm : W32) (s : State) : Host.Outcome State Fault Refusal :=
  issue (.vexpld h m d a b imm) s fun x =>
    let u : Use := { spaces := [0, 1, 2, 4], perm := permR, kind := 0, nat := true }
    let size := Size.bytes m.size
    let es := x.packed a b imm size
    match x.packedChecks u a size es with
    | some t => .trap t
    | none => x.route u a es (x.lsOp m .ld (destOf m d)) (es.map fun e =>
        { lane := e.lane, loc := x.place (x.w.getK a) e.addr, size := size, op := .read, inc := false, got := none, torn := [] })

/-- Translates the elements of a VCOMPST from index `j` on, up to the first that faults: what is translated, the rest, and
the fault. -/
def State.xlatePrefix (s : State) (die part : Nat) : List Acc → State × List Acc × List Acc × Option XFault
  | [] => (s, [], [], none)
  | a :: r =>
    match a.loc with
    | .virt lva =>
      match s.xlateLs die part lva.toNat 1 a.lane with
      | .error f => (s, [], a :: r, some f)
      | .ok pa =>
        let (s', done, rest, f) := State.xlatePrefix (s.fillTlb die part lva.toNat) die part r
        (s', { a with loc := .mem pa } :: done, rest, f)
    | _ =>
      let (s', done, rest, f) := State.xlatePrefix s die part r
      (s', a :: done, rest, f)

/-- Goes on with operation `id`, whose accesses from index `start` of the instruction stand in `p.accs`: translation in
increasing order, then the end, a sleep with PROGRESS at the faulting element, or the trap there (R387, R437). -/
def Ctx.compGo (x : Ctx) (s : State) (id start : Nat) (p : LsOp) : Res :=
  let (s, done, rest, f) := s.xlatePrefix x.die x.e.part p.accs
  let j := start + done.length
  match f with
  | none =>
    .done ({ s with lsOps := Tbl.put s.lsOps id { p with accs := done, hole := none } }.onGroup x.c fun g =>
      { g with progress := 0 })
  | some .held =>
    .stay ({ s with lsOps := Tbl.put s.lsOps id { p with accs := done ++ rest, hole := some x.g.gid } }.onGroup x.c fun g =>
      { g with progress := j, sleep := .stall, port := false, latch := x.latch })
  | some (.resolvable lva lane) =>
    let s := { s with lsOps := Tbl.put s.lsOps id { p with accs := done ++ rest, hole := some x.g.gid } }
    let s := s.onGroup x.c fun g => { g with progress := j }
    .stay (s.sleepOnFault x.e x.g.gid lva 1 (some lane) x.latch)
  | some (.page lane ecc) =>
    let s := { s with lsOps := Tbl.put s.lsOps id { p with accs := done, hole := none } }
    .trapIn (s.onGroup x.c fun g => { g with progress := j }) (pageTrap 1 ecc lane)

/-- VCOMPST (R386, R387). -/
def execVcompst (h : Hd) (m : MemF) (a b c : Nat) (imm : W32) (s : State) : Host.Outcome State Fault Refusal :=
  issue (.vcompst h m a b c imm) s fun x =>
    match x.s.openOf x.e.wid x.g.gid with
    | some (id, p) =>
      let n := (p.accs.filter fun q => match q.loc with
        | .virt _ => false
        | _ => true).length
      x.compGo x.s id (x.g.progress - n) p
    | none =>
      let u : Use := { spaces := [0, 1, 2, 4], perm := permW, kind := 1, nat := true }
      let size := Size.bytes m.size
      let es := x.packed a b imm size
      match x.packedChecks u a size es with
      | some t => .trap t
      | none =>
        match x.badPeer (x.w.getK a) es with
        | some (peer, lane, why) => x.peerTrap peer lane why
        | none =>
          let from_ := x.g.progress
          let accs := (es.drop from_).map fun e =>
            ({ lane := e.lane, loc := x.place (x.w.getK a) e.addr, size := size, op := x.data m c e.lane, inc := false,
               got := none, torn := [] } : Acc)
          let p := { x.lsOp m .st .none with accs := accs }
          if accs.isEmpty then .done (x.s.onGroup x.c fun g => { g with progress := 0 })
          else if x.mustStall p then .stall
          else
            match (x.s.xlatePrefix x.die x.e.part accs).2 with
            | ([], _, some (.page lane ecc)) => .trap (pageTrap 1 ecc lane)
            | ([], _, some .held) => .stall
            | _ => x.compGo (x.launch x.s p []) x.s.nextId from_ p

/-! ### FENCE and PFENCE (R158–R160) -/

/-- Is no earlier LS access of the weave of the classes still unperformed (R158). -/
def State.quiet (s : State) (wid : Nat) (classes : BitVec 3) : Bool :=
  (Tbl.vals s.lsOps).all fun q => q.weave != wid ||
    (!(q.err.isSome && classBit classes q.cls) && q.accs.all fun a => a.got.isSome || !classBit classes (q.clsOf a))

/-- The first error that a FENCE of these classes raises; the trap consumes every such error (R254). -/
def Weave.fenceErr (w : Weave) (classes : BitVec 3) : Option (Trap × Weave) :=
  match w.errs.find? (·.atFence classes) with
  | some d => some (d.trap false true, { w with errs := w.errs.filter fun e => !e.atFence classes })
  | none => none

/-- FENCE for classes (R158): a stall, a REMOTE_FAULT after which the program goes on behind it, or nothing. -/
def Ctx.fenceRes (x : Ctx) (classes : BitVec 3) (after : State → State) : Res :=
  if !x.s.quiet x.e.wid classes then .stall
  else
    match x.w.fenceErr classes with
    | some (t, w) => .trapIn (x.s.setWeave x.e.wid w) t
    | none => .done (after x.s)

/-- FENCE (R158). -/
def execFence (h : Hd) (scope : Scope) (classes : BitVec 3) (s : State) : Host.Outcome State Fault Refusal :=
  issue (.fence h scope classes) s fun x => x.fenceRes classes fun s => s

/-- PFENCE (R159, R160). One that raises REMOTE_FAULT drops no line: it goes on behind itself (R252 names the FENCE alone).
Open points: DEDUCED, log 34. -/
def execPfence (h : Hd) (scope : Scope) (wpath rpath : Path) (s : State) : Host.Outcome State Fault Refusal :=
  issue (.pfence h scope wpath rpath) s fun x =>
    let drop (s : State) : State := s.unstage fun y => y.core == x.e.t.core && y.path == rpath
    if wpath = .ls then x.fenceRes 7 drop else .done (drop x.s)

/-! ### Capabilities (R390–R392) -/

/-- Bytes of a relative space of the issuing team or cohort (R128). -/
def spaceSize (r : LaunchRec) (space : Nat) : Nat :=
  match space with
  | 1 => r.spadKib * 1024
  | 2 => 8 * cohortStride
  | _ => r.accBlk * 16384

/-- CAPNEW (R390): the new capability, or the trap. -/
def Ctx.capnewVal (x : Ctx) (mode : CapMode) (space : BitVec 4) (mask : BitVec 8) (a b c : Nat) : Except Trap Cap :=
  let k := x.w.getK a
  let sb := (x.w.getS b).toNat
  let sc := (x.w.getS c).toNat
  match mode with
  | .bnd =>
    if !k.tag then .error (.plain .capTag a)
    else if !(k.base + sb + sc ≤ k.base + k.len && k.base + sb + sc ≤ 2 ^ 64) || sc ≥ 2 ^ 40 then
      .error (.plain .capBounds a)
    else .ok (mkCap (k.base + sb) sc k.perm k.space)
  | .prm =>
    if !k.tag then .error (.plain .capTag a)
    else .ok (mkCap k.base k.len (k.perm &&& mask) k.space)
  | .ctx =>
    if !k.tag then .error (.plain .capTag a)
    else if k.space != 0 then .error (.plain .capPerm a)
    else if (k.base + sb) % 256 != 0 then .error (.plain .misaligned a)
    else if !(k.base + sb + 256 ≤ k.base + k.len && k.base + sb + 256 ≤ 2 ^ 64) then .error (.plain .capBounds a)
    else .ok (mkCap (k.base + sb) 256 (k.perm &&& 0x53) 3)
  | .own =>
    if space = 5 then
      if sb + sc ≤ 4096 then
        .ok (mkCap (x.s.ownPeer x.e.part * 2 ^ 48 + x.e.c.inst * 4096 + sb) sc mask 5)
      else .error (.plain .capBounds 0)
    else if sb + sc ≤ spaceSize x.e.f.lr space.toNat then .ok (mkCap sb sc mask space.toNat)
    else .error (.plain .capBounds 0)

/-- CAPNEW (R390). -/
def execCapnew (h : Hd) (mode : CapMode) (space : BitVec 4) (mask : BitVec 8) (d a b c : Nat) (s : State) :
    Host.Outcome State Fault Refusal :=
  issue (.capnew h mode space mask d a b c) s fun x =>
    match x.capnewVal mode space mask a b c with
    | .error t => .trap t
    | .ok k => .done (x.upd fun w => w.setK d k)

/-- One field of a capability (R391). -/
def capField (sel : CapSel) (c : Cap) : W64 :=
  match sel with
  | .base => w64 c.base
  | .len => w64 c.len
  | .perm => c.perm.setWidth 64
  | .space => w64 c.space
  | .tag => if c.tag then 1 else 0

/-- CAPGET (R391). -/
def execCapget (h : Hd) (sel : CapSel) (d a : Nat) (s : State) : Host.Outcome State Fault Refusal :=
  issue (.capget h sel d a) s fun x => .done (x.upd fun w => w.setS d (capField sel (x.w.getK a)))

/-- CAPCHK (R392). -/
def capchkVal (c : Cap) (mask : BitVec 8) (sb sc : Nat) : W64 :=
  if !c.tag then 7
  else if c.perm &&& mask != mask then 6
  else if !(c.base + sb + sc ≤ c.base + c.len && c.base + sb + sc ≤ 2 ^ 64) then 5
  else 0

/-- CAPCHK (R392). -/
def execCapchk (h : Hd) (mask : BitVec 8) (d a b c : Nat) (s : State) : Host.Outcome State Fault Refusal :=
  issue (.capchk h mask d a b c) s fun x =>
    .done (x.upd fun w => w.setS d (capchkVal (x.w.getK a) mask (x.w.getS b).toNat (x.w.getS c).toNat))

/-! ### The scratchpad tag table (R131, R393) -/

/-- No slot number. -/
def noSlot : W32 := 0xFFFFFFFF

/-- The key of a lane: 48 bits of the pair. -/
def Ctx.stagKey (x : Ctx) (a l : Nat) : Nat := (x.w.getV64 a l).toNat % 2 ^ 48

/-- STAGSET for one lane: the table and the result. -/
def stagBind (t : Tbl W32) (key : Nat) (v : W32) : Tbl W32 × W32 :=
  if v = noSlot then (t, 2)
  else if (Tbl.find t key).isSome then (Tbl.put t key v, 0)
  else if t.length ≥ 256 then (t, 1)
  else (Tbl.put t key v, 0)

/-- STAG (R393, R131). -/
def execStag (h : Hd) (d a : Nat) (s : State) : Host.Outcome State Fault Refusal :=
  issue (.stag h d a) s fun x => .done (x.putV d fun l => Tbl.get x.e.t.stag noSlot (x.stagKey a l))

/-- STAGSET (R393, R131). -/
def execStagset (h : Hd) (d a b : Nat) (s : State) : Host.Outcome State Fault Refusal :=
  issue (.stagset h d a b) s fun x =>
    let r := x.lanes.foldl (fun (t, out) l =>
      let (t', v) := stagBind t (x.stagKey a l) (x.w.getV b l)
      (t', Tbl.put out l v)) (x.e.t.stag, ([] : Tbl W32))
    .done ((x.putV d fun l => Tbl.get r.2 0 l).updTeam x.e.tid fun t => { t with stag := r.1 })

/-- STAGINV (R393, R131). -/
def execStaginv (h : Hd) (a : Nat) (s : State) : Host.Outcome State Fault Refusal :=
  issue (.staginv h a) s fun x =>
    .done (x.s.updTeam x.e.tid fun t => { t with stag := x.lanes.foldl (fun t l => Tbl.del t (x.stagKey a l)) t.stag })

end Sys2Proof.Machine
end

