-- ==== Sys2Proof/Machine/Legs.lean ====
section
/-! DEFINITION. Packets that leave for a peer: the port and the link session they take (R34, R47), and the remote requests of
the engines, of the KV path and of instruction fetch (R41, R140, R150, R184, R233). -/

namespace Sys2Proof.Machine

open Sys2Proof

/-! ### Ports and sessions (R34, R47) -/

/-- Packets that one key of a link session may protect (R47). -/
def sessionLimit : Nat := 2 ^ 40

/-- May a packet leave under a link session: it stands, and its key is not used up (R47). -/
def State.sessionOpen (s : State) (n : Nat) : Bool :=
  match Tbl.find s.hd.linkSessions n with
  | some x => x.seq < sessionLimit
  | none => false

/-- The fixed port of an OM packet: `c` is the core's number in its die (R34 Table 3); it is taken whether or not it has a path to
the module. Open points: DESIGN CHOICE, log 67. -/
def omPort (core phys : Nat) : Nat := coreDie core * 8 + (core % 64 + phys) % 8

/-- A port by the free choice among those of a die with a path to a module (R34); where there is none any more, the OM port.
Open points: DESIGN CHOICE, log 67. -/
def State.adPort (s : State) (core phys : Nat) : Nat :=
  let ps := s.portsUp (coreDie core) phys
  ps.getD (Config.freePort s.freeIdx % Nat.max 1 ps.length) (omPort core phys)

/-- Modules that may pass on an RT packet: peers of the partition with a path, but for the source and the target (R34). -/
def State.hops (s : State) (part die phys : Nat) : List Nat :=
  ((((Tbl.vals (s.part part).peers).filter entValid).map entPhys).eraseDups).filter fun m =>
    m != s.physNum && m != phys && s.dieUp die m

/-- The port of a packet and an RT packet's intermediate module; without one it takes the AD path (R34).
Open points: DESIGN CHOICE, log 67. -/
def State.way (s : State) (part core phys : Nat) (cls : RClass) : Nat × Option Nat :=
  match cls with
  | .om => (omPort core phys, none)
  | .ad => (s.adPort core phys, none)
  | .rt =>
    let hs := s.hops part (coreDie core) phys
    match hs[Config.freeHop s.physNum phys (Tbl.get s.rtSeq 0 core) % Nat.max 1 hs.length]? with
    | some m => (s.adPort core m, some m)
    | none => (s.adPort core phys, none)

/-- How a packet to a module travels under a session, and the state after it: the session's sequence number is used, an RT packet
counts on its core, and a free choice of a port is made. -/
def State.takeWireTo (s : State) (part core phys n : Nat) (cls : RClass) : Wire × State :=
  let x := (Tbl.find s.hd.linkSessions n).getD { part := part, gen := 0, dir := 0, seq := 0 }
  let w := s.way part core phys cls
  ({ port := w.1, via := w.2, session := n, gen := x.gen, dir := x.dir, seq := x.seq },
   { s with hd := { s.hd with linkSessions := Tbl.upd s.hd.linkSessions n fun y => { y with seq := y.seq + 1 } }
            rtSeq := if cls == .rt then Tbl.set s.rtSeq 0 core (Tbl.get s.rtSeq 0 core + 1) else s.rtSeq
            freeIdx := if cls == .om then s.freeIdx else s.freeIdx + 1 })

/-- How a request to a peer travels: to the module and under the session that the partition's entry names. -/
def State.takeWire (s : State) (part core : Nat) (peer : BitVec 9) (cls : RClass) : Wire × State :=
  let e := s.peerEnt part peer.toNat
  s.takeWireTo part core (entPhys e) (entSession e) cls

/-! ### Packets of LS accesses (R35, R36) -/

/-- The request packet of a table entry (R36). -/
def LsOp.packet (p : LsOp) (s : State) (o : Ott) : Packet :=
  let e := s.peerEnt p.part o.peer.toNat
  { srcPhys := s.physNum, srcPart := p.part, dstPart := entPart e, cls := p.cls
    scope := if Scope.num p.scope < 4 then .dom else p.scope
    rel := p.sem == .rel || p.sem == .acqrel, acq := p.sem == .acq || p.sem == .acqrel, ident := p.ident
    accs := o.accs.filterMap fun i => p.accs[i]?.bind fun a =>
      match a.loc with
      | .remote _ lva => some { lane := a.lane, lva := lva, size := a.size, op := a.op }
      | _ => none
    flag := p.stf.map fun fa => BitVec.ofNat 55 (lvaOf fa), path := .ls, session := entSession e }

/-- The module of a peer. -/
def State.peerPhys (s : State) (part : Nat) (peer : BitVec 9) : Nat := entPhys (s.peerEnt part peer.toNat)

/-- The partition of an operation in flight. -/
def State.opPart (s : State) (op : Nat) : Nat := ((Tbl.find s.lsOps op).map (·.part)).getD 0

/-- Is an OM packet of the core to a module still unsent, of an operation that a test takes in (R35). -/
def State.omUnsent (s : State) (core phys : Nat) (f : Nat → Ott → Bool) : Bool :=
  someT s.ott fun k q =>
    q.core == core && q.cls == .om && !q.sent && s.peerPhys (s.opPart q.op) q.peer == phys && f k q

/-- Is an earlier OM packet of the same core to the same module still unsent; no order holds between the packets of one
instruction (R35, R36). -/
def State.omBehind (s : State) (id : Nat) (o : Ott) (part : Nat) : Bool :=
  o.cls == .om && s.omUnsent o.core (s.peerPhys part o.peer) fun k q => k < id && q.op != o.op

/-- A packet is sent once the order rules let all its accesses go. -/
def State.sendOtt (s : State) (id : Nat) : State :=
  match Tbl.find s.ott id with
  | none => s
  | some o =>
    match Tbl.find s.lsOps o.op with
    | none => s
    | some p =>
      let ready := o.accs.all fun i => match p.accs[i]? with
        | some a => s.ordered o.op p a
        | none => false
      if o.sent || s.omBehind id o p.part || !ready || !s.sessionOpen (entSession (s.peerEnt p.part o.peer.toNat)) then s
      else
        let (w, s) := s.takeWire p.part o.core o.peer o.cls
        let s := { s with ott := Tbl.put s.ott id { o with sent := true, heard := s.clock } }
        s.emit (.request id (p.packet s o) w)

/-! ### Remote requests of engines -/

/-- What an engine asks of a peer; `scopeH` is the handle of the scope for which it asks. -/
structure Ask where
  owner : Owner
  scopeH : W32
  part  : Nat
  core  : Nat
  peer  : BitVec 9
  cls   : RClass
  scope : Scope
  path  : Path
  ident : Ident
  deriving DecidableEq, Repr

def Ask.packet (a : Ask) (s : State) (accs : List ReqAcc) : Packet :=
  let e := s.peerEnt a.part a.peer.toNat
  { srcPhys := s.physNum, srcPart := a.part, dstPart := entPart e, cls := a.cls
    scope := if Scope.num a.scope < 4 then .dom else a.scope, rel := false, acq := false, ident := a.ident, accs := accs
    flag := none, path := a.path, session := entSession e }

/-- Bytes that a list of values gives, in the order of the accesses. -/
def replyBytes (accs : List ReqAcc) (vs : List (BitVec 128 × Bool)) : List (BitVec 8) :=
  accs.zipIdx.flatMap fun (a, i) => natToBytes a.size ((vs.getD i (0, false)).1).toNat

/-- Is a request one for a granule at a peer: a write, or a read. -/
def Leg.isAt (l : Leg) (peer : BitVec 9) (granule : Nat) (write : Bool) : Bool :=
  l.peer == peer && l.pkt.accs.any fun a => a.lva.toNat / 64 == granule && (match a.op with
    | .write _ _ => write
    | _ => !write)

/-- The request of an owner for a granule at a peer. -/
def State.legAt (s : State) (o : Owner) (peer : BitVec 9) (granule : Nat) (write : Bool) : Option (Nat × Leg) :=
  s.legs.find? fun e => e.2.owner == o && e.2.isAt peer granule write

/-- May a request go now: no OM packet of the core to the same module is still unsent, and the session's key is not used up
(R35, R47). -/
def State.mayAsk (s : State) (a : Ask) : Bool :=
  !(a.cls == .om && s.omUnsent a.core (s.peerPhys a.part a.peer) fun _ _ => true)
    && s.sessionOpen (entSession (s.peerEnt a.part a.peer.toNat))

/-- A request goes to a peer, or at a later try. -/
def State.ask (s : State) (a : Ask) (accs : List ReqAcc) : State :=
  if !s.mayAsk a then s
  else
    let (id, s) := s.fresh
    let (w, s) := s.takeWire a.part a.core a.peer a.cls
    let l : Leg := { owner := a.owner, scopeH := a.scopeH, peer := a.peer, pkt := a.packet s accs, heard := s.clock, answer := none }
    State.emit { s with legs := Tbl.put s.legs id l } (.request id l.pkt w)

/-- What stands about a granule at a peer: nothing yet, its bytes, or an error. -/
inductive Far where
  | wait (s : State)
  | bytes (bs : List (BitVec 8))
  | error
  deriving DecidableEq, Repr

/-- A whole granule in four accesses. -/
def wholeGranule (granule : Nat) : List ReqAcc :=
  (List.range 4).map fun i => { lane := i, lva := BitVec.ofNat 55 (granule * 64 + 16 * i), size := 16, op := .read }

/-- The bytes of a granule at a peer as an engine reads them; they are asked for where they are not. -/
def State.farRead (s : State) (a : Ask) (granule : Nat) : Far :=
  match s.legAt a.owner a.peer granule false with
  | none => .wait (s.ask a (wholeGranule granule))
  | some (_, l) =>
    match l.answer with
    | none => .wait s
    | some .error => .error
    | some (.values vs _) => .bytes (replyBytes l.pkt.accs vs)

/-- A write of bytes at an address, in accesses that cross no 16-byte boundary. -/
def writeAccs (addr : Nat) (bs : List (BitVec 8)) : List ReqAcc :=
  (List.range ((addr + bs.length + 15) / 16 - addr / 16)).map fun i =>
    let lo := Nat.max addr ((addr / 16 + i) * 16)
    let hi := Nat.min (addr + bs.length) ((addr / 16 + i) * 16 + 16)
    { lane := i, lva := BitVec.ofNat 55 lo, size := hi - lo
      op := .write (BitVec.ofNat 128 (bytesToNat ((bs.drop (lo - addr)).take (hi - lo)))) false }

/-- An owner waits for its requests no longer: answers are dropped, a request on its way is nobody's until it is answered.
Open points: DESIGN CHOICE, log 67. -/
def State.dropLegs (s : State) (o : Owner) : State :=
  { s with legs := mapT (keep s.legs fun _ l => l.owner != o || l.answer.isNone) fun _ l =>
      if l.owner == o then { l with owner := .nobody } else l }

/-- Is some request of an owner unanswered. -/
def State.legsOut (s : State) (o : Owner) : Bool := someT s.legs fun _ l => l.owner == o && l.answer.isNone

/-- The first peer that has answered a request of an owner with an error. -/
def State.legError (s : State) (o : Owner) : Option (BitVec 9) :=
  s.legs.findSome? fun e => if e.2.owner == o && e.2.answer == some .error then some e.2.peer else none

/-- A core asks a peer for a block of code. Open points: DESIGN CHOICE, log 69. -/
def State.askCode (s : State) (e : Env) (peer lva : Nat) : State :=
  if s.codeAsked e.t.core peer lva then s
  else
    s.ask { owner := .code e.t.core, scopeH := e.f.scope, part := e.part, core := e.t.core, peer := BitVec.ofNat 9 peer, cls := .om, scope := .dom
            path := .ls, ident := s.ident e }
      [{ lane := 0, lva := BitVec.ofNat 55 lva, size := 16, op := .fetch },
       { lane := 1, lva := BitVec.ofNat 55 (lva + 16), size := 16, op := .fetch }]

/-- A request of an engine has its answer: code goes to the core that asked, and is asked for again after an error; what other
owners have asked for waits for them, and what nobody waits for is gone. Open points: DESIGN CHOICE, log 69. -/
def State.legAnswer (s : State) (id : Nat) (l : Leg) (r : Reply) : State :=
  match l.owner with
  | .code core =>
    let s := { s with legs := Tbl.del s.legs id }
    match r, l.pkt.accs with
    | .values vs _, a :: _ =>
      { s with icache := { core := core, loc := .remote l.peer a.lva, data := replyBytes l.pkt.accs vs } :: s.icache }
    | _, _ => s
  | .nobody => { s with legs := Tbl.del s.legs id }
  | _ => { s with legs := Tbl.put s.legs id { l with answer := some r } }

end Sys2Proof.Machine
end

