-- ==== Sys2Proof/Machine/Num.lean ====
section
/-! DEFINITION. Number formats and arithmetic (chapter 11): exact values, the one rounding of a result (R204, R205),
conversions, the exact sums of IEEE arithmetic (R355), and CB2 codebook weights (R207–R209). -/

namespace Sys2Proof


/-! ### Exact values -/

/-- A value: NaN, infinity, or (−1)^s × m × 2^e. -/
inductive Val where
  | nan (s : Bool)
  | inf (s : Bool)
  | fin (s : Bool) (m : Nat) (e : Int)
  deriving DecidableEq, Repr

/-- WSTAT bits that a conversion sets (R205). -/
structure Fl where
  sat     : Bool
  inexact : Bool
  deriving DecidableEq, Repr

def Fl.none_ : Fl := ⟨false, false⟩

def Fl.both : Fl := ⟨true, true⟩

def Fl.inex (b : Bool) : Fl := ⟨false, b⟩

def Fl.or (a b : Fl) : Fl := ⟨a.sat || b.sat, a.inexact || b.inexact⟩

/-- 2 to a power, as a factor of a numerator: 0 for a negative power. -/
def pow2 (k : Int) : Nat := 2 ^ k.toNat

/-- Number of bits of a number; 0 has none. -/
def bitLen (m : Nat) : Nat := if m = 0 then 0 else Nat.log2 m + 1

/-! ### Formats (R198–R203) -/

/-- Exponent bits, fraction bits and bias of a floating-point format (R199 Table 2). -/
def Fmt.shape : Fmt → Nat × Nat × Int
  | .fp32 => (8, 23, 127)
  | .bf16 => (8, 7, 127)
  | .fp16 => (5, 10, 15)
  | .e4m3 => (4, 3, 7)
  | .e5m2 => (5, 2, 15)
  | _ => (8, 0, 127)

/-- Width in bits (R198 Table 1). -/
def Fmt.bits : Fmt → Nat
  | .fp32 | .int32 | .uint32 => 32
  | .bf16 | .fp16 | .int16 => 16
  | .cb2 => 2
  | _ => 8

/-- The canonical NaN, sign clear (R199). -/
def canonNan : Fmt → Nat
  | .fp32 => 0x7FC00000
  | .bf16 => 0x7FC0
  | .fp16 => 0x7E00
  | .e4m3 => 0x7F
  | .e5m2 => 0x7E
  | _ => 0xFF

/-- The largest finite value's code, sign clear. -/
def maxCode : Fmt → Nat
  | .fp32 => 0x7F7FFFFF
  | .bf16 => 0x7F7F
  | .fp16 => 0x7BFF
  | .e4m3 => 0x7E
  | .e5m2 => 0x7B
  | _ => 0xFE

/-- The code of +∞; E4M3 has none. -/
def infCode : Fmt → Nat
  | .fp32 => 0x7F800000
  | .bf16 => 0x7F80
  | .fp16 => 0x7C00
  | _ => 0x7C

def signCode (fm : Fmt) (s : Bool) : Nat := if s then 2 ^ (fm.bits - 1) else 0

/-- The value of a floating-point code (R200). -/
def fpValue (fm : Fmt) (x : Nat) : Val :=
  let (eb, fb, bias) := fm.shape
  let x := x % 2 ^ fm.bits
  let s := 2 ^ (fm.bits - 1) ≤ x
  let ex := x / 2 ^ fb % 2 ^ eb
  let fr := x % 2 ^ fb
  if fm = .e4m3 then
    if ex = 15 ∧ fr = 7 then .nan s
    else if ex = 0 then .fin s fr (1 - bias - fb) else .fin s (2 ^ fb + fr) (ex - bias - fb)
  else if ex = 2 ^ eb - 1 then (if fr = 0 then .inf s else .nan s)
  else if ex = 0 then .fin s fr (1 - bias - fb)
  else .fin s (2 ^ fb + fr) (ex - bias - fb)

/-- The value of a code of any format but CB2; bits above the format are ignored (R200, R201, R203, R354). -/
def value (fm : Fmt) (x : Nat) : Val :=
  match fm with
  | .e8m0 => let c := x % 256; if c = 255 then .nan false else .fin false 1 (c - 127)
  | .e5f2 =>
    let c := x % 256
    if 128 ≤ c then .fin false 0 0 else .fin false (4 + c % 4) (-(c / 4 : Nat) - 2)
  | .int8 | .int16 | .int32 =>
    let w := fm.bits
    let c := x % 2 ^ w
    if 2 ^ (w - 1) ≤ c then .fin true (2 ^ w - c) 0 else .fin false c 0
  | .uint8 | .uint32 => .fin false (x % 2 ^ fm.bits) 0
  | .cb2 => .nan false
  | _ => fpValue fm x

/-! ### Rounding (R204) -/

/-- Rounds the magnitude `m / 2^sh` to an integer; `odd` says whether an integer's neighbour of choice has an odd code.
The second part says whether the result is inexact. -/
def roundMag (mode : Rnd) (s : Bool) (m sh : Nat) : Nat × Bool :=
  let q := m / 2 ^ sh
  let r := m % 2 ^ sh
  if r = 0 then (q, false)
  else
    let up : Bool :=
      match mode with
      | .rne => decide (2 ^ sh < 2 * r) || (2 * r == 2 ^ sh && q % 2 == 1)
      | .rz => false
      | .ru => !s
      | .rd => s
      | .ro => q % 2 == 0
      | .rna => decide (2 ^ sh ≤ 2 * r)
    (if up then q + 1 else q, true)

/-- `m × 2^e` in units of 2^q, rounded. -/
def roundTo (mode : Rnd) (s : Bool) (m : Nat) (e q : Int) : Nat × Bool :=
  if q ≤ e then (m * pow2 (e - q), false) else roundMag mode s m (q - e).toNat

/-- Does an overflow go to infinity (R205 Table 5, first row). -/
def toInf (mode : Rnd) (s : Bool) : Bool :=
  match mode with
  | .rne | .rna => true
  | .ru => !s
  | .rd => s
  | _ => false

/-- Packs a value into FP32, BF16, FP16, E4M3 or E5M2 (R205 Table 5). The code of a rounded magnitude is formed with an
unbounded exponent and compared with the largest finite code. -/
def packFp (fm : Fmt) (v : Val) (mode : Rnd) (sat : Bool) : Nat × Fl :=
  match v with
  | .nan s => (signCode fm s + canonNan fm, .none_)
  | .inf s =>
    if fm = .e4m3 then
      (if sat then (signCode fm s + maxCode fm, .both) else (signCode fm s + canonNan fm, .inex true))
    else (signCode fm s + infCode fm, .none_)
  | .fin s m e =>
    if m = 0 then (signCode fm s, .none_)
    else
      let (_, fb, bias) := fm.shape
      let qmin : Int := 1 - bias - fb
      let q : Int := max (e + bitLen m - (fb + 1)) qmin
      let (r, inex) := roundTo mode s m e q
      let code : Nat := (q - qmin).toNat * 2 ^ fb + r
      if code ≤ maxCode fm then (signCode fm s + code, .inex inex)
      else if sat then (signCode fm s + maxCode fm, .both)
      else if fm = .e4m3 then (signCode fm s + canonNan fm, .inex true)
      else (signCode fm s + (if toInf mode s then infCode fm else maxCode fm), .inex true)

/-- E8M0 (R205): a power of two with an unbounded exponent first; ties, "even" and "odd" by the code. -/
def packE8m0 (v : Val) (mode : Rnd) (sat : Bool) : Nat × Fl :=
  match v with
  | .nan _ => (0xFF, .none_)
  | .inf _ => (0xFF, .inex true)
  | .fin s m e =>
    if m = 0 ∨ s then (0xFF, .inex true)
    else
      let n := bitLen m
      let code : Int := e + n - 1 + 127
      let inex := m != 2 ^ (n - 1)
      let up : Bool := inex && (match mode with
        | .rne => decide (3 * 2 ^ (n - 1) < 2 * m) || (2 * m == 3 * 2 ^ (n - 1) && code % 2 == 1)
        | .rna => decide (3 * 2 ^ (n - 1) ≤ 2 * m)
        | .ru => true
        | .ro => code % 2 == 0
        | _ => false)
      let code := if up then code + 1 else code
      if 254 < code then (if sat then (0xFE, .both) else (0xFF, .inex true))
      else if code < 0 then (if sat then (0, .both) else (0xFF, .inex true))
      else (code.toNat, .inex inex)

/-- Is `m × 2^e` below `n × 2^-k`, for k ≥ 0. -/
def magLt (m : Nat) (e : Int) (n k : Nat) : Bool := m * pow2 (e + k) < n * pow2 (-(e + k))

/-- Is `n × 2^-k` below `m × 2^e`. -/
def magGt (m : Nat) (e : Int) (n k : Nat) : Bool := n * pow2 (-(e + k)) < m * pow2 (e + k)

/-- E5F2 (R202): RNE and saturation always. -/
def packE5f2 (v : Val) : Nat × Fl :=
  match v with
  | .nan _ => (0x03, ⟨true, false⟩)
  | .inf s => (if s then 0x80 else 0x03, .both)
  | .fin s m e =>
    if m = 0 then (0x80, .none_)
    else if s then (0x80, .both)
    else if magGt m e 7 2 then (0x03, .both)
    else if !magGt m e 1 32 then (0x80, .inex true)
    else if magLt m e 1 31 then (0x7C, .inex true)
    else
      let q : Int := e + bitLen m - 3
      let (r, inex) := roundTo .rne false m e q
      let r' := if r = 8 then 4 else r
      let q' := if r = 8 then q + 1 else q
      ((-q' - 2).toNat * 4 + (r' - 4), .inex inex)

/-- Integer formats (R203, R205): round to an integer, then the range. -/
def packInt (fm : Fmt) (v : Val) (mode : Rnd) : Nat × Fl :=
  let w := fm.bits
  let signed := fm == .int8 || fm == .int16 || fm == .int32
  let lo : Int := if signed then -(2 ^ (w - 1) : Nat) else 0
  let hi : Int := if signed then (2 ^ (w - 1) : Nat) - 1 else (2 ^ w : Nat) - 1
  let code (x : Int) : Nat := (x % (2 ^ w : Nat)).toNat
  match v with
  | .nan _ => (0, ⟨true, false⟩)
  | .inf s => (code (if s then lo else hi), .both)
  | .fin s m e =>
    let (r, inex) := roundTo mode s m e 0
    let x : Int := if s then -(r : Int) else r
    if x < lo then (code lo, .both) else if hi < x then (code hi, .both) else (code x, .inex inex)

/-- Packs an exact value into a format. No conversion produces CB2. -/
def pack (fm : Fmt) (v : Val) (mode : Rnd) (sat : Bool) : Nat × Fl :=
  match fm with
  | .e8m0 => packE8m0 v mode sat
  | .e5f2 => packE5f2 v
  | .int8 | .uint8 | .int16 | .int32 | .uint32 => packInt fm v mode
  | .cb2 => (0, .none_)
  | _ => packFp fm v mode sat

/-- A conversion: one rounding from the exact source value. A chain of R206 gives the same bits. -/
def convert (tgt src : Fmt) (x : Nat) (mode : Rnd) (sat : Bool) : Nat × Fl := pack tgt (value src x) mode sat

/-! ### Exact arithmetic (R355) -/

def Val.neg : Val → Val
  | .nan s => .nan s
  | .inf s => .inf !s
  | .fin s m e => .fin (!s) m e

/-- Signed numerator in units of 2^q, for q at most the exponent. -/
def scaled (s : Bool) (m : Nat) (e q : Int) : Int :=
  let x : Nat := m * pow2 (e - q)
  if s then -(x : Int) else x

/-- Exact sum. A zero from terms of opposite sign is +0 in every mode except RD. -/
def Val.add (a b : Val) (mode : Rnd) : Val :=
  match a, b with
  | .nan _, _ => .nan false
  | _, .nan _ => .nan false
  | .inf s, .inf t => if s = t then .inf s else .nan false
  | .inf s, _ => .inf s
  | _, .inf t => .inf t
  | .fin s m e, .fin t n f =>
    let q := min e f
    let x := scaled s m e q + scaled t n f q
    if x = 0 then
      (if m = 0 ∧ n = 0 ∧ s = t then .fin s 0 0 else .fin (mode == .rd) 0 0)
    else .fin (x < 0) x.natAbs q

/-- Exact product. -/
def Val.mul (a b : Val) : Val :=
  match a, b with
  | .nan _, _ => .nan false
  | _, .nan _ => .nan false
  | .inf s, .inf t => .inf (s != t)
  | .inf s, .fin t n _ => if n = 0 then .nan false else .inf (s != t)
  | .fin s m _, .inf t => if m = 0 then .nan false else .inf (s != t)
  | .fin s m e, .fin t n f => .fin (s != t) (m * n) (e + f)

/-- The quotient of finite nonzero magnitudes with enough bits and a sticky bit, for one rounding. -/
def quotient (s : Bool) (m : Nat) (e : Int) (n : Nat) (f : Int) : Val :=
  let k := bitLen n + 64
  let q := m * 2 ^ k / n
  let r := m * 2 ^ k % n
  .fin s (2 * q + (if r = 0 then 0 else 1)) (e - f - k - 1)

/-- Order of two values; `none` where either is a NaN. −0 equals +0. -/
def Val.cmp (a b : Val) : Option Ordering :=
  match a, b with
  | .nan _, _ => none
  | _, .nan _ => none
  | .inf s, .inf t => some (if s = t then .eq else if s then .lt else .gt)
  | .inf s, _ => some (if s then .lt else .gt)
  | _, .inf t => some (if t then .gt else .lt)
  | .fin s m e, .fin t n f =>
    let q := min e f
    some (compare (scaled s m e q) (scaled t n f q))

def Val.isNan : Val → Bool
  | .nan _ => true
  | _ => false

def Val.sign : Val → Bool
  | .nan s => s
  | .inf s => s
  | .fin s _ _ => s

/-- An FP32 operation in RNE without saturation: the bits alone (R210, R212, R240, R244). -/
def f32Add (x y : W32) : W32 :=
  BitVec.ofNat 32 (packFp .fp32 ((value .fp32 x.toNat).add (value .fp32 y.toNat) .rne) .rne false).1

def f32Sub (x y : W32) : W32 :=
  BitVec.ofNat 32 (packFp .fp32 ((value .fp32 x.toNat).add (value .fp32 y.toNat).neg .rne) .rne false).1

def f32Mul (x y : W32) : W32 :=
  BitVec.ofNat 32 (packFp .fp32 ((value .fp32 x.toNat).mul (value .fp32 y.toNat)) .rne false).1

/-- FP32 division of R240: the divisor is a positive, finite, normal value. -/
def f32Div (x y : W32) : W32 :=
  let v : Val :=
    match value .fp32 x.toNat, value .fp32 y.toNat with
    | .nan _, _ => .nan false
    | .inf s, _ => .inf s
    | .fin s m e, .fin _ n f => if m = 0 then .fin s 0 0 else quotient s m e n f
    | .fin _ _ _, _ => .nan false
  BitVec.ofNat 32 (packFp .fp32 v .rne false).1

/-! ### CB2 (R207–R209) -/

/-- Twice the components of a magnitude entry (R208). -/
def cb2Entry : Nat → List Nat
  | 0 => [1, 1, 1, 1]
  | 1 => [3, 1, 1, 1]
  | 2 => [1, 3, 1, 1]
  | 3 => [1, 1, 3, 1]
  | 4 => [1, 1, 1, 3]
  | 5 => [3, 3, 1, 1]
  | 6 => [1, 1, 3, 3]
  | 7 => [3, 1, 3, 1]
  | 8 => [1, 3, 1, 3]
  | 9 => [3, 1, 1, 3]
  | 10 => [1, 3, 3, 1]
  | 11 => [3, 3, 3, 3]
  | 12 => [5, 1, 1, 1]
  | 13 => [1, 5, 1, 1]
  | 14 => [1, 1, 5, 1]
  | _ => [1, 1, 1, 5]

/-- Weight `j` of an index: sign and twice the magnitude (R207). -/
def cb2Weight (idx : BitVec 16) (j : Nat) : Bool × Nat :=
  if j < 4 then (idx.getLsbD j, (cb2Entry (idx.extractLsb' 4 4).toNat).getD j 0)
  else (idx.getLsbD (8 + (j - 4)), (cb2Entry (idx.extractLsb' 12 4).toNat).getD (j - 4) 0)

end Sys2Proof
end

