-- ==== Sys2Proof/Machine/NumFn.lean ====
section
/-! DEFINITION. Correctly rounded functions (R196, R241, R247, R363), by fixed-point series with 400 fraction bits, and
the counter hash (R246). An irrational value is rounded from a fixed-point value with a sticky bit; the series' error
lies far below the distance of any such value from a rounding boundary (log 6). -/

namespace Sys2Proof

/-- Fraction bits of the series. -/
def fixBits : Nat := 400

def fixOne : Nat := 2 ^ fixBits

/-- Product of two fixed-point magnitudes. -/
def fixMul (a b : Nat) : Nat := a * b / fixOne

/-- Σ p·z^(2i) / (2i+1) from an index on. -/
def oddSum (z2 : Nat) : Nat → Nat → Nat → Nat
  | 0, _, _ => 0
  | n + 1, p, i => p / (2 * i + 1) + oddSum z2 n (fixMul p z2) (i + 1)

/-- The same sum with alternating signs. -/
def oddAlt (z2 : Nat) : Nat → Nat → Nat → Int
  | 0, _, _ => 0
  | n + 1, p, i => (p / (2 * i + 1) : Nat) - oddAlt z2 n (fixMul p z2) (i + 1)

/-- ln of a fixed-point value in [1, 2]: 2 artanh((x − 1) / (x + 1)). -/
def lnUnit (x : Nat) : Nat :=
  let z := (x - fixOne) * fixOne / (x + fixOne)
  2 * oddSum (fixMul z z) 140 z 0

/-- ln 2. -/
def fixLn2 : Nat := lnUnit (2 * fixOne)

/-- ln of a positive fixed-point value. -/
def fixLn (a : Nat) : Int :=
  let l := Nat.log2 a
  let x := a * 2 ^ fixBits / 2 ^ l
  (lnUnit x : Int) + ((l : Int) - fixBits) * fixLn2

/-- π = 16 arctan(1/5) − 4 arctan(1/239). -/
def fixPi : Int :=
  let a := fixOne / 5
  let b := fixOne / 239
  16 * oddAlt (fixMul a a) 100 a 0 - 4 * oddAlt (fixMul b b) 40 b 0

/-- Σ x^i / i! from a term on. -/
def expSum (x : Nat) : Nat → Nat → Nat → Nat
  | 0, _, _ => 0
  | n + 1, t, i => t + expSum x n (fixMul t x / (i + 1)) (i + 1)

/-- exp of a fixed-point value in [0, 1). -/
def fixExp (x : Nat) : Nat := expSum x 100 fixOne 0

/-- Σ ± t over every second term, from a term t of index i on. -/
def trigSum (x2 : Nat) : Nat → Nat → Nat → Int
  | 0, _, _ => 0
  | n + 1, t, i => (t : Int) - trigSum x2 n (fixMul t x2 / ((i + 1) * (i + 2))) (i + 2)

/-- sin and cos of a fixed-point angle in [0, 2). -/
def fixSin (x : Nat) : Int := trigSum (fixMul x x) 60 x 1

def fixCos (x : Nat) : Int := trigSum (fixMul x x) 60 fixOne 0

/-- An irrational value near a fixed-point one, with a sticky bit. -/
def sticky2 (x : Int) (k : Int) : Val := .fin (x < 0) (2 * x.natAbs + 1) (k - fixBits - 1)

/-- `m × 2^e` as a whole part and a fixed-point fraction, for a value whose fraction has at most 400 bits. -/
def splitFix (s : Bool) (m : Nat) (e : Int) : Int × Nat :=
  let x : Int := (m * pow2 (e + fixBits) / pow2 (-(e + fixBits)) : Nat)
  let x := if s then -x else x
  (x / (fixOne : Int), (x % (fixOne : Int)).toNat)

/-- 2^a, exact for integers; far beyond the range of FP32 any value of the right magnitude serves (R363). -/
def exp2Val (s : Bool) (m : Nat) (e : Int) : Val :=
  if 512 ≤ m * pow2 e / pow2 (-e) then (if s then .fin false 3 (-500) else .fin false 3 500)
  else
    let (n, f) := splitFix s m e
    if f = 0 then .fin false 1 n else sticky2 (fixExp (fixMul f fixLn2)) n

/-- log₂ of a positive value, exact for powers of two. -/
def log2Val (m : Nat) (e : Int) : Val :=
  let l : Int := e + bitLen m - 1
  if m = 2 ^ (bitLen m - 1) then .fin (l < 0) l.natAbs 0
  else
    let x := m * fixOne / 2 ^ (bitLen m - 1)
    sticky2 (l * fixOne + ((lnUnit x * fixOne / fixLn2 : Nat) : Int)) 0

/-- Integer square root by bits, from bit `n` down. -/
def isqrt (a : Nat) : Nat → Nat → Nat
  | 0, r => r
  | n + 1, r => let c := r + 2 ^ n; isqrt a n (if c * c ≤ a then c else r)

/-- 1/√a of a positive value. -/
def rsqVal (m : Nat) (e : Int) : Val :=
  let m' := if e % 2 = 0 then m else 2 * m
  let e' := if e % 2 = 0 then e else e - 1
  let x := isqrt (2 ^ 200 / m') 101 0
  .fin false (2 * x + (if x * x * m' = 2 ^ 200 then 0 else 1)) (-101 - e' / 2)

/-- sin and cos of 2π times a fraction of a turn `num / 2^k` (R196, R363). Open points: DEDUCED, log 6. -/
def turns (num k : Nat) : Val × Val :=
  let q := 4 * num / 2 ^ k
  let r := 4 * num % 2 ^ k
  let zero : Val := .fin false 0 0
  let one : Val := .fin false 1 0
  if r = 0 then
    match q with
    | 0 => (zero, one)
    | 1 => (one, zero)
    | 2 => (zero, one.neg)
    | _ => (one.neg, zero)
  else
    let th := (fixPi.toNat * r / 2 ^ k) / 2
    let sv := sticky2 (fixSin th) 0
    let cv := sticky2 (fixCos th) 0
    match q with
    | 0 => (sv, cv)
    | 1 => (cv, sv.neg)
    | 2 => (sv.neg, cv.neg)
    | _ => (cv.neg, sv)

/-- f = a − floor(a) as a fraction, then `turns` (R363). -/
def turnsOf (s : Bool) (m : Nat) (e : Int) : Val × Val :=
  if 0 ≤ e then turns 0 0
  else
    let k := (-e).toNat
    let f := m % 2 ^ k
    turns (if s ∧ f ≠ 0 then 2 ^ k - f else f) k

/-- The functions of R363. -/
inductive FnOp where
  | rcp | rsq | exp2 | log2 | sin | cos
  deriving DecidableEq, Repr

/-- The exact value of a function with the special inputs of R363 Table 3. Open points: DEDUCED, log 6. -/
def fnVal (op : FnOp) (a : Val) : Val :=
  match a with
  | .nan _ => .nan false
  | .inf s =>
    match op with
    | .rcp => .fin s 0 0
    | .rsq => if s then .nan false else .fin false 0 0
    | .exp2 => if s then .fin false 0 0 else .inf false
    | .log2 => if s then .nan false else .inf false
    | .sin | .cos => .nan false
  | .fin s m e =>
    if m = 0 then
      match op with
      | .rcp => .inf s
      | .rsq => .inf s
      | .exp2 => .fin false 1 0
      | .log2 => .inf true
      | .sin => .fin false 0 0
      | .cos => .fin false 1 0
    else
      match op with
      | .rcp => quotient s 1 0 m e
      | .rsq => if s then .nan false else rsqVal m e
      | .exp2 => exp2Val s m e
      | .log2 => if s then .nan false else log2Val m e
      | .sin => (turnsOf s m e).1
      | .cos => (turnsOf s m e).2

/-- exp of a value at most 0, exact or with a sticky bit (R241, R228). Open points: DEDUCED, log 32. -/
def expVal (x : Val) : Val :=
  match x with
  | .nan _ => .nan false
  | .inf s => if s then .fin false 0 0 else .inf false
  | .fin s m e =>
    if m = 0 then .fin false 1 0
    else if 256 ≤ m * pow2 e / pow2 (-e) then (if s then .fin false 3 (-500) else .fin false 3 500)
    else
      let t : Int := (m * pow2 (e + fixBits) / pow2 (-(e + fixBits)) : Nat)
      let y : Int := (if s then -t else t) * fixOne / fixLn2
      let n := y / (fixOne : Int)
      sticky2 (fixExp (fixMul (y % (fixOne : Int)).toNat fixLn2)) n

/-- exp of a value at most 0, correctly rounded to FP32 (R241, R244). -/
def f32ExpNeg (x : W32) : W32 := BitVec.ofNat 32 (packFp .fp32 (expVal (value .fp32 x.toNat)) .rne false).1

/-- The rotary generator on 32-bit turns (R196): FP32 sin and cos of 2π t / 2^32, RNE. Open points: DEDUCED, log 6. -/
def rotGen (t : W32) : W32 × W32 :=
  let (s, c) := turns t.toNat 32
  (BitVec.ofNat 32 (packFp .fp32 s .rne false).1, BitVec.ofNat 32 (packFp .fp32 c .rne false).1)

/-- The counter hash (R246). -/
def hash64 (seed pos : W64) (index : W32) : W64 :=
  let x := seed ^^^ (pos * 0x9E3779B97F4A7C15#64) ^^^ (index.setWidth 64 * 0xC2B2AE3D27D4EB4F#64)
  let h := x ^^^ (x >>> 31)
  let h := h * 0xD6E8FEB86659FD93#64
  let h := h ^^^ (h >>> 29)
  let h := h * 0xCB24D0A5C88C35B3#64
  h ^^^ (h >>> 32)

/-- Gumbel noise (R247). Open points: DEDUCED, log 6. -/
def gumbel (seed pos : W64) (index : W32) : W32 :=
  let v := (hash64 seed pos index >>> 40).toNat
  let u := (2 * v + 1) * fixOne / 2 ^ 25
  let l := (-(fixLn u)).toNat
  BitVec.ofNat 32 (packFp .fp32 (sticky2 (-(fixLn l)) 0) .rne false).1

end Sys2Proof
end

