-- ==== Sys2Proof/Machine/Select.lean ====
section
/-! DEFINITION. What COPYSEL computes from a row of logits: its selection parameters, the record of a row, and the merge
into an earlier record (R239–R244). -/

namespace Sys2Proof.Machine

open Sys2Proof

/-- Selection parameters, from S0 to S2 (R239). -/
structure SelPar where
  idxBase : W32
  temp    : W32
  accum   : Bool
  noise   : Bool
  pstep   : Bool
  ksel    : Nat
  pos     : Nat
  seed    : W64
  deriving DecidableEq, Repr

def selPar (s0 s1 s2 : W64) : SelPar where
  idxBase := s0.extractLsb' 32 32
  temp := s0.extractLsb' 0 32
  accum := s1.getLsbD 57
  noise := s1.getLsbD 56
  pstep := s1.getLsbD 55
  ksel := (s1.extractLsb' 48 7).toNat
  pos := (s1.extractLsb' 0 48).toNat
  seed := s2

/-- Values of the selection words that trap ILLEGAL_OPCODE (R239). -/
def selBad (s0 s1 : W64) : Bool :=
  s1.extractLsb' 58 6 != 0 || s0.getLsbD 31 || s0.extractLsb' 23 8 == 0 || s0.extractLsb' 23 8 == 0xFF
    || (s1.extractLsb' 48 7).toNat > 64

/-- The record of one row (R243). -/
structure SelRec where
  m       : W32
  sum     : W32
  flags   : Nat
  entries : List (W32 × W32)
  deriving DecidableEq, Repr

/-- FP32 constants. -/
def f32NegInf : W32 := 0xFF800000

def f32PosInf : W32 := 0x7F800000

def f32Nan : W32 := BitVec.ofNat 32 (canonNan .fp32)

def f32IsNan (x : W32) : Bool := (value .fp32 x.toNat).isNan

def f32Cmp (x y : W32) : Option Ordering := (value .fp32 x.toNat).cmp (value .fp32 y.toNat)

/-- The larger of two values; a NaN stays. -/
def f32Max (x y : W32) : W32 :=
  if f32IsNan x then f32Nan else if f32IsNan y then f32Nan else if f32Cmp x y = some .lt then y else x

/-- The order of entries: larger score first, equal scores by lower index (R242). -/
def entryBefore (a b : W32 × W32) : Bool :=
  match f32Cmp a.1 b.1 with
  | some .gt => true
  | some .eq => a.2 < b.2
  | _ => false

def insertEntry (e : W32 × W32) : List (W32 × W32) → List (W32 × W32)
  | [] => [e]
  | h :: r => if entryBefore e h then e :: h :: r else h :: insertEntry e r

/-- The best `k` entries, in order. -/
def bestEntries (k : Nat) (es : List (W32 × W32)) : List (W32 × W32) :=
  (es.foldl (fun l e => insertEntry e l) []).take k

/-- The record of row `r` from its logits alone (R240–R242). Open points: DEDUCED, log 32. -/
def selRow (p : SelPar) (r : Nat) (xs : List W32) : SelRec :=
  let ys := xs.map fun x => f32Div x p.temp
  if ys.any f32IsNan then { m := f32Nan, sum := f32Nan, flags := 1, entries := [] }
  else
    let inf := ys.contains f32PosInf
    let m := ys.foldl f32Max f32NegInf
    let sum := ys.foldl (fun s y =>
      if inf then (if y = f32PosInf then f32Add s 0x3F800000 else s)
      else if y = f32NegInf then s else f32Add s (f32ExpNeg (f32Sub y m))) 0
    let pos := w64 (p.pos + (if p.pstep then r else 0))
    let cands := ys.zipIdx.filterMap fun (y, j) =>
      if y = f32NegInf then none
      else
        let i := p.idxBase + w32 j
        some (f32Add y (if p.noise then gumbel p.seed pos i else 0), i)
    { m := m, sum := sum, flags := if inf then 2 else 0, entries := bestEntries p.ksel cands }

/-- The record of an ACCUM COPYSEL (R244). -/
def selMerge (p : SelPar) (old new : SelRec) : SelRec :=
  let flags := old.flags ||| new.flags
  if flags % 2 = 1 then { m := f32Nan, sum := f32Nan, flags := flags, entries := [] }
  else
    let m := f32Max old.m new.m
    let c (x : W32) : W32 := if x = f32NegInf then 0 else f32ExpNeg (f32Sub x m)
    { m := m, sum := f32Add (f32Mul old.sum (c old.m)) (f32Mul new.sum (c new.m)), flags := flags,
      entries := bestEntries p.ksel (old.entries ++ new.entries) }

/-- Bytes of one record (R243). -/
def recBytes (ksel : Nat) : Nat := 16 + 8 * ksel

def SelRec.bytes (r : SelRec) (ksel : Nat) : List (BitVec 8) :=
  natToBytes 4 r.m.toNat ++ natToBytes 4 r.sum.toNat ++ natToBytes 4 r.entries.length ++ natToBytes 4 r.flags
    ++ (List.range ksel).flatMap fun e =>
      let x := r.entries.getD e (f32NegInf, 0xFFFFFFFF)
      natToBytes 4 x.1.toNat ++ natToBytes 4 x.2.toNat

/-- A 32-bit word of a list of bytes. -/
def wordAt (bs : List (BitVec 8)) (i : Nat) : W32 := w32 (bytesToNat ((bs.drop i).take 4))

/-- The old record: at most KSEL entries of it are read (R244). -/
def oldRec (ksel : Nat) (bs : List (BitVec 8)) : SelRec where
  m := wordAt bs 0
  sum := wordAt bs 4
  flags := (wordAt bs 12).toNat % 4
  entries := (List.range (Nat.min ksel (wordAt bs 8).toNat)).map fun e => (wordAt bs (16 + 8 * e), wordAt bs (20 + 8 * e))

/-- Every record of a tile: `src` its logits' bytes in row order, `old` the old records'.
Open points: DEDUCED, log 39. -/
def selTile (p : SelPar) (rows rowBytes : Nat) (src old : List (BitVec 8)) : List (BitVec 8) :=
  (List.range rows).flatMap fun r =>
    let xs := (List.range (rowBytes / 4)).map fun j => wordAt src (r * rowBytes + 4 * j)
    let new := selRow p r xs
    let n := recBytes p.ksel
    let rec_ := if p.accum then selMerge p (oldRec p.ksel ((old.drop (r * n)).take n)) new else new
    rec_.bytes p.ksel

end Sys2Proof.Machine
end

