-- ==== Sys2Proof/Machine/Sync.lean ====
section
/-! DEFINITION. The barrier unit: phase objects, the order in which operations reach them, waiters, and PHINIT, PHARR,
PHWAIT, PHTEST and BAR (R144–R147, R268, R399, R403–R409, R440). -/

namespace Sys2Proof.Machine

open Sys2Proof

/-! ### Objects -/

/-- The placed cohort of a partition with an instance number (R130). -/
def State.cohortOf (s : State) (part inst : Nat) : Option Nat :=
  firstKey s.cohorts fun _ c => c.inst == inst && c.st != .ended && (match s.field c.field with
    | some f => f.part == part
    | none => false)

def Cohort.phase (c : Cohort) (obj : Nat) : Phase := Tbl.get c.phases Phase.initial obj

def State.setPhase (s : State) (cid obj : Nat) (p : Phase) : State :=
  s.updCohort cid fun c => { c with phases := Tbl.set c.phases Phase.initial obj p }

/-- Are operations on the cohort's objects held until it is placed again (R268). -/
def Cohort.away (c : Cohort) : Bool := c.st == .saving || c.st == .saved

/-- Instance and object number of a space-5 address (R128). -/
def phInst (a : Nat) : Nat := a / 4096 % 2 ^ 36

def phObj (a : Nat) : Nat := a / 16 % 256

/-! ### Waking -/

/-- Does an observation of the object's last completion by a weave of cohort `who` lack an acquire (R409). -/
def Phase.unpaired (p : Phase) (cid who : Nat) : Bool :=
  !p.arrivedLast.isEmpty && (who != cid || p.arrivedLast.any (· != cid))

/-- Does some arrival of the last completion pair with an observation by a weave of cohort `who` (R409): a copy's always does,
a weave's where both belong to the object's cohort. A completion in which nothing counted leaves the acquire as it is. -/
def Phase.paired (p : Phase) (cid who : Nat) : Bool :=
  p.copiedLast || p.arrivedLast.isEmpty || (who == cid && p.arrivedLast.contains cid)

/-- What an observation of a completion does to the observing weave: acquire at cohort scope from the arrivals that pair,
SCOPE_MISMATCH for the others (R147, R409). -/
def State.phSeen (s : State) (e : Env) (p : Phase) (cid : Nat) : State :=
  (if p.paired cid e.cid then s.acquireAt e.t.core else s).stickyIf e.wid wsMismatch (p.unpaired cid e.cid)

/-- A group goes on from PHWAIT or BAR with a status. The wake from a sleep on the object is a kill point; `kill` is false
where the operation finds its result when it is applied (R92, R406, R408). -/
def State.phWake (s : State) (wid gid d : Nat) (kill : Bool) (status : W64) (seen : Option (Phase × Nat)) : State :=
  match s.env wid with
  | none => s
  | some e =>
    match e.w.group gid with
    | none => s
    | some g =>
      if kill && s.killDue e then s.endThreads wid g.lanes (s.envCancelling e)
      else
        let s := match seen with
          | some (p, cid) => s.phSeen e p cid
          | none => s
        s.updWeave wid fun w => (w.setS d status).updGroup gid fun g => { g with sleep := .awake }

/-- The groups of a partition that sleep on an object and are not halted: weave, group, parity and destination. -/
def State.phWaiters (s : State) (part inst obj : Nat) : List (Nat × Nat × Bool × Nat) :=
  s.weaves.flatMap fun (wid, w) =>
    match s.env wid with
    | none => []
    | some e =>
      if e.part != part then []
      else w.groups.filterMap fun g =>
        match g.sleep with
        | .phase i o q d => if i == inst && o == obj && !g.halted then some (wid, g.gid, q, d) else none
        | _ => none

/-- Every waiter of an object is examined: poisoned, or its parity over, it wakes (R146, R93, R404). -/
def State.phSettle (s : State) (part cid obj : Nat) : State :=
  match s.cohort cid with
  | none => s
  | some c =>
    let p := c.phase obj
    (s.phWaiters part c.inst obj).foldl (fun s (wid, gid, q, d) =>
      if p.poison then s.phWake wid gid d true 1 none
      else if p.parity != q then s.phWake wid gid d true 0 (some (p, cid))
      else s) s

/-- An arrival of `u` units (R145, R440); `by_` is the cohort of an arriving weave, none for a copy. -/
def Phase.arrive (p : Phase) (u : Nat) (by_ : Option Nat) : Phase :=
  if p.poison then p
  else
    let a := match by_ with
      | some c => addName p.arrived c
      | none => p.arrived
    let c := p.copied || by_.isNone
    if u < p.remain.toNat then { p with remain := p.remain - w32 u, arrived := a, copied := c }
    else { p with parity := !p.parity, remain := p.expect, arrived := [], arrivedLast := a, copied := false, copiedLast := c }

/-- Is an object zero in every field, as no PHINIT has left it: a BAR sleeps on it (R440). Open points: DEDUCED, log 38. -/
def Phase.blank (p : Phase) : Bool :=
  p.owner == 0 && !p.poison && !p.bytes && !p.parity && p.remain == 0 && p.expect == 0

/-- An arrival on an object of a placed cohort. -/
def State.phArrive (s : State) (part cid obj u : Nat) (by_ : Option Nat) : State :=
  match s.cohort cid with
  | none => s
  | some c => (s.setPhase cid obj ((c.phase obj).arrive u by_)).phSettle part cid obj

/-- The object as PHINIT leaves it (R404). -/
def Phase.init (bytes : Bool) (expect owner : W32) : Phase where
  owner := owner
  poison := false
  bytes := bytes
  parity := false
  remain := expect
  expect := expect
  arrived := []
  arrivedLast := []
  copied := false
  copiedLast := false

/-! ### Applying an operation -/

/-- The group of an operation sleeps on its object. -/
def State.phSleep (s : State) (op : PhOp) (q : Bool) (d : Nat) : State :=
  s.updWeave op.weave fun w => w.updGroup op.gid fun g => { g with sleep := .phase op.inst op.obj q d }

/-- An operation acts on the object of a placed cohort that is not away. -/
def State.phAct (s : State) (op : PhOp) (cid : Nat) (c : Cohort) : State :=
  let p := c.phase op.obj
  match op.kind with
  | .init b x o => (s.setPhase cid op.obj (Phase.init b x o)).phSettle op.part cid op.obj
  | .arrive u => s.phArrive op.part cid op.obj u.toNat (some op.cohort)
  | .copy n => s.phArrive op.part cid op.obj (if p.bytes then n else 1) none
  | .wait q d =>
    if p.poison then s.phWake op.weave op.gid d false 1 none
    else if p.parity != q then s.phWake op.weave op.gid d false 0 (some (p, cid))
    else s.phSleep op q d
  | .bar d =>
    if p.poison then s.phWake op.weave op.gid d false 1 none
    else if p.blank then s.phSleep op false d
    else
      let s := s.phArrive op.part cid op.obj 1 (some op.cohort)
      match s.cohort cid with
      | none => s
      | some c' =>
        let p' := c'.phase op.obj
        if p'.parity != p.parity then s.phWake op.weave op.gid d false 0 (some (p', cid)) else s.phSleep op p.parity d

/-- An operation on an object of a saved cohort: a PHWAIT sleeps until the object changes after restore, every other one is
held until then (R268). -/
def State.phHold (s : State) (op : PhOp) (cid : Nat) : State :=
  match op.kind with
  | .wait q d => s.phSleep op q d
  | _ => s.updCohort cid fun c => { c with held := c.held ++ [op] }

/-- Applies an operation: an object of no live cohort acts as poisoned (R130, R93). -/
def State.phApply (s : State) (op : PhOp) : State :=
  match s.cohortOf op.part op.inst with
  | none =>
    match op.kind with
    | .wait _ d | .bar d => s.phWake op.weave op.gid d false 1 none
    | _ => s
  | some cid =>
    match s.cohort cid with
    | none => s
    | some c =>
      if c.away then s.phHold op cid else s.phAct op cid c

/-- Is an operation a release at cohort scope (R147, R405, R408). -/
def PhKind.releases : PhKind → Bool
  | .arrive u => u != 0
  | .bar _ => true
  | _ => false

/-- Are all LS accesses that the weave issued before name `id` performed, SPAWN's read among them (R157, R82). Open points: DEDUCED, log 38. -/
def State.lsQuietBefore (s : State) (wid id : Nat) : Bool :=
  (s.lsOps.all fun (k, q) => k ≥ id || q.weave != wid || q.accs.all (·.got.isSome))
    && !(someT s.scopeOps fun k o => k < id && o.weave == wid && o.kind.isSpawn)

/-- May operation `id` be applied: the weave's earlier ones are, and what a release waits for is performed (R399). -/
def State.phReady (s : State) (id : Nat) (op : PhOp) : Bool :=
  !(someT s.phOps fun k o => k < id && o.weave == op.weave) && (!op.kind.releases || s.lsQuietBefore op.weave id)

/-- Applies a waiting operation if it may be. Open points: DEDUCED, log 38. -/
def State.phStep (s : State) (id : Nat) : State :=
  match Tbl.find s.phOps id with
  | some op => if s.phReady id op then State.phApply { s with phOps := Tbl.del s.phOps id } op else s
  | none => s

/-- Poisons every object that one of the handles of a partition owns (R93); is any poisoned. -/
def State.poisonOwned (s : State) (part : Nat) (hs : List W32) : State × Bool :=
  let objs := s.cohorts.flatMap fun (cid, c) =>
    match s.field c.field with
    | some f => if f.part == part then
        c.phases.filterMap fun (o, p) => if hs.contains p.owner && !p.poison then some (cid, o, p) else none
      else []
    | none => []
  (objs.foldl (fun s (cid, o, p) => (s.setPhase cid o { p with poison := true }).phSettle part cid o) s, !objs.isEmpty)

/-! ### The instructions -/

/-- Checks a phase capability for 16 bytes at an address (R403). -/
def Ctx.phCheck (x : Ctx) (k : Nat) (perm : BitVec 8) (a : Nat) : Option Trap :=
  let c := x.w.getK k
  match x.capCheck { spaces := [5], perm := perm, kind := 1, nat := true } k k 16 a 16 with
  | some t => some t
  | none =>
    if a % 16 != 0 then some (.plain .misaligned k)
    else if c.base / 2 ^ 57 != 0 || c.base / 2 ^ 48 % 512 != x.s.ownPeer x.e.part then some (.plain .capBounds k)
    else none

/-- The operation of the issuing group on the object at an address. -/
def Ctx.phOp (x : Ctx) (a : Nat) (kind : PhKind) : PhOp :=
  { part := x.e.part, inst := phInst a, obj := phObj a, weave := x.e.wid, gid := x.g.gid, cohort := x.e.cid, kind := kind }

/-- Has the weave phase operations that wait their turn at the barrier unit. Open points: DEDUCED, log 38. -/
def Ctx.phPending (x : Ctx) : Bool := someT x.s.phOps fun _ o => o.weave == x.e.wid

def PhKind.isCopy : PhKind → Bool
  | .copy _ => true
  | _ => false

/-- Has the weave phase operations that are held until a saved cohort is placed again (R268). -/
def Ctx.phHeld (x : Ctx) : Bool :=
  someT x.s.cohorts fun _ c => c.held.any fun o => o.weave == x.e.wid && !o.kind.isCopy

/-- Must the operation wait its turn. -/
def Ctx.phWaits (x : Ctx) (kind : PhKind) : Bool :=
  x.phPending || (kind.releases && !x.s.lsQuietBefore x.e.wid x.s.nextId)

/-- The operation joins those that wait. -/
def Ctx.phQueue (x : Ctx) (op : PhOp) : State :=
  let (id, s) := x.s.fresh
  { s with phOps := Tbl.put s.phOps id op }

/-- PHINIT and PHARR: applied, or left to follow (R399, R405). -/
def Ctx.phSend (x : Ctx) (a : Nat) (kind : PhKind) : Res :=
  if x.phWaits kind then .done (x.phQueue (x.phOp a kind)) else .done (x.s.phApply (x.phOp a kind))

/-- PHWAIT and BAR: a result at once, or a sleep (R406, R408, R440). On a saved cohort's object they sleep (R268). -/
def Ctx.phAwait (x : Ctx) (a d : Nat) (kind : PhKind) : Res :=
  let op := x.phOp a kind
  let fin (s : State) (v : W64) : Res := .done (s.updWeave x.e.wid fun w => w.setS d v)
  if x.phWaits kind then .sleep (x.phQueue op) (.unit d)
  else
    match x.s.cohortOf op.part op.inst with
    | none => fin x.s 1
    | some cid =>
      match x.s.cohort cid with
      | none => fin x.s 1
      | some c =>
        let p := c.phase op.obj
        if c.away then
          match kind with
          | .wait q _ => .sleep x.s (.phase op.inst op.obj q d)
          | _ => .sleep (x.s.phApply op) (.unit d)
        else if p.poison then fin x.s 1
        else
          match kind with
          | .wait q _ =>
            if p.parity != q then fin (x.s.phSeen x.e p cid) 0 else .sleep x.s (.phase op.inst op.obj q d)
          | _ =>
            if p.blank then .sleep x.s (.phase op.inst op.obj false d)
            else
            let s := x.s.phArrive op.part cid op.obj 1 (some x.e.cid)
            let p' := ((s.cohort cid).getD c).phase op.obj
            if p'.parity != p.parity then fin (s.phSeen x.e p' cid) 0
            else .sleep s (.phase op.inst op.obj p.parity d)

/-- Address of a phase operand (R403). -/
def Ctx.phAddr (x : Ctx) (a b : Nat) : Nat := (x.w.getK a).base + (x.w.getS b).toNat

/-- PHINIT (R404). -/
def execPhinit (h : Hd) (bytes : Bool) (a b c : Nat) (s : State) : Host.Outcome State Fault Refusal :=
  issue (.phinit h bytes a b c) s fun x =>
    match x.phCheck a permW (x.phAddr a b) with
    | some t => .trap t
    | none =>
      let n : W32 := (x.w.getS c).extractLsb' 0 32
      x.phSend (x.phAddr a b) (.init bytes (if n = 0 then 1 else n) x.e.f.scope)

/-- PHARR (R405). -/
def execPharr (h : Hd) (a b c : Nat) (s : State) : Host.Outcome State Fault Refusal :=
  issue (.pharr h a b c) s fun x =>
    match x.phCheck a permW (x.phAddr a b) with
    | some t => .trap t
    | none =>
      let n : W32 := (x.w.getS c).extractLsb' 0 32
      if n = 0 then .done x.s else x.phSend (x.phAddr a b) (.arrive n)

/-- PHWAIT (R406). -/
def execPhwait (h : Hd) (d a b c : Nat) (s : State) : Host.Outcome State Fault Refusal :=
  issue (.phwait h d a b c) s fun x =>
    match x.phCheck a permR (x.phAddr a b) with
    | some t => .trap t
    | none => x.phAwait (x.phAddr a b) d (.wait ((x.w.getS c).getLsbD 0) d)

/-- PHTEST's value (R407 Table 4). -/
def phtestVal (p : Phase) (q : Bool) : W64 :=
  w64 (p.remain.toNat * 2 ^ 32 + (if p.parity then 256 else 0) + (if p.poison then 1 else if p.parity != q then 0 else 2))

/-- PHTEST (R407). -/
def execPhtest (h : Hd) (d a b c : Nat) (s : State) : Host.Outcome State Fault Refusal :=
  issue (.phtest h d a b c) s fun x =>
    let at_ := x.phAddr a b
    match x.phCheck a permR at_ with
    | some t => .trap t
    | none =>
      if x.phPending || x.phHeld then .stall
      else
        match x.s.cohortOf x.e.part (phInst at_) with
        | none => .done (x.upd fun w => w.setS d 1)
        | some cid =>
          let p := ((x.s.cohort cid).map (·.phase (phObj at_))).getD Phase.initial
          let q := (x.w.getS c).getLsbD 0
          let s := if !p.poison && p.parity != q then x.s.phSeen x.e p cid else x.s
          .done (s.updWeave x.e.wid fun w => w.setS d (phtestVal p q))

/-- BAR (R408). -/
def execBar (h : Hd) (d a b : Nat) (s : State) : Host.Outcome State Fault Refusal :=
  issue (.bar h d a b) s fun x =>
    match x.phCheck a (permR ||| permW) (x.phAddr a b) with
    | some t => .trap t
    | none => x.phAwait (x.phAddr a b) d (.bar d)

end Sys2Proof.Machine
end

