-- ==== Sys2Proof/Machine/Copy.lean ====
section
/-! DEFINITION. The copy engine: COPY, COPYM and COPYSEL from their checks to completion or failure (R140–R143,
R394–R402, R239, R245). -/

namespace Sys2Proof.Machine

open Sys2Proof

/-! ### Geometry (R395, R397, R401, R402) -/

/-- Rows, bytes and stride of what a copy writes at each destination: a COPYSEL writes its records side by side. -/
def Copy.outRows (c : Copy) : Nat := match c.kind with
  | .sel .. => 1
  | _ => c.rows

def Copy.outBytes (c : Copy) : Nat := match c.kind with
  | .sel _ s1 _ => c.rows * recBytes (s1.extractLsb' 48 7).toNat
  | _ => c.rowBytes

/-- Units of one destination under UNIT 1 (R397, R402). -/
def Copy.count (c : Copy) : Nat := c.outRows * c.outBytes

def Copy.srcAt (c : Copy) (r : Nat) : Nat := c.src.base + c.srcOff.toNat + r * c.srcStr

def Copy.dstAt (c : Copy) (r : Nat) : Nat := c.dst.base + c.dstOff.toNat + r * c.dstStr

/-- The teams of a COPYM's mask. -/
def maskTeams (m : BitVec 8) : List Nat := (List.range 8).filter fun j => m.getLsbD j

/-- Where the destinations lie: the team of each for a COPYM. -/
def Copy.dests (c : Copy) : List (Option Nat) := match c.kind with
  | .multi m => (maskTeams m).map some
  | _ => [none]

/-- Pieces of a range that lie in one granule each. -/
def chunksOf (a n : Nat) : List (Nat × Nat) :=
  if n = 0 then []
  else (granulesOf a n).map fun g => (Nat.max a (g * 64), Nat.min (a + n) (g * 64 + 64) - Nat.max a (g * 64))

/-! ### Checks at issue (R396) -/

/-- R129 for the bytes of one row, which may run over several teams of the cohort space. -/
def relativeRow (e : Env) (c : Cap) (a n : Nat) : Bool :=
  let r := e.f.lr
  let spad := r.spadKib * 1024
  match c.space with
  | 1 => c.base < 2 ^ 23 && a + n ≤ spad
  | 2 => c.base < 2 ^ 23 && (a + n - 1) / cohortStride < r.width && (a % cohortStride + n ≤ spad || spad = cohortStride)
  | 4 => c.base < 2 ^ 23 && (a + n - 1) / 16384 < r.accBlk
  | _ => true

/-- R126 for every row of one end. -/
def Ctx.endCheck (x : Ctx) (k : Nat) (spaces : List Nat) (perm : BitVec 8) (rows : List Nat) (n : Nat) : Option Trap :=
  let c := x.w.getK k
  match capTagPerm c spaces perm k with
  | some t => some t
  | none => if rows.all fun a => c.covers a n && relativeRow x.e c a n then none else some (.plain .capBounds k)

/-- The teams of a COPYM: each in the cohort, its bytes below SPADKIB and in the capability (R401). -/
def Ctx.maskCheck (x : Ctx) (k : Nat) (m : BitVec 8) : Option Trap :=
  if (maskTeams m).all (· < x.e.f.lr.width) then none else some (.plain .capBounds k)

/-- The one peer of the rows of a space-0 end, or the trap (R396 step 7). -/
def Ctx.endPeer (x : Ctx) (k : Nat) (rows : List Nat) (n : Nat) : Option Res :=
  if (x.w.getK k).space != 0 then none
  else
    let p0 := rows.headD 0 / 2 ^ 55
    if rows.all fun a => a / 2 ^ 55 == p0 && (a + n - 1) / 2 ^ 55 == p0 then
      (x.s.peerCheck x.e p0).map fun why => x.peerTrap p0 (x.g.lanes.toList.headD 0) why
    else some (.trap (.plain .capBounds k))

/-- The copy an instruction describes. -/
def Ctx.copyOf (x : Ctx) (kind : CopyKind) (f : CopyF) (a b c : Nat) : Copy :=
  let w2 := x.w.getS (b + 2)
  let w3 := x.w.getS (b + 3)
  { weave := x.e.wid, team := x.e.tid, cohort := x.e.cid, part := x.e.part, core := x.e.t.core, ident := x.s.ident x.e
    scopeH := x.e.f.scope, kind := kind, f := f, src := x.w.getK a, dst := x.w.getK c
    ph := if f.mode = .tok then none else some (w64 ((x.w.getK f.pk.toNat).base + 16 * f.obj.toNat))
    srcOff := x.w.getS b, dstOff := x.w.getS (b + 1), rows := (w2.extractLsb' 32 13).toNat
    rowBytes := (w2.extractLsb' 0 24).toNat, srcStr := (w3.extractLsb' 0 32).toNat
    dstStr := (w3.extractLsb' 32 32).toNat, promise := 0, st := .queued, xl := [], got := [], put := []
    arrived := [], fault := none, err := none }

/-- Is the descriptor one that traps ILLEGAL_OPCODE (R395, R239). -/
def Ctx.descBad (x : Ctx) (c : Copy) (b : Nat) : Bool :=
  let w2 := x.w.getS (b + 2)
  w2.extractLsb' 45 19 != 0 || w2.extractLsb' 24 8 != 0 || c.rows = 0 || c.rows > 4096 || c.rowBytes = 0 ||
    (match c.kind with
     | .sel s0 s1 _ => c.rowBytes % 4 != 0 || c.srcStr % 4 != 0 || c.dstStr != 0 || selBad s0 s1
     | _ => false)

/-- Spaces and permissions of the two ends (R126 Table 2, R401, R402). -/
def Copy.srcSpaces (c : Copy) : List Nat := match c.kind with
  | .sel .. => [4]
  | _ => [0, 1, 2, 4]

def Copy.dstSpaces (c : Copy) : List Nat := match c.kind with
  | .sel .. => [0, 1, 2]
  | .multi _ => [1]
  | .plain => [0, 1, 2, 4]

def Copy.dstPerm (c : Copy) : BitVec 8 := match c.kind with
  | .sel _ s1 _ => permW ||| permM ||| (if s1.getLsbD 57 then permR else 0)
  | _ => permW ||| permM

/-- Alignment of a COPYSEL's records: one of the checks of R239, which follow step 2 of R396 (R402). -/
def Copy.selAlign (c : Copy) (k : Nat) : Option Trap :=
  match c.kind with
  | .sel .. => if c.dstAt 0 % 8 != 0 then some (.plain .misaligned k) else none
  | _ => none

/-- Alignment of space-4 ends (R396 step 6). -/
def Copy.alignBad (c : Copy) (a k : Nat) : Option Trap :=
  if c.src.space = 4 && !(c.srcOff.toNat % 4 = 0 && c.srcStr % 4 = 0 && c.rowBytes % 4 = 0) then some (.plain .misaligned a)
  else if c.dst.space = 4 && !(c.dstOff.toNat % 4 = 0 && c.dstStr % 4 = 0 && c.rowBytes % 4 = 0) then
    some (.plain .misaligned k)
  else none

/-- Steps 2 to 6 of R396. -/
def Ctx.copyChecks (x : Ctx) (c : Copy) (i : Instr) (a b k : Nat) : Option Trap :=
  let srcRows := (List.range c.rows).map c.srcAt
  let dstRows := (List.range c.outRows).map c.dstAt
  if x.descBad c b then some (illegal (opcOf i))
  else
    match (c.selAlign k).or (x.endCheck a c.srcSpaces (permR ||| permM) srcRows c.rowBytes) with
    | some t => some t
    | none =>
      match x.endCheck k c.dstSpaces c.dstPerm dstRows c.outBytes with
      | some t => some t
      | none =>
        match (match c.kind with
          | .multi m => x.maskCheck k m
          | _ => none) with
        | some t => some t
        | none =>
          let pk := c.f.pk.toNat
          let bad := if c.ph.isSome then x.phCheck pk permW ((x.w.getK pk).base + 16 * c.f.obj.toNat) else none
          bad.or (c.alignBad a k)

/-- Is there room in the core's copy queue: one entry is the progress team's (R140). Open points: DEDUCED, log 37. -/
def State.copyRoom (s : State) (e : Env) : Bool :=
  let n := countT s.copies fun _ c => c.core == e.t.core && c.st == .queued
  n < (if s.progressTeam e.t.core == some e.tid then Config.copyQueue else Config.copyQueue - 1)

/-- The token of a copy (R311). -/
def CopyF.token (f : CopyF) : Option Nat := if f.mode = .ph then none else some f.tok.toNat

/-- A copy instruction: checks, queue entry, token, promise (R396, R142). Open points: DESIGN CHOICE, log 4. -/
def Ctx.copyIssue (x : Ctx) (kind : CopyKind) (f : CopyF) (i : Instr) (d a b k : Nat) : Res :=
  let c := x.copyOf kind f a b k
  match x.copyChecks c i a b k with
  | some t => .trap t
  | none =>
    match x.endPeer a ((List.range c.rows).map c.srcAt) c.rowBytes with
    | some r => r
    | none =>
      match x.endPeer k ((List.range c.outRows).map c.dstAt) c.outBytes with
      | some r => r
      | none =>
        if !(x.s.copyRoom x.e && x.w.canCount (CopyF.token f)) then .stall
        else
          let (id, s) := x.s.fresh
          let p := w64 (s.clock + Nat.min (Config.freePromise s.freeIdx).toNat (2 ^ 32))
          let s := { s with freeIdx := s.freeIdx + 1, copies := Tbl.put s.copies id { c with promise := p } }
          .done (s.updWeave x.e.wid fun w => (w.countUp (CopyF.token f)).setS d p)

/-- COPY (R395–R397). -/
def execCopy (h : Hd) (f : CopyF) (d a b c : Nat) (s : State) : Host.Outcome State Fault Refusal :=
  issue (.copy h f d a b c) s fun x => x.copyIssue .plain f (.copy h f d a b c) d a b c

/-- COPYM (R395–R397, R401). -/
def execCopym (h : Hd) (f : CopyF) (d a b c : Nat) (tmask : BitVec 8) (s : State) : Host.Outcome State Fault Refusal :=
  issue (.copym h f d a b c tmask) s fun x => x.copyIssue (.multi tmask) f (.copym h f d a b c tmask) d a b c

/-- COPYSEL (R395, R396, R402). -/
def execCopysel (h : Hd) (f : CopyF) (d a b c : Nat) (s : State) : Host.Outcome State Fault Refusal :=
  issue (.copysel h f d a b c) s fun x =>
    x.copyIssue (.sel (x.w.getS (b + 4)) (x.w.getS (b + 5)) (x.w.getS (b + 6))) f (.copysel h f d a b c) d a b c

/-! ### Where bytes lie (R128, R139, R396) -/

/-- A location that holds nothing: where a team has gone. -/
def noLoc : Loc := .virt 0

/-- One piece of a tile: the number of its destination, the place of its first byte in the tile, the team of a COPYM, its
address and length. It lies in one granule. -/
structure Piece where
  dest  : Nat
  first : Nat
  team  : Option Nat
  addr  : Nat
  len   : Nat
  deriving DecidableEq, Repr

/-- The name of a piece among those that a copy writes. -/
def Piece.key (p : Piece) : Nat := p.dest * 2 ^ 40 + p.first

/-- The pieces of rows at one end, in row order. -/
def rowPieces (dest : Nat) (team : Option Nat) (rows n : Nat) (at_ : Nat → Nat) : List Piece :=
  (List.range rows).flatMap fun r => (chunksOf (at_ r) n).map fun (a, len) =>
    { dest := dest, first := r * n + (a - at_ r), team := team, addr := a, len := len }

def Copy.srcPieces (c : Copy) : List Piece := rowPieces 0 none c.rows c.rowBytes c.srcAt

/-- The pieces of every destination. -/
def Copy.dstPieces (c : Copy) : List Piece :=
  c.dests.zipIdx.flatMap fun (team, i) => rowPieces i team c.outRows c.outBytes c.dstAt

/-- Where a copy keeps the translation of a granule for a kind of access. -/
def xlKey (lva kind : Nat) : Nat := lva / 64 * 2 + kind

/-- The LVA of a piece of an end in local global memory. -/
def State.lvaHere (s : State) (c : Copy) (cap : Cap) (p : Piece) : Option Nat :=
  if p.team.isNone && cap.space == 0 && p.addr / 2 ^ 55 == s.ownPeer c.part then some (p.addr % 2 ^ 55) else none

/-- Where a piece of one end lies, as far as it is translated (R128, R129: the resources of the issuing weave). -/
def State.pieceLoc (s : State) (c : Copy) (cap : Cap) (kind : Nat) (p : Piece) : Option Loc :=
  let inTeam (j a : Nat) : Loc := match s.teamOf c.cohort j with
    | some t => .spad t a
    | none => noLoc
  match p.team with
  | some j => some (inTeam j p.addr)
  | none =>
    match cap.space with
    | 1 => some (.spad c.team p.addr)
    | 2 => some (inTeam (p.addr / cohortStride) (p.addr % cohortStride))
    | 4 => some (.acc c.team (p.addr / 4))
    | _ =>
      if p.addr / 2 ^ 55 != s.ownPeer c.part then some (.remote (BitVec.ofNat 9 (p.addr / 2 ^ 55)) (BitVec.ofNat 55 p.addr))
      else (Tbl.find c.xl (xlKey (p.addr % 2 ^ 55) kind)).map fun g => .mem (g * 64 + p.addr % 64)

/-- Why a granule cannot be moved: it waits, or its access has a fault. -/
inductive Halt where
  | wait
  | fault (kind lva : Nat) (e : XErr)
  deriving DecidableEq, Repr

/-- Translates a granule for a copy, which keeps the translation: on acceptance, and after a fault of it is served (R396,
R139). -/
def State.copyXl (s : State) (id part core lva kind : Nat) : Except Halt (Nat × State) :=
  match s.xlate (coreDie core) part lva kind with
  | .error .held => .error .wait
  | .error e => .error (.fault kind lva e)
  | .ok pa => .ok (pa, (s.fillTlb (coreDie core) part lva).updCopy id fun c => { c with xl := Tbl.put c.xl (xlKey lva kind) (pa / 64) })

/-- The location of a piece, translated now if it has not been before. -/
def State.placePiece (s : State) (id : Nat) (c : Copy) (cap : Cap) (kind : Nat) (p : Piece) : Except Halt (Loc × State) :=
  match s.pieceLoc c cap kind p with
  | some l => .ok (l, s)
  | none => (s.copyXl id c.part c.core (p.addr % 2 ^ 55) kind).map fun r => (.mem r.1, r.2)

/-- Does memory stop an access of a kind: an uncorrectable granule that is read, a failed stack, memory that is not ready
(R14, R260). -/
def State.locStop (s : State) (kind lva : Nat) : Loc → Option Halt
  | .mem pa =>
    if s.memSt pa = .failed ∨ (kind = 0 ∧ s.eccBad pa) then some (.fault kind lva (.unresolvable true))
    else if s.memSt pa = .held then some .wait
    else none
  | _ => none

/-! ### Reading (R141, R397) -/

/-- Where the old records of an ACCUM COPYSEL are kept in `got`. -/
def oldBase : Nat := 2 ^ 40

/-- The `n` bytes from a place of the tile on, once all of them have been read. -/
def Copy.bytesAt (c : Copy) (base n : Nat) : Option (List (BitVec 8)) := (List.range n).mapM fun i => Tbl.find c.got (base + i)

def Copy.accum (c : Copy) : Bool := match c.kind with
  | .sel _ s1 _ => s1.getLsbD 57
  | _ => false

/-- What the engine of a copy asks of a peer: it travels in the copy's class (R397). -/
def Copy.ask (c : Copy) (id : Nat) (peer : BitVec 9) : Ask :=
  { owner := .copy id, scopeH := c.scopeH, part := c.part, core := c.core, peer := peer, cls := c.f.cls, scope := c.f.scope, path := .cp
    ident := c.ident }

/-- A granule has been read: its bytes go to every piece in it that has none yet (R141: once). -/
def State.takeGranule (s : State) (id : Nat) (cap : Cap) (ps : List Piece) (base : Nat) (l : Loc) (bs : List (BitVec 8)) :
    State :=
  s.updCopy id fun c =>
    { c with got := ps.foldl (fun g p =>
        match s.pieceLoc c cap 0 p with
        | some q =>
          if q.granule == l.granule then
            ((bs.drop q.inGranule).take p.len).zipIdx.foldl (fun g (b, j) =>
              if (Tbl.find g (base + p.first + j)).isSome then g else Tbl.put g (base + p.first + j) b) g
          else g
        | none => g) c.got }

/-- Reads the granule of a source piece, or with `old` that of an old record (R244). -/
def State.readPiece (id : Nat) (old : Bool) (s : State) (p : Piece) : State × Option Halt :=
  match Tbl.find s.copies id with
  | none => (s, none)
  | some c =>
    let cap := if old then c.dst else c.src
    let base := if old then oldBase else 0
    let ps := if old then c.dstPieces else c.srcPieces
    if (c.bytesAt (base + p.first) p.len).isSome then (s, none)
    else
      match s.placePiece id c cap 0 p with
      | .error h => (s, some h)
      | .ok (l, s) =>
        match l with
        | .remote peer lva =>
          match s.farRead (c.ask id peer) (lva.toNat / 64) with
          | .wait s => (s, some .wait)
          | .error => (s, some .wait)
          | .bytes bs => (s.takeGranule id cap ps base l bs, none)
        | l =>
          match s.locStop 0 (p.addr % 2 ^ 55) l with
          | some h => (s, some h)
          | none => (s.takeGranule id cap ps base l (s.locBytes l.granule 64), none)

/-- What a copy writes at place `i` of each destination, once it is known: the bytes it has read, or its records. -/
def Copy.out (c : Copy) : Nat → Option (BitVec 8) :=
  match c.kind with
  | .sel s0 s1 s2 =>
    match c.bytesAt 0 (c.rows * c.rowBytes), (if c.accum then c.bytesAt oldBase c.count else some []) with
    | some src, some old =>
      let t := selTile (selPar s0 s1 s2) c.rows c.rowBytes src old
      fun i => t[i]?
    | _, _ => fun _ => none
  | _ => fun i => Tbl.find c.got i

/-- The bytes of a piece, once they are all known. -/
def Copy.pieceOut (c : Copy) (p : Piece) : Option (List (BitVec 8)) := (List.range p.len).mapM fun i => c.out (p.first + i)

/-! ### Writing (R141, R397) -/

/-- Do destination pieces of two copies lie in one granule: as far as both are translated by where they lie, else by their
addresses. Open points: DEDUCED, log 37. -/
def State.sameGranule (s : State) (o : Copy) (q : Piece) (c : Copy) (p : Piece) : Bool :=
  match s.pieceLoc o o.dst 1 q, s.pieceLoc c c.dst 1 p with
  | some l, some m => l.granule == m.granule
  | _, _ => o.part == c.part && (match s.lvaHere o o.dst q, s.lvaHere c c.dst p with
    | some a, some b => a / 64 == b / 64
    | _, _ => false)

/-- Does a copy `o` write the granule of a destination piece of another, or with `left` has it still to write it. -/
def State.copyHits (s : State) (o c : Copy) (p : Piece) (left : Bool) : Bool :=
  o.dstPieces.any fun q => !(left && o.put.contains q.key) && s.sameGranule o q c p

/-- Has an earlier copy of the same engine the granule of a piece still to write (R141: queue order). -/
def State.copyAfter (s : State) (id : Nat) (c : Copy) (p : Piece) : Bool :=
  s.copies.any fun (k, o) => k < id && o.core == c.core && o.st == .accepted && s.copyHits o c p true

/-- Writes bytes at a location of the module, past the L1 lines (R133). -/
def State.putPiece (s : State) (l : Loc) (bs : List (BitVec 8)) : State := s.locWrite l bs

/-- A piece of a copy has been written. -/
def State.markPut (s : State) (id : Nat) (ps : List Piece) : State :=
  s.updCopy id fun c => { c with put := ps.map Piece.key ++ c.put }

/-- Writes the granule of a destination piece with all that goes there, in row order, once it is known (R397). -/
def State.writePiece (id : Nat) (s : State) (p : Piece) : State × Option Halt :=
  match Tbl.find s.copies id with
  | none => (s, none)
  | some c =>
    if c.put.contains p.key then (s, none)
    else
      match s.placePiece id c c.dst 1 p with
      | .error h => (s, some h)
      | .ok (l, s) =>
        let c := (Tbl.find s.copies id).getD c
        let mine := c.dstPieces.filterMap fun q =>
          match s.pieceLoc c c.dst 1 q with
          | some m => if m.granule == l.granule then some (q, m) else none
          | none => none
        match mine.mapM fun x => (c.pieceOut x.1).map fun bs => (x.2, bs) with
        | none => (s, some .wait)
        | some ws =>
          if s.copyAfter id c p then (s, some .wait)
          else
            match l with
            | .remote peer lva =>
              let accs := ws.flatMap fun w => match w.1 with
                | .remote _ a => writeAccs a.toNat w.2
                | _ => []
              let s := s.ask (c.ask id peer) accs
              if (s.legAt (.copy id) peer (lva.toNat / 64) true).isSome then (s.markPut id (mine.map (·.1)), none)
              else (s, some .wait)
            | l =>
              match s.locStop 1 (p.addr % 2 ^ 55) l with
              | some h => (s, some h)
              | none => ((ws.foldl (fun s w => s.putPiece w.1 w.2) s).markPut id (mine.map (·.1)), none)

/-! ### Acceptance (R140, R141, R244, R265) -/

/-- The granules of local memory that a copy needs translated, with the kind of access. -/
def State.copyWants (s : State) (c : Copy) : List (Nat × Nat) :=
  let at_ (cap : Cap) (kind : Nat) (ps : List Piece) := ps.filterMap fun p => (s.lvaHere c cap p).map fun a => (a, kind)
  at_ c.src 0 c.srcPieces ++ (if c.accum then at_ c.dst 0 c.dstPieces else []) ++ at_ c.dst 1 c.dstPieces

/-- Translates what of a copy can be translated now (R396). -/
def State.translateCopy (s : State) (id : Nat) (c : Copy) : State :=
  (s.copyWants c).foldl (fun s w =>
    match s.copyXl id c.part c.core w.1 w.2 with
    | .ok r => r.2
    | .error _ => s) s

/-- Have all live groups of a cohort halted (R265). -/
def State.allHalted (s : State) (cid : Nat) : Bool :=
  s.weaves.all fun (_, w) => match s.team w.team with
    | some t => t.cohort != cid || w.groups.all (·.halted)
    | none => true

/-- Are queued copies of the cohort no longer accepted: once all its weaves have halted for a save (R265). -/
def State.copyHeld (s : State) (c : Copy) : Bool :=
  match s.cohort c.cohort with
  | some h => (h.st == .halting && s.allHalted c.cohort) || h.st == .saving || h.st == .saved
  | none => false

/-- Does an earlier copy of the same engine that is not complete write records that an ACCUM COPYSEL reads (R244, R402). -/
def State.accumBehind (s : State) (id : Nat) (c : Copy) : Bool :=
  let c := (Tbl.find (s.translateCopy id c).copies id).getD c
  c.accum && c.dstPieces.any fun p => s.copies.any fun (k, o) =>
    k < id && o.core == c.core && o.st == .accepted && s.copyHits o c p false

/-- Moves pieces in their order; at a fault the copy pauses (R139), past a granule that waits it goes on. -/
def movePieces (f : State → Piece → State × Option Halt) : List Piece → State → State × Option Halt
  | [], s => (s, none)
  | p :: r, s =>
    match f s p with
    | (s, some (.fault k l e)) => (s, some (.fault k l e))
    | (s, some .wait) => movePieces f r s
    | (s, none) => movePieces f r s

/-- COPY_ACCEPT: the engine of a core accepts its next queued copy, translates its granules and reads the old records of an
ACCUM COPYSEL. Open points: DEDUCED, log 37 and 39. -/
def execCopyAccept (core : Nat) (s : State) : Host.Outcome State Fault Refusal :=
  .next (
    let active := countT s.copies fun _ c => c.core == core && c.st == .accepted
    match s.copies.find? fun (_, c) => c.core == core && c.st == .queued && !s.copyHeld c with
    | none => s
    | some (id, c) =>
      if active ≥ Config.copyActive || s.accumBehind id c then s
      else
        let s := (s.updCopy id fun c => { c with st := .accepted }).translateCopy id c
        if c.accum then (movePieces (State.readPiece id true) c.dstPieces s).1 else s)

/-! ### Completion and failure (R398) -/

/-- The copy leaves the engine: its token falls; an error goes to its weave's next header, and to the record of a
cancellation of its scope (R398, R91). Open points: DEDUCED, log 37. -/
def State.endCopy (s : State) (id : Nat) (c : Copy) (d : Option Deferred) : State :=
  let s := if d.isSome then s.noteStatus c.part c.scopeH 4 else s
  let s := s.updWeave c.weave fun w =>
    let w := w.countDown (CopyF.token c.f)
    match d with
    | some x => w.defer x
    | none => w
  { s with copies := Tbl.del s.copies id }.dropLegs (.copy id)

/-- A value for each byte of a failed copy's destination that it does write: what it would have written where that is known,
else a free value (R398). -/
def failedByte (c : Copy) (free i : Nat) : BitVec 8 := (c.out i).getD (Config.freeByte (free + i))

/-- Writes the bytes of one piece that the free choice takes; accumulator elements whole. -/
def State.scatterPiece (c : Copy) (free : Nat) (s : State) (p : Piece) : State :=
  match s.pieceLoc c c.dst 1 p with
  | none => s
  | some l =>
    if l.isRemote || c.put.contains p.key then s
    else
      (List.range p.len).foldl (fun (s : State) (i : Nat) =>
        if Config.freeWritten (free + p.first + i) then
          match l with
          | .acc _ _ =>
            if i % 4 = 0 then s.putPiece (l.at i) ((List.range 4).map fun j => failedByte c free (p.first + i + j)) else s
          | l => s.putPiece (l.at i) [failedByte c free (p.first + i)]
        else s) s

/-- A failed copy writes an unknown subset of its destination (R398). Open points: DESIGN CHOICE, log 4. -/
def State.scatter (s : State) (c : Copy) : State :=
  let free := s.freeIdx
  let s := c.dstPieces.foldl (State.scatterPiece c free) s
  { s with freeIdx := free + c.count }

/-- A copy fails. -/
def State.failCopy (s : State) (id : Nat) (c : Copy) (d : Deferred) : State := (s.scatter c).endCopy id c (some d)

/-- The fault that stops a copy goes to the fault service, or fails the copy (R139). -/
def State.copyFault (s : State) (id : Nat) (c : Copy) (kind lva : Nat) (e : XErr) : State :=
  match e with
  | .held => s
  | .resolvable =>
    let (fid, s) := s.raise c.part lva kind .cp (s.ownPeer c.part) (srcCore c.ident.coreNum) (.copy id) none false
    s.updCopy id fun c => { c with fault := some fid }
  | .unresolvable ecc => s.failCopy id c (.copyPage kind ecc)

/-- Do the weave's phase operations from before the copy still wait (R399). -/
def State.arrivalEarly (s : State) (id : Nat) (c : Copy) : Bool :=
  c.ph.isSome && someT s.phOps fun k o => k < id && o.weave == c.weave

/-- Does a core lie in the scope of a copy's completion: at cohort scope at least where a phase object takes it (R140). -/
def Copy.seenBy (c : Copy) (core : Nat) : Bool :=
  match (if c.ph.isSome && Scope.num c.f.scope < 1 then Scope.coh else c.f.scope) with
  | .team => core == c.core
  | .coh => coreCg core == coreCg c.core
  | .die => coreDie core == coreDie c.core
  | _ => true

/-- What a copy has written at one destination is visible on the LS path at its scope (R140). -/
def State.publishCopy (s : State) (c : Copy) (i : Nat) : State :=
  (c.dstPieces.filter (·.dest == i)).foldl (fun s p =>
    match s.pieceLoc c c.dst 1 p with
    | some l => s.patch l p.len fun x => x.path == .ls && c.seenBy x.core
    | none => s) s

/-- The arrival of one complete destination of a copy (R398, R401). -/
def State.copyArrive (s : State) (c : Copy) : State :=
  match c.ph with
  | none => s
  | some a =>
    s.phApply { part := c.part, inst := phInst a.toNat, obj := phObj a.toNat, weave := c.weave, gid := 0, cohort := c.cohort
                kind := .copy c.count }

/-- Is every byte of a destination in place: written here, or acknowledged by the peer. -/
def State.destDone (s : State) (id : Nat) (c : Copy) (i : Nat) : Bool :=
  (c.dstPieces.all fun p => p.dest != i || c.put.contains p.key) && !s.legsOut (.copy id)

/-- Each destination completes on its own (R401). -/
def State.finishDest (id : Nat) (s : State) (i : Nat) : State :=
  match Tbl.find s.copies id with
  | none => s
  | some c =>
    if c.arrived.contains i || !s.destDone id c i || s.arrivalEarly id c then s
    else ((s.publishCopy c i).copyArrive c).updCopy id fun c => { c with arrived := addName c.arrived i }

/-- May an accepted copy move bytes now. -/
def State.copyRuns (s : State) (id : Nat) (c : Copy) : Bool :=
  c.st == .accepted && c.fault.isNone && c.err.isNone && (s.legError (.copy id)).isNone

/-- The engine moves what of a copy can be moved, up to a fault. -/
def State.moveCopy (s : State) (id : Nat) (c : Copy) : State × Option Halt :=
  let r := if c.accum then movePieces (State.readPiece id true) c.dstPieces s else (s, none)
  let q := match r.2 with
    | some h => (r.1, some h)
    | none => movePieces (State.readPiece id false) c.srcPieces r.1
  let w := movePieces (State.writePiece id) c.dstPieces q.1
  (w.1, q.2.or w.2)

/-- COPY_COMPLETE: what can be moved is moved, a fault pauses the copy; a destination whose bytes are all in place completes
and makes its arrival, and after the last one the token falls. -/
def execCopyComplete (id : Nat) (_ : Unit) (s : State) : Host.Outcome State Fault Refusal :=
  .next (match Tbl.find s.copies id with
    | none => s
    | some c =>
      if !s.copyRuns id c then s
      else
        match s.moveCopy id c with
        | (s, some (.fault kind lva e)) => s.copyFault id ((Tbl.find s.copies id).getD c) kind lva e
        | (s, _) =>
          let s := (List.range c.dests.length).foldl (State.finishDest id) s
          match Tbl.find s.copies id with
          | some c => if c.arrived.length = c.dests.length then s.endCopy id c none else s
          | none => s)

/-- COPY_FAIL: an unresolvable fault that the fault service reported, or an error of a remote leg (R398, R40).
Open points: DEDUCED, log 37. -/
def execCopyFail (id : Nat) (err : CopyErr) (s : State) : Host.Outcome State Fault Refusal :=
  .next (match Tbl.find s.copies id with
    | none => s
    | some c =>
      if c.st != .accepted then s
      else
        match err with
        | .page _ =>
          match c.err with
          | some (kind, ecc) => s.failCopy id c (.copyPage kind ecc)
          | none => s
        | .remote peer =>
          if s.legError (.copy id) = some peer then s.failCopy id c (.copyRemote peer c.f.cls) else s)

/-! ### Moving part of a copy early (R141) -/

/-- An accepted copy reads the source granule that holds byte `i` of its tile. -/
def State.copyReadNow (s : State) (id i : Nat) : State :=
  match Tbl.find s.copies id with
  | none => s
  | some c =>
    if !s.copyRuns id c then s
    else
      match c.srcPieces.find? fun p => p.first ≤ i && i < p.first + p.len with
      | none => s
      | some p => (s.readPiece id false p).1

/-- An accepted copy writes the destination granules that hold byte `i`; a COPYSEL writes on completion (R402). -/
def State.copyWriteNow (s : State) (id i : Nat) : State :=
  match Tbl.find s.copies id with
  | none => s
  | some c =>
    if !s.copyRuns id c then s
    else
      match c.kind with
      | .sel .. => s
      | _ => (c.dstPieces.filter fun p => p.first ≤ i && i < p.first + p.len).foldl (fun s p => (s.writePiece id p).1) s

/-- Queued copies of fields under marked scopes are dropped: no data, no arrivals (R91); how many. -/
def State.dropCopies (s : State) (f : Copy → Bool) : State × Nat :=
  let ids := keysOf s.copies fun _ c => c.st == .queued && f c
  (ids.foldl (fun s id => match Tbl.find s.copies id with
    | some c => s.endCopy id c none
    | none => s) s, ids.length)

end Sys2Proof.Machine
end

