-- ==== Sys2Proof/Machine/Fabric.lean ====
section
/-! DEFINITION. The fabric at both ends: packets that leave for a peer, what comes back for them, and requests that
arrive from peers (R33–R41, R44, R46, R47, R104). -/

namespace Sys2Proof.Machine

open Sys2Proof

/-! ### The source (R35–R41) -/

/-- The values of an answered packet, in the order of its accesses. -/
def LsOp.fill (p : LsOp) (is : List Nat) (vs : List (BitVec 128 × Bool)) : LsOp :=
  { p with accs := is.zipIdx.foldl (fun accs (i, j) =>
      match accs[i]? with
      | some a =>
        let v := vs.getD j (0, false)
        accs.set i { a with got := some (BitVec.ofNat 128 (v.1.toNat % 256 ^ a.size), v.2) }
      | none => accs) p.accs }

/-- A packet has ended with an error: its accesses are lost (R40). -/
def State.ottError (s : State) (id : Nat) (o : Ott) : State :=
  let s := s.updLs o.op fun p => { p.fill o.accs [] with err := p.err.or (some o.peer) }
  State.finishIfDone { s with ott := Tbl.del s.ott id } o.op

/-- Have 2 µs passed since a request was heard of last (R40). -/
def State.overtime (s : State) (heard : Nat) : Bool := s.clock ≥ heard + 2 * Config.us

/-- The values of a packet have come in time (R37, R39, R378). -/
def State.ottValues (s : State) (id : Nat) (o : Ott) (vs : List (BitVec 128 × Bool)) (mismatch : Bool) : State :=
  match Tbl.find s.lsOps o.op with
  | none => { s with ott := Tbl.del s.ott id }
  | some p =>
    let acq : Bool := p.sem == .acq || p.sem == .acqrel
    let s := s.updLs o.op fun p => p.fill o.accs vs
    let s := if !acq then s else if mismatch then s.sticky p.weave wsMismatch else s.acquireAt p.ident.coreNum
    State.finishIfDone { s with ott := Tbl.del s.ott id } o.op

/-- REMOTE_RESPONSE_ARRIVAL: the entry frees and the accesses have performed (R37, R39, R378); an engine's request has its
answer. A request of which nothing was heard for 2 µs has ended with an error before (R40). -/
def execRemoteResponseArrival (ott : Nat) (r : Reply) (s : State) : Host.Outcome State Fault Refusal :=
  .next (match Tbl.find s.ott ott with
    | some o =>
      if !o.sent then s
      else
        match r with
        | .values vs mismatch => if s.overtime o.heard then s.ottError ott o else s.ottValues ott o vs mismatch
        | .error => s.ottError ott o
    | none =>
      match Tbl.find s.legs ott with
      | some l => if l.answer.isSome then s else s.legAnswer ott l (if s.overtime l.heard then .error else r)
      | none => s)

/-- HOLD_NOTICE_ARRIVAL: the 2 µs start anew (R41), unless they have passed. -/
def execHoldNoticeArrival (ott : Nat) (s : State) : Host.Outcome State Fault Refusal :=
  .next (match Tbl.find s.ott ott with
    | some o =>
      if !o.sent then s
      else if s.overtime o.heard then s.ottError ott o
      else { s with ott := Tbl.put s.ott ott { o with heard := s.clock } }
    | none =>
      match Tbl.find s.legs ott with
      | some l =>
        if l.answer.isSome then s
        else if s.overtime l.heard then s.legAnswer ott l .error
        else { s with legs := Tbl.put s.legs ott { l with heard := s.clock } }
      | none => s)

/-- REMOTE_REQUEST_TIMEOUT: 2 µs without a response or a hold notice (R40). -/
def execRemoteRequestTimeout (ott : Nat) (s : State) : Host.Outcome State Fault Refusal :=
  .next (match Tbl.find s.ott ott with
    | some o => if o.sent && s.overtime o.heard then s.ottError ott o else s
    | none =>
      match Tbl.find s.legs ott with
      | some l => if l.answer.isNone && s.overtime l.heard then s.legAnswer ott l .error else s
      | none => s)

/-- STALL_RESUME: a stalled group issues its instruction again (R104). -/
def execStallResume (weave gid : Nat) (s : State) : Host.Outcome State Fault Refusal :=
  .next (s.updWeave weave fun w => w.updGroup gid fun g =>
    if g.sleep = .stall && !g.halted then { g with sleep := .awake } else g)

/-! ### The target (R33, R35, R41, R44, R46) -/

/-- The peer number of the source as the target partition sees it, if its table accepts the source (R33): VALID, ENABLE,
the module and the partition match, and the partition is in RUN (R60). Of several such entries the lowest number counts.
Open points: DESIGN CHOICE, log 67. -/
def State.acceptsFrom (s : State) (p : Packet) : Option Nat :=
  if (s.part p.dstPart).tdi != .run then none
  else (List.range 512).find? fun e =>
    let v := s.peerEnt p.dstPart e
    entValid v && entEnable v && entPhys v == p.srcPhys && entPart v == p.srcPart

/-- KIND of a request's access (R138). -/
def reqKind : ReqOp → Nat
  | .read => 0
  | .fetch => 3
  | .write _ _ => 1
  | .atom .. => 2

/-- What a request needs translated: its accesses, and an STF's flag. -/
def packetWants (p : Packet) : List (BitVec 55 × Nat) :=
  p.accs.map (fun a => (a.lva, reqKind a.op)) ++ (p.flag.map fun f => (f, 2)).toList

/-- The die whose TLB serves requests from peers. Open points: DESIGN CHOICE, log 65. -/
def inboundDie : Nat := 0

/-- The target's translations of all of them, in order. -/
def State.reqLocs (s : State) (part : Nat) : List (BitVec 55 × Nat) → Except XFault (List Nat)
  | [] => .ok []
  | (lva, kind) :: r =>
    match s.xlateLs inboundDie part lva.toNat kind 0 with
    | .error (.resolvable l _) => .error (.resolvable l kind)
    | .error f => .error f
    | .ok pa =>
      match s.reqLocs part r with
      | .error f => .error f
      | .ok ps => .ok (pa :: ps)

/-- Performs the accesses of a request in increasing lane order; an STF adds one to its flag after each store. -/
def State.performReq (s : State) (p : Packet) (locs : List Nat) : State × List (BitVec 128 × Bool) :=
  let rel : Option Rel := if p.rel then some (Rel.by_ p.scope p.ident) else none
  let flagPa := locs.getD p.accs.length 0
  p.accs.zipIdx.foldl (fun (s, vs) (a, i) =>
    let l : Loc := .mem (locs.getD i 0)
    let r := s.doAcc l a.size a.op rel fun _ => false
    let s := if p.flag.isSome then
        (r.1.doAcc (.mem flagPa) 8 (.atom .add 1 0) (some (Rel.by_ .mod (s.deviceIdent p.dstPart)))
          fun _ => false).1
      else r.1
    (s, vs ++ [r.2])) (s, [])

/-- Does an earlier OM request of the same core wait here (R35). -/
def State.omWaits (s : State) (id : Nat) (p : Packet) : Bool :=
  p.cls == .om && someT s.inbound fun k q =>
    k < id && q.pkt.cls == .om && q.pkt.srcPhys == p.srcPhys && q.pkt.ident.coreNum == p.ident.coreNum

/-- The link session of what the target sends back: the one that its entry for the source names; without such an entry the
request's. Open points: DESIGN CHOICE, log 67. -/
def State.replySession (s : State) (p : Packet) : Nat :=
  match s.acceptsFrom p with
  | some e => entSession (s.peerEnt p.dstPart e)
  | none => p.session

/-- How what the target sends back travels: in the request's class (R34), protected under a session (R47), from the die that serves
requests as from that of its cores which bears the source core's number. Open points: DESIGN CHOICE, log 67. -/
def State.replyWire (s : State) (p : Packet) : Wire × State :=
  s.takeWireTo p.dstPart (inboundDie * 64 + p.ident.coreNum % 64) p.srcPhys (s.replySession p) p.cls

/-- The answer to a held request leaves (R46). -/
def State.answer (s : State) (id : Nat) (p : Packet) (r : Reply) : State :=
  let (w, s) := s.replyWire p
  State.emit { s with inbound := Tbl.del s.inbound id } (.response p r w)

/-- A request that is performed: its dies are accessed (R21), and the answer leaves. -/
def State.serveReq (s : State) (id : Nat) (p : Packet) (locs : List Nat) : State :=
  let mm := p.acq && p.accs.zipIdx.any fun (a, i) => s.mismatched (.mem (locs.getD i 0)) a.size p.scope p.ident
  let s := (packetWants p).foldl (fun s w => s.fillTlb inboundDie p.dstPart w.1.toNat) (locs.foldl State.touch s)
  let r := s.performReq p locs
  r.1.answer id p (.values r.2 mm)

/-- Tries to perform a request that is held: it waits for its turn, for a key of the session under which its answer leaves (R47), for
memory and for the fault service. -/
def State.tryInbound (s : State) (id : Nat) : State :=
  match Tbl.find s.inbound id with
  | none => s
  | some q =>
    let p := q.pkt
    if q.fault.isSome || s.omWaits id p then s
    else
      match s.acceptsFrom p with
      | none => State.emit (s.answer id p .error) (.rejected p)
      | some peer =>
        if !s.sessionOpen (s.replySession p) then s
        else
        match s.reqLocs p.dstPart (packetWants p) with
        | .error (.page _ _) => s.answer id p .error
        | .error .held => s
        | .error (.resolvable lva kind) =>
          let (fid, s) := s.raise p.dstPart lva kind p.path peer (srcCore p.ident.coreNum) (.inbound id) none false
          { s with inbound := Tbl.upd s.inbound id fun q => { q with fault := some fid } }
        | .ok locs =>
          if locs.all fun pa => s.memSt pa != .held then s.serveReq id p locs else s

/-- Tries every held request, oldest first. -/
def State.serveInbound (s : State) : State := (Tbl.keys s.inbound).foldl State.tryInbound s

/-- REMOTE_REQUEST_ARRIVAL: the request takes its turn; then it is rejected, or performed once it may be (R33, R35).
Open points: DESIGN CHOICE, log 55. -/
def execRemoteRequestArrival (p : Packet) (s : State) : Host.Outcome State Fault Refusal :=
  .next (
    let (id, s) := s.fresh
    State.serveInbound
      { s with inbound := Tbl.put s.inbound id { pkt := p, fault := none, since := s.clock, noticed := false } })

/-- HOLD_NOTICE_SEND: for a request held longer than 1 µs, and again at any time after, at least once in each microsecond
(R41), protected like the response (R47). -/
def execHoldNoticeSend (req : Nat) (s : State) : Host.Outcome State Fault Refusal :=
  .next (match Tbl.find s.inbound req with
    | some q =>
      if (q.noticed || s.clock > q.since + Config.us) && s.sessionOpen (s.replySession q.pkt) then
        let (w, s) := s.replyWire q.pkt
        State.emit { s with inbound := Tbl.put s.inbound req { q with noticed := true } } (.holdNotice req w)
      else s
    | none => s)

/-- RT_FORWARD: an intermediate module sends a packet on unread, on its second leg (R34).
Open points: DESIGN CHOICE, log 64. -/
def execRtForward (p : Packet) (s : State) : Host.Outcome State Fault Refusal :=
  .next (if p.cls = .rt then s.emit (.forwarded p) else s)

/-- KEY_UPDATE: an established link session takes its next keys, without loss of traffic; its sequence numbers start anew
(R47). Open points: DESIGN CHOICE, log 67. -/
def execKeyUpdate (session : Nat) (s : State) : Host.Outcome State Fault Refusal :=
  .next (match Tbl.find s.hd.linkSessions session with
    | some x =>
      State.emit { s with hd := { s.hd with linkSessions := Tbl.put s.hd.linkSessions session { x with gen := x.gen + 1, seq := 0 } } }
        (.keyUpdate session)
    | none => s)

end Sys2Proof.Machine
end

