-- ==== Sys2Proof/Machine/Pool.lean ====
section
/-! DEFINITION. The Umber unit: the access of the KV path to memory and to pages at peers, pools and their configuration,
allocation and return of pages, borrowing and lending (R160, R184, R186–R191). -/

namespace Sys2Proof.Machine

open Sys2Proof

/-! ### Memory as the KV path reaches it -/

/-- Why a step of the KV path cannot be performed now: a translation at an LVA for a kind of access; no page for the
page-table entry at an LVA (R188), or a pool that asks its lenders first (R189); a granule at a peer that must be read, a peer
that cannot be reached, or one that has answered with an error (R184, R32, R40); or a wait (R14, R189). -/
inductive KErr where
  | xl (e : XErr) (lva kind : Nat)
  | alloc (pte : Nat)
  | borrow (pool : Nat)
  | far (peer : BitVec 9) (granule : Nat)
  | peer (peer : BitVec 9) (why : PeerErr)
  | remote (peer : BitVec 9)
  | wait
  deriving DecidableEq, Repr

/-- What a step of the KV path answers. -/
abbrev KM (α : Type) := Except KErr α

/-- Where an LVA of the own module lies, for an agent on a die. -/
def State.kvPa (s : State) (die part lva kind : Nat) : KM Nat :=
  match s.xlate die part lva kind with
  | .error .held => .error .wait
  | .error e => .error (.xl e lva kind)
  | .ok pa =>
    if s.memSt pa = .failed ∨ (kind = 0 ∧ s.eccBad pa) then .error (.xl (.unresolvable true) lva kind)
    else if s.memSt pa = .held then .error .wait
    else .ok pa

/-- Bytes at an LVA of the own module, as they are at their home. -/
def State.ownRead (s : State) (die part lva n : Nat) : KM (List (BitVec 8)) :=
  (chunksOf lva n).foldlM (fun acc c => (s.kvPa die part c.1 0).map fun pa => acc ++ Memory.reads s.mem pa c.2) []

/-- Writes bytes at an LVA of the own module. -/
def State.ownWrite (s : State) (die part lva : Nat) (bs : List (BitVec 8)) : KM State :=
  (chunksOf lva bs.length).foldlM (fun (s : State) c =>
    (s.kvPa die part c.1 1).map fun pa => s.locWrite (.mem pa) ((bs.drop (c.1 - lva)).take c.2)) s

/-- On whose behalf the KV path reaches memory: the partition, the core — its die's TLB serves, and it numbers the port (R34) —,
whether lines staged for the core may serve, the owner, the scope's handle and the path of requests to peers, and the identity. -/
structure Site where
  part   : Nat
  core   : Nat
  staged : Bool
  owner  : Owner
  scopeH : W32
  path   : Path
  ident  : Ident
  deriving DecidableEq, Repr

def Site.die (x : Site) : Nat := coreDie x.core

/-- The Umber unit of a die on no instruction's behalf (R446). -/
def State.unitSite (s : State) (part die : Nat) (o : Owner) (h : W32) : Site :=
  { part := part, core := die * 64, staged := false, owner := o, scopeH := h, path := .kv, ident := s.deviceIdent part }

/-- What the KV path asks of a peer: an OM access at domain scope (R184). -/
def Site.ask (x : Site) (peer : BitVec 9) : Ask :=
  { owner := x.owner, scopeH := x.scopeH, part := x.part, core := x.core, peer := peer, cls := .om, scope := .dom, path := x.path, ident := x.ident }

/-- A read of slots, of a page table or of a frequency table: a line staged for KV on the core may serve (R160). -/
def State.line (s : State) (x : Site) (l : Loc) (n : Nat) : List (BitVec 8) :=
  if x.staged then s.readVia x.core .kv l n else s.locBytes l n

/-- Bytes at an LVA of the own module that lines staged for KV may serve. -/
def State.lineRead (s : State) (x : Site) (lva n : Nat) : KM (List (BitVec 8)) :=
  (chunksOf lva n).foldlM (fun acc c => (s.kvPa x.die x.part c.1 0).map fun pa => acc ++ s.line x (.mem pa) c.2) []

/-- A write on the KV path follows in every line staged for KV: staleness is between paths (R150, R179). -/
def State.kvPut (s : State) (l : Loc) (bs : List (BitVec 8)) : State :=
  (s.locWrite l bs).patch l bs.length fun y => y.path == .kv

/-- Writes bytes at an LVA of the own module on the KV path. -/
def State.kvWrite (s : State) (x : Site) (lva : Nat) (bs : List (BitVec 8)) : KM State :=
  (chunksOf lva bs.length).foldlM (fun (s : State) c =>
    (s.kvPa x.die x.part c.1 1).map fun pa => s.kvPut (.mem pa) ((bs.drop (c.1 - lva)).take c.2)) s

/-- A number of the descriptor or of the state area, at its home. -/
def State.ownNum (s : State) (x : Site) (lva n : Nat) : KM Nat := (s.ownRead x.die x.part lva n).map bytesToNat

/-! ### Pages at peers (R184) -/

/-- What a request says about the byte at an address: the value it writes, or the one it has read. -/
def Leg.byteAt (l : Leg) (a : Nat) : Option (BitVec 8) :=
  l.pkt.accs.zipIdx.findSome? fun (r, i) =>
    let at_ (v : Nat) : Option (BitVec 8) := some ((natToBytes r.size v).getD (a - r.lva.toNat) 0)
    if r.lva.toNat ≤ a && a < r.lva.toNat + r.size then
      match r.op, l.answer with
      | .write d _, _ => at_ d.toNat
      | _, some (.values vs _) => at_ (vs.getD i (0, false)).1.toNat
      | _, _ => none
    else none

/-- A byte at a peer as an owner sees it: by its latest request that says something about it (R35). -/
def State.farByte (s : State) (x : Site) (peer : BitVec 9) (a : Nat) : Option (BitVec 8) :=
  s.legs.reverse.findSome? fun e => if e.2.owner == x.owner && e.2.peer == peer then e.2.byteAt a else none

/-- Does a write of another owner to the granule wait for its acknowledgement. -/
def State.farBusy (s : State) (x : Site) (peer : BitVec 9) (granule : Nat) : Bool :=
  someT s.legs fun _ l => l.owner != x.owner && l.answer.isNone && l.isAt peer granule true

/-- Bytes of one granule at a peer. A failed check of R32 is an error. Open points: DESIGN CHOICE, log 26. -/
def State.farPage (s : State) (x : Site) (peer : BitVec 9) (lva n : Nat) : KM (List (BitVec 8)) :=
  match s.peerErr x.part x.die peer.toNat with
  | some why => .error (.peer peer why)
  | none =>
    if s.farBusy x peer (lva / 64) then .error .wait
    else
      match (List.range n).mapM fun i => s.farByte x peer (lva + i) with
      | some bs => .ok bs
      | none =>
        match s.legAt x.owner peer (lva / 64) false with
        | none => .error (.far peer (lva / 64))
        | some (_, l) => .error (if l.answer = some .error then .remote peer else .wait)

/-- Owners that read on the KV path. -/
def Owner.readsKv : Owner → Bool
  | .kv _ | .void _ | .batch _ | .group _ _ => true
  | _ => false

/-- A write of bytes of one granule at a peer; what other owners have read of the granule, they read again.
Open points: DESIGN CHOICE, log 26. -/
def State.farPut (s : State) (x : Site) (peer : BitVec 9) (lva : Nat) (bs : List (BitVec 8)) : KM State :=
  match s.peerErr x.part x.die peer.toNat with
  | some why => .error (.peer peer why)
  | none =>
    if s.farBusy x peer (lva / 64) || !s.mayAsk (x.ask peer) then .error .wait
    else
      let s := { s with legs := keep s.legs fun _ l => l.owner == x.owner || !l.owner.readsKv || !l.isAt peer (lva / 64) false }
      .ok (s.ask (x.ask peer) (writeAccs lva bs))

/-! ### Pages (R184, R187) -/

/-- The pools of a partition, by key. -/
def poolKeys (part : Nat) : List Nat := (List.range 64).map fun i => part * 64 + i

/-- Where an LVA of an arena lies, by the translation that the unit keeps (R187). -/
def State.arenaPa (s : State) (part lva : Nat) : Option Nat :=
  (poolKeys part).findSome? fun k => (Tbl.find (s.pool k).trans (lva / 4096 * 4096)).map (· + lva % 4096)

/-- The key under which a page, a header or a byte at a peer is kept: the partition and a domain address. -/
def domKey (part addr : Nat) : Nat := part * 2 ^ 64 + addr

/-- Where a byte of a page lies. -/
def State.pageLoc (s : State) (x : Site) (addr kind : Nat) : KM Loc :=
  if addr / 2 ^ 55 ≠ s.ownPeer x.part then .ok (.remote (BitVec.ofNat 9 (addr / 2 ^ 55)) (BitVec.ofNat 55 addr))
  else
    match s.arenaPa x.part (addr % 2 ^ 55) with
    | some pa =>
      if s.memSt pa = .failed ∨ (kind = 0 ∧ s.eccBad pa) then .error (.xl (.unresolvable true) (addr % 2 ^ 55) kind)
      else if s.memSt pa = .held then .error .wait
      else .ok (.mem pa)
    | none => (s.kvPa x.die x.part (addr % 2 ^ 55) kind).map .mem

def State.pageRec (s : State) (part page : Nat) : PageRec :=
  (Tbl.find s.pages (domKey part page)).getD { count := 1, origin := 0, units := 0 }

/-- How many of `n` bytes from an offset on lie in a page as it was allocated: what is beyond is no part of the context's pages
(R166). -/
def State.inPage (s : State) (part page off n : Nat) : Nat := Nat.min n ((s.pageRec part page).units * 4096 - off)

/-- Bytes of a page; zero beyond it. -/
def State.pageRead (s : State) (x : Site) (page off n : Nat) : KM (List (BitVec 8)) := do
  let m := s.inPage x.part page off n
  let bs ← (chunksOf (page + off) m).foldlM (fun acc c =>
    match s.pageLoc x c.1 0 with
    | .error e => .error e
    | .ok (.remote p lva) => (s.farPage x p lva.toNat c.2).map (acc ++ ·)
    | .ok l => .ok (acc ++ s.line x l c.2)) []
  pure (bs ++ natToBytes (n - m) 0)

/-- Writes bytes at a domain address. -/
def State.domWrite (s : State) (x : Site) (addr : Nat) (bs : List (BitVec 8)) : KM State :=
  (chunksOf addr bs.length).foldlM (fun (s : State) c =>
    let piece := (bs.drop (c.1 - addr)).take c.2
    match s.pageLoc x c.1 1 with
    | .error e => .error e
    | .ok (.remote p lva) => s.farPut x p lva.toNat piece
    | .ok l => .ok (s.kvPut l piece)) s

/-- Writes bytes of a page; none beyond it. -/
def State.pageWrite (s : State) (x : Site) (page off : Nat) (bs : List (BitVec 8)) : KM State :=
  s.domWrite x (page + off) (bs.take (s.inPage x.part page off bs.length))

/-- Memory with `n` bytes from an address zero. -/
def Memory.clear (m : Memory) (a n : Nat) : Memory := m.filter fun c => !(a ≤ c.1 && c.1 < a + n)

/-- Zeroes 4 KiB of physical memory, and drops what is staged of it for KV. -/
def State.zeroUnit (s : State) (pa : Nat) : State :=
  { s with mem := Memory.clear s.mem pa 4096, tags := clearTags s.tags pa 4096
           rel := keep s.rel fun g _ => !(pa / 64 ≤ g && g < pa / 64 + 64) : State }.unstage fun (y : Stage) =>
    y.path == .kv && (match y.loc with
      | .mem a => pa ≤ a && a < pa + 4096
      | _ => false)

/-- Zeroes a page of `pgsz` units, at a peer by writes of zeros (R188). -/
def State.zeroPage (s : State) (x : Site) (addr pgsz : Nat) : KM State :=
  (List.range pgsz).foldlM (fun (s : State) i =>
    match s.pageLoc x (addr + 4096 * i) 1 with
    | .error e => .error e
    | .ok (.mem pa) => .ok (s.zeroUnit pa)
    | .ok _ => s.domWrite x (addr + 4096 * i) (natToBytes 4096 0)) s

/-! ### Pools (R186) -/

/-- Direct offset of a pool's entry. -/
def poolOff (k : Nat) : Nat := 0x2000 + 2048 * (k / 16 % 4) + 128 * (k % 16)

/-- FREE: pages now held, own and borrowed. -/
def Pool.count (p : Pool) : Nat := p.free.length + p.borrowed.length

/-- Changes a pool and the FREE field of its entry. -/
def State.setPoolFree (s : State) (k : Nat) (p : Pool) : State :=
  (s.setPool k p).ctlWrite (k / 64) (poolOff k + 20) (natToBytes 4 p.count)

/-- Adds a page to a list in address order. -/
def insertPage (p : W64) : List W64 → List W64
  | [] => [p]
  | q :: r => if p.toNat < q.toNat then p :: q :: r else if p = q then q :: r else q :: insertPage p r

/-- Does a pool's arena hold a page. -/
def Pool.owns (p : Pool) (lva : Nat) : Bool :=
  p.arenas.any fun a => a.1.toNat ≤ lva && lva < a.1.toNat + a.2 * p.pgsz * 4096

/-- A page goes back to its lender at a peer, in an OM packet from the page's die 0 under the peer's session (R189, R47).
Open points: DESIGN CHOICE, log 67. -/
def State.returnPage (s : State) (part addr : Nat) : State :=
  let peer := BitVec.ofNat 9 (addr / 2 ^ 55)
  let (w, s) := s.takeWire part 0 peer .om
  s.emit (.pageReturn peer (w64 (addr % 2 ^ 55)) w)

/-- A page of the module that no context holds returns to the pool whose arena holds it (R191). Open points: DESIGN CHOICE, log 27. -/
def State.homePage (s : State) (part addr : Nat) : State :=
  match (poolKeys part).find? fun k => (s.pool k).owns (addr % 2 ^ 55) with
  | some k =>
    let p := s.pool k
    s.setPoolFree k { p with free := insertPage (w64 addr) p.free }
  | none => s

/-- A page whose count has reached 0 returns to the pool whose arena holds it, or to the lender at a peer (R191,
R189). -/
def State.freePage (s : State) (part addr : Nat) : State :=
  let s := { s with pages := Tbl.del s.pages (domKey part addr)
                    pubs := keep s.pubs fun k _ => !(domKey part addr ≤ k && k < domKey part addr + 256) }
  if addr / 2 ^ 55 ≠ s.ownPeer part then s.returnPage part addr else s.homePage part addr

/-- The free pages that a pool can lend, own and borrowed, in address order: to a pool of the module all of them, to a peer those
that lie at this module, which it knows by the own peer number. Open points: DESIGN CHOICE, log 27. -/
def Pool.lendable (p : Pool) (own : Option Nat) : List W64 :=
  (p.borrowed.foldl (fun l a => insertPage a l) p.free).filter fun a => own.all (· == a.toNat / 2 ^ 55)

/-- Does a pool lend to one with pages of `pgsz` units: enabled, of the same size, with 64 free pages, and still at its
LOWWATER afterwards (R189). -/
def Pool.canLend (p : Pool) (own : Option Nat) (pgsz : Nat) : Bool :=
  p.en && p.pgsz == pgsz && (p.lendable own).length ≥ 64 && p.count ≥ p.low + 64

/-- May a pool ask for pages: it is below its LOWWATER, it is not asking, and 10 µs have passed since it asked and was declined
(R189). -/
def State.mayBorrow (s : State) (k : Nat) : Bool :=
  let p := s.pool k
  p.count < p.low && !p.asking && (match p.asked with
    | some t => s.clock ≥ t + 10 * Config.us
    | none => true)

/-- At an allocation a pool below its LOWWATER asks for 64 pages (R189). Open points: DESIGN CHOICE, log 27. -/
def State.poolAsk (s : State) (k : Nat) : State :=
  if s.mayBorrow k then s.setPool k { s.pool k with asking := true, asked := some s.clock } else s

/-- What an operation could not wait for in its step: the pool asks its lenders, unless it is asking (R189).
Open points: DESIGN CHOICE, log 27. -/
def State.poolBorrow (s : State) (k : Nat) : State :=
  if (s.pool k).asking then s else s.setPool k { s.pool k with asking := true, asked := some s.clock }

/-- Takes a page from a pool: its own in address order, then borrowed ones in order of arrival (R188). -/
def State.takePage (s : State) (k : Nat) : Option (W64 × State) :=
  let p := s.pool k
  match p.free, p.borrowed with
  | a :: r, _ => some (a, (s.setPoolFree k { p with free := r }).poolAsk k)
  | [], b :: r => some (b, (s.setPoolFree k { p with borrowed := r }).poolAsk k)
  | [], [] => none

/-! ### Configuration (R187) -/

/-- An arena's entry: LVA and pages. -/
def State.arenaField (s : State) (k a : Nat) : W64 × Nat :=
  (w64 (s.directNum (k / 64) (poolOff k + 32 + 16 * a) 8 % 2 ^ 55), s.directNum (k / 64) (poolOff k + 40 + 16 * a) 4)

/-- The entry that software wrote, without pages. -/
def State.poolEntry (s : State) (k ctrl : Nat) : Pool :=
  let at_ (o n : Nat) : Nat := s.directNum (k / 64) (poolOff k + o) n
  let lend := at_ 16 2
  { Pool.initial with
    en := ctrl % 2 = 1
    pgsz := at_ 8 4
    low := at_ 12 4
    lendPeer := if 2 ^ 15 ≤ lend then some (BitVec.ofNat 9 lend) else none
    lendDie := at_ 18 1
    lendPool := at_ 19 1
    arenas := (List.range 6).map (s.arenaField k) }

/-- Is a change of an enabled pool one that the unit accepts: arenas grow, or an empty one is given pages. -/
def Pool.accepts (old new : Pool) : Bool :=
  old.pgsz == new.pgsz && old.low == new.low && old.lendPeer == new.lendPeer && old.lendDie == new.lendDie
    && old.lendPool == new.lendPool && new.en
    && (List.range 6).all fun a =>
      let o := old.arenas.getD a (0, 0)
      let n := new.arenas.getD a (0, 0)
      o == n || (o.1 == n.1 && o.2 < n.2) || o.2 == 0

/-- The translations of an arena's 4 KiB units from unit `i` on, `n` of them: each with R and W, inside the windows. -/
def State.arenaUnits (s : State) (die part base : Nat) (i n : Nat) : Option (Tbl Nat) :=
  (List.range n).foldr (fun j acc =>
    let lva := base + 4096 * (i + j)
    match acc, s.xlate die part lva 0, s.xlate die part lva 1 with
    | some t, .ok pa, .ok _ => if (s.part part).holds pa 4096 then some ((lva, pa) :: t) else none
    | _, _, _ => none) (some [])

/-- Does memory hold the translation of some unit of an arena (R14). -/
def State.arenaHeld (s : State) (k pgsz : Nat) (n : W64 × Nat) : Bool :=
  (List.range (n.2 * pgsz)).any fun i =>
    match s.xlate (k / 16 % 4) (k / 64) (n.1.toNat + 4096 * i) 0 with
    | .error .held => true
    | _ => false

/-- Applies one arena to a pool: its new pages become free. False where a page does not translate.
Open points: DESIGN CHOICE, log 28. -/
def State.applyArena (s : State) (k : Nat) (p : Pool) (a : Nat) (n : W64 × Nat) : Pool × Bool :=
  let o := p.arenas.getD a (0, 0)
  let from_ := if o.2 = 0 then 0 else o.2
  if n.2 ≤ from_ then (p, true)
  else
    match (if n.1.toNat % 4096 = 0 then
        s.arenaUnits (k / 16 % 4) (k / 64) n.1.toNat (from_ * p.pgsz) ((n.2 - from_) * p.pgsz)
        else none) with
    | none => (p, false)
    | some t =>
      let pages := (List.range (n.2 - from_)).map fun i =>
        domain (s.ownPeer (k / 64)) (n.1.toNat + 4096 * p.pgsz * (from_ + i))
      ({ p with arenas := (List.range 6).map fun i => if i = a then n else p.arenas.getD i (0, 0)
                trans := t.foldl (fun tr e => Tbl.put tr e.1 e.2) p.trans
                free := pages.foldl (fun l x => insertPage x l) p.free }, true)

/-- POOL_CTRL_WRITE: software writes CTRL; ignored while GO is set; ERR is read-only (R187).
Open points: DESIGN CHOICE, log 28. -/
def execPoolCtrlWrite (part die pool : Nat) (v : W64) (s : State) : Host.Outcome State Fault Refusal :=
  .next (
    let off := poolOff (poolKey part die pool)
    if die ≥ 4 ∨ pool ≥ 16 ∨ (s.part part).tdi ≠ .run then s else s.directWrite part off (natToBytes 8 v.toNat))

/-- The device's read of a place of direct space waits for its memory: it is an access that wakes the die (R14, R21). -/
def State.devAwait (s : State) (part d : Nat) : State :=
  match (s.part part).direct d with
  | some pa => s.touch pa
  | none => s

/-- POOL_APPLY: the unit reads the entry, applies it and clears GO (R187); it writes the reserved bits of CTRL as zero (R4). A
disabled pool holds no pages. Open points: DESIGN CHOICE, log 28. -/
def execPoolApply (part die pool : Nat) (s : State) : Host.Outcome State Fault Refusal :=
  .next (
    let k := poolKey part die pool
    let ctrl := s.directNum part (poolOff k) 8
    if die ≥ 4 ∨ pool ≥ 16 ∨ (s.part part).tdi ≠ .run then s
    else if s.devHeld part (poolOff k) then s.devAwait part (poolOff k)
    else if ctrl / 2 ^ 63 = 0 then s
    else
      let old := s.pool k
      let new := s.poolEntry k ctrl
      let fin (s : State) (err : Nat) : State :=
        s.ctlWrite part (poolOff k) (natToBytes 8 (ctrl % 2 + err * 256))
      if new.arenas.any (s.arenaHeld k new.pgsz) then s
      else if old.en ∧ !old.accepts new then fin s 1
      else if !new.en then fin (s.setPoolFree k { new with arenas := [] }) 0
      else
        let base := if old.en then old else { new with arenas := [] }
        let r := new.arenas.zipIdx.foldl (fun (pb : Pool × Bool) (n, a) =>
          let q := s.applyArena k pb.1 a n
          (q.1, pb.2 && q.2)) (base, true)
        fin (s.setPoolFree k r.1) (if r.2 then 0 else 2))

/-! ### Borrowing and lending (R189) -/

/-- Moves the 64 lowest free pages that a pool can lend out of it. Open points: DESIGN CHOICE, log 27. -/
def State.giveOut (s : State) (k : Nat) (own : Option Nat) : State × List W64 :=
  let p := s.pool k
  let out := (p.lendable own).take 64
  (s.setPoolFree k { p with free := p.free.filter (!out.contains ·), borrowed := p.borrowed.filter (!out.contains ·) }, out)

/-- A pool's outstanding borrow is settled: the next die's pool lends, or else the peer that LENDPEER names gives what it
offers, and a failed peer check makes it decline. The request waits for a key of the peer's session (R47). Open points: DESIGN CHOICE, log 27. -/
def State.borrow (s : State) (k : Nat) (offer : List W64) : State :=
  let part := k / 64
  let p := s.pool k
  let nk := poolKey part ((k / 16 % 4 + 1) % 4) (k % 16)
  let take (s : State) (pages : List W64) : State :=
    let p := s.pool k
    s.setPoolFree k { p with borrowed := p.borrowed ++ pages, asking := false, asked := if pages.isEmpty then p.asked else none }
  if !p.asking then s
  else if (s.pool nk).canLend none p.pgsz then
    let r := s.giveOut nk none
    take r.1 r.2
  else
    match p.lendPeer with
    | none => take s []
    | some peer =>
      if (s.peerErr part (k / 16 % 4) peer.toNat).isSome then take s []
      else if !s.sessionOpen (entSession (s.peerEnt part peer.toNat)) then s
      else
        let (w, s) := s.takeWire part (k / 16 % 4 * 64) peer .om
        let s := s.emit (.lendRequest peer p.lendDie p.lendPool w)
        take s (if offer.length = 64 then offer.map fun a => domain peer.toNat a.toNat else [])

/-- POOL_LEND. Without a requester the own pool's borrow is settled; a requester at a peer (its peer number and PGSZ) is
lent 64 pages or declined, or, where it offers pages, gives borrowed ones back, which return to the pools whose arenas hold
them (R191). Without a session there is no such message (R47). Open points: DESIGN CHOICE, log 27. -/
def execPoolLend (part die pool : Nat) (req : Option (Nat × Nat)) (offer : List W64) (s : State) :
    Host.Outcome State Fault Refusal :=
  .next (
    let k := poolKey part die pool
    if die ≥ 4 ∨ pool ≥ 16 ∨ (s.part part).tdi ≠ .run then s
    else
      match req, offer with
      | none, _ => s.borrow k offer
      | some (peer, pgsz), [] =>
        let e := s.peerEnt part peer
        let reply (s : State) (pages : List W64) : State :=
          let (w, s) := s.takeWire part (die * 64) (BitVec.ofNat 9 peer) .om
          s.emit (.lendReply (BitVec.ofNat 9 peer) pages w)
        if !s.sessionOpen (entSession e) then s
        else if entValid e && entEnable e && (s.pool k).canLend (some (s.ownPeer part)) pgsz then
          let r := s.giveOut k (some (s.ownPeer part))
          reply r.1 (r.2.map fun a => w64 (lvaOf a))
        else reply s []
      | some _, pages => pages.foldl (fun (s : State) a =>
          let d := domain (s.ownPeer part) a.toNat
          if (Tbl.find s.pages (domKey part d.toNat)).isSome then s else s.homePage part d.toNat) s)

end Sys2Proof.Machine
end

