-- ==== Sys2Proof/Machine/KvStore.lean ====
section
/-! DEFINITION. Attention contexts in memory: the descriptor and its check, the state area, slots and page-table entries,
allocation and privatisation, publication and the frontier, and what a query sees of a slot (R163–R175, R178,
R181–R193). -/

namespace Sys2Proof.Machine

open Sys2Proof

end Sys2Proof.Machine

/-- Bytes of an element of a format. -/
def Sys2Proof.Fmt.bytes (f : Sys2Proof.Fmt) : Nat := f.bits / 8

namespace Sys2Proof.Machine

open Sys2Proof

/-! ### The descriptor (R163, R164) -/

/-- Formats that K and V may have. -/
def kvFmt : Nat → Option Fmt
  | 0 => some .fp32
  | 1 => some .bf16
  | 2 => some .fp16
  | 3 => some .e4m3
  | 4 => some .e5m2
  | _ => none

/-- Does a capability lie at the own peer over its whole range. -/
def Cap.atPeer (c : Cap) (own : Nat) : Bool :=
  c.base / 2 ^ 55 == own && (c.base + Nat.max c.len 1 - 1) / 2 ^ 55 == own

/-- A descriptor from its bytes and the tags of ROTCAP and PTCAP; `k` is the register of its capability. A breach of
ROTCAP or PTCAP is theirs (R254). Open points: DESIGN CHOICE, log 24. -/
def kvParse (own ctx k : Nat) (raw : List (BitVec 8)) (t1 t2 : Bool) : Except Trap KvDesc :=
  let n (o z : Nat) : Nat := bytesToNat ((raw.drop o).take z)
  let rot : Cap := { bits := BitVec.ofNat 128 (n 32 16), tag := t1 }
  let pt : Cap := { bits := BitVec.ofNat 128 (n 48 16), tag := t2 }
  let layers := n 8 2
  let dim := n 12 2
  let pages := (n 16 4 + n 20 4 + 15) / 16
  match kvFmt (n 14 1), kvFmt (n 15 1) with
  | some kf, some vf =>
    if !(1 ≤ layers && layers ≤ 256 && 1 ≤ n 10 2 && n 10 2 ≤ 256 && 8 ≤ dim && dim ≤ 256 && dim % 8 == 0
        && 1 ≤ n 20 4 && n 16 4 + n 20 4 < 2 ^ 32 && 1 ≤ n 24 2 && n 24 2 ≤ 64 && n 26 6 == 0 && n 72 184 == 0) then
      .error (.plain .capBounds k)
    else if !(rot.tag && rot.wellFormed && rot.space == 0 && rot.perm &&& permR == permR && rot.len ≥ 4 * dim
        && Cap.atPeer rot own) then .error (.plain .capBounds (k + 16))
    else if !(pt.tag && pt.wellFormed && pt.space == 0 && pt.perm &&& 0x43 == 0x43 && pt.base % 4096 == 0
        && pt.len ≥ 4096 + 16 * layers * pages && Cap.atPeer pt own) then .error (.plain .capBounds (k + 16))
    else .ok { ctx := ctx, layers := layers, heads := n 10 2, dim := dim, kfmt := kf, vfmt := vf, sinks := n 16 4,
               window := n 20 4, wlimit := n 24 2, seed := n 64 8, rot := rot.base % 2 ^ 55, pt := pt.base % 2 ^ 55 }
  | _, _ => .error (.plain .capBounds k)

/-- The read of a descriptor. Open points: DESIGN CHOICE, log 24. -/
def State.readDesc (s : State) (x : Site) (base k : Nat) : KM (Except Trap KvDesc) := do
  let own := s.ownPeer x.part
  if base / 2 ^ 55 ≠ own then pure (.error (.plain .capBounds k))
  else
    let lva := base % 2 ^ 55
    let raw ← s.lineRead x lva 256
    let p1 ← s.kvPa x.die x.part (lva + 32) 0
    let p2 ← s.kvPa x.die x.part (lva + 48) 0
    pure (kvParse own lva k raw (s.tags.contains (p1 / 16)) (s.tags.contains (p2 / 16)))

/-! ### Slots and pages (R170, R183, R185) -/

/-- The slot and the generation of a position. -/
def KvDesc.slotOf (d : KvDesc) (p : Nat) : Nat × Nat :=
  if p < d.sinks then (p, 0) else (d.sinks + (p - d.sinks) % d.window, (p - d.sinks) / d.window)

/-- The position that a generation of a slot holds. -/
def KvDesc.posOf (d : KvDesc) (slot gen : Nat) : Nat :=
  if slot < d.sinks then slot else d.sinks + gen * d.window + (slot - d.sinks)

def KvDesc.pages (d : KvDesc) : Nat := (d.sinks + d.window + 15) / 16

/-- Units of 4 KiB of a page. -/
def KvDesc.pgsz (d : KvDesc) : Nat := (256 + 16 * d.heads * d.dim * (d.kfmt.bytes + d.vfmt.bytes) + 4095) / 4096

/-- Offset of a slot's K and of its V in a page, and the bytes of each. -/
def KvDesc.kOff (d : KvDesc) (i : Nat) : Nat := 256 + i * d.heads * d.dim * d.kfmt.bytes

def KvDesc.vOff (d : KvDesc) (i : Nat) : Nat :=
  256 + 16 * d.heads * d.dim * d.kfmt.bytes + i * d.heads * d.dim * d.vfmt.bytes

def KvDesc.kBytes (d : KvDesc) : Nat := d.heads * d.dim * d.kfmt.bytes

def KvDesc.vBytes (d : KvDesc) : Nat := d.heads * d.dim * d.vfmt.bytes

/-- LVA of a page-table entry. -/
def KvDesc.pteAt (d : KvDesc) (l j : Nat) : Nat := d.pt + 4096 + 16 * (l * d.pages + j)

/-- A page-table entry: the page's domain address and its HIDE bits. -/
structure Pte where
  v    : Bool
  page : Nat
  hide : Nat
  deriving DecidableEq, Repr

/-- An entry as a query or a change finds it; a line staged for KV may serve (R160). -/
def State.pte (s : State) (x : Site) (d : KvDesc) (l j : Nat) : KM Pte := do
  let n := bytesToNat (← s.lineRead x (d.pteAt l j) 16)
  pure { v := n % 2 == 1, page := n % 2 ^ 64 / 4096 * 4096, hide := n / 2 ^ 64 % 2 ^ 16 }

def Pte.bytes (e : Pte) : List (BitVec 8) :=
  natToBytes 16 (if e.v then 1 + e.page + e.hide * 2 ^ 64 else 0)

def State.setPte (s : State) (x : Site) (d : KvDesc) (l j : Nat) (e : Pte) : KM State :=
  s.kvWrite x (d.pteAt l j) e.bytes

/-- Is slot `i` of the page hidden from the context. -/
def Pte.hides (e : Pte) (i : Nat) : Bool := (e.hide / 2 ^ i) % 2 == 1

/-- A slot's header as a query of the context finds it: generation, state and PUBSCOPE, and the domain address of the
header. -/
structure Head where
  gen   : Nat
  st    : Nat
  scope : Nat
  at_   : Nat
  deriving DecidableEq, Repr

def headOf (n at_ : Nat) : Head := { gen := n % 2 ^ 48, st := n / 2 ^ 48 % 4, scope := n / 2 ^ 112 % 8, at_ := at_ }

def State.head (s : State) (x : Site) (d : KvDesc) (l slot : Nat) : KM Head := do
  let e ← s.pte x d l (slot / 16)
  if !e.v || e.hides (slot % 16) then pure { gen := 0, st := 0, scope := 0, at_ := 0 }
  else
    let bs ← s.pageRead x e.page (16 * (slot % 16)) 16
    pure (headOf (bytesToNat bs) (e.page + 16 * (slot % 16)))

/-- Is position `p` published at a layer: valid or void, or its slot since reused (R175). -/
def State.published (s : State) (x : Site) (d : KvDesc) (l p : Nat) : KM Bool := do
  let h ← s.head x d l (d.slotOf p).1
  pure (h.gen > (d.slotOf p).2 || (h.gen == (d.slotOf p).2 && h.st ≥ 2))

/-- A slot as a query reads it, whole (R178). -/
def State.slotView (s : State) (x : Site) (d : KvDesc) (l slot : Nat) : KM SlotView := do
  let e ← s.pte x d l (slot / 16)
  let i := slot % 16
  if !e.v || e.hides i then pure { gen := 0, st := 0, data := [] }
  else
    let h ← s.pageRead x e.page (16 * i) 16
    let k ← s.pageRead x e.page (d.kOff i) d.kBytes
    let v ← s.pageRead x e.page (d.vOff i) d.vBytes
    let hd := headOf (bytesToNat h) 0
    pure { gen := hd.gen, st := hd.st, data := k ++ v }

/-- What a query finds at a position (R170, R171, Table 4). -/
inductive Found where
  | valid (v : SlotView)
  | masked
  | stale
  deriving DecidableEq, Repr

def KvDesc.found (d : KvDesc) (poscnt p : Nat) (v : SlotView) : Found :=
  if p ≥ poscnt then .masked
  else if v.gen > (d.slotOf p).2 then .stale
  else if v.gen = (d.slotOf p).2 ∧ v.st = 2 then .valid v
  else .masked

/-- Element `e` of head `h` of a slot, as FP32. -/
def KvDesc.elem (d : KvDesc) (v : SlotView) (isV : Bool) (h e : Nat) : W32 :=
  let f := if isV then d.vfmt else d.kfmt
  let off := (if isV then d.kBytes else 0) + (h * d.dim + e) * f.bytes
  BitVec.ofNat 32 (convert .fp32 f (bytesToNat ((v.data.drop off).take f.bytes)) .rne false).1

/-! ### The state area (R165) -/

def State.poscnt (s : State) (x : Site) (d : KvDesc) : KM Nat := s.ownNum x d.ctx 8

def State.setPoscnt (s : State) (x : Site) (d : KvDesc) (n : Nat) : KM State := s.kvWrite x d.ctx (natToBytes 8 n)

def State.frontier (s : State) (x : Site) (d : KvDesc) (l : Nat) : KM Nat := s.ownNum x (d.pt + 8 * l) 8

def State.setFrontier (s : State) (x : Site) (d : KvDesc) (l n : Nat) : KM State :=
  s.kvWrite x (d.pt + 8 * l) (natToBytes 8 n)

/-- The smallest frontier over the layers. -/
def State.fmin (s : State) (x : Site) (d : KvDesc) : KM Nat := do
  let f0 ← s.frontier x d 0
  (List.range d.layers).foldlM (fun m l => do
    let f ← s.frontier x d l
    pure (Nat.min m f)) f0

/-- A writer table entry. -/
structure Writer where
  start : Nat
  stop  : Nat
  scope : Nat
  field : Nat
  open_ : Bool
  deriving DecidableEq, Repr

def State.writer (s : State) (x : Site) (d : KvDesc) (w : Nat) : KM Writer := do
  let bs ← s.ownRead x.die x.part (d.pt + 2048 + 32 * w) 32
  let n (o z : Nat) : Nat := bytesToNat ((bs.drop o).take z)
  pure { start := n 0 8, stop := n 8 8, scope := n 16 4, field := n 20 4, open_ := n 24 1 == 1 }

def State.setWriter (s : State) (x : Site) (d : KvDesc) (w : Nat) (r : Writer) : KM State :=
  s.kvWrite x (d.pt + 2048 + 32 * w) (natToBytes 8 r.start ++ natToBytes 8 r.stop ++ natToBytes 4 r.scope
    ++ natToBytes 4 r.field ++ natToBytes 8 (if r.open_ then 1 else 0))

/-- Is some writer's reservation open. -/
def State.anyOpen (s : State) (x : Site) (d : KvDesc) : KM Bool :=
  (List.range d.wlimit).foldlM (fun b w => do
    let r ← s.writer x d w
    pure (b || r.open_)) false

/-! ### A page to change (R188, R192) -/

/-- Name of a context. -/
def ctxKey (part : Nat) (d : KvDesc) : Nat := domKey part d.ctx

/-- The pool that serves a context: the lowest enabled one of its page size on its home die. -/
def State.ctxPool (s : State) (x : Site) (d : KvDesc) : KM (Option Nat) := do
  let pa ← s.kvPa x.die x.part d.ctx 0
  pure ((List.range 16).findSome? fun q =>
    let k := poolKey x.part (s.homeDie pa) q
    if (s.pool k).en && (s.pool k).pgsz == d.pgsz then some k else none)

/-- Allocates a zeroed page for the entry of page `j` at layer `l`; an empty pool asks its lenders first, also one that this step has
emptied (R188, R189).
Open points: DESIGN CHOICE, log 27. -/
def State.allocPage (s : State) (x : Site) (d : KvDesc) (l j : Nat) : KM (Nat × State) := do
  match ← s.ctxPool x d with
  | none => .error (.alloc (d.pteAt l j))
  | some k =>
    match s.takePage k with
    | none =>
      .error (if (s.pool k).asking || s.mayBorrow k then .borrow k else .alloc (d.pteAt l j))
    | some (a, s) =>
      let s ← s.zeroPage x a.toNat d.pgsz
      pure (a.toNat, { s with pages := Tbl.put s.pages (domKey x.part a.toNat)
                                { count := 1, origin := ctxKey x.part d, units := d.pgsz } })

/-- Drops one reference to a page (R191). -/
def State.dropRef (s : State) (part page : Nat) : State :=
  let r := s.pageRec part page
  if r.count ≤ 1 then s.freePage part page
  else { s with pages := Tbl.put s.pages (domKey part page) { r with count := r.count - 1 } }

/-- Copies what the context can see of a page into a new one (R192). -/
def State.copyPage (s : State) (x : Site) (d : KvDesc) (e : Pte) (np : Nat) : KM State :=
  (List.range 16).foldlM (fun (s : State) i => do
    if e.hides i then pure s
    else
      let h ← s.pageRead x e.page (16 * i) 16
      let k ← s.pageRead x e.page (d.kOff i) d.kBytes
      let v ← s.pageRead x e.page (d.vOff i) d.vBytes
      let s ← s.pageWrite x np (16 * i) h
      let s ← s.pageWrite x np (d.kOff i) k
      let s ← s.pageWrite x np (d.vOff i) v
      match Tbl.find s.pubs (domKey x.part (e.page + 16 * i)) with
      | some id => pure { s with pubs := Tbl.put s.pubs (domKey x.part (np + 16 * i)) id }
      | none => pure s) s

/-- PAGE_ALLOCATE and PAGE_PRIVATISE: the page of a slot, present, private to the context, the slot not hidden. -/
def State.ownPage (s : State) (x : Site) (d : KvDesc) (l slot : Nat) : KM (Nat × State) := do
  let j := slot / 16
  let e ← s.pte x d l j
  if !e.v then
    let (np, s) ← s.allocPage x d l j
    let s ← s.setPte x d l j { v := true, page := np, hide := 0 }
    pure (np, s)
  else if (s.pageRec x.part e.page).count > 1 then
    let (np, s) ← s.allocPage x d l j
    let s ← s.copyPage x d e np
    let s ← s.setPte x d l j { v := true, page := np, hide := 0 }
    pure (np, s.dropRef x.part e.page)
  else if e.hides (slot % 16) then
    let s ← s.setPte x d l j { e with hide := e.hide - 2 ^ (slot % 16) }
    pure (e.page, s)
  else pure (e.page, s)

/-! ### Publication (R173, R175, R448) -/

/-- Who publishes: a weave, or the device for a void (R176). -/
inductive Publisher where
  | weave (id : Ident)
  | device
  deriving DecidableEq, Repr

/-- The publisher's fields of a header (R183 Table 1). Open points: DESIGN CHOICE, log 25. -/
def State.pubBits (s : State) (part : Nat) : Publisher → Nat
  | .weave i => i.place % 4 * 2 ^ 61 + i.core % 8 * 2 ^ 63 + i.cg % 8 * 2 ^ 66 + i.die % 4 * 2 ^ 69
      + i.peer % 512 * 2 ^ 71 + i.field % 2 ^ 32 * 2 ^ 80
  | .device => s.ownPeer part * 2 ^ 71

/-- Writes the header of a published slot. -/
def State.setPublished (s : State) (x : Site) (d : KvDesc) (l p st scope : Nat) (by_ : Publisher) : KM State := do
  let (slot, gen) := d.slotOf p
  let (page, s) ← s.ownPage x d l slot
  let at_ := page + 16 * (slot % 16)
  let s ← s.pageWrite x page (16 * (slot % 16)) (natToBytes 16 (gen + st * 2 ^ 48 + s.pubBits x.part by_ + scope * 2 ^ 112))
  match by_ with
  | .weave i => pure { s with pubs := Tbl.put s.pubs (domKey x.part at_) i }
  | .device => pure { s with pubs := Tbl.del s.pubs (domKey x.part at_) }

/-- The frontier moves up over published positions, below POSCNT. -/
def State.advance (s : State) (x : Site) (d : KvDesc) (l : Nat) : Nat → Nat → KM Nat
  | 0, f => pure f
  | n + 1, f => do
    if ← s.published x d l f then s.advance x d l n (f + 1) else pure f

def State.settleFrontier (s : State) (x : Site) (d : KvDesc) (l : Nat) : KM State := do
  let f ← s.frontier x d l
  let pc ← s.poscnt x d
  let f' ← s.advance x d l (pc - f) f
  if f' = f then pure s else s.setFrontier x d l f'

/-- Is every position of a reservation published at every layer. -/
def State.reservationDone (s : State) (x : Site) (d : KvDesc) (r : Writer) : KM Bool :=
  (List.range d.layers).foldlM (fun b l => do
    let f ← s.frontier x d l
    (List.range (r.stop - Nat.max r.start f)).foldlM (fun b i => do
      if !b then pure false else s.published x d l (Nat.max r.start f + i)) b) true

/-- A writer whose reservation is published everywhere becomes free (R169). -/
def State.closeWriter (s : State) (x : Site) (d : KvDesc) (w : Nat) : KM State := do
  let r ← s.writer x d w
  if !r.open_ then pure s
  else if ← s.reservationDone x d r then s.setWriter x d w { r with open_ := false }
  else pure s

/-- The step of a publication over positions: what is published already stays as it is (R448). -/
def State.publish (s : State) (x : Site) (d : KvDesc) (l : Nat) (ps : List Nat) (void : Bool) (scope : Nat)
    (by_ : Publisher) : KM State := do
  let s ← ps.foldlM (fun (s : State) p => do
    if ← s.published x d l p then pure s
    else
      let h ← s.head x d l (d.slotOf p).1
      let ok := !void && h.gen == (d.slotOf p).2 && h.st == 1
      s.setPublished x d l p (if ok then 2 else 3) scope by_) s
  s.settleFrontier x d l

/-- Who counts as the publisher of a slot of a context, and at which scope (R176, R181); none for the device.
Open points: DESIGN CHOICE, log 25. -/
def State.publisherOf (s : State) (part : Nat) (d : KvDesc) (p : Nat) (h : Head) : Option (Ident × Scope) :=
  let sc : Scope := match h.scope with
    | 0 => .team
    | 1 => .coh
    | 2 => .die
    | 3 => .mod
    | 4 => .dom
    | _ => .sys
  match (Tbl.find s.ctxs (ctxKey part d)).bind (·.fork) with
  | some (id, fsc, fmin) => if p < fmin then some (id, fsc) else (Tbl.find s.pubs (domKey part h.at_)).map fun i => (i, sc)
  | none => (Tbl.find s.pubs (domKey part h.at_)).map fun i => (i, sc)

end Sys2Proof.Machine
end

