-- ==== Sys2Proof/Machine/Kv.lean ====
section
/-! DEFINITION. The KV path: APOS, KVST, KVPUB, KVACQ, KVLD, KVFORK, KVREL, KVSTAT and QROT at their issue, their steps at
the context, and the voids of ended writers (R166–R182, R190–R197, R410–R424, R442, R443). -/

namespace Sys2Proof.Machine

open Sys2Proof

/-! ### Rotation (R195–R197) -/

/-- A fused multiply-add on FP32, RNE. -/
def f32Fma (x y z : W32) : W32 :=
  BitVec.ofNat 32 (packFp .fp32 (((value .fp32 x.toNat).mul (value .fp32 y.toNat)).add (value .fp32 z.toNat) .rne) .rne
    false).1

def f32Neg (x : W32) : W32 := if f32IsNan x then x else x ^^^ 0x80000000

/-- Sine and cosine for position `p` and frequency `f`. -/
def rotAngle (p f : Nat) : W32 × W32 := rotGen (BitVec.ofNat 32 (p * f % 2 ^ 64 / 2 ^ 32))

/-- A rotary pair rotated. -/
def rotPair (sc : W32 × W32) (x y : W32) : W32 × W32 :=
  (f32Fma x sc.2 (f32Neg (f32Mul y sc.1)), f32Fma x sc.1 (f32Mul y sc.2))

/-- Exact widening to FP32. -/
def widen (f : Fmt) (x : Nat) : W32 := BitVec.ofNat 32 (convert .fp32 f x .rne false).1

/-- Storing of an FP32 value in a format: RNE, saturating (R197). -/
def narrow (f : Fmt) (x : W32) : Nat × Fl := convert f .fp32 x.toNat .rne true

/-! ### Issue (R411, R412) -/

/-- The KV path as the issuing instruction uses it. -/
def Ctx.kvSite (x : Ctx) : Site :=
  { part := x.e.part, core := x.e.t.core, staged := true, owner := .group x.e.wid x.g.gid, scopeH := x.e.f.scope
    path := .kv, ident := x.s.ident x.e }

/-- The answer to a read at issue that cannot be made: the group sleeps on the fault, traps, or stalls until the answer of a
peer (R164). An error of a peer traps at the instruction. Open points: DESIGN CHOICE, log 24. -/
def Ctx.kvErr (x : Ctx) : KErr → Res
  | .xl .resolvable lva kind =>
    let (id, s) := x.s.raise x.e.part lva kind .kv (x.s.ownPeer x.e.part) (srcCore x.e.t.core) (.group x.e.wid x.g.gid)
      none false
    .stay (s.updWeave x.e.wid fun w => w.updGroup x.g.gid fun g => { g with sleep := .fault id, port := false, latch := x.latch })
  | .xl (.unresolvable ecc) _ kind => .trap (.plain .pageFault (3 + kind * 4 + (if ecc then 16 else 0)))
  | .far peer g =>
    .stay ((x.s.ask (x.kvSite.ask peer) (wholeGranule g)).onGroup x.c fun g =>
      { g with sleep := .stall, port := false, latch := x.latch })
  | .peer peer why => x.peerTrap peer.toNat (x.g.lanes.toList.headD 0) why
  | .remote peer => .trapIn (x.s.dropLegs x.kvSite.owner) (.plain .remoteFault peer.toNat)
  | _ => .stall

/-- A check at issue. -/
def Ctx.need (t : Option Trap) : Except Res Unit :=
  match t with
  | some t => .error (.trap t)
  | none => .ok ()

/-- A read of the KV path at issue. -/
def Ctx.kvGet {α : Type} (x : Ctx) (m : KM α) : Except Res α :=
  match m with
  | .error e => .error (x.kvErr e)
  | .ok v => .ok v

/-- Step 1 of R411 for a space-3 capability. Open points: DESIGN CHOICE, log 24. -/
def Ctx.kvCap (x : Ctx) (k : Nat) (perm : BitVec 8) : Option Trap :=
  x.capCheck { spaces := [3], perm := perm, kind := 0, nat := false } k k 1 (x.w.getK k).base 256

/-- Step 2 of R411. -/
def Ctx.kvDesc (x : Ctx) (k : Nat) : Except Res KvDesc := do
  match ← x.kvGet (x.s.readDesc x.kvSite (x.w.getK k).base k) with
  | .error t => .error (.trap t)
  | .ok d => pure d

/-- The control word: writer and layer (R412). -/
def Ctx.ctl (w : W64) (k : Nat) : Except Res (Nat × Nat) :=
  if w.toNat ≥ 2 ^ 14 then .error (.trap (.plain .capBounds k)) else .ok (w.toNat / 256, w.toNat % 256)

/-- A limit of the entry (R411 step 4). -/
def Ctx.limit (ok : Bool) (k : Nat) : Except Res Unit :=
  if ok then .ok () else .error (.trap (.plain .capBounds k))

/-- The operation is accepted by the KV path, or stalls on its flag (R414, R106). -/
def Ctx.kvSend (x : Ctx) (d : KvDesc) (kind : KvKind) (regs : List (RegCls × Nat)) : Res :=
  let flag := x.g.run.slot x.h.fs
  if !x.w.canCount flag then .stall
  else
    let (id, s) := x.s.fresh
    let op : KvOp := { weave := x.e.wid, part := x.e.part, ident := s.ident x.e, lanes := x.act, scopeH := x.e.f.scope
                       desc := d, kind := kind, flag := flag, at_ := s.clock, seen := [], res := none, fault := none }
    let s := s.updWeave x.e.wid fun w => (w.countUp flag).mark id x.g.lanes regs
    .done { s with kvOps := Tbl.put s.kvOps id op }

/-- The answer of checks that may stop. -/
def Ctx.orStop (r : Except Res Res) : Res :=
  match r with
  | .ok r => r
  | .error r => r

def permKv : BitVec 8 := permR ||| permM

/-- APOS (R415). -/
def execApos (h : Hd) (d a b c : Nat) (s : State) : Host.Outcome State Fault Refusal :=
  issue (.apos h d a b c) s fun x => Ctx.orStop do
    Ctx.need (x.kvCap a permKv)
    let k ← x.kvDesc a
    pure (x.kvSend k (.apos (x.w.getS b) (x.w.getS c) d) [(.s, d)])

/-- Does a writer's open reservation hold the range [p0, p1), and is nothing of it published at the layer (R172,
R418). -/
def Ctx.mayWrite (x : Ctx) (k : KvDesc) (w l p0 p1 kreg : Nat) : Except Res Unit := do
  Ctx.limit (w < k.wlimit && l < k.layers && p0 < p1) kreg
  let wr ← x.kvGet (x.s.writer x.kvSite k w)
  Ctx.limit (wr.open_ && wr.start ≤ p0 && p1 ≤ wr.stop) kreg
  let any ← x.kvGet ((List.range (p1 - p0)).foldlM (fun b i => do
    let q ← x.s.published x.kvSite k l (p0 + i)
    pure (b || q)) false)
  Ctx.limit (!any) kreg

/-- The pieces of a KVST's source. -/
def Ctx.kvSource (x : Ctx) (c : Nat) (src n : Nat) : List (Loc × Nat) :=
  (chunksOf src n).map fun p => (x.place (x.w.getK c) p.1, p.2)

/-- KVST (R416, R417). -/
def execKvst (h : Hd) (ks vs : Fmt) (a b c : Nat) (imm : W32) (s : State) : Host.Outcome State Fault Refusal :=
  issue (.kvst h ks vs a b c imm) s fun x => Ctx.orStop do
    Ctx.need (x.kvCap a (permKv ||| permW))
    Ctx.need (capTagPerm (x.w.getK c) [1, 2] permKv c)
    let k ← x.kvDesc a
    let cap := x.w.getK c
    let src : Int := (cap.base : Int) + (x.w.getS (b + 2)).toNat + sImm imm
    let n := k.heads * k.dim * (ks.bytes + vs.bytes)
    Ctx.limit (cap.covers src n && relativeRow x.e cap src.toNat n) c
    Ctx.need (if src % 16 = 0 then none else some (.plain .misaligned c))
    let wl ← Ctx.ctl (x.w.getS (b + 1)) a
    let p := (x.w.getS b).toNat
    x.mayWrite k wl.1 wl.2 p (p + 1) a
    pure (x.kvSend k (.kvst p wl.1 wl.2 ks vs (x.kvSource c src.toNat n)) [])

/-- KVPUB (R418). -/
def execKvpub (h : Hd) (void : Bool) (scope : Scope) (a b c : Nat) (s : State) : Host.Outcome State Fault Refusal :=
  issue (.kvpub h void scope a b c) s fun x => Ctx.orStop do
    Ctx.need (x.kvCap a (permKv ||| permP))
    let k ← x.kvDesc a
    let wl ← Ctx.ctl (x.w.getS c) a
    let p0 := (x.w.getS b).toNat
    let p1 := (x.w.getS (b + 1)).toNat
    Ctx.limit (p1 ≤ 2 ^ 48) a
    x.mayWrite k wl.1 wl.2 p0 p1 a
    pure (x.kvSend k (.kvpub p0 p1 wl.1 wl.2 void scope) [])

/-- KVACQ (R419). -/
def execKvacq (h : Hd) (scope : Scope) (d a b : Nat) (s : State) : Host.Outcome State Fault Refusal :=
  issue (.kvacq h scope d a b) s fun x => Ctx.orStop do
    Ctx.need (x.kvCap a permKv)
    let k ← x.kvDesc a
    let wl ← Ctx.ctl (x.w.getS b) a
    Ctx.limit (wl.2 < k.layers) a
    pure (x.kvSend k (.kvacq wl.2 scope d) [(.s, d)])

/-- KVLD (R420). -/
def execKvld (h : Hd) (v : Bool) (head layer : BitVec 8) (elem : BitVec 16) (d a b c : Nat) (s : State) :
    Host.Outcome State Fault Refusal :=
  issue (.kvld h v head layer elem d a b c) s fun x => Ctx.orStop do
    Ctx.need (x.kvCap a permKv)
    let k ← x.kvDesc a
    Ctx.limit (head.toNat < k.heads && layer.toNat < k.layers && elem.toNat < k.dim) a
    let pos := x.lanes.map fun l => (l, (x.w.getS c).toNat + (x.w.getV b l).toNat)
    pure (x.kvSend k (.kvld v head.toNat layer.toNat elem.toNat pos d) (Dest.regs (.v d true)))

/-- KVFORK (R421). -/
def execKvfork (h : Hd) (scope : Scope) (d a c : Nat) (s : State) : Host.Outcome State Fault Refusal :=
  issue (.kvfork h scope d a c) s fun x => Ctx.orStop do
    Ctx.need (x.kvCap a permKv)
    Ctx.need (x.kvCap c permKv)
    let k ← x.kvDesc a
    let child ← x.kvDesc c
    Ctx.limit (child.ctx != k.ctx && { child with ctx := k.ctx, seed := k.seed, rot := k.rot, pt := k.pt } == k) c
    pure (x.kvSend k (.kvfork child scope d) [(.s, d)])

/-- KVREL (R422). -/
def execKvrel (h : Hd) (d a : Nat) (s : State) : Host.Outcome State Fault Refusal :=
  issue (.kvrel h d a) s fun x => Ctx.orStop do
    Ctx.need (x.kvCap a permKv)
    let k ← x.kvDesc a
    pure (x.kvSend k (.kvrel d) [(.s, d)])

/-- KVSTAT (R424). -/
def execKvstat (h : Hd) (sel : KvSel) (d a b : Nat) (s : State) : Host.Outcome State Fault Refusal :=
  issue (.kvstat h sel d a b) s fun x => Ctx.orStop do
    Ctx.need (x.kvCap a permKv)
    let k ← x.kvDesc a
    let wl ← if sel = .pos then pure (0, 0) else Ctx.ctl (x.w.getS b) a
    Ctx.limit (sel == .pos || (if sel = .front then wl.2 < k.layers else wl.1 < k.wlimit)) a
    pure (x.kvSend k (.kvstat sel wl.2 wl.1 d) [(.s, d)])

/-- QROT (R423): x′ and y′ of each active thread, and whether one saturated or was inexact. -/
def Ctx.qrot (x : Ctx) (fm : Fmt) (a b c l : Nat) : (W32 × W32) × Fl :=
  let sc := rotAngle (x.w.getV64 c l).toNat (x.w.getV64 b l).toNat
  let r := rotPair sc (widen fm (x.w.getV a l).toNat) (widen fm (if a = 255 then 0 else (x.w.getV (a + 1) l).toNat))
  let p := narrow fm r.1
  let q := narrow fm r.2
  ((BitVec.ofNat 32 p.1, BitVec.ofNat 32 q.1), p.2.or q.2)

/-- QROT (R423). -/
def execQrot (h : Hd) (fm : Fmt) (d a b c : Nat) (s : State) : Host.Outcome State Fault Refusal :=
  issue (.qrot h fm d a b c) s fun x =>
    let fl := x.lanes.foldl (fun (f : Fl) l => f.or (x.qrot fm a b c l).2) Fl.none_
    .done (((x.putV64 d fun l => (x.qrot fm a b c l).1.2 ++ (x.qrot fm a b c l).1.1).stickyIf x.e.wid wsSat fl.sat).stickyIf
      x.e.wid wsInexact fl.inexact)

/-! ### Order at the context (R414, R418, R419, R193) -/

/-- Does an operation write (R173: the KV writes that a publication waits for; R168). -/
def KvKind.isWrite : KvKind → Bool
  | .kvst .. | .kvpub .. | .apos .. | .kvfork .. | .kvrel .. => true
  | _ => false

/-- Does an operation only read what others publish: it waits for the acquires that its weave has made before (R180). -/
def KvKind.queries : KvKind → Bool
  | .kvld .. | .kvacq .. | .kvstat .. => true
  | _ => false

/-- The KV path as an accepted operation uses it. -/
def KvOp.site (o : KvOp) (id : Nat) : Site :=
  { part := o.part, core := o.ident.coreNum, staged := true, owner := .kv id, scopeH := o.scopeH, path := .kv, ident := o.ident }

/-- The contexts an operation steps at. -/
def KvOp.ctxs (o : KvOp) : List Nat :=
  match o.kind with
  | .kvfork c _ _ => [o.desc.ctx, c.ctx]
  | _ => [o.desc.ctx]

/-- Does operation `q` of the same weave hold a later one back. -/
def KvOp.before (q o : KvOp) : Bool :=
  q.weave == o.weave && (q.kind.isAcq || q.ctxs.any o.ctxs.contains || ((match o.kind with
    | .kvpub .. => true
    | _ => false) && q.kind.isWrite))

/-- May an operation step now, apart from requests of the same cycle. -/
def State.kvFree (s : State) (id : Nat) (o : KvOp) : Bool :=
  o.fault.isNone && !(someT s.kvOps fun k q => k < id && q.before o) && !(o.kind.queries && s.acqBehind o.weave id)
    && (match o.kind with
      | .kvpub .. => s.lsQuietBefore o.weave id
      | _ => true)

/-- Fork increments, releases or privatisations as they reach the Umber unit (R193): the cycle, the partition, the changing
context, the writer id, the pages, and whether they privatise. -/
structure PageReq where
  at_    : Nat
  part   : Nat
  ctx    : Nat
  writer : Nat
  pages  : List Nat
  copies : Bool
  deriving DecidableEq, Repr

/-- The pages that hold positions at a layer. -/
def State.pagesAt (s : State) (x : Site) (k : KvDesc) (l : Nat) (ps : List Nat) : List Nat :=
  ps.filterMap fun p =>
    match s.pte x k l ((k.slotOf p).1 / 16) with
    | .ok e => if e.v then some e.page else none
    | .error _ => none

/-- Every entry of a context's page table: layer, page index and the entry. -/
def State.allPtes (s : State) (x : Site) (k : KvDesc) : KM (List (Nat × Nat × Pte)) :=
  (List.range (k.layers * k.pages)).foldlM (fun acc i => do
    let e ← s.pte x k (i / k.pages) (i % k.pages)
    pure (if e.v then acc ++ [(i / k.pages, i % k.pages, e)] else acc)) []

/-- The positions of a publication that are not published yet: it alters their headers alone (R192, R448). -/
def State.toPublish (s : State) (x : Site) (k : KvDesc) (l p0 p1 : Nat) : List Nat :=
  ((List.range (p1 - p0)).map (p0 + ·)).filter fun p => match s.published x k l p with
    | .ok b => !b
    | .error _ => true

/-- The request of an operation. A KVFORK and a KVREL name no writer and count as writer 0. Open points: DEDUCED, log 29. -/
def State.pageReq (s : State) (id : Nat) (o : KvOp) : PageReq :=
  let x := o.site id
  let mk (w : Nat) (ps : List Nat) (copies : Bool) : PageReq :=
    { at_ := o.at_, part := o.part, ctx := o.desc.ctx, writer := w, pages := ps, copies := copies }
  let all : List Nat := match s.allPtes x o.desc with
    | .ok es => es.map (·.2.2.page)
    | .error _ => []
  match o.kind with
  | .kvst p w l _ _ _ => mk w (s.pagesAt x o.desc l [p]) true
  | .kvpub p0 p1 w l _ _ => mk w (s.pagesAt x o.desc l (s.toPublish x o.desc l p0 p1)) true
  | .kvfork .. | .kvrel _ => mk 0 all false
  | _ => mk 0 [] false

/-- Of two requests for a page in one cycle, does `q` go first (R193): contexts other than the page's origin by writer id,
then by descriptor address; the origin last. Increments and decrements of counts give the same in every order: only beside a
privatisation is there one to keep. Open points: DEDUCED, log 29. -/
def State.goesFirst (s : State) (q r : PageReq) : Bool :=
  (q.copies || r.copies) && q.at_ == r.at_ && q.part == r.part && q.ctx != r.ctx && q.pages.any fun pg =>
    r.pages.contains pg &&
      (let org := (s.pageRec r.part pg).origin
       !(domKey q.part q.ctx == org)
         && (domKey r.part r.ctx == org || q.writer < r.writer || (q.writer == r.writer && q.ctx < r.ctx)))

/-- The first unpublished position of an open reservation at a layer. -/
def State.voidAt (s : State) (x : Site) (k : KvDesc) (r : Writer) (l : Nat) : KM (Option Nat) :=
  (List.range (r.stop - r.start)).foldlM (fun b i =>
    match b with
    | some p => pure (some p)
    | none => do
      if ← s.published x k l (r.start + i) then pure none else pure (some (r.start + i))) none

/-- Is a writer's open reservation one that is to be voided. -/
def State.owed (s : State) (v : Void) (w : Nat) (x : Writer) : Bool :=
  x.open_ && x.field == v.field && (match v.cohort with
    | some c => ((Tbl.find s.ctxs (ctxKey v.part v.desc)).bind fun r => Tbl.find r.owners w) == some c
    | none => true)

/-- The die whose Umber unit voids in a context: the one that homes its descriptor; die 0 where that cannot be translated.
Open points: DESIGN CHOICE, log 25. -/
def State.voidDie (s : State) (v : Void) : Nat :=
  match s.xlate 0 v.part v.desc.ctx 0 with
  | .ok pa => s.homeDie pa
  | .error _ => 0

def State.voidSite (s : State) (id : Nat) (v : Void) : Site := s.unitSite v.part (s.voidDie v) (.void id) v.scope

/-- The next void in a context: writer, layer and position. -/
def State.nextVoid (s : State) (x : Site) (v : Void) : KM (Option (Nat × Nat × Nat)) :=
  let k := v.desc
  (List.range k.wlimit).foldlM (fun b w =>
    match b with
    | some y => pure (some y)
    | none => do
      let r ← s.writer x k w
      if !(s.owed v w r) then pure none
      else
        (List.range k.layers).foldlM (fun b l =>
          match b with
          | some y => pure (some y)
          | none => do
            match ← s.voidAt x k r l with
            | some p => pure (some (w, l, p))
            | none => pure none) none) none

/-- The request of the next void. -/
def State.voidReq (s : State) (id : Nat) (v : Void) : PageReq :=
  let x := s.voidSite id v
  let mk (w : Nat) (ps : List Nat) : PageReq :=
    { at_ := v.at_, part := v.part, ctx := v.desc.ctx, writer := w, pages := ps, copies := true }
  match s.nextVoid x v with
  | .ok (some (w, l, p)) => mk w (s.pagesAt x v.desc l [p])
  | _ => mk 0 []

/-- Does another request of its cycle go before this one. -/
def State.unitBusy (s : State) (me : Option Nat) (r : PageReq) : Bool :=
  (someT s.kvOps fun k q => some k != me && q.res.isNone && s.kvFree k q && s.goesFirst (s.pageReq k q) r)
    || someT s.voids fun k v => some k != me && v.fault.isNone && s.goesFirst (s.voidReq k v) r

/-- May an operation step now. Open points: DEDUCED, log 29. -/
def State.kvReady (s : State) (id : Nat) (o : KvOp) : Bool := s.kvFree id o && !s.unitBusy (some id) (s.pageReq id o)

/-- The unit goes page by page (R193): of a publication's pages that other contexts hold too, the slot of one for which no other
request goes first. -/
def State.pageTurn (s : State) (id : Nat) (o : KvOp) (l p0 p1 : Nat) : Option Nat :=
  let x := o.site id
  ((s.toPublish x o.desc l p0 p1).map fun p => (o.desc.slotOf p).1).find? fun slot =>
    match s.pte x o.desc l (slot / 16) with
    | .ok e => e.v && decide ((s.pageRec o.part e.page).count > 1)
        && !s.unitBusy (some id) { s.pageReq id o with pages := [e.page] }
    | .error _ => false

/-! ### Steps -/

/-- What a step of an operation does: the state, its result, and the bits of WSTAT it sets. -/
structure KvDone where
  s    : State
  out  : KvOut
  bits : List Nat
  deriving DecidableEq, Repr

/-- A status code of R413. -/
def kvFail (code : Nat) : W64 := w64 (2 ^ 63 + code)

/-- APOS (R167, R415). -/
def State.stepApos (s : State) (x : Site) (o : KvOp) (w n : W64) (d : Nat) : KM KvDone := do
  let k := o.desc
  let fail (c : Nat) : KM KvDone := pure { s := s, out := .s d (kvFail c), bits := [] }
  if n.toNat = 0 ∨ n.toNat > 4096 then fail 5
  else if w.toNat ≥ k.wlimit then fail 4
  else
    let wr ← s.writer x k w.toNat
    if wr.open_ then fail 1
    else
      let p0 ← s.poscnt x k
      let fm ← s.fmin x k
      let q := p0 + n.toNat - 1
      if q ≥ 2 ^ 48 then fail 3
      else if q ≥ k.sinks + k.window ∧ q - k.window ≥ fm then fail 2
      else
        let s ← s.setPoscnt x k (p0 + n.toNat)
        let s ← s.setWriter x k w.toNat
          { start := p0, stop := p0 + n.toNat, scope := o.scopeH.toNat, field := o.ident.field, open_ := true }
        let key := ctxKey o.part k
        let old := Tbl.find s.ctxs key
        let c : CtxRec := { desc := k, fork := old.bind (·.fork)
                            owners := Tbl.put ((old.map (·.owners)).getD []) w.toNat o.ident.cohort }
        pure { s := { s with ctxs := Tbl.put s.ctxs key c }, out := .s d (w64 p0), bits := [] }

/-- The bytes of a KVST's source, on the KV path. -/
def State.kvSourceBytes (s : State) (o : KvOp) (src : List (Loc × Nat)) : List (BitVec 8) :=
  src.flatMap fun p => s.readVia o.ident.coreNum .kv p.1 p.2

/-- What KVST stores: K rotated at position `p`, V as it is, with the bits that the storing sets. -/
def kvConvert (k : KvDesc) (ks vs : Fmt) (p : Nat) (freq src : List (BitVec 8)) : List (BitVec 8) × List (BitVec 8) × Fl :=
  let n := k.heads * k.dim
  let at_ (f : Fmt) (base i : Nat) : Nat := bytesToNat ((src.drop (base + i * f.bytes)).take f.bytes)
  let angles := (List.range (k.dim / 2)).map fun i => rotAngle p (bytesToNat ((freq.drop (8 * i)).take 8))
  let kv := (List.range (n / 2)).flatMap fun j =>
    let sc := angles.getD (j % (k.dim / 2)) (0, 0)
    let r := rotPair sc (widen ks (at_ ks 0 (2 * j))) (widen ks (at_ ks 0 (2 * j + 1)))
    [narrow k.kfmt r.1, narrow k.kfmt r.2]
  let vv := (List.range n).map fun j => convert k.vfmt vs (at_ vs (n * ks.bytes) j) .rne true
  (kv.flatMap fun x => natToBytes k.kfmt.bytes x.1, vv.flatMap fun x => natToBytes k.vfmt.bytes x.1,
    (kv ++ vv).foldl (fun (f : Fl) x => f.or x.2) Fl.none_)

/-- The page of a KVST's slot: the first KVST of a position makes it private and sets the header, a later one finds both
(R172, R192). -/
def State.kvstPage (s : State) (x : Site) (k : KvDesc) (l p : Nat) : KM (Nat × State) := do
  let (slot, gen) := k.slotOf p
  let h ← s.head x k l slot
  if h.gen = gen ∧ h.st = 1 then pure ((← s.pte x k l (slot / 16)).page, s)
  else
    let (page, s) ← s.ownPage x k l slot
    pure (page, ← s.pageWrite x page (16 * (slot % 16)) (natToBytes 16 (gen + 2 ^ 48)))

/-- The slot write of a KVST (R172, R417). Open points: DESIGN CHOICE, log 24. -/
def State.stepKvst (s : State) (x : Site) (o : KvOp) (p w l : Nat) (ks vs : Fmt) (src : List (Loc × Nat)) : KM KvDone := do
  let k := o.desc
  let wr ← s.writer x k w
  let pub ← s.published x k l p
  if !(wr.open_ && wr.start ≤ p && p < wr.stop) || pub then pure { s := s, out := .none, bits := [] }
  else
    let freq ← s.lineRead x k.rot (4 * k.dim)
    let (page, s) ← s.kvstPage x k l p
    let i := (k.slotOf p).1 % 16
    let r := kvConvert k ks vs p freq (s.kvSourceBytes o src)
    let s ← s.pageWrite x page (k.kOff i) r.1
    let s ← s.pageWrite x page (k.vOff i) r.2.1
    pure { s := s, out := .none
           bits := (if r.2.2.sat then [wsSat] else []) ++ (if r.2.2.inexact then [wsInexact] else []) }

/-- The step of KVPUB (R173). -/
def State.stepKvpub (s : State) (x : Site) (o : KvOp) (p0 p1 w l : Nat) (void : Bool) (scope : Scope) : KM KvDone := do
  let s ← s.publish x o.desc l ((List.range (p1 - p0)).map (p0 + ·)) void (Scope.num scope) (.weave o.ident)
  let s ← s.closeWriter x o.desc w
  pure { s := s, out := .none, bits := [] }

/-- Positions below a frontier whose slots may still hold them: the sinks and the last window. -/
def KvDesc.recent (k : KvDesc) (f : Nat) : List Nat :=
  List.range (Nat.min k.sinks f) ++
    (List.range (f - Nat.max k.sinks (f - k.window))).map (Nat.max k.sinks (f - k.window) + ·)

/-- KVACQ (R176). Open points: DESIGN CHOICE, log 26. -/
def State.stepKvacq (s : State) (x : Site) (o : KvOp) (l : Nat) (scope : Scope) (d : Nat) : KM KvDone := do
  let k := o.desc
  let f ← s.frontier x k l
  let mm ← (k.recent f).foldlM (fun b p => do
    let h ← s.head x k l (k.slotOf p).1
    if h.gen ≠ (k.slotOf p).2 ∨ h.st < 2 then pure b
    else
      match s.publisherOf o.part k p h with
      | some (who, psc) =>
        pure (b || !(s.includes (some o.part) scope o.ident who && s.includes (some o.part) psc who o.ident))
      | none => pure b) false
  pure { s := s.acquireAt o.ident.coreNum, out := .s d (w64 f), bits := if mm then [wsMismatch] else [] }

/-- A slot as a KVLD sees it: as it was read already, or now. Open points: DESIGN CHOICE, log 26. -/
def State.kvSlot (s : State) (x : Site) (o : KvOp) (l slot : Nat) : KM SlotView :=
  match Tbl.find o.seen slot with
  | some v => pure v
  | none => s.slotView x o.desc l slot

/-- KVLD (R420): each slot is read once. -/
def State.stepKvld (s : State) (x : Site) (o : KvOp) (v : Bool) (head l elem : Nat) (pos : List (Nat × Nat)) (d : Nat) :
    KM KvDone := do
  let k := o.desc
  let pc ← s.poscnt x k
  let r ← pos.foldlM (fun (acc : List (Nat × W64) × Bool) q => do
    let f ← (if q.2 ≥ Nat.min pc (2 ^ 64) then pure Found.masked
      else do
        let w ← s.kvSlot x o l (k.slotOf q.2).1
        pure (k.found pc q.2 w) : KM Found)
    pure (match f with
      | .valid w => (acc.1 ++ [(q.1, (k.elem w v head elem).setWidth 64)], acc.2)
      | .masked => (acc.1 ++ [(q.1, 1#64 <<< 32)], acc.2)
      | .stale => (acc.1 ++ [(q.1, 2#64 <<< 32)], true))) ([], false)
  pure { s := s, out := .v d r.1, bits := if r.2 then [wsStale] else [] }

/-- HIDE bits of a child's entry (R190). -/
def State.childHide (s : State) (x : Site) (o : KvOp) (j fmin : Nat) (e : Pte) : KM Nat :=
  (List.range 16).foldlM (fun hide i => do
    if e.hides i then pure hide
    else
      let bs ← s.pageRead x e.page (16 * i) 16
      let h := headOf (bytesToNat bs) 0
      let slot := 16 * j + i
      if h.st = 1 ∨ (h.st ≠ 0 ∧ o.desc.posOf slot h.gen ≥ fmin) then pure (hide + 2 ^ i) else pure hide) e.hide

/-- The state area of a forked child: the frontier of every layer at Fmin, no writer; the entries above LAYERS, which name no
layer, are zero. Open points: DESIGN CHOICE, log 25. -/
def forkArea (k : KvDesc) (fmin : Nat) : List (BitVec 8) :=
  (List.range k.layers).flatMap (fun _ => natToBytes 8 fmin) ++ natToBytes (4096 - 8 * k.layers) 0

/-- KVFORK (R181, R190, R421). -/
def State.stepKvfork (s : State) (x : Site) (o : KvOp) (child : KvDesc) (scope : Scope) (d : Nat) : KM KvDone := do
  let cpos ← s.poscnt x child
  let copen ← s.anyOpen x child
  if cpos ≠ 0 ∨ copen then pure { s := s, out := .s d (kvFail 7), bits := [] }
  else
    let es ← s.allPtes x o.desc
    if es.any fun e => (s.pageRec o.part e.2.2.page).count ≥ 65535 then
      pure { s := s, out := .s d (kvFail 6), bits := [] }
    else
      let fm ← s.fmin x o.desc
      let s ← es.foldlM (fun (s : State) e => do
        let hide ← s.childHide x o e.2.1 fm e.2.2
        let s ← s.setPte x child e.1 e.2.1 { e.2.2 with hide := hide }
        let r := s.pageRec o.part e.2.2.page
        pure { s with pages := Tbl.put s.pages (domKey o.part e.2.2.page) { r with count := r.count + 1 } }) s
      let s ← s.setPoscnt x child fm
      let s ← s.kvWrite x child.pt (forkArea child fm)
      let c : CtxRec := { desc := child, fork := some (o.ident, scope, fm), owners := [] }
      pure { s := { s with ctxs := Tbl.put s.ctxs (ctxKey o.part child) c }, out := .s d (w64 fm), bits := [] }

/-- KVREL (R191, R422). -/
def State.stepKvrel (s : State) (x : Site) (o : KvOp) (d : Nat) : KM KvDone := do
  let k := o.desc
  if ← s.anyOpen x k then pure { s := s, out := .s d (kvFail 1), bits := [] }
  else
    let es ← s.allPtes x k
    let s ← es.foldlM (fun (s : State) e => do
      let s ← s.setPte x k e.1 e.2.1 { v := false, page := 0, hide := 0 }
      pure (s.dropRef o.part e.2.2.page)) s
    let s ← s.setPoscnt x k 0
    let s ← s.kvWrite x k.pt (natToBytes 4096 0)
    pure { s := { s with ctxs := Tbl.del s.ctxs (ctxKey o.part k) }, out := .s d 0, bits := [] }

/-- KVSTAT (R424). -/
def State.stepKvstat (s : State) (x : Site) (o : KvOp) (sel : KvSel) (l w d : Nat) : KM KvDone := do
  let v ← match sel with
    | .pos => s.poscnt x o.desc
    | .front => s.frontier x o.desc l
    | .start => (·.start) <$> s.writer x o.desc w
    | .end_ => (·.stop) <$> s.writer x o.desc w
    | .state => (fun x : Writer => if x.open_ then 1 else 0) <$> s.writer x o.desc w
  pure { s := s, out := .s d (w64 v), bits := [] }

/-- The step of an operation (R414). -/
def State.kvStep (s : State) (id : Nat) (o : KvOp) : KM KvDone :=
  let x := o.site id
  match o.kind with
  | .apos w n d => s.stepApos x o w n d
  | .kvst p w l ks vs src => s.stepKvst x o p w l ks vs src
  | .kvpub p0 p1 w l void scope => s.stepKvpub x o p0 p1 w l void scope
  | .kvacq l scope d => s.stepKvacq x o l scope d
  | .kvld v head l elem pos d => s.stepKvld x o v head l elem pos d
  | .kvfork child scope d => s.stepKvfork x o child scope d
  | .kvrel d => s.stepKvrel x o d
  | .kvstat sel l w d => s.stepKvstat x o sel l w d

/-- Writes the result of an operation; threads that have ended have none (R91, `Weave.takes`). -/
def Weave.kvResult (w : Weave) (o : KvOp) : KvOut → Weave
  | .none => w
  | .s d v => if w.takes o.lanes then w.setS d v else w
  | .v d vals => vals.foldl (fun w x => if w.live.has x.1 then w.setV64 d x.1 x.2 else w) w

/-- The operation leaves the KV path: result, WSTAT, marks, flag, and the requests it made of peers. -/
def State.finishKv (s : State) (id : Nat) (o : KvOp) (out : KvOut) (bits : List Nat) (err : Option Deferred) : State :=
  let s := if err.isSome then s.noteStatus o.part o.scopeH 4 else s
  let s := s.updWeave o.weave fun w =>
    let w := bits.foldl (fun w b => w.sticky b) (w.kvResult o out)
    let w := (w.unmark id).countDown o.flag
    match err with
    | some d => w.defer d
    | none => w
  { s with kvOps := Tbl.del s.kvOps id }.dropLegs (.kv id)

/-- An operation fails: PAGE_FAULT at its completion wait (R139, R188). -/
def State.failKv (s : State) (id : Nat) (o : KvOp) (kind : Nat) (ecc : Bool) : State :=
  s.finishKv id o .none [] (some (.page o.flag .kv kind ecc))

/-- What an operation asks of a peer has failed: REMOTE_FAULT at its completion wait (R184, R40).
Open points: DESIGN CHOICE, log 26. -/
def State.loseKv (s : State) (id : Nat) (o : KvOp) (peer : BitVec 9) : State :=
  s.finishKv id o .none [] (some (.mxRemote o.flag peer))

/-- A step that cannot be made goes to the fault service, to a peer or to the lenders of a pool, fails, or waits. -/
def State.kvStopped (s : State) (id : Nat) (o : KvOp) (e : KErr) : State :=
  let raise (lva kind : Nat) (alloc : Bool) : State :=
    let (fid, s) := s.raise o.part lva kind .kv (s.ownPeer o.part) (srcCore o.ident.coreNum) (.kv id) none alloc
    s.updKv id fun o => { o with fault := some fid }
  match e with
  | .xl .resolvable lva kind => raise lva kind false
  | .xl (.unresolvable ecc) _ kind => s.failKv id o kind ecc
  | .alloc pte => raise pte 1 true
  | .borrow k => s.poolBorrow k
  | .far peer g => s.ask ((o.site id).ask peer) (wholeGranule g)
  | .peer peer _ | .remote peer => s.loseKv id o peer
  | .xl .held _ _ | .wait => s

/-- The step of an operation is made: the operation completes once its writes at a peer are acknowledged (R184). -/
def State.kvAcked (s : State) (id : Nat) (o : KvOp) (out : KvOut) (bits : List Nat) : State :=
  if s.legsOut (.kv id) then s.updKv id fun o => { o with res := some (out, bits) }
  else
    match s.legError (.kv id) with
    | some peer => s.loseKv id o peer
    | none => s.finishKv id o out bits none

/-- A KVPUB that must wait for others at one page makes another private, where that one's turn is its own (R193). -/
def State.kvTurn (s : State) (id : Nat) (o : KvOp) : State :=
  match o.kind with
  | .kvpub p0 p1 _ l _ _ =>
    match (if s.kvFree id o then s.pageTurn id o l p0 p1 else none) with
    | none => s
    | some slot =>
      match s.ownPage (o.site id) o.desc l slot with
      | .ok r => r.2
      | .error e => s.kvStopped id o e
  | _ => s

/-- Performs the step of an operation whose kind satisfies a test. -/
def State.kvGo (s : State) (id : Nat) (f : KvKind → Bool) : State :=
  match Tbl.find s.kvOps id with
  | none => s
  | some o =>
    if !f o.kind then s
    else
      match o.res with
      | some r => s.kvAcked id o r.1 r.2
      | none =>
        if !s.kvReady id o then s.kvTurn id o
        else
          match s.kvStep id o with
          | .ok r => r.s.kvAcked id o r.out r.bits
          | .error e => s.kvStopped id o e

def KvKind.isSt : KvKind → Bool
  | .kvst .. => true
  | _ => false

def KvKind.isPub : KvKind → Bool
  | .kvpub .. => true
  | _ => false

/-- KVST_SLOT_WRITE. -/
def execKvstSlotWrite (id : Nat) (s : State) : Host.Outcome State Fault Refusal := .next (s.kvGo id KvKind.isSt)

/-- KVPUB_STEP. -/
def execKvpubStep (id : Nat) (s : State) : Host.Outcome State Fault Refusal := .next (s.kvGo id KvKind.isPub)

/-- KV_PATH_STEP: the step of an operation of another kind. -/
def execKvPathStep (id : Nat) (_ : Unit) (s : State) : Host.Outcome State Fault Refusal :=
  .next (s.kvGo id fun k => !(k.isSt || k.isPub))

/-- A KVLD reads one of its slots before its other reads (R178: no order between slots).
Open points: DESIGN CHOICE, log 26. -/
def State.kvReadNow (s : State) (id slot : Nat) : State :=
  match Tbl.find s.kvOps id with
  | none => s
  | some o =>
    match o.kind with
    | .kvld _ _ l _ _ _ =>
      if !s.kvFree id o || (Tbl.find o.seen slot).isSome || slot ≥ 16 * o.desc.pages then s
      else
        match s.slotView (o.site id) o.desc l slot with
        | .ok v => s.updKv id fun o => { o with seen := Tbl.put o.seen slot v }
        | .error (.far peer g) => s.ask ((o.site id).ask peer) (wholeGranule g)
        | .error _ => s
    | _ => s

/-! ### Voids (R94, R182) -/

/-- One void is written. Without any left the writer entries close, and the voids are reported.
Open points: DESIGN CHOICE, log 25. -/
def State.stepVoid (s : State) (x : Site) (v : Void) : KM (State × Bool) := do
  match ← s.nextVoid x v with
  | none =>
    let s ← (List.range v.desc.wlimit).foldlM (fun (s : State) w => do
      let r ← s.writer x v.desc w
      if s.owed v w r then s.setWriter x v.desc w { r with open_ := false } else pure s) s
    pure (s, false)
  | some (w, l, p) =>
    let s ← s.publish x v.desc l [p] true (Scope.num .sys) .device
    let s ← s.closeWriter x v.desc w
    pure (s, true)

/-- The end of the voids in a context: an entry of KIND 3 reports those of a field that was not cancelled (R182); a position
counts once for each layer. Open points: DESIGN CHOICE, log 25. -/
def State.endVoid (s : State) (id : Nat) (v : Void) : State :=
  let s := { s with voids := Tbl.del s.voids id }.dropLegs (.void id)
  if !v.report || v.count = 0 then s
  else s.record v.part { FaultEntry.blank with
      kind := 3, field := v.field, addr := domain (s.ownPeer v.part) v.desc.ctx, info := w64 v.count, scope := v.scope }

/-- What a void has written at a peer and lost is written again: a void is never dropped (R182). -/
def State.redoLegs (s : State) (x : Site) : State :=
  s.legs.foldl (fun (s : State) e =>
    if e.2.owner == x.owner && e.2.answer == some .error && s.mayAsk (x.ask e.2.peer) then
      { s with legs := Tbl.del s.legs e.1 }.ask (x.ask e.2.peer) e.2.pkt.accs
    else s) s

/-- VOID_WRITE: the KV operations of a killed cohort complete first (R91); a fault is served for the Umber unit (R446), and a void is never dropped.
Open points: DESIGN CHOICE, log 25. -/
def execVoidWrite (id : Nat) (s : State) : Host.Outcome State Fault Refusal :=
  .next (match Tbl.find s.voids id with
    | none => s
    | some v =>
      let early : Bool := match v.cohort with
        | some c => someT s.kvOps fun _ o => o.ident.cohort == c
        | none => false
      let x := s.voidSite id v
      if early || v.fault.isSome || s.unitBusy (some id) (s.voidReq id v) then s
      else if (s.legError x.owner).isSome then s.redoLegs x
      else
        let raise (lva kind : Nat) (alloc : Bool) : State :=
          let (fid, s) := s.raise v.part lva kind .kv (s.ownPeer v.part) (srcAgent (s.voidDie v)) (.void id) none alloc
          { s with voids := Tbl.upd s.voids id fun v => { v with fault := some fid } }
        match s.stepVoid x v with
        | .ok (s, true) =>
          let s := { s with voids := Tbl.upd s.voids id fun v => { v with count := v.count + 1 } }
          (match v.cancel with
           | some c => { s with cancels := Tbl.upd s.cancels c fun x => { x with voided := x.voided + 1 } }
           | none => s)
        | .ok (s', false) => if s.legsOut x.owner then s else s'.endVoid id v
        | .error (.xl .held _ _) | .error .wait | .error (.peer _ _) | .error (.remote _) => s
        | .error (.xl _ lva kind) => raise lva kind false
        | .error (.alloc pte) => raise pte 1 true
        | .error (.borrow k) => s.poolBorrow k
        | .error (.far peer g) => s.ask (x.ask peer) (wholeGranule g))

end Sys2Proof.Machine
end

