-- ==== Sys2Proof/Machine/MatrixNum.lean ====
section
/-! DEFINITION. The arithmetic of the matrix array: the chunk sums of R212–R215, the Hadamard converter of R210, one GEMM
element (R225) and one row of an attention tile (R228). -/

namespace Sys2Proof.Machine

open Sys2Proof

/-! ### Chunk sums -/

/-- Fraction bits of a format's significand (R200, R201). -/
def fracBits (f : Fmt) : Nat := if f = .e5f2 then 2 else (Fmt.shape f).2.1

/-- A product of a chunk, of two operands with the fraction bits of each. -/
structure Prod where
  a  : Val
  fa : Nat
  b  : Val
  fb : Nat
  deriving DecidableEq, Repr

def Prod.nan (p : Prod) : Bool :=
  p.a.isNan || p.b.isNan || (match p.a, p.b with
    | .inf _, .fin _ m _ => m == 0
    | .fin _ m _, .inf _ => m == 0
    | _, _ => false)

/-- The sign of an infinite product. -/
def Prod.infSign (p : Prod) : Option Bool :=
  match p.a, p.b with
  | .inf s, y => some (s != y.sign)
  | x, .inf t => some (x.sign != t)
  | _, _ => none

/-- Sign, integer product of the significands, the exponent x of R213 and the fraction bits of a finite nonzero
product. -/
def Prod.term (p : Prod) : Option (Bool × Nat × Int × Nat) :=
  match p.a, p.b with
  | .fin s m e, .fin t n f => if m * n = 0 then none else some (s != t, m * n, e + p.fa + (f + p.fb), p.fa + p.fb)
  | _, _ => none

/-- R213 and R215: the value of a chunk. -/
def chunk48 (ps : List Prod) : Val :=
  if ps.any Prod.nan then .nan false
  else
    match ps.filterMap Prod.infSign with
    | s :: r => if r.all (· == s) then .inf s else .nan false
    | [] =>
      match ps.filterMap Prod.term with
      | [] => .fin false 0 0
      | t0 :: ts =>
        let x := ts.foldl (fun x t => max x t.2.2.1) t0.2.2.1
        let sum : Int := (t0 :: ts).foldl (fun acc t =>
          let k : Int := t.2.2.1 - x + 40 - t.2.2.2
          let v : Int := (t.2.1 * pow2 k / pow2 (-k) : Nat)
          acc + (if t.1 then -v else v)) 0
        .fin (sum < 0) sum.natAbs (x - 40)

/-- R214 and R215: a CB2 chunk from its signs and doubled components, and the activations. -/
def chunk20 (ws : List (Bool × Nat)) (as : List Val) : Val :=
  if as.any Val.isNan then .nan false
  else
    let ps := ws.zip as
    match ps.filterMap fun p => (match p.2 with
        | .inf s => some (s != p.1.1)
        | _ => none) with
    | s :: r => if r.all (· == s) then .inf s else .nan false
    | [] =>
      match ps.filterMap fun p => (match p.2 with
          | .fin s m e => if m = 0 then none else some (s != p.1.1, p.1.2 * m, e - 1)
          | _ => none) with
      | [] => .fin false 0 0
      | t0 :: ts =>
        let y := ts.foldl (fun y t => max y t.2.2) t0.2.2
        let sum : Int := (t0 :: ts).foldl (fun acc t =>
          let k : Int := t.2.2 - y + 7
          let v : Int := (t.2.1 * pow2 k / pow2 (-k) : Nat)
          acc + (if t.1 then -v else v)) 0
        .fin (sum < 0) sum.natAbs (y - 7)

/-- A value times a power of two. -/
def Val.scale (v : Val) (k : Int) : Val :=
  match v with
  | .fin s m e => .fin s m (e + k)
  | v => v

/-- Promotion of a chunk to FP32: one rounding (R212). -/
def promote (v : Val) : W32 := BitVec.ofNat 32 (packFp .fp32 v .rne false).1

/-! ### The Hadamard converter (R210) -/

/-- One butterfly stage. -/
def hadStep (st : Nat) (x : List W32) : List W32 :=
  (List.range x.length).map fun i =>
    if i / st % 2 = 0 then f32Add (x.getD i 0) (x.getD (i + st) 0) else f32Sub (x.getD (i - st) 0) (x.getD i 0)

/-- Groups of `n` values transformed. -/
def hadGroups (n : Nat) (x : List W32) : List W32 :=
  (List.range (x.length / n)).flatMap fun g =>
    ((if n = 16 then [1, 2, 4, 8] else [1, 2, 4, 8, 16]).foldl (fun v st => hadStep st v) ((x.drop (g * n)).take n))

/-- A row of activations as the array receives it: the values, and their fraction bits. -/
def actRow (afmt : Fmt) (had : Nat) (hfmt : Fmt) (codes : List Nat) : List Val × Nat :=
  if had = 0 then (codes.map (value afmt), fracBits afmt)
  else
    let y := hadGroups (if had = 1 then 16 else 32) (codes.map fun c => BitVec.ofNat 32 (convert .fp32 afmt c .rne false).1)
    (y.map fun x => value hfmt (convert hfmt .fp32 x.toNat .rne true).1, fracBits hfmt)

/-- The exponent of the scaling of a Hadamard stream (R211). -/
def hadShift (had : Nat) : Int := if had = 1 then -4 else if had = 2 then -5 else 0

/-! ### GEMM (R225) -/

/-- A weight tile by chunk and column: 32 codes, or the four CB2 indices and the scale. -/
inductive WChunk where
  | codes (f : Fmt) (ws : List Nat)
  | cb2 (idx : List (BitVec 16)) (scale : Nat)
  deriving DecidableEq, Repr

/-- The value of a chunk of one row and one column. -/
def chunkValue (w : WChunk) (as : List Val) (fa : Nat) (had : Nat) : W32 :=
  match w with
  | .codes f ws =>
    let ps := (as.zip ws).map fun p => ({ a := p.1, fa := fa, b := value f p.2, fb := fracBits f } : Prod)
    promote (Val.scale (chunk48 ps) (hadShift had))
  | .cb2 idx scale =>
    if scale = 255 then promote (.nan false)
    else
      let ws := idx.flatMap fun i => (List.range 8).map fun j => cb2Weight i j
      promote (Val.scale (chunk20 ws as) ((scale : Int) - 127 + hadShift had))

/-- One element: the chunks are added in increasing k. -/
def gemmElem (acc : W32) (ws : List WChunk) (as : List Val) (fa had : Nat) : W32 :=
  ws.zipIdx.foldl (fun acc (w, c) => f32Add acc (chunkValue w ((as.drop (32 * c)).take 32) fa had)) acc

/-! ### Attention (R228) -/

/-- A key position's K and V codes. -/
structure KvRow where
  k : List Nat
  v : List Nat
  deriving DecidableEq, Repr

/-- A dot product of a query row and a key, chunk by chunk from +0 (R212). -/
def attnDot (qf kf : Fmt) (q k : List Nat) : W32 :=
  (List.range ((q.length + 31) / 32)).foldl (fun acc c =>
    let ps := (((q.drop (32 * c)).take 32).zip ((k.drop (32 * c)).take 32)).map fun p =>
      ({ a := value qf p.1, fa := fracBits qf, b := value kf p.2, fb := fracBits kf } : Prod)
    f32Add acc (promote (chunk48 ps))) 0

/-- The running state of a row: m, l and O. -/
structure AttnSt where
  m    : W32
  l    : W32
  o    : List W32
  stop : Bool
  deriving DecidableEq, Repr

/-- The exact difference of two FP32 values. -/
def f32Diff (x y : W32) : Val := (value .fp32 x.toNat).add (value .fp32 y.toNat).neg .rne

def f32Finite (x : W32) : Bool := match value .fp32 x.toNat with
  | .fin .. => true
  | _ => false

/-- One block of at most 32 visible positions. -/
def attnBlock (qf kf vf : Fmt) (scale : W32) (q : List Nat) (st : AttnSt) (vis : List KvRow) : AttnSt :=
  if st.stop || vis.isEmpty then st
  else
    let xs := vis.map fun r => f32Mul scale (attnDot qf kf q r.k)
    if !(xs.all f32Finite) then { m := f32Nan, l := f32Nan, o := st.o.map fun _ => f32Nan, stop := true }
    else
      let mn := xs.foldl f32Max st.m
      let corr : W32 := if st.m = f32NegInf then 0
        else BitVec.ofNat 32 (packFp .fp32 (expVal (f32Diff st.m mn)) .rne false).1
      let ps := xs.map fun x => (packE5f2 (expVal (f32Diff x mn))).1
      let sum := ps.foldl (fun (v : Val) p => v.add (value .e5f2 p) .rne) (.fin false 0 0)
      let l := promote ((value .fp32 (f32Mul st.l corr).toNat).add sum .rne)
      let o := st.o.zipIdx.map fun (x, d) =>
        let prods := (ps.zip vis).map fun p =>
          ({ a := value .e5f2 p.1, fa := 2, b := value vf (p.2.v.getD d 0), fb := fracBits vf } : Prod)
        f32Add (f32Mul x corr) (promote (chunk48 prods))
      { m := mn, l := l, o := o, stop := false }

end Sys2Proof.Machine
end

