-- ==== Sys2Proof/Machine/Matrix.lean ====
section
/-! DEFINITION. Convergence registers, signing and submission; mask blocks, MZERO, MBUDGET and MSTAT (R218–R231, R234,
R237, R238, R425–R431, R435, R436). -/

namespace Sys2Proof.Machine

open Sys2Proof

/-! ### Convergence registers (R218, R219) -/

def Team.cvr (t : Team) (r : Nat) : Cv := Tbl.get t.cv Cv.initial r

def State.setCv (s : State) (tid r : Nat) (c : Cv) : State :=
  s.updTeam tid fun t => { t with cv := Tbl.set t.cv Cv.initial r c }

/-- The weaves of a set. -/
def setWeaves (m : W32) : List Nat := (List.range 32).filter fun i => m.getLsbD i

/-- The threads of weave `i` of a team that still live. -/
def State.liveOf (s : State) (tid i : Nat) : Lanes :=
  ((s.weaves.find? fun e => e.2.team == tid && e.2.idx == i).map fun e => e.2.live).getD 0

/-- Threads of weave `i` that have neither signed nor ended. -/
def State.unsigned (s : State) (tid : Nat) (c : Cv) (i : Nat) : Lanes :=
  lanesMinus (s.liveOf tid i) (Tbl.get c.signed 0 i)

/-- Has every thread of the set signed or ended (R219). -/
def State.allSigned (s : State) (tid : Nat) (c : Cv) : Bool := (setWeaves c.set).all fun i => s.unsigned tid c i == 0

/-- CONV_MISMATCH on a register. -/
def convMismatch (r : Nat) : Trap := .plain .convMismatch r

/-- MDECL (R218, R426). -/
def execMdecl (h : Hd) (d a : Nat) (s : State) : Host.Outcome State Fault Refusal :=
  issue (.mdecl h d a) s fun x =>
    let m : W32 := (x.w.getS a).extractLsb' 0 32
    let c := x.e.t.cvr d
    if m = 0 ∨ m.toNat / 2 ^ x.e.f.lr.weaves ≠ 0 ∨ c.st = .signing then .trap (convMismatch d)
    else .done (x.s.setCv x.e.tid d { c with st := .declared, set := m, signed := [], signers := [], snap := none })

/-! ### Descriptors (R223, R224, R226) -/

/-- Bits of a descriptor word. -/
def bitsOf (w : W64) (lo n : Nat) : Nat := w.toNat / 2 ^ lo % 2 ^ n

/-- A format by its code, if it is one (R198). -/
def fmtCode : Nat → Option Fmt
  | 0 => some .fp32
  | 1 => some .bf16
  | 2 => some .fp16
  | 3 => some .e4m3
  | 4 => some .e5m2
  | 5 => some .e8m0
  | 6 => some .e5f2
  | 7 => some .cb2
  | 8 => some .int8
  | 9 => some .uint8
  | 10 => some .int16
  | 11 => some .int32
  | 12 => some .uint32
  | _ => none

/-- R212 Table 9. -/
def pairing (w a : Fmt) : Bool :=
  let f8 (f : Fmt) := f == .e4m3 || f == .e5m2
  let f16 (f : Fmt) := f == .bf16 || f == .fp16
  (f8 w && f8 a) || (f16 w && f16 a) || (w == .cb2 && f8 a)

/-- A GEMM descriptor (R223 Table 2). -/
structure Mma where
  act     : W64
  wt      : W64
  wk      : Nat
  ak      : Nat
  rows    : Nat
  kch     : Nat
  wstride : Nat
  astride : Nat
  hfmt    : Nat
  zero    : Bool
  dst     : Nat
  had     : Nat
  afmt    : Nat
  wfmt    : Nat
  deriving DecidableEq, Repr

def mmaOf (ws : List W64) : Mma :=
  let w (i : Nat) : W64 := ws.getD i 0
  { act := w 0, wt := w 1, wk := bitsOf (w 2) 56 4, ak := bitsOf (w 2) 52 4, rows := bitsOf (w 2) 44 8
    kch := bitsOf (w 2) 32 12, wstride := bitsOf (w 2) 16 16, astride := bitsOf (w 2) 0 16, hfmt := bitsOf (w 3) 16 4
    zero := bitsOf (w 3) 15 1 == 1, dst := bitsOf (w 3) 11 4, had := bitsOf (w 3) 9 2, afmt := bitsOf (w 3) 4 4
    wfmt := bitsOf (w 3) 0 4 }

/-- Bytes of an element of activations. -/
def Mma.asize (m : Mma) : Nat := (((fmtCode m.afmt).map Fmt.bytes).getD 1)

def Mma.aFmt (m : Mma) : Fmt := (fmtCode m.afmt).getD .fp32

def Mma.wFmt (m : Mma) : Fmt := (fmtCode m.wfmt).getD .fp32

def Mma.hFmt (m : Mma) : Fmt := (fmtCode m.hfmt).getD .fp32

/-- Rows of the weight tile in memory and the bytes of each (R224). -/
def Mma.wRows (m : Mma) : Nat := if m.wfmt = 7 then m.kch else 32 * m.kch

def Mma.wRowBytes (m : Mma) : Nat := if m.wfmt = 7 then 576 else 64 * (m.wFmt).bytes

def Mma.aRowBytes (m : Mma) : Nat := 32 * m.kch * m.asize

/-- Does a descriptor keep the rules of R223 and R224. Open points: DEDUCED, log 62. -/
def mmaOk (ws : List W64) : Bool :=
  let m := mmaOf ws
  let w (i : Nat) : W64 := ws.getD i 0
  match fmtCode m.wfmt, fmtCode m.afmt with
  | some wf, some af =>
    let fed := if m.had = 0 then some af else fmtCode m.hfmt
    bitsOf (w 2) 60 4 == 0 && bitsOf (w 3) 20 44 == 0 && bitsOf (w 3) 8 1 == 0 && 1 ≤ m.rows && m.rows ≤ 64
      && 1 ≤ m.kch && m.kch ≤ 128 && m.astride % 16 == 0 && m.had != 3 && (m.had != 2 || m.kch % 2 == 0)
      && (if m.had = 0 then m.hfmt == 0 else (m.hfmt == 3 || m.hfmt == 4) && m.afmt ≤ 2)
      && (match fed with
        | some f => pairing wf f
        | none => false)
      && m.act.toNat % m.asize == 0 && m.wt.toNat % 64 == 0 && m.wstride ≥ m.wRowBytes
  | _, _ => false

/-- An attention-tile descriptor (R226 Table 3). -/
structure Attn where
  q      : W64
  kfirst : Nat
  kend   : Nat
  kvh    : Nat
  layer  : Nat
  qk     : Nat
  ck     : Nat
  stat   : Nat
  out    : Nat
  qfmt   : Nat
  mode   : Nat
  zero   : Bool
  rows   : Nat
  scale  : W32
  qpos   : Nat
  deriving DecidableEq, Repr

def attnOf (ws : List W64) : Attn :=
  let w (i : Nat) : W64 := ws.getD i 0
  { q := w 0, kfirst := bitsOf (w 1) 0 48, kend := bitsOf (w 2) 0 48, kvh := bitsOf (w 2) 56 8, layer := bitsOf (w 2) 48 8
    qk := bitsOf (w 3) 60 4, ck := bitsOf (w 3) 56 4, stat := bitsOf (w 3) 52 4, out := bitsOf (w 3) 48 4
    qfmt := bitsOf (w 3) 44 4, mode := bitsOf (w 3) 40 2, zero := bitsOf (w 3) 39 1 == 1, rows := bitsOf (w 3) 32 7
    scale := (w 3).extractLsb' 0 32, qpos := bitsOf (w 4) 0 48 }

def Attn.qFmt (m : Attn) : Fmt := (fmtCode m.qfmt).getD .fp32

/-- The rules of R226 that do not depend on the context. Open points: DEDUCED, log 62. -/
def attnOk (ws : List W64) (mask : Option MaskBlk) : Bool :=
  let m := attnOf ws
  let w (i : Nat) : W64 := ws.getD i 0
  bitsOf (w 1) 48 16 == 0 && bitsOf (w 4) 48 16 == 0 && bitsOf (w 3) 42 2 == 0 && m.mode != 3 && 1 ≤ m.rows
    && m.rows ≤ 64 && m.kfirst + 1 ≤ m.kend && m.kend ≤ m.kfirst + 2 ^ 24 && 1 ≤ m.qfmt && m.qfmt ≤ 4
    && m.stat != m.out
    && (m.mode != 1 || (match mask with
      | some b => m.rows ≤ b.count
      | none => false))

/-- REG_RANGE for an accumulator block (R254: field 5). -/
def blockTrap (b : Nat) : Trap := .plain .regRange (b + 5 * 256)

/-- Step 3 of R220. Open points: DEDUCED, log 62. -/
def descTrap (attn : Bool) (ws : List W64) (accBlk : Nat) (mask : Option MaskBlk) (opc : Nat) : Option Trap :=
  if attn then
    if !attnOk ws mask then some (illegal opc)
    else if (attnOf ws).stat ≥ accBlk then some (blockTrap (attnOf ws).stat)
    else if (attnOf ws).out ≥ accBlk then some (blockTrap (attnOf ws).out)
    else none
  else if !mmaOk ws then some (illegal opc)
  else if (mmaOf ws).dst ≥ accBlk then some (blockTrap (mmaOf ws).dst)
  else none

/-! ### Operand capabilities (R220 step 4) -/

/-- An operand: its register, the first byte of its first row from BASE, rows, stride and bytes of a row. -/
structure Range where
  k      : Nat
  off    : Nat
  rows   : Nat
  stride : Nat
  len    : Nat
  deriving DecidableEq, Repr

/-- Steps 1 to 4 of R126 on a range, and R129. -/
def rangeTrap (e : Env) (c : Cap) (r : Range) : Option Trap :=
  match capTagPerm c [0, 1, 2] (permR ||| permM) r.k with
  | some t => some t
  | none =>
    let bad := (List.range r.rows).any fun i =>
      let a := c.base + r.off + i * r.stride
      !(c.covers a r.len && (c.space == 0 || relativeRow e c a r.len))
    if bad then some (.plain .capBounds r.k) else none

/-- The first peer of a global range that the checks of R32 refuse. -/
def State.rangePeer (s : State) (e : Env) (c : Cap) (r : Range) : Option (Nat × PeerErr) :=
  if c.space != 0 then none
  else
    let a0 := (c.base + r.off) / 2 ^ 55
    let a1 := (c.base + r.off + (r.rows - 1) * r.stride + r.len - 1) / 2 ^ 55
    [a0, a1].findSome? fun p => (s.peerCheck e p).map fun w => (p, w)

def mmaRanges (m : Mma) : List Range :=
  [{ k := m.ak, off := m.act.toNat, rows := m.rows, stride := m.astride, len := m.aRowBytes },
   { k := m.wk, off := m.wt.toNat, rows := m.wRows, stride := m.wstride, len := m.wRowBytes }]

/-- The query operand of a tile: its first element, or its whole range once HEADDIM is known. -/
def attnRange (m : Attn) (elems : Nat) : Range :=
  { k := m.qk, off := m.q.toNat, rows := 1, stride := 0, len := elems * (m.qFmt).bytes }

/-- Step 4 of R220: the answer where an operand fails. -/
def Ctx.operandStop (x : Ctx) (attn : Bool) (ws : List W64) : Option Res :=
  let rs := if attn then [attnRange (attnOf ws) 1] else mmaRanges (mmaOf ws)
  let one (r : Range) : Option Res :=
    match rangeTrap x.e (x.w.getK r.k) r with
    | some t => some (.trap t)
    | none => (x.s.rangePeer x.e (x.w.getK r.k) r).map fun p => x.peerTrap p.1 (x.g.lanes.toList.headD 0) p.2
  match rs.findSome? one with
  | some r => some r
  | none => if attn then (x.kvCap (attnOf ws).ck permKv).map Res.trap else none

/-! ### Submission (R221) -/

/-- What a submission meets. -/
inductive SubStop where
  | trap (t : Trap)
  | peer (p : Nat) (w : PeerErr)
  | err (e : KErr)
  deriving DecidableEq, Repr

/-- The checks of R226 that depend on the context. -/
def attnCtxTrap (m : Attn) (d : KvDesc) (accBlk : Nat) (mask : Option MaskBlk) : Option Trap :=
  let blocks := (d.dim + 63) / 64
  if !(m.kvh < d.heads && m.layer < d.layers && pairing d.kfmt m.qFmt && !(m.out ≤ m.stat && m.stat < m.out + blocks)
      && (m.mode != 1 || (match mask with
        | some b => m.rows ≤ b.count
        | none => false))) then some (illegal 0xB1)
  else if m.out + blocks > accBlk then some (blockTrap (Nat.max accBlk m.out))
  else none

/-- The checks at submission of the request that a register would form; the tile's context.
Open points: DEDUCED, log 30. -/
def State.subCheck (s : State) (e : Env) (c : Cv) (snap : Snap) : Except SubStop (Option KvDesc) :=
  if !snap.attn then .ok none
  else
    let m := attnOf snap.words
    let ctxCap := snap.caps.getD 1 nullCap
    let site : Site := { part := e.part, core := e.t.core, staged := true, owner := .kv s.nextId, scopeH := e.f.scope, path := .kv
                         ident := s.ident e }
    match s.readDesc site ctxCap.base m.ck with
    | .error x => .error (.err x)
    | .ok (.error t) => .error (.trap t)
    | .ok (.ok d) =>
      match attnCtxTrap m d e.f.lr.accBlk c.mask with
      | some t => .error (.trap t)
      | none =>
        let r := attnRange m (m.rows * d.dim)
        let q := snap.caps.getD 0 nullCap
        match rangeTrap e q r with
        | some t => .error (.trap t)
        | none =>
          match s.rangePeer e q r with
          | some (p, w) => .error (.peer p w)
          | none => .ok (some d)

/-- The register is DECLARED again, without signatures. -/
def Cv.unsign (c : Cv) : Cv := { c with st := .declared, signed := [], signers := [], snap := none }

/-- The request is formed and waits for the Saffron queue. -/
def State.submit (s : State) (e : Env) (r : Nat) (c : Cv) (snap : Snap) (desc : Option KvDesc) : State :=
  let (id, s) := s.fresh
  let q : MxReq := { team := e.tid, part := e.part, scopeH := e.f.scope, cg := coreCg e.t.core, cv := r, snap := snap
                     desc := desc, mask := c.mask, signers := c.signers, st := .pending, batch := none
                     cancelled := false, submittedAt := s.clock, arrival := id, rowsRead := [], fault := none }
  State.setCv { s with mxReqs := Tbl.put s.mxReqs id q } e.tid r { c.unsign with pend := c.pend ++ [id] }

/-- Has a signing weave a KVACQ that is not complete (R419: no tile is submitted before), or an acquire on the LS path that is
not performed (R180). -/
def State.acqPending (s : State) (signers : List (Nat × Option Nat)) : Bool :=
  signers.any fun w => (someT s.kvOps fun _ o => o.kind.isAcq && w.1 == o.weave) || s.acqBehind w.1 s.nextId

/-- Decrements each signer's flag once for each issue it made (R221). -/
def State.signersDown (s : State) (signers : List (Nat × Option Nat)) : State :=
  signers.foldl (fun s w => s.updWeave w.1 fun x => x.countDown w.2) s

/-- SUBMITFAIL (R221, R69): the entry of KIND 7 and the vector. Open points: DEDUCED, log 30. -/
def State.submitFail (s : State) (e : Env) (r : Nat) (c : Cv) : State :=
  let s := (s.setCv e.tid r c.unsign).signersDown c.signers
  let s := s.record e.part { FaultEntry.blank with
    kind := 7, status := 0x12, queue := e.f.src.entry, team := e.t.num, cohort := e.c.index, field := e.f.number,
    scope := e.f.scope }
  s.reportVector e.part e.f.src

/-- The surroundings of a team, by some weave of it or none left. -/
def State.teamEnv (s : State) (tid : Nat) : Option Env :=
  match s.team tid with
  | none => none
  | some t =>
    match s.cohort t.cohort with
    | none => none
    | some c =>
      match s.field c.field with
      | none => none
      | some f =>
        let w : Weave := { team := tid, idx := 0, slot := 0, age := 0, live := 0, s := [], k := [], cf := [], v := [], p := []
                           wstat := 0, trapinfo := 0, frames := [], loops := [], marks := [], errs := [], groups := []
                           killed := false, dead := 0 }
        some { wid := 0, w := w, tid := tid, t := t, cid := t.cohort, c := c, fid := c.field, f := f }

/-- A request that is held at submission after the last thread's exit, for a register of a team. -/
def State.heldSubmission (s : State) (tid r : Nat) : Option (Nat × MxReq) :=
  s.mxReqs.find? fun e => e.2.team == tid && e.2.cv == r && e.2.st == .forming

/-- A register whose last thread ended without signing: the request is submitted, held for a fault, or fails (R219,
R221). A request already held is tried again once its fault is served. Open points: DEDUCED, log 30. -/
def State.submitByEnd (s : State) (tid r : Nat) : State :=
  match s.teamEnv tid with
  | none => s
  | some e =>
    let c := e.t.cvr r
    match c.snap with
    | none => s
    | some snap =>
      let held := s.heldSubmission tid r
      let waiting : Bool := match held with
        | some (_, q) => q.fault.isSome
        | none => false
      if c.st ≠ .signing ∨ !s.allSigned tid c ∨ waiting ∨ (snap.attn ∧ s.acqPending c.signers) then s
      else
        let drop (s : State) : State := match held with
          | some (id, _) => { s with mxReqs := Tbl.del s.mxReqs id }
          | none => s
        match s.subCheck e c snap with
        | .ok d => (drop s).submit e r c snap d
        | .error (.err (.xl .resolvable lva kind)) =>
          let (id, s) := match held with
            | some (id, _) => (id, s)
            | none => s.fresh
          let (fid, s) := s.raise e.part lva kind .kv (s.ownPeer e.part) (srcCore e.t.core) (.mx id) none false
          let q : MxReq := { team := tid, part := e.part, scopeH := e.f.scope, cg := coreCg e.t.core, cv := r, snap := snap
                             desc := none, mask := none, signers := [], st := .forming, batch := none, cancelled := false
                             submittedAt := s.clock, arrival := id, rowsRead := [], fault := some fid }
          { s with mxReqs := Tbl.put s.mxReqs id q }
        | .error (.err .wait) => s
        | .error _ => (drop s).submitFail e r c

/-- Every register of every team that a thread's end has completed (R219). -/
def State.submitEnded (s : State) : State :=
  s.teams.foldl (fun s (tid, t) =>
    t.cv.foldl (fun s (r, c) => if c.st = .signing then s.submitByEnd tid r else s) s) s

/-! ### MSIGN (R219–R221, R427) -/

/-- The error of a failed MLDMASK that the weave's MSIGN on the register raises (R230).
Open points: DESIGN CHOICE, log 33. -/
def Weave.maskErr (w : Weave) (r : Nat) : Option (BitVec 16 × Weave) :=
  match w.errs.find? fun d => (match d with
      | .mask _ cv _ => cv == r
      | _ => false) with
  | some (.mask f cv detail) => some (detail, { w with errs := w.errs.erase (.mask f cv detail) })
  | _ => none

/-- The snapshot of an issue (R220 step 5). -/
def Ctx.snap (x : Ctx) (attn : Bool) (b : Nat) : Snap :=
  let ws := (List.range (if attn then 5 else 4)).map fun i => x.w.getS (b + i)
  let ks := if attn then [(attnOf ws).qk, (attnOf ws).ck] else [(mmaOf ws).ak, (mmaOf ws).wk]
  { attn := attn, words := ws, caps := ks.map x.w.getK }

/-- The register as this issue leaves it (R220 steps 5 and 6). -/
def Ctx.signed (x : Ctx) (c : Cv) (snap : Snap) : Cv :=
  let old : Lanes := Tbl.get c.signed 0 x.w.idx
  { c with st := .signing, snap := some (c.snap.getD snap), signed := Tbl.put c.signed x.w.idx (old ||| x.act)
           signers := c.signers ++ [(x.e.wid, x.g.run.slot x.h.fs)] }

/-- The last signing submits; a failure traps here (R221). Open points: DEDUCED, log 30. -/
def Ctx.sign (x : Ctx) (r : Nat) (snap : Snap) : Res :=
  let c := x.signed (x.e.t.cvr r) snap
  let flag := x.g.run.slot x.h.fs
  if !x.w.canCount flag then .stall
  else
    let s := x.s.updWeave x.e.wid fun w => w.countUp flag
    if !s.allSigned x.e.tid c then .done (s.setCv x.e.tid r c)
    else if snap.attn && s.acqPending c.signers then .stall
    else
      match s.subCheck x.e c (c.snap.getD snap) with
      | .ok d => .done (s.submit x.e r c (c.snap.getD snap) d)
      | .error (.trap t) => .trap t
      | .error (.peer p w) => x.peerTrap p (x.g.lanes.toList.headD 0) w
      | .error (.err e) => x.kvErr e

/-- MSIGN (R219–R221, R427). -/
def execMsign (h : Hd) (attn : Bool) (d b : Nat) (s : State) : Host.Outcome State Fault Refusal :=
  issue (.msign h attn d b) s fun x =>
    match x.w.maskErr d with
    | some (detail, w) => .trapIn (x.s.setWeave x.e.wid w) (.plain .maskTopology detail.toNat)
    | none =>
      let c := x.e.t.cvr d
      let snap := x.snap attn b
      let again := (x.act &&& (Tbl.get c.signed 0 x.w.idx : Lanes)) != 0
      if c.st = .clear ∨ !c.set.getLsbD x.w.idx ∨ again then .trap (convMismatch d)
      else
        match descTrap attn snap.words x.e.f.lr.accBlk c.mask 0xB1 with
        | some t => .trap t
        | none =>
          match x.operandStop attn snap.words with
          | some r => r
          | none =>
            if x.act = 0 then .done x.s
            else if c.st = .signing ∧ c.snap ≠ some snap then .trap (convMismatch d)
            else x.sign d snap

/-! ### Reads on the MX path (R233, R235) -/

/-- Where a byte of a matrix operand lies. -/
def State.mxLoc (s : State) (die part tid : Nat) (c : Cap) (a : Nat) : KM Loc :=
  match c.space with
  | 1 => .ok (.spad tid a)
  | 2 => .ok (match s.team tid with
    | some t => match s.teamOf t.cohort (a / cohortStride) with
      | some o => .spad o (a % cohortStride)
      | none => noLoc
    | none => noLoc)
  | _ =>
    if a / 2 ^ 55 ≠ s.ownPeer part then .ok (.remote (BitVec.ofNat 9 (a / 2 ^ 55)) (BitVec.ofNat 55 a))
    else
      (s.kvPa die part (a % 2 ^ 55) 0).map .mem

/-- An operand's reader on the MX path: partition, team, the core whose die translates for it, whether that core's operand
staging may serve (R160), the owner of its requests to peers, and the granules it has read before. -/
structure MxSite where
  part  : Nat
  tid   : Nat
  core  : Nat
  stage : Bool
  owner : Owner
  got   : List (Loc × List (BitVec 8))
  deriving DecidableEq, Repr

/-- A granule of an operand at a peer: its bytes, or what must come first. -/
def State.mxFar (s : State) (o : Owner) (peer : BitVec 9) (granule : Nat) : KM (List (BitVec 8)) :=
  match s.legAt o peer granule false with
  | none => .error (.far peer granule)
  | some (_, l) =>
    match l.answer with
    | some (.values vs _) => .ok (replyBytes l.pkt.accs vs)
    | some .error => .error (.remote peer)
    | none => .error .wait

/-- Bytes of an operand: those read already, a peer's answer, staged ones, or memory's. Open points: DESIGN CHOICE, log 33. -/
def State.mxRead (s : State) (x : MxSite) (c : Cap) (a n : Nat) : KM (List (BitVec 8)) :=
  (chunksOf a n).foldlM (fun acc p =>
    match s.mxLoc (coreDie x.core) x.part x.tid c p.1 with
    | .error e => .error e
    | .ok (.remote peer lva) =>
      (s.mxFar x.owner peer (lva.toNat / 64)).map fun bs => acc ++ (bs.drop (lva.toNat % 64)).take p.2
    | .ok l =>
      match x.got.find? fun g => g.1 == l.granule with
      | some g => .ok (acc ++ (g.2.drop l.inGranule).take p.2)
      | none => .ok (acc ++ if x.stage then s.readVia x.core .mx l p.2 else s.locBytes l p.2)) []

/-- What the MX path of a team asks of a peer. Open points: DESIGN CHOICE, log 33. -/
def State.mxAsk (s : State) (x : MxSite) (peer : BitVec 9) : Ask :=
  { owner := x.owner, part := x.part, core := x.core, peer := peer, cls := .om, scope := .dom, path := .mx
    scopeH := match s.teamEnv x.tid with
      | some e => e.f.scope
      | none => 0
    ident := match s.teamEnv x.tid with
      | some e => s.ident e
      | none => s.deviceIdent x.part }

/-- Loads rows of an operand from the row-progress register on, up to a read that cannot be made: the rows loaded, and what
stops the load (R235). -/
def loadRows (rd : Nat → KM (List (BitVec 8))) : Nat → List (List (BitVec 8)) → List (List (BitVec 8)) × Option KErr
  | 0, acc => (acc, none)
  | n + 1, acc =>
    match rd acc.length with
    | .error e => (acc, some e)
    | .ok bs => loadRows rd n (acc ++ [bs])

/-! ### Mask blocks (R228–R231) -/

/-- A mask block from its bytes. -/
def maskOf (bs : List (BitVec 8)) : MaskBlk :=
  let n (o z : Nat) : Nat := bytesToNat ((bs.drop o).take z)
  { count := n 0 1, base := n 8 8, parent := (List.range 64).map fun i => n (16 + i) 1
    depth := (List.range 64).map fun i => n (80 + i) 1, row := (List.range 64).map fun i => w64 (n (144 + 8 * i) 8) }

/-- The checks on one node (R230 step 2): the detail code, if one fails. -/
def nodeErr (b : MaskBlk) (i : Nat) : Option Nat :=
  let p := b.parent.getD i 0
  let up := if p = 0xFF then (0#64, 0) else (b.row.getD p 0, b.depth.getD p 0)
  if p ≠ 0xFF ∧ p ≥ i then some 2
  else if b.depth.getD i 0 ≠ up.2 + 1 then some 3
  else if b.row.getD i 0 ≠ (up.1 ||| (1#64 <<< i)) then some 4
  else none

/-- The first failure of R230: detail code and node index. -/
def maskFault (bs : List (BitVec 8)) : Option (Nat × Nat) :=
  let b := maskOf bs
  if b.count = 0 ∨ b.count > 64 then some (1, 0)
  else
    match (List.range b.count).findSome? fun i => (nodeErr b i).map fun c => (c, i) with
    | some r => some r
    | none =>
      if ((bs.drop 1).take 7).any (· != 0) || b.base / 2 ^ 48 != 0 then some (5, 0)
      else ((List.range (64 - b.count)).map (b.count + ·)).findSome? fun i =>
        if b.parent.getD i 0 ≠ 0 ∨ b.depth.getD i 0 ≠ 0 ∨ b.row.getD i 0 ≠ 0 then some (5, i) else none

/-- MLDMASK (R229, R230, R428). -/
def execMldmask (h : Hd) (d a b : Nat) (s : State) : Host.Outcome State Fault Refusal :=
  issue (.mldmask h d a b) s fun x =>
    let c := x.w.getK a
    let off := (x.w.getS b).toNat
    let r : Range := { k := a, off := off, rows := 1, stride := 0, len := 656 }
    match rangeTrap x.e c r with
    | some t => .trap t
    | none =>
      if (c.base + off) % 16 ≠ 0 then .trap (.plain .misaligned a)
      else
        match x.s.rangePeer x.e c r with
        | some (p, w) => x.peerTrap p (x.g.lanes.toList.headD 0) w
        | none =>
          let flag := x.g.run.slot x.h.fs
          if !x.w.canCount flag then .stall
          else
            let (id, s) := x.s.fresh
            let m : MaskLoad := { weave := x.e.wid, team := x.e.tid, part := x.e.part, core := x.e.t.core, cv := d, cap := c
                                  addr := c.base + off, got := [], flag := flag, fault := none }
            .done (State.updWeave { s with maskLoads := Tbl.put s.maskLoads id m } x.e.wid fun w => w.countUp flag)

/-- A mask load ends: its flag falls, and what failed waits for its weave. -/
def State.endMask (s : State) (id : Nat) (m : MaskLoad) (err : Option Deferred) : State :=
  let s := s.updWeave m.weave fun w =>
    let w := w.countDown m.flag
    match err with
    | some d => w.defer d
    | none => w
  { s with maskLoads := Tbl.del s.maskLoads id }.dropLegs (.maskLoad id)

/-- The reader of a mask block. -/
def MaskLoad.site (m : MaskLoad) (id : Nat) : MxSite :=
  { part := m.part, tid := m.team, core := m.core, stage := true, owner := .maskLoad id, got := [] }

/-- The pieces of a mask block, read up to one that cannot be: the load pauses there (R139). -/
def State.maskRows (s : State) (id : Nat) (m : MaskLoad) : List (List (BitVec 8)) × Option KErr :=
  let cs := chunksOf m.addr 656
  loadRows (fun i => s.mxRead (m.site id) m.cap (cs.getD i (0, 0)).1 (cs.getD i (0, 0)).2) (cs.length - m.got.length) m.got

/-- A block that has been read is checked and latched (R230, R436). -/
def State.latchMask (s : State) (id : Nat) (m : MaskLoad) (bs : List (BitVec 8)) : State :=
  match maskFault bs with
  | some (code, node) => s.endMask id m (some (.mask m.flag m.cv (BitVec.ofNat 16 (node + code * 256))))
  | none =>
    let s := s.endMask id m none
    match s.team m.team with
    | some t => s.setCv m.team m.cv { t.cvr m.cv with mask := some (maskOf bs) }
    | none => s

/-- A mask load that cannot go on: its fault is served, it fails, or it waits. -/
def State.maskStopped (s : State) (id : Nat) (m : MaskLoad) (e : KErr) : State :=
  match e with
  | .xl .resolvable lva kind =>
    let (fid, s) := s.raise m.part lva kind .mx (s.ownPeer m.part) (srcCore m.core) (.maskLoad id) none false
    { s with maskLoads := Tbl.upd s.maskLoads id fun m => { m with fault := some fid } }
  | .xl (.unresolvable ecc) _ kind => s.endMask id m (some (.page m.flag .mx kind ecc))
  | .far peer g => s.ask (s.mxAsk (m.site id) peer) (wholeGranule g)
  | .remote peer | .peer peer _ => s.endMask id m (some (.mxRemote m.flag peer))
  | _ => s

/-- MLDMASK_COMPLETE: the block is read on the MX path, checked and latched. -/
def execMldmaskComplete (id : Nat) (_ : Unit) (s : State) : Host.Outcome State Fault Refusal :=
  .next (match Tbl.find s.maskLoads id with
    | none => s
    | some m =>
      if m.fault.isSome then s
      else
        let r := s.maskRows id m
        match r.2 with
        | none => s.latchMask id m r.1.flatten
        | some e =>
          let s := { s with maskLoads := Tbl.upd s.maskLoads id fun m => { m with got := r.1 } }
          s.maskStopped id { m with got := r.1 } e)

/-! ### MZERO, MBUDGET, MSTAT (R234, R237, R238, R429–R431) -/

/-- The accumulator blocks that a request writes. -/
def MxReq.blocks (q : MxReq) : List Nat :=
  if q.snap.attn then
    let m := attnOf q.snap.words
    let n := ((q.desc.map (·.dim)).getD 64 + 63) / 64
    m.stat :: (List.range n).map (m.out + ·)
  else [(mmaOf q.snap.words).dst]

/-- Does a submitted request of a team target one of some blocks. -/
def State.blocksBusy (s : State) (tid : Nat) (bs : List Nat) : Bool :=
  someT s.mxReqs fun _ q => q.team == tid && q.st != .forming && q.blocks.any bs.contains

/-- MZERO (R429). -/
def execMzero (h : Hd) (mask : BitVec 16) (s : State) : Host.Outcome State Fault Refusal :=
  issue (.mzero h mask) s fun x =>
    let bs := (List.range 16).filter fun i => mask.getLsbD i
    match bs.find? (· ≥ x.e.f.lr.accBlk) with
    | some b => .trap (blockTrap b)
    | none =>
      if x.s.blocksBusy x.e.tid bs then .stall
      else .done (x.s.updTeam x.e.tid fun t => { t with acc := keep t.acc fun i _ => !bs.contains (i / 4096) })

/-- MBUDGET (R237, R430). -/
def execMbudget (h : Hd) (a : Nat) (s : State) : Host.Outcome State Fault Refusal :=
  issue (.mbudget h a) s fun x =>
    let v := x.w.getS a
    .done (x.s.updTeam x.e.tid fun t => { t with deadline := bitsOf v 0 16, unitcap := bitsOf v 32 16 })

/-- Threads of the declared set that have signed, ended ones and empty lanes among them (R238). -/
def State.signedCount (s : State) (tid : Nat) (c : Cv) : Nat :=
  ((setWeaves c.set).map fun i => 32 - (s.unsigned tid c i).toList.length).foldl (· + ·) 0

/-- Selector 0x00. -/
def State.cvWord (s : State) (tid : Nat) (c : Cv) : Nat :=
  let st := match c.st with
    | .clear => 0
    | .declared => 1
    | .signing => 2
  c.set.toNat + (if c.st = .signing then s.signedCount tid c * 2 ^ 32 else 0) + st * 2 ^ 48
    + (if c.pend.isEmpty then 0 else 2 ^ 50) + (if c.mask.isSome then 2 ^ 51 else 0)

/-- A mask selector's value. -/
def maskWord (m : Option MaskBlk) (sel : Nat) : Nat :=
  match m with
  | none => 0
  | some b =>
    if sel = 1 then b.count + b.base % 2 ^ 48 * 2 ^ 16
    else if sel < 0x80 then (b.row.getD (sel - 0x40) 0).toNat
    else b.parent.getD (sel - 0x80) 0 + b.depth.getD (sel - 0x80) 0 * 256

/-- MSTAT (R431). -/
def execMstat (h : Hd) (sel : BitVec 8) (d a : Nat) (s : State) : Host.Outcome State Fault Refusal :=
  issue (.mstat h sel d a) s fun x =>
    let c := x.e.t.cvr a
    let v := if sel = 0 then x.s.cvWord x.e.tid c
      else if sel = 2 then x.e.t.charged.toNat * 2 ^ 32 + (x.s.bucket (coreCg x.e.t.core)).units % 2 ^ 32
      else maskWord c.mask sel.toNat
    .done (x.upd fun w => w.setS d (w64 v))

end Sys2Proof.Machine
end

