-- ==== Sys2Proof/Machine/Saffron.lean ====
section
/-! DEFINITION. The Saffron queue and the arrays: batches, budget, dispatch, and what a batch computes and writes (R216,
R217, R221, R225, R227, R228, R232–R237). -/

namespace Sys2Proof.Machine

open Sys2Proof

/-! ### The queue (R232, R233) -/

/-- Rows of a request. -/
def MxReq.rows (q : MxReq) : Nat := if q.snap.attn then (attnOf q.snap.words).rows else (mmaOf q.snap.words).rows

/-- What two requests of a batch share (R232). -/
inductive MxKey where
  | mma (part : Nat) (place : Nat × Nat × Nat) (wstride kch wfmt had : Nat)
  | attn (part ctx layer kvh kfirst kend : Nat)
  deriving DecidableEq, Repr

/-- The resolved location of a weight tile: a domain address, or a team's scratchpad and offset. -/
def State.weightPlace (s : State) (q : MxReq) : Nat × Nat × Nat :=
  let m := mmaOf q.snap.words
  let c := q.snap.caps.getD 1 nullCap
  let a := c.base + m.wt.toNat
  match c.space with
  | 1 => (1, q.team, a)
  | 2 => (1, ((s.team q.team).bind fun t => s.teamOf t.cohort (a / cohortStride)).getD 0, a % cohortStride)
  | _ => (0, 0, a)

def State.mxKey (s : State) (q : MxReq) : MxKey :=
  if q.snap.attn then
    let m := attnOf q.snap.words
    .attn q.part ((q.desc.map (·.ctx)).getD 0) m.layer m.kvh m.kfirst m.kend
  else
    let m := mmaOf q.snap.words
    .mma q.part (s.weightPlace q) m.wstride m.kch m.wfmt m.had

/-- The requests of a batch, in order of arrival. -/
def State.batchReqs (s : State) (b : Batch) : List (Nat × MxReq) :=
  b.reqs.filterMap fun i => (Tbl.find s.mxReqs i).map fun q => (i, q)

def State.batchRows (s : State) (b : Batch) : Nat := ((s.batchReqs b).map (·.2.rows)).foldl (· + ·) 0

def State.batchKey (s : State) (b : Batch) : Option MxKey := (s.batchReqs b).head?.map fun q => s.mxKey q.2

/-- Requests that hold an entry of a core group's queue. -/
def State.saffronHeld (s : State) (cg : Nat) : Nat := countT s.mxReqs fun _ q => q.cg == cg && q.st == .queued

/-- Is the team of a request its core's progress team (R80). -/
def State.isProgress (s : State) (tid : Nat) : Bool :=
  match s.team tid with
  | some t => s.progressTeam t.core == some tid
  | none => false

/-- Is the cohort of a team halted, saved or on its way there (R236). -/
def State.teamAway (s : State) (tid : Nat) : Bool :=
  match (s.team tid).bind fun t => s.cohort t.cohort with
  | some c => c.st == .halting || c.st == .saving || c.st == .saved
  | none => false

/-- May a pending request take an entry: one of 64 is reserved for the progress team. -/
def State.mayEnter (s : State) (q : MxReq) : Bool :=
  q.st == .pending && !s.teamAway q.team && s.saffronHeld q.cg < Config.saffronEntries - (if s.isProgress q.team then 0 else 1)

/-- The batch deadline of a team in cycles (R237). -/
def Team.deadlineCycles (t : Team) : Nat := if t.deadline = 0 then 2000 else Nat.max 64 t.deadline

/-- The open batch that a request joins. -/
def State.joins (s : State) (q : MxReq) : Option Nat :=
  firstKey s.batches fun _ b =>
    b.cg == q.cg && !b.closed && s.batchKey b == some (s.mxKey q) && s.batchRows b + q.rows ≤ Config.batchRows

/-- A request no longer waits in its register. -/
def State.unpend (s : State) (id : Nat) (q : MxReq) : State :=
  match s.team q.team with
  | some t =>
    let c := t.cvr q.cv
    s.setCv q.team q.cv { c with pend := dropName c.pend id }
  | none => s

/-- A batch closes at 256 rows (R233). -/
def State.closeFull (s : State) (b : Nat) : State :=
  match Tbl.find s.batches b with
  | some x => if s.batchRows x ≥ Config.batchRows then s.updBatch b fun x => { x with closed := true } else s
  | none => s

/-- SAFFRON_ENQUEUE: a pending request enters in submission order, and merges into an open batch or opens one.
Open points: DESIGN CHOICE, log 31. -/
def execSaffronEnqueue (req : Nat) (s : State) : Host.Outcome State Fault Refusal :=
  .next (match Tbl.find s.mxReqs req with
    | none => s
    | some q =>
      if !s.mayEnter q || someT s.mxReqs (fun _ o => o.arrival < q.arrival && o.cg == q.cg && s.mayEnter o) then s
      else
        let s1 := s.unpend req q
        match s.joins q with
        | some b =>
          let s1 := s1.updBatch b fun x => { x with reqs := x.reqs ++ [req] }
          let s1 := s1.updReq req fun q => { q with st := .queued, batch := some b }
          s1.closeFull b
        | none =>
          let (b, s1) := s1.fresh
          let wait := ((s.team q.team).map Team.deadlineCycles).getD 2000
          let x : Batch := { cg := q.cg, reqs := [req], closeAt := s.clock + wait, closed := false, passed := 0, core := none
                             got := [], tile := [], pc := none, seen := [], fault := none }
          let s1 := { s1 with batches := Tbl.put s1.batches b x }
          let s1 := s1.updReq req fun q => { q with st := .queued, batch := some b }
          s1.closeFull b)

/-- BATCH_DEADLINE. -/
def execBatchDeadline (batch : Nat) (s : State) : Host.Outcome State Fault Refusal :=
  .next (match Tbl.find s.batches batch with
    | some b => if s.clock ≥ b.closeAt then s.updBatch batch fun b => { b with closed := true } else s
    | none => s)

/-! ### Budget and dispatch (R236, R237) -/

/-- BUDGET_REFILL: the power manager fills a bucket; it holds at most what MSTAT can show.
Open points: DESIGN CHOICE, log 31. -/
def execBudgetRefill (cg : Nat) (units : W32) (s : State) : Host.Outcome State Fault Refusal :=
  .next (if cg < 32 then
      let b := s.bucket cg
      s.setBucket cg { b with units := Nat.min (2 ^ 32 - 1) (b.units + units.toNat) }
    else s)

/-- A tile of weights that an array may have latched: the first of a request, and the last (R216). -/
def State.tileKey (s : State) (q : MxReq) (t : Nat) : Nat × Nat :=
  let m := mmaOf q.snap.words
  let p := s.weightPlace q
  let rows := if m.wfmt = 7 then 2 else 64
  (((p.1 * 2 ^ 64 + p.2.1) * 2 ^ 64 + p.2.2 + t * rows * m.wstride),
    (m.wstride * 16 + m.wfmt) * 4 + Nat.min 2 (m.kch - 2 * t))

/-- Units of one request, without the load of a tile. -/
def MxReq.units (q : MxReq) : Nat :=
  if q.snap.attn then
    let m := attnOf q.snap.words
    m.rows * ((m.kend - m.kfirst + 31) / 32) * 3
  else
    let m := mmaOf q.snap.words
    m.rows * m.kch * (if m.wfmt = 1 ∨ m.wfmt = 2 then 2 else 1)

/-- Has an array the first tile of a batch latched. -/
def State.hasTile (s : State) (b : Batch) (core : Nat) : Bool :=
  match s.batchReqs b with
  | (_, q) :: _ => Tbl.find (s.bucket b.cg).latched core == some (s.tileKey q 0)
  | [] => false

/-- Must an array load a tile for a batch other than the one it has latched: the first, or what follows it. -/
def State.loads (s : State) (b : Batch) (core : Nat) : Bool :=
  match s.batchReqs b with
  | (_, q) :: _ => !q.snap.attn && (!s.hasTile b core || decide ((mmaOf q.snap.words).kch > 2))
  | [] => false

def State.batchUnits (s : State) (b : Batch) (core : Nat) : Nat :=
  ((s.batchReqs b).map (·.2.units)).foldl (· + ·) 0 + (if s.loads b core then 2048 else 0)

/-- Units charged to a team in the last 4,096 cycles. -/
def Team.recent (t : Team) (now : Nat) : Nat :=
  ((t.charges.filter fun c => now < c.1 + 4096).map (·.2)).foldl (· + ·) 0

/-- What each request of a batch is charged, with its team: the load of a tile falls to the first.
Open points: DESIGN CHOICE, log 31. -/
def State.batchCharges (s : State) (b : Batch) (core : Nat) : List (Nat × Nat) :=
  (s.batchReqs b).zipIdx.map fun (r, i) => (r.2.team, r.2.units + if i = 0 ∧ s.loads b core then 2048 else 0)

/-- Do the charges of a batch pass the UNITCAP of a team; charges that are above the cap by themselves are made once nothing
else is charged. Open points: DESIGN CHOICE, log 31; DEDUCED, log 60. -/
def State.overCap (s : State) (b : Batch) (core tid : Nat) : Bool :=
  match s.team tid with
  | some t =>
    let more := (((s.batchCharges b core).filter (·.1 == tid)).map (·.2)).foldl (· + ·) 0
    t.unitcap != 0 && t.recent s.clock != 0 && t.recent s.clock + more > t.unitcap
  | none => false

/-- The free arrays of a core group. -/
def State.freeArrays (s : State) (cg : Nat) : List Nat :=
  ((List.range 8).map (cg * 8 + ·)).filter fun core => !(someT s.batches fun _ b => b.core == some core)

/-- The array for a batch: one that has its first tile latched, or the first. Open points: DESIGN CHOICE, log 31. -/
def State.arrayFor (s : State) (b : Batch) (arrays : List Nat) : Option Nat :=
  match arrays.find? fun c => !s.loads b c || s.hasTile b c with
  | some c => some c
  | none => arrays.head?

/-- Charges a team. -/
def State.charge (s : State) (tid units : Nat) : State :=
  s.updTeam tid fun t => { t with charged := t.charged + w32 units
                                  charges := (s.clock, units) :: t.charges.filter fun c => s.clock < c.1 + 4096 }

/-- The batch starts on an array; older waiting ones are passed over. Open points: DESIGN CHOICE, log 31. -/
def State.dispatch (s : State) (id : Nat) (b : Batch) (core : Nat) : State :=
  let total := s.batchUnits b core
  let charges := s.batchCharges b core
  let rs := s.batchReqs b
  let latched := match rs with
    | (_, q) :: _ => if q.snap.attn then Tbl.del (s.bucket b.cg).latched core
        else Tbl.put (s.bucket b.cg).latched core (s.tileKey q (((mmaOf q.snap.words).kch - 1) / 2))
    | [] => (s.bucket b.cg).latched
  let s := s.setBucket b.cg { units := (s.bucket b.cg).units - total, latched := latched }
  let s := charges.foldl (fun s c => s.charge c.1 c.2) s
  let s := rs.foldl (fun s r => s.updReq r.1 fun q => { q with st := .running }) s
  { s with batches := mapT s.batches fun k x =>
      if k = id then { x with core := some core }
      else if k < id ∧ x.cg = b.cg ∧ x.closed ∧ x.core = none then { x with passed := x.passed + 1 } else x }

/-- The batch to dispatch: a batch passed over 64 times, else the oldest, else the cheapest that the bucket covers. -/
def State.pickBatch (s : State) (cg : Nat) : Option (Nat × Batch × Nat) :=
  let arrays := s.freeArrays cg
  let units := (s.bucket cg).units
  let ready := (s.batches.filter fun e => e.2.cg == cg && e.2.closed && e.2.core.isNone).filterMap fun e =>
    (s.arrayFor e.2 arrays).bind fun c =>
      if (s.batchReqs e.2).any fun q => s.overCap e.2 c q.2.team then none else some (e.1, e.2, c, s.batchUnits e.2 c)
  let pick (x : Nat × Batch × Nat × Nat) : Option (Nat × Batch × Nat) :=
    if x.2.2.2 ≤ units then some (x.1, x.2.1, x.2.2.1) else none
  match ready.find? fun x => x.2.1.passed ≥ 64 with
  | some x => pick x
  | none =>
    match ready with
    | [] => none
    | x :: r =>
      match pick x with
      | some y => some y
      | none => pick (r.foldl (fun b y => if y.2.2.2 < b.2.2.2 then y else b) x)

/-- BATCH_DISPATCH. -/
def execBatchDispatch (cg : Nat) (s : State) : Host.Outcome State Fault Refusal :=
  .next (match s.pickBatch cg with
    | some (id, b, core) => s.dispatch id b core
    | none => s)

/-! ### What a request computes -/

/-- Codes of `n` elements of a format. -/
def codesOf (f : Fmt) (bs : List (BitVec 8)) : List Nat :=
  (List.range (bs.length / f.bytes)).map fun i => bytesToNat ((bs.drop (i * f.bytes)).take f.bytes)

/-- Index of an accumulator element. -/
def accIdx (blk row col : Nat) : Nat := blk * 4096 + row * 64 + col

/-- An accumulator element as a request reads it (R233, R234): as it was read already, or now. -/
def State.accRead (s : State) (got : List (Loc × List (BitVec 8))) (tid idx : Nat) : W32 :=
  match got.find? fun g => g.1 == Loc.granule (.acc tid idx) with
  | some g => w32 (bytesToNat ((g.2.drop (idx % 16 * 4)).take 4))
  | none => match s.team tid with
    | some t => Tbl.get t.acc 0 idx
    | none => 0

/-- What a request writes: accumulator elements, and whether it found a stale slot. -/
structure MxOut where
  elems : List (Nat × W32)
  stale : Bool
  deriving DecidableEq, Repr

/-- The rows of a weight tile by column and chunk (R224). -/
def tileChunk (m : Mma) (rows : List (List (BitVec 8))) (n c : Nat) : WChunk :=
  if m.wfmt = 7 then
    let b := rows.getD c []
    .cb2 ((List.range 4).map fun i => BitVec.ofNat 16 (bytesToNat ((b.drop (8 * n + 2 * i)).take 2)))
      ((b.getD (512 + n) 0).toNat)
  else
    let z := (m.wFmt).bytes
    .codes m.wFmt ((List.range 32).map fun k => bytesToNat (((rows.getD (32 * c + k) []).drop (n * z)).take z))

/-- The core whose MX staging a request reads through (R160). -/
def State.reqCore (s : State) (q : MxReq) : Nat := ((s.team q.team).map (·.core)).getD 0

/-- The reader of what a batch shares: it may use the staging of a core only where all its requests come from that core.
Open points: DEDUCED, log 35. -/
def State.batchSite (s : State) (bid : Nat) (b : Batch) (q : MxReq) : MxSite :=
  { part := q.part, tid := q.team, core := s.reqCore q, stage := (s.batchReqs b).all fun r => s.reqCore r.2 == s.reqCore q
    owner := .batch bid, got := b.got }

/-- The reader of a request's activations or queries. -/
def State.reqSite (s : State) (id : Nat) (b : Batch) (q : MxReq) : MxSite :=
  { part := q.part, tid := q.team, core := s.reqCore q, stage := true, owner := .mx id, got := b.got }

/-- The weight tile's rows, each read once for the batch, from the row-progress register on (R233, R235). -/
def State.weightRows (s : State) (bid : Nat) (b : Batch) (q : MxReq) : List (List (BitVec 8)) × Option KErr :=
  let m := mmaOf q.snap.words
  let c := q.snap.caps.getD 1 nullCap
  loadRows (fun r => s.mxRead (s.batchSite bid b q) c (c.base + m.wt.toNat + r * m.wstride) m.wRowBytes)
    (m.wRows - b.tile.length) b.tile

/-- The rows of a request's own operand: activations, or queries of a head dimension, each read once (R233). -/
def State.ownRows (s : State) (id : Nat) (b : Batch) (q : MxReq) : List (List (BitVec 8)) × Option KErr :=
  let c := q.snap.caps.getD 0 nullCap
  let rd (a n : Nat) : KM (List (BitVec 8)) := s.mxRead (s.reqSite id b q) c (c.base + a) n
  if q.snap.attn then
    let m := attnOf q.snap.words
    let len := ((q.desc.map (·.dim)).getD 0) * (m.qFmt).bytes
    loadRows (fun i => rd (m.q.toNat + i * len) len) (m.rows - q.rowsRead.length) q.rowsRead
  else
    let m := mmaOf q.snap.words
    loadRows (fun i => rd (m.act.toNat + i * m.astride) m.aRowBytes) (m.rows - q.rowsRead.length) q.rowsRead

/-- A GEMM's result (R225). -/
def State.runMma (s : State) (b : Batch) (q : MxReq) : MxOut :=
  let m := mmaOf q.snap.words
  let chunks := (List.range 64).map fun n => (List.range m.kch).map fun i => tileChunk m b.tile n i
  { stale := false
    elems := q.rowsRead.zipIdx.flatMap fun (bs, i) =>
      let r := actRow m.aFmt m.had m.hFmt (codesOf m.aFmt bs)
      chunks.zipIdx.map fun (ws, n) =>
        let idx := accIdx m.dst i n
        (idx, gemmElem (if m.zero then 0 else s.accRead b.got q.team idx) ws r.1 r.2 m.had) }

/-- Is position `p` visible to row `i`, its slot apart (R227). -/
def Attn.sees (m : Attn) (mask : Option MaskBlk) (i p : Nat) : Bool :=
  match m.mode with
  | 0 => p ≤ m.qpos + i
  | 1 => match mask with
    | some b => p < b.base || (b.base ≤ p && p < b.base + b.count && (b.row.getD i 0).getLsbD (p - b.base))
    | none => false
  | _ => true

/-- The KV store as a batch reads it: as KV reads do, on the MX path (R177). -/
def State.tileSite (s : State) (bid : Nat) (q : MxReq) : Site :=
  { part := q.part, core := s.reqCore q, staged := false, owner := .batch bid, scopeH := q.scopeH, path := .mx
    ident := match s.teamEnv q.team with
      | some e => s.ident e
      | none => s.deviceIdent q.part }

/-- Reads slots that have not been read, up to one that cannot be. -/
def loadSlots (rd : Nat → KM SlotView) : List Nat → Tbl SlotView → Tbl SlotView × Option KErr
  | [], seen => (seen, none)
  | slot :: r, seen =>
    if (Tbl.find seen slot).isSome then loadSlots rd r seen
    else
      match rd slot with
      | .error e => (seen, some e)
      | .ok v => loadSlots rd r (Tbl.put seen slot v)

/-- The positions of a tile below POSCNT. -/
def Attn.range (m : Attn) (pc : Nat) : List Nat := (List.range (Nat.min m.kend pc - m.kfirst)).map (m.kfirst + ·)

/-- The batch with POSCNT and the key and value slots of its tile read, each once, as far as they can be (R233). -/
def State.tileSlots (s : State) (bid : Nat) (b : Batch) (q : MxReq) (d : KvDesc) : Batch × Option KErr :=
  let m := attnOf q.snap.words
  let x := s.tileSite bid q
  match (match b.pc with
    | some pc => .ok pc
    | none => s.poscnt x d : KM Nat) with
  | .error e => (b, some e)
  | .ok pc =>
    let r := loadSlots (s.slotView x d m.layer) ((m.range pc).map fun p => (d.slotOf p).1) b.seen
    ({ b with pc := some pc, seen := r.1 }, r.2)

/-- What a tile finds at each of its positions. -/
def Batch.found (b : Batch) (m : Attn) (d : KvDesc) : List (Nat × Found) :=
  let pc := b.pc.getD 0
  (m.range pc).map fun p => (p, match Tbl.find b.seen (d.slotOf p).1 with
    | some v => d.found pc p v
    | none => .masked)

/-- Codes of one head of a slot's K or V. -/
def KvDesc.headCodes (d : KvDesc) (v : SlotView) (isV : Bool) (h : Nat) : List Nat :=
  let f := if isV then d.vfmt else d.kfmt
  codesOf f ((v.data.drop ((if isV then d.kBytes else 0) + h * d.dim * f.bytes)).take (d.dim * f.bytes))

/-- One row of an attention tile (R228): blocks of 32 positions from KFIRST on. -/
def attnRow (m : Attn) (d : KvDesc) (mask : Option MaskBlk) (slots : List (Nat × Found)) (i : Nat) (q : List Nat)
    (st : AttnSt) : AttnSt :=
  (List.range ((m.kend - m.kfirst + 31) / 32)).foldl (fun st b =>
    let vis := ((slots.drop (32 * b)).take 32).filterMap fun x =>
      match x.2 with
      | .valid v => if m.sees mask i x.1 then
          some ({ k := d.headCodes v false m.kvh, v := d.headCodes v true m.kvh } : KvRow) else none
      | _ => none
    attnBlock m.qFmt d.kfmt d.vfmt m.scale q st vis) st

/-- The state of a row before its first block (R228). -/
def State.attnStart (s : State) (b : Batch) (q : MxReq) (m : Attn) (d : KvDesc) (i : Nat) : AttnSt :=
  let rd (blk col : Nat) : W32 := s.accRead b.got q.team (accIdx blk i col)
  { m := if m.zero then f32NegInf else rd m.stat 0
    l := if m.zero then 0 else rd m.stat 1
    o := (List.range d.dim).map fun x => if m.zero then 0 else rd (m.out + x / 64) (x % 64)
    stop := false }

/-- The elements that a row's state gives. -/
def Attn.rowOut (m : Attn) (i : Nat) (st : AttnSt) : List (Nat × W32) :=
  [(accIdx m.stat i 0, st.m), (accIdx m.stat i 1, st.l)]
    ++ st.o.zipIdx.map fun (v, x) => (accIdx (m.out + x / 64) i (x % 64), v)

/-- An attention tile's result. -/
def State.runAttn (s : State) (b : Batch) (q : MxReq) (d : KvDesc) : MxOut :=
  let m := attnOf q.snap.words
  let slots := b.found m d
  { stale := slots.any fun x => x.2 == .stale
    elems := q.rowsRead.zipIdx.flatMap fun (bs, i) =>
      m.rowOut i (attnRow m d q.mask slots i (codesOf m.qFmt bs) (s.attnStart b q m d i)) }

/-! ### Completion (R221, R233–R235) -/

/-- A request ends: its flags fall; WSTAT and errors go to each signing weave (R235). -/
def State.endReq (s : State) (id : Nat) (q : MxReq) (stale : Bool) (err : Option (Option Nat → Deferred)) : State :=
  let s := if err.isSome then s.noteStatus q.part q.scopeH 4 else s
  let s := (q.signers.eraseDups).foldl (fun s w => s.updWeave w.1 fun x =>
    let x := if stale then x.sticky wsStale else x
    match err with
    | some d => x.defer (d w.2)
    | none => x) s
  let s := s.signersDown q.signers
  let s := s.unpend id q
  let s := { s with mxReqs := Tbl.del s.mxReqs id }.dropLegs (.mx id)
  match q.batch with
  | some b => s.updBatch b fun x => { x with reqs := x.reqs.filter (· != id) }
  | none => s

/-- Writes a request's elements; those of a cancelled one are not written (R91). -/
def State.writeElems (s : State) (q : MxReq) (es : List (Nat × W32)) : State :=
  if q.cancelled then s
  else s.updTeam q.team fun t => { t with acc := es.foldl (fun a e => Tbl.set a 0 e.1 e.2) t.acc }

/-- A read of a request's own operands failed: served, failed alone, or waited for (R235). -/
def State.reqStopped (s : State) (id : Nat) (b : Batch) (q : MxReq) (e : KErr) : State :=
  match e with
  | .xl .resolvable lva kind =>
    let (fid, s) := s.raise q.part lva kind .mx (s.ownPeer q.part) (srcCore (s.reqCore q)) (.mx id) none false
    s.updReq id fun q => { q with fault := some fid }
  | .xl (.unresolvable ecc) _ kind => s.endReq id q false (some fun f => .page f .mx kind ecc)
  | .far peer g => s.ask (s.mxAsk (s.reqSite id b q) peer) (wholeGranule g)
  | .remote p | .peer p _ => s.endReq id q false (some fun f => .mxRemote f p)
  | _ => s

/-- Every request of a batch fails (R235). -/
def State.failBatch (s : State) (bid : Nat) (d : Option Nat → Deferred) : State :=
  match Tbl.find s.batches bid with
  | some b => State.dropLegs { ((s.batchReqs b).foldl (fun s r => s.endReq r.1 r.2 false (some d)) s) with
      batches := Tbl.del s.batches bid } (.batch bid)
  | none => s

/-- A read of what a batch shares, for a request of it, failed. -/
def State.batchStopped (s : State) (bid : Nat) (b : Batch) (q : MxReq) (e : KErr) : State :=
  match e with
  | .xl .resolvable lva kind =>
    let (fid, s) := s.raise q.part lva kind .mx (s.ownPeer q.part) (srcCore (s.reqCore q)) (.batch bid) none false
    s.updBatch bid fun b => { b with fault := some fid }
  | .xl (.unresolvable ecc) _ kind => s.failBatch bid fun f => .page f .mx kind ecc
  | .far peer g => s.ask (s.mxAsk (s.batchSite bid b q) peer) (wholeGranule g)
  | .remote p | .peer p _ => s.failBatch bid fun f => .mxRemote f p
  | _ => s

/-- Does an earlier request of the same team write an overlapping block (R234). Open points: DEDUCED, log 60. -/
def State.reqAfter (s : State) (id : Nat) (q : MxReq) : Bool :=
  someT s.mxReqs fun k o =>
    k != id && o.arrival < q.arrival && o.team == q.team && o.st != .forming && o.blocks.any q.blocks.contains

/-- What a request computes once its batch and it have read their operands. -/
def State.runReq (s : State) (b : Batch) (q : MxReq) : MxOut :=
  match q.snap.attn, q.desc with
  | true, some d => s.runAttn b q d
  | _, _ => s.runMma b q

/-- Completes one request of a batch that has read what it shares. -/
def State.completeReq (b : Batch) (s : State) (id : Nat) : State :=
  match Tbl.find s.mxReqs id with
  | none => s
  | some q =>
    if q.fault.isSome || s.reqAfter id q then s
    else
      let r := s.ownRows id b q
      let q' := { q with rowsRead := r.1 }
      match r.2 with
      | some e => (s.updReq id fun q => { q with rowsRead := r.1 }).reqStopped id b q' e
      | none =>
        let o := s.runReq b q'
        (s.writeElems q o.elems).endReq id q o.stale none

/-- A batch without requests is gone. -/
def State.dropEmpty (s : State) (bid : Nat) : State :=
  match Tbl.find s.batches bid with
  | some b => if b.reqs.isEmpty then { s with batches := Tbl.del s.batches bid }.dropLegs (.batch bid) else s
  | none => s

/-- The batch with what it shares read as far as it can be, and what stops the load (R233, R235). -/
def State.loadShared (s : State) (bid : Nat) (b : Batch) (q : MxReq) : Batch × Option KErr :=
  match q.snap.attn, q.desc with
  | true, some d => s.tileSlots bid b q d
  | true, none => (b, none)
  | false, _ =>
    let r := s.weightRows bid b q
    ({ b with tile := r.1 }, r.2)

/-- BATCH_COMPLETE: what the batch shares is read once, and its requests are computed and written in order. -/
def execBatchComplete (batch : Nat) (_ : Unit) (s : State) : Host.Outcome State Fault Refusal :=
  .next (match Tbl.find s.batches batch with
    | none => s
    | some b =>
      if b.core.isNone || b.fault.isSome then s
      else
        match s.batchReqs b with
        | [] => s.dropEmpty batch
        | (_, q) :: _ =>
          let r := s.loadShared batch b q
          let s := s.updBatch batch fun _ => r.1
          match r.2 with
          | some e => s.batchStopped batch r.1 q e
          | none => (b.reqs.foldl (State.completeReq r.1) s).dropEmpty batch)

/-! ### Early reads (R233), withdrawal (R91, R236) -/

/-- A dispatched batch reads a granule before its other reads. -/
def State.mxReadNow (s : State) (bid : Nat) (l : Loc) : State :=
  match Tbl.find s.batches bid with
  | none => s
  | some b =>
    let early : Bool := match l with
      | .mem pa => s.memSt pa != .ready
      | .acc t i => (s.batchReqs b).any fun q => q.2.team == t && q.2.blocks.contains (i / 4096) && s.reqAfter q.1 q.2
      | .spad _ _ => false
      | _ => true
    if b.core.isNone || early || (b.got.any fun g => g.1 == l.granule) then s
    else s.updBatch bid fun b => { b with got := b.got ++ [(l.granule, s.locBytes l.granule 64)] }

/-- A dispatched attention batch reads one slot before its other reads. Open points: DESIGN CHOICE, log 26. -/
def State.mxSlotNow (s : State) (bid slot : Nat) : State :=
  match Tbl.find s.batches bid with
  | none => s
  | some b =>
    match s.batchReqs b with
    | (_, q) :: _ =>
      match q.desc with
      | some d =>
        if b.core.isNone || !q.snap.attn || (Tbl.find b.seen slot).isSome || slot ≥ 16 * d.pages then s
        else
          match s.slotView (s.tileSite bid q) d (attnOf q.snap.words).layer slot with
          | .ok v => s.updBatch bid fun b => { b with seen := Tbl.put b.seen slot v }
          | .error (.far peer g) => s.ask ((s.tileSite bid q).ask peer) (wholeGranule g)
          | .error _ => s
      | none => s
    | [] => s

/-- A request leaves its batch, whose deadline does not change (R235). -/
def State.leaveBatch (s : State) (id : Nat) (q : MxReq) : State :=
  match q.batch with
  | none => s
  | some b => (s.updBatch b fun x => { x with reqs := x.reqs.filter (· != id) }).dropEmpty b

/-- A request under cancellation: one not dispatched is withdrawn and its flags fall, a running one writes no rows
(R91). -/
def State.cancelReq (s : State) (id : Nat) (q : MxReq) : State :=
  if q.st = .running then s.updReq id fun q => { q with cancelled := true }
  else
    let s := (s.leaveBatch id q).signersDown q.signers
    let s := s.unpend id q
    { s with mxReqs := Tbl.del s.mxReqs id }.dropLegs (.mx id)

/-- A request of a cohort that is to be saved is withdrawn, and is a pending submission again (R236). -/
def State.withdraw (s : State) (id : Nat) (q : MxReq) : State :=
  if q.st ≠ .queued then s
  else
    let s := (s.leaveBatch id q).updReq id fun q => { q with st := .pending, batch := none }
    match s.team q.team with
    | some t =>
      let c := t.cvr q.cv
      s.setCv q.team q.cv { c with pend := addName c.pend id }
    | none => s

/-- The pending submissions of a cohort that is restored are submitted again, as new arrivals in their order (R236). -/
def State.resubmit (s : State) (cid : Nat) : State :=
  (keysOf s.mxReqs fun _ q => q.st == .pending && (match s.team q.team with
    | some t => t.cohort == cid
    | none => false)).foldl (fun s id =>
      let (n, s) := s.fresh
      s.updReq id fun q => { q with arrival := n }) s

end Sys2Proof.Machine
end

