-- ==== Sys2Proof/Machine/Launch.lean ====
section
/-! DEFINITION. Launch records, the pending store, dependences, placement, restore, and the ends of teams, cohorts and
fields (R68–R84, R101, R122, R123, R130, R182, R268, R269, R445). -/

namespace Sys2Proof.Machine

open Sys2Proof

/-! ### The record (R68, R71, R74, R445) -/

/-- A launch record as it was read: its fields, and what its bytes break before they are fields. -/
structure RawRec where
  lr     : LaunchRec
  res    : Bool
  badCap : Bool
  badDep : Bool
  deriving DecidableEq, Repr

/-- `n` bytes at an offset as a number. -/
def fieldAt (bs : List (BitVec 8)) (o n : Nat) : Nat := bytesToNat ((bs.drop o).take n)

def recordOf (bs : List (BitVec 8)) (cap : Nat → Cap) : LaunchRec where
  code := cap 0
  param := cap 1
  trap := cap 2
  dep := cap 4
  cohorts := fieldAt bs 48 4
  stages := fieldAt bs 52 1
  teams := fieldAt bs 53 1
  threads := fieldAt bs 54 2
  vregs := fieldAt bs 56 2
  spadKib := fieldAt bs 58 2
  accBlk := fieldAt bs 60 1
  prio := fieldAt bs 61 1
  scope := fieldAt bs 62 2
  depVal := w64 (fieldAt bs 80 8)
  argPtr := w64 (fieldAt bs 88 8)
  flags := w32 (fieldAt bs 96 4)

/-- Is a reserved field or bit of a record nonzero. -/
def reservedSet (bs : List (BitVec 8)) : Bool := fieldAt bs 96 4 ≥ 2 || (bs.drop 100).any (· != 0)

/-- The capability in 16 bytes of a host record: tagged if nonzero and well formed (R445). -/
def hostCap (bs : List (BitVec 8)) (i : Nat) : Cap :=
  let c : Cap := { bits := BitVec.ofNat 128 (fieldAt bs (16 * i) 16), tag := true }
  { c with tag := c.bits != 0 && c.wellFormed }

/-- Is a capability field of a host record nonzero and not well formed. -/
def hostBad (bs : List (BitVec 8)) (i : Nat) : Bool := (hostCap bs i).bits != 0 && !(hostCap bs i).tag

/-- A record taken from a host queue (R445). -/
def hostRecord (bs : List (BitVec 8)) : RawRec where
  lr := recordOf bs (hostCap bs)
  res := reservedSet bs
  badCap := hostBad bs 0 || hostBad bs 1 || hostBad bs 2
  badDep := hostBad bs 4 || ((hostCap bs 4).tag && (hostCap bs 4).space != 0)

/-- A record read by SPAWN with its tags (R82). -/
def spawnRecord (bs : List (BitVec 8)) (tags : List Bool) : RawRec where
  lr := recordOf bs fun i => capLoaded (BitVec.ofNat 128 (fieldAt bs (16 * i) 16)) (tags.getD i false)
  res := reservedSet bs
  badCap := false
  badDep := false

/-- Bytes of vector registers of one weave (R74). -/
def LaunchRec.regBytes (r : LaunchRec) : Nat := 128 * ((r.vregs + 7) / 8 * 8)

/-- Vector registers of a quarter in bytes (R74). -/
def quarterBytes : Nat := 131072

def LaunchRec.geomOk (r : LaunchRec) : Bool :=
  r.cohorts ≥ 1 && 1 ≤ r.stages && r.stages ≤ 4 && r.teams ≥ 1 && r.teams * r.stages ≤ 8 && 1 ≤ r.threads
    && r.threads ≤ 1024 && 1 ≤ r.vregs && r.vregs ≤ 255 && r.spadKib ≤ 512 && r.accBlk ≤ 16 && r.prio ≤ 63

/-- CODECAP or TRAPCAP as R68 wants it. -/
def codeCapOk (c : Cap) : Bool := c.tag && c.perm &&& permR == permR && c.space == 0 && c.base % 8 == 0

/-- Weaves that quarter `i` in the order of dealing takes of `n` (R74). -/
def dealt (n i : Nat) : Nat := (n + 3 - i) / 4

/-- One team on an empty core. -/
def LaunchRec.fitsEmpty (r : LaunchRec) : Bool := dealt r.weaves 0 * r.regBytes ≤ quarterBytes && dealt r.weaves 0 ≤ 16

/-- A flag or a phase object as R71 allows it. Open points: DEDUCED, log 13. -/
def State.depOk (s : State) (part : Nat) (c : Cap) (v : W64) : Bool :=
  let r : Bool := c.perm &&& permR == permR
  (c.space == 0 && r && c.base % 8 == 0 && c.len ≥ 8 && c.base / 2 ^ 55 == s.ownPeer part)
    || (c.space == 5 && r && c.base % 16 == 0 && c.len ≥ 16 && c.base / 2 ^ 57 == 0
      && c.base / 2 ^ 48 % 512 == s.ownPeer part && v.toNat < 2)

/-- The status of R68 Table 2: the first failing check. Open points: DESIGN CHOICE, log 12. -/
def State.validate (s : State) (part : Nat) (x : RawRec) : Nat :=
  let r := x.lr
  if x.res then 1
  else if !r.geomOk then 2
  else if x.badCap || !codeCapOk r.code || r.code.len < 8 || (r.trap.tag && !codeCapOk r.trap) then 3
  else if !r.fitsEmpty then 4
  else if r.scope ≥ 4096 || (s.scopeEnt part r.scope).st != 1 then 5
  else if x.badDep || (r.dep.tag && !s.depOk part r.dep r.depVal) then 6
  else if r.argPtr != 0 && (r.argPtr.toNat % 8 != 0 || peerOf r.argPtr != s.ownPeer part) then 7
  else 0

/-- Handle of the scope that an id names now. Open points: DESIGN CHOICE, log 12. -/
def State.handleAt (s : State) (part id : Nat) : W32 := if id < 4096 then handleOf (s.scopeEnt part id).gen id else 0

/-- The entry of KIND 1 and the vector (R69, R259). Open points: DESIGN CHOICE, log 12. -/
def State.launchFail (s : State) (part : Nat) (src : RecSrc) (addr : W64) (scope : W32) (status : Nat) : State :=
  let s := s.record part { FaultEntry.blank with
    kind := 1, status := status, queue := src.entry, addr := addr, scope := scope }
  s.reportVector part src

/-! ### The pending store (R76, R84) -/

/-- Does a record hold an entry: a cohort of it has not been placed for the first time. -/
def Record.pending (r : Record) : Bool := r.next < r.lr.cohorts

def RecSrc.isSpawn : RecSrc → Bool
  | .spawn => true
  | .queue _ => false

/-- Entries held by records of a partition that were spawned, or not. -/
def State.held (s : State) (part : Nat) (spawn : Bool) : Nat :=
  countT s.records fun _ r => r.part == part && r.pending && r.src.isSpawn == spawn

/-- Is there a free entry: 64 are for spawned records alone, which use those first. Open points: DESIGN CHOICE, log 70. -/
def State.hasEntry (s : State) (part : Nat) (spawn : Bool) : Bool :=
  let h := s.held part false
  let n := s.held part true
  if spawn then h + n < Config.pendingEntries
  else h + (n - Config.pendingReserved) < Config.pendingEntries - Config.pendingReserved

/-- The count of a record in its scope's entry rises or falls (R84). -/
def State.countRec (s : State) (part : Nat) (src : RecSrc) (h : W32) (up : Bool) : State :=
  s.updScope part (handleId h) fun e =>
    let f (n : Nat) : Nat := if up then n + 1 else n - 1
    match src with
    | .queue _ => { e with queued := f e.queued }
    | .spawn => { e with spawns := f e.spawns }

/-- A record leaves the pending store; its count ends unless it ended with the last placement. -/
def State.dropRecord (s : State) (id : Nat) (r : Record) : State :=
  let s := { s with records := Tbl.del s.records id }
  if r.pending then s.countRec r.part r.src r.scope false else s

/-- A record fails after acceptance (R69, R84). -/
def State.failRecord (s : State) (id : Nat) (r : Record) (status : Nat) : State :=
  (s.dropRecord id r).launchFail r.part r.src r.addr r.scope status

/-- The die on which a partition's queue processor takes and reads a record: of its dies that are ready, the lowest (R13,
R446). Open points: DESIGN CHOICE, log 20. -/
def State.recordDie (s : State) (part : Nat) : Option Nat :=
  (List.range 4).find? fun d =>
    !s.hd.fatal && s.ready (cdrdy d) && s.ready (stkrdy d) && s.ready svcSched && ((s.part part).cgmask.extractLsb' (8 * d) 8 != 0)

/-- A read of own memory by a queue processor: bytes, a wait, or an error (R446). -/
inductive AgentRead where
  | ok (bs : List (BitVec 8))
  | wait
  | fault
  | failed
  deriving DecidableEq, Repr

/-- `n` bytes inside one page at an LVA, beyond L1. -/
def State.agentRead (s : State) (part lva n : Nat) : AgentRead :=
  match s.ownRead ((s.recordDie part).getD 0) part lva n with
  | .ok bs => .ok bs
  | .error (.xl .resolvable _ _) => .fault
  | .error (.xl (.unresolvable _) _ _) => .failed
  | .error _ => .wait

/-- The first granule of a range at which a read by a device agent stops. -/
def State.agentStop (s : State) (part lva n : Nat) : Nat :=
  match s.ownRead ((s.recordDie part).getD 0) part lva n with
  | .error (.xl _ at_ _) => at_
  | _ => lva

/-- A read of a queue processor goes to the fault service. Open points: DESIGN CHOICE, log 20. -/
def State.agentFault (s : State) (part lva n : Nat) (o : Owner) : Nat × State :=
  s.raise part (s.agentStop part lva n) 0 .ls (s.ownPeer part) (srcAgent ((s.recordDie part).getD 0)) o none false

/-- ARGPTR is read once, when the dependence is met (R70). -/
def State.readArgs (s : State) (id : Nat) (r : Record) : State :=
  let ready (args : List W64) : State :=
    { s with records := Tbl.put s.records id { r with found := true, met := true, args := args } }
  if r.lr.argPtr = 0 then ready []
  else
    match s.agentRead r.part (lvaOf r.lr.argPtr) 64 with
    | .ok bs => ready ((List.range 8).map fun i => w64 (fieldAt bs (8 * i) 8))
    | .wait => { s with records := Tbl.put s.records id { r with found := true } }
    | .failed => s.failRecord id r 7
    | .fault =>
      let (fid, s) := s.agentFault r.part (lvaOf r.lr.argPtr) 64 (.record id)
      { s with records := Tbl.put s.records id { r with found := true, fault := some fid } }

/-- How a phase dependence stands (R71, R73): lost, met or waiting.
Open points: DEDUCED, log 13; DESIGN CHOICE, log 17. -/
def State.phaseDep (s : State) (r : Record) : Option Bool :=
  match s.cohortOf r.part (phInst r.lr.dep.base) with
  | none => none
  | some cid =>
    match s.cohort cid with
    | none => none
    | some c =>
      let p := c.phase (phObj r.lr.dep.base)
      if p.poison then none else some (p.parity != r.lr.depVal.getLsbD 0)

/-- Looks at a record's dependence; once it is met the arguments are read (R70–R73).
Open points: DESIGN CHOICE, log 17. -/
def State.watch (s : State) (id : Nat) (r : Record) : State :=
  if r.met || r.fault.isSome then s
  else if r.found || !r.lr.dep.tag then s.readArgs id r
  else if r.lr.dep.space = 5 then
    match s.phaseDep r with
    | none => s.failRecord id r 9
    | some true => s.readArgs id r
    | some false => s
  else
    match s.agentRead r.part (r.lr.dep.base % 2 ^ 55) 8 with
    | .ok bs => if bytesToNat bs ≥ r.lr.depVal.toNat then s.readArgs id r else s
    | .wait => s
    | .failed => s.failRecord id r 6
    | .fault =>
      let (fid, s) := s.agentFault r.part (r.lr.dep.base % 2 ^ 55) 8 (.record id)
      { s with records := Tbl.put s.records id { r with fault := some fid } }

/-- DEPENDENCE_MET. -/
def execDependenceMet (record : Nat) (s : State) : Host.Outcome State Fault Refusal :=
  .next (match Tbl.find s.records record with
    | some r => s.watch record r
    | none => s)

/-- After every step a phase dependence that is met has been found so, and one that is lost has failed (R72, R73).
Open points: DESIGN CHOICE, log 17. -/
def State.noticePhases (s : State) : State :=
  s.records.foldl (fun s (id, r) =>
    if r.met || r.found || !r.lr.dep.tag || r.lr.dep.space != 5 then s
    else
      match s.phaseDep r with
      | none => s.failRecord id r 9
      | some true => { s with records := Tbl.put s.records id { r with found := true } }
      | some false => s) s

/-- A validated record enters the pending store. -/
def State.accept (s : State) (part : Nat) (lr : LaunchRec) (src : RecSrc) (addr : W64) : State :=
  let (id, s) := s.fresh
  let r : Record := { part := part, lr := lr, src := src, addr := addr, scope := s.handleAt part lr.scope, seq := id
                      found := false, met := false, args := [], field := none, next := 0, redo := [], fault := none }
  let s := ({ s with records := Tbl.put s.records id r }).countRec part src r.scope true
  if lr.dep.tag then s else s.watch id r

/-! ### Host queues (R65, R76) -/

/-- LVA of a queue's next record; a LOG2N outside 4 to 16 counts as it stands. Open points: DESIGN CHOICE, log 70. -/
def Queue.slot (q : Queue) : Nat := (q.ring.toNat + 128 * (q.head.toNat % 2 ^ q.log2n.toNat)) % 2 ^ 55

/-- May a queue's next record be taken: the turn passes over a queue whose slot read is under service, which supplies its record
once that is over. Open points: DESIGN CHOICE, log 70. -/
def Queue.outstanding (q : Queue) : Bool := q.en && q.qerr == 0 && q.fault.isNone && q.head != q.tail

/-- The queue whose turn it is. -/
def State.nextQueue (s : State) (part : Nat) : Option Nat :=
  let qs := (s.queuesOf part).filter fun q => (s.queue q).outstanding
  let least (l : List Nat) : Option Nat := l.foldl (fun (b : Option Nat) q =>
    match b with
    | none => some q
    | some x => if (s.queue q).lidx.toNat < (s.queue x).lidx.toNat then some q else some x) none
  match least (qs.filter fun q => (s.part part).turn ≤ (s.queue q).lidx.toNat) with
  | some q => some q
  | none => least qs

/-- HEAD passes a record, and the turn goes on. -/
def State.passHead (s : State) (part q : Nat) : State :=
  let x := s.queue q
  let s := s.setQueue q { x with head := x.head + 1 }
  s.setPart part { s.part part with turn := x.lidx.toNat + 1 }

/-- A record's slot cannot be read (R65). -/
def State.badRead (s : State) (part q : Nat) : State :=
  let x := s.queue q
  (s.passHead part q).launchFail part (.queue x.lidx.toNat) (w64 x.slot) 0 0x0A

/-- A record taken from a host queue is accepted or fails. -/
def State.takeRecord (s : State) (part q : Nat) (bs : List (BitVec 8)) : State :=
  let x := s.queue q
  let src : RecSrc := .queue x.lidx.toNat
  let r := hostRecord bs
  let s := s.passHead part q
  match s.validate part r with
  | 0 => s.accept part r.lr src (w64 x.slot)
  | st => s.launchFail part src (w64 x.slot) (s.handleAt part r.lr.scope) st

/-- QUEUE_RECORD_TAKE. -/
def execQueueRecordTake (part : Nat) (s : State) : Host.Outcome State Fault Refusal :=
  .next (
    if (s.part part).tdi ≠ .run ∨ (s.recordDie part).isNone ∨ !s.hasEntry part false then s
    else
      match s.nextQueue part with
      | none => s
      | some q =>
        let lva := (s.queue q).slot
        match s.agentRead part lva 128 with
        | .ok bs => s.takeRecord part q bs
        | .wait => s
        | .failed => s.badRead part q
        | .fault =>
          let (fid, s) := s.agentFault part lva 128 (.slotRead q)
          s.setQueue q { s.queue q with fault := some fid })

/-! ### Room on a core (R74) -/

/-- The launch record of a cohort's field. -/
def State.lrOf (s : State) (cohort : Nat) : Option LaunchRec :=
  (s.cohort cohort).bind fun c => (s.field c.field).map (·.lr)

/-- Is a cohort's state on its cores, those of which `out` holds left out. -/
def State.onCore (s : State) (out : Nat → Bool) (cohort : Nat) : Bool :=
  !out cohort && (match s.cohort cohort with
    | some c => c.st != .saved
    | none => false)

/-- The teams that hold resources of a core, each with its record. Open points: DESIGN CHOICE, log 14. -/
def State.coreTeams (s : State) (out : Nat → Bool) (core : Nat) : List (Team × LaunchRec) :=
  s.teams.filterMap fun (_, t) =>
    if t.core == core && !t.ended && s.onCore out t.cohort then (s.lrOf t.cohort).map fun r => (t, r) else none

/-- Weave slots in use on a core, each with its register bytes. -/
def State.coreSlots (s : State) (out : Nat → Bool) (core : Nat) : List (Nat × Nat) :=
  s.weaves.filterMap fun (_, w) =>
    match s.team w.team with
    | some t =>
      if t.core == core && s.onCore out t.cohort then (s.lrOf t.cohort).map fun r => (w.slot, r.regBytes) else none
    | none => none

/-- Register bytes in use in a quarter. -/
def quarterUse (slots : List (Nat × Nat)) (q : Nat) : Nat :=
  ((slots.filter fun x => x.1 / 16 == q).map (·.2)).foldl (· + ·) 0

/-- One choice of the device out of the possible ones. Open points: DESIGN CHOICE, log 14. -/
def pickFrom {α : Type} (picks : List Nat) (l : List α) : Option α × List Nat :=
  match picks with
  | [] => (l.head?, [])
  | p :: r => (l[p % Nat.max 1 l.length]?, r)

/-- The quarters from the one with the most free register space on; ties are the device's choice.
Open points: DESIGN CHOICE, log 14. -/
def quarterOrder (slots : List (Nat × Nat)) : Nat → List Nat → List Nat → List Nat × List Nat
  | 0, _, picks => ([], picks)
  | n + 1, left, picks =>
    let least := left.foldl (fun m q => Nat.min m (quarterUse slots q)) (4 * quarterBytes)
    let (q, picks) := pickFrom picks (left.filter fun q => quarterUse slots q == least)
    match q with
    | none => ([], picks)
    | some q =>
      let r := quarterOrder slots n (left.filter (· != q)) picks
      (q :: r.1, r.2)

/-- Do a team's weaves fit, dealt to the quarters in an order. -/
def dealFits (slots : List (Nat × Nat)) (r : LaunchRec) (order : List Nat) : Bool :=
  order.zipIdx.all fun (q, i) =>
    (slots.filter fun x => x.1 / 16 == q).length + dealt r.weaves i ≤ 16
      && quarterUse slots q + dealt r.weaves i * r.regBytes ≤ quarterBytes

/-- Does a team of the record fit a core. Open points: DESIGN CHOICE, log 14. -/
def State.coreFits (s : State) (out : Nat → Bool) (core : Nat) (r : LaunchRec) : Bool :=
  let ts := s.coreTeams out core
  let slots := s.coreSlots out core
  ts.length < 4 && ((ts.map (·.2.spadKib)).foldl (· + ·) 0) + r.spadKib ≤ 512
    && ((ts.map (·.2.accBlk)).foldl (· + ·) 0) + r.accBlk ≤ 16
    && dealFits slots r (quarterOrder slots 4 [0, 1, 2, 3] []).1

/-- The cores of a core group. -/
def coresOf (cg : Nat) : List Nat := (List.range 8).map (cg * 8 + ·)

/-- The cores of a group that take a team. -/
def State.fitting (s : State) (out : Nat → Bool) (cg : Nat) (r : LaunchRec) : List Nat :=
  (coresOf cg).filter fun c => s.coreFits out c r

/-- The core groups on which a partition's cohorts may be placed (R13, R17, R27, R60, R75).
Open points: DEDUCED, log 23. -/
def State.usableCgs (s : State) (part : Nat) : List Nat :=
  (List.range 32).filter fun g =>
    !s.hd.fatal && !((s.parts.any fun e => e.2.held.getLsbD g)) && (s.part part).cgmask.getLsbD g && !s.hd.cgOffline.getLsbD g && s.ready (cdrdy (g / 8)) && s.ready (stkrdy (g / 8))
      && s.ready svcSched

/-- Teams on a core group. -/
def State.cgTeams (s : State) (cg : Nat) : Nat := ((coresOf cg).map fun c => (s.coreTeams (fun _ => false) c).length).foldl (· + ·) 0

/-- The core group for a cohort: the one with the fewest free team places left, then the lowest (R75). -/
def State.bestCg (s : State) (part : Nat) (r : LaunchRec) : Option Nat :=
  ((s.usableCgs part).filter fun g => r.width ≤ (s.fitting (fun _ => false) g r).length).foldl (fun (b : Option Nat) g =>
    match b with
    | none => some g
    | some x => if s.cgTeams x < s.cgTeams g then some g else some x) none

/-! ### The choice of a record (R77) -/

/-- The cohort that a record places next: a saved one first, else the lowest index (R77, R79, R262). -/
def Record.nextCohort (r : Record) : Option (Nat × Option Nat) :=
  let least (l : List (Nat × Nat)) : Option (Nat × Nat) := l.foldl (fun (b : Option (Nat × Nat)) x =>
    match b with
    | none => some x
    | some y => if x.1 < y.1 then some x else some y) none
  match least (r.redo.filter (·.2 != 0)) with
  | some (i, c) => some (i, some (c - 1))
  | none =>
    match least ((r.redo.filter (·.2 == 0)) ++ (if r.pending then [(r.next, 0)] else [])) with
    | some (i, _) => some (i, none)
    | none => none

def Record.resumable (r : Record) : Bool := r.redo.any (·.2 != 0)

/-- Is a record ready, with unplaced cohorts. -/
def State.placeable (s : State) (part : Nat) (r : Record) : Bool :=
  r.part == part && r.met && s.current part r.scope && !s.cancelling part r.scope && r.nextCohort.isSome

/-- The first ready record of a priority: with a cohort to resume, then the earliest accepted. -/
def State.headRecord (s : State) (part prio : Nat) : Option (Nat × Record) :=
  (s.records.filter fun e => e.2.lr.prio == prio && s.placeable part e.2).foldl (fun (b : Option (Nat × Record)) e =>
    match b with
    | none => some e
    | some x =>
      if (e.2.resumable && !x.2.resumable) || (e.2.resumable == x.2.resumable && e.2.seq < x.2.seq) then some e else some x)
    none

/-- The priorities from the highest down. -/
def priorities : List Nat := (List.range 64).map (63 - ·)

/-- The record whose next cohort is placed, and where (R77). -/
def State.chooseRecord (s : State) (part : Nat) : Option (Nat × Record × Nat) :=
  priorities.findSome? fun p =>
    match s.headRecord part p with
    | none => none
    | some (id, r) => (s.bestCg part r.lr).map fun g => (id, r, g)

/-! ### Placement (R74, R75, R79, R101, R122, R130) -/

/-- The cores for a cohort's teams in order, distinct, as the device picks them. Open points: DESIGN CHOICE, log 14. -/
def chooseCores : Nat → List Nat → List Nat → List Nat × List Nat
  | 0, _, picks => ([], picks)
  | n + 1, cores, picks =>
    match pickFrom picks cores with
    | (none, picks) => ([], picks)
    | (some c, picks) =>
      let r := chooseCores n (cores.filter (· != c)) picks
      (c :: r.1, r.2)

/-- Slots for weaves dealt to the quarters in turn. Open points: DESIGN CHOICE, log 14. -/
def chooseSlots (order : List Nat) : Nat → Nat → List Nat → List Nat → List Nat × List Nat
  | 0, _, _, picks => ([], picks)
  | n + 1, i, used, picks =>
    let q := order.getD (i % 4) 0
    let (sl, picks) := pickFrom picks (((List.range 16).map (16 * q + ·)).filter fun x => !used.contains x)
    let x := sl.getD 0
    let r := chooseSlots order n (i + 1) (x :: used) picks
    (x :: r.1, r.2)

/-- The slots of a team's weaves on a core. Open points: DESIGN CHOICE, log 14. -/
def State.slotsFor (s : State) (core : Nat) (r : LaunchRec) (picks : List Nat) : List Nat × List Nat :=
  let slots := s.coreSlots (fun _ => false) core
  let (order, picks) := quarterOrder slots 4 [0, 1, 2, 3] picks
  let order := if dealFits slots r order then order else (quarterOrder slots 4 [0, 1, 2, 3] []).1
  chooseSlots order r.weaves 0 (slots.map (·.1)) picks

/-- The first free team place of a core (R131). -/
def State.freePlace (s : State) (core : Nat) : Nat :=
  let used := (s.coreTeams (fun _ => false) core).map (·.1.place)
  ((List.range 4).find? fun p => !used.contains p).getD 0

/-- A counter's next number that no live cohort or field holds (R130): at most `n` are held.
Open points: DEDUCED, log 15. -/
def nextNumber (top : Nat) (held : List Nat) : Nat → Nat → Nat
  | 0, c => c
  | n + 1, c => if held.contains c then nextNumber top held n (if c ≥ top then 1 else c + 1) else c

/-- The counter behind a number that was given (R130; DEDUCED, log 15). -/
def afterNumber (top c : Nat) : Nat := if c ≥ top then 1 else c + 1

/-- The lanes of weave `i` of a team of `n` threads that hold a thread (R101). -/
def weaveLanes (n i : Nat) : Lanes := Lanes.ofFn fun l => 32 * i + l < n

/-- A group of a weave that has not issued yet. -/
def Group.start (gid : Nat) (lanes : Lanes) (pc : W64) : Group where
  gid := gid
  lanes := lanes
  pc := pc
  pos := .arrived
  run := Run.none_
  progress := 0
  sleep := .awake
  halted := false
  skipped := 0
  port := false
  latch := none

/-- A weave at launch (R122). -/
def Weave.start (tid idx slot age gid : Nat) (f : Field) : Weave where
  team := tid
  idx := idx
  slot := slot
  age := age
  live := weaveLanes f.lr.threads idx
  s := f.args.zipIdx.foldl (fun t (v, i) => Tbl.set t 0 i v) []
  k := Tbl.set [] nullCap 0 f.lr.param
  cf := []
  v := []
  p := []
  wstat := 0
  trapinfo := 0
  frames := []
  loops := []
  marks := []
  errs := []
  groups := [Group.start gid (weaveLanes f.lr.threads idx) (w64 f.lr.code.base)]
  killed := false
  dead := 0

/-- A team at launch (R122). -/
def Team.start (cohort num core place : Nat) : Team where
  cohort := cohort
  num := num
  core := core
  place := place
  spad := []
  spadTags := []
  stag := []
  acc := []
  cv := []
  deadline := 0
  unitcap := 0
  charged := 0
  charges := []
  killed := false
  ending := false
  ended := false

/-- A team of a new cohort becomes resident on a core; its weaves take slots. -/
def State.startTeam (s : State) (cid : Nat) (f : Field) (num core : Nat) (picks : List Nat) : State × List Nat :=
  let (slots, picks) := s.slotsFor core f.lr picks
  let place := s.freePlace core
  let (tid, s) := s.fresh
  let s := { s with teams := Tbl.put s.teams tid (Team.start cid num core place) }
  let s := slots.zipIdx.foldl (fun (s : State) (slot, i) =>
    let (wid, s) := s.fresh
    let (gid, s) := s.fresh
    s.setWeave wid (Weave.start tid i slot wid gid f)) s
  (s.acquireAt core, picks)

/-- The field of a record, started with its first cohort (R100, R130). Open points: DEDUCED, log 15. -/
def State.fieldFor (s : State) (rid : Nat) (r : Record) : Nat × State :=
  match r.field with
  | some f => (f, s)
  | none =>
    let p := s.part r.part
    let held := (s.fields.filter fun e => e.2.part == r.part).map (·.2.number)
    let n := nextNumber (2 ^ 32 - 1) held (held.length + 1) p.fieldCtr
    let s := s.setPart r.part { p with fieldCtr := afterNumber (2 ^ 32 - 1) n }
    let (fid, s) := s.fresh
    let f : Field := { part := r.part, number := n, lr := r.lr, src := r.src, scope := r.scope, args := r.args, seq := r.seq
                       left := r.lr.cohorts, redone := [], failed := false, lastBy := none, ended := false }
    (fid, { s with fields := Tbl.put s.fields fid f, records := Tbl.put s.records rid { r with field := some fid } })

/-- Cores hold no code from before, and wait for none: what runs there next fetches the current code (R105). -/
def State.dropCodeOf (s : State) (cores : List Nat) : State :=
  cores.foldl (fun s c => s.dropLegs (.code c)) { s with icache := s.icache.filter fun x => !cores.contains x.core }

/-- Does a record's field fetch the current code: the host wrote the record, or it had a dependence (R105).
Open points: DESIGN CHOICE, log 69. -/
def Record.freshCode (r : Record) : Bool := !r.src.isSpawn || r.lr.dep.tag

/-- TEAMS of a scope's entry changes by a number of teams (R84). -/
def State.countTeams (s : State) (part : Nat) (h : W32) (n : Nat) (up : Bool) : State :=
  s.updScope part (handleId h) fun e => { e with teams := if up then e.teams + n else e.teams - n }

/-- A cohort is placed for the first time, or again from its launch state (R262): a new instance number, and every team
on a core of its own. Open points: DEDUCED, log 15; DESIGN CHOICE, log 16. -/
def State.placeNew (s : State) (rid : Nat) (r : Record) (index cg : Nat) (picks : List Nat) : State :=
  let (fid, s) := s.fieldFor rid r
  match s.field fid with
  | none => s
  | some f =>
    let p := s.part r.part
    let held := s.cohorts.filterMap fun (_, c) =>
      match s.field c.field with
      | some g => if g.part == r.part && c.st != .ended then some c.inst else none
      | none => none
    let inst := nextNumber (2 ^ 36 - 1) held (held.length + 1) p.instCtr
    let s := s.setPart r.part { p with instCtr := afterNumber (2 ^ 36 - 1) inst }
    let (cores, picks) := chooseCores r.lr.width (s.fitting (fun _ => false) cg r.lr) picks
    let (cid, s) := s.fresh
    let c : Cohort := { field := fid, index := index, inst := inst, cg := cg, st := .resident, placedAt := s.clock
                        phases := [], held := [], lost := false }
    let s := { s with cohorts := Tbl.put s.cohorts cid c }
    let s := (cores.zipIdx.foldl (fun (x : State × List Nat) (core, j) => x.1.startTeam cid f j core x.2) (s, picks)).1
    let s := if r.freshCode then s.dropCodeOf cores else s
    s.countTeams r.part r.scope r.lr.width true

/-- A sleep after restore: a wait at a header is examined afresh, and a stalled instruction issues again (R264, R269). -/
def Sleep.restored : Sleep → Sleep
  | .header _ | .stall => .awake
  | x => x

/-- Does a sleep end at once when the kill check is made (R92, R269). Open points: DEDUCED, log 56. -/
def Sleep.killable : Sleep → Bool
  | .phase .. | .clock .. | .scope _ | .handler .. => true
  | _ => false

/-- A team of a saved cohort becomes resident again on another core. Open points: DESIGN CHOICE, log 16. -/
def State.restoreTeam (s : State) (tid : Nat) (r : LaunchRec) (core : Nat) (picks : List Nat) : State × List Nat :=
  let (slots, picks) := s.slotsFor core r picks
  let place := s.freePlace core
  let s := s.updTeam tid fun t => { t with core := core, place := place }
  let back (w : Weave) : Weave :=
    { w with slot := slots.getD w.idx 0
             groups := w.groups.map fun g => { g with halted := false, sleep := g.sleep.restored } }
  let s := { s with weaves := mapT s.weaves fun _ w => if w.team == tid then back w else w }
  (s.unstage fun x => x.core == core, picks)

/-- Queued copies of a cohort join the queues of its new cores in their order (R269). -/
def State.requeueCopies (s : State) (cid : Nat) : State :=
  (s.copies.filter fun e => e.2.cohort == cid && e.2.st == .queued).foldl (fun (s : State) (id, c) =>
    let (n, s) := s.fresh
    let core := ((s.team c.team).map (·.core)).getD c.core
    { s with copies := Tbl.put (Tbl.del s.copies id) n { c with core := core } }) s

/-- The groups of a cohort that sleep on phase objects: weave, group, instance, object, parity and destination. -/
def State.phSleepers (s : State) (cid : Nat) : List (Nat × Nat × Nat × Nat × Bool × Nat) :=
  s.weaves.flatMap fun (wid, w) =>
    match s.team w.team with
    | some t =>
      if t.cohort == cid then w.groups.filterMap fun g => match g.sleep with
        | .phase i o q d => some (wid, g.gid, i, o, q, d)
        | _ => none
      else []
    | none => []

/-- A sleeper tests its object again, as R406 does at issue (R269). Open points: DEDUCED, log 38. -/
def State.phRetest (s : State) (x : Nat × Nat × Nat × Nat × Bool × Nat) : State :=
  let (wid, gid, i, o, q, d) := x
  match s.env wid with
  | none => s
  | some e =>
    match s.cohortOf e.part i with
    | none => s.phWake wid gid d true 1 none
    | some c =>
      let p := ((s.cohort c).map (·.phase o)).getD Phase.initial
      if p.poison then s.phWake wid gid d true 1 none
      else if p.parity != q then s.phWake wid gid d true 0 (some (p, c))
      else s

/-- Waiters of a restored cohort test their objects again (R269). -/
def State.retestPhases (s : State) (cid : Nat) : State := (s.phSleepers cid).foldl State.phRetest s

/-- An operation that its group has not finished goes on where the weave is placed now (R387, R438). -/
def State.moveOpen (s : State) (cid : Nat) : State :=
  { s with lsOps := mapT s.lsOps fun _ p =>
      match (if p.hole.isSome then s.env p.weave else none) with
      | some e => if e.cid = cid then { p with ident := s.ident e } else p
      | none => p }

/-- COHORT_RESTORE (R269): the saved state is on the new cores; held arrivals are applied in order, then sleeps are
tested, copies requeued and withdrawn requests submitted again (R236). -/
def State.placeSaved (s : State) (r : Record) (cid cg : Nat) (picks : List Nat) : State :=
  match s.cohort cid with
  | none => s
  | some c =>
    let (cores, picks) := chooseCores r.lr.width (s.fitting (fun _ => false) cg r.lr) picks
    let teams := keysOf s.teams fun _ t => t.cohort == cid
    let s := ((teams.zip cores).foldl (fun (x : State × List Nat) tc => x.1.restoreTeam tc.1 r.lr tc.2 x.2) (s, picks)).1
    let s := if r.freshCode then s.dropCodeOf cores else s
    let s := s.updCohort cid fun c => { c with st := .resident, cg := cg, placedAt := s.clock, held := [] }
    let s := { s with mxReqs := mapT s.mxReqs fun _ q => if teams.contains q.team then { q with cg := cg } else q }
    let s := s.moveOpen cid
    let s := c.held.foldl (fun (s : State) op => s.phApply op) s
    ((s.retestPhases cid).requeueCopies cid).resubmit cid

/-- A record after a cohort of it has been placed: it leaves the store with the last one (R76, R84). -/
def State.afterPlacement (s : State) (rid index : Nat) (saved : Option Nat) : State :=
  match Tbl.find s.records rid with
  | none => s
  | some r =>
    let again : Bool := r.redo.any fun x => x.1 == index && x.2 == (match saved with | some c => c + 1 | none => 0)
    let r' : Record := if again then { r with redo := r.redo.filter (·.1 != index) } else { r with next := r.next + 1 }
    let s := if r.pending && !r'.pending then s.countRec r.part r.src r.scope false else s
    if r'.nextCohort.isSome then { s with records := Tbl.put s.records rid r' }
    else { s with records := Tbl.del s.records rid }

/-- COHORT_PLACEMENT; `picks` are the choices that R75 leaves to the device. The die must be in PS0 (R20, R21).
Open points: DEDUCED, log 23. -/
def execCohortPlacement (part : Nat) (picks : List Nat) (s : State) : Host.Outcome State Fault Refusal :=
  .next (
    if (s.part part).tdi ≠ .run then s
    else
      match s.chooseRecord part with
      | none => s
      | some (rid, r, cg) =>
        if (s.die (cg / 8)).ps ≠ .ps0 then s
        else
          match r.nextCohort with
          | none => s
          | some (index, some cid) => (s.placeSaved r cid cg picks).afterPlacement rid index (some cid)
          | some (index, none) => (s.placeNew rid r index cg picks).afterPlacement rid index none)

/-! ### Ends (R81, R123, R182, R222) -/

/-- A cohort that has ended, and its field, are gone once nothing of them is in flight.
Open points: DEDUCED, log 18; DESIGN CHOICE, log 41. -/
def State.reap (s : State) (cid : Nat) : State :=
  match s.cohort cid with
  | none => s
  | some c =>
    let mine (tid : Nat) : Bool := match s.team tid with
      | some t => t.cohort == cid
      | none => false
    if c.st != .ended || (someT s.weaves fun _ w => mine w.team) || (someT s.copies fun _ x => x.cohort == cid) then s
    else
      let s := { s with teams := keep s.teams fun _ t => t.cohort != cid, cohorts := Tbl.del s.cohorts cid }
      match s.field c.field with
      | some f =>
        if f.ended && !(someT s.cohorts fun _ x => x.field == c.field) then { s with fields := Tbl.del s.fields c.field }
        else s
      | none => s

/-- Every ended cohort of which nothing is left. -/
def State.reapAll (s : State) : State := (keysOf s.cohorts fun _ c => c.st == .ended).foldl State.reap s

/-- WEAVE_SLOT_RELEASE: the weave has ended and its flags are clear. -/
def execWeaveSlotRelease (weave : Nat) (s : State) : Host.Outcome State Fault Refusal :=
  .next (match s.weave weave with
    | none => s
    | some w =>
      if w.live ≠ 0 ∨ !(w.flagsClear (BitVec.allOnes 12)) then s
      else
        let s := s.updTeam w.team fun t => { t with killed := t.killed || w.killed }
        { s with weaves := Tbl.del s.weaves weave })

/-- A cohort ends with its last team: its objects act as poisoned from then on (R130). Open points: DEDUCED, log 18. -/
def State.endCohort (s : State) (cid : Nat) : State :=
  match s.cohort cid with
  | none => s
  | some c =>
    let s := s.updCohort cid fun c => { c with st := .ended, held := [] }
    let s := s.updField c.field fun f => { f with left := f.left - 1 }
    match s.field c.field with
    | none => s
    | some f =>
      let waits := (List.range 256).flatMap fun o => s.phWaiters f.part c.inst o
      let s := waits.foldl (fun (s : State) x => s.phWake x.1 x.2.1 x.2.2.2 true 1 none) s
      c.held.foldl (fun (s : State) op => s.phApply op) s

/-- TEAM_END: every weave has ended and every request has completed (R123, R222); the tag table part is cleared (R131). -/
def execTeamEnd (team : Nat) (s : State) : Host.Outcome State Fault Refusal :=
  .next (match s.teamEnv team with
    | none => s
    | some e =>
      if e.t.ended || (someT s.weaves fun _ w => w.team == team && w.live != 0)
          || (someT s.mxReqs fun _ q => q.team == team) then s
      else
        let killed := e.t.killed || (someT s.weaves fun _ w => w.team == team && w.killed)
        let s := s.updTeam team fun t => { t with ended := true, stag := [] }
        let s := s.countTeams e.part e.f.scope 1 false
        let s := if killed && s.cancelling e.part e.f.scope then
            match (s.scopeEnt e.part (handleId e.f.scope)).byOp with
            | some c => { s with cancels := Tbl.upd s.cancels c fun x => { x with killed := x.killed + 1 } }
            | none => s
          else s
        if someT s.teams fun _ t => t.cohort == e.cid && !t.ended then s else s.endCohort e.cid)

/-- Has a context an open reservation of a field; a context that cannot be read now may have. -/
def State.mayOwe (s : State) (part : Nat) (k : KvDesc) (field : Nat) : Bool :=
  (List.range k.wlimit).any fun w =>
    match s.writer (s.unitSite part 0 (.void 0) 0) k w with
    | .ok x => x.open_ && x.field == field
    | .error _ => true

/-- Has a field weaves that live, or cohorts that are still to be placed: its last weave has not ended then.
Open points: DESIGN CHOICE, log 25. -/
def State.fieldLive (s : State) (fid : Nat) : Bool :=
  (someT s.records fun _ r => r.field == some fid && r.nextCohort.isSome)
    || someT s.weaves fun _ w => w.live != 0 && (match (s.team w.team).bind fun t => s.cohort t.cohort with
        | some c => c.field == fid
        | none => false)

/-- The cancellation that a scope is under. -/
def State.cancelOf (s : State) (part : Nat) (h : W32) : Option Nat :=
  if s.cancelling part h then (s.scopeEnt part (handleId h)).byOp else none

/-- After every step: a field whose last weave has ended is a cancelled one or not, for good (R94). -/
def State.noticeEnds (s : State) : State :=
  (s.fields.filter fun e => e.2.lastBy.isNone && !s.fieldLive e.1).foldl (fun (s : State) (id, f) =>
    s.updField id fun f' => { f' with lastBy := some (s.cancelOf f.part f.scope) }) s

/-- Is an ended field still without its FIELD_END: its KV operations complete first (R91, R182). -/
def State.fieldDone (s : State) (f : Field) : Bool :=
  !f.ended && f.left == 0 && !(someT s.kvOps fun _ o => o.part == f.part && o.ident.field == f.number)

/-- FIELD_END: voids follow in every context that holds an open reservation of the field (R94, R182). -/
def execFieldEnd (field : Nat) (s : State) : Host.Outcome State Fault Refusal :=
  .next (match s.field field with
    | none => s
    | some f =>
      if !s.fieldDone f then s
      else
        let by_ : Option Nat := f.lastBy.getD (s.cancelOf f.part f.scope)
        let owing := s.ctxs.filterMap fun (k, c) =>
          if k / 2 ^ 64 == f.part && s.mayOwe f.part c.desc f.number then some c.desc else none
        let s := s.updField field fun f => { f with ended := true }
        let s := owing.foldl (fun (s : State) d =>
          let (id, s) := s.fresh
          let v : Void := { part := f.part, desc := d, field := f.number, cohort := none, scope := f.scope, cancel := by_
                            report := by_.isNone, count := 0, at_ := s.clock, fault := none }
          { s with voids := Tbl.put s.voids id v }) s
        if someT s.cohorts fun _ x => x.field == field then s else { s with fields := Tbl.del s.fields field })

end Sys2Proof.Machine
end

