-- ==== Sys2Proof/Machine/Scopes.lean ====
section
/-! DEFINITION. Cancel scopes: SPAWN, CSCOPE, CANCEL and CWAIT, their effect at the scope table, the fates of cancelled
work, and the drain (R82, R85–R99, R330–R333). -/

namespace Sys2Proof.Machine

open Sys2Proof

/-! ### Handles and the tree (R86) -/

/-- Is a handle in an s register current; bits [63:32] must be zero. -/
def State.currentW (s : State) (part : Nat) (h : W64) : Bool :=
  h.toNat < 2 ^ 32 && s.current part (h.extractLsb' 0 32)

/-- Scope id of a handle in an s register. -/
def idOf (h : W64) : Nat := (h.extractLsb' 0 12).toNat

/-- Does a scope lie in the subtree of `top`, `n` levels down at most. -/
def State.under (s : State) (part top : Nat) : Nat → Nat → Bool
  | 0, id => id == top
  | n + 1, id => id == top || (id != 0 && s.under part top n (s.scopeEnt part id).parent)

/-- The ids of a subtree that are not free. -/
def State.subtree (s : State) (part top : Nat) : List Nat :=
  keysOf (s.part part).scopes fun id e => e.st != 0 && s.under part top 16 id

/-- Status codes of R87. -/
def scopeFail (code : Nat) : W64 := w64 (2 ^ 63 + code)

/-! ### Issue (R330–R332) -/

/-- The instruction counts on its flag and its operation goes to the table. -/
def Ctx.scopeSend (x : Ctx) (s : State) (kind : ScopeKind) (d : Nat) : Nat × State :=
  let flag := x.g.run.slot x.h.fs
  let (id, s) := s.fresh
  let op : ScopeOp := { weave := x.e.wid, gid := x.g.gid, lanes := x.g.lanes, part := x.e.part, core := x.e.t.core, scopeH := x.e.f.scope
                        kind := kind, d := d, flag := flag, asleep := false, fault := none }
  let s := s.updWeave x.e.wid fun w => (w.countUp flag).mark id x.g.lanes [(.s, d)]
  (id, { s with scopeOps := Tbl.put s.scopeOps id op })

/-- May the instruction count on its flag (R106). -/
def Ctx.scopeCan (x : Ctx) : Bool := x.w.canCount (x.g.run.slot x.h.fs)

/-- The checks of SPAWN's read (R82, R330, R129). -/
def Ctx.spawnTrap (x : Ctx) (k : Nat) (a : Int) : Option Trap :=
  match x.capCheck { spaces := [0, 1, 2, 4], perm := permR, kind := 0, nat := true } k k 4 a 128 with
  | some t => some t
  | none =>
    if (x.w.getK k).space != 0 && !relativeRow x.e (x.w.getK k) a.toNat 128 then some (.plain .capBounds k)
    else if a % 128 != 0 then some (.plain .misaligned k)
    else if x.remote (x.w.getK k) a then some (.plain .capBounds k)
    else none

/-- SPAWN: the record's place is translated at issue (R139); an unresolvable fault is a status. `lost` says that the fault
service could not resolve the read's fault. Open points: DEDUCED, log 19. -/
def Ctx.spawnBody (x : Ctx) (d a b : Nat) (imm : W32) (inherit_ lost : Bool) : Res :=
  let at_ : Int := (x.w.getK a).base + sImm imm
  match x.spawnTrap a at_ with
  | some t => .trap t
  | none =>
    if !x.scopeCan then .stall
    else
      let hd := x.w.getS b
      let prio := if inherit_ then some x.e.f.lr.prio else none
      let go (s : State) (src : Option Loc) : Res := .done (x.scopeSend s (.spawn src (w64 at_.toNat) hd prio) d).2
      match x.place (x.w.getK a) at_ with
      | .virt lva =>
        if !x.s.currentW x.e.part hd then go x.s (some (.virt lva))
        else
          match x.s.xlateLs x.die x.e.part lva.toNat 0 0 with
          | .error .held => .stall
          | .error (.resolvable lva _) =>
            if lost then go x.s none else .stay (x.s.sleepOnFault x.e x.g.gid lva 0 none x.latch)
          | .error (.page _ _) => go x.s none
          | .ok pa => go (x.s.fillTlb x.die x.e.part lva.toNat) (some (.mem pa))
      | l => go x.s (some l)

/-- SPAWN (R330). -/
def execSpawn (h : Hd) (d a b : Nat) (imm : W32) (inherit_ : Bool) (s : State) : Host.Outcome State Fault Refusal :=
  issue (.spawn h d a b imm inherit_) s fun x => x.spawnBody d a b imm inherit_ false

/-- The checks of CSCOPE's capability (R88, R331). -/
def Ctx.ackTrap (x : Ctx) (k : Nat) (flag : Bool) : Option Trap :=
  let c := x.w.getK k
  if !c.tag then if flag then some (.plain .capTag k) else none
  else
    match capTagPerm c [0] (if flag then permW ||| permF else permW) k with
    | some t => some t
    | none =>
      if !c.covers c.base (if flag then 40 else 32) then some (.plain .capBounds k)
      else if c.base % 32 != 0 then some (.plain .misaligned k)
      else if c.base / 2 ^ 55 != x.s.ownPeer x.e.part then some (.plain .capBounds k)
      else none

/-- CSCOPE (R331). -/
def execCscope (h : Hd) (flag : Bool) (d a b : Nat) (s : State) : Host.Outcome State Fault Refusal :=
  issue (.cscope h flag d a b) s fun x =>
    match x.ackTrap a flag with
    | some t => .trap t
    | none => if !x.scopeCan then .stall
        else .done (x.scopeSend x.s (.cscope (x.w.getS b) (x.w.getK a) flag) d).2

/-- CANCEL (R332). -/
def execCancel (h : Hd) (d a : Nat) (s : State) : Host.Outcome State Fault Refusal :=
  issue (.cancel h d a) s fun x =>
    if !x.scopeCan then .stall else .done (x.scopeSend x.s (.cancel (x.w.getS a)) d).2

/-- CWAIT leaves the ready set; the sleep ends with its status (R97, R332). -/
def execCwait (h : Hd) (d a : Nat) (s : State) : Host.Outcome State Fault Refusal :=
  issue (.cwait h d a) s fun x =>
    if !x.scopeCan then .stall
    else
      let r := x.scopeSend x.s (.cwait (x.w.getS a)) d
      .sleep r.2 (.scope r.1)

/-! ### At the table (R333) -/

/-- An operation's status is written — while the weave lives, and not for threads that a kill has ended (R114, R91, R257) —
and its flag falls; a group that slept wakes, at a kill point (R92). -/
def State.finishScope (s : State) (id : Nat) (o : ScopeOp) (status : W64) (acq : Bool) : State :=
  let s := if acq then s.acquireAt o.core else s
  let s := s.updWeave o.weave fun w =>
    let w := if w.takes o.lanes then w.setS o.d status else w
    ((w.unmark id).countDown o.flag).updGroup o.gid fun g => if g.sleep = .scope id then { g with sleep := .awake } else g
  { s with scopeOps := Tbl.del s.scopeOps id }

/-- CSCOPE at the table (R88). -/
def State.createScope (s : State) (part : Nat) (parent : W64) (ack : Cap) (flag : Bool) : State × W64 :=
  let p := s.scopeEnt part (idOf parent)
  if !s.currentW part parent then (s, scopeFail 1)
  else if p.st = 2 then (s, scopeFail 2)
  else if p.depth = 16 then (s, scopeFail 4)
  else
    match ((List.range 4095).map (· + 1)).find? fun i => (s.scopeEnt part i).st == 0 with
    | none => (s, scopeFail 5)
    | some i =>
      let gen := (s.scopeEnt part i).gen + 1
      let e : ScopeEnt := { ScopeEnt.free with st := 1, gen := gen, parent := idOf parent, depth := p.depth + 1
                                               ack := if ack.tag then ack else nullCap, ackFlag := flag }
      (s.setScope part i e, (handleOf gen i).setWidth 64)

/-- A record of a cancelled scope is discarded, and with it its unplaced cohorts (R91, R441). -/
def State.discardRecord (s : State) (id : Nat) (r : Record) : State :=
  let s := s.dropRecord id r
  match r.field with
  | some f => s.updField f fun f => { f with left := f.left - ((r.lr.cohorts - r.next) + (r.redo.filter (·.2 == 0)).length) }
  | none => s

/-- CANCEL at the table (R90): the marking, and the discarding of records (R91); the other fates follow at once.
Open points: DESIGN CHOICE, log 11. -/
def State.markCancel (s : State) (part : Nat) (h : W64) : State × W64 :=
  let id := idOf h
  if !s.currentW part h then (s, 1)
  else if id = 0 then (s, 3)
  else if (s.scopeEnt part id).st = 2 then (s, 2)
  else
    let marked := (s.subtree part id).filter fun i => (s.scopeEnt part i).st == 1
    let recs := s.records.filter fun e => e.2.part == part && marked.contains (handleId e.2.scope)
    let (c, s) := s.fresh
    let x : Cancel := { part := part, top := id, marked := marked, killed := 0
                        records := countT recs fun _ r => r.pending && !r.src.isSpawn
                        spawns := countT recs fun _ r => r.pending && r.src.isSpawn
                        copies := 0, status := 0, voided := 0, written := false, fault := none }
    let s := { s with cancels := Tbl.put s.cancels c x }
    let s := marked.foldl (fun (s : State) i => s.updScope part i fun e => { e with st := 2, byOp := some c }) s
    (recs.foldl (fun (s : State) (i, r) => s.discardRecord i r) s, 0)

/-- The record that a SPAWN reads (R82). -/
def State.spawnRead (s : State) (l : Loc) : RawRec :=
  spawnRecord (s.locBytes l 128) ((List.range 8).map fun i => s.locTag (l.at (16 * i)))

/-- Does one of the two granules of a record hold an uncorrectable error (R260). -/
def State.spawnBad (s : State) (l : Loc) : Bool :=
  match l with
  | .mem pa => s.eccBad pa || s.eccBad (pa + 64)
  | _ => false

/-- Does the acquire by which SPAWN reads meet a release that it cannot synchronise with (R82, R162). -/
def State.spawnMismatch (s : State) (o : ScopeOp) (src : Option Loc) : Bool :=
  match src, s.env o.weave with
  | some l, some e => s.mismatched l 64 .mod (s.ident e) || s.mismatched (l.at 64) 64 .mod (s.ident e)
  | _, _ => false

/-- SPAWN at the table (R82, R330). Open points: DEDUCED, log 19. -/
def State.spawnAt (s : State) (part : Nat) (src : Option Loc) (addr h : W64) (prio : Option Nat) : State × W64 :=
  match src with
  | none => (s, 7)
  | some l =>
    if s.spawnBad l then (s, 7)
    else
    let r := s.spawnRead l
    let lr := { r.lr with scope := idOf h, prio := prio.getD r.lr.prio }
    match s.validate part { r with lr := lr } with
    | 0 => if !s.hasEntry part true then (s, 8) else (s.accept part lr .spawn addr, 0)
    | st => (s, w64 st)

/-- Do the earlier accesses of a weave let SPAWN read: none that an acquire waits for or that touches the record is
unperformed. -/
def State.spawnReady (s : State) (id : Nat) (o : ScopeOp) (l : Option Loc) : Bool :=
  !(someT s.kvOps fun k q => k < id && q.weave == o.weave && q.kind.isAcq) &&
    s.lsOps.all fun (k, q) => k ≥ id || q.weave != o.weave || q.accs.all fun b =>
      b.got.isSome || !(q.sem == .acq || q.sem == .acqrel || (match l with
        | some l => Acc.overlaps { b with loc := l, size := 128 } b
        | none => false))

/-- SPAWN reaches the table once its read may be made; a place that was not translated at issue is translated now.
Open points: DEDUCED, log 19. -/
def State.spawnStep (s : State) (id : Nat) (o : ScopeOp) (src : Option Loc) (addr h : W64) (prio : Option Nat) : State :=
  if !s.currentW o.part h then s.finishScope id o 5 false
  else
    match src with
    | some (.virt lva) =>
      match s.xlateLs (coreDie o.core) o.part lva.toNat 0 0 with
      | .error .held => s
      | .error (.resolvable lva _) =>
        let (fid, s) := s.raise o.part lva 0 .ls (s.ownPeer o.part) (srcCore o.core) (.scopeOp id) none false
        { s with scopeOps := Tbl.upd s.scopeOps id fun o => { o with fault := some fid } }
      | .error (.page _ _) =>
        { s with scopeOps := Tbl.upd s.scopeOps id fun o => { o with kind := .spawn none addr h prio } }
      | .ok pa => { s with scopeOps := Tbl.upd s.scopeOps id fun o => { o with kind := .spawn (some (.mem pa)) addr h prio } }
    | src =>
      let held : Bool := match src with
        | some l => !s.locReady l
        | none => false
      if held || !s.spawnReady id o src then s
      else
        let mm := s.spawnMismatch o src
        let r := s.spawnAt o.part src addr h prio
        (r.1.stickyIf o.weave wsMismatch mm).finishScope id o r.2 (src.isSome && !mm)

/-- SCOPE_TABLE_OPERATION: operations of one weave take effect in their order. -/
def execScopeTableOperation (id : Nat) (s : State) : Host.Outcome State Fault Refusal :=
  .next (match Tbl.find s.scopeOps id with
    | none => s
    | some o =>
      if o.asleep || o.fault.isSome || someT s.scopeOps fun k q => k < id && q.weave == o.weave && !q.asleep then s
      else
        match o.kind with
        | .spawn src addr h prio => s.spawnStep id o src addr h prio
        | .cscope parent ack flag =>
          let r := s.createScope o.part parent ack flag
          r.1.finishScope id o r.2 false
        | .cancel h =>
          let r := s.markCancel o.part h
          r.1.finishScope id o r.2 false
        | .cwait h =>
          if s.currentW o.part h then
            { s with scopeOps := Tbl.upd s.scopeOps id fun o => { o with asleep := true } }
          else s.finishScope id o 1 false)

/-! ### The fates of cancelled work (R91–R93, R257, R262) -/

/-- Adds to the counts of a scope's cancellation. -/
def State.tally (s : State) (part id : Nat) (f : Cancel → Cancel) : State :=
  match (s.scopeEnt part id).byOp with
  | some c => { s with cancels := Tbl.upd s.cancels c f }
  | none => s

/-- Partly signed requests of a team lose their signatures, and the register is cleared. -/
def State.clearSigning (s : State) (part id tid : Nat) : State :=
  match s.team tid with
  | none => s
  | some t =>
    t.cv.foldl (fun (s : State) (r, c) =>
      if c.st = .signing then
        let s := (s.setCv tid r { Cv.initial with pend := c.pend, mask := c.mask }).signersDown c.signers
        s.tally part id fun x => { x with status := x.status ||| 2 }
      else s) s

/-- The teams of fields under a scope. -/
def State.scopeTeams (s : State) (part id : Nat) : List Nat :=
  keysOf s.teams fun _ t =>
    match (s.cohort t.cohort).bind fun c => s.field c.field with
    | some f => f.part == part && handleId f.scope == id
    | none => false

/-- The engines' work of one cancelling scope: queued copies, matrix requests, phase objects.
Open points: DESIGN CHOICE, log 11. -/
def State.sweepScope (s : State) (part id : Nat) : State :=
  let h := s.handleAt part id
  let (s, n) := s.dropCopies fun c => c.part == part && c.scopeH == h
  let s := if n = 0 then s else s.tally part id fun x => { x with copies := x.copies + n }
  let s := (s.scopeTeams part id).foldl (fun s t => s.clearSigning part id t) s
  let reqs := s.mxReqs.filter fun e => e.2.part == part && e.2.scopeH == h && !e.2.cancelled
  let s := reqs.foldl (fun (s : State) (i, q) =>
    (s.cancelReq i q).tally part id fun x => { x with status := x.status ||| 2 }) s
  let (s, p) := s.poisonOwned part [h]
  if p then s.tally part id fun x => { x with status := x.status ||| 1 } else s

/-- The scopes that are being cancelled. -/
def State.dying (s : State) : List (Nat × Nat) :=
  s.cancels.flatMap fun (_, c) => c.marked.map fun i => (c.part, i)

/-- Does a group sleep at a kill point: a PHWAIT or BAR that waits its turn at the barrier unit may still find its result without a
sleep, one that is held until a saved cohort is placed again sleeps (R406, R408, R268). Open points: DEDUCED, log 38 and 56. -/
def State.sleepsToKill (s : State) (wid : Nat) (g : Group) : Bool :=
  g.sleep.killable || (match g.sleep with
    | .unit _ => !(someT s.phOps fun _ o => o.weave == wid && o.gid == g.gid)
    | _ => false)

/-- A weave whose end is due: its sleeping groups end; all of them if its cohort is saved (R91, R257).
Open points: DESIGN CHOICE, log 11. -/
def State.sweepWeave (s : State) (wid : Nat) : State :=
  match s.env wid with
  | none => s
  | some e =>
    if !s.killDue e then s
    else
      let can := s.envCancelling e
      let s := if can then s.sticky wid wsCancel else s
      if e.c.st = .saving then s
      else if e.c.st = .saved then s.endThreads wid e.w.live can
      else
        let ls : Lanes := (e.w.groups.filter (s.sleepsToKill wid)).foldl (fun m g => m ||| g.lanes) 0
        if ls = 0 then s else s.endThreads wid ls can

/-- A CWAIT whose group has ended leaves the table's list and writes nothing (R91, R92). -/
def State.dropWaits (s : State) : State :=
  s.scopeOps.foldl (fun (s : State) (id, o) =>
    let gone : Bool := match s.weave o.weave with
      | some w => (w.group o.gid).isNone
      | none => true
    match o.kind with
    | .cwait _ =>
      if gone && o.asleep then
        State.updWeave { s with scopeOps := Tbl.del s.scopeOps id } o.weave fun w => (w.unmark id).countDown o.flag
      else s
    | _ => s) s

/-- Is the group of an operation halted. -/
def State.opHalted (s : State) (o : ScopeOp) : Bool :=
  match (s.weave o.weave).bind fun w => w.group o.gid with
  | some g => g.halted
  | none => false

/-- A CWAIT of a restored cohort whose scope has drained meanwhile wakes (R269). -/
def State.wakeWaits (s : State) : State :=
  s.scopeOps.foldl (fun (s : State) (id, o) =>
    match o.kind with
    | .cwait h => if o.asleep && !s.opHalted o && !s.currentW o.part h then s.finishScope id o 0 true else s
    | _ => s) s

/-- The queued copies of a team that ends by a trap are dropped (R257, R91). -/
def State.dropEnded (s : State) : State :=
  (s.dropCopies fun c => match s.team c.team with
    | some t => t.ending
    | none => false).1

/-- What a cancellation, the end of a team by a trap and the failure of a field bring about at once.
Open points: DESIGN CHOICE, log 11. -/
def State.sweep (s : State) : State :=
  let s := (Tbl.keys s.weaves).foldl State.sweepWeave s
  let s := s.dropEnded
  let s := s.dying.foldl (fun (s : State) x => s.sweepScope x.1 x.2) s
  s.dropWaits.wakeWaits

/-! ### The drain (R95–R97) -/

/-- INFLIGHT: has a scope operations of its weaves that are not complete, or requests of them at peers that are not acknowledged. -/
def State.inflight (s : State) (part id : Nat) : Bool :=
  let mine (p : Nat) (h : W32) : Bool := p == part && handleId h == id
  (someT s.lsOps fun _ o => mine o.part o.scopeH) || (someT s.copies fun _ c => mine c.part c.scopeH)
    || (someT s.kvOps fun _ o => mine o.part o.scopeH) || (someT s.mxReqs fun _ q => mine q.part q.scopeH)
    || (someT s.scopeOps fun _ o => mine o.part o.scopeH && !o.asleep)
    || (someT s.legs fun _ l => l.answer.isNone && mine l.pkt.srcPart l.scopeH)
    || (someT s.maskLoads fun _ m => m.part == part && (s.scopeTeams part id).contains m.team)
    || (someT s.phOps fun _ o => match s.env o.weave with
        | some e => mine e.part e.f.scope
        | none => false)
    || (someT s.fields fun _ f => mine f.part f.scope && !f.ended)

/-- Is a cancellation drained (R95). -/
def State.drained (s : State) (id : Nat) (c : Cancel) : Bool :=
  let ids := s.subtree c.part c.top
  (ids.all fun i =>
    let e := s.scopeEnt c.part i
    e.teams == 0 && e.queued == 0 && e.spawns == 0 && !s.inflight c.part i)
    && !(someT s.cancels fun k x => k < id && x.part == c.part && ids.contains x.top)
    && !(someT s.voids fun _ v => v.cancel == some id || (v.part == c.part && s.current v.part v.scope && ids.contains (handleId v.scope)))

/-- The completion record (R95 Table 4). -/
def Cancel.bytes (c : Cancel) : List (BitVec 8) :=
  natToBytes 2 c.top ++ natToBytes 2 0 ++ natToBytes 4 c.killed ++ natToBytes 4 c.records ++ natToBytes 4 c.spawns
    ++ natToBytes 4 c.copies ++ natToBytes 4 (2 ^ 31 + c.status.toNat) ++ natToBytes 4 c.voided ++ natToBytes 4 0

/-- Steps 3 and 4: CWAITs wake with an acquire, and the entries become free. -/
def State.endCancel (s : State) (id : Nat) (c : Cancel) : State :=
  let hs := c.marked.map fun i => (s.handleAt c.part i).setWidth 64
  let waits := s.scopeOps.filter fun e => e.2.part == c.part && e.2.asleep && (match e.2.kind with
    | .cwait h => hs.contains h
    | _ => false)
  let s := waits.foldl (fun (s : State) (i, o) => if s.opHalted o then s else s.finishScope i o 0 true) s
  let s := c.marked.foldl (fun (s : State) i => s.updScope c.part i fun e => { ScopeEnt.free with gen := e.gen }) s
  { s with cancels := Tbl.del s.cancels id }

/-- A write of the record or of the flag cannot be made: the entry of KIND 8 stands for it (R95), with QUEUE and STATUS as an
entry that names neither. Open points: DESIGN CHOICE, log 20. -/
def State.ackLost (s : State) (id : Nat) (c : Cancel) : State :=
  let e := s.scopeEnt c.part c.top
  (s.record c.part { FaultEntry.blank with
    kind := 8, addr := w64 e.ack.base, scope := s.handleAt c.part c.top }).endCancel id c

/-- A fault of the scheduler's write (R446). Open points: DESIGN CHOICE, log 20. -/
def State.ackFault (s : State) (id : Nat) (c : Cancel) (lva : Nat) : State :=
  let (fid, s) := s.raise c.part lva 1 .ls (s.ownPeer c.part) (srcAgent 0) (.cancel id) none false
  { s with cancels := Tbl.put s.cancels id { c with fault := some fid } }

/-- Writes bytes at an LVA as a release at module scope by the device. -/
def State.ackWrite (s : State) (part lva : Nat) (bs : List (BitVec 8)) : KM State :=
  match s.ownWrite 0 part lva bs with
  | .error e => .error e
  | .ok s' =>
    .ok ((chunksOf lva bs.length).foldl (fun (t : State) c =>
      match s.xlate 0 part c.1 1 with
      | .ok pa => t.recordRel (.mem pa) c.2 (s.relAt (.mem pa)) (some (Rel.by_ .mod (s.deviceIdent part)))
      | .error _ => t) s')

/-- The flag increment, then the end. -/
def State.ackFlagStep (s : State) (id : Nat) (c : Cancel) (lva : Nat) : State :=
  let e := s.scopeEnt c.part c.top
  if !(e.ack.tag && e.ackFlag) then s.endCancel id c
  else
    match s.kvPa 0 c.part (lva + 32) 1 with
    | .error (.xl .resolvable l _) => s.ackFault id c l
    | .error (.xl (.unresolvable _) _ _) => s.ackLost id c
    | .error _ => s
    | .ok pa =>
      if s.eccBad pa then s.ackLost id c
      else
        match s.ackWrite c.part (lva + 32) (natToBytes 8 ((Memory.num s.mem pa 8 + 1) % 2 ^ 64)) with
        | .ok s => s.endCancel id c
        | .error _ => s

/-- CANCEL_DRAINED: record, flag, wakes, entries (R95). -/
def execCancelDrained (part scope : Nat) (s : State) : Host.Outcome State Fault Refusal :=
  .next (match s.cancels.find? fun e => e.2.part == part && e.2.top == scope with
    | none => s
    | some (id, c) =>
      let e := s.scopeEnt part scope
      let lva := e.ack.base % 2 ^ 55
      if c.fault.isSome || !s.drained id c then s
      else if !e.ack.tag || c.written then s.ackFlagStep id c lva
      else
        match s.ackWrite part lva c.bytes with
        | .error (.xl .resolvable l _) => s.ackFault id c l
        | .error (.xl (.unresolvable _) _ _) => s.ackLost id c
        | .error _ => s
        | .ok s =>
          let c := { c with written := true }
          State.ackFlagStep { s with cancels := Tbl.put s.cancels id c } id c lva)

end Sys2Proof.Machine
end

