-- ==== Sys2Proof/Machine/Control.lean ====
section
/-! DEFINITION. RUN headers, FILL, transfers of control, loops, WAITT, kill points, TRAP and BRK, special registers
(R92, R102, R103, R108, R113, R119–R121, R298, R313–R329). -/

namespace Sys2Proof.Machine

open Sys2Proof

/-! ### RUN and FILL (R317, R298) -/

/-- The run that a header begins. -/
def Run.begin_ (hdr : W64) (a b : Option (BitVec 4)) : Run :=
  { hdr := hdr, slotA := a, slotB := b, count := 0, vl := [] }

/-- The group's run begins; the weave's other ready groups that are in no run at a port have been passed over once more (R112). -/
def State.enterRun (s : State) (e : Env) (c : Cur) (r : Run) : State :=
  let ready := (e.w.groups.filter fun o => o.gid != c.gid && !o.port && s.groupReady e o).map (·.gid)
  let f (g : Group) : Group :=
    if g.gid = c.gid then
      { g with pc := c.addr + 8, pos := .inRun, run := r, progress := 0, sleep := .awake, skipped := 0, port := true
               latch := none }
    else if ready.contains g.gid then { g with skipped := g.skipped + 1 } else g
  s.updWeave e.wid fun w => { w with groups := w.groups.map f }

/-- RUN: kill point, halt, wait with its traps, and the latching of the slots. The checks of R291 precede it. A group that is held
keeps the header that it has fetched (R301), and is examined again from the kill point on. Open points: DEDUCED, log 59; DESIGN
CHOICE, log 56. -/
def execRun (wait : BitVec 12) (a b : Option (BitVec 4)) (s : State) : Host.Outcome State Fault Refusal :=
  .next (match s.issuer with
    | none => s
    | some (c, e, g) =>
      let put (f : Group → Group) : State := s.onGroup c f
      if s.killDue e then s.endThreads e.wid g.lanes (s.envCancelling e)
      else if e.c.st = .halting then put fun g => { g with halted := true, sleep := .awake, port := false }
      else if !e.w.flagsClear wait then
        put fun g => { g with sleep := .header wait, port := false, latch := some (c.addr, c.code) }
      else
        let r := Run.begin_ c.addr a b
        match e.w.takeErr (Deferred.atHeader wait) with
        | some (d, w) =>
          let s := s.setWeave e.wid (w.updGroup g.gid fun g => { g with run := r })
          s.takeTrap e.wid g.gid c.addr 8 false (d.trap true false)
        | none => s.enterRun e c r)

/-- FILL is fetched and discarded (R298). -/
def execFill (s : State) : Host.Outcome State Fault Refusal :=
  .next (match s.issuer with
    | none => s
    | some (c, _, _) => s.onGroup c fun g => { g with pc := c.addr + 4, latch := none })

/-- NOP (R313). -/
def execNop (h : Hd) (s : State) : Host.Outcome State Fault Refusal := issue (.nop h) s fun x => .done x.s

/-! ### Where threads go (R110, R113, R314) -/

/-- The place of a thread after a transfer. -/
structure Place where
  pc       : W64
  pos      : Pos
  run      : Run
  progress : Nat
  deriving DecidableEq, Repr

/-- A RUN header that a transfer reaches. -/
def Place.header (a : W64) : Place := { pc := a, pos := .arrived, run := Run.none_, progress := 0 }

/-- After the instruction: the end of its run (R314). -/
def Ctx.fall (x : Ctx) : Place := { pc := x.c.addr + w64 x.c.len, pos := .between, run := Run.none_, progress := 0 }

/-- The lanes of a list of places that stand at one of them. -/
def lanesAt (ps : List (Nat × Place)) (p : Place) : Lanes :=
  ps.foldl (fun (m : Lanes) x => if x.2 = p then m ||| (1#32 <<< x.1) else m) 0

/-- The issuing group divides by where its threads stand; the first part keeps its name. -/
def Ctx.split (x : Ctx) (s : State) (ps : List (Nat × Place)) : State :=
  let parts := (ps.map (·.2)).eraseDups
  let base := s.nextId
  let mk (i : Nat) (p : Place) : Group :=
    { x.g with gid := if i = 0 then x.g.gid else base + i, lanes := lanesAt ps p, pc := p.pc, pos := p.pos, run := p.run
               progress := p.progress, sleep := .awake, port := false, latch := none }
  let new := parts.zipIdx.map fun (p, i) => mk i p
  let s := { s with nextId := base + parts.length }
  s.updWeave x.e.wid fun w => { w with groups := w.groups.flatMap fun g => if g.gid = x.g.gid then new else [g] }

/-- Every thread of the group with its place: `f` gives that of an active one. -/
def Ctx.places (x : Ctx) (f : Nat → Place) : List (Nat × Place) :=
  x.g.lanes.toList.map fun l => (l, if x.act.has l then f l else x.fall)

/-! ### Targets (R315) -/

/-- Why a transfer is not made. -/
inductive Stop where
  | branch (lane : Option Nat)
  | code (lane : Option Nat) (why : CodeErr)
  deriving DecidableEq, Repr

/-- What a transfer that is not made answers: BRANCH_TARGET; or what the fetch of a target word gives at the transferring
instruction (R315, R126). `l` is the thread whose own target it is. -/
def Ctx.stopped (x : Ctx) : Stop → Res
  | .branch l => .trap { Trap.plain .branchTarget 0 with lane := l }
  | .code _ .bounds => .trap (.plain .branchTarget 0)
  | .code l (.fault lva) => .stay (x.s.sleepOnFault x.e x.g.gid lva 3 l (some (x.c.addr, x.c.code)))
  | .code l (.page ecc) => .trap { Trap.plain .pageFault (12 + (if ecc then 16 else 0)) with lane := l }
  | .code _ .held => .stall
  | .code _ (.away p lva) => .stay ((x.s.askCode x.e p lva).onGroup x.c fun g =>
      { g with sleep := .stall, port := false, latch := some (x.c.addr, x.c.code) })
  | .code l (.peer p .absent) => .trapIn (x.s.emit (.peerAbsent x.e.part (BitVec.ofNat 9 p) x.e.t.core))
      { Trap.plain .peerAbsent p with lane := l }
  | .code l (.peer p .down) => .trap { Trap.plain .peerDown p with lane := l }

/-- The code capability of a thread (R315). -/
def Ctx.codeOf (x : Ctx) (l : Nat) : Cap := if x.w.inTrap l then x.e.f.lr.trap else x.e.f.lr.code

/-- The RUN header at an address, after `n` FILL words at most. Open points: DEDUCED, log 22. -/
def Ctx.headerAt (x : Ctx) (l : Nat) (own : Option Nat) (fill : Bool) : Nat → Int → Except Stop W64
  | 0, _ => .error (.branch own)
  | n + 1, a =>
    let c := x.codeOf l
    if a % 4 ≠ 0 ∨ !c.covers a 4 then .error (.branch own)
    else
      match x.s.code { e := x.e, caps := [c], latch := none } a.toNat 4 with
      | .error .bounds => .error (.branch own)
      | .error r => .error (.code own r)
      | .ok w =>
        if fill ∧ w = 7 then x.headerAt l own fill n (a + 4)
        else if isHeader (w32 w) then .ok (w64 a.toNat)
        else .error (.branch own)

/-- Checks a thread's target; where FILL may precede the header, all words of the code may be FILL.
Open points: DEDUCED, log 22. -/
def Ctx.target (x : Ctx) (l : Nat) (own : Option Nat) (fill : Bool) (a : Int) : Except Stop W64 :=
  x.headerAt l own fill (if fill then (x.codeOf l).len / 4 + 1 else 1) a

/-- The places of the active threads, all checked before any moves. -/
def Ctx.targets (x : Ctx) (f : Nat → Except Stop Place) : Except Stop (List (Nat × Place)) :=
  x.lanes.foldlM (fun acc l =>
    match f l with
    | .error e => .error e
    | .ok p => .ok (acc ++ [(l, p)])) []

/-- A transfer: every active thread goes to its place and its frames and loop levels change.
Open points: DEDUCED, log 22. -/
def Ctx.transfer (x : Ctx) (f : Nat → Except Stop Place) (edit : Weave → Weave) : Res :=
  match x.targets f with
  | .error e => x.stopped e
  | .ok ps => .stay (x.split (x.upd edit) (x.places fun l => (Tbl.find ps l).getD x.fall))

/-- Changes a weave for each active thread. -/
def Ctx.eachLane (x : Ctx) (f : Weave → Nat → Weave) (w : Weave) : Weave := x.lanes.foldl f w

/-- The target of BRA and CALL (R318). -/
def Ctx.relative (x : Ctx) (imm : W32) : Int := (x.c.addr.toNat : Int) + 4 * sImm imm

/-- BRA (R318). -/
def execBra (h : Hd) (imm : W32) (s : State) : Host.Outcome State Fault Refusal :=
  issue (.bra h imm) s fun x =>
    x.transfer (fun l => (x.target l none false (x.relative imm)).map Place.header) id

/-- CALL: the eighth frame stays free for a trap (R316). -/
def execCall (h : Hd) (imm : W32) (s : State) : Host.Outcome State Fault Refusal :=
  issue (.call h imm) s fun x =>
    x.transfer (fun l => do
        let a ← x.target l none false (x.relative imm)
        if (x.w.frame l).length ≥ 7 then .error (.branch (some l)) else .ok (Place.header a))
      (x.eachLane fun w l => w.setFrame l (.call (x.c.addr + 12) :: w.frame l))

/-- BRX (R319). -/
def execBrx (h : Hd) (a : Nat) (s : State) : Host.Outcome State Fault Refusal :=
  issue (.brx h a) s fun x =>
    x.transfer (fun l =>
      (x.target l (some l) false (((x.codeOf l).base + 4 * (x.w.getV a l).toNat : Nat) : Int)).map Place.header) id

/-- Where RET takes a thread (R256, R320). Open points: DEDUCED, log 61. -/
def Ctx.retPlace (x : Ctx) (l : Nat) : Except Stop Place :=
  match x.w.frame l with
  | [] => .error (.branch (some l))
  | .call ret :: _ => (x.target l (some l) true ret.toNat).map Place.header
  | f =>
    match popTrap f with
    | some (r, _) => .ok { pc := r.pc, pos := r.pos, run := r.run, progress := r.progress }
    | none => .error (.branch (some l))

/-- RET; once no thread of the weave is in a handler, a group that waits with a trap takes it (R255). -/
def execRet (h : Hd) (s : State) : Host.Outcome State Fault Refusal :=
  issue (.ret h) s fun x =>
    match x.transfer x.retPlace (x.eachLane fun w l => w.setFrame l (w.frame l).tail) with
    | .stay s => .stay (s.updWeave x.e.wid fun w => w.releaseHandler x.e.f.lr)
    | r => r

/-- EXIT ends the active threads; the others fall through (R123, R321). -/
def execExit (h : Hd) (s : State) : Host.Outcome State Fault Refusal :=
  issue (.exit h) s fun x =>
    .stay ((x.split x.s (x.places fun _ => x.fall)).exitThreads x.e.wid x.act)

/-! ### Hardware loops (R322–R324) -/

/-- Makes level `lvl` of a thread inactive, with the levels of a set. -/
def Weave.closeLoops (w : Weave) (l : Nat) (lvls : List Nat) : Weave := lvls.foldl (fun w v => w.setLoop l v none) w

/-- LOOP .beg for one thread. -/
def Weave.openLoop (w : Weave) (l lvl : Nat) (x : Loop) : Weave :=
  let w := [0, 1, 2, 3].foldl (fun (w : Weave) v =>
    match w.loop l v with
    | some y => if v = lvl then w else w.setLoop l v (some { y with inner := y.inner ||| (1#4 <<< lvl) })
    | none => w) w
  w.setLoop l lvl (some x)

/-- LOOP (R323). -/
def execLoopBeg (h : Hd) (lvl : BitVec 2) (a : Nat) (endOff startOff : BitVec 16) (s : State) :
    Host.Outcome State Fault Refusal :=
  issue (.loopBeg h lvl a endOff startOff) s fun x =>
    let at_ (o : BitVec 16) : W64 := x.c.addr + 4 * o.setWidth 64
    .done (x.upd (x.eachLane fun w l =>
      let n := x.w.getV a l
      w.openLoop l lvl.toNat
        { iter := if n = 0 then 1 else n, start := at_ startOff, stop := at_ endOff, inner := 0 }))

/-- Where LOOP .end takes a thread: back to START, or on. -/
def Ctx.loopPlace (x : Ctx) (lvl l : Nat) : Except Stop Place :=
  match x.w.loop l lvl with
  | none => .error (.branch (some l))
  | some y =>
    if y.stop ≠ x.c.addr then .error (.branch (some l))
    else if y.iter = 1 then .ok x.fall
    else (x.target l (some l) false y.start.toNat).map Place.header

/-- LOOP .end for one thread. -/
def Weave.nextIter (w : Weave) (l lvl : Nat) : Weave :=
  match w.loop l lvl with
  | some y => w.setLoop l lvl (if y.iter = 1 then none else some { y with iter := y.iter - 1 })
  | none => w

/-- LOOP .end (R323). -/
def execLoopEnd (h : Hd) (lvl : BitVec 2) (s : State) : Host.Outcome State Fault Refusal :=
  issue (.loopEnd h lvl) s fun x =>
    x.transfer (x.loopPlace lvl.toNat) (x.eachLane fun w l => w.nextIter l lvl.toNat)

/-- The levels that LBRK closes. -/
def Weave.brokenBy (w : Weave) (l lvl : Nat) : List Nat :=
  match w.loop l lvl with
  | some y => lvl :: ([0, 1, 2, 3].filter fun v => y.inner.getLsbD v)
  | none => []

/-- LBRK (R324). -/
def execLbrk (h : Hd) (lvl : BitVec 2) (s : State) : Host.Outcome State Fault Refusal :=
  issue (.lbrk h lvl) s fun x =>
    x.transfer (fun l =>
        match x.w.loop l lvl.toNat with
        | none => .error (.branch (some l))
        | some y => (x.target l (some l) true (y.stop.toNat + 12 : Nat)).map Place.header)
      (x.eachLane fun w l => w.closeLoops l (w.brokenBy l lvl.toNat))

/-! ### Sleeping, kill points and traps (R325–R327) -/

/-- Is a copy that the weave issued with a promise at or below `t` incomplete. -/
def State.promiseMissed (s : State) (wid : Nat) (t : W64) : Bool :=
  someT s.copies fun _ c => c.weave == wid && c.promise.toNat ≤ t.toNat

/-- PROMISE_MISSED. -/
def missedTrap : Trap := { Trap.plain .promiseMissed 0 with resume := .after }

/-- The threads of the issuing group end at a kill point. -/
def Ctx.kill (x : Ctx) : Res := .stay (x.s.endThreads x.e.wid x.g.lanes (x.s.envCancelling x.e))

/-- WAITT (R325). The promise has 64 bits; CLOCK is compared as it counts. Open points: DESIGN CHOICE, log 63. -/
def execWaitt (h : Hd) (a : Nat) (s : State) : Host.Outcome State Fault Refusal :=
  issue (.waitt h a) s fun x =>
    let t := x.w.getS a
    if x.s.killDue x.e then x.kill
    else if x.s.clock < t.toNat then
      .stay (x.s.onGroup x.c fun g => { g with sleep := .clock t x.h.bnd, port := false })
    else if x.s.promiseMissed x.e.wid t then .trap missedTrap
    else .done x.s

/-- The group after its WAITT. -/
def Group.afterWaitt (g : Group) (bnd : Bool) : Group :=
  let g := { g with pc := g.pc + 8, run := { g.run with count := g.run.count + 1 }, sleep := .awake, latch := none }
  if bnd then g.boundary else g

/-- WAITT_WAKE: CLOCK has reached the promise (R142, R325). -/
def execWaittWake (weave gid : Nat) (s : State) : Host.Outcome State Fault Refusal :=
  .next (match s.env weave with
    | none => s
    | some e =>
      match e.w.group gid with
      | none => s
      | some g =>
        match g.sleep with
        | .clock t bnd =>
          if g.halted || s.clock < t.toNat then s
          else if s.killDue e then s.endThreads weave g.lanes (s.envCancelling e)
          else if s.promiseMissed weave t then s.takeTrap weave gid g.pc 8 bnd missedTrap
          else s.updWeave weave fun w => w.updGroup gid fun g => g.afterWaitt bnd
        | _ => s)

/-- KPOINT (R326): the group leaves its port here, without sleeping (R104). -/
def execKpoint (h : Hd) (s : State) : Host.Outcome State Fault Refusal :=
  issue (.kpoint h) s fun x => if x.s.killDue x.e then x.kill else .sleep x.s .awake

/-- SOFTWARE and BREAK: taken if some thread is active. -/
def Ctx.soft (x : Ctx) (code : TrapCode) (imm : BitVec 16) : Res :=
  if x.act = 0 then .done x.s else .trap { Trap.plain code imm.toNat with resume := .after }

/-- TRAP (R327). -/
def execTrap (h : Hd) (imm : BitVec 16) (s : State) : Host.Outcome State Fault Refusal :=
  issue (.trap h imm) s fun x => x.soft .software imm

/-- BRK (R327). -/
def execBrk (h : Hd) (imm : BitVec 16) (s : State) : Host.Outcome State Fault Refusal :=
  issue (.brk h imm) s fun x => x.soft .break_ imm

/-! ### Special registers (R119–R121, R328, R329) -/

/-- The progress index that a group reads: its own, which the frame holds while it is in its handler (R120, R253). -/
def Ctx.progress (x : Ctx) : Nat :=
  match (x.w.frame (x.g.lanes.toList.headD 0)).findSome? fun f => match f with
    | .trap _ _ _ n => some n
    | .call _ => none with
  | some n => n
  | none => 0

/-- WSTAT as the group reads it (R120). -/
def Ctx.wstatVal (x : Ctx) : W64 := (x.w.wstat &&& ~~~(0xFFFF00000000#64)) ||| w64 (x.progress % 2 ^ 16 * 2 ^ 32)

/-- The value of a uniform special register (R119 Table 6); CLOCK is read modulo 2^64. Open points: DESIGN CHOICE, log 63. -/
def Ctx.sregVal (x : Ctx) (num : Nat) : W64 :=
  let r := x.e.f.lr
  match num with
  | 1 => w64 (x.e.t.num % Nat.max 1 r.teams)
  | 2 => w64 x.e.c.index
  | 3 => w64 (x.e.t.num / Nat.max 1 r.teams)
  | 4 => w64 r.threads
  | 5 => w64 r.teams
  | 6 => w64 r.cohorts
  | 7 => w64 r.stages
  | 8 => w64 x.s.clock
  | 9 => x.wstatVal
  | 10 => x.e.f.scope.setWidth 64
  | 11 => w64 (x.s.ownPeer x.e.part)
  | 12 => w64 (coreDie x.e.t.core)
  | 13 => w64 (x.e.t.core % 64)
  | 14 => w64 x.w.slot
  | 15 => x.w.trapinfo
  | _ => 0

/-- SREG (R328). -/
def execSreg (h : Hd) (num : BitVec 4) (d : Nat) (s : State) : Host.Outcome State Fault Refusal :=
  issue (.sreg h num d) s fun x =>
    if num = 0 then .done (x.putV d fun l => w32 (x.w.idx * 32 + l)) else .done (x.putS d (x.sregVal num.toNat))

/-- SWREG clears bits 0, 1, 2 and 4 of WSTAT. -/
def execSwreg (h : Hd) (a : Nat) (s : State) : Host.Outcome State Fault Refusal :=
  issue (.swreg h a) s fun x =>
    .done (x.upd fun w => { w with wstat := w.wstat &&& ~~~(w.getS a &&& 0x17) })

end Sys2Proof.Machine
end

