-- ==== Sys2Proof/Machine/Aperture.lean ====
section
/-! DEFINITION. The host's accesses through the aperture of a VF (R64, R66, R58 Table 5). -/

namespace Sys2Proof.Machine

open Sys2Proof

/-- Partition of a VF (R49). -/
def partOf (vf : Nat) : Option Nat := if 1 ≤ vf ∧ vf ≤ 16 then some (vf - 1) else none

/-- The access completes with completer abort and is logged as KIND 4 with the LVA that failed.
Open points: DESIGN CHOICE, log 43. -/
def State.apAbort (s : State) (id : Nat) (o : ApOp) (lva : Nat) : State :=
  (State.emit { s with apOps := Tbl.del s.apOps id } (.completerAbort o.part)).record o.part { FaultEntry.blank with
    kind := 4, addr := w64 (lva % 2 ^ 55) }

/-- A granule of a failed stack or port (R14). -/
def State.apFailed (s : State) (o : ApOp) : Option Nat :=
  ((chunksOf o.lva.toNat o.len).find? fun c => match s.xlate 0 o.part (c.1 % 2 ^ 55) (if o.write then 1 else 0) with
    | .ok pa => s.memSt pa == .failed
    | .error _ => false).map (·.1)

/-- Does an earlier posted write of the function still wait (R66). Open points: DESIGN CHOICE, log 43. -/
def State.apBehind (s : State) (id : Nat) (part : Nat) : Bool := someT s.apOps fun k q => k < id && q.part == part && q.write

/-- What stops an access: a fault to be served (R446: an agent on no die), an abort, or a wait. -/
def State.apStopped (s : State) (id : Nat) (o : ApOp) (e : KErr) : State :=
  match e with
  | .xl .resolvable lva kind =>
    let (fid, s) := s.raise o.part lva kind .ls (s.ownPeer o.part) (srcAgent 0) (.aperture id) none false
    { s with apOps := Tbl.upd s.apOps id fun o => { o with fault := some fid } }
  | .xl (.unresolvable _) lva _ => s.apAbort id o lva
  | _ => s

/-- A queue with a bad tail halts and raises its vector (R65). -/
def State.queueError (s : State) (q : Nat) (code : BitVec 8) : State :=
  let x := s.queue q
  (s.setQueue q { x with qerr := code }).emit (.msix (vfOf x.part.toNat) x.msix.toNat)

/-- A doorbell takes effect: the tail is checked and recorded (R65). One for no queue or outside RUN is dropped and logged, in
ERROR with completer abort (R58 Table 5); a halted queue takes no tail. Open points: DESIGN CHOICE, log 43. -/
def State.ring (s : State) (p index : Nat) (tail : W32) : State :=
  match (if (s.part p).tdi = .run then s.queueAt p index else none) with
  | none =>
    let s := s.emit (.dropped p index)
    if (s.part p).tdi = .error then s.emit (.completerAbort p) else s
  | some q =>
    let x := s.queue q
    if x.qerr ≠ 0 then s
    else if (tail - x.head).toNat > 2 ^ x.log2n.toNat then s.queueError q 1
    else if (tail - x.head).toNat < (x.tail - x.head).toNat then s.queueError q 2
    else s.setQueue q { x with tail := tail }

/-- A performed access of the host has accessed the memory of the dies that home it (R21). -/
def State.touchRange (s : State) (o : ApOp) : State :=
  (chunksOf o.lva.toNat o.len).foldl (fun (s : State) c =>
    match s.xlate 0 o.part (c.1 % 2 ^ 55) (if o.write then 1 else 0) with
    | .ok pa => s.touch pa
    | .error _ => s) s

/-- Tries a held access or doorbell: all of it is performed, or none. Open points: DESIGN CHOICE, log 43. -/
def State.tryAp (s : State) (id : Nat) : State :=
  match Tbl.find s.apOps id with
  | none => s
  | some o =>
    let gone : State := { s with apOps := Tbl.del s.apOps id }
    if o.fault.isSome || s.apBehind id o.part then s
    else
      match o.bell, s.apFailed o with
      | some (index, tail), _ => gone.ring o.part index tail
      | none, some lva => s.apAbort id o lva
      | none, none =>
        if o.write then
          match gone.ownWrite 0 o.part o.lva.toNat o.data with
          | .ok s' => (s'.touchRange o).emit (.apDone o.part)
          | .error e => s.apStopped id o e
        else
          match gone.ownRead 0 o.part o.lva.toNat o.len with
          | .ok bs => (gone.touchRange o).emit (.apData o.part bs)
          | .error e => s.apStopped id o e

/-- Tries every held access, oldest first. -/
def State.serveAperture (s : State) : State := (Tbl.keys s.apOps).foldl State.tryAp s

/-- The VF's partition; in recovery mode the endpoint presents PF0 only (R49, R19). -/
def State.vfPart (s : State) (vf : Nat) : Option Nat := if s.hd.recovery then none else partOf vf

/-- APERTURE_ACCESS: served in RUN, aborted in ERROR, dropped in the other states (R58 Table 5).
Open points: DESIGN CHOICE, log 43. -/
def execApertureAccess (vf : Nat) (offset : BitVec 32) (write : Bool) (len : Nat) (data : List (BitVec 8)) (s : State) :
    Host.Outcome State Fault Refusal :=
  .next (match s.vfPart vf with
    | none => s
    | some p =>
      let n := if write then data.length else len
      match (s.part p).tdi with
      | .unlocked | .locked => s
      | .error => s.emit (.completerAbort p)
      | .run =>
        if n = 0 ∨ offset.toNat + n > 2 ^ 32 then s
        else
          let (id, s) := s.fresh
          let o : ApOp := { part := p, lva := BitVec.ofNat 55 ((s.part p).apbase.toNat + offset.toNat), write := write
                            len := n, data := data, bell := none, fault := none }
          State.tryAp { s with apOps := Tbl.put s.apOps id o } id)

/-- DOORBELL: it takes effect behind every earlier posted write of its function (R66). -/
def execDoorbell (vf index : Nat) (tail : W32) (s : State) : Host.Outcome State Fault Refusal :=
  .next (match s.vfPart vf with
    | none => s
    | some p =>
      let (id, s) := s.fresh
      let o : ApOp := { part := p, lva := 0, write := true, len := 0, data := [], bell := some (index, tail), fault := none }
      State.tryAp { s with apOps := Tbl.put s.apOps id o } id)

end Sys2Proof.Machine
end

