-- ==== Sys2Proof/Machine/FaultSvc.lean ====
section
/-! DEFINITION. The fault service, shootdowns, and memory and scratchpad errors (R137–R139, R260–R263, R387, R388, R437,
R438). -/

namespace Sys2Proof.Machine

open Sys2Proof

/-! ### The walk (R138) -/

/-- What the service finds when it walks again. -/
inductive Walked where
  | held
  | served
  | still
  | failed (ecc : Bool)
  deriving DecidableEq, Repr

/-- What the tables say of an LVA and a kind of access, whatever a TLB holds (R138). -/
def State.walkTables (s : State) (part lva kind : Nat) : Except XErr Nat := State.xlate { s with tlb := [] } 0 part lva kind

/-- Walks again. A page allocation has no walk: `retry` says that software asks for another try (R188).
Open points: DESIGN CHOICE, log 44. -/
def State.walkFault (s : State) (f : Flt) (retry : Bool) : Walked :=
  if f.alloc then (if retry then .served else .still)
  else
    match s.walkTables f.part f.lva.toNat f.kind with
    | .error .held => .held
    | .error .resolvable => .still
    | .error (.unresolvable ecc) => .failed ecc
    | .ok pa => if f.kind ≠ 1 ∧ s.eccBad pa then .failed true else .served

/-! ### What becomes of the access (R139, R387, R388, R446) -/

/-- Does a group sleep on a fault. -/
def Group.onFault (g : Group) (id : Nat) : Bool := g.sleep == .fault id

/-- An open VCOMPST is left with the elements that were translated (R387). -/
def State.closeOpen (s : State) (wid gid : Nat) : State :=
  match s.openOf wid gid with
  | none => s
  | some (id, _) =>
    (s.updLs id fun o => { o with hole := none, accs := o.accs.filter fun a => match a.loc with
      | .virt _ => false
      | _ => true }).finishIfDone id

/-- A group whose fault is served replays its instruction (R139, R388): the wake is no kill point (R92, R104).
Open points: DEDUCED, log 56. -/
def State.groupServed (s : State) (id wid gid : Nat) : State :=
  s.updWeave wid fun w => w.updGroup gid fun g => if g.onFault id then { g with sleep := .awake } else g

/-- The state of an outcome that is no stop. -/
def nextOr (o : Host.Outcome State Fault Refusal) (s : State) : State :=
  match o with
  | .next t => t
  | _ => s

/-- A SPAWN whose record cannot be read yields BADARGS (R330): the SPAWN at a group's PC, performed.
Open points: DEDUCED, log 19. -/
def State.spawnLost (s : State) (wid gid : Nat) : Option State :=
  match s.env wid with
  | none => none
  | some e =>
    match e.w.group gid with
    | none => none
    | some g =>
      match s.fetch e g with
      | .word (.spawn h d a b imm inh) c =>
        some (nextOr (issue (.spawn h d a b imm inh) { s with cur := some c } fun x => x.spawnBody d a b imm inh true) s)
      | _ => none

/-- PAGE_FAULT at a group's instruction or fetch, but for a SPAWN. A halted group replays its instruction after restore
(R388). Open points: DESIGN CHOICE, log 44. -/
def State.groupFailed (s : State) (id : Nat) (f : Flt) (wid gid : Nat) (ecc : Bool) : State :=
  match s.env wid with
  | none => s
  | some e =>
    match e.w.group gid with
    | none => s
    | some g =>
      if !g.onFault id then s
      else
        let s := s.updWeave wid fun w => w.updGroup gid fun g => { g with sleep := .awake }
        if g.halted then s
        else
          match (if f.kind = 0 then s.spawnLost wid gid else none) with
          | some s => s
          | none =>
          let t : Trap := { Trap.plain .pageFault (f.path.code + f.kind * 4 + (if ecc then 16 else 0)) with lane := f.lane }
          (s.closeOpen wid gid).takeTrap wid gid g.pc 0 false t

/-- A name of a fault without fault `id`. -/
def unfault (id : Nat) (f : Option Nat) : Option Nat := if f = some id then none else f

/-- The access goes on (R138). -/
def State.served (s : State) (id : Nat) (f : Flt) : State :=
  match f.owner with
  | .group w g => s.groupServed id w g
  | .lsOp _ => s
  | .copy c => s.updCopy c fun x => { x with fault := unfault id x.fault }
  | .kv k => s.updKv k fun x => { x with fault := unfault id x.fault }
  | .mx q => s.updReq q fun x => { x with fault := unfault id x.fault }
  | .batch b => s.updBatch b fun x => { x with fault := unfault id x.fault }
  | .maskLoad m => { s with maskLoads := Tbl.upd s.maskLoads m fun x => { x with fault := unfault id x.fault } }
  | .void v => { s with voids := Tbl.upd s.voids v fun x => { x with fault := unfault id x.fault } }
  | .record r =>
    match Tbl.find s.records r with
    | some x =>
      if x.fault == some id then
        State.watch { s with records := Tbl.put s.records r { x with fault := none } } r { x with fault := none }
      else s
    | none => s
  | .slotRead q => if (s.queue q).fault = some id then s.setQueue q { s.queue q with fault := none } else s
  | .cancel c => { s with cancels := Tbl.upd s.cancels c fun x => { x with fault := unfault id x.fault } }
  | .scopeOp o => { s with scopeOps := Tbl.upd s.scopeOps o fun x => { x with fault := unfault id x.fault } }
  | .aperture a =>
    State.serveAperture { s with apOps := Tbl.upd s.apOps a fun x => { x with fault := unfault id x.fault } }
  | .inbound i =>
    State.serveInbound { s with inbound := Tbl.upd s.inbound i fun x => { x with fault := unfault id x.fault } }
  | .code _ | .nobody => s

/-- A matrix request's fault cannot be served: SUBMITFAIL at its submission (R221), else the request fails alone
(R235). -/
def State.reqFailed (s : State) (id : Nat) (f : Flt) (q : Nat) (ecc : Bool) : State :=
  match Tbl.find s.mxReqs q with
  | none => s
  | some r =>
    if r.fault ≠ some id then s
    else if r.st = .forming then
      match s.teamEnv r.team with
      | some e => State.submitFail { s with mxReqs := Tbl.del s.mxReqs q } e r.cv (e.t.cvr r.cv)
      | none => { s with mxReqs := Tbl.del s.mxReqs q }
    else s.endReq q r false (some fun fl => .page fl f.path f.kind ecc)

/-- The access fails: its fault is unresolvable (R138). A void asks again at its next try (R182). Open points: DESIGN CHOICE,
log 25. -/
def State.failedFault (s : State) (id : Nat) (f : Flt) (ecc : Bool) : State :=
  match f.owner with
  | .group w g => s.groupFailed id f w g ecc
  | .lsOp _ => s
  | .copy c => s.updCopy c fun x => if x.fault = some id then { x with fault := none, err := some (f.kind, ecc) } else x
  | .kv k =>
    match Tbl.find s.kvOps k with
    | some o => if o.fault = some id then s.failKv k o f.kind ecc else s
    | none => s
  | .mx q => s.reqFailed id f q ecc
  | .batch b =>
    match Tbl.find s.batches b with
    | some x => if x.fault = some id then s.failBatch b fun fl => .page fl f.path f.kind ecc else s
    | none => s
  | .maskLoad m =>
    match Tbl.find s.maskLoads m with
    | some x => if x.fault = some id then s.endMask m x (some (.page x.flag .mx f.kind ecc)) else s
    | none => s
  | .void v =>
    { s with voids := Tbl.upd s.voids v fun x => { x with fault := unfault id x.fault } }
  | .record r =>
    match Tbl.find s.records r with
    | some x => if x.fault = some id then s.failRecord r x (if x.found then 7 else 6) else s
    | none => s
  | .slotRead q =>
    let x := s.queue q
    if x.fault = some id then State.badRead (s.setQueue q { x with fault := none }) f.part q else s
  | .cancel c =>
    match Tbl.find s.cancels c with
    | some x => if x.fault = some id then s.ackLost c x else s
    | none => s
  | .scopeOp o =>
    let lost (x : ScopeOp) : ScopeOp :=
      match x.kind with
      | .spawn _ addr h prio => if x.fault = some id then { x with fault := none, kind := .spawn none addr h prio } else x
      | _ => x
    { s with scopeOps := Tbl.upd s.scopeOps o lost }
  | .aperture a =>
    match Tbl.find s.apOps a with
    | some x => if x.fault = some id then (s.apAbort a x f.lva.toNat).serveAperture else s
    | none => s
  | .inbound i =>
    match Tbl.find s.inbound i with
    | some x => if x.fault = some id then (s.answer i x.pkt .error).serveInbound else s
    | none => s
  | .code _ | .nobody => s

/-! ### The ring (R138 Table 7) -/

/-- Direct offset of a ring slot, and of its STATE. -/
def ringOff (i : Nat) : Nat := 0x1000 + 64 * i

def State.slotState (s : State) (part i : Nat) : Nat := s.directNum part (ringOff i + 16) 4

def State.setSlotState (s : State) (part i st : Nat) : State := s.directWrite part (ringOff i + 16) (natToBytes 4 st)

/-- A slot whose STATE is 0. -/
def State.freeSlot (s : State) (part : Nat) : Option Nat :=
  if ((s.part part).direct (ringOff 0)).isNone then none
  else (List.range 64).find? fun i => s.slotState part i == 0

/-- Is the ring in a failed stack, so that no STATE can be read (R14). Open points: DESIGN CHOICE, log 44. -/
def State.ringLost (s : State) (part : Nat) : Bool :=
  match (s.part part).direct (ringOff 0) with
  | some pa => s.memSt pa == .failed
  | none => false

/-- What the service does at the ring waits while memory holds it (R14). Open points: DESIGN CHOICE, log 44. -/
def State.atRing (s : State) (part : Nat) (f : State → State) : State :=
  if s.devHeld part (ringOff 0) then s.devAwait part (ringOff 0) else f s

/-- The bytes of an entry: LVA to SRCCORE, STATE 1, zeros. -/
def Flt.bytes (f : Flt) : List (BitVec 8) :=
  natToBytes 8 f.lva.toNat ++ natToBytes 1 f.kind ++ natToBytes 1 f.path.code ++ natToBytes 2 f.src
    ++ natToBytes 4 f.core ++ natToBytes 4 1 ++ natToBytes 44 0

/-- Writes the entry to a free slot and raises VF vector 0; without a free slot the fault waits.
Open points: DESIGN CHOICE, log 44. -/
def State.postFault (s : State) (id : Nat) (f : Flt) : State :=
  match s.freeSlot f.part with
  | none => { s with faults := Tbl.put s.faults id { f with st := .waiting } }
  | some i =>
    State.emit (State.directWrite
      { s with faults := Tbl.put s.faults id { f with st := .posted i, at_ := s.clock } } f.part (ringOff i) f.bytes)
      (.msix (vfOf f.part) 0)

/-- What follows a walk. -/
def State.afterWalk (s : State) (id : Nat) (f : Flt) (w : Walked) : State :=
  let gone : State := { s with faults := Tbl.del s.faults id }
  match w with
  | .held => s
  | .served => gone.served id f
  | .still => s.atRing f.part fun s => s.postFault id f
  | .failed ecc => gone.failedFault id f ecc

/-- Have the elements below PROGRESS of a group's VCOMPST been performed (R438). -/
def State.belowDone (s : State) (f : Flt) : Bool :=
  match f.owner with
  | .group w g => match s.openOf w g with
    | some (_, p) => p.accs.all fun a => a.got.isSome || (match a.loc with
      | .virt _ => true
      | _ => false)
    | none => true
  | _ => true

/-- FAULT_POST. Open points: DESIGN CHOICE, log 44. -/
def execFaultPost (id : Nat) (s : State) : Host.Outcome State Fault Refusal :=
  .next (match Tbl.find s.faults id with
    | none => s
    | some f => if f.st ≠ .waiting ∨ !s.ready svcFlt ∨ !s.belowDone f then s else s.afterWalk id f (s.walkFault f false))

/-- Software has written STATE, or writes it now: the slot's fault is taken up and STATE returns to 0.
Open points: DESIGN CHOICE, log 44. -/
def State.slotTaken (s : State) (id want : Nat) : Option (Flt × State) :=
  match Tbl.find s.faults id with
  | some f =>
    match f.st with
    | .posted i =>
      if s.slotState f.part i = 1 ∨ s.slotState f.part i = want ∨ s.ringLost f.part then some (f, s.setSlotState f.part i 0)
      else none
    | .waiting => none
  | none => none

/-- The partition of a fault that is posted. -/
def State.postedPart (s : State) (id : Nat) : Option Nat :=
  match Tbl.find s.faults id with
  | some f => if f.st = .waiting then none else some f.part
  | none => none

/-- What follows what software has written to the ring, once the service can read it. -/
def State.onSlot (s : State) (id : Nat) (f : State → State) : State :=
  match s.postedPart id with
  | some p => s.atRing p f
  | none => s

/-- FAULT_RETRY; where memory holds the service's walk, it waits. Open points: DESIGN CHOICE, log 44. -/
def execFaultRetry (id : Nat) (s : State) : Host.Outcome State Fault Refusal :=
  .next (s.onSlot id fun s => match s.slotTaken id 2 with
    | some (f, s') => if s.walkFault f true = .held then s else s'.afterWalk id f (s'.walkFault f true)
    | none => s)

/-- FAULT_FAIL. Open points: DESIGN CHOICE, log 44. -/
def execFaultFail (id : Nat) (s : State) : Host.Outcome State Fault Refusal :=
  .next (s.onSlot id fun s => match s.slotTaken id 3 with
    | some (f, s) => State.failedFault { s with faults := Tbl.del s.faults id } id f false
    | none => s)

/-- Cycles in 100 ms (R138). -/
def faultLimit : Nat := 100000 * Config.us

/-- FAULT_TIMEOUT. -/
def execFaultTimeout (id : Nat) (s : State) : Host.Outcome State Fault Refusal :=
  .next (
    if (Tbl.find s.faults id).any fun f => s.clock < f.at_ + faultLimit then s
    else s.onSlot id fun s => match s.slotTaken id 1 with
      | some (f, s) => State.failedFault { s with faults := Tbl.del s.faults id } id f false
      | none => s)

/-! ### Shootdowns (R137) -/

/-- Does a TLB entry overlap the page of a size code at an LVA. -/
def TlbEnt.hit (e : TlbEnt) (part lva code : Nat) : Bool :=
  let first := lva / pageBytes code * pageBytes code
  e.part == part && e.lva < first + pageBytes code && first < e.lva + pageBytes e.code

/-- Does a location lie in the page of a TLB entry. -/
def TlbEnt.maps (e : TlbEnt) (pa : Nat) : Bool := e.pa ≤ pa && pa < e.pa + pageBytes e.code

/-- May a location have been translated by an entry that is gone: one of those removed, or none that stays maps it.
Open points: DESIGN CHOICE, log 45. -/
def State.gonePage (s : State) (part : Nat) (out : List TlbEnt) (l : Loc) : Bool :=
  match l with
  | .mem pa =>
    (out.any (·.maps pa)) || !((s.tlb.filter fun e => e.part == part && !out.contains e).any (·.maps pa))
  | _ => false

/-- Bytes of the page of a size code at an LVA. -/
def inPageOf (va code lva : Nat) : Bool := lva / pageBytes code == va / pageBytes code

/-- Has a copy translations in the page for pieces that it has not moved. -/
def State.copyInPage (s : State) (c : Copy) (va code : Nat) : Bool :=
  let here (cap : Cap) (kind : Nat) (p : Piece) : Bool := match s.lvaHere c cap p with
    | some lva => inPageOf va code lva && (Tbl.find c.xl (xlKey lva kind)).isSome
    | none => false
  (c.srcPieces.any fun p => here c.src 0 p && (c.bytesAt p.first p.len).isNone)
    || c.dstPieces.any fun p => (here c.dst 1 p || here c.dst 0 p) && !c.put.contains p.key

/-- LS operations, SPAWNs and copies of a partition that may have been translated by an entry for the page and are not
performed; the other paths translate as they perform. -/
def State.through (s : State) (part va code : Nat) (out : List TlbEnt) : List Nat :=
  (keysOf s.lsOps fun _ o => o.part == part && o.accs.any fun a => a.got.isNone && s.gonePage part out a.loc)
    ++ (keysOf s.scopeOps fun _ o => o.part == part && (match o.kind with
      | .spawn (some l) _ _ _ => s.gonePage part out l
      | _ => false))
    ++ keysOf s.copies fun _ c => c.part == part && s.copyInPage c va code

/-- SHOOTGO_WRITE: software's write, ignored while bit 63 is set; a set bit 63, by it or by an earlier store, starts a
shootdown, once memory lets it be written and read (R14). Open points: DESIGN CHOICE, log 45. -/
def execShootgoWrite (part : Nat) (v : W64) (s : State) : Host.Outcome State Fault Refusal :=
  .next (
    if (s.part part).tdi ≠ .run ∨ (Tbl.find s.shoots part).isSome then s
    else if s.devHeld part 0x208 then s.devAwait part 0x208
    else
      let s := s.directWrite part 0x208 (natToBytes 8 v.toNat)
      let now := w64 (s.directNum part 0x208 8)
      if !now.getLsbD 63 then s
      else
        let va := s.directNum part 0x200 8 % 2 ^ 55
        let code := Nat.min 9 (now.extractLsb' 0 4).toNat
        let out := s.tlb.filter fun e => e.hit part va code
        { s with tlb := s.tlb.filter fun e => !(e.hit part va code)
                 shoots := Tbl.put s.shoots part { part := part, va := BitVec.ofNat 55 va, code := (now.extractLsb' 0 4).toNat
                                                   wait := s.through part va code out } })

/-- Is an operation that a shootdown waits for still unperformed. -/
def State.pendingOp (s : State) (x : Shoot) (id : Nat) : Bool :=
  (match Tbl.find s.lsOps id with
   | some o => o.accs.any fun a => a.got.isNone && a.loc.isMem
   | none => false) || (Tbl.find s.scopeOps id).isSome
    || (match Tbl.find s.copies id with
      | some c => s.copyInPage c x.va.toNat (Nat.min 9 x.code)
      | none => false)

/-- SHOOTDOWN_DONE: the accesses have performed; bit 63 is cleared, and the reserved bits are written as zero (R4).
Open points: DESIGN CHOICE, log 45. -/
def execShootdownDone (part : Nat) (s : State) : Host.Outcome State Fault Refusal :=
  .next (match Tbl.find s.shoots part with
    | none => s
    | some x =>
      if x.wait.any (s.pendingOp x) then s
      else if s.devHeld part 0x208 then s.devAwait part 0x208
      else State.ctlWrite { s with shoots := Tbl.del s.shoots part } part 0x208 (natToBytes 8 (s.directNum part 0x208 8 % 16)))

/-! ### Memory errors (R260) -/

/-- UNCORRECTABLE_MEMORY_ERROR: the granule can no longer be read, and its address is posted to the host.
Open points: DESIGN CHOICE, log 54. -/
def execUncorrectableMemoryError (pa : Nat) (s : State) : Host.Outcome State Fault Refusal :=
  match s.bank pa with
  | .absent => .fault (.noSuchMemory pa)
  | _ => .next (State.emit { s with bad := addName s.bad (pa / 64) } (.retire pa))

/-- A corrected error counts its address in the same report (R260). Open points: DESIGN CHOICE, log 54. -/
def State.correctable (s : State) (pa : Nat) : State :=
  match s.bank pa with
  | .absent => s
  | _ => s.emit (.corrected pa)

/-! ### Scratchpad errors (R261–R263) -/

/-- Every weave of a cohort ends at once; SCRATCH_ECC stands in LASTTRAP. -/
def State.killCohort (s : State) (cid : Nat) (killed : Bool) : State :=
  let ws := keysOf s.weaves fun _ w => match s.team w.team with
    | some t => t.cohort == cid
    | none => false
  ws.foldl (fun (s : State) w =>
    (s.updWeave w fun x => { x with wstat := (x.wstat &&& ~~~(0xFF00#64)) ||| 0x0E00#64 }).killWeave w killed) s

/-- Every phase object of a cohort is poisoned. Open points: DEDUCED, log 18. -/
def State.poisonAll (s : State) (part cid : Nat) : State :=
  (List.range 256).foldl (fun (s : State) o =>
    match s.cohort cid with
    | some c => (s.setPhase cid o { c.phase o with poison := true }).phSettle part cid o
    | none => s) s

/-- Contexts in which a cohort may have reserved positions, with its reservations still on their way (R91, R94). -/
def State.owesIn (s : State) (part cid : Nat) : List KvDesc :=
  (s.ctxs.filterMap fun (k, c) =>
    if k / 2 ^ 64 == part && (Tbl.vals c.owners).contains cid then some c.desc else none)
  ++ s.kvOps.filterMap fun (_, o) =>
    match o.kind with
    | .apos .. => if o.part == part && o.ident.cohort == cid then some o.desc else none
    | _ => none

/-- The work of a killed cohort meets the fates of R91; its reservations are voided, at system scope (R94), with an entry of KIND
3 where its field ends by this (R182). Open points: DESIGN CHOICE, log 25 and 46. -/
def State.lostWork (s : State) (e : Env) (ends : Bool) : State :=
  let teams := keysOf s.teams fun _ t => t.cohort == e.cid
  let s := (s.dropCopies fun c => c.cohort == e.cid).1
  let s := teams.foldl (fun (s : State) t => s.clearSigning e.part (handleId e.f.scope) t) s
  let s := (s.mxReqs.filter fun q => teams.contains q.2.team).foldl (fun (s : State) (i, q) => s.cancelReq i q) s
  let s := s.poisonAll e.part e.cid
  let s := e.c.held.foldl (fun (s : State) op => s.phApply op) s
  ((s.owesIn e.part e.cid).eraseDups).foldl (fun (s : State) d =>
    let (id, s) := s.fresh
    let v : Void := { part := e.part, desc := d, field := e.f.number, cohort := some e.cid, scope := e.f.scope, cancel := none
                      report := ends, count := 0, at_ := s.clock, fault := none }
    { s with voids := Tbl.put s.voids id v }) s

/-- The record of a field, if it is still held. -/
def State.recordOf (s : State) (fid : Nat) : Option Nat := firstKey s.records fun _ r => r.field == some fid

/-- A cohort goes back to its record: a saved one, or one to be launched again (R78, R262). -/
def State.giveBack (s : State) (fid : Nat) (f : Field) (x : Nat × Nat) : State :=
  match s.recordOf fid with
  | some r => { s with records := Tbl.upd s.records r fun q => { q with redo := q.redo ++ [x] } }
  | none =>
    let (id, s) := s.fresh
    let r : Record := { part := f.part, lr := f.lr, src := f.src, addr := 0, scope := f.scope, seq := f.seq, found := true
                        met := true, args := f.args, field := some fid, next := f.lr.cohorts, redo := [x], fault := none }
    { s with records := Tbl.put s.records id r }

/-- KIND 5: the cohort is launched again. Open points: DESIGN CHOICE, log 46. -/
def State.relaunch (s : State) (e : Env) : State :=
  let n := Tbl.get e.f.redone 0 e.c.index + 1
  let s := s.updField e.fid fun f => { f with redone := Tbl.put f.redone e.c.index n, left := f.left + 1 }
  let s := s.giveBack e.fid e.f (e.c.index, 0)
  s.record e.part { FaultEntry.blank with
    kind := 5, queue := e.f.src.entry, cohort := e.c.index, field := e.f.number, info := w64 n, scope := e.f.scope }

/-- KIND 6: the field fails, and its unplaced cohorts are discarded. Open points: DESIGN CHOICE, log 46. -/
def State.fieldFails (s : State) (e : Env) : State :=
  let s := s.updField e.fid fun f => { f with failed := true }
  let s := match s.recordOf e.fid with
    | some r => match Tbl.find s.records r with
      | some q => s.discardRecord r q
      | none => s
    | none => s
  let s := s.record e.part { FaultEntry.blank with
    kind := 6, status := 0x11, queue := e.f.src.entry, cohort := e.c.index, field := e.f.number, scope := e.f.scope }
  s.reportVector e.part e.f.src

/-- Relaunches after which an error makes an idempotent field fail (R262). -/
def maxRelaunch : Nat := 3

/-- SCRATCH_ECC: an uncorrectable error in a team's scratchpad kills its cohort; under a cancelling scope nothing else
happens. Open points: DESIGN CHOICE, log 46. -/
def execScratchEcc (team : Nat) (s : State) : Host.Outcome State Fault Refusal :=
  .next (match s.teamEnv team with
    | none => s
    | some e =>
      if e.c.lost ∨ e.c.st = .saved ∨ e.c.st = .ended then s
      else
        let can := s.envCancelling e
        let s := s.updCohort e.cid fun c => { c with lost := true, st := .resident, held := [] }
        let s := s.killCohort e.cid can
        if can then s
        else
          let again : Bool := e.f.lr.flags.getLsbD 0 && decide (Tbl.get e.f.redone 0 e.c.index < maxRelaunch) && !e.f.failed
          let s := s.lostWork e !again
          if again then s.relaunch e
          else if e.f.failed then s
          else s.fieldFails e)

end Sys2Proof.Machine
end

