-- ==== Sys2Proof/Machine/Preempt.lean ====
section
/-! DEFINITION. Pre-emption: the choice of victims, halt points, quiescing and the save (R78, R236, R264–R268, R388). -/

namespace Sys2Proof.Machine

open Sys2Proof

/-! ### Victims (R78) -/

/-- Is a cohort on its way off its cores. -/
def State.leaving (s : State) (cid : Nat) : Bool :=
  match s.cohort cid with
  | some c => c.st == .halting || c.st == .saving
  | none => false

/-- Does a record's cohort fit on a core group once some cohorts have left. -/
def State.roomWithout (s : State) (out : Nat → Bool) (cg : Nat) (r : LaunchRec) : Bool :=
  r.width ≤ (s.fitting out cg r).length

/-- A cohort that may have to go: its priority, when it was placed, and its name. -/
structure Victim where
  prio : Nat
  at_  : Nat
  cid  : Nat
  deriving DecidableEq, Repr

/-- Does a victim go before another: lower PRIO, then later placed. -/
def Victim.first (a b : Victim) : Bool :=
  a.prio < b.prio || (a.prio == b.prio && (b.at_ < a.at_ || (a.at_ == b.at_ && b.cid < a.cid)))

/-- Adds a victim in the order in which they go. -/
def insertVictim (v : Victim) : List Victim → List Victim
  | [] => [v]
  | x :: r => if v.first x then v :: x :: r else x :: insertVictim v r

/-- The cohorts of a partition on a core group with a PRIO strictly below a bound, in the order in which they go. -/
def State.candidates (s : State) (part cg prio : Nat) : List Victim :=
  s.cohorts.foldl (fun l (cid, c) =>
    match s.field c.field with
    | some f =>
      if f.part == part && c.cg == cg && c.st == .resident && f.lr.prio < prio then
        insertVictim { prio := f.lr.prio, at_ := c.placedAt, cid := cid } l
      else l
    | none => l) []

/-- The first victims with whose room the cohort fits. -/
def State.enough (s : State) (cg : Nat) (r : LaunchRec) : List Victim → List Victim → Option (List Victim)
  | _, [] => none
  | taken, v :: rest =>
    let t := taken ++ [v]
    if s.roomWithout (fun c => s.leaving c || t.any fun x => x.cid == c) cg r then some t else s.enough cg r t rest

/-- When the latest of some victims was placed. -/
def latest (vs : List Victim) : Nat × Nat :=
  vs.foldl (fun (m : Nat × Nat) v => if m.1 < v.at_ || (m.1 == v.at_ && m.2 < v.cid) then (v.at_, v.cid) else m) (0, 0)

def highest (vs : List Victim) : Nat := vs.foldl (fun m v => Nat.max m v.prio) 0

/-- Is one set of victims preferred to another: its highest PRIO lower, fewer of them, the most recently placed among
them. -/
def better (a b : List Victim) : Bool :=
  let x := latest a
  let y := latest b
  highest a < highest b || (highest a == highest b && (a.length < b.length
    || (a.length == b.length && (y.1 < x.1 || (x.1 == y.1 && y.2 < x.2)))))

/-- The victims for a record, over the core groups in increasing number. -/
def State.victims (s : State) (part : Nat) (r : LaunchRec) : Option (List Victim) :=
  ((s.usableCgs part).filterMap fun g => s.enough g r [] (s.candidates part g r.prio)).foldl
    (fun (b : Option (List Victim)) v =>
      match b with
      | none => some v
      | some x => if better v x then some v else some x) none

/-! ### The save area (R266, R267) -/

/-- Bytes of one team's part of a save area (R267 Table 4), its queued copies and withdrawn requests apart. -/
def LaunchRec.teamSave (r : LaunchRec) : Nat :=
  256 + r.weaves * (256 + 32 + 512 + 512 + r.regBytes) + 128 * r.threads + 16 * 2048 + 16384 * r.accBlk + 1024 * r.spadKib + 4096

/-- Bytes of a cohort's save area. -/
def State.saveBytes (s : State) (cid : Nat) : Nat :=
  let teams := keysOf s.teams fun _ t => t.cohort == cid
  ((s.lrOf cid).map fun r => teams.length * r.teamSave).getD 0 + 4096 + 16384
    + 128 * (countT s.copies fun _ c => c.cohort == cid && c.st == .queued)
    + 128 * (countT s.mxReqs fun _ q => teams.contains q.team)

/-- The device-key region of a stack that save areas may fill (R52, R266). Open points: DESIGN CHOICE, log 47. -/
def saveRegion : Nat := Config.gib

/-- Bytes of a die's device-key region that saved and leaving cohorts take. -/
def State.saveUsed (s : State) (die : Nat) : Nat :=
  ((s.cohorts.filter fun e => e.2.cg / 8 == die && (e.2.st == .saved || s.leaving e.1)).map fun e => s.saveBytes e.1).foldl
    (· + ·) 0

/-- Is there save space for all victims. Open points: DESIGN CHOICE, log 47. -/
def State.canSave (s : State) (vs : List Victim) : Bool :=
  match vs with
  | [] => true
  | v :: _ =>
    let die := ((s.cohort v.cid).map (·.cg / 8)).getD 0
    s.saveUsed die + ((vs.map fun v => s.saveBytes v.cid).foldl (· + ·) 0) ≤ saveRegion

/-- The record that pre-empts, and its victims: the first head of a priority that fits nowhere, for which nothing is on
its way out already. Open points: DESIGN CHOICE, log 47. -/
def State.preemptChoice (s : State) (part : Nat) : Option (List Victim) :=
  priorities.findSome? fun p =>
    match s.headRecord part p with
    | none => none
    | some (_, r) =>
      if (s.bestCg part r.lr).isSome || (s.usableCgs part).any fun g => s.roomWithout s.leaving g r.lr then none
      else
        match s.victims part r.lr with
        | some vs => if s.canSave vs then some vs else none
        | none => none

/-- PREEMPT: the halt request (R264). -/
def execPreempt (part : Nat) (s : State) : Host.Outcome State Fault Refusal :=
  .next (
    if (s.part part).tdi ≠ .run then s
    else
      match s.preemptChoice part with
      | some vs => vs.foldl (fun (s : State) v => s.updCohort v.cid fun c => { c with st := .halting }) s
      | none => s)

/-! ### Halting (R264, R388) -/

/-- Is what stands at a group's PC not to be read yet: memory holds it, or a peer has not sent it. Open points: DESIGN CHOICE, log 47. -/
def State.codeWaits (s : State) (e : Env) (g : Group) : Bool :=
  match s.fetch e g with
  | .held | .away _ _ => true
  | _ => false

/-- Does a group stand at a halt point: a RUN header that breaks no rule of R291, the gap between two repeats, or a sleep. One that
waits for another group's handler, or between runs for its header to be read, halts too. Open points: DESIGN CHOICE, log 47. -/
def State.atHalt (s : State) (e : Env) (g : Group) : Bool :=
  match g.sleep with
  | .awake => s.atHeader e g || (g.pos != .inRun && s.codeWaits e g) || s.atGap e g
  | _ => true

/-- WEAVE_HALT; at a header the kill check comes first. -/
def execWeaveHalt (weave gid : Nat) (s : State) : Host.Outcome State Fault Refusal :=
  .next (match s.env weave with
    | none => s
    | some e =>
      match e.w.group gid with
      | none => s
      | some g =>
        if e.c.st ≠ .halting ∨ g.halted ∨ !s.atHalt e g then s
        else if s.killDue e && g.sleep == .awake && s.atHeader e g then s.endThreads weave g.lanes (s.envCancelling e)
        else s.updWeave weave fun w => w.updGroup gid fun g => { g with halted := true, port := false })

/-! ### Quiescing (R265, R236) -/

/-- Does a copy touch scratchpads or accumulator blocks. -/
def Copy.onChip (c : Copy) : Bool :=
  c.src.space != 0 || c.dst.space != 0 || (match c.kind with
    | .multi _ => true
    | _ => false)

/-- Must an LS operation be over before the save: one with a result, or one that still writes on the chip.
Open points: DESIGN CHOICE, log 47. -/
def LsOp.mustEnd (o : LsOp) : Bool :=
  o.kind == .ld || o.kind == .atom || o.accs.any fun a => a.got.isNone && (match a.loc with
    | .spad _ _ | .acc _ _ => true
    | _ => false)

/-- Is everything of a cohort at rest that R265 names. Open points: DESIGN CHOICE, log 47. -/
def State.quiesced (s : State) (cid : Nat) : Bool :=
  let teams := keysOf s.teams fun _ t => t.cohort == cid
  let weaves := keysOf s.weaves fun _ w => teams.contains w.team
  (weaves.all fun w => match s.weave w with
    | some x => x.groups.all (·.halted)
    | none => true)
    && !(someT s.copies fun _ c => c.cohort == cid && c.st == .accepted && c.onChip)
    && !(someT s.mxReqs fun _ q => teams.contains q.team && q.st == .running)
    && !(someT s.maskLoads fun _ m => teams.contains m.team)
    && !(someT s.kvOps fun _ o => o.ident.cohort == cid)
    && !(someT s.lsOps fun _ o => weaves.contains o.weave && o.mustEnd)

/-- COHORT_QUIESCED: queued requests are withdrawn, and saving begins. -/
def execCohortQuiesced (cohort : Nat) (s : State) : Host.Outcome State Fault Refusal :=
  .next (match s.cohort cohort with
    | none => s
    | some c =>
      if c.st ≠ .halting ∨ !s.quiesced cohort then s
      else
        let teams := keysOf s.teams fun _ t => t.cohort == cohort
        let s := (s.mxReqs.filter fun q => teams.contains q.2.team).foldl (fun (s : State) (i, q) => s.withdraw i q) s
        s.updCohort cohort fun c => { c with st := .saving })

/-- SAVE_COMPLETE: the places are free, and the cohort returns to its record's unplaced cohorts (R266, R78); one whose end
is due is discarded instead (R91). -/
def execSaveComplete (cohort : Nat) (s : State) : Host.Outcome State Fault Refusal :=
  .next (match s.cohort cohort with
    | none => s
    | some c =>
      match s.field c.field with
      | none => s
      | some f =>
        if c.st ≠ .saving then s
        else
          let s := s.updCohort cohort fun c => { c with st := .saved }
          if f.failed || s.cancelling f.part f.scope then s else s.giveBack c.field f (c.index, cohort + 1))

end Sys2Proof.Machine
end

