-- ==== Sys2Proof/Machine/Digest.lean ====
section
/-! DEFINITION. The SHA-384 digest (R57, R59): the algorithm is that of FIPS 180-4, which the spec names and does not give
(log 10). Its constants are computed as that standard defines them, from the roots of the first primes. -/

namespace Sys2Proof.Machine

open Sys2Proof

/-- The first 80 primes. -/
def digestPrimes : List Nat := (List.range 410).filter fun n => n ≥ 2 && (List.range n).all fun d => d < 2 || n % d != 0

/-- The largest number of `k` further bits above `n` whose power `e` does not exceed `x`. -/
def rootBits (e x : Nat) : Nat → Nat → Nat
  | 0, n => n
  | k + 1, n => rootBits e x k (if (n + 2 ^ k) ^ e ≤ x then n + 2 ^ k else n)

/-- The first 64 bits of the fraction of a prime's root of degree `e`. -/
def rootWord (e p : Nat) : W64 := w64 (rootBits e (p * 2 ^ (64 * e)) 70 0)

/-- Round constants: from the cube roots of the first 80 primes. -/
def roundWords : List W64 := digestPrimes.map (rootWord 3)

/-- The working words: the last four values of each of the two sequences that a round extends, latest first. -/
structure DigestSt where
  upper : List W64
  lower : List W64
  deriving DecidableEq, Repr

/-- Start words: from the square roots of the ninth to the sixteenth prime. -/
def DigestSt.start : DigestSt where
  upper := ((digestPrimes.drop 8).take 4).map (rootWord 2)
  lower := ((digestPrimes.drop 12).take 4).map (rootWord 2)

/-- The exclusive or of some rotations of a word. -/
def turns (ns : List Nat) (x : W64) : W64 := ns.foldl (fun y n => y ^^^ x.rotateRight n) 0

/-- The next word of a block's schedule, from the sixteen before it, latest first. -/
def nextWord (ws : List W64) : W64 :=
  let old := ws.getD 14 0
  let new := ws.getD 1 0
  (turns [19, 61] new ^^^ new >>> 6) + ws.getD 6 0 + (turns [1, 8] old ^^^ old >>> 7) + ws.getD 15 0

/-- One round, which adds one value to each sequence. -/
def DigestSt.round (st : DigestSt) (word const : W64) : DigestSt :=
  let u (i : Nat) : W64 := st.upper.getD i 0
  let l (i : Nat) : W64 := st.lower.getD i 0
  let choice := l 2 ^^^ (l 0 &&& (l 1 ^^^ l 2))
  let major := (u 0 &&& (u 1 ||| u 2)) ||| (u 1 &&& u 2)
  let sum := const + word + choice + turns [14, 18, 41] (l 0) + l 3
  { upper := (sum + turns [28, 34, 39] (u 0) + major) :: st.upper.take 3
    lower := (u 3 + sum) :: st.lower.take 3 }

/-- The rounds of one block: the words still to be used come first in `todo`, then the schedule makes them. -/
def DigestSt.rounds (st : DigestSt) (used todo : List W64) : List W64 → DigestSt
  | [] => st
  | c :: cs =>
    match todo with
    | w :: r => (st.round w c).rounds (w :: used) r cs
    | [] => (st.round (nextWord used) c).rounds (nextWord used :: used) [] cs

/-- Word by word sum of two states. -/
def DigestSt.plus (x y : DigestSt) : DigestSt where
  upper := List.zipWith (· + ·) x.upper y.upper
  lower := List.zipWith (· + ·) x.lower y.lower

/-- The words of bytes, the first byte most significant. -/
def wordsOf : List Nat → List W64
  | a :: b :: c :: d :: e :: f :: g :: h :: r =>
    w64 ([a, b, c, d, e, f, g, h].foldl (fun n x => n * 256 + x) 0) :: wordsOf r
  | _ => []

/-- A message of bytes as words: padded by one bit, zeros, and its length in bits. -/
def digestWords (m : List Nat) : List W64 :=
  wordsOf (m ++ 128 :: List.replicate ((239 - m.length % 128) % 128) 0) ++ [w64 (m.length * 8 / 2 ^ 64), w64 (m.length * 8)]

/-- Takes up `n` blocks of sixteen words. -/
def DigestSt.blocks (st : DigestSt) : Nat → List W64 → DigestSt
  | 0, _ => st
  | n + 1, ws => (st.plus (st.rounds [] (ws.take 16) roundWords)).blocks n (ws.drop 16)

/-- The 48 bytes of the digest. -/
def sha384 (m : List Nat) : List Nat :=
  let ws := digestWords m
  let st := DigestSt.start.blocks (ws.length / 16) ws
  (st.upper ++ st.lower.take 2).flatMap fun x => ((natToBytes 8 x.toNat).reverse).map (·.toNat)

end Sys2Proof.Machine
end

