-- ==== Sys2Proof/Machine/Endpoint.lean ====
section
/-! DEFINITION. The host endpoint: configuration writes, queue configuration, the TDISP states with the lock and the
teardown, reports and measurements, and the failures of links that put a partition in ERROR (R31, R48–R63, R85, R99). -/

namespace Sys2Proof.Machine

open Sys2Proof

/-! ### The end of a partition's RUN (R60, R99) -/

/-- The fields of a partition. -/
def State.fieldsOf (s : State) (p : Nat) : List Nat := keysOf s.fields fun _ f => f.part == p

def State.cohortsOf (s : State) (p : Nat) : List Nat :=
  let fs := s.fieldsOf p
  keysOf s.cohorts fun _ c => fs.contains c.field

/-- Is a key of a table of the KV store one of a partition. -/
def ofPart (p k : Nat) : Bool := k / 2 ^ 64 == p

/-- An LS operation of a partition with a request under way at a peer. -/
def State.underWay (s : State) (p : Nat) : List Nat :=
  keysOf s.lsOps fun k o => o.part == p && someT s.ott fun _ x => x.op == k && x.sent

/-- Is a request of an engine or of instruction fetch of a partition still without an answer. -/
def State.legsAway (s : State) (p : Nat) : Bool := someT s.legs fun _ l => l.pkt.srcPart == p && l.answer.isNone

/-- Work of a partition leaves the module: cohorts end unsaved, records and operations are discarded; requests that have
left are answered or time out. Open points: DESIGN CHOICE, log 48. -/
def State.dropWork (s : State) (p : Nat) : State :=
  let cs := s.cohortsOf p
  let ts := keysOf s.teams fun _ t => cs.contains t.cohort
  let away := s.underWay p
  let mine (op : Nat) : Bool := match Tbl.find s.lsOps op with
    | some o => o.part == p
    | none => false
  let ott := keep s.ott fun _ o => o.sent || !mine o.op
  let reqs := keep s.mxReqs fun _ q => q.part != p
  { s with
    weaves := keep s.weaves fun _ w => !ts.contains w.team
    teams := keep s.teams fun _ t => !cs.contains t.cohort
    cohorts := keep s.cohorts fun k _ => !cs.contains k
    fields := keep s.fields fun _ f => f.part != p
    records := keep s.records fun _ r => r.part != p
    ott := ott
    lsOps := keep s.lsOps fun k o => o.part != p || away.contains k
    phOps := keep s.phOps fun _ o => o.part != p
    copies := keep s.copies fun _ c => c.part != p
    kvOps := keep s.kvOps fun _ o => o.part != p
    voids := keep s.voids fun _ v => v.part != p
    scopeOps := keep s.scopeOps fun _ o => o.part != p
    cancels := keep s.cancels fun _ c => c.part != p
    maskLoads := keep s.maskLoads fun _ m => m.part != p
    mxReqs := reqs
    batches := keep s.batches fun _ b => b.reqs.any fun r => (Tbl.find reqs r).isSome
    faults := keep s.faults fun _ f => f.part != p
    devWrites := s.devWrites.filter fun w => w.part != p
    shoots := Tbl.del s.shoots p }

/-- What the engines, TLBs and stores keep for a partition is gone. Open points: DESIGN CHOICE, log 48. -/
def State.dropStores (s : State) (p : Nat) : State :=
  let cgs := (s.part p).cgmask
  { s with
    tlb := s.tlb.filter fun e => e.part != p
    staging := s.staging.filter fun x => !(cgs.getLsbD (coreCg x.core))
    pages := keep s.pages fun k _ => !ofPart p k
    pubs := keep s.pubs fun k _ => !ofPart p k
    ctxs := keep s.ctxs fun k _ => !ofPart p k
    icache := s.icache.filter fun x => !(cgs.getLsbD (coreCg x.core))
    pools := keep s.pools fun k _ => k / 64 != p
    buckets := mapT s.buckets fun g b => if cgs.getLsbD g then { b with latched := [] } else b
    queues := mapT s.queues fun _ q => if q.en && q.part.toNat == p then { q with fault := none } else q }

/-- Held accesses of the host complete with completer abort, and held requests of peers are answered with an error. -/
def State.dropHeld (s : State) (p : Nat) : State :=
  let aps := keysOf s.apOps fun _ o => o.part == p
  let s := aps.foldl (fun (s : State) _ => s.emit (.completerAbort p)) s
  let s := { s with apOps := keep s.apOps fun _ o => o.part != p
                    inbound := mapT s.inbound fun _ q => if q.pkt.dstPart == p then { q with fault := none } else q }
  s.serveInbound

/-- The end of RUN, from a state of the TDI that is set already: no key, no scope, no session; the core groups stay held
until nothing is in flight. Open points: DESIGN CHOICE, log 48. -/
def State.endRun (s : State) (p : Nat) : State :=
  let s := (s.dropWork p).dropStores p
  let x := s.part p
  let s := s.setPart p { x with key := none, scopes := [], turn := 0, faultSeq := 0, held := x.cgmask, heldAt := s.clock }
  let s := { s with hd := { s.hd with linkSessions := keep s.hd.linkSessions fun _ x => x.part != p } }
  s.dropHeld p

/-- ENTER_ERROR (R60): from CONFIG_LOCKED or RUN. Open points: DESIGN CHOICE, log 48. -/
def State.enterError (s : State) (p : Nat) : State :=
  match (s.part p).tdi with
  | .locked | .run => (s.setPart p { s.part p with tdi := .error }).endRun p
  | _ => s

/-- CORE_GROUPS_FREED: nothing is in flight any more, or 10 ms have passed. Open points: DESIGN CHOICE, log 48. -/
def execCoreGroupsFreed (part : Nat) (s : State) : Host.Outcome State Fault Refusal :=
  .next (
    let x := s.part part
    let ops := s.underWay part
    if (x.held = 0) ∨ ((!ops.isEmpty ∨ s.legsAway part) ∧ s.clock < x.heldAt + 10000 * Config.us) then s
    else
      { s with
        legs := keep s.legs fun _ l => l.pkt.srcPart != part
        ott := keep s.ott fun _ o => !ops.contains o.op, lsOps := keep s.lsOps fun k _ => !ops.contains k }.setPart part
        { x with held := 0 })

/-! ### Configuration (R50, R51, R63) -/

/-- May a partition's configuration be written. -/
def Partition.open_ (p : Partition) : Bool := p.tdi == .unlocked && !p.locking

/-- A write that does not take effect puts a partition in CONFIG_LOCKED or RUN into ERROR; one whose lock is in progress
goes on (R51). -/
def State.refuseWrite (s : State) (p : Nat) : State := if (s.part p).open_ then s else s.enterError p

/-- A partition with one register of its block written; `none` for a reserved offset. -/
def Partition.write (p : Partition) (r : Nat) (v : W64) : Option Partition :=
  if r = 0 then some { p with cgmask := v.extractLsb' 0 32 }
  else if r = 8 then some { p with msixn := v.extractLsb' 0 7 }
  else if 0x100 ≤ r ∧ r < 0x200 then some { p with win := Tbl.set p.win 0 ((r - 0x100) / 8) v }
  else if 0x1000 ≤ r ∧ r < 0x2000 then some { p with peers := Tbl.set p.peers 0 ((r - 0x1000) / 8) v }
  else none

/-- PARTITION_CONFIG_WRITE at an offset of PF0 BAR0; reserved offsets drop the write. -/
def execPartitionConfigWrite (offset : Nat) (v : W64) (s : State) : Host.Outcome State Fault Refusal :=
  .next (
    if offset < 0x10000 ∨ 0x30000 ≤ offset ∨ offset % 8 ≠ 0 then s
    else
      let p := (offset - 0x10000) / 0x2000
      match (s.part p).write ((offset - 0x10000) % 0x2000) v with
      | none => s
      | some x => if (s.part p).open_ then s.setPart p x else s.refuseWrite p)

/-- The queue as a write of one of its words leaves it; words 2 and 3 are read-only or reserved. -/
def Queue.write (q : Queue) (word : Nat) (v : W64) : Queue :=
  if word = 0 then
    let n := { q with en := v.getLsbD 63, msix := v.extractLsb' 32 8, part := v.extractLsb' 28 4, lidx := v.extractLsb' 16 12
                      log2n := v.extractLsb' 0 5 }
    if n.en && !q.en then { n with head := 0, tail := 0, qerr := 0, fault := none } else n
  else if word = 1 then { q with ring := v &&& 0x007FFFFFFFFFFF80#64 }
  else q

/-- The partition that a queue belongs to (R63). -/
def Queue.owner (q : Queue) : List Nat := if q.en then [q.part.toNat] else []

/-- QCFG_WRITE concerns the owners before and after the write, whichever word it names (R51). Open points: DEDUCED, log 50. -/
def execQcfgWrite (queue word : Nat) (v : W64) (s : State) : Host.Outcome State Fault Refusal :=
  .next (
    if queue ≥ 4096 ∨ word ≥ 4 then s
    else
      let q := s.queue queue
      let n := q.write word v
      let owners := (q.owner ++ n.owner).eraseDups
      if owners.all fun p => (s.part p).open_ then s.setQueue queue n
      else owners.foldl State.refuseWrite s)

/-- A register of a partition's block as it is read; a reserved offset reads as zero (R50). -/
def Partition.read (p : Partition) (r : Nat) : W64 :=
  if r = 0 then p.cgmask.setWidth 64
  else if r = 8 then p.msixn.setWidth 64
  else if 0x100 ≤ r ∧ r < 0x200 then Tbl.get p.win 0 ((r - 0x100) / 8)
  else if 0x1000 ≤ r ∧ r < 0x2000 then Tbl.get p.peers 0 ((r - 0x1000) / 8)
  else 0

/-- A word of QCFG as it is read (R63 Table 6). -/
def Queue.read (q : Queue) (word : Nat) : W64 :=
  match word with
  | 0 => w64 ((if q.en then 2 ^ 63 else 0) + q.msix.toNat * 2 ^ 32 + q.part.toNat * 2 ^ 28 + q.lidx.toNat * 2 ^ 16 + q.log2n.toNat)
  | 1 => q.ring
  | 3 => w64 (q.head.toNat + q.qerr.toNat * 2 ^ 40)
  | _ => 0

/-- What a read of PF0 BAR0 at a multiple of 8 returns (R11, R17, R19, R22, R50); a reserved offset, and the write-only
RECOVERY_GO, read as zero. Open points: DEDUCED, log 50. -/
def State.pfReg (s : State) (o : Nat) : W64 :=
  if o = 0x100 then s.hd.readyStatus
  else if o = 0x108 then s.hd.readyFail
  else if o = 0x110 then s.hd.cgOffline.setWidth 64
  else if o = 0x208 then s.hd.recoveryStatus.setWidth 64
  else if 0x400 ≤ o ∧ o < 0x480 then (s.part ((o - 0x400) / 8)).ltol.setWidth 64
  else if 0x10000 ≤ o ∧ o < 0x30000 then (s.part ((o - 0x10000) / 0x2000)).read ((o - 0x10000) % 0x2000)
  else if 0x40000 ≤ o ∧ o < 0x60000 then (s.queue ((o - 0x40000) / 32)).read ((o - 0x40000) % 32 / 8)
  else 0

/-- The host reads PF0 BAR0 (1 MiB); there is an answer to a read of 8 bytes at a multiple of 8. Open points: DESIGN CHOICE, log 43. -/
def State.pfRead (s : State) (o : Nat) : State := if o % 8 = 0 ∧ o < 0x100000 then s.emit (.regData 0 o (s.pfReg o)) else s

/-- What a read of a VF's BAR0 at a multiple of 8 returns (R64 Table 7): PINFO, APBASE and QSTATE of the queues that the partition
owns (R63). Open points: DESIGN CHOICE, log 43. -/
def State.vfReg (s : State) (p o : Nat) : W64 :=
  if o = 0 then w64 (p + s.ownPeer p * 2 ^ 16 + (s.queuesOf p).length * 2 ^ 32)
  else if o = 0x100 then (s.part p).apbase
  else if 0x10000 ≤ o ∧ o < 0x20000 ∧ o % 16 = 8 then
    match s.queueAt p ((o - 0x10000) / 16) with
    | some q => w64 ((s.queue q).head.toNat + (s.queue q).qerr.toNat * 2 ^ 32)
    | none => 0
  else 0

/-- The host reads a VF's BAR0 (128 KiB); there is an answer to a read of 8 bytes at a multiple of 8.
Open points: DESIGN CHOICE, log 43. -/
def State.vfRead (s : State) (vf o : Nat) : State :=
  match s.vfPart vf with
  | some p => if o % 8 = 0 ∧ o < 0x20000 then s.emit (.regData vf o (s.vfReg p o)) else s
  | none => s

/-! ### The lock (R59) -/

/-- Messages of the secured session need the SPDM responder and the session (R57), and a module with its VFs (R19).
Open points: DESIGN CHOICE, log 49. -/
def State.secured (s : State) : Bool := s.ready svcSpdm && s.hd.session && !s.hd.recovery

/-- Partitions other than `p` that are not in CONFIG_UNLOCKED. -/
def State.rivals (s : State) (p : Nat) : List (Nat × Partition) :=
  s.parts.filter fun e => e.1 != p && e.2.tdi != .unlocked

/-- A GiB of memory that a window may hold (R52, R14); a module that has shut down has none (R27). -/
def State.gibOk (s : State) (g : Nat) : Bool :=
  !s.hd.fatal && match s.bank (g * Config.gib) with
  | .stack d => g % 256 != 255 && s.ready (stkrdy d) && !s.failedBit (stkrdy d)
  | .cxl n => s.ready (cxlrdy n) && !s.failedBit (cxlrdy n)
  | .absent => false

/-- First GiB and length in GiB of a window entry. -/
def winGib (v : W64) : Nat × Nat := ((v.extractLsb' 0 24).toNat, (v.extractLsb' 24 24).toNat)

/-- The valid windows of a partition by number, in GiB. -/
def Partition.gibs (p : Partition) : List (Nat × Nat) :=
  (List.range 32).filterMap fun i =>
    let v := Tbl.get p.win 0 i
    if v.getLsbD 63 then some (winGib v) else none

def gibOverlap (a b : Nat × Nat) : Bool := a.1 < b.1 + b.2 && b.1 < a.1 + a.2

/-- Do no two of the windows overlap. -/
def apart : List (Nat × Nat) → Bool
  | [] => true
  | w :: r => (r.all fun x => !gibOverlap w x) && apart r

def State.windowsOk (s : State) (p : Nat) : Bool :=
  let ws := (s.part p).gibs
  (ws.all fun w => w.2 ≥ 1 && (List.range w.2).all fun i => s.gibOk (w.1 + i)) && apart ws
    && (s.rivals p).all fun e => e.2.gibs.all fun x => ws.all fun w => !gibOverlap w x

/-- Sessions that a partition's peer table names. -/
def State.sessionsOf (s : State) (p : Nat) : List Nat :=
  (Tbl.vals (s.part p).peers).filterMap fun v => if entValid v then some (entSession v) else none

/-- Does a peer table obey R31, with every session that it names established, and for this partition: partitions share no key
(R47). Open points: DESIGN CHOICE, log 49. -/
def State.peersOk (s : State) (p : Nat) : Bool :=
  ((Tbl.vals (s.part p).peers).filter fun v => entValid v && entPhys v == s.physNum && entPart v == p).length == 1
    && (s.sessionsOf p).all fun n => (Tbl.find s.hd.linkSessions n).any (·.part == p)

/-- The first failed check of R59, numbered in its order; 0 if none fails. Open points: DESIGN CHOICE, log 49. -/
def State.lockCheck (s : State) (p : Nat) : Nat :=
  let x := s.part p
  let qs := (s.queuesOf p).map s.queue
  if x.cgmask = 0 then 1
  else if x.cgmask &&& s.hd.cgOffline ≠ 0 ∨ (s.rivals p).any fun e => x.cgmask &&& e.2.cgmask != 0 then 2
  else if !s.windowsOk p then 3
  else if x.msixn = 0 ∨ x.msixn.toNat > 64 ∨ qs.any fun q => q.msix.toNat ≥ x.msixn.toNat then 4
  else if (qs.map (·.lidx)).eraseDups.length ≠ qs.length then 5
  else if !s.peersOk p then 6
  else if !(s.hd.ide.contains (vfOf p)) then 7
  else 0

/-- The answer to a TDISP request in a state that does not take it. Open points: DESIGN CHOICE, log 49. -/
def tdispState : Nat := 8

/-- LOCK_INTERFACE_REQUEST: the checks, then a key of its own and the scrub (R55). -/
def execLockInterfaceRequest (part : Nat) (s : State) : Host.Outcome State Fault Refusal :=
  .next (
    if !s.secured ∨ part ≥ 16 then s
    else if !(s.part part).open_ then s.emit (.tdisp part tdispState)
    else
      match s.lockCheck part with
      | 0 =>
        let (id, s) := s.fresh
        s.setPart part { s.part part with locking := true, key := some (id + 1) }
      | c => s.emit (.tdisp part c))

/-- Memory inside a partition's windows is zero, under its key, and untagged (R59, R54); a TLB keeps nothing of an earlier layout of
them (R53, R137). Open points: DESIGN CHOICE, log 65. -/
def State.scrub (s : State) (p : Nat) : State :=
  let x := s.part p
  let in_ (a : Nat) : Bool := x.holds a 1
  { s with
    tlb := s.tlb.filter fun e => e.part != p
    mem := s.mem.filter fun c => !in_ c.1
    tags := s.tags.filter fun u => !in_ (u * 16)
    rel := keep s.rel fun g _ => !in_ (g * 64)
    staging := s.staging.filter fun y => match y.loc with
      | .mem pa => !in_ pa
      | _ => true
    icache := s.icache.filter fun y => match y.loc with
      | .mem pa => !in_ pa
      | _ => true
    keyed := (x.windows.map fun w => { base := w.1, len := w.2, key := x.key.getD 0 }) ++ s.keyed }

/-- Is some of the memory of a range held: each GiB lies in one stack or port, and its pages are homed on the dies in turn
(R14, R133). -/
def State.rangeHeld (s : State) (base len : Nat) : Bool :=
  (List.range (len / Config.gib)).any fun i => (List.range 4).any fun j => s.memSt (base + i * Config.gib + j * 4096) == .held

/-- The check of R59 that another partition's lock has made fail since it was made: the core groups, or the windows.
Open points: DESIGN CHOICE, log 49. -/
def State.lockMeets (s : State) (p : Nat) : Nat :=
  let x := s.part p
  if (s.rivals p).any fun e => x.cgmask &&& e.2.cgmask != 0 then 2
  else if (s.rivals p).any fun e => e.2.gibs.any fun v => x.gibs.any fun w => gibOverlap w v then 3
  else 0

/-- LOCK_SCRUB_DONE: the scrub waits for memory that is held (R14), and all of it is done in this step; of two locks that stand against
each other the one that ends first succeeds. Open points: DESIGN CHOICE, log 49. -/
def execLockScrubDone (part : Nat) (s : State) : Host.Outcome State Fault Refusal :=
  .next (
    let x := s.part part
    if !x.locking ∨ (x.windows.any fun w => s.rangeHeld w.1 w.2) then s
    else
      match s.lockMeets part with
      | 0 => ((s.scrub part).setPart part { x with tdi := .locked, locking := false, faultSeq := 0 }).emit (.tdisp part 0)
      | c => (s.setPart part { x with locking := false, key := none }).emit (.tdisp part c))

/-- START_INTERFACE_REQUEST: the root scope is live, and the counters start at 1 (R85, R130, R76). While a new image is verified no
partition enters RUN (R19). Open points: DESIGN CHOICE, log 52. -/
def execStartInterfaceRequest (part : Nat) (s : State) : Host.Outcome State Fault Refusal :=
  .next (
    if !s.secured ∨ part ≥ 16 then s
    else if (s.part part).tdi ≠ .locked ∨ s.hd.recoveryStatus = 1 then s.emit (.tdisp part tdispState)
    else
      let x := s.part part
      (s.setPart part { x with tdi := .run, instCtr := 1, fieldCtr := 1, faultSeq := 0, turn := 0
                               scopes := [(0, ScopeEnt.root)] }).emit (.tdisp part 0))

/-- A partition's queues as CONFIG_UNLOCKED leaves them (R65). -/
def State.resetQueues (s : State) (p : Nat) : State :=
  { s with queues := mapT s.queues fun _ q =>
      if q.en && q.part.toNat == p then { q with head := 0, tail := 0, qerr := 0, fault := none } else q }

/-- STOP_INTERFACE_REQUEST, from any state; it abandons a lock in progress. Open points: DESIGN CHOICE, log 48. -/
def execStopInterfaceRequest (part : Nat) (s : State) : Host.Outcome State Fault Refusal :=
  .next (
    if !s.secured ∨ part ≥ 16 then s
    else
      let x := s.part part
      let s := s.setPart part { x with tdi := .unlocked, locking := false, key := none, scopes := [] }
      let s := if x.tdi = .run then s.endRun part else s
      (s.resetQueues part).emit (.tdisp part 0))

/-! ### Reports (R57, R59) -/

/-- The 4 KiB of a peer table. -/
def Partition.peerBytes (p : Partition) : List Nat :=
  (List.range 512).flatMap fun i => (natToBytes 8 (Tbl.get p.peers 0 i).toNat).map (·.toNat)

/-- GET_DEVICE_INTERFACE_REPORT: number, own peer, CGMASK, windows, queues, MSIXN and the digest, lists after their
length. Open points: PRESUMED, log 10; DESIGN CHOICE, log 49. -/
def execGetDeviceInterfaceReport (part : Nat) (s : State) : Host.Outcome State Fault Refusal :=
  .next (
    if !s.secured ∨ part ≥ 16 then s
    else
      let x := s.part part
      let qs := s.queuesOf part
      s.emit (.report part ([part, s.ownPeer part, x.cgmask.toNat, x.gibs.length] ++ (x.gibs.flatMap fun w => [w.1, w.2])
        ++ [qs.length] ++ qs ++ [x.msixn.toNat] ++ sha384 x.peerBytes)))

/-- GET_MEASUREMENTS (R57 Table 4, R18). Open points: DESIGN CHOICE, log 4; PRESUMED, log 10. -/
def execGetMeasurements (index : Nat) (s : State) : Host.Outcome State Fault Refusal :=
  .next (
    if !s.ready svcSpdm then s
    else
      match index with
      | 1 => s.emit (.measurement 1 (sha384 (s.hd.flash.map (·.toNat))))
      | 2 => s.emit (.measurement 2 ((List.range 48).map fun i => (Config.freeRom i).toNat))
      | 3 => s.emit (.measurement 3 [s.physNum, s.hd.readyFail.toNat, s.hd.cgOffline.toNat])
      | 4 => s.emit (.measurement 4 (s.hd.cxlGiB.flatMap fun e => [e.1, e.2]))
      | _ => s)

/-! ### Sessions, streams and link failures (R48, R57, R60, R61) -/

/-- SECURED_SESSION: established with the SPDM responder over the DOE mailbox of PF0, or ended. -/
def execSecuredSession (up : Bool) (s : State) : Host.Outcome State Fault Refusal :=
  .next (if s.ready svcSpdm then { s with hd := { s.hd with session := up } } else s)

/-- The certificate chain in slot 0 is read (R57). Open points: DESIGN CHOICE, log 68. -/
def State.certificate (s : State) : State := if s.ready svcSpdm then s.emit (.certificate Config.certChain) else s

/-- A challenge is answered by a signature under the device identity key: ECDSA P-384 over SHA-384 (R57).
Open points: DESIGN CHOICE, log 68. -/
def State.challenge (s : State) (nonce : List Nat) : State :=
  if s.ready svcSpdm then s.emit (.signature (Config.freeSignature Config.identityKey (sha384 nonce))) else s

/-- A link session that the firmware of both modules has established for a partition (R47); one that stands for another partition
is not taken over, and one that is established again starts with new keys and counts from 0. Open points: DESIGN CHOICE, log 67. -/
def State.linkUp (s : State) (n part : Nat) (dir : W32) : State :=
  if part ≥ 16 ∨ (Tbl.find s.hd.linkSessions n).any (·.part != part) then s
  else { s with hd := { s.hd with linkSessions := Tbl.put s.hd.linkSessions n { part := part, gen := 0, dir := dir, seq := 0 } } }

/-- IDE_KM: the stream of a function is keyed and enabled; 0 is PF0, which alone is there in recovery mode (R19). -/
def execIdeKm (fn : Nat) (s : State) : Host.Outcome State Fault Refusal :=
  .next (
    if !(s.ready svcSpdm && s.hd.session) ∨ fn > 16 ∨ (s.hd.recovery ∧ fn ≠ 0) then s
    else { s with hd := { s.hd with ide := addName s.hd.ide fn } })

/-- IDE_INTEGRITY_FAILURE on the stream of a VF, or a TLP to it without the T bit; the stream stays as it is keyed.
Open points: DESIGN CHOICE, log 49. -/
def execIdeIntegrityFailure (vf : Nat) (s : State) : Host.Outcome State Fault Refusal :=
  .next (match partOf vf with
    | some p => s.enterError p
    | none => s)

/-- Changes one bit of READY_STATUS; a change raises PF0 vector 0 (R11). -/
def State.setReady (s : State) (bit : Nat) (b : Bool) : State :=
  if s.ready bit = b then s
  else State.emit { s with hd := { s.hd with readyStatus := setBit64 s.hd.readyStatus bit b
                                             reported := if b then setBit64 s.hd.reported bit true else s.hd.reported } } (.msix 0 0)

/-- Does a partition have a window on a CXL port. -/
def State.onPort (s : State) (p : Partition) (port : Nat) : Bool :=
  p.gibs.any fun w => (List.range w.2).any fun i => s.bank ((w.1 + i) * Config.gib) == .cxl port

/-- CXL_IDE_FAILURE: the port goes down, and every partition with a window on it enters ERROR. -/
def execCxlIdeFailure (port : Nat) (s : State) : Host.Outcome State Fault Refusal :=
  .next (
    if port ≥ 8 then s
    else
      let ps := keysOf s.parts fun _ p => s.onPort p port
      ps.foldl State.enterError (s.setReady (cxlrdy port) false))

/-- AUTH_TAG_FAILURE: the packet is discarded, its port retrains, and the partition that owns the session enters
ERROR. -/
def execAuthTagFailure (port part : Nat) (s : State) : Host.Outcome State Fault Refusal :=
  .next (
    if port ≥ 32 ∨ part ≥ 16 then s
    else ((s.setReady (fprdy port) false).enterError part).emit (.authFailure part))

end Sys2Proof.Machine
end

