-- ==== Sys2Proof/Machine/Float.lean ====
section
/-! DEFINITION. The floating-point, conversion and hash instructions (chapter 20, R352–R371). -/

namespace Sys2Proof.Machine

open Sys2Proof

/-! ### Forms (R353–R355) -/

/-- The lanes that compute: one for a `.s` form, else the active ones. -/
def Ctx.computing (x : Ctx) (sc : Bool) : List Nat := if sc then [0] else x.lanes

/-- The flags that any computing lane reports. -/
def Ctx.flags (x : Ctx) (sc : Bool) (f : Nat → Fl) : Fl := (x.computing sc).foldl (fun a l => a.or (f l)) .none_

/-- Sets the sticky bits that a conversion reports (R205). -/
def State.report (s : State) (wid : Nat) (f : Fl) : State :=
  (s.stickyIf wid wsSat f.sat).stickyIf wid wsInexact f.inexact

/-- One 32-bit result per computing lane, with the flags of a conversion. -/
def Ctx.conv32 (x : Ctx) (sc : Bool) (d : Nat) (f : Nat → Nat × Fl) : Res :=
  .done ((x.put32 sc d fun l => w32 (f l).1).report x.c.weave (x.flags sc fun l => (f l).2))

/-- One rounded result per computing lane: of the flags, arithmetic reports SAT alone (R355). -/
def Ctx.arith (x : Ctx) (sc : Bool) (fm : Fmt) (d : Nat) (f : Nat → Val) : Res :=
  x.conv32 sc d fun l =>
    let r := packFp fm (f l) x.c.rnd x.c.sat
    (r.1, { r.2 with inexact := false })

/-- A source as a value of a format. -/
def Ctx.val (x : Ctx) (sc : Bool) (fm : Fmt) (n l : Nat) : Val := value fm (x.src32 sc n l).toNat

/-! ### FADD, FMUL, FFMA, FMIN, FMAX, FSETP (R356, R357) -/

/-- FADD (R356). -/
def execFadd (h : Hd) (sc : Bool) (fm : Fmt) (d a b : Nat) (s : State) : Host.Outcome State Fault Refusal :=
  issue (.fadd h sc fm d a b) s fun x => x.arith sc fm d fun l => (x.val sc fm a l).add (x.val sc fm b l) x.c.rnd

/-- FMUL (R356). -/
def execFmul (h : Hd) (sc : Bool) (fm : Fmt) (d a b : Nat) (s : State) : Host.Outcome State Fault Refusal :=
  issue (.fmul h sc fm d a b) s fun x => x.arith sc fm d fun l => (x.val sc fm a l).mul (x.val sc fm b l)

/-- FFMA (R356). -/
def execFfma (h : Hd) (sc : Bool) (fm : Fmt) (d a b c : Nat) (s : State) : Host.Outcome State Fault Refusal :=
  issue (.ffma h sc fm d a b c) s fun x => x.arith sc fm d fun l =>
    ((x.val sc fm a l).mul (x.val sc fm b l)).add (x.val sc fm c l) x.c.rnd

/-- FMIN and FMAX on codes: one operand's bits, or the canonical NaN (R356). -/
def fMinMax (fm : Fmt) (max : Bool) (a b : W32) : W32 :=
  let x := a.toNat % 2 ^ fm.bits
  let y := b.toNat % 2 ^ fm.bits
  let p := value fm x
  let q := value fm y
  match p.cmp q with
  | none => if p.isNan then (if q.isNan then w32 (canonNan fm) else w32 y) else w32 x
  | some .lt => w32 (if max then y else x)
  | some .gt => w32 (if max then x else y)
  | some .eq => w32 (if max then (if q.sign then x else y) else (if p.sign then x else y))

/-- FMIN (R356). -/
def execFmin (h : Hd) (sc : Bool) (fm : Fmt) (d a b : Nat) (s : State) : Host.Outcome State Fault Refusal :=
  issue (.fmin h sc fm d a b) s fun x => .done (x.put32 sc d fun l => fMinMax fm false (x.src32 sc a l) (x.src32 sc b l))

/-- FMAX (R356). -/
def execFmax (h : Hd) (sc : Bool) (fm : Fmt) (d a b : Nat) (s : State) : Host.Outcome State Fault Refusal :=
  issue (.fmax h sc fm d a b) s fun x => .done (x.put32 sc d fun l => fMinMax fm true (x.src32 sc a l) (x.src32 sc b l))

/-- The truth of a condition (R357). -/
def fCond (op : FCond) (o : Option Ordering) : Bool :=
  match op, o with
  | .nan, o => o.isNone
  | .num, o => o.isSome
  | .ne, none => true
  | _, none => false
  | .eq, some o => o == .eq
  | .ne, some o => o != .eq
  | .lt, some o => o == .lt
  | .le, some o => o != .gt
  | .gt, some o => o == .gt
  | .ge, some o => o != .lt

/-- FSETP (R357). -/
def execFsetp (h : Hd) (fm : Fmt) (op : FCond) (d a b : Nat) (s : State) : Host.Outcome State Fault Refusal :=
  issue (.fsetp h fm op d a b) s fun x => .done (x.putP d fun l =>
    fCond op ((x.val false fm a l).cmp (x.val false fm b l)))

/-! ### Conversions (R358–R362) -/

/-- FCVT (R358). -/
def execFcvt (h : Hd) (sc : Bool) (tgt src : Fmt) (mid : Option Fmt) (d a : Nat) (s : State) :
    Host.Outcome State Fault Refusal :=
  issue (.fcvt h sc tgt src mid d a) s fun x => x.conv32 sc d fun l =>
    convert tgt src (x.src32 sc a l).toNat x.c.rnd x.c.sat

/-- The register value of an integer result of a format: sign- or zero-extended (R354). -/
def intExt (fm : Fmt) (n : Nat) (code : Nat) : BitVec n :=
  match fm with
  | .int8 => (BitVec.ofNat 8 code).signExtend n
  | .int16 => (BitVec.ofNat 16 code).signExtend n
  | .int32 => (BitVec.ofNat 32 code).signExtend n
  | _ => BitVec.ofNat n code

/-- FTOI (R359). -/
def execFtoi (h : Hd) (sc : Bool) (tgt src : Fmt) (d a : Nat) (s : State) : Host.Outcome State Fault Refusal :=
  issue (.ftoi h sc tgt src d a) s fun x =>
    let r (l : Nat) := convert tgt src (x.src32 sc a l).toNat x.c.rnd x.c.sat
    let st := if sc then x.putS d (intExt tgt 64 (r 0).1) else x.putV d fun l => intExt tgt 32 (r l).1
    .done (st.report x.c.weave (x.flags sc fun l => (r l).2))

/-- ITOF (R360). -/
def execItof (h : Hd) (sc : Bool) (tgt src : Fmt) (d a : Nat) (s : State) : Host.Outcome State Fault Refusal :=
  issue (.itof h sc tgt src d a) s fun x => x.conv32 sc d fun l =>
    convert tgt src (x.src32 sc a l).toNat x.c.rnd x.c.sat

/-- The FP32 sources of FPACK in element order (R361). -/
def Ctx.packSrc (x : Ctx) (sc : Bool) (fm : Fmt) (a b l : Nat) : List Nat :=
  if Fmt.byte fm then
    let p := x.src64 sc a l
    let q := x.src64 sc b l
    [(p.extractLsb' 0 32).toNat, (p.extractLsb' 32 32).toNat, (q.extractLsb' 0 32).toNat, (q.extractLsb' 32 32).toNat]
  else [(x.src32 sc a l).toNat, (x.src32 sc b l).toNat]

/-- Elements packed from the lowest, each of `w` bits. -/
def packBits (w : Nat) : List Nat → Nat
  | [] => 0
  | e :: r => e + 2 ^ w * packBits w r

/-- FPACK (R361). -/
def execFpack (h : Hd) (sc : Bool) (fm : Fmt) (d a b : Nat) (s : State) : Host.Outcome State Fault Refusal :=
  issue (.fpack h sc fm d a b) s fun x => x.conv32 sc d fun l =>
    let es := (x.packSrc sc fm a b l).map fun e => convert fm .fp32 e x.c.rnd x.c.sat
    (packBits fm.bits (es.map (·.1)), es.foldl (fun f e => f.or e.2) .none_)

/-- Element `i` of a packed word, widened to FP32 exactly (R362). -/
def unpackElt (fm : Fmt) (v : W32) (i : Nat) : W32 :=
  w32 (convert .fp32 fm (v.toNat / 2 ^ (fm.bits * i)) .rne false).1

/-- FUNPK (R362). -/
def execFunpk (h : Hd) (sc : Bool) (fm : Fmt) (d a : Nat) (s : State) : Host.Outcome State Fault Refusal :=
  issue (.funpk h sc fm d a) s fun x =>
    let el (l i : Nat) : W32 := unpackElt fm (x.src32 sc a l) i
    let n := if Fmt.byte fm then 4 else 2
    .done (if sc then
        x.upd fun w => (List.range (n / 2)).foldl (fun w i => w.setS (d + i) (el 0 (2 * i + 1) ++ el 0 (2 * i))) w
      else if d = 255 then x.s
      else
        x.upd fun w => x.lanes.foldl (fun w l => (List.range n).foldl (fun w i => w.setV (d + i) l (el l i)) w) w)

/-! ### Functions (R363) -/

/-- Does the rounded function value overflow: the one case in which SAT acts (R355). -/
def Ctx.fnResult (x : Ctx) (sc : Bool) (op : FnOp) (d a : Nat) : Res :=
  x.arith sc .fp32 d fun l => fnVal op (x.val sc .fp32 a l)

/-- FRCP (R363). -/
def execFrcp (h : Hd) (sc : Bool) (d a : Nat) (s : State) : Host.Outcome State Fault Refusal :=
  issue (.frcp h sc d a) s fun x => x.fnResult sc .rcp d a

/-- FRSQ (R363). -/
def execFrsq (h : Hd) (sc : Bool) (d a : Nat) (s : State) : Host.Outcome State Fault Refusal :=
  issue (.frsq h sc d a) s fun x => x.fnResult sc .rsq d a

/-- FEXP2 (R363). -/
def execFexp2 (h : Hd) (sc : Bool) (d a : Nat) (s : State) : Host.Outcome State Fault Refusal :=
  issue (.fexp2 h sc d a) s fun x => x.fnResult sc .exp2 d a

/-- FLOG2 (R363). -/
def execFlog2 (h : Hd) (sc : Bool) (d a : Nat) (s : State) : Host.Outcome State Fault Refusal :=
  issue (.flog2 h sc d a) s fun x => x.fnResult sc .log2 d a

/-- FTRIG (R363). -/
def execFtrig (h : Hd) (sc : Bool) (cos : Bool) (d a : Nat) (s : State) : Host.Outcome State Fault Refusal :=
  issue (.ftrig h sc cos d a) s fun x => x.fnResult sc (if cos then .cos else .sin) d a

/-! ### Dot product, keys and classes (R364–R366) -/

/-- Byte `i` of a word. -/
def byteOf (v : W32) (i : Nat) : Nat := (v.extractLsb' (8 * i) 8).toNat

/-- Integer dot product of four bytes, wrapped (R364). -/
def dotInt (signed : Bool) (a b c : W32) : W32 :=
  (List.range 4).foldl (fun t i =>
    let p : BitVec 8 := a.extractLsb' (8 * i) 8
    let q : BitVec 8 := b.extractLsb' (8 * i) 8
    t + (if signed then p.signExtend 32 * q.signExtend 32 else p.setWidth 32 * q.setWidth 32)) c

/-- Exact sum of c and four products, in that order (R364). -/
def dotFp (fm : Fmt) (a b : W32) (c : Val) (mode : Rnd) : Val :=
  (List.range 4).foldl (fun t i => t.add ((value fm (byteOf a i)).mul (value fm (byteOf b i))) mode) c

/-- VDOT4 (R364): both integer forms give a u32, which R354 zero-extends. -/
def execVdot4 (h : Hd) (sc : Bool) (fm : Fmt) (d a b c : Nat) (s : State) : Host.Outcome State Fault Refusal :=
  issue (.vdot4 h sc fm d a b c) s fun x =>
    if fm = .e4m3 ∨ fm = .e5m2 then
      x.arith sc .fp32 d fun l => dotFp fm (x.src32 sc a l) (x.src32 sc b l) (x.val sc .fp32 c l) x.c.rnd
    else
      .done (x.put32 sc d fun l => dotInt (fm == .int8) (x.src32 sc a l) (x.src32 sc b l) (x.src32 sc c l))

/-- The ascending key of a code of `w` bits (R365). -/
def ascKey (w : Nat) (a : Nat) : Nat :=
  let a := a % 2 ^ w
  if 2 ^ (w - 1) ≤ a then 2 ^ w - 1 - a else a + 2 ^ (w - 1)

def fkeyVal (fm : Fmt) (desc : Bool) (a : W32) : W32 :=
  let k := ascKey fm.bits a.toNat
  w32 (if desc then 2 ^ fm.bits - 1 - k else k)

/-- FKEY (R365). -/
def execFkey (h : Hd) (sc : Bool) (desc : Bool) (fm : Fmt) (d a : Nat) (s : State) : Host.Outcome State Fault Refusal :=
  issue (.fkey h sc desc fm d a) s fun x => .done (x.put32 sc d fun l => fkeyVal fm desc (x.src32 sc a l))

/-- The bit of FCLASS (R366). -/
def classBitOf (fm : Fmt) (a : W32) : Nat :=
  match value fm a.toNat with
  | .nan _ => 8
  | .inf s => if s then 0 else 7
  | .fin s m _ =>
    if m = 0 then (if s then 3 else 4)
    else if m < 2 ^ fm.shape.2.1 then (if s then 2 else 5)
    else if s then 1 else 6

/-- FCLASS (R366). -/
def execFclass (h : Hd) (sc : Bool) (fm : Fmt) (d a : Nat) (s : State) : Host.Outcome State Fault Refusal :=
  issue (.fclass h sc fm d a) s fun x => .done (x.put32 sc d fun l => w32 (2 ^ classBitOf fm (x.src32 sc a l)))

/-! ### Weave operations (R367–R370) -/

/-- The lane of the largest value, if any active lane holds a number (R368). -/
def Ctx.argmax (x : Ctx) (fm : Fmt) (a : Nat) : Option Nat :=
  x.lanes.foldl (fun b l =>
    if (x.val false fm a l).isNan then b
    else
      match b with
      | none => some l
      | some k => if ascKey fm.bits (x.w.getV a k).toNat < ascKey fm.bits (x.w.getV a l).toNat then some l else b) none

/-- FARGMAX (R368). -/
def execFargmax (h : Hd) (fm : Fmt) (d a : Nat) (s : State) : Host.Outcome State Fault Refusal :=
  issue (.fargmax h fm d a) s fun x =>
    let r : Nat :=
      match x.argmax fm a, x.lanes with
      | some l, _ => l * 2 ^ 32 + (x.w.getV a l).toNat % 2 ^ fm.bits
      | none, l :: _ => l * 2 ^ 32 + canonNan fm
      | none, [] => 0xFFFFFFFF00000000 + signCode fm true + infCode fm
    .done (x.upd fun w => w.setS d (w64 r))

/-- An FP32 sum in the instruction's mode: bits and SAT. -/
def Ctx.addBits (x : Ctx) (p q : Val) : W32 × Bool :=
  let r := packFp .fp32 (p.add q x.c.rnd) x.c.rnd x.c.sat
  (w32 r.1, r.2.sat)

/-- One level of the tree of R369 over neighbouring nodes; `none` is an absent node. -/
def treeLevel (comb : W32 → W32 → W32 × Bool) : List (Option W32) → List (Option W32) × Bool
  | p :: q :: r =>
    let (rest, b) := treeLevel comb r
    match p, q with
    | some u, some v => let (w, sat) := comb u v; (some w :: rest, b || sat)
    | none, q => (q :: rest, b)
    | p, none => (p :: rest, b)
  | l => (l, false)

/-- Five levels over 32 lanes. -/
def treeReduce (comb : W32 → W32 → W32 × Bool) : Nat → List (Option W32) → Option W32 × Bool
  | 0, l => (l.headD none, false)
  | n + 1, l =>
    let (l', b) := treeLevel comb l
    let (r, b') := treeReduce comb n l'
    (r, b || b')

/-- FREDUX (R369). -/
def execFredux (h : Hd) (op : FReduxOp) (d a : Nat) (s : State) : Host.Outcome State Fault Refusal :=
  issue (.fredux h op d a) s fun x =>
    let comb (u v : W32) : W32 × Bool :=
      match op with
      | .add => x.addBits (value .fp32 u.toNat) (value .fp32 v.toNat)
      | .min => (fMinMax .fp32 false u v, false)
      | .max => (fMinMax .fp32 true u v, false)
    let (r, sat) := treeReduce comb 5 ((List.range 32).map fun l => if x.act.has l then some (x.w.getV a l) else none)
    let unit : W32 := match op with
      | .add => 0
      | .min => 0x7F800000
      | .max => 0xFF800000
    .done ((x.upd fun w => w.setS d ((r.getD unit).setWidth 64)).stickyIf x.c.weave wsSat sat)

/-- One butterfly stage at distance `dist` (R370, R210); the second part says whether a sum saturated. -/
def hadStage (x : Ctx) (dist : Nat) (v : List W32) : List W32 × Bool :=
  let r := (List.range v.length).map fun l =>
    if l / dist % 2 = 0 then
      x.addBits (value .fp32 (v.getD l 0).toNat) (value .fp32 (v.getD (l + dist) 0).toNat)
    else
      x.addBits (value .fp32 (v.getD (l - dist) 0).toNat) (value .fp32 (v.getD l 0).toNat).neg
  (r.map (·.1), r.any (·.2))

/-- VHAD (R370). -/
def execVhad (h : Hd) (wide : Bool) (d a : Nat) (s : State) : Host.Outcome State Fault Refusal :=
  issue (.vhad h wide d a) s fun x =>
    let v := (List.range 32).map fun l => if x.act.has l then x.w.getV a l else 0
    let (r, sat) := ([1, 2, 4, 8] ++ (if wide then [16] else [])).foldl (fun (acc : List W32 × Bool) n =>
      let (v', b) := hadStage x n acc.1
      (v', acc.2 || b)) (v, false)
    .done ((x.putV d fun l => r.getD l 0).stickyIf x.c.weave wsSat sat)

/-! ### Hash (R371) -/

/-- HASH64 (R371). -/
def execHash64 (h : Hd) (sc : Bool) (d a b c : Nat) (s : State) : Host.Outcome State Fault Refusal :=
  issue (.hash64 h sc d a b c) s fun x => .done (x.put64 sc d fun l =>
    hash64 (x.src64 sc a l) (x.src64 sc b l) (x.src32 sc c l))

/-- GUMB (R371). -/
def execGumb (h : Hd) (sc : Bool) (d a b c : Nat) (s : State) : Host.Outcome State Fault Refusal :=
  issue (.gumb h sc d a b c) s fun x => .done (x.put32 sc d fun l =>
    gumbel (x.src64 sc a l) (x.src64 sc b l) (x.src32 sc c l))

end Sys2Proof.Machine
end

