-- ==== Sys2Proof/Machine/Integer.lean ====
section
/-! DEFINITION. The integer, predicate and weave instructions (chapter 19, R334–R351). -/

namespace Sys2Proof.Machine

open Sys2Proof

/-! ### Values -/

/-- IMIN and IMAX (R338). -/
def vMin (signed : Bool) {n : Nat} (a b : BitVec n) : BitVec n :=
  if signed then (if a.sle b then a else b) else (if a ≤ b then a else b)

def vMax (signed : Bool) {n : Nat} (a b : BitVec n) : BitVec n :=
  if signed then (if b.sle a then a else b) else (if b ≤ a then a else b)

/-- IMULH: the high half of the product of 2N bits (R338). -/
def vMulh (signed : Bool) {n : Nat} (a b : BitVec n) : BitVec n :=
  if signed then (BitVec.ofInt (n + n) (a.toInt * b.toInt)).extractLsb' n n
  else (BitVec.ofNat (n + n) (a.toNat * b.toNat)).extractLsb' n n

/-- IABS (R338): the most negative value yields itself. -/
def vAbs {n : Nat} (a : BitVec n) : BitVec n := if a.msb then 0 - a else a

/-- Shifts by an unsigned count (R339). -/
def vShl {n : Nat} (a : BitVec n) (k : Nat) : BitVec n := if k < n then a <<< k else 0

def vShrLog {n : Nat} (a : BitVec n) (k : Nat) : BitVec n := if k < n then a >>> k else 0

def vShrAri {n : Nat} (a : BitVec n) (k : Nat) : BitVec n :=
  if k < n then a.sshiftRight k else if a.msb then BitVec.allOnes n else 0

/-- Funnel shift of `c` above `a`. -/
def vShrFun {n : Nat} (a c : BitVec n) (k : Nat) : BitVec n := ((c ++ a) >>> (k % n)).extractLsb' 0 n

def vRol {n : Nat} (a : BitVec n) (k : Nat) : BitVec n :=
  let j := k % n
  if j = 0 then a else (a <<< j) ||| (a >>> (n - j))

/-- Position and length of a bit field from a control word (R340). -/
def fieldPos (n : Nat) (b : W32) : Nat := Nat.min (b.extractLsb' 0 8).toNat n

def fieldLen (n : Nat) (b : W32) : Nat := Nat.min (b.extractLsb' 8 8).toNat (n - fieldPos n b)

def fieldMask (n len : Nat) : BitVec n := if len = n then BitVec.allOnes n else (1 <<< len) - 1

def vBfe (signed : Bool) {n : Nat} (a : BitVec n) (b : W32) : BitVec n :=
  let pos := fieldPos n b
  let len := fieldLen n b
  let m := fieldMask n len
  let f := if pos = n then 0 else (a >>> pos) &&& m
  if signed ∧ 0 < len ∧ f.getLsbD (len - 1) then f ||| ~~~m else f

def vBfi {n : Nat} (a : BitVec n) (b : W32) (c : BitVec n) : BitVec n :=
  let pos := fieldPos n b
  let m := fieldMask n (fieldLen n b)
  (c &&& ~~~(m <<< pos)) ||| ((a &&& m) <<< pos)

def vPopc {n : Nat} (a : BitVec n) : W32 := w32 ((List.range n).filter fun i => a.getLsbD i).length

/-- Zeros above the highest one. -/
def vClz {n : Nat} (a : BitVec n) : W32 :=
  w32 (((List.range n).reverse.takeWhile fun i => !a.getLsbD i).length)

def vBrev {n : Nat} (a : BitVec n) : BitVec n :=
  (List.range n).foldl (fun d i => if a.getLsbD (n - 1 - i) then d ||| (1 <<< i) else d) 0

/-- One result byte of BSWZ (R341). -/
def bswzByte (src : W64) (c : W32) (i : Nat) : BitVec 8 :=
  let x : BitVec 8 := src.extractLsb' (8 * (c.extractLsb' (3 * i) 3).toNat) 8
  let x : BitVec 8 := if c.getLsbD (16 + i) then (if x.msb then 0xFF else 0) else x
  if c.getLsbD (12 + i) then 0 else x

def vBswz (a b c : W32) : W32 :=
  let src := b ++ a
  bswzByte src c 3 ++ bswzByte src c 2 ++ bswzByte src c 1 ++ bswzByte src c 0

/-- ISETP (R342). -/
def vCmp (op : ICond) (signed : Bool) {n : Nat} (a b : BitVec n) : Bool :=
  match op with
  | .eq => a == b
  | .ne => a != b
  | .lt => if signed then a.slt b else a.ult b
  | .le => if signed then a.sle b else a.ule b
  | .gt => if signed then b.slt a else b.ult a
  | .ge => if signed then b.sle a else b.ule a

/-- PLOG (R344). -/
def plogVal (op : PlogOp) (a b : Bool) : Bool :=
  match op with
  | .and => a && b
  | .or => a || b
  | .xor => a != b
  | .andn => a && !b
  | .orn => a || !b
  | .not => !a
  | .mov => a

/-- VOTE: `n` active threads, `t` of them true (R349). -/
def voteVal (op : VoteOp) (n t : Nat) : Bool :=
  match op with
  | .all => t == n
  | .any => decide (1 ≤ t)
  | .eq => t == 0 || t == n
  | .maj => decide (n < 2 * t)
  | .none => t == 0

/-- Source lane of SHFL (R350). -/
def shflSrc (op : ShflOp) (c : W32) (lane : Nat) : Nat :=
  let k := (c.extractLsb' 0 5).toNat
  let g := 32 / 2 ^ Nat.min (c.extractLsb' 5 3).toNat 5
  let r := lane % g
  let base := lane - r
  match op with
  | .idx => base + k % g
  | .rotu => base + (r + g - k % g) % g
  | .rotd => base + (r + k) % g
  | .xor => base + (r ^^^ k) % g

/-- Combination of IREDUX and its value without any thread (R351). -/
def reduxStep (op : ReduxOp) (signed : Bool) {n : Nat} (a b : BitVec n) : BitVec n :=
  match op with
  | .add => a + b
  | .min => vMin signed a b
  | .max => vMax signed a b
  | .and => a &&& b
  | .or => a ||| b
  | .xor => a ^^^ b

def reduxUnit (op : ReduxOp) (signed : Bool) (n : Nat) : BitVec n :=
  match op with
  | .add | .or | .xor => 0
  | .and => BitVec.allOnes n
  | .min => if signed then BitVec.intMax n else BitVec.allOnes n
  | .max => if signed then BitVec.intMin n else 0

/-! ### Operand forms (R335–R337) -/

/-- Writes the "w" result of a form: per thread, or the s register, where 32 bits are zero- or sign-extended by TY. -/
def Ctx.putInt (x : Ctx) (f : IntF) (d : Nat) (g32 : Nat → W32) (g64 : Nat → W64) : State :=
  if Ty.wide f.ty then x.put64 f.s d g64
  else if f.s then x.putS d (if f.ty.signed then (g32 0).signExtend 64 else (g32 0).setWidth 64)
  else x.putV d g32

/-- One, two and three "w" sources. -/
def Ctx.int1 (x : Ctx) (f : IntF) (d a : Nat) (op : {n : Nat} → BitVec n → BitVec n) : Res :=
  .done (x.putInt f d (fun l => op (x.src32 f.s a l)) (fun l => op (x.src64 f.s a l)))

def Ctx.int2 (x : Ctx) (f : IntF) (d a b : Nat) (op : {n : Nat} → BitVec n → BitVec n → BitVec n) : Res :=
  .done (x.putInt f d (fun l => op (x.src32 f.s a l) (x.src32 f.s b l))
    (fun l => op (x.src64 f.s a l) (x.src64 f.s b l)))

def Ctx.int3 (x : Ctx) (f : IntF) (d a b c : Nat) (op : {n : Nat} → BitVec n → BitVec n → BitVec n → BitVec n) : Res :=
  .done (x.putInt f d (fun l => op (x.src32 f.s a l) (x.src32 f.s b l) (x.src32 f.s c l))
    (fun l => op (x.src64 f.s a l) (x.src64 f.s b l) (x.src64 f.s c l)))

/-- A "w" source and a "c" source: a 32-bit control word. -/
def Ctx.intC (x : Ctx) (f : IntF) (d a b : Nat) (op : {n : Nat} → BitVec n → W32 → BitVec n) : Res :=
  .done (x.putInt f d (fun l => op (x.src32 f.s a l) (x.src32 f.s b l))
    (fun l => op (x.src64 f.s a l) (x.src32 f.s b l)))

/-- Two "w" sources, A and C, and a "c" source, B. -/
def Ctx.intCW (x : Ctx) (f : IntF) (d a b c : Nat) (op : {n : Nat} → BitVec n → W32 → BitVec n → BitVec n) : Res :=
  .done (x.putInt f d (fun l => op (x.src32 f.s a l) (x.src32 f.s b l) (x.src32 f.s c l))
    (fun l => op (x.src64 f.s a l) (x.src32 f.s b l) (x.src64 f.s c l)))

/-! ### Arithmetic (R338) -/

/-- IADD (R338). -/
def execIadd (h : Hd) (f : IntF) (d a b : Nat) (s : State) : Host.Outcome State Fault Refusal :=
  issue (.iadd h f d a b) s fun x => x.int2 f d a b fun p q => p + q

/-- ISUB (R338). -/
def execIsub (h : Hd) (f : IntF) (d a b : Nat) (s : State) : Host.Outcome State Fault Refusal :=
  issue (.isub h f d a b) s fun x => x.int2 f d a b fun p q => p - q

/-- IMUL (R338). -/
def execImul (h : Hd) (f : IntF) (d a b : Nat) (s : State) : Host.Outcome State Fault Refusal :=
  issue (.imul h f d a b) s fun x => x.int2 f d a b fun p q => p * q

/-- IMULH (R338). -/
def execImulh (h : Hd) (f : IntF) (d a b : Nat) (s : State) : Host.Outcome State Fault Refusal :=
  issue (.imulh h f d a b) s fun x => x.int2 f d a b fun p q => vMulh f.ty.signed p q

/-- IMAD (R338). -/
def execImad (h : Hd) (f : IntF) (d a b c : Nat) (s : State) : Host.Outcome State Fault Refusal :=
  issue (.imad h f d a b c) s fun x => x.int3 f d a b c fun p q r => p * q + r

/-- IMIN (R338). -/
def execImin (h : Hd) (f : IntF) (d a b : Nat) (s : State) : Host.Outcome State Fault Refusal :=
  issue (.imin h f d a b) s fun x => x.int2 f d a b fun p q => vMin f.ty.signed p q

/-- IMAX (R338). -/
def execImax (h : Hd) (f : IntF) (d a b : Nat) (s : State) : Host.Outcome State Fault Refusal :=
  issue (.imax h f d a b) s fun x => x.int2 f d a b fun p q => vMax f.ty.signed p q

/-- IABS (R338). -/
def execIabs (h : Hd) (f : IntF) (d a : Nat) (s : State) : Host.Outcome State Fault Refusal :=
  issue (.iabs h f d a) s fun x => x.int1 f d a fun p => vAbs p

/-! ### Logic and shifts (R339) -/

/-- AND (R339). -/
def execAnd (h : Hd) (f : IntF) (d a b : Nat) (s : State) : Host.Outcome State Fault Refusal :=
  issue (.and h f d a b) s fun x => x.int2 f d a b fun p q => p &&& q

/-- OR (R339). -/
def execOr (h : Hd) (f : IntF) (d a b : Nat) (s : State) : Host.Outcome State Fault Refusal :=
  issue (.or h f d a b) s fun x => x.int2 f d a b fun p q => p ||| q

/-- XOR (R339). -/
def execXor (h : Hd) (f : IntF) (d a b : Nat) (s : State) : Host.Outcome State Fault Refusal :=
  issue (.xor h f d a b) s fun x => x.int2 f d a b fun p q => p ^^^ q

/-- ANDN (R339). -/
def execAndn (h : Hd) (f : IntF) (d a b : Nat) (s : State) : Host.Outcome State Fault Refusal :=
  issue (.andn h f d a b) s fun x => x.int2 f d a b fun p q => p &&& ~~~q

/-- SHL (R339). -/
def execShl (h : Hd) (f : IntF) (d a b : Nat) (s : State) : Host.Outcome State Fault Refusal :=
  issue (.shl h f d a b) s fun x => x.intC f d a b fun p k => vShl p k.toNat

/-- SHR (R339). -/
def execShr (h : Hd) (f : IntF) (op : ShrOp) (d a b c : Nat) (s : State) : Host.Outcome State Fault Refusal :=
  issue (.shr h f op d a b c) s fun x =>
    match op with
    | .log => x.intC f d a b fun p k => vShrLog p k.toNat
    | .ari => x.intC f d a b fun p k => vShrAri p k.toNat
    | .fun_ => x.intCW f d a b c fun p k q => vShrFun p q k.toNat

/-- ROL (R339). -/
def execRol (h : Hd) (f : IntF) (d a b : Nat) (s : State) : Host.Outcome State Fault Refusal :=
  issue (.rol h f d a b) s fun x => x.intC f d a b fun p k => vRol p k.toNat

/-! ### Bit fields, counts and bytes (R340, R341) -/

/-- BFE (R340). -/
def execBfe (h : Hd) (f : IntF) (d a b : Nat) (s : State) : Host.Outcome State Fault Refusal :=
  issue (.bfe h f d a b) s fun x => x.intC f d a b fun p k => vBfe f.ty.signed p k

/-- BFI (R340). -/
def execBfi (h : Hd) (f : IntF) (d a b c : Nat) (s : State) : Host.Outcome State Fault Refusal :=
  issue (.bfi h f d a b c) s fun x => x.intCW f d a b c fun p k q => vBfi p k q

/-- POPC (R340). -/
def execPopc (h : Hd) (f : IntF) (d a : Nat) (s : State) : Host.Outcome State Fault Refusal :=
  issue (.popc h f d a) s fun x => .done (x.put32 f.s d fun l =>
    if Ty.wide f.ty then vPopc (x.src64 f.s a l) else vPopc (x.src32 f.s a l))

/-- CLZ (R340). -/
def execClz (h : Hd) (f : IntF) (d a : Nat) (s : State) : Host.Outcome State Fault Refusal :=
  issue (.clz h f d a) s fun x => .done (x.put32 f.s d fun l =>
    if Ty.wide f.ty then vClz (x.src64 f.s a l) else vClz (x.src32 f.s a l))

/-- BREV (R340). -/
def execBrev (h : Hd) (f : IntF) (d a : Nat) (s : State) : Host.Outcome State Fault Refusal :=
  issue (.brev h f d a) s fun x => x.int1 f d a fun p => vBrev p

/-- BSWZ (R341; DEDUCED, log 58). -/
def execBswz (h : Hd) (sc : Bool) (d a b c : Nat) (s : State) : Host.Outcome State Fault Refusal :=
  issue (.bswz h sc d a b c) s fun x => .done (x.put32 sc d fun l =>
    vBswz (x.src32 sc a l) (x.src32 sc b l) (x.src32 sc c l))

/-! ### Predicates and selection (R342–R344) -/

/-- ISETP (R342). -/
def execIsetp (h : Hd) (ty : Ty) (op : ICond) (d a b : Nat) (s : State) : Host.Outcome State Fault Refusal :=
  issue (.isetp h ty op d a b) s fun x => .done (x.putP d fun l =>
    if Ty.wide ty then vCmp op ty.signed (x.w.getV64 a l) (x.w.getV64 b l)
    else vCmp op ty.signed (x.w.getV a l) (x.w.getV b l))

/-- SEL (R343). -/
def execSel (h : Hd) (ty : Ty) (d a b c : Nat) (s : State) : Host.Outcome State Fault Refusal :=
  issue (.sel h ty d a b c) s fun x => .done (x.putInt ⟨false, ty⟩ d
    (fun l => if x.w.getP c l then x.w.getV a l else x.w.getV b l)
    (fun l => if x.w.getP c l then x.w.getV64 a l else x.w.getV64 b l))

/-- PLOG (R344). -/
def execPlog (h : Hd) (op : PlogOp) (d a b : Nat) (s : State) : Host.Outcome State Fault Refusal :=
  issue (.plog h op d a b) s fun x => .done (x.putP d fun l => plogVal op (x.w.getP a l) (x.w.getP b l))

/-! ### Moves and addresses (R345, R346) -/

/-- MOV (R345). -/
def execMov (h : Hd) (f : IntF) (d a : Nat) (s : State) : Host.Outcome State Fault Refusal :=
  issue (.mov h f d a) s fun x => x.int1 f d a fun p => p

/-- MOVI, 32 bits (R345). -/
def execMovi32 (h : Hd) (sc : Bool) (d : Nat) (imm : W32) (s : State) : Host.Outcome State Fault Refusal :=
  issue (.movi32 h sc d imm) s fun x => .done (x.put32 sc d fun _ => imm)

/-- MOVI, 64 bits (R345). -/
def execMovi64 (h : Hd) (sc : Bool) (d : Nat) (imm : W64) (s : State) : Host.Outcome State Fault Refusal :=
  issue (.movi64 h sc d imm) s fun x => .done (x.put64 sc d fun _ => imm)

/-- LEA (R346; DEDUCED, log 57). -/
def execLea (h : Hd) (sc : Bool) (shift : Fin 5) (d a b : Nat) (s : State) : Host.Outcome State Fault Refusal :=
  issue (.lea h sc shift d a b) s fun x => .done (x.put64 sc d fun l =>
    x.w.getS a + ((if sc then x.w.getS b else (x.w.getV b l).setWidth 64) <<< shift.val))

/-! ### Weave operations (R347–R351) -/

/-- BALLOT (R348). -/
def execBallot (h : Hd) (d a : Nat) (s : State) : Host.Outcome State Fault Refusal :=
  issue (.ballot h d a) s fun x => .done (x.upd fun w =>
    w.setS d ((Lanes.ofFn fun l => x.act.has l && x.w.getP a l).setWidth 64))

/-- VOTE (R349). -/
def execVote (h : Hd) (op : VoteOp) (d a : Nat) (s : State) : Host.Outcome State Fault Refusal :=
  issue (.vote h op d a) s fun x =>
    let t := (x.lanes.filter fun l => x.w.getP a l).length
    .done (x.putP d fun _ => voteVal op x.lanes.length t)

/-- SHFL (R350). -/
def execShfl (h : Hd) (ty : Ty) (op : ShflOp) (d a b : Nat) (s : State) : Host.Outcome State Fault Refusal :=
  issue (.shfl h ty op d a b) s fun x =>
    let src (l : Nat) : Nat :=
      let n := shflSrc op (x.w.getV b l) l
      if x.act.has n then n else l
    .done (x.putInt ⟨false, ty⟩ d (fun l => x.w.getV a (src l)) (fun l => x.w.getV64 a (src l)))

/-- IREDUX (R351). -/
def execIredux (h : Hd) (ty : Ty) (op : ReduxOp) (d a : Nat) (s : State) : Host.Outcome State Fault Refusal :=
  issue (.iredux h ty op d a) s fun x =>
    let sg := ty.signed
    let r32 := x.lanes.foldl (fun r l => reduxStep op sg r (x.w.getV a l)) (reduxUnit op sg 32)
    let r64 := x.lanes.foldl (fun r l => reduxStep op sg r (x.w.getV64 a l)) (reduxUnit op sg 64)
    .done (x.upd fun w => w.setS d
      (if Ty.wide ty then r64 else if sg then r32.signExtend 64 else r32.setWidth 64))

end Sys2Proof.Machine
end

