-- ==== Sys2Proof/Machine/Power.lean ====
section
/-! DEFINITION. Bring-up and readiness, accesses held for memory, core groups taken offline, firmware recovery, power states
and thermal shutdown, and devices behind the root ports (R10–R27, R62). -/

namespace Sys2Proof.Machine

open Sys2Proof

/-! ### Module reset and readiness (R10–R15) -/

/-- The module after the deassertion of reset: every function starts to come up and a device key is created (R55). CLOCK runs
on (R26); the slot's number, the flash, what the CXL ports present and an accepted RECOVERY_STATUS remain; the ports' paths to
modules are found anew. Open points: DESIGN CHOICE, log 52. -/
def State.moduleReset (s : State) (imageGood : Bool) : State :=
  { State.reset with
    clock := s.clock
    agenda := s.agenda
    nextId := s.nextId + 1
    freeIdx := s.freeIdx
    physNum := s.physNum
    out := s.out
    hd := { HostDie.initial with
      resetAt := s.clock
      deviceKey := s.nextId + 1
      recovery := !imageGood
      recoveryStatus := if s.hd.recoveryStatus = 3 then 3 else 0
      flash := s.hd.flash
      cxlGiB := s.hd.cxlGiB } }

/-- MODULE_RESET; `imageGood` is the outcome of the boot ROM's check of the firmware signature (R10).
Open points: DESIGN CHOICE, log 52. -/
def execModuleReset (imageGood : Bool) (s : State) : Host.Outcome State Fault Refusal := .next (s.moduleReset imageGood)

/-- The limit of a function in cycles from reset (R15 Table 3); none for a bit that no function has. -/
def readyLimit (bit : Nat) : Option Nat :=
  let ms (n : Nat) : Option Nat := some (n * 1000 * Config.us)
  if bit < 4 then ms 200
  else if bit < 8 then none
  else if bit < 12 then ms 1500
  else if bit < 16 then ms 900
  else if bit < 20 then none
  else if bit < 24 then ms 1000
  else if bit < 32 then ms 2500
  else if bit < 64 then ms 3000
  else none

/-- Is a function one of the firmware's, which does not start in recovery mode (R10). -/
def isService (bit : Nat) : Bool := 12 ≤ bit && bit < 16

/-- FUNCTION_READY: within its limit, and not after it has reported failure. Open points: DESIGN CHOICE, log 52. -/
def execFunctionReady (bit : ReadyBit) (s : State) : Host.Outcome State Fault Refusal :=
  .next (match readyLimit bit with
    | none => s
    | some l =>
      if s.failedBit bit || (s.hd.recovery && isService bit) || s.clock > s.hd.resetAt + l then s
      else s.setReady bit true)

/-- Has a function come up since module reset (R15). -/
def State.reported (s : State) (bit : Nat) : Bool := s.hd.reported.getLsbD bit

/-- A function that has not come up reports failure (R11); accesses held for it end (R14). -/
def State.functionFails (s : State) (bit : Nat) : State :=
  if s.reported bit || s.failedBit bit || (readyLimit bit).isNone then s
  else
    let s := State.emit { s with hd := { s.hd with readyFail := setBit64 s.hd.readyFail bit true } } (.msix 0 0)
    s.serveAperture.serveInbound

/-- READY_LIMIT_EXPIRY: a function that has not reported ready by its limit reports failure (R15). -/
def execReadyLimitExpiry (bit : ReadyBit) (s : State) : Host.Outcome State Fault Refusal :=
  .next (match readyLimit bit with
    | none => s
    | some l => if s.clock < s.hd.resetAt + l then s else s.functionFails bit)

/-- LINK_STATE_CHANGE of a fabric or CXL port that has come up (R12). Open points: DESIGN CHOICE, log 52. -/
def execLinkStateChange (bit : ReadyBit) (up : Bool) (s : State) : Host.Outcome State Fault Refusal :=
  .next (if bit < 24 ∨ bit ≥ 64 ∨ !s.reported bit then s else s.setReady bit up)

/-- A fabric port gets a trained path to a module, or loses it (R15, R32). Open points: DESIGN CHOICE, log 67. -/
def State.setPath (s : State) (port phys : Nat) (up : Bool) : State :=
  let l := s.hd.unreach.filter (· != (port, phys))
  { s with hd := { s.hd with unreach := if up then l else (port, phys) :: l } }

/-- HELD_ACCESS_RELEASE (R14): the held access of that name, whichever it is, is tried again.
Open points: DESIGN CHOICE, log 43. -/
def execHeldAccessRelease (op : Nat) (s : State) : Host.Outcome State Fault Refusal :=
  .next (
    let s := match Tbl.find s.lsOps op with
      | some _ => (s.tryOp op).finishIfDone op
      | none => s
    (s.tryInbound op).tryAp op)

/-! ### Core groups offline, firmware (R17–R19) -/

/-- CGOFFLINE_WRITE: sticky until module reset. -/
def execCgofflineWrite (v : W32) (s : State) : Host.Outcome State Fault Refusal :=
  .next { s with hd := { s.hd with cgOffline := s.hd.cgOffline ||| v } }

/-- Changes RECOVERY_STATUS; a change raises PF0 vector 0 (R19). -/
def State.setRecovery (s : State) (v : BitVec 2) : State :=
  if s.hd.recoveryStatus = v then s
  else State.emit { s with hd := { s.hd with recoveryStatus := v } } (.msix 0 0)

/-- RECOVERY_GO: dropped while a partition is in RUN; the flash is erased while the image is verified.
Open points: DESIGN CHOICE, log 52. -/
def execRecoveryGo (v : W64) (s : State) : Host.Outcome State Fault Refusal :=
  .next (
    if !v.getLsbD 0 || s.hd.recoveryStatus == 1 || (s.parts.any fun e => e.2.tdi == .run) then s
    else State.setRecovery { s with hd := { s.hd with flash := [] } } 1)

/-- RECOVERY_VERIFY_DONE: an accepted image is in the flash, as the mailbox then holds it, and the module resets; after a rejected
one it is in recovery mode. Open points: DESIGN CHOICE, log 52. -/
def execRecoveryVerifyDone (good : Bool) (s : State) : Host.Outcome State Fault Refusal :=
  .next (
    if s.hd.recoveryStatus ≠ 1 then s
    else if good then
      let s := s.setRecovery 3
      State.moduleReset { s with hd := { s.hd with flash := s.hd.mailbox } } true
    else
      let s := s.setRecovery 2
      { s with hd := { s.hd with recovery := true } })

/-! ### Power states (R20–R24) -/

/-- Does a partition that is not in CONFIG_UNLOCKED own a core group or a window of a die (R23).
Open points: DESIGN CHOICE, log 51. -/
def Partition.uses (p : Partition) (die : Nat) : Bool :=
  p.tdi != .unlocked && (p.cgmask.extractLsb' (8 * die) 8 != 0
    || p.gibs.any fun w => gibOverlap w (256 * die, 256))

/-- The effective tolerance of a die in nanoseconds; none is unlimited (R23). Open points: DESIGN CHOICE, log 51. -/
def State.tolerance (s : State) (die : Nat) : Option Nat :=
  s.parts.foldl (fun (m : Option Nat) e =>
    if e.2.uses die then
      match m with
      | none => some e.2.ltol.toNat
      | some t => some (Nat.min t e.2.ltol.toNat)
    else m) none

/-- The deepest state that a tolerance allows. -/
def deepest (tol : Option Nat) : Ps :=
  match tol with
  | none => .ps3
  | some t => if t ≥ 250000 then .ps3 else if t ≥ 20000 then .ps2 else if t ≥ 1000 then .ps1 else .ps0

/-- Has a die a ready record that it may place. Open points: DEDUCED, log 23. -/
def State.mayPlace (s : State) (die : Nat) : Bool :=
  s.records.any fun e => s.placeable e.2.part e.2 && (s.usableCgs e.2.part).any fun g => g / 8 == die

/-- Is a die idle (R23). An operation of the KV store is in flight on the die of the weave that issued it.
Open points: DESIGN CHOICE, log 51. -/
def State.idleDie (s : State) (die : Nat) : Bool :=
  !s.mayPlace die
    && ((List.range 64).all fun c => (s.coreTeams (fun _ => false) (die * 64 + c)).isEmpty)
    && !(someT s.copies fun _ c => coreDie c.core == die) && !(someT s.kvOps fun _ o => o.ident.die == die)
    && !(someT s.mxReqs fun _ q => q.cg / 8 == die) && !(someT s.maskLoads fun _ m => coreDie m.core == die)

/-- POWER_STATE_ENTRY: the power manager places an idle die in the deepest state that its tolerance allows.
Open points: DESIGN CHOICE, log 51. -/
def execPowerStateEntry (die : Nat) (s : State) : Host.Outcome State Fault Refusal :=
  .next (
    if die ≥ 4 ∨ !s.ready svcPwr ∨ (s.die die).exiting.isSome ∨ !s.idleDie die then s
    else s.setDie die { s.die die with ps := deepest (s.tolerance die) })

/-- Is an address of local memory homed on a die. -/
def State.homedOn (s : State) (die part lva kind : Nat) : Bool :=
  match s.xlate 0 part lva kind with
  | .ok pa => s.homeDie pa == die
  | .error .held => true
  | .error _ => false

/-- Does a partition have memory that a die homes: in its stack, or in the second tier (R133). -/
def Partition.homedOn (p : Partition) (die : Nat) : Bool :=
  p.gibs.any fun w => gibOverlap w (256 * die, 256) || w.1 + w.2 > Config.tierBase / Config.gib

/-- Does a group wait for memory: its fetch is held, or its instruction stalls. -/
def State.groupHeld (s : State) (e : Env) (g : Group) : Bool := g.sleep == .stall || s.fetch e g == .held

/-- Work of a partition that reads or writes memory as it goes on: KV operations and voids, matrix work, mask loads, reads of
queue processors, cancel records, groups that wait for memory. -/
def State.agentsOf (s : State) (part : Nat) : Bool :=
  (someT s.weaves fun k _ => match s.env k with
    | some e => e.part == part && e.w.groups.any (s.groupHeld e)
    | none => false) || (someT s.kvOps fun _ o => o.part == part) || (someT s.voids fun _ v => v.part == part)
    || (someT s.mxReqs fun _ q => q.part == part) || (someT s.maskLoads fun _ m => m.part == part)
    || (someT s.records fun _ r => r.part == part && !r.met) || (someT s.cancels fun _ c => c.part == part)
    || (s.queuesOf part).any fun q => (s.queue q).outstanding

/-- Does a SPAWN read its record in the memory that a die homes. -/
def ScopeOp.reads (o : ScopeOp) (s : State) (die : Nat) : Bool :=
  match o.kind with
  | .spawn (some (.mem pa)) _ _ _ => s.homeDie pa == die
  | _ => false

/-- Does an awake group fetch its code from the memory that a die homes. -/
def State.fetchFrom (s : State) (die : Nat) : Bool :=
  s.weaves.any fun (wid, _) => match s.env wid with
    | some e => e.c.st != .saved && e.w.groups.any fun g => !g.halted && g.sleep == .awake
        && (match s.xlate (coreDie e.t.core) e.part (lvaOf g.pc) 3 with
          | .ok pa => peerOf g.pc == s.ownPeer e.part && s.homeDie pa == die
          | .error _ => false)
    | none => false

/-- Is there an access to a die's stack or cache (R21): one that is translated, one of the host, of a peer or of the device, a fetch, or
work of a partition whose windows lie there. Open points: DESIGN CHOICE, log 51. -/
def State.accessTo (s : State) (die : Nat) : Bool :=
  (s.lsOps.any fun e => e.2.accs.any fun a => a.got.isNone && (match a.loc with
    | .mem pa => s.homeDie pa == die
    | _ => false))
  || (s.copies.any fun e => e.2.st == .accepted && e.2.xl.any fun x => s.homeDie (x.2 * 64) == die)
  || (s.apOps.any fun e => (chunksOf e.2.lva.toNat e.2.len).any fun c =>
      s.homedOn die e.2.part (c.1 % 2 ^ 55) (if e.2.write then 1 else 0))
  || (s.inbound.any fun e => (packetWants e.2.pkt).any fun w => s.homedOn die e.2.pkt.dstPart w.1.toNat w.2)
  || (s.parts.any fun e => e.2.locking && e.2.homedOn die)
  || (s.devWrites.any fun w => s.homeDie w.pa == die) || (someT s.scopeOps fun _ o => o.reads s die) || s.fetchFrom die
  || s.parts.any fun e => e.2.tdi == .run && e.2.homedOn die && s.agentsOf e.1

/-- Is there a cause for a die to be awake: it is not idle, or its memory is accessed (R21, R23). -/
def State.wakeCause (s : State) (die : Nat) : Bool := !s.idleDie die || s.accessTo die

/-- WAKE_EVENT: a cause is there (R21). Open points: DESIGN CHOICE, log 51. -/
def execWakeEvent (die : Nat) (s : State) : Host.Outcome State Fault Refusal :=
  .next (if die < 4 ∧ s.wakeCause die then s.wake die else s)

/-- DIE_EXIT_COMPLETE. -/
def execDieExitComplete (die : Nat) (s : State) : Host.Outcome State Fault Refusal :=
  .next (if (s.die die).exiting.isSome then s.setDie die DieSt.initial else s)

/-- A die whose state has become too deep moves to the deepest state that its tolerance allows, or towards PS0 (R24). -/
def State.retune (s : State) (die : Nat) : State :=
  let d := s.die die
  let ok := deepest (s.tolerance die)
  if d.ps.exitNs ≤ ok.exitNs ∨ d.exiting.isSome then s
  else if ok = .ps0 then s.wake die
  else s.setDie die { d with ps := ok }

/-- After every step a die for which there is a cause leaves its state, and one whose state has become too deep moves (R21, R23,
R24). Open points: DESIGN CHOICE, log 51. -/
def State.tendDie (s : State) (die : Nat) : State :=
  if (s.die die).ps = .ps0 then s else if s.wakeCause die then s.wake die else s.retune die

/-- LTOL_WRITE, in every state of the TDI (R22, R51). -/
def execLtolWrite (part : Nat) (v : W32) (s : State) : Host.Outcome State Fault Refusal :=
  .next (
    if part ≥ 16 then s
    else [0, 1, 2, 3].foldl State.retune (s.setPart part { s.part part with ltol := v }))

/-- THERMAL_SHUTDOWN: the compute dies stop, the host is told, and every partition that is locked or runs enters ERROR
(R27, R60). Open points: DESIGN CHOICE, log 51. -/
def execThermalShutdown (die : Nat) (s : State) : Host.Outcome State Fault Refusal :=
  .next (
    if die ≥ 4 then s
    else
      let s := State.emit { s with hd := { s.hd with fatal := true } } .fatal
      (Tbl.keys s.parts).foldl State.enterError s)

/-! ### Devices behind the root ports (R62) -/

/-- The IOMMU maps a page of a device's addresses, or maps it no more; it maps only memory under the device key.
Open points: DESIGN CHOICE, log 66. -/
def State.iommuMap (s : State) (page : Nat) (pa : Option Nat) : State :=
  match pa with
  | none => { s with hd := { s.hd with iommu := Tbl.del s.hd.iommu page } }
  | some a =>
    if a % 4096 ≠ 0 ∨ s.bank a = .absent ∨ s.keyNum a ≠ 0 then s
    else { s with hd := { s.hd with iommu := Tbl.put s.hd.iommu page a } }

/-- Where an address of a device lies: no device reaches a partition window, whatever the state of its partition. -/
def State.rpPlace (s : State) (addr : Nat) : Option Nat :=
  (Tbl.find s.hd.iommu (addr / 4096)).bind fun a =>
    if s.keyNum (a + addr % 4096) = 0 then some (a + addr % 4096) else none

/-- Bytes of one granule as an access under the device key reads them (R54). -/
def State.rpRead (s : State) (pa n : Nat) : List (BitVec 8) :=
  ((natToBytes 64 (s.readUnder s.hd.deviceKey (pa / 64)).toNat).drop (pa % 64)).take n

/-- Writes bytes of one granule under the device key (R54). -/
def State.rpWrite (s : State) (pa : Nat) (bs : List (BitVec 8)) : State :=
  if s.keyOf (pa / 64) = s.hd.deviceKey then s.memWrite pa bs
  else
    let base := pa / 64 * 64
    let whole := s.rpRead base (pa % 64) ++ bs ++ s.rpRead (pa + bs.length) (64 - pa % 64 - bs.length)
    State.memWrite { s with keyed := { base := base, len := 64, key := s.hd.deviceKey } :: s.keyed } base whole

/-- A request from a device behind a root port: translated by the IOMMU, or refused; its dies wake (R21); where memory is held the device
asks again (R14), memory that cannot be read refuses it. Open points: DESIGN CHOICE, log 66. -/
def State.rpAccess (s : State) (port addr : Nat) (write : Bool) (len : Nat) (data : List (BitVec 8)) : State :=
  let cs := chunksOf addr (if write then data.length else len)
  if port ≥ 4 || !s.ready (rprdy port) then s
  else
    match cs.mapM fun c => s.rpPlace c.1 with
    | none => s.emit (.rpRefused port)
    | some ps =>
      let s := ps.foldl State.touch s
      if ps.any fun pa => s.memSt pa == .held then s
      else if ps.any fun pa => s.memSt pa == .failed || (!write && s.eccBad pa) then s.emit (.rpRefused port)
      else if write then
        ((cs.zip ps).foldl (fun (s : State) (c, pa) => s.rpWrite pa ((data.drop (c.1 - addr)).take c.2)) s).emit (.rpDone port)
      else s.emit (.rpData port ((cs.zip ps).flatMap fun (c, pa) => s.rpRead pa c.2))

end Sys2Proof.Machine
end

