-- ==== Sys2Proof/Machine/Dispatch.lean ====
section
/-! DEFINITION. One arm for every constructor of `Instr`: its meaning. -/

namespace Sys2Proof.Machine

open Sys2Proof

def exec (i : Instr) (s : State) : Host.Outcome State Fault Refusal :=
  match i with
  | .moduleReset imageGood => Sys2Proof.Machine.execModuleReset imageGood s
  | .functionReady bit => Sys2Proof.Machine.execFunctionReady bit s
  | .readyLimitExpiry bit => Sys2Proof.Machine.execReadyLimitExpiry bit s
  | .heldAccessRelease op => Sys2Proof.Machine.execHeldAccessRelease op s
  | .linkStateChange bit up => Sys2Proof.Machine.execLinkStateChange bit up s
  | .cgofflineWrite v => Sys2Proof.Machine.execCgofflineWrite v s
  | .recoveryGo v => Sys2Proof.Machine.execRecoveryGo v s
  | .recoveryVerifyDone good => Sys2Proof.Machine.execRecoveryVerifyDone good s
  | .ltolWrite part v => Sys2Proof.Machine.execLtolWrite part v s
  | .powerStateEntry die => Sys2Proof.Machine.execPowerStateEntry die s
  | .wakeEvent die => Sys2Proof.Machine.execWakeEvent die s
  | .dieExitComplete die => Sys2Proof.Machine.execDieExitComplete die s
  | .thermalShutdown die => Sys2Proof.Machine.execThermalShutdown die s
  | .remoteRequestArrival p => Sys2Proof.Machine.execRemoteRequestArrival p s
  | .rtForward p => Sys2Proof.Machine.execRtForward p s
  | .remoteResponseArrival ott r => Sys2Proof.Machine.execRemoteResponseArrival ott r s
  | .holdNoticeSend req => Sys2Proof.Machine.execHoldNoticeSend req s
  | .holdNoticeArrival ott => Sys2Proof.Machine.execHoldNoticeArrival ott s
  | .remoteRequestTimeout ott => Sys2Proof.Machine.execRemoteRequestTimeout ott s
  | .authTagFailure port part => Sys2Proof.Machine.execAuthTagFailure port part s
  | .keyUpdate session => Sys2Proof.Machine.execKeyUpdate session s
  | .stallResume weave gid => Sys2Proof.Machine.execStallResume weave gid s
  | .partitionConfigWrite offset v => Sys2Proof.Machine.execPartitionConfigWrite offset v s
  | .qcfgWrite queue word v => Sys2Proof.Machine.execQcfgWrite queue word v s
  | .doorbell vf index tail => Sys2Proof.Machine.execDoorbell vf index tail s
  | .apertureAccess vf offset write len data => Sys2Proof.Machine.execApertureAccess vf offset write len data s
  | .lockInterfaceRequest part => Sys2Proof.Machine.execLockInterfaceRequest part s
  | .lockScrubDone part => Sys2Proof.Machine.execLockScrubDone part s
  | .startInterfaceRequest part => Sys2Proof.Machine.execStartInterfaceRequest part s
  | .stopInterfaceRequest part => Sys2Proof.Machine.execStopInterfaceRequest part s
  | .getDeviceInterfaceReport part => Sys2Proof.Machine.execGetDeviceInterfaceReport part s
  | .getMeasurements index => Sys2Proof.Machine.execGetMeasurements index s
  | .ideIntegrityFailure vf => Sys2Proof.Machine.execIdeIntegrityFailure vf s
  | .cxlIdeFailure port => Sys2Proof.Machine.execCxlIdeFailure port s
  | .coreGroupsFreed part => Sys2Proof.Machine.execCoreGroupsFreed part s
  | .queueRecordTake part => Sys2Proof.Machine.execQueueRecordTake part s
  | .dependenceMet record => Sys2Proof.Machine.execDependenceMet record s
  | .cohortPlacement part picks => Sys2Proof.Machine.execCohortPlacement part picks s
  | .preempt part => Sys2Proof.Machine.execPreempt part s
  | .weaveHalt weave gid => Sys2Proof.Machine.execWeaveHalt weave gid s
  | .cohortQuiesced cohort => Sys2Proof.Machine.execCohortQuiesced cohort s
  | .saveComplete cohort => Sys2Proof.Machine.execSaveComplete cohort s
  | .cancelDrained part scope => Sys2Proof.Machine.execCancelDrained part scope s
  | .weaveSlotRelease weave => Sys2Proof.Machine.execWeaveSlotRelease weave s
  | .teamEnd team => Sys2Proof.Machine.execTeamEnd team s
  | .fieldEnd field => Sys2Proof.Machine.execFieldEnd field s
  | .voidWrite id => Sys2Proof.Machine.execVoidWrite id s
  | .faultPost id => Sys2Proof.Machine.execFaultPost id s
  | .faultRetry id => Sys2Proof.Machine.execFaultRetry id s
  | .faultFail id => Sys2Proof.Machine.execFaultFail id s
  | .faultTimeout id => Sys2Proof.Machine.execFaultTimeout id s
  | .shootgoWrite part v => Sys2Proof.Machine.execShootgoWrite part v s
  | .shootdownDone part => Sys2Proof.Machine.execShootdownDone part s
  | .copyAccept core => Sys2Proof.Machine.execCopyAccept core s
  | .copyComplete id peerData => Sys2Proof.Machine.execCopyComplete id peerData s
  | .copyFail id err => Sys2Proof.Machine.execCopyFail id err s
  | .accessComplete op => Sys2Proof.Machine.execAccessComplete op s
  | .uncorrectableMemoryError pa => Sys2Proof.Machine.execUncorrectableMemoryError pa s
  | .scratchEcc team => Sys2Proof.Machine.execScratchEcc team s
  | .kvstSlotWrite id => Sys2Proof.Machine.execKvstSlotWrite id s
  | .kvpubStep id => Sys2Proof.Machine.execKvpubStep id s
  | .poolLend part die pool req offer => Sys2Proof.Machine.execPoolLend part die pool req offer s
  | .poolCtrlWrite part die pool v => Sys2Proof.Machine.execPoolCtrlWrite part die pool v s
  | .poolApply part die pool => Sys2Proof.Machine.execPoolApply part die pool s
  | .saffronEnqueue req => Sys2Proof.Machine.execSaffronEnqueue req s
  | .batchDeadline batch => Sys2Proof.Machine.execBatchDeadline batch s
  | .batchDispatch cg => Sys2Proof.Machine.execBatchDispatch cg s
  | .budgetRefill cg units => Sys2Proof.Machine.execBudgetRefill cg units s
  | .batchComplete batch peerData => Sys2Proof.Machine.execBatchComplete batch peerData s
  | .mldmaskComplete id peerData => Sys2Proof.Machine.execMldmaskComplete id peerData s
  | .waittWake weave gid => Sys2Proof.Machine.execWaittWake weave gid s
  | .nop h => Sys2Proof.Machine.execNop h s
  | .run wait a b => Sys2Proof.Machine.execRun wait a b s
  | .bra h imm => Sys2Proof.Machine.execBra h imm s
  | .call h imm => Sys2Proof.Machine.execCall h imm s
  | .brx h a => Sys2Proof.Machine.execBrx h a s
  | .ret h => Sys2Proof.Machine.execRet h s
  | .exit h => Sys2Proof.Machine.execExit h s
  | .loopBeg h lvl a endOff startOff => Sys2Proof.Machine.execLoopBeg h lvl a endOff startOff s
  | .loopEnd h lvl => Sys2Proof.Machine.execLoopEnd h lvl s
  | .lbrk h lvl => Sys2Proof.Machine.execLbrk h lvl s
  | .waitt h a => Sys2Proof.Machine.execWaitt h a s
  | .kpoint h => Sys2Proof.Machine.execKpoint h s
  | .trap h imm => Sys2Proof.Machine.execTrap h imm s
  | .brk h imm => Sys2Proof.Machine.execBrk h imm s
  | .sreg h num d => Sys2Proof.Machine.execSreg h num d s
  | .swreg h a => Sys2Proof.Machine.execSwreg h a s
  | .spawn h d a b imm inherit => Sys2Proof.Machine.execSpawn h d a b imm inherit s
  | .cscope h flag d a b => Sys2Proof.Machine.execCscope h flag d a b s
  | .cancel h d a => Sys2Proof.Machine.execCancel h d a s
  | .cwait h d a => Sys2Proof.Machine.execCwait h d a s
  | .iadd h f d a b => Sys2Proof.Machine.execIadd h f d a b s
  | .isub h f d a b => Sys2Proof.Machine.execIsub h f d a b s
  | .imul h f d a b => Sys2Proof.Machine.execImul h f d a b s
  | .imulh h f d a b => Sys2Proof.Machine.execImulh h f d a b s
  | .imad h f d a b c => Sys2Proof.Machine.execImad h f d a b c s
  | .imin h f d a b => Sys2Proof.Machine.execImin h f d a b s
  | .imax h f d a b => Sys2Proof.Machine.execImax h f d a b s
  | .iabs h f d a => Sys2Proof.Machine.execIabs h f d a s
  | .and h f d a b => Sys2Proof.Machine.execAnd h f d a b s
  | .or h f d a b => Sys2Proof.Machine.execOr h f d a b s
  | .xor h f d a b => Sys2Proof.Machine.execXor h f d a b s
  | .andn h f d a b => Sys2Proof.Machine.execAndn h f d a b s
  | .shl h f d a b => Sys2Proof.Machine.execShl h f d a b s
  | .shr h f op d a b c => Sys2Proof.Machine.execShr h f op d a b c s
  | .rol h f d a b => Sys2Proof.Machine.execRol h f d a b s
  | .bfe h f d a b => Sys2Proof.Machine.execBfe h f d a b s
  | .bfi h f d a b c => Sys2Proof.Machine.execBfi h f d a b c s
  | .popc h f d a => Sys2Proof.Machine.execPopc h f d a s
  | .clz h f d a => Sys2Proof.Machine.execClz h f d a s
  | .brev h f d a => Sys2Proof.Machine.execBrev h f d a s
  | .bswz h sec_ d a b c => Sys2Proof.Machine.execBswz h sec_ d a b c s
  | .isetp h ty op d a b => Sys2Proof.Machine.execIsetp h ty op d a b s
  | .sel h ty d a b c => Sys2Proof.Machine.execSel h ty d a b c s
  | .plog h op d a b => Sys2Proof.Machine.execPlog h op d a b s
  | .mov h f d a => Sys2Proof.Machine.execMov h f d a s
  | .movi32 h sec_ d imm => Sys2Proof.Machine.execMovi32 h sec_ d imm s
  | .movi64 h sec_ d imm => Sys2Proof.Machine.execMovi64 h sec_ d imm s
  | .lea h sec_ shift d a b => Sys2Proof.Machine.execLea h sec_ shift d a b s
  | .ballot h d a => Sys2Proof.Machine.execBallot h d a s
  | .vote h op d a => Sys2Proof.Machine.execVote h op d a s
  | .shfl h ty op d a b => Sys2Proof.Machine.execShfl h ty op d a b s
  | .iredux h ty op d a => Sys2Proof.Machine.execIredux h ty op d a s
  | .fadd h sec_ fmt d a b => Sys2Proof.Machine.execFadd h sec_ fmt d a b s
  | .fmul h sec_ fmt d a b => Sys2Proof.Machine.execFmul h sec_ fmt d a b s
  | .ffma h sec_ fmt d a b c => Sys2Proof.Machine.execFfma h sec_ fmt d a b c s
  | .fmin h sec_ fmt d a b => Sys2Proof.Machine.execFmin h sec_ fmt d a b s
  | .fmax h sec_ fmt d a b => Sys2Proof.Machine.execFmax h sec_ fmt d a b s
  | .fsetp h fmt op d a b => Sys2Proof.Machine.execFsetp h fmt op d a b s
  | .fcvt h sec_ tgt src mid d a => Sys2Proof.Machine.execFcvt h sec_ tgt src mid d a s
  | .ftoi h sec_ tgt src d a => Sys2Proof.Machine.execFtoi h sec_ tgt src d a s
  | .itof h sec_ tgt src d a => Sys2Proof.Machine.execItof h sec_ tgt src d a s
  | .frcp h sec_ d a => Sys2Proof.Machine.execFrcp h sec_ d a s
  | .frsq h sec_ d a => Sys2Proof.Machine.execFrsq h sec_ d a s
  | .fexp2 h sec_ d a => Sys2Proof.Machine.execFexp2 h sec_ d a s
  | .flog2 h sec_ d a => Sys2Proof.Machine.execFlog2 h sec_ d a s
  | .ftrig h sec_ cos d a => Sys2Proof.Machine.execFtrig h sec_ cos d a s
  | .fargmax h fmt d a => Sys2Proof.Machine.execFargmax h fmt d a s
  | .vdot4 h sec_ fmt d a b c => Sys2Proof.Machine.execVdot4 h sec_ fmt d a b c s
  | .vhad h wide d a => Sys2Proof.Machine.execVhad h wide d a s
  | .fredux h op d a => Sys2Proof.Machine.execFredux h op d a s
  | .fpack h sec_ fmt d a b => Sys2Proof.Machine.execFpack h sec_ fmt d a b s
  | .funpk h sec_ fmt d a => Sys2Proof.Machine.execFunpk h sec_ fmt d a s
  | .fkey h sec_ desc fmt d a => Sys2Proof.Machine.execFkey h sec_ desc fmt d a s
  | .fclass h sec_ fmt d a => Sys2Proof.Machine.execFclass h sec_ fmt d a s
  | .hash64 h sec_ d a b c => Sys2Proof.Machine.execHash64 h sec_ d a b c s
  | .gumb h sec_ d a b c => Sys2Proof.Machine.execGumb h sec_ d a b c s
  | .ld h m d a b imm => Sys2Proof.Machine.execLd h m d a b imm s
  | .st h m a b c imm => Sys2Proof.Machine.execSt h m a b c imm s
  | .atom h m op d a b c imm => Sys2Proof.Machine.execAtom h m op d a b c imm s
  | .red h m op a b c imm => Sys2Proof.Machine.execRed h m op a b c imm s
  | .stf h m a b c imm fk foff => Sys2Proof.Machine.execStf h m a b c imm fk foff s
  | .fence h scope classes => Sys2Proof.Machine.execFence h scope classes s
  | .pfence h scope wpath rpath => Sys2Proof.Machine.execPfence h scope wpath rpath s
  | .vcompst h m a b c imm => Sys2Proof.Machine.execVcompst h m a b c imm s
  | .vexpld h m d a b imm => Sys2Proof.Machine.execVexpld h m d a b imm s
  | .capnew h mode space mask d a b c => Sys2Proof.Machine.execCapnew h mode space mask d a b c s
  | .capget h sel d a => Sys2Proof.Machine.execCapget h sel d a s
  | .capchk h mask d a b c => Sys2Proof.Machine.execCapchk h mask d a b c s
  | .stag h d a => Sys2Proof.Machine.execStag h d a s
  | .stagset h d a b => Sys2Proof.Machine.execStagset h d a b s
  | .staginv h a => Sys2Proof.Machine.execStaginv h a s
  | .copy h f d a b c => Sys2Proof.Machine.execCopy h f d a b c s
  | .copym h f d a b c tmask => Sys2Proof.Machine.execCopym h f d a b c tmask s
  | .copysel h f d a b c => Sys2Proof.Machine.execCopysel h f d a b c s
  | .phinit h bytes a b c => Sys2Proof.Machine.execPhinit h bytes a b c s
  | .pharr h a b c => Sys2Proof.Machine.execPharr h a b c s
  | .phwait h d a b c => Sys2Proof.Machine.execPhwait h d a b c s
  | .phtest h d a b c => Sys2Proof.Machine.execPhtest h d a b c s
  | .bar h d a b => Sys2Proof.Machine.execBar h d a b s
  | .apos h d a b c => Sys2Proof.Machine.execApos h d a b c s
  | .kvst h ksrc vsrc a b c imm => Sys2Proof.Machine.execKvst h ksrc vsrc a b c imm s
  | .kvpub h void scope a b c => Sys2Proof.Machine.execKvpub h void scope a b c s
  | .kvacq h scope d a b => Sys2Proof.Machine.execKvacq h scope d a b s
  | .kvld h v head layer elem d a b c => Sys2Proof.Machine.execKvld h v head layer elem d a b c s
  | .kvfork h scope d a c => Sys2Proof.Machine.execKvfork h scope d a c s
  | .kvrel h d a => Sys2Proof.Machine.execKvrel h d a s
  | .qrot h fmt d a b c => Sys2Proof.Machine.execQrot h fmt d a b c s
  | .kvstat h sel d a b => Sys2Proof.Machine.execKvstat h sel d a b s
  | .mdecl h d a => Sys2Proof.Machine.execMdecl h d a s
  | .msign h attn d b => Sys2Proof.Machine.execMsign h attn d b s
  | .mldmask h d a b => Sys2Proof.Machine.execMldmask h d a b s
  | .mzero h mask => Sys2Proof.Machine.execMzero h mask s
  | .mbudget h a => Sys2Proof.Machine.execMbudget h a s
  | .mstat h sel d a => Sys2Proof.Machine.execMstat h sel d a s
  | .fill => Sys2Proof.Machine.execFill s
  | .ideKm fn => Sys2Proof.Machine.execIdeKm fn s
  | .securedSession up => Sys2Proof.Machine.execSecuredSession up s
  | .kvPathStep id peerData => Sys2Proof.Machine.execKvPathStep id peerData s
  | .scopeTableOperation id => Sys2Proof.Machine.execScopeTableOperation id s

end Sys2Proof.Machine
end

