-- ==== Sys2Proof/Machine/Agenda.lean ====
section
/-! DEFINITION. What one step does: the next item of the agenda, or the machine's own choice where the agenda is
empty, and what follows every step: equal PCs merge (R113). -/

namespace Sys2Proof.Machine

open Sys2Proof

/-! ### Merging (R113) -/

/-- Does a group sleep on a fault; outside a run that is the fetch of its header. -/
def Group.faulted (g : Group) : Bool := match g.sleep with
  | .fault _ => true
  | _ => false

/-- Does a group wait with a trap that it has not taken yet (R255); outside a run that is a trap at its header. -/
def Group.withTrap (g : Group) : Bool := match g.sleep with
  | .handler .. => true
  | _ => false

/-- May a group merge: it stands between runs and is not halted, and sleeps on nothing but the fetch of its header or a trap at it. -/
def Group.mergeable (g : Group) : Bool :=
  g.pos != .inRun && !g.halted && (g.faulted || g.withTrap || (match g.sleep with
    | .awake => true
    | .header _ => true
    | _ => false))

/-- Do two groups stand at one PC where they merge; each of two traps stays with its group. -/
def Group.twins (a b : Group) : Bool := a.mergeable && b.mergeable && a.pc == b.pc && !(a.withTrap && b.withTrap)

/-- The merged group: a trap that one of them waits with is the merged group's; else it is examined afresh at its header, once a fault
of either at its fetch has been served. Open points: DEDUCED, log 21. -/
def Group.join (a b : Group) : Group :=
  let base := if a.withTrap then a else if b.withTrap || b.faulted then b else a
  { base with lanes := a.lanes ||| b.lanes, pos := if b.pos = .arrived then .arrived else a.pos
              sleep := if base.withTrap || base.faulted then base.sleep else .awake, skipped := Nat.max a.skipped b.skipped
              latch := a.latch.or b.latch }

/-- Adds a group to groups of which no two are twins. -/
def mergeInto (g : Group) : List Group → List Group
  | [] => [g]
  | h :: r => if h.twins g then h.join g :: r else h :: mergeInto g r

/-- Merges the groups of a weave. -/
def mergeGroups (gs : List Group) : List Group := gs.foldl (fun acc g => mergeInto g acc) []

/-- Is nobody there for the answer of a request that an engine has made. -/
def State.ownerGone (s : State) : Owner → Bool
  | .group w g => match (s.weave w).bind fun x => x.group g with
    | some x => x.latch.isNone
    | none => true
  | .copy c => (Tbl.find s.copies c).isNone
  | .kv k => (Tbl.find s.kvOps k).isNone
  | .mx q => (Tbl.find s.mxReqs q).isNone
  | .batch b => (Tbl.find s.batches b).isNone
  | .maskLoad m => (Tbl.find s.maskLoads m).isNone
  | .void v => (Tbl.find s.voids v).isNone
  | _ => false

/-- Answers that nobody waits for are discarded. -/
def State.dropAnswers (s : State) : State := { s with legs := keep s.legs fun _ l => l.answer.isNone || !s.ownerGone l.owner }

/-- A group that waits with a trap and has merged with threads in their handler: the trap is a double one (R258).
Open points: DEDUCED, log 21. -/
def State.lateTraps (s : State) : State :=
  s.weaves.foldl (fun (s : State) (wid, w) => w.groups.foldl (fun (s : State) g =>
    match g.sleep with
    | .handler a n b t => if w.anyTrap g.lanes then s.takeTrap wid g.gid a n b t else s
    | _ => s) s) s

/-- What every step brings about with it: the device's held writes are made as memory lets them (R14), registers whose last thread has ended are submitted (R219), due ends happen
(R91, R257, R262), phase dependences and the ends of fields are noticed (R72, R73, R94), ended cohorts of which nothing is left
are gone, and dies wake that have a cause (R21). Open points: DESIGN CHOICE, log 11, 17 and 51. -/
def State.housekeep (s : State) : State :=
  [0, 1, 2, 3].foldl State.tendDie s.devFlush.lateTraps.submitEnded.sweep.noticePhases.noticeEnds.reapAll.dropAnswers

/-- Is a group held at its header, by what was no issue (R108). -/
def State.heldNow (s : State) (c : Cur) : Bool :=
  match (s.weave c.weave).bind fun w => w.group c.gid with
  | some g => (match g.sleep with
    | .header _ => true
    | _ => false)
  | none => false

/-- The issues of the present cycle, that of this step with them (R114). -/
def State.issued (s : State) : List (Nat × Nat × W64) :=
  let now := s.last.filter fun x => x.2.1 == s.clock
  match s.cur with
  | some c => if s.heldNow c then now else (c.weave, s.clock, c.addr) :: now
  | none => now

/-- After every step no instruction is at issue, the cycle's issues are on record (R114), and every weave's twins have merged.
Open points: DESIGN CHOICE, log 1. -/
def State.settle (s : State) : State :=
  let s := s.housekeep
  { s with cur := none
           last := s.issued
           weaves := mapT s.weaves fun _ w => { w with groups := mergeGroups w.groups } }

/-! ### Items -/

/-- The cycles of CLOCK that pass before an item. Open points: DESIGN CHOICE, log 63. -/
def Item.dt : Item → Nat
  | .issue _ _ d | .event _ d | .send _ d | .perform _ _ d | .tear _ _ _ d | .copyRead _ _ d | .copyWrite _ _ d | .phase _ d
  | .stage _ _ _ d | .kvRead _ _ d | .mxRead _ _ d | .mxSlot _ _ d | .evictTlb _ _ _ d | .fillTlb _ _ _ d | .stageCode _ _ d
  | .dropCode _ _ d | .act _ d => d

/-- Issues what stands at a group's PC, if the group may issue. -/
def State.issueGroup (s : State) (wid gid : Nat) : Host.Outcome State Fault Refusal :=
  match s.env wid with
  | none => .next s
  | some e =>
    match e.w.group gid with
    | none => .next s
    | some g =>
      if s.mayIssue e g then
        match s.fetch e g with
        | .word i c => exec i { s with cur := some c }
        | .trap a t => .next (s.takeTrap wid gid a 0 false t)
        | .lost => .next (s.handlerLost wid gid)
        | .fault lva => .next (s.sleepOnFault e gid lva 3 none none)
        | .held => .next s
        | .away peer lva => .next (s.askCode e peer lva)
        | .peer a p .absent =>
          .next ((s.emit (.peerAbsent e.part (BitVec.ofNat 9 p) e.t.core)).takeTrap wid gid a 0 false (.plain .peerAbsent p))
        | .peer a p .down => .next (s.takeTrap wid gid a 0 false (.plain .peerDown p))
      else .next s

/-- Is a location one of the module that is translated. -/
def Loc.isHere : Loc → Bool
  | .mem _ | .spad _ _ | .acc _ _ => true
  | _ => false

/-- May a path stage the granule of a location now: memory that can be read, on the LS path while a load of the core
reads there (R133, R160). -/
def State.mayStage (s : State) (core : Nat) (path : Path) (l : Loc) : Bool :=
  l.isHere && s.locReady l && (path != .ls || s.lsOps.any fun e =>
    e.2.kind == .ld && e.2.ident.coreNum == core && e.2.accs.any fun a => a.loc.granule == l.granule)

/-- Memory with the bytes of the recovery mailbox written from an offset on (R19: 64 MiB).
Open points: DESIGN CHOICE, log 52. -/
def mailboxWrite (box : List (BitVec 8)) (off : Nat) (bs : List (BitVec 8)) : List (BitVec 8) :=
  if off + bs.length > 2 ^ 26 then box
  else
    let b := box ++ List.replicate (off - box.length) 0
    b.take off ++ bs ++ b.drop (off + bs.length)

/-- A write of APBASE: 4 GiB aligned, [63:55] zero (R64). Open points: DEDUCED, log 50; DESIGN CHOICE, log 52. -/
def State.setApbase (s : State) (part : Nat) (v : W64) : State :=
  if part < 16 ∧ !s.hd.recovery then s.setPart part { s.part part with apbase := v &&& 0x007FFFFF00000000#64 } else s

/-- The capacity that a CXL port presents, at most 8 TiB over all ports (R52); none while a port is up.
Open points: DESIGN CHOICE, log 5 and 52. -/
def State.presentCxl (s : State) (port gib : Nat) : State :=
  let others := ((s.hd.cxlGiB.filter fun e => e.1 != port).map (·.2)).foldl (· + ·) 0
  if port ≥ 8 ∨ others + gib > 8192 ∨ (List.range 8).any fun n => s.ready (cxlrdy n) then s
  else { s with hd := { s.hd with cxlGiB := Tbl.set s.hd.cxlGiB 0 port gib } }

/-- May a core fetch a block of code early: memory that can be read, in a window of a partition that has a team there (R105).
Open points: DESIGN CHOICE, log 69. -/
def State.mayStageCode (s : State) (core : Nat) (l : Loc) : Bool :=
  match l with
  | .mem pa => pa % 32 == 0 && s.memSt pa == .ready && !s.eccBad pa && s.teams.any fun e =>
      e.2.core == core && (match (s.cohort e.2.cohort).bind fun c => s.field c.field with
        | some f => (s.part f.part).holds pa 32
        | none => false)
  | _ => false

/-- A core fetches a block of code; it holds each block once. -/
def State.stageCode (s : State) (core : Nat) (l : Loc) : State :=
  if s.mayStageCode core l then
    { s with icache := { core := core, loc := l, data := s.locBytes l 32 } :: s.icache.filter fun x => !(x.core == core && x.loc == l) }
  else s

/-- Another module's peer table lists a partition as VALID, or no longer (R447). Open points: PRESUMED, log 8. -/
def State.foreignEntry (s : State) (e : Nat × Nat × Nat × Nat) (valid : Bool) : State :=
  let l := s.hd.foreign.filter (· != e)
  { s with hd := { s.hd with foreign := if valid then e :: l else l } }

/-- An act of the outside. -/
def doAct (a : Act) (s : State) : State :=
  match a with
  | .mailbox off bs => { s with hd := { s.hd with mailbox := mailboxWrite s.hd.mailbox off bs } }
  | .apbase p v => s.setApbase p v
  | .cxlPresent port gib => s.presentCxl port gib
  | .linkSession n part dir => s.linkUp n part dir
  | .functionFails bit => s.functionFails bit
  | .path port phys up => s.setPath port phys up
  | .pfRead o => s.pfRead o
  | .vfRead vf o => s.vfRead vf o
  | .iommuMap page pa => s.iommuMap page pa
  | .rpAccess port addr write len data => s.rpAccess port addr write len data
  | .certificate => s.certificate
  | .challenge nonce => s.challenge nonce
  | .correctable pa => s.correctable pa
  | .foreignEntry e valid => s.foreignEntry e valid

/-- One item that is no instruction and no row of the opcode table. -/
def moveItem (it : Item) (s : State) : State :=
  match it with
  | .issue .. | .event .. => s
  | .send o _ => s.sendOtt o
  | .perform o i _ => (s.tryAcc o i).finishIfDone o
  | .tear o i j _ => s.tearAcc o i j
  | .copyRead c i _ => s.copyReadNow c i
  | .copyWrite c i _ => s.copyWriteNow c i
  | .phase o _ => s.phStep o
  | .stage core path l _ => if s.mayStage core path l then s.stageNow core path l else s
  | .kvRead o slot _ => s.kvReadNow o slot
  | .mxRead b l _ => s.mxReadNow b l
  | .mxSlot b slot _ => s.mxSlotNow b slot
  | .evictTlb d p lva _ => { s with tlb := s.tlb.filter fun e => !(e.die == d && e.part == p && e.lva == lva) }
  | .fillTlb d p lva _ => s.fillTlb d p lva
  | .stageCode core l _ => s.stageCode core l
  | .dropCode core l _ => { s with icache := s.icache.filter fun x => !(x.core == core && x.loc == l) }
  | .act a _ => doAct a s

/-- One item. Open points: DESIGN CHOICE, log 1. -/
def runItem (it : Item) (s : State) : Host.Outcome State Fault Refusal :=
  match it with
  | .issue w g _ => s.issueGroup w g
  | .event e _ => if e.isEvent then exec e s else .next s
  | it => .next (moveItem it s)

/-! ### What the machine does by itself -/

/-- Every group that may issue. Open points: DESIGN CHOICE, log 53. -/
def State.issuable (s : State) : List Item :=
  s.weaves.flatMap fun (wid, _) =>
    match s.env wid with
    | none => []
    | some e => (e.w.groups.filter fun g => s.mayIssue e g).map fun g => .issue wid g.gid 1

/-- An event of the machine's own, a cycle later. -/
def ev (i : Instr) : Item := .event i 1

/-- Steps of the groups that wait, halt or stall. Open points: DESIGN CHOICE, log 53. -/
def State.groupWork (s : State) : List Item :=
  s.weaves.flatMap fun (wid, w) => ev (.weaveSlotRelease wid) :: w.groups.flatMap fun g =>
    match g.sleep with
    | .stall => [ev (.weaveHalt wid g.gid), ev (.stallResume wid g.gid)]
    | .clock _ _ => [ev (.weaveHalt wid g.gid), ev (.waittWake wid g.gid)]
    | _ => [ev (.weaveHalt wid g.gid)]

/-- Steps of operations in flight. Open points: DESIGN CHOICE, log 53. -/
def State.opWork (s : State) : List Item :=
  (Tbl.keys s.ott).map (fun o => .send o 1)
    ++ (keysOf s.ott fun _ o => o.sent && s.overtime o.heard).map (fun o => ev (.remoteRequestTimeout o))
    ++ (keysOf s.legs fun _ l => l.answer.isNone && s.overtime l.heard).map (fun l => ev (.remoteRequestTimeout l))
    ++ (keysOf s.inbound fun _ q => s.clock > q.since + Config.us).map (fun q => ev (.holdNoticeSend q))
    ++ (Tbl.keys s.lsOps).map (fun o => ev (.accessComplete o))
    ++ (Tbl.keys s.phOps).map (fun o => .phase o 1)
    ++ s.copies.flatMap (fun (id, c) => [ev (.copyAccept c.core), ev (.copyComplete id ()), ev (.copyFail id (match s.legError (.copy id) with
        | some peer => .remote peer
        | none => .page false))])
    ++ s.kvOps.map (fun (id, o) => ev (if o.kind.isSt then .kvstSlotWrite id else if o.kind.isPub then .kvpubStep id
        else .kvPathStep id ()))
    ++ (Tbl.keys s.voids).map (fun v => ev (.voidWrite v))
    ++ (Tbl.keys s.scopeOps).map (fun o => ev (.scopeTableOperation o))
    ++ s.cancels.map (fun (_, c) => ev (.cancelDrained c.part c.top))
    ++ (Tbl.keys s.maskLoads).map (fun m => ev (.mldmaskComplete m ()))

/-- Steps of the matrix engine. Open points: DESIGN CHOICE, log 53. -/
def State.mxWork (s : State) : List Item :=
  (Tbl.keys s.mxReqs).map (fun q => ev (.saffronEnqueue q))
    ++ s.batches.flatMap fun (id, b) => [ev (.batchDeadline id), ev (.batchDispatch b.cg), ev (.batchComplete id ())]

/-- Steps of the scheduler, the fault service and the host die. Open points: DESIGN CHOICE, log 53. -/
def State.partWork (s : State) : List Item :=
  (Tbl.keys s.parts).flatMap (fun p => [ev (.queueRecordTake p), ev (.cohortPlacement p []), ev (.preempt p),
      ev (.coreGroupsFreed p), ev (.lockScrubDone p), ev (.shootdownDone p)])
    ++ (Tbl.keys s.records).map (fun r => ev (.dependenceMet r))
    ++ (Tbl.keys s.cohorts).flatMap (fun c => [ev (.cohortQuiesced c), ev (.saveComplete c)])
    ++ (Tbl.keys s.teams).map (fun t => ev (.teamEnd t)) ++ (Tbl.keys s.fields).map (fun f => ev (.fieldEnd f))
    ++ (Tbl.keys s.faults).flatMap (fun f => [ev (.faultPost f), ev (.faultTimeout f)])
    ++ (s.pools.filter fun e => e.2.asking && e.2.lendPeer.isNone).map (fun e =>
        ev (.poolLend (e.1 / 64) (e.1 / 16 % 4) (e.1 % 16) none []))
    ++ s.dies.flatMap fun (d, x) => if x.exiting.isSome then [ev (.dieExitComplete d)] else []

/-- Functions that have not reported ready by their limit report failure (R15). -/
def State.lateWork (s : State) : List Item :=
  ((List.range 64).filter fun b => !s.reported b && !s.failedBit b && (match readyLimit b with
    | some l => s.clock ≥ s.hd.resetAt + l
    | none => false)).map fun b => ev (.readyLimitExpiry b)

/-- What software has written and the device has to take up: STATE of a posted fault, SHOOTGO, GO of a pool (R137, R138,
R187). Open points: DESIGN CHOICE, log 53. -/
def State.writtenWork (s : State) : List Item :=
  s.faults.filterMap (fun (id, f) => match f.st with
    | .posted i => if s.slotState f.part i = 2 then some (ev (.faultRetry id))
        else if s.slotState f.part i = 3 then some (ev (.faultFail id)) else none
    | .waiting => none)
  ++ (s.parts.filter fun e => e.2.tdi == .run).flatMap fun (p, _) =>
    (if s.directNum p 0x208 8 ≥ 2 ^ 63 then [ev (.shootgoWrite p (w64 (s.directNum p 0x208 8)))] else [])
      ++ ((List.range 64).filter fun k => s.directNum p (poolOff k) 8 ≥ 2 ^ 63).map fun k => ev (.poolApply p (k / 16) (k % 16))

/-- What the machine may do by itself where the agenda is empty: all of it has its turn as CLOCK goes on.
Open points: DESIGN CHOICE, log 53. -/
def State.ownItem (s : State) : Option Item :=
  let l := s.issuable ++ s.groupWork ++ s.opWork ++ s.mxWork ++ s.partWork ++ s.writtenWork ++ s.lateWork
  l[s.clock % Nat.max 1 l.length]?

/-- The next item and the agenda after it. Open points: DESIGN CHOICE, log 1. -/
def State.nextItem (s : State) : Option Item × List Item :=
  match s.agenda with
  | it :: r => (some it, r)
  | [] => (s.ownItem, [])

/-- What follows an item's outcome. -/
def settled : Host.Outcome State Fault Refusal → Host.Outcome State Fault Refusal
  | .next s => .next s.settle
  | .fault f => .fault f
  | .refused r => .refused r

/-- One step: CLOCK advances, the item happens, equal PCs merge. With nothing to do, one cycle passes.
Open points: DESIGN CHOICE, log 1 and 63. -/
def State.advanceOne (s : State) : Host.Outcome State Fault Refusal :=
  match s.nextItem with
  | (some it, rest) => settled (runItem it { s with agenda := rest, clock := s.clock + it.dt, cur := none })
  | (none, _) => .next { s with clock := s.clock + 1, cur := none }.settle

/-! ### A machine that runs one given instruction next -/

/-- Where `withFetchWord` puts its code: a direct address of window 0 (R134). -/
def probeBase : Nat := 2 ^ 54 + 0x100000

/-- A launch record of one cohort of one team of 32 threads with code at `probeBase`.
Open points: DESIGN CHOICE, log 7. -/
def probeRec : LaunchRec where
  code := mkCap probeBase 4096 1 0
  param := nullCap
  trap := nullCap
  dep := nullCap
  cohorts := 1
  stages := 1
  teams := 1
  threads := 32
  vregs := 255
  spadKib := 64
  accBlk := 4
  prio := 0
  scope := 0
  depVal := 0
  argPtr := 0
  flags := 0

/-- A partition in RUN at a module with one window of 1 GiB at physical address 0 and its own peer entry alone.
Open points: DESIGN CHOICE, log 7. -/
def probePart (phys : Nat) : Partition :=
  { Partition.initial with tdi := .run, cgmask := 1, msixn := 1, win := [(0, 0x8000000001000000)], key := some 1,
                           peers := [(0, w64 (2 ^ 63 + phys % 512))], scopes := [(0, ScopeEnt.root)] }

/-- The state with the field, cohort, team, weave and group of `probeRec` in place, and bytes of code: the group stands
inside a run whose slots are cf0 and cf1, or between runs where the code is a RUN header.
Open points: DESIGN CHOICE, log 7. -/
def State.placeProbe (s : State) (header : Bool) (code : List (BitVec 8)) : State :=
  let id := s.nextId
  let fld : Field := { part := 0, number := 1, lr := probeRec, src := .spawn, scope := 0, args := [], seq := 0, left := 1,
                       redone := [], failed := false, lastBy := none, ended := false }
  let coh : Cohort := { field := id, index := 0, inst := 1, cg := 0, st := .resident, placedAt := s.clock, phases := [],
                        held := [], lost := false }
  let tm : Team := { cohort := id + 1, num := 0, core := 0, place := 0, spad := [], spadTags := [], stag := [], acc := [],
                     cv := [], deadline := 0, unitcap := 0, charged := 0, charges := [], killed := false,
                     ending := false, ended := false }
  let run : Run := { hdr := w64 (probeBase - 8), slotA := some 0, slotB := some 1, count := 0, vl := [] }
  let g : Group := { gid := id + 4, lanes := BitVec.allOnes 32, pc := w64 probeBase, pos := if header then .between else .inRun,
                     run := if header then Run.none_ else run, progress := 0, sleep := .awake, halted := false, skipped := 0, port := true, latch := none }
  let wv : Weave := { team := id + 2, idx := 0, slot := 0, age := id + 3, live := BitVec.allOnes 32, s := [], k := [],
                      cf := [], v := [], p := [], wstat := 0, trapinfo := 0, frames := [], loops := [], marks := [],
                      errs := [], groups := [g], killed := false, dead := 0 }
  { s with
    parts := Tbl.put s.parts 0 (probePart s.physNum)
    hd := { s.hd with readyStatus := 0xFFFFFFFFFFFFFFFF, readyFail := 0, fatal := false }
    dies := Tbl.del s.dies 0
    bad := s.bad.filter fun g => g != 0x100000 / 64
    icache := s.icache.filter fun x => x.core != 0
    keyed := { base := 0, len := Config.gib, key := 1 } :: s.keyed
    last := []
    mem := Memory.writes s.mem 0x100000 code
    fields := Tbl.put s.fields id fld
    cohorts := Tbl.put s.cohorts (id + 1) coh
    teams := Tbl.put s.teams (id + 2) tm
    weaves := Tbl.put s.weaves (id + 3) wv
    nextId := id + 5
    agenda := [.issue (id + 3) (id + 4) 1] }

end Sys2Proof.Machine
end

