-- ==== Sys2Proof/Machine/Step.lean ====
section
/-! DEFINITION. One step of the machine, and a state that runs a given instruction next. -/

namespace Sys2Proof.Machine

open Sys2Proof

/-- One step: the next item of the agenda, or the machine's own choice. Open points: DESIGN CHOICE, log 1. -/
def step (s : State) : Host.Outcome State Fault Refusal := s.advanceOne

/-- `s` with the instruction of the table word placed where the next step fetches: a field, cohort, team and weave
inside a run at that address (between runs, for a RUN header), issued by the one item of the agenda.
Open points: DESIGN CHOICE, log 7. -/
def State.withFetchWord (s : State) (nbits w : Nat) : State :=
  let x := BitVec.ofNat 128 (w % 2 ^ nbits)
  s.placeProbe (isHeader (lowW x)) (groupMem x)

end Sys2Proof.Machine
end

