-- ==== Sys2Proof/Safety.lean ====
section
/-! DEFINITION. What counts as a safe run, and the terms that claims use: an instruction at issue, and what it leaves
unchanged. -/

namespace Sys2Proof.Machine

open Sys2Proof

/-- Does a step answer a next state. -/
def Steps (s : State) : Prop := ∃ t, step s = .next t

/-- `g` is the FP32 nearest to −ln(−ln u) (R247), u = (v + 0.5) × 2^−24 for the top 24 bits v of the hash `h`: the FP32
nearest to a value with 401 fraction bits that stands within 2^−300 of that real number (log 6). -/
def GumbelIs (h : W64) (g : W32) : Prop :=
  ∃ q : Int, |(q : ℝ) / 2 ^ 401 - -Real.log (-Real.log (((h >>> 40).toNat + 1 / 2) / 2 ^ 24))| ≤ 1 / 2 ^ 300
    ∧ g = BitVec.ofNat 32 (packFp .fp32 (.fin (decide (q < 0)) q.natAbs (-401)) .rne false).1

/-- Every step from `s`, up to `n` of them, answers a next state. -/
def Safe : Nat → State → Prop
  | 0, _ => True
  | n + 1, s => ∃ t, step s = .next t ∧ Safe n t

/-- No two groups of a weave stand where R113 merges them. -/
def Weave.Merged (w : Weave) : Prop := w.groups.Pairwise fun a b => a.twins b = false

/-- The merging invariant: no instruction is at issue, and no weave has groups to merge. -/
def State.Settled (s : State) : Prop := s.cur = none ∧ ∀ e ∈ s.weaves, e.2.Merged

/-! ### An instruction at issue -/

/-- The surroundings in which a program instruction issues: its weave and group are there, and its active threads are
those of the group whose guard is true (R110, R288). -/
def State.ctx (s : State) (i : Instr) : Option Ctx :=
  match s.issuer, hdOf i with
  | some (c, e, g), some h => some { s := s, e := e, g := g, c := c, h := h, act := e.w.active g.lanes h.pg }
  | _, _ => none

/-- The instruction is at issue in `s`, and none of the checks of R300 steps 2 to 4 traps; a VCOMPST that goes on with the
elements that it has begun is past them (R438). -/
def State.Issues (s : State) (i : Instr) (x : Ctx) : Prop :=
  s.ctx i = some x ∧ (s.continues x.c i = true ∨ preTrap x.e x.g x.h i = none)

/-- What a register-only instruction leaves unchanged: all of the state but its weave; in the weave, every register
but those that the four lists name, every lane that is not active, and everything that is no register but the issuing
group's position and the sticky bits of WSTAT that `sticky` names. `w` is the weave afterwards. -/
structure Ctx.Only (x : Ctx) (i : Instr) (t : State) (w : Weave) (v s p k : List Nat) (sticky : List Nat) : Prop where
  rest : t = { x.s with weaves := t.weaves }
  memory : ∀ a, Memory.get t.mem a = Memory.get x.s.mem a
  others : ∀ n, n ≠ x.c.weave → t.weave n = x.s.weave n
  here : t.weave x.c.weave = some w
  keepV : ∀ n l, l < 32 → (n ∉ v ∨ x.act.has l = false) → w.getV n l = x.w.getV n l
  keepS : ∀ n, n ∉ s → w.getS n = x.w.getS n
  keepP : ∀ n l, l < 32 → (n ∉ p ∨ x.act.has l = false) → w.getP n l = x.w.getP n l
  keepK : ∀ n, n ∉ k → w.getK n = x.w.getK n
  flags : ∀ n, w.getCf n = x.w.getCf n
  status : ∀ b, b ∉ sticky → w.wstat.getLsbD b = x.w.wstat.getLsbD b
  trapinfo : w.trapinfo = x.w.trapinfo
  frames : w.frames = x.w.frames
  loops : w.loops = x.w.loops
  marks : w.marks = x.w.marks
  errs : w.errs = x.w.errs
  names : w.team = x.w.team ∧ w.idx = x.w.idx ∧ w.slot = x.w.slot ∧ w.age = x.w.age ∧ w.live = x.w.live
    ∧ w.killed = x.w.killed ∧ w.dead = x.w.dead
  groups : w.groups = x.w.groups.map fun g => if g.gid == x.c.gid then g.advance x.c x.h.bnd (lateRegs i) else g

/-- The v registers of a 32-bit or 64-bit destination; v255 is none (R116, R117). -/
def destV (wide : Bool) (d : Nat) : List Nat := if d = 255 then [] else if wide then [d, d + 1] else [d]

/-- The instruction, wherever it is at issue and no check of R300 traps, answers a next state that differs as `Only`
says, and in which the weave satisfies `P`. -/
def Completes (i : Instr) (v s p k sticky : List Nat) (P : Ctx → Weave → Prop) : Prop :=
  ∀ (st : State) (x : Ctx), st.Issues i x → ∃ t w, exec i st = .next t ∧ x.Only i t w v s p k sticky ∧ P x w

/-- Destinations of an integer form (R335, R336). -/
def destIntV (f : IntF) (d : Nat) : List Nat := if f.s then [] else destV (Ty.wide f.ty) d

def destIntS (f : IntF) (d : Nat) : List Nat := if f.s then [d] else []

/-- The result of an integer form (R335–R337): each active thread's register or pair; or the s register, where 32 bits
are sign- or zero-extended by TY. A write of v255 is discarded. -/
def Ctx.IntResult (x : Ctx) (f : IntF) (d : Nat) (w : Weave) (f32 : Nat → W32) (f64 : Nat → W64) : Prop :=
  (f.s = false → Ty.wide f.ty = false → d ≠ 255 → ∀ l, l < 32 → x.act.has l = true → w.getV d l = f32 l)
  ∧ (f.s = false → Ty.wide f.ty = true → d ≠ 255 → ∀ l, l < 32 → x.act.has l = true → w.getV64 d l = f64 l)
  ∧ (f.s = true → w.getS d = if x.act = 0 then x.w.getS d else if Ty.wide f.ty then f64 0
      else if f.ty.signed then (f32 0).signExtend 64 else (f32 0).setWidth 64)

/-- An integer instruction whose result is the same function of its "w" sources at 32 and at 64 bits. -/
def IntDoes (i : Instr) (f : IntF) (d : Nat) (f32 : Ctx → Nat → W32) (f64 : Ctx → Nat → W64) : Prop :=
  Completes i (destIntV f d) (destIntS f d) [] [] [] fun x w => x.IntResult f d w (f32 x) (f64 x)

/-- The result of a form with a 32-bit destination (R335: "32"): zero-extended in an s register. -/
def Ctx.Result32 (x : Ctx) (sc : Bool) (d : Nat) (w : Weave) (r : Nat → W32) : Prop :=
  (sc = false → d ≠ 255 → ∀ l, l < 32 → x.act.has l = true → w.getV d l = r l)
  ∧ (sc = true → w.getS d = if x.act = 0 then x.w.getS d else (r 0).setWidth 64)

/-- An instruction with such a destination. -/
def Does32 (i : Instr) (sc : Bool) (d : Nat) (sticky : List Nat) (r : Ctx → Nat → W32) : Prop :=
  Completes i (if sc then [] else destV false d) (if sc then [d] else []) [] [] sticky fun x w =>
    x.Result32 sc d w (r x)

/-- The result of a form with a 64-bit destination (R335: "pair"). -/
def Does64 (i : Instr) (sc : Bool) (d : Nat) (r : Ctx → Nat → W64) : Prop :=
  Completes i (if sc then [] else destV true d) (if sc then [d] else []) [] [] [] fun x w =>
    (sc = false → d ≠ 255 → ∀ l, l < 32 → x.act.has l = true → w.getV64 d l = r x l)
    ∧ (sc = true → w.getS d = if x.act = 0 then x.w.getS d else r x 0)

/-- A predicate result (R342–R344, R349); a write of p7 is discarded. -/
def DoesP (i : Instr) (d : Nat) (r : Ctx → Nat → Bool) : Prop :=
  Completes i [] [] (if d = 7 then [] else [d]) [] [] fun x w =>
    d ≠ 7 → ∀ l, l < 32 → x.act.has l = true → w.getP d l = r x l

/-- One s register, written whether or not a thread is active (R348, R351, R391, R392). -/
def DoesS (i : Instr) (d : Nat) (r : Ctx → W64) : Prop :=
  Completes i [] [d] [] [] [] fun x w => w.getS d = r x

/-- A sticky bit of WSTAT is set when some computing thread reports it, and else stays (R120, R205). -/
def Ctx.Sets (x : Ctx) (w : Weave) (bit : Nat) (sc : Bool) (p : Nat → Bool) : Prop :=
  w.wstat.getLsbD bit = (x.w.wstat.getLsbD bit || (if sc then p 0 else (List.range 32).any fun l => x.act.has l && p l))

/-- An instruction with a "32" destination that rounds or converts: its value, and the sticky bits it reports. -/
def DoesFp (i : Instr) (sc : Bool) (d : Nat) (bits : List Nat) (r : Ctx → Nat → W32 × Fl) : Prop :=
  Completes i (if sc then [] else destV false d) (if sc then [d] else []) [] [] bits fun x w =>
    x.Result32 sc d w (fun l => (r x l).1)
    ∧ (wsSat ∈ bits → x.Sets w wsSat sc fun l => (r x l).2.sat)
    ∧ (wsInexact ∈ bits → x.Sets w wsInexact sc fun l => (r x l).2.inexact)

/-- A value as a rational number. -/
def Val.rat : Val → Rat
  | .fin s m e => (if s then -1 else 1) * (m : Rat) * 2 ^ e
  | _ => 0

/-- Is a value a number. -/
def Val.isFin : Val → Bool
  | .fin _ _ _ => true
  | _ => false

/-- The floating-point formats (R199 Table 2). -/
def Fmt.isFp : Fmt → Bool
  | .fp32 | .bf16 | .fp16 | .e4m3 | .e5m2 => true
  | _ => false

/-- An arithmetic result (R355): the exact value rounded once; of the sticky bits, SAT alone. -/
def Ctx.rounded (x : Ctx) (fm : Fmt) (v : Val) : W32 × Fl :=
  let r := packFp fm v x.c.rnd x.c.sat
  (BitVec.ofNat 32 r.1, { r.2 with inexact := false })

/-- A rational rounded to an integer in a mode (R204 Table 4). -/
def roundInt (mode : Rnd) (q : Rat) : Int :=
  let f := q.floor
  let r := q - f
  if r = 0 then f
  else
    match mode with
    | .rne => if r < 1 / 2 then f else if 1 / 2 < r then f + 1 else if f % 2 = 0 then f else f + 1
    | .rz => if 0 ≤ q then f else f + 1
    | .ru => f + 1
    | .rd => f
    | .ro => if f % 2 = 0 then f + 1 else f
    | .rna => if r < 1 / 2 then f else if 1 / 2 < r then f + 1 else if 0 ≤ q then f + 1 else f

/-- The distance of the representable values of a format around `m × 2^e`, with no upper bound of the exponent
(R199, R204). -/
def ulpOf (fm : Fmt) (m : Nat) (e : Int) : Rat :=
  2 ^ max (e + bitLen m - (fm.shape.2.1 + 1)) (1 - fm.shape.2.2 - fm.shape.2.1)

/-- `m × 2^e` rounded to the precision of a format. -/
def roundedRat (fm : Fmt) (mode : Rnd) (s : Bool) (m : Nat) (e : Int) : Rat :=
  ulpOf fm m e * roundInt mode (Val.rat (.fin s m e) / ulpOf fm m e)

/-- A node of the tree of FREDUX: level `k`, index `i`; the flag says whether a combination under it saturated (R369). -/
def treeNode (comb : W32 → W32 → W32 × Bool) (leaf : Nat → Option W32) : Nat → Nat → Option W32 × Bool
  | 0, i => (leaf i, false)
  | k + 1, i =>
    match treeNode comb leaf k (2 * i), treeNode comb leaf k (2 * i + 1) with
    | (some u, f), (some v, g) => (some (comb u v).1, f || g || (comb u v).2)
    | (none, f), (q, g) => (q, f || g)
    | (p, f), (none, g) => (p, f || g)

/-- The value of lane `l` after `k` stages of VHAD; `add` and `sub` round (R370). -/
def hadLane (add sub : W32 → W32 → W32) (leaf : Nat → W32) : Nat → Nat → W32
  | 0, l => leaf l
  | k + 1, l =>
    if l / 2 ^ k % 2 = 0 then add (hadLane add sub leaf k l) (hadLane add sub leaf k (l + 2 ^ k))
    else sub (hadLane add sub leaf k (l - 2 ^ k)) (hadLane add sub leaf k l)

/-- The exponent of a code's significand, as R213 takes it: that of the smallest normal number for a subnormal one. -/
def sigExp (fm : Fmt) (c : Nat) : Int :=
  if fm = .e5f2 then -((c % 128 / 4 : Nat) : Int)
  else (max 1 (c / 2 ^ fm.shape.2.1 % 2 ^ fm.shape.1) : Nat) - fm.shape.2.2

/-- The value of a chunk with finite products `qs`, each with its exponent (R212–R214): the magnitudes are cut below
2^(X − bits), X the largest exponent of a nonzero product, then added exactly, scaled by 2^k and promoted once. -/
structure ChunkSum (qs : List (Rat × Int)) (bits k : Int) (r : W32) : Prop where
  zero : (∀ q ∈ qs, q.1 = 0) → r = 0
  sum : ∀ X, (∃ q ∈ qs, q.1 ≠ 0 ∧ q.2 = X) → (∀ q ∈ qs, q.1 ≠ 0 → q.2 ≤ X) →
    let t (q : Rat × Int) : Int := (|q.1| * 2 ^ (bits - X)).floor
    let S : Int := (qs.map fun q => if q.1 < 0 then -t q else t q).sum
    ∃ m e, Val.rat (.fin (decide (S < 0)) m e) = S * 2 ^ (X - bits + k)
      ∧ r = BitVec.ofNat 32 (packFp .fp32 (.fin (decide (S < 0)) m e) .rne false).1

/-! ### LS instructions (R374–R378) -/

/-- What steps 1 to 4 of R126, and R129, ask of one element. -/
def Ctx.Passes (x : Ctx) (u : Use) (a size : Nat) (addr : Int) : Prop :=
  let c := x.w.getK a
  c.tag = true ∧ c.space ∈ u.spaces ∧ (c.space = 4 → size = 4 ∨ size = 8) ∧ c.perm &&& u.perm = u.perm
    ∧ (c.base : Int) ≤ addr ∧ addr + size ≤ (c.base : Int) + c.len ∧ addr + size ≤ 2 ^ 64
    ∧ (c.space ≠ 0 → relativeOk x.e c addr.toNat size = true)

/-- R375: natural alignment, or the bytes in one granule. -/
def Ctx.Aligned (x : Ctx) (u : Use) (a size : Nat) (addr : Int) : Prop :=
  if u.nat = true ∨ (x.w.getK a).space = 4 ∨ x.remote (x.w.getK a) addr = true then addr.toNat % size = 0
  else addr.toNat / 64 = (addr.toNat + size - 1) / 64

/-- R32: an element of global memory names a peer that is present and can be reached. -/
def Ctx.Reaches (x : Ctx) (a : Nat) (addr : Int) : Prop :=
  (x.w.getK a).space = 0 → x.s.peerCheck x.e (addr.toNat / 2 ^ 55) = none

/-- What an LS instruction of the ordinary forms requires of its capability (R379–R384): the use, its MEM fields, the
capability register, the offset register and the immediate. -/
def lsForm : Instr → Option (Use × MemF × Nat × Nat × W32)
  | .ld _ m _ a b imm =>
    some ({ spaces := [0, 1, 2, 4], perm := 1, kind := 0,
            nat := m.sem == .acq || m.sem == .rel || m.sem == .acqrel || m.size == .cap }, m, a, b, imm)
  | .st _ m a b _ imm =>
    some ({ spaces := if m.size = .cap then [0, 1, 2] else [0, 1, 2, 4], perm := if m.size = .cap then 10 else 2, kind := 1,
            nat := m.sem == .acq || m.sem == .rel || m.sem == .acqrel || m.size == .cap }, m, a, b, imm)
  | .atom _ m _ _ a b _ imm => some ({ spaces := [0, 1, 2], perm := 4, kind := 2, nat := true }, m, a, b, imm)
  | .red _ m _ a b _ imm => some ({ spaces := [0, 1, 2], perm := 4, kind := 2, nat := true }, m, a, b, imm)
  | _ => none

/-- The accesses of an instruction's elements, before translation. -/
def Ctx.asks (x : Ctx) (a size : Nat) (es : List Elem) (op : Nat → ReqOp) : List Acc :=
  es.map fun e => { lane := e.lane, loc := x.place (x.w.getK a) e.addr, size := size, op := op e.lane, inc := false,
                    got := none, torn := [] }

/-- An LS instruction has sent the operation `p`: it is in flight, its flag counts it, the registers it will write are
marked, and the group goes on; nothing else changes but what the translation leaves in the TLB and, for remote
accesses, entries of the table of outstanding transactions (R37, R106, R107, R109). -/
structure Ctx.Sends (x : Ctx) (i : Instr) (t : State) (p : LsOp) (regs : List (RegCls × Nat)) : Prop where
  rest : t = { x.s with nextId := t.nextId, ott := t.ott, weaves := t.weaves, lsOps := t.lsOps, tlb := t.tlb }
  memory : ∀ a, Memory.get t.mem a = Memory.get x.s.mem a
  sent : Tbl.find t.lsOps x.s.nextId = some p
  others : ∀ n, n ≠ x.s.nextId → Tbl.find t.lsOps n = Tbl.find x.s.lsOps n
  local_ : (∀ a ∈ p.accs, a.loc.isRemote = false) → t.ott = x.s.ott
  weaves : ∀ n, n ≠ x.c.weave → t.weave n = x.s.weave n
  here : ∃ w, t.weave x.c.weave = some w ∧ w = { x.w with cf := w.cf, marks := w.marks, groups := w.groups }
    ∧ (∀ n, w.getCf n = x.w.getCf n + if p.flag = some n then 1 else 0)
    ∧ w.marks = x.w.marks ++ (regs.map fun r => { cls := r.1, reg := r.2, lanes := x.g.lanes, op := x.s.nextId })
    ∧ w.groups = x.w.groups.map fun g => if g.gid == x.c.gid then g.advance x.c x.h.bnd (lateRegs i) else g

/-- The instruction takes the trap, as R255 delivers it. -/
def Ctx.Traps (x : Ctx) (i : Instr) (t : Trap) : Prop := exec i x.s = .next (x.s.trapNow x t)

/-- The physical address of an access in memory. -/
def Loc.pa : Loc → Nat
  | .mem pa => pa
  | _ => 0

/-- An operation whose accesses all lie in memory of this module, none of them performed, each free to be performed
now as far as other operations go (R14, R153–R157), and whose weave is there. -/
structure State.Local (s : State) (id : Nat) (p : LsOp) (w : Weave) : Prop where
  found : Tbl.find s.lsOps id = some p
  weave : s.weave p.weave = some w
  inMem : ∀ a ∈ p.accs, a.loc = .mem (Loc.pa a.loc) ∧ s.eccBad (Loc.pa a.loc) = false
  fresh : ∀ a ∈ p.accs, a.got = none ∧ a.inc = false ∧ a.torn = []
  ready : ∀ a ∈ p.accs, s.locReady a.loc = true ∧ s.ordered id p a = true
  whole : p.hole = none ∧ p.err = none ∧ p.ecc = false ∧ someT s.ott (fun _ o => o.op == id) = false

/-- Does an access cover the byte at a physical address. -/
def Acc.On (a : Acc) (z : Nat) : Prop := Loc.pa a.loc ≤ z ∧ z < Loc.pa a.loc + a.size

/-- Does no rule make a byte of memory read-only now: it lies in no control word of a partition's direct space (R137,
R186, R187). -/
def State.plainByte (s : State) (pa : Nat) : Prop :=
  ∀ e ∈ s.parts, e.2.tdi = .run → ∀ d, e.2.directOf pa = some d → 0x4000 ≤ d

/-- An operation has completed: it is no longer in flight, its flag counts one less, its marks are gone; nothing else of
its weave changes but the registers (R106, R109, R378). -/
def State.Completed (s t : State) (id : Nat) (p : LsOp) (w w' : Weave) : Prop :=
  Tbl.find t.lsOps id = none ∧ (∀ n, n ≠ id → Tbl.find t.lsOps n = Tbl.find s.lsOps n)
  ∧ t.weave p.weave = some w' ∧ (∀ n, n ≠ p.weave → t.weave n = s.weave n)
  ∧ w' = { w with v := w'.v, s := w'.s, k := w'.k, cf := w'.cf, marks := w'.marks, wstat := w'.wstat }
  ∧ (∀ n, w'.getCf n = w.getCf n - if p.flag = some n then 1 else 0)
  ∧ w'.marks = w.marks.filter fun m => m.op != id

/-- The value of an atomic on `n` bits (R381); none for a failing CAS. -/
def atomTable (op : AtomOp) {n : Nat} (old c y : BitVec n) : Option (BitVec n) :=
  match op with
  | .add => some (old + c)
  | .smin => some (if old.toInt ≤ c.toInt then old else c)
  | .umin => some (if old.toNat ≤ c.toNat then old else c)
  | .smax => some (if c.toInt ≤ old.toInt then old else c)
  | .umax => some (if c.toNat ≤ old.toNat then old else c)
  | .and => some (old &&& c)
  | .or => some (old ||| c)
  | .xor => some (old ^^^ c)
  | .exch => some c
  | .cas => if old = c then some y else none

/-! ### Exceptions and control (R252–R258, R313–R327) -/

/-- TRAPINFO holds what R254 Table 2 says. -/
def TrapInfoIs (v : W64) (code : Cap) (addr : W64) (t : Trap) (lanes : Lanes) : Prop :=
  (v.extractLsb' 0 8).toNat = t.code.code ∧ v.extractLsb' 8 6 = 0 ∧ v.getLsbD 14 = t.fnc ∧ v.getLsbD 15 = t.hdr
  ∧ v.extractLsb' 16 16 = t.detail
  ∧ (v.extractLsb' 32 8).toNat = (match t.lane with
    | some l => l
    | none => lanes.toList.headD 0) % 256
  ∧ (v.extractLsb' 40 24).toNat = min ((addr.toNat + 2 ^ 64 - code.base) % 2 ^ 64 / 4) 0xFFFFFF

/-- A group has entered its weave's handler: a trap frame on each of its threads, TRAPINFO and LASTTRAP written, the PC
at TRAPCAP.base, where a RUN header must stand; registers, other groups and memory as before (R252–R255). `r` is the
place where the return resumes. -/
structure State.Enters (s t : State) (e : Env) (g : Group) (addr : W64) (tr : Trap) (r : W64 × Pos × Run) : Prop where
  rest : t = { s with weaves := t.weaves }
  memory : ∀ a, Memory.get t.mem a = Memory.get s.mem a
  others : ∀ n, n ≠ e.wid → t.weave n = s.weave n
  here : ∃ w, t.weave e.wid = some w
    ∧ w = { e.w with wstat := w.wstat, trapinfo := w.trapinfo, frames := w.frames, groups := w.groups }
    ∧ (∀ l, l < 32 → w.frame l =
        if g.lanes.has l then Frame.trap r.1 r.2.1 r.2.2 g.progress :: e.w.frame l else e.w.frame l)
    ∧ TrapInfoIs w.trapinfo e.f.lr.code addr tr g.lanes
    ∧ (w.wstat.extractLsb' 8 8).toNat = tr.code.code
    ∧ (∀ b, b < 8 ∨ 16 ≤ b → w.wstat.getLsbD b = e.w.wstat.getLsbD b)
    ∧ w.groups = e.w.groups.map fun q => if q.gid == g.gid then
        { q with pc := BitVec.ofNat 64 e.f.lr.trap.base, pos := .arrived, progress := 0, sleep := .awake, port := false,
                 latch := none }
      else q

/-- Threads of a weave have ended (R92, R123): they are live no more, no group holds them, their frames are gone, and the
other threads' registers stay. -/
structure State.Ended (s t : State) (e : Env) (ls : Lanes) : Prop where
  rest : t = { s with weaves := t.weaves }
  others : ∀ n, n ≠ e.wid → t.weave n = s.weave n
  here : ∃ w, t.weave e.wid = some w ∧ w.live = e.w.live &&& ~~~ls ∧ w.s = e.w.s ∧ w.k = e.w.k ∧ w.v = e.w.v
    ∧ w.p = e.w.p ∧ w.cf = e.w.cf ∧ (∀ g ∈ w.groups, g.lanes &&& ls = 0 ∧ g.lanes ≠ 0)
    ∧ ∀ l, l < 32 → ls.has l = true → w.frame l = []

/-- The threads of the issuing group have gone to their places; those of other groups, and every register, stay. -/
structure Ctx.Moves (x : Ctx) (t : State) (w : Weave) (place : Nat → Place) : Prop where
  rest : t = { x.s with weaves := t.weaves, nextId := t.nextId }
  memory : ∀ a, Memory.get t.mem a = Memory.get x.s.mem a
  others : ∀ n, n ≠ x.c.weave → t.weave n = x.s.weave n
  here : t.weave x.c.weave = some w
  regs : w = { x.w with groups := w.groups, frames := w.frames, loops := w.loops }
  moved : ∀ l, l < 32 → x.g.lanes.has l = true → ∃ q ∈ w.groups, q.lanes.has l = true ∧ q.pc = (place l).pc
    ∧ q.pos = (place l).pos ∧ q.run = (place l).run ∧ q.progress = (place l).progress ∧ q.sleep = .awake
  kept : ∀ q ∈ x.w.groups, q.gid ≠ x.g.gid → q ∈ w.groups
  only : ∀ q ∈ w.groups, q ∈ x.w.groups ∨ q.lanes &&& ~~~x.g.lanes = 0

/-- The word at an address inside a thread's code capability (R315). -/
def Ctx.WordAt (x : Ctx) (l : Nat) (a : Int) (w : W32) : Prop :=
  a % 4 = 0 ∧ (x.codeOf l).covers a 4 = true
  ∧ ∃ n, x.s.code { e := x.e, caps := [x.codeOf l], latch := none } a.toNat 4 = .ok n ∧ BitVec.ofNat 32 n = w

/-- A RUN header stands there. -/
def Ctx.HeaderAt (x : Ctx) (l : Nat) (a : Int) : Prop := ∃ w, x.WordAt l a w ∧ isHeader w = true

/-- No header stands at an address, for a reason that R315 gives; where FILL words are skipped, the word is none of them. -/
def Ctx.NoHeaderAt (x : Ctx) (l : Nat) (fill : Bool) (a : Int) : Prop :=
  a % 4 ≠ 0 ∨ (x.codeOf l).covers a 4 = false ∨ ∃ w, x.WordAt l a w ∧ isHeader w = false ∧ (fill = true → w ≠ 7)

/-- From an address on, FILL words alone stand before another one (R315, R298). -/
def Ctx.FillsTo (x : Ctx) (l : Nat) (a b : Int) : Prop :=
  ∃ n : Nat, b = a + 4 * n ∧ ∀ k : Nat, k < n → x.WordAt l (a + 4 * k) 7

/-- After the instruction, at the end of its run (R314). -/
def Ctx.after (x : Ctx) : Place :=
  { pc := x.c.addr + BitVec.ofNat 64 x.c.len, pos := .between, run := Run.none_, progress := 0 }

/-! ### Copies and phase objects (R140–R147, R394–R409) -/

/-- The copy instructions, with their kind, fields and registers. -/
def copyForm (w : Weave) : Instr → Option (CopyKind × CopyF × Nat × Nat × Nat × Nat)
  | .copy _ f d a b c => some (.plain, f, d, a, b, c)
  | .copym _ f d a b c m => some (.multi m, f, d, a, b, c)
  | .copysel _ f d a b c => some (.sel (w.getS (b + 4)) (w.getS (b + 5)) (w.getS (b + 6)), f, d, a, b, c)
  | _ => none

/-- Byte `i` of what a copy reads: of its source tile, or with `old` of the records that stand at its destination (R141, R244).
It is the byte that the copy has read already, else the one that stands at its place in the state. -/
def State.CopyReads (s : State) (c : Copy) (old : Bool) (i : Nat) (b : BitVec 8) : Prop :=
  let n := (if old then 2 ^ 40 else 0) + i
  Tbl.find c.got n = some b
    ∨ (Tbl.find c.got n = none ∧ ∃ p ∈ (if old then c.dstPieces else c.srcPieces), ∃ l,
      s.pieceLoc c (if old then c.dst else c.src) 0 p = some l ∧ p.first ≤ i ∧ i < p.first + p.len
      ∧ (s.locBytes l p.len)[i - p.first]? = some b)

/-- Every piece of one end lies in memory or a bank of this module that can serve the access. -/
def State.CopyHere (s : State) (c : Copy) (cap : Cap) (kind : Nat) (ps : List Piece) : Prop :=
  ∀ p ∈ ps, ∃ l, s.pieceLoc c cap kind p = some l ∧ l.isRemote = false ∧ s.locStop kind (p.addr % 2 ^ 55) l = none

/-- An accepted copy that has written nothing can move all its bytes now: its ends lie in this module and are translated, no
earlier copy or phase operation holds it back, its destination lies in plain bytes of memory or in scratchpads, and no two
pieces of it overlap (R141, R397). -/
structure State.CopyMoves (s : State) (id : Nat) (c : Copy) : Prop where
  found : Tbl.find s.copies id = some c
  runs : s.copyRuns id c = true ∧ s.arrivalEarly id c = false
  fresh : c.put = [] ∧ c.arrived = [] ∧ ∀ e ∈ s.legs, e.2.owner ≠ .copy id
  small : c.rows * c.rowBytes < 2 ^ 40 ∧ c.count < 2 ^ 40
  src : s.CopyHere c c.src 0 c.srcPieces
  old : c.accum = true → s.CopyHere c c.dst 0 c.dstPieces
  dst : s.CopyHere c c.dst 1 c.dstPieces
  place : ∀ p ∈ c.dstPieces, ∀ l, s.pieceLoc c c.dst 1 p = some l → s.copyAfter id c p = false
    ∧ ((l = .mem (Loc.pa l) ∧ ∀ n, n < p.len → s.plainByte (Loc.pa l + n)) ∨ ∃ t off, l = .spad t off ∧ s.team t ≠ none)
  apart : c.dstPieces.Pairwise fun p q => ∀ l m, s.pieceLoc c c.dst 1 p = some l → s.pieceLoc c c.dst 1 q = some m →
    (l.span p.len).1 ≠ (m.span q.len).1 ∨ (l.span p.len).2.2 ≤ (m.span q.len).2.1 ∨ (m.span q.len).2.2 ≤ (l.span p.len).2.1

/-- A copy has put the bytes `out` at their places in its destination and changed no other byte of memory or of a
scratchpad. -/
def State.CopyPuts (s t : State) (c : Copy) (out : Nat → BitVec 8) : Prop :=
  (∀ p ∈ c.dstPieces, ∀ l, s.pieceLoc c c.dst 1 p = some l → ∀ n, n < p.len →
    (t.locBytes l p.len)[n]? = some (out (p.first + n)))
  ∧ ∀ l n, (l = .mem (Loc.pa l) ∨ ∃ k off, l = .spad k off) →
    (∀ p ∈ c.dstPieces, ∀ m, s.pieceLoc c c.dst 1 p = some m →
      (l.span n).1 ≠ (m.span p.len).1 ∨ (l.span n).2.2 ≤ (m.span p.len).2.1 ∨ (m.span p.len).2.2 ≤ (l.span n).2.1) →
    t.locBytes l n = s.locBytes l n

/-- A 32-bit word of bytes, the lowest first. -/
def wordOf (f : Nat → BitVec 8) (a : Nat) : W32 := f (a + 3) ++ f (a + 2) ++ f (a + 1) ++ f a

/-- What a row of a COPYSEL comes to (R240–R242): `y` its logits over T, `idx` the index of element 0, `g` the noise of an
index, `ksel` the entries to keep. -/
structure RowSelects (ys : List W32) (idx : W32) (g : W32 → W32) (ksel : Nat) (r : SelRec) : Prop where
  nan : (∃ y ∈ ys, f32IsNan y = true) → r = { m := f32Nan, sum := f32Nan, flags := 1, entries := [] }
  inf : (∀ y ∈ ys, f32IsNan y = false) → f32PosInf ∈ ys → r.m = f32PosInf ∧ r.flags = 2
    ∧ r.sum = (ys.filter (· == f32PosInf)).foldl (fun s _ => f32Add s 0x3F800000) 0
  fin : (∀ y ∈ ys, f32IsNan y = false) → f32PosInf ∉ ys → r.flags = 0
    ∧ (r.m = f32NegInf ∨ r.m ∈ ys) ∧ (∀ y ∈ ys, f32Cmp r.m y ≠ some .lt)
    ∧ r.sum = (ys.filter (· != f32NegInf)).foldl (fun s y => f32Add s (f32ExpNeg (f32Sub y r.m))) 0
  best : (∀ y ∈ ys, f32IsNan y = false) →
    let all := ys.zipIdx.filterMap fun q =>
      let i := idx + BitVec.ofNat 32 q.2
      if q.1 = f32NegInf then none else some (f32Add q.1 (g i), i)
    ∃ l : List (W32 × W32), l.Perm all ∧ (l.Pairwise fun a b => entryBefore b a = false) ∧ r.entries = l.take ksel

/-- What ACCUM makes of an old and a new record (R244). -/
structure RecMerges (ksel : Nat) (old new r : SelRec) : Prop where
  flags : r.flags = old.flags ||| new.flags
  nan : r.flags % 2 = 1 → r.m = f32Nan ∧ r.sum = f32Nan ∧ r.entries = []
  sum : r.flags % 2 = 0 → r.m = f32Max old.m new.m
    ∧ r.sum = f32Add (f32Mul old.sum (if old.m = f32NegInf then 0 else f32ExpNeg (f32Sub old.m r.m)))
        (f32Mul new.sum (if new.m = f32NegInf then 0 else f32ExpNeg (f32Sub new.m r.m)))
  best : r.flags % 2 = 0 → (∀ e ∈ old.entries ++ new.entries, f32IsNan e.1 = false) →
    ∃ l : List (W32 × W32), l.Perm (old.entries ++ new.entries) ∧ (l.Pairwise fun a b => entryBefore b a = false) ∧ r.entries = l.take ksel

/-- The bytes `out` from `a` on are a record as R243 lays it out. -/
def RecordAt (out : Nat → BitVec 8) (a ksel : Nat) (r : SelRec) : Prop :=
  wordOf out a = r.m ∧ wordOf out (a + 4) = r.sum ∧ (wordOf out (a + 8)).toNat = r.entries.length
    ∧ (wordOf out (a + 12)).toNat = r.flags
    ∧ ∀ e, e < ksel → (wordOf out (a + 16 + 8 * e), wordOf out (a + 20 + 8 * e))
      = (r.entries[e]?).getD (0xFF800000, 0xFFFFFFFF)

/-- A copy has left the engine without an error: its token counts one less, and nothing else of its weave changes
(R398). -/
def State.CopyGone (s t : State) (id : Nat) (c : Copy) (errs : List Deferred) : Prop :=
  Tbl.find t.copies id = none ∧ (∀ n, n ≠ id → Tbl.find t.copies n = Tbl.find s.copies n)
  ∧ ∀ w, s.weave c.weave = some w → ∃ w', t.weave c.weave = some w' ∧ w' = { w with cf := w'.cf, errs := w.errs ++ errs }
    ∧ ∀ n, w'.getCf n = w.getCf n - if c.f.mode ≠ .ph ∧ n = c.f.tok.toNat then 1 else 0

/-- The phase object that the issuing weave's operand names stands in a placed cohort of its partition, which is not away,
and no earlier operation of the weave waits (R130, R268, R399). -/
structure Ctx.PhaseAt (x : Ctx) (a b : Nat) (perm : BitVec 8) (release : Bool) (cid : Nat) (p : Phase) : Prop where
  cap : x.phCheck a perm (x.phAddr a b) = none
  first : x.phPending = false
  quiet : release = true → x.s.lsQuietBefore x.e.wid x.s.nextId = true
  cohort : x.s.cohortOf x.e.part (phInst (x.phAddr a b)) = some cid
  object : ∃ c, x.s.cohort cid = some c ∧ c.away = false ∧ c.inst = phInst (x.phAddr a b)
    ∧ p = c.phase (phObj (x.phAddr a b))

/-- The object that the operand names is `p` afterwards, and every other object is as before. -/
def Ctx.PhaseIs (x : Ctx) (a b cid : Nat) (t : State) (p : Phase) : Prop :=
  ∃ c c', x.s.cohort cid = some c ∧ t.cohort cid = some c' ∧ c' = { c with phases := c'.phases }
  ∧ c'.phase (phObj (x.phAddr a b)) = p ∧ (∀ o, o ≠ phObj (x.phAddr a b) → c'.phase o = c.phase o)
  ∧ ∀ n, n ≠ cid → t.cohort n = x.s.cohort n

/-- What an arrival of `u` units by a weave of cohort `who` makes of an object (R145). -/
def Phase.Arrived (p q : Phase) (u : Nat) : Prop :=
  (p.poison = true → q = p)
  ∧ (p.poison = false → u < p.remain.toNat →
    q.remain.toNat = p.remain.toNat - u ∧ q = { p with remain := q.remain, arrived := q.arrived, copied := q.copied })
  ∧ (p.poison = false → p.remain.toNat ≤ u →
    q = { p with parity := !p.parity, remain := p.expect, arrived := [], arrivedLast := q.arrivedLast, copied := false,
                 copiedLast := q.copiedLast })

/-- The issuing group has gone on with a result in an s register; of its weave nothing else changes but WSTAT bit 0. -/
def Ctx.Answers (x : Ctx) (i : Instr) (t : State) (d : Nat) (v : W64) : Prop :=
  ∃ w, t.weave x.c.weave = some w ∧ w.getS d = v ∧ (∀ n, n ≠ d → w.getS n = x.w.getS n) ∧ w.v = x.w.v ∧ w.k = x.w.k
    ∧ w.p = x.w.p ∧ w.cf = x.w.cf ∧ (∀ b, b ≠ 0 → w.wstat.getLsbD b = x.w.wstat.getLsbD b)
    ∧ ∀ q, x.w.group x.c.gid = some q → w.group x.c.gid = some (q.advance x.c x.h.bnd (lateRegs i))

/-- No group of the issuing weave sleeps on the object that the operand names. -/
def Ctx.phQuiet (x : Ctx) (a b : Nat) : Prop :=
  ∀ g ∈ x.w.groups, ∀ q d, g.sleep ≠ .phase (phInst (x.phAddr a b)) (phObj (x.phAddr a b)) q d

/-- Is `r` the combination of values that R351 Table gives: modulo 2^n; with the extreme value of the type, all ones or
zero where there is no value. -/
def ReduxOp.Combines (op : ReduxOp) (signed : Bool) {n : Nat} (vs : List (BitVec n)) (r : BitVec n) : Prop :=
  match op with
  | .add => r = BitVec.ofNat n (vs.map (·.toNat)).sum
  | .min => if vs = [] then r = (if signed then BitVec.intMax n else BitVec.allOnes n)
      else r ∈ vs ∧ ∀ v ∈ vs, if signed then r.toInt ≤ v.toInt else r.toNat ≤ v.toNat
  | .max => if vs = [] then r = (if signed then BitVec.intMin n else 0)
      else r ∈ vs ∧ ∀ v ∈ vs, if signed then v.toInt ≤ r.toInt else v.toNat ≤ r.toNat
  | .and => ∀ i, i < n → r.getLsbD i = vs.all fun v => v.getLsbD i
  | .or => ∀ i, i < n → r.getLsbD i = vs.any fun v => v.getLsbD i
  | .xor => ∀ i, i < n → r.getLsbD i = decide ((vs.countP fun v => v.getLsbD i) % 2 = 1)

/-! ### The KV path and the matrix engine (R163–R192, R218–R238, R410–R431) -/

/-- What the checks of R411 steps 1 and 2 ask of a space-3 capability; `d` is its descriptor as it was read. -/
def Ctx.KvAt (x : Ctx) (k : Nat) (perm : BitVec 8) (d : KvDesc) : Prop :=
  let c := x.w.getK k
  c.tag = true ∧ c.space = 3 ∧ c.perm &&& perm = perm ∧ 256 ≤ c.len ∧ c.base + 256 ≤ 2 ^ 64
    ∧ x.s.readDesc x.kvSite c.base k = .ok (.ok d)

/-- The limits of R172 and R173: the range lies in the writer's open reservation, and nothing of it is published at the
layer. -/
def Ctx.MayWrite (x : Ctx) (d : KvDesc) (w l p0 p1 : Nat) : Prop :=
  w < d.wlimit ∧ l < d.layers ∧ p0 < p1
    ∧ (∃ r, x.s.writer x.kvSite d w = .ok r ∧ r.open_ = true ∧ r.start ≤ p0 ∧ p1 ≤ r.stop)
    ∧ ∀ i, i < p1 - p0 → x.s.published x.kvSite d l (p0 + i) = .ok false

/-- The KV path has accepted an operation: its flag counts it, the registers it will write are marked, and the group goes
on; nothing else changes (R106, R107, R109, R414). -/
structure Ctx.Accepts (x : Ctx) (i : Instr) (t : State) (d : KvDesc) (kind : KvKind) (regs : List (RegCls × Nat)) : Prop where
  rest : t = { x.s with nextId := t.nextId, weaves := t.weaves, kvOps := t.kvOps }
  sent : Tbl.find t.kvOps x.s.nextId = some
    { weave := x.c.weave, part := x.e.part, ident := x.s.ident x.e, lanes := x.act, scopeH := x.e.f.scope, desc := d,
      kind := kind, flag := x.g.run.slot x.h.fs, at_ := x.s.clock, seen := [], res := none, fault := none }
  others : ∀ n, n ≠ x.s.nextId → Tbl.find t.kvOps n = Tbl.find x.s.kvOps n
  weaves : ∀ n, n ≠ x.c.weave → t.weave n = x.s.weave n
  here : ∃ w, t.weave x.c.weave = some w ∧ w = { x.w with cf := w.cf, marks := w.marks, groups := w.groups }
    ∧ (∀ n, w.getCf n = x.w.getCf n + if x.g.run.slot x.h.fs = some n then 1 else 0)
    ∧ w.marks = x.w.marks ++ (regs.map fun r => { cls := r.1, reg := r.2, lanes := x.g.lanes, op := x.s.nextId })
    ∧ w.groups = x.w.groups.map fun g => if g.gid == x.c.gid then g.advance x.c x.h.bnd (lateRegs i) else g

/-- What makes a KVST or a KVPUB fail the limits of R172 and R173. -/
def Ctx.MayNotWrite (x : Ctx) (d : KvDesc) (w l p0 p1 : Nat) : Prop :=
  d.wlimit ≤ w ∨ d.layers ≤ l ∨ p1 ≤ p0 ∨ ∃ r, x.s.writer x.kvSite d w = .ok r
    ∧ (r.open_ = false ∨ p0 < r.start ∨ r.stop < p1
      ∨ ∃ q : Nat → Bool, (∀ i, i < p1 - p0 → x.s.published x.kvSite d l (p0 + i) = .ok (q i)) ∧ ∃ i, i < p1 - p0 ∧ q i = true)

/-- What an operation of the KV path has asked of peers is answered, without an error (R184). -/
def State.PeersAnswered (s : State) (o : Owner) : Prop := s.legsOut o = false ∧ s.legError o = none

/-- An operation of the KV path may take its step, and its weave is there. -/
def State.KvAt (s : State) (id : Nat) (o : KvOp) (w : Weave) : Prop :=
  Tbl.find s.kvOps id = some o ∧ o.res = none ∧ s.kvReady id o = true ∧ s.PeersAnswered (.kv id)
    ∧ s.weave o.weave = some w ∧ w.takes o.lanes = true

/-- A KV operation has completed without an error: its flag counts one less, its marks are gone; of its weave nothing else
changes but the registers of its class and the sticky bits `bits` (R106, R109, R414). -/
def State.KvDone (s t : State) (id : Nat) (o : KvOp) (w w' : Weave) (bits : List Nat) : Prop :=
  Tbl.find t.kvOps id = none ∧ (∀ n, n ≠ id → Tbl.find t.kvOps n = Tbl.find s.kvOps n)
  ∧ t.weave o.weave = some w' ∧ (∀ n, n ≠ o.weave → t.weave n = s.weave n)
  ∧ w' = { w with v := w'.v, s := w'.s, cf := w'.cf, marks := w'.marks, wstat := w'.wstat }
  ∧ (∀ n, w'.getCf n = w.getCf n - if o.flag = some n then 1 else 0)
  ∧ w'.marks = w.marks.filter (fun m => m.op != id)
  ∧ ∀ b, b ∉ bits → w'.wstat.getLsbD b = w.wstat.getLsbD b

/-- Of the registers, only an s register has changed. -/
def Weave.PutS (w w' : Weave) (d : Nat) (v : W64) : Prop :=
  w'.getS d = v ∧ (∀ n, n ≠ d → w'.getS n = w.getS n) ∧ w'.v = w.v

/-- An instruction has changed its team, and its group goes on; of its weave only the flag it counts on changes
besides. -/
structure Ctx.OnTeam (x : Ctx) (i : Instr) (t : State) (tm : Team) (flag : Option Nat) : Prop where
  team : t.team x.e.tid = some tm
  teams : ∀ n, n ≠ x.e.tid → t.team n = x.s.team n
  weaves : ∀ n, n ≠ x.c.weave → t.weave n = x.s.weave n
  here : ∃ w, t.weave x.c.weave = some w ∧ w = { x.w with cf := w.cf, groups := w.groups }
    ∧ (∀ n, w.getCf n = x.w.getCf n + if flag = some n then 1 else 0)
    ∧ w.groups = x.w.groups.map fun g => if g.gid == x.c.gid then g.advance x.c x.h.bnd (lateRegs i) else g

/-- A mask parameter block keeps the rules of R230. -/
def maskGood (bs : List (BitVec 8)) : Prop :=
  let b := maskOf bs
  let parent (i : Nat) := b.parent.getD i 0
  let depth (i : Nat) := b.depth.getD i 0
  let row (i : Nat) := b.row.getD i 0
  1 ≤ b.count ∧ b.count ≤ 64
    ∧ (∀ i, i < b.count → (parent i = 0xFF ∧ depth i = 1 ∧ row i = 1#64 <<< i)
      ∨ (parent i < i ∧ depth i = depth (parent i) + 1 ∧ row i = (row (parent i) ||| 1#64 <<< i)))
    ∧ (∀ i, 1 ≤ i → i < 8 → bs.getD i 0 = 0) ∧ b.base < 2 ^ 48
    ∧ ∀ i, b.count ≤ i → i < 64 → parent i = 0 ∧ depth i = 0 ∧ row i = 0

/-- The rows that an engine has read already, and those that it can read now (R235). -/
def RowsRead (n : Nat) (old : List (List (BitVec 8))) (rd : Nat → KM (List (BitVec 8))) (row : Nat → List (BitVec 8)) : Prop :=
  old.length ≤ n ∧ ∀ i, i < n → old[i]? = some (row i) ∨ (old[i]? = none ∧ rd i = .ok (row i))

/-- Does row `i` of an attention tile see position `p`, whose slot was read as `v` (R170, R227). -/
def Attn.visible (m : Attn) (mask : Option MaskBlk) (d : KvDesc) (pc i p : Nat) (v : Option SlotView) : Bool :=
  decide (m.kfirst ≤ p ∧ p < m.kend ∧ p < pc)
    && (match v with
      | some v => v.gen == (d.slotOf p).2 && v.st == 2
      | none => false)
    && (m.mode != 0 || decide (p ≤ m.qpos + i))
    && (m.mode != 1 || (match mask with
      | some b => decide (p < b.base) || (decide (p < b.base + b.count) && (b.row.getD i 0).getLsbD (p - b.base))
      | none => false))

/-- What completing the first request of a batch leaves: its accumulators hold what `elem` gives for some elements and what they
held elsewhere; the request and what it asked of peers are gone, `bt` is the batch without it, its signer's flag counts one less, and
STALE_READ is set where `stale` says so (R221, R225, R227). -/
structure State.MxDone (s t : State) (n r : Nat) (q : MxReq) (tm : Team) (bt : Batch) (elem : Nat → Option W32) (stale : Prop) :
    Prop where
  rest : t = { s.dropLegs (.mx r) with teams := t.teams, weaves := t.weaves, mxReqs := t.mxReqs, batches := t.batches }
  team : ∃ tm', t.team q.team = some tm' ∧ tm' = { tm with acc := tm'.acc, cv := tm'.cv }
    ∧ ∀ z, Tbl.get tm'.acc (0 : W32) z = (elem z).getD (Tbl.get tm.acc 0 z)
  gone : Tbl.find t.mxReqs r = none ∧ ∀ k, k ≠ r → Tbl.find t.mxReqs k = Tbl.find s.mxReqs k
  batch : Tbl.find t.batches n = some bt ∧ ∀ k, k ≠ n → Tbl.find t.batches k = Tbl.find s.batches k
  signer : ∀ wid w f, q.signers = [(wid, some f)] → s.weave wid = some w → ∃ w', t.weave wid = some w'
    ∧ w' = { w with cf := w'.cf, wstat := w'.wstat } ∧ (∀ k, w'.getCf k = w.getCf k - if k = f then 1 else 0)
    ∧ (∀ b, b ≠ wsStale → w'.wstat.getLsbD b = w.wstat.getLsbD b)
    ∧ (w'.wstat.getLsbD wsStale = true ↔ w.wstat.getLsbD wsStale = true ∨ stale)

/-- BATCH_COMPLETE completes the first request of batch `n` and goes on with the others `rs`, or ends the batch, as from `t`. -/
def State.GoesOn (s t : State) (n : Nat) (rs : List Nat) : Prop :=
  exec (.batchComplete n ()) s
    = if rs = [] then .next { t.dropLegs (.batch n) with batches := Tbl.del t.batches n } else exec (.batchComplete n ()) t

/-! ### Cancel scopes and launches (R68–R84, R85–R98, R122, R330–R333) -/

/-- A scope instruction has sent its operation to the scope table: its flag counts it and its destination is marked;
CWAIT's group sleeps on it, every other's goes on. -/
structure Ctx.Asks (x : Ctx) (i : Instr) (t : State) (kind : ScopeKind) (d : Nat) (sleeps : Bool) : Prop where
  rest : t = { x.s with nextId := t.nextId, weaves := t.weaves, scopeOps := t.scopeOps, tlb := t.tlb }
  sent : Tbl.find t.scopeOps x.s.nextId = some
    { weave := x.c.weave, gid := x.c.gid, lanes := x.g.lanes, part := x.e.part, core := x.e.t.core, scopeH := x.e.f.scope, kind := kind, d := d,
      flag := x.g.run.slot x.h.fs, asleep := false, fault := none }
  others : ∀ n, n ≠ x.s.nextId → Tbl.find t.scopeOps n = Tbl.find x.s.scopeOps n
  weaves : ∀ n, n ≠ x.c.weave → t.weave n = x.s.weave n
  here : ∃ w, t.weave x.c.weave = some w ∧ w = { x.w with cf := w.cf, marks := w.marks, groups := w.groups }
    ∧ (∀ n, w.getCf n = x.w.getCf n + if x.g.run.slot x.h.fs = some n then 1 else 0)
    ∧ w.marks = x.w.marks ++ [{ cls := .s, reg := d, lanes := x.g.lanes, op := x.s.nextId }]
    ∧ w.groups = x.w.groups.map fun g => if g.gid == x.c.gid then
        (if sleeps then { g.advance x.c x.h.bnd (lateRegs i) with sleep := .scope x.s.nextId, port := false }
          else g.advance x.c x.h.bnd (lateRegs i))
      else g

/-- A scope-table operation may take effect now (R333), and its weave is there. -/
def State.ScopeAt (s : State) (id : Nat) (o : ScopeOp) (w : Weave) : Prop :=
  Tbl.find s.scopeOps id = some o ∧ o.asleep = false ∧ o.fault = none ∧ s.weave o.weave = some w
    ∧ w.takes o.lanes = true ∧ ∀ e ∈ s.scopeOps, e.1 < id → e.2.weave = o.weave → e.2.asleep = true

/-- A scope-table operation has completed with a status (R87): it is gone, its flag counts one less, its mark is gone. -/
def State.ScopeDone (s t : State) (id : Nat) (o : ScopeOp) (w : Weave) (v : W64) : Prop :=
  Tbl.find t.scopeOps id = none ∧ (∀ n, n ≠ id → Tbl.find t.scopeOps n = Tbl.find s.scopeOps n)
  ∧ (∀ n, n ≠ o.weave → t.weave n = s.weave n)
  ∧ ∃ w', t.weave o.weave = some w' ∧ w' = { w with s := w'.s, cf := w'.cf, marks := w'.marks, groups := w'.groups }
    ∧ w'.getS o.d = v ∧ (∀ n, n ≠ o.d → w'.getS n = w.getS n)
    ∧ (∀ n, w'.getCf n = w.getCf n - if o.flag = some n then 1 else 0)
    ∧ w'.marks = w.marks.filter (fun m => m.op != id)
    ∧ w'.groups = w.groups.map fun g => if g.gid == o.gid ∧ g.sleep = .scope id then { g with sleep := .awake } else g

/-- A weave as R122 wants it at launch. -/
def Weave.Launched (w : Weave) (f : Field) (tid idx : Nat) : Prop :=
  w.team = tid ∧ w.idx = idx ∧ (∀ l, l < 32 → (w.live.has l = true ↔ 32 * idx + l < f.lr.threads))
  ∧ (∀ n, w.getS n = f.args.getD n 0) ∧ w.getK 0 = f.lr.param ∧ (∀ n, n ≠ 0 → w.getK n = nullCap)
  ∧ w.v = [] ∧ w.p = [] ∧ w.cf = [] ∧ w.wstat = 0 ∧ w.trapinfo = 0 ∧ w.frames = [] ∧ w.loops = [] ∧ w.marks = []
  ∧ ∃ g, w.groups = [g] ∧ g.lanes = w.live ∧ g.pc = BitVec.ofNat 64 f.lr.code.base ∧ g.pos = .arrived ∧ g.sleep = .awake

/-! ### The end of a partition's RUN (R60, R99) -/

/-- A partition has left RUN or CONFIG_LOCKED: it has no key, no scope, no session and no work; its core groups are held
from now on; the other partitions are as before. -/
structure State.Torn (s t : State) (p : Nat) : Prop where
  config : t.part p = { s.part p with
    tdi := (t.part p).tdi, locking := (t.part p).locking, key := none, scopes := [], turn := 0, faultSeq := 0,
    held := (s.part p).cgmask, heldAt := s.clock }
  others : ∀ q, q ≠ p → t.part q = s.part q
  weaves : ∀ n e, t.env n = some e → e.part ≠ p
  fields : ∀ e ∈ t.fields, e.2.part ≠ p
  records : ∀ e ∈ t.records, e.2.part ≠ p
  copies : ∀ e ∈ t.copies, e.2.part ≠ p
  kvOps : ∀ e ∈ t.kvOps, e.2.part ≠ p
  mxReqs : ∀ e ∈ t.mxReqs, e.2.part ≠ p
  scopeOps : ∀ e ∈ t.scopeOps, e.2.part ≠ p
  cancels : ∀ e ∈ t.cancels, e.2.part ≠ p
  faults : ∀ e ∈ t.faults, e.2.part ≠ p
  shoot : Tbl.find t.shoots p = none
  tlb : ∀ e ∈ t.tlb, e.part ≠ p
  pools : ∀ e ∈ t.pools, e.1 / 64 ≠ p
  apOps : ∀ e ∈ t.apOps, e.2.part ≠ p
  sessions : ∀ k x, Tbl.find t.hd.linkSessions k = some x → x.part ≠ p

/-- A doorbell of a partition takes effect (R65, R58): its tail is recorded, or halts the queue with code 1 or 2 and the queue's
vector; a halted queue takes none; outside RUN, or without such a queue, it is dropped and logged, in ERROR with completer abort. -/
def State.Rung (s t : State) (p index : Nat) (tail : W32) : Prop :=
  ((s.part p).tdi ≠ .run ∨ s.queueAt p index = none → t = { s with
    out := s.out ++ (if (s.part p).tdi = .error then [.dropped p index, .completerAbort p] else [.dropped p index]) })
  ∧ ∀ q, (s.part p).tdi = .run → s.queueAt p index = some q →
    let x := s.queue q
    let halts (code : BitVec 8) : Prop := t = { s with queues := t.queues, out := t.out }
      ∧ t.queue q = { x with qerr := code } ∧ (∀ n, n ≠ q → t.queue n = s.queue n)
      ∧ t.out = s.out ++ [.msix (x.part.toNat + 1) x.msix.toNat]
    (x.qerr ≠ 0 → t = s)
    ∧ (x.qerr = 0 → 2 ^ x.log2n.toNat < (tail - x.head).toNat → halts 1)
    ∧ (x.qerr = 0 → (tail - x.head).toNat ≤ 2 ^ x.log2n.toNat → (tail - x.head).toNat < (x.tail - x.head).toNat → halts 2)
    ∧ (x.qerr = 0 → (tail - x.head).toNat ≤ 2 ^ x.log2n.toNat → (x.tail - x.head).toNat ≤ (tail - x.head).toNat →
      t = { s with queues := t.queues } ∧ t.queue q = { x with tail := tail } ∧ ∀ n, n ≠ q → t.queue n = s.queue n)

/-- A partition has entered ERROR. -/
def State.Errs (s t : State) (p : Nat) : Prop := (t.part p).tdi = .error ∧ s.Torn t p

end Sys2Proof.Machine
end

