-- ==== Sys2Proof/Certificates/Slice0/Obligations.lean ====
section
/-! DEFINITION. The statements for the provers: each formalises rules of the spec, or says what it is derived from. -/

section

open Sys2Proof Sys2Proof.Machine

/-! ### Integer instructions (chapter 19) -/

/-- R338: the sum, the difference, the product and the multiply-add, modulo 2^N; IMULH is the high half of the product
of 2N bits, signed by TY. The frame is that of `IntDoes`.

R338: minimum and maximum, signed for TY 01 and 11, and the absolute value, where the most negative value yields
itself; IABS has TY 01 and 11 only. The words are those that R338 writes out. -/
def Obligations.IntegerArithmetic : Prop :=
  (∀ (h : Hd) (f : IntF) (d a b c : Nat),
    IntDoes (.iadd h f d a b) f d (fun x l => BitVec.ofInt 32 ((x.src32 f.s a l).toInt + (x.src32 f.s b l).toInt))
      (fun x l => BitVec.ofInt 64 ((x.src64 f.s a l).toInt + (x.src64 f.s b l).toInt))
    ∧ IntDoes (.isub h f d a b) f d (fun x l => BitVec.ofInt 32 ((x.src32 f.s a l).toInt - (x.src32 f.s b l).toInt))
      (fun x l => BitVec.ofInt 64 ((x.src64 f.s a l).toInt - (x.src64 f.s b l).toInt))
    ∧ IntDoes (.imul h f d a b) f d (fun x l => BitVec.ofInt 32 ((x.src32 f.s a l).toInt * (x.src32 f.s b l).toInt))
      (fun x l => BitVec.ofInt 64 ((x.src64 f.s a l).toInt * (x.src64 f.s b l).toInt))
    ∧ IntDoes (.imad h f d a b c) f d
      (fun x l => BitVec.ofInt 32 ((x.src32 f.s a l).toInt * (x.src32 f.s b l).toInt + (x.src32 f.s c l).toInt))
      (fun x l => BitVec.ofInt 64 ((x.src64 f.s a l).toInt * (x.src64 f.s b l).toInt + (x.src64 f.s c l).toInt))
    ∧ IntDoes (.imulh h f d a b) f d
      (fun x l => if f.ty.signed then BitVec.ofInt 32 ((x.src32 f.s a l).toInt * (x.src32 f.s b l).toInt / 2 ^ 32)
        else BitVec.ofNat 32 ((x.src32 f.s a l).toNat * (x.src32 f.s b l).toNat / 2 ^ 32))
      (fun x l => if f.ty.signed then BitVec.ofInt 64 ((x.src64 f.s a l).toInt * (x.src64 f.s b l).toInt / 2 ^ 64)
        else BitVec.ofNat 64 ((x.src64 f.s a l).toNat * (x.src64 f.s b l).toNat / 2 ^ 64)))
  ∧ (∀ (h : Hd) (f : IntF) (d a b : Nat),
    IntDoes (.imin h f d a b) f d
      (fun x l => if f.ty.signed then BitVec.ofInt 32 (min (x.src32 f.s a l).toInt (x.src32 f.s b l).toInt)
        else BitVec.ofNat 32 (min (x.src32 f.s a l).toNat (x.src32 f.s b l).toNat))
      (fun x l => if f.ty.signed then BitVec.ofInt 64 (min (x.src64 f.s a l).toInt (x.src64 f.s b l).toInt)
        else BitVec.ofNat 64 (min (x.src64 f.s a l).toNat (x.src64 f.s b l).toNat))
    ∧ IntDoes (.imax h f d a b) f d
      (fun x l => if f.ty.signed then BitVec.ofInt 32 (max (x.src32 f.s a l).toInt (x.src32 f.s b l).toInt)
        else BitVec.ofNat 32 (max (x.src32 f.s a l).toNat (x.src32 f.s b l).toNat))
      (fun x l => if f.ty.signed then BitVec.ofInt 64 (max (x.src64 f.s a l).toInt (x.src64 f.s b l).toInt)
        else BitVec.ofNat 64 (max (x.src64 f.s a l).toNat (x.src64 f.s b l).toNat))
    ∧ IntDoes (.iabs h f d a) f d (fun x l => BitVec.ofInt 32 |(x.src32 f.s a l).toInt|)
      (fun x l => BitVec.ofInt 64 |(x.src64 f.s a l).toInt|)
    ∧ ((Instr.iabs h f d a).wf = true → f.ty.signed = true)
    ∧ decodeTableWord 64 0x0000090302097240 = some (.imad ⟨7, false, false⟩ ⟨false, .u32⟩ 9 2 3 9)
    ∧ decodeTableWord 64 0x0082001514147200 = some (.iadd ⟨7, false, false⟩ ⟨true, .u64⟩ 20 20 21)
    ∧ decodeTableWord 64 0x0000000600017200 = some (.iadd ⟨7, false, false⟩ ⟨false, .u32⟩ 1 0 6))

/-- R339, R345: the bitwise operations, where ANDN complements the second source, and MOV; R340, R341: BREV turns the
bits round.

R339: shifts by the whole unsigned 32-bit count: SHL and the logical SHR give 0, the arithmetic SHR the sign, once
the count reaches N; the funnel shift and ROL take the count modulo N. -/
def Obligations.IntegerBitwise : Prop :=
  (∀ (h : Hd) (f : IntF) (d a b : Nat),
    IntDoes (.and h f d a b) f d (fun x l => x.src32 f.s a l &&& x.src32 f.s b l)
      (fun x l => x.src64 f.s a l &&& x.src64 f.s b l)
    ∧ IntDoes (.or h f d a b) f d (fun x l => x.src32 f.s a l ||| x.src32 f.s b l)
      (fun x l => x.src64 f.s a l ||| x.src64 f.s b l)
    ∧ IntDoes (.xor h f d a b) f d (fun x l => x.src32 f.s a l ^^^ x.src32 f.s b l)
      (fun x l => x.src64 f.s a l ^^^ x.src64 f.s b l)
    ∧ IntDoes (.andn h f d a b) f d (fun x l => x.src32 f.s a l &&& ~~~x.src32 f.s b l)
      (fun x l => x.src64 f.s a l &&& ~~~x.src64 f.s b l)
    ∧ IntDoes (.mov h f d a) f d (fun x l => x.src32 f.s a l) (fun x l => x.src64 f.s a l)
    ∧ IntDoes (.brev h f d a) f d (fun x l => (x.src32 f.s a l).reverse) (fun x l => (x.src64 f.s a l).reverse))
  ∧ (∀ (h : Hd) (f : IntF) (d a b c : Nat),
    IntDoes (.shl h f d a b) f d
      (fun x l => if (x.src32 f.s b l).toNat < 32 then
        BitVec.ofNat 32 ((x.src32 f.s a l).toNat * 2 ^ (x.src32 f.s b l).toNat) else 0)
      (fun x l => if (x.src32 f.s b l).toNat < 64 then
        BitVec.ofNat 64 ((x.src64 f.s a l).toNat * 2 ^ (x.src32 f.s b l).toNat) else 0)
    ∧ IntDoes (.shr h f .log d a b c) f d
      (fun x l => BitVec.ofNat 32 ((x.src32 f.s a l).toNat / 2 ^ (x.src32 f.s b l).toNat))
      (fun x l => BitVec.ofNat 64 ((x.src64 f.s a l).toNat / 2 ^ (x.src32 f.s b l).toNat))
    ∧ IntDoes (.shr h f .ari d a b c) f d
      (fun x l => BitVec.ofInt 32 ((x.src32 f.s a l).toInt / 2 ^ (x.src32 f.s b l).toNat))
      (fun x l => BitVec.ofInt 64 ((x.src64 f.s a l).toInt / 2 ^ (x.src32 f.s b l).toNat))
    ∧ IntDoes (.shr h f .fun_ d a b c) f d
      (fun x l => BitVec.ofNat 32 (((x.src32 f.s c l).toNat * 2 ^ 32 + (x.src32 f.s a l).toNat)
        / 2 ^ ((x.src32 f.s b l).toNat % 32)))
      (fun x l => BitVec.ofNat 64 (((x.src64 f.s c l).toNat * 2 ^ 64 + (x.src64 f.s a l).toNat)
        / 2 ^ ((x.src32 f.s b l).toNat % 64)))
    ∧ IntDoes (.rol h f d a b) f d (fun x l => (x.src32 f.s a l).rotateLeft (x.src32 f.s b l).toNat)
      (fun x l => (x.src64 f.s a l).rotateLeft (x.src32 f.s b l).toNat))

/-- R340: POPC counts ones; CLZ counts the zeros above the highest one, N for zero. BFE takes `len` bits from `pos` on,
both from the control word and cut to the operand, sign-extended for TY 01 and 11; BFI puts the low `len` bits of A into C
at `pos`.

R341, R345, R346: byte `i` of BSWZ is byte `sel` of B above A, as the three bits of C for it select, replaced by its
sign or by zero as C says; MOVI writes its immediate; LEA adds a shifted index to an s register. -/
def Obligations.IntegerFields : Prop :=
  (∀ (h : Hd) (f : IntF) (d a b c : Nat),
    Does32 (.popc h f d a) f.s d [] (fun x l =>
      if Ty.wide f.ty then BitVec.ofNat 32 ((List.range 64).countP fun i => (x.src64 f.s a l).getLsbD i)
      else BitVec.ofNat 32 ((List.range 32).countP fun i => (x.src32 f.s a l).getLsbD i))
    ∧ Does32 (.clz h f d a) f.s d [] (fun x l =>
      if Ty.wide f.ty then
        (if x.src64 f.s a l = 0 then 64 else BitVec.ofNat 32 (63 - Nat.log2 (x.src64 f.s a l).toNat))
      else (if x.src32 f.s a l = 0 then 32 else BitVec.ofNat 32 (31 - Nat.log2 (x.src32 f.s a l).toNat)))
    ∧ IntDoes (.bfe h f d a b) f d
      (fun x l =>
        let pos := min ((x.src32 f.s b l).toNat % 256) 32
        let len := min ((x.src32 f.s b l).toNat / 256 % 256) (32 - pos)
        let v : Nat := (x.src32 f.s a l).toNat / 2 ^ pos % 2 ^ len
        if f.ty.signed = true ∧ 2 ^ len ≤ 2 * v then BitVec.ofInt 32 ((v : Int) - 2 ^ len) else BitVec.ofNat 32 v)
      (fun x l =>
        let pos := min ((x.src32 f.s b l).toNat % 256) 64
        let len := min ((x.src32 f.s b l).toNat / 256 % 256) (64 - pos)
        let v : Nat := (x.src64 f.s a l).toNat / 2 ^ pos % 2 ^ len
        if f.ty.signed = true ∧ 2 ^ len ≤ 2 * v then BitVec.ofInt 64 ((v : Int) - 2 ^ len) else BitVec.ofNat 64 v)
    ∧ Completes (.bfi h f d a b c) (destIntV f d) (destIntS f d) [] [] [] fun x w =>
        let bit (n : Nat) (p q : Nat → Bool) (k : W32) (i : Nat) : Bool :=
          let pos := min (k.toNat % 256) n
          let len := min (k.toNat / 256 % 256) (n - pos)
          if pos ≤ i ∧ i < pos + len then p (i - pos) else q i
        (f.s = false → Ty.wide f.ty = false → d ≠ 255 → ∀ l, l < 32 → x.act.has l = true → ∀ i, i < 32 →
          (w.getV d l).getLsbD i = bit 32 (x.w.getV a l).getLsbD (x.w.getV c l).getLsbD (x.w.getV b l) i)
        ∧ (f.s = false → Ty.wide f.ty = true → d ≠ 255 → ∀ l, l < 32 → x.act.has l = true → ∀ i, i < 64 →
          (w.getV64 d l).getLsbD i = bit 64 (x.w.getV64 a l).getLsbD (x.w.getV64 c l).getLsbD (x.w.getV b l) i)
        ∧ (f.s = true → Ty.wide f.ty = true → x.act ≠ 0 → ∀ i, i < 64 →
          (w.getS d).getLsbD i = bit 64 (x.w.getS a).getLsbD (x.w.getS c).getLsbD ((x.w.getS b).extractLsb' 0 32) i))
  ∧ (∀ (h : Hd) (sc : Bool) (d a b c : Nat) (i32 : W32) (i64 : W64) (sh : Fin 5),
    Completes (.bswz h sc d a b c) (if sc then [] else destV false d) (if sc then [d] else []) [] [] [] (fun x w =>
      ∀ l, l < 32 → x.act.has l = true → (sc = false → d ≠ 255) → ∀ i, i < 4 →
        let k : W32 := x.src32 sc c l
        let src : W64 := x.src32 sc b l ++ x.src32 sc a l
        let byte : BitVec 8 := src.extractLsb' (8 * (k.toNat / 2 ^ (3 * i) % 8)) 8
        let byte : BitVec 8 := if k.getLsbD (16 + i) then (if byte.getLsbD 7 then 255 else 0) else byte
        ((if sc then (w.getS d).extractLsb' 0 32 else w.getV d l) : W32).extractLsb' (8 * i) 8
          = if k.getLsbD (12 + i) then 0 else byte)
    ∧ Does32 (.movi32 h sc d i32) sc d [] (fun _ _ => i32)
    ∧ Does64 (.movi64 h sc d i64) sc d (fun _ _ => i64)
    ∧ Does64 (.lea h sc sh d a b) sc d (fun x l =>
      BitVec.ofNat 64 ((x.w.getS a).toNat + (if sc then (x.w.getS b).toNat else (x.w.getV b l).toNat) * 2 ^ sh.val)))

/-- R342, R343, R344, R349: ISETP compares, signed for TY 01 and 11; PLOG combines two predicates; SEL chooses by the
predicate C; VOTE gives every active thread the one truth value that its operation forms of the `n` active threads and the
`t` of them whose predicate is true.

R348, R350, R351: BALLOT writes its s register once for each issue, even when no thread is active; SHFL reads its
source lane within a segment, or the thread's own where that one is not active; IREDUX combines over the active threads, with
the value of its table where there is none, and extends a 32-bit result by TY. -/
def Obligations.PredicatesAndVotes : Prop :=
  (∀ (h : Hd) (ty : Ty) (d a b c : Nat),
    (∀ op : ICond, DoesP (.isetp h ty op d a b) d fun x l =>
      let p : Int := if Ty.wide ty then (if ty.signed then (x.w.getV64 a l).toInt else ((x.w.getV64 a l).toNat : Int))
        else (if ty.signed then (x.w.getV a l).toInt else ((x.w.getV a l).toNat : Int))
      let q : Int := if Ty.wide ty then (if ty.signed then (x.w.getV64 b l).toInt else ((x.w.getV64 b l).toNat : Int))
        else (if ty.signed then (x.w.getV b l).toInt else ((x.w.getV b l).toNat : Int))
      match op with
      | .eq => decide (p = q)
      | .ne => decide (p ≠ q)
      | .lt => decide (p < q)
      | .le => decide (p ≤ q)
      | .gt => decide (q < p)
      | .ge => decide (q ≤ p))
    ∧ (∀ op : PlogOp, DoesP (.plog h op d a b) d fun x l =>
      let p := x.w.getP a l
      let q := x.w.getP b l
      match op with
      | .and => p && q
      | .or => p || q
      | .xor => xor p q
      | .andn => p && !q
      | .orn => p || !q
      | .not => !p
      | .mov => p)
    ∧ IntDoes (.sel h ty d a b c) ⟨false, ty⟩ d (fun x l => if x.w.getP c l then x.w.getV a l else x.w.getV b l)
      (fun x l => if x.w.getP c l then x.w.getV64 a l else x.w.getV64 b l)
    ∧ (∀ op : VoteOp, DoesP (.vote h op d a) d fun x _ =>
      let n := (List.range 32).countP fun l => x.act.has l
      let t := (List.range 32).countP fun l => x.act.has l && x.w.getP a l
      match op with
      | .all => decide (t = n)
      | .any => decide (1 ≤ t)
      | .eq => decide (t = 0 ∨ t = n)
      | .maj => decide (n < 2 * t)
      | .none => decide (t = 0)))
  ∧ (∀ (h : Hd) (ty : Ty) (d a b : Nat),
    Completes (.ballot h d a) [] [d] [] [] [] (fun x w =>
      ∀ i, (w.getS d).getLsbD i = (decide (i < 32) && x.act.has i && x.w.getP a i))
    ∧ (∀ op : ShflOp,
      let src (x : Ctx) (l : Nat) : Nat :=
        let k := (x.w.getV b l).toNat % 32
        let g := 32 / 2 ^ min ((x.w.getV b l).toNat / 32 % 8) 5
        let r := l % g
        l - r + (match op with
          | .idx => k % g
          | .rotu => (r + g - k % g) % g
          | .rotd => (r + k) % g
          | .xor => (r ^^^ k) % g)
      IntDoes (.shfl h ty op d a b) ⟨false, ty⟩ d
        (fun x l => if x.act.has (src x l) then x.w.getV a (src x l) else x.w.getV a l)
        (fun x l => if x.act.has (src x l) then x.w.getV64 a (src x l) else x.w.getV64 a l))
    ∧ (∀ op : ReduxOp, Completes (.iredux h ty op d a) [] [d] [] [] [] (fun x w =>
      let ls := (List.range 32).filter fun l => x.act.has l
      (Ty.wide ty = true → ReduxOp.Combines op ty.signed (ls.map fun l => x.w.getV64 a l) (w.getS d))
      ∧ (Ty.wide ty = false → ∃ r : W32, ReduxOp.Combines op ty.signed (ls.map fun l => x.w.getV a l) r
          ∧ w.getS d = if ty.signed then r.signExtend 64 else r.setWidth 64))))

/-! ### Floating point, conversion and hash instructions (chapter 20) -/

/-- R355, R356: FADD, FMUL and FFMA round the exact value once, in the mode of the MOD prefix; FMIN and FMAX give one
operand's bits, or the canonical NaN where both are NaN, and do not round. Their formats are FP32, BF16 and FP16; the words
are those that R356 writes out. -/
def Obligations.FloatArithmetic : Prop :=
  ∀ (h : Hd) (sc : Bool) (fm : Fmt) (d a b c : Nat),
    DoesFp (.fadd h sc fm d a b) sc d [wsSat] (fun x l =>
      x.rounded fm ((x.val sc fm a l).add (x.val sc fm b l) x.c.rnd))
    ∧ DoesFp (.fmul h sc fm d a b) sc d [wsSat] (fun x l => x.rounded fm ((x.val sc fm a l).mul (x.val sc fm b l)))
    ∧ DoesFp (.ffma h sc fm d a b c) sc d [wsSat] (fun x l =>
      x.rounded fm (((x.val sc fm a l).mul (x.val sc fm b l)).add (x.val sc fm c l) x.c.rnd))
    ∧ Does32 (.fmin h sc fm d a b) sc d [] (fun x l =>
      let p := x.val sc fm a l
      let q := x.val sc fm b l
      BitVec.ofNat 32 (if p.isNan && q.isNan then canonNan fm
        else if p.isNan then (x.src32 sc b l).toNat % 2 ^ fm.bits
        else if q.isNan || p.cmp q == some .lt || (p.cmp q == some .eq && p.sign) then (x.src32 sc a l).toNat % 2 ^ fm.bits
        else (x.src32 sc b l).toNat % 2 ^ fm.bits))
    ∧ Does32 (.fmax h sc fm d a b) sc d [] (fun x l =>
      let p := x.val sc fm a l
      let q := x.val sc fm b l
      BitVec.ofNat 32 (if p.isNan && q.isNan then canonNan fm
        else if p.isNan then (x.src32 sc b l).toNat % 2 ^ fm.bits
        else if q.isNan || p.cmp q == some .gt || (p.cmp q == some .eq && q.sign) then (x.src32 sc a l).toNat % 2 ^ fm.bits
        else (x.src32 sc b l).toNat % 2 ^ fm.bits))
    ∧ ((Instr.fadd h sc fm d a b).wf = true ∨ (Instr.fmul h sc fm d a b).wf = true ∨ (Instr.ffma h sc fm d a b c).wf = true
      ∨ (Instr.fmin h sc fm d a b).wf = true ∨ (Instr.fmax h sc fm d a b).wf = true → fm = .fp32 ∨ fm = .bf16 ∨ fm = .fp16)
    ∧ decodeTableWord 64 0x0000070605047420 = some (.ffma ⟨7, false, false⟩ false .fp32 4 5 6 7)
    ∧ decodeTableWord 64 0x0080001514147440 = some (.fmax ⟨7, false, false⟩ true .fp32 20 20 21)

/-- R355: sums and products are exact; a NaN operand, ∞ − ∞ and 0 × ∞ give NaN; an infinite operand gives an infinity;
an exact zero from terms of opposite sign is +0 in every mode but RD; the order of two values is that of the numbers.

R204, R205: a value is rounded once to the format's precision, ties and directions as the mode says. In range the code
stands for the rounded value, and INEXACT says whether it differs; beyond the range a saturating result is the largest, and
another the infinity or the largest by its mode (E4M3, which has no infinity: NaN).

R205, R359: widening to FP32 is exact, keeps a NaN's sign and reports nothing; a value that goes to an integer format is
rounded to an integer in its mode, then held within the format's range, where SAT says that it was outside; a NaN gives 0
and SAT. -/
def Obligations.FloatRounding : Prop :=
  ((∀ (mode : Rnd) (s t : Bool) (m n : Nat) (e f : Int),
    Val.isFin (Val.add (.fin s m e) (.fin t n f) mode) = true
    ∧ Val.rat (Val.add (.fin s m e) (.fin t n f) mode) = Val.rat (.fin s m e) + Val.rat (.fin t n f)
    ∧ (Val.rat (.fin s m e) + Val.rat (.fin t n f) = 0 → (m ≠ 0 ∨ s ≠ t) →
      (Val.add (.fin s m e) (.fin t n f) mode).sign = decide (mode = .rd))
    ∧ Val.isFin (Val.mul (.fin s m e) (.fin t n f)) = true
    ∧ Val.rat (Val.mul (.fin s m e) (.fin t n f)) = Val.rat (.fin s m e) * Val.rat (.fin t n f)
    ∧ (Val.mul (.fin s m e) (.fin t n f)).sign = (s != t)
    ∧ Val.cmp (.fin s m e) (.fin t n f) = some (compare (Val.rat (.fin s m e)) (Val.rat (.fin t n f))))
  ∧ ∀ (mode : Rnd) (a b : Val) (s t : Bool),
    (a.isNan = true ∨ b.isNan = true → Val.add a b mode = .nan false ∧ Val.mul a b = .nan false ∧ Val.cmp a b = none)
    ∧ Val.add (.inf s) (.inf t) mode = (if s = t then .inf s else .nan false)
    ∧ (Val.isFin a = true → Val.add (.inf s) a mode = .inf s ∧ Val.add a (.inf s) mode = .inf s)
    ∧ (Val.isFin a = true → Val.rat a = 0 → Val.mul (.inf s) a = .nan false ∧ Val.mul a (.inf s) = .nan false)
    ∧ (Val.isFin a = true → Val.rat a ≠ 0 → Val.mul (.inf s) a = .inf (s != a.sign) ∧ Val.mul a (.inf s) = .inf (s != a.sign)))
  ∧ (∀ (fm : Fmt) (mode : Rnd) (sat s : Bool) (m : Nat) (e : Int), Fmt.isFp fm = true → m ≠ 0 →
    let r := roundedRat fm mode s m e
    let top := Val.rat (value fm (maxCode fm))
    let p := packFp fm (.fin s m e) mode sat
    (|r| ≤ top → Val.isFin (value fm p.1) = true ∧ Val.rat (value fm p.1) = r ∧ (value fm p.1).sign = s
      ∧ p.2.sat = false ∧ (p.2.inexact = true ↔ r ≠ Val.rat (.fin s m e)))
    ∧ (top < |r| → sat = true → Val.isFin (value fm p.1) = true ∧ Val.rat (value fm p.1) = (if s then -top else top)
      ∧ p.2 = ⟨true, true⟩)
    ∧ (top < |r| → sat = false → p.2 = ⟨false, true⟩
      ∧ if fm = .e4m3 then value fm p.1 = .nan s
        else if mode = .rne ∨ mode = .rna ∨ (mode = .ru ∧ s = false) ∨ (mode = .rd ∧ s = true) then value fm p.1 = .inf s
        else Val.isFin (value fm p.1) = true ∧ Val.rat (value fm p.1) = if s then -top else top))
  ∧ ((∀ (fm : Fmt) (c : Nat) (mode : Rnd) (sat : Bool), (Fmt.isFp fm = true ∨ fm = .e8m0 ∨ fm = .e5f2) →
    let p := pack .fp32 (value fm c) mode sat
    p.2 = ⟨false, false⟩
    ∧ (Val.isFin (value fm c) = true → Val.isFin (value .fp32 p.1) = true ∧ Val.rat (value .fp32 p.1) = Val.rat (value fm c)
        ∧ (value .fp32 p.1).sign = (value fm c).sign)
    ∧ (∀ s, value fm c = .nan s → p.1 = (if s then 0xFFC00000 else 0x7FC00000))
    ∧ (∀ s, value fm c = .inf s → p.1 = (if s then 0xFF800000 else 0x7F800000)))
  ∧ ∀ (fm : Fmt) (mode : Rnd) (sat s : Bool) (m : Nat) (e : Int),
    (fm = .int8 ∨ fm = .uint8 ∨ fm = .int16 ∨ fm = .int32 ∨ fm = .uint32) →
    let signed := decide (fm = .int8 ∨ fm = .int16 ∨ fm = .int32)
    let lo : Int := if signed then -2 ^ (fm.bits - 1) else 0
    let hi : Int := if signed then 2 ^ (fm.bits - 1) - 1 else 2 ^ fm.bits - 1
    let r := roundInt mode (Val.rat (.fin s m e))
    let p := pack fm (.fin s m e) mode sat
    (p.1 : Int) = (max lo (min hi r)) % 2 ^ fm.bits
    ∧ p.2.sat = decide (r < lo ∨ hi < r)
    ∧ (p.2.inexact = true ↔ ((max lo (min hi r) : Int) : Rat) ≠ Val.rat (.fin s m e))
    ∧ pack fm (.nan s) mode sat = (0, ⟨true, false⟩))

/-- R357, R365, R366: FSETP compares, with every condition but `.ne` and `.nan` false for a NaN; FKEY maps codes to keys,
and FCLASS sets the one bit of the class.

R358–R362: FCVT, FTOI and ITOF convert one value, and report SAT and INEXACT; FPACK converts its FP32 sources, from the
lowest element up; FUNPK widens each element. -/
def Obligations.FloatConversions : Prop :=
  (∀ (h : Hd) (sc : Bool) (fm : Fmt) (d a b : Nat),
    (∀ op : FCond, DoesP (.fsetp h fm op d a b) d fun x l =>
      let o := (x.val false fm a l).cmp (x.val false fm b l)
      match op with
      | .eq => o == some .eq
      | .ne => o != some .eq
      | .lt => o == some .lt
      | .le => o == some .lt || o == some .eq
      | .gt => o == some .gt
      | .ge => o == some .gt || o == some .eq
      | .nan => (x.val false fm a l).isNan || (x.val false fm b l).isNan
      | .num => !((x.val false fm a l).isNan || (x.val false fm b l).isNan))
    ∧ (∀ desc : Bool, Does32 (.fkey h sc desc fm d a) sc d [] fun x l =>
      let c := (x.src32 sc a l).toNat % 2 ^ fm.bits
      let asc := if 2 ^ (fm.bits - 1) ≤ c then 2 ^ fm.bits - 1 - c else 2 ^ (fm.bits - 1) + c
      BitVec.ofNat 32 (if desc then 2 ^ fm.bits - 1 - asc else asc))
    ∧ (Fmt.isFp fm = true → Does32 (.fclass h sc fm d a) sc d [] fun x l =>
      match x.val sc fm a l with
      | .nan _ => 0x100
      | .inf s => if s then 1 else 0x80
      | .fin s m e =>
        if m = 0 then (if s then 8 else 0x10)
        else if |Val.rat (.fin s m e)| < 2 ^ (1 - fm.shape.2.2) then (if s then 4 else 0x20)
        else if s then 2 else 0x40))
  ∧ (∀ (h : Hd) (sc : Bool) (tgt src : Fmt) (mid : Option Fmt) (d a b : Nat),
    let conv (t s : Fmt) (x : Ctx) (c : Nat) : Nat × Fl := pack t (value s c) x.c.rnd x.c.sat
    DoesFp (.fcvt h sc tgt src mid d a) sc d [wsSat, wsInexact] (fun x l =>
      let r := conv tgt src x (x.src32 sc a l).toNat
      (BitVec.ofNat 32 r.1, r.2))
    ∧ DoesFp (.itof h sc tgt src d a) sc d [wsSat, wsInexact] (fun x l =>
      let r := conv tgt src x (x.src32 sc a l).toNat
      (BitVec.ofNat 32 r.1, r.2))
    ∧ Completes (.ftoi h sc tgt src d a) (if sc then [] else destV false d) (if sc then [d] else []) [] []
        [wsSat, wsInexact] (fun x w =>
      let r (l : Nat) := conv tgt src x (x.src32 sc a l).toNat
      (sc = false → d ≠ 255 → ∀ l, l < 32 → x.act.has l = true → w.getV d l = intExt tgt 32 (r l).1)
      ∧ (sc = true → w.getS d = if x.act = 0 then x.w.getS d else intExt tgt 64 (r 0).1)
      ∧ x.Sets w wsSat sc (fun l => (r l).2.sat) ∧ x.Sets w wsInexact sc fun l => (r l).2.inexact)
    ∧ (Fmt.byte tgt = false → DoesFp (.fpack h sc tgt d a b) sc d [wsSat, wsInexact] (fun x l =>
      let p := conv tgt .fp32 x (x.src32 sc a l).toNat
      let q := conv tgt .fp32 x (x.src32 sc b l).toNat
      (BitVec.ofNat 32 (p.1 + 2 ^ tgt.bits * q.1), p.2.or q.2)))
    ∧ (Fmt.byte tgt = true → DoesFp (.fpack h sc tgt d a b) sc d [wsSat, wsInexact] (fun x l =>
      let e (r i : Nat) := conv tgt .fp32 x ((x.src64 sc r l).extractLsb' (32 * i) 32).toNat
      (BitVec.ofNat 32 ((e a 0).1 + 2 ^ tgt.bits * ((e a 1).1 + 2 ^ tgt.bits * ((e b 0).1 + 2 ^ tgt.bits * (e b 1).1))),
        (((e a 0).2.or (e a 1).2).or (e b 0).2).or (e b 1).2)))
    ∧ (let n := if Fmt.byte tgt then 4 else 2
       let el (x : Ctx) (l i : Nat) : W32 :=
         BitVec.ofNat 32 (pack .fp32 (value tgt ((x.src32 sc a l).toNat / 2 ^ (tgt.bits * i))) .rne false).1
       Completes (.funpk h sc tgt d a) (if sc ∨ d = 255 then [] else (List.range n).map fun i => d + i)
         (if sc then (List.range (n / 2)).map fun i => d + i else []) [] [] [] fun x w =>
           (sc = false → d ≠ 255 → ∀ l i, l < 32 → x.act.has l = true → i < n → w.getV (d + i) l = el x l i)
           ∧ (sc = true → ∀ i, i < n / 2 → w.getS (d + i) = el x 0 (2 * i + 1) ++ el x 0 (2 * i))))
  ∧ decodeTableWord 64 0x0000000001037550 = some (.fclass ⟨7, false, false⟩ false .fp32 3 1)

/-- R363: the functions round the function's value once, with the special inputs of Table 3. FEXP2 of an integer is the
power of two, FLOG2 of a power of two its exponent, FTRIG of a multiple of a quarter turn exact, and FRCP of a finite value
with an inverse among the representable values that inverse.

The model's choice, log 6: the fixed-point computation of the other values, of which nothing is said here. -/
def Obligations.FloatFunctions : Prop :=
  (∀ (h : Hd) (sc cos : Bool) (d a : Nat),
    DoesFp (.frcp h sc d a) sc d [wsSat] (fun x l => x.rounded .fp32 (fnVal .rcp (x.val sc .fp32 a l)))
    ∧ DoesFp (.frsq h sc d a) sc d [wsSat] (fun x l => x.rounded .fp32 (fnVal .rsq (x.val sc .fp32 a l)))
    ∧ DoesFp (.fexp2 h sc d a) sc d [wsSat] (fun x l => x.rounded .fp32 (fnVal .exp2 (x.val sc .fp32 a l)))
    ∧ DoesFp (.flog2 h sc d a) sc d [wsSat] (fun x l => x.rounded .fp32 (fnVal .log2 (x.val sc .fp32 a l)))
    ∧ DoesFp (.ftrig h sc cos d a) sc d [wsSat] (fun x l =>
      x.rounded .fp32 (fnVal (if cos then .cos else .sin) (x.val sc .fp32 a l))))
  ∧ (∀ s : Bool,
    fnVal .rcp (.fin s 0 0) = .inf s ∧ fnVal .rcp (.inf s) = .fin s 0 0
    ∧ fnVal .rsq (.fin s 0 0) = .inf s ∧ fnVal .rsq (.inf false) = .fin false 0 0 ∧ fnVal .rsq (.inf true) = .nan false
    ∧ fnVal .exp2 (.fin s 0 0) = .fin false 1 0 ∧ fnVal .exp2 (.inf s) = (if s then .fin false 0 0 else .inf false)
    ∧ fnVal .log2 (.fin s 0 0) = .inf true ∧ fnVal .log2 (.inf s) = (if s then .nan false else .inf false)
    ∧ fnVal .sin (.inf s) = .nan false ∧ fnVal .cos (.inf s) = .nan false
    ∧ ∀ op, fnVal op (.nan s) = .nan false)
  ∧ (∀ (m : Nat) (e : Int), m ≠ 0 → fnVal .rsq (.fin true m e) = .nan false ∧ fnVal .log2 (.fin true m e) = .nan false)
  ∧ (∀ n : Nat, n ≤ 149 →
    Val.rat (fnVal .exp2 (.fin true n 0)) = 1 / 2 ^ n ∧ Val.rat (fnVal .exp2 (.fin false n 0)) = 2 ^ n)
  ∧ (∀ (k : Nat) (e : Int), Val.rat (fnVal .log2 (.fin false (2 ^ k) e)) = k + e)
  ∧ (∀ n : Nat, Val.rat (fnVal .sin (.fin false n (-2))) = (if n % 4 = 1 then 1 else if n % 4 = 3 then -1 else 0)
    ∧ Val.rat (fnVal .cos (.fin false n (-2))) = if n % 4 = 0 then 1 else if n % 4 = 2 then -1 else 0)
  ∧ ∀ (s : Bool) (k : Nat) (e : Int), Val.rat (fnVal .rcp (.fin s (2 ^ k) e)) = (if s then -1 else 1) / (2 ^ k * 2 ^ e)

/-- R364, R371: VDOT4 adds the four products to C, exactly with one rounding, or wrapping modulo 2^32 after sign or zero
extension; HASH64 gives the counter hash of R246, and GUMB the noise −ln(−ln u) of R247, where u = (v + 0.5) × 2^−24 and
v is the top 24 bits of the hash: what is rounded to FP32 stands within 2^−300 of that real number, which is how the model
reads 'correctly rounded' (DEDUCED, log 6). -/
def Obligations.DotAndHash : Prop :=
  ∀ (h : Hd) (sc : Bool) (fm : Fmt) (d a b c : Nat),
    ((fm = .e4m3 ∨ fm = .e5m2) → DoesFp (.vdot4 h sc fm d a b c) sc d [wsSat] (fun x l =>
      let el (n i : Nat) : Val := value fm ((x.src32 sc n l).toNat / 2 ^ (8 * i) % 256)
      let t (v : Val) (i : Nat) : Val := v.add ((el a i).mul (el b i)) x.c.rnd
      x.rounded .fp32 (t (t (t (t (x.val sc .fp32 c l) 0) 1) 2) 3)))
    ∧ (fm = .int8 ∨ fm = .uint8 → Completes (.vdot4 h sc fm d a b c) (if sc then [] else destV false d)
        (if sc then [d] else []) [] [] [] fun x w =>
      let el (n l i : Nat) : Int :=
        let e : BitVec 8 := (x.src32 sc n l).extractLsb' (8 * i) 8
        if fm = .int8 then e.toInt else (e.toNat : Int)
      let r (l : Nat) : W32 := BitVec.ofInt 32 ((x.src32 sc c l).toInt
        + (el a l 0 * el b l 0 + el a l 1 * el b l 1 + el a l 2 * el b l 2 + el a l 3 * el b l 3))
      (sc = false → d ≠ 255 → ∀ l, l < 32 → x.act.has l = true → w.getV d l = r l)
      ∧ (sc = true → x.act ≠ 0 → w.getS d = (r 0).setWidth 64))
    ∧ (let hash (seed pos : W64) (index : W32) : W64 :=
        let u : W64 := seed ^^^ pos * 0x9E3779B97F4A7C15 ^^^ index.setWidth 64 * 0xC2B2AE3D27D4EB4F
        let p : W64 := (u ^^^ (u >>> 31)) * 0xD6E8FEB86659FD93
        let q : W64 := (p ^^^ (p >>> 29)) * 0xCB24D0A5C88C35B3
        q ^^^ (q >>> 32)
      Does64 (.hash64 h sc d a b c) sc d (fun x l => hash (x.src64 sc a l) (x.src64 sc b l) (x.src32 sc c l))
      ∧ Does32 (.gumb h sc d a b c) sc d [] (fun x l => gumbel (x.src64 sc a l) (x.src64 sc b l) (x.src32 sc c l))
      ∧ ∀ (seed pos : W64) (index : W32), GumbelIs (hash seed pos index) (gumbel seed pos index))

/-- R367–R370: FARGMAX gives the lane and the bits of the largest number, the lowest lane among equal ones, and the values
its pseudocode gives where there is none; FREDUX combines in the fixed tree of its pseudocode, with an identity; VHAD is the
butterfly of its stages, with zero in inactive lanes. Only the issuing group's active threads take part. -/
def Obligations.FloatWeaveOperations : Prop :=
  ∀ (h : Hd) (fm : Fmt) (d a : Nat),
    Completes (.fargmax h fm d a) [] [d] [] [] [] (fun x w =>
      let num (l : Nat) : Prop := l < 32 ∧ x.act.has l = true ∧ (x.val false fm a l).isNan = false
      let key (l : Nat) : Nat := ascKey fm.bits (x.w.getV a l).toNat
      (∀ b, num b → (∀ l, num l → key l < key b ∨ (key l = key b ∧ b ≤ l)) →
        w.getS d = BitVec.ofNat 64 (b * 2 ^ 32 + (x.w.getV a b).toNat % 2 ^ fm.bits))
      ∧ ((∀ l, ¬ num l) → ∀ b, b < 32 → x.act.has b = true → (∀ l, l < b → x.act.has l = false) →
        w.getS d = BitVec.ofNat 64 (b * 2 ^ 32 + canonNan fm))
      ∧ (x.act = 0 → w.getS d = BitVec.ofNat 64 (0xFFFFFFFF00000000 + signCode fm true + infCode fm)))
    ∧ (∀ op : FReduxOp, Completes (.fredux h op d a) [] [d] [] [] [wsSat] (fun x w =>
      let comb (u v : W32) : W32 × Bool :=
        match op with
        | .add =>
          let r := x.rounded .fp32 ((value .fp32 u.toNat).add (value .fp32 v.toNat) x.c.rnd)
          (r.1, r.2.sat)
        | .min => (fMinMax .fp32 false u v, false)
        | .max => (fMinMax .fp32 true u v, false)
      let r := treeNode comb (fun l => if x.act.has l then some (x.w.getV a l) else none) 5 0
      w.getS d = BitVec.setWidth 64 (match r.1 with
        | some v => v
        | none => match op with
          | .add => 0x00000000#32
          | .min => 0x7F800000#32
          | .max => 0xFF800000#32)
      ∧ w.wstat.getLsbD wsSat = (x.w.wstat.getLsbD wsSat || r.2)))
    ∧ ∀ wide : Bool, Completes (.vhad h wide d a) (destV false d) [] [] [] [wsSat] fun x w =>
      let rnd (v : Val) : W32 := (x.rounded .fp32 v).1
      let r := hadLane (fun p q => rnd ((value .fp32 p.toNat).add (value .fp32 q.toNat) x.c.rnd))
        (fun p q => rnd ((value .fp32 p.toNat).add (value .fp32 q.toNat).neg x.c.rnd))
        (fun l => if x.act.has l then x.w.getV a l else 0) (if wide then 5 else 4)
      (d ≠ 255 → ∀ l, l < 32 → x.act.has l = true → w.getV d l = r l)
      ∧ (x.c.sat = false → w.wstat = x.w.wstat)

/-! ### Memory, capability and scratchpad instructions (chapters 7, 8 and 21) -/

/-- R391, R392, R393: CAPGET writes one field; CAPCHK answers 7 without a tag, 6 without the permissions, 5 out of bounds,
else 0; STAG reads the team's table, all ones for a key that is not bound.

R390: CAPNEW never widens: BND takes a part of a tagged capability's range, PRM clears permissions, CTX names 256 aligned
bytes as space 3, OWN names the team's, the cohort's or the phase objects' own space; each refusal traps with its code and
writes nothing.

R131, R393: STAGSET's active lanes act in increasing lane order, each on the table that the lanes before it leave: a lane
binds, and answers 0, 1 for a full table or 2 for a value of all ones; STAGINV unbinds. Both change the issuing team's table and, for STAGSET, its destination. -/
def Obligations.CapabilityInstructions : Prop :=
  (∀ (h : Hd) (sel : CapSel) (mask : BitVec 8) (d a b c : Nat),
    DoesS (.capget h sel d a) d (fun x =>
      let k := x.w.getK a
      match sel with
      | .base => BitVec.ofNat 64 k.base
      | .len => BitVec.ofNat 64 k.len
      | .perm => k.perm.setWidth 64
      | .space => BitVec.ofNat 64 k.space
      | .tag => if k.tag then 1 else 0)
    ∧ DoesS (.capchk h mask d a b c) d (fun x =>
      let k := x.w.getK a
      let lo := k.base + (x.w.getS b).toNat
      let hi := lo + (x.w.getS c).toNat
      if k.tag = false then 7
      else if k.perm &&& mask ≠ mask then 6
      else if k.base + k.len < hi ∨ 2 ^ 64 < hi then 5
      else 0)
    ∧ Does32 (.stag h d a) false d [] (fun x l =>
      (Tbl.find x.e.t.stag ((x.w.getV64 a l).toNat % 2 ^ 48)).getD 0xFFFFFFFF))
  ∧ (∀ (h : Hd) (space : BitVec 4) (mask : BitVec 8) (d a b c : Nat),
    let new (i : Instr) (ok : Ctx → Prop) (base len : Ctx → Nat) (perm : Ctx → BitVec 8) (sp : Ctx → Nat) : Prop :=
      ∀ (st : State) (x : Ctx), st.Issues i x → ok x → ∃ t w, exec i st = .next t ∧ x.Only i t w [] [] [] [d] []
        ∧ w.getK d = mkCap (base x) (len x) (perm x) (sp x)
    let bad (i : Instr) (p : Ctx → Prop) (code : TrapCode) (detail : Nat) : Prop :=
      ∀ (st : State) (x : Ctx), st.Issues i x → p x → x.Traps i (.plain code detail)
    let k (x : Ctx) : Cap := x.w.getK a
    let lo (x : Ctx) : Nat := (k x).base + (x.w.getS b).toNat
    let hi (x : Ctx) : Nat := lo x + (x.w.getS c).toNat
    let fits (x : Ctx) : Prop := hi x ≤ (k x).base + (k x).len ∧ hi x ≤ 2 ^ 64 ∧ (x.w.getS c).toNat < 2 ^ 40
    new (.capnew h .bnd space mask d a b c) (fun x => (k x).tag = true ∧ fits x) lo (fun x => (x.w.getS c).toNat)
      (fun x => (k x).perm) (fun x => (k x).space)
    ∧ bad (.capnew h .bnd space mask d a b c) (fun x => (k x).tag = true ∧ ¬ fits x) .capBounds a
    ∧ new (.capnew h .prm space mask d a b c) (fun x => (k x).tag = true) (fun x => (k x).base) (fun x => (k x).len)
      (fun x => (k x).perm &&& mask) (fun x => (k x).space)
    ∧ new (.capnew h .ctx space mask d a b c)
      (fun x => (k x).tag = true ∧ (k x).space = 0 ∧ lo x % 256 = 0 ∧ lo x + 256 ≤ (k x).base + (k x).len
        ∧ lo x + 256 ≤ 2 ^ 64) lo (fun _ => 256) (fun x => (k x).perm &&& 0x53) (fun _ => 3)
    ∧ bad (.capnew h .ctx space mask d a b c) (fun x => (k x).tag = true ∧ (k x).space ≠ 0) .capPerm a
    ∧ bad (.capnew h .ctx space mask d a b c) (fun x => (k x).tag = true ∧ (k x).space = 0 ∧ lo x % 256 ≠ 0) .misaligned a
    ∧ bad (.capnew h .ctx space mask d a b c)
      (fun x => (k x).tag = true ∧ (k x).space = 0 ∧ lo x % 256 = 0
        ∧ ¬ (lo x + 256 ≤ (k x).base + (k x).len ∧ lo x + 256 ≤ 2 ^ 64)) .capBounds a
    ∧ (∀ mode : CapMode, mode ≠ .own → bad (.capnew h mode space mask d a b c) (fun x => (k x).tag = false) .capTag a)
    ∧ (space ≠ 5 → new (.capnew h .own space mask d a b c)
      (fun x => (x.w.getS b).toNat + (x.w.getS c).toNat ≤ spaceSize x.e.f.lr space.toNat)
      (fun x => (x.w.getS b).toNat) (fun x => (x.w.getS c).toNat) (fun _ => mask) (fun _ => space.toNat))
    ∧ (space ≠ 5 → bad (.capnew h .own space mask d a b c)
      (fun x => spaceSize x.e.f.lr space.toNat < (x.w.getS b).toNat + (x.w.getS c).toNat) .capBounds 0)
    ∧ bad (.capnew h .own 5 mask d a b c) (fun x => 4096 < (x.w.getS b).toNat + (x.w.getS c).toNat) .capBounds 0
    ∧ new (.capnew h .own 5 mask d a b c) (fun x => (x.w.getS b).toNat + (x.w.getS c).toNat ≤ 4096)
      (fun x => x.s.ownPeer x.e.part * 2 ^ 48 + x.e.c.inst * 4096 + (x.w.getS b).toNat) (fun x => (x.w.getS c).toNat)
      (fun _ => mask) (fun _ => 5))
  ∧ (∀ (h : Hd) (d a b : Nat) (st : State) (x : Ctx),
    let key (l : Nat) : Nat := (x.w.getV64 a l).toNat % 2 ^ 48
    (st.Issues (.stagset h d a b) x → ∃ t w tm, exec (.stagset h d a b) st = .next t
      ∧ t = { st with weaves := t.weaves, teams := t.teams } ∧ t.team x.e.tid = some tm ∧ tm = { x.e.t with stag := tm.stag }
      ∧ (∀ n, n ≠ x.e.tid → t.team n = st.team n)
      ∧ t.weave x.c.weave = some w ∧ (∀ n l, l < 32 → (n ≠ d ∨ x.act.has l = false) → w.getV n l = x.w.getV n l)
      ∧ w = { x.w with v := w.v, groups := w.groups }
      ∧ w.groups = x.w.groups.map (fun g => if g.gid == x.c.gid then g.advance x.c x.h.bnd [] else g)
      ∧ ∃ f : Nat → Tbl W32, f 0 = x.e.t.stag ∧ f 32 = tm.stag ∧ ∀ l, l < 32 →
        let v := x.w.getV b l
        let bound (n : Nat) : Option W32 := Tbl.find (f l) n
        let answers (r : W32) : Prop := d ≠ 255 → w.getV d l = r
        (x.act.has l = false → f (l + 1) = f l)
        ∧ (x.act.has l = true → v = 0xFFFFFFFF → f (l + 1) = f l ∧ answers 2)
        ∧ (x.act.has l = true → v ≠ 0xFFFFFFFF → bound (key l) = none → 256 ≤ (f l).length → f (l + 1) = f l ∧ answers 1)
        ∧ (x.act.has l = true → v ≠ 0xFFFFFFFF → (bound (key l) ≠ none ∨ (f l).length < 256) →
          f (l + 1) = Tbl.put (f l) (key l) v ∧ answers 0 ∧ Tbl.find (f (l + 1)) (key l) = some v
          ∧ ∀ n, n ≠ key l → Tbl.find (f (l + 1)) n = bound n))
    ∧ (st.Issues (.staginv h a) x → ∃ t tm, exec (.staginv h a) st = .next t
      ∧ t = { st with weaves := t.weaves, teams := t.teams } ∧ t.team x.e.tid = some tm ∧ tm = { x.e.t with stag := tm.stag }
      ∧ ∀ n, Tbl.find tm.stag n
        = if (List.range 32).any (fun l => x.act.has l && key l == n) then none else Tbl.find x.e.t.stag n))

/-- R374–R378: LD, ST, ATOM and RED whose every element passes the checks send one access for each element, and are
in flight from then on; without an active thread they do nothing. -/
def Obligations.AccessesSent : Prop :=
  ∀ (i : Instr) (u : Use) (m : MemF) (a b : Nat) (imm : W32) (st : State) (x : Ctx),
    lsForm i = some (u, m, a, b, imm) → st.Issues i x →
    (∀ e ∈ x.elems m a b imm, x.Passes u a (Size.bytes m.size) e.addr ∧ x.Aligned u a (Size.bytes m.size) e.addr
      ∧ x.Reaches a e.addr) →
    (x.elems m a b imm = [] → ∃ t w, exec i st = .next t ∧ x.Only i t w [] [] [] [] [])
    ∧ ∀ (s' : State) (accs : List Acc) (kind : LsKind) (dest : Dest) (op : Nat → ReqOp),
      (match i with
        | .ld _ m d _ _ _ => kind = .ld ∧ dest = destOf m d ∧ op = fun _ => .read
        | .st _ m _ _ c _ => kind = .st ∧ dest = .none ∧ op = fun l => x.data m c l
        | .atom _ m o d _ _ c _ => kind = .atom ∧ dest = destOf m d ∧ op = fun l => x.atomData m o c l
        | .red _ m o _ _ c _ => kind = .red ∧ dest = .none ∧ op = fun l => x.atomData m o c l
        | _ => False) →
      x.elems m a b imm ≠ [] →
      x.s.xlateAccs x.die x.e.part u.kind (x.asks a (Size.bytes m.size) (x.elems m a b imm) op) = .ok (s', accs) →
      x.mustStall { x.lsOp m kind dest with accs := accs } = false →
      ∃ t, exec i st = .next t ∧ x.Sends i t { x.lsOp m kind dest with accs := accs } dest.regs

/-- R126, R129, R374, R375: the first element that a capability check refuses traps, in lane order, with the code of the
first step that fails; only when every element has passed them does misalignment trap. R30, R32: only then the peers are
looked at, again in lane order: one without a valid entry traps PEER_ABSENT and is logged for the host, one that is
disabled or that no port of the die reaches traps PEER_DOWN, with the peer in DETAIL. Nothing is sent.

The model's choice, log 34: each element's peer is checked by itself in lane order, a lower lane's PEER_DOWN before a higher lane's
PEER_ABSENT, and a path is up where a port of the source's die has one. -/
def Obligations.AccessTraps : Prop :=
  ∀ (i : Instr) (u : Use) (m : MemF) (a b : Nat) (imm : W32) (st : State) (x : Ctx) (pre post : List Elem) (e : Elem),
    lsForm i = some (u, m, a, b, imm) → st.Issues i x → x.elems m a b imm = pre ++ e :: post →
    let size := Size.bytes m.size
    let c := x.w.getK a
    let sp := c.space ∈ u.spaces ∧ (c.space = 4 → size = 4 ∨ size = 8)
    let lies := (c.base : Int) ≤ e.addr ∧ e.addr + size ≤ (c.base : Int) + c.len ∧ e.addr + size ≤ 2 ^ 64
    let trap (code : TrapCode) : Prop := x.Traps i ((Trap.plain code a).atLane e.lane)
    ((∀ q ∈ pre, x.Passes u a size q.addr) →
      (c.tag = false → trap .capTag)
      ∧ (c.tag = true → ¬ sp → trap .capPerm)
      ∧ (c.tag = true → sp → c.perm &&& u.perm ≠ u.perm → trap .capPerm)
      ∧ (c.tag = true → sp → c.perm &&& u.perm = u.perm → ¬ lies → trap .capBounds)
      ∧ (c.tag = true → sp → c.perm &&& u.perm = u.perm → lies → c.space ≠ 0 →
        relativeOk x.e c e.addr.toNat size = false → trap .capBounds))
    ∧ ((∀ q ∈ pre ++ e :: post, x.Passes u a size q.addr) → (∀ q ∈ pre, x.Aligned u a size q.addr) →
      ¬ x.Aligned u a size e.addr → trap .misaligned)
    ∧ ((∀ q ∈ pre ++ e :: post, x.Passes u a size q.addr ∧ x.Aligned u a size q.addr) → (∀ q ∈ pre, x.Reaches a q.addr) →
      c.space = 0 →
      let peer := e.addr.toNat / 2 ^ 55
      let v := x.s.peerEnt x.e.part peer
      let peerTrap (code : TrapCode) : Trap := (Trap.plain code peer).atLane e.lane
      (entValid v = false → exec i x.s
        = .next ((x.s.emit (.peerAbsent x.e.part (BitVec.ofNat 9 peer) x.e.t.core)).trapNow x (peerTrap .peerAbsent)))
      ∧ (entValid v = true → peer ≠ x.s.ownPeer x.e.part →
        entEnable v = false ∨ x.s.portsUp (coreDie x.e.t.core) (entPhys v) = [] → x.Traps i (peerTrap .peerDown)))

/-- R385, R44: STF sends its data and, for each element, one increment of the flag at its peer.

R386–R389, R437–R439: VEXPLD and VCOMPST take consecutive elements for the active threads, from the lowest active
thread's offset on, under one range check. -/
def Obligations.FlaggedAndPackedAccessesSent : Prop :=
  (∀ (h : Hd) (m : MemF) (a b c fk : Nat) (imm : W32) (foff : BitVec 24) (st : State) (x : Ctx) (s1 s2 : State)
    (data incs : List Acc),
    let i : Instr := .stf h m a b c imm fk foff
    let u : Use := { spaces := [0], perm := 2, kind := 1, nat := true }
    let size := Size.bytes m.size
    let es := x.elems m a b imm
    let f := x.w.getK fk
    let fa := f.base + foff.toNat
    let own := x.s.ownPeer x.e.part
    st.Issues i x → es ≠ [] →
    (∀ e ∈ es, x.Passes u a size e.addr ∧ e.addr.toNat % size = 0 ∧ e.addr.toNat / 2 ^ 55 = fa / 2 ^ 55) →
    f.tag = true → f.space = 0 → f.perm.getLsbD 5 = true → fa + 8 ≤ f.base + f.len → fa + 8 ≤ 2 ^ 64 → fa % 8 = 0 →
    x.s.peerCheck x.e (fa / 2 ^ 55) = none →
    x.s.xlateAccs x.die x.e.part 1 (x.asks a size es fun l => x.data m c l) = .ok (s1, data) →
    s1.xlateAccs x.die x.e.part 2 (if fa / 2 ^ 55 = own then es.map fun e => incAcc e.lane (BitVec.ofNat 64 fa) else [])
      = .ok (s2, incs) →
    let p : LsOp := { x.lsOp m .stf .none with accs := data ++ incs, stf := some (BitVec.ofNat 64 fa) }
    x.mustStall p = false → ∃ t, exec i st = .next t ∧ x.Sends i t p [])
  ∧ (∀ (h : Hd) (m : MemF) (d a b : Nat) (imm : W32) (st : State) (x : Ctx) (s' : State) (accs : List Acc) (l0 : Nat),
    let size := Size.bytes m.size
    let base : Int := (x.w.getK a).base + (x.w.getV b l0).toNat + imm.toInt
    let es := x.lanes.zipIdx.map fun q => ({ lane := q.1, addr := base + (q.2 * size : Nat) } : Elem)
    let clear (u : Use) : Prop := x.lanes.head? = some l0
      ∧ x.Passes u a size base ∧ base + (es.length * size : Nat) ≤ ((x.w.getK a).base : Int) + (x.w.getK a).len
      ∧ base + (es.length * size : Nat) ≤ 2 ^ 64 ∧ base.toNat % size = 0
      ∧ ∀ e ∈ es, x.Passes u a size e.addr ∧ x.Reaches a e.addr
    (st.Issues (.vexpld h m d a b imm) x → clear { spaces := [0, 1, 2, 4], perm := 1, kind := 0, nat := true } →
      x.s.xlateAccs x.die x.e.part 0 (x.asks a size es fun _ => .read) = .ok (s', accs) →
      x.mustStall { x.lsOp m .ld (destOf m d) with accs := accs } = false →
      ∃ t, exec (.vexpld h m d a b imm) st = .next t
        ∧ x.Sends (.vexpld h m d a b imm) t { x.lsOp m .ld (destOf m d) with accs := accs } (destOf m d).regs)
    ∧ (st.Issues (.vcompst h m a b d imm) x → clear { spaces := [0, 1, 2, 4], perm := 2, kind := 1, nat := true } →
      x.s.openOf x.e.wid x.g.gid = none → x.g.progress = 0 → x.c.reps = 1 →
      x.s.xlateAccs x.die x.e.part 1 (x.asks a size es fun l => x.data m d l) = .ok (s', accs) →
      x.mustStall { x.lsOp m .st .none with accs := x.asks a size es fun l => x.data m d l } = false →
      ∃ t, exec (.vcompst h m a b d imm) st = .next t
        ∧ x.Sends (.vcompst h m a b d imm) t { x.lsOp m .st .none with accs := accs } []))

/-- R152, R376–R378: when ACCESS_COMPLETE lets a load's accesses be performed, each destination takes the bytes of memory,
the lowest first, and a capability keeps its tag only where one may stand; no memory changes. -/
def Obligations.LoadCompletes : Prop :=
  ∀ (s : State) (id : Nat) (p : LsOp) (w : Weave), s.Local id p w → p.kind = .ld →
    (∀ a ∈ p.accs, a.op = .read ∧ s.forwarded id p a = none
      ∧ (p.sem = .acq ∨ p.sem = .acqrel → s.mismatched a.loc a.size p.scope p.ident = false)
      ∧ (p.scope = .team → s.staged p.ident.coreNum .ls a.loc = none)) →
    let alive : Prop := w.live ≠ 0 ∧ p.lanes &&& ~~~w.dead ≠ 0
    ∃ t w', exec (.accessComplete id) s = .next t ∧ s.Completed t id p w w'
      ∧ t = { s with weaves := t.weaves, lsOps := t.lsOps, staging := t.staging } ∧ w'.wstat = w.wstat
      ∧ (∀ r, p.dest = .v r false → r ≠ 255 → (p.accs.map (·.lane)).Nodup → ∀ a ∈ p.accs, w.live.has a.lane = true →
        a.lane < 32 → w'.getV r a.lane = BitVec.ofNat 32 (Memory.num s.mem (Loc.pa a.loc) a.size))
      ∧ (∀ r, p.dest = .v r true → r < 254 → (p.accs.map (·.lane)).Nodup → ∀ a ∈ p.accs, w.live.has a.lane = true →
        a.lane < 32 → w'.getV64 r a.lane = BitVec.ofNat 64 (Memory.num s.mem (Loc.pa a.loc) a.size))
      ∧ (∀ r a, p.dest = .s r → p.accs = [a] → alive →
        w'.getS r = BitVec.ofNat 64 (Memory.num s.mem (Loc.pa a.loc) a.size))
      ∧ (∀ r a, p.dest = .k r → p.accs = [a] → a.size = 16 → alive →
        let c : Cap := { bits := BitVec.ofNat 128 (Memory.num s.mem (Loc.pa a.loc) 16),
                         tag := s.tags.contains (Loc.pa a.loc / 16) }
        w'.getK r = { c with tag := c.tag && c.wellFormed })

/-- R36, R125, R377, R378: when a store's accesses are performed, each byte that they cover holds the data of the highest lane that
covers it, the lowest byte first, and every other byte of memory is as before; a tag is cleared with its bytes, and set by a capability
that has one.

R381–R384: an atomic or a reduction replaces each lane's element by the value of its operation, in one step, the lanes of overlapping
elements one after another in increasing lane order, and an atomic returns what its lane found; a CAS that fails writes nothing.

The model's choice, log 55: the accesses of one completion are performed in one step, the lanes of an atomic in lane order whether or
not their elements overlap. -/
def Obligations.WritesComplete : Prop :=
  (∀ (s : State) (id : Nat) (p : LsOp) (w : Weave), s.Local id p w → p.kind = .st → p.stf = none → p.sem ≠ .acq → p.sem ≠ .acqrel →
    (p.accs.map (·.lane)).Nodup →
    (∀ a ∈ p.accs, (∃ d tag, a.op = .write d tag) ∧ a.size ≤ 16 ∧ 0 < a.size
      ∧ ∀ n, n < a.size → s.plainByte (Loc.pa a.loc + n)) →
    ∃ t w', exec (.accessComplete id) s = .next t ∧ s.Completed t id p w w' ∧ w'.v = w.v ∧ w'.s = w.s ∧ w'.k = w.k
      ∧ w'.wstat = w.wstat
      ∧ t = { s with mem := t.mem, tags := t.tags, rel := t.rel, staging := t.staging, weaves := t.weaves, lsOps := t.lsOps }
      ∧ (∀ a ∈ p.accs, ∀ d tag, a.op = .write d tag → ∀ n, n < a.size →
        (∀ b ∈ p.accs, a.lane < b.lane → ¬ b.On (Loc.pa a.loc + n)) →
        Memory.get t.mem (Loc.pa a.loc + n) = d.extractLsb' (8 * n) 8)
      ∧ (∀ z, (∀ a ∈ p.accs, ¬ a.On z) → Memory.get t.mem z = Memory.get s.mem z)
      ∧ ((∀ q ∈ p.accs, q.size = 16 ∧ Loc.pa q.loc % 16 = 0) → ∀ a ∈ p.accs, ∀ d tag, a.op = .write d tag →
        (∀ b ∈ p.accs, a.lane < b.lane → Loc.pa b.loc ≠ Loc.pa a.loc) → t.tags.contains (Loc.pa a.loc / 16) = tag)
      ∧ ((∀ q ∈ p.accs, q.size ≠ 16) → ∀ a ∈ p.accs, ∀ n, n < a.size → t.tags.contains ((Loc.pa a.loc + n) / 16) = false))
  ∧ (∀ (s : State) (id : Nat) (p : LsOp) (w : Weave), s.Local id p w → (p.kind = .atom ∨ p.kind = .red) →
    p.accs.Pairwise (fun a b => a.lane < b.lane) →
    (∀ a ∈ p.accs, (∃ o c y, a.op = .atom o c y) ∧ (a.size = 4 ∨ a.size = 8)
      ∧ (p.sem = .acq ∨ p.sem = .acqrel → s.mismatched a.loc a.size p.scope p.ident = false)
      ∧ ∀ n, n < a.size → s.plainByte (Loc.pa a.loc + n)) →
    ∃ t w', exec (.accessComplete id) s = .next t ∧ s.Completed t id p w w' ∧ w'.wstat = w.wstat
      ∧ t = { s with mem := t.mem, tags := t.tags, rel := t.rel, staging := t.staging, weaves := t.weaves, lsOps := t.lsOps }
      ∧ (p.dest = .none → w'.v = w.v ∧ w'.s = w.s ∧ w'.k = w.k)
      ∧ ∃ f : Nat → Memory, f 0 = s.mem ∧ f p.accs.length = t.mem ∧ ∀ (i : Nat) (a : Acc) o c y, p.accs[i]? = some a → a.op = .atom o c y →
        let old : BitVec (8 * a.size) := BitVec.ofNat _ (Memory.num (f i) (Loc.pa a.loc) a.size)
        let new := atomTable o old (c.setWidth (8 * a.size)) (y.setWidth (8 * a.size))
        Memory.num (f (i + 1)) (Loc.pa a.loc) a.size = (new.getD old).toNat
        ∧ (∀ z, ¬ a.On z → Memory.get (f (i + 1)) z = Memory.get (f i) z)
        ∧ (∀ r, p.dest = .v r (a.size == 8) → r < 255 → (a.size = 8 → r < 254) → a.lane < 32 → w.live.has a.lane = true →
          if a.size = 8 then w'.getV64 r a.lane = old.setWidth 64 else w'.getV r a.lane = old.setWidth 32)
        ∧ (∀ r, p.dest = .s r → p.accs = [a] → w.live ≠ 0 → p.lanes &&& ~~~w.dead ≠ 0 → w'.getS r = old.setWidth 64))

/-! ### Exceptions, control and system instructions (chapters 6, 14 and 18) -/

/-- R252–R258: taking an exception. Under a scope that is being cancelled the group's threads end; a trap in the handler, or without one, ends the
team's threads there and writes an entry of KIND 2 the first time; another group's handler makes the group wait; else the
group enters its handler, with the return at the trapping address, behind it, or at its run's first instruction.

The model's choice, log 61: the group's progress index is 0 in the handler (`State.Enters`). Log 21: a trap of a group whose team is
ending already writes no further entry. -/
def Obligations.ExceptionEntry : Prop :=
  ∀ (s : State) (wid gid : Nat) (addr : W64) (len : Nat) (bnd : Bool) (tr : Trap) (e : Env) (g : Group),
    s.env wid = some e → e.w.group gid = some g → (∀ l, tr.lane = some l → l < 32) →
    let t := s.takeTrap wid gid addr len bnd tr
    let here := e.w.anyTrap g.lanes
    let there := e.w.anyTrap (e.w.live &&& ~~~g.lanes)
    let lost (double : Bool) : Prop := (∃ tm, t.team e.tid = some tm ∧ tm.ending = true)
      ∧ (∃ w, t.weave wid = some w ∧ w.live = e.w.live &&& ~~~g.lanes)
      ∧ (t.part e.part).faultSeq = (s.part e.part).faultSeq + (if e.t.ending then 0 else 1)
      ∧ (e.t.ending = false → ∀ q, e.f.src = .queue q → ∀ n, s.queueAt e.part q = some n →
        t.out = s.out ++ [.msix (e.part + 1) (s.queue n).msix.toNat])
      ∧ (e.t.ending = false → ∀ pa, (s.part e.part).direct (0x4000 + 64 * (((s.part e.part).faultSeq + 1) % 64)) = some pa →
        (∀ x ∈ s.devWrites, x.part ≠ e.part) → s.memSt pa = .ready → (∀ n, n < 64 → s.kept (pa + n) = false) →
        Memory.num t.mem pa 8 = ((s.part e.part).faultSeq + 1) % 2 ^ 64 ∧ Memory.num t.mem (pa + 8) 1 = 2
        ∧ Memory.num t.mem (pa + 9) 1 = tr.code.code ∧ Memory.num t.mem (pa + 10) 1 = if double then 1 else 0)
    (s.envCancelling e = true → s.Ended t e g.lanes)
    ∧ (s.envCancelling e = false → here = true → lost true)
    ∧ (s.envCancelling e = false → here = false → there = true →
      t = s.updWeave wid fun w => w.updGroup gid fun q => { q with sleep := .handler addr len bnd tr, port := false })
    ∧ (s.envCancelling e = false → here = false → there = false → e.f.lr.trap.tag = false → lost false)
    ∧ (s.envCancelling e = false → here = false → there = false → e.f.lr.trap.tag = true →
      s.Enters t e g addr tr (match tr.resume with
        | .same => (addr, g.pos, g.run)
        | .after => (addr + BitVec.ofNat 64 len, if bnd then .between else .inRun, { g.run with count := g.run.count + 1 })
        | .runStart => (g.run.hdr + 8, .inRun, g.run)))

/-- R326, R327: TRAP and BRK with an active thread enter the handler with SOFTWARE or BREAK, the immediate in DETAIL, and
the return behind them; without one they do nothing. R116, R300: a register field outside its class traps REG_RANGE
before any effect.

R109, R116, R117, R252, R300: an instruction that a check of R300 stops takes that trap and has no other effect; the
first register field outside its class traps REG_RANGE with its number and place.

The model's choice, log 61: the group's progress index is 0 in the handler (`State.Enters`). -/
def Obligations.InstructionTraps : Prop :=
  (∀ (h : Hd) (imm : BitVec 16) (st : State) (x : Ctx) (i : Instr) (code : TrapCode),
    (i = .trap h imm ∧ code = .software) ∨ (i = .brk h imm ∧ code = .break_) → st.Issues i x →
    (x.act = 0 → ∃ t w, exec i st = .next t ∧ x.Only i t w [] [] [] [] [])
    ∧ (x.act ≠ 0 → st.envCancelling x.e = false → x.w.anyTrap x.g.lanes = false →
      x.w.anyTrap (x.w.live &&& ~~~x.g.lanes) = false → x.e.f.lr.trap.tag = true →
      ∃ t, exec i st = .next t ∧ st.Enters t x.e x.g x.c.addr
        { code := code, detail := imm, lane := none, hdr := false, fnc := false, resume := .after }
        (x.c.addr + BitVec.ofNat 64 x.c.len, if x.h.bnd then .between else .inRun,
          { x.g.run with count := x.g.run.count + 1 })))
  ∧ (∀ (i : Instr) (st : State) (x : Ctx) (tr : Trap), st.ctx i = some x → st.continues x.c i = false →
    preTrap x.e x.g x.h i = some tr →
    exec i st = .next (st.takeTrap x.c.weave x.c.gid x.c.addr x.c.len x.h.bnd tr)
    ∧ ∀ (pre post : List Opnd) (o : Opnd), operands i = pre ++ o :: post →
      (∀ q ∈ pre, q.kind.inClass q.n x.e.f.lr.vAlloc = true) → o.kind.inClass o.n x.e.f.lr.vAlloc = false →
      x.g.run.count < 23 ∨ x.h.bnd = true →
      tr.code = .regRange ∧ tr.detail = BitVec.ofNat 16 (o.n % 256 + o.fld * 256) ∧ tr.resume = .same)

/-- R313, R119, R120, R328, R329: NOP does nothing; SREG reads the registers of Table 6, TID for each thread; SWREG clears the
sticky bits 0, 1, 2 and 4 that its source names. R92: KPOINT ends the group's threads when a kill is due, else it does
nothing. -/
def Obligations.SystemRegisters : Prop :=
  ∀ (h : Hd) (num : BitVec 4) (d : Nat),
    Completes (.nop h) [] [] [] [] [] (fun _ _ => True)
    ∧ Completes (.sreg h 0 d) (destV false d) [] [] [] [] (fun x w =>
      d ≠ 255 → ∀ l, l < 32 → x.act.has l = true → w.getV d l = BitVec.ofNat 32 (x.w.idx * 32 + l))
    ∧ (num ≠ 0 → Completes (.sreg h num d) [] [d] [] [] [] fun x w =>
      let r := x.e.f.lr
      (x.act = 0 → w.getS d = x.w.getS d)
      ∧ (x.act ≠ 0 →
        (num = 1 → 0 < r.teams → w.getS d = BitVec.ofNat 64 (x.e.t.num % r.teams))
        ∧ (num = 2 → w.getS d = BitVec.ofNat 64 x.e.c.index)
        ∧ (num = 3 → 0 < r.teams → w.getS d = BitVec.ofNat 64 (x.e.t.num / r.teams))
        ∧ (num = 4 → w.getS d = BitVec.ofNat 64 r.threads) ∧ (num = 5 → w.getS d = BitVec.ofNat 64 r.teams)
        ∧ (num = 6 → w.getS d = BitVec.ofNat 64 r.cohorts) ∧ (num = 7 → w.getS d = BitVec.ofNat 64 r.stages)
        ∧ (num = 8 → w.getS d = BitVec.ofNat 64 x.s.clock)
        ∧ (num = 9 → ∀ b, b < 32 → (w.getS d).getLsbD b = x.w.wstat.getLsbD b
          ∧ (b < 16 → (w.getS d).getLsbD (32 + b) = x.progress.testBit b))
        ∧ (num = 10 → w.getS d = x.e.f.scope.setWidth 64)
        ∧ (num = 11 → w.getS d = BitVec.ofNat 64 (x.s.ownPeer x.e.part))
        ∧ (num = 12 → w.getS d = BitVec.ofNat 64 (x.e.t.core / 64))
        ∧ (num = 13 → w.getS d = BitVec.ofNat 64 (x.e.t.core % 64))
        ∧ (num = 14 → w.getS d = BitVec.ofNat 64 x.w.slot) ∧ (num = 15 → w.getS d = x.w.trapinfo)))
    ∧ Completes (.swreg h d) [] [] [] [] [0, 1, 2, 4] (fun x w =>
      ∀ b, b < 64 → w.wstat.getLsbD b
        = (x.w.wstat.getLsbD b && !((b == 0 || b == 1 || b == 2 || b == 4) && (x.w.getS d).getLsbD b)))
    ∧ ∀ (st : State) (x : Ctx), st.Issues (.kpoint h) x →
      (st.killDue x.e = false → exec (.kpoint h) st = .next (st.updWeave x.c.weave fun w => w.updGroup x.c.gid fun g =>
        { g.advance x.c x.h.bnd [] with sleep := .awake, port := false }))
      ∧ (st.killDue x.e = true → ∃ t, exec (.kpoint h) st = .next t ∧ st.Ended t x.e x.g.lanes)

/-- R92, R102, R108, R298, R317: a RUN header is a kill point and a halt point, holds the group until its flags are clear,
raises the first waiting error of an operation that one of them counted — the trap at the header, the error consumed, the return
at the run's first instruction (R40, R252, R398) —, and else begins its run behind the header with its slots latched; a FILL
word is passed over.

The model's choice, log 61: the group's progress index is 0 in the handler (`State.Enters`). Log 56: a group that was held at the header
is examined again from the kill check on. -/
def Obligations.RunHeader : Prop :=
  ∀ (wait : BitVec 12) (a b : Option (BitVec 4)) (s : State) (c : Cur) (e : Env) (g : Group),
    s.issuer = some (c, e, g) →
    let clear := (List.range 12).all fun n => !wait.getLsbD n || e.w.getCf n == 0
    let only (t : State) (f : Group → Group) : Prop := t = { s with weaves := t.weaves }
      ∧ (∀ n, n ≠ c.weave → t.weave n = s.weave n)
      ∧ t.weave c.weave = some { e.w with groups := e.w.groups.map fun q => if q.gid == c.gid then f q else q }
    ∃ t, exec (.run wait a b) s = .next t
      ∧ (s.killDue e = true → s.Ended t e g.lanes)
      ∧ (s.killDue e = false → e.c.st = .halting → only t fun q => { q with halted := true, sleep := .awake, port := false })
      ∧ (s.killDue e = false → e.c.st ≠ .halting → clear = false → only t fun q =>
        { q with sleep := .header wait, port := false, latch := some (c.addr, c.code) })
      ∧ (s.killDue e = false → e.c.st ≠ .halting → clear = true → (∀ d ∈ e.w.errs, d.atHeader wait = false) →
        t = { s with weaves := t.weaves } ∧ (∀ n, n ≠ c.weave → t.weave n = s.weave n)
        ∧ ∃ w, t.weave c.weave = some w ∧ w = { e.w with groups := w.groups }
          ∧ ∃ q, w.group c.gid = some q ∧ q.lanes = g.lanes ∧ q.pc = c.addr + 8 ∧ q.pos = .inRun
            ∧ q.run = { hdr := c.addr, slotA := a, slotB := b, count := 0, vl := [] } ∧ q.progress = 0 ∧ q.sleep = .awake)
      ∧ (s.killDue e = false → e.c.st ≠ .halting → clear = true →
        ∀ (pre post : List Deferred) (d : Deferred), e.w.errs = pre ++ d :: post → (∀ q ∈ pre, q.atHeader wait = false) →
        d.atHeader wait = true →
        let tr := d.trap true false
        let r : Run := { hdr := c.addr, slotA := a, slotB := b, count := 0, vl := [] }
        let w1 : Weave := { e.w with
          errs := pre ++ post, groups := e.w.groups.map fun q => if q.gid == c.gid then { q with run := r } else q }
        let s1 : State := { s with weaves := Tbl.put s.weaves c.weave w1 }
        t = s1.takeTrap c.weave c.gid c.addr 8 false tr ∧ tr.hdr = true ∧ tr.fnc = false ∧ tr.lane = none
        ∧ tr.code = (match d with
          | .remote .. => .remoteFault
          | .copyRemote .. => .remoteFault
          | .mxRemote .. => .remoteFault
          | .page .. => .pageFault
          | .copyPage .. => .pageFault
          | .mask .. => .maskTopology)
        ∧ (e.w.anyTrap e.w.live = false → e.w.anyTrap g.lanes = false → e.f.lr.trap.tag = true →
          s1.Enters t { e with w := w1 } { g with run := r } c.addr tr (c.addr + 8, .inRun, r)))
      ∧ ∃ t', exec .fill s = .next t' ∧ only t' fun q => { q with pc := c.addr + 4, latch := none }

/-- R314–R316, R318–R320: BRA, BRX and CALL move the active threads to the RUN header at their target, and the others behind
the instruction, at the end of its run; CALL pushes a frame on each active thread that has room for it. A thread whose target
is outside its code, misaligned or no header, a CALL with seven frames and a RET without a frame trap BRANCH_TARGET in lane
order, and nobody moves, pushes or pops.

R256, R316, R320, R321: RET pops a frame of each active thread: a call frame's address, after FILL words, or, for a trap
frame, the place, the run and the progress index that the trap left; EXIT ends the active threads. The other threads
go on behind the instruction.

The model's choice, log 22: the header at the target is looked for in the step of the transfer. -/
def Obligations.ControlTransfers : Prop :=
  (∀ (h : Hd) (imm : W32) (n : Nat) (st : State) (x : Ctx),
    let rel : Int := (x.c.addr.toNat : Int) + 4 * imm.toInt
    let idx (l : Nat) : Int := (((x.codeOf l).base + 4 * (x.w.getV n l).toNat : Nat) : Int)
    let goes (a : Nat → Int) (l : Nat) : Place := if x.act.has l then Place.header (BitVec.ofNat 64 (a l).toNat) else x.after
    let all (a : Nat → Int) : Prop := ∀ l, l < 32 → x.act.has l = true → x.HeaderAt l (a l)
    let before (k : Nat) (a : Nat → Int) : Prop := ∀ l, l < k → x.act.has l = true → x.HeaderAt l (a l)
    let room (l : Nat) : Prop := (x.w.frame l).length < 7
    let refuses (i : Instr) (lane : Option Nat) : Prop := x.Traps i { Trap.plain .branchTarget 0 with lane := lane }
    (st.Issues (.bra h imm) x → all (fun _ => rel) → ∃ t w, exec (.bra h imm) st = .next t
      ∧ x.Moves t w (goes fun _ => rel) ∧ w.frames = x.w.frames ∧ w.loops = x.w.loops)
    ∧ (∀ k, k < 32 → x.act.has k = true →
      (st.Issues (.bra h imm) x → before k (fun _ => rel) → x.NoHeaderAt k false rel → refuses (.bra h imm) none)
      ∧ (st.Issues (.brx h n) x → before k idx → x.NoHeaderAt k false (idx k) → refuses (.brx h n) (some k))
      ∧ (st.Issues (.call h imm) x → before k (fun _ => rel) → (∀ l, l < k → x.act.has l = true → room l) →
        (x.NoHeaderAt k false rel → refuses (.call h imm) none)
        ∧ (x.HeaderAt k rel → ¬ room k → refuses (.call h imm) (some k))))
    ∧ (st.Issues (.brx h n) x → all idx → ∃ t w, exec (.brx h n) st = .next t ∧ x.Moves t w (goes idx)
      ∧ w.frames = x.w.frames ∧ w.loops = x.w.loops)
    ∧ (st.Issues (.call h imm) x → all (fun _ => rel) →
      (∀ l, l < 32 → x.act.has l = true → room l) →
      ∃ t w, exec (.call h imm) st = .next t ∧ x.Moves t w (goes fun _ => rel) ∧ w.loops = x.w.loops
        ∧ ∀ l, l < 32 → w.frame l = if x.act.has l then .call (x.c.addr + 12) :: x.w.frame l else x.w.frame l))
  ∧ (∀ (h : Hd) (st : State) (x : Ctx),
    let returns (place : Nat → Place) (l : Nat) : Prop :=
      (∃ a b r, x.w.frame l = .call a :: r ∧ x.FillsTo l a.toNat b ∧ x.HeaderAt l b
        ∧ place l = Place.header (BitVec.ofNat 64 b.toNat))
      ∨ ∃ pc pos run n r, x.w.frame l = .trap pc pos run n :: r
        ∧ place l = { pc := pc, pos := pos, run := { run with vl := [] }, progress := n }
    (∀ (place : Nat → Place) (k : Nat), k < 32 → x.act.has k = true → st.Issues (.ret h) x →
      (∀ l, l < k → x.act.has l = true → returns place l) →
      (x.w.frame k = [] ∨ ∃ a b r, x.w.frame k = .call a :: r ∧ x.FillsTo k a.toNat b ∧ x.NoHeaderAt k true b) →
      x.Traps (.ret h) { Trap.plain .branchTarget 0 with lane := some k })
    ∧ ((∀ g ∈ x.w.groups, ∀ a n b t, g.sleep ≠ .handler a n b t) →
    (∀ place : Nat → Place, st.Issues (.ret h) x →
      (∀ l, l < 32 → x.act.has l = true → returns place l) →
      ∃ t w, exec (.ret h) st = .next t ∧ x.Moves t w (fun l => if x.act.has l then place l else x.after)
        ∧ w.loops = x.w.loops
        ∧ ∀ l, l < 32 → w.frame l = if x.act.has l then (x.w.frame l).tail else x.w.frame l)
    ∧ (st.Issues (.exit h) x → ∃ t w, exec (.exit h) st = .next t
      ∧ t = { st with weaves := t.weaves, nextId := t.nextId } ∧ (∀ n, n ≠ x.c.weave → t.weave n = st.weave n)
      ∧ t.weave x.c.weave = some w ∧ w.live = x.w.live &&& ~~~x.act ∧ w.v = x.w.v ∧ w.s = x.w.s ∧ w.p = x.w.p ∧ w.k = x.w.k
      ∧ (∀ l, l < 32 → x.act.has l = true → (∀ g ∈ w.groups, g.lanes.has l = false) ∧ w.frame l = [])
      ∧ ∀ l, l < 32 → x.g.lanes.has l = true → x.act.has l = false → ∃ q ∈ w.groups, q.lanes.has l = true
        ∧ q.pc = x.after.pc ∧ q.pos = .between)))

/-- R322–R324: LOOP .beg makes its level active with the count, at least 1, and the two addresses, and notes it in the
levels around it; LOOP .end goes back to START until the count is 1; LBRK closes the level and those inside it and goes
to the header behind the end. A thread at a level that is not active, or at a LOOP .end that is not the level's own, traps
BRANCH_TARGET, and nobody moves. -/
def Obligations.HardwareLoops : Prop :=
  ∀ (h : Hd) (lvl : BitVec 2) (a : Nat) (fin beg : BitVec 16) (st : State) (x : Ctx),
    let v := lvl.toNat
    let off (o : BitVec 16) : W64 := x.c.addr + 4 * o.setWidth 64
    let refuses (i : Instr) (l : Nat) : Prop := x.Traps i { Trap.plain .branchTarget 0 with lane := some l }
    (st.Issues (.loopBeg h lvl a fin beg) x → ∃ t w, exec (.loopBeg h lvl a fin beg) st = .next t
      ∧ t = { st with weaves := t.weaves } ∧ (∀ n, n ≠ x.c.weave → t.weave n = st.weave n) ∧ t.weave x.c.weave = some w
      ∧ w = { x.w with loops := w.loops, groups := w.groups }
      ∧ ∀ l, l < 32 →
        (x.act.has l = false → ∀ u, u < 4 → w.loop l u = x.w.loop l u)
        ∧ (x.act.has l = true → w.loop l v = some { iter := if x.w.getV a l = 0 then 1 else x.w.getV a l, start := off beg,
                                                    stop := off fin, inner := 0 }
          ∧ ∀ u, u < 4 → u ≠ v → w.loop l u = (x.w.loop l u).map fun y => { y with inner := y.inner ||| (1#4 <<< v) }))
    ∧ (st.Issues (.loopEnd h lvl) x →
      (∀ l, l < 32 → x.act.has l = true → ∃ y, x.w.loop l v = some y ∧ y.stop = x.c.addr
        ∧ (y.iter ≠ 1 → x.HeaderAt l y.start.toNat)) →
      ∃ t w, exec (.loopEnd h lvl) st = .next t ∧ w.frames = x.w.frames
        ∧ x.Moves t w (fun l => match x.w.loop l v with
          | some y => if x.act.has l ∧ y.iter ≠ 1 then Place.header y.start else x.after
          | none => x.after)
        ∧ ∀ l, l < 32 → w.loop l v = if x.act.has l then
            (match x.w.loop l v with
              | some y => if y.iter = 1 then none else some { y with iter := y.iter - 1 }
              | none => none)
          else x.w.loop l v)
    ∧ (∀ k, k < 32 → x.act.has k = true → st.Issues (.loopEnd h lvl) x →
      (∀ l, l < k → x.act.has l = true → ∃ y, x.w.loop l v = some y ∧ y.stop = x.c.addr
        ∧ (y.iter ≠ 1 → x.HeaderAt l y.start.toNat)) →
      (∀ y, x.w.loop k v = some y → y.stop = x.c.addr → y.iter ≠ 1 ∧ x.NoHeaderAt k false y.start.toNat) →
      refuses (.loopEnd h lvl) k)
    ∧ (∀ k, k < 32 → x.act.has k = true → st.Issues (.lbrk h lvl) x →
      (∀ l, l < k → x.act.has l = true → ∃ y b, x.w.loop l v = some y ∧ x.FillsTo l (y.stop.toNat + 12 : Nat) b
        ∧ x.HeaderAt l b) →
      (∀ y, x.w.loop k v = some y → ∃ b, x.FillsTo k (y.stop.toNat + 12 : Nat) b ∧ x.NoHeaderAt k true b) →
      refuses (.lbrk h lvl) k)
    ∧ (∀ exits : Nat → Place, st.Issues (.lbrk h lvl) x →
      (∀ l, l < 32 → x.act.has l = true → ∃ y b, x.w.loop l v = some y ∧ x.FillsTo l (y.stop.toNat + 12 : Nat) b
        ∧ x.HeaderAt l b ∧ exits l = Place.header (BitVec.ofNat 64 b.toNat)) →
      ∃ t w, exec (.lbrk h lvl) st = .next t ∧ w.frames = x.w.frames
        ∧ x.Moves t w (fun l => if x.act.has l then exits l else x.after)
        ∧ ∀ l y, l < 32 → x.act.has l = true → x.w.loop l v = some y → ∀ u, u < 4 →
          w.loop l u = if u = v ∨ y.inner.getLsbD u = true then none else x.w.loop l u)

/-- R104, R142, R325: WAITT is a kill point; the group sleeps until CLOCK has reached the promise, then goes on, or traps
PROMISE_MISSED, with the return behind it, while a copy of its weave promised by then is incomplete. WAITT_WAKE wakes it,
and STALL_RESUME lets a stalled group issue again. -/
def Obligations.TimedWaits : Prop :=
  (∀ (h : Hd) (a : Nat) (st : State) (x : Ctx), st.Issues (.waitt h a) x →
    let t := x.w.getS a
    let missed := someT st.copies fun _ c => c.weave == x.c.weave && decide (c.promise.toNat ≤ t.toNat)
    (st.killDue x.e = true → ∃ u, exec (.waitt h a) st = .next u ∧ st.Ended u x.e x.g.lanes)
    ∧ (st.killDue x.e = false → st.clock < t.toNat → exec (.waitt h a) st = .next (st.updWeave x.c.weave fun w =>
      w.updGroup x.c.gid fun g => { g with sleep := .clock t x.h.bnd, port := false }))
    ∧ (st.killDue x.e = false → t.toNat ≤ st.clock → missed = true →
      x.Traps (.waitt h a) { Trap.plain .promiseMissed 0 with resume := .after })
    ∧ (st.killDue x.e = false → t.toNat ≤ st.clock → missed = false →
      ∃ u w, exec (.waitt h a) st = .next u ∧ x.Only (.waitt h a) u w [] [] [] [] []))
  ∧ ∀ (s : State) (wid gid : Nat) (e : Env) (g : Group), s.env wid = some e → e.w.group gid = some g → g.halted = false →
    (∀ t bnd, g.sleep = .clock t bnd → t.toNat ≤ s.clock →
      (s.killDue e = true → ∃ u, exec (.waittWake wid gid) s = .next u ∧ s.Ended u e g.lanes)
      ∧ (s.killDue e = false → someT s.copies (fun _ c => c.weave == wid && decide (c.promise.toNat ≤ t.toNat)) = true →
        exec (.waittWake wid gid) s = .next (s.takeTrap wid gid g.pc 8 bnd { Trap.plain .promiseMissed 0 with resume := .after })))
    ∧ (∀ t bnd, g.sleep = .clock t bnd → t.toNat ≤ s.clock → s.killDue e = false →
      someT s.copies (fun _ c => c.weave == wid && decide (c.promise.toNat ≤ t.toNat)) = false →
      ∃ u w q, exec (.waittWake wid gid) s = .next u ∧ u = { s with weaves := u.weaves } ∧ u.weave wid = some w
        ∧ w = { e.w with groups := w.groups } ∧ w.group gid = some q ∧ q.sleep = .awake ∧ q.lanes = g.lanes
        ∧ q.pc = g.pc + 8 ∧ q.pos = (if bnd then .between else g.pos))
    ∧ (g.sleep = .stall → ∃ u w q, exec (.stallResume wid gid) s = .next u ∧ u = { s with weaves := u.weaves }
      ∧ u.weave wid = some w ∧ w = { e.w with groups := w.groups } ∧ w.group gid = some q
      ∧ q = { g with sleep := .awake })

/-! ### Copies and phase objects (chapters 7 and 22) -/

/-- R140, R142, R394–R396, R401, R402: a copy instruction that passes its checks, with room in its core's queue, puts
its copy there, counts on its token, and answers a promise at most 2^32 cycles away; nothing is moved yet. Where the queue
or the token is full the group stalls (R104). The checks come in order: the descriptor, then the source's capability for
every row, then the destination's; the first that fails traps.

It covers COPY, COPYM and COPYSEL (`copyForm`). The model's choice, log 4: the promise is a free value within the
bounds of R142. -/
def Obligations.CopyQueued : Prop :=
  ∀ (i : Instr) (st : State) (x : Ctx) (kind : CopyKind) (f : CopyF) (d a b k : Nat),
    copyForm x.w i = some (kind, f, d, a, b, k) → st.Issues i x →
    let c := x.copyOf kind f a b k
    let ends (r : Nat) (spaces : List Nat) (perm : BitVec 8) (rows : Nat) (row : Nat → Nat) (n : Nat) : Prop :=
      let q := x.w.getK r
      let fit : Prop := q.space ∈ spaces ∧ q.perm &&& perm = perm
      (q.tag = false → x.Traps i (.plain .capTag r)) ∧ (q.tag = true → ¬ fit → x.Traps i (.plain .capPerm r))
      ∧ ∀ j, q.tag = true → fit → j < rows → q.covers (row j) n = false ∨ relativeRow x.e q (row j) n = false →
        x.Traps i (.plain .capBounds r)
    let asks : Nat × List Nat × List Nat × BitVec 8 := match kind with
      | .plain => (0x90, [0, 1, 2, 4], [0, 1, 2, 4], 0x42)
      | .multi _ => (0x91, [0, 1, 2, 4], [1], 0x42)
      | .sel _ s1 _ => (0x92, [4], [0, 1, 2], if s1.getLsbD 57 then 0x43 else 0x42)
    (x.descBad c b = true → x.Traps i (.plain .illegalOpcode asks.1))
    ∧ (x.descBad c b = false → c.selAlign k = none → ends a asks.2.1 0x41 c.rows c.srcAt c.rowBytes)
    ∧ (x.descBad c b = false → c.selAlign k = none →
      x.endCheck a asks.2.1 0x41 ((List.range c.rows).map c.srcAt) c.rowBytes = none →
      ends k asks.2.2.1 asks.2.2.2 c.outRows c.dstAt c.outBytes)
    ∧ (x.copyChecks c i a b k = none →
    x.endPeer a ((List.range c.rows).map c.srcAt) c.rowBytes = none →
    x.endPeer k ((List.range c.outRows).map c.dstAt) c.outBytes = none →
    let full : Prop := ∃ n, CopyF.token f = some n ∧ 255 ≤ x.w.getCf n
    (x.s.copyRoom x.e = false ∨ full → exec i st = .next (st.updWeave x.c.weave fun w => w.updGroup x.c.gid fun g =>
      { g with sleep := .stall, port := false, latch := some (x.c.addr, x.c.code) }))
    ∧ (x.s.copyRoom x.e = true → ¬ full → ∃ t w p, exec i st = .next t
      ∧ t = { st with nextId := t.nextId, freeIdx := t.freeIdx, copies := t.copies, weaves := t.weaves }
      ∧ Tbl.find t.copies st.nextId = some { c with promise := p }
      ∧ (∀ n, n ≠ st.nextId → Tbl.find t.copies n = Tbl.find st.copies n)
      ∧ (st.clock + 2 ^ 32 < 2 ^ 64 → st.clock ≤ p.toNat ∧ p.toNat ≤ st.clock + 2 ^ 32)
      ∧ (∀ n, n ≠ x.c.weave → t.weave n = st.weave n) ∧ t.weave x.c.weave = some w
      ∧ w = { x.w with s := w.s, cf := w.cf, groups := w.groups } ∧ w.getS d = p
      ∧ (∀ n, n ≠ d → w.getS n = x.w.getS n)
      ∧ ∀ n, w.getCf n = x.w.getCf n + if CopyF.token f = some n then 1 else 0))

/-- R140, R141, R265, R396, R398: COPY_ACCEPT takes the oldest queued copy of the core and keeps its translations, and an
ACCUM COPYSEL has its old records read; COPY_COMPLETE makes every byte of each destination the byte of the source at the same
place in the tile, leaves every other byte, arrives at the copy's object and ends the copy; COPY_FAIL ends it with an error
for its weave.

R239–R244, R402: of a COPYSEL, COPY_COMPLETE writes in each row's place its record: the greatest quotient, the sum of
exponentials, the count, the flags and the best entries in order, and with ACCUM their merge with the old record.

The model's choice, log 37: an accepted copy no longer holds an entry of the queue. Log 39: an accumulating COPYSEL reads the old
records of its destination when it is accepted. -/
def Obligations.CopyEngine : Prop :=
  ∀ (s : State) (id : Nat) (c : Copy), Tbl.find s.copies id = some c →
    (countT s.copies (fun _ o => o.core == c.core && o.st == .accepted) < Config.copyActive → s.accumBehind id c = false →
      (s.copies.find? fun e => e.2.core == c.core && e.2.st == .queued && !s.copyHeld e.2) = some (id, c) →
      ∃ t c', exec (.copyAccept c.core) s = .next t ∧ Tbl.find t.copies id = some c'
        ∧ c' = { c with st := .accepted, xl := c'.xl, got := c'.got }
        ∧ (∀ n, n ≠ id → Tbl.find t.copies n = Tbl.find s.copies n)
        ∧ t.mem = s.mem ∧ t.teams = s.teams ∧ t.weaves = s.weaves ∧ t.cohorts = s.cohorts
        ∧ (c.accum = false → c'.got = c.got ∧ t = { s with copies := t.copies, tlb := t.tlb })
        ∧ ((∀ e ∈ s.tlb, e.die ≠ coreDie c.core) → ∀ q ∈ s.copyWants c, ∀ pa,
          s.xlate (coreDie c.core) c.part q.1 q.2 = .ok pa → Tbl.find c'.xl (xlKey q.1 q.2) = some (pa / 64))
        ∧ (c.accum = true → c.count < 2 ^ 40 → s.CopyHere c' c.dst 0 c.dstPieces → ∀ i, i < c.count →
          ∃ b, Tbl.find c'.got (2 ^ 40 + i) = some b ∧ s.CopyReads { c with xl := c'.xl } true i b))
    ∧ (∀ src old : Nat → BitVec 8, s.CopyMoves id c → (∀ i, i < c.rows * c.rowBytes → s.CopyReads c false i (src i)) →
      (c.accum = true → ∀ i, i < c.count → s.CopyReads c true i (old i)) →
      ∃ t, exec (.copyComplete id ()) s = .next t ∧ Tbl.find t.copies id = none
        ∧ ((∀ s0 s1 s2, c.kind ≠ .sel s0 s1 s2) → s.CopyPuts t c src)
        ∧ (∀ s0 s1 s2 : W64, c.kind = .sel s0 s1 s2 →
          let ksel := (s1.extractLsb' 48 7).toNat
          let n := 16 + 8 * ksel
          let temp : W32 := s0.extractLsb' 0 32
          ∃ out, s.CopyPuts t c out ∧ ∀ r, r < c.rows → ∃ new rec,
            RowSelects ((List.range (c.rowBytes / 4)).map fun j => f32Div (wordOf src (r * c.rowBytes + 4 * j)) temp)
              (s0.extractLsb' 32 32)
              (fun i => if s1.getLsbD 56 then gumbel s2 (BitVec.ofNat 64 ((s1.extractLsb' 0 48).toNat + if s1.getLsbD 55 then r else 0)) i
                else 0) ksel new
            ∧ RecordAt out (r * n) ksel rec
            ∧ (s1.getLsbD 57 = false → rec = new)
            ∧ (s1.getLsbD 57 = true →
              let entry (e : Nat) : W32 × W32 := (wordOf old (r * n + 16 + 8 * e), wordOf old (r * n + 20 + 8 * e))
              RecMerges ksel { m := wordOf old (r * n), sum := wordOf old (r * n + 4),
                               flags := (wordOf old (r * n + 12)).toNat % 4,
                               entries := (List.range (min ksel (wordOf old (r * n + 8)).toNat)).map entry } new rec))
        ∧ (c.ph = none → s.CopyGone t id c [] ∧ t.cohorts = s.cohorts)
        ∧ ∀ a cid h p, c.ph = some a → (∀ m, c.kind ≠ .multi m) → s.cohortOf c.part (phInst a.toNat) = some cid →
          s.cohort cid = some h → h.away = false → p = h.phase (phObj a.toNat) →
          ∃ h' q, t.cohort cid = some h' ∧ q = h'.phase (phObj a.toNat)
            ∧ Phase.Arrived p q (if p.bytes then c.count else 1))
    ∧ (∀ kind ecc, c.st = .accepted → c.err = some (kind, ecc) → ∃ t, exec (.copyFail id (.page ecc)) s = .next t
      ∧ s.CopyGone t id c [.copyPage kind ecc])
    ∧ ∀ peer : BitVec 9, c.st = .accepted → s.legError (.copy id) = some peer →
      ∃ t, exec (.copyFail id (.remote peer)) s = .next t ∧ s.CopyGone t id c [.copyRemote peer c.f.cls]

/-- R144, R145, R403–R405: PHINIT gives its object a count of at least one, an owner and parity 0; PHARR takes its units off
the count, and completes the phase when they cover it: the parity turns, the count is as at first, and every group that
waits for the parity wakes with status 0. A poisoned object ignores arrivals; no units do nothing.

The model's choice, log 38: when an operation on an object is applied. -/
def Obligations.PhaseArrivals : Prop :=
  ∀ (h : Hd) (bytes : Bool) (a b c cid : Nat) (p : Phase) (st : State) (x : Ctx),
    let n : W32 := (x.w.getS c).extractLsb' 0 32
    (st.Issues (.phinit h bytes a b c) x → x.PhaseAt a b 2 false cid p →
      ∃ t, exec (.phinit h bytes a b c) st = .next t
        ∧ t = { st with cohorts := t.cohorts, weaves := t.weaves, staging := t.staging }
        ∧ x.PhaseIs a b cid t { owner := x.e.f.scope, poison := false, bytes := bytes, parity := false,
                                remain := if n = 0 then 1 else n, expect := if n = 0 then 1 else n, arrived := [],
                                arrivedLast := [], copied := false, copiedLast := false })
    ∧ (st.Issues (.pharr h a b c) x → n = 0 → x.phCheck a 2 (x.phAddr a b) = none →
      ∃ t w, exec (.pharr h a b c) st = .next t ∧ x.Only (.pharr h a b c) t w [] [] [] [] [])
    ∧ (st.Issues (.pharr h a b c) x → n ≠ 0 → x.PhaseAt a b 2 true cid p →
      ∃ t q, exec (.pharr h a b c) st = .next t
        ∧ t = { st with cohorts := t.cohorts, weaves := t.weaves, staging := t.staging }
        ∧ x.PhaseIs a b cid t q ∧ Phase.Arrived p q n.toNat
        ∧ ∀ wid e g d, st.env wid = some e → e.part = x.e.part → (wid, e.w) ∈ st.weaves → e.w.group g.gid = some g →
          g.sleep = .phase (phInst (x.phAddr a b)) (phObj (x.phAddr a b)) p.parity d → g.halted = false →
          st.killDue e = false → p.poison = false → p.remain.toNat ≤ n.toNat →
          ∃ w q, t.weave wid = some w ∧ w.group g.gid = some q ∧ q.sleep = .awake ∧ w.getS d = 0)

/-- R146, R268, R406–R408: PHTEST answers status, parity and count. PHWAIT answers 0 once its parity is over and 1 for a
poisoned object, and else sleeps, as it does on any object of a saved cohort; BAR arrives with one unit, and answers 0 where that completes the phase, 1 where the object is
poisoned, and else sleeps until the phase is over; on an object that no PHINIT has set it sleeps and is recorded (R440). PHTEST stalls
while an earlier operation of its weave waits its turn, or for a saved cohort (R268, R407).

The model's choice, log 38: BAR on an object that is all zero takes no arrival, and the order in which waiting operations are applied. -/
def Obligations.PhaseWaits : Prop :=
  ∀ (h : Hd) (d a b c cid : Nat) (p : Phase) (st : State) (x : Ctx),
    let par := (x.w.getS c).getLsbD 0
    let sleeps (i : Instr) (t : State) (q : Bool) : Prop := ∃ w g, t.weave x.c.weave = some w
      ∧ w = { x.w with groups := w.groups } ∧ w.group x.c.gid = some g
      ∧ g = { x.g.advance x.c x.h.bnd (lateRegs i) with
              sleep := .phase (phInst (x.phAddr a b)) (phObj (x.phAddr a b)) q d, port := false }
    (st.Issues (.phtest h d a b c) x → x.phCheck a 1 (x.phAddr a b) = none →
      (∃ e ∈ st.phOps, e.2.weave = x.c.weave)
        ∨ (∃ e ∈ st.cohorts, ∃ o ∈ e.2.held, o.weave = x.c.weave ∧ ∀ n, o.kind ≠ .copy n) →
      exec (.phtest h d a b c) st = .next (st.updWeave x.c.weave fun w => w.updGroup x.c.gid fun g =>
        { g with sleep := .stall, port := false, latch := some (x.c.addr, x.c.code) }))
    ∧ (st.Issues (.phtest h d a b c) x → x.PhaseAt a b 1 false cid p → x.phHeld = false →
      ∃ t, exec (.phtest h d a b c) st = .next t ∧ t = { st with weaves := t.weaves, staging := t.staging }
        ∧ x.Answers (.phtest h d a b c) t d (BitVec.ofNat 64 (p.remain.toNat * 2 ^ 32 + (if p.parity then 256 else 0)
          + (if p.poison then 1 else if p.parity ≠ par then 0 else 2))))
    ∧ (st.Issues (.phwait h d a b c) x → x.PhaseAt a b 1 false cid p →
      ∃ t, exec (.phwait h d a b c) st = .next t ∧ t = { st with weaves := t.weaves, staging := t.staging }
        ∧ (p.poison = true → x.Answers (.phwait h d a b c) t d 1)
        ∧ (p.poison = false → p.parity ≠ par → x.Answers (.phwait h d a b c) t d 0)
        ∧ (p.poison = false → p.parity = par → sleeps (.phwait h d a b c) t par))
    ∧ (st.Issues (.phwait h d a b c) x → x.phCheck a 1 (x.phAddr a b) = none → x.phPending = false →
      st.cohortOf x.e.part (phInst (x.phAddr a b)) = some cid →
      (∃ o, st.cohort cid = some o ∧ (o.st = .saving ∨ o.st = .saved)) →
      ∃ t, exec (.phwait h d a b c) st = .next t ∧ t = { st with weaves := t.weaves } ∧ sleeps (.phwait h d a b c) t par)
    ∧ (st.Issues (.bar h d a b) x → x.PhaseAt a b 3 true cid p →
      ∃ t, exec (.bar h d a b) st = .next t
        ∧ t = { st with weaves := t.weaves, cohorts := t.cohorts, staging := t.staging }
        ∧ (p.poison = true → x.Answers (.bar h d a b) t d 1 ∧ t.cohorts = st.cohorts)
        ∧ (p.poison = false → p.blank = true → sleeps (.bar h d a b) t false ∧ t.cohorts = st.cohorts)
        ∧ (p.poison = false → p.blank = false → ∃ q, x.PhaseIs a b cid t q ∧ Phase.Arrived p q 1)
        ∧ (p.poison = false → 1 < p.remain.toNat → x.phQuiet a b → sleeps (.bar h d a b) t p.parity)
        ∧ (p.poison = false → p.blank = false → p.remain.toNat ≤ 1 → x.phQuiet a b → x.Answers (.bar h d a b) t d 0))

/-- R158–R160, R40: a FENCE goes on once every earlier LS access of its weave of the classes is performed, and stalls before;
a known error of the classes is raised behind it, and the trap takes every such error away. PFENCE waits in this way where
its writing path is LS, and drops what its core has read early on the reading path.

The model's choice, log 34: a PFENCE that raises an error goes on behind itself and drops no staged line. -/
def Obligations.Fences : Prop :=
  ∀ (h : Hd) (scope : Scope) (cl : BitVec 3) (wp rp : Path) (st : State) (x : Ctx),
    let performed (c : BitVec 3) : Prop := ∀ e ∈ x.s.lsOps, e.2.weave = x.c.weave →
      (e.2.err.isSome = true → classBit c e.2.cls = false)
      ∧ ∀ a ∈ e.2.accs, a.got.isSome = true ∨ classBit c (e.2.clsOf a) = false
    let calm (c : BitVec 3) : Prop := ∀ d ∈ x.w.errs, d.atFence c = false
    let stalls (i : Instr) : Prop := exec i st = .next (st.updWeave x.c.weave fun w => w.updGroup x.c.gid fun g =>
      { g with sleep := .stall, port := false, latch := some (x.c.addr, x.c.code) })
    let drops (i : Instr) : Prop := ∃ u w, x.Only i u w [] [] [] [] []
      ∧ exec i st = .next { u with staging := x.s.staging.filter fun y => !(y.core == x.e.t.core && y.path == rp) }
    (st.Issues (.fence h scope cl) x →
      (performed cl → calm cl → ∃ t w, exec (.fence h scope cl) st = .next t ∧ x.Only (.fence h scope cl) t w [] [] [] [] [])
      ∧ (¬ performed cl → stalls (.fence h scope cl))
      ∧ (performed cl → ∀ pre d post, x.w.errs = pre ++ d :: post → (∀ q ∈ pre, q.atFence cl = false) →
        d.atFence cl = true →
        exec (.fence h scope cl) st = .next ((st.setWeave x.c.weave { x.w with errs := x.w.errs.filter fun q => !q.atFence cl }).takeTrap
          x.c.weave x.c.gid x.c.addr x.c.len x.h.bnd (d.trap false true))
        ∧ (d.trap false true).code = .remoteFault ∧ (d.trap false true).fnc = true ∧ (d.trap false true).resume = .after))
    ∧ (st.Issues (.pfence h scope wp rp) x →
      (wp ≠ .ls → drops (.pfence h scope wp rp))
      ∧ (wp = .ls → performed 7 → calm 7 → drops (.pfence h scope wp rp))
      ∧ (wp = .ls → ¬ performed 7 → stalls (.pfence h scope wp rp))
      ∧ (wp = .ls → performed 7 → ∀ pre d post, x.w.errs = pre ++ d :: post → (∀ q ∈ pre, q.atFence 7 = false) →
        d.atFence 7 = true →
        exec (.pfence h scope wp rp) st = .next ((st.setWeave x.c.weave { x.w with errs := x.w.errs.filter fun q => !q.atFence 7 }).takeTrap
          x.c.weave x.c.gid x.c.addr x.c.len x.h.bnd (d.trap false true))))

/-! ### Attention contexts (chapters 9, 10 and 23) -/

/-- R410–R412, R414–R422: a context instruction whose checks pass, with room on its flag, hands the KV path its
operation with the sources as they stand; an untagged capability traps in each, and so do the reserved bits of each control
word, a range outside the writer's open reservation, and each number beyond its limit. -/
def Obligations.KvAccepted : Prop :=
  ∀ (h : Hd) (scope : Scope) (a b c d : Nat) (st : State) (x : Ctx) (k : KvDesc),
    let ctl (n : Nat) : Nat := (x.w.getS n).toNat
    let bad (i : Instr) (n : Nat) : Prop := x.Traps i (.plain .capBounds n)
    (∀ n, x.g.run.slot x.h.fs = some n → x.w.getCf n < 255) →
    (st.Issues (.apos h d a b c) x → x.KvAt a 0x41 k → ∃ t, exec (.apos h d a b c) st = .next t
      ∧ x.Accepts (.apos h d a b c) t k (.apos (x.w.getS b) (x.w.getS c) d) [(.s, d)])
    ∧ (∀ ks vs imm, let i : Instr := .kvst h ks vs a b c imm
      st.Issues i x → x.KvAt a 0x43 k →
      let cap := x.w.getK c
      let src : Int := (cap.base : Int) + (x.w.getS (b + 2)).toNat + imm.toInt
      let n := k.heads * k.dim * (ks.bytes + vs.bytes)
      let inside := cap.covers src n = true ∧ relativeRow x.e cap src.toNat n = true
      (cap.tag = false → x.Traps i (.plain .capTag c))
      ∧ (cap.tag = true → (cap.space = 1 ∨ cap.space = 2) → cap.perm &&& 0x41 = 0x41 →
        (¬ inside → bad i c) ∧ (inside → src % 16 ≠ 0 → x.Traps i (.plain .misaligned c))
        ∧ (inside → src % 16 = 0 →
          (2 ^ 14 ≤ ctl (b + 1) → bad i a)
          ∧ (ctl (b + 1) < 2 ^ 14 →
            (x.MayNotWrite k (ctl (b + 1) / 256) (ctl (b + 1) % 256) (ctl b) (ctl b + 1) → bad i a)
            ∧ (x.MayWrite k (ctl (b + 1) / 256) (ctl (b + 1) % 256) (ctl b) (ctl b + 1) →
              ∃ t, exec i st = .next t ∧ x.Accepts i t k
                (.kvst (ctl b) (ctl (b + 1) / 256) (ctl (b + 1) % 256) ks vs (x.kvSource c src.toNat n)) [])))))
    ∧ (∀ void, let i : Instr := .kvpub h void scope a b c
      st.Issues i x → x.KvAt a 0x51 k →
      (2 ^ 14 ≤ ctl c ∨ 2 ^ 48 < ctl (b + 1) → bad i a)
      ∧ (ctl c < 2 ^ 14 → ctl (b + 1) ≤ 2 ^ 48 →
        (x.MayNotWrite k (ctl c / 256) (ctl c % 256) (ctl b) (ctl (b + 1)) → bad i a)
        ∧ (x.MayWrite k (ctl c / 256) (ctl c % 256) (ctl b) (ctl (b + 1)) →
          ∃ t, exec i st = .next t
            ∧ x.Accepts i t k (.kvpub (ctl b) (ctl (b + 1)) (ctl c / 256) (ctl c % 256) void scope) [])))
    ∧ (st.Issues (.kvacq h scope d a b) x → x.KvAt a 0x41 k →
      (ctl b < 2 ^ 14 → ctl b % 256 < k.layers → ∃ t, exec (.kvacq h scope d a b) st = .next t
        ∧ x.Accepts (.kvacq h scope d a b) t k (.kvacq (ctl b % 256) scope d) [(.s, d)])
      ∧ (2 ^ 14 ≤ ctl b ∨ k.layers ≤ ctl b % 256 → bad (.kvacq h scope d a b) a))
    ∧ (∀ v (head layer : BitVec 8) (elem : BitVec 16), let i : Instr := .kvld h v head layer elem d a b c
      let inside := head.toNat < k.heads ∧ layer.toNat < k.layers ∧ elem.toNat < k.dim
      st.Issues i x → x.KvAt a 0x41 k →
      (¬ inside → bad i a)
      ∧ (inside → ∃ t, exec i st = .next t
        ∧ x.Accepts i t k (.kvld v head.toNat layer.toNat elem.toNat (x.lanes.map fun l => (l, ctl c + (x.w.getV b l).toNat)) d)
          (Dest.regs (.v d true))))
    ∧ (∀ child, let i : Instr := .kvfork h scope d a c
      let alike := child.ctx ≠ k.ctx ∧ child = { k with ctx := child.ctx, seed := child.seed, rot := child.rot, pt := child.pt }
      st.Issues i x → x.KvAt a 0x41 k → x.KvAt c 0x41 child →
      (¬ alike → bad i c) ∧ (alike → ∃ t, exec i st = .next t ∧ x.Accepts i t k (.kvfork child scope d) [(.s, d)]))
    ∧ (st.Issues (.kvrel h d a) x → x.KvAt a 0x41 k → ∃ t, exec (.kvrel h d a) st = .next t
      ∧ x.Accepts (.kvrel h d a) t k (.kvrel d) [(.s, d)])
    ∧ (∀ sel, let i : Instr := .kvstat h sel d a b
      let inside := ctl b < 2 ^ 14 ∧ if sel = .front then ctl b % 256 < k.layers else ctl b / 256 < k.wlimit
      st.Issues i x → x.KvAt a 0x41 k →
      (sel ≠ .pos → ¬ inside → bad i a)
      ∧ (sel = .pos ∨ inside → ∃ t, exec i st = .next t ∧ x.Accepts i t k
        (.kvstat sel (if sel = .pos then 0 else ctl b % 256) (if sel = .pos then 0 else ctl b / 256) d) [(.s, d)]))
    ∧ (∀ ks vs imm void v head layer elem sel,
      ∀ i ∈ ([.apos h d a b c, .kvst h ks vs a b c imm, .kvpub h void scope a b c, .kvacq h scope d a b,
        .kvld h v head layer elem d a b c, .kvfork h scope d a c, .kvrel h d a, .kvstat h sel d a b] : List Instr),
      st.Issues i x → (x.w.getK a).tag = false → x.Traps i (.plain .capTag a))
    ∧ (st.Issues (.kvfork h scope d a c) x → x.kvCap a 0x41 = none → (x.w.getK c).tag = false →
      x.Traps (.kvfork h scope d a c) (.plain .capTag c))

/-- R195–R197, R423: QROT turns the pair (x, y) by the angle of its position and frequency: x′ = x·cos − y·sin and
y′ = x·sin + y·cos, each product with the second factor rounded and then fused, and stores both in the format. -/
def Obligations.QueryRotation : Prop :=
  ∀ (h : Hd) (fm : Fmt) (d a b c : Nat),
    let sc (x : Ctx) (l : Nat) : W32 × W32 :=
      rotGen (BitVec.ofNat 32 ((x.w.getV64 c l).toNat * (x.w.getV64 b l).toNat % 2 ^ 64 / 2 ^ 32))
    let u (x : Ctx) (l : Nat) : W32 := widen fm (x.w.getV a l).toNat
    let v (x : Ctx) (l : Nat) : W32 := widen fm (if a = 255 then 0 else (x.w.getV (a + 1) l).toNat)
    let first (x : Ctx) (l : Nat) : Nat × Fl := narrow fm (f32Fma (u x l) (sc x l).2 (f32Neg (f32Mul (v x l) (sc x l).1)))
    let second (x : Ctx) (l : Nat) : Nat × Fl := narrow fm (f32Fma (u x l) (sc x l).1 (f32Mul (v x l) (sc x l).2))
    Completes (.qrot h fm d a b c) (destV true d) [] [] [] [wsSat, wsInexact] fun x w =>
      (d ≠ 255 → ∀ l, l < 32 → x.act.has l = true →
        (w.getV64 d l).extractLsb' 0 32 = BitVec.ofNat 32 (first x l).1
        ∧ (w.getV64 d l).extractLsb' 32 32 = BitVec.ofNat 32 (second x l).1)
      ∧ x.Sets w wsSat false (fun l => (first x l).2.sat || (second x l).2.sat)
      ∧ x.Sets w wsInexact false (fun l => (first x l).2.inexact || (second x l).2.inexact)

/-- R167–R169, R413, R415, R424: the step of APOS reserves `n` positions from POSCNT for its writer, or answers why it does
not and changes nothing; that of KVSTAT answers what it names. -/
def Obligations.KvReservations : Prop :=
  ∀ (s : State) (id : Nat) (o : KvOp) (w : Weave), s.KvAt id o w →
    let k := o.desc
    let x := o.site id
    let answers (d : Nat) (v : Nat) : Prop := ∃ t w', exec (.kvPathStep id ()) s = .next t ∧ s.KvDone t id o w w' []
      ∧ t = { s.dropLegs (.kv id) with weaves := t.weaves, kvOps := t.kvOps } ∧ w.PutS w' d (BitVec.ofNat 64 v)
    (∀ wr n d, o.kind = .apos wr n d →
      (n.toNat = 0 ∨ 4096 < n.toNat → answers d (2 ^ 63 + 5))
      ∧ (1 ≤ n.toNat → n.toNat ≤ 4096 → k.wlimit ≤ wr.toNat → answers d (2 ^ 63 + 4))
      ∧ ∀ e, 1 ≤ n.toNat → n.toNat ≤ 4096 → wr.toNat < k.wlimit → s.writer x k wr.toNat = .ok e →
        (e.open_ = true → answers d (2 ^ 63 + 1))
        ∧ ∀ p0 fm, e.open_ = false → s.poscnt x k = .ok p0 → s.fmin x k = .ok fm →
          let q := p0 + n.toNat - 1
          let wraps := k.sinks + k.window ≤ q ∧ fm ≤ q - k.window
          (2 ^ 48 ≤ q → answers d (2 ^ 63 + 3))
          ∧ (q < 2 ^ 48 → wraps → answers d (2 ^ 63 + 2))
          ∧ (q < 2 ^ 48 → ¬ wraps → ∀ pa s1 pw, k.ctx % 64 = 0 → k.pt % 64 = 0 →
            s.kvPa x.die x.part k.ctx 1 = .ok pa → s.setPoscnt x k (p0 + n.toNat) = .ok s1 →
            s1.kvPa x.die x.part (k.pt + 2048 + 32 * wr.toNat) 1 = .ok pw → (pw + 32 ≤ pa ∨ pa + 8 ≤ pw) →
            (∀ z, (pa ≤ z ∧ z < pa + 8) ∨ (pw ≤ z ∧ z < pw + 32) → s.plainByte z) →
            ∃ t w', exec (.kvPathStep id ()) s = .next t ∧ s.KvDone t id o w w' []
              ∧ t = { s.dropLegs (.kv id) with
                  weaves := t.weaves, kvOps := t.kvOps, mem := t.mem, tags := t.tags, rel := t.rel, ctxs := t.ctxs,
                  staging := t.staging }
              ∧ w.PutS w' d (BitVec.ofNat 64 p0)
              ∧ Memory.num t.mem pa 8 = p0 + n.toNat
              ∧ Memory.num t.mem pw 8 = p0 ∧ Memory.num t.mem (pw + 8) 8 = p0 + n.toNat
              ∧ Memory.num t.mem (pw + 16) 4 = o.scopeH.toNat ∧ Memory.num t.mem (pw + 20) 4 = o.ident.field % 2 ^ 32
              ∧ Memory.num t.mem (pw + 24) 8 = 1
              ∧ ∀ z, ¬ (pa ≤ z ∧ z < pa + 8) → ¬ (pw ≤ z ∧ z < pw + 32) → Memory.get t.mem z = Memory.get s.mem z))
    ∧ ∀ l wr d v,
      (o.kind = .kvstat .pos l wr d → s.poscnt x k = .ok v → answers d v)
      ∧ (o.kind = .kvstat .front l wr d → s.frontier x k l = .ok v → answers d v)
      ∧ ∀ e, s.writer x k wr = .ok e →
        (o.kind = .kvstat .start l wr d → answers d e.start) ∧ (o.kind = .kvstat .end_ l wr d → answers d e.stop)
        ∧ (o.kind = .kvstat .state l wr d → answers d (if e.open_ then 1 else 0))

/-- R172, R173, R175, R182–R184, R192, R417, R418, R448: the step of KVST writes K and V into the slot's page, which the first
KVST of a position makes private and heads, or is dropped where the position is published; that of KVPUB publishes each
position of its range — valid where it is written in its generation, void else, and what is published already stays — and
settles the frontier: it moves to the first position that is not published; a published header holds generation, state,
publisher and scope; a write on the KV path writes its bytes; a void of an ended writer publishes one position at system
scope; an operation completes once its writes at peers are acknowledged.

The model's choice, log 24 and 25: the header of a first KVST, and the publisher's fields of a void. -/
def Obligations.KvPublication : Prop :=
  ∀ (s : State),
    (∀ (id : Nat) (o : KvOp) (w : Weave), s.KvAt id o w →
      let k := o.desc
      let x := o.site id
      let ends (i : Instr) (s1 : State) (bits : List Nat) : Prop :=
        (s1.PeersAnswered (.kv id) → ∃ t w', exec i s = .next t ∧ s.KvDone t id o w w' bits ∧ w'.v = w.v ∧ w'.s = w.s
          ∧ t = { s1.dropLegs (.kv id) with weaves := t.weaves, kvOps := t.kvOps })
        ∧ (s1.legsOut (.kv id) = true → ∃ t o', exec i s = .next t ∧ t = { s1 with kvOps := t.kvOps }
          ∧ Tbl.find t.kvOps id = some o' ∧ o'.res.isSome = true ∧ o' = { o with res := o'.res })
      (∀ p wr l ks vs src e, o.kind = .kvst p wr l ks vs src → s.writer x k wr = .ok e →
        (∀ q, s.published x k l p = .ok q → (e.open_ = false ∨ p < e.start ∨ e.stop ≤ p ∨ q = true) →
          ends (.kvstSlotWrite id) s [])
        ∧ ∀ freq page s1 s2 s3, s.published x k l p = .ok false → e.open_ = true → e.start ≤ p → p < e.stop →
          let i := (k.slotOf p).1 % 16
          s.lineRead x k.rot (4 * k.dim) = .ok freq → s.kvstPage x k l p = .ok (page, s1) →
          s1.pageWrite x page (k.kOff i) (kvConvert k ks vs p freq (s1.kvSourceBytes o src)).1 = .ok s2 →
          s2.pageWrite x page (k.vOff i) (kvConvert k ks vs p freq (s1.kvSourceBytes o src)).2.1 = .ok s3 →
          ends (.kvstSlotWrite id) s3 [wsSat, wsInexact])
      ∧ ∀ p0 p1 wr l void scope s1 s2, o.kind = .kvpub p0 p1 wr l void scope →
        s.publish x k l ((List.range (p1 - p0)).map (p0 + ·)) void (Scope.num scope) (.weave o.ident) = .ok s1 →
        s1.closeWriter x k wr = .ok s2 → ends (.kvpubStep id) s2 [])
    ∧ (∀ (id : Nat) (o : KvOp) (w : Weave) (out : KvOut) (bits : List Nat), Tbl.find s.kvOps id = some o →
      o.res = some (out, bits) → s.PeersAnswered (.kv id) → s.weave o.weave = some w → w.live ≠ 0 →
      let i : Instr := if o.kind.isSt then .kvstSlotWrite id else if o.kind.isPub then .kvpubStep id else .kvPathStep id ()
      ∃ t w', exec i s = .next t ∧ s.KvDone t id o w w' bits
        ∧ t = { s.dropLegs (.kv id) with weaves := t.weaves, kvOps := t.kvOps })
    ∧ (∀ (x : Site) (k : KvDesc) (l p : Nat) (g : Pte), let slot := (k.slotOf p).1
      let gen := (k.slotOf p).2
      s.pte x k l (slot / 16) = .ok g →
      (∀ h, s.head x k l slot = .ok h →
        (h.gen = gen → h.st = 1 → s.kvstPage x k l p = .ok (g.page, s))
        ∧ (h.gen ≠ gen ∨ h.st ≠ 1 → ∀ page s1 s2, s.ownPage x k l slot = .ok (page, s1) →
          s1.pageWrite x page (16 * (slot % 16)) (natToBytes 16 (gen + 2 ^ 48)) = .ok s2 →
          s.kvstPage x k l p = .ok (page, s2)))
      ∧ (g.v = true → (s.pageRec x.part g.page).count ≤ 1 →
        (g.hides (slot % 16) = false → s.ownPage x k l slot = .ok (g.page, s))
        ∧ (g.hides (slot % 16) = true → ∀ t, s.setPte x k l (slot / 16) { g with hide := g.hide - 2 ^ (slot % 16) } = .ok t →
          s.ownPage x k l slot = .ok (g.page, t)))
      ∧ ∀ np s1, s.allocPage x k l (slot / 16) = .ok (np, s1) →
        (g.v = false → ∀ s2, s1.setPte x k l (slot / 16) { v := true, page := np, hide := 0 } = .ok s2 →
          s.ownPage x k l slot = .ok (np, s2))
        ∧ (g.v = true → 1 < (s.pageRec x.part g.page).count → ∀ s2 s3, s1.copyPage x k g np = .ok s2 →
          s2.setPte x k l (slot / 16) { v := true, page := np, hide := 0 } = .ok s3 →
          s.ownPage x k l slot = .ok (np, s3.dropRef x.part g.page)))
    ∧ (∀ (x : Site) (k : KvDesc) (l : Nat) (void : Bool) (scope : Nat) (by_ : Publisher),
      s.publish x k l [] void scope by_ = s.settleFrontier x k l
      ∧ ∀ p ps,
        (s.published x k l p = .ok true → s.publish x k l (p :: ps) void scope by_ = s.publish x k l ps void scope by_)
        ∧ ∀ h s1, s.published x k l p = .ok false → s.head x k l (k.slotOf p).1 = .ok h →
          s.setPublished x k l p (if void = false ∧ h.gen = (k.slotOf p).2 ∧ h.st = 1 then 2 else 3) scope by_ = .ok s1 →
          s.publish x k l (p :: ps) void scope by_ = s1.publish x k l ps void scope by_)
    ∧ (∀ (x : Site) (k : KvDesc) (l f pc f' : Nat), s.frontier x k l = .ok f → s.poscnt x k = .ok pc →
      s.advance x k l (pc - f) f = .ok f' →
      (f ≤ pc → f ≤ f' ∧ f' ≤ pc ∧ (∀ p, f ≤ p → p < f' → s.published x k l p = .ok true)
        ∧ (f' < pc → s.published x k l f' = .ok false))
      ∧ (f' = f → s.settleFrontier x k l = .ok s)
      ∧ (f' ≠ f → s.settleFrontier x k l = s.kvWrite x (k.pt + 8 * l) (natToBytes 8 f')))
    ∧ (∀ (x : Site) (lva : Nat) (bs : List (BitVec 8)) (pa : Nat), bs ≠ [] → lva % 64 + bs.length ≤ 64 →
      s.kvPa x.die x.part lva 1 = .ok pa → (∀ n, n < bs.length → s.plainByte (pa + n)) →
      ∃ t, s.kvWrite x lva bs = .ok t ∧ (∀ n, n < bs.length → bs[n]? = some (Memory.get t.mem (pa + n)))
        ∧ t = { s with mem := t.mem, tags := t.tags, rel := t.rel, staging := t.staging }
        ∧ ∀ z, ¬ (pa ≤ z ∧ z < pa + bs.length) → Memory.get t.mem z = Memory.get s.mem z)
    ∧ (∀ (x : Site) (k : KvDesc) (l p state scope : Nat) (by_ : Publisher) (g : Pte) (pa : Nat) (t : State),
      s.pte x k l ((k.slotOf p).1 / 16) = .ok g → g.v = true →
      g.hides ((k.slotOf p).1 % 16) = false → (s.pageRec x.part g.page).count ≤ 1 → 1 ≤ (s.pageRec x.part g.page).units →
      g.page % 64 = 0 → s.pageLoc x (g.page + 16 * ((k.slotOf p).1 % 16)) 1 = .ok (.mem pa) →
      (∀ n, n < 16 → s.plainByte (pa + n)) → (k.slotOf p).2 < 2 ^ 48 → state < 4 → scope < 8 → s.ownPeer x.part < 512 →
      s.setPublished x k l p state scope by_ = .ok t →
      Memory.num t.mem pa 16 = (k.slotOf p).2 + state * 2 ^ 48 + (match by_ with
        | .weave i => (i.place % 4) * 2 ^ 61 + (i.core % 8) * 2 ^ 63 + (i.cg % 8) * 2 ^ 66 + (i.die % 4) * 2 ^ 69
            + (i.peer % 512) * 2 ^ 71 + (i.field % 2 ^ 32) * 2 ^ 80
        | .device => s.ownPeer x.part * 2 ^ 71) + scope * 2 ^ 112
      ∧ ∀ z, ¬ (pa ≤ z ∧ z < pa + 16) → Memory.get t.mem z = Memory.get s.mem z)
    ∧ ∀ (id : Nat) (v : Void), Tbl.find s.voids id = some v → v.fault = none →
      (∀ c, v.cohort = some c → ∀ e ∈ s.kvOps, e.2.ident.cohort ≠ c) →
      s.unitBusy (some id) (s.voidReq id v) = false → s.legError (.void id) = none →
      let x := s.voidSite id v
      (∀ wr l p s1 s2, s.nextVoid x v = .ok (some (wr, l, p)) →
        s.publish x v.desc l [p] true 5 .device = .ok s1 → s1.closeWriter x v.desc wr = .ok s2 →
        ∃ t, exec (.voidWrite id) s = .next t ∧ t = { s2 with voids := t.voids, cancels := t.cancels }
          ∧ Tbl.find t.voids id = some { v with count := v.count + 1 })
      ∧ ∀ s1, s.stepVoid x v = .ok (s1, false) →
        (s.legsOut (.void id) = true → exec (.voidWrite id) s = .next s)
        ∧ (s.legsOut (.void id) = false → ∃ t, exec (.voidWrite id) s = .next t ∧ Tbl.find t.voids id = none
          ∧ (t.part v.part).faultSeq = (s1.part v.part).faultSeq + if v.report = true ∧ v.count ≠ 0 then 1 else 0)

/-- R171, R176–R178, R181, R190, R191, R419–R422: KVACQ answers the frontier and reports a publication below it that it
cannot pair with; KVLD answers, for each thread, the element, or what masks its position, and reports a stale slot; KVFORK
enters the parent's pages in the child's page table, hides what the child must not see, counts a reference more on each, and
starts the child at the parent's smallest frontier, or answers why not; KVREL empties the page table, drops one reference of
each page, and sets POSCNT and the state area to zero, unless a writer is open.

The model's choice, log 26: each slot is read once and whole. -/
def Obligations.KvQueries : Prop :=
  ∀ (s : State) (id : Nat) (o : KvOp) (w : Weave), s.KvAt id o w →
    let k := o.desc
    let x := o.site id
    let answers (d : Nat) (v : Nat) (frame : State → Prop) : Prop :=
      ∃ t w', exec (.kvPathStep id ()) s = .next t ∧ s.KvDone t id o w w' [] ∧ frame t ∧ w.PutS w' d (BitVec.ofNat 64 v)
    let same (t : State) : Prop := t = { s.dropLegs (.kv id) with weaves := t.weaves, kvOps := t.kvOps }
    let uses (es : List (Nat × Nat × Pte)) (page : Nat) : Nat := (es.filter fun e => e.2.2.page == page).length
    (∀ l scope d f (hd : Nat → Head), o.kind = .kvacq l scope d → s.frontier x k l = .ok f →
      (∀ p ∈ k.recent f, s.head x k l (k.slotOf p).1 = .ok (hd p)) →
      ∃ t w', exec (.kvPathStep id ()) s = .next t ∧ s.KvDone t id o w w' [wsMismatch] ∧ w.PutS w' d (BitVec.ofNat 64 f)
        ∧ t = { s.dropLegs (.kv id) with
            weaves := t.weaves, kvOps := t.kvOps
            staging := s.staging.filter fun y => !(y.core == o.ident.coreNum && y.path == .ls && y.loc.isMem) }
        ∧ (w'.wstat.getLsbD wsMismatch = true ↔ w.wstat.getLsbD wsMismatch = true ∨ ∃ p ∈ k.recent f, ∃ who psc,
          (hd p).gen = (k.slotOf p).2 ∧ 2 ≤ (hd p).st ∧ s.publisherOf o.part k p (hd p) = some (who, psc)
          ∧ (s.includes (some o.part) scope o.ident who = false ∨ s.includes (some o.part) psc who o.ident = false)))
    ∧ (∀ v head l elem pos d pc (view : Nat → SlotView), o.kind = .kvld v head l elem pos d → s.poscnt x k = .ok pc →
      pc < 2 ^ 64 → (∀ q ∈ pos, q.2 < pc → s.kvSlot x o l (k.slotOf q.2).1 = .ok (view q.2)) → (pos.map (·.1)).Nodup →
      d < 254 →
      ∃ t w', exec (.kvPathStep id ()) s = .next t ∧ s.KvDone t id o w w' [wsStale] ∧ same t ∧ w'.s = w.s
        ∧ (∀ q ∈ pos, q.1 < 32 → w.live.has q.1 = true → w'.getV64 d q.1 =
          if pc ≤ q.2 then 1#64 <<< 32
          else if (k.slotOf q.2).2 < (view q.2).gen then 2#64 <<< 32
          else if (view q.2).gen = (k.slotOf q.2).2 ∧ (view q.2).st = 2 then (k.elem (view q.2) v head elem).setWidth 64
          else 1#64 <<< 32)
        ∧ (∀ n l, l < 32 → (n ≠ d ∧ n ≠ d + 1) ∨ l ∉ pos.map (·.1) → w'.getV n l = w.getV n l)
        ∧ (w'.wstat.getLsbD wsStale = true ↔ w.wstat.getLsbD wsStale = true
          ∨ ∃ q ∈ pos, q.2 < pc ∧ (k.slotOf q.2).2 < (view q.2).gen))
    ∧ (∀ child scope d cpos copen, o.kind = .kvfork child scope d → s.poscnt x child = .ok cpos →
      s.anyOpen x child = .ok copen →
      (cpos ≠ 0 ∨ copen = true → answers d (2 ^ 63 + 7) same)
      ∧ ∀ es, cpos = 0 → copen = false → s.allPtes x k = .ok es →
        ((∃ e ∈ es, 65535 ≤ (s.pageRec o.part e.2.2.page).count) → answers d (2 ^ 63 + 6) same)
        ∧ ∀ fm r, (∀ e ∈ es, (s.pageRec o.part e.2.2.page).count < 65535) → s.fmin x k = .ok fm →
          s.kvStep id o = .ok r →
          answers d fm fun t => ∃ s1 s2 s3, (es.foldlM (fun (s : State) e => do
              let hide ← s.childHide x o e.2.1 fm e.2.2
              let s ← s.kvWrite x (child.pteAt e.1 e.2.1)
                (natToBytes 16 (if e.2.2.v then 1 + e.2.2.page + hide * 2 ^ 64 else 0))
              let r := s.pageRec o.part e.2.2.page
              pure { s with pages := Tbl.put s.pages (domKey o.part e.2.2.page) { r with count := r.count + 1 } }) s) = .ok s1
            ∧ s1.kvWrite x child.ctx (natToBytes 8 fm) = .ok s2
            ∧ s2.kvWrite x child.pt (forkArea child fm) = .ok s3
            ∧ (∀ page, uses es page ≠ 0 → Tbl.find s3.pages (domKey o.part page)
              = some { s.pageRec o.part page with count := (s.pageRec o.part page).count + uses es page })
            ∧ (∀ key, (∀ e ∈ es, key ≠ domKey o.part e.2.2.page) → Tbl.find s3.pages key = Tbl.find s.pages key)
            ∧ t = { s3.dropLegs (.kv id) with weaves := t.weaves, kvOps := t.kvOps, ctxs := t.ctxs }
            ∧ Tbl.find t.ctxs (ctxKey o.part child) = some { desc := child, fork := some (o.ident, scope, fm), owners := [] })
    ∧ (∀ j fm e hide, e.hide < 2 ^ 16 → s.childHide x o j fm e = .ok hide → ∀ i, i < 16 →
      (hide / 2 ^ i % 2 = 1 ↔ e.hides i = true ∨ ∃ bs, s.pageRead x e.page (16 * i) 16 = .ok bs
        ∧ let n := bytesToNat bs
          n / 2 ^ 48 % 4 = 1 ∨ (n / 2 ^ 48 % 4 ≠ 0 ∧ fm ≤ k.posOf (16 * j + i) (n % 2 ^ 48))))
    ∧ ∀ d, o.kind = .kvrel d →
      (s.anyOpen x k = .ok true → answers d (2 ^ 63 + 1) same)
      ∧ ∀ r es, s.anyOpen x k = .ok false → s.allPtes x k = .ok es → s.kvStep id o = .ok r →
        answers d 0 fun t => ∃ s1 s2 s3, (es.foldlM (fun (s : State) e => do
            let s ← s.kvWrite x (k.pteAt e.1 e.2.1) (natToBytes 16 0)
            pure (s.dropRef o.part e.2.2.page)) s) = .ok s1
          ∧ s1.kvWrite x k.ctx (natToBytes 8 0) = .ok s2 ∧ s2.kvWrite x k.pt (natToBytes 4096 0) = .ok s3
          ∧ (∀ page, uses es page ≠ 0 → Tbl.find s3.pages (domKey o.part page) =
            if uses es page < (s.pageRec o.part page).count then
              some { s.pageRec o.part page with count := (s.pageRec o.part page).count - uses es page }
            else none)
          ∧ (∀ key, (∀ e ∈ es, key ≠ domKey o.part e.2.2.page) → Tbl.find s3.pages key = Tbl.find s.pages key)
          ∧ t = { s3.dropLegs (.kv id) with weaves := t.weaves, kvOps := t.kvOps, ctxs := t.ctxs }
          ∧ Tbl.find t.ctxs (ctxKey o.part k) = none

/-! ### The matrix engine (chapters 12 and 23) -/

/-- R218, R229, R234, R237, R238, R425, R428–R431: MDECL declares the weave set of its register, or traps CONV_MISMATCH;
MZERO zeroes the blocks it names once no request targets them; MBUDGET sets deadline and cap; MLDMASK starts its load, or
traps with the code of the first check that fails;
MSTAT answers the register, its mask or the budget.

The model's choice, log 33: how the error of a failed MLDMASK waits. -/
def Obligations.MatrixInstructions : Prop :=
  ∀ (h : Hd) (d a b : Nat) (mask : BitVec 16) (sel : BitVec 8) (st : State) (x : Ctx),
    let only (t : State) : Prop := t = { st with teams := t.teams, weaves := t.weaves }
    let blocks := x.e.f.lr.accBlk
    (st.Issues (.mdecl h d a) x →
      let m : W32 := (x.w.getS a).extractLsb' 0 32
      let legal : Prop := m ≠ 0 ∧ (∀ j, x.e.f.lr.weaves ≤ j → m.getLsbD j = false) ∧ (x.e.t.cvr d).st ≠ .signing
      (legal → ∃ t tm, exec (.mdecl h d a) st = .next t ∧ only t ∧ x.OnTeam (.mdecl h d a) t tm none
        ∧ tm = { x.e.t with cv := tm.cv } ∧ (∀ r, r ≠ d → tm.cvr r = x.e.t.cvr r)
        ∧ tm.cvr d = { x.e.t.cvr d with st := .declared, set := m, signed := [], signers := [], snap := none })
      ∧ (¬ legal → x.Traps (.mdecl h d a) (.plain .convMismatch d)))
    ∧ (st.Issues (.mzero h mask) x →
      (∀ n, mask.getLsbD n = true → blocks ≤ n → (∀ j, j < n → mask.getLsbD j = true → j < blocks) →
        x.Traps (.mzero h mask) (.plain .regRange (n + 5 * 256)))
      ∧ ((∀ n, mask.getLsbD n = true → n < blocks) →
        let busy : Prop := ∃ e ∈ st.mxReqs, e.2.team = x.e.tid ∧ e.2.st ≠ .forming ∧ ∃ n ∈ e.2.blocks, mask.getLsbD n = true
        (busy → exec (.mzero h mask) st = .next (st.updWeave x.c.weave fun w => w.updGroup x.c.gid fun g =>
          { g with sleep := .stall, port := false, latch := some (x.c.addr, x.c.code) }))
        ∧ (¬ busy → ∃ t tm, exec (.mzero h mask) st = .next t ∧ only t ∧ x.OnTeam (.mzero h mask) t tm none
          ∧ tm = { x.e.t with acc := tm.acc }
          ∧ ∀ i, Tbl.get tm.acc (0 : W32) i = if mask.getLsbD (i / 4096) then 0 else Tbl.get x.e.t.acc 0 i)))
    ∧ (st.Issues (.mbudget h a) x → ∃ t tm, exec (.mbudget h a) st = .next t ∧ only t ∧ x.OnTeam (.mbudget h a) t tm none
      ∧ tm = { x.e.t with deadline := ((x.w.getS a).extractLsb' 0 16).toNat, unitcap := ((x.w.getS a).extractLsb' 32 16).toNat })
    ∧ (st.Issues (.mldmask h d a b) x →
      let c := x.w.getK a
      let at_ : Nat := c.base + (x.w.getS b).toNat
      let flag := x.g.run.slot x.h.fs
      let may : Prop := (c.space = 0 ∨ c.space = 1 ∨ c.space = 2) ∧ c.perm &&& 0x41 = 0x41
      let lies : Prop := c.covers at_ 656 = true ∧ (c.space ≠ 0 → relativeRow x.e c at_ 656 = true)
      (c.tag = false → x.Traps (.mldmask h d a b) (.plain .capTag a))
      ∧ (c.tag = true → ¬ may → x.Traps (.mldmask h d a b) (.plain .capPerm a))
      ∧ (c.tag = true → may → ¬ lies → x.Traps (.mldmask h d a b) (.plain .capBounds a))
      ∧ (c.tag = true → may → lies → at_ % 16 ≠ 0 → x.Traps (.mldmask h d a b) (.plain .misaligned a))
      ∧ (c.tag = true → may → lies → at_ % 16 = 0 →
      (c.space = 0 → st.peerCheck x.e (at_ / 2 ^ 55) = none ∧ st.peerCheck x.e ((at_ + 655) / 2 ^ 55) = none) →
      (∀ n, flag = some n → x.w.getCf n < 255) →
      ∃ t, exec (.mldmask h d a b) st = .next t ∧ x.OnTeam (.mldmask h d a b) t x.e.t flag
        ∧ t = { st with nextId := t.nextId, maskLoads := t.maskLoads, weaves := t.weaves }
        ∧ Tbl.find t.maskLoads st.nextId = some
          { weave := x.c.weave, team := x.e.tid, part := x.e.part, core := x.e.t.core, cv := d, cap := c, addr := at_, got := []
            flag := flag, fault := none }))
    ∧ Completes (.mstat h sel d a) [] [d] [] [] [] fun x w =>
      let c := x.e.t.cvr a
      let v := w.getS d
      let masked (f : MaskBlk → Nat) : Prop := v = BitVec.ofNat 64 (match c.mask with
        | some m => f m
        | none => 0)
      (sel = 0 → v.extractLsb' 0 32 = c.set
        ∧ (v.extractLsb' 32 11).toNat = (if c.st = .signing then
            ((setWeaves c.set).map fun i => 32 - (x.s.unsigned x.e.tid c i).toList.length).sum else 0)
        ∧ (v.extractLsb' 48 2).toNat = (match c.st with
          | .clear => 0
          | .declared => 1
          | .signing => 2)
        ∧ v.getLsbD 50 = !c.pend.isEmpty ∧ v.getLsbD 51 = c.mask.isSome)
      ∧ (sel = 1 → masked fun m => m.count + m.base % 2 ^ 48 * 2 ^ 16)
      ∧ (sel = 2 → v = BitVec.ofNat 64 (x.e.t.charged.toNat * 2 ^ 32 + (x.s.bucket (x.e.t.core / 8)).units % 2 ^ 32))
      ∧ (0x40 ≤ sel.toNat → sel.toNat < 0x80 → masked fun m => (m.row.getD (sel.toNat - 0x40) 0).toNat)
      ∧ (0x80 ≤ sel.toNat → sel.toNat < 0xC0 →
        masked fun m => m.parent.getD (sel.toNat - 0x80) 0 + m.depth.getD (sel.toNat - 0x80) 0 * 256)

/-- R219–R221, R230, R426, R427: MSIGN signs for its active threads, after the checks of its descriptor, which are made
without an active thread too; a register that it may not sign, or another descriptor than the first signer's, traps
CONV_MISMATCH, and the waiting error of a failed MLDMASK on the register traps MASK_TOPOLOGY; the last signature submits the
request of the first signer's snapshot, and the register is DECLARED again.

The model's choice, log 30: the details of a submission whose reads fail. -/
def Obligations.Signing : Prop :=
  ∀ (h : Hd) (attn : Bool) (d b : Nat) (st : State) (x : Ctx),
    let i : Instr := .msign h attn d b
    let c := x.e.t.cvr d
    let snap := x.snap attn b
    let flag := x.g.run.slot x.h.fs
    let old : Lanes := Tbl.get c.signed 0 x.w.idx
    let legal : Prop := c.st ≠ .clear ∧ c.set.getLsbD x.w.idx = true ∧ x.act &&& old = 0
    let c' : Cv := { c with st := .signing, snap := some snap, signed := Tbl.put c.signed x.w.idx (old ||| x.act),
                            signers := c.signers ++ [(x.c.weave, flag)] }
    let s1 := st.updWeave x.c.weave fun w => w.countUp flag
    st.Issues i x →
    (∀ pre f e post, x.w.errs = pre ++ .mask f d e :: post → (∀ f cv e, Deferred.mask f cv e ∈ pre → cv ≠ d) →
      exec i st = .next ((st.setWeave x.c.weave { x.w with errs := pre ++ post }).takeTrap x.c.weave x.c.gid x.c.addr x.c.len x.h.bnd
        (.plain .maskTopology e.toNat)))
    ∧ ((∀ f cv e, Deferred.mask f cv e ∈ x.w.errs → cv ≠ d) →
    (¬ legal → x.Traps i (.plain .convMismatch d))
    ∧ (legal → descTrap attn snap.words x.e.f.lr.accBlk c.mask 0xB1 = none → x.operandStop attn snap.words = none →
      (x.act = 0 → ∃ t w, exec i st = .next t ∧ x.Only i t w [] [] [] [] [])
      ∧ (x.act ≠ 0 → c.st = .signing → c.snap ≠ some snap → x.Traps i (.plain .convMismatch d))
      ∧ (x.act ≠ 0 → (c.st = .signing ∧ c.snap = some snap) ∨ (c.st = .declared ∧ c.snap = none) →
        (∀ n, flag = some n → x.w.getCf n < 255) →
        (s1.allSigned x.e.tid c' = false → ∃ t tm, exec i st = .next t ∧ x.OnTeam i t tm flag
          ∧ t = { st with teams := t.teams, weaves := t.weaves } ∧ tm = { x.e.t with cv := tm.cv } ∧ tm.cvr d = c'
          ∧ ∀ r, r ≠ d → tm.cvr r = x.e.t.cvr r)
        ∧ ∀ desc, s1.allSigned x.e.tid c' = true → (attn = true → s1.acqPending c'.signers = false) →
          s1.subCheck x.e c' snap = .ok desc → ∃ t tm, exec i st = .next t ∧ x.OnTeam i t tm flag
            ∧ t = { st with nextId := t.nextId, teams := t.teams, weaves := t.weaves, mxReqs := t.mxReqs }
            ∧ tm = { x.e.t with cv := tm.cv } ∧ (∀ r, r ≠ d → tm.cvr r = x.e.t.cvr r)
            ∧ tm.cvr d = { c with st := .declared, signed := [], signers := [], snap := none, pend := c.pend ++ [st.nextId] }
            ∧ (∀ n, n ≠ st.nextId → Tbl.find t.mxReqs n = Tbl.find st.mxReqs n)
            ∧ Tbl.find t.mxReqs st.nextId = some
              { team := x.e.tid, part := x.e.part, scopeH := x.e.f.scope, cg := x.e.t.core / 8, cv := d, snap := snap,
                desc := desc, mask := c.mask, signers := c'.signers, st := .pending, batch := none, cancelled := false,
                submittedAt := st.clock, arrival := st.nextId, rowsRead := [], fault := none })))

/-- R232, R233, R237: the pending request of the earliest arrival that may enter joins the open batch of its key or opens one,
whose deadline is its team's; a deadline that is over closes a batch; the bucket fills; the batch that is dispatched is
covered by the bucket, which it empties by its units, passes no team's UNITCAP, and its requests run.

The model's choice, log 31: entry by a step of its own, the array of a batch, and the top of a bucket. -/
def Obligations.SaffronQueue : Prop :=
  ∀ (s : State),
    (∀ req q, Tbl.find s.mxReqs req = some q → s.mayEnter q = true →
      (∀ e ∈ s.mxReqs, e.2.arrival < q.arrival → e.2.cg = q.cg → s.mayEnter e.2 = false) →
      (s.joins q = none → ∃ t, exec (.saffronEnqueue req) s = .next t
        ∧ t = { s with nextId := t.nextId, teams := t.teams, mxReqs := t.mxReqs, batches := t.batches }
        ∧ Tbl.find t.mxReqs req = some { q with st := .queued, batch := some s.nextId }
        ∧ (∀ n, n ≠ req → Tbl.find t.mxReqs n = Tbl.find s.mxReqs n)
        ∧ (∀ n, n ≠ s.nextId → Tbl.find t.batches n = Tbl.find s.batches n)
        ∧ ∀ tm, s.team q.team = some tm →
          Tbl.find t.batches s.nextId = some
            { cg := q.cg, reqs := [req], closeAt := s.clock + (if tm.deadline = 0 then 2000 else max 64 tm.deadline),
              closed := false, passed := 0, core := none, got := [], tile := [], pc := none, seen := [], fault := none }
          ∧ ∃ tm', t.team q.team = some tm' ∧ tm' = { tm with cv := tm'.cv } ∧ req ∉ (tm'.cvr q.cv).pend)
      ∧ ∀ n bt, s.joins q = some n → Tbl.find s.batches n = some bt → ∃ t bt', exec (.saffronEnqueue req) s = .next t
        ∧ t = { s with teams := t.teams, mxReqs := t.mxReqs, batches := t.batches }
        ∧ Tbl.find t.mxReqs req = some { q with st := .queued, batch := some n }
        ∧ Tbl.find t.batches n = some bt' ∧ bt' = { bt with reqs := bt.reqs ++ [req], closed := bt'.closed }
        ∧ (bt.closed = false → (bt'.closed = true ↔ 256 ≤ s.batchRows bt + q.rows)))
    ∧ (∀ n bt, Tbl.find s.batches n = some bt → ∃ t, exec (.batchDeadline n) s = .next t ∧ t = { s with batches := t.batches }
      ∧ Tbl.find t.batches n = some { bt with closed := bt.closed || decide (bt.closeAt ≤ s.clock) }
      ∧ ∀ k, k ≠ n → Tbl.find t.batches k = Tbl.find s.batches k)
    ∧ (∀ cg units, cg < 32 → ∃ t, exec (.budgetRefill cg units) s = .next t ∧ t = { s with buckets := t.buckets }
      ∧ t.bucket cg = { s.bucket cg with units := min (2 ^ 32 - 1) ((s.bucket cg).units + units.toNat) }
      ∧ ∀ k, k ≠ cg → t.bucket k = s.bucket k)
    ∧ ∀ cg n bt core, s.pickBatch cg = some (n, bt, core) → Tbl.find s.batches n = some bt →
      bt.cg = cg ∧ bt.closed = true ∧ bt.core = none ∧ s.batchUnits bt core ≤ (s.bucket cg).units
      ∧ core / 8 = cg ∧ (∀ e ∈ s.batches, e.2.core ≠ some core)
      ∧ (∀ r q tm, (r, q) ∈ s.batchReqs bt → s.team q.team = some tm →
        tm.unitcap = 0 ∨ tm.recent s.clock = 0
        ∨ tm.recent s.clock + (((s.batchCharges bt core).filter fun c => c.1 == q.team).map (·.2)).sum ≤ tm.unitcap)
      ∧ ∃ t, exec (.batchDispatch cg) s = .next t
        ∧ t = { s with teams := t.teams, mxReqs := t.mxReqs, batches := t.batches, buckets := t.buckets }
        ∧ Tbl.find t.batches n = some { bt with core := some core }
        ∧ (t.bucket cg).units = (s.bucket cg).units - s.batchUnits bt core
        ∧ (∀ r q, (r, q) ∈ s.batchReqs bt → Tbl.find t.mxReqs r = some { q with st := .running })
        ∧ ∀ r q tm, s.batchReqs bt = [(r, q)] → s.team q.team = some tm → ∃ tm', t.team q.team = some tm'
          ∧ tm'.charged = tm.charged + BitVec.ofNat 32 (s.batchUnits bt core)

/-- R212–R215, R221, R225–R228, R230, R233, R235: a GEMM that completes writes the rounded running sum of its chunks to each
element of its rows, and an attention tile the state of each row after its blocks of visible positions; each leaves every
other accumulator element, and ends: its request and its signer's count are gone, and the batch goes on with the next of its
requests, which shares what the batch has read. A chunk is summed exactly after the cut of
each product, scaled and promoted once, and its special values come first; a block of an attention row is what the
pseudocode of R228 says. A read that faults keeps the rows loaded. A mask block that passes its checks is latched when its
load completes; one that does not is not, and its error waits for its weave.

The model's choice, log 32: the exponential of R228 is that of the exact difference; log 6: to how many bits it is computed before
it is rounded. -/
def Obligations.MatrixCompletion : Prop :=
  ∀ (s : State),
    (∀ (n : Nat) (bt : Batch) (r : Nat) (rs : List Nat) (q : MxReq) (tm : Team) (row : Nat → List (BitVec 8)),
      Tbl.find s.batches n = some bt → bt.core.isSome = true → bt.fault = none → bt.reqs = r :: rs → r ∉ rs →
      Tbl.find s.mxReqs r = some q → q.fault = none → s.reqAfter r q = false → q.cancelled = false →
      q.batch = some n → s.team q.team = some tm →
      (q.snap.attn = false → ∀ wt : Nat → List (BitVec 8),
        let m := mmaOf q.snap.words
        let cw := q.snap.caps.getD 1 nullCap
        let ca := q.snap.caps.getD 0 nullCap
        RowsRead m.wRows bt.tile (fun i => s.mxRead (s.batchSite n bt q) cw (cw.base + m.wt.toNat + i * m.wstride) m.wRowBytes) wt →
        RowsRead m.rows q.rowsRead (fun i => s.mxRead (s.reqSite r bt q) ca (ca.base + (m.act.toNat + i * m.astride)) m.aRowBytes) row →
        (∀ k ∈ rs, ∀ o, Tbl.find s.mxReqs k = some o → o.snap.attn = false ∧ (mmaOf o.snap.words).wRows = m.wRows) →
        ∃ t, s.GoesOn t n rs ∧ s.MxDone t n r q tm { bt with reqs := rs, tile := (List.range m.wRows).map wt } (fun z =>
          let i := (z - m.dst * 4096) / 64
          let codes := actRow m.aFmt m.had m.hFmt (codesOf m.aFmt (row i))
          if m.dst * 4096 ≤ z ∧ i < m.rows then
            some ((List.range m.kch).foldl
              (fun acc j => f32Add acc (chunkValue (tileChunk m ((List.range m.wRows).map wt) (z % 64) j)
                ((codes.1.drop (32 * j)).take 32) codes.2 m.had))
              (if m.zero then 0 else s.accRead bt.got q.team z))
          else none) False)
      ∧ ∀ d b', q.snap.attn = true → q.desc = some d → s.tileSlots n bt q d = (b', none) →
        let m := attnOf q.snap.words
        let c := q.snap.caps.getD 0 nullCap
        let len := d.dim * m.qFmt.bytes
        let view (p : Nat) : Option SlotView := Tbl.find b'.seen (d.slotOf p).1
        let pc := b'.pc.getD 0
        RowsRead m.rows q.rowsRead (fun i => s.mxRead (s.reqSite r bt q) c (c.base + (m.q.toNat + i * len)) len) row →
        let start (i : Nat) : AttnSt :=
          let rd (blk col : Nat) : W32 := s.accRead bt.got q.team (blk * 4096 + i * 64 + col)
          { m := if m.zero then f32NegInf else rd m.stat 0, l := if m.zero then 0 else rd m.stat 1
            o := (List.range d.dim).map fun x => if m.zero then 0 else rd (m.out + x / 64) (x % 64), stop := false }
        let ends (i : Nat) : AttnSt := (List.range ((m.kend - m.kfirst + 31) / 32)).foldl (fun st k =>
          attnBlock m.qFmt d.kfmt d.vfmt m.scale (codesOf m.qFmt (row i)) st
            ((((List.range 32).map (m.kfirst + 32 * k + ·)).filter fun p => m.visible q.mask d pc i p (view p)).filterMap fun p =>
              (view p).map fun v => { k := d.headCodes v false m.kvh, v := d.headCodes v true m.kvh })) (start i)
        m.rows ≤ 64 → (m.stat < m.out ∨ m.out + (d.dim + 63) / 64 ≤ m.stat) →
        (∀ k ∈ rs, ∀ o, Tbl.find s.mxReqs k = some o → o.snap.attn = true ∧ o.desc = some d
          ∧ (attnOf o.snap.words).kfirst = m.kfirst ∧ (attnOf o.snap.words).kend = m.kend) →
        ∃ t, s.GoesOn t n rs ∧ s.MxDone t n r q tm { b' with reqs := rs } (fun z =>
          let i := z % 4096 / 64
          if m.rows ≤ i then none
          else if z / 4096 = m.stat ∧ z % 64 < 2 then some (if z % 64 = 0 then (ends i).m else (ends i).l)
          else if m.out ≤ z / 4096 ∧ (z / 4096 - m.out) * 64 + z % 64 < d.dim then
            (ends i).o[(z / 4096 - m.out) * 64 + z % 64]?
          else none)
          (∃ p v, m.kfirst ≤ p ∧ p < m.kend ∧ p < pc ∧ view p = some v ∧ (d.slotOf p).2 < v.gen))
    ∧ (∀ (n : Nat) (bt : Batch) (r : Nat) (q : MxReq) (rs : List (Nat × MxReq)) (rows : List (List (BitVec 8))) (lva kind : Nat),
      Tbl.find s.batches n = some bt → bt.core.isSome = true → bt.fault = none → s.batchReqs bt = (r, q) :: rs →
      q.snap.attn = false → s.weightRows n bt q = (rows, some (.xl .resolvable lva kind)) →
      ∃ t fid, exec (.batchComplete n ()) s = .next t
        ∧ Tbl.find t.batches n = some { bt with tile := rows, fault := some fid } ∧ t.teams = s.teams ∧ t.mxReqs = s.mxReqs)
    ∧ (∀ (f g : Fmt) (ps : List (Nat × Nat)) (had : Nat),
      (Fmt.isFp f = true ∨ f = .e5f2) → (Fmt.isFp g = true ∨ g = .e5f2) →
      let a (p : Nat × Nat) : Val := value f p.1
      let b (p : Nat × Nat) : Val := value g p.2
      let shift : Int := if had = 1 then -4 else if had = 2 then -5 else 0
      let r := promote (Val.scale (chunk48 (ps.map fun p => { a := a p, fa := fracBits f, b := b p, fb := fracBits g })) shift)
      let isInf (v : Val) : Prop := v = .inf true ∨ v = .inf false
      let bad (p : Nat × Nat) : Prop := (a p).isNan = true ∨ (b p).isNan = true
        ∨ (isInf (a p) ∧ Val.isFin (b p) = true ∧ Val.rat (b p) = 0) ∨ (isInf (b p) ∧ Val.isFin (a p) = true ∧ Val.rat (a p) = 0)
      let inf (s : Bool) (p : Nat × Nat) : Prop := (isInf (a p) ∨ isInf (b p)) ∧ ((a p).sign != (b p).sign) = s
      ((∃ p ∈ ps, bad p) → r = 0x7FC00000)
      ∧ ((∀ p ∈ ps, ¬ bad p) →
        ((∃ p ∈ ps, inf true p) → (∃ p ∈ ps, inf false p) → r = 0x7FC00000)
        ∧ ((∃ p ∈ ps, inf true p) → (∀ p ∈ ps, ¬ inf false p) → r = 0xFF800000)
        ∧ ((∃ p ∈ ps, inf false p) → (∀ p ∈ ps, ¬ inf true p) → r = 0x7F800000)
        ∧ ((∀ p ∈ ps, ¬ inf true p ∧ ¬ inf false p) →
          ChunkSum (ps.map fun p => (Val.rat (a p) * Val.rat (b p), sigExp f p.1 + sigExp g p.2)) 40 shift r))
      ∧ chunkValue (.codes g (ps.map (·.2))) (ps.map a) (fracBits f) had = r)
    ∧ (∀ (f : Fmt) (as : List Nat) (idx : List (BitVec 16)) (scale had : Nat), f = .e4m3 ∨ f = .e5m2 →
      let shift : Int := if had = 1 then -4 else if had = 2 then -5 else 0
      let r := chunkValue (.cb2 idx scale) (as.map (value f)) (fracBits f) had
      let ws := idx.flatMap fun i => (List.range 8).map fun j => cb2Weight i j
      let inf (s : Bool) (p : (Bool × Nat) × Nat) : Prop := ∃ t, value f p.2 = .inf t ∧ (t != p.1.1) = s
      (scale = 255 ∨ (∃ c ∈ as, (value f c).isNan = true) → r = 0x7FC00000)
      ∧ (scale ≠ 255 → (∀ c ∈ as, (value f c).isNan = false) →
        ((∃ p ∈ ws.zip as, inf true p) → (∃ p ∈ ws.zip as, inf false p) → r = 0x7FC00000)
        ∧ ((∃ p ∈ ws.zip as, inf true p) → (∀ p ∈ ws.zip as, ¬ inf false p) → r = 0xFF800000)
        ∧ ((∃ p ∈ ws.zip as, inf false p) → (∀ p ∈ ws.zip as, ¬ inf true p) → r = 0x7F800000))
      ∧ (scale ≠ 255 → (∀ c ∈ as, Val.isFin (value f c) = true) →
        ChunkSum ((ws.zip as).map fun p =>
          ((if p.1.1 then -1 else 1) * ((p.1.2 : Rat) / 2) * Val.rat (value f p.2), sigExp f p.2 - f.shape.2.1 - 1))
          7 ((scale : Int) - 127 + shift) r))
    ∧ (∀ (qf kf vf : Fmt) (scale : W32) (q : List Nat) (st : AttnSt) (vis : List KvRow),
      let xs := vis.map fun r => f32Mul scale (attnDot qf kf q r.k)
      let top := xs.foldl f32Max st.m
      let exp32 (x y : W32) : W32 := BitVec.ofNat 32 (packFp .fp32 (expVal (f32Diff x y)) .rne false).1
      let corr : W32 := if st.m = f32NegInf then 0 else exp32 st.m top
      let ps := xs.map fun x => (packE5f2 (expVal (f32Diff x top))).1
      let next := attnBlock qf kf vf scale q st vis
      (st.stop = true ∨ vis = [] → next = st)
      ∧ (st.stop = false → vis ≠ [] → (∃ x ∈ xs, f32Finite x = false) →
        next = { m := f32Nan, l := f32Nan, o := st.o.map fun _ => f32Nan, stop := true })
      ∧ (st.stop = false → vis ≠ [] → (∀ x ∈ xs, f32Finite x = true) → next.m = top ∧ next.stop = false
        ∧ (∃ v : Val, Val.isFin v = true ∧ Val.rat v = (ps.map fun p => Val.rat (value .e5f2 p)).sum
          ∧ next.l = promote ((value .fp32 (f32Mul st.l corr).toNat).add v .rne))
        ∧ next.o.length = st.o.length
        ∧ ∀ d x, st.o[d]? = some x → next.o[d]? = some (f32Add (f32Mul x corr) (promote (chunk48 ((ps.zip vis).map fun p =>
          { a := value .e5f2 p.1, fa := fracBits .e5f2, b := value vf (p.2.v.getD d 0), fb := fracBits vf })))))
      ∧ ∀ k : List Nat, attnDot qf kf q k = (List.range ((q.length + 31) / 32)).foldl (fun acc c =>
        f32Add acc (promote (chunk48 ((((q.drop (32 * c)).take 32).zip ((k.drop (32 * c)).take 32)).map fun p =>
          { a := value qf p.1, fa := fracBits qf, b := value kf p.2, fb := fracBits kf })))) 0)
    ∧ ∀ (id : Nat) (m : MaskLoad) (row : Nat → List (BitVec 8)) (tm : Team) (w : Weave), Tbl.find s.maskLoads id = some m →
      m.fault = none → s.team m.team = some tm → s.weave m.weave = some w →
      let cs := chunksOf m.addr 656
      let bs := ((List.range cs.length).map row).flatten
      RowsRead cs.length m.got (fun i => s.mxRead (m.site id) m.cap (cs.getD i (0, 0)).1 (cs.getD i (0, 0)).2) row →
      ∃ t tm' w', exec (.mldmaskComplete id ()) s = .next t
        ∧ t = { s.dropLegs (.maskLoad id) with teams := t.teams, weaves := t.weaves, maskLoads := t.maskLoads }
        ∧ Tbl.find t.maskLoads id = none ∧ t.team m.team = some tm' ∧ t.weave m.weave = some w'
        ∧ w' = { w with cf := w'.cf, errs := w'.errs }
        ∧ (∀ k, w'.getCf k = w.getCf k - if m.flag = some k then 1 else 0)
        ∧ (maskGood bs → w'.errs = w.errs ∧ tm' = { tm with cv := tm'.cv }
          ∧ tm'.cvr m.cv = { tm.cvr m.cv with mask := some (maskOf bs) })
        ∧ (¬ maskGood bs → tm' = tm ∧ ∃ detail : BitVec 16, w'.errs = w.errs ++ [.mask m.flag m.cv detail]
          ∧ 1 ≤ detail.toNat / 256 ∧ detail.toNat / 256 ≤ 5)

/-! ### Pools of KV pages (chapter 10) -/

/-- R14, R186, R187, R189: a write of CTRL changes nothing while GO is set, and never ERR; the unit refuses a change that an
enabled pool does not take, and makes every page of a new pool's arena free; each waits while memory holds the entry. A pool borrows
64 pages from the next die, or gives 64 to a peer that may have them, and takes back those that the peer returns.

The model's choice, log 27 and 28: which pages a lender gives, when a pool asks, and what becomes of a disabled
pool's pages. Log 45: how an access of the device waits. Log 67: how the messages of a borrow travel. -/
def Obligations.Pools : Prop :=
  ∀ (s : State) (part die pool pa : Nat),
    let k := part * 64 + die * 16 + pool
    let old := s.pool k
    let ctrl := Memory.num s.mem pa 8
    die < 4 → pool < 16 → (s.part part).tdi = .run → (s.part part).direct (poolOff k) = some pa →
    ((s.memSt pa = .held ∨ ∃ x ∈ s.devWrites, x.part = part) →
      (∀ v : W64, exec (.poolCtrlWrite part die pool v) s = .next { s with
        devWrites := s.devWrites ++ [{ part := part, pa := pa, data := natToBytes 8 v.toNat, own := false, rel := none }] })
      ∧ ∃ t, exec (.poolApply part die pool) s = .next t ∧ t = { s with dies := t.dies })
    ∧ (s.memSt pa = .ready → (∀ x ∈ s.devWrites, x.part ≠ part) →
      (∀ v, ∃ t, exec (.poolCtrlWrite part die pool v) s = .next t
        ∧ t = { s with mem := t.mem, tags := t.tags, rel := t.rel, dies := t.dies }
        ∧ ((∀ n, n < 8 → s.kept (pa + n) = true) → ∀ z, Memory.get t.mem z = Memory.get s.mem z)
        ∧ ((∀ n, n < 8 → s.kept (pa + n) = decide (n = 1)) →
          (∀ n, n < 8 → n ≠ 1 → Memory.get t.mem (pa + n) = v.extractLsb' (8 * n) 8)
          ∧ ∀ z, (z = pa + 1 ∨ z < pa ∨ pa + 8 ≤ z) → Memory.get t.mem z = Memory.get s.mem z))
      ∧ (2 ^ 63 ≤ ctrl → (∀ q, (s.part part).direct (poolOff k + 20) = some q → s.memSt q ≠ .held) →
        let new := s.poolEntry k ctrl
        let word (err : Nat) : Nat := ctrl % 2 + err * 256
        (∀ a ∈ new.arenas, s.arenaHeld k new.pgsz a = false) →
        (old.en = true → old.accepts new = false → ∃ t, exec (.poolApply part die pool) s = .next t
          ∧ t = { s with mem := t.mem, tags := t.tags, rel := t.rel, dies := t.dies } ∧ Memory.num t.mem pa 8 = word 1)
        ∧ (old.en = false → new.en = false → ∃ t, exec (.poolApply part die pool) s = .next t
          ∧ t.pool k = { new with arenas := [] } ∧ Memory.num t.mem pa 8 = word 0)
        ∧ (∀ lva n tr, old.en = false → new.en = true → 1 ≤ n → 1 ≤ new.pgsz → lva.toNat % 4096 = 0 →
          lva.toNat + n * new.pgsz * 4096 ≤ 2 ^ 55 →
          new.arenas = [(lva, n), (0, 0), (0, 0), (0, 0), (0, 0), (0, 0)] →
          s.arenaUnits die part lva.toNat 0 (n * new.pgsz) = some tr →
          ∃ t, exec (.poolApply part die pool) s = .next t ∧ Memory.num t.mem pa 8 = word 0 ∧ (t.pool k).en = true
            ∧ (t.pool k).free.length = n
            ∧ ∀ j, j < n → domain (s.ownPeer part) (lva.toNat + 4096 * new.pgsz * j) ∈ (t.pool k).free)))
    ∧ (let nk := part * 64 + (die + 1) % 4 * 16 + pool
      let given := ((s.pool nk).lendable none).take 64
      (∀ offer, old.asking = false → exec (.poolLend part die pool none offer) s = .next s)
      ∧ (∀ offer, old.asking = true → (s.pool nk).canLend none old.pgsz = true →
        ∃ t, exec (.poolLend part die pool none offer) s = .next t ∧ given.length = 64
          ∧ t.pool k = { old with borrowed := old.borrowed ++ given, asking := false, asked := none }
          ∧ t.pool nk = { s.pool nk with free := (s.pool nk).free.filter (!given.contains ·)
                                         borrowed := (s.pool nk).borrowed.filter (!given.contains ·) })
      ∧ (∀ offer, old.asking = true → (s.pool nk).canLend none old.pgsz = false →
        (old.lendPeer = none → ∃ t, exec (.poolLend part die pool none offer) s = .next t
          ∧ t.pool k = { old with asking := false })
        ∧ ∀ peer, old.lendPeer = some peer →
          let session := entSession (s.peerEnt part peer.toNat)
          (s.peerErr part die peer.toNat ≠ none → ∃ t, exec (.poolLend part die pool none offer) s = .next t
            ∧ t.pool k = { old with asking := false } ∧ t.out = s.out)
          ∧ (s.peerErr part die peer.toNat = none → s.sessionOpen session = false →
            exec (.poolLend part die pool none offer) s = .next s)
          ∧ (s.peerErr part die peer.toNat = none → s.sessionOpen session = true →
            ∃ t w, exec (.poolLend part die pool none offer) s = .next t
            ∧ w = (s.takeWire part (64 * die) peer .om).1 ∧ t.hd = (s.takeWire part (64 * die) peer .om).2.hd
            ∧ t.out = s.out ++ [.lendRequest peer old.lendDie old.lendPool w]
            ∧ t.pool k = (if offer.length = 64 then
                { old with borrowed := old.borrowed ++ offer.map (fun a => domain peer.toNat a.toNat), asking := false, asked := none }
              else { old with asking := false }))))
    ∧ (∀ peer pgsz,
      let e := s.peerEnt part peer
      let own := s.ownPeer part
      let may : Prop := entValid e = true ∧ entEnable e = true ∧ old.canLend (some own) pgsz = true
      let given := (old.lendable (some own)).take 64
      let w := (s.takeWire part (64 * die) (BitVec.ofNat 9 peer) .om).1
      let gone := (s.takeWire part (64 * die) (BitVec.ofNat 9 peer) .om).2
      (s.sessionOpen (entSession e) = false → exec (.poolLend part die pool (some (peer, pgsz)) []) s = .next s)
      ∧ (s.sessionOpen (entSession e) = true → peer < 512 →
        (may → ∃ t, exec (.poolLend part die pool (some (peer, pgsz)) []) s = .next t ∧ given.length = 64
          ∧ t.pool k = { old with free := old.free.filter (!given.contains ·), borrowed := old.borrowed.filter (!given.contains ·) }
          ∧ t.hd = gone.hd
          ∧ t.out = s.out ++ [.lendReply (BitVec.ofNat 9 peer) (given.map fun a => (a.extractLsb' 0 55).setWidth 64) w])
        ∧ (¬ may → exec (.poolLend part die pool (some (peer, pgsz)) []) s
          = .next { gone with out := s.out ++ [.lendReply (BitVec.ofNat 9 peer) [] w] })))
    ∧ ∀ (peer pgsz : Nat) (a : W64),
      let page := domain (s.ownPeer part) a.toNat
      s.ownPeer part < 512 → Tbl.find s.pages (domKey part page.toNat) = none → old.owns (a.toNat % 2 ^ 55) = true →
      (∀ q, q < 64 → (s.pool (part * 64 + q)).owns (a.toNat % 2 ^ 55) = true → q = die * 16 + pool) →
      ∃ t, exec (.poolLend part die pool (some (peer, pgsz)) [a]) s = .next t
        ∧ t.pool k = { old with free := (t.pool k).free } ∧ page ∈ (t.pool k).free
        ∧ (∀ x ∈ old.free, x ∈ (t.pool k).free) ∧ ∀ x ∈ (t.pool k).free, x ∈ old.free ∨ x = page

/-! ### Cancel scopes (chapters 5 and 18) -/

/-- R82, R88, R106, R330–R333: a scope instruction whose checks pass sends its operation to the scope table; CWAIT's group
sleeps on it; CSCOPE with the flag but without a capability traps CAP_TAG. A CSCOPE whose capability a check refuses, and a
SPAWN whose record one does, traps with the code of the first that fails: tag, space and permission, bounds, alignment, the
own peer.

The model's choice, log 19: SPAWN translates the record's address at issue, and sends it untranslated where its scope's handle is
not current. -/
def Obligations.ScopeInstructions : Prop :=
  ∀ (h : Hd) (d a b : Nat) (imm : W32) (flag inh : Bool) (st : State) (x : Ctx),
    (∀ n, x.g.run.slot x.h.fs = some n → x.w.getCf n < 255) →
    (st.Issues (.cancel h d a) x → ∃ t, exec (.cancel h d a) st = .next t
      ∧ x.Asks (.cancel h d a) t (.cancel (x.w.getS a)) d false ∧ t.tlb = st.tlb)
    ∧ (st.Issues (.cwait h d a) x → ∃ t, exec (.cwait h d a) st = .next t
      ∧ x.Asks (.cwait h d a) t (.cwait (x.w.getS a)) d true ∧ t.tlb = st.tlb)
    ∧ (st.Issues (.cscope h flag d a b) x →
      let c := x.w.getK a
      let need := if flag then 40 else 32
      let i : Instr := .cscope h flag d a b
      let may : Prop := c.space = 0 ∧ c.perm.getLsbD 1 = true ∧ (flag = true → c.perm.getLsbD 5 = true)
      let lies : Prop := need ≤ c.len ∧ c.base + need ≤ 2 ^ 64
      ((c.tag = false ∧ flag = false)
        ∨ (c.tag = true ∧ may ∧ lies ∧ c.base % 32 = 0 ∧ c.base / 2 ^ 55 = st.ownPeer x.e.part) →
        ∃ t, exec i st = .next t ∧ x.Asks i t (.cscope (x.w.getS b) c flag) d false ∧ t.tlb = st.tlb)
      ∧ (c.tag = false → flag = true → x.Traps i (.plain .capTag a))
      ∧ (c.tag = true → ¬ may → x.Traps i (.plain .capPerm a))
      ∧ (c.tag = true → may → ¬ lies → x.Traps i (.plain .capBounds a))
      ∧ (c.tag = true → may → lies → c.base % 32 ≠ 0 → x.Traps i (.plain .misaligned a))
      ∧ (c.tag = true → may → lies → c.base % 32 = 0 → c.base / 2 ^ 55 ≠ st.ownPeer x.e.part → x.Traps i (.plain .capBounds a)))
    ∧ (st.Issues (.spawn h d a b imm inh) x →
      let c := x.w.getK a
      let at_ : Int := c.base + imm.toInt
      let i : Instr := .spawn h d a b imm inh
      let sends (src : Loc) : Prop := ∃ t, exec i st = .next t
        ∧ x.Asks i t (.spawn (some src) (BitVec.ofNat 64 at_.toNat) (x.w.getS b) (if inh then some x.e.f.lr.prio else none)) d
          false
      let may : Prop := (c.space = 0 ∨ c.space = 1 ∨ c.space = 2 ∨ c.space = 4) ∧ c.perm.getLsbD 0 = true
      let lies : Prop := c.covers at_ 128 = true ∧ (c.space ≠ 0 → relativeRow x.e c at_.toNat 128 = true)
      (c.tag = false → x.Traps i (.plain .capTag a)) ∧ (c.tag = true → ¬ may → x.Traps i (.plain .capPerm a))
      ∧ (c.tag = true → may → ¬ lies → x.Traps i (.plain .capBounds a))
      ∧ (c.tag = true → may → lies → at_ % 128 ≠ 0 → x.Traps i (.plain .misaligned a))
      ∧ (c.tag = true → may → lies → at_ % 128 = 0 → c.space = 0 → at_.toNat / 2 ^ 55 ≠ st.ownPeer x.e.part →
        x.Traps i (.plain .capBounds a))
      ∧ (c.tag = true → may → lies → at_ % 128 = 0 → (c.space = 0 → at_.toNat / 2 ^ 55 = st.ownPeer x.e.part) →
      (c.space ≠ 0 → sends (x.place c at_))
      ∧ (∀ lva, x.place c at_ = .virt lva → st.currentW x.e.part (x.w.getS b) = false → sends (.virt lva))
      ∧ ∀ lva pa, x.place c at_ = .virt lva → st.currentW x.e.part (x.w.getS b) = true →
        st.xlateLs x.die x.e.part lva.toNat 0 0 = .ok pa → sends (.mem pa)))

/-- R82–R91, R97: at the scope table CSCOPE gives the lowest free id with its next generation, or says why not; CANCEL marks
every live scope of the subtree and discards the records under them; CWAIT sleeps on a current scope; SPAWN has its
record validated and accepted, or answers that it cannot be read, and its read, an acquire, reports a release that it cannot
pair with (R162).

The model's choice, log 11: the records under a scope are discarded in the step that marks it. Log 19: the scope-table step reads
SPAWN's record. -/
def Obligations.ScopeTable : Prop :=
  ∀ (s : State) (id : Nat) (o : ScopeOp) (w : Weave), s.ScopeAt id o w →
    let i : Instr := .scopeTableOperation id
    let ent (n : Nat) : ScopeEnt := s.scopeEnt o.part n
    let only (t : State) : Prop := t = { s with weaves := t.weaves, scopeOps := t.scopeOps }
    let answers (v : Nat) : Prop := ∃ t, exec i s = .next t ∧ s.ScopeDone t id o w (BitVec.ofNat 64 v) ∧ only t
    (∀ parent ack flag, o.kind = .cscope parent ack flag →
      let p := ent (idOf parent)
      (s.currentW o.part parent = false → answers (2 ^ 63 + 1))
      ∧ (s.currentW o.part parent = true → p.st = 2 → answers (2 ^ 63 + 2))
      ∧ (s.currentW o.part parent = true → p.st ≠ 2 → p.depth = 16 → answers (2 ^ 63 + 4))
      ∧ (s.currentW o.part parent = true → p.st ≠ 2 → p.depth ≠ 16 →
        ((∀ n, 1 ≤ n → n < 4096 → (ent n).st ≠ 0) → answers (2 ^ 63 + 5))
        ∧ ∀ n, 1 ≤ n → n < 4096 → (ent n).st = 0 → (∀ m, 1 ≤ m → m < n → (ent m).st ≠ 0) →
          ∃ t, exec i s = .next t
            ∧ s.ScopeDone t id o w (BitVec.ofNat 64 (((ent n).gen + 1).toNat * 4096 + n))
            ∧ t = { s with weaves := t.weaves, scopeOps := t.scopeOps, parts := t.parts }
            ∧ t.scopeEnt o.part n = { ScopeEnt.free with
                st := 1, gen := (ent n).gen + 1, parent := idOf parent, depth := p.depth + 1,
                ack := if ack.tag then ack else nullCap, ackFlag := flag }
            ∧ ∀ q m, (q ≠ o.part ∨ m ≠ n) → t.scopeEnt q m = s.scopeEnt q m))
    ∧ (∀ hd, o.kind = .cancel hd →
      (s.currentW o.part hd = false → answers 1)
      ∧ (s.currentW o.part hd = true → idOf hd = 0 → answers 3)
      ∧ (s.currentW o.part hd = true → idOf hd ≠ 0 → (ent (idOf hd)).st = 2 → answers 2)
      ∧ (s.currentW o.part hd = true → idOf hd ≠ 0 → (ent (idOf hd)).st ≠ 2 →
        let marked (n : Nat) : Prop := n ∈ s.subtree o.part (idOf hd) ∧ (ent n).st = 1
        let hit (r : Record) : Prop := r.part = o.part ∧ marked (handleId r.scope)
        ∃ t c, exec i s = .next t ∧ s.ScopeDone t id o w 0 ∧ Tbl.find t.cancels s.nextId = some c
          ∧ c.part = o.part ∧ c.top = idOf hd ∧ (∀ n, n ∈ c.marked ↔ marked n) ∧ c.killed = 0 ∧ c.copies = 0 ∧ c.voided = 0
          ∧ (∀ n, marked n → (t.scopeEnt o.part n).st = 2 ∧ (t.scopeEnt o.part n).byOp = some s.nextId)
          ∧ (∀ n, ¬ marked n → (t.scopeEnt o.part n).st = (ent n).st ∧ (t.scopeEnt o.part n).byOp = (ent n).byOp)
          ∧ (∀ e ∈ s.records, hit e.2 → Tbl.find t.records e.1 = none)
          ∧ (∀ n, (∀ e ∈ s.records, hit e.2 → e.1 ≠ n) → Tbl.find t.records n = Tbl.find s.records n)
          ∧ t.teams = s.teams ∧ t.mem = s.mem))
    ∧ (∀ hd, o.kind = .cwait hd →
      (s.currentW o.part hd = false → answers 1)
      ∧ (s.currentW o.part hd = true → exec i s
        = .next { s with scopeOps := Tbl.upd s.scopeOps id fun o => { o with asleep := true } }))
    ∧ (∀ src addr hd prio, o.kind = .spawn src addr hd prio →
      (s.currentW o.part hd = false → answers 5)
      ∧ (src = none → s.currentW o.part hd = true → s.spawnReady id o none = true → answers 7)
      ∧ ∀ l e, src = some l → s.currentW o.part hd = true → (∀ v, l ≠ .virt v) → s.locReady l = true →
        s.spawnReady id o (some l) = true → s.env o.weave = some e →
        let mm := s.mismatched l 64 .mod (s.ident e) || s.mismatched (l.at 64) 64 .mod (s.ident e)
        let done (t : State) (v : W64) : Prop :=
          (s.stickyIf o.weave wsMismatch mm).ScopeDone t id o (if mm then w.sticky wsMismatch else w) v
          ∧ t.staging = if mm then s.staging
            else s.staging.filter fun y => !(y.core == o.core && y.path == .ls && y.loc.isMem)
        let bad : Prop := ∃ pa, l = .mem pa ∧ (s.eccBad pa = true ∨ s.eccBad (pa + 64) = true)
        (bad → ∃ t, exec i s = .next t ∧ done t 7 ∧ t.records = s.records) ∧ (¬ bad →
        let raw := s.spawnRead l
        let lr := { raw.lr with scope := idOf hd, prio := prio.getD raw.lr.prio }
        let status := s.validate o.part { raw with lr := lr }
        let room := s.hasEntry o.part true
        (status ≠ 0 → ∃ t, exec i s = .next t ∧ done t (BitVec.ofNat 64 status) ∧ t.records = s.records)
        ∧ (status = 0 → room = false → ∃ t, exec i s = .next t ∧ done t 8 ∧ t.records = s.records)
        ∧ (status = 0 → room = true → lr.dep.tag = true ∨ lr.argPtr = 0 → ∃ t r, exec i s = .next t
          ∧ done t 0 ∧ Tbl.find t.records s.nextId = some r ∧ r.part = o.part ∧ r.lr = lr ∧ r.src = .spawn
          ∧ r.addr = addr ∧ r.scope = s.handleAt o.part (idOf hd) ∧ r.next = 0 ∧ r.field = none
          ∧ (r.met = true ↔ lr.dep.tag = false)
          ∧ (∀ n, n ≠ s.nextId → Tbl.find t.records n = Tbl.find s.records n)
          ∧ (t.scopeEnt o.part (handleId r.scope)).spawns = (ent (handleId r.scope)).spawns + 1)))

/-- R95–R97: a drained cancellation writes its record and adds one to the flag behind it, where it has a capability, frees
the entries it marked, keeps their generations, and lets every CWAIT on them go with status 0.

The model's choice, log 11: record, flag and freeing are one step. -/
def Obligations.CancelCompletion : Prop :=
  ∀ (s : State) (part scope id : Nat) (c : Cancel),
    let e := s.scopeEnt part scope
    let lva := e.ack.base % 2 ^ 55
    let waits (q : ScopeOp) (n : Nat) : Prop := q.part = part ∧ q.asleep = true
      ∧ q.kind = .cwait ((s.handleAt part n).setWidth 64) ∧ n ∈ c.marked
    s.cancels.find? (fun e => e.2.part == part && e.2.top == scope) = some (id, c) → c.fault = none →
    s.drained id c = true →
    (e.ack.tag = false → ∃ t, exec (.cancelDrained part scope) s = .next t ∧ Tbl.find t.cancels id = none ∧ t.mem = s.mem
      ∧ (∀ n, n ∈ c.marked → t.scopeEnt part n = { ScopeEnt.free with gen := (s.scopeEnt part n).gen })
      ∧ (∀ n, n ∉ c.marked → t.scopeEnt part n = s.scopeEnt part n)
      ∧ ∀ k q n w, Tbl.find s.scopeOps k = some q → (k, q) ∈ s.scopeOps → waits q n → s.opHalted q = false →
        s.weave q.weave = some w → w.takes q.lanes = true → Tbl.find t.scopeOps k = none
          ∧ ∃ w', t.weave q.weave = some w' ∧ w'.getS q.d = 0)
    ∧ (∀ pa, e.ack.tag = true → e.ackFlag = false → c.written = false → lva % 32 = 0 → s.kvPa 0 part lva 1 = .ok pa →
      (∀ n, n < 32 → s.plainByte (pa + n)) → c.top < 2 ^ 16 →
      ∃ t, exec (.cancelDrained part scope) s = .next t ∧ Tbl.find t.cancels id = none
        ∧ Memory.num t.mem pa 2 = c.top ∧ Memory.num t.mem (pa + 4) 4 = c.killed % 2 ^ 32
        ∧ Memory.num t.mem (pa + 8) 4 = c.records % 2 ^ 32 ∧ Memory.num t.mem (pa + 12) 4 = c.spawns % 2 ^ 32
        ∧ Memory.num t.mem (pa + 16) 4 = c.copies % 2 ^ 32 ∧ Memory.num t.mem (pa + 20) 4 = 2 ^ 31 + c.status.toNat
        ∧ Memory.num t.mem (pa + 24) 4 = c.voided % 2 ^ 32
        ∧ ∀ z, ¬ (pa ≤ z ∧ z < pa + 32) → Memory.get t.mem z = Memory.get s.mem z)
    ∧ ∀ pf, e.ack.tag = true → e.ackFlag = true → c.written = true → lva % 32 = 0 → s.kvPa 0 part (lva + 32) 1 = .ok pf →
      s.eccBad pf = false → (∀ n, n < 8 → s.plainByte (pf + n)) →
      ∃ t, exec (.cancelDrained part scope) s = .next t ∧ Tbl.find t.cancels id = none
        ∧ Memory.num t.mem pf 8 = (Memory.num s.mem pf 8 + 1) % 2 ^ 64
        ∧ ∀ z, ¬ (pf ≤ z ∧ z < pf + 8) → Memory.get t.mem z = Memory.get s.mem z

/-! ### Launch, placement and ends (chapters 4 and 6) -/

/-- R65, R68–R72, R76: the queue processor takes the next record of the queue whose turn it is, and accepts it or reports
its status; a dependence on a flag is met once the flag has reached its value, and the arguments are read then.

The model's choice, log 12: a SCOPE above 4,095 counts as dead. -/
def Obligations.RecordTaking : Prop :=
  ∀ (s : State),
    (∀ (part q : Nat) (bs : List (BitVec 8)), (s.part part).tdi = .run → (s.recordDie part).isSome = true →
      s.hasEntry part false = true → s.nextQueue part = some q → s.agentRead part (s.queue q).slot 128 = .ok bs →
      let r := hostRecord bs
      let status := s.validate part r
      (s.queue q).outstanding = true ∧ q ∈ s.queuesOf part
      ∧ ∃ t, exec (.queueRecordTake part) s = .next t ∧ (t.queue q).head = (s.queue q).head + 1
        ∧ (∀ k, k ≠ q → t.queue k = s.queue k) ∧ (t.part part).turn = (s.queue q).lidx.toNat + 1
        ∧ (status = 0 → r.lr.dep.tag = true ∨ r.lr.argPtr = 0 → ∃ n, Tbl.find t.records s.nextId = some n ∧ n.part = part
          ∧ n.lr = r.lr ∧ n.src = .queue (s.queue q).lidx.toNat ∧ n.scope = s.handleAt part r.lr.scope ∧ n.next = 0
          ∧ n.field = none ∧ (n.met = true ↔ r.lr.dep.tag = false)
          ∧ (t.scopeEnt part (handleId n.scope)).queued = (s.scopeEnt part (handleId n.scope)).queued + 1)
        ∧ (status ≠ 0 → t.records = s.records ∧ (t.part part).faultSeq = (s.part part).faultSeq + 1
          ∧ ∀ m, s.queueAt part (s.queue q).lidx.toNat = some m →
            t.out = s.out ++ [.msix (part + 1) (s.queue m).msix.toNat]))
    ∧ (∀ (part q : Nat), (s.part part).tdi = .run → (s.recordDie part).isSome = true → s.hasEntry part false = true →
      s.nextQueue part = some q → s.agentRead part (s.queue q).slot 128 = .failed →
      ∃ t, exec (.queueRecordTake part) s = .next t ∧ (t.queue q).head = (s.queue q).head + 1 ∧ t.records = s.records
        ∧ (t.part part).faultSeq = (s.part part).faultSeq + 1)
    ∧ ∀ (id : Nat) (r : Record) (bs : List (BitVec 8)), Tbl.find s.records id = some r → r.met = false → r.found = false →
      r.fault = none → r.lr.dep.tag = true → r.lr.dep.space = 0 → s.agentRead r.part (r.lr.dep.base % 2 ^ 55) 8 = .ok bs →
      (bytesToNat bs < r.lr.depVal.toNat → exec (.dependenceMet id) s = .next s)
      ∧ (r.lr.depVal.toNat ≤ bytesToNat bs →
        (r.lr.argPtr = 0 → ∃ t, exec (.dependenceMet id) s = .next t ∧ t = { s with records := t.records }
          ∧ Tbl.find t.records id = some { r with found := true, met := true, args := [] })
        ∧ ∀ as, r.lr.argPtr ≠ 0 → s.agentRead r.part (lvaOf r.lr.argPtr) 64 = .ok as →
          ∃ t n, exec (.dependenceMet id) s = .next t ∧ t = { s with records := t.records }
            ∧ Tbl.find t.records id = some n ∧ n = { r with found := true, met := true, args := n.args }
            ∧ n.args.length = 8
            ∧ ∀ i, i < 8 → n.args.getD i 0 = BitVec.ofNat 64 (bytesToNat ((as.drop (8 * i)).take 8)))

/-- R75, R77, R79, R101, R122, R130: the first cohort of a record is placed on one core group, its teams on cores of their
own with scratchpad, accumulators, tag table and convergence registers clear, and every weave as at launch, one group at
CODECAP.base.

The model's choice, log 14 and 16: the cores, slots and quarters come from the event's operand, and a new team drops
early reads. -/
def Obligations.Placement : Prop :=
  ∀ (s : State) (part rid cg index : Nat) (r : Record) (picks : List Nat), (s.part part).tdi = .run →
    s.chooseRecord part = some (rid, r, cg) → (s.die (cg / 8)).ps = .ps0 → r.nextCohort = some (index, none) →
    r.field = none → r.part = part → (∀ p ∈ s.cohorts, p.2.field < s.nextId) →
    ∃ t cid c fid f, exec (.cohortPlacement part picks) s = .next t ∧ t.cohort cid = some c ∧ t.field fid = some f
      ∧ f.lr = r.lr ∧ f.part = part ∧ f.scope = r.scope ∧ f.args = r.args ∧ f.left = r.lr.cohorts ∧ f.failed = false
      ∧ c.field = fid ∧ c.index = index ∧ c.cg = cg ∧ c.st = .resident ∧ c.placedAt = s.clock ∧ c.phases = [] ∧ c.held = []
      ∧ cg < 32 ∧ (s.part part).cgmask.getLsbD cg = true
      ∧ (t.scopeEnt part (handleId r.scope)).teams = (s.scopeEnt part (handleId r.scope)).teams + r.lr.width
      ∧ t.mem = s.mem
      ∧ (∀ n, n < s.nextId → t.team n = s.team n ∧ t.weave n = s.weave n)
      ∧ ∀ j, j < r.lr.width → ∃ tid tm, t.team tid = some tm ∧ tm.cohort = cid ∧ tm.num = j ∧ tm.core / 8 = cg
        ∧ tm.spad = [] ∧ tm.stag = [] ∧ tm.acc = [] ∧ tm.cv = [] ∧ tm.deadline = 0 ∧ tm.unitcap = 0 ∧ tm.ended = false
        ∧ ∀ i, i < r.lr.weaves → ∃ wid w, t.weave wid = some w ∧ w.Launched f tid i

/-- R81, R94, R123, R130, R182, R222: a weave whose threads have all ended gives its slot back once its flags are clear; a
team ends with its last weave and request, its tag table is cleared and its scope counts one team less; the last team ends
its cohort; a field ends with its last cohort, and the reservations it left open are to be voided, for the cancellation
that its scope was under when its last weave ended, if any.

The model's choice, log 11: the order of these events. -/
def Obligations.Endings : Prop :=
  ∀ (s : State),
    (∀ (wid : Nat) (w : Weave), s.weave wid = some w →
      (w.live = 0 → (∀ n, n < 12 → w.getCf n = 0) → ∃ t, exec (.weaveSlotRelease wid) s = .next t
        ∧ t = { s with weaves := t.weaves, teams := t.teams } ∧ t.weave wid = none ∧ ∀ n, n ≠ wid → t.weave n = s.weave n)
      ∧ (w.live ≠ 0 ∨ (∃ n, n < 12 ∧ w.getCf n ≠ 0) → exec (.weaveSlotRelease wid) s = .next s))
    ∧ (∀ (tid : Nat) (e : Env), s.teamEnv tid = some e → e.t.ended = false →
      (∀ p ∈ s.weaves, p.2.team = tid → p.2.live = 0) → (∀ p ∈ s.mxReqs, p.2.team ≠ tid) →
      ∃ t tm, exec (.teamEnd tid) s = .next t ∧ t.team tid = some tm ∧ tm = { e.t with ended := true, stag := [] }
        ∧ (t.scopeEnt e.part (handleId e.f.scope)).teams = (s.scopeEnt e.part (handleId e.f.scope)).teams - 1
        ∧ ((∃ p ∈ s.teams, p.1 ≠ tid ∧ p.2.cohort = e.cid ∧ p.2.ended = false) → t.cohorts = s.cohorts)
        ∧ ((∀ p ∈ s.teams, p.1 ≠ tid → p.2.cohort = e.cid → p.2.ended = true) →
          ∃ c, t.cohort e.cid = some c ∧ c.st = .ended)
        ∧ ∀ n x, (e.t.killed = true ∨ ∃ p ∈ s.weaves, p.2.team = tid ∧ p.2.killed = true) →
          s.cancelling e.part e.f.scope = true → (s.scopeEnt e.part (handleId e.f.scope)).byOp = some n →
          Tbl.find s.cancels n = some x → ∃ x', Tbl.find t.cancels n = some x' ∧ x'.killed = x.killed + 1)
    ∧ ∀ (fid : Nat) (f : Field), s.field fid = some f → s.fieldDone f = true →
      ∃ t, exec (.fieldEnd fid) s = .next t ∧ (∀ g, t.field fid = some g → g = { f with ended := true })
        ∧ t = { s with fields := t.fields, voids := t.voids, nextId := t.nextId }
        ∧ ((∀ p ∈ s.cohorts, p.2.field ≠ fid) → t.field fid = none)
        ∧ ∀ k x, (k, x) ∈ s.ctxs → k / 2 ^ 64 = f.part → s.mayOwe f.part x.desc f.number = true →
          ∃ n v, Tbl.find t.voids n = some v ∧ v.part = f.part ∧ v.desc = x.desc ∧ v.field = f.number ∧ v.count = 0
            ∧ (∀ c, f.lastBy = some c → v.cancel = c) ∧ (v.report = true ↔ v.cancel = none)

/-! ### Pre-emption, faults and errors (chapters 4, 8, 14 and 15) -/

/-- R78, R236, R264–R269: a record that fits nowhere halts cohorts of strictly lower PRIO on one core group, with whose room
it fits and for which there is save space; their groups halt at a RUN header, in the gap between two repeats or asleep, but a
kill that is due there comes first; a cohort at rest is saved, and a saved one goes back to its record; what reaches its phase
objects meanwhile is held. A restore puts its teams on cores of the chosen core group, with everything else of them as it was
saved, ends no sleep but stalls and waits at headers, applies what was held in its order, lets each sleeper test its object
again, requeues the copies, and submits the withdrawn requests as new arrivals.

The model's choice, log 47: the region for saves, the tie between victims, halts at waits, and the halt between runs of a group whose
header cannot be read yet. -/
def Obligations.Preemption : Prop :=
  ∀ (s : State),
    (∀ part, ∃ t, exec (.preempt part) s = .next t ∧ t = { s with cohorts := t.cohorts }
      ∧ ((s.part part).tdi ≠ .run → t = s)
      ∧ (t ≠ s → ∃ (p rid cg : Nat) (r : Record) (out : List Nat), s.headRecord part p = some (rid, r)
        ∧ s.bestCg part r.lr = none ∧ s.roomWithout (fun c => s.leaving c || out.contains c) cg r.lr = true
        ∧ (∀ n, t.cohort n = if n ∈ out then (s.cohort n).map fun c => { c with st := .halting } else s.cohort n)
        ∧ ∀ n ∈ out, ∃ c f, (n, c) ∈ s.cohorts ∧ c.st = .resident ∧ c.cg = cg ∧ s.field c.field = some f ∧ f.part = part
          ∧ f.lr.prio < r.lr.prio)
      ∧ ∀ vs, (s.part part).tdi = .run → s.preemptChoice part = some vs →
        (∀ v ∈ vs, ∀ c, s.cohort v.cid = some c → t.cohort v.cid = some { c with st := .halting })
        ∧ ∀ v r c, vs = v :: r → s.cohort v.cid = some c →
          s.saveUsed (c.cg / 8) + (vs.map fun v => s.saveBytes v.cid).sum ≤ 2 ^ 30)
    ∧ (∀ (wid gid : Nat) (e : Env) (g : Group), s.env wid = some e → e.w.group gid = some g →
      let header := g.pos ≠ .inRun ∧ ∃ n a b c, s.fetch e g = .word (.run n a b) c
      let unread := g.pos ≠ .inRun ∧ (s.fetch e g = .held ∨ ∃ peer lva, s.fetch e g = .away peer lva)
      let point := g.sleep ≠ .awake ∨ header ∨ unread ∨ s.atGap e g = true
      let killed := s.killDue e = true ∧ header ∧ g.sleep = .awake
      (e.c.st ≠ .halting ∨ g.halted = true ∨ ¬ point → exec (.weaveHalt wid gid) s = .next s)
      ∧ (e.c.st = .halting → g.halted = false → point → killed →
        ∃ t, exec (.weaveHalt wid gid) s = .next t ∧ s.Ended t e g.lanes)
      ∧ (e.c.st = .halting → g.halted = false → point → ¬ killed → ∃ t, exec (.weaveHalt wid gid) s = .next t
        ∧ t = { s with weaves := t.weaves } ∧ (∀ n, n ≠ wid → t.weave n = s.weave n)
        ∧ t.weave wid = some { e.w with groups := e.w.groups.map fun q =>
            if q.gid == gid then { q with halted := true, port := false } else q }))
    ∧ (∀ (cid : Nat) (c : Cohort), s.cohort cid = some c →
      (c.st = .halting → s.quiesced cid = true → ∃ t, exec (.cohortQuiesced cid) s = .next t
        ∧ t = { s with cohorts := t.cohorts, teams := t.teams, mxReqs := t.mxReqs, batches := t.batches }
        ∧ t.cohort cid = some { c with st := .saving } ∧ (∀ n, n ≠ cid → t.cohort n = s.cohort n)
        ∧ (∀ q ∈ t.mxReqs, q.2.st = .queued → ∀ tm, s.team q.2.team = some tm → tm.cohort ≠ cid)
        ∧ (∀ n w tm, s.weave n = some w → s.team w.team = some tm → tm.cohort = cid → ∀ g ∈ w.groups, g.halted = true)
        ∧ (∀ p ∈ s.copies, p.2.cohort = cid → p.2.st = .accepted → p.2.onChip = false)
        ∧ ∀ p ∈ s.kvOps, p.2.ident.cohort ≠ cid)
      ∧ (c.st ≠ .halting ∨ s.quiesced cid = false → exec (.cohortQuiesced cid) s = .next s))
    ∧ (∀ (op : PhOp) (cid : Nat) (c : Cohort), s.cohortOf op.part op.inst = some cid → s.cohort cid = some c →
      (c.st = .saving ∨ c.st = .saved) → (∀ q d, op.kind ≠ .wait q d) →
      ∃ t, s.phApply op = t ∧ t = { s with cohorts := t.cohorts }
        ∧ t.cohort cid = some { c with held := c.held ++ [op] } ∧ ∀ n, n ≠ cid → t.cohort n = s.cohort n)
    ∧ (∀ (part rid cg index cid : Nat) (r : Record) (c : Cohort) (picks : List Nat), (s.part part).tdi = .run →
      s.chooseRecord part = some (rid, r, cg) → (s.die (cg / 8)).ps = .ps0 → r.nextCohort = some (index, some cid) →
      s.cohort cid = some c → (s.teams.map (·.1)).Nodup →
      (s.teams.filter fun e => e.2.cohort == cid).length ≤ r.lr.width →
      let mine (tid : Nat) : Prop := ∃ tm, s.team tid = some tm ∧ tm.cohort = cid
      ∃ u t, exec (.cohortPlacement part picks) s = .next t
        ∧ t = ((((c.held.foldl State.phApply u).retestPhases cid).requeueCopies cid).resubmit cid).afterPlacement rid index (some cid)
        ∧ u = { s with cohorts := u.cohorts, teams := u.teams, weaves := u.weaves, mxReqs := u.mxReqs, staging := u.staging,
                       icache := u.icache, legs := u.legs, lsOps := u.lsOps }
        ∧ (∀ n p, Tbl.find s.lsOps n = some p → ∃ p', Tbl.find u.lsOps n = some p' ∧ p' = { p with ident := p'.ident }
          ∧ (p.hole = none → p' = p))
        ∧ u.cohort cid = some { c with st := .resident, cg := cg, placedAt := s.clock, held := [] }
        ∧ (∀ n, n ≠ cid → u.cohort n = s.cohort n)
        ∧ (∀ n, ¬ mine n → u.team n = s.team n)
        ∧ (∀ n tm, s.team n = some tm → tm.cohort = cid → ∃ tm', u.team n = some tm'
          ∧ tm' = { tm with core := tm'.core, place := tm'.place } ∧ tm'.core / 8 = cg)
        ∧ (∀ n w, s.weave n = some w →
          (¬ mine w.team → u.weave n = some w)
          ∧ (mine w.team → ∃ w', u.weave n = some w' ∧ w' = { w with
              slot := w'.slot
              groups := w.groups.map fun g => { g with halted := false, sleep := (match g.sleep with
                | .header _ | .stall => .awake
                | y => y) } }))
        ∧ ∀ n q, Tbl.find s.mxReqs n = some q →
          (mine q.team → Tbl.find u.mxReqs n = some { q with cg := cg }) ∧ (¬ mine q.team → Tbl.find u.mxReqs n = some q))
    ∧ (∀ (cid wid gid i o d : Nat) (q : Bool), (wid, gid, i, o, q, d) ∈ s.phSleepers cid ↔
      ∃ w tm g, (wid, w) ∈ s.weaves ∧ s.team w.team = some tm ∧ tm.cohort = cid ∧ g ∈ w.groups ∧ g.gid = gid
        ∧ g.sleep = .phase i o q d)
    ∧ (∀ (wid gid i o d oid : Nat) (q : Bool) (e : Env) (oc : Cohort), s.env wid = some e →
      let p := oc.phase o
      (s.cohortOf e.part i = none → s.phRetest (wid, gid, i, o, q, d) = s.phWake wid gid d true 1 none)
      ∧ (s.cohortOf e.part i = some oid → s.cohort oid = some oc →
        (p.poison = true → s.phRetest (wid, gid, i, o, q, d) = s.phWake wid gid d true 1 none)
        ∧ (p.poison = false → p.parity ≠ q → s.phRetest (wid, gid, i, o, q, d) = s.phWake wid gid d true 0 (some (p, oid)))
        ∧ (p.poison = false → p.parity = q → s.phRetest (wid, gid, i, o, q, d) = s)))
    ∧ (∀ cid : Nat,
      let cs := s.copies.filter fun e => e.2.cohort == cid && e.2.st == .queued
      (∀ e ∈ s.copies, e.1 < s.nextId) → (s.copies.map (·.1)).Nodup →
      ∃ t, s.requeueCopies cid = t ∧ t = { s with copies := t.copies, nextId := s.nextId + cs.length }
        ∧ (∀ j id c, cs[j]? = some (id, c) → Tbl.find t.copies id = none
          ∧ ∃ c', Tbl.find t.copies (s.nextId + j) = some c' ∧ c' = { c with core := c'.core }
            ∧ ∀ tm, s.team c.team = some tm → c'.core = tm.core)
        ∧ ∀ n, n < s.nextId → (∀ e ∈ cs, e.1 ≠ n) → Tbl.find t.copies n = Tbl.find s.copies n)
    ∧ (∀ cid : Nat,
      let waits (q : MxReq) : Prop := q.st = .pending ∧ ∃ tm, s.team q.team = some tm ∧ tm.cohort = cid
      (s.mxReqs.map (·.1)).Nodup →
      ∃ t, s.resubmit cid = t ∧ t = { s with mxReqs := t.mxReqs, nextId := t.nextId }
        ∧ ∀ n q, (n, q) ∈ s.mxReqs →
          (¬ waits q → Tbl.find t.mxReqs n = some q)
          ∧ (waits q → ∃ q', Tbl.find t.mxReqs n = some q' ∧ q' = { q with arrival := q'.arrival }
            ∧ s.nextId ≤ q'.arrival ∧ q'.arrival < t.nextId))
    ∧ ∀ (cid : Nat) (c : Cohort) (f : Field), s.cohort cid = some c → s.field c.field = some f →
      (c.st ≠ .saving → exec (.saveComplete cid) s = .next s)
      ∧ (c.st = .saving → ∃ t, exec (.saveComplete cid) s = .next t
        ∧ t = { s with cohorts := t.cohorts, records := t.records, nextId := t.nextId }
        ∧ t.cohort cid = some { c with st := .saved } ∧ (∀ n, n ≠ cid → t.cohort n = s.cohort n)
        ∧ (f.failed = true ∨ s.cancelling f.part f.scope = true → t.records = s.records)
        ∧ (f.failed = false → s.cancelling f.part f.scope = false →
          (∀ r q, s.recordOf c.field = some r → Tbl.find s.records r = some q →
            Tbl.find t.records r = some { q with redo := q.redo ++ [(c.index, cid + 1)] })
          ∧ (s.recordOf c.field = none → ∃ q, Tbl.find t.records s.nextId = some q ∧ q.part = f.part ∧ q.lr = f.lr
            ∧ q.scope = f.scope ∧ q.args = f.args ∧ q.field = some c.field ∧ q.next = f.lr.cohorts
            ∧ q.redo = [(c.index, cid + 1)])))

/-- R14, R137–R139, R252, R388: the fault service walks the tables again, and waits where memory holds them; a fault that stays
goes to the lowest free slot of the ring with its entry, and raises VF vector 0; one that is served goes on, its group replaying
its instruction; one that fails, by the walk, by software or after 100 ms, fails its copy, or traps PAGE_FAULT at its
group's instruction. The service waits while memory holds the ring. A shootdown drops the TLB's entries of the page, and clears
bit 63 once the accesses through them have performed, with the reserved bits zero (R4); it waits while memory holds the word.

The model's choice, log 44, 45 and 56: when a fault is failed or taken up, what SHOOTGO's event is, and that the wake after
service ends no weave. -/
def Obligations.FaultService : Prop :=
  (∀ (s : State) (id : Nat) (f : Flt), Tbl.find s.faults id = some f → f.alloc = false →
    let walk (u : State) := u.walkTables f.part f.lva.toNat f.kind
    let good (u : State) : Prop := ∃ pa, walk u = .ok pa ∧ (f.kind = 1 ∨ u.eccBad pa = false)
    let free (u : State) (k : Nat) : Prop := k < 64 ∧ u.slotState f.part k = 0 ∧ ∀ j, j < k → u.slotState f.part j ≠ 0
    let calm (u : State) : Prop := (∀ x ∈ u.devWrites, x.part ≠ f.part)
      ∧ ∀ q, (u.part f.part).direct 0x1000 = some q → u.memSt q = .ready
    let waits : Prop := (∃ x ∈ s.devWrites, x.part = f.part) ∨ ∃ q, (s.part f.part).direct 0x1000 = some q ∧ s.memSt q = .held
    let stays (i : Instr) : Prop := ∃ t, exec i s = .next t ∧ t = { s with dies := t.dies }
    let posts (i : Instr) (u : State) : Prop := ∀ k pa, calm u → (u.part f.part).direct 0x1000 ≠ none → free u k →
      (u.part f.part).direct (0x1000 + 64 * k) = some pa → u.memSt pa = .ready → (∀ n, n < 64 → u.kept (pa + n) = false) →
      ∃ t, exec i s = .next t
        ∧ t = { u with faults := t.faults, mem := t.mem, tags := t.tags, rel := t.rel, dies := t.dies, out := t.out }
        ∧ Tbl.find t.faults id = some { f with st := .posted k, at_ := s.clock }
        ∧ t.out = s.out ++ [.msix (f.part + 1) 0]
        ∧ Memory.num t.mem pa 8 = f.lva.toNat ∧ Memory.num t.mem (pa + 8) 1 = f.kind % 256
        ∧ Memory.num t.mem (pa + 9) 1 = f.path.code ∧ Memory.num t.mem (pa + 10) 2 = f.src % 2 ^ 16
        ∧ Memory.num t.mem (pa + 12) 4 = f.core % 2 ^ 32 ∧ Memory.num t.mem (pa + 16) 4 = 1
        ∧ ∀ z, ¬ (pa ≤ z ∧ z < pa + 64) → Memory.get t.mem z = Memory.get u.mem z
    let gone (u : State) : State := { u with faults := Tbl.del u.faults id }
    let served (i : Instr) (u : State) : Prop :=
      (∀ w g v, f.owner = .group w g → s.weave w = some v → ∃ t, exec i s = .next t
        ∧ t = { gone u with weaves := t.weaves } ∧ (∀ n, n ≠ w → t.weave n = s.weave n)
        ∧ t.weave w = some { v with groups := v.groups.map fun q =>
            if q.gid = g ∧ q.sleep = .fault id then { q with sleep := .awake } else q })
      ∧ ∀ n c, f.owner = .copy n → Tbl.find s.copies n = some c → c.fault = some id → ∃ t, exec i s = .next t
        ∧ t = { gone u with copies := t.copies } ∧ Tbl.find t.copies n = some { c with fault := none }
        ∧ ∀ m, m ≠ n → Tbl.find t.copies m = Tbl.find s.copies m
    let fails (i : Instr) (u : State) (ecc : Bool) : Prop :=
      (∀ n c, f.owner = .copy n → Tbl.find s.copies n = some c → c.fault = some id → ∃ t, exec i s = .next t
        ∧ t = { gone u with copies := t.copies } ∧ Tbl.find t.copies n = some { c with fault := none, err := some (f.kind, ecc) }
        ∧ ∀ m, m ≠ n → Tbl.find t.copies m = Tbl.find s.copies m)
      ∧ ∀ w g e q, f.owner = .group w g → s.env w = some e → e.w.group g = some q → q.sleep = .fault id →
        q.halted = false → s.openOf w g = none →
        let awake := (gone u).updWeave w fun v => v.updGroup g fun q => { q with sleep := .awake }
        (f.kind = 0 → awake.spawnLost w g = none) →
        exec i s = .next (awake.takeTrap w g q.pc 0
          false { Trap.plain .pageFault (f.path.code + f.kind * 4 + if ecc then 16 else 0) with lane := f.lane })
    (f.st = .waiting → s.ready svcFlt = true → s.belowDone f = true →
      (walk s = .error .resolvable → posts (.faultPost id) s ∧ (waits → stays (.faultPost id)))
      ∧ (walk s = .error .resolvable → calm s → (∀ k, k < 64 → s.slotState f.part k ≠ 0) → ∃ t, exec (.faultPost id) s = .next t
        ∧ t = { s with faults := t.faults } ∧ ∀ n, Tbl.find t.faults n = Tbl.find s.faults n)
      ∧ (walk s = .error .held → exec (.faultPost id) s = .next s)
      ∧ (good s → served (.faultPost id) s)
      ∧ ∀ ecc, walk s = .error (.unresolvable ecc) → fails (.faultPost id) s ecc)
    ∧ ∀ k, f.st = .posted k →
      let u := s.setSlotState f.part k 0
      let st := s.slotState f.part k
      (waits → stays (.faultRetry id) ∧ stays (.faultFail id)
        ∧ (f.at_ + 100000 * Config.us ≤ s.clock → stays (.faultTimeout id)))
      ∧ (s.clock < f.at_ + 100000 * Config.us → exec (.faultTimeout id) s = .next s)
      ∧ (calm s →
        (st = 1 ∨ st = 2 → walk s ≠ .error .held →
          (walk u = .error .resolvable → posts (.faultRetry id) u) ∧ (good u → served (.faultRetry id) u)
          ∧ ∀ ecc, walk u = .error (.unresolvable ecc) → fails (.faultRetry id) u ecc)
        ∧ (st = 1 ∨ st = 3 → fails (.faultFail id) u false)
        ∧ (st = 1 → f.at_ + 100000 * Config.us ≤ s.clock → fails (.faultTimeout id) u false)
        ∧ (st ≠ 1 → exec (.faultTimeout id) s = .next s)))
  ∧ ∀ (s : State) (part pa : Nat) (v : W64), (s.part part).tdi = .run → (s.part part).direct 0x208 = some pa →
    let waits : Prop := (∃ x ∈ s.devWrites, x.part = part) ∨ s.memSt pa = .held
    let calm : Prop := (∀ x ∈ s.devWrites, x.part ≠ part) ∧ s.memSt pa = .ready
    (Tbl.find s.shoots part ≠ none → exec (.shootgoWrite part v) s = .next s)
    ∧ (Tbl.find s.shoots part = none → waits → ∃ t, exec (.shootgoWrite part v) s = .next t ∧ t = { s with dies := t.dies })
    ∧ (Tbl.find s.shoots part = none → calm → (∀ n, n < 8 → s.kept (pa + n) = false) → ∃ t, exec (.shootgoWrite part v) s = .next t
      ∧ t = { s with mem := t.mem, tags := t.tags, rel := t.rel, dies := t.dies, tlb := t.tlb, shoots := t.shoots }
      ∧ Memory.num t.mem pa 8 = v.toNat ∧ (∀ z, ¬ (pa ≤ z ∧ z < pa + 8) → Memory.get t.mem z = Memory.get s.mem z)
      ∧ (v.getLsbD 63 = false → t.tlb = s.tlb ∧ t.shoots = s.shoots)
      ∧ (v.getLsbD 63 = true →
        let va := t.directNum part 0x200 8 % 2 ^ 55
        let hit (e : TlbEnt) : Bool := e.hit part va (Nat.min 9 (v.extractLsb' 0 4).toNat)
        (∀ e, e ∈ t.tlb ↔ e ∈ s.tlb ∧ hit e = false)
        ∧ ∃ x, Tbl.find t.shoots part = some x ∧ x.va.toNat = va ∧ x.code = (v.extractLsb' 0 4).toNat
          ∧ x.wait = s.through part va (Nat.min 9 (v.extractLsb' 0 4).toNat) (s.tlb.filter hit)))
    ∧ ∀ x, Tbl.find s.shoots part = some x →
      (x.wait.any (s.pendingOp x) = true → exec (.shootdownDone part) s = .next s)
      ∧ (x.wait.any (s.pendingOp x) = false → waits → ∃ t, exec (.shootdownDone part) s = .next t ∧ t = { s with dies := t.dies })
      ∧ (x.wait.any (s.pendingOp x) = false → calm → ∃ t, exec (.shootdownDone part) s = .next t
        ∧ t = { s with mem := t.mem, tags := t.tags, rel := t.rel, dies := t.dies, shoots := t.shoots } ∧ Tbl.find t.shoots part = none
        ∧ Memory.num t.mem pa 8 = Memory.num s.mem pa 8 % 16
        ∧ ∀ z, ¬ (pa ≤ z ∧ z < pa + 8) → Memory.get t.mem z = Memory.get s.mem z)

/-- R14, R52, R260–R263: an uncorrectable granule can no longer be read, and its address goes to the host, as that of a
corrected error does; there is none where there is no memory. A scratchpad error ends every weave of the cohort with SCRATCH_ECC in LASTTRAP; an idempotent
field launches the cohort again, up to three times, another fails; under a cancelling scope neither happens.

The model's choice, log 46 and 54: a granule stays uncorrectable, and the stop noSuchMemory where there is no memory. -/
def Obligations.MemoryErrors : Prop :=
  (∀ (s : State) (pa : Nat),
    (s.bank pa ≠ .absent → ∃ t, exec (.uncorrectableMemoryError pa) s = .next t ∧ t = { s with bad := t.bad, out := t.out }
      ∧ t.out = s.out ++ [.retire pa] ∧ ∀ q, t.bad.contains q = (s.bad.contains q || q == pa / 64))
    ∧ (s.bank pa = .absent → exec (.uncorrectableMemoryError pa) s = .fault (.noSuchMemory pa))
    ∧ (s.bank pa ≠ .absent → s.correctable pa = { s with out := s.out ++ [.corrected pa] }))
  ∧ ∀ (s : State) (tid : Nat) (e : Env), s.teamEnv tid = some e → e.c.lost = false → e.c.st ≠ .saved → e.c.st ≠ .ended →
    ∃ t c f, exec (.scratchEcc tid) s = .next t ∧ t.cohort e.cid = some c ∧ c.lost = true ∧ t.field e.fid = some f
      ∧ (∀ n w w' tm, s.weave n = some w → s.team w.team = some tm → tm.cohort = e.cid → t.weave n = some w' →
        w'.live = 0 ∧ (w'.wstat.extractLsb' 8 8).toNat = 0x0E)
      ∧ (s.cancelling e.part e.f.scope = true → f = e.f ∧ t.records = s.records ∧ t.out = s.out
        ∧ (t.part e.part).faultSeq = (s.part e.part).faultSeq)
      ∧ (s.cancelling e.part e.f.scope = false → e.f.failed = false →
        let n := Tbl.get e.f.redone 0 e.c.index
        (e.f.lr.flags.getLsbD 0 = true → n < 3 → f = { e.f with redone := f.redone, left := e.f.left + 1 }
          ∧ Tbl.get f.redone 0 e.c.index = n + 1 ∧ ∃ r ∈ t.records, (e.c.index, 0) ∈ r.2.redo)
        ∧ (e.f.lr.flags.getLsbD 0 = false ∨ 3 ≤ n → f = { e.f with failed := true, left := f.left }
          ∧ ∀ l q, e.f.src = .queue l → s.queueAt e.part l = some q →
            ∃ pre, t.out = pre ++ [.msix (e.part + 1) (s.queue q).msix.toNat]))

/-! ### The fabric (chapter 2) -/

/-- R33, R35–R37, R46, R60: a request is performed if the target partition runs and its peer table accepts the source,
and is answered with the values its accesses found; one that needs memory that is not ready, or a page that is not there, is
held; any other is answered with an error.

R34, R35, R37, R39–R41, R47: a response frees its table entry and completes the operation with the value; an error, or 2 µs
without a response or a hold notice, completes it without a value and leaves the error for a wait or a fence; an engine's
request has its answer in the same way. A request held longer than 1 µs sends hold notices, each of which starts the 2 µs anew;
an OM request waits behind one of its core; every packet takes the next sequence number of its session, an OM packet its fixed
port, another one a port with a path, and an RT packet an intermediate module; an RT packet goes on; a session takes its next keys.

The model's choice, log 55: the accesses of one packet are performed together. Log 65: the target translates with the TLB of die 0.
Log 67: the port and the session of a reply, and that a session counts from 0 under new keys. -/
def Obligations.Requests : Prop :=
  (∀ (s : State) (p : Packet) (a : ReqAcc),
    let i : Instr := .remoteRequestArrival p
    let names (n : Nat) : Prop := n < 512 ∧ entValid (s.peerEnt p.dstPart n) = true
      ∧ entEnable (s.peerEnt p.dstPart n) = true ∧ entPhys (s.peerEnt p.dstPart n) = p.srcPhys
      ∧ entPart (s.peerEnt p.dstPart n) = p.srcPart
    let known : Prop := (s.part p.dstPart).tdi = .run ∧ ∃ n, names n
    let open_ : Prop := s.sessionOpen (s.replySession p) = true
    let kind := match a.op with
      | .read => 0
      | .fetch => 3
      | .write _ _ => 1
      | .atom _ _ _ => 2
    let walk := s.xlateLs 0 p.dstPart a.lva.toNat kind 0
    let held (t : State) : Prop := t = { s with nextId := s.nextId + 1, inbound := t.inbound }
      ∧ Tbl.find t.inbound s.nextId = some { pkt := p, fault := none, since := s.clock, noticed := false }
    let w := (s.replyWire p).1
    let gone := (s.replyWire p).2
    (¬ known → s.inbound = [] →
      exec i s = .next { gone with nextId := s.nextId + 1, out := s.out ++ [.response p .error w, .rejected p] })
    ∧ (∀ n, (s.part p.dstPart).tdi = .run → names n → (∀ m, m < n → ¬ names m) →
      s.replySession p = entSession (s.peerEnt p.dstPart n))
    ∧ (∀ k q, s.inbound = [(k, q)] → k < s.nextId → q.fault.isSome = true → q.pkt.cls = .om → p.cls = .om →
      q.pkt.srcPhys = p.srcPhys → q.pkt.ident.coreNum = p.ident.coreNum → ∃ t, exec i s = .next t ∧ held t
        ∧ Tbl.find t.inbound k = some q)
    ∧ (known → s.inbound = [] → ¬ open_ → ∃ t, exec i s = .next t ∧ held t)
    ∧ (known → s.inbound = [] → open_ → p.accs = [a] → p.flag = none →
      (∀ l e, walk = .error (.page l e) →
        exec i s = .next { gone with nextId := s.nextId + 1, out := s.out ++ [.response p .error w] })
      ∧ (∀ l k, walk = .error (.resolvable l k) → ∃ t n f, exec i s = .next t
        ∧ t = { s with nextId := t.nextId, inbound := t.inbound, faults := t.faults }
        ∧ Tbl.find t.inbound s.nextId = some { pkt := p, fault := some n, since := s.clock, noticed := false }
        ∧ Tbl.find t.faults n = some f ∧ f.path = p.path ∧ f.part = p.dstPart ∧ f.kind = kind ∧ f.owner = .inbound s.nextId ∧ f.st = .waiting)
      ∧ (walk = .error .held → ∃ t, exec i s = .next t ∧ held t)
      ∧ ∀ pa, walk = .ok pa →
        (s.memSt pa = .held → ∃ t, exec i s = .next t ∧ held t)
        ∧ (s.memSt pa = .ready → ∃ t v mm, exec i s = .next t
          ∧ t = { gone with
              nextId := s.nextId + 1, mem := t.mem, tags := t.tags, rel := t.rel, tlb := t.tlb, dies := t.dies, out := t.out }
          ∧ t.out = s.out ++ [.response p (.values [v] mm) w] ∧ (p.acq = false → mm = false)
          ∧ (a.op = .read ∨ a.op = .fetch → t.mem = s.mem ∧ v.1 = BitVec.ofNat 128 (Memory.num s.mem pa a.size))
          ∧ (∀ d tag, a.op = .write d tag → a.size ≤ 16 → (∀ n, n < a.size → s.plainByte (pa + n)) →
            (∀ n, n < a.size → Memory.get t.mem (pa + n) = d.extractLsb' (8 * n) 8)
            ∧ ∀ z, ¬ (pa ≤ z ∧ z < pa + a.size) → Memory.get t.mem z = Memory.get s.mem z)
          ∧ ∀ o c y, a.op = .atom o c y → (a.size = 4 ∨ a.size = 8) → (∀ n, n < a.size → s.plainByte (pa + n)) →
            let old : BitVec (8 * a.size) := BitVec.ofNat _ (Memory.num s.mem pa a.size)
            let new := atomTable o old (c.setWidth (8 * a.size)) (y.setWidth (8 * a.size))
            v.1 = old.setWidth 128 ∧ Memory.num t.mem pa a.size = (new.getD old).toNat
              ∧ ∀ z, ¬ (pa ≤ z ∧ z < pa + a.size) → Memory.get t.mem z = Memory.get s.mem z)))
  ∧ ((∀ (s : State) (id : Nat) (o : Ott) (p : LsOp) (a : Acc) (w : Weave), Tbl.find s.ott id = some o → o.sent = true →
    Tbl.find s.lsOps o.op = some p → p.accs = [a] → o.accs = [0] → p.hole = none → p.ecc = false → p.err = none →
    (∀ x ∈ s.ott, x.2.op = o.op → x.1 = id) → s.weave p.weave = some w →
    let lost (i : Instr) : Prop := ∃ t w', exec i s = .next t ∧ Tbl.find t.ott id = none ∧ Tbl.find t.lsOps o.op = none
      ∧ t = { s with ott := t.ott, lsOps := t.lsOps, weaves := t.weaves, cancels := t.cancels }
      ∧ t.weave p.weave = some w' ∧ w' = { w with cf := w'.cf, marks := w'.marks, errs := w'.errs }
      ∧ w'.errs = w.errs ++ [.remote (decide (p.kind ≠ .ld ∧ p.kind ≠ .atom)) p.flag o.peer p.cls]
      ∧ w'.marks = w.marks.filter (fun m => m.op != o.op)
      ∧ ∀ n, w'.getCf n = w.getCf n - if p.flag = some n then 1 else 0
    let late : Prop := o.heard + 2 * Config.us ≤ s.clock
    (∀ vs mm, ¬ late → p.sem ≠ .acq → p.sem ≠ .acqrel → ∃ t w', exec (.remoteResponseArrival id (.values vs mm)) s = .next t
      ∧ Tbl.find t.ott id = none ∧ s.Completed t o.op p w w' ∧ w'.wstat = w.wstat ∧ t.mem = s.mem
      ∧ (p.dest = .none → w'.v = w.v ∧ w'.s = w.s ∧ w'.k = w.k)
      ∧ (∀ r, p.dest = .v r false → r ≠ 255 → a.lane < 32 → w.live.has a.lane = true →
        w'.getV r a.lane = BitVec.ofNat 32 ((vs.getD 0 (0, false)).1.toNat % 256 ^ a.size))
      ∧ ∀ r, p.dest = .s r → w.live ≠ 0 → p.lanes &&& ~~~w.dead ≠ 0 →
        w'.getS r = BitVec.ofNat 64 ((vs.getD 0 (0, false)).1.toNat % 256 ^ a.size))
    ∧ lost (.remoteResponseArrival id .error)
    ∧ (late → lost (.remoteRequestTimeout id) ∧ lost (.holdNoticeArrival id)
      ∧ ∀ vs mm, lost (.remoteResponseArrival id (.values vs mm)))
    ∧ (¬ late → exec (.remoteRequestTimeout id) s = .next s
      ∧ ∃ t, exec (.holdNoticeArrival id) s = .next t ∧ t = { s with ott := t.ott }
        ∧ Tbl.find t.ott id = some { o with heard := s.clock } ∧ ∀ n, n ≠ id → Tbl.find t.ott n = Tbl.find s.ott n))
  ∧ (∀ (s : State) (id : Nat) (l : Leg), Tbl.find s.ott id = none → Tbl.find s.legs id = some l → l.answer = none →
    let late : Prop := l.heard + 2 * Config.us ≤ s.clock
    let has (i : Instr) (l' : Leg) : Prop := ∃ t, exec i s = .next t ∧ t = { s with legs := t.legs }
      ∧ Tbl.find t.legs id = some l' ∧ ∀ n, n ≠ id → Tbl.find t.legs n = Tbl.find s.legs n
    (¬ late → has (.holdNoticeArrival id) { l with heard := s.clock } ∧ exec (.remoteRequestTimeout id) s = .next s)
    ∧ (l.owner = .nobody → ∀ r, exec (.remoteResponseArrival id r) s = .next { s with legs := Tbl.del s.legs id })
    ∧ ((∀ c, l.owner ≠ .code c) → l.owner ≠ .nobody → ∀ r, ¬ late → has (.remoteResponseArrival id r) { l with answer := some r })
    ∧ ((∀ c, l.owner ≠ .code c) → l.owner ≠ .nobody → late → has (.remoteRequestTimeout id) { l with answer := some .error }
      ∧ has (.holdNoticeArrival id) { l with answer := some .error }
      ∧ ∀ r, has (.remoteResponseArrival id r) { l with answer := some .error }))
  ∧ ∀ (s : State),
    (∀ req q, Tbl.find s.inbound req = some q →
      let due : Prop := q.noticed = true ∨ q.since + Config.us < s.clock
      let may : Prop := s.sessionOpen (s.replySession q.pkt) = true
      (due → may → ∃ t, exec (.holdNoticeSend req) s = .next t
        ∧ t = { (s.replyWire q.pkt).2 with inbound := t.inbound, out := s.out ++ [.holdNotice req (s.replyWire q.pkt).1] }
        ∧ Tbl.find t.inbound req = some { q with noticed := true })
      ∧ (¬ due ∨ ¬ may → exec (.holdNoticeSend req) s = .next s))
    ∧ (∀ part core phys n cls x, Tbl.find s.hd.linkSessions n = some x →
      ∃ (w : Wire) (t : State), s.takeWireTo part core phys n cls = (w, t)
        ∧ t = { s with hd := { s.hd with linkSessions := t.hd.linkSessions }, rtSeq := t.rtSeq, freeIdx := t.freeIdx }
        ∧ w.session = n ∧ w.gen = x.gen ∧ w.dir = x.dir ∧ w.seq = x.seq
        ∧ (cls = .om → w.port = core / 64 * 8 + (core % 64 + phys) % 8 ∧ w.via = none)
        ∧ (cls = .ad ∨ (cls = .rt ∧ s.hops part (core / 64) phys = []) → w.via = none
          ∧ (s.portsUp (core / 64) phys ≠ [] → w.port ∈ s.portsUp (core / 64) phys))
        ∧ (cls = .rt → s.hops part (core / 64) phys ≠ [] → ∃ m ∈ s.hops part (core / 64) phys, w.via = some m
          ∧ w.port ∈ s.portsUp (core / 64) m)
        ∧ Tbl.find t.hd.linkSessions n = some { x with seq := x.seq + 1 }
        ∧ ∀ m, m ≠ n → Tbl.find t.hd.linkSessions m = Tbl.find s.hd.linkSessions m)
    ∧ (∀ part core (peer : BitVec 9) cls, let e := s.peerEnt part peer.toNat
      s.takeWire part core peer cls = s.takeWireTo part core (entPhys e) (entSession e) cls)
    ∧ (∀ p : Packet, s.replyWire p
      = s.takeWireTo p.dstPart (p.ident.coreNum % 64) p.srcPhys (s.replySession p) p.cls)
    ∧ (∀ p : Packet, p.cls = .rt → exec (.rtForward p) s = .next { s with out := s.out ++ [.forwarded p] })
    ∧ ∀ n x, Tbl.find s.hd.linkSessions n = some x → ∃ t, exec (.keyUpdate n) s = .next t
      ∧ t = { s with hd := { s.hd with linkSessions := t.hd.linkSessions }, out := s.out ++ [.keyUpdate n] }
      ∧ Tbl.find t.hd.linkSessions n = some { x with gen := x.gen + 1, seq := 0 }
      ∧ ∀ m, m ≠ n → Tbl.find t.hd.linkSessions m = Tbl.find s.hd.linkSessions m)

/-! ### The host endpoint (chapter 3) -/

/-- R14, R19, R58, R62, R64–R66: an aperture access is performed in RUN, aborted in ERROR and dropped else; one that waits for
memory is held, and released when the memory is ready; a fault that cannot be resolved, and memory that has failed, abort it with
an entry. A doorbell takes effect at once, or behind a held write of its function. In recovery mode there is no VF. A device
behind a root port reaches only what the IOMMU maps, and no partition's memory.

The model's choice, log 43 and 66: the cases that they list. -/
def Obligations.HostAccesses : Prop :=
  (∀ (s : State) (vf : Nat) (off : BitVec 32) (write : Bool) (len : Nat) (data : List (BitVec 8)),
    let i : Instr := .apertureAccess vf off write len data
    let p := vf - 1
    let n := if write then data.length else len
    let a := (s.part p).apbase.toNat + off.toNat
    let kind := if write then 1 else 0
    let walk : Except XErr Nat := s.xlate 0 p a kind
    let aborts (i : Instr) : Prop := ∃ t, exec i s = .next t
      ∧ t.out = s.out ++ [.completerAbort p] ∧ t.apOps = [] ∧ (t.part p).faultSeq = (s.part p).faultSeq + 1
    (s.hd.recovery = true ∨ vf = 0 ∨ 16 < vf → exec i s = .next s)
    ∧ (s.hd.recovery = false → 1 ≤ vf → vf ≤ 16 →
      ((s.part p).tdi = .unlocked ∨ (s.part p).tdi = .locked → exec i s = .next s)
      ∧ ((s.part p).tdi = .error → exec i s = .next { s with out := s.out ++ [.completerAbort p] })
      ∧ ((s.part p).tdi = .run → s.apOps = [] → 0 < n → off.toNat + n ≤ 2 ^ 32 → a < 2 ^ 55 → a / 64 = (a + n - 1) / 64 →
        (∀ pa, walk = .ok pa →
          (s.memSt pa = .ready → s.eccBad pa = false → write = false → ∃ t, exec i s = .next t
            ∧ t = { s with nextId := s.nextId + 1, dies := t.dies, out := s.out ++ [.apData p (Memory.reads s.mem pa n)] })
          ∧ (s.memSt pa = .ready → write = true → (∀ k, k < n → s.plainByte (pa + k)) → ∃ t, exec i s = .next t
            ∧ t = { s with
                nextId := s.nextId + 1, mem := t.mem, tags := t.tags, rel := t.rel, dies := t.dies, out := s.out ++ [.apDone p] }
            ∧ (∀ k, k < n → Memory.get t.mem (pa + k) = data.getD k 0)
            ∧ ∀ z, ¬ (pa ≤ z ∧ z < pa + n) → Memory.get t.mem z = Memory.get s.mem z)
          ∧ (s.memSt pa = .held → (write = false → s.eccBad pa = false) → ∃ t o, exec i s = .next t
            ∧ t = { s with nextId := s.nextId + 1, apOps := t.apOps } ∧ Tbl.find t.apOps s.nextId = some o
            ∧ o.part = p ∧ o.lva.toNat = a ∧ o.write = write ∧ o.bell = none ∧ o.fault = none)
          ∧ (s.memSt pa = .failed → aborts i))
        ∧ (∀ e, walk = .error (.unresolvable e) → aborts i)
        ∧ (walk = .error .resolvable → ∃ t o f x, exec i s = .next t
          ∧ Tbl.find t.apOps s.nextId = some o ∧ o.fault = some f ∧ Tbl.find t.faults f = some x ∧ x.part = p
          ∧ x.lva.toNat = a ∧ x.owner = .aperture s.nextId ∧ t.mem = s.mem ∧ t.out = s.out))))
  ∧ (∀ (s : State) (id : Nat) (o : ApOp), s.apOps = [(id, o)] → Tbl.find s.lsOps id = none → Tbl.find s.inbound id = none →
    let i : Instr := .heldAccessRelease id
    (o.fault.isSome = true → exec i s = .next s)
    ∧ (o.fault = none → ∀ index tail, o.bell = some (index, tail) →
      ∃ t, exec i s = .next t ∧ State.Rung { s with apOps := [] } t o.part index tail)
    ∧ (o.fault = none → o.bell = none → o.write = false → 0 < o.len → o.lva.toNat / 64 = (o.lva.toNat + o.len - 1) / 64 →
      ∀ pa, s.xlate 0 o.part o.lva.toNat 0 = .ok pa → s.eccBad pa = false →
      (s.memSt pa = .held → exec i s = .next s)
      ∧ (s.memSt pa = .ready → ∃ t, exec i s = .next t
        ∧ t = { s with apOps := [], dies := t.dies, out := s.out ++ [.apData o.part (Memory.reads s.mem pa o.len)] })))
  ∧ (∀ (s : State) (vf index : Nat) (tail : W32), 1 ≤ vf → vf ≤ 16 →
    let p := vf - 1
    let i : Instr := .doorbell vf index tail
    (s.hd.recovery = true → exec i s = .next s)
    ∧ (s.hd.recovery = false → s.apOps = [] →
      ∃ t, exec i s = .next t ∧ State.Rung { s with nextId := s.nextId + 1 } t p index tail)
    ∧ (s.hd.recovery = false → ∀ k o, s.apOps = [(k, o)] → k < s.nextId → o.part = p → o.write = true →
      ∃ t b, exec i s = .next t ∧ t = { s with nextId := s.nextId + 1, apOps := t.apOps } ∧ Tbl.find t.apOps k = some o
        ∧ Tbl.find t.apOps s.nextId = some b ∧ b.part = p ∧ b.bell = some (index, tail) ∧ b.fault = none))
  ∧ ∀ (s : State) (port addr : Nat) (write : Bool) (len : Nat) (data : List (BitVec 8)), port < 4 → s.ready (rprdy port) = true →
    let n := if write then data.length else len
    0 < n → addr / 64 = (addr + n - 1) / 64 →
    (∀ a, Tbl.find s.hd.iommu (addr / 4096) = some a → ∃ e ∈ s.parts, e.2.holds ((a + addr % 4096) / 64 * 64) 64 = true) →
    s.rpAccess port addr write len data = { s with out := s.out ++ [.rpRefused port] }

/-- R50, R51, R63: a write of a partition's configuration takes effect in CONFIG_UNLOCKED, while no lock is in progress; in
CONFIG_LOCKED and RUN it puts the partition in ERROR instead. A queue's registers belong to the partitions that own the queue
before and after the write; the read-only and reserved words take no value.

The model's choice, log 50: reserved bits. Log 48: the work of a partition that enters ERROR is dropped in the same step. -/
def Obligations.Configuration : Prop :=
  (∀ (s : State) (p r : Nat) (v : W64), p < 16 → r < 0x2000 → r % 8 = 0 →
    let i : Instr := .partitionConfigWrite (0x10000 + 0x2000 * p + r) v
    let x := s.part p
    let here := r = 0 ∨ r = 8 ∨ (0x100 ≤ r ∧ r < 0x200) ∨ 0x1000 ≤ r
    (¬ here → exec i s = .next s)
    ∧ (here → x.tdi = .unlocked → x.locking = false → ∃ t y, exec i s = .next t ∧ t = { s with parts := t.parts }
      ∧ t.part p = y ∧ (∀ q, q ≠ p → t.part q = s.part q)
      ∧ y = { x with cgmask := y.cgmask, msixn := y.msixn, win := y.win, peers := y.peers }
      ∧ y.cgmask = (if r = 0 then v.setWidth 32 else x.cgmask) ∧ y.msixn = (if r = 8 then v.setWidth 7 else x.msixn)
      ∧ (∀ n, Tbl.get y.win 0 n = if r = 0x100 + 8 * n ∧ n < 32 then v else Tbl.get x.win 0 n)
      ∧ ∀ n, Tbl.get y.peers 0 n = if r = 0x1000 + 8 * n then v else Tbl.get x.peers 0 n)
    ∧ (here → x.tdi = .locked ∨ x.tdi = .run → ∃ t, exec i s = .next t ∧ s.Errs t p)
    ∧ (here → x.tdi = .error ∨ x.locking = true ∧ x.tdi = .unlocked → exec i s = .next s))
  ∧ (∀ (s : State) (q word : Nat) (v : W64), 4096 ≤ q ∨ 4 ≤ word → exec (.qcfgWrite q word v) s = .next s)
  ∧ ∀ (s : State) (q word : Nat) (v : W64), q < 4096 → word < 4 →
    let x := s.queue q
    let en := if word = 0 then v.getLsbD 63 else x.en
    let part : BitVec 4 := if word = 0 then v.extractLsb' 28 4 else x.part
    let open_ (n : Nat) : Prop := (s.part n).tdi = .unlocked ∧ (s.part n).locking = false
    ((x.en = true → open_ x.part.toNat) → (en = true → open_ part.toNat) → ∃ t y, exec (.qcfgWrite q word v) s = .next t
      ∧ t = { s with queues := t.queues } ∧ t.queue q = y ∧ (∀ n, n ≠ q → t.queue n = s.queue n)
      ∧ y.en = en ∧ y.part = part
      ∧ (word = 0 → y.log2n = v.setWidth 5 ∧ y.lidx = v.extractLsb' 16 12 ∧ y.msix = v.extractLsb' 32 8 ∧ y.ring = x.ring
        ∧ (x.en = false → en = true → y.head = 0 ∧ y.tail = 0 ∧ y.qerr = 0)
        ∧ (x.en = true ∨ en = false → y.head = x.head ∧ y.tail = x.tail ∧ y.qerr = x.qerr))
      ∧ (word = 1 → y = { x with ring := y.ring } ∧ y.ring = v &&& 0x007FFFFFFFFFFF80) ∧ (2 ≤ word → y = x))
    ∧ ∀ n, (x.en = true ∧ x.part.toNat = n ∧ (en = true → part.toNat = n) ∨ x.en = false ∧ en = true ∧ part.toNat = n) →
      (s.part n).tdi = .locked ∨ (s.part n).tdi = .run → ∃ t, exec (.qcfgWrite q word v) s = .next t ∧ s.Errs t n

/-- R14, R19, R54, R55, R57–R60, R85, R130: over a secured session a lock makes a new key when the checks pass, and is complete
once the partition's memory, none of it held, is zero under that key, where its checks against the other partitions still pass; START makes the root scope live and the counters 1; STOP ends the run, and from any state
leaves CONFIG_UNLOCKED. In a state that does not take it a request is answered and has no effect.

The model's choice, log 49: the numbers of the answers, the layout of a report, and that the checks are made again at the end of the
scrub. Log 48: STOP drops the work in the same step. Log 52: no START while an image is verified. Log 10: the digest SHA-384. -/
def Obligations.Interfaces : Prop :=
  ∀ (s : State) (p : Nat), p < 16 →
    let x := s.part p
    let answers (i : Instr) (c : Nat) : Prop := exec i s = .next { s with out := s.out ++ [.tdisp p c] }
    (s.secured = false → exec (.lockInterfaceRequest p) s = .next s ∧ exec (.startInterfaceRequest p) s = .next s
      ∧ exec (.stopInterfaceRequest p) s = .next s ∧ exec (.getDeviceInterfaceReport p) s = .next s)
    ∧ (s.secured = true →
      (x.tdi ≠ .unlocked ∨ x.locking = true → answers (.lockInterfaceRequest p) 8)
      ∧ (x.tdi = .unlocked → x.locking = false →
        (x.cgmask = 0 → answers (.lockInterfaceRequest p) 1)
        ∧ (s.lockCheck p ≠ 0 → answers (.lockInterfaceRequest p) (s.lockCheck p))
        ∧ (s.lockCheck p = 0 →
          x.cgmask ≠ 0 ∧ x.cgmask &&& s.hd.cgOffline = 0 ∧ 1 ≤ x.msixn.toNat ∧ x.msixn.toNat ≤ 64
          ∧ p + 1 ∈ s.hd.ide ∧ (∀ q, q ≠ p → (s.part q).tdi ≠ .unlocked → x.cgmask &&& (s.part q).cgmask = 0)
          ∧ (∀ w ∈ x.gibs, 1 ≤ w.2 ∧ ∀ q, q ≠ p → (s.part q).tdi ≠ .unlocked → ∀ y ∈ (s.part q).gibs, gibOverlap w y = false)
          ∧ ∃ t, exec (.lockInterfaceRequest p) s = .next t ∧ t = { s with nextId := s.nextId + 1, parts := t.parts }
            ∧ t.part p = { x with locking := true, key := some (s.nextId + 1) } ∧ ∀ q, q ≠ p → t.part q = s.part q))
      ∧ (x.tdi ≠ .locked ∨ s.hd.recoveryStatus = 1 → answers (.startInterfaceRequest p) 8)
      ∧ (x.tdi = .locked → s.hd.recoveryStatus ≠ 1 → ∃ t, exec (.startInterfaceRequest p) s = .next t
        ∧ t = { s with parts := t.parts, out := s.out ++ [.tdisp p 0] } ∧ (∀ q, q ≠ p → t.part q = s.part q)
        ∧ t.part p = { x with tdi := .run, instCtr := 1, fieldCtr := 1, faultSeq := 0, turn := 0, scopes := (t.part p).scopes }
        ∧ (t.scopeEnt p 0).st = 1 ∧ (t.scopeEnt p 0).depth = 1 ∧ ∀ n, n ≠ 0 → (t.scopeEnt p n).st = 0)
      ∧ (∃ t, exec (.stopInterfaceRequest p) s = .next t ∧ (t.part p).tdi = .unlocked ∧ (t.part p).locking = false
        ∧ (t.part p).key = none ∧ (t.part p).scopes = [] ∧ (∀ q, q ≠ p → t.part q = s.part q) ∧ (x.tdi = .run → s.Torn t p)
        ∧ (∃ pre, t.out = pre ++ [.tdisp p 0])
        ∧ ∀ q, (s.queue q).en = true → (s.queue q).part.toNat = p →
          t.queue q = { s.queue q with head := 0, tail := 0, qerr := 0, fault := none })
      ∧ ∃ bs, exec (.getDeviceInterfaceReport p) s = .next { s with out := s.out ++ [.report p bs] }
        ∧ bs.take 3 = [p, s.ownPeer p, x.cgmask.toNat] ∧ (sha384 x.peerBytes) <:+ bs)
    ∧ (x.locking = false → exec (.lockScrubDone p) s = .next s)
    ∧ (x.locking = true → ∀ w ∈ x.windows, s.rangeHeld w.1 w.2 = true → exec (.lockScrubDone p) s = .next s)
    ∧ (let rival (e : Nat × Partition) : Prop := e.1 ≠ p ∧ e.2.tdi ≠ .unlocked
      let cgs (e : Nat × Partition) : Prop := x.cgmask &&& e.2.cgmask ≠ 0
      let wins (e : Nat × Partition) : Prop := ∃ w ∈ x.gibs, ∃ y ∈ e.2.gibs, gibOverlap w y = true
      x.locking = true → (∀ w ∈ x.windows, s.rangeHeld w.1 w.2 = false) →
      (∀ c, (c = 2 ∧ ∃ e ∈ s.parts, rival e ∧ cgs e)
          ∨ (c = 3 ∧ (∀ e ∈ s.parts, rival e → ¬ cgs e) ∧ ∃ e ∈ s.parts, rival e ∧ wins e) →
        ∃ t, exec (.lockScrubDone p) s = .next t ∧ t = { s with parts := t.parts, out := s.out ++ [.tdisp p c] }
          ∧ t.part p = { x with locking := false, key := none } ∧ ∀ q, q ≠ p → t.part q = s.part q)
      ∧ ((∀ e ∈ s.parts, rival e → ¬ cgs e ∧ ¬ wins e) → ∃ t, exec (.lockScrubDone p) s = .next t
      ∧ t = { s with parts := t.parts, mem := t.mem, tags := t.tags, rel := t.rel, staging := t.staging, tlb := t.tlb,
                     icache := t.icache, keyed := t.keyed, out := s.out ++ [.tdisp p 0] }
      ∧ (∀ e, e ∈ t.tlb ↔ e ∈ s.tlb ∧ e.part ≠ p)
      ∧ t.part p = { x with tdi := .locked, locking := false, faultSeq := 0 } ∧ (∀ q, q ≠ p → t.part q = s.part q)
      ∧ (∀ a, Memory.get t.mem a = if x.holds a 1 then 0 else Memory.get s.mem a)
      ∧ (∀ a, t.keyOf (a / 64) = if x.holds a 1 then x.key.getD 0 else s.keyOf (a / 64))
      ∧ ∀ u, t.tags.contains u = (s.tags.contains u && !x.holds (u * 16) 1)))
    ∧ (s.ready svcSpdm = true → (∀ up, exec (.securedSession up) s = .next { s with hd := { s.hd with session := up } })
      ∧ (s.hd.session = true → ∀ n, n ≤ 16 → (s.hd.recovery = true → n = 0) → ∃ t, exec (.ideKm n) s = .next t
        ∧ t = { s with hd := { s.hd with ide := t.hd.ide } } ∧ ∀ m, m ∈ t.hd.ide ↔ m = n ∨ m ∈ s.hd.ide)
      ∧ exec (.getMeasurements 1) s = .next { s with
          out := s.out ++ [.measurement 1 (sha384 (s.hd.flash.map (·.toNat)))] }
      ∧ exec (.getMeasurements 3) s = .next { s with
          out := s.out ++ [.measurement 3 [s.physNum, s.hd.readyFail.toNat, s.hd.cgOffline.toNat]] })

/-- R27, R46, R48, R60, R61, R99: a failure of its IDE stream, of an authentication tag of its session, of a CXL port under
one of its windows, or a thermal shutdown puts a partition that is locked or runs in ERROR: its work is discarded, its
key, scopes and sessions are gone; its core groups are free when nothing is under way, or after 10 ms.

The model's choice, log 48 and 51: work is dropped in the step of the transition, and a partition in CONFIG_UNLOCKED
stays there. -/
def Obligations.LinkFailures : Prop :=
  ∀ (s : State) (p : Nat), p < 16 →
    let x := s.part p
    let runs := x.tdi = .locked ∨ x.tdi = .run
    (runs → ∃ t, exec (.ideIntegrityFailure (p + 1)) s = .next t ∧ s.Errs t p)
    ∧ (¬ runs → exec (.ideIntegrityFailure (p + 1)) s = .next s)
    ∧ (∀ port, port < 32 → ∃ t, exec (.authTagFailure port p) s = .next t ∧ t.ready (32 + port) = false
      ∧ (∃ pre, t.out = pre ++ [.authFailure p]) ∧ (runs → s.Errs t p) ∧ (¬ runs → t.parts = s.parts))
    ∧ (∀ port, port < 8 → ∃ t, exec (.cxlIdeFailure port) s = .next t ∧ t.ready (24 + port) = false
      ∧ (runs → (∃ w ∈ x.gibs, ∃ k, k < w.2 ∧ s.bank ((w.1 + k) * 2 ^ 30) = .cxl port) →
        (t.part p).tdi = .error ∧ (t.part p).key = none ∧ (t.part p).scopes = [] ∧ ∀ f ∈ t.fields, f.2.part ≠ p)
      ∧ ((∀ e ∈ s.parts, e.1 = p → ∀ w ∈ e.2.gibs, ∀ k, k < w.2 → s.bank ((w.1 + k) * 2 ^ 30) ≠ .cxl port) → t.part p = x))
    ∧ (∀ die, die < 4 → ∃ t, exec (.thermalShutdown die) s = .next t ∧ t.hd.fatal = true ∧ Out.fatal ∈ t.out
      ∧ (runs → (t.part p).tdi = .error ∧ (t.part p).key = none ∧ (t.part p).scopes = [] ∧ ∀ f ∈ t.fields, f.2.part ≠ p)
      ∧ (¬ runs → t.part p = x))
    ∧ (x.held ≠ 0 →
      (s.underWay p = [] ∧ s.legsAway p = false ∨ x.heldAt + 10000 * Config.us ≤ s.clock → ∃ t, exec (.coreGroupsFreed p) s = .next t
        ∧ t = { s with parts := t.parts, ott := t.ott, lsOps := t.lsOps, legs := t.legs }
        ∧ (∀ e, e ∈ t.legs ↔ e ∈ s.legs ∧ e.2.pkt.srcPart ≠ p) ∧ t.part p = { x with held := 0 }
        ∧ (∀ q, q ≠ p → t.part q = s.part q) ∧ (∀ n, n ∉ s.underWay p → Tbl.find t.lsOps n = Tbl.find s.lsOps n))
      ∧ (s.underWay p ≠ [] ∨ s.legsAway p = true → s.clock < x.heldAt + 10000 * Config.us → exec (.coreGroupsFreed p) s = .next s))

/-! ### The host die (chapter 1) -/

/-- R10–R19: MODULE_RESET leaves the host die, the partitions and the queues as at reset, while CLOCK runs on; a function
becomes ready within the limit of Table 3 or reports failure at it; links come up and down; CGOFFLINE is sticky; a recovery
image is verified, and a good one resets the module. Changes of the READY registers raise PF0 vector 0.

The model's choice, log 52: CLOCK runs on, the flash and RECOVERY_STATUS 3 stay. -/
def Obligations.BringUp : Prop :=
  ∀ (s : State),
    let ms (n : Nat) : Nat := n * 1000 * Config.us
    let limit (b : Nat) : Option Nat :=
      if b < 4 then some (ms 200) else if b < 8 then none else if b < 12 then some (ms 1500)
      else if b < 16 then some (ms 900) else if b < 20 then none else if b < 24 then some (ms 1000)
      else if b < 32 then some (ms 2500) else if b < 64 then some (ms 3000) else none
    (∀ good, ∃ t, exec (.moduleReset good) s = .next t ∧ t.clock = s.clock ∧ t.hd.readyStatus = 0 ∧ t.hd.readyFail = 0
      ∧ t.hd.cgOffline = 0 ∧ t.hd.recovery = !good ∧ t.hd.deviceKey = s.nextId + 1 ∧ t.hd.resetAt = s.clock
      ∧ (∀ p, (t.part p).tdi = .unlocked ∧ (t.part p).key = none ∧ (t.part p).ltol = 0) ∧ (∀ q, (t.queue q).en = false)
      ∧ t.weaves = [] ∧ t.records = [] ∧ t.hd.flash = s.hd.flash)
    ∧ (∀ bit l, limit bit = some l → s.failedBit bit = false →
      (s.clock ≤ s.hd.resetAt + l → (s.hd.recovery = true → bit < 12 ∨ 16 ≤ bit) → s.ready bit = false →
        ∃ t, exec (.functionReady bit) s = .next t
        ∧ t = { s with hd := { s.hd with readyStatus := t.hd.readyStatus, reported := t.hd.reported }, out := s.out ++ [.msix 0 0] }
        ∧ ∀ b, b < 64 → t.ready b = (s.ready b || b == bit) ∧ t.reported b = (s.reported b || b == bit))
      ∧ (s.hd.resetAt + l < s.clock → exec (.functionReady bit) s = .next s)
      ∧ (s.hd.resetAt + l ≤ s.clock → s.reported bit = false → exec (.readyLimitExpiry bit) s = .next (s.functionFails bit))
      ∧ (s.reported bit = false → s.apOps = [] → s.inbound = [] → let t := s.functionFails bit
        t = { s with hd := { s.hd with readyFail := t.hd.readyFail }, out := s.out ++ [.msix 0 0] }
        ∧ ∀ b, b < 64 → t.failedBit b = (s.failedBit b || b == bit))
      ∧ (s.clock < s.hd.resetAt + l ∨ s.reported bit = true → exec (.readyLimitExpiry bit) s = .next s))
    ∧ (∀ bit up, s.reported bit = false → exec (.linkStateChange bit up) s = .next s)
    ∧ (∀ bit up, 24 ≤ bit → bit < 64 → s.reported bit = true →
      (s.ready bit = up → exec (.linkStateChange bit up) s = .next s)
      ∧ (s.ready bit ≠ up → ∃ t, exec (.linkStateChange bit up) s = .next t
        ∧ t = { s with hd := { s.hd with readyStatus := t.hd.readyStatus }, out := s.out ++ [.msix 0 0] } ∧ t.reported bit = true
        ∧ ∀ b, b < 64 → t.ready b = if b = bit then up else s.ready b))
    ∧ (∀ v, ∃ t, exec (.cgofflineWrite v) s = .next t ∧ t = { s with hd := { s.hd with cgOffline := t.hd.cgOffline } }
      ∧ ∀ b, b < 32 → t.hd.cgOffline.getLsbD b = (s.hd.cgOffline.getLsbD b || v.getLsbD b))
    ∧ (∀ v, v.getLsbD 0 = true → s.hd.recoveryStatus ≠ 1 →
      ((∃ e ∈ s.parts, e.2.tdi = .run) → exec (.recoveryGo v) s = .next s)
      ∧ ((∀ e ∈ s.parts, e.2.tdi ≠ .run) → ∃ t, exec (.recoveryGo v) s = .next t ∧ t.hd.recoveryStatus = 1
        ∧ t = { s with hd := { s.hd with recoveryStatus := 1, flash := t.hd.flash }, out := s.out ++ [.msix 0 0] }))
    ∧ (s.hd.recoveryStatus = 1 →
      (∃ t, exec (.recoveryVerifyDone true) s = .next t ∧ t.hd.flash = s.hd.mailbox ∧ t.hd.recoveryStatus = 3
        ∧ t.hd.recovery = false ∧ t.hd.readyStatus = 0 ∧ t.clock = s.clock ∧ t.weaves = [])
      ∧ exec (.recoveryVerifyDone false) s = .next { s with
          hd := { s.hd with recoveryStatus := 2, recovery := true }, out := s.out ++ [.msix 0 0] })

/-- R20–R24: a die's effective tolerance is the least LTOL of the partitions that use it; an idle die enters the deepest
state that it allows, a die that is needed
or whose memory is accessed wakes within that state's exit latency, and a write of LTOL moves a die whose state is too deep.

The model's choice, log 51: which partitions use a die, which accesses count, and that the entry takes effect at once. -/
def Obligations.PowerStates : Prop :=
  ∀ (s : State),
    let latency (p : Ps) : Nat := match p with
      | .ps0 => 0
      | .ps1 => Config.us
      | .ps2 => 20 * Config.us
      | .ps3 => 250 * Config.us
    let allowed (t : State) (d : Nat) (p : Ps) : Prop :=
      (p = .ps3 ↔ ∀ e ∈ t.parts, e.2.uses d = true → 250000 ≤ e.2.ltol.toNat)
      ∧ (p = .ps3 ∨ p = .ps2 ↔ ∀ e ∈ t.parts, e.2.uses d = true → 20000 ≤ e.2.ltol.toNat)
      ∧ (p = .ps3 ∨ p = .ps2 ∨ p = .ps1 ↔ ∀ e ∈ t.parts, e.2.uses d = true → 1000 ≤ e.2.ltol.toNat)
    (∀ d, d < 4 →
      (s.ready svcPwr = true → (s.die d).exiting = none → s.idleDie d = true → ∃ t, exec (.powerStateEntry d) s = .next t
        ∧ t = { s with dies := t.dies } ∧ allowed s d (t.die d).ps ∧ (t.die d).exiting = none
        ∧ ∀ n, n ≠ d → t.die n = s.die n)
      ∧ (s.ready svcPwr = false ∨ (s.die d).exiting ≠ none ∨ s.idleDie d = false → exec (.powerStateEntry d) s = .next s)
      ∧ ((s.die d).ps ≠ .ps0 → (s.die d).exiting = none → s.idleDie d = false ∨ s.accessTo d = true → ∃ t, exec (.wakeEvent d) s = .next t
        ∧ t = { s with dies := t.dies } ∧ (t.die d).ps = (s.die d).ps
        ∧ (t.die d).exiting = some (s.clock + latency (s.die d).ps) ∧ ∀ n, n ≠ d → t.die n = s.die n)
      ∧ ((s.die d).ps = .ps0 ∨ s.idleDie d = true ∧ s.accessTo d = false → exec (.wakeEvent d) s = .next s)
      ∧ ((s.die d).exiting ≠ none → ∃ t, exec (.dieExitComplete d) s = .next t ∧ t = { s with dies := t.dies }
        ∧ (t.die d).ps = .ps0 ∧ (t.die d).exiting = none ∧ ∀ n, n ≠ d → t.die n = s.die n))
    ∧ ∀ p v, p < 16 → ∃ t, exec (.ltolWrite p v) s = .next t ∧ t = { s with parts := t.parts, dies := t.dies }
      ∧ t.part p = { s.part p with ltol := v } ∧ (∀ q, q ≠ p → t.part q = s.part q)
      ∧ ∀ d, d < 4 → ((s.die d).exiting ≠ none → t.die d = s.die d)
        ∧ ((s.die d).exiting = none → ∀ ok, allowed t d ok →
          (latency (s.die d).ps ≤ latency ok → t.die d = s.die d)
          ∧ (latency ok < latency (s.die d).ps →
            (ok ≠ .ps0 → (t.die d).ps = ok ∧ (t.die d).exiting = none)
            ∧ (ok = .ps0 → (t.die d).ps = (s.die d).ps ∧ (t.die d).exiting = some (s.clock + latency (s.die d).ps))))

/-! ### Reset, decoding and the step -/

/-- R11, R22, R55, R58, R63, R65: right after reset every queue register is zero, every partition is in CONFIG_UNLOCKED
with LTOL 0 and no key, memory stands under the device key, no function is ready or has failed; nothing runs, and memory has its
canonical form.

The model's choice, log 2: CLOCK, CGOFFLINE and the other values for which the spec states none, and that unlisted
memory reads as zero. -/
def Obligations.ResetValues : Prop :=
  (∀ n, let q := State.reset.queue n
    q.en = false ∧ q.ring = 0 ∧ q.msix = 0 ∧ q.part = 0 ∧ q.lidx = 0 ∧ q.log2n = 0 ∧ q.head = 0 ∧ q.qerr = 0 ∧ q.tail = 0)
  ∧ (∀ n, let p := State.reset.part n
    p.tdi = .unlocked ∧ p.ltol = 0 ∧ p.key = none ∧ p.locking = false)
  ∧ (∀ g, State.reset.keyOf g = State.reset.hd.deviceKey) ∧ State.reset.hd.readyStatus = 0 ∧ State.reset.hd.readyFail = 0
  ∧ State.reset.hd.cgOffline = 0 ∧ State.reset.clock = 0
  ∧ State.reset.weaves = [] ∧ State.reset.records = [] ∧ State.reset.Settled ∧ Memory.wf State.reset.mem = true

/-- A step runs what is decoded (R285, R293–R299): where the next item of the agenda issues a group that may issue, and the
word group at its PC decodes to an instruction, the step is `exec` of that instruction with the group at issue, CLOCK
later by the item's cycles, and what follows every step (`settled`). A MOD prefix gives the instruction its rounding, a REP
prefix its repeat.

The model's choice, log 1 and 53: the agenda, which says what happens next. -/
def Obligations.StepRunsDecoded : Prop :=
  ∀ (s : State) (wid gid dt : Nat) (rest : List Item) (e : Env) (g : Group), s.agenda = .issue wid gid dt :: rest →
    let u : State := { s with agenda := rest, clock := s.clock + dt, cur := none }
    let cur (len : Nat) (code : List (BitVec 8)) : Cur := { weave := wid, gid := gid, addr := g.pc, len := len, code := code
                                                            rnd := .rne, sat := false, rep := 0, reps := 1 }
    let group (a : Nat) := u.groupAt { e := e, caps := e.codeCaps g.lanes, latch := g.latch } a g.pc
    let runs (i : Instr) (c : Cur) : Prop := step s = settled (exec i { u with cur := some c })
    u.env wid = some e → e.w.group gid = some g → u.mayIssue e g = true →
    (∀ w len i, group g.pc.toNat = .ok (w, len) → decode w = .ok i → i ≠ .fill →
      (isHeader (w.extractLsb' 0 32) = true ↔ g.pos ≠ .inRun) → runs i (cur len (natToBytes len w.toNat)))
    ∧ (∀ w len, group g.pc.toNat = .ok (w, len) → decode w = .ok .fill → g.pos ≠ .arrived →
      runs .fill (cur len (natToBytes len w.toNat)))
    ∧ ∀ w p x len i, g.pos = .inRun → group g.pc.toNat = .ok (w, 8) → decodePrefix w = some p →
      group (g.pc.toNat + 8) = .ok (x, len) → prefixKind (x.extractLsb' 0 32) = none → decode x = .ok i → i ≠ .fill →
      isHeader (x.extractLsb' 0 32) = false → p.may x = true → p.fits i = true →
      let c := cur (8 + len) (natToBytes 8 w.toNat ++ natToBytes len x.toNat)
      (∀ r sat, p = .mod r sat → runs i { c with rnd := r, sat := sat })
      ∧ ∀ r, p = .rep r → let n := g.progress
        runs (i.stepped (n * r.d) (n * r.a) (n * r.b) (n * r.c)) { c with rep := n, reps := r.reps }

/-- R113: after every step no instruction is at issue, and no weave has two groups that stand at one PC where groups merge:
an invariant that every step leaves true, from any state.

The model's choice, log 1: merging happens at the end of every step. -/
def Obligations.StepSettles : Prop := ∀ (s t : State), step s = .next t → t.Settled

/-- R284–R313: words that the spec writes out beside their instructions decode to those instructions: FILL, RUN, BRA, SPAWN,
SREG, IADD, SHFL, FFMA, FKEY, ATOM, STF, FENCE, COPY, KVLD and MSTAT. -/
def Obligations.DecodeWords : Prop :=
  let hd : Hd := ⟨7, false, false⟩
  let last : Hd := ⟨7, false, true⟩
  decodeTableWord 32 0x00000007 = some .fill
  ∧ decodeTableWord 64 0x0000002510097010 = some (.run 0x009 (some 1) (some 2))
  ∧ decodeTableWord 96 0xFFFFFFF00000000000007025 = some (.bra last 0xFFFFFFF0)
  ∧ decodeTableWord 128 0x80000000000000800000001F061E7102 = some (.spawn hd 30 6 31 0x80 true)
  ∧ decodeTableWord 64 0x000F0000002870D0 = some (.sreg hd 15 40)
  ∧ decodeTableWord 64 0x0082001514147200 = some (.iadd hd ⟨true, .u64⟩ 20 20 21)
  ∧ decodeTableWord 64 0x000C0005010473C0 = some (.shfl hd .u32 .xor 4 1 5)
  ∧ decodeTableWord 64 0x0000070605047420 = some (.ffma hd false .fp32 4 5 6 7)
  ∧ decodeTableWord 64 0x0012000002067540 = some (.fkey hd false true .fp16 6 2)
  ∧ decodeTableWord 96 0x000000086C32070201067721 = some (.atom hd ⟨false, .acqrel, .ad, .dom, .b32⟩ .smax 6 1 2 7 8)
  ∧ decodeTableWord 128 0x00004003000000102C02151404007746
    = some (.stf last ⟨false, .rlx, .ad, .dom, .b32⟩ 4 20 21 0x10 3 0x40)
  ∧ decodeTableWord 64 0x0407000000007754 = some (.fence last .dom 7)
  ∧ decodeTableWord 128 0x000000730000000041030414010C7902 = some (.copy hd ⟨.tph, 2, .om, .coh, 3, 7⟩ 12 1 20 4)
  ∧ decodeTableWord 128 0x00010001000000030000100205087A42 = some (.kvld hd true 0 1 3 8 5 2 16)
  ∧ decodeTableWord 64 0x00450000020C7B50 = some (.mstat hd 0x45 12 2)

/-- R284–R313: decoding undoes encoding, with every operand at every value that its field admits: each well-formed
instruction of the program has a word group, and every 128 bits that begin with it decode to the instruction; the encoding
says how long the group is. The same of the prefixes: the MOD and REP words of R293 Table 5 and R294 Table 6, with every
rounding mode, SAT, count and step code, are the prefixes they stand for, and no other word is a prefix. -/
def Obligations.DecodeEncode : Prop :=
  (∀ (i : Instr), i.wf = true → i.isEvent = false → ∃ n w, encode i = some (n, w) ∧ w.toNat < 2 ^ n
    ∧ groupBytes (w.extractLsb' 0 32) * 8 = n ∧ decodeTableWord n w.toNat = some i
    ∧ ∀ v : BitVec 128, v.toNat % 2 ^ n = w.toNat → decode v = .ok i)
  ∧ ∀ (v : BitVec 128) (p : Prefix), decodePrefix v = some p ↔
    (∃ (m : Rnd) (sat : Bool), p = .mod m sat
      ∧ v.extractLsb' 0 64 = BitVec.ofNat 64 (3 + 1 * 2 ^ 3 + m.code * 2 ^ 8 + (if sat then 1 else 0) * 2 ^ 11))
    ∨ ∃ n d a b c : Nat, n < 64 ∧ d < 4 ∧ a < 4 ∧ b < 4 ∧ c < 4
      ∧ p = .rep { reps := n + 1, d := if d = 3 then 4 else d, a := if a = 3 then 4 else a, b := if b = 3 then 4 else b
                   c := if c = 3 then 4 else c }
      ∧ v.extractLsb' 0 64
        = BitVec.ofNat 64 (3 + 2 * 2 ^ 3 + n * 2 ^ 8 + d * 2 ^ 14 + a * 2 ^ 16 + b * 2 ^ 18 + c * 2 ^ 20)

/-- R284–R313: each word group has one meaning: what it decodes to is well formed, and encoding that gives the same bits
again, so no bit of a group is ignored and no two groups are one instruction. -/
def Obligations.DecodeOneMeaning : Prop :=
  ∀ (v : BitVec 128) (i : Instr), decode v = .ok i → i.wf = true ∧ ∃ n, encode i = some (n, trimGroup v)

end
end

