-- ==== Sys2Proof/Laws/Table.lean ====
section
/-! SUPPORT. Tables: what a lookup finds after each operation, and that every operation keeps names rising. -/

namespace Sys2Proof.Tbl

variable {β : Type}

theorem find_del (t : Tbl β) (n m : Nat) : find (del t n) m = if m = n then none else find t m := by
  induction t with
  | nil => simp [del, find]
  | cons e r ih =>
    obtain ⟨k, v⟩ := e
    by_cases hk : k = n
    · simp only [del, if_pos hk, ih, find]
      by_cases hm : m = n
      · simp [hm]
      · have : k ≠ m := fun h => hm (h ▸ hk)
        simp [hm, this]
    · simp only [del, if_neg hk, find, ih]
      by_cases hm : k = m
      · have : m ≠ n := fun h => hk (hm.trans h)
        simp [hm, this]
      · simp [hm]

theorem find_ins (t : Tbl β) (n : Nat) (x : β) (m : Nat) (h : find t n = none) :
    find (ins t n x) m = if m = n then some x else find t m := by
  induction t with
  | nil => by_cases hm : n = m <;> simp [ins, find, hm, eq_comm]
  | cons e r ih =>
    obtain ⟨k, v⟩ := e
    have hk : k ≠ n := by rintro rfl; simp [find] at h
    have hr : find r n = none := by simpa [find, hk] using h
    by_cases hlt : n < k
    · simp only [ins, if_pos hlt, find]
      by_cases hm : n = m <;> simp [hm, eq_comm]
    · simp only [ins, if_neg hlt, find, ih hr]
      by_cases hm : k = m
      · have : m ≠ n := fun h => hk (hm.trans h)
        simp [hm, this]
      · simp [hm]

/-- A lookup after a put. -/
theorem find_put (t : Tbl β) (n : Nat) (x : β) (m : Nat) : find (put t n x) m = if m = n then some x else find t m := by
  have hd : find (del t n) n = none := by simp [find_del]
  unfold put
  rw [find_ins _ _ _ _ hd, find_del]
  split <;> simp_all

@[simp] theorem find_put_self (t : Tbl β) (n : Nat) (x : β) : find (put t n x) n = some x := by simp [find_put]

theorem find_put_other (t : Tbl β) {n m : Nat} (x : β) (h : m ≠ n) : find (put t n x) m = find t m := by
  simp [find_put, h]

/-- A lookup with a default after a set. -/
theorem get_set [DecidableEq β] (t : Tbl β) (d : β) (n : Nat) (x : β) (m : Nat) :
    get (set t d n x) d m = if m = n then x else get t d m := by
  unfold get set
  by_cases hx : x = d
  · rw [if_pos hx, find_del]
    split <;> simp [hx]
  · rw [if_neg hx, find_put]
    split <;> rfl

@[simp] theorem get_set_self [DecidableEq β] (t : Tbl β) (d : β) (n : Nat) (x : β) : get (set t d n x) d n = x := by
  simp [get_set]

theorem get_set_other [DecidableEq β] (t : Tbl β) (d : β) {n m : Nat} (x : β) (h : m ≠ n) :
    get (set t d n x) d m = get t d m := by simp [get_set, h]

/-- A lookup after an update. -/
theorem find_upd (t : Tbl β) (n : Nat) (f : β → β) (m : Nat) :
    find (upd t n f) m = if m = n then (find t n).map f else find t m := by
  unfold upd
  cases h : find t n with
  | none => by_cases hm : m = n <;> simp [hm, h]
  | some x => simp [find_put]

@[simp] theorem find_upd_self (t : Tbl β) (n : Nat) (f : β → β) : find (upd t n f) n = (find t n).map f := by
  simp [find_upd]

theorem find_upd_other (t : Tbl β) {n m : Nat} (f : β → β) (h : m ≠ n) : find (upd t n f) m = find t m := by
  simp [find_upd, h]

/-! ### Rising names -/

theorem sorted_cons (e : Nat × β) (r : Tbl β) :
    sorted (e :: r) = true ↔ (∀ x ∈ r.head?, e.1 < x.1) ∧ sorted r = true := by
  obtain ⟨a, v⟩ := e
  cases r with
  | nil => simp [sorted]
  | cons b r => obtain ⟨b, y⟩ := b; simp [sorted]

theorem head_lt_of_sorted {e : Nat × β} {r : Tbl β} (h : sorted (e :: r) = true) : ∀ x ∈ r, e.1 < x.1 := by
  induction r generalizing e with
  | nil => simp
  | cons b r ih =>
    rw [sorted_cons] at h
    have hb : e.1 < b.1 := h.1 b (by simp)
    intro x hx
    rcases List.mem_cons.mp hx with rfl | hx
    · exact hb
    · exact Nat.lt_trans hb (ih h.2 x hx)

theorem sorted_iff (e : Nat × β) (r : Tbl β) : sorted (e :: r) = true ↔ (∀ x ∈ r, e.1 < x.1) ∧ sorted r = true := by
  constructor
  · intro h; exact ⟨head_lt_of_sorted h, (sorted_cons e r).mp h |>.2⟩
  · rintro ⟨h1, h2⟩
    exact (sorted_cons e r).mpr ⟨fun x hx => h1 x (List.mem_of_mem_head? hx), h2⟩

theorem mem_del {t : Tbl β} {n : Nat} {x : Nat × β} (h : x ∈ del t n) : x ∈ t ∧ x.1 ≠ n := by
  induction t with
  | nil => simp [del] at h
  | cons e r ih =>
    obtain ⟨k, v⟩ := e
    by_cases hk : k = n
    · simp only [del, if_pos hk] at h
      exact ⟨List.mem_cons_of_mem _ (ih h).1, (ih h).2⟩
    · simp only [del, if_neg hk] at h
      rcases List.mem_cons.mp h with rfl | h
      · exact ⟨List.mem_cons_self, hk⟩
      · exact ⟨List.mem_cons_of_mem _ (ih h).1, (ih h).2⟩

theorem mem_ins {t : Tbl β} {n : Nat} {v : β} {x : Nat × β} (h : x ∈ ins t n v) : x = (n, v) ∨ x ∈ t := by
  induction t with
  | nil => simpa [ins] using h
  | cons e r ih =>
    obtain ⟨k, w⟩ := e
    by_cases hk : n < k
    · simp only [ins, if_pos hk] at h
      exact List.mem_cons.mp h
    · simp only [ins, if_neg hk] at h
      rcases List.mem_cons.mp h with rfl | h
      · exact .inr List.mem_cons_self
      · exact (ih h).imp id (List.mem_cons_of_mem _)

theorem sorted_del {t : Tbl β} (n : Nat) (h : sorted t = true) : sorted (del t n) = true := by
  induction t with
  | nil => rfl
  | cons e r ih =>
    obtain ⟨k, v⟩ := e
    obtain ⟨h1, h2⟩ := (sorted_iff _ _).mp h
    by_cases hk : k = n
    · simpa only [del, if_pos hk] using ih h2
    · simp only [del, if_neg hk]
      exact (sorted_iff _ _).mpr ⟨fun x hx => h1 x (mem_del hx).1, ih h2⟩

theorem sorted_ins {t : Tbl β} (n : Nat) (v : β) (h : sorted t = true) (hn : ∀ x ∈ t, x.1 ≠ n) :
    sorted (ins t n v) = true := by
  induction t with
  | nil => rfl
  | cons e r ih =>
    obtain ⟨k, w⟩ := e
    obtain ⟨h1, h2⟩ := (sorted_iff _ _).mp h
    by_cases hk : n < k
    · simp only [ins, if_pos hk]
      refine (sorted_iff _ _).mpr ⟨?_, h⟩
      intro x hx
      rcases List.mem_cons.mp hx with rfl | hx
      · exact hk
      · exact Nat.lt_trans hk (h1 x hx)
    · simp only [ins, if_neg hk]
      have hkn : k ≠ n := hn (k, w) List.mem_cons_self
      refine (sorted_iff _ _).mpr ⟨?_, ih h2 fun x hx => hn x (List.mem_cons_of_mem _ hx)⟩
      intro x hx
      rcases mem_ins hx with rfl | hx
      · show k < n; omega
      · exact h1 x hx

/-- A put keeps names rising. -/
theorem sorted_put {t : Tbl β} (n : Nat) (v : β) (h : sorted t = true) : sorted (put t n v) = true :=
  sorted_ins n v (sorted_del n h) fun _ hx => (mem_del hx).2

theorem sorted_set [DecidableEq β] {t : Tbl β} (d : β) (n : Nat) (v : β) (h : sorted t = true) :
    sorted (set t d n v) = true := by
  unfold set
  split
  · exact sorted_del n h
  · exact sorted_put n v h

theorem sorted_upd {t : Tbl β} (n : Nat) (f : β → β) (h : sorted t = true) : sorted (upd t n f) = true := by
  unfold upd
  split
  · exact sorted_put n _ h
  · exact h

theorem sorted_filter {t : Tbl β} (f : Nat × β → Bool) (h : sorted t = true) : sorted (t.filter f) = true := by
  induction t with
  | nil => rfl
  | cons e r ih =>
    obtain ⟨h1, h2⟩ := (sorted_iff _ _).mp h
    by_cases hf : f e = true
    · rw [List.filter_cons_of_pos hf]
      exact (sorted_iff _ _).mpr ⟨fun x hx => h1 x (List.mem_filter.mp hx).1, ih h2⟩
    · rw [List.filter_cons_of_neg hf]
      exact ih h2

/-- In a table with rising names a lookup finds the entry. -/
theorem find_of_mem {t : Tbl β} (h : sorted t = true) {n : Nat} {x : β} (hx : (n, x) ∈ t) : find t n = some x := by
  induction t with
  | nil => simp at hx
  | cons e r ih =>
    obtain ⟨k, v⟩ := e
    obtain ⟨h1, h2⟩ := (sorted_iff _ _).mp h
    rcases List.mem_cons.mp hx with he | hr
    · cases he; simp [find]
    · have : k ≠ n := by have := h1 _ hr; simp only at this; omega
      simp [find, this, ih h2 hr]

theorem mem_of_find {t : Tbl β} {n : Nat} {x : β} (h : find t n = some x) : (n, x) ∈ t := by
  induction t with
  | nil => simp [find] at h
  | cons e r ih =>
    obtain ⟨k, v⟩ := e
    by_cases hk : k = n
    · simp only [find, if_pos hk, Option.some.injEq] at h
      rw [← hk, ← h]; exact List.mem_cons_self
    · simp only [find, if_neg hk] at h
      exact List.mem_cons_of_mem _ (ih h)

/-- Two tables with rising names and the same lookups are equal. -/
theorem ext {t u : Tbl β} (ht : sorted t = true) (hu : sorted u = true) (h : ∀ n, find t n = find u n) : t = u := by
  induction t generalizing u with
  | nil =>
    cases u with
    | nil => rfl
    | cons e r => have := h e.1; simp [find] at this
  | cons e r ih =>
    cases u with
    | nil => have := h e.1; simp [find] at this
    | cons e' r' =>
      obtain ⟨k, v⟩ := e
      obtain ⟨k', v'⟩ := e'
      obtain ⟨h1, h2⟩ := (sorted_iff _ _).mp ht
      obtain ⟨h3, h4⟩ := (sorted_iff _ _).mp hu
      have hk : k = k' := by
        have a := h k
        have b := h k'
        simp only [find] at a b
        by_cases hkk : k = k'
        · exact hkk
        · have hk' : k' ≠ k := fun x => hkk x.symm
          simp only [if_true, if_neg hk', if_neg hkk] at a b
          have a' := h3 _ (mem_of_find a.symm)
          have b' := h1 _ (mem_of_find b)
          simp only at a' b'
          omega
      subst hk
      have hv : v = v' := by have := h k; simpa [find] using this
      subst hv
      congr 1
      refine ih h2 h4 fun n => ?_
      have := h n
      by_cases hn : k = n
      · subst hn
        have a : find r k = none := by
          cases hf : find r k with
          | none => rfl
          | some x => have := h1 _ (mem_of_find hf); simp at this
        have b : find r' k = none := by
          cases hf : find r' k with
          | none => rfl
          | some x => have := h3 _ (mem_of_find hf); simp at this
        rw [a, b]
      · simpa [find, hn] using this

end Sys2Proof.Tbl
end

