-- ==== Sys2Proof/Laws/Memory.lean ====
section
/-! SUPPORT. Byte memory: what a read finds after each write, and that every operation keeps the canonical form
(R3, R11, R125). -/

namespace Sys2Proof.Machine

open Sys2Proof

/-! ### One byte -/

theorem Memory.get_set (m : Memory) (a : Nat) (b : BitVec 8) (c : Nat) :
    Memory.get (Memory.set m a b) c = if c = a then b else Memory.get m c :=
  Tbl.get_set m unlisted a b c

@[simp] theorem Memory.get_set_self (m : Memory) (a : Nat) (b : BitVec 8) : Memory.get (Memory.set m a b) a = b := by
  simp [Memory.get_set]

theorem Memory.get_set_other (m : Memory) {a c : Nat} (b : BitVec 8) (h : c ≠ a) :
    Memory.get (Memory.set m a b) c = Memory.get m c := by simp [Memory.get_set, h]

@[simp] theorem Memory.get_nil (a : Nat) : Memory.get [] a = unlisted := rfl

/-! ### Runs of bytes -/

/-- A read after a write of consecutive bytes. -/
theorem Memory.get_writes (m : Memory) (a : Nat) (bs : List (BitVec 8)) (c : Nat) :
    Memory.get (Memory.writes m a bs) c
      = if a ≤ c ∧ c < a + bs.length then bs.getD (c - a) 0 else Memory.get m c := by
  induction bs generalizing m a with
  | nil => simp [Memory.writes]
  | cons b r ih =>
    rw [Memory.writes, ih, Memory.get_set]
    simp only [List.length_cons]
    by_cases h : c = a
    · subst h; simp
    · by_cases h2 : a + 1 ≤ c ∧ c < a + 1 + r.length
      · have h3 : a ≤ c ∧ c < a + (r.length + 1) := by omega
        rw [if_pos h2, if_pos h3]
        have : c - a = (c - (a + 1)) + 1 := by omega
        rw [this, List.getD_cons_succ]
      · have h3 : ¬ (a ≤ c ∧ c < a + (r.length + 1)) := by omega
        rw [if_neg h2, if_neg h3, if_neg h]

/-- A write leaves every other address alone. -/
theorem Memory.get_writes_other (m : Memory) (a : Nat) (bs : List (BitVec 8)) (c : Nat) (h : c < a ∨ a + bs.length ≤ c) :
    Memory.get (Memory.writes m a bs) c = Memory.get m c := by
  rw [Memory.get_writes, if_neg (by omega)]

theorem Memory.reads_length (m : Memory) (a n : Nat) : (Memory.reads m a n).length = n := by
  induction n generalizing a with
  | zero => rfl
  | succ n ih => simp [Memory.reads, ih]

theorem Memory.reads_congr {m m' : Memory} {a n : Nat} (h : ∀ c, a ≤ c → c < a + n → Memory.get m c = Memory.get m' c) :
    Memory.reads m a n = Memory.reads m' a n := by
  induction n generalizing a with
  | zero => rfl
  | succ n ih =>
    simp only [Memory.reads]
    rw [h a (Nat.le_refl a) (by omega), ih fun c h1 h2 => h c (by omega) (by omega)]

theorem Memory.getD_reads (m : Memory) (a n i : Nat) (h : i < n) :
    (Memory.reads m a n).getD i 0 = Memory.get m (a + i) := by
  induction n generalizing a i with
  | zero => omega
  | succ n ih =>
    cases i with
    | zero => simp [Memory.reads]
    | succ i =>
      simp only [Memory.reads, List.getD_cons_succ]
      rw [ih (a + 1) i (by omega)]
      congr 1; omega

/-- A read of the bytes just written gives them back. -/
theorem Memory.reads_writes (m : Memory) (a : Nat) (bs : List (BitVec 8)) :
    Memory.reads (Memory.writes m a bs) a bs.length = bs := by
  apply List.ext_getElem (Memory.reads_length _ _ _)
  intro i h1 h2
  have h3 := Memory.getD_reads (Memory.writes m a bs) a bs.length i h2
  rw [Memory.get_writes, if_pos (by omega), Nat.add_sub_cancel_left] at h3
  rw [List.getD_eq_getElem _ _ h1, List.getD_eq_getElem _ _ h2] at h3
  exact h3

theorem Memory.reads_writes_other (m : Memory) (a : Nat) (bs : List (BitVec 8)) (c n : Nat)
    (h : c + n ≤ a ∨ a + bs.length ≤ c) : Memory.reads (Memory.writes m a bs) c n = Memory.reads m c n :=
  Memory.reads_congr fun d h1 h2 => Memory.get_writes_other m a bs d (by omega)

theorem natToBytes_length (n x : Nat) : (natToBytes n x).length = n := by
  induction n generalizing x with
  | zero => rfl
  | succ n ih => simp [natToBytes, ih]

/-- The bytes of a number give the number back (R3: little-endian). -/
theorem bytesToNat_natToBytes (n x : Nat) : bytesToNat (natToBytes n x) = x % 256 ^ n := by
  induction n generalizing x with
  | zero => simp [natToBytes, bytesToNat, Nat.mod_one]
  | succ n ih =>
    have h : 256 ^ (n + 1) = 256 * 256 ^ n := by rw [Nat.pow_succ, Nat.mul_comm]
    simp only [natToBytes, bytesToNat, ih, BitVec.toNat_ofNat, h, Nat.mod_mul]
    have : x % 256 % 2 ^ 8 = x % 256 := Nat.mod_mod x 256
    omega

/-- A number written and read back. -/
theorem Memory.num_writes (m : Memory) (a n x : Nat) :
    Memory.num (Memory.writes m a (natToBytes n x)) a n = x % 256 ^ n := by
  unfold Memory.num
  have := Memory.reads_writes m a (natToBytes n x)
  rw [natToBytes_length] at this
  rw [this, bytesToNat_natToBytes]

/-! ### The canonical form -/

theorem Memory.wf_iff (m : Memory) :
    Memory.wf m = true ↔ Tbl.sorted m = true ∧ ∀ c ∈ m, c.2 ≠ unlisted := by
  simp [Memory.wf]

theorem Memory.wf_nil : Memory.wf [] = true := rfl

theorem Memory.wf_set {m : Memory} (a : Nat) (b : BitVec 8) (h : Memory.wf m = true) :
    Memory.wf (Memory.set m a b) = true := by
  obtain ⟨h1, h2⟩ := (Memory.wf_iff m).mp h
  refine (Memory.wf_iff _).mpr ⟨Tbl.sorted_set _ _ _ h1, ?_⟩
  unfold Memory.set Tbl.set
  split
  · exact fun c hc => h2 c (Tbl.mem_del hc).1
  · rename_i hb
    intro c hc
    rcases Tbl.mem_ins hc with rfl | hc
    · exact hb
    · exact h2 c (Tbl.mem_del hc).1

theorem Memory.wf_writes {m : Memory} (a : Nat) (bs : List (BitVec 8)) (h : Memory.wf m = true) :
    Memory.wf (Memory.writes m a bs) = true := by
  induction bs generalizing m a with
  | nil => exact h
  | cons b r ih => exact ih (a + 1) (Memory.wf_set a b h)

theorem Memory.get_ne_of_mem {m : Memory} (h : Memory.wf m = true) {a : Nat} {b : BitVec 8} (hc : (a, b) ∈ m) :
    Memory.get m a = b := by
  obtain ⟨h1, -⟩ := (Memory.wf_iff m).mp h
  simp [Memory.get, Tbl.get, Tbl.find_of_mem h1 hc]

/-- Memories in canonical form that read alike are equal. -/
theorem Memory.ext {m m' : Memory} (h : Memory.wf m = true) (h' : Memory.wf m' = true)
    (he : ∀ a, Memory.get m a = Memory.get m' a) : m = m' := by
  obtain ⟨h1, h2⟩ := (Memory.wf_iff m).mp h
  obtain ⟨h3, h4⟩ := (Memory.wf_iff m').mp h'
  refine Tbl.ext h1 h3 fun n => ?_
  have hn := he n
  simp only [Memory.get, Tbl.get] at hn
  cases hf : Tbl.find m n with
  | none =>
    cases hg : Tbl.find m' n with
    | none => rfl
    | some y =>
      rw [hf, hg] at hn
      exact absurd hn.symm (h4 _ (Tbl.mem_of_find hg))
  | some x =>
    cases hg : Tbl.find m' n with
    | none =>
      rw [hf, hg] at hn
      exact absurd hn (h2 _ (Tbl.mem_of_find hf))
    | some y => rw [hf, hg] at hn; simpa using hn

/-! ### Writes of the machine -/

/-- A write of the machine keeps the canonical form. -/
theorem State.memWrite_wf (s : State) (pa : Nat) (bs : List (BitVec 8)) (h : Memory.wf s.mem = true) :
    Memory.wf (s.memWrite pa bs).mem = true := Memory.wf_writes pa bs h

theorem State.memWrite_get (s : State) (pa : Nat) (bs : List (BitVec 8)) (a : Nat) :
    Memory.get (s.memWrite pa bs).mem a
      = if pa ≤ a ∧ a < pa + bs.length then bs.getD (a - pa) 0 else Memory.get s.mem a :=
  Memory.get_writes s.mem pa bs a

theorem State.keepBytes_length (s : State) (a : Nat) (bs : List (BitVec 8)) : (s.keepBytes a bs).length = bs.length := by
  induction bs generalizing a with
  | nil => rfl
  | cons b r ih => simp [State.keepBytes, ih]

/-- Where no byte is kept, a write leaves the bytes it was given (R137, R186, R187). -/
theorem State.keepBytes_free (s : State) (a : Nat) (bs : List (BitVec 8))
    (h : ∀ c, a ≤ c → c < a + bs.length → s.kept c = false) : s.keepBytes a bs = bs := by
  induction bs generalizing a with
  | nil => rfl
  | cons b r ih =>
    simp only [State.keepBytes]
    rw [h a (Nat.le_refl a) (by simp), ih (a + 1) fun c h1 h2 => h c (by omega) (by simp only [List.length_cons]; omega)]
    rfl

/-- A byte of a team's scratchpad. -/
theorem State.locWrite_mem_wf (s : State) (l : Loc) (bs : List (BitVec 8)) (h : Memory.wf s.mem = true) :
    Memory.wf (s.locWrite l bs).mem = true := by
  cases l with
  | mem pa => exact State.memWrite_wf s pa _ h
  | spad t off => exact h
  | acc t i => exact h
  | virt a => exact h
  | remote p a => exact h

/-- A write at a physical address leaves all other memory. -/
theorem State.locWrite_get_other (s : State) (pa : Nat) (bs : List (BitVec 8)) (a : Nat)
    (h : a < pa ∨ pa + bs.length ≤ a) : Memory.get (s.locWrite (.mem pa) bs).mem a = Memory.get s.mem a :=
  Memory.get_writes_other s.mem pa _ a (by rw [State.keepBytes_length]; exact h)

/-- Every team's scratchpad in canonical form. -/
def State.spadsWf (s : State) : Prop := ∀ e ∈ s.teams, Memory.wf e.2.spad = true

theorem Tbl.mem_upd {β : Type} {t : Tbl β} {n : Nat} {f : β → β} {x : Nat × β} (h : x ∈ Tbl.upd t n f) :
    x ∈ t ∨ ∃ y, (n, y) ∈ t ∧ x = (n, f y) := by
  unfold Tbl.upd at h
  split at h
  · rename_i y hy
    rcases Tbl.mem_ins h with h | h
    · exact .inr ⟨y, Tbl.mem_of_find hy, h⟩
    · exact .inl (Tbl.mem_del h).1
  · exact .inl h

theorem State.locWrite_spads (s : State) (l : Loc) (bs : List (BitVec 8)) (h : s.spadsWf) : (s.locWrite l bs).spadsWf := by
  cases l with
  | mem pa => exact h
  | virt a => exact h
  | remote p a => exact h
  | spad t off =>
    intro e he
    rcases Tbl.mem_upd he with he | ⟨y, hy, rfl⟩
    · exact h e he
    · exact Memory.wf_writes off bs (h _ hy)
  | acc t i =>
    intro e he
    rcases Tbl.mem_upd he with he | ⟨y, hy, rfl⟩
    · exact h e he
    · exact h (t, y) hy

theorem State.locSetTag_wf (s : State) (l : Loc) (b : Bool) (h : Memory.wf s.mem = true) :
    Memory.wf (s.locSetTag l b).mem = true := by
  unfold State.locSetTag
  split
  · exact h
  · split <;> exact h

@[simp] theorem State.wake_mem (s : State) (d : Nat) : (s.wake d).mem = s.mem := by
  unfold State.wake
  dsimp only
  split <;> rfl

@[simp] theorem State.touch_mem (s : State) (pa : Nat) : (s.touch pa).mem = s.mem := State.wake_mem s _

@[simp] theorem State.recordRel_mem (s : State) (l : Loc) (n : Nat) (old r : Option Rel) : (s.recordRel l n old r).mem = s.mem := by
  unfold State.recordRel
  split <;> rfl

/-- Records of releases leave memory as it is. -/
theorem State.foldl_recordRel_mem (gs : List Nat) (r : State → Option Rel) (s : State) :
    (gs.foldl (fun s g => s.recordRel (.mem (g * 64)) 64 none (r s)) s).mem = s.mem := by
  induction gs generalizing s with
  | nil => rfl
  | cons g gs ih => exact (ih _).trans (State.recordRel_mem s _ _ _ _)

/-- A write of the device keeps memory in canonical form. -/
theorem State.devPerform_wf (s : State) (w : DevWrite) (h : Memory.wf s.mem = true) : Memory.wf (s.devPerform w).mem = true := by
  have h0 : Memory.wf (s.touch w.pa).mem = true := by rw [State.touch_mem]; exact h
  have h1 : Memory.wf (if w.own then (s.touch w.pa).memWrite w.pa w.data else (s.touch w.pa).locWrite (.mem w.pa) w.data).mem = true := by
    split
    · exact State.memWrite_wf _ _ _ h0
    · exact State.locWrite_mem_wf _ _ _ h0
  unfold State.devPerform
  dsimp only
  split
  · exact h0
  · split
    · exact (State.foldl_recordRel_mem _ (fun s => some (Rel.by_ _ (s.deviceIdent w.part))) _).symm ▸ h1
    · exact h1

theorem State.devWrite_wf (s : State) (part d : Nat) (bs : List (BitVec 8)) (own : Bool) (rel : Option Scope)
    (h : Memory.wf s.mem = true) : Memory.wf (s.devWrite part d bs own rel).mem = true := by
  unfold State.devWrite
  split
  · exact h
  · dsimp only
    split
    · exact h
    · exact State.devPerform_wf _ _ h

theorem State.directWrite_wf (s : State) (part d : Nat) (bs : List (BitVec 8)) (h : Memory.wf s.mem = true) :
    Memory.wf (s.directWrite part d bs).mem = true := State.devWrite_wf s part d bs false none h

theorem State.ctlWrite_wf (s : State) (part d : Nat) (bs : List (BitVec 8)) (h : Memory.wf s.mem = true) :
    Memory.wf (s.ctlWrite part d bs).mem = true := State.devWrite_wf s part d bs true none h

/-- The held writes of the device, made as memory lets them, keep memory in canonical form. -/
theorem State.devFlush_wf (s : State) (h : Memory.wf s.mem = true) : Memory.wf s.devFlush.mem = true := by
  unfold State.devFlush
  generalize s.devWrites = l
  induction l generalizing s with
  | nil => exact h
  | cons w l ih =>
    refine ih _ ?_
    unfold State.devStep
    split
    · split
      · exact State.devPerform_wf _ _ h
      · exact h
    · exact h

/-- Memory after reset is in canonical form. -/
theorem State.reset_wf : Memory.wf State.reset.mem = true := rfl

end Sys2Proof.Machine
end

