-- ==== Sys2Proof/Laws/Clear.lean ====
section
/-! SUPPORT. Memory that is cleared: a fresh page (R188) and the scrub of a lock (R59) keep the canonical form, read as
zero inside and as before outside. -/

namespace Sys2Proof.Machine

open Sys2Proof

theorem Tbl.sorted_filter {β : Type} {t : Tbl β} (f : Nat × β → Bool) (h : Tbl.sorted t = true) :
    Tbl.sorted (t.filter f) = true := by
  induction t with
  | nil => rfl
  | cons e r ih =>
    obtain ⟨h1, h2⟩ := (Tbl.sorted_iff _ _).mp h
    rw [List.filter_cons]
    split
    · exact (Tbl.sorted_iff _ _).mpr ⟨fun x hx => h1 x (List.mem_of_mem_filter hx), ih h2⟩
    · exact ih h2

/-- Memory without some of its cells has the canonical form. -/
theorem Memory.wf_filter {m : Memory} (f : Host.Cell → Bool) (h : Memory.wf m = true) :
    Memory.wf (m.filter f) = true := by
  simp only [Memory.wf, Bool.and_eq_true, List.all_eq_true] at h ⊢
  exact ⟨Tbl.sorted_filter _ h.1, fun c hc => h.2 c (List.mem_of_mem_filter hc)⟩

/-- Taking away the cells of some addresses makes those read as unlisted and leaves the others. -/
theorem Memory.get_filter (m : Memory) (p : Nat → Bool) (a : Nat) :
    Memory.get (m.filter fun c => !p c.1) a = if p a then unlisted else Memory.get m a := by
  have h : Tbl.find (m.filter fun c => !p c.1) a = if p a then none else Tbl.find m a := by
    induction m with
    | nil => simp [Tbl.find]
    | cons c r ih =>
      obtain ⟨k, v⟩ := c
      by_cases hp : p k = true
      · rw [List.filter_cons_of_neg (by simp [hp]), ih]
        by_cases hk : k = a
        · subst hk; simp [hp]
        · simp [Tbl.find, hk]
      · rw [List.filter_cons_of_pos (by simp [hp])]
        by_cases hk : k = a
        · subst hk; simp [Tbl.find, hp]
        · simp [Tbl.find, hk, ih]
  unfold Memory.get Tbl.get
  rw [h]
  split <;> rfl

theorem Memory.wf_clear {m : Memory} (a n : Nat) (h : Memory.wf m = true) : Memory.wf (Memory.clear m a n) = true :=
  Memory.wf_filter _ h

/-- A cleared range reads as zero, and nothing else changes. -/
theorem Memory.get_clear (m : Memory) (a n c : Nat) :
    Memory.get (Memory.clear m a n) c = if a ≤ c ∧ c < a + n then unlisted else Memory.get m c := by
  have h := Memory.get_filter m (fun c => decide (a ≤ c) && decide (c < a + n)) c
  simpa only [Memory.clear, Bool.and_eq_true, decide_eq_true_eq] using h

theorem State.zeroUnit_wf (s : State) (pa : Nat) (h : Memory.wf s.mem = true) :
    Memory.wf (s.zeroUnit pa).mem = true := Memory.wf_clear _ _ h

theorem State.scrub_wf (s : State) (p : Nat) (h : Memory.wf s.mem = true) : Memory.wf (s.scrub p).mem = true :=
  Memory.wf_filter _ h

/-- After the scrub the partition's windows read as zero, and memory outside them is as before (R59). -/
theorem State.scrub_get (s : State) (p a : Nat) :
    Memory.get (s.scrub p).mem a = if (s.part p).holds a 1 then unlisted else Memory.get s.mem a :=
  Memory.get_filter s.mem (fun a => (s.part p).holds a 1) a

end Sys2Proof.Machine
end

