-- ==== Sys2Proof/Laws/Encoding.lean ====
section
/-! SUPPORT. Lemmas about the encoding: bit fields of an appended word, and that each field decoder undoes its field
encoder; the round trips of Laws/PerInstr.lean rest on them. -/

namespace Sys2Proof

theorem extract_low {m k : Nat} (hi : BitVec m) (lo : BitVec k) (s n : Nat) (h : s + n ≤ k) :
    (hi ++ lo).extractLsb' s n = lo.extractLsb' s n := by
  apply BitVec.eq_of_getLsbD_eq
  intro i hi'
  simp only [BitVec.getLsbD_extractLsb', BitVec.getLsbD_append]
  have : s + i < k := by omega
  simp [this]

theorem extract_high {m k : Nat} (hi : BitVec m) (lo : BitVec k) (s n : Nat) (h : k ≤ s) :
    (hi ++ lo).extractLsb' s n = hi.extractLsb' (s - k) n := by
  apply BitVec.eq_of_getLsbD_eq
  intro i hi'
  simp only [BitVec.getLsbD_extractLsb', BitVec.getLsbD_append]
  have h1 : ¬ s + i < k := by omega
  have h2 : s + i - k = s - k + i := by omega
  simp [h1, h2]

theorem extract_all {n : Nat} (x : BitVec n) : x.extractLsb' 0 n = x := by
  apply BitVec.eq_of_getLsbD_eq; intro i hi; simp [BitVec.getLsbD_extractLsb', hi]

theorem getLsbD_high {m k : Nat} (hi : BitVec m) (lo : BitVec k) (i : Nat) (h : k ≤ i) :
    (hi ++ lo).getLsbD i = hi.getLsbD (i - k) := by
  simp only [BitVec.getLsbD_append]; simp [Nat.not_lt.mpr h]

theorem getLsbD_low {m k : Nat} (hi : BitVec m) (lo : BitVec k) (i : Nat) (h : i < k) :
    (hi ++ lo).getLsbD i = lo.getLsbD i := by
  simp only [BitVec.getLsbD_append]; simp [h]

/-- The two parts of a bit vector put together again. -/
theorem split_cat {m k : Nat} (x : BitVec (m + k)) : x.extractLsb' k m ++ x.extractLsb' 0 k = x := by
  apply BitVec.eq_of_getLsbD_eq
  intro i hi
  simp only [BitVec.getLsbD_append, BitVec.getLsbD_extractLsb']
  by_cases h : i < k
  · simp [h]
  · have h1 : i - k < m := by omega
    have h2 : k + (i - k) = i := by omega
    simp [h, h1, h2]

theorem ofBits_toBits (r : Raw) : Raw.ofBits r.toBits = r := by
  obtain ⟨ext, imm, x, sub, c, b, a, d, pg, opc, fs, bnd, len⟩ := r
  simp only [Raw.ofBits, Raw.toBits, Raw.mk.injEq]
  refine ⟨?_, ?_, ?_, ?_, ?_, ?_, ?_, ?_, ?_, ?_, ?_, ?_, ?_⟩
  all_goals
    repeat first
      | exact extract_all _
      | rfl
      | refine (extract_high _ _ _ _ (by decide)).trans ?_
      | refine (extract_low _ _ _ _ (by decide)).trans ?_
      | refine (getLsbD_high _ _ _ (by decide)).trans ?_
      | refine (getLsbD_low _ _ _ (by decide)).trans ?_
  all_goals simp

theorem and_mask {n : Nat} (w : BitVec 128) (m : BitVec 128) (hm : ∀ i, i < n → m.getLsbD i = true)
    (hw : ∀ i, i < 128 → n ≤ i → w.getLsbD i = false) : w &&& m = w := by
  apply BitVec.eq_of_getLsbD_eq
  intro i hi
  rw [BitVec.getLsbD_and]
  by_cases h : i < n
  · simp [hm i h]
  · simp [hw i hi (by omega)]

theorem toBits_len (r : Raw) : r.toBits.extractLsb' 0 2 = r.len := by
  have := congrArg Raw.len (ofBits_toBits r); simpa [Raw.ofBits] using this

theorem toBits_imm (r : Raw) : r.toBits.extractLsb' 64 32 = r.imm := by
  have := congrArg Raw.imm (ofBits_toBits r); simpa [Raw.ofBits] using this

theorem toBits_ext (r : Raw) : r.toBits.extractLsb' 96 32 = r.ext := by
  have := congrArg Raw.ext (ofBits_toBits r); simpa [Raw.ofBits] using this

theorem bit_of_extract {w : BitVec 128} {s n : Nat} (h : w.extractLsb' s n = 0) {i : Nat} (h1 : s ≤ i) (h2 : i < s + n) :
    w.getLsbD i = false := by
  have := congrArg (fun v => BitVec.getLsbD v (i - s)) h
  simp only [BitVec.getLsbD_extractLsb', BitVec.getLsbD_zero, BitVec.ofNat_eq_ofNat] at this
  have h3 : s + (i - s) = i := by omega
  have h4 : i - s < n := by omega
  simpa [h3, h4] using this

theorem decode_toBits (r : Raw) (h3 : r.len ≠ 3) (h0 : r.len = 0 → r.imm = 0 ∧ r.ext = 0) (h1 : r.len = 1 → r.ext = 0) :
    decode r.toBits = decodeRaw r := by
  have hl := toBits_len r
  have e : (BitVec.extractLsb' 0 32 r.toBits).extractLsb' 0 2 = r.len := by
    rw [← hl]; apply BitVec.eq_of_getLsbD_eq; intro i hi; simp [BitVec.getLsbD_extractLsb']
  have ht : trimGroup r.toBits = r.toBits := by
    have hc : ∀ v : BitVec 2, v = 0 ∨ v = 1 ∨ v = 2 ∨ v = 3 := by decide
    unfold trimGroup groupBytes
    rcases hc r.len with h | h | h | h
    · obtain ⟨hi, hx⟩ := h0 h
      rw [e, h]
      simp only [if_true, show (0 : BitVec 2) = 0#2 from rfl]
      apply and_mask (n := 64) _ _ (by decide)
      intro i hi1 hi2
      by_cases hh : i < 96
      · exact bit_of_extract ((toBits_imm r).trans hi) hi2 (by omega)
      · exact bit_of_extract ((toBits_ext r).trans hx) (by omega) (by omega)
    · have hx := h1 h
      rw [e, h]
      simp
      apply and_mask (n := 96) _ _ (by decide)
      intro i hi1 hi2
      exact bit_of_extract ((toBits_ext r).trans hx) (by omega) (by omega)
    · rw [e, h]; rfl
    · exact absurd h h3
  unfold decode
  simp only [ht, hl, ofBits_toBits]
  exact if_neg h3

theorem toNat_ofNat8 {n : Nat} (h : n < 256) : (BitVec.ofNat 8 n).toNat = n := by
  simpa [BitVec.toNat_ofNat] using h

theorem int_spec (r : Raw) (scalar : Bool) (k : IntF → Nat → Option Instr) (f : IntF) (o : Nat) (ho : o < 32)
    (hs : r.sub = intSub f o) (hx : r.x = 0) (hi : r.imm = 0) (he : r.ext = 0)
    (hp : f.s = true → scalar = true ∧ r.pg = 7) : r.int scalar k = k f o := by
  obtain ⟨s, ty⟩ := f
  have e1 : ∀ s ty, ∀ o < 32, (intSub ⟨s, ty⟩ o).getLsbD 7 = s := by
    intro s ty; cases s <;> cases ty <;> decide
  have e2 : ∀ s ty, ∀ o < 32, Ty.ofCode ((intSub ⟨s, ty⟩ o).extractLsb' 0 2).toNat = ty := by
    intro s ty; cases s <;> cases ty <;> decide
  have e3 : ∀ s ty, ∀ o < 32, ((intSub ⟨s, ty⟩ o).extractLsb' 2 5).toNat = o := by
    intro s ty; cases s <;> cases ty <;> decide
  unfold Raw.int
  rw [hs, e1 _ _ _ ho, e2 _ _ _ ho, e3 _ _ _ ho]
  cases s
  · simp [need, Raw.noImm, hx, hi, he]
  · obtain ⟨h1, h2⟩ := hp rfl
    simp [need, Raw.noImm, hx, hi, he, h1, h2]

theorem fp_spec (r : Raw) (scalar : Bool) (k : Bool → Nat → Fmt → Option Instr) (s : Bool) (o : Nat) (fm : Fmt) (ho : o < 8)
    (hs : r.sub = fpSub s o fm) (hi : r.imm = 0) (he : r.ext = 0)
    (hp : s = true → scalar = true ∧ r.pg = 7) : r.fp scalar k = k s o fm := by
  have e1 : ∀ s fm, ∀ o < 8, (fpSub s o fm).getLsbD 7 = s := by
    intro s ty; cases s <;> cases ty <;> decide
  have e2 : ∀ s ty, ∀ o < 8, Fmt.ofCode ((fpSub s o ty).extractLsb' 0 4).toNat = some ty := by
    intro s ty; cases s <;> cases ty <;> decide
  have e3 : ∀ s ty, ∀ o < 8, ((fpSub s o ty).extractLsb' 4 3).toNat = o := by
    intro s ty; cases s <;> cases ty <;> decide
  unfold Raw.fp
  rw [hs, e1 _ _ _ ho, e2 _ _ _ ho, e3 _ _ _ ho]
  cases s
  · simp [need, Raw.noImm, hi, he]
  · obtain ⟨h1, h2⟩ := hp rfl
    simp [need, Raw.noImm, hi, he, h1, h2]

theorem decodeRaw_of (r : Raw) (h : Hd) (i : Instr) (hp : r.pg = h.pg) (hf : r.fs = h.fs) (hb : r.bnd = h.bnd)
    (hk : h.okFor r.opc = true) (hl : ((opRule r.opc).any fun u => u.lens.contains r.len) = true)
    (hd : decBody r = some i) : decodeRaw r = .ok i := by
  unfold Hd.okFor at hk
  unfold decodeRaw
  cases ho : opRule r.opc with
  | none => simp [ho] at hk
  | some u =>
    simp only [ho, Option.any_some] at hk hl
    simp only [Hd.obeys, Bool.and_eq_true, bne_iff_ne, ne_eq, Bool.or_eq_true, Bool.not_eq_true', beq_iff_eq] at hk
    obtain ⟨⟨⟨k1, k2⟩, k3⟩, k4⟩ := hk
    rw [← hp] at k1 k2
    rw [← hf] at k3
    rw [← hb] at k4
    simp only [hl, hd]
    have a1 : ¬ (r.pg = 15 ∨ (u.pg7 = true ∧ r.pg ≠ 7)) := by
      rintro (c | ⟨c1, c2⟩)
      · exact k1 c
      · rcases k2 with k | k
        · simp [k] at c1
        · exact c2 k
    have a2 : ¬ (u.fs0 = true ∧ r.fs = true) := by
      rintro ⟨c1, c2⟩
      rcases k3 with k | k
      · simp [k] at c1
      · simp [k] at c2
    have a3 : ¬ (u.bnd1 = true ∧ ¬ r.bnd = true) := by
      rintro ⟨c1, c2⟩
      rcases k4 with k | k
      · simp [k] at c1
      · exact c2 k
    rw [if_neg (by simp), if_neg a1, if_neg a2, if_neg a3]

/-! ### Codes -/

@[simp] theorem ShrOp.ofCode_code (o : ShrOp) : ShrOp.ofCode o.code = some o := by cases o <;> rfl

@[simp] theorem ICond.ofCode_code (o : ICond) : ICond.ofCode o.code = some o := by cases o <;> rfl

@[simp] theorem PlogOp.ofCode_code (o : PlogOp) : PlogOp.ofCode o.code = some o := by cases o <;> rfl

@[simp] theorem VoteOp.ofCode_code (o : VoteOp) : VoteOp.ofCode o.code = some o := by cases o <;> rfl

@[simp] theorem ShflOp.ofCode_code (o : ShflOp) : ShflOp.ofCode o.code = some o := by cases o <;> rfl

@[simp] theorem ReduxOp.ofCode_code (o : ReduxOp) : ReduxOp.ofCode o.code = some o := by cases o <;> rfl

@[simp] theorem FCond.ofCode_code (o : FCond) : FCond.ofCode o.code = o := by cases o <;> rfl

@[simp] theorem FReduxOp.ofCode_code (o : FReduxOp) : FReduxOp.ofCode o.code = some o := by cases o <;> rfl

@[simp] theorem AtomOp.ofCode_code (o : AtomOp) : AtomOp.ofCode o.code = some o := by cases o <;> rfl

@[simp] theorem CapMode.ofCode_code (o : CapMode) : CapMode.ofCode o.code = some o := by cases o <;> rfl

@[simp] theorem CapSel.ofCode_code (o : CapSel) : CapSel.ofCode o.code = some o := by cases o <;> rfl

@[simp] theorem CopyMode.ofCode_code (o : CopyMode) : CopyMode.ofCode o.code = some o := by cases o <;> rfl

@[simp] theorem KvSel.ofCode_code (o : KvSel) : KvSel.ofCode o.code = some o := by cases o <;> rfl

@[simp] theorem Scope.ofCode_code (o : Scope) : Scope.ofCode o.code = some o := by cases o <;> rfl

@[simp] theorem Fmt.ofCode_code (o : Fmt) : Fmt.ofCode o.code = some o := by cases o <;> rfl

theorem ShrOp.code_lt (o : ShrOp) : o.code < 32 := by cases o <;> decide

theorem ICond.code_lt (o : ICond) : o.code < 32 := by cases o <;> decide

theorem PlogOp.code_lt (o : PlogOp) : o.code < 32 := by cases o <;> decide

theorem VoteOp.code_lt (o : VoteOp) : o.code < 32 := by cases o <;> decide

theorem ShflOp.code_lt (o : ShflOp) : o.code < 32 := by cases o <;> decide

theorem ReduxOp.code_lt (o : ReduxOp) : o.code < 32 := by cases o <;> decide

theorem FCond.code_lt (o : FCond) : o.code < 8 := by cases o <;> decide

theorem FReduxOp.code_lt (o : FReduxOp) : o.code < 8 := by cases o <;> decide

theorem AtomOp.code_lt (o : AtomOp) : o.code < 16 := by cases o <;> decide

/-- SUB of LOOP.BEG and LOOP.END (R313). -/
theorem loopBeg_bits : ∀ v : BitVec 2, (0#6 ++ v)[4] = false ∧ BitVec.extractLsb' 2 6 (0#6 ++ v) = 0#6
    ∧ BitVec.extractLsb' 0 2 (0#6 ++ v) = v := by decide

theorem loopEnd_bits : ∀ v : BitVec 2, (4#6 ++ v)[4] = true ∧ BitVec.extractLsb' 2 6 (4#6 ++ v) = 4#6
    ∧ BitVec.extractLsb' 0 2 (4#6 ++ v) = v := by decide

/-- SUB of MOVI (R345). -/
theorem movi32_bits : ∀ v, BitVec.extractLsb' 2 5 (intSub ⟨v, .u32⟩ 0) = 0#5
    ∧ Ty.ofCode ((intSub ⟨v, .u32⟩ 0).toNat % 4) = .u32 ∧ (intSub ⟨v, .u32⟩ 0)[7] = v := by decide

theorem movi64_bits : ∀ v, BitVec.extractLsb' 2 5 (intSub ⟨v, .u64⟩ 0) = 0#5
    ∧ Ty.ofCode ((intSub ⟨v, .u64⟩ 0).toNat % 4) = .u64 ∧ (intSub ⟨v, .u64⟩ 0)[7] = v := by decide

/-- A `.s` form requires PG 0111 (R304). -/
theorem scalar_pg {h : Hd} {s : Bool} (hs : h.scalarOk s = true) (e : s = true) : h.pg = 7 := by
  simpa [Hd.scalarOk, e] using hs

/-- The memory format's fields read back (R290). -/
theorem mem_spec (r : Raw) (store : Bool) (k : MemF → Nat → Option Instr) (m : MemF) (o : Nat) (ho : o < 16)
    (hs : r.sub = memSub m o) (hx : r.x = memX m) (hsem : Sem.ofCode store m.sem.code = m.sem)
    (hp : m.s = true → r.pg = 7) : r.mem store k = k m o := by
  obtain ⟨s, sem, cls, scope, size⟩ := m
  have e1 : ∀ (s : Bool) (size : Size), ∀ o < 16,
      (BitVec.ofNat 8 (o * 16 + (if s then 8 else 0) + size.code)).getLsbD 3 = s
        ∧ Size.ofCode ((BitVec.ofNat 8 (o * 16 + (if s then 8 else 0) + size.code)).extractLsb' 0 3).toNat = some size
        ∧ ((BitVec.ofNat 8 (o * 16 + (if s then 8 else 0) + size.code)).extractLsb' 4 4).toNat = o := by
    intro s size; cases s <;> cases size <;> decide
  have e4 : ∀ (sem : Sem) (cls : RClass) (scope : Scope),
      RClass.ofCode ((BitVec.ofNat 8 (sem.code * 32 + cls.code * 8 + scope.code)).extractLsb' 3 2).toNat = some cls
        ∧ Scope.ofCode ((BitVec.ofNat 8 (sem.code * 32 + cls.code * 8 + scope.code)).extractLsb' 0 3).toNat = some scope
        ∧ (BitVec.ofNat 8 (sem.code * 32 + cls.code * 8 + scope.code)).getLsbD 7 = false
        ∧ ((BitVec.ofNat 8 (sem.code * 32 + cls.code * 8 + scope.code)).extractLsb' 5 2).toNat = sem.code := by
    intro sem cls scope; cases sem <;> cases cls <;> cases scope <;> decide
  obtain ⟨a1, a2, a3⟩ := e1 s size o ho
  obtain ⟨b1, b2, b3, b4⟩ := e4 sem cls scope
  simp only at hp hsem
  unfold Raw.mem
  simp only [hs, hx, memSub, memX, a1, a2, a3, b1, b2, b3, b4, hsem]
  cases s
  · simp [need]
  · simp [need, hp rfl]

/-- A copy's fields read back (R311, R400). -/
theorem copyF_spec (r : Raw) (k : CopyF → Option Instr) (f : CopyF) (hs : r.sub = BitVec.ofNat 8 f.mode.code)
    (hx : r.x = copyX f) (he : r.ext = copyExt f) : r.copyF k = k f := by
  obtain ⟨mode, tok, cls, scope, pk, obj⟩ := f
  have e1 : ∀ m : CopyMode, CopyMode.ofCode (BitVec.ofNat 8 m.code).toNat = some m := by intro m; cases m <;> decide
  have e2 : ∀ (cls : RClass) (scope : Scope) (t : BitVec 3),
      RClass.ofCode ((BitVec.ofNat 8 (t.toNat * 32 + cls.code * 8 + scope.code)).extractLsb' 3 2).toNat = some cls
        ∧ Scope.ofCode ((BitVec.ofNat 8 (t.toNat * 32 + cls.code * 8 + scope.code)).extractLsb' 0 3).toNat = some scope
        ∧ (BitVec.ofNat 8 (t.toNat * 32 + cls.code * 8 + scope.code)).extractLsb' 5 3 = t := by
    intro cls scope; cases cls <;> cases scope <;> decide
  obtain ⟨a1, a2, a3⟩ := e2 cls scope tok
  have f1 : (copyExt ⟨mode, tok, cls, scope, pk, obj⟩).extractLsb' 12 20 = 0 := by
    refine (extract_high _ _ _ _ (by decide)).trans ?_
    refine (extract_high _ _ _ _ (by decide)).trans ?_
    rfl
  have f2 : (copyExt ⟨mode, tok, cls, scope, pk, obj⟩).extractLsb' 0 4 = pk :=
    (extract_low _ _ _ _ (by decide)).trans (extract_all _)
  have f3 : (copyExt ⟨mode, tok, cls, scope, pk, obj⟩).extractLsb' 4 8 = obj :=
    (extract_high _ _ _ _ (by decide)).trans ((extract_low _ _ _ _ (by decide)).trans (extract_all _))
  unfold Raw.copyF
  simp only [hs, hx, he, copyX, e1, a1, a2, a3, f1, f2, f3]
  simp [need]

/-- A scope in X reads back. -/
theorem scopeX_spec (r : Raw) (k : Scope → Option Instr) (sc : Scope) (hx : r.x = BitVec.ofNat 8 sc.code) :
    r.scopeX k = k sc := by
  unfold Raw.scopeX
  rw [hx]
  cases sc <;> rfl

/-- What the encoder lays out: a length, zero above it, and fields that decode to the instruction again. -/
def Encodes (i : Instr) : Prop :=
  ∀ r, encodeRaw i = some r →
    (r.len = 0 ∧ r.imm = 0 ∧ r.ext = 0 ∨ r.len = 1 ∧ r.ext = 0 ∨ r.len = 2) ∧ decodeRaw r = .ok i

/-- Decode after encode, from its parts. -/
theorem decode_encode_of (i : Instr) (hf : i ≠ .fill) (he : Encodes i) (n : Nat) (w : BitVec 128)
    (hw : encode i = some (n, w)) : decode w = .ok i ∧ groupBytes (w.extractLsb' 0 32) * 8 = n := by
  have hm : encode i = match encodeRaw i with
      | some r => some (if r.len = 0 then 64 else if r.len = 1 then 96 else 128, r.toBits)
      | none => none := by
    unfold encode
    split
    · exact absurd rfl hf
    · rfl
  rw [hm] at hw
  cases hr : encodeRaw i with
  | none => simp [hr] at hw
  | some r =>
    simp only [hr, Option.some.injEq, Prod.mk.injEq] at hw
    obtain ⟨hn, hw⟩ := hw
    obtain ⟨hl, hd⟩ := he r hr
    subst hw
    have e : (BitVec.extractLsb' 0 32 r.toBits).extractLsb' 0 2 = r.len := by
      rw [← toBits_len r]; apply BitVec.eq_of_getLsbD_eq; intro i hi; simp [BitVec.getLsbD_extractLsb']
    constructor
    · rw [decode_toBits r ?_ ?_ ?_, hd]
      · rcases hl with h | h | h <;> simp [h]
      · intro h0; rcases hl with h | h | h
        · exact h.2
        · rw [h.1] at h0; exact absurd h0 (by decide)
        · rw [h] at h0; exact absurd h0 (by decide)
      · intro h1; rcases hl with h | h | h
        · exact h.2.2
        · exact h.2
        · rw [h] at h1; exact absurd h1 (by decide)
    · rw [← hn]
      unfold groupBytes
      rw [e]
      rcases hl with h | h | h
      · rw [h.1]; rfl
      · rw [h.1]; rfl
      · rw [h]; rfl

end Sys2Proof
end

