-- ==== Sys2Proof/Laws/Exec.lean ====
section
/-! SUPPORT. What the dispatch does with each constructor. -/

namespace Sys2Proof.Machine

open Sys2Proof

set_option Elab.async false

@[simp] theorem exec_moduleReset (imageGood : Bool) (st : State) : exec (.moduleReset imageGood) st = execModuleReset imageGood st :=
  rfl
@[simp] theorem exec_functionReady (bit : ReadyBit) (st : State) : exec (.functionReady bit) st = execFunctionReady bit st :=
  rfl
@[simp] theorem exec_readyLimitExpiry (bit : ReadyBit) (st : State) : exec (.readyLimitExpiry bit) st = execReadyLimitExpiry bit st :=
  rfl
@[simp] theorem exec_heldAccessRelease (op : Nat) (st : State) : exec (.heldAccessRelease op) st = execHeldAccessRelease op st :=
  rfl
@[simp] theorem exec_linkStateChange (bit : ReadyBit) (up : Bool) (st : State) : exec (.linkStateChange bit up) st = execLinkStateChange bit up st :=
  rfl
@[simp] theorem exec_cgofflineWrite (v : W32) (st : State) : exec (.cgofflineWrite v) st = execCgofflineWrite v st :=
  rfl
@[simp] theorem exec_recoveryGo (v : W64) (st : State) : exec (.recoveryGo v) st = execRecoveryGo v st :=
  rfl
@[simp] theorem exec_recoveryVerifyDone (good : Bool) (st : State) : exec (.recoveryVerifyDone good) st = execRecoveryVerifyDone good st :=
  rfl
@[simp] theorem exec_ltolWrite (part : Nat) (v : W32) (st : State) : exec (.ltolWrite part v) st = execLtolWrite part v st :=
  rfl
@[simp] theorem exec_powerStateEntry (die : Nat) (st : State) : exec (.powerStateEntry die) st = execPowerStateEntry die st :=
  rfl
@[simp] theorem exec_wakeEvent (die : Nat) (st : State) : exec (.wakeEvent die) st = execWakeEvent die st :=
  rfl
@[simp] theorem exec_dieExitComplete (die : Nat) (st : State) : exec (.dieExitComplete die) st = execDieExitComplete die st :=
  rfl
@[simp] theorem exec_thermalShutdown (die : Nat) (st : State) : exec (.thermalShutdown die) st = execThermalShutdown die st :=
  rfl
@[simp] theorem exec_remoteRequestArrival (p : Packet) (st : State) : exec (.remoteRequestArrival p) st = execRemoteRequestArrival p st :=
  rfl
@[simp] theorem exec_rtForward (p : Packet) (st : State) : exec (.rtForward p) st = execRtForward p st :=
  rfl
@[simp] theorem exec_remoteResponseArrival (ott : Nat) (r : Reply) (st : State) : exec (.remoteResponseArrival ott r) st = execRemoteResponseArrival ott r st :=
  rfl
@[simp] theorem exec_holdNoticeSend (req : Nat) (st : State) : exec (.holdNoticeSend req) st = execHoldNoticeSend req st :=
  rfl
@[simp] theorem exec_holdNoticeArrival (ott : Nat) (st : State) : exec (.holdNoticeArrival ott) st = execHoldNoticeArrival ott st :=
  rfl
@[simp] theorem exec_remoteRequestTimeout (ott : Nat) (st : State) : exec (.remoteRequestTimeout ott) st = execRemoteRequestTimeout ott st :=
  rfl
@[simp] theorem exec_authTagFailure (port : Nat) (part : Nat) (st : State) : exec (.authTagFailure port part) st = execAuthTagFailure port part st :=
  rfl
@[simp] theorem exec_keyUpdate (session : Nat) (st : State) : exec (.keyUpdate session) st = execKeyUpdate session st :=
  rfl
@[simp] theorem exec_stallResume (weave : Nat) (gid : Nat) (st : State) : exec (.stallResume weave gid) st = execStallResume weave gid st :=
  rfl
@[simp] theorem exec_partitionConfigWrite (offset : Nat) (v : W64) (st : State) : exec (.partitionConfigWrite offset v) st = execPartitionConfigWrite offset v st :=
  rfl
@[simp] theorem exec_qcfgWrite (queue : Nat) (word : Nat) (v : W64) (st : State) : exec (.qcfgWrite queue word v) st = execQcfgWrite queue word v st :=
  rfl
@[simp] theorem exec_doorbell (vf : Nat) (index : Nat) (tail : W32) (st : State) : exec (.doorbell vf index tail) st = execDoorbell vf index tail st :=
  rfl
@[simp] theorem exec_apertureAccess (vf : Nat) (offset : BitVec 32) (write : Bool) (len : Nat) (data : List (BitVec 8)) (st : State) : exec (.apertureAccess vf offset write len data) st = execApertureAccess vf offset write len data st :=
  rfl
@[simp] theorem exec_lockInterfaceRequest (part : Nat) (st : State) : exec (.lockInterfaceRequest part) st = execLockInterfaceRequest part st :=
  rfl
@[simp] theorem exec_lockScrubDone (part : Nat) (st : State) : exec (.lockScrubDone part) st = execLockScrubDone part st :=
  rfl
@[simp] theorem exec_startInterfaceRequest (part : Nat) (st : State) : exec (.startInterfaceRequest part) st = execStartInterfaceRequest part st :=
  rfl
@[simp] theorem exec_stopInterfaceRequest (part : Nat) (st : State) : exec (.stopInterfaceRequest part) st = execStopInterfaceRequest part st :=
  rfl
@[simp] theorem exec_getDeviceInterfaceReport (part : Nat) (st : State) : exec (.getDeviceInterfaceReport part) st = execGetDeviceInterfaceReport part st :=
  rfl
@[simp] theorem exec_getMeasurements (index : Nat) (st : State) : exec (.getMeasurements index) st = execGetMeasurements index st :=
  rfl
@[simp] theorem exec_ideIntegrityFailure (vf : Nat) (st : State) : exec (.ideIntegrityFailure vf) st = execIdeIntegrityFailure vf st :=
  rfl
@[simp] theorem exec_cxlIdeFailure (port : Nat) (st : State) : exec (.cxlIdeFailure port) st = execCxlIdeFailure port st :=
  rfl
@[simp] theorem exec_coreGroupsFreed (part : Nat) (st : State) : exec (.coreGroupsFreed part) st = execCoreGroupsFreed part st :=
  rfl
@[simp] theorem exec_queueRecordTake (part : Nat) (st : State) : exec (.queueRecordTake part) st = execQueueRecordTake part st :=
  rfl
@[simp] theorem exec_dependenceMet (record : Nat) (st : State) : exec (.dependenceMet record) st = execDependenceMet record st :=
  rfl
@[simp] theorem exec_cohortPlacement (part : Nat) (picks : List Nat) (st : State) : exec (.cohortPlacement part picks) st = execCohortPlacement part picks st :=
  rfl
@[simp] theorem exec_preempt (part : Nat) (st : State) : exec (.preempt part) st = execPreempt part st :=
  rfl
@[simp] theorem exec_weaveHalt (weave : Nat) (gid : Nat) (st : State) : exec (.weaveHalt weave gid) st = execWeaveHalt weave gid st :=
  rfl
@[simp] theorem exec_cohortQuiesced (cohort : Nat) (st : State) : exec (.cohortQuiesced cohort) st = execCohortQuiesced cohort st :=
  rfl
@[simp] theorem exec_saveComplete (cohort : Nat) (st : State) : exec (.saveComplete cohort) st = execSaveComplete cohort st :=
  rfl
@[simp] theorem exec_cancelDrained (part : Nat) (scope : Nat) (st : State) : exec (.cancelDrained part scope) st = execCancelDrained part scope st :=
  rfl
@[simp] theorem exec_weaveSlotRelease (weave : Nat) (st : State) : exec (.weaveSlotRelease weave) st = execWeaveSlotRelease weave st :=
  rfl
@[simp] theorem exec_teamEnd (team : Nat) (st : State) : exec (.teamEnd team) st = execTeamEnd team st :=
  rfl
@[simp] theorem exec_fieldEnd (field : Nat) (st : State) : exec (.fieldEnd field) st = execFieldEnd field st :=
  rfl
@[simp] theorem exec_voidWrite (id : Nat) (st : State) : exec (.voidWrite id) st = execVoidWrite id st :=
  rfl
@[simp] theorem exec_faultPost (id : Nat) (st : State) : exec (.faultPost id) st = execFaultPost id st :=
  rfl
@[simp] theorem exec_faultRetry (id : Nat) (st : State) : exec (.faultRetry id) st = execFaultRetry id st :=
  rfl
@[simp] theorem exec_faultFail (id : Nat) (st : State) : exec (.faultFail id) st = execFaultFail id st :=
  rfl
@[simp] theorem exec_faultTimeout (id : Nat) (st : State) : exec (.faultTimeout id) st = execFaultTimeout id st :=
  rfl
@[simp] theorem exec_shootgoWrite (part : Nat) (v : W64) (st : State) : exec (.shootgoWrite part v) st = execShootgoWrite part v st :=
  rfl
@[simp] theorem exec_shootdownDone (part : Nat) (st : State) : exec (.shootdownDone part) st = execShootdownDone part st :=
  rfl
@[simp] theorem exec_copyAccept (core : Nat) (st : State) : exec (.copyAccept core) st = execCopyAccept core st :=
  rfl
@[simp] theorem exec_copyComplete (id : Nat) (peerData : Unit) (st : State) : exec (.copyComplete id peerData) st = execCopyComplete id peerData st :=
  rfl
@[simp] theorem exec_copyFail (id : Nat) (err : CopyErr) (st : State) : exec (.copyFail id err) st = execCopyFail id err st :=
  rfl
@[simp] theorem exec_accessComplete (op : Nat) (st : State) : exec (.accessComplete op) st = execAccessComplete op st :=
  rfl
@[simp] theorem exec_uncorrectableMemoryError (pa : Nat) (st : State) : exec (.uncorrectableMemoryError pa) st = execUncorrectableMemoryError pa st :=
  rfl
@[simp] theorem exec_scratchEcc (team : Nat) (st : State) : exec (.scratchEcc team) st = execScratchEcc team st :=
  rfl
@[simp] theorem exec_kvstSlotWrite (id : Nat) (st : State) : exec (.kvstSlotWrite id) st = execKvstSlotWrite id st :=
  rfl
@[simp] theorem exec_kvpubStep (id : Nat) (st : State) : exec (.kvpubStep id) st = execKvpubStep id st :=
  rfl
@[simp] theorem exec_poolLend (part : Nat) (die : Nat) (pool : Nat) (req : Option (Nat × Nat)) (offer : List W64) (st : State) : exec (.poolLend part die pool req offer) st = execPoolLend part die pool req offer st :=
  rfl
@[simp] theorem exec_poolCtrlWrite (part : Nat) (die : Nat) (pool : Nat) (v : W64) (st : State) : exec (.poolCtrlWrite part die pool v) st = execPoolCtrlWrite part die pool v st :=
  rfl
@[simp] theorem exec_poolApply (part : Nat) (die : Nat) (pool : Nat) (st : State) : exec (.poolApply part die pool) st = execPoolApply part die pool st :=
  rfl
@[simp] theorem exec_saffronEnqueue (req : Nat) (st : State) : exec (.saffronEnqueue req) st = execSaffronEnqueue req st :=
  rfl
@[simp] theorem exec_batchDeadline (batch : Nat) (st : State) : exec (.batchDeadline batch) st = execBatchDeadline batch st :=
  rfl
@[simp] theorem exec_batchDispatch (cg : Nat) (st : State) : exec (.batchDispatch cg) st = execBatchDispatch cg st :=
  rfl
@[simp] theorem exec_budgetRefill (cg : Nat) (units : W32) (st : State) : exec (.budgetRefill cg units) st = execBudgetRefill cg units st :=
  rfl
@[simp] theorem exec_batchComplete (batch : Nat) (peerData : Unit) (st : State) : exec (.batchComplete batch peerData) st = execBatchComplete batch peerData st :=
  rfl
@[simp] theorem exec_mldmaskComplete (id : Nat) (peerData : Unit) (st : State) : exec (.mldmaskComplete id peerData) st = execMldmaskComplete id peerData st :=
  rfl
@[simp] theorem exec_waittWake (weave : Nat) (gid : Nat) (st : State) : exec (.waittWake weave gid) st = execWaittWake weave gid st :=
  rfl
@[simp] theorem exec_nop (h : Hd) (st : State) : exec (.nop h) st = execNop h st :=
  rfl
@[simp] theorem exec_run (wait : BitVec 12) (a : Option (BitVec 4)) (b : Option (BitVec 4)) (st : State) : exec (.run wait a b) st = execRun wait a b st :=
  rfl
@[simp] theorem exec_bra (h : Hd) (imm : W32) (st : State) : exec (.bra h imm) st = execBra h imm st :=
  rfl
@[simp] theorem exec_call (h : Hd) (imm : W32) (st : State) : exec (.call h imm) st = execCall h imm st :=
  rfl
@[simp] theorem exec_brx (h : Hd) (a : Reg) (st : State) : exec (.brx h a) st = execBrx h a st :=
  rfl
@[simp] theorem exec_ret (h : Hd) (st : State) : exec (.ret h) st = execRet h st :=
  rfl
@[simp] theorem exec_exit (h : Hd) (st : State) : exec (.exit h) st = execExit h st :=
  rfl
@[simp] theorem exec_loopBeg (h : Hd) (lvl : BitVec 2) (a : Reg) (endOff : BitVec 16) (startOff : BitVec 16) (st : State) : exec (.loopBeg h lvl a endOff startOff) st = execLoopBeg h lvl a endOff startOff st :=
  rfl
@[simp] theorem exec_loopEnd (h : Hd) (lvl : BitVec 2) (st : State) : exec (.loopEnd h lvl) st = execLoopEnd h lvl st :=
  rfl
@[simp] theorem exec_lbrk (h : Hd) (lvl : BitVec 2) (st : State) : exec (.lbrk h lvl) st = execLbrk h lvl st :=
  rfl
@[simp] theorem exec_waitt (h : Hd) (a : Reg) (st : State) : exec (.waitt h a) st = execWaitt h a st :=
  rfl
@[simp] theorem exec_kpoint (h : Hd) (st : State) : exec (.kpoint h) st = execKpoint h st :=
  rfl
@[simp] theorem exec_trap (h : Hd) (imm : BitVec 16) (st : State) : exec (.trap h imm) st = execTrap h imm st :=
  rfl
@[simp] theorem exec_brk (h : Hd) (imm : BitVec 16) (st : State) : exec (.brk h imm) st = execBrk h imm st :=
  rfl
@[simp] theorem exec_sreg (h : Hd) (num : BitVec 4) (d : Reg) (st : State) : exec (.sreg h num d) st = execSreg h num d st :=
  rfl
@[simp] theorem exec_swreg (h : Hd) (a : Reg) (st : State) : exec (.swreg h a) st = execSwreg h a st :=
  rfl
@[simp] theorem exec_spawn (h : Hd) (d : Reg) (a : Reg) (b : Reg) (imm : W32) (inherit : Bool) (st : State) : exec (.spawn h d a b imm inherit) st = execSpawn h d a b imm inherit st :=
  rfl
@[simp] theorem exec_cscope (h : Hd) (flag : Bool) (d : Reg) (a : Reg) (b : Reg) (st : State) : exec (.cscope h flag d a b) st = execCscope h flag d a b st :=
  rfl
@[simp] theorem exec_cancel (h : Hd) (d : Reg) (a : Reg) (st : State) : exec (.cancel h d a) st = execCancel h d a st :=
  rfl
@[simp] theorem exec_cwait (h : Hd) (d : Reg) (a : Reg) (st : State) : exec (.cwait h d a) st = execCwait h d a st :=
  rfl
@[simp] theorem exec_iadd (h : Hd) (f : IntF) (d : Reg) (a : Reg) (b : Reg) (st : State) : exec (.iadd h f d a b) st = execIadd h f d a b st :=
  rfl
@[simp] theorem exec_isub (h : Hd) (f : IntF) (d : Reg) (a : Reg) (b : Reg) (st : State) : exec (.isub h f d a b) st = execIsub h f d a b st :=
  rfl
@[simp] theorem exec_imul (h : Hd) (f : IntF) (d : Reg) (a : Reg) (b : Reg) (st : State) : exec (.imul h f d a b) st = execImul h f d a b st :=
  rfl
@[simp] theorem exec_imulh (h : Hd) (f : IntF) (d : Reg) (a : Reg) (b : Reg) (st : State) : exec (.imulh h f d a b) st = execImulh h f d a b st :=
  rfl
@[simp] theorem exec_imad (h : Hd) (f : IntF) (d : Reg) (a : Reg) (b : Reg) (c : Reg) (st : State) : exec (.imad h f d a b c) st = execImad h f d a b c st :=
  rfl
@[simp] theorem exec_imin (h : Hd) (f : IntF) (d : Reg) (a : Reg) (b : Reg) (st : State) : exec (.imin h f d a b) st = execImin h f d a b st :=
  rfl
@[simp] theorem exec_imax (h : Hd) (f : IntF) (d : Reg) (a : Reg) (b : Reg) (st : State) : exec (.imax h f d a b) st = execImax h f d a b st :=
  rfl
@[simp] theorem exec_iabs (h : Hd) (f : IntF) (d : Reg) (a : Reg) (st : State) : exec (.iabs h f d a) st = execIabs h f d a st :=
  rfl
@[simp] theorem exec_and (h : Hd) (f : IntF) (d : Reg) (a : Reg) (b : Reg) (st : State) : exec (.and h f d a b) st = execAnd h f d a b st :=
  rfl
@[simp] theorem exec_or (h : Hd) (f : IntF) (d : Reg) (a : Reg) (b : Reg) (st : State) : exec (.or h f d a b) st = execOr h f d a b st :=
  rfl
@[simp] theorem exec_xor (h : Hd) (f : IntF) (d : Reg) (a : Reg) (b : Reg) (st : State) : exec (.xor h f d a b) st = execXor h f d a b st :=
  rfl
@[simp] theorem exec_andn (h : Hd) (f : IntF) (d : Reg) (a : Reg) (b : Reg) (st : State) : exec (.andn h f d a b) st = execAndn h f d a b st :=
  rfl
@[simp] theorem exec_shl (h : Hd) (f : IntF) (d : Reg) (a : Reg) (b : Reg) (st : State) : exec (.shl h f d a b) st = execShl h f d a b st :=
  rfl
@[simp] theorem exec_shr (h : Hd) (f : IntF) (op : ShrOp) (d : Reg) (a : Reg) (b : Reg) (c : Reg) (st : State) : exec (.shr h f op d a b c) st = execShr h f op d a b c st :=
  rfl
@[simp] theorem exec_rol (h : Hd) (f : IntF) (d : Reg) (a : Reg) (b : Reg) (st : State) : exec (.rol h f d a b) st = execRol h f d a b st :=
  rfl
@[simp] theorem exec_bfe (h : Hd) (f : IntF) (d : Reg) (a : Reg) (b : Reg) (st : State) : exec (.bfe h f d a b) st = execBfe h f d a b st :=
  rfl
@[simp] theorem exec_bfi (h : Hd) (f : IntF) (d : Reg) (a : Reg) (b : Reg) (c : Reg) (st : State) : exec (.bfi h f d a b c) st = execBfi h f d a b c st :=
  rfl
@[simp] theorem exec_popc (h : Hd) (f : IntF) (d : Reg) (a : Reg) (st : State) : exec (.popc h f d a) st = execPopc h f d a st :=
  rfl
@[simp] theorem exec_clz (h : Hd) (f : IntF) (d : Reg) (a : Reg) (st : State) : exec (.clz h f d a) st = execClz h f d a st :=
  rfl
@[simp] theorem exec_brev (h : Hd) (f : IntF) (d : Reg) (a : Reg) (st : State) : exec (.brev h f d a) st = execBrev h f d a st :=
  rfl
@[simp] theorem exec_bswz (h : Hd) (s : Bool) (d : Reg) (a : Reg) (b : Reg) (c : Reg) (st : State) : exec (.bswz h s d a b c) st = execBswz h s d a b c st :=
  rfl
@[simp] theorem exec_isetp (h : Hd) (ty : Ty) (op : ICond) (d : Reg) (a : Reg) (b : Reg) (st : State) : exec (.isetp h ty op d a b) st = execIsetp h ty op d a b st :=
  rfl
@[simp] theorem exec_sel (h : Hd) (ty : Ty) (d : Reg) (a : Reg) (b : Reg) (c : Reg) (st : State) : exec (.sel h ty d a b c) st = execSel h ty d a b c st :=
  rfl
@[simp] theorem exec_plog (h : Hd) (op : PlogOp) (d : Reg) (a : Reg) (b : Reg) (st : State) : exec (.plog h op d a b) st = execPlog h op d a b st :=
  rfl
@[simp] theorem exec_mov (h : Hd) (f : IntF) (d : Reg) (a : Reg) (st : State) : exec (.mov h f d a) st = execMov h f d a st :=
  rfl
@[simp] theorem exec_movi32 (h : Hd) (s : Bool) (d : Reg) (imm : W32) (st : State) : exec (.movi32 h s d imm) st = execMovi32 h s d imm st :=
  rfl
@[simp] theorem exec_movi64 (h : Hd) (s : Bool) (d : Reg) (imm : W64) (st : State) : exec (.movi64 h s d imm) st = execMovi64 h s d imm st :=
  rfl
@[simp] theorem exec_lea (h : Hd) (s : Bool) (shift : Fin 5) (d : Reg) (a : Reg) (b : Reg) (st : State) : exec (.lea h s shift d a b) st = execLea h s shift d a b st :=
  rfl
@[simp] theorem exec_ballot (h : Hd) (d : Reg) (a : Reg) (st : State) : exec (.ballot h d a) st = execBallot h d a st :=
  rfl
@[simp] theorem exec_vote (h : Hd) (op : VoteOp) (d : Reg) (a : Reg) (st : State) : exec (.vote h op d a) st = execVote h op d a st :=
  rfl
@[simp] theorem exec_shfl (h : Hd) (ty : Ty) (op : ShflOp) (d : Reg) (a : Reg) (b : Reg) (st : State) : exec (.shfl h ty op d a b) st = execShfl h ty op d a b st :=
  rfl
@[simp] theorem exec_iredux (h : Hd) (ty : Ty) (op : ReduxOp) (d : Reg) (a : Reg) (st : State) : exec (.iredux h ty op d a) st = execIredux h ty op d a st :=
  rfl
@[simp] theorem exec_fadd (h : Hd) (s : Bool) (fmt : Fmt) (d : Reg) (a : Reg) (b : Reg) (st : State) : exec (.fadd h s fmt d a b) st = execFadd h s fmt d a b st :=
  rfl
@[simp] theorem exec_fmul (h : Hd) (s : Bool) (fmt : Fmt) (d : Reg) (a : Reg) (b : Reg) (st : State) : exec (.fmul h s fmt d a b) st = execFmul h s fmt d a b st :=
  rfl
@[simp] theorem exec_ffma (h : Hd) (s : Bool) (fmt : Fmt) (d : Reg) (a : Reg) (b : Reg) (c : Reg) (st : State) : exec (.ffma h s fmt d a b c) st = execFfma h s fmt d a b c st :=
  rfl
@[simp] theorem exec_fmin (h : Hd) (s : Bool) (fmt : Fmt) (d : Reg) (a : Reg) (b : Reg) (st : State) : exec (.fmin h s fmt d a b) st = execFmin h s fmt d a b st :=
  rfl
@[simp] theorem exec_fmax (h : Hd) (s : Bool) (fmt : Fmt) (d : Reg) (a : Reg) (b : Reg) (st : State) : exec (.fmax h s fmt d a b) st = execFmax h s fmt d a b st :=
  rfl
@[simp] theorem exec_fsetp (h : Hd) (fmt : Fmt) (op : FCond) (d : Reg) (a : Reg) (b : Reg) (st : State) : exec (.fsetp h fmt op d a b) st = execFsetp h fmt op d a b st :=
  rfl
@[simp] theorem exec_fcvt (h : Hd) (s : Bool) (tgt : Fmt) (src : Fmt) (mid : Option Fmt) (d : Reg) (a : Reg) (st : State) : exec (.fcvt h s tgt src mid d a) st = execFcvt h s tgt src mid d a st :=
  rfl
@[simp] theorem exec_ftoi (h : Hd) (s : Bool) (tgt : Fmt) (src : Fmt) (d : Reg) (a : Reg) (st : State) : exec (.ftoi h s tgt src d a) st = execFtoi h s tgt src d a st :=
  rfl
@[simp] theorem exec_itof (h : Hd) (s : Bool) (tgt : Fmt) (src : Fmt) (d : Reg) (a : Reg) (st : State) : exec (.itof h s tgt src d a) st = execItof h s tgt src d a st :=
  rfl
@[simp] theorem exec_frcp (h : Hd) (s : Bool) (d : Reg) (a : Reg) (st : State) : exec (.frcp h s d a) st = execFrcp h s d a st :=
  rfl
@[simp] theorem exec_frsq (h : Hd) (s : Bool) (d : Reg) (a : Reg) (st : State) : exec (.frsq h s d a) st = execFrsq h s d a st :=
  rfl
@[simp] theorem exec_fexp2 (h : Hd) (s : Bool) (d : Reg) (a : Reg) (st : State) : exec (.fexp2 h s d a) st = execFexp2 h s d a st :=
  rfl
@[simp] theorem exec_flog2 (h : Hd) (s : Bool) (d : Reg) (a : Reg) (st : State) : exec (.flog2 h s d a) st = execFlog2 h s d a st :=
  rfl
@[simp] theorem exec_ftrig (h : Hd) (s : Bool) (cos : Bool) (d : Reg) (a : Reg) (st : State) : exec (.ftrig h s cos d a) st = execFtrig h s cos d a st :=
  rfl
@[simp] theorem exec_fargmax (h : Hd) (fmt : Fmt) (d : Reg) (a : Reg) (st : State) : exec (.fargmax h fmt d a) st = execFargmax h fmt d a st :=
  rfl
@[simp] theorem exec_vdot4 (h : Hd) (s : Bool) (fmt : Fmt) (d : Reg) (a : Reg) (b : Reg) (c : Reg) (st : State) : exec (.vdot4 h s fmt d a b c) st = execVdot4 h s fmt d a b c st :=
  rfl
@[simp] theorem exec_vhad (h : Hd) (wide : Bool) (d : Reg) (a : Reg) (st : State) : exec (.vhad h wide d a) st = execVhad h wide d a st :=
  rfl
@[simp] theorem exec_fredux (h : Hd) (op : FReduxOp) (d : Reg) (a : Reg) (st : State) : exec (.fredux h op d a) st = execFredux h op d a st :=
  rfl
@[simp] theorem exec_fpack (h : Hd) (s : Bool) (fmt : Fmt) (d : Reg) (a : Reg) (b : Reg) (st : State) : exec (.fpack h s fmt d a b) st = execFpack h s fmt d a b st :=
  rfl
@[simp] theorem exec_funpk (h : Hd) (s : Bool) (fmt : Fmt) (d : Reg) (a : Reg) (st : State) : exec (.funpk h s fmt d a) st = execFunpk h s fmt d a st :=
  rfl
@[simp] theorem exec_fkey (h : Hd) (s : Bool) (desc : Bool) (fmt : Fmt) (d : Reg) (a : Reg) (st : State) : exec (.fkey h s desc fmt d a) st = execFkey h s desc fmt d a st :=
  rfl
@[simp] theorem exec_fclass (h : Hd) (s : Bool) (fmt : Fmt) (d : Reg) (a : Reg) (st : State) : exec (.fclass h s fmt d a) st = execFclass h s fmt d a st :=
  rfl
@[simp] theorem exec_hash64 (h : Hd) (s : Bool) (d : Reg) (a : Reg) (b : Reg) (c : Reg) (st : State) : exec (.hash64 h s d a b c) st = execHash64 h s d a b c st :=
  rfl
@[simp] theorem exec_gumb (h : Hd) (s : Bool) (d : Reg) (a : Reg) (b : Reg) (c : Reg) (st : State) : exec (.gumb h s d a b c) st = execGumb h s d a b c st :=
  rfl
@[simp] theorem exec_ld (h : Hd) (m : MemF) (d : Reg) (a : Reg) (b : Reg) (imm : W32) (st : State) : exec (.ld h m d a b imm) st = execLd h m d a b imm st :=
  rfl
@[simp] theorem exec_st (h : Hd) (m : MemF) (a : Reg) (b : Reg) (c : Reg) (imm : W32) (st : State) : exec (.st h m a b c imm) st = execSt h m a b c imm st :=
  rfl
@[simp] theorem exec_atom (h : Hd) (m : MemF) (op : AtomOp) (d : Reg) (a : Reg) (b : Reg) (c : Reg) (imm : W32) (st : State) : exec (.atom h m op d a b c imm) st = execAtom h m op d a b c imm st :=
  rfl
@[simp] theorem exec_red (h : Hd) (m : MemF) (op : AtomOp) (a : Reg) (b : Reg) (c : Reg) (imm : W32) (st : State) : exec (.red h m op a b c imm) st = execRed h m op a b c imm st :=
  rfl
@[simp] theorem exec_stf (h : Hd) (m : MemF) (a : Reg) (b : Reg) (c : Reg) (imm : W32) (fk : Reg) (foff : BitVec 24) (st : State) : exec (.stf h m a b c imm fk foff) st = execStf h m a b c imm fk foff st :=
  rfl
@[simp] theorem exec_fence (h : Hd) (scope : Scope) (classes : BitVec 3) (st : State) : exec (.fence h scope classes) st = execFence h scope classes st :=
  rfl
@[simp] theorem exec_pfence (h : Hd) (scope : Scope) (wpath : Path) (rpath : Path) (st : State) : exec (.pfence h scope wpath rpath) st = execPfence h scope wpath rpath st :=
  rfl
@[simp] theorem exec_vcompst (h : Hd) (m : MemF) (a : Reg) (b : Reg) (c : Reg) (imm : W32) (st : State) : exec (.vcompst h m a b c imm) st = execVcompst h m a b c imm st :=
  rfl
@[simp] theorem exec_vexpld (h : Hd) (m : MemF) (d : Reg) (a : Reg) (b : Reg) (imm : W32) (st : State) : exec (.vexpld h m d a b imm) st = execVexpld h m d a b imm st :=
  rfl
@[simp] theorem exec_capnew (h : Hd) (mode : CapMode) (space : BitVec 4) (mask : BitVec 8) (d : Reg) (a : Reg) (b : Reg) (c : Reg) (st : State) : exec (.capnew h mode space mask d a b c) st = execCapnew h mode space mask d a b c st :=
  rfl
@[simp] theorem exec_capget (h : Hd) (sel : CapSel) (d : Reg) (a : Reg) (st : State) : exec (.capget h sel d a) st = execCapget h sel d a st :=
  rfl
@[simp] theorem exec_capchk (h : Hd) (mask : BitVec 8) (d : Reg) (a : Reg) (b : Reg) (c : Reg) (st : State) : exec (.capchk h mask d a b c) st = execCapchk h mask d a b c st :=
  rfl
@[simp] theorem exec_stag (h : Hd) (d : Reg) (a : Reg) (st : State) : exec (.stag h d a) st = execStag h d a st :=
  rfl
@[simp] theorem exec_stagset (h : Hd) (d : Reg) (a : Reg) (b : Reg) (st : State) : exec (.stagset h d a b) st = execStagset h d a b st :=
  rfl
@[simp] theorem exec_staginv (h : Hd) (a : Reg) (st : State) : exec (.staginv h a) st = execStaginv h a st :=
  rfl
@[simp] theorem exec_copy (h : Hd) (f : CopyF) (d : Reg) (a : Reg) (b : Reg) (c : Reg) (st : State) : exec (.copy h f d a b c) st = execCopy h f d a b c st :=
  rfl
@[simp] theorem exec_copym (h : Hd) (f : CopyF) (d : Reg) (a : Reg) (b : Reg) (c : Reg) (tmask : BitVec 8) (st : State) : exec (.copym h f d a b c tmask) st = execCopym h f d a b c tmask st :=
  rfl
@[simp] theorem exec_copysel (h : Hd) (f : CopyF) (d : Reg) (a : Reg) (b : Reg) (c : Reg) (st : State) : exec (.copysel h f d a b c) st = execCopysel h f d a b c st :=
  rfl
@[simp] theorem exec_phinit (h : Hd) (bytes : Bool) (a : Reg) (b : Reg) (c : Reg) (st : State) : exec (.phinit h bytes a b c) st = execPhinit h bytes a b c st :=
  rfl
@[simp] theorem exec_pharr (h : Hd) (a : Reg) (b : Reg) (c : Reg) (st : State) : exec (.pharr h a b c) st = execPharr h a b c st :=
  rfl
@[simp] theorem exec_phwait (h : Hd) (d : Reg) (a : Reg) (b : Reg) (c : Reg) (st : State) : exec (.phwait h d a b c) st = execPhwait h d a b c st :=
  rfl
@[simp] theorem exec_phtest (h : Hd) (d : Reg) (a : Reg) (b : Reg) (c : Reg) (st : State) : exec (.phtest h d a b c) st = execPhtest h d a b c st :=
  rfl
@[simp] theorem exec_bar (h : Hd) (d : Reg) (a : Reg) (b : Reg) (st : State) : exec (.bar h d a b) st = execBar h d a b st :=
  rfl
@[simp] theorem exec_apos (h : Hd) (d : Reg) (a : Reg) (b : Reg) (c : Reg) (st : State) : exec (.apos h d a b c) st = execApos h d a b c st :=
  rfl
@[simp] theorem exec_kvst (h : Hd) (ksrc : Fmt) (vsrc : Fmt) (a : Reg) (b : Reg) (c : Reg) (imm : W32) (st : State) : exec (.kvst h ksrc vsrc a b c imm) st = execKvst h ksrc vsrc a b c imm st :=
  rfl
@[simp] theorem exec_kvpub (h : Hd) (void : Bool) (scope : Scope) (a : Reg) (b : Reg) (c : Reg) (st : State) : exec (.kvpub h void scope a b c) st = execKvpub h void scope a b c st :=
  rfl
@[simp] theorem exec_kvacq (h : Hd) (scope : Scope) (d : Reg) (a : Reg) (b : Reg) (st : State) : exec (.kvacq h scope d a b) st = execKvacq h scope d a b st :=
  rfl
@[simp] theorem exec_kvld (h : Hd) (v : Bool) (head : BitVec 8) (layer : BitVec 8) (elem : BitVec 16) (d : Reg) (a : Reg) (b : Reg) (c : Reg) (st : State) : exec (.kvld h v head layer elem d a b c) st = execKvld h v head layer elem d a b c st :=
  rfl
@[simp] theorem exec_kvfork (h : Hd) (scope : Scope) (d : Reg) (a : Reg) (c : Reg) (st : State) : exec (.kvfork h scope d a c) st = execKvfork h scope d a c st :=
  rfl
@[simp] theorem exec_kvrel (h : Hd) (d : Reg) (a : Reg) (st : State) : exec (.kvrel h d a) st = execKvrel h d a st :=
  rfl
@[simp] theorem exec_qrot (h : Hd) (fmt : Fmt) (d : Reg) (a : Reg) (b : Reg) (c : Reg) (st : State) : exec (.qrot h fmt d a b c) st = execQrot h fmt d a b c st :=
  rfl
@[simp] theorem exec_kvstat (h : Hd) (sel : KvSel) (d : Reg) (a : Reg) (b : Reg) (st : State) : exec (.kvstat h sel d a b) st = execKvstat h sel d a b st :=
  rfl
@[simp] theorem exec_mdecl (h : Hd) (d : Reg) (a : Reg) (st : State) : exec (.mdecl h d a) st = execMdecl h d a st :=
  rfl
@[simp] theorem exec_msign (h : Hd) (attn : Bool) (d : Reg) (b : Reg) (st : State) : exec (.msign h attn d b) st = execMsign h attn d b st :=
  rfl
@[simp] theorem exec_mldmask (h : Hd) (d : Reg) (a : Reg) (b : Reg) (st : State) : exec (.mldmask h d a b) st = execMldmask h d a b st :=
  rfl
@[simp] theorem exec_mzero (h : Hd) (mask : BitVec 16) (st : State) : exec (.mzero h mask) st = execMzero h mask st :=
  rfl
@[simp] theorem exec_mbudget (h : Hd) (a : Reg) (st : State) : exec (.mbudget h a) st = execMbudget h a st :=
  rfl
@[simp] theorem exec_mstat (h : Hd) (sel : BitVec 8) (d : Reg) (a : Reg) (st : State) : exec (.mstat h sel d a) st = execMstat h sel d a st :=
  rfl
@[simp] theorem exec_fill (st : State) : exec (.fill  ) st = execFill st :=
  rfl
@[simp] theorem exec_ideKm (fn : Nat) (st : State) : exec (.ideKm fn) st = execIdeKm fn st :=
  rfl
@[simp] theorem exec_securedSession (up : Bool) (st : State) : exec (.securedSession up) st = execSecuredSession up st :=
  rfl
@[simp] theorem exec_kvPathStep (id : Nat) (peerData : Unit) (st : State) : exec (.kvPathStep id peerData) st = execKvPathStep id peerData st :=
  rfl
@[simp] theorem exec_scopeTableOperation (id : Nat) (st : State) : exec (.scopeTableOperation id) st = execScopeTableOperation id st :=
  rfl

end Sys2Proof.Machine
end

