-- ==== Sys2Proof/Laws/State.lean ====
section
/-! SUPPORT. One lemma for each field of the state under each of its named updates. -/

namespace Sys2Proof.Machine

open Sys2Proof

set_option Elab.async false

variable (s : State)

@[simp] theorem State.setPart_clock (p : Nat) (x : Partition) : (s.setPart p x).clock = s.clock := rfl
@[simp] theorem State.setPart_agenda (p : Nat) (x : Partition) : (s.setPart p x).agenda = s.agenda := rfl
@[simp] theorem State.setPart_nextId (p : Nat) (x : Partition) : (s.setPart p x).nextId = s.nextId := rfl
@[simp] theorem State.setPart_freeIdx (p : Nat) (x : Partition) : (s.setPart p x).freeIdx = s.freeIdx := rfl
@[simp] theorem State.setPart_cur (p : Nat) (x : Partition) : (s.setPart p x).cur = s.cur := rfl
@[simp] theorem State.setPart_physNum (p : Nat) (x : Partition) : (s.setPart p x).physNum = s.physNum := rfl
@[simp] theorem State.setPart_hd (p : Nat) (x : Partition) : (s.setPart p x).hd = s.hd := rfl
@[simp] theorem State.setPart_dies (p : Nat) (x : Partition) : (s.setPart p x).dies = s.dies := rfl
@[simp] theorem State.setPart_parts (p : Nat) (x : Partition) : (s.setPart p x).parts = Tbl.set s.parts Partition.initial p x := rfl
@[simp] theorem State.setPart_queues (p : Nat) (x : Partition) : (s.setPart p x).queues = s.queues := rfl
@[simp] theorem State.setPart_mem (p : Nat) (x : Partition) : (s.setPart p x).mem = s.mem := rfl
@[simp] theorem State.setPart_tags (p : Nat) (x : Partition) : (s.setPart p x).tags = s.tags := rfl
@[simp] theorem State.setPart_rel (p : Nat) (x : Partition) : (s.setPart p x).rel = s.rel := rfl
@[simp] theorem State.setPart_bad (p : Nat) (x : Partition) : (s.setPart p x).bad = s.bad := rfl
@[simp] theorem State.setPart_tlb (p : Nat) (x : Partition) : (s.setPart p x).tlb = s.tlb := rfl
@[simp] theorem State.setPart_staging (p : Nat) (x : Partition) : (s.setPart p x).staging = s.staging := rfl
@[simp] theorem State.setPart_pages (p : Nat) (x : Partition) : (s.setPart p x).pages = s.pages := rfl
@[simp] theorem State.setPart_pubs (p : Nat) (x : Partition) : (s.setPart p x).pubs = s.pubs := rfl
@[simp] theorem State.setPart_ctxs (p : Nat) (x : Partition) : (s.setPart p x).ctxs = s.ctxs := rfl
@[simp] theorem State.setPart_last (p : Nat) (x : Partition) : (s.setPart p x).last = s.last := rfl
@[simp] theorem State.setPart_keyed (p : Nat) (x : Partition) : (s.setPart p x).keyed = s.keyed := rfl
@[simp] theorem State.setPart_icache (p : Nat) (x : Partition) : (s.setPart p x).icache = s.icache := rfl
@[simp] theorem State.setPart_legs (p : Nat) (x : Partition) : (s.setPart p x).legs = s.legs := rfl
@[simp] theorem State.setPart_rtSeq (p : Nat) (x : Partition) : (s.setPart p x).rtSeq = s.rtSeq := rfl
@[simp] theorem State.setPart_pools (p : Nat) (x : Partition) : (s.setPart p x).pools = s.pools := rfl
@[simp] theorem State.setPart_buckets (p : Nat) (x : Partition) : (s.setPart p x).buckets = s.buckets := rfl
@[simp] theorem State.setPart_records (p : Nat) (x : Partition) : (s.setPart p x).records = s.records := rfl
@[simp] theorem State.setPart_fields (p : Nat) (x : Partition) : (s.setPart p x).fields = s.fields := rfl
@[simp] theorem State.setPart_cohorts (p : Nat) (x : Partition) : (s.setPart p x).cohorts = s.cohorts := rfl
@[simp] theorem State.setPart_teams (p : Nat) (x : Partition) : (s.setPart p x).teams = s.teams := rfl
@[simp] theorem State.setPart_weaves (p : Nat) (x : Partition) : (s.setPart p x).weaves = s.weaves := rfl
@[simp] theorem State.setPart_lsOps (p : Nat) (x : Partition) : (s.setPart p x).lsOps = s.lsOps := rfl
@[simp] theorem State.setPart_ott (p : Nat) (x : Partition) : (s.setPart p x).ott = s.ott := rfl
@[simp] theorem State.setPart_phOps (p : Nat) (x : Partition) : (s.setPart p x).phOps = s.phOps := rfl
@[simp] theorem State.setPart_copies (p : Nat) (x : Partition) : (s.setPart p x).copies = s.copies := rfl
@[simp] theorem State.setPart_kvOps (p : Nat) (x : Partition) : (s.setPart p x).kvOps = s.kvOps := rfl
@[simp] theorem State.setPart_voids (p : Nat) (x : Partition) : (s.setPart p x).voids = s.voids := rfl
@[simp] theorem State.setPart_scopeOps (p : Nat) (x : Partition) : (s.setPart p x).scopeOps = s.scopeOps := rfl
@[simp] theorem State.setPart_cancels (p : Nat) (x : Partition) : (s.setPart p x).cancels = s.cancels := rfl
@[simp] theorem State.setPart_maskLoads (p : Nat) (x : Partition) : (s.setPart p x).maskLoads = s.maskLoads := rfl
@[simp] theorem State.setPart_mxReqs (p : Nat) (x : Partition) : (s.setPart p x).mxReqs = s.mxReqs := rfl
@[simp] theorem State.setPart_batches (p : Nat) (x : Partition) : (s.setPart p x).batches = s.batches := rfl
@[simp] theorem State.setPart_faults (p : Nat) (x : Partition) : (s.setPart p x).faults = s.faults := rfl
@[simp] theorem State.setPart_shoots (p : Nat) (x : Partition) : (s.setPart p x).shoots = s.shoots := rfl
@[simp] theorem State.setPart_devWrites (p : Nat) (x : Partition) : (s.setPart p x).devWrites = s.devWrites := rfl
@[simp] theorem State.setPart_inbound (p : Nat) (x : Partition) : (s.setPart p x).inbound = s.inbound := rfl
@[simp] theorem State.setPart_apOps (p : Nat) (x : Partition) : (s.setPart p x).apOps = s.apOps := rfl
@[simp] theorem State.setPart_out (p : Nat) (x : Partition) : (s.setPart p x).out = s.out := rfl

@[simp] theorem State.setQueue_clock (q : Nat) (x : Queue) : (s.setQueue q x).clock = s.clock := rfl
@[simp] theorem State.setQueue_agenda (q : Nat) (x : Queue) : (s.setQueue q x).agenda = s.agenda := rfl
@[simp] theorem State.setQueue_nextId (q : Nat) (x : Queue) : (s.setQueue q x).nextId = s.nextId := rfl
@[simp] theorem State.setQueue_freeIdx (q : Nat) (x : Queue) : (s.setQueue q x).freeIdx = s.freeIdx := rfl
@[simp] theorem State.setQueue_cur (q : Nat) (x : Queue) : (s.setQueue q x).cur = s.cur := rfl
@[simp] theorem State.setQueue_physNum (q : Nat) (x : Queue) : (s.setQueue q x).physNum = s.physNum := rfl
@[simp] theorem State.setQueue_hd (q : Nat) (x : Queue) : (s.setQueue q x).hd = s.hd := rfl
@[simp] theorem State.setQueue_dies (q : Nat) (x : Queue) : (s.setQueue q x).dies = s.dies := rfl
@[simp] theorem State.setQueue_parts (q : Nat) (x : Queue) : (s.setQueue q x).parts = s.parts := rfl
@[simp] theorem State.setQueue_queues (q : Nat) (x : Queue) : (s.setQueue q x).queues = Tbl.set s.queues Queue.initial q x := rfl
@[simp] theorem State.setQueue_mem (q : Nat) (x : Queue) : (s.setQueue q x).mem = s.mem := rfl
@[simp] theorem State.setQueue_tags (q : Nat) (x : Queue) : (s.setQueue q x).tags = s.tags := rfl
@[simp] theorem State.setQueue_rel (q : Nat) (x : Queue) : (s.setQueue q x).rel = s.rel := rfl
@[simp] theorem State.setQueue_bad (q : Nat) (x : Queue) : (s.setQueue q x).bad = s.bad := rfl
@[simp] theorem State.setQueue_tlb (q : Nat) (x : Queue) : (s.setQueue q x).tlb = s.tlb := rfl
@[simp] theorem State.setQueue_staging (q : Nat) (x : Queue) : (s.setQueue q x).staging = s.staging := rfl
@[simp] theorem State.setQueue_pages (q : Nat) (x : Queue) : (s.setQueue q x).pages = s.pages := rfl
@[simp] theorem State.setQueue_pubs (q : Nat) (x : Queue) : (s.setQueue q x).pubs = s.pubs := rfl
@[simp] theorem State.setQueue_ctxs (q : Nat) (x : Queue) : (s.setQueue q x).ctxs = s.ctxs := rfl
@[simp] theorem State.setQueue_last (q : Nat) (x : Queue) : (s.setQueue q x).last = s.last := rfl
@[simp] theorem State.setQueue_keyed (q : Nat) (x : Queue) : (s.setQueue q x).keyed = s.keyed := rfl
@[simp] theorem State.setQueue_icache (q : Nat) (x : Queue) : (s.setQueue q x).icache = s.icache := rfl
@[simp] theorem State.setQueue_legs (q : Nat) (x : Queue) : (s.setQueue q x).legs = s.legs := rfl
@[simp] theorem State.setQueue_rtSeq (q : Nat) (x : Queue) : (s.setQueue q x).rtSeq = s.rtSeq := rfl
@[simp] theorem State.setQueue_pools (q : Nat) (x : Queue) : (s.setQueue q x).pools = s.pools := rfl
@[simp] theorem State.setQueue_buckets (q : Nat) (x : Queue) : (s.setQueue q x).buckets = s.buckets := rfl
@[simp] theorem State.setQueue_records (q : Nat) (x : Queue) : (s.setQueue q x).records = s.records := rfl
@[simp] theorem State.setQueue_fields (q : Nat) (x : Queue) : (s.setQueue q x).fields = s.fields := rfl
@[simp] theorem State.setQueue_cohorts (q : Nat) (x : Queue) : (s.setQueue q x).cohorts = s.cohorts := rfl
@[simp] theorem State.setQueue_teams (q : Nat) (x : Queue) : (s.setQueue q x).teams = s.teams := rfl
@[simp] theorem State.setQueue_weaves (q : Nat) (x : Queue) : (s.setQueue q x).weaves = s.weaves := rfl
@[simp] theorem State.setQueue_lsOps (q : Nat) (x : Queue) : (s.setQueue q x).lsOps = s.lsOps := rfl
@[simp] theorem State.setQueue_ott (q : Nat) (x : Queue) : (s.setQueue q x).ott = s.ott := rfl
@[simp] theorem State.setQueue_phOps (q : Nat) (x : Queue) : (s.setQueue q x).phOps = s.phOps := rfl
@[simp] theorem State.setQueue_copies (q : Nat) (x : Queue) : (s.setQueue q x).copies = s.copies := rfl
@[simp] theorem State.setQueue_kvOps (q : Nat) (x : Queue) : (s.setQueue q x).kvOps = s.kvOps := rfl
@[simp] theorem State.setQueue_voids (q : Nat) (x : Queue) : (s.setQueue q x).voids = s.voids := rfl
@[simp] theorem State.setQueue_scopeOps (q : Nat) (x : Queue) : (s.setQueue q x).scopeOps = s.scopeOps := rfl
@[simp] theorem State.setQueue_cancels (q : Nat) (x : Queue) : (s.setQueue q x).cancels = s.cancels := rfl
@[simp] theorem State.setQueue_maskLoads (q : Nat) (x : Queue) : (s.setQueue q x).maskLoads = s.maskLoads := rfl
@[simp] theorem State.setQueue_mxReqs (q : Nat) (x : Queue) : (s.setQueue q x).mxReqs = s.mxReqs := rfl
@[simp] theorem State.setQueue_batches (q : Nat) (x : Queue) : (s.setQueue q x).batches = s.batches := rfl
@[simp] theorem State.setQueue_faults (q : Nat) (x : Queue) : (s.setQueue q x).faults = s.faults := rfl
@[simp] theorem State.setQueue_shoots (q : Nat) (x : Queue) : (s.setQueue q x).shoots = s.shoots := rfl
@[simp] theorem State.setQueue_devWrites (q : Nat) (x : Queue) : (s.setQueue q x).devWrites = s.devWrites := rfl
@[simp] theorem State.setQueue_inbound (q : Nat) (x : Queue) : (s.setQueue q x).inbound = s.inbound := rfl
@[simp] theorem State.setQueue_apOps (q : Nat) (x : Queue) : (s.setQueue q x).apOps = s.apOps := rfl
@[simp] theorem State.setQueue_out (q : Nat) (x : Queue) : (s.setQueue q x).out = s.out := rfl

@[simp] theorem State.setDie_clock (d : Nat) (x : DieSt) : (s.setDie d x).clock = s.clock := rfl
@[simp] theorem State.setDie_agenda (d : Nat) (x : DieSt) : (s.setDie d x).agenda = s.agenda := rfl
@[simp] theorem State.setDie_nextId (d : Nat) (x : DieSt) : (s.setDie d x).nextId = s.nextId := rfl
@[simp] theorem State.setDie_freeIdx (d : Nat) (x : DieSt) : (s.setDie d x).freeIdx = s.freeIdx := rfl
@[simp] theorem State.setDie_cur (d : Nat) (x : DieSt) : (s.setDie d x).cur = s.cur := rfl
@[simp] theorem State.setDie_physNum (d : Nat) (x : DieSt) : (s.setDie d x).physNum = s.physNum := rfl
@[simp] theorem State.setDie_hd (d : Nat) (x : DieSt) : (s.setDie d x).hd = s.hd := rfl
@[simp] theorem State.setDie_dies (d : Nat) (x : DieSt) : (s.setDie d x).dies = Tbl.set s.dies DieSt.initial d x := rfl
@[simp] theorem State.setDie_parts (d : Nat) (x : DieSt) : (s.setDie d x).parts = s.parts := rfl
@[simp] theorem State.setDie_queues (d : Nat) (x : DieSt) : (s.setDie d x).queues = s.queues := rfl
@[simp] theorem State.setDie_mem (d : Nat) (x : DieSt) : (s.setDie d x).mem = s.mem := rfl
@[simp] theorem State.setDie_tags (d : Nat) (x : DieSt) : (s.setDie d x).tags = s.tags := rfl
@[simp] theorem State.setDie_rel (d : Nat) (x : DieSt) : (s.setDie d x).rel = s.rel := rfl
@[simp] theorem State.setDie_bad (d : Nat) (x : DieSt) : (s.setDie d x).bad = s.bad := rfl
@[simp] theorem State.setDie_tlb (d : Nat) (x : DieSt) : (s.setDie d x).tlb = s.tlb := rfl
@[simp] theorem State.setDie_staging (d : Nat) (x : DieSt) : (s.setDie d x).staging = s.staging := rfl
@[simp] theorem State.setDie_pages (d : Nat) (x : DieSt) : (s.setDie d x).pages = s.pages := rfl
@[simp] theorem State.setDie_pubs (d : Nat) (x : DieSt) : (s.setDie d x).pubs = s.pubs := rfl
@[simp] theorem State.setDie_ctxs (d : Nat) (x : DieSt) : (s.setDie d x).ctxs = s.ctxs := rfl
@[simp] theorem State.setDie_last (d : Nat) (x : DieSt) : (s.setDie d x).last = s.last := rfl
@[simp] theorem State.setDie_keyed (d : Nat) (x : DieSt) : (s.setDie d x).keyed = s.keyed := rfl
@[simp] theorem State.setDie_icache (d : Nat) (x : DieSt) : (s.setDie d x).icache = s.icache := rfl
@[simp] theorem State.setDie_legs (d : Nat) (x : DieSt) : (s.setDie d x).legs = s.legs := rfl
@[simp] theorem State.setDie_rtSeq (d : Nat) (x : DieSt) : (s.setDie d x).rtSeq = s.rtSeq := rfl
@[simp] theorem State.setDie_pools (d : Nat) (x : DieSt) : (s.setDie d x).pools = s.pools := rfl
@[simp] theorem State.setDie_buckets (d : Nat) (x : DieSt) : (s.setDie d x).buckets = s.buckets := rfl
@[simp] theorem State.setDie_records (d : Nat) (x : DieSt) : (s.setDie d x).records = s.records := rfl
@[simp] theorem State.setDie_fields (d : Nat) (x : DieSt) : (s.setDie d x).fields = s.fields := rfl
@[simp] theorem State.setDie_cohorts (d : Nat) (x : DieSt) : (s.setDie d x).cohorts = s.cohorts := rfl
@[simp] theorem State.setDie_teams (d : Nat) (x : DieSt) : (s.setDie d x).teams = s.teams := rfl
@[simp] theorem State.setDie_weaves (d : Nat) (x : DieSt) : (s.setDie d x).weaves = s.weaves := rfl
@[simp] theorem State.setDie_lsOps (d : Nat) (x : DieSt) : (s.setDie d x).lsOps = s.lsOps := rfl
@[simp] theorem State.setDie_ott (d : Nat) (x : DieSt) : (s.setDie d x).ott = s.ott := rfl
@[simp] theorem State.setDie_phOps (d : Nat) (x : DieSt) : (s.setDie d x).phOps = s.phOps := rfl
@[simp] theorem State.setDie_copies (d : Nat) (x : DieSt) : (s.setDie d x).copies = s.copies := rfl
@[simp] theorem State.setDie_kvOps (d : Nat) (x : DieSt) : (s.setDie d x).kvOps = s.kvOps := rfl
@[simp] theorem State.setDie_voids (d : Nat) (x : DieSt) : (s.setDie d x).voids = s.voids := rfl
@[simp] theorem State.setDie_scopeOps (d : Nat) (x : DieSt) : (s.setDie d x).scopeOps = s.scopeOps := rfl
@[simp] theorem State.setDie_cancels (d : Nat) (x : DieSt) : (s.setDie d x).cancels = s.cancels := rfl
@[simp] theorem State.setDie_maskLoads (d : Nat) (x : DieSt) : (s.setDie d x).maskLoads = s.maskLoads := rfl
@[simp] theorem State.setDie_mxReqs (d : Nat) (x : DieSt) : (s.setDie d x).mxReqs = s.mxReqs := rfl
@[simp] theorem State.setDie_batches (d : Nat) (x : DieSt) : (s.setDie d x).batches = s.batches := rfl
@[simp] theorem State.setDie_faults (d : Nat) (x : DieSt) : (s.setDie d x).faults = s.faults := rfl
@[simp] theorem State.setDie_shoots (d : Nat) (x : DieSt) : (s.setDie d x).shoots = s.shoots := rfl
@[simp] theorem State.setDie_devWrites (d : Nat) (x : DieSt) : (s.setDie d x).devWrites = s.devWrites := rfl
@[simp] theorem State.setDie_inbound (d : Nat) (x : DieSt) : (s.setDie d x).inbound = s.inbound := rfl
@[simp] theorem State.setDie_apOps (d : Nat) (x : DieSt) : (s.setDie d x).apOps = s.apOps := rfl
@[simp] theorem State.setDie_out (d : Nat) (x : DieSt) : (s.setDie d x).out = s.out := rfl

@[simp] theorem State.setPool_clock (k : Nat) (x : Pool) : (s.setPool k x).clock = s.clock := rfl
@[simp] theorem State.setPool_agenda (k : Nat) (x : Pool) : (s.setPool k x).agenda = s.agenda := rfl
@[simp] theorem State.setPool_nextId (k : Nat) (x : Pool) : (s.setPool k x).nextId = s.nextId := rfl
@[simp] theorem State.setPool_freeIdx (k : Nat) (x : Pool) : (s.setPool k x).freeIdx = s.freeIdx := rfl
@[simp] theorem State.setPool_cur (k : Nat) (x : Pool) : (s.setPool k x).cur = s.cur := rfl
@[simp] theorem State.setPool_physNum (k : Nat) (x : Pool) : (s.setPool k x).physNum = s.physNum := rfl
@[simp] theorem State.setPool_hd (k : Nat) (x : Pool) : (s.setPool k x).hd = s.hd := rfl
@[simp] theorem State.setPool_dies (k : Nat) (x : Pool) : (s.setPool k x).dies = s.dies := rfl
@[simp] theorem State.setPool_parts (k : Nat) (x : Pool) : (s.setPool k x).parts = s.parts := rfl
@[simp] theorem State.setPool_queues (k : Nat) (x : Pool) : (s.setPool k x).queues = s.queues := rfl
@[simp] theorem State.setPool_mem (k : Nat) (x : Pool) : (s.setPool k x).mem = s.mem := rfl
@[simp] theorem State.setPool_tags (k : Nat) (x : Pool) : (s.setPool k x).tags = s.tags := rfl
@[simp] theorem State.setPool_rel (k : Nat) (x : Pool) : (s.setPool k x).rel = s.rel := rfl
@[simp] theorem State.setPool_bad (k : Nat) (x : Pool) : (s.setPool k x).bad = s.bad := rfl
@[simp] theorem State.setPool_tlb (k : Nat) (x : Pool) : (s.setPool k x).tlb = s.tlb := rfl
@[simp] theorem State.setPool_staging (k : Nat) (x : Pool) : (s.setPool k x).staging = s.staging := rfl
@[simp] theorem State.setPool_pages (k : Nat) (x : Pool) : (s.setPool k x).pages = s.pages := rfl
@[simp] theorem State.setPool_pubs (k : Nat) (x : Pool) : (s.setPool k x).pubs = s.pubs := rfl
@[simp] theorem State.setPool_ctxs (k : Nat) (x : Pool) : (s.setPool k x).ctxs = s.ctxs := rfl
@[simp] theorem State.setPool_last (k : Nat) (x : Pool) : (s.setPool k x).last = s.last := rfl
@[simp] theorem State.setPool_keyed (k : Nat) (x : Pool) : (s.setPool k x).keyed = s.keyed := rfl
@[simp] theorem State.setPool_icache (k : Nat) (x : Pool) : (s.setPool k x).icache = s.icache := rfl
@[simp] theorem State.setPool_legs (k : Nat) (x : Pool) : (s.setPool k x).legs = s.legs := rfl
@[simp] theorem State.setPool_rtSeq (k : Nat) (x : Pool) : (s.setPool k x).rtSeq = s.rtSeq := rfl
@[simp] theorem State.setPool_pools (k : Nat) (x : Pool) : (s.setPool k x).pools = Tbl.set s.pools Pool.initial k x := rfl
@[simp] theorem State.setPool_buckets (k : Nat) (x : Pool) : (s.setPool k x).buckets = s.buckets := rfl
@[simp] theorem State.setPool_records (k : Nat) (x : Pool) : (s.setPool k x).records = s.records := rfl
@[simp] theorem State.setPool_fields (k : Nat) (x : Pool) : (s.setPool k x).fields = s.fields := rfl
@[simp] theorem State.setPool_cohorts (k : Nat) (x : Pool) : (s.setPool k x).cohorts = s.cohorts := rfl
@[simp] theorem State.setPool_teams (k : Nat) (x : Pool) : (s.setPool k x).teams = s.teams := rfl
@[simp] theorem State.setPool_weaves (k : Nat) (x : Pool) : (s.setPool k x).weaves = s.weaves := rfl
@[simp] theorem State.setPool_lsOps (k : Nat) (x : Pool) : (s.setPool k x).lsOps = s.lsOps := rfl
@[simp] theorem State.setPool_ott (k : Nat) (x : Pool) : (s.setPool k x).ott = s.ott := rfl
@[simp] theorem State.setPool_phOps (k : Nat) (x : Pool) : (s.setPool k x).phOps = s.phOps := rfl
@[simp] theorem State.setPool_copies (k : Nat) (x : Pool) : (s.setPool k x).copies = s.copies := rfl
@[simp] theorem State.setPool_kvOps (k : Nat) (x : Pool) : (s.setPool k x).kvOps = s.kvOps := rfl
@[simp] theorem State.setPool_voids (k : Nat) (x : Pool) : (s.setPool k x).voids = s.voids := rfl
@[simp] theorem State.setPool_scopeOps (k : Nat) (x : Pool) : (s.setPool k x).scopeOps = s.scopeOps := rfl
@[simp] theorem State.setPool_cancels (k : Nat) (x : Pool) : (s.setPool k x).cancels = s.cancels := rfl
@[simp] theorem State.setPool_maskLoads (k : Nat) (x : Pool) : (s.setPool k x).maskLoads = s.maskLoads := rfl
@[simp] theorem State.setPool_mxReqs (k : Nat) (x : Pool) : (s.setPool k x).mxReqs = s.mxReqs := rfl
@[simp] theorem State.setPool_batches (k : Nat) (x : Pool) : (s.setPool k x).batches = s.batches := rfl
@[simp] theorem State.setPool_faults (k : Nat) (x : Pool) : (s.setPool k x).faults = s.faults := rfl
@[simp] theorem State.setPool_shoots (k : Nat) (x : Pool) : (s.setPool k x).shoots = s.shoots := rfl
@[simp] theorem State.setPool_devWrites (k : Nat) (x : Pool) : (s.setPool k x).devWrites = s.devWrites := rfl
@[simp] theorem State.setPool_inbound (k : Nat) (x : Pool) : (s.setPool k x).inbound = s.inbound := rfl
@[simp] theorem State.setPool_apOps (k : Nat) (x : Pool) : (s.setPool k x).apOps = s.apOps := rfl
@[simp] theorem State.setPool_out (k : Nat) (x : Pool) : (s.setPool k x).out = s.out := rfl

@[simp] theorem State.setBucket_clock (c : Nat) (x : Bucket) : (s.setBucket c x).clock = s.clock := rfl
@[simp] theorem State.setBucket_agenda (c : Nat) (x : Bucket) : (s.setBucket c x).agenda = s.agenda := rfl
@[simp] theorem State.setBucket_nextId (c : Nat) (x : Bucket) : (s.setBucket c x).nextId = s.nextId := rfl
@[simp] theorem State.setBucket_freeIdx (c : Nat) (x : Bucket) : (s.setBucket c x).freeIdx = s.freeIdx := rfl
@[simp] theorem State.setBucket_cur (c : Nat) (x : Bucket) : (s.setBucket c x).cur = s.cur := rfl
@[simp] theorem State.setBucket_physNum (c : Nat) (x : Bucket) : (s.setBucket c x).physNum = s.physNum := rfl
@[simp] theorem State.setBucket_hd (c : Nat) (x : Bucket) : (s.setBucket c x).hd = s.hd := rfl
@[simp] theorem State.setBucket_dies (c : Nat) (x : Bucket) : (s.setBucket c x).dies = s.dies := rfl
@[simp] theorem State.setBucket_parts (c : Nat) (x : Bucket) : (s.setBucket c x).parts = s.parts := rfl
@[simp] theorem State.setBucket_queues (c : Nat) (x : Bucket) : (s.setBucket c x).queues = s.queues := rfl
@[simp] theorem State.setBucket_mem (c : Nat) (x : Bucket) : (s.setBucket c x).mem = s.mem := rfl
@[simp] theorem State.setBucket_tags (c : Nat) (x : Bucket) : (s.setBucket c x).tags = s.tags := rfl
@[simp] theorem State.setBucket_rel (c : Nat) (x : Bucket) : (s.setBucket c x).rel = s.rel := rfl
@[simp] theorem State.setBucket_bad (c : Nat) (x : Bucket) : (s.setBucket c x).bad = s.bad := rfl
@[simp] theorem State.setBucket_tlb (c : Nat) (x : Bucket) : (s.setBucket c x).tlb = s.tlb := rfl
@[simp] theorem State.setBucket_staging (c : Nat) (x : Bucket) : (s.setBucket c x).staging = s.staging := rfl
@[simp] theorem State.setBucket_pages (c : Nat) (x : Bucket) : (s.setBucket c x).pages = s.pages := rfl
@[simp] theorem State.setBucket_pubs (c : Nat) (x : Bucket) : (s.setBucket c x).pubs = s.pubs := rfl
@[simp] theorem State.setBucket_ctxs (c : Nat) (x : Bucket) : (s.setBucket c x).ctxs = s.ctxs := rfl
@[simp] theorem State.setBucket_last (c : Nat) (x : Bucket) : (s.setBucket c x).last = s.last := rfl
@[simp] theorem State.setBucket_keyed (c : Nat) (x : Bucket) : (s.setBucket c x).keyed = s.keyed := rfl
@[simp] theorem State.setBucket_icache (c : Nat) (x : Bucket) : (s.setBucket c x).icache = s.icache := rfl
@[simp] theorem State.setBucket_legs (c : Nat) (x : Bucket) : (s.setBucket c x).legs = s.legs := rfl
@[simp] theorem State.setBucket_rtSeq (c : Nat) (x : Bucket) : (s.setBucket c x).rtSeq = s.rtSeq := rfl
@[simp] theorem State.setBucket_pools (c : Nat) (x : Bucket) : (s.setBucket c x).pools = s.pools := rfl
@[simp] theorem State.setBucket_buckets (c : Nat) (x : Bucket) : (s.setBucket c x).buckets = Tbl.set s.buckets Bucket.initial c x := rfl
@[simp] theorem State.setBucket_records (c : Nat) (x : Bucket) : (s.setBucket c x).records = s.records := rfl
@[simp] theorem State.setBucket_fields (c : Nat) (x : Bucket) : (s.setBucket c x).fields = s.fields := rfl
@[simp] theorem State.setBucket_cohorts (c : Nat) (x : Bucket) : (s.setBucket c x).cohorts = s.cohorts := rfl
@[simp] theorem State.setBucket_teams (c : Nat) (x : Bucket) : (s.setBucket c x).teams = s.teams := rfl
@[simp] theorem State.setBucket_weaves (c : Nat) (x : Bucket) : (s.setBucket c x).weaves = s.weaves := rfl
@[simp] theorem State.setBucket_lsOps (c : Nat) (x : Bucket) : (s.setBucket c x).lsOps = s.lsOps := rfl
@[simp] theorem State.setBucket_ott (c : Nat) (x : Bucket) : (s.setBucket c x).ott = s.ott := rfl
@[simp] theorem State.setBucket_phOps (c : Nat) (x : Bucket) : (s.setBucket c x).phOps = s.phOps := rfl
@[simp] theorem State.setBucket_copies (c : Nat) (x : Bucket) : (s.setBucket c x).copies = s.copies := rfl
@[simp] theorem State.setBucket_kvOps (c : Nat) (x : Bucket) : (s.setBucket c x).kvOps = s.kvOps := rfl
@[simp] theorem State.setBucket_voids (c : Nat) (x : Bucket) : (s.setBucket c x).voids = s.voids := rfl
@[simp] theorem State.setBucket_scopeOps (c : Nat) (x : Bucket) : (s.setBucket c x).scopeOps = s.scopeOps := rfl
@[simp] theorem State.setBucket_cancels (c : Nat) (x : Bucket) : (s.setBucket c x).cancels = s.cancels := rfl
@[simp] theorem State.setBucket_maskLoads (c : Nat) (x : Bucket) : (s.setBucket c x).maskLoads = s.maskLoads := rfl
@[simp] theorem State.setBucket_mxReqs (c : Nat) (x : Bucket) : (s.setBucket c x).mxReqs = s.mxReqs := rfl
@[simp] theorem State.setBucket_batches (c : Nat) (x : Bucket) : (s.setBucket c x).batches = s.batches := rfl
@[simp] theorem State.setBucket_faults (c : Nat) (x : Bucket) : (s.setBucket c x).faults = s.faults := rfl
@[simp] theorem State.setBucket_shoots (c : Nat) (x : Bucket) : (s.setBucket c x).shoots = s.shoots := rfl
@[simp] theorem State.setBucket_devWrites (c : Nat) (x : Bucket) : (s.setBucket c x).devWrites = s.devWrites := rfl
@[simp] theorem State.setBucket_inbound (c : Nat) (x : Bucket) : (s.setBucket c x).inbound = s.inbound := rfl
@[simp] theorem State.setBucket_apOps (c : Nat) (x : Bucket) : (s.setBucket c x).apOps = s.apOps := rfl
@[simp] theorem State.setBucket_out (c : Nat) (x : Bucket) : (s.setBucket c x).out = s.out := rfl

@[simp] theorem State.setWeave_clock (n : Nat) (x : Weave) : (s.setWeave n x).clock = s.clock := rfl
@[simp] theorem State.setWeave_agenda (n : Nat) (x : Weave) : (s.setWeave n x).agenda = s.agenda := rfl
@[simp] theorem State.setWeave_nextId (n : Nat) (x : Weave) : (s.setWeave n x).nextId = s.nextId := rfl
@[simp] theorem State.setWeave_freeIdx (n : Nat) (x : Weave) : (s.setWeave n x).freeIdx = s.freeIdx := rfl
@[simp] theorem State.setWeave_cur (n : Nat) (x : Weave) : (s.setWeave n x).cur = s.cur := rfl
@[simp] theorem State.setWeave_physNum (n : Nat) (x : Weave) : (s.setWeave n x).physNum = s.physNum := rfl
@[simp] theorem State.setWeave_hd (n : Nat) (x : Weave) : (s.setWeave n x).hd = s.hd := rfl
@[simp] theorem State.setWeave_dies (n : Nat) (x : Weave) : (s.setWeave n x).dies = s.dies := rfl
@[simp] theorem State.setWeave_parts (n : Nat) (x : Weave) : (s.setWeave n x).parts = s.parts := rfl
@[simp] theorem State.setWeave_queues (n : Nat) (x : Weave) : (s.setWeave n x).queues = s.queues := rfl
@[simp] theorem State.setWeave_mem (n : Nat) (x : Weave) : (s.setWeave n x).mem = s.mem := rfl
@[simp] theorem State.setWeave_tags (n : Nat) (x : Weave) : (s.setWeave n x).tags = s.tags := rfl
@[simp] theorem State.setWeave_rel (n : Nat) (x : Weave) : (s.setWeave n x).rel = s.rel := rfl
@[simp] theorem State.setWeave_bad (n : Nat) (x : Weave) : (s.setWeave n x).bad = s.bad := rfl
@[simp] theorem State.setWeave_tlb (n : Nat) (x : Weave) : (s.setWeave n x).tlb = s.tlb := rfl
@[simp] theorem State.setWeave_staging (n : Nat) (x : Weave) : (s.setWeave n x).staging = s.staging := rfl
@[simp] theorem State.setWeave_pages (n : Nat) (x : Weave) : (s.setWeave n x).pages = s.pages := rfl
@[simp] theorem State.setWeave_pubs (n : Nat) (x : Weave) : (s.setWeave n x).pubs = s.pubs := rfl
@[simp] theorem State.setWeave_ctxs (n : Nat) (x : Weave) : (s.setWeave n x).ctxs = s.ctxs := rfl
@[simp] theorem State.setWeave_last (n : Nat) (x : Weave) : (s.setWeave n x).last = s.last := rfl
@[simp] theorem State.setWeave_keyed (n : Nat) (x : Weave) : (s.setWeave n x).keyed = s.keyed := rfl
@[simp] theorem State.setWeave_icache (n : Nat) (x : Weave) : (s.setWeave n x).icache = s.icache := rfl
@[simp] theorem State.setWeave_legs (n : Nat) (x : Weave) : (s.setWeave n x).legs = s.legs := rfl
@[simp] theorem State.setWeave_rtSeq (n : Nat) (x : Weave) : (s.setWeave n x).rtSeq = s.rtSeq := rfl
@[simp] theorem State.setWeave_pools (n : Nat) (x : Weave) : (s.setWeave n x).pools = s.pools := rfl
@[simp] theorem State.setWeave_buckets (n : Nat) (x : Weave) : (s.setWeave n x).buckets = s.buckets := rfl
@[simp] theorem State.setWeave_records (n : Nat) (x : Weave) : (s.setWeave n x).records = s.records := rfl
@[simp] theorem State.setWeave_fields (n : Nat) (x : Weave) : (s.setWeave n x).fields = s.fields := rfl
@[simp] theorem State.setWeave_cohorts (n : Nat) (x : Weave) : (s.setWeave n x).cohorts = s.cohorts := rfl
@[simp] theorem State.setWeave_teams (n : Nat) (x : Weave) : (s.setWeave n x).teams = s.teams := rfl
@[simp] theorem State.setWeave_weaves (n : Nat) (x : Weave) : (s.setWeave n x).weaves = Tbl.put s.weaves n x := rfl
@[simp] theorem State.setWeave_lsOps (n : Nat) (x : Weave) : (s.setWeave n x).lsOps = s.lsOps := rfl
@[simp] theorem State.setWeave_ott (n : Nat) (x : Weave) : (s.setWeave n x).ott = s.ott := rfl
@[simp] theorem State.setWeave_phOps (n : Nat) (x : Weave) : (s.setWeave n x).phOps = s.phOps := rfl
@[simp] theorem State.setWeave_copies (n : Nat) (x : Weave) : (s.setWeave n x).copies = s.copies := rfl
@[simp] theorem State.setWeave_kvOps (n : Nat) (x : Weave) : (s.setWeave n x).kvOps = s.kvOps := rfl
@[simp] theorem State.setWeave_voids (n : Nat) (x : Weave) : (s.setWeave n x).voids = s.voids := rfl
@[simp] theorem State.setWeave_scopeOps (n : Nat) (x : Weave) : (s.setWeave n x).scopeOps = s.scopeOps := rfl
@[simp] theorem State.setWeave_cancels (n : Nat) (x : Weave) : (s.setWeave n x).cancels = s.cancels := rfl
@[simp] theorem State.setWeave_maskLoads (n : Nat) (x : Weave) : (s.setWeave n x).maskLoads = s.maskLoads := rfl
@[simp] theorem State.setWeave_mxReqs (n : Nat) (x : Weave) : (s.setWeave n x).mxReqs = s.mxReqs := rfl
@[simp] theorem State.setWeave_batches (n : Nat) (x : Weave) : (s.setWeave n x).batches = s.batches := rfl
@[simp] theorem State.setWeave_faults (n : Nat) (x : Weave) : (s.setWeave n x).faults = s.faults := rfl
@[simp] theorem State.setWeave_shoots (n : Nat) (x : Weave) : (s.setWeave n x).shoots = s.shoots := rfl
@[simp] theorem State.setWeave_devWrites (n : Nat) (x : Weave) : (s.setWeave n x).devWrites = s.devWrites := rfl
@[simp] theorem State.setWeave_inbound (n : Nat) (x : Weave) : (s.setWeave n x).inbound = s.inbound := rfl
@[simp] theorem State.setWeave_apOps (n : Nat) (x : Weave) : (s.setWeave n x).apOps = s.apOps := rfl
@[simp] theorem State.setWeave_out (n : Nat) (x : Weave) : (s.setWeave n x).out = s.out := rfl

@[simp] theorem State.updWeave_clock (n : Nat) (f : Weave → Weave) : (s.updWeave n f).clock = s.clock := rfl
@[simp] theorem State.updWeave_agenda (n : Nat) (f : Weave → Weave) : (s.updWeave n f).agenda = s.agenda := rfl
@[simp] theorem State.updWeave_nextId (n : Nat) (f : Weave → Weave) : (s.updWeave n f).nextId = s.nextId := rfl
@[simp] theorem State.updWeave_freeIdx (n : Nat) (f : Weave → Weave) : (s.updWeave n f).freeIdx = s.freeIdx := rfl
@[simp] theorem State.updWeave_cur (n : Nat) (f : Weave → Weave) : (s.updWeave n f).cur = s.cur := rfl
@[simp] theorem State.updWeave_physNum (n : Nat) (f : Weave → Weave) : (s.updWeave n f).physNum = s.physNum := rfl
@[simp] theorem State.updWeave_hd (n : Nat) (f : Weave → Weave) : (s.updWeave n f).hd = s.hd := rfl
@[simp] theorem State.updWeave_dies (n : Nat) (f : Weave → Weave) : (s.updWeave n f).dies = s.dies := rfl
@[simp] theorem State.updWeave_parts (n : Nat) (f : Weave → Weave) : (s.updWeave n f).parts = s.parts := rfl
@[simp] theorem State.updWeave_queues (n : Nat) (f : Weave → Weave) : (s.updWeave n f).queues = s.queues := rfl
@[simp] theorem State.updWeave_mem (n : Nat) (f : Weave → Weave) : (s.updWeave n f).mem = s.mem := rfl
@[simp] theorem State.updWeave_tags (n : Nat) (f : Weave → Weave) : (s.updWeave n f).tags = s.tags := rfl
@[simp] theorem State.updWeave_rel (n : Nat) (f : Weave → Weave) : (s.updWeave n f).rel = s.rel := rfl
@[simp] theorem State.updWeave_bad (n : Nat) (f : Weave → Weave) : (s.updWeave n f).bad = s.bad := rfl
@[simp] theorem State.updWeave_tlb (n : Nat) (f : Weave → Weave) : (s.updWeave n f).tlb = s.tlb := rfl
@[simp] theorem State.updWeave_staging (n : Nat) (f : Weave → Weave) : (s.updWeave n f).staging = s.staging := rfl
@[simp] theorem State.updWeave_pages (n : Nat) (f : Weave → Weave) : (s.updWeave n f).pages = s.pages := rfl
@[simp] theorem State.updWeave_pubs (n : Nat) (f : Weave → Weave) : (s.updWeave n f).pubs = s.pubs := rfl
@[simp] theorem State.updWeave_ctxs (n : Nat) (f : Weave → Weave) : (s.updWeave n f).ctxs = s.ctxs := rfl
@[simp] theorem State.updWeave_last (n : Nat) (f : Weave → Weave) : (s.updWeave n f).last = s.last := rfl
@[simp] theorem State.updWeave_keyed (n : Nat) (f : Weave → Weave) : (s.updWeave n f).keyed = s.keyed := rfl
@[simp] theorem State.updWeave_icache (n : Nat) (f : Weave → Weave) : (s.updWeave n f).icache = s.icache := rfl
@[simp] theorem State.updWeave_legs (n : Nat) (f : Weave → Weave) : (s.updWeave n f).legs = s.legs := rfl
@[simp] theorem State.updWeave_rtSeq (n : Nat) (f : Weave → Weave) : (s.updWeave n f).rtSeq = s.rtSeq := rfl
@[simp] theorem State.updWeave_pools (n : Nat) (f : Weave → Weave) : (s.updWeave n f).pools = s.pools := rfl
@[simp] theorem State.updWeave_buckets (n : Nat) (f : Weave → Weave) : (s.updWeave n f).buckets = s.buckets := rfl
@[simp] theorem State.updWeave_records (n : Nat) (f : Weave → Weave) : (s.updWeave n f).records = s.records := rfl
@[simp] theorem State.updWeave_fields (n : Nat) (f : Weave → Weave) : (s.updWeave n f).fields = s.fields := rfl
@[simp] theorem State.updWeave_cohorts (n : Nat) (f : Weave → Weave) : (s.updWeave n f).cohorts = s.cohorts := rfl
@[simp] theorem State.updWeave_teams (n : Nat) (f : Weave → Weave) : (s.updWeave n f).teams = s.teams := rfl
@[simp] theorem State.updWeave_weaves (n : Nat) (f : Weave → Weave) : (s.updWeave n f).weaves = Tbl.upd s.weaves n f := rfl
@[simp] theorem State.updWeave_lsOps (n : Nat) (f : Weave → Weave) : (s.updWeave n f).lsOps = s.lsOps := rfl
@[simp] theorem State.updWeave_ott (n : Nat) (f : Weave → Weave) : (s.updWeave n f).ott = s.ott := rfl
@[simp] theorem State.updWeave_phOps (n : Nat) (f : Weave → Weave) : (s.updWeave n f).phOps = s.phOps := rfl
@[simp] theorem State.updWeave_copies (n : Nat) (f : Weave → Weave) : (s.updWeave n f).copies = s.copies := rfl
@[simp] theorem State.updWeave_kvOps (n : Nat) (f : Weave → Weave) : (s.updWeave n f).kvOps = s.kvOps := rfl
@[simp] theorem State.updWeave_voids (n : Nat) (f : Weave → Weave) : (s.updWeave n f).voids = s.voids := rfl
@[simp] theorem State.updWeave_scopeOps (n : Nat) (f : Weave → Weave) : (s.updWeave n f).scopeOps = s.scopeOps := rfl
@[simp] theorem State.updWeave_cancels (n : Nat) (f : Weave → Weave) : (s.updWeave n f).cancels = s.cancels := rfl
@[simp] theorem State.updWeave_maskLoads (n : Nat) (f : Weave → Weave) : (s.updWeave n f).maskLoads = s.maskLoads := rfl
@[simp] theorem State.updWeave_mxReqs (n : Nat) (f : Weave → Weave) : (s.updWeave n f).mxReqs = s.mxReqs := rfl
@[simp] theorem State.updWeave_batches (n : Nat) (f : Weave → Weave) : (s.updWeave n f).batches = s.batches := rfl
@[simp] theorem State.updWeave_faults (n : Nat) (f : Weave → Weave) : (s.updWeave n f).faults = s.faults := rfl
@[simp] theorem State.updWeave_shoots (n : Nat) (f : Weave → Weave) : (s.updWeave n f).shoots = s.shoots := rfl
@[simp] theorem State.updWeave_devWrites (n : Nat) (f : Weave → Weave) : (s.updWeave n f).devWrites = s.devWrites := rfl
@[simp] theorem State.updWeave_inbound (n : Nat) (f : Weave → Weave) : (s.updWeave n f).inbound = s.inbound := rfl
@[simp] theorem State.updWeave_apOps (n : Nat) (f : Weave → Weave) : (s.updWeave n f).apOps = s.apOps := rfl
@[simp] theorem State.updWeave_out (n : Nat) (f : Weave → Weave) : (s.updWeave n f).out = s.out := rfl

@[simp] theorem State.updTeam_clock (n : Nat) (f : Team → Team) : (s.updTeam n f).clock = s.clock := rfl
@[simp] theorem State.updTeam_agenda (n : Nat) (f : Team → Team) : (s.updTeam n f).agenda = s.agenda := rfl
@[simp] theorem State.updTeam_nextId (n : Nat) (f : Team → Team) : (s.updTeam n f).nextId = s.nextId := rfl
@[simp] theorem State.updTeam_freeIdx (n : Nat) (f : Team → Team) : (s.updTeam n f).freeIdx = s.freeIdx := rfl
@[simp] theorem State.updTeam_cur (n : Nat) (f : Team → Team) : (s.updTeam n f).cur = s.cur := rfl
@[simp] theorem State.updTeam_physNum (n : Nat) (f : Team → Team) : (s.updTeam n f).physNum = s.physNum := rfl
@[simp] theorem State.updTeam_hd (n : Nat) (f : Team → Team) : (s.updTeam n f).hd = s.hd := rfl
@[simp] theorem State.updTeam_dies (n : Nat) (f : Team → Team) : (s.updTeam n f).dies = s.dies := rfl
@[simp] theorem State.updTeam_parts (n : Nat) (f : Team → Team) : (s.updTeam n f).parts = s.parts := rfl
@[simp] theorem State.updTeam_queues (n : Nat) (f : Team → Team) : (s.updTeam n f).queues = s.queues := rfl
@[simp] theorem State.updTeam_mem (n : Nat) (f : Team → Team) : (s.updTeam n f).mem = s.mem := rfl
@[simp] theorem State.updTeam_tags (n : Nat) (f : Team → Team) : (s.updTeam n f).tags = s.tags := rfl
@[simp] theorem State.updTeam_rel (n : Nat) (f : Team → Team) : (s.updTeam n f).rel = s.rel := rfl
@[simp] theorem State.updTeam_bad (n : Nat) (f : Team → Team) : (s.updTeam n f).bad = s.bad := rfl
@[simp] theorem State.updTeam_tlb (n : Nat) (f : Team → Team) : (s.updTeam n f).tlb = s.tlb := rfl
@[simp] theorem State.updTeam_staging (n : Nat) (f : Team → Team) : (s.updTeam n f).staging = s.staging := rfl
@[simp] theorem State.updTeam_pages (n : Nat) (f : Team → Team) : (s.updTeam n f).pages = s.pages := rfl
@[simp] theorem State.updTeam_pubs (n : Nat) (f : Team → Team) : (s.updTeam n f).pubs = s.pubs := rfl
@[simp] theorem State.updTeam_ctxs (n : Nat) (f : Team → Team) : (s.updTeam n f).ctxs = s.ctxs := rfl
@[simp] theorem State.updTeam_last (n : Nat) (f : Team → Team) : (s.updTeam n f).last = s.last := rfl
@[simp] theorem State.updTeam_keyed (n : Nat) (f : Team → Team) : (s.updTeam n f).keyed = s.keyed := rfl
@[simp] theorem State.updTeam_icache (n : Nat) (f : Team → Team) : (s.updTeam n f).icache = s.icache := rfl
@[simp] theorem State.updTeam_legs (n : Nat) (f : Team → Team) : (s.updTeam n f).legs = s.legs := rfl
@[simp] theorem State.updTeam_rtSeq (n : Nat) (f : Team → Team) : (s.updTeam n f).rtSeq = s.rtSeq := rfl
@[simp] theorem State.updTeam_pools (n : Nat) (f : Team → Team) : (s.updTeam n f).pools = s.pools := rfl
@[simp] theorem State.updTeam_buckets (n : Nat) (f : Team → Team) : (s.updTeam n f).buckets = s.buckets := rfl
@[simp] theorem State.updTeam_records (n : Nat) (f : Team → Team) : (s.updTeam n f).records = s.records := rfl
@[simp] theorem State.updTeam_fields (n : Nat) (f : Team → Team) : (s.updTeam n f).fields = s.fields := rfl
@[simp] theorem State.updTeam_cohorts (n : Nat) (f : Team → Team) : (s.updTeam n f).cohorts = s.cohorts := rfl
@[simp] theorem State.updTeam_teams (n : Nat) (f : Team → Team) : (s.updTeam n f).teams = Tbl.upd s.teams n f := rfl
@[simp] theorem State.updTeam_weaves (n : Nat) (f : Team → Team) : (s.updTeam n f).weaves = s.weaves := rfl
@[simp] theorem State.updTeam_lsOps (n : Nat) (f : Team → Team) : (s.updTeam n f).lsOps = s.lsOps := rfl
@[simp] theorem State.updTeam_ott (n : Nat) (f : Team → Team) : (s.updTeam n f).ott = s.ott := rfl
@[simp] theorem State.updTeam_phOps (n : Nat) (f : Team → Team) : (s.updTeam n f).phOps = s.phOps := rfl
@[simp] theorem State.updTeam_copies (n : Nat) (f : Team → Team) : (s.updTeam n f).copies = s.copies := rfl
@[simp] theorem State.updTeam_kvOps (n : Nat) (f : Team → Team) : (s.updTeam n f).kvOps = s.kvOps := rfl
@[simp] theorem State.updTeam_voids (n : Nat) (f : Team → Team) : (s.updTeam n f).voids = s.voids := rfl
@[simp] theorem State.updTeam_scopeOps (n : Nat) (f : Team → Team) : (s.updTeam n f).scopeOps = s.scopeOps := rfl
@[simp] theorem State.updTeam_cancels (n : Nat) (f : Team → Team) : (s.updTeam n f).cancels = s.cancels := rfl
@[simp] theorem State.updTeam_maskLoads (n : Nat) (f : Team → Team) : (s.updTeam n f).maskLoads = s.maskLoads := rfl
@[simp] theorem State.updTeam_mxReqs (n : Nat) (f : Team → Team) : (s.updTeam n f).mxReqs = s.mxReqs := rfl
@[simp] theorem State.updTeam_batches (n : Nat) (f : Team → Team) : (s.updTeam n f).batches = s.batches := rfl
@[simp] theorem State.updTeam_faults (n : Nat) (f : Team → Team) : (s.updTeam n f).faults = s.faults := rfl
@[simp] theorem State.updTeam_shoots (n : Nat) (f : Team → Team) : (s.updTeam n f).shoots = s.shoots := rfl
@[simp] theorem State.updTeam_devWrites (n : Nat) (f : Team → Team) : (s.updTeam n f).devWrites = s.devWrites := rfl
@[simp] theorem State.updTeam_inbound (n : Nat) (f : Team → Team) : (s.updTeam n f).inbound = s.inbound := rfl
@[simp] theorem State.updTeam_apOps (n : Nat) (f : Team → Team) : (s.updTeam n f).apOps = s.apOps := rfl
@[simp] theorem State.updTeam_out (n : Nat) (f : Team → Team) : (s.updTeam n f).out = s.out := rfl

@[simp] theorem State.updCohort_clock (n : Nat) (f : Cohort → Cohort) : (s.updCohort n f).clock = s.clock := rfl
@[simp] theorem State.updCohort_agenda (n : Nat) (f : Cohort → Cohort) : (s.updCohort n f).agenda = s.agenda := rfl
@[simp] theorem State.updCohort_nextId (n : Nat) (f : Cohort → Cohort) : (s.updCohort n f).nextId = s.nextId := rfl
@[simp] theorem State.updCohort_freeIdx (n : Nat) (f : Cohort → Cohort) : (s.updCohort n f).freeIdx = s.freeIdx := rfl
@[simp] theorem State.updCohort_cur (n : Nat) (f : Cohort → Cohort) : (s.updCohort n f).cur = s.cur := rfl
@[simp] theorem State.updCohort_physNum (n : Nat) (f : Cohort → Cohort) : (s.updCohort n f).physNum = s.physNum := rfl
@[simp] theorem State.updCohort_hd (n : Nat) (f : Cohort → Cohort) : (s.updCohort n f).hd = s.hd := rfl
@[simp] theorem State.updCohort_dies (n : Nat) (f : Cohort → Cohort) : (s.updCohort n f).dies = s.dies := rfl
@[simp] theorem State.updCohort_parts (n : Nat) (f : Cohort → Cohort) : (s.updCohort n f).parts = s.parts := rfl
@[simp] theorem State.updCohort_queues (n : Nat) (f : Cohort → Cohort) : (s.updCohort n f).queues = s.queues := rfl
@[simp] theorem State.updCohort_mem (n : Nat) (f : Cohort → Cohort) : (s.updCohort n f).mem = s.mem := rfl
@[simp] theorem State.updCohort_tags (n : Nat) (f : Cohort → Cohort) : (s.updCohort n f).tags = s.tags := rfl
@[simp] theorem State.updCohort_rel (n : Nat) (f : Cohort → Cohort) : (s.updCohort n f).rel = s.rel := rfl
@[simp] theorem State.updCohort_bad (n : Nat) (f : Cohort → Cohort) : (s.updCohort n f).bad = s.bad := rfl
@[simp] theorem State.updCohort_tlb (n : Nat) (f : Cohort → Cohort) : (s.updCohort n f).tlb = s.tlb := rfl
@[simp] theorem State.updCohort_staging (n : Nat) (f : Cohort → Cohort) : (s.updCohort n f).staging = s.staging := rfl
@[simp] theorem State.updCohort_pages (n : Nat) (f : Cohort → Cohort) : (s.updCohort n f).pages = s.pages := rfl
@[simp] theorem State.updCohort_pubs (n : Nat) (f : Cohort → Cohort) : (s.updCohort n f).pubs = s.pubs := rfl
@[simp] theorem State.updCohort_ctxs (n : Nat) (f : Cohort → Cohort) : (s.updCohort n f).ctxs = s.ctxs := rfl
@[simp] theorem State.updCohort_last (n : Nat) (f : Cohort → Cohort) : (s.updCohort n f).last = s.last := rfl
@[simp] theorem State.updCohort_keyed (n : Nat) (f : Cohort → Cohort) : (s.updCohort n f).keyed = s.keyed := rfl
@[simp] theorem State.updCohort_icache (n : Nat) (f : Cohort → Cohort) : (s.updCohort n f).icache = s.icache := rfl
@[simp] theorem State.updCohort_legs (n : Nat) (f : Cohort → Cohort) : (s.updCohort n f).legs = s.legs := rfl
@[simp] theorem State.updCohort_rtSeq (n : Nat) (f : Cohort → Cohort) : (s.updCohort n f).rtSeq = s.rtSeq := rfl
@[simp] theorem State.updCohort_pools (n : Nat) (f : Cohort → Cohort) : (s.updCohort n f).pools = s.pools := rfl
@[simp] theorem State.updCohort_buckets (n : Nat) (f : Cohort → Cohort) : (s.updCohort n f).buckets = s.buckets := rfl
@[simp] theorem State.updCohort_records (n : Nat) (f : Cohort → Cohort) : (s.updCohort n f).records = s.records := rfl
@[simp] theorem State.updCohort_fields (n : Nat) (f : Cohort → Cohort) : (s.updCohort n f).fields = s.fields := rfl
@[simp] theorem State.updCohort_cohorts (n : Nat) (f : Cohort → Cohort) : (s.updCohort n f).cohorts = Tbl.upd s.cohorts n f := rfl
@[simp] theorem State.updCohort_teams (n : Nat) (f : Cohort → Cohort) : (s.updCohort n f).teams = s.teams := rfl
@[simp] theorem State.updCohort_weaves (n : Nat) (f : Cohort → Cohort) : (s.updCohort n f).weaves = s.weaves := rfl
@[simp] theorem State.updCohort_lsOps (n : Nat) (f : Cohort → Cohort) : (s.updCohort n f).lsOps = s.lsOps := rfl
@[simp] theorem State.updCohort_ott (n : Nat) (f : Cohort → Cohort) : (s.updCohort n f).ott = s.ott := rfl
@[simp] theorem State.updCohort_phOps (n : Nat) (f : Cohort → Cohort) : (s.updCohort n f).phOps = s.phOps := rfl
@[simp] theorem State.updCohort_copies (n : Nat) (f : Cohort → Cohort) : (s.updCohort n f).copies = s.copies := rfl
@[simp] theorem State.updCohort_kvOps (n : Nat) (f : Cohort → Cohort) : (s.updCohort n f).kvOps = s.kvOps := rfl
@[simp] theorem State.updCohort_voids (n : Nat) (f : Cohort → Cohort) : (s.updCohort n f).voids = s.voids := rfl
@[simp] theorem State.updCohort_scopeOps (n : Nat) (f : Cohort → Cohort) : (s.updCohort n f).scopeOps = s.scopeOps := rfl
@[simp] theorem State.updCohort_cancels (n : Nat) (f : Cohort → Cohort) : (s.updCohort n f).cancels = s.cancels := rfl
@[simp] theorem State.updCohort_maskLoads (n : Nat) (f : Cohort → Cohort) : (s.updCohort n f).maskLoads = s.maskLoads := rfl
@[simp] theorem State.updCohort_mxReqs (n : Nat) (f : Cohort → Cohort) : (s.updCohort n f).mxReqs = s.mxReqs := rfl
@[simp] theorem State.updCohort_batches (n : Nat) (f : Cohort → Cohort) : (s.updCohort n f).batches = s.batches := rfl
@[simp] theorem State.updCohort_faults (n : Nat) (f : Cohort → Cohort) : (s.updCohort n f).faults = s.faults := rfl
@[simp] theorem State.updCohort_shoots (n : Nat) (f : Cohort → Cohort) : (s.updCohort n f).shoots = s.shoots := rfl
@[simp] theorem State.updCohort_devWrites (n : Nat) (f : Cohort → Cohort) : (s.updCohort n f).devWrites = s.devWrites := rfl
@[simp] theorem State.updCohort_inbound (n : Nat) (f : Cohort → Cohort) : (s.updCohort n f).inbound = s.inbound := rfl
@[simp] theorem State.updCohort_apOps (n : Nat) (f : Cohort → Cohort) : (s.updCohort n f).apOps = s.apOps := rfl
@[simp] theorem State.updCohort_out (n : Nat) (f : Cohort → Cohort) : (s.updCohort n f).out = s.out := rfl

@[simp] theorem State.updField_clock (n : Nat) (f : Field → Field) : (s.updField n f).clock = s.clock := rfl
@[simp] theorem State.updField_agenda (n : Nat) (f : Field → Field) : (s.updField n f).agenda = s.agenda := rfl
@[simp] theorem State.updField_nextId (n : Nat) (f : Field → Field) : (s.updField n f).nextId = s.nextId := rfl
@[simp] theorem State.updField_freeIdx (n : Nat) (f : Field → Field) : (s.updField n f).freeIdx = s.freeIdx := rfl
@[simp] theorem State.updField_cur (n : Nat) (f : Field → Field) : (s.updField n f).cur = s.cur := rfl
@[simp] theorem State.updField_physNum (n : Nat) (f : Field → Field) : (s.updField n f).physNum = s.physNum := rfl
@[simp] theorem State.updField_hd (n : Nat) (f : Field → Field) : (s.updField n f).hd = s.hd := rfl
@[simp] theorem State.updField_dies (n : Nat) (f : Field → Field) : (s.updField n f).dies = s.dies := rfl
@[simp] theorem State.updField_parts (n : Nat) (f : Field → Field) : (s.updField n f).parts = s.parts := rfl
@[simp] theorem State.updField_queues (n : Nat) (f : Field → Field) : (s.updField n f).queues = s.queues := rfl
@[simp] theorem State.updField_mem (n : Nat) (f : Field → Field) : (s.updField n f).mem = s.mem := rfl
@[simp] theorem State.updField_tags (n : Nat) (f : Field → Field) : (s.updField n f).tags = s.tags := rfl
@[simp] theorem State.updField_rel (n : Nat) (f : Field → Field) : (s.updField n f).rel = s.rel := rfl
@[simp] theorem State.updField_bad (n : Nat) (f : Field → Field) : (s.updField n f).bad = s.bad := rfl
@[simp] theorem State.updField_tlb (n : Nat) (f : Field → Field) : (s.updField n f).tlb = s.tlb := rfl
@[simp] theorem State.updField_staging (n : Nat) (f : Field → Field) : (s.updField n f).staging = s.staging := rfl
@[simp] theorem State.updField_pages (n : Nat) (f : Field → Field) : (s.updField n f).pages = s.pages := rfl
@[simp] theorem State.updField_pubs (n : Nat) (f : Field → Field) : (s.updField n f).pubs = s.pubs := rfl
@[simp] theorem State.updField_ctxs (n : Nat) (f : Field → Field) : (s.updField n f).ctxs = s.ctxs := rfl
@[simp] theorem State.updField_last (n : Nat) (f : Field → Field) : (s.updField n f).last = s.last := rfl
@[simp] theorem State.updField_keyed (n : Nat) (f : Field → Field) : (s.updField n f).keyed = s.keyed := rfl
@[simp] theorem State.updField_icache (n : Nat) (f : Field → Field) : (s.updField n f).icache = s.icache := rfl
@[simp] theorem State.updField_legs (n : Nat) (f : Field → Field) : (s.updField n f).legs = s.legs := rfl
@[simp] theorem State.updField_rtSeq (n : Nat) (f : Field → Field) : (s.updField n f).rtSeq = s.rtSeq := rfl
@[simp] theorem State.updField_pools (n : Nat) (f : Field → Field) : (s.updField n f).pools = s.pools := rfl
@[simp] theorem State.updField_buckets (n : Nat) (f : Field → Field) : (s.updField n f).buckets = s.buckets := rfl
@[simp] theorem State.updField_records (n : Nat) (f : Field → Field) : (s.updField n f).records = s.records := rfl
@[simp] theorem State.updField_fields (n : Nat) (f : Field → Field) : (s.updField n f).fields = Tbl.upd s.fields n f := rfl
@[simp] theorem State.updField_cohorts (n : Nat) (f : Field → Field) : (s.updField n f).cohorts = s.cohorts := rfl
@[simp] theorem State.updField_teams (n : Nat) (f : Field → Field) : (s.updField n f).teams = s.teams := rfl
@[simp] theorem State.updField_weaves (n : Nat) (f : Field → Field) : (s.updField n f).weaves = s.weaves := rfl
@[simp] theorem State.updField_lsOps (n : Nat) (f : Field → Field) : (s.updField n f).lsOps = s.lsOps := rfl
@[simp] theorem State.updField_ott (n : Nat) (f : Field → Field) : (s.updField n f).ott = s.ott := rfl
@[simp] theorem State.updField_phOps (n : Nat) (f : Field → Field) : (s.updField n f).phOps = s.phOps := rfl
@[simp] theorem State.updField_copies (n : Nat) (f : Field → Field) : (s.updField n f).copies = s.copies := rfl
@[simp] theorem State.updField_kvOps (n : Nat) (f : Field → Field) : (s.updField n f).kvOps = s.kvOps := rfl
@[simp] theorem State.updField_voids (n : Nat) (f : Field → Field) : (s.updField n f).voids = s.voids := rfl
@[simp] theorem State.updField_scopeOps (n : Nat) (f : Field → Field) : (s.updField n f).scopeOps = s.scopeOps := rfl
@[simp] theorem State.updField_cancels (n : Nat) (f : Field → Field) : (s.updField n f).cancels = s.cancels := rfl
@[simp] theorem State.updField_maskLoads (n : Nat) (f : Field → Field) : (s.updField n f).maskLoads = s.maskLoads := rfl
@[simp] theorem State.updField_mxReqs (n : Nat) (f : Field → Field) : (s.updField n f).mxReqs = s.mxReqs := rfl
@[simp] theorem State.updField_batches (n : Nat) (f : Field → Field) : (s.updField n f).batches = s.batches := rfl
@[simp] theorem State.updField_faults (n : Nat) (f : Field → Field) : (s.updField n f).faults = s.faults := rfl
@[simp] theorem State.updField_shoots (n : Nat) (f : Field → Field) : (s.updField n f).shoots = s.shoots := rfl
@[simp] theorem State.updField_devWrites (n : Nat) (f : Field → Field) : (s.updField n f).devWrites = s.devWrites := rfl
@[simp] theorem State.updField_inbound (n : Nat) (f : Field → Field) : (s.updField n f).inbound = s.inbound := rfl
@[simp] theorem State.updField_apOps (n : Nat) (f : Field → Field) : (s.updField n f).apOps = s.apOps := rfl
@[simp] theorem State.updField_out (n : Nat) (f : Field → Field) : (s.updField n f).out = s.out := rfl

@[simp] theorem State.updLs_clock (n : Nat) (f : LsOp → LsOp) : (s.updLs n f).clock = s.clock := rfl
@[simp] theorem State.updLs_agenda (n : Nat) (f : LsOp → LsOp) : (s.updLs n f).agenda = s.agenda := rfl
@[simp] theorem State.updLs_nextId (n : Nat) (f : LsOp → LsOp) : (s.updLs n f).nextId = s.nextId := rfl
@[simp] theorem State.updLs_freeIdx (n : Nat) (f : LsOp → LsOp) : (s.updLs n f).freeIdx = s.freeIdx := rfl
@[simp] theorem State.updLs_cur (n : Nat) (f : LsOp → LsOp) : (s.updLs n f).cur = s.cur := rfl
@[simp] theorem State.updLs_physNum (n : Nat) (f : LsOp → LsOp) : (s.updLs n f).physNum = s.physNum := rfl
@[simp] theorem State.updLs_hd (n : Nat) (f : LsOp → LsOp) : (s.updLs n f).hd = s.hd := rfl
@[simp] theorem State.updLs_dies (n : Nat) (f : LsOp → LsOp) : (s.updLs n f).dies = s.dies := rfl
@[simp] theorem State.updLs_parts (n : Nat) (f : LsOp → LsOp) : (s.updLs n f).parts = s.parts := rfl
@[simp] theorem State.updLs_queues (n : Nat) (f : LsOp → LsOp) : (s.updLs n f).queues = s.queues := rfl
@[simp] theorem State.updLs_mem (n : Nat) (f : LsOp → LsOp) : (s.updLs n f).mem = s.mem := rfl
@[simp] theorem State.updLs_tags (n : Nat) (f : LsOp → LsOp) : (s.updLs n f).tags = s.tags := rfl
@[simp] theorem State.updLs_rel (n : Nat) (f : LsOp → LsOp) : (s.updLs n f).rel = s.rel := rfl
@[simp] theorem State.updLs_bad (n : Nat) (f : LsOp → LsOp) : (s.updLs n f).bad = s.bad := rfl
@[simp] theorem State.updLs_tlb (n : Nat) (f : LsOp → LsOp) : (s.updLs n f).tlb = s.tlb := rfl
@[simp] theorem State.updLs_staging (n : Nat) (f : LsOp → LsOp) : (s.updLs n f).staging = s.staging := rfl
@[simp] theorem State.updLs_pages (n : Nat) (f : LsOp → LsOp) : (s.updLs n f).pages = s.pages := rfl
@[simp] theorem State.updLs_pubs (n : Nat) (f : LsOp → LsOp) : (s.updLs n f).pubs = s.pubs := rfl
@[simp] theorem State.updLs_ctxs (n : Nat) (f : LsOp → LsOp) : (s.updLs n f).ctxs = s.ctxs := rfl
@[simp] theorem State.updLs_last (n : Nat) (f : LsOp → LsOp) : (s.updLs n f).last = s.last := rfl
@[simp] theorem State.updLs_keyed (n : Nat) (f : LsOp → LsOp) : (s.updLs n f).keyed = s.keyed := rfl
@[simp] theorem State.updLs_icache (n : Nat) (f : LsOp → LsOp) : (s.updLs n f).icache = s.icache := rfl
@[simp] theorem State.updLs_legs (n : Nat) (f : LsOp → LsOp) : (s.updLs n f).legs = s.legs := rfl
@[simp] theorem State.updLs_rtSeq (n : Nat) (f : LsOp → LsOp) : (s.updLs n f).rtSeq = s.rtSeq := rfl
@[simp] theorem State.updLs_pools (n : Nat) (f : LsOp → LsOp) : (s.updLs n f).pools = s.pools := rfl
@[simp] theorem State.updLs_buckets (n : Nat) (f : LsOp → LsOp) : (s.updLs n f).buckets = s.buckets := rfl
@[simp] theorem State.updLs_records (n : Nat) (f : LsOp → LsOp) : (s.updLs n f).records = s.records := rfl
@[simp] theorem State.updLs_fields (n : Nat) (f : LsOp → LsOp) : (s.updLs n f).fields = s.fields := rfl
@[simp] theorem State.updLs_cohorts (n : Nat) (f : LsOp → LsOp) : (s.updLs n f).cohorts = s.cohorts := rfl
@[simp] theorem State.updLs_teams (n : Nat) (f : LsOp → LsOp) : (s.updLs n f).teams = s.teams := rfl
@[simp] theorem State.updLs_weaves (n : Nat) (f : LsOp → LsOp) : (s.updLs n f).weaves = s.weaves := rfl
@[simp] theorem State.updLs_lsOps (n : Nat) (f : LsOp → LsOp) : (s.updLs n f).lsOps = Tbl.upd s.lsOps n f := rfl
@[simp] theorem State.updLs_ott (n : Nat) (f : LsOp → LsOp) : (s.updLs n f).ott = s.ott := rfl
@[simp] theorem State.updLs_phOps (n : Nat) (f : LsOp → LsOp) : (s.updLs n f).phOps = s.phOps := rfl
@[simp] theorem State.updLs_copies (n : Nat) (f : LsOp → LsOp) : (s.updLs n f).copies = s.copies := rfl
@[simp] theorem State.updLs_kvOps (n : Nat) (f : LsOp → LsOp) : (s.updLs n f).kvOps = s.kvOps := rfl
@[simp] theorem State.updLs_voids (n : Nat) (f : LsOp → LsOp) : (s.updLs n f).voids = s.voids := rfl
@[simp] theorem State.updLs_scopeOps (n : Nat) (f : LsOp → LsOp) : (s.updLs n f).scopeOps = s.scopeOps := rfl
@[simp] theorem State.updLs_cancels (n : Nat) (f : LsOp → LsOp) : (s.updLs n f).cancels = s.cancels := rfl
@[simp] theorem State.updLs_maskLoads (n : Nat) (f : LsOp → LsOp) : (s.updLs n f).maskLoads = s.maskLoads := rfl
@[simp] theorem State.updLs_mxReqs (n : Nat) (f : LsOp → LsOp) : (s.updLs n f).mxReqs = s.mxReqs := rfl
@[simp] theorem State.updLs_batches (n : Nat) (f : LsOp → LsOp) : (s.updLs n f).batches = s.batches := rfl
@[simp] theorem State.updLs_faults (n : Nat) (f : LsOp → LsOp) : (s.updLs n f).faults = s.faults := rfl
@[simp] theorem State.updLs_shoots (n : Nat) (f : LsOp → LsOp) : (s.updLs n f).shoots = s.shoots := rfl
@[simp] theorem State.updLs_devWrites (n : Nat) (f : LsOp → LsOp) : (s.updLs n f).devWrites = s.devWrites := rfl
@[simp] theorem State.updLs_inbound (n : Nat) (f : LsOp → LsOp) : (s.updLs n f).inbound = s.inbound := rfl
@[simp] theorem State.updLs_apOps (n : Nat) (f : LsOp → LsOp) : (s.updLs n f).apOps = s.apOps := rfl
@[simp] theorem State.updLs_out (n : Nat) (f : LsOp → LsOp) : (s.updLs n f).out = s.out := rfl

@[simp] theorem State.updCopy_clock (n : Nat) (f : Copy → Copy) : (s.updCopy n f).clock = s.clock := rfl
@[simp] theorem State.updCopy_agenda (n : Nat) (f : Copy → Copy) : (s.updCopy n f).agenda = s.agenda := rfl
@[simp] theorem State.updCopy_nextId (n : Nat) (f : Copy → Copy) : (s.updCopy n f).nextId = s.nextId := rfl
@[simp] theorem State.updCopy_freeIdx (n : Nat) (f : Copy → Copy) : (s.updCopy n f).freeIdx = s.freeIdx := rfl
@[simp] theorem State.updCopy_cur (n : Nat) (f : Copy → Copy) : (s.updCopy n f).cur = s.cur := rfl
@[simp] theorem State.updCopy_physNum (n : Nat) (f : Copy → Copy) : (s.updCopy n f).physNum = s.physNum := rfl
@[simp] theorem State.updCopy_hd (n : Nat) (f : Copy → Copy) : (s.updCopy n f).hd = s.hd := rfl
@[simp] theorem State.updCopy_dies (n : Nat) (f : Copy → Copy) : (s.updCopy n f).dies = s.dies := rfl
@[simp] theorem State.updCopy_parts (n : Nat) (f : Copy → Copy) : (s.updCopy n f).parts = s.parts := rfl
@[simp] theorem State.updCopy_queues (n : Nat) (f : Copy → Copy) : (s.updCopy n f).queues = s.queues := rfl
@[simp] theorem State.updCopy_mem (n : Nat) (f : Copy → Copy) : (s.updCopy n f).mem = s.mem := rfl
@[simp] theorem State.updCopy_tags (n : Nat) (f : Copy → Copy) : (s.updCopy n f).tags = s.tags := rfl
@[simp] theorem State.updCopy_rel (n : Nat) (f : Copy → Copy) : (s.updCopy n f).rel = s.rel := rfl
@[simp] theorem State.updCopy_bad (n : Nat) (f : Copy → Copy) : (s.updCopy n f).bad = s.bad := rfl
@[simp] theorem State.updCopy_tlb (n : Nat) (f : Copy → Copy) : (s.updCopy n f).tlb = s.tlb := rfl
@[simp] theorem State.updCopy_staging (n : Nat) (f : Copy → Copy) : (s.updCopy n f).staging = s.staging := rfl
@[simp] theorem State.updCopy_pages (n : Nat) (f : Copy → Copy) : (s.updCopy n f).pages = s.pages := rfl
@[simp] theorem State.updCopy_pubs (n : Nat) (f : Copy → Copy) : (s.updCopy n f).pubs = s.pubs := rfl
@[simp] theorem State.updCopy_ctxs (n : Nat) (f : Copy → Copy) : (s.updCopy n f).ctxs = s.ctxs := rfl
@[simp] theorem State.updCopy_last (n : Nat) (f : Copy → Copy) : (s.updCopy n f).last = s.last := rfl
@[simp] theorem State.updCopy_keyed (n : Nat) (f : Copy → Copy) : (s.updCopy n f).keyed = s.keyed := rfl
@[simp] theorem State.updCopy_icache (n : Nat) (f : Copy → Copy) : (s.updCopy n f).icache = s.icache := rfl
@[simp] theorem State.updCopy_legs (n : Nat) (f : Copy → Copy) : (s.updCopy n f).legs = s.legs := rfl
@[simp] theorem State.updCopy_rtSeq (n : Nat) (f : Copy → Copy) : (s.updCopy n f).rtSeq = s.rtSeq := rfl
@[simp] theorem State.updCopy_pools (n : Nat) (f : Copy → Copy) : (s.updCopy n f).pools = s.pools := rfl
@[simp] theorem State.updCopy_buckets (n : Nat) (f : Copy → Copy) : (s.updCopy n f).buckets = s.buckets := rfl
@[simp] theorem State.updCopy_records (n : Nat) (f : Copy → Copy) : (s.updCopy n f).records = s.records := rfl
@[simp] theorem State.updCopy_fields (n : Nat) (f : Copy → Copy) : (s.updCopy n f).fields = s.fields := rfl
@[simp] theorem State.updCopy_cohorts (n : Nat) (f : Copy → Copy) : (s.updCopy n f).cohorts = s.cohorts := rfl
@[simp] theorem State.updCopy_teams (n : Nat) (f : Copy → Copy) : (s.updCopy n f).teams = s.teams := rfl
@[simp] theorem State.updCopy_weaves (n : Nat) (f : Copy → Copy) : (s.updCopy n f).weaves = s.weaves := rfl
@[simp] theorem State.updCopy_lsOps (n : Nat) (f : Copy → Copy) : (s.updCopy n f).lsOps = s.lsOps := rfl
@[simp] theorem State.updCopy_ott (n : Nat) (f : Copy → Copy) : (s.updCopy n f).ott = s.ott := rfl
@[simp] theorem State.updCopy_phOps (n : Nat) (f : Copy → Copy) : (s.updCopy n f).phOps = s.phOps := rfl
@[simp] theorem State.updCopy_copies (n : Nat) (f : Copy → Copy) : (s.updCopy n f).copies = Tbl.upd s.copies n f := rfl
@[simp] theorem State.updCopy_kvOps (n : Nat) (f : Copy → Copy) : (s.updCopy n f).kvOps = s.kvOps := rfl
@[simp] theorem State.updCopy_voids (n : Nat) (f : Copy → Copy) : (s.updCopy n f).voids = s.voids := rfl
@[simp] theorem State.updCopy_scopeOps (n : Nat) (f : Copy → Copy) : (s.updCopy n f).scopeOps = s.scopeOps := rfl
@[simp] theorem State.updCopy_cancels (n : Nat) (f : Copy → Copy) : (s.updCopy n f).cancels = s.cancels := rfl
@[simp] theorem State.updCopy_maskLoads (n : Nat) (f : Copy → Copy) : (s.updCopy n f).maskLoads = s.maskLoads := rfl
@[simp] theorem State.updCopy_mxReqs (n : Nat) (f : Copy → Copy) : (s.updCopy n f).mxReqs = s.mxReqs := rfl
@[simp] theorem State.updCopy_batches (n : Nat) (f : Copy → Copy) : (s.updCopy n f).batches = s.batches := rfl
@[simp] theorem State.updCopy_faults (n : Nat) (f : Copy → Copy) : (s.updCopy n f).faults = s.faults := rfl
@[simp] theorem State.updCopy_shoots (n : Nat) (f : Copy → Copy) : (s.updCopy n f).shoots = s.shoots := rfl
@[simp] theorem State.updCopy_devWrites (n : Nat) (f : Copy → Copy) : (s.updCopy n f).devWrites = s.devWrites := rfl
@[simp] theorem State.updCopy_inbound (n : Nat) (f : Copy → Copy) : (s.updCopy n f).inbound = s.inbound := rfl
@[simp] theorem State.updCopy_apOps (n : Nat) (f : Copy → Copy) : (s.updCopy n f).apOps = s.apOps := rfl
@[simp] theorem State.updCopy_out (n : Nat) (f : Copy → Copy) : (s.updCopy n f).out = s.out := rfl

@[simp] theorem State.updKv_clock (n : Nat) (f : KvOp → KvOp) : (s.updKv n f).clock = s.clock := rfl
@[simp] theorem State.updKv_agenda (n : Nat) (f : KvOp → KvOp) : (s.updKv n f).agenda = s.agenda := rfl
@[simp] theorem State.updKv_nextId (n : Nat) (f : KvOp → KvOp) : (s.updKv n f).nextId = s.nextId := rfl
@[simp] theorem State.updKv_freeIdx (n : Nat) (f : KvOp → KvOp) : (s.updKv n f).freeIdx = s.freeIdx := rfl
@[simp] theorem State.updKv_cur (n : Nat) (f : KvOp → KvOp) : (s.updKv n f).cur = s.cur := rfl
@[simp] theorem State.updKv_physNum (n : Nat) (f : KvOp → KvOp) : (s.updKv n f).physNum = s.physNum := rfl
@[simp] theorem State.updKv_hd (n : Nat) (f : KvOp → KvOp) : (s.updKv n f).hd = s.hd := rfl
@[simp] theorem State.updKv_dies (n : Nat) (f : KvOp → KvOp) : (s.updKv n f).dies = s.dies := rfl
@[simp] theorem State.updKv_parts (n : Nat) (f : KvOp → KvOp) : (s.updKv n f).parts = s.parts := rfl
@[simp] theorem State.updKv_queues (n : Nat) (f : KvOp → KvOp) : (s.updKv n f).queues = s.queues := rfl
@[simp] theorem State.updKv_mem (n : Nat) (f : KvOp → KvOp) : (s.updKv n f).mem = s.mem := rfl
@[simp] theorem State.updKv_tags (n : Nat) (f : KvOp → KvOp) : (s.updKv n f).tags = s.tags := rfl
@[simp] theorem State.updKv_rel (n : Nat) (f : KvOp → KvOp) : (s.updKv n f).rel = s.rel := rfl
@[simp] theorem State.updKv_bad (n : Nat) (f : KvOp → KvOp) : (s.updKv n f).bad = s.bad := rfl
@[simp] theorem State.updKv_tlb (n : Nat) (f : KvOp → KvOp) : (s.updKv n f).tlb = s.tlb := rfl
@[simp] theorem State.updKv_staging (n : Nat) (f : KvOp → KvOp) : (s.updKv n f).staging = s.staging := rfl
@[simp] theorem State.updKv_pages (n : Nat) (f : KvOp → KvOp) : (s.updKv n f).pages = s.pages := rfl
@[simp] theorem State.updKv_pubs (n : Nat) (f : KvOp → KvOp) : (s.updKv n f).pubs = s.pubs := rfl
@[simp] theorem State.updKv_ctxs (n : Nat) (f : KvOp → KvOp) : (s.updKv n f).ctxs = s.ctxs := rfl
@[simp] theorem State.updKv_last (n : Nat) (f : KvOp → KvOp) : (s.updKv n f).last = s.last := rfl
@[simp] theorem State.updKv_keyed (n : Nat) (f : KvOp → KvOp) : (s.updKv n f).keyed = s.keyed := rfl
@[simp] theorem State.updKv_icache (n : Nat) (f : KvOp → KvOp) : (s.updKv n f).icache = s.icache := rfl
@[simp] theorem State.updKv_legs (n : Nat) (f : KvOp → KvOp) : (s.updKv n f).legs = s.legs := rfl
@[simp] theorem State.updKv_rtSeq (n : Nat) (f : KvOp → KvOp) : (s.updKv n f).rtSeq = s.rtSeq := rfl
@[simp] theorem State.updKv_pools (n : Nat) (f : KvOp → KvOp) : (s.updKv n f).pools = s.pools := rfl
@[simp] theorem State.updKv_buckets (n : Nat) (f : KvOp → KvOp) : (s.updKv n f).buckets = s.buckets := rfl
@[simp] theorem State.updKv_records (n : Nat) (f : KvOp → KvOp) : (s.updKv n f).records = s.records := rfl
@[simp] theorem State.updKv_fields (n : Nat) (f : KvOp → KvOp) : (s.updKv n f).fields = s.fields := rfl
@[simp] theorem State.updKv_cohorts (n : Nat) (f : KvOp → KvOp) : (s.updKv n f).cohorts = s.cohorts := rfl
@[simp] theorem State.updKv_teams (n : Nat) (f : KvOp → KvOp) : (s.updKv n f).teams = s.teams := rfl
@[simp] theorem State.updKv_weaves (n : Nat) (f : KvOp → KvOp) : (s.updKv n f).weaves = s.weaves := rfl
@[simp] theorem State.updKv_lsOps (n : Nat) (f : KvOp → KvOp) : (s.updKv n f).lsOps = s.lsOps := rfl
@[simp] theorem State.updKv_ott (n : Nat) (f : KvOp → KvOp) : (s.updKv n f).ott = s.ott := rfl
@[simp] theorem State.updKv_phOps (n : Nat) (f : KvOp → KvOp) : (s.updKv n f).phOps = s.phOps := rfl
@[simp] theorem State.updKv_copies (n : Nat) (f : KvOp → KvOp) : (s.updKv n f).copies = s.copies := rfl
@[simp] theorem State.updKv_kvOps (n : Nat) (f : KvOp → KvOp) : (s.updKv n f).kvOps = Tbl.upd s.kvOps n f := rfl
@[simp] theorem State.updKv_voids (n : Nat) (f : KvOp → KvOp) : (s.updKv n f).voids = s.voids := rfl
@[simp] theorem State.updKv_scopeOps (n : Nat) (f : KvOp → KvOp) : (s.updKv n f).scopeOps = s.scopeOps := rfl
@[simp] theorem State.updKv_cancels (n : Nat) (f : KvOp → KvOp) : (s.updKv n f).cancels = s.cancels := rfl
@[simp] theorem State.updKv_maskLoads (n : Nat) (f : KvOp → KvOp) : (s.updKv n f).maskLoads = s.maskLoads := rfl
@[simp] theorem State.updKv_mxReqs (n : Nat) (f : KvOp → KvOp) : (s.updKv n f).mxReqs = s.mxReqs := rfl
@[simp] theorem State.updKv_batches (n : Nat) (f : KvOp → KvOp) : (s.updKv n f).batches = s.batches := rfl
@[simp] theorem State.updKv_faults (n : Nat) (f : KvOp → KvOp) : (s.updKv n f).faults = s.faults := rfl
@[simp] theorem State.updKv_shoots (n : Nat) (f : KvOp → KvOp) : (s.updKv n f).shoots = s.shoots := rfl
@[simp] theorem State.updKv_devWrites (n : Nat) (f : KvOp → KvOp) : (s.updKv n f).devWrites = s.devWrites := rfl
@[simp] theorem State.updKv_inbound (n : Nat) (f : KvOp → KvOp) : (s.updKv n f).inbound = s.inbound := rfl
@[simp] theorem State.updKv_apOps (n : Nat) (f : KvOp → KvOp) : (s.updKv n f).apOps = s.apOps := rfl
@[simp] theorem State.updKv_out (n : Nat) (f : KvOp → KvOp) : (s.updKv n f).out = s.out := rfl

@[simp] theorem State.updReq_clock (n : Nat) (f : MxReq → MxReq) : (s.updReq n f).clock = s.clock := rfl
@[simp] theorem State.updReq_agenda (n : Nat) (f : MxReq → MxReq) : (s.updReq n f).agenda = s.agenda := rfl
@[simp] theorem State.updReq_nextId (n : Nat) (f : MxReq → MxReq) : (s.updReq n f).nextId = s.nextId := rfl
@[simp] theorem State.updReq_freeIdx (n : Nat) (f : MxReq → MxReq) : (s.updReq n f).freeIdx = s.freeIdx := rfl
@[simp] theorem State.updReq_cur (n : Nat) (f : MxReq → MxReq) : (s.updReq n f).cur = s.cur := rfl
@[simp] theorem State.updReq_physNum (n : Nat) (f : MxReq → MxReq) : (s.updReq n f).physNum = s.physNum := rfl
@[simp] theorem State.updReq_hd (n : Nat) (f : MxReq → MxReq) : (s.updReq n f).hd = s.hd := rfl
@[simp] theorem State.updReq_dies (n : Nat) (f : MxReq → MxReq) : (s.updReq n f).dies = s.dies := rfl
@[simp] theorem State.updReq_parts (n : Nat) (f : MxReq → MxReq) : (s.updReq n f).parts = s.parts := rfl
@[simp] theorem State.updReq_queues (n : Nat) (f : MxReq → MxReq) : (s.updReq n f).queues = s.queues := rfl
@[simp] theorem State.updReq_mem (n : Nat) (f : MxReq → MxReq) : (s.updReq n f).mem = s.mem := rfl
@[simp] theorem State.updReq_tags (n : Nat) (f : MxReq → MxReq) : (s.updReq n f).tags = s.tags := rfl
@[simp] theorem State.updReq_rel (n : Nat) (f : MxReq → MxReq) : (s.updReq n f).rel = s.rel := rfl
@[simp] theorem State.updReq_bad (n : Nat) (f : MxReq → MxReq) : (s.updReq n f).bad = s.bad := rfl
@[simp] theorem State.updReq_tlb (n : Nat) (f : MxReq → MxReq) : (s.updReq n f).tlb = s.tlb := rfl
@[simp] theorem State.updReq_staging (n : Nat) (f : MxReq → MxReq) : (s.updReq n f).staging = s.staging := rfl
@[simp] theorem State.updReq_pages (n : Nat) (f : MxReq → MxReq) : (s.updReq n f).pages = s.pages := rfl
@[simp] theorem State.updReq_pubs (n : Nat) (f : MxReq → MxReq) : (s.updReq n f).pubs = s.pubs := rfl
@[simp] theorem State.updReq_ctxs (n : Nat) (f : MxReq → MxReq) : (s.updReq n f).ctxs = s.ctxs := rfl
@[simp] theorem State.updReq_last (n : Nat) (f : MxReq → MxReq) : (s.updReq n f).last = s.last := rfl
@[simp] theorem State.updReq_keyed (n : Nat) (f : MxReq → MxReq) : (s.updReq n f).keyed = s.keyed := rfl
@[simp] theorem State.updReq_icache (n : Nat) (f : MxReq → MxReq) : (s.updReq n f).icache = s.icache := rfl
@[simp] theorem State.updReq_legs (n : Nat) (f : MxReq → MxReq) : (s.updReq n f).legs = s.legs := rfl
@[simp] theorem State.updReq_rtSeq (n : Nat) (f : MxReq → MxReq) : (s.updReq n f).rtSeq = s.rtSeq := rfl
@[simp] theorem State.updReq_pools (n : Nat) (f : MxReq → MxReq) : (s.updReq n f).pools = s.pools := rfl
@[simp] theorem State.updReq_buckets (n : Nat) (f : MxReq → MxReq) : (s.updReq n f).buckets = s.buckets := rfl
@[simp] theorem State.updReq_records (n : Nat) (f : MxReq → MxReq) : (s.updReq n f).records = s.records := rfl
@[simp] theorem State.updReq_fields (n : Nat) (f : MxReq → MxReq) : (s.updReq n f).fields = s.fields := rfl
@[simp] theorem State.updReq_cohorts (n : Nat) (f : MxReq → MxReq) : (s.updReq n f).cohorts = s.cohorts := rfl
@[simp] theorem State.updReq_teams (n : Nat) (f : MxReq → MxReq) : (s.updReq n f).teams = s.teams := rfl
@[simp] theorem State.updReq_weaves (n : Nat) (f : MxReq → MxReq) : (s.updReq n f).weaves = s.weaves := rfl
@[simp] theorem State.updReq_lsOps (n : Nat) (f : MxReq → MxReq) : (s.updReq n f).lsOps = s.lsOps := rfl
@[simp] theorem State.updReq_ott (n : Nat) (f : MxReq → MxReq) : (s.updReq n f).ott = s.ott := rfl
@[simp] theorem State.updReq_phOps (n : Nat) (f : MxReq → MxReq) : (s.updReq n f).phOps = s.phOps := rfl
@[simp] theorem State.updReq_copies (n : Nat) (f : MxReq → MxReq) : (s.updReq n f).copies = s.copies := rfl
@[simp] theorem State.updReq_kvOps (n : Nat) (f : MxReq → MxReq) : (s.updReq n f).kvOps = s.kvOps := rfl
@[simp] theorem State.updReq_voids (n : Nat) (f : MxReq → MxReq) : (s.updReq n f).voids = s.voids := rfl
@[simp] theorem State.updReq_scopeOps (n : Nat) (f : MxReq → MxReq) : (s.updReq n f).scopeOps = s.scopeOps := rfl
@[simp] theorem State.updReq_cancels (n : Nat) (f : MxReq → MxReq) : (s.updReq n f).cancels = s.cancels := rfl
@[simp] theorem State.updReq_maskLoads (n : Nat) (f : MxReq → MxReq) : (s.updReq n f).maskLoads = s.maskLoads := rfl
@[simp] theorem State.updReq_mxReqs (n : Nat) (f : MxReq → MxReq) : (s.updReq n f).mxReqs = Tbl.upd s.mxReqs n f := rfl
@[simp] theorem State.updReq_batches (n : Nat) (f : MxReq → MxReq) : (s.updReq n f).batches = s.batches := rfl
@[simp] theorem State.updReq_faults (n : Nat) (f : MxReq → MxReq) : (s.updReq n f).faults = s.faults := rfl
@[simp] theorem State.updReq_shoots (n : Nat) (f : MxReq → MxReq) : (s.updReq n f).shoots = s.shoots := rfl
@[simp] theorem State.updReq_devWrites (n : Nat) (f : MxReq → MxReq) : (s.updReq n f).devWrites = s.devWrites := rfl
@[simp] theorem State.updReq_inbound (n : Nat) (f : MxReq → MxReq) : (s.updReq n f).inbound = s.inbound := rfl
@[simp] theorem State.updReq_apOps (n : Nat) (f : MxReq → MxReq) : (s.updReq n f).apOps = s.apOps := rfl
@[simp] theorem State.updReq_out (n : Nat) (f : MxReq → MxReq) : (s.updReq n f).out = s.out := rfl

@[simp] theorem State.updBatch_clock (n : Nat) (f : Batch → Batch) : (s.updBatch n f).clock = s.clock := rfl
@[simp] theorem State.updBatch_agenda (n : Nat) (f : Batch → Batch) : (s.updBatch n f).agenda = s.agenda := rfl
@[simp] theorem State.updBatch_nextId (n : Nat) (f : Batch → Batch) : (s.updBatch n f).nextId = s.nextId := rfl
@[simp] theorem State.updBatch_freeIdx (n : Nat) (f : Batch → Batch) : (s.updBatch n f).freeIdx = s.freeIdx := rfl
@[simp] theorem State.updBatch_cur (n : Nat) (f : Batch → Batch) : (s.updBatch n f).cur = s.cur := rfl
@[simp] theorem State.updBatch_physNum (n : Nat) (f : Batch → Batch) : (s.updBatch n f).physNum = s.physNum := rfl
@[simp] theorem State.updBatch_hd (n : Nat) (f : Batch → Batch) : (s.updBatch n f).hd = s.hd := rfl
@[simp] theorem State.updBatch_dies (n : Nat) (f : Batch → Batch) : (s.updBatch n f).dies = s.dies := rfl
@[simp] theorem State.updBatch_parts (n : Nat) (f : Batch → Batch) : (s.updBatch n f).parts = s.parts := rfl
@[simp] theorem State.updBatch_queues (n : Nat) (f : Batch → Batch) : (s.updBatch n f).queues = s.queues := rfl
@[simp] theorem State.updBatch_mem (n : Nat) (f : Batch → Batch) : (s.updBatch n f).mem = s.mem := rfl
@[simp] theorem State.updBatch_tags (n : Nat) (f : Batch → Batch) : (s.updBatch n f).tags = s.tags := rfl
@[simp] theorem State.updBatch_rel (n : Nat) (f : Batch → Batch) : (s.updBatch n f).rel = s.rel := rfl
@[simp] theorem State.updBatch_bad (n : Nat) (f : Batch → Batch) : (s.updBatch n f).bad = s.bad := rfl
@[simp] theorem State.updBatch_tlb (n : Nat) (f : Batch → Batch) : (s.updBatch n f).tlb = s.tlb := rfl
@[simp] theorem State.updBatch_staging (n : Nat) (f : Batch → Batch) : (s.updBatch n f).staging = s.staging := rfl
@[simp] theorem State.updBatch_pages (n : Nat) (f : Batch → Batch) : (s.updBatch n f).pages = s.pages := rfl
@[simp] theorem State.updBatch_pubs (n : Nat) (f : Batch → Batch) : (s.updBatch n f).pubs = s.pubs := rfl
@[simp] theorem State.updBatch_ctxs (n : Nat) (f : Batch → Batch) : (s.updBatch n f).ctxs = s.ctxs := rfl
@[simp] theorem State.updBatch_last (n : Nat) (f : Batch → Batch) : (s.updBatch n f).last = s.last := rfl
@[simp] theorem State.updBatch_keyed (n : Nat) (f : Batch → Batch) : (s.updBatch n f).keyed = s.keyed := rfl
@[simp] theorem State.updBatch_icache (n : Nat) (f : Batch → Batch) : (s.updBatch n f).icache = s.icache := rfl
@[simp] theorem State.updBatch_legs (n : Nat) (f : Batch → Batch) : (s.updBatch n f).legs = s.legs := rfl
@[simp] theorem State.updBatch_rtSeq (n : Nat) (f : Batch → Batch) : (s.updBatch n f).rtSeq = s.rtSeq := rfl
@[simp] theorem State.updBatch_pools (n : Nat) (f : Batch → Batch) : (s.updBatch n f).pools = s.pools := rfl
@[simp] theorem State.updBatch_buckets (n : Nat) (f : Batch → Batch) : (s.updBatch n f).buckets = s.buckets := rfl
@[simp] theorem State.updBatch_records (n : Nat) (f : Batch → Batch) : (s.updBatch n f).records = s.records := rfl
@[simp] theorem State.updBatch_fields (n : Nat) (f : Batch → Batch) : (s.updBatch n f).fields = s.fields := rfl
@[simp] theorem State.updBatch_cohorts (n : Nat) (f : Batch → Batch) : (s.updBatch n f).cohorts = s.cohorts := rfl
@[simp] theorem State.updBatch_teams (n : Nat) (f : Batch → Batch) : (s.updBatch n f).teams = s.teams := rfl
@[simp] theorem State.updBatch_weaves (n : Nat) (f : Batch → Batch) : (s.updBatch n f).weaves = s.weaves := rfl
@[simp] theorem State.updBatch_lsOps (n : Nat) (f : Batch → Batch) : (s.updBatch n f).lsOps = s.lsOps := rfl
@[simp] theorem State.updBatch_ott (n : Nat) (f : Batch → Batch) : (s.updBatch n f).ott = s.ott := rfl
@[simp] theorem State.updBatch_phOps (n : Nat) (f : Batch → Batch) : (s.updBatch n f).phOps = s.phOps := rfl
@[simp] theorem State.updBatch_copies (n : Nat) (f : Batch → Batch) : (s.updBatch n f).copies = s.copies := rfl
@[simp] theorem State.updBatch_kvOps (n : Nat) (f : Batch → Batch) : (s.updBatch n f).kvOps = s.kvOps := rfl
@[simp] theorem State.updBatch_voids (n : Nat) (f : Batch → Batch) : (s.updBatch n f).voids = s.voids := rfl
@[simp] theorem State.updBatch_scopeOps (n : Nat) (f : Batch → Batch) : (s.updBatch n f).scopeOps = s.scopeOps := rfl
@[simp] theorem State.updBatch_cancels (n : Nat) (f : Batch → Batch) : (s.updBatch n f).cancels = s.cancels := rfl
@[simp] theorem State.updBatch_maskLoads (n : Nat) (f : Batch → Batch) : (s.updBatch n f).maskLoads = s.maskLoads := rfl
@[simp] theorem State.updBatch_mxReqs (n : Nat) (f : Batch → Batch) : (s.updBatch n f).mxReqs = s.mxReqs := rfl
@[simp] theorem State.updBatch_batches (n : Nat) (f : Batch → Batch) : (s.updBatch n f).batches = Tbl.upd s.batches n f := rfl
@[simp] theorem State.updBatch_faults (n : Nat) (f : Batch → Batch) : (s.updBatch n f).faults = s.faults := rfl
@[simp] theorem State.updBatch_shoots (n : Nat) (f : Batch → Batch) : (s.updBatch n f).shoots = s.shoots := rfl
@[simp] theorem State.updBatch_devWrites (n : Nat) (f : Batch → Batch) : (s.updBatch n f).devWrites = s.devWrites := rfl
@[simp] theorem State.updBatch_inbound (n : Nat) (f : Batch → Batch) : (s.updBatch n f).inbound = s.inbound := rfl
@[simp] theorem State.updBatch_apOps (n : Nat) (f : Batch → Batch) : (s.updBatch n f).apOps = s.apOps := rfl
@[simp] theorem State.updBatch_out (n : Nat) (f : Batch → Batch) : (s.updBatch n f).out = s.out := rfl

@[simp] theorem State.emit_clock (o : Out) : (s.emit o).clock = s.clock := rfl
@[simp] theorem State.emit_agenda (o : Out) : (s.emit o).agenda = s.agenda := rfl
@[simp] theorem State.emit_nextId (o : Out) : (s.emit o).nextId = s.nextId := rfl
@[simp] theorem State.emit_freeIdx (o : Out) : (s.emit o).freeIdx = s.freeIdx := rfl
@[simp] theorem State.emit_cur (o : Out) : (s.emit o).cur = s.cur := rfl
@[simp] theorem State.emit_physNum (o : Out) : (s.emit o).physNum = s.physNum := rfl
@[simp] theorem State.emit_hd (o : Out) : (s.emit o).hd = s.hd := rfl
@[simp] theorem State.emit_dies (o : Out) : (s.emit o).dies = s.dies := rfl
@[simp] theorem State.emit_parts (o : Out) : (s.emit o).parts = s.parts := rfl
@[simp] theorem State.emit_queues (o : Out) : (s.emit o).queues = s.queues := rfl
@[simp] theorem State.emit_mem (o : Out) : (s.emit o).mem = s.mem := rfl
@[simp] theorem State.emit_tags (o : Out) : (s.emit o).tags = s.tags := rfl
@[simp] theorem State.emit_rel (o : Out) : (s.emit o).rel = s.rel := rfl
@[simp] theorem State.emit_bad (o : Out) : (s.emit o).bad = s.bad := rfl
@[simp] theorem State.emit_tlb (o : Out) : (s.emit o).tlb = s.tlb := rfl
@[simp] theorem State.emit_staging (o : Out) : (s.emit o).staging = s.staging := rfl
@[simp] theorem State.emit_pages (o : Out) : (s.emit o).pages = s.pages := rfl
@[simp] theorem State.emit_pubs (o : Out) : (s.emit o).pubs = s.pubs := rfl
@[simp] theorem State.emit_ctxs (o : Out) : (s.emit o).ctxs = s.ctxs := rfl
@[simp] theorem State.emit_last (o : Out) : (s.emit o).last = s.last := rfl
@[simp] theorem State.emit_keyed (o : Out) : (s.emit o).keyed = s.keyed := rfl
@[simp] theorem State.emit_icache (o : Out) : (s.emit o).icache = s.icache := rfl
@[simp] theorem State.emit_legs (o : Out) : (s.emit o).legs = s.legs := rfl
@[simp] theorem State.emit_rtSeq (o : Out) : (s.emit o).rtSeq = s.rtSeq := rfl
@[simp] theorem State.emit_pools (o : Out) : (s.emit o).pools = s.pools := rfl
@[simp] theorem State.emit_buckets (o : Out) : (s.emit o).buckets = s.buckets := rfl
@[simp] theorem State.emit_records (o : Out) : (s.emit o).records = s.records := rfl
@[simp] theorem State.emit_fields (o : Out) : (s.emit o).fields = s.fields := rfl
@[simp] theorem State.emit_cohorts (o : Out) : (s.emit o).cohorts = s.cohorts := rfl
@[simp] theorem State.emit_teams (o : Out) : (s.emit o).teams = s.teams := rfl
@[simp] theorem State.emit_weaves (o : Out) : (s.emit o).weaves = s.weaves := rfl
@[simp] theorem State.emit_lsOps (o : Out) : (s.emit o).lsOps = s.lsOps := rfl
@[simp] theorem State.emit_ott (o : Out) : (s.emit o).ott = s.ott := rfl
@[simp] theorem State.emit_phOps (o : Out) : (s.emit o).phOps = s.phOps := rfl
@[simp] theorem State.emit_copies (o : Out) : (s.emit o).copies = s.copies := rfl
@[simp] theorem State.emit_kvOps (o : Out) : (s.emit o).kvOps = s.kvOps := rfl
@[simp] theorem State.emit_voids (o : Out) : (s.emit o).voids = s.voids := rfl
@[simp] theorem State.emit_scopeOps (o : Out) : (s.emit o).scopeOps = s.scopeOps := rfl
@[simp] theorem State.emit_cancels (o : Out) : (s.emit o).cancels = s.cancels := rfl
@[simp] theorem State.emit_maskLoads (o : Out) : (s.emit o).maskLoads = s.maskLoads := rfl
@[simp] theorem State.emit_mxReqs (o : Out) : (s.emit o).mxReqs = s.mxReqs := rfl
@[simp] theorem State.emit_batches (o : Out) : (s.emit o).batches = s.batches := rfl
@[simp] theorem State.emit_faults (o : Out) : (s.emit o).faults = s.faults := rfl
@[simp] theorem State.emit_shoots (o : Out) : (s.emit o).shoots = s.shoots := rfl
@[simp] theorem State.emit_devWrites (o : Out) : (s.emit o).devWrites = s.devWrites := rfl
@[simp] theorem State.emit_inbound (o : Out) : (s.emit o).inbound = s.inbound := rfl
@[simp] theorem State.emit_apOps (o : Out) : (s.emit o).apOps = s.apOps := rfl
@[simp] theorem State.emit_out (o : Out) : (s.emit o).out = s.out ++ [o] := rfl

@[simp] theorem State.memWrite_clock (a : Nat) (bs : List (BitVec 8)) : (s.memWrite a bs).clock = s.clock := rfl
@[simp] theorem State.memWrite_agenda (a : Nat) (bs : List (BitVec 8)) : (s.memWrite a bs).agenda = s.agenda := rfl
@[simp] theorem State.memWrite_nextId (a : Nat) (bs : List (BitVec 8)) : (s.memWrite a bs).nextId = s.nextId := rfl
@[simp] theorem State.memWrite_freeIdx (a : Nat) (bs : List (BitVec 8)) : (s.memWrite a bs).freeIdx = s.freeIdx := rfl
@[simp] theorem State.memWrite_cur (a : Nat) (bs : List (BitVec 8)) : (s.memWrite a bs).cur = s.cur := rfl
@[simp] theorem State.memWrite_physNum (a : Nat) (bs : List (BitVec 8)) : (s.memWrite a bs).physNum = s.physNum := rfl
@[simp] theorem State.memWrite_hd (a : Nat) (bs : List (BitVec 8)) : (s.memWrite a bs).hd = s.hd := rfl
@[simp] theorem State.memWrite_dies (a : Nat) (bs : List (BitVec 8)) : (s.memWrite a bs).dies = s.dies := rfl
@[simp] theorem State.memWrite_parts (a : Nat) (bs : List (BitVec 8)) : (s.memWrite a bs).parts = s.parts := rfl
@[simp] theorem State.memWrite_queues (a : Nat) (bs : List (BitVec 8)) : (s.memWrite a bs).queues = s.queues := rfl
@[simp] theorem State.memWrite_mem (a : Nat) (bs : List (BitVec 8)) : (s.memWrite a bs).mem = Memory.writes s.mem a bs := rfl
@[simp] theorem State.memWrite_bad (a : Nat) (bs : List (BitVec 8)) : (s.memWrite a bs).bad = s.bad := rfl
@[simp] theorem State.memWrite_tlb (a : Nat) (bs : List (BitVec 8)) : (s.memWrite a bs).tlb = s.tlb := rfl
@[simp] theorem State.memWrite_staging (a : Nat) (bs : List (BitVec 8)) : (s.memWrite a bs).staging = s.staging := rfl
@[simp] theorem State.memWrite_pages (a : Nat) (bs : List (BitVec 8)) : (s.memWrite a bs).pages = s.pages := rfl
@[simp] theorem State.memWrite_pubs (a : Nat) (bs : List (BitVec 8)) : (s.memWrite a bs).pubs = s.pubs := rfl
@[simp] theorem State.memWrite_ctxs (a : Nat) (bs : List (BitVec 8)) : (s.memWrite a bs).ctxs = s.ctxs := rfl
@[simp] theorem State.memWrite_last (a : Nat) (bs : List (BitVec 8)) : (s.memWrite a bs).last = s.last := rfl
@[simp] theorem State.memWrite_keyed (a : Nat) (bs : List (BitVec 8)) : (s.memWrite a bs).keyed = s.keyed := rfl
@[simp] theorem State.memWrite_icache (a : Nat) (bs : List (BitVec 8)) : (s.memWrite a bs).icache = s.icache := rfl
@[simp] theorem State.memWrite_legs (a : Nat) (bs : List (BitVec 8)) : (s.memWrite a bs).legs = s.legs := rfl
@[simp] theorem State.memWrite_rtSeq (a : Nat) (bs : List (BitVec 8)) : (s.memWrite a bs).rtSeq = s.rtSeq := rfl
@[simp] theorem State.memWrite_pools (a : Nat) (bs : List (BitVec 8)) : (s.memWrite a bs).pools = s.pools := rfl
@[simp] theorem State.memWrite_buckets (a : Nat) (bs : List (BitVec 8)) : (s.memWrite a bs).buckets = s.buckets := rfl
@[simp] theorem State.memWrite_records (a : Nat) (bs : List (BitVec 8)) : (s.memWrite a bs).records = s.records := rfl
@[simp] theorem State.memWrite_fields (a : Nat) (bs : List (BitVec 8)) : (s.memWrite a bs).fields = s.fields := rfl
@[simp] theorem State.memWrite_cohorts (a : Nat) (bs : List (BitVec 8)) : (s.memWrite a bs).cohorts = s.cohorts := rfl
@[simp] theorem State.memWrite_teams (a : Nat) (bs : List (BitVec 8)) : (s.memWrite a bs).teams = s.teams := rfl
@[simp] theorem State.memWrite_weaves (a : Nat) (bs : List (BitVec 8)) : (s.memWrite a bs).weaves = s.weaves := rfl
@[simp] theorem State.memWrite_lsOps (a : Nat) (bs : List (BitVec 8)) : (s.memWrite a bs).lsOps = s.lsOps := rfl
@[simp] theorem State.memWrite_ott (a : Nat) (bs : List (BitVec 8)) : (s.memWrite a bs).ott = s.ott := rfl
@[simp] theorem State.memWrite_phOps (a : Nat) (bs : List (BitVec 8)) : (s.memWrite a bs).phOps = s.phOps := rfl
@[simp] theorem State.memWrite_copies (a : Nat) (bs : List (BitVec 8)) : (s.memWrite a bs).copies = s.copies := rfl
@[simp] theorem State.memWrite_kvOps (a : Nat) (bs : List (BitVec 8)) : (s.memWrite a bs).kvOps = s.kvOps := rfl
@[simp] theorem State.memWrite_voids (a : Nat) (bs : List (BitVec 8)) : (s.memWrite a bs).voids = s.voids := rfl
@[simp] theorem State.memWrite_scopeOps (a : Nat) (bs : List (BitVec 8)) : (s.memWrite a bs).scopeOps = s.scopeOps := rfl
@[simp] theorem State.memWrite_cancels (a : Nat) (bs : List (BitVec 8)) : (s.memWrite a bs).cancels = s.cancels := rfl
@[simp] theorem State.memWrite_maskLoads (a : Nat) (bs : List (BitVec 8)) : (s.memWrite a bs).maskLoads = s.maskLoads := rfl
@[simp] theorem State.memWrite_mxReqs (a : Nat) (bs : List (BitVec 8)) : (s.memWrite a bs).mxReqs = s.mxReqs := rfl
@[simp] theorem State.memWrite_batches (a : Nat) (bs : List (BitVec 8)) : (s.memWrite a bs).batches = s.batches := rfl
@[simp] theorem State.memWrite_faults (a : Nat) (bs : List (BitVec 8)) : (s.memWrite a bs).faults = s.faults := rfl
@[simp] theorem State.memWrite_shoots (a : Nat) (bs : List (BitVec 8)) : (s.memWrite a bs).shoots = s.shoots := rfl
@[simp] theorem State.memWrite_devWrites (a : Nat) (bs : List (BitVec 8)) : (s.memWrite a bs).devWrites = s.devWrites := rfl
@[simp] theorem State.memWrite_inbound (a : Nat) (bs : List (BitVec 8)) : (s.memWrite a bs).inbound = s.inbound := rfl
@[simp] theorem State.memWrite_apOps (a : Nat) (bs : List (BitVec 8)) : (s.memWrite a bs).apOps = s.apOps := rfl
@[simp] theorem State.memWrite_out (a : Nat) (bs : List (BitVec 8)) : (s.memWrite a bs).out = s.out := rfl

end Sys2Proof.Machine
end

