-- ==== Sys2Proof/Laws/Ops.lean ====
section
/-! SUPPORT. What the shared operations do: issue (R300), the registers that an instruction writes, the lookup of
weaves, and the taking of an exception. -/

namespace Sys2Proof.Machine

open Sys2Proof

set_option Elab.async false

/-! ### Weaves by name -/

theorem State.weave_updWeave (s : State) (n : Nat) (f : Weave → Weave) (m : Nat) :
    (s.updWeave n f).weave m = if m = n then (s.weave n).map f else s.weave m := Tbl.find_upd s.weaves n f m

theorem State.weave_setWeave (s : State) (n : Nat) (x : Weave) (m : Nat) :
    (s.setWeave n x).weave m = if m = n then some x else s.weave m := Tbl.find_put s.weaves n x m

theorem State.team_updTeam (s : State) (n : Nat) (f : Team → Team) (m : Nat) :
    (s.updTeam n f).team m = if m = n then (s.team n).map f else s.team m := Tbl.find_upd s.teams n f m

theorem State.part_setPart (s : State) (p : Nat) (x : Partition) (q : Nat) :
    (s.setPart p x).part q = if q = p then x else s.part q := Tbl.get_set s.parts Partition.initial p x q

theorem State.queue_setQueue (s : State) (p : Nat) (x : Queue) (q : Nat) :
    (s.setQueue p x).queue q = if q = p then x else s.queue q := Tbl.get_set s.queues Queue.initial p x q

theorem State.die_setDie (s : State) (p : Nat) (x : DieSt) (q : Nat) :
    (s.setDie p x).die q = if q = p then x else s.die q := Tbl.get_set s.dies DieSt.initial p x q

theorem State.pool_setPool (s : State) (p : Nat) (x : Pool) (q : Nat) :
    (s.setPool p x).pool q = if q = p then x else s.pool q := Tbl.get_set s.pools Pool.initial p x q

theorem State.bucket_setBucket (s : State) (p : Nat) (x : Bucket) (q : Nat) :
    (s.setBucket p x).bucket q = if q = p then x else s.bucket q := Tbl.get_set s.buckets Bucket.initial p x q

theorem State.part_congr {s t : State} (h : t.parts = s.parts) (p : Nat) : t.part p = s.part p := by
  simp [State.part, h]

/-! ### Registers (R114, R116, R117) -/

@[simp] theorem Weave.getS_setS (w : Weave) (n : Nat) (x : W64) (m : Nat) :
    (w.setS n x).getS m = if m = n then x else w.getS m := Tbl.get_set w.s 0 n x m

@[simp] theorem Weave.getK_setK (w : Weave) (n : Nat) (x : Cap) (m : Nat) :
    (w.setK n x).getK m = if m = n then x else w.getK m := Tbl.get_set w.k nullCap n x m

/-- v255 reads zero and takes no write; another register takes it in its own lane alone. -/
theorem Weave.getV_setV (w : Weave) (n l : Nat) (x : W32) (m j : Nat) (hl : l < 32) (hj : j < 32) :
    (w.setV n l x).getV m j = if m = n ∧ j = l ∧ n ≠ 255 then x else w.getV m j := by
  unfold Weave.setV Weave.getV
  by_cases hn : n = 255
  · simp [hn]
  · by_cases hm : m = 255
    · have : ¬ (m = n ∧ j = l ∧ n ≠ 255) := by rintro ⟨a, -, -⟩; exact hn (a ▸ hm)
      simp [hm, this, hn]; intro a; exact absurd a.symm hn
    · rw [if_neg hn, if_neg hm, if_neg hm, Tbl.get_set]
      by_cases h : m = n ∧ j = l
      · obtain ⟨rfl, rfl⟩ := h; simp [hn]
      · have h1 : ¬ (m * 32 + j = n * 32 + l) := by
          intro he; exact h ⟨by omega, by omega⟩
        have h2 : ¬ (m = n ∧ j = l ∧ n ≠ 255) := fun a => h ⟨a.1, a.2.1⟩
        rw [if_neg h1, if_neg h2]

theorem Weave.getV_255 (w : Weave) (l : Nat) : w.getV 255 l = 0 := rfl

/-- p7 reads true and takes no write. -/
theorem Weave.getP_setP (w : Weave) (n l : Nat) (b : Bool) (m j : Nat) (hl : l < 32) (hj : j < 32) :
    (w.setP n l b).getP m j = if m = n ∧ j = l ∧ n ≠ 7 then b else w.getP m j := by
  unfold Weave.setP Weave.getP
  by_cases hn : n = 7
  · simp [hn]
  · by_cases hm : m = 7
    · have hn' : ¬ 7 = n := fun a => hn a.symm
      simp [hm, hn, hn']
    · rw [if_neg hn, if_neg hm, if_neg hm]
      simp only [Tbl.get_set]
      by_cases h : m = n
      · subst h
        simp only [if_true]
        by_cases hjl : j = l
        · subst hjl
          cases b <;> simp [hn, hj]
        · have h2 : ¬ (True ∧ j = l ∧ m ≠ 7) := fun a => hjl a.2.1
          rw [if_neg h2]
          have h3 : (1#32 <<< l).getLsbD j = false := by
            rw [BitVec.getLsbD_shiftLeft]
            by_cases hlt : j < l
            · simp [hlt]
            · have : j - l ≠ 0 := by omega
              simp [BitVec.getLsbD_one, this]
          cases b
          · simp only [Bool.false_eq_true, if_false, BitVec.getLsbD_and, BitVec.getLsbD_not, h3]; simp [hj]
          · simp only [if_true, BitVec.getLsbD_or, h3, Bool.or_false]
      · have h2 : ¬ (m = n ∧ j = l ∧ n ≠ 7) := fun a => h a.1
        rw [if_neg h, if_neg h2]

theorem Weave.getP_7 (w : Weave) (l : Nat) : w.getP 7 l = true := rfl

/-! ### Lanes -/

theorem Lanes.mem_toList (m : Lanes) (l : Nat) : l ∈ m.toList ↔ l < 32 ∧ m.has l = true := by
  simp [Lanes.toList, Lanes.has]

theorem Lanes.toList_nodup (m : Lanes) : m.toList.Nodup := List.Nodup.filter _ List.nodup_range

theorem Lanes.toList_eq_nil (m : Lanes) : m.toList = [] ↔ m = 0 := by
  constructor
  · intro h
    apply BitVec.eq_of_getLsbD_eq
    intro i hi
    have : i ∉ m.toList := by rw [h]; simp
    rw [Lanes.mem_toList] at this
    simpa [hi] using this
  · rintro rfl; simp [Lanes.toList]

/-- A fold of writes to one register over lanes. -/
theorem Weave.getV_foldl (ls : List Nat) (hls : ∀ l ∈ ls, l < 32) (hd : ls.Nodup) (d : Nat) (f : Nat → W32) (w : Weave)
    (m j : Nat) (hj : j < 32) :
    (ls.foldl (fun w l => w.setV d l (f l)) w).getV m j = if m = d ∧ j ∈ ls ∧ d ≠ 255 then f j else w.getV m j := by
  induction ls generalizing w with
  | nil => simp
  | cons l r ih =>
    have hl := hls l List.mem_cons_self
    have hd' := List.nodup_cons.mp hd
    rw [List.foldl_cons, ih (fun a ha => hls a (List.mem_cons_of_mem _ ha)) hd'.2, Weave.getV_setV _ _ _ _ _ _ hl hj]
    by_cases h1 : m = d
    · by_cases h2 : j = l
      · subst h2; subst h1
        by_cases h3 : m = 255 <;> simp [h3, hd'.1]
      · simp [h1, h2]
    · simp [h1]

theorem Weave.getP_foldl (ls : List Nat) (hls : ∀ l ∈ ls, l < 32) (hd : ls.Nodup) (d : Nat) (f : Nat → Bool) (w : Weave)
    (m j : Nat) (hj : j < 32) :
    (ls.foldl (fun w l => w.setP d l (f l)) w).getP m j = if m = d ∧ j ∈ ls ∧ d ≠ 7 then f j else w.getP m j := by
  induction ls generalizing w with
  | nil => simp
  | cons l r ih =>
    have hl := hls l List.mem_cons_self
    have hd' := List.nodup_cons.mp hd
    rw [List.foldl_cons, ih (fun a ha => hls a (List.mem_cons_of_mem _ ha)) hd'.2, Weave.getP_setP _ _ _ _ _ _ hl hj]
    by_cases h1 : m = d
    · by_cases h2 : j = l
      · subst h2; subst h1
        by_cases h3 : m = 7 <;> simp [h3, hd'.1]
      · simp [h1, h2]
    · simp [h1]

/-- The pair of a 64-bit destination (R117). -/
theorem Weave.getV_foldl64 (ls : List Nat) (hls : ∀ l ∈ ls, l < 32) (hd : ls.Nodup) (d : Nat) (h254 : d ≠ 254)
    (f : Nat → W64) (w : Weave) (m j : Nat) (hj : j < 32) :
    (ls.foldl (fun w l => w.setV64 d l (f l)) w).getV m j =
      if m = d ∧ j ∈ ls ∧ d ≠ 255 then (f j).extractLsb' 0 32
      else if m = d + 1 ∧ j ∈ ls ∧ d ≠ 255 then (f j).extractLsb' 32 32 else w.getV m j := by
  induction ls generalizing w with
  | nil => simp
  | cons l r ih =>
    have hl := hls l List.mem_cons_self
    have hd' := List.nodup_cons.mp hd
    rw [List.foldl_cons, ih (fun a ha => hls a (List.mem_cons_of_mem _ ha)) hd'.2]
    have hs : (w.setV64 d l (f l)).getV m j = if m = d ∧ j = l ∧ d ≠ 255 then (f l).extractLsb' 0 32
        else if m = d + 1 ∧ j = l ∧ d ≠ 255 then (f l).extractLsb' 32 32 else w.getV m j := by
      unfold Weave.setV64
      by_cases h : d = 255
      · simp [h]
      · rw [if_neg h, Weave.getV_setV _ _ _ _ _ _ hl hj, Weave.getV_setV _ _ _ _ _ _ hl hj]
        have : d + 1 ≠ 255 := by omega
        by_cases h1 : m = d
        · subst h1; simp [h]
        · simp [h1, h, this]
    rw [hs]
    by_cases h2 : j = l
    · subst h2
      by_cases h3 : d = 255
      · simp [h3]
      · by_cases h1 : m = d
        · subst h1; simp [h3, hd'.1]
        · simp [h1, h3, hd'.1]
    · simp [h2]

/-! ### Issue (R300) -/

/-- The surroundings, taken apart. -/
theorem State.ctx_some {s : State} {i : Instr} {x : Ctx} (h : s.ctx i = some x) :
    s.issuer = some (x.c, x.e, x.g) ∧ hdOf i = some x.h ∧ x.s = s ∧ x.act = x.e.w.active x.g.lanes x.h.pg := by
  unfold State.ctx at h
  cases hs : s.issuer with
  | none => simp [hs] at h
  | some q =>
    obtain ⟨c, e, g⟩ := q
    cases hh : hdOf i with
    | none => simp [hs, hh] at h
    | some hd =>
      simp only [hs, hh, Option.some.injEq] at h
      subst h
      exact ⟨rfl, rfl, rfl, rfl⟩

/-- An instruction that is issued does what its own entry answers. -/
theorem issue_ctx {i : Instr} {s : State} {x : Ctx} (h : s.ctx i = some x) (body : Ctx → Res) :
    issue i s body = .next (match (if s.continues x.c i then none else preTrap x.e x.g x.h i) with
      | some t => s.trapNow x t
      | none => (body x).apply x i) := by
  obtain ⟨h1, h2, h3, h4⟩ := State.ctx_some h
  obtain ⟨xs, xe, xg, xc, xh, xa⟩ := x
  simp only at h1 h2 h3 h4
  subst h3 h4
  unfold issue
  rw [h1, h2] <;> rfl

theorem issue_of {i : Instr} {s : State} {x : Ctx} (h : s.Issues i x) (body : Ctx → Res) :
    issue i s body = .next ((body x).apply x i) := by
  rw [issue_ctx h.1]
  rcases h.2 with h | h <;> simp [h]

/-- What `issuer` says of the weave and the group. -/
theorem State.issuer_some {s : State} {c : Cur} {e : Env} {g : Group} (h : s.issuer = some (c, e, g)) :
    s.cur = some c ∧ s.env c.weave = some e ∧ e.w.group c.gid = some g := by
  unfold State.issuer at h
  cases hc : s.cur with
  | none => simp [hc] at h
  | some c' =>
    simp only [hc] at h
    cases he : s.env c'.weave with
    | none => simp [he] at h
    | some e' =>
      simp only [he] at h
      cases hg : e'.w.group c'.gid with
      | none => simp [hg] at h
      | some g' =>
        simp only [hg, Option.some.injEq, Prod.mk.injEq] at h
        obtain ⟨rfl, rfl, rfl⟩ := h
        exact ⟨rfl, he, hg⟩

theorem State.env_some {s : State} {wid : Nat} {e : Env} (h : s.env wid = some e) :
    e.wid = wid ∧ s.weave wid = some e.w ∧ e.tid = e.w.team ∧ s.team e.tid = some e.t ∧ e.cid = e.t.cohort
      ∧ s.cohort e.cid = some e.c ∧ e.fid = e.c.field ∧ s.field e.fid = some e.f := by
  unfold State.env at h
  cases hw : s.weave wid with
  | none => simp [hw] at h
  | some w =>
    simp only [hw] at h
    cases ht : s.team w.team with
    | none => simp [ht] at h
    | some t =>
      simp only [ht] at h
      cases hc : s.cohort t.cohort with
      | none => simp [hc] at h
      | some c =>
        simp only [hc] at h
        cases hf : s.field c.field with
        | none => simp [hf] at h
        | some f =>
          simp only [hf, Option.some.injEq] at h
          subst h
          exact ⟨rfl, rfl, rfl, ht, rfl, hc, rfl, hf⟩

/-- The weave of an instruction at issue is the one its surroundings name. -/
theorem State.ctx_weave {s : State} {i : Instr} {x : Ctx} (h : s.ctx i = some x) :
    x.s = s ∧ x.e.wid = x.c.weave ∧ s.weave x.c.weave = some x.w := by
  obtain ⟨h1, -, h3, -⟩ := State.ctx_some h
  obtain ⟨-, h4, -⟩ := State.issuer_some h1
  obtain ⟨h5, h6, -⟩ := State.env_some h4
  exact ⟨h3, h5, h6⟩


/-! ### Register-only effects -/

/-- A weave that differs from another in registers and WSTAT alone. -/
structure Weave.SameBut (w w' : Weave) : Prop where
  cf : w'.cf = w.cf
  trapinfo : w'.trapinfo = w.trapinfo
  frames : w'.frames = w.frames
  loops : w'.loops = w.loops
  marks : w'.marks = w.marks
  errs : w'.errs = w.errs
  groups : w'.groups = w.groups
  names : w'.team = w.team ∧ w'.idx = w.idx ∧ w'.slot = w.slot ∧ w'.age = w.age ∧ w'.live = w.live
    ∧ w'.killed = w.killed ∧ w'.dead = w.dead

theorem Weave.SameBut.refl (w : Weave) : w.SameBut w := ⟨rfl, rfl, rfl, rfl, rfl, rfl, rfl, rfl, rfl, rfl, rfl, rfl, rfl, rfl⟩

theorem Weave.SameBut.trans {a b c : Weave} (h : a.SameBut b) (h' : b.SameBut c) : a.SameBut c := by
  obtain ⟨h1, h2, h3, h4, h5, h6, h7, h8, h9, h10, h11, h12, h13, h14⟩ := h
  obtain ⟨k1, k2, k3, k4, k5, k6, k7, k8, k9, k10, k11, k12, k13, k14⟩ := h'
  exact ⟨k1.trans h1, k2.trans h2, k3.trans h3, k4.trans h4, k5.trans h5, k6.trans h6, k7.trans h7, k8.trans h8,
    k9.trans h9, k10.trans h10, k11.trans h11, k12.trans h12, k13.trans h13,
    k14.trans h14⟩

theorem Weave.sameBut_setS (w : Weave) (n : Nat) (x : W64) : w.SameBut (w.setS n x) :=
  ⟨rfl, rfl, rfl, rfl, rfl, rfl, rfl, rfl, rfl, rfl, rfl, rfl, rfl, rfl⟩

theorem Weave.sameBut_setK (w : Weave) (n : Nat) (x : Cap) : w.SameBut (w.setK n x) :=
  ⟨rfl, rfl, rfl, rfl, rfl, rfl, rfl, rfl, rfl, rfl, rfl, rfl, rfl, rfl⟩

theorem Weave.sameBut_sticky (w : Weave) (b : Nat) : w.SameBut (w.sticky b) :=
  ⟨rfl, rfl, rfl, rfl, rfl, rfl, rfl, rfl, rfl, rfl, rfl, rfl, rfl, rfl⟩

theorem Weave.sameBut_setV (w : Weave) (n l : Nat) (x : W32) : w.SameBut (w.setV n l x) := by
  unfold Weave.setV
  split
  · exact .refl w
  · exact ⟨rfl, rfl, rfl, rfl, rfl, rfl, rfl, rfl, rfl, rfl, rfl, rfl, rfl, rfl⟩

theorem Weave.sameBut_setV64 (w : Weave) (n l : Nat) (x : W64) : w.SameBut (w.setV64 n l x) := by
  unfold Weave.setV64
  split
  · exact .refl w
  · exact (w.sameBut_setV _ _ _).trans (Weave.sameBut_setV _ _ _ _)

theorem Weave.sameBut_setP (w : Weave) (n l : Nat) (b : Bool) : w.SameBut (w.setP n l b) := by
  unfold Weave.setP
  split
  · exact .refl w
  · exact ⟨rfl, rfl, rfl, rfl, rfl, rfl, rfl, rfl, rfl, rfl, rfl, rfl, rfl, rfl⟩

theorem Weave.sameBut_foldl (ls : List Nat) (f : Weave → Nat → Weave) (hf : ∀ (w : Weave) l, w.SameBut (f w l)) (w : Weave) :
    w.SameBut (ls.foldl f w) := by
  induction ls generalizing w with
  | nil => exact .refl w
  | cons l r ih => exact (hf w l).trans (ih (f w l))

/-! Registers that a write of another class leaves alone. -/

@[simp] theorem Weave.getV_setS (w : Weave) (n : Nat) (x : W64) (m l : Nat) : (w.setS n x).getV m l = w.getV m l := rfl
@[simp] theorem Weave.getP_setS (w : Weave) (n : Nat) (x : W64) (m l : Nat) : (w.setS n x).getP m l = w.getP m l := rfl
@[simp] theorem Weave.getK_setS (w : Weave) (n : Nat) (x : W64) (m : Nat) : (w.setS n x).getK m = w.getK m := rfl
@[simp] theorem Weave.wstat_setS (w : Weave) (n : Nat) (x : W64) : (w.setS n x).wstat = w.wstat := rfl
@[simp] theorem Weave.getV_setK (w : Weave) (n : Nat) (x : Cap) (m l : Nat) : (w.setK n x).getV m l = w.getV m l := rfl
@[simp] theorem Weave.getP_setK (w : Weave) (n : Nat) (x : Cap) (m l : Nat) : (w.setK n x).getP m l = w.getP m l := rfl
@[simp] theorem Weave.getS_setK (w : Weave) (n : Nat) (x : Cap) (m : Nat) : (w.setK n x).getS m = w.getS m := rfl
@[simp] theorem Weave.wstat_setK (w : Weave) (n : Nat) (x : Cap) : (w.setK n x).wstat = w.wstat := rfl

theorem Weave.setV_other (w : Weave) (n l : Nat) (x : W32) :
    (w.setV n l x).s = w.s ∧ (w.setV n l x).p = w.p ∧ (w.setV n l x).k = w.k ∧ (w.setV n l x).wstat = w.wstat := by
  unfold Weave.setV; split <;> exact ⟨rfl, rfl, rfl, rfl⟩

theorem Weave.setV64_other (w : Weave) (n l : Nat) (x : W64) :
    (w.setV64 n l x).s = w.s ∧ (w.setV64 n l x).p = w.p ∧ (w.setV64 n l x).k = w.k
      ∧ (w.setV64 n l x).wstat = w.wstat := by
  unfold Weave.setV64
  split
  · exact ⟨rfl, rfl, rfl, rfl⟩
  · obtain ⟨a, b, c, d⟩ := Weave.setV_other (w.setV n l (x.extractLsb' 0 32)) (n + 1) l (x.extractLsb' 32 32)
    obtain ⟨a', b', c', d'⟩ := Weave.setV_other w n l (x.extractLsb' 0 32)
    exact ⟨a.trans a', b.trans b', c.trans c', d.trans d'⟩

theorem Weave.setP_other (w : Weave) (n l : Nat) (b : Bool) :
    (w.setP n l b).s = w.s ∧ (w.setP n l b).v = w.v ∧ (w.setP n l b).k = w.k ∧ (w.setP n l b).wstat = w.wstat := by
  unfold Weave.setP; split <;> exact ⟨rfl, rfl, rfl, rfl⟩

theorem Weave.foldl_keep {α : Type} (ls : List Nat) (f : Weave → Nat → Weave) (g : Weave → α)
    (hf : ∀ w l, g (f w l) = g w) (w : Weave) : g (ls.foldl f w) = g w := by
  induction ls generalizing w with
  | nil => rfl
  | cons l r ih => exact (ih (f w l)).trans (hf w l)

/-- What `updGroup` leaves alone. -/
theorem Weave.sameRegs_updGroup (w : Weave) (gid : Nat) (f : Group → Group) :
    (∀ n l, (w.updGroup gid f).getV n l = w.getV n l) ∧ (∀ n, (w.updGroup gid f).getS n = w.getS n)
      ∧ (∀ n l, (w.updGroup gid f).getP n l = w.getP n l) ∧ (∀ n, (w.updGroup gid f).getK n = w.getK n) :=
  ⟨fun _ _ => rfl, fun _ => rfl, fun _ _ => rfl, fun _ => rfl⟩

/-- An instruction whose effect is a change of registers: the weave afterwards, and what stays. -/
theorem Ctx.only_of {s : State} {i : Instr} {x : Ctx} (h : s.ctx i = some x) (F : Weave → Weave)
    (same : x.w.SameBut (F x.w)) (v sr p k sticky : List Nat)
    (hv : ∀ n l, l < 32 → (n ∉ v ∨ x.act.has l = false) → (F x.w).getV n l = x.w.getV n l)
    (hs : ∀ n, n ∉ sr → (F x.w).getS n = x.w.getS n)
    (hp : ∀ n l, l < 32 → (n ∉ p ∨ x.act.has l = false) → (F x.w).getP n l = x.w.getP n l)
    (hk : ∀ n, n ∉ k → (F x.w).getK n = x.w.getK n)
    (hst : ∀ b, b ∉ sticky → (F x.w).wstat.getLsbD b = x.w.wstat.getLsbD b) :
    x.Only i ((Res.done (x.upd F)).apply x i)
      ((F x.w).updGroup x.c.gid fun g => g.advance x.c x.h.bnd (lateRegs i)) v sr p k sticky := by
  obtain ⟨h1, -, h3⟩ := State.ctx_weave h
  have hw : x.s.weave x.c.weave = some x.w := h1 ▸ h3
  obtain ⟨c1, c2, c3, c4, c5, c6, c7, c8⟩ := same
  refine ⟨rfl, fun _ => rfl, ?_, ?_, hv, hs, hp, hk, ?_, hst, c2, c3, c4, c5, c6, c8, ?_⟩
  · intro n hn
    show ((x.s.updWeave x.c.weave F).updWeave x.c.weave _).weave n = _
    rw [State.weave_updWeave, if_neg hn, State.weave_updWeave, if_neg hn]
  · show ((x.s.updWeave x.c.weave F).updWeave x.c.weave _).weave x.c.weave = _
    rw [State.weave_updWeave, if_pos rfl, State.weave_updWeave, if_pos rfl, hw]
    rfl
  · intro n
    show Tbl.get (F x.w).cf 0 n = _
    rw [c1]; rfl
  · show ((F x.w).groups.map _) = _
    rw [c7]

/-- A per-thread destination of 32 bits (R337). -/
theorem Ctx.only_putV {s : State} {i : Instr} {x : Ctx} (h : s.ctx i = some x) (d : Nat) (f : Nat → W32) :
    ∃ w, x.Only i ((Res.done (x.putV d f)).apply x i) w (destV false d) [] [] [] []
      ∧ ∀ l, l < 32 → x.act.has l = true → d ≠ 255 → w.getV d l = f l := by
  have hls : ∀ l ∈ x.lanes, l < 32 := fun l hl => ((Lanes.mem_toList _ _).mp hl).1
  have hg : ∀ m j, j < 32 → (x.lanes.foldl (fun w l => w.setV d l (f l)) x.w).getV m j
      = if m = d ∧ j ∈ x.lanes ∧ d ≠ 255 then f j else x.w.getV m j :=
    fun m j hj => Weave.getV_foldl x.lanes hls (Lanes.toList_nodup _) d f x.w m j hj
  refine ⟨_, Ctx.only_of h (fun w => x.lanes.foldl (fun w l => w.setV d l (f l)) w) ?_ _ _ _ _ _ ?_ ?_ ?_ ?_ ?_, ?_⟩
  · exact Weave.sameBut_foldl _ _ (fun w l => w.sameBut_setV d l (f l)) _
  · intro n l hl hn
    rw [hg n l hl, if_neg]
    rintro ⟨rfl, h2, h3⟩
    rcases hn with hn | hn
    · simp [destV, h3] at hn
    · exact absurd ((Lanes.mem_toList _ _).mp h2).2 (by simp [hn])
  · intro n _
    exact congrArg (fun t => Tbl.get t 0 n)
      (Weave.foldl_keep x.lanes _ Weave.s (fun w l => (Weave.setV_other w d l (f l)).1) x.w)
  · intro n l _ _
    have := Weave.foldl_keep x.lanes (fun w l => w.setV d l (f l)) Weave.p (fun w l => (Weave.setV_other w d l (f l)).2.1) x.w
    simp only [Weave.getP, this]
  · intro n _
    exact congrArg (fun t => Tbl.get t nullCap n)
      (Weave.foldl_keep x.lanes _ Weave.k (fun w l => (Weave.setV_other w d l (f l)).2.2.1) x.w)
  · intro b _
    exact congrArg (fun t => BitVec.getLsbD t b)
      (Weave.foldl_keep x.lanes _ Weave.wstat (fun w l => (Weave.setV_other w d l (f l)).2.2.2) x.w)
  · intro l hl ha hd
    exact (hg d l hl).trans (if_pos ⟨rfl, (Lanes.mem_toList _ _).mpr ⟨hl, ha⟩, hd⟩)

/-- A per-thread destination of 64 bits (R117, R337). -/
theorem Ctx.only_putV64 {s : State} {i : Instr} {x : Ctx} (h : s.ctx i = some x) (d : Nat) (hd : d ≠ 254) (f : Nat → W64) :
    ∃ w, x.Only i ((Res.done (x.putV64 d f)).apply x i) w (destV true d) [] [] [] []
      ∧ ∀ l, l < 32 → x.act.has l = true → d ≠ 255 → w.getV64 d l = f l := by
  have hls : ∀ l ∈ x.lanes, l < 32 := fun l hl => ((Lanes.mem_toList _ _).mp hl).1
  have hg : ∀ m j, j < 32 → (x.lanes.foldl (fun w l => w.setV64 d l (f l)) x.w).getV m j
      = if m = d ∧ j ∈ x.lanes ∧ d ≠ 255 then (f j).extractLsb' 0 32
        else if m = d + 1 ∧ j ∈ x.lanes ∧ d ≠ 255 then (f j).extractLsb' 32 32 else x.w.getV m j :=
    fun m j hj => Weave.getV_foldl64 x.lanes hls (Lanes.toList_nodup _) d hd f x.w m j hj
  refine ⟨_, Ctx.only_of h (fun w => x.lanes.foldl (fun w l => w.setV64 d l (f l)) w) ?_ _ _ _ _ _ ?_ ?_ ?_ ?_ ?_, ?_⟩
  · exact Weave.sameBut_foldl _ _ (fun w l => w.sameBut_setV64 d l (f l)) _
  · intro n l hl hn
    rw [hg n l hl]
    have hm : l ∈ x.lanes → n ∉ destV true d := fun hm => hn.resolve_right (by simp [((Lanes.mem_toList _ _).mp hm).2])
    by_cases h1 : n = d ∧ l ∈ x.lanes ∧ d ≠ 255
    · have := hm h1.2.1; simp [destV, h1.2.2, h1.1] at this
    · by_cases h2 : n = d + 1 ∧ l ∈ x.lanes ∧ d ≠ 255
      · have := hm h2.2.1; simp [destV, h2.2.2, h2.1] at this
      · rw [if_neg h1, if_neg h2]
  · intro n _
    exact congrArg (fun t => Tbl.get t 0 n)
      (Weave.foldl_keep x.lanes _ Weave.s (fun w l => (Weave.setV64_other w d l (f l)).1) x.w)
  · intro n l _ _
    have := Weave.foldl_keep x.lanes (fun w l => w.setV64 d l (f l)) Weave.p
      (fun w l => (Weave.setV64_other w d l (f l)).2.1) x.w
    simp only [Weave.getP, this]
  · intro n _
    exact congrArg (fun t => Tbl.get t nullCap n)
      (Weave.foldl_keep x.lanes _ Weave.k (fun w l => (Weave.setV64_other w d l (f l)).2.2.1) x.w)
  · intro b _
    exact congrArg (fun t => BitVec.getLsbD t b)
      (Weave.foldl_keep x.lanes _ Weave.wstat (fun w l => (Weave.setV64_other w d l (f l)).2.2.2) x.w)
  · intro l hl ha hd5
    have hm : l ∈ x.lanes := (Lanes.mem_toList _ _).mpr ⟨hl, ha⟩
    have e1 := (hg d l hl).trans (if_pos ⟨rfl, hm, hd5⟩)
    have e2 : (x.lanes.foldl (fun w l => w.setV64 d l (f l)) x.w).getV (d + 1) l = (f l).extractLsb' 32 32 := by
      refine (hg (d + 1) l hl).trans ?_
      rw [if_neg (by rintro ⟨a, -, -⟩; omega), if_pos ⟨rfl, hm, hd5⟩]
    show (if d = 255 then 0 else _ ++ _) = _
    rw [if_neg hd5]
    show ((x.lanes.foldl (fun w l => w.setV64 d l (f l)) x.w).getV (d + 1) l
      ++ (x.lanes.foldl (fun w l => w.setV64 d l (f l)) x.w).getV d l : W64) = _
    rw [e1, e2]
    exact split_cat (m := 32) (k := 32) (f l)

/-- A predicate destination (R116, R337). -/
theorem Ctx.only_putP {s : State} {i : Instr} {x : Ctx} (h : s.ctx i = some x) (d : Nat) (f : Nat → Bool) :
    ∃ w, x.Only i ((Res.done (x.putP d f)).apply x i) w [] [] (if d = 7 then [] else [d]) [] []
      ∧ ∀ l, l < 32 → x.act.has l = true → d ≠ 7 → w.getP d l = f l := by
  have hls : ∀ l ∈ x.lanes, l < 32 := fun l hl => ((Lanes.mem_toList _ _).mp hl).1
  have hg : ∀ m j, j < 32 → (x.lanes.foldl (fun w l => w.setP d l (f l)) x.w).getP m j
      = if m = d ∧ j ∈ x.lanes ∧ d ≠ 7 then f j else x.w.getP m j :=
    fun m j hj => Weave.getP_foldl x.lanes hls (Lanes.toList_nodup _) d f x.w m j hj
  refine ⟨_, Ctx.only_of h (fun w => x.lanes.foldl (fun w l => w.setP d l (f l)) w) ?_ _ _ _ _ _ ?_ ?_ ?_ ?_ ?_, ?_⟩
  · exact Weave.sameBut_foldl _ _ (fun w l => w.sameBut_setP d l (f l)) _
  · intro n l _ _
    have := Weave.foldl_keep x.lanes (fun w l => w.setP d l (f l)) Weave.v (fun w l => (Weave.setP_other w d l (f l)).2.1) x.w
    simp only [Weave.getV, this]
  · intro n _
    exact congrArg (fun t => Tbl.get t 0 n)
      (Weave.foldl_keep x.lanes _ Weave.s (fun w l => (Weave.setP_other w d l (f l)).1) x.w)
  · intro n l hl hn
    rw [hg n l hl, if_neg]
    rintro ⟨rfl, h2, h3⟩
    rcases hn with hn | hn
    · simp [h3] at hn
    · exact absurd ((Lanes.mem_toList _ _).mp h2).2 (by simp [hn])
  · intro n _
    exact congrArg (fun t => Tbl.get t nullCap n)
      (Weave.foldl_keep x.lanes _ Weave.k (fun w l => (Weave.setP_other w d l (f l)).2.2.1) x.w)
  · intro b _
    exact congrArg (fun t => BitVec.getLsbD t b)
      (Weave.foldl_keep x.lanes _ Weave.wstat (fun w l => (Weave.setP_other w d l (f l)).2.2.2) x.w)
  · intro l hl ha hd
    exact (hg d l hl).trans (if_pos ⟨rfl, (Lanes.mem_toList _ _).mpr ⟨hl, ha⟩, hd⟩)

/-- An s register written without regard to the guard. -/
theorem Ctx.only_setS {s : State} {i : Instr} {x : Ctx} (h : s.ctx i = some x) (d : Nat) (v : W64) :
    ∃ w, x.Only i ((Res.done (x.upd fun w => w.setS d v)).apply x i) w [] [d] [] [] [] ∧ w.getS d = v := by
  refine ⟨_, Ctx.only_of h (fun w => w.setS d v) (Weave.sameBut_setS _ _ _) _ _ _ _ _ ?_ ?_ ?_ ?_ ?_, ?_⟩
  · exact fun _ _ _ _ => rfl
  · intro n hn; simpa using fun e => absurd e (by simpa using hn)
  · exact fun _ _ _ _ => rfl
  · exact fun _ _ => rfl
  · exact fun _ _ => rfl
  · exact (Weave.getS_setS x.w d v d).trans (if_pos rfl)

/-- A k register. -/
theorem Ctx.only_setK {s : State} {i : Instr} {x : Ctx} (h : s.ctx i = some x) (d : Nat) (v : Cap) :
    ∃ w, x.Only i ((Res.done (x.upd fun w => w.setK d v)).apply x i) w [] [] [] [d] [] ∧ w.getK d = v := by
  refine ⟨_, Ctx.only_of h (fun w => w.setK d v) (Weave.sameBut_setK _ _ _) _ _ _ _ _ ?_ ?_ ?_ ?_ ?_, ?_⟩
  · exact fun _ _ _ _ => rfl
  · exact fun _ _ => rfl
  · exact fun _ _ _ _ => rfl
  · intro n hn; simpa using fun e => absurd e (by simpa using hn)
  · exact fun _ _ => rfl
  · exact (Weave.getK_setK x.w d v d).trans (if_pos rfl)

/-- The s destination of a `.s` form: written once, if a thread is active (R337). -/
theorem Ctx.only_putS {s : State} {i : Instr} {x : Ctx} (h : s.ctx i = some x) (d : Nat) (v : W64) :
    ∃ w, x.Only i ((Res.done (x.putS d v)).apply x i) w [] [d] [] [] []
      ∧ w.getS d = if x.act = 0 then x.w.getS d else v := by
  refine ⟨_, Ctx.only_of h (fun w => if x.act = 0 then w else w.setS d v) ?_ _ _ _ _ _ ?_ ?_ ?_ ?_ ?_, ?_⟩
  · by_cases ha : x.act = 0
    · simpa only [ha, if_true] using Weave.SameBut.refl x.w
    · simpa only [ha, if_false] using Weave.sameBut_setS x.w d v
  · intro _ _ _ _; by_cases ha : x.act = 0#32 <;> simp [ha]
  · intro n hn
    have : n ≠ d := by simpa using hn
    by_cases ha : x.act = 0#32 <;> simp [ha, this]
  · intro _ _ _ _; by_cases ha : x.act = 0#32 <;> simp [ha]
  · intro _ _; by_cases ha : x.act = 0#32 <;> simp [ha]
  · intro _ _; by_cases ha : x.act = 0#32 <;> simp [ha]
  · show Weave.getS (if x.act = 0 then x.w else x.w.setS d v) d = _
    by_cases ha : x.act = 0#32 <;> simp [ha]

/-! ### What the checks of R300 let through -/

theorem regRange_none {alloc : Nat} {ops : List Opnd} (h : regRange alloc ops = none) :
    ∀ o ∈ ops, o.kind.inClass o.n alloc = true := by
  induction ops with
  | nil => simp
  | cons o r ih =>
    unfold regRange at h
    split at h
    · rename_i ho
      intro q hq
      rcases List.mem_cons.mp hq with rfl | hq
      · exact ho
      · exact ih h q hq
    · exact absurd h (by simp)

/-- Only a VCOMPST goes on with elements that it has begun, and it writes no register. -/
theorem State.continues_wr {s : State} {c : Cur} {i : Instr} {o : Opnd} (ho : o ∈ operands i) (hw : o.wr = true) :
    s.continues c i = false := by
  cases i
  case vcompst h m a b cc imm =>
    simp only [operands, List.mem_cons, List.not_mem_nil, or_false] at ho
    rcases ho with rfl | rfl | rfl <;> exact absurd hw (by simp [opA, opB, opC])
  all_goals rfl

/-- Every register field of an instruction that passes the checks lies in its class (R116). -/
theorem State.Issues.inClass {s : State} {i : Instr} {x : Ctx} (h : s.Issues i x) (hc : s.continues x.c i = false)
    (o : Opnd) (ho : o ∈ operands i) : o.kind.inClass o.n x.e.f.lr.vAlloc = true := by
  have hp := h.2.resolve_left (by simp [hc])
  unfold preTrap at hp
  simp only at hp
  split at hp
  · exact absurd hp (by simp)
  · split at hp
    · exact absurd hp (by simp)
    · rename_i hr
      exact regRange_none hr o ho

/-- A pair never begins at v254 (R116, R117). -/
theorem State.Issues.pair {s : State} {i : Instr} {x : Ctx} (h : s.Issues i x) {o : Opnd} (ho : o ∈ operands i)
    (hk : o.kind = .v2) (hw : o.wr = true) : o.n ≠ 254 := by
  have := h.inClass (State.continues_wr ho hw) o ho
  rw [hk] at this
  have ha : x.e.f.lr.vAlloc ≤ 255 := Nat.min_le_left _ _
  simp only [Kind.inClass, Bool.or_eq_true, beq_iff_eq, Bool.and_eq_true, decide_eq_true_eq] at this
  omega

/-- The "w" destination (R335–R337). -/
theorem Ctx.only_putInt {s : State} {i : Instr} {x : Ctx} (h : s.Issues i x) (f : IntF) (d : Nat)
    (ho : opD (kw f.s f.ty) d ∈ operands i) (f32 : Nat → W32) (f64 : Nat → W64) :
    ∃ w, x.Only i ((Res.done (x.putInt f d f32 f64)).apply x i) w (destIntV f d) (destIntS f d) [] [] []
      ∧ x.IntResult f d w f32 f64 := by
  obtain ⟨sc, ty⟩ := f
  unfold Ctx.putInt Ctx.put64 Ctx.IntResult destIntV destIntS
  cases sc
  · by_cases hw : Ty.wide ty = true
    · have hd : d ≠ 254 := h.pair ho (by simp [opD, kw, hw]) rfl
      obtain ⟨w, h1, h2⟩ := Ctx.only_putV64 h.1 d hd f64
      exact ⟨w, by simpa [hw] using h1, by simp [hw], fun _ _ hd l hl ha => h2 l hl ha hd, by simp⟩
    · obtain ⟨w, h1, h2⟩ := Ctx.only_putV h.1 d f32
      exact ⟨w, by simpa [hw] using h1, fun _ _ hd l hl ha => h2 l hl ha hd, by simp [hw], by simp⟩
  · by_cases hw : Ty.wide ty = true
    · obtain ⟨w, h1, h2⟩ := Ctx.only_putS h.1 d (f64 0)
      exact ⟨w, by simpa [hw] using h1, by simp, by simp, fun _ => by simpa [hw] using h2⟩
    · obtain ⟨w, h1, h2⟩ := Ctx.only_putS h.1 d (if ty.signed then (f32 0).signExtend 64 else (f32 0).setWidth 64)
      exact ⟨w, by simpa [hw] using h1, by simp, by simp, fun _ => by simpa [hw] using h2⟩

/-- The "32" destination. -/
theorem Ctx.only_put32 {s : State} {i : Instr} {x : Ctx} (h : s.ctx i = some x) (sc : Bool) (d : Nat) (r : Nat → W32) :
    ∃ w, x.Only i ((Res.done (x.put32 sc d r)).apply x i) w (if sc then [] else destV false d) (if sc then [d] else [])
      [] [] [] ∧ x.Result32 sc d w r := by
  unfold Ctx.put32 Ctx.Result32
  cases sc
  · obtain ⟨w, h1, h2⟩ := Ctx.only_putV h d r
    exact ⟨w, by simpa using h1, fun _ hd l hl ha => h2 l hl ha hd, by simp⟩
  · obtain ⟨w, h1, h2⟩ := Ctx.only_putS h d ((r 0).setWidth 64)
    exact ⟨w, by simpa using h1, by simp, fun _ => h2⟩

/-- The "pair" destination. -/
theorem Ctx.only_put64 {s : State} {i : Instr} {x : Ctx} (h : s.ctx i = some x) (sc : Bool) (d : Nat)
    (hd : sc = false → d ≠ 254) (r : Nat → W64) :
    ∃ w, x.Only i ((Res.done (x.put64 sc d r)).apply x i) w (if sc then [] else destV true d) (if sc then [d] else [])
      [] [] [] ∧ (sc = false → d ≠ 255 → ∀ l, l < 32 → x.act.has l = true → w.getV64 d l = r l)
      ∧ (sc = true → w.getS d = if x.act = 0 then x.w.getS d else r 0) := by
  unfold Ctx.put64
  cases sc
  · obtain ⟨w, h1, h2⟩ := Ctx.only_putV64 h d (hd rfl) r
    exact ⟨w, by simpa using h1, fun _ hd l hl ha => h2 l hl ha hd, by simp⟩
  · obtain ⟨w, h1, h2⟩ := Ctx.only_putS h d (r 0)
    exact ⟨w, by simpa using h1, by simp, fun _ => h2⟩

/-! ### Completion from an instruction's own entry

`he` is an `exec_` lemma followed by `rfl`; `hb` is `rfl`. -/

/-- An instruction whose entry writes the "w" destination. -/
theorem intDoes_of {i : Instr} {f : IntF} {d : Nat} {ex : State → Host.Outcome State Fault Refusal} {body : Ctx → Res}
    {f32 : Ctx → Nat → W32} {f64 : Ctx → Nat → W64} (g32 : Ctx → Nat → W32) (g64 : Ctx → Nat → W64)
    (hx : ∀ s, exec i s = ex s) (he : ∀ s, ex s = issue i s body) (hb : ∀ x, body x = .done (x.putInt f d (g32 x) (g64 x)))
    (ho : opD (kw f.s f.ty) d ∈ operands i) (h32 : ∀ x l, g32 x l = f32 x l) (h64 : ∀ x l, g64 x l = f64 x l) :
    IntDoes i f d f32 f64 := by
  intro s x h
  obtain ⟨w, h1, h2⟩ := Ctx.only_putInt h f d ho (g32 x) (g64 x)
  refine ⟨_, w, by rw [hx, he, issue_of h, hb], h1, ?_⟩
  have e1 : g32 x = f32 x := funext (h32 x)
  have e2 : g64 x = f64 x := funext (h64 x)
  rwa [e1, e2] at h2

/-- An instruction whose entry writes the "32" destination. -/
theorem does32_of {i : Instr} {sc : Bool} {d : Nat} {ex : State → Host.Outcome State Fault Refusal} {body : Ctx → Res}
    {r : Ctx → Nat → W32} (g : Ctx → Nat → W32) (hx : ∀ s, exec i s = ex s) (he : ∀ s, ex s = issue i s body)
    (hb : ∀ x, body x = .done (x.put32 sc d (g x))) (hr : ∀ x l, g x l = r x l) : Does32 i sc d [] r := by
  intro s x h
  obtain ⟨w, h1, h2⟩ := Ctx.only_put32 h.1 sc d (g x)
  refine ⟨_, w, by rw [hx, he, issue_of h, hb], h1, ?_⟩
  have e1 : g x = r x := funext (hr x)
  rwa [e1] at h2

/-- An instruction whose entry writes the "pair" destination. -/
theorem does64_of {i : Instr} {sc : Bool} {d : Nat} {ex : State → Host.Outcome State Fault Refusal} {body : Ctx → Res}
    {r : Ctx → Nat → W64} (g : Ctx → Nat → W64) (hx : ∀ s, exec i s = ex s) (he : ∀ s, ex s = issue i s body)
    (hb : ∀ x, body x = .done (x.put64 sc d (g x))) (ho : opD (k2 sc) d ∈ operands i) (hr : ∀ x l, g x l = r x l) :
    Does64 i sc d r := by
  intro s x h
  obtain ⟨w, h1, h2⟩ := Ctx.only_put64 h.1 sc d (fun hs => h.pair ho (by simp [opD, k2, hs]) rfl) (g x)
  refine ⟨_, w, by rw [hx, he, issue_of h, hb], h1, ?_⟩
  have e1 : g x = r x := funext (hr x)
  rwa [e1] at h2

/-- An instruction whose entry writes a predicate. -/
theorem doesP_of {i : Instr} {d : Nat} {ex : State → Host.Outcome State Fault Refusal} {body : Ctx → Res}
    {r : Ctx → Nat → Bool} (g : Ctx → Nat → Bool) (hx : ∀ s, exec i s = ex s) (he : ∀ s, ex s = issue i s body)
    (hb : ∀ x, body x = .done (x.putP d (g x))) (hr : ∀ x l, l < 32 → x.act.has l = true → g x l = r x l) :
    DoesP i d r := by
  intro s x h
  obtain ⟨w, h1, h2⟩ := Ctx.only_putP h.1 d (g x)
  exact ⟨_, w, by rw [hx, he, issue_of h, hb], h1, fun hd l hl ha => (h2 l hl ha hd).trans (hr x l hl ha)⟩

/-- An instruction whose entry writes one s register. -/
theorem doesS_of {i : Instr} {d : Nat} {ex : State → Host.Outcome State Fault Refusal} {body : Ctx → Res}
    {r : Ctx → W64} (g : Ctx → W64) (hx : ∀ s, exec i s = ex s) (he : ∀ s, ex s = issue i s body)
    (hb : ∀ x, body x = .done (x.upd fun w => w.setS d (g x))) (hr : ∀ x, g x = r x) : DoesS i d r := by
  intro s x h
  obtain ⟨w, h1, h2⟩ := Ctx.only_setS h.1 d (g x)
  exact ⟨_, w, by rw [hx, he, issue_of h, hb], h1, h2.trans (hr x)⟩

/-- The lanes of a set, as the claims count them. -/
theorem Lanes.toList_eq (m : Lanes) : m.toList = (List.range 32).filter fun l => m.has l := rfl

end Sys2Proof.Machine
end

