-- ==== Sys2Proof/Laws/Float.lean ====
section
/-! SUPPORT. The floating-point forms: sticky bits, and completion of an instruction that rounds (R355). -/

namespace Sys2Proof.Machine
open Sys2Proof

set_option Elab.async false

/-! ### Sticky bits -/

theorem setBit64_bit (v : W64) (n c : Nat) (hn : n < 64) :
    (setBit64 v n true).getLsbD c = (v.getLsbD c || decide (c = n)) := by
  unfold setBit64
  rw [if_pos rfl, BitVec.getLsbD_or, BitVec.getLsbD_shiftLeft]
  by_cases hc : c < 64
  · by_cases h1 : c < n
    · simp [h1, show c ≠ n by omega]
    · by_cases h2 : c = n
      · subst h2; simp [hc]
      · have : (1#64).getLsbD (c - n) = false := by
          rw [BitVec.getLsbD_one]; simp; omega
        simp [h1, h2, hc, this]
  · simp [hc, show c ≠ n by omega]

/-- The weave with a sticky bit set if `b`. -/
def Weave.stickyIf (w : Weave) (bit : Nat) (b : Bool) : Weave := if b then w.sticky bit else w

theorem Weave.sameBut_stickyIf (w : Weave) (bit : Nat) (b : Bool) : w.SameBut (w.stickyIf bit b) := by
  unfold Weave.stickyIf; split
  · exact w.sameBut_sticky bit
  · exact .refl w

theorem Weave.stickyIf_bit (w : Weave) (bit : Nat) (hb : bit < 64) (b : Bool) (c : Nat) :
    (w.stickyIf bit b).wstat.getLsbD c = (w.wstat.getLsbD c || (b && decide (c = bit))) := by
  unfold Weave.stickyIf
  cases b
  · simp
  · exact (setBit64_bit w.wstat bit c hb).trans (by simp)

theorem Weave.stickyIf_regs (w : Weave) (bit : Nat) (b : Bool) :
    (w.stickyIf bit b).v = w.v ∧ (w.stickyIf bit b).s = w.s ∧ (w.stickyIf bit b).p = w.p ∧ (w.stickyIf bit b).k = w.k := by
  unfold Weave.stickyIf; split <;> exact ⟨rfl, rfl, rfl, rfl⟩

/-- A sticky bit set after another change of the weave. -/
theorem State.stickyIf_weave (s : State) (n bit : Nat) (b : Bool) (m : Nat) :
    (s.stickyIf n bit b).weave m = if m = n then (s.weave n).map fun w => w.stickyIf bit b else s.weave m := by
  unfold State.stickyIf Weave.stickyIf
  cases b
  · simp only [Bool.false_eq_true, if_false]
    split
    · subst_vars; simp
    · rfl
  · simp only [if_true]
    exact State.weave_updWeave s n _ m

theorem State.stickyIf_rest (s : State) (n bit : Nat) (b : Bool) :
    s.stickyIf n bit b = { s with weaves := (s.stickyIf n bit b).weaves } := by
  unfold State.stickyIf; split <;> rfl

/-- A register-only effect with a sticky bit set after it: the registers are those without it. -/
theorem Ctx.Only.stickyIf {i : Instr} {x : Ctx} {w : Weave} {s1 : State} {v sr p k st : List Nat}
    (hO : x.Only i ((Res.done s1).apply x i) w v sr p k st) (bit : Nat) (hb : bit < 64) (b : Bool) (hin : b = true → bit ∈ st) :
    ∃ w', x.Only i ((Res.done (s1.stickyIf x.c.weave bit b)).apply x i) w' v sr p k st
      ∧ w'.v = w.v ∧ w'.s = w.s ∧ w'.p = w.p ∧ w'.k = w.k
      ∧ ∀ c, w'.wstat.getLsbD c = (w.wstat.getLsbD c || (b && decide (c = bit))) := by
  obtain ⟨o1, o2, o3, o4, o5, o6, o7, o8, o9, o10, o11, o12, o13, o14, o15, o16, o17⟩ := hO
  set f : Group → Group := fun g => g.advance x.c x.h.bnd (lateRegs i) with hf
  have hw : ∀ m, ((Res.done (s1.stickyIf x.c.weave bit b)).apply x i).weave m
      = if m = x.c.weave then (some (w.stickyIf bit b)) else ((Res.done s1).apply x i).weave m := by
    intro m
    have e1 : ((Res.done s1).apply x i).weave x.c.weave = (s1.weave x.c.weave).map fun w => w.updGroup x.c.gid f := by
      show (s1.updWeave x.c.weave _).weave x.c.weave = _
      rw [State.weave_updWeave, if_pos rfl]
    show ((s1.stickyIf x.c.weave bit b).updWeave x.c.weave _).weave m = _
    rw [State.weave_updWeave]
    split
    · rw [State.stickyIf_weave, if_pos rfl]
      rw [o4] at e1
      cases hs : s1.weave x.c.weave with
      | none => rw [hs] at e1; simp at e1
      | some q =>
        rw [hs] at e1
        simp only [Option.map_some, Option.some.injEq] at e1
        subst e1
        simp only [Option.map_some, Option.some.injEq]
        unfold Weave.stickyIf
        split <;> rfl
    · rename_i hm
      rw [State.stickyIf_weave, if_neg hm]
      show _ = (s1.updWeave x.c.weave _).weave m
      rw [State.weave_updWeave, if_neg hm]
  obtain ⟨r1, r2, r3, r4⟩ := w.stickyIf_regs bit b
  have hst := w.stickyIf_bit bit hb b
  obtain ⟨c1, c2, c3, c4, c5, c6, c7, c8⟩ := w.sameBut_stickyIf bit b
  refine ⟨w.stickyIf bit b, ⟨?_, ?_, ?_, ?_, ?_, ?_, ?_, ?_, ?_, ?_, ?_, ?_, ?_, ?_, ?_, ?_, ?_⟩, r1, r2, r3, r4, hst⟩
  · have e : (Res.done (s1.stickyIf x.c.weave bit b)).apply x i
        = { (Res.done s1).apply x i with weaves := ((Res.done (s1.stickyIf x.c.weave bit b)).apply x i).weaves } := by
      show State.updWeave _ _ _ = _
      rw [State.stickyIf_rest]; rfl
    rw [e]
    have o1' := o1
    generalize hT : (Res.done s1).apply x i = T at o1 ⊢
    rw [o1]
  · intro a
    have : ((Res.done (s1.stickyIf x.c.weave bit b)).apply x i).mem = ((Res.done s1).apply x i).mem := by
      show (s1.stickyIf x.c.weave bit b).mem = s1.mem
      rw [State.stickyIf_rest]
    rw [this]; exact o2 a
  · intro n hn; rw [hw, if_neg hn]; exact o3 n hn
  · rw [hw, if_pos rfl]
  · intro n l hl hn; exact (congrArg (fun t => Weave.getV { w with v := t } n l) r1).trans (o5 n l hl hn)
  · intro n hn; exact (congrArg (fun t => Tbl.get t 0 n) r2).trans (o6 n hn)
  · intro n l hl hn; exact (congrArg (fun t => Weave.getP { w with p := t } n l) r3).trans (o7 n l hl hn)
  · intro n hn; exact (congrArg (fun t => Tbl.get t nullCap n) r4).trans (o8 n hn)
  · intro n; exact (congrArg (fun t => Tbl.get t 0 n) c1).trans (o9 n)
  · intro c hc
    rw [hst, o10 c hc]
    cases b
    · simp
    · have : c ≠ bit := fun e => hc (e ▸ hin rfl)
      simp [this]
  · exact c2.trans o11
  · exact c3.trans o12
  · exact c4.trans o13
  · exact c5.trans o14
  · exact c6.trans o15
  · exact ⟨c8.1.trans o16.1, c8.2.1.trans o16.2.1, c8.2.2.1.trans o16.2.2.1, c8.2.2.2.1.trans o16.2.2.2.1,
      c8.2.2.2.2.1.trans o16.2.2.2.2.1, c8.2.2.2.2.2.1.trans o16.2.2.2.2.2.1, c8.2.2.2.2.2.2.trans o16.2.2.2.2.2.2⟩
  · exact c7.trans o17

/-- Any computing lane's report of SAT. -/
theorem Ctx.flags_eq (x : Ctx) (sc : Bool) (f : Nat → Fl) :
    x.flags sc f = ⟨if sc then (f 0).sat else (List.range 32).any fun l => x.act.has l && (f l).sat,
      if sc then (f 0).inexact else (List.range 32).any fun l => x.act.has l && (f l).inexact⟩ := by
  have key : ∀ (ls : List Nat) (a : Fl), ls.foldl (fun a l => a.or (f l)) a
      = ⟨a.sat || ls.any (fun l => (f l).sat), a.inexact || ls.any fun l => (f l).inexact⟩ := by
    intro ls
    induction ls with
    | nil => intro a; simp
    | cons l r ih => intro a; rw [List.foldl_cons, ih]; simp [Fl.or, Bool.or_assoc]
  unfold Ctx.flags Ctx.computing
  rw [key]
  cases sc
  · simp [Fl.none_, Ctx.lanes, Lanes.toList_eq, List.any_filter]
  · simp [Fl.none_]

/-- An instruction that rounds or converts to a "32" destination; `hb` is `rfl`. -/
theorem doesFp_of {i : Instr} {sc : Bool} {d : Nat} {bits : List Nat} {ex : State → Host.Outcome State Fault Refusal}
    {body : Ctx → Res} {r : Ctx → Nat → W32 × Fl} (g : Ctx → Nat → Nat × Fl) (hx : ∀ s, exec i s = ex s)
    (he : ∀ s, ex s = issue i s body) (hb : ∀ x, body x = x.conv32 sc d (g x))
    (hr : ∀ x l, (BitVec.ofNat 32 (g x l).1, (g x l).2) = r x l)
    (hs : wsSat ∈ bits) (hi : wsInexact ∈ bits ∨ ∀ x l, (g x l).2.inexact = false) : DoesFp i sc d bits r := by
  intro s x h
  obtain ⟨w, h1, h2⟩ := Ctx.only_put32 h.1 sc d fun l => w32 (g x l).1
  have h1' : x.Only i ((Res.done (x.put32 sc d fun l => w32 (g x l).1)).apply x i) w (if sc then [] else destV false d)
      (if sc then [d] else []) [] [] bits :=
    ⟨h1.1, h1.2, h1.3, h1.4, h1.5, h1.6, h1.7, h1.8, h1.9, fun b _ => h1.10 b (by simp), h1.11, h1.12, h1.13, h1.14,
      h1.15, h1.16, h1.17⟩
  have hold : ∀ c, w.wstat.getLsbD c = x.w.wstat.getLsbD c := fun c => h1.10 c (by simp)
  obtain ⟨w1, k1, v1, s1, p1, q1, b1⟩ := h1'.stickyIf wsSat (by decide) (x.flags sc fun l => (g x l).2).sat (fun _ => hs)
  have hin : (x.flags sc fun l => (g x l).2).inexact = true → wsInexact ∈ bits := by
    rcases hi with hi | hi
    · exact fun _ => hi
    · intro e
      rw [Ctx.flags_eq] at e
      simp [hi] at e
  obtain ⟨w2, k2, v2, s2, p2, q2, b2⟩ := k1.stickyIf wsInexact (by decide) (x.flags sc fun l => (g x l).2).inexact hin
  have e1 : ∀ l, w32 (g x l).1 = (r x l).1 := fun l => congrArg Prod.fst (hr x l)
  have e2 : ∀ l, (g x l).2 = (r x l).2 := fun l => congrArg Prod.snd (hr x l)
  have hv : w2.v = w.v := v2.trans v1
  have hss : w2.s = w.s := s2.trans s1
  refine ⟨_, w2, by rw [hx, he, issue_of h, hb]; rfl, k2, ⟨?_, ?_⟩, ?_, ?_⟩
  · intro hsc hd l hl ha
    exact (congrArg (fun t => Weave.getV { w with v := t } d l) hv).trans ((h2.1 hsc hd l hl ha).trans (e1 l))
  · intro hsc
    refine (congrArg (fun t => Tbl.get t 0 d) hss).trans ((h2.2 hsc).trans ?_)
    simp only [e1]
  · intro _
    unfold Ctx.Sets
    rw [b2, b1, hold, Ctx.flags_eq]
    simp only [e2]
    simp [wsSat, wsInexact]
  · intro _
    unfold Ctx.Sets
    rw [b2, b1, hold, Ctx.flags_eq]
    simp only [e2]
    simp [wsSat, wsInexact]


theorem value_mod (fm : Fmt) (n : Nat) : value fm (n % 2 ^ fm.bits) = value fm n := by
  have e : n % 2 ^ fm.bits % 2 ^ fm.bits = n % 2 ^ fm.bits := Nat.mod_mod _ _
  have hf : fpValue fm (n % 2 ^ fm.bits) = fpValue fm n := by unfold fpValue; rw [e]
  cases fm <;> first
    | exact hf
    | (unfold value; simp only [show n % 2 ^ Fmt.e8m0.bits % 256 = n % 256 from e]; done)
    | (unfold value; simp only [show n % 2 ^ Fmt.e5f2.bits % 256 = n % 256 from e]; done)
    | (unfold value; simp only [e]; done)
    | rfl

theorem fMinMax_min (fm : Fmt) (a b : W32) : fMinMax fm false a b = (
      let p := value fm a.toNat
      let q := value fm b.toNat
      BitVec.ofNat 32 (if p.isNan && q.isNan then canonNan fm
        else if p.isNan then b.toNat % 2 ^ fm.bits
        else if q.isNan || p.cmp q == some .lt || (p.cmp q == some .eq && p.sign) then a.toNat % 2 ^ fm.bits
        else b.toNat % 2 ^ fm.bits)) := by
  unfold fMinMax w32
  simp only [value_mod]
  generalize value fm a.toNat = p
  generalize value fm b.toNat = q
  have hn : p.cmp q = none ↔ p.isNan = true ∨ q.isNan = true := by
    cases p <;> cases q <;> simp [Val.cmp, Val.isNan]
  cases hc : p.cmp q with
  | none =>
    have := hn.1 hc
    cases hp : p.isNan <;> cases hq : q.isNan <;> simp_all
  | some o =>
    have h1 : p.isNan = false := by by_contra e; simp [hn.2 (.inl (by simpa using e))] at hc
    have h2 : q.isNan = false := by by_contra e; simp [hn.2 (.inr (by simpa using e))] at hc
    cases o <;> simp [h1, h2]

theorem fMinMax_max (fm : Fmt) (a b : W32) : fMinMax fm true a b = (
      let p := value fm a.toNat
      let q := value fm b.toNat
      BitVec.ofNat 32 (if p.isNan && q.isNan then canonNan fm
        else if p.isNan then b.toNat % 2 ^ fm.bits
        else if q.isNan || p.cmp q == some .gt || (p.cmp q == some .eq && q.sign) then a.toNat % 2 ^ fm.bits
        else b.toNat % 2 ^ fm.bits)) := by
  unfold fMinMax w32
  simp only [value_mod]
  generalize value fm a.toNat = p
  generalize value fm b.toNat = q
  have hn : p.cmp q = none ↔ p.isNan = true ∨ q.isNan = true := by
    cases p <;> cases q <;> simp [Val.cmp, Val.isNan]
  cases hc : p.cmp q with
  | none =>
    have := hn.1 hc
    cases hp : p.isNan <;> cases hq : q.isNan <;> simp_all
  | some o =>
    have h1 : p.isNan = false := by by_contra e; simp [hn.2 (.inl (by simpa using e))] at hc
    have h2 : q.isNan = false := by by_contra e; simp [hn.2 (.inr (by simpa using e))] at hc
    cases o <;> simp [h1, h2]

end Sys2Proof.Machine
end

