-- ==== Sys2Proof/Laws/Integer.lean ====
section
/-! SUPPORT. What the integer values are as numbers and as bits (R338–R341). -/

namespace Sys2Proof.Machine

open Sys2Proof

set_option Elab.async false

/-- IMULH as the high half of the product (R338). -/
theorem vMulh_eq {n : Nat} (sg : Bool) (p q : BitVec n) :
    vMulh sg p q = if sg then BitVec.ofInt n (p.toInt * q.toInt / 2 ^ n)
      else BitVec.ofNat n (p.toNat * q.toNat / 2 ^ n) := by
  unfold vMulh
  cases sg
  · apply BitVec.eq_of_toNat_eq
    have : p.toNat * q.toNat < 2 ^ (n + n) := by rw [Nat.pow_add]; exact Nat.mul_lt_mul'' p.isLt q.isLt
    simp [BitVec.extractLsb'_toNat, Nat.shiftRight_eq_div_pow, Nat.mod_eq_of_lt this]
  · simp only [if_true]
    generalize p.toInt * q.toInt = m
    apply BitVec.eq_of_toNat_eq
    simp only [BitVec.extractLsb'_toNat, BitVec.toNat_ofInt, Nat.shiftRight_eq_div_pow]
    have hn : (0 : Int) < 2 ^ n := by positivity
    have hpow : ((2 ^ (n + n) : Nat) : Int) = 2 ^ n * 2 ^ n := by push_cast; rw [pow_add]
    have h0 : 0 ≤ m % (2 ^ n * 2 ^ n : Int) := Int.emod_nonneg _ (by positivity)
    apply Int.ofNat.inj
    simp only [Int.ofNat_eq_natCast]
    push_cast [hpow]
    rw [Int.toNat_of_nonneg (Int.emod_nonneg _ (ne_of_gt hn)), Int.toNat_of_nonneg h0]
    rw [Int.emod_def m]
    have e1 : (m - 2 ^ n * 2 ^ n * (m / (2 ^ n * 2 ^ n))) / 2 ^ n = m / 2 ^ n - 2 ^ n * (m / (2 ^ n * 2 ^ n)) := by
      rw [show m - 2 ^ n * 2 ^ n * (m / (2 ^ n * 2 ^ n)) = m + 2 ^ n * (-(2 ^ n * (m / (2 ^ n * 2 ^ n)))) by ring,
        Int.add_mul_ediv_left _ _ (ne_of_gt hn)]
      ring
    rw [e1, Int.sub_mul_emod_self_left]

theorem vMin_eq {n : Nat} (sg : Bool) (a b : BitVec n) :
    vMin sg a b = if sg then BitVec.ofInt n (min a.toInt b.toInt) else BitVec.ofNat n (min a.toNat b.toNat) := by
  unfold vMin
  cases sg
  · simp only [Bool.false_eq_true, if_false, BitVec.le_def]
    by_cases h : a.toNat ≤ b.toNat
    · rw [if_pos h, min_eq_left h]; simp
    · rw [if_neg h, min_eq_right (by omega)]; simp
  · simp only [if_true, BitVec.sle_iff_toInt_le]
    by_cases h : a.toInt ≤ b.toInt
    · rw [if_pos h, min_eq_left h]; simp
    · rw [if_neg h, min_eq_right (by omega)]; simp

theorem vMax_eq {n : Nat} (sg : Bool) (a b : BitVec n) :
    vMax sg a b = if sg then BitVec.ofInt n (max a.toInt b.toInt) else BitVec.ofNat n (max a.toNat b.toNat) := by
  unfold vMax
  cases sg
  · simp only [Bool.false_eq_true, if_false, BitVec.le_def]
    by_cases h : b.toNat ≤ a.toNat
    · rw [if_pos h, max_eq_left h]; simp
    · rw [if_neg h, max_eq_right (by omega)]; simp
  · simp only [if_true, BitVec.sle_iff_toInt_le]
    by_cases h : b.toInt ≤ a.toInt
    · rw [if_pos h, max_eq_left h]; simp
    · rw [if_neg h, max_eq_right (by omega)]; simp

theorem vAbs_eq {n : Nat} (a : BitVec n) : vAbs a = BitVec.ofInt n |a.toInt| := by
  unfold vAbs
  by_cases h : a.msb = true
  · have hn : a.toInt < 0 := BitVec.toInt_neg_of_msb_true h
    rw [if_pos h, abs_of_neg hn, BitVec.ofInt_neg, BitVec.ofInt_toInt]
    simp
  · have hn : 0 ≤ a.toInt := BitVec.toInt_nonneg_of_msb_false (by simpa using h)
    rw [if_neg h, abs_of_nonneg hn, BitVec.ofInt_toInt]

theorem vShl_eq {n : Nat} (a : BitVec n) (k : Nat) :
    vShl a k = if k < n then BitVec.ofNat n (a.toNat * 2 ^ k) else 0 := by
  unfold vShl
  split
  · apply BitVec.eq_of_toNat_eq; simp [Nat.shiftLeft_eq]
  · rfl

theorem vShrLog_eq {n : Nat} (a : BitVec n) (k : Nat) : vShrLog a k = BitVec.ofNat n (a.toNat / 2 ^ k) := by
  unfold vShrLog
  have hd : a.toNat / 2 ^ k < 2 ^ n := lt_of_le_of_lt (Nat.div_le_self _ _) a.isLt
  split
  · apply BitVec.eq_of_toNat_eq; simp [Nat.shiftRight_eq_div_pow, Nat.mod_eq_of_lt hd]
  · rename_i h
    have : a.toNat < 2 ^ k := lt_of_lt_of_le a.isLt (Nat.pow_le_pow_right (by omega) (by omega))
    rw [Nat.div_eq_of_lt this]; simp

theorem vShrAri_eq {n : Nat} (a : BitVec n) (k : Nat) : vShrAri a k = BitVec.ofInt n (a.toInt / 2 ^ k) := by
  unfold vShrAri
  split
  · apply BitVec.eq_of_toInt_eq
    rw [BitVec.toInt_sshiftRight, Int.shiftRight_eq_div_pow]
    have := BitVec.ofInt_toInt (x := a.sshiftRight k)
    rw [BitVec.toInt_sshiftRight, Int.shiftRight_eq_div_pow] at this
    have h2 := congrArg BitVec.toInt this
    rw [BitVec.toInt_sshiftRight, Int.shiftRight_eq_div_pow] at h2
    push_cast at h2 ⊢
    exact h2.symm
  · rename_i h
    have hk : (2 : Int) ^ n ≤ 2 ^ k := by exact_mod_cast Nat.pow_le_pow_right (by omega) (by omega)
    by_cases hm : a.msb = true
    · rw [if_pos hm]
      have h1 : a.toInt < 0 := BitVec.toInt_neg_of_msb_true hm
      have h2 : -(2 : Int) ^ n ≤ a.toInt := by
        rw [BitVec.toInt_eq_toNat_cond]; split <;> have := a.isLt <;> push_cast <;> have := (Nat.cast_lt (α := Int)).2 a.isLt <;> push_cast at this <;> omega
      have : a.toInt / 2 ^ k = -1 := by
        have := Int.ediv_lt_of_lt_mul (a := a.toInt) (b := 0) (c := 2 ^ k) (by positivity) (by omega)
        have := Int.le_ediv_of_mul_le (a := -1) (b := a.toInt) (c := 2 ^ k) (by positivity) (by omega)
        omega
      rw [this]; simp [BitVec.ofInt_neg]; exact BitVec.neg_one_eq_allOnes.symm
    · rw [if_neg hm]
      have h1 : 0 ≤ a.toInt := BitVec.toInt_nonneg_of_msb_false (by simpa using hm)
      have h2 : a.toInt < 2 ^ n := by
        have := (Nat.cast_lt (α := Int)).2 a.isLt
        push_cast at this
        have : a.toInt ≤ a.toNat := by rw [BitVec.toInt_eq_toNat_cond]; split <;> omega
        omega
      rw [Int.ediv_eq_zero_of_lt h1 (lt_of_lt_of_le h2 hk)]; rfl

theorem vShrFun_eq {n : Nat} (a c : BitVec n) (k : Nat) :
    vShrFun a c k = BitVec.ofNat n ((c.toNat * 2 ^ n + a.toNat) / 2 ^ (k % n)) := by
  unfold vShrFun
  apply BitVec.eq_of_toNat_eq
  rw [BitVec.extractLsb'_toNat, BitVec.toNat_ushiftRight, BitVec.toNat_append, BitVec.toNat_ofNat,
    ← Nat.shiftLeft_add_eq_or_of_lt a.isLt, Nat.shiftLeft_eq, Nat.shiftRight_zero, Nat.shiftRight_eq_div_pow]

theorem vRol_eq {n : Nat} (a : BitVec n) (k : Nat) : vRol a k = a.rotateLeft k := by
  unfold vRol
  rw [← BitVec.rotateLeft_mod_eq_rotateLeft]
  rcases Nat.eq_zero_or_pos n with rfl | hn
  · exact BitVec.eq_of_zero_length rfl
  · have := Nat.mod_lt k hn
    simp only
    split
    · rename_i h; rw [h, BitVec.rotateLeft_def]
      have e : a >>> n = 0#n := by
        apply BitVec.eq_of_toNat_eq; simp [Nat.shiftRight_eq_div_pow, Nat.div_eq_of_lt a.isLt]
      simp [e]
    · rw [BitVec.rotateLeft_def, Nat.mod_mod]

theorem vPopc_eq {n : Nat} (a : BitVec n) :
    vPopc a = BitVec.ofNat 32 ((List.range n).countP fun i => a.getLsbD i) := by
  unfold vPopc w32; rw [List.countP_eq_length_filter]

theorem bfe_pos (n : Nat) (b : W32) : fieldPos n b = min (b.toNat % 256) n := by
  unfold fieldPos; simp [BitVec.extractLsb'_toNat]

theorem bfe_len (n : Nat) (b : W32) : fieldLen n b = min (b.toNat / 256 % 256) (n - min (b.toNat % 256) n) := by
  unfold fieldLen; rw [bfe_pos]; simp [BitVec.extractLsb'_toNat, Nat.shiftRight_eq_div_pow]

theorem fieldMask_bit (n len i : Nat) (h : len ≤ n) (hi : i < n) : (fieldMask n len).getLsbD i = decide (i < len) := by
  unfold fieldMask
  split
  · subst_vars; simp [hi]
  · have : (((1 <<< len : Nat) : BitVec n) - 1) = BitVec.ofNat n (2 ^ len - 1) := by
      have h1 : 2 ^ len < 2 ^ n := Nat.pow_lt_pow_right (by omega) (by omega)
      have h3 : 0 < 2 ^ len := by positivity
      apply BitVec.eq_of_toNat_eq
      have e : ((1 <<< len : Nat) : BitVec n).toNat = 2 ^ len := by
        change (1 <<< len) % 2 ^ n = _
        rw [Nat.shiftLeft_eq, one_mul, Nat.mod_eq_of_lt h1]
      have e1 : (1 : BitVec n).toNat = 1 := by change 1 % 2 ^ n = 1; exact Nat.mod_eq_of_lt (by omega)
      rw [BitVec.toNat_sub_of_le (by rw [BitVec.le_def, e, e1]; omega), e, e1]
      simp [Nat.mod_eq_of_lt (show 2 ^ len - 1 < 2 ^ n by omega)]
    rw [this, BitVec.getLsbD_ofNat, Nat.testBit_two_pow_sub_one, decide_eq_true hi, Bool.true_and]

theorem vBfi_bit {n : Nat} (a c : BitVec n) (k : W32) (i : Nat) (hi : i < n) :
    (vBfi a k c).getLsbD i = if fieldPos n k ≤ i ∧ i < fieldPos n k + fieldLen n k then a.getLsbD (i - fieldPos n k)
      else c.getLsbD i := by
  have hp : fieldPos n k ≤ n := by rw [bfe_pos]; omega
  have hl : fieldLen n k ≤ n - fieldPos n k := by rw [bfe_len, bfe_pos]; omega
  unfold vBfi
  generalize fieldPos n k = p at *
  generalize fieldLen n k = q at *
  have hm := fun j hj => fieldMask_bit n q j (by omega) hj
  simp only [BitVec.getLsbD_or, BitVec.getLsbD_and, BitVec.getLsbD_not, BitVec.getLsbD_shiftLeft]
  simp only [hi, decide_true, Bool.true_and]
  by_cases h1 : i < p
  · simp [h1, show ¬ (p ≤ i) by omega]
  · rw [hm _ (by omega)]
    by_cases h2 : i < p + q
    · simp [h1, h2, show p ≤ i by omega, show i - p < q by omega]
    · simp [h1, h2, show ¬ i - p < q by omega]

theorem toInt_ofInt_sub {n : Nat} (v len : Nat) (h : v < 2 ^ len) (hv : 2 ^ len ≤ 2 * v) (hl : len ≤ n) (j : Nat) (hj : j < n) :
    (BitVec.ofInt n ((v : Int) - 2 ^ len)).getLsbD j = if j < len then v.testBit j else true := by
  have hpow : 2 ^ len ≤ 2 ^ n := Nat.pow_le_pow_right (by omega) hl
  have e : BitVec.ofInt n ((v : Int) - 2 ^ len) = BitVec.ofNat n (v + 2 ^ len * (2 ^ (n - len) - 1)) := by
    apply BitVec.eq_of_toNat_eq
    rw [BitVec.toNat_ofInt, BitVec.toNat_ofNat]
    have h2 : 2 ^ len * (2 ^ (n - len) - 1) = 2 ^ n - 2 ^ len := by
      rw [Nat.mul_sub, ← pow_add, Nat.add_sub_cancel' hl, mul_one]
    rw [h2, Nat.mod_eq_of_lt (by omega)]
    rw [show ((v : Int) - 2 ^ len) % ((2 ^ n : Nat) : Int) = ((v + (2 ^ n - 2 ^ len) : Nat) : Int) by
      push_cast [hpow]
      rw [← Int.add_emod_right]
      rw [Int.emod_eq_of_lt]
      · ring
      · have : ((2 ^ len : Nat) : Int) ≤ (2 ^ n : Nat) := by exact_mod_cast hpow
        push_cast at this; omega
      · have : (v : Int) < ((2 ^ len : Nat) : Int) := by exact_mod_cast h
        push_cast at this; omega]
    rw [Int.toNat_natCast]
  rw [e, BitVec.getLsbD_ofNat, decide_eq_true hj, Bool.true_and, Nat.add_comm, Nat.testBit_two_pow_mul_add _ h]
  split
  · rfl
  · rw [Nat.testBit_two_pow_sub_one]; simp; omega

theorem vBfe_eq {n : Nat} (sg : Bool) (a : BitVec n) (b : W32) :
    vBfe sg a b =
      let pos := min (b.toNat % 256) n
      let len := min (b.toNat / 256 % 256) (n - pos)
      let v : Nat := a.toNat / 2 ^ pos % 2 ^ len
      if sg = true ∧ 2 ^ len ≤ 2 * v then BitVec.ofInt n ((v : Int) - 2 ^ len) else BitVec.ofNat n v := by
  have hp : fieldPos n b ≤ n := by rw [bfe_pos]; omega
  have hl : fieldLen n b ≤ n - fieldPos n b := by rw [bfe_len, bfe_pos]; omega
  unfold vBfe
  rw [← bfe_pos]
  simp only [show min (b.toNat / 256 % 256) (n - fieldPos n b) = fieldLen n b by rw [bfe_len, bfe_pos]]
  generalize fieldPos n b = p at *
  generalize fieldLen n b = q at *
  have hm := fun j hj => fieldMask_bit n q j (by omega) hj
  have hf : ∀ j, j < n → ((if p = n then 0 else (a >>> p) &&& fieldMask n q : BitVec n)).getLsbD j = (a.toNat / 2 ^ p % 2 ^ q).testBit j := by
    intro j hj
    rw [Nat.testBit_mod_two_pow, Nat.testBit_div_two_pow]
    split
    · have : q = 0 := by omega
      subst this; simp
    · rw [BitVec.getLsbD_and, BitVec.getLsbD_ushiftRight, hm j hj, Bool.and_comm, Nat.add_comm p j]; rfl
  generalize hF : ((if p = n then 0 else (a >>> p) &&& fieldMask n q : BitVec n)) = F at *
  have hvlt : a.toNat / 2 ^ p % 2 ^ q < 2 ^ q := Nat.mod_lt _ (by positivity)
  generalize a.toNat / 2 ^ p % 2 ^ q = v at *
  have hFv : F = BitVec.ofNat n v := by
    apply BitVec.eq_of_getLsbD_eq
    intro i hi
    rw [hf i hi, BitVec.getLsbD_ofNat, decide_eq_true hi, Bool.true_and]
  have hs : (0 < q ∧ F.getLsbD (q - 1) = true) ↔ 2 ^ q ≤ 2 * v := by
    rcases Nat.eq_zero_or_pos q with rfl | hq
    · simp; simp at hvlt; omega
    · rw [hf _ (by omega)]
      have e : 2 ^ q = 2 * 2 ^ (q - 1) := by rw [← pow_succ']; congr 1; omega
      constructor
      · rintro ⟨-, h⟩; have := Nat.ge_two_pow_of_testBit h; omega
      · intro h; refine ⟨hq, ?_⟩
        rw [Nat.testBit_eq_decide_div_mod_eq]
        have : v / 2 ^ (q - 1) = 1 := by
          rw [Nat.div_eq_iff (by positivity)]; omega
        simp [this]
  by_cases hc : sg = true ∧ 2 ^ q ≤ 2 * v
  · rw [if_pos hc, if_pos ⟨hc.1, hs.2 hc.2⟩]
    apply BitVec.eq_of_getLsbD_eq
    intro i hi
    rw [toInt_ofInt_sub v q hvlt hc.2 (by omega) i hi, BitVec.getLsbD_or, BitVec.getLsbD_not, hm i hi, hf i hi]
    by_cases h : i < q
    · simp [h]
    · simp [h, hi]
  · rw [if_neg hc, if_neg (fun h => hc ⟨h.1, hs.1 h.2⟩), hFv]
theorem foldl_or_bit {n : Nat} (p : Nat → Bool) (m : Nat) (hm : m ≤ n) (j : Nat) (hj : j < n) :
    ((List.range m).foldl (fun (d : BitVec n) i => if p i then d ||| (1 <<< i) else d) 0).getLsbD j
      = (decide (j < m) && p j) := by
  induction m with
  | zero => simp
  | succ m ih =>
    rw [List.range_succ, List.foldl_append]
    simp only [List.foldl_cons, List.foldl_nil]
    have hb : ∀ d : BitVec n, (d ||| (1 <<< m)).getLsbD j = (d.getLsbD j || decide (j = m)) := by
      intro d
      rw [BitVec.getLsbD_or]
      congr 1
      change (BitVec.ofNat n (1 <<< m)).getLsbD j = _
      rw [BitVec.getLsbD_ofNat, decide_eq_true hj, Bool.true_and, Nat.shiftLeft_eq, one_mul, Nat.testBit_two_pow]
      simp [eq_comm]
    split
    · rename_i h
      rw [hb, ih (by omega)]
      by_cases e : j = m
      · subst e; simp [h]
      · simp only [e, decide_false, Bool.or_false]; congr 1; simp only [decide_eq_decide]; omega
    · rename_i h
      rw [ih (by omega)]
      by_cases e : j = m
      · subst e; simp at h; simp [h]
      · congr 1; simp; omega

/-- A lane is in `ofFn` where the test holds. -/
theorem ofFn_bit (p : Nat → Bool) (j : Nat) : (Lanes.ofFn p).getLsbD j = (decide (j < 32) && p j) := by
  by_cases hj : j < 32
  · have := foldl_or_bit (n := 32) p 32 le_rfl j hj
    refine Eq.trans ?_ this
    unfold Lanes.ofFn
    congr 2
  · rw [BitVec.getLsbD_of_ge _ _ (by omega)]; simp [hj]

theorem vBrev_eq {n : Nat} (a : BitVec n) : vBrev a = a.reverse := by
  unfold vBrev
  apply BitVec.eq_of_getLsbD_eq
  intro i hi
  have := foldl_or_bit (n := n) (fun i => a.getLsbD (n - 1 - i)) n le_rfl i hi
  refine this.trans ?_
  rw [BitVec.getLsbD_reverse, BitVec.getMsbD, decide_eq_true hi]

theorem log2_clz (n v : Nat) (h : v < 2 ^ n) (h0 : v ≠ 0) :
   ((List.range n).reverse.takeWhile fun i => !v.testBit i).length = n - 1 - Nat.log2 v := by
  induction n with
  | zero => simp at h; omega
  | succ n ih =>
    rw [List.range_succ, List.reverse_append, List.reverse_singleton, List.singleton_append, List.takeWhile_cons]
    by_cases hb : v.testBit n = true
    · have h1 := Nat.ge_two_pow_of_testBit hb
      have : Nat.log2 v = n := by rw [Nat.log2_eq_iff h0]; exact ⟨h1, h⟩
      simp [hb, this]
    · have h1 : v < 2 ^ n := by
        by_contra hc
        have hl : Nat.log2 v = n := by rw [Nat.log2_eq_iff h0]; exact ⟨by omega, h⟩
        have := Nat.testBit_log2 h0
        rw [hl] at this; exact hb this
      have hl : Nat.log2 v < n := (Nat.log2_lt h0).2 h1
      simp only [hb, Bool.not_false, if_true, List.length_cons, ih h1]
      omega

theorem vClz_eq {n : Nat} (a : BitVec n) :
    vClz a = if a = 0 then w32 n else BitVec.ofNat 32 (n - 1 - Nat.log2 a.toNat) := by
  unfold vClz
  split
  · subst_vars
    congr 1
    rw [List.takeWhile_eq_self_iff.2 (by simp)]
    simp
  · rename_i h
    have h0 : a.toNat ≠ 0 := fun e => h (BitVec.eq_of_toNat_eq (by simpa using e))
    unfold w32
    rw [← log2_clz n a.toNat a.isLt h0]; rfl

theorem vCmp_eq (op : ICond) (sg : Bool) {n : Nat} (a b : BitVec n) : vCmp op sg a b =
      let p : Int := if sg then a.toInt else (a.toNat : Int)
      let q : Int := if sg then b.toInt else (b.toNat : Int)
      match op with
      | .eq => decide (p = q)
      | .ne => decide (p ≠ q)
      | .lt => decide (p < q)
      | .le => decide (p ≤ q)
      | .gt => decide (q < p)
      | .ge => decide (q ≤ p) := by
  cases op <;> cases sg <;> simp [vCmp, BitVec.slt, BitVec.sle, BitVec.ult, BitVec.ule, BitVec.toNat_inj, BitVec.toInt_inj, Bool.beq_eq_decide_eq, bne]

theorem cat4_byte (x0 x1 x2 x3 : BitVec 8) (i j : Nat) (hi : i < 4) (hj : j < 8) :
    ((x3 ++ x2 ++ x1 ++ x0 : BitVec (8 + 8 + 8 + 8))).getLsbD (8 * i + j)
      = (match i with | 0 => x0 | 1 => x1 | 2 => x2 | _ => x3).getLsbD j := by
  have : i = 0 ∨ i = 1 ∨ i = 2 ∨ i = 3 := by omega
  rcases this with rfl | rfl | rfl | rfl
  · simp only [BitVec.getLsbD_append]; rw [if_pos (by omega)]; congr 1; omega
  · simp only [BitVec.getLsbD_append]; rw [if_neg (by omega), if_pos (by omega)]; congr 1; omega
  · simp only [BitVec.getLsbD_append]; rw [if_neg (by omega), if_neg (by omega), if_pos (by omega)]; congr 1; omega
  · simp only [BitVec.getLsbD_append]; rw [if_neg (by omega), if_neg (by omega), if_neg (by omega)]; congr 1; omega

/-- The bytes of a BSWZ result (R341). -/
theorem vBswz_byte (a b c : W32) (i : Nat) (hi : i < 4) :
    (vBswz a b c).extractLsb' (8 * i) 8 = bswzByte (b ++ a) c i := by
  apply BitVec.eq_of_getLsbD_eq
  intro j hj
  rw [BitVec.getLsbD_extractLsb', decide_eq_true hj, Bool.true_and]
  refine (cat4_byte _ _ _ _ i j hi hj).trans ?_
  have : i = 0 ∨ i = 1 ∨ i = 2 ∨ i = 3 := by omega
  rcases this with rfl | rfl | rfl | rfl <;> rfl

/-- The control bits of one BSWZ byte as a number. -/
theorem bswzByte_eq (src : W64) (c : W32) (i : Nat) :
    bswzByte src c i =
      let byte : BitVec 8 := src.extractLsb' (8 * (c.toNat / 2 ^ (3 * i) % 8)) 8
      let byte : BitVec 8 := if c.getLsbD (16 + i) then (if byte.getLsbD 7 then 255 else 0) else byte
      if c.getLsbD (12 + i) then 0 else byte := by
  unfold bswzByte
  simp only [BitVec.extractLsb'_toNat, Nat.shiftRight_eq_div_pow, BitVec.msb_eq_getLsbD_last]

theorem vMin_mem {n : Nat} (sg : Bool) (a b : BitVec n) : vMin sg a b = a ∨ vMin sg a b = b := by
  unfold vMin; split <;> split <;> simp

theorem vMax_mem {n : Nat} (sg : Bool) (a b : BitVec n) : vMax sg a b = a ∨ vMax sg a b = b := by
  unfold vMax; split <;> split <;> simp

/-- The order that signedness gives (R351). -/
def ordKey (sg : Bool) {n : Nat} (a : BitVec n) : Int := if sg then a.toInt else (a.toNat : Int)

theorem ordKey_inj {sg : Bool} {n : Nat} {a b : BitVec n} (h : ordKey sg a = ordKey sg b) : a = b := by
  unfold ordKey at h
  cases sg
  · exact BitVec.eq_of_toNat_eq (by simpa using h)
  · exact BitVec.eq_of_toInt_eq (by simpa using h)

theorem vMin_key {n : Nat} (sg : Bool) (a b : BitVec n) : ordKey sg (vMin sg a b) = min (ordKey sg a) (ordKey sg b) := by
  unfold vMin ordKey
  cases sg <;> simp only [Bool.false_eq_true, if_false, if_true, BitVec.le_def, BitVec.sle_iff_toInt_le] <;> split <;> omega

theorem vMax_key {n : Nat} (sg : Bool) (a b : BitVec n) : ordKey sg (vMax sg a b) = max (ordKey sg a) (ordKey sg b) := by
  unfold vMax ordKey
  cases sg <;> simp only [Bool.false_eq_true, if_false, if_true, BitVec.le_def, BitVec.sle_iff_toInt_le] <;> split <;> omega

theorem foldl_min {n : Nat} (sg : Bool) (vs : List (BitVec n)) (u : BitVec n) :
    let r := vs.foldl (fun r v => vMin sg r v) u
    (r = u ∨ r ∈ vs) ∧ ordKey sg r ≤ ordKey sg u ∧ ∀ v ∈ vs, ordKey sg r ≤ ordKey sg v := by
  induction vs generalizing u with
  | nil => simp
  | cons a vs ih =>
    simp only [List.foldl_cons]
    obtain ⟨h1, h2, h3⟩ := ih (vMin sg u a)
    rw [vMin_key] at h2
    refine ⟨?_, by omega, ?_⟩
    · rcases h1 with h | h
      · rw [h]; rcases vMin_mem sg u a with e | e <;> rw [e] <;> simp
      · simp [h]
    · intro v hv
      rcases List.mem_cons.1 hv with rfl | hv
      · omega
      · exact h3 v hv

theorem foldl_max {n : Nat} (sg : Bool) (vs : List (BitVec n)) (u : BitVec n) :
    let r := vs.foldl (fun r v => vMax sg r v) u
    (r = u ∨ r ∈ vs) ∧ ordKey sg u ≤ ordKey sg r ∧ ∀ v ∈ vs, ordKey sg v ≤ ordKey sg r := by
  induction vs generalizing u with
  | nil => simp
  | cons a vs ih =>
    simp only [List.foldl_cons]
    obtain ⟨h1, h2, h3⟩ := ih (vMax sg u a)
    rw [vMax_key] at h2
    refine ⟨?_, by omega, ?_⟩
    · rcases h1 with h | h
      · rw [h]; rcases vMax_mem sg u a with e | e <;> rw [e] <;> simp
      · simp [h]
    · intro v hv
      rcases List.mem_cons.1 hv with rfl | hv
      · omega
      · exact h3 v hv

theorem foldl_add {n : Nat} (vs : List (BitVec n)) (u : BitVec n) :
    vs.foldl (fun r v => r + v) u = u + BitVec.ofNat n (vs.map (·.toNat)).sum := by
  induction vs generalizing u with
  | nil => simp
  | cons a vs ih =>
    rw [List.foldl_cons, ih]
    simp [BitVec.ofNat_add, BitVec.add_assoc]

theorem foldl_and_bit {n : Nat} (vs : List (BitVec n)) (u : BitVec n) (i : Nat) :
    (vs.foldl (fun r v => r &&& v) u).getLsbD i = (u.getLsbD i && vs.all fun v => v.getLsbD i) := by
  induction vs generalizing u with
  | nil => simp
  | cons a vs ih => rw [List.foldl_cons, ih, BitVec.getLsbD_and, List.all_cons, Bool.and_assoc]

theorem foldl_or_bits {n : Nat} (vs : List (BitVec n)) (u : BitVec n) (i : Nat) :
    (vs.foldl (fun r v => r ||| v) u).getLsbD i = (u.getLsbD i || vs.any fun v => v.getLsbD i) := by
  induction vs generalizing u with
  | nil => simp
  | cons a vs ih => rw [List.foldl_cons, ih, BitVec.getLsbD_or, List.any_cons, Bool.or_assoc]

theorem foldl_xor_bit {n : Nat} (vs : List (BitVec n)) (u : BitVec n) (i : Nat) :
    (vs.foldl (fun r v => r ^^^ v) u).getLsbD i
      = (u.getLsbD i ^^ decide ((vs.countP fun v => v.getLsbD i) % 2 = 1)) := by
  induction vs generalizing u with
  | nil => simp
  | cons a vs ih =>
    rw [List.foldl_cons, ih, BitVec.getLsbD_xor, List.countP_cons]
    rcases Nat.mod_two_eq_zero_or_one (vs.countP fun v => v.getLsbD i) with h | h <;>
      cases a.getLsbD i <;> cases u.getLsbD i <;> simp [h, Nat.add_mod]

/-- What IREDUX combines (R351). -/
theorem redux_combines (op : ReduxOp) (sg : Bool) {n : Nat} (hn : 0 < n) (vs : List (BitVec n)) :
    ReduxOp.Combines op sg vs (vs.foldl (fun r v => reduxStep op sg r v) (reduxUnit op sg n)) := by
  have hmin : ∀ v : BitVec n, ordKey sg v ≤ ordKey sg (if sg then BitVec.intMax n else BitVec.allOnes n) := by
    intro v; unfold ordKey; cases sg
    · simp only [Bool.false_eq_true, if_false, BitVec.toNat_allOnes]
      have := v.isLt; exact_mod_cast Nat.le_sub_one_of_lt this
    · simp only [if_true, BitVec.toInt_intMax]
      have := BitVec.two_mul_toInt_lt (x := v)
      have e : 2 ^ n = 2 * 2 ^ (n - 1) := by rw [← pow_succ']; congr 1; omega
      have e2 : (2 : Int) ^ n = 2 * 2 ^ (n - 1) := by exact_mod_cast e
      rw [e2] at this
      omega
  have hmax : ∀ v : BitVec n, ordKey sg (if sg then BitVec.intMin n else 0) ≤ ordKey sg v := by
    intro v; unfold ordKey; cases sg
    · simp
    · simp only [if_true]
      rw [BitVec.toInt_intMin_of_pos hn]
      have := BitVec.le_two_mul_toInt (x := v)
      have e : 2 ^ n = 2 * 2 ^ (n - 1) := by rw [← pow_succ']; congr 1; omega
      have e2 : (2 : Int) ^ n = 2 * 2 ^ (n - 1) := by exact_mod_cast e
      rw [e2] at this
      omega
  cases op with
  | add => exact (foldl_add vs 0).trans (by simp)
  | min =>
    change if vs = [] then _ else _
    split
    · subst_vars; rfl
    · rename_i hne
      obtain ⟨h1, h2, h3⟩ := foldl_min sg vs (if sg then BitVec.intMax n else BitVec.allOnes n)
      obtain ⟨a, ha⟩ := List.exists_mem_of_ne_nil vs hne
      have hk : ∀ v ∈ vs, ordKey sg (vs.foldl (fun r v => vMin sg r v) (if sg then BitVec.intMax n else BitVec.allOnes n))
          ≤ ordKey sg v := h3
      refine ⟨?_, fun v hv => ?_⟩
      · rcases h1 with h | h
        · have := h3 a ha
          rw [h] at this
          have e := ordKey_inj (Int.le_antisymm (hmin a) this)
          rw [e] at ha
          exact h.symm ▸ ha
        · exact h
      · have := hk v hv
        unfold ordKey at this
        cases sg
        · exact Int.ofNat_le.1 this
        · exact this
  | max =>
    change if vs = [] then _ else _
    split
    · subst_vars; rfl
    · rename_i hne
      obtain ⟨h1, h2, h3⟩ := foldl_max sg vs (if sg then BitVec.intMin n else 0)
      obtain ⟨a, ha⟩ := List.exists_mem_of_ne_nil vs hne
      have hk : ∀ v ∈ vs, ordKey sg v
          ≤ ordKey sg (vs.foldl (fun r v => vMax sg r v) (if sg then BitVec.intMin n else 0)) := h3
      refine ⟨?_, fun v hv => ?_⟩
      · rcases h1 with h | h
        · have := h3 a ha
          rw [h] at this
          have e := ordKey_inj (Int.le_antisymm this (hmax a))
          rw [e] at ha
          exact h.symm ▸ ha
        · exact h
      · have := hk v hv
        unfold ordKey at this
        cases sg
        · exact Int.ofNat_le.1 this
        · exact this
  | and => intro i hi; exact (foldl_and_bit vs _ i).trans (by simp [reduxUnit, hi])
  | or => intro i hi; exact (foldl_or_bits vs 0 i).trans (by simp)
  | xor => intro i hi; exact (foldl_xor_bit vs 0 i).trans (by simp)
end Sys2Proof.Machine
end

