-- ==== Sys2Proof/Laws/PerInstr.lean ====
section
/-! SUPPORT. The family RoundTrip: for each constructor, the decoder reads back what the encoder lays out (R284–R313). -/

namespace Sys2Proof.Laws

open Sys2Proof

set_option Elab.async false
set_option linter.unusedSimpArgs false

/-- Every operand at every value that the encoding admits comes back, and the word group has its length. -/
def RoundTrip.Statement (i : Instr) : Prop :=
  i.wf = true → ∀ n w, encode i = some (n, w) → decode w = .ok i ∧ groupBytes (w.extractLsb' 0 32) * 8 = n

theorem RoundTrip.moduleReset (imageGood : Bool) : RoundTrip.Statement (.moduleReset imageGood) :=
  fun _ _ _ he => nomatch he

theorem RoundTrip.functionReady (bit : ReadyBit) : RoundTrip.Statement (.functionReady bit) :=
  fun _ _ _ he => nomatch he

theorem RoundTrip.readyLimitExpiry (bit : ReadyBit) : RoundTrip.Statement (.readyLimitExpiry bit) :=
  fun _ _ _ he => nomatch he

theorem RoundTrip.heldAccessRelease (op : Nat) : RoundTrip.Statement (.heldAccessRelease op) :=
  fun _ _ _ he => nomatch he

theorem RoundTrip.linkStateChange (bit : ReadyBit) (up : Bool) : RoundTrip.Statement (.linkStateChange bit up) :=
  fun _ _ _ he => nomatch he

theorem RoundTrip.cgofflineWrite (v : W32) : RoundTrip.Statement (.cgofflineWrite v) :=
  fun _ _ _ he => nomatch he

theorem RoundTrip.recoveryGo (v : W64) : RoundTrip.Statement (.recoveryGo v) :=
  fun _ _ _ he => nomatch he

theorem RoundTrip.recoveryVerifyDone (good : Bool) : RoundTrip.Statement (.recoveryVerifyDone good) :=
  fun _ _ _ he => nomatch he

theorem RoundTrip.ltolWrite (part : Nat) (v : W32) : RoundTrip.Statement (.ltolWrite part v) :=
  fun _ _ _ he => nomatch he

theorem RoundTrip.powerStateEntry (die : Nat) : RoundTrip.Statement (.powerStateEntry die) :=
  fun _ _ _ he => nomatch he

theorem RoundTrip.wakeEvent (die : Nat) : RoundTrip.Statement (.wakeEvent die) :=
  fun _ _ _ he => nomatch he

theorem RoundTrip.dieExitComplete (die : Nat) : RoundTrip.Statement (.dieExitComplete die) :=
  fun _ _ _ he => nomatch he

theorem RoundTrip.thermalShutdown (die : Nat) : RoundTrip.Statement (.thermalShutdown die) :=
  fun _ _ _ he => nomatch he

theorem RoundTrip.remoteRequestArrival (p : Packet) : RoundTrip.Statement (.remoteRequestArrival p) :=
  fun _ _ _ he => nomatch he

theorem RoundTrip.rtForward (p : Packet) : RoundTrip.Statement (.rtForward p) :=
  fun _ _ _ he => nomatch he

theorem RoundTrip.remoteResponseArrival (ott : Nat) (r : Reply) : RoundTrip.Statement (.remoteResponseArrival ott r) :=
  fun _ _ _ he => nomatch he

theorem RoundTrip.holdNoticeSend (req : Nat) : RoundTrip.Statement (.holdNoticeSend req) :=
  fun _ _ _ he => nomatch he

theorem RoundTrip.holdNoticeArrival (ott : Nat) : RoundTrip.Statement (.holdNoticeArrival ott) :=
  fun _ _ _ he => nomatch he

theorem RoundTrip.remoteRequestTimeout (ott : Nat) : RoundTrip.Statement (.remoteRequestTimeout ott) :=
  fun _ _ _ he => nomatch he

theorem RoundTrip.authTagFailure (port : Nat) (part : Nat) : RoundTrip.Statement (.authTagFailure port part) :=
  fun _ _ _ he => nomatch he

theorem RoundTrip.keyUpdate (session : Nat) : RoundTrip.Statement (.keyUpdate session) :=
  fun _ _ _ he => nomatch he

theorem RoundTrip.stallResume (weave : Nat) (gid : Nat) : RoundTrip.Statement (.stallResume weave gid) :=
  fun _ _ _ he => nomatch he

theorem RoundTrip.partitionConfigWrite (offset : Nat) (v : W64) : RoundTrip.Statement (.partitionConfigWrite offset v) :=
  fun _ _ _ he => nomatch he

theorem RoundTrip.qcfgWrite (queue : Nat) (word : Nat) (v : W64) : RoundTrip.Statement (.qcfgWrite queue word v) :=
  fun _ _ _ he => nomatch he

theorem RoundTrip.doorbell (vf : Nat) (index : Nat) (tail : W32) : RoundTrip.Statement (.doorbell vf index tail) :=
  fun _ _ _ he => nomatch he

theorem RoundTrip.apertureAccess (vf : Nat) (offset : BitVec 32) (write : Bool) (len : Nat) (data : List (BitVec 8)) : RoundTrip.Statement (.apertureAccess vf offset write len data) :=
  fun _ _ _ he => nomatch he

theorem RoundTrip.lockInterfaceRequest (part : Nat) : RoundTrip.Statement (.lockInterfaceRequest part) :=
  fun _ _ _ he => nomatch he

theorem RoundTrip.lockScrubDone (part : Nat) : RoundTrip.Statement (.lockScrubDone part) :=
  fun _ _ _ he => nomatch he

theorem RoundTrip.startInterfaceRequest (part : Nat) : RoundTrip.Statement (.startInterfaceRequest part) :=
  fun _ _ _ he => nomatch he

theorem RoundTrip.stopInterfaceRequest (part : Nat) : RoundTrip.Statement (.stopInterfaceRequest part) :=
  fun _ _ _ he => nomatch he

theorem RoundTrip.getDeviceInterfaceReport (part : Nat) : RoundTrip.Statement (.getDeviceInterfaceReport part) :=
  fun _ _ _ he => nomatch he

theorem RoundTrip.getMeasurements (index : Nat) : RoundTrip.Statement (.getMeasurements index) :=
  fun _ _ _ he => nomatch he

theorem RoundTrip.ideIntegrityFailure (vf : Nat) : RoundTrip.Statement (.ideIntegrityFailure vf) :=
  fun _ _ _ he => nomatch he

theorem RoundTrip.cxlIdeFailure (port : Nat) : RoundTrip.Statement (.cxlIdeFailure port) :=
  fun _ _ _ he => nomatch he

theorem RoundTrip.coreGroupsFreed (part : Nat) : RoundTrip.Statement (.coreGroupsFreed part) :=
  fun _ _ _ he => nomatch he

theorem RoundTrip.queueRecordTake (part : Nat) : RoundTrip.Statement (.queueRecordTake part) :=
  fun _ _ _ he => nomatch he

theorem RoundTrip.dependenceMet (record : Nat) : RoundTrip.Statement (.dependenceMet record) :=
  fun _ _ _ he => nomatch he

theorem RoundTrip.cohortPlacement (part : Nat) (picks : List Nat) : RoundTrip.Statement (.cohortPlacement part picks) :=
  fun _ _ _ he => nomatch he

theorem RoundTrip.preempt (part : Nat) : RoundTrip.Statement (.preempt part) :=
  fun _ _ _ he => nomatch he

theorem RoundTrip.weaveHalt (weave : Nat) (gid : Nat) : RoundTrip.Statement (.weaveHalt weave gid) :=
  fun _ _ _ he => nomatch he

theorem RoundTrip.cohortQuiesced (cohort : Nat) : RoundTrip.Statement (.cohortQuiesced cohort) :=
  fun _ _ _ he => nomatch he

theorem RoundTrip.saveComplete (cohort : Nat) : RoundTrip.Statement (.saveComplete cohort) :=
  fun _ _ _ he => nomatch he

theorem RoundTrip.cancelDrained (part : Nat) (scope : Nat) : RoundTrip.Statement (.cancelDrained part scope) :=
  fun _ _ _ he => nomatch he

theorem RoundTrip.weaveSlotRelease (weave : Nat) : RoundTrip.Statement (.weaveSlotRelease weave) :=
  fun _ _ _ he => nomatch he

theorem RoundTrip.teamEnd (team : Nat) : RoundTrip.Statement (.teamEnd team) :=
  fun _ _ _ he => nomatch he

theorem RoundTrip.fieldEnd (field : Nat) : RoundTrip.Statement (.fieldEnd field) :=
  fun _ _ _ he => nomatch he

theorem RoundTrip.voidWrite (id : Nat) : RoundTrip.Statement (.voidWrite id) :=
  fun _ _ _ he => nomatch he

theorem RoundTrip.faultPost (id : Nat) : RoundTrip.Statement (.faultPost id) :=
  fun _ _ _ he => nomatch he

theorem RoundTrip.faultRetry (id : Nat) : RoundTrip.Statement (.faultRetry id) :=
  fun _ _ _ he => nomatch he

theorem RoundTrip.faultFail (id : Nat) : RoundTrip.Statement (.faultFail id) :=
  fun _ _ _ he => nomatch he

theorem RoundTrip.faultTimeout (id : Nat) : RoundTrip.Statement (.faultTimeout id) :=
  fun _ _ _ he => nomatch he

theorem RoundTrip.shootgoWrite (part : Nat) (v : W64) : RoundTrip.Statement (.shootgoWrite part v) :=
  fun _ _ _ he => nomatch he

theorem RoundTrip.shootdownDone (part : Nat) : RoundTrip.Statement (.shootdownDone part) :=
  fun _ _ _ he => nomatch he

theorem RoundTrip.copyAccept (core : Nat) : RoundTrip.Statement (.copyAccept core) :=
  fun _ _ _ he => nomatch he

theorem RoundTrip.copyComplete (id : Nat) (peerData : Unit) : RoundTrip.Statement (.copyComplete id peerData) :=
  fun _ _ _ he => nomatch he

theorem RoundTrip.copyFail (id : Nat) (err : CopyErr) : RoundTrip.Statement (.copyFail id err) :=
  fun _ _ _ he => nomatch he

theorem RoundTrip.accessComplete (op : Nat) : RoundTrip.Statement (.accessComplete op) :=
  fun _ _ _ he => nomatch he

theorem RoundTrip.uncorrectableMemoryError (pa : Nat) : RoundTrip.Statement (.uncorrectableMemoryError pa) :=
  fun _ _ _ he => nomatch he

theorem RoundTrip.scratchEcc (team : Nat) : RoundTrip.Statement (.scratchEcc team) :=
  fun _ _ _ he => nomatch he

theorem RoundTrip.kvstSlotWrite (id : Nat) : RoundTrip.Statement (.kvstSlotWrite id) :=
  fun _ _ _ he => nomatch he

theorem RoundTrip.kvpubStep (id : Nat) : RoundTrip.Statement (.kvpubStep id) :=
  fun _ _ _ he => nomatch he

theorem RoundTrip.poolLend (part : Nat) (die : Nat) (pool : Nat) (req : Option (Nat × Nat)) (offer : List W64) : RoundTrip.Statement (.poolLend part die pool req offer) :=
  fun _ _ _ he => nomatch he

theorem RoundTrip.poolCtrlWrite (part : Nat) (die : Nat) (pool : Nat) (v : W64) : RoundTrip.Statement (.poolCtrlWrite part die pool v) :=
  fun _ _ _ he => nomatch he

theorem RoundTrip.poolApply (part : Nat) (die : Nat) (pool : Nat) : RoundTrip.Statement (.poolApply part die pool) :=
  fun _ _ _ he => nomatch he

theorem RoundTrip.saffronEnqueue (req : Nat) : RoundTrip.Statement (.saffronEnqueue req) :=
  fun _ _ _ he => nomatch he

theorem RoundTrip.batchDeadline (batch : Nat) : RoundTrip.Statement (.batchDeadline batch) :=
  fun _ _ _ he => nomatch he

theorem RoundTrip.batchDispatch (cg : Nat) : RoundTrip.Statement (.batchDispatch cg) :=
  fun _ _ _ he => nomatch he

theorem RoundTrip.budgetRefill (cg : Nat) (units : W32) : RoundTrip.Statement (.budgetRefill cg units) :=
  fun _ _ _ he => nomatch he

theorem RoundTrip.batchComplete (batch : Nat) (peerData : Unit) : RoundTrip.Statement (.batchComplete batch peerData) :=
  fun _ _ _ he => nomatch he

theorem RoundTrip.mldmaskComplete (id : Nat) (peerData : Unit) : RoundTrip.Statement (.mldmaskComplete id peerData) :=
  fun _ _ _ he => nomatch he

theorem RoundTrip.waittWake (weave : Nat) (gid : Nat) : RoundTrip.Statement (.waittWake weave gid) :=
  fun _ _ _ he => nomatch he

theorem RoundTrip.nop (h : Hd) : RoundTrip.Statement (.nop h) := by
  intro hw
  change (h.okFor 0x00) = true at hw
  have w1 := hw
  refine decode_encode_of _ (by nofun) fun r he => ?_
  have hr := Option.some.inj (show some _ = some r from he)
  refine ⟨by rw [← hr]; exact .inl ⟨rfl, rfl, rfl⟩, ?_⟩
  have e : r.opc.toNat = 0x00 := by rw [← hr]; rfl
  refine decodeRaw_of r h _ (by rw [← hr]; rfl) (by rw [← hr]; rfl) (by rw [← hr]; rfl) (by rw [← hr]; exact w1)
    (by rw [← hr]; rfl) ?_
  simp only [decBody, decControl, e]
  subst hr
  simp [need, onSome, Raw.base, Raw.dab, Raw.dabc, Raw.plain, Raw.zero, Raw.noImm, toNat_ofNat8, w1]

theorem RoundTrip.run (wait : BitVec 12) (a : Option (BitVec 4)) (b : Option (BitVec 4)) : RoundTrip.Statement (.run wait a b) := by
  intro hw
  change (a.all (· ≤ 11) && b.all (· ≤ 11)) = true at hw
  simp only [Bool.and_eq_true] at hw
  refine decode_encode_of _ (by nofun) fun r he => ?_
  have hr := Option.some.inj (show some _ = some r from he)
  refine ⟨by rw [← hr]; exact .inl ⟨rfl, rfl, rfl⟩, ?_⟩
  have e : r.opc.toNat = 0x01 := by rw [← hr]; rfl
  refine decodeRaw_of r ⟨7, false, false⟩ _ (by rw [← hr]; rfl) (by rw [← hr]; rfl) (by rw [← hr]; rfl)
    (by rw [← hr]; rfl) (by rw [← hr]; rfl) ?_
  simp only [decBody, decControl, e]
  have hl : ∀ (va vb : Bool) (fb : BitVec 4),
      ((0#2) ++ BitVec.ofBool vb ++ fb ++ BitVec.ofBool va).getLsbD 0 = va
      ∧ ((0#2) ++ BitVec.ofBool vb ++ fb ++ BitVec.ofBool va).getLsbD 5 = vb
      ∧ ((0#2) ++ BitVec.ofBool vb ++ fb ++ BitVec.ofBool va).extractLsb' 1 4 = fb
      ∧ ((0#2) ++ BitVec.ofBool vb ++ fb ++ BitVec.ofBool va).extractLsb' 6 2 = 0 := by decide
  obtain ⟨h1, h2, h3, h4⟩ := hl a.isSome b.isSome (b.getD 0)
  have g1 : r.b = (0#2) ++ BitVec.ofBool b.isSome ++ b.getD 0 ++ BitVec.ofBool a.isSome := by rw [← hr]
  have g2 : r.a.extractLsb' 4 4 = a.getD 0 := by
    rw [← hr]; exact (extract_high _ _ _ _ (by decide)).trans ((extract_all _).trans (extract_all _))
  have g3 : (r.a.extractLsb' 0 4 ++ r.d : BitVec 12) = wait := by
    rw [← hr]
    have : (((a.getD 0).extractLsb' 0 4 ++ wait.extractLsb' 8 4 : BitVec 8)).extractLsb' 0 4 = wait.extractLsb' 8 4 :=
      (extract_low _ _ _ _ (by decide)).trans (extract_all _)
    simp only [this]
    exact split_cat (m := 4) (k := 8) wait
  rw [g1, h1, h2, h3, h4, g2, g3]
  have z : r.sub = 0 ∧ r.x = 0 ∧ r.c = 0 ∧ r.imm = 0 ∧ r.ext = 0 ∧ r.bnd = false := by
    rw [← hr]; exact ⟨rfl, rfl, rfl, rfl, rfl, rfl⟩
  obtain ⟨z1, z2, z3, z4, z5, z6⟩ := z
  cases a <;> cases b <;> simp_all [need, Raw.noImm]

theorem RoundTrip.bra (h : Hd) (imm : W32) : RoundTrip.Statement (.bra h imm) := by
  intro hw
  change (h.okFor 0x02) = true at hw
  have w1 := hw
  refine decode_encode_of _ (by nofun) fun r he => ?_
  have hr := Option.some.inj (show some _ = some r from he)
  refine ⟨by rw [← hr]; exact .inr (.inl ⟨rfl, rfl⟩), ?_⟩
  have e : r.opc.toNat = 0x02 := by rw [← hr]; rfl
  refine decodeRaw_of r h _ (by rw [← hr]; rfl) (by rw [← hr]; rfl) (by rw [← hr]; rfl) (by rw [← hr]; exact w1)
    (by rw [← hr]; rfl) ?_
  simp only [decBody, decControl, e]
  subst hr
  simp [need, onSome, Raw.base, Raw.dab, Raw.dabc, Raw.plain, Raw.zero, Raw.noImm, toNat_ofNat8, w1]

theorem RoundTrip.call (h : Hd) (imm : W32) : RoundTrip.Statement (.call h imm) := by
  intro hw
  change (h.okFor 0x04) = true at hw
  have w1 := hw
  refine decode_encode_of _ (by nofun) fun r he => ?_
  have hr := Option.some.inj (show some _ = some r from he)
  refine ⟨by rw [← hr]; exact .inr (.inl ⟨rfl, rfl⟩), ?_⟩
  have e : r.opc.toNat = 0x04 := by rw [← hr]; rfl
  refine decodeRaw_of r h _ (by rw [← hr]; rfl) (by rw [← hr]; rfl) (by rw [← hr]; rfl) (by rw [← hr]; exact w1)
    (by rw [← hr]; rfl) ?_
  simp only [decBody, decControl, e]
  subst hr
  simp [need, onSome, Raw.base, Raw.dab, Raw.dabc, Raw.plain, Raw.zero, Raw.noImm, toNat_ofNat8, w1]

theorem RoundTrip.brx (h : Hd) (a : Reg) : RoundTrip.Statement (.brx h a) := by
  intro hw
  change (h.okFor 0x03 && reg8 a) = true at hw
  simp only [Bool.and_eq_true, reg8, decide_eq_true_eq] at hw
  obtain ⟨w1, w2⟩ := hw
  refine decode_encode_of _ (by nofun) fun r he => ?_
  have hr := Option.some.inj (show some _ = some r from he)
  refine ⟨by rw [← hr]; exact .inl ⟨rfl, rfl, rfl⟩, ?_⟩
  have e : r.opc.toNat = 0x03 := by rw [← hr]; rfl
  refine decodeRaw_of r h _ (by rw [← hr]; rfl) (by rw [← hr]; rfl) (by rw [← hr]; rfl) (by rw [← hr]; exact w1)
    (by rw [← hr]; rfl) ?_
  simp only [decBody, decControl, e]
  subst hr
  simp [need, onSome, Raw.base, Raw.dab, Raw.dabc, Raw.plain, Raw.zero, Raw.noImm, toNat_ofNat8, w1, w2]

theorem RoundTrip.ret (h : Hd) : RoundTrip.Statement (.ret h) := by
  intro hw
  change (h.okFor 0x05) = true at hw
  have w1 := hw
  refine decode_encode_of _ (by nofun) fun r he => ?_
  have hr := Option.some.inj (show some _ = some r from he)
  refine ⟨by rw [← hr]; exact .inl ⟨rfl, rfl, rfl⟩, ?_⟩
  have e : r.opc.toNat = 0x05 := by rw [← hr]; rfl
  refine decodeRaw_of r h _ (by rw [← hr]; rfl) (by rw [← hr]; rfl) (by rw [← hr]; rfl) (by rw [← hr]; exact w1)
    (by rw [← hr]; rfl) ?_
  simp only [decBody, decControl, e]
  subst hr
  simp [need, onSome, Raw.base, Raw.dab, Raw.dabc, Raw.plain, Raw.zero, Raw.noImm, toNat_ofNat8, w1]

theorem RoundTrip.exit (h : Hd) : RoundTrip.Statement (.exit h) := by
  intro hw
  change (h.okFor 0x08) = true at hw
  have w1 := hw
  refine decode_encode_of _ (by nofun) fun r he => ?_
  have hr := Option.some.inj (show some _ = some r from he)
  refine ⟨by rw [← hr]; exact .inl ⟨rfl, rfl, rfl⟩, ?_⟩
  have e : r.opc.toNat = 0x08 := by rw [← hr]; rfl
  refine decodeRaw_of r h _ (by rw [← hr]; rfl) (by rw [← hr]; rfl) (by rw [← hr]; rfl) (by rw [← hr]; exact w1)
    (by rw [← hr]; rfl) ?_
  simp only [decBody, decControl, e]
  subst hr
  simp [need, onSome, Raw.base, Raw.dab, Raw.dabc, Raw.plain, Raw.zero, Raw.noImm, toNat_ofNat8, w1]

theorem RoundTrip.loopBeg (h : Hd) (lvl : BitVec 2) (a : Reg) (endOff : BitVec 16) (startOff : BitVec 16) : RoundTrip.Statement (.loopBeg h lvl a endOff startOff) := by
  intro hw
  change (h.okFor 0x06 && reg8 a) = true at hw
  simp only [Bool.and_eq_true, reg8, decide_eq_true_eq] at hw
  obtain ⟨w1, w2⟩ := hw
  refine decode_encode_of _ (by nofun) fun r he => ?_
  have hr := Option.some.inj (show some _ = some r from he)
  refine ⟨by rw [← hr]; exact .inr (.inl ⟨rfl, rfl⟩), ?_⟩
  have e : r.opc.toNat = 0x06 := by rw [← hr]; rfl
  refine decodeRaw_of r h _ (by rw [← hr]; rfl) (by rw [← hr]; rfl) (by rw [← hr]; rfl) (by rw [← hr]; exact w1)
    (by rw [← hr]; rfl) ?_
  simp only [decBody, decControl, e]
  subst hr
  simp [need, onSome, Raw.base, Raw.dab, Raw.dabc, Raw.plain, Raw.zero, Raw.noImm, toNat_ofNat8, w1, w2]
  obtain ⟨h1, h2, h3⟩ := loopBeg_bits lvl
  have h4 : (endOff ++ startOff : BitVec 32).extractLsb' 16 16 = endOff :=
    (extract_high _ _ _ _ (by decide)).trans (extract_all _)
  have h5 : (endOff ++ startOff : BitVec 32).extractLsb' 0 16 = startOff :=
    (extract_low _ _ _ _ (by decide)).trans (extract_all _)
  simp [h1, h2, h3, h4, h5, Nat.mod_eq_of_lt w2]

theorem RoundTrip.loopEnd (h : Hd) (lvl : BitVec 2) : RoundTrip.Statement (.loopEnd h lvl) := by
  intro hw
  change (h.okFor 0x06 && h.bnd) = true at hw
  simp only [Bool.and_eq_true, reg8, decide_eq_true_eq] at hw
  obtain ⟨w1, w2⟩ := hw
  refine decode_encode_of _ (by nofun) fun r he => ?_
  have hr := Option.some.inj (show some _ = some r from he)
  refine ⟨by rw [← hr]; exact .inr (.inl ⟨rfl, rfl⟩), ?_⟩
  have e : r.opc.toNat = 0x06 := by rw [← hr]; rfl
  refine decodeRaw_of r h _ (by rw [← hr]; rfl) (by rw [← hr]; rfl) (by rw [← hr]; rfl) (by rw [← hr]; exact w1)
    (by rw [← hr]; rfl) ?_
  simp only [decBody, decControl, e]
  subst hr
  have h3 : (4#6 ++ lvl : BitVec 8).getLsbD 4 = true := (BitVec.getLsbD_eq_getElem _).trans (loopEnd_bits lvl).1
  obtain ⟨-, h1, h2⟩ := loopEnd_bits lvl
  obtain ⟨pg, fs, bnd⟩ := h
  simp only at w2
  subst w2
  simp [need, Raw.base, Raw.noImm, Raw.zero, h1, h2, h3]

theorem RoundTrip.lbrk (h : Hd) (lvl : BitVec 2) : RoundTrip.Statement (.lbrk h lvl) := by
  intro hw
  change (h.okFor 0x07) = true at hw
  have w1 := hw
  refine decode_encode_of _ (by nofun) fun r he => ?_
  have hr := Option.some.inj (show some _ = some r from he)
  refine ⟨by rw [← hr]; exact .inl ⟨rfl, rfl, rfl⟩, ?_⟩
  have e : r.opc.toNat = 0x07 := by rw [← hr]; rfl
  refine decodeRaw_of r h _ (by rw [← hr]; rfl) (by rw [← hr]; rfl) (by rw [← hr]; rfl) (by rw [← hr]; exact w1)
    (by rw [← hr]; rfl) ?_
  simp only [decBody, decControl, e]
  subst hr
  simp [need, onSome, Raw.base, Raw.dab, Raw.dabc, Raw.plain, Raw.zero, Raw.noImm, toNat_ofNat8, w1]
  clear * -; revert lvl; decide

theorem RoundTrip.waitt (h : Hd) (a : Reg) : RoundTrip.Statement (.waitt h a) := by
  intro hw
  change (h.okFor 0x09 && reg8 a) = true at hw
  simp only [Bool.and_eq_true, reg8, decide_eq_true_eq] at hw
  obtain ⟨w1, w2⟩ := hw
  refine decode_encode_of _ (by nofun) fun r he => ?_
  have hr := Option.some.inj (show some _ = some r from he)
  refine ⟨by rw [← hr]; exact .inl ⟨rfl, rfl, rfl⟩, ?_⟩
  have e : r.opc.toNat = 0x09 := by rw [← hr]; rfl
  refine decodeRaw_of r h _ (by rw [← hr]; rfl) (by rw [← hr]; rfl) (by rw [← hr]; rfl) (by rw [← hr]; exact w1)
    (by rw [← hr]; rfl) ?_
  simp only [decBody, decControl, e]
  subst hr
  simp [need, onSome, Raw.base, Raw.dab, Raw.dabc, Raw.plain, Raw.zero, Raw.noImm, toNat_ofNat8, w1, w2]

theorem RoundTrip.kpoint (h : Hd) : RoundTrip.Statement (.kpoint h) := by
  intro hw
  change (h.okFor 0x14) = true at hw
  have w1 := hw
  refine decode_encode_of _ (by nofun) fun r he => ?_
  have hr := Option.some.inj (show some _ = some r from he)
  refine ⟨by rw [← hr]; exact .inl ⟨rfl, rfl, rfl⟩, ?_⟩
  have e : r.opc.toNat = 0x14 := by rw [← hr]; rfl
  refine decodeRaw_of r h _ (by rw [← hr]; rfl) (by rw [← hr]; rfl) (by rw [← hr]; rfl) (by rw [← hr]; exact w1)
    (by rw [← hr]; rfl) ?_
  simp only [decBody, decControl, e]
  subst hr
  simp [need, onSome, Raw.base, Raw.dab, Raw.dabc, Raw.plain, Raw.zero, Raw.noImm, toNat_ofNat8, w1]

theorem RoundTrip.trap (h : Hd) (imm : BitVec 16) : RoundTrip.Statement (.trap h imm) := by
  intro hw
  change (h.okFor 0x0B) = true at hw
  have w1 := hw
  refine decode_encode_of _ (by nofun) fun r he => ?_
  have hr := Option.some.inj (show some _ = some r from he)
  refine ⟨by rw [← hr]; exact .inl ⟨rfl, rfl, rfl⟩, ?_⟩
  have e : r.opc.toNat = 0x0B := by rw [← hr]; rfl
  refine decodeRaw_of r h _ (by rw [← hr]; rfl) (by rw [← hr]; rfl) (by rw [← hr]; rfl) (by rw [← hr]; exact w1)
    (by rw [← hr]; rfl) ?_
  simp only [decBody, decControl, e]
  subst hr
  simp [need, onSome, Raw.base, Raw.dab, Raw.dabc, Raw.plain, Raw.zero, Raw.noImm, toNat_ofNat8, w1]
  exact split_cat _

theorem RoundTrip.brk (h : Hd) (imm : BitVec 16) : RoundTrip.Statement (.brk h imm) := by
  intro hw
  change (h.okFor 0x0C) = true at hw
  have w1 := hw
  refine decode_encode_of _ (by nofun) fun r he => ?_
  have hr := Option.some.inj (show some _ = some r from he)
  refine ⟨by rw [← hr]; exact .inl ⟨rfl, rfl, rfl⟩, ?_⟩
  have e : r.opc.toNat = 0x0C := by rw [← hr]; rfl
  refine decodeRaw_of r h _ (by rw [← hr]; rfl) (by rw [← hr]; rfl) (by rw [← hr]; rfl) (by rw [← hr]; exact w1)
    (by rw [← hr]; rfl) ?_
  simp only [decBody, decControl, e]
  subst hr
  simp [need, onSome, Raw.base, Raw.dab, Raw.dabc, Raw.plain, Raw.zero, Raw.noImm, toNat_ofNat8, w1]
  exact split_cat _

theorem RoundTrip.sreg (h : Hd) (num : BitVec 4) (d : Reg) : RoundTrip.Statement (.sreg h num d) := by
  intro hw
  change (h.okFor 0x0D && reg8 d) = true at hw
  simp only [Bool.and_eq_true, reg8, decide_eq_true_eq] at hw
  obtain ⟨w1, w2⟩ := hw
  refine decode_encode_of _ (by nofun) fun r he => ?_
  have hr := Option.some.inj (show some _ = some r from he)
  refine ⟨by rw [← hr]; exact .inl ⟨rfl, rfl, rfl⟩, ?_⟩
  have e : r.opc.toNat = 0x0D := by rw [← hr]; rfl
  refine decodeRaw_of r h _ (by rw [← hr]; rfl) (by rw [← hr]; rfl) (by rw [← hr]; rfl) (by rw [← hr]; exact w1)
    (by rw [← hr]; rfl) ?_
  simp only [decBody, decControl, e]
  subst hr
  simp [need, onSome, Raw.base, Raw.dab, Raw.dabc, Raw.plain, Raw.zero, Raw.noImm, toNat_ofNat8, w1, w2]
  clear * -; revert num; decide

theorem RoundTrip.swreg (h : Hd) (a : Reg) : RoundTrip.Statement (.swreg h a) := by
  intro hw
  change (h.okFor 0x0E && reg8 a) = true at hw
  simp only [Bool.and_eq_true, reg8, decide_eq_true_eq] at hw
  obtain ⟨w1, w2⟩ := hw
  refine decode_encode_of _ (by nofun) fun r he => ?_
  have hr := Option.some.inj (show some _ = some r from he)
  refine ⟨by rw [← hr]; exact .inl ⟨rfl, rfl, rfl⟩, ?_⟩
  have e : r.opc.toNat = 0x0E := by rw [← hr]; rfl
  refine decodeRaw_of r h _ (by rw [← hr]; rfl) (by rw [← hr]; rfl) (by rw [← hr]; rfl) (by rw [← hr]; exact w1)
    (by rw [← hr]; rfl) ?_
  simp only [decBody, decControl, e]
  subst hr
  simp [need, onSome, Raw.base, Raw.dab, Raw.dabc, Raw.plain, Raw.zero, Raw.noImm, toNat_ofNat8, w1, w2]

theorem RoundTrip.spawn (h : Hd) (d : Reg) (a : Reg) (b : Reg) (imm : W32) (inherit : Bool) : RoundTrip.Statement (.spawn h d a b imm inherit) := by
  intro hw
  change (h.okFor 0x10 && reg8 d && reg8 a && reg8 b) = true at hw
  simp only [Bool.and_eq_true, reg8, decide_eq_true_eq] at hw
  obtain ⟨⟨⟨w1, w2⟩, w3⟩, w4⟩ := hw
  refine decode_encode_of _ (by nofun) fun r he => ?_
  have hr := Option.some.inj (show some _ = some r from he)
  refine ⟨by rw [← hr]; exact .inr (.inr rfl), ?_⟩
  have e : r.opc.toNat = 0x10 := by rw [← hr]; rfl
  refine decodeRaw_of r h _ (by rw [← hr]; rfl) (by rw [← hr]; rfl) (by rw [← hr]; rfl) (by rw [← hr]; exact w1)
    (by rw [← hr]; rfl) ?_
  simp only [decBody, decControl, e]
  subst hr
  simp [need, onSome, Raw.base, Raw.dab, Raw.dabc, Raw.plain, Raw.zero, Raw.noImm, toNat_ofNat8, w1, w2, w3, w4]
  cases inherit <;> decide

theorem RoundTrip.cscope (h : Hd) (flag : Bool) (d : Reg) (a : Reg) (b : Reg) : RoundTrip.Statement (.cscope h flag d a b) := by
  intro hw
  change (h.okFor 0x13 && reg8 d && reg8 a && reg8 b) = true at hw
  simp only [Bool.and_eq_true, reg8, decide_eq_true_eq] at hw
  obtain ⟨⟨⟨w1, w2⟩, w3⟩, w4⟩ := hw
  refine decode_encode_of _ (by nofun) fun r he => ?_
  have hr := Option.some.inj (show some _ = some r from he)
  refine ⟨by rw [← hr]; exact .inl ⟨rfl, rfl, rfl⟩, ?_⟩
  have e : r.opc.toNat = 0x13 := by rw [← hr]; rfl
  refine decodeRaw_of r h _ (by rw [← hr]; rfl) (by rw [← hr]; rfl) (by rw [← hr]; rfl) (by rw [← hr]; exact w1)
    (by rw [← hr]; rfl) ?_
  simp only [decBody, decControl, e]
  subst hr
  simp [need, onSome, Raw.base, Raw.dab, Raw.dabc, Raw.plain, Raw.zero, Raw.noImm, toNat_ofNat8, w1, w2, w3, w4]
  cases flag <;> decide

theorem RoundTrip.cancel (h : Hd) (d : Reg) (a : Reg) : RoundTrip.Statement (.cancel h d a) := by
  intro hw
  change (h.okFor 0x11 && reg8 d && reg8 a) = true at hw
  simp only [Bool.and_eq_true, reg8, decide_eq_true_eq] at hw
  obtain ⟨⟨w1, w2⟩, w3⟩ := hw
  refine decode_encode_of _ (by nofun) fun r he => ?_
  have hr := Option.some.inj (show some _ = some r from he)
  refine ⟨by rw [← hr]; exact .inl ⟨rfl, rfl, rfl⟩, ?_⟩
  have e : r.opc.toNat = 0x11 := by rw [← hr]; rfl
  refine decodeRaw_of r h _ (by rw [← hr]; rfl) (by rw [← hr]; rfl) (by rw [← hr]; rfl) (by rw [← hr]; exact w1)
    (by rw [← hr]; rfl) ?_
  simp only [decBody, decControl, e]
  subst hr
  simp [need, onSome, Raw.base, Raw.dab, Raw.dabc, Raw.plain, Raw.zero, Raw.noImm, toNat_ofNat8, w1, w2, w3]

theorem RoundTrip.cwait (h : Hd) (d : Reg) (a : Reg) : RoundTrip.Statement (.cwait h d a) := by
  intro hw
  change (h.okFor 0x12 && reg8 d && reg8 a) = true at hw
  simp only [Bool.and_eq_true, reg8, decide_eq_true_eq] at hw
  obtain ⟨⟨w1, w2⟩, w3⟩ := hw
  refine decode_encode_of _ (by nofun) fun r he => ?_
  have hr := Option.some.inj (show some _ = some r from he)
  refine ⟨by rw [← hr]; exact .inl ⟨rfl, rfl, rfl⟩, ?_⟩
  have e : r.opc.toNat = 0x12 := by rw [← hr]; rfl
  refine decodeRaw_of r h _ (by rw [← hr]; rfl) (by rw [← hr]; rfl) (by rw [← hr]; rfl) (by rw [← hr]; exact w1)
    (by rw [← hr]; rfl) ?_
  simp only [decBody, decControl, e]
  subst hr
  simp [need, onSome, Raw.base, Raw.dab, Raw.dabc, Raw.plain, Raw.zero, Raw.noImm, toNat_ofNat8, w1, w2, w3]

theorem RoundTrip.iadd (h : Hd) (f : IntF) (d : Reg) (a : Reg) (b : Reg) : RoundTrip.Statement (.iadd h f d a b) := by
  intro hw
  change (h.okFor 0x20 && h.scalarOk f.s && reg8 d && reg8 a && reg8 b) = true at hw
  simp only [Bool.and_eq_true, reg8, decide_eq_true_eq] at hw
  obtain ⟨⟨⟨⟨w1, w2⟩, w3⟩, w4⟩, w5⟩ := hw
  refine decode_encode_of _ (by nofun) fun r he => ?_
  have hr := Option.some.inj (show some _ = some r from he)
  refine ⟨by rw [← hr]; exact .inl ⟨rfl, rfl, rfl⟩, ?_⟩
  have e : r.opc.toNat = 0x20 := by rw [← hr]; rfl
  refine decodeRaw_of r h _ (by rw [← hr]; rfl) (by rw [← hr]; rfl) (by rw [← hr]; rfl) (by rw [← hr]; exact w1)
    (by rw [← hr]; rfl) ?_
  simp only [decBody, decInteger, e]
  rw [int_spec r true _ f 0 (by decide) (by rw [← hr]) (by rw [← hr]; rfl) (by rw [← hr]; rfl) (by rw [← hr]; rfl)
    (fun hs => ⟨rfl, by rw [← hr]; exact scalar_pg w2 hs⟩)]
  subst hr
  simp [need, onSome, Raw.base, Raw.dab, Raw.dabc, Raw.plain, Raw.zero, Raw.noImm, toNat_ofNat8, w1, w2, w3, w4, w5]

theorem RoundTrip.isub (h : Hd) (f : IntF) (d : Reg) (a : Reg) (b : Reg) : RoundTrip.Statement (.isub h f d a b) := by
  intro hw
  change (h.okFor 0x21 && h.scalarOk f.s && reg8 d && reg8 a && reg8 b) = true at hw
  simp only [Bool.and_eq_true, reg8, decide_eq_true_eq] at hw
  obtain ⟨⟨⟨⟨w1, w2⟩, w3⟩, w4⟩, w5⟩ := hw
  refine decode_encode_of _ (by nofun) fun r he => ?_
  have hr := Option.some.inj (show some _ = some r from he)
  refine ⟨by rw [← hr]; exact .inl ⟨rfl, rfl, rfl⟩, ?_⟩
  have e : r.opc.toNat = 0x21 := by rw [← hr]; rfl
  refine decodeRaw_of r h _ (by rw [← hr]; rfl) (by rw [← hr]; rfl) (by rw [← hr]; rfl) (by rw [← hr]; exact w1)
    (by rw [← hr]; rfl) ?_
  simp only [decBody, decInteger, e]
  rw [int_spec r true _ f 0 (by decide) (by rw [← hr]) (by rw [← hr]; rfl) (by rw [← hr]; rfl) (by rw [← hr]; rfl)
    (fun hs => ⟨rfl, by rw [← hr]; exact scalar_pg w2 hs⟩)]
  subst hr
  simp [need, onSome, Raw.base, Raw.dab, Raw.dabc, Raw.plain, Raw.zero, Raw.noImm, toNat_ofNat8, w1, w2, w3, w4, w5]

theorem RoundTrip.imul (h : Hd) (f : IntF) (d : Reg) (a : Reg) (b : Reg) : RoundTrip.Statement (.imul h f d a b) := by
  intro hw
  change (h.okFor 0x22 && h.scalarOk f.s && reg8 d && reg8 a && reg8 b) = true at hw
  simp only [Bool.and_eq_true, reg8, decide_eq_true_eq] at hw
  obtain ⟨⟨⟨⟨w1, w2⟩, w3⟩, w4⟩, w5⟩ := hw
  refine decode_encode_of _ (by nofun) fun r he => ?_
  have hr := Option.some.inj (show some _ = some r from he)
  refine ⟨by rw [← hr]; exact .inl ⟨rfl, rfl, rfl⟩, ?_⟩
  have e : r.opc.toNat = 0x22 := by rw [← hr]; rfl
  refine decodeRaw_of r h _ (by rw [← hr]; rfl) (by rw [← hr]; rfl) (by rw [← hr]; rfl) (by rw [← hr]; exact w1)
    (by rw [← hr]; rfl) ?_
  simp only [decBody, decInteger, e]
  rw [int_spec r true _ f 0 (by decide) (by rw [← hr]) (by rw [← hr]; rfl) (by rw [← hr]; rfl) (by rw [← hr]; rfl)
    (fun hs => ⟨rfl, by rw [← hr]; exact scalar_pg w2 hs⟩)]
  subst hr
  simp [need, onSome, Raw.base, Raw.dab, Raw.dabc, Raw.plain, Raw.zero, Raw.noImm, toNat_ofNat8, w1, w2, w3, w4, w5]

theorem RoundTrip.imulh (h : Hd) (f : IntF) (d : Reg) (a : Reg) (b : Reg) : RoundTrip.Statement (.imulh h f d a b) := by
  intro hw
  change (h.okFor 0x23 && h.scalarOk f.s && reg8 d && reg8 a && reg8 b) = true at hw
  simp only [Bool.and_eq_true, reg8, decide_eq_true_eq] at hw
  obtain ⟨⟨⟨⟨w1, w2⟩, w3⟩, w4⟩, w5⟩ := hw
  refine decode_encode_of _ (by nofun) fun r he => ?_
  have hr := Option.some.inj (show some _ = some r from he)
  refine ⟨by rw [← hr]; exact .inl ⟨rfl, rfl, rfl⟩, ?_⟩
  have e : r.opc.toNat = 0x23 := by rw [← hr]; rfl
  refine decodeRaw_of r h _ (by rw [← hr]; rfl) (by rw [← hr]; rfl) (by rw [← hr]; rfl) (by rw [← hr]; exact w1)
    (by rw [← hr]; rfl) ?_
  simp only [decBody, decInteger, e]
  rw [int_spec r true _ f 0 (by decide) (by rw [← hr]) (by rw [← hr]; rfl) (by rw [← hr]; rfl) (by rw [← hr]; rfl)
    (fun hs => ⟨rfl, by rw [← hr]; exact scalar_pg w2 hs⟩)]
  subst hr
  simp [need, onSome, Raw.base, Raw.dab, Raw.dabc, Raw.plain, Raw.zero, Raw.noImm, toNat_ofNat8, w1, w2, w3, w4, w5]

theorem RoundTrip.imad (h : Hd) (f : IntF) (d : Reg) (a : Reg) (b : Reg) (c : Reg) : RoundTrip.Statement (.imad h f d a b c) := by
  intro hw
  change (h.okFor 0x24 && h.scalarOk f.s && reg8 d && reg8 a && reg8 b && reg8 c) = true at hw
  simp only [Bool.and_eq_true, reg8, decide_eq_true_eq] at hw
  obtain ⟨⟨⟨⟨⟨w1, w2⟩, w3⟩, w4⟩, w5⟩, w6⟩ := hw
  refine decode_encode_of _ (by nofun) fun r he => ?_
  have hr := Option.some.inj (show some _ = some r from he)
  refine ⟨by rw [← hr]; exact .inl ⟨rfl, rfl, rfl⟩, ?_⟩
  have e : r.opc.toNat = 0x24 := by rw [← hr]; rfl
  refine decodeRaw_of r h _ (by rw [← hr]; rfl) (by rw [← hr]; rfl) (by rw [← hr]; rfl) (by rw [← hr]; exact w1)
    (by rw [← hr]; rfl) ?_
  simp only [decBody, decInteger, e]
  rw [int_spec r true _ f 0 (by decide) (by rw [← hr]) (by rw [← hr]; rfl) (by rw [← hr]; rfl) (by rw [← hr]; rfl)
    (fun hs => ⟨rfl, by rw [← hr]; exact scalar_pg w2 hs⟩)]
  subst hr
  simp [need, onSome, Raw.base, Raw.dab, Raw.dabc, Raw.plain, Raw.zero, Raw.noImm, toNat_ofNat8, w1, w2, w3, w4, w5, w6]

theorem RoundTrip.imin (h : Hd) (f : IntF) (d : Reg) (a : Reg) (b : Reg) : RoundTrip.Statement (.imin h f d a b) := by
  intro hw
  change (h.okFor 0x25 && h.scalarOk f.s && reg8 d && reg8 a && reg8 b) = true at hw
  simp only [Bool.and_eq_true, reg8, decide_eq_true_eq] at hw
  obtain ⟨⟨⟨⟨w1, w2⟩, w3⟩, w4⟩, w5⟩ := hw
  refine decode_encode_of _ (by nofun) fun r he => ?_
  have hr := Option.some.inj (show some _ = some r from he)
  refine ⟨by rw [← hr]; exact .inl ⟨rfl, rfl, rfl⟩, ?_⟩
  have e : r.opc.toNat = 0x25 := by rw [← hr]; rfl
  refine decodeRaw_of r h _ (by rw [← hr]; rfl) (by rw [← hr]; rfl) (by rw [← hr]; rfl) (by rw [← hr]; exact w1)
    (by rw [← hr]; rfl) ?_
  simp only [decBody, decInteger, e]
  rw [int_spec r true _ f 0 (by decide) (by rw [← hr]) (by rw [← hr]; rfl) (by rw [← hr]; rfl) (by rw [← hr]; rfl)
    (fun hs => ⟨rfl, by rw [← hr]; exact scalar_pg w2 hs⟩)]
  subst hr
  simp [need, onSome, Raw.base, Raw.dab, Raw.dabc, Raw.plain, Raw.zero, Raw.noImm, toNat_ofNat8, w1, w2, w3, w4, w5]

theorem RoundTrip.imax (h : Hd) (f : IntF) (d : Reg) (a : Reg) (b : Reg) : RoundTrip.Statement (.imax h f d a b) := by
  intro hw
  change (h.okFor 0x26 && h.scalarOk f.s && reg8 d && reg8 a && reg8 b) = true at hw
  simp only [Bool.and_eq_true, reg8, decide_eq_true_eq] at hw
  obtain ⟨⟨⟨⟨w1, w2⟩, w3⟩, w4⟩, w5⟩ := hw
  refine decode_encode_of _ (by nofun) fun r he => ?_
  have hr := Option.some.inj (show some _ = some r from he)
  refine ⟨by rw [← hr]; exact .inl ⟨rfl, rfl, rfl⟩, ?_⟩
  have e : r.opc.toNat = 0x26 := by rw [← hr]; rfl
  refine decodeRaw_of r h _ (by rw [← hr]; rfl) (by rw [← hr]; rfl) (by rw [← hr]; rfl) (by rw [← hr]; exact w1)
    (by rw [← hr]; rfl) ?_
  simp only [decBody, decInteger, e]
  rw [int_spec r true _ f 0 (by decide) (by rw [← hr]) (by rw [← hr]; rfl) (by rw [← hr]; rfl) (by rw [← hr]; rfl)
    (fun hs => ⟨rfl, by rw [← hr]; exact scalar_pg w2 hs⟩)]
  subst hr
  simp [need, onSome, Raw.base, Raw.dab, Raw.dabc, Raw.plain, Raw.zero, Raw.noImm, toNat_ofNat8, w1, w2, w3, w4, w5]

theorem RoundTrip.iabs (h : Hd) (f : IntF) (d : Reg) (a : Reg) : RoundTrip.Statement (.iabs h f d a) := by
  intro hw
  change (h.okFor 0x27 && h.scalarOk f.s && f.ty.signed && reg8 d && reg8 a) = true at hw
  simp only [Bool.and_eq_true, reg8, decide_eq_true_eq] at hw
  obtain ⟨⟨⟨⟨w1, w2⟩, w3⟩, w4⟩, w5⟩ := hw
  refine decode_encode_of _ (by nofun) fun r he => ?_
  have hr := Option.some.inj (show some _ = some r from he)
  refine ⟨by rw [← hr]; exact .inl ⟨rfl, rfl, rfl⟩, ?_⟩
  have e : r.opc.toNat = 0x27 := by rw [← hr]; rfl
  refine decodeRaw_of r h _ (by rw [← hr]; rfl) (by rw [← hr]; rfl) (by rw [← hr]; rfl) (by rw [← hr]; exact w1)
    (by rw [← hr]; rfl) ?_
  simp only [decBody, decInteger, e]
  rw [int_spec r true _ f 0 (by decide) (by rw [← hr]) (by rw [← hr]; rfl) (by rw [← hr]; rfl) (by rw [← hr]; rfl)
    (fun hs => ⟨rfl, by rw [← hr]; exact scalar_pg w2 hs⟩)]
  subst hr
  simp [need, onSome, Raw.base, Raw.dab, Raw.dabc, Raw.plain, Raw.zero, Raw.noImm, toNat_ofNat8, w1, w2, w3, w4, w5]

theorem RoundTrip.and (h : Hd) (f : IntF) (d : Reg) (a : Reg) (b : Reg) : RoundTrip.Statement (.and h f d a b) := by
  intro hw
  change (h.okFor 0x28 && h.scalarOk f.s && f.ty.logical && reg8 d && reg8 a && reg8 b) = true at hw
  simp only [Bool.and_eq_true, reg8, decide_eq_true_eq] at hw
  obtain ⟨⟨⟨⟨⟨w1, w2⟩, w3⟩, w4⟩, w5⟩, w6⟩ := hw
  refine decode_encode_of _ (by nofun) fun r he => ?_
  have hr := Option.some.inj (show some _ = some r from he)
  refine ⟨by rw [← hr]; exact .inl ⟨rfl, rfl, rfl⟩, ?_⟩
  have e : r.opc.toNat = 0x28 := by rw [← hr]; rfl
  refine decodeRaw_of r h _ (by rw [← hr]; rfl) (by rw [← hr]; rfl) (by rw [← hr]; rfl) (by rw [← hr]; exact w1)
    (by rw [← hr]; rfl) ?_
  simp only [decBody, decInteger, e]
  rw [int_spec r true _ f 0 (by decide) (by rw [← hr]) (by rw [← hr]; rfl) (by rw [← hr]; rfl) (by rw [← hr]; rfl)
    (fun hs => ⟨rfl, by rw [← hr]; exact scalar_pg w2 hs⟩)]
  subst hr
  simp [need, onSome, Raw.base, Raw.dab, Raw.dabc, Raw.plain, Raw.zero, Raw.noImm, toNat_ofNat8, w1, w2, w3, w4, w5, w6]

theorem RoundTrip.or (h : Hd) (f : IntF) (d : Reg) (a : Reg) (b : Reg) : RoundTrip.Statement (.or h f d a b) := by
  intro hw
  change (h.okFor 0x29 && h.scalarOk f.s && f.ty.logical && reg8 d && reg8 a && reg8 b) = true at hw
  simp only [Bool.and_eq_true, reg8, decide_eq_true_eq] at hw
  obtain ⟨⟨⟨⟨⟨w1, w2⟩, w3⟩, w4⟩, w5⟩, w6⟩ := hw
  refine decode_encode_of _ (by nofun) fun r he => ?_
  have hr := Option.some.inj (show some _ = some r from he)
  refine ⟨by rw [← hr]; exact .inl ⟨rfl, rfl, rfl⟩, ?_⟩
  have e : r.opc.toNat = 0x29 := by rw [← hr]; rfl
  refine decodeRaw_of r h _ (by rw [← hr]; rfl) (by rw [← hr]; rfl) (by rw [← hr]; rfl) (by rw [← hr]; exact w1)
    (by rw [← hr]; rfl) ?_
  simp only [decBody, decInteger, e]
  rw [int_spec r true _ f 0 (by decide) (by rw [← hr]) (by rw [← hr]; rfl) (by rw [← hr]; rfl) (by rw [← hr]; rfl)
    (fun hs => ⟨rfl, by rw [← hr]; exact scalar_pg w2 hs⟩)]
  subst hr
  simp [need, onSome, Raw.base, Raw.dab, Raw.dabc, Raw.plain, Raw.zero, Raw.noImm, toNat_ofNat8, w1, w2, w3, w4, w5, w6]

theorem RoundTrip.xor (h : Hd) (f : IntF) (d : Reg) (a : Reg) (b : Reg) : RoundTrip.Statement (.xor h f d a b) := by
  intro hw
  change (h.okFor 0x2A && h.scalarOk f.s && f.ty.logical && reg8 d && reg8 a && reg8 b) = true at hw
  simp only [Bool.and_eq_true, reg8, decide_eq_true_eq] at hw
  obtain ⟨⟨⟨⟨⟨w1, w2⟩, w3⟩, w4⟩, w5⟩, w6⟩ := hw
  refine decode_encode_of _ (by nofun) fun r he => ?_
  have hr := Option.some.inj (show some _ = some r from he)
  refine ⟨by rw [← hr]; exact .inl ⟨rfl, rfl, rfl⟩, ?_⟩
  have e : r.opc.toNat = 0x2A := by rw [← hr]; rfl
  refine decodeRaw_of r h _ (by rw [← hr]; rfl) (by rw [← hr]; rfl) (by rw [← hr]; rfl) (by rw [← hr]; exact w1)
    (by rw [← hr]; rfl) ?_
  simp only [decBody, decInteger, e]
  rw [int_spec r true _ f 0 (by decide) (by rw [← hr]) (by rw [← hr]; rfl) (by rw [← hr]; rfl) (by rw [← hr]; rfl)
    (fun hs => ⟨rfl, by rw [← hr]; exact scalar_pg w2 hs⟩)]
  subst hr
  simp [need, onSome, Raw.base, Raw.dab, Raw.dabc, Raw.plain, Raw.zero, Raw.noImm, toNat_ofNat8, w1, w2, w3, w4, w5, w6]

theorem RoundTrip.andn (h : Hd) (f : IntF) (d : Reg) (a : Reg) (b : Reg) : RoundTrip.Statement (.andn h f d a b) := by
  intro hw
  change (h.okFor 0x2B && h.scalarOk f.s && f.ty.logical && reg8 d && reg8 a && reg8 b) = true at hw
  simp only [Bool.and_eq_true, reg8, decide_eq_true_eq] at hw
  obtain ⟨⟨⟨⟨⟨w1, w2⟩, w3⟩, w4⟩, w5⟩, w6⟩ := hw
  refine decode_encode_of _ (by nofun) fun r he => ?_
  have hr := Option.some.inj (show some _ = some r from he)
  refine ⟨by rw [← hr]; exact .inl ⟨rfl, rfl, rfl⟩, ?_⟩
  have e : r.opc.toNat = 0x2B := by rw [← hr]; rfl
  refine decodeRaw_of r h _ (by rw [← hr]; rfl) (by rw [← hr]; rfl) (by rw [← hr]; rfl) (by rw [← hr]; exact w1)
    (by rw [← hr]; rfl) ?_
  simp only [decBody, decInteger, e]
  rw [int_spec r true _ f 0 (by decide) (by rw [← hr]) (by rw [← hr]; rfl) (by rw [← hr]; rfl) (by rw [← hr]; rfl)
    (fun hs => ⟨rfl, by rw [← hr]; exact scalar_pg w2 hs⟩)]
  subst hr
  simp [need, onSome, Raw.base, Raw.dab, Raw.dabc, Raw.plain, Raw.zero, Raw.noImm, toNat_ofNat8, w1, w2, w3, w4, w5, w6]

theorem RoundTrip.shl (h : Hd) (f : IntF) (d : Reg) (a : Reg) (b : Reg) : RoundTrip.Statement (.shl h f d a b) := by
  intro hw
  change (h.okFor 0x2C && h.scalarOk f.s && f.ty.logical && reg8 d && reg8 a && reg8 b) = true at hw
  simp only [Bool.and_eq_true, reg8, decide_eq_true_eq] at hw
  obtain ⟨⟨⟨⟨⟨w1, w2⟩, w3⟩, w4⟩, w5⟩, w6⟩ := hw
  refine decode_encode_of _ (by nofun) fun r he => ?_
  have hr := Option.some.inj (show some _ = some r from he)
  refine ⟨by rw [← hr]; exact .inl ⟨rfl, rfl, rfl⟩, ?_⟩
  have e : r.opc.toNat = 0x2C := by rw [← hr]; rfl
  refine decodeRaw_of r h _ (by rw [← hr]; rfl) (by rw [← hr]; rfl) (by rw [← hr]; rfl) (by rw [← hr]; exact w1)
    (by rw [← hr]; rfl) ?_
  simp only [decBody, decInteger, e]
  rw [int_spec r true _ f 0 (by decide) (by rw [← hr]) (by rw [← hr]; rfl) (by rw [← hr]; rfl) (by rw [← hr]; rfl)
    (fun hs => ⟨rfl, by rw [← hr]; exact scalar_pg w2 hs⟩)]
  subst hr
  simp [need, onSome, Raw.base, Raw.dab, Raw.dabc, Raw.plain, Raw.zero, Raw.noImm, toNat_ofNat8, w1, w2, w3, w4, w5, w6]

theorem RoundTrip.shr (h : Hd) (f : IntF) (op : ShrOp) (d : Reg) (a : Reg) (b : Reg) (c : Reg) : RoundTrip.Statement (.shr h f op d a b c) := by
  intro hw
  change (h.okFor 0x2D && h.scalarOk f.s && f.ty.logical && reg8 d && reg8 a && reg8 b && reg8 c && (op == .fun_ || c == 0)) = true at hw
  simp only [Bool.and_eq_true, reg8, decide_eq_true_eq] at hw
  obtain ⟨⟨⟨⟨⟨⟨⟨w1, w2⟩, w3⟩, w4⟩, w5⟩, w6⟩, w7⟩, w8⟩ := hw
  refine decode_encode_of _ (by nofun) fun r he => ?_
  have hr := Option.some.inj (show some _ = some r from he)
  refine ⟨by rw [← hr]; exact .inl ⟨rfl, rfl, rfl⟩, ?_⟩
  have e : r.opc.toNat = 0x2D := by rw [← hr]; rfl
  refine decodeRaw_of r h _ (by rw [← hr]; rfl) (by rw [← hr]; rfl) (by rw [← hr]; rfl) (by rw [← hr]; exact w1)
    (by rw [← hr]; rfl) ?_
  simp only [decBody, decInteger, e]
  rw [int_spec r true _ f op.code (ShrOp.code_lt _) (by rw [← hr]) (by rw [← hr]; rfl) (by rw [← hr]; rfl) (by rw [← hr]; rfl)
    (fun hs => ⟨rfl, by rw [← hr]; exact scalar_pg w2 hs⟩)]
  subst hr
  simp [need, onSome, Raw.base, Raw.dab, Raw.dabc, Raw.plain, Raw.zero, Raw.noImm, toNat_ofNat8, w1, w2, w3, w4, w5, w6, w7, w8]
  rcases (by simpa using w8 : op = .fun_ ∨ c = 0) with k | k <;> simp_all

theorem RoundTrip.rol (h : Hd) (f : IntF) (d : Reg) (a : Reg) (b : Reg) : RoundTrip.Statement (.rol h f d a b) := by
  intro hw
  change (h.okFor 0x2E && h.scalarOk f.s && f.ty.logical && reg8 d && reg8 a && reg8 b) = true at hw
  simp only [Bool.and_eq_true, reg8, decide_eq_true_eq] at hw
  obtain ⟨⟨⟨⟨⟨w1, w2⟩, w3⟩, w4⟩, w5⟩, w6⟩ := hw
  refine decode_encode_of _ (by nofun) fun r he => ?_
  have hr := Option.some.inj (show some _ = some r from he)
  refine ⟨by rw [← hr]; exact .inl ⟨rfl, rfl, rfl⟩, ?_⟩
  have e : r.opc.toNat = 0x2E := by rw [← hr]; rfl
  refine decodeRaw_of r h _ (by rw [← hr]; rfl) (by rw [← hr]; rfl) (by rw [← hr]; rfl) (by rw [← hr]; exact w1)
    (by rw [← hr]; rfl) ?_
  simp only [decBody, decInteger, e]
  rw [int_spec r true _ f 0 (by decide) (by rw [← hr]) (by rw [← hr]; rfl) (by rw [← hr]; rfl) (by rw [← hr]; rfl)
    (fun hs => ⟨rfl, by rw [← hr]; exact scalar_pg w2 hs⟩)]
  subst hr
  simp [need, onSome, Raw.base, Raw.dab, Raw.dabc, Raw.plain, Raw.zero, Raw.noImm, toNat_ofNat8, w1, w2, w3, w4, w5, w6]

theorem RoundTrip.bfe (h : Hd) (f : IntF) (d : Reg) (a : Reg) (b : Reg) : RoundTrip.Statement (.bfe h f d a b) := by
  intro hw
  change (h.okFor 0x2F && h.scalarOk f.s && reg8 d && reg8 a && reg8 b) = true at hw
  simp only [Bool.and_eq_true, reg8, decide_eq_true_eq] at hw
  obtain ⟨⟨⟨⟨w1, w2⟩, w3⟩, w4⟩, w5⟩ := hw
  refine decode_encode_of _ (by nofun) fun r he => ?_
  have hr := Option.some.inj (show some _ = some r from he)
  refine ⟨by rw [← hr]; exact .inl ⟨rfl, rfl, rfl⟩, ?_⟩
  have e : r.opc.toNat = 0x2F := by rw [← hr]; rfl
  refine decodeRaw_of r h _ (by rw [← hr]; rfl) (by rw [← hr]; rfl) (by rw [← hr]; rfl) (by rw [← hr]; exact w1)
    (by rw [← hr]; rfl) ?_
  simp only [decBody, decInteger, e]
  rw [int_spec r true _ f 0 (by decide) (by rw [← hr]) (by rw [← hr]; rfl) (by rw [← hr]; rfl) (by rw [← hr]; rfl)
    (fun hs => ⟨rfl, by rw [← hr]; exact scalar_pg w2 hs⟩)]
  subst hr
  simp [need, onSome, Raw.base, Raw.dab, Raw.dabc, Raw.plain, Raw.zero, Raw.noImm, toNat_ofNat8, w1, w2, w3, w4, w5]

theorem RoundTrip.bfi (h : Hd) (f : IntF) (d : Reg) (a : Reg) (b : Reg) (c : Reg) : RoundTrip.Statement (.bfi h f d a b c) := by
  intro hw
  change (h.okFor 0x30 && h.scalarOk f.s && f.ty.logical && reg8 d && reg8 a && reg8 b && reg8 c) = true at hw
  simp only [Bool.and_eq_true, reg8, decide_eq_true_eq] at hw
  obtain ⟨⟨⟨⟨⟨⟨w1, w2⟩, w3⟩, w4⟩, w5⟩, w6⟩, w7⟩ := hw
  refine decode_encode_of _ (by nofun) fun r he => ?_
  have hr := Option.some.inj (show some _ = some r from he)
  refine ⟨by rw [← hr]; exact .inl ⟨rfl, rfl, rfl⟩, ?_⟩
  have e : r.opc.toNat = 0x30 := by rw [← hr]; rfl
  refine decodeRaw_of r h _ (by rw [← hr]; rfl) (by rw [← hr]; rfl) (by rw [← hr]; rfl) (by rw [← hr]; exact w1)
    (by rw [← hr]; rfl) ?_
  simp only [decBody, decInteger, e]
  rw [int_spec r true _ f 0 (by decide) (by rw [← hr]) (by rw [← hr]; rfl) (by rw [← hr]; rfl) (by rw [← hr]; rfl)
    (fun hs => ⟨rfl, by rw [← hr]; exact scalar_pg w2 hs⟩)]
  subst hr
  simp [need, onSome, Raw.base, Raw.dab, Raw.dabc, Raw.plain, Raw.zero, Raw.noImm, toNat_ofNat8, w1, w2, w3, w4, w5, w6, w7]

theorem RoundTrip.popc (h : Hd) (f : IntF) (d : Reg) (a : Reg) : RoundTrip.Statement (.popc h f d a) := by
  intro hw
  change (h.okFor 0x31 && h.scalarOk f.s && f.ty.logical && reg8 d && reg8 a) = true at hw
  simp only [Bool.and_eq_true, reg8, decide_eq_true_eq] at hw
  obtain ⟨⟨⟨⟨w1, w2⟩, w3⟩, w4⟩, w5⟩ := hw
  refine decode_encode_of _ (by nofun) fun r he => ?_
  have hr := Option.some.inj (show some _ = some r from he)
  refine ⟨by rw [← hr]; exact .inl ⟨rfl, rfl, rfl⟩, ?_⟩
  have e : r.opc.toNat = 0x31 := by rw [← hr]; rfl
  refine decodeRaw_of r h _ (by rw [← hr]; rfl) (by rw [← hr]; rfl) (by rw [← hr]; rfl) (by rw [← hr]; exact w1)
    (by rw [← hr]; rfl) ?_
  simp only [decBody, decInteger, e]
  rw [int_spec r true _ f 0 (by decide) (by rw [← hr]) (by rw [← hr]; rfl) (by rw [← hr]; rfl) (by rw [← hr]; rfl)
    (fun hs => ⟨rfl, by rw [← hr]; exact scalar_pg w2 hs⟩)]
  subst hr
  simp [need, onSome, Raw.base, Raw.dab, Raw.dabc, Raw.plain, Raw.zero, Raw.noImm, toNat_ofNat8, w1, w2, w3, w4, w5]

theorem RoundTrip.clz (h : Hd) (f : IntF) (d : Reg) (a : Reg) : RoundTrip.Statement (.clz h f d a) := by
  intro hw
  change (h.okFor 0x32 && h.scalarOk f.s && f.ty.logical && reg8 d && reg8 a) = true at hw
  simp only [Bool.and_eq_true, reg8, decide_eq_true_eq] at hw
  obtain ⟨⟨⟨⟨w1, w2⟩, w3⟩, w4⟩, w5⟩ := hw
  refine decode_encode_of _ (by nofun) fun r he => ?_
  have hr := Option.some.inj (show some _ = some r from he)
  refine ⟨by rw [← hr]; exact .inl ⟨rfl, rfl, rfl⟩, ?_⟩
  have e : r.opc.toNat = 0x32 := by rw [← hr]; rfl
  refine decodeRaw_of r h _ (by rw [← hr]; rfl) (by rw [← hr]; rfl) (by rw [← hr]; rfl) (by rw [← hr]; exact w1)
    (by rw [← hr]; rfl) ?_
  simp only [decBody, decInteger, e]
  rw [int_spec r true _ f 0 (by decide) (by rw [← hr]) (by rw [← hr]; rfl) (by rw [← hr]; rfl) (by rw [← hr]; rfl)
    (fun hs => ⟨rfl, by rw [← hr]; exact scalar_pg w2 hs⟩)]
  subst hr
  simp [need, onSome, Raw.base, Raw.dab, Raw.dabc, Raw.plain, Raw.zero, Raw.noImm, toNat_ofNat8, w1, w2, w3, w4, w5]

theorem RoundTrip.brev (h : Hd) (f : IntF) (d : Reg) (a : Reg) : RoundTrip.Statement (.brev h f d a) := by
  intro hw
  change (h.okFor 0x33 && h.scalarOk f.s && f.ty.logical && reg8 d && reg8 a) = true at hw
  simp only [Bool.and_eq_true, reg8, decide_eq_true_eq] at hw
  obtain ⟨⟨⟨⟨w1, w2⟩, w3⟩, w4⟩, w5⟩ := hw
  refine decode_encode_of _ (by nofun) fun r he => ?_
  have hr := Option.some.inj (show some _ = some r from he)
  refine ⟨by rw [← hr]; exact .inl ⟨rfl, rfl, rfl⟩, ?_⟩
  have e : r.opc.toNat = 0x33 := by rw [← hr]; rfl
  refine decodeRaw_of r h _ (by rw [← hr]; rfl) (by rw [← hr]; rfl) (by rw [← hr]; rfl) (by rw [← hr]; exact w1)
    (by rw [← hr]; rfl) ?_
  simp only [decBody, decInteger, e]
  rw [int_spec r true _ f 0 (by decide) (by rw [← hr]) (by rw [← hr]; rfl) (by rw [← hr]; rfl) (by rw [← hr]; rfl)
    (fun hs => ⟨rfl, by rw [← hr]; exact scalar_pg w2 hs⟩)]
  subst hr
  simp [need, onSome, Raw.base, Raw.dab, Raw.dabc, Raw.plain, Raw.zero, Raw.noImm, toNat_ofNat8, w1, w2, w3, w4, w5]

theorem RoundTrip.bswz (h : Hd) (s : Bool) (d : Reg) (a : Reg) (b : Reg) (c : Reg) : RoundTrip.Statement (.bswz h s d a b c) := by
  intro hw
  change (h.okFor 0x3E && h.scalarOk s && reg8 d && reg8 a && reg8 b && reg8 c) = true at hw
  simp only [Bool.and_eq_true, reg8, decide_eq_true_eq] at hw
  obtain ⟨⟨⟨⟨⟨w1, w2⟩, w3⟩, w4⟩, w5⟩, w6⟩ := hw
  refine decode_encode_of _ (by nofun) fun r he => ?_
  have hr := Option.some.inj (show some _ = some r from he)
  refine ⟨by rw [← hr]; exact .inl ⟨rfl, rfl, rfl⟩, ?_⟩
  have e : r.opc.toNat = 0x3E := by rw [← hr]; rfl
  refine decodeRaw_of r h _ (by rw [← hr]; rfl) (by rw [← hr]; rfl) (by rw [← hr]; rfl) (by rw [← hr]; exact w1)
    (by rw [← hr]; rfl) ?_
  simp only [decBody, decInteger, e]
  rw [int_spec r true _ ⟨s, .u32⟩ 0 (by decide) (by rw [← hr]) (by rw [← hr]; rfl) (by rw [← hr]; rfl) (by rw [← hr]; rfl)
    (fun hs => ⟨rfl, by rw [← hr]; exact scalar_pg w2 hs⟩)]
  subst hr
  simp [need, onSome, Raw.base, Raw.dab, Raw.dabc, Raw.plain, Raw.zero, Raw.noImm, toNat_ofNat8, w1, w2, w3, w4, w5, w6]

theorem RoundTrip.isetp (h : Hd) (ty : Ty) (op : ICond) (d : Reg) (a : Reg) (b : Reg) : RoundTrip.Statement (.isetp h ty op d a b) := by
  intro hw
  change (h.okFor 0x34 && reg8 d && reg8 a && reg8 b) = true at hw
  simp only [Bool.and_eq_true, reg8, decide_eq_true_eq] at hw
  obtain ⟨⟨⟨w1, w2⟩, w3⟩, w4⟩ := hw
  refine decode_encode_of _ (by nofun) fun r he => ?_
  have hr := Option.some.inj (show some _ = some r from he)
  refine ⟨by rw [← hr]; exact .inl ⟨rfl, rfl, rfl⟩, ?_⟩
  have e : r.opc.toNat = 0x34 := by rw [← hr]; rfl
  refine decodeRaw_of r h _ (by rw [← hr]; rfl) (by rw [← hr]; rfl) (by rw [← hr]; rfl) (by rw [← hr]; exact w1)
    (by rw [← hr]; rfl) ?_
  simp only [decBody, decInteger, e]
  rw [int_spec r false _ ⟨false, ty⟩ op.code (ICond.code_lt _) (by rw [← hr]) (by rw [← hr]; rfl) (by rw [← hr]; rfl) (by rw [← hr]; rfl)
    (fun hs => nomatch hs)]
  subst hr
  simp [need, onSome, Raw.base, Raw.dab, Raw.dabc, Raw.plain, Raw.zero, Raw.noImm, toNat_ofNat8, w1, w2, w3, w4]

theorem RoundTrip.sel (h : Hd) (ty : Ty) (d : Reg) (a : Reg) (b : Reg) (c : Reg) : RoundTrip.Statement (.sel h ty d a b c) := by
  intro hw
  change (h.okFor 0x35 && ty.logical && reg8 d && reg8 a && reg8 b && reg8 c) = true at hw
  simp only [Bool.and_eq_true, reg8, decide_eq_true_eq] at hw
  obtain ⟨⟨⟨⟨⟨w1, w2⟩, w3⟩, w4⟩, w5⟩, w6⟩ := hw
  refine decode_encode_of _ (by nofun) fun r he => ?_
  have hr := Option.some.inj (show some _ = some r from he)
  refine ⟨by rw [← hr]; exact .inl ⟨rfl, rfl, rfl⟩, ?_⟩
  have e : r.opc.toNat = 0x35 := by rw [← hr]; rfl
  refine decodeRaw_of r h _ (by rw [← hr]; rfl) (by rw [← hr]; rfl) (by rw [← hr]; rfl) (by rw [← hr]; exact w1)
    (by rw [← hr]; rfl) ?_
  simp only [decBody, decInteger, e]
  rw [int_spec r false _ ⟨false, ty⟩ 0 (by decide) (by rw [← hr]) (by rw [← hr]; rfl) (by rw [← hr]; rfl) (by rw [← hr]; rfl)
    (fun hs => nomatch hs)]
  subst hr
  simp [need, onSome, Raw.base, Raw.dab, Raw.dabc, Raw.plain, Raw.zero, Raw.noImm, toNat_ofNat8, w1, w2, w3, w4, w5, w6]

theorem RoundTrip.plog (h : Hd) (op : PlogOp) (d : Reg) (a : Reg) (b : Reg) : RoundTrip.Statement (.plog h op d a b) := by
  intro hw
  change (h.okFor 0x39 && reg8 d && reg8 a && reg8 b && (!(op == .not || op == .mov) || b == 0)) = true at hw
  simp only [Bool.and_eq_true, reg8, decide_eq_true_eq] at hw
  obtain ⟨⟨⟨⟨w1, w2⟩, w3⟩, w4⟩, w5⟩ := hw
  refine decode_encode_of _ (by nofun) fun r he => ?_
  have hr := Option.some.inj (show some _ = some r from he)
  refine ⟨by rw [← hr]; exact .inl ⟨rfl, rfl, rfl⟩, ?_⟩
  have e : r.opc.toNat = 0x39 := by rw [← hr]; rfl
  refine decodeRaw_of r h _ (by rw [← hr]; rfl) (by rw [← hr]; rfl) (by rw [← hr]; rfl) (by rw [← hr]; exact w1)
    (by rw [← hr]; rfl) ?_
  simp only [decBody, decInteger, e]
  rw [int_spec r false _ ⟨false, .u32⟩ op.code (PlogOp.code_lt _) (by rw [← hr]) (by rw [← hr]; rfl) (by rw [← hr]; rfl) (by rw [← hr]; rfl)
    (fun hs => nomatch hs)]
  subst hr
  simp [need, onSome, Raw.base, Raw.dab, Raw.dabc, Raw.plain, Raw.zero, Raw.noImm, toNat_ofNat8, w1, w2, w3, w4, w5]
  rcases (by simpa using w5 : (¬ op = .not ∧ ¬ op = .mov) ∨ b = 0) with k | k <;> simp_all

theorem RoundTrip.mov (h : Hd) (f : IntF) (d : Reg) (a : Reg) : RoundTrip.Statement (.mov h f d a) := by
  intro hw
  change (h.okFor 0x36 && h.scalarOk f.s && f.ty.logical && reg8 d && reg8 a) = true at hw
  simp only [Bool.and_eq_true, reg8, decide_eq_true_eq] at hw
  obtain ⟨⟨⟨⟨w1, w2⟩, w3⟩, w4⟩, w5⟩ := hw
  refine decode_encode_of _ (by nofun) fun r he => ?_
  have hr := Option.some.inj (show some _ = some r from he)
  refine ⟨by rw [← hr]; exact .inl ⟨rfl, rfl, rfl⟩, ?_⟩
  have e : r.opc.toNat = 0x36 := by rw [← hr]; rfl
  refine decodeRaw_of r h _ (by rw [← hr]; rfl) (by rw [← hr]; rfl) (by rw [← hr]; rfl) (by rw [← hr]; exact w1)
    (by rw [← hr]; rfl) ?_
  simp only [decBody, decInteger, e]
  rw [int_spec r true _ f 0 (by decide) (by rw [← hr]) (by rw [← hr]; rfl) (by rw [← hr]; rfl) (by rw [← hr]; rfl)
    (fun hs => ⟨rfl, by rw [← hr]; exact scalar_pg w2 hs⟩)]
  subst hr
  simp [need, onSome, Raw.base, Raw.dab, Raw.dabc, Raw.plain, Raw.zero, Raw.noImm, toNat_ofNat8, w1, w2, w3, w4, w5]

theorem RoundTrip.movi32 (h : Hd) (s : Bool) (d : Reg) (imm : W32) : RoundTrip.Statement (.movi32 h s d imm) := by
  intro hw
  change (h.okFor 0x37 && h.scalarOk s && reg8 d) = true at hw
  simp only [Bool.and_eq_true, reg8, decide_eq_true_eq] at hw
  obtain ⟨⟨w1, w2⟩, w3⟩ := hw
  refine decode_encode_of _ (by nofun) fun r he => ?_
  have hr := Option.some.inj (show some _ = some r from he)
  refine ⟨by rw [← hr]; exact .inr (.inl ⟨rfl, rfl⟩), ?_⟩
  have e : r.opc.toNat = 0x37 := by rw [← hr]; rfl
  refine decodeRaw_of r h _ (by rw [← hr]; rfl) (by rw [← hr]; rfl) (by rw [← hr]; rfl) (by rw [← hr]; exact w1)
    (by rw [← hr]; rfl) ?_
  simp only [decBody, decInteger, e]
  subst hr
  simp [need, onSome, Raw.base, Raw.dab, Raw.dabc, Raw.plain, Raw.zero, Raw.noImm, toNat_ofNat8, w1, w2, w3]
  obtain ⟨h1, h2, h3⟩ := movi32_bits s
  simp only [h1, h2, h3]
  exact ⟨⟨trivial, w2⟩, trivial, trivial⟩

theorem RoundTrip.movi64 (h : Hd) (s : Bool) (d : Reg) (imm : W64) : RoundTrip.Statement (.movi64 h s d imm) := by
  intro hw
  change (h.okFor 0x37 && h.scalarOk s && reg8 d) = true at hw
  simp only [Bool.and_eq_true, reg8, decide_eq_true_eq] at hw
  obtain ⟨⟨w1, w2⟩, w3⟩ := hw
  refine decode_encode_of _ (by nofun) fun r he => ?_
  have hr := Option.some.inj (show some _ = some r from he)
  refine ⟨by rw [← hr]; exact .inr (.inr rfl), ?_⟩
  have e : r.opc.toNat = 0x37 := by rw [← hr]; rfl
  refine decodeRaw_of r h _ (by rw [← hr]; rfl) (by rw [← hr]; rfl) (by rw [← hr]; rfl) (by rw [← hr]; exact w1)
    (by rw [← hr]; rfl) ?_
  simp only [decBody, decInteger, e]
  subst hr
  simp [need, onSome, Raw.base, Raw.dab, Raw.dabc, Raw.plain, Raw.zero, Raw.noImm, toNat_ofNat8, w1, w2, w3]
  obtain ⟨h1, h2, h3⟩ := movi64_bits s
  simp only [h1, h2, h3]
  exact ⟨⟨trivial, w2⟩, trivial, trivial, split_cat _⟩

theorem RoundTrip.lea (h : Hd) (s : Bool) (shift : Fin 5) (d : Reg) (a : Reg) (b : Reg) : RoundTrip.Statement (.lea h s shift d a b) := by
  intro hw
  change (h.okFor 0x38 && h.scalarOk s && reg8 d && reg8 a && reg8 b) = true at hw
  simp only [Bool.and_eq_true, reg8, decide_eq_true_eq] at hw
  obtain ⟨⟨⟨⟨w1, w2⟩, w3⟩, w4⟩, w5⟩ := hw
  refine decode_encode_of _ (by nofun) fun r he => ?_
  have hr := Option.some.inj (show some _ = some r from he)
  refine ⟨by rw [← hr]; exact .inl ⟨rfl, rfl, rfl⟩, ?_⟩
  have e : r.opc.toNat = 0x38 := by rw [← hr]; rfl
  refine decodeRaw_of r h _ (by rw [← hr]; rfl) (by rw [← hr]; rfl) (by rw [← hr]; rfl) (by rw [← hr]; exact w1)
    (by rw [← hr]; rfl) ?_
  simp only [decBody, decInteger, e]
  rw [int_spec r true _ ⟨s, .u64⟩ shift.val (by omega) (by rw [← hr]) (by rw [← hr]; rfl) (by rw [← hr]; rfl) (by rw [← hr]; rfl)
    (fun hs => ⟨rfl, by rw [← hr]; exact scalar_pg w2 hs⟩)]
  subst hr
  simp [need, onSome, Raw.base, Raw.dab, Raw.dabc, Raw.plain, Raw.zero, Raw.noImm, toNat_ofNat8, w1, w2, w3, w4, w5]

theorem RoundTrip.ballot (h : Hd) (d : Reg) (a : Reg) : RoundTrip.Statement (.ballot h d a) := by
  intro hw
  change (h.okFor 0x3A && reg8 d && reg8 a) = true at hw
  simp only [Bool.and_eq_true, reg8, decide_eq_true_eq] at hw
  obtain ⟨⟨w1, w2⟩, w3⟩ := hw
  refine decode_encode_of _ (by nofun) fun r he => ?_
  have hr := Option.some.inj (show some _ = some r from he)
  refine ⟨by rw [← hr]; exact .inl ⟨rfl, rfl, rfl⟩, ?_⟩
  have e : r.opc.toNat = 0x3A := by rw [← hr]; rfl
  refine decodeRaw_of r h _ (by rw [← hr]; rfl) (by rw [← hr]; rfl) (by rw [← hr]; rfl) (by rw [← hr]; exact w1)
    (by rw [← hr]; rfl) ?_
  simp only [decBody, decInteger, e]
  rw [int_spec r false _ ⟨false, .u32⟩ 0 (by decide) (by rw [← hr]) (by rw [← hr]; rfl) (by rw [← hr]; rfl) (by rw [← hr]; rfl)
    (fun hs => nomatch hs)]
  subst hr
  simp [need, onSome, Raw.base, Raw.dab, Raw.dabc, Raw.plain, Raw.zero, Raw.noImm, toNat_ofNat8, w1, w2, w3]

theorem RoundTrip.vote (h : Hd) (op : VoteOp) (d : Reg) (a : Reg) : RoundTrip.Statement (.vote h op d a) := by
  intro hw
  change (h.okFor 0x3B && reg8 d && reg8 a) = true at hw
  simp only [Bool.and_eq_true, reg8, decide_eq_true_eq] at hw
  obtain ⟨⟨w1, w2⟩, w3⟩ := hw
  refine decode_encode_of _ (by nofun) fun r he => ?_
  have hr := Option.some.inj (show some _ = some r from he)
  refine ⟨by rw [← hr]; exact .inl ⟨rfl, rfl, rfl⟩, ?_⟩
  have e : r.opc.toNat = 0x3B := by rw [← hr]; rfl
  refine decodeRaw_of r h _ (by rw [← hr]; rfl) (by rw [← hr]; rfl) (by rw [← hr]; rfl) (by rw [← hr]; exact w1)
    (by rw [← hr]; rfl) ?_
  simp only [decBody, decInteger, e]
  rw [int_spec r false _ ⟨false, .u32⟩ op.code (VoteOp.code_lt _) (by rw [← hr]) (by rw [← hr]; rfl) (by rw [← hr]; rfl) (by rw [← hr]; rfl)
    (fun hs => nomatch hs)]
  subst hr
  simp [need, onSome, Raw.base, Raw.dab, Raw.dabc, Raw.plain, Raw.zero, Raw.noImm, toNat_ofNat8, w1, w2, w3]

theorem RoundTrip.shfl (h : Hd) (ty : Ty) (op : ShflOp) (d : Reg) (a : Reg) (b : Reg) : RoundTrip.Statement (.shfl h ty op d a b) := by
  intro hw
  change (h.okFor 0x3C && ty.logical && reg8 d && reg8 a && reg8 b) = true at hw
  simp only [Bool.and_eq_true, reg8, decide_eq_true_eq] at hw
  obtain ⟨⟨⟨⟨w1, w2⟩, w3⟩, w4⟩, w5⟩ := hw
  refine decode_encode_of _ (by nofun) fun r he => ?_
  have hr := Option.some.inj (show some _ = some r from he)
  refine ⟨by rw [← hr]; exact .inl ⟨rfl, rfl, rfl⟩, ?_⟩
  have e : r.opc.toNat = 0x3C := by rw [← hr]; rfl
  refine decodeRaw_of r h _ (by rw [← hr]; rfl) (by rw [← hr]; rfl) (by rw [← hr]; rfl) (by rw [← hr]; exact w1)
    (by rw [← hr]; rfl) ?_
  simp only [decBody, decInteger, e]
  rw [int_spec r false _ ⟨false, ty⟩ op.code (ShflOp.code_lt _) (by rw [← hr]) (by rw [← hr]; rfl) (by rw [← hr]; rfl) (by rw [← hr]; rfl)
    (fun hs => nomatch hs)]
  subst hr
  simp [need, onSome, Raw.base, Raw.dab, Raw.dabc, Raw.plain, Raw.zero, Raw.noImm, toNat_ofNat8, w1, w2, w3, w4, w5]

theorem RoundTrip.iredux (h : Hd) (ty : Ty) (op : ReduxOp) (d : Reg) (a : Reg) : RoundTrip.Statement (.iredux h ty op d a) := by
  intro hw
  change (h.okFor 0x3D && reg8 d && reg8 a) = true at hw
  simp only [Bool.and_eq_true, reg8, decide_eq_true_eq] at hw
  obtain ⟨⟨w1, w2⟩, w3⟩ := hw
  refine decode_encode_of _ (by nofun) fun r he => ?_
  have hr := Option.some.inj (show some _ = some r from he)
  refine ⟨by rw [← hr]; exact .inl ⟨rfl, rfl, rfl⟩, ?_⟩
  have e : r.opc.toNat = 0x3D := by rw [← hr]; rfl
  refine decodeRaw_of r h _ (by rw [← hr]; rfl) (by rw [← hr]; rfl) (by rw [← hr]; rfl) (by rw [← hr]; exact w1)
    (by rw [← hr]; rfl) ?_
  simp only [decBody, decInteger, e]
  rw [int_spec r false _ ⟨false, ty⟩ op.code (ReduxOp.code_lt _) (by rw [← hr]) (by rw [← hr]; rfl) (by rw [← hr]; rfl) (by rw [← hr]; rfl)
    (fun hs => nomatch hs)]
  subst hr
  simp [need, onSome, Raw.base, Raw.dab, Raw.dabc, Raw.plain, Raw.zero, Raw.noImm, toNat_ofNat8, w1, w2, w3]

theorem RoundTrip.fadd (h : Hd) (s : Bool) (fmt : Fmt) (d : Reg) (a : Reg) (b : Reg) : RoundTrip.Statement (.fadd h s fmt d a b) := by
  intro hw
  change (h.okFor 0x40 && h.scalarOk s && fmt.vec && reg8 d && reg8 a && reg8 b) = true at hw
  simp only [Bool.and_eq_true, reg8, decide_eq_true_eq] at hw
  obtain ⟨⟨⟨⟨⟨w1, w2⟩, w3⟩, w4⟩, w5⟩, w6⟩ := hw
  refine decode_encode_of _ (by nofun) fun r he => ?_
  have hr := Option.some.inj (show some _ = some r from he)
  refine ⟨by rw [← hr]; exact .inl ⟨rfl, rfl, rfl⟩, ?_⟩
  have e : r.opc.toNat = 0x40 := by rw [← hr]; rfl
  refine decodeRaw_of r h _ (by rw [← hr]; rfl) (by rw [← hr]; rfl) (by rw [← hr]; rfl) (by rw [← hr]; exact w1)
    (by rw [← hr]; rfl) ?_
  simp only [decBody, decFloat, e]
  rw [fp_spec r true _ s 0 fmt (by decide) (by rw [← hr]) (by rw [← hr]; rfl) (by rw [← hr]; rfl)
    (fun hs => ⟨rfl, by rw [← hr]; exact scalar_pg w2 hs⟩)]
  subst hr
  simp [need, onSome, Raw.base, Raw.dab, Raw.dabc, Raw.plain, Raw.zero, Raw.noImm, toNat_ofNat8, w1, w2, w3, w4, w5, w6]

theorem RoundTrip.fmul (h : Hd) (s : Bool) (fmt : Fmt) (d : Reg) (a : Reg) (b : Reg) : RoundTrip.Statement (.fmul h s fmt d a b) := by
  intro hw
  change (h.okFor 0x41 && h.scalarOk s && fmt.vec && reg8 d && reg8 a && reg8 b) = true at hw
  simp only [Bool.and_eq_true, reg8, decide_eq_true_eq] at hw
  obtain ⟨⟨⟨⟨⟨w1, w2⟩, w3⟩, w4⟩, w5⟩, w6⟩ := hw
  refine decode_encode_of _ (by nofun) fun r he => ?_
  have hr := Option.some.inj (show some _ = some r from he)
  refine ⟨by rw [← hr]; exact .inl ⟨rfl, rfl, rfl⟩, ?_⟩
  have e : r.opc.toNat = 0x41 := by rw [← hr]; rfl
  refine decodeRaw_of r h _ (by rw [← hr]; rfl) (by rw [← hr]; rfl) (by rw [← hr]; rfl) (by rw [← hr]; exact w1)
    (by rw [← hr]; rfl) ?_
  simp only [decBody, decFloat, e]
  rw [fp_spec r true _ s 0 fmt (by decide) (by rw [← hr]) (by rw [← hr]; rfl) (by rw [← hr]; rfl)
    (fun hs => ⟨rfl, by rw [← hr]; exact scalar_pg w2 hs⟩)]
  subst hr
  simp [need, onSome, Raw.base, Raw.dab, Raw.dabc, Raw.plain, Raw.zero, Raw.noImm, toNat_ofNat8, w1, w2, w3, w4, w5, w6]

theorem RoundTrip.ffma (h : Hd) (s : Bool) (fmt : Fmt) (d : Reg) (a : Reg) (b : Reg) (c : Reg) : RoundTrip.Statement (.ffma h s fmt d a b c) := by
  intro hw
  change (h.okFor 0x42 && h.scalarOk s && fmt.vec && reg8 d && reg8 a && reg8 b && reg8 c) = true at hw
  simp only [Bool.and_eq_true, reg8, decide_eq_true_eq] at hw
  obtain ⟨⟨⟨⟨⟨⟨w1, w2⟩, w3⟩, w4⟩, w5⟩, w6⟩, w7⟩ := hw
  refine decode_encode_of _ (by nofun) fun r he => ?_
  have hr := Option.some.inj (show some _ = some r from he)
  refine ⟨by rw [← hr]; exact .inl ⟨rfl, rfl, rfl⟩, ?_⟩
  have e : r.opc.toNat = 0x42 := by rw [← hr]; rfl
  refine decodeRaw_of r h _ (by rw [← hr]; rfl) (by rw [← hr]; rfl) (by rw [← hr]; rfl) (by rw [← hr]; exact w1)
    (by rw [← hr]; rfl) ?_
  simp only [decBody, decFloat, e]
  rw [fp_spec r true _ s 0 fmt (by decide) (by rw [← hr]) (by rw [← hr]; rfl) (by rw [← hr]; rfl)
    (fun hs => ⟨rfl, by rw [← hr]; exact scalar_pg w2 hs⟩)]
  subst hr
  simp [need, onSome, Raw.base, Raw.dab, Raw.dabc, Raw.plain, Raw.zero, Raw.noImm, toNat_ofNat8, w1, w2, w3, w4, w5, w6, w7]

theorem RoundTrip.fmin (h : Hd) (s : Bool) (fmt : Fmt) (d : Reg) (a : Reg) (b : Reg) : RoundTrip.Statement (.fmin h s fmt d a b) := by
  intro hw
  change (h.okFor 0x43 && h.scalarOk s && fmt.vec && reg8 d && reg8 a && reg8 b) = true at hw
  simp only [Bool.and_eq_true, reg8, decide_eq_true_eq] at hw
  obtain ⟨⟨⟨⟨⟨w1, w2⟩, w3⟩, w4⟩, w5⟩, w6⟩ := hw
  refine decode_encode_of _ (by nofun) fun r he => ?_
  have hr := Option.some.inj (show some _ = some r from he)
  refine ⟨by rw [← hr]; exact .inl ⟨rfl, rfl, rfl⟩, ?_⟩
  have e : r.opc.toNat = 0x43 := by rw [← hr]; rfl
  refine decodeRaw_of r h _ (by rw [← hr]; rfl) (by rw [← hr]; rfl) (by rw [← hr]; rfl) (by rw [← hr]; exact w1)
    (by rw [← hr]; rfl) ?_
  simp only [decBody, decFloat, e]
  rw [fp_spec r true _ s 0 fmt (by decide) (by rw [← hr]) (by rw [← hr]; rfl) (by rw [← hr]; rfl)
    (fun hs => ⟨rfl, by rw [← hr]; exact scalar_pg w2 hs⟩)]
  subst hr
  simp [need, onSome, Raw.base, Raw.dab, Raw.dabc, Raw.plain, Raw.zero, Raw.noImm, toNat_ofNat8, w1, w2, w3, w4, w5, w6]

theorem RoundTrip.fmax (h : Hd) (s : Bool) (fmt : Fmt) (d : Reg) (a : Reg) (b : Reg) : RoundTrip.Statement (.fmax h s fmt d a b) := by
  intro hw
  change (h.okFor 0x44 && h.scalarOk s && fmt.vec && reg8 d && reg8 a && reg8 b) = true at hw
  simp only [Bool.and_eq_true, reg8, decide_eq_true_eq] at hw
  obtain ⟨⟨⟨⟨⟨w1, w2⟩, w3⟩, w4⟩, w5⟩, w6⟩ := hw
  refine decode_encode_of _ (by nofun) fun r he => ?_
  have hr := Option.some.inj (show some _ = some r from he)
  refine ⟨by rw [← hr]; exact .inl ⟨rfl, rfl, rfl⟩, ?_⟩
  have e : r.opc.toNat = 0x44 := by rw [← hr]; rfl
  refine decodeRaw_of r h _ (by rw [← hr]; rfl) (by rw [← hr]; rfl) (by rw [← hr]; rfl) (by rw [← hr]; exact w1)
    (by rw [← hr]; rfl) ?_
  simp only [decBody, decFloat, e]
  rw [fp_spec r true _ s 0 fmt (by decide) (by rw [← hr]) (by rw [← hr]; rfl) (by rw [← hr]; rfl)
    (fun hs => ⟨rfl, by rw [← hr]; exact scalar_pg w2 hs⟩)]
  subst hr
  simp [need, onSome, Raw.base, Raw.dab, Raw.dabc, Raw.plain, Raw.zero, Raw.noImm, toNat_ofNat8, w1, w2, w3, w4, w5, w6]

theorem RoundTrip.fsetp (h : Hd) (fmt : Fmt) (op : FCond) (d : Reg) (a : Reg) (b : Reg) : RoundTrip.Statement (.fsetp h fmt op d a b) := by
  intro hw
  change (h.okFor 0x45 && fmt.vec && reg8 d && reg8 a && reg8 b) = true at hw
  simp only [Bool.and_eq_true, reg8, decide_eq_true_eq] at hw
  obtain ⟨⟨⟨⟨w1, w2⟩, w3⟩, w4⟩, w5⟩ := hw
  refine decode_encode_of _ (by nofun) fun r he => ?_
  have hr := Option.some.inj (show some _ = some r from he)
  refine ⟨by rw [← hr]; exact .inl ⟨rfl, rfl, rfl⟩, ?_⟩
  have e : r.opc.toNat = 0x45 := by rw [← hr]; rfl
  refine decodeRaw_of r h _ (by rw [← hr]; rfl) (by rw [← hr]; rfl) (by rw [← hr]; rfl) (by rw [← hr]; exact w1)
    (by rw [← hr]; rfl) ?_
  simp only [decBody, decFloat, e]
  rw [fp_spec r false _ false op.code fmt (FCond.code_lt _) (by rw [← hr]) (by rw [← hr]; rfl) (by rw [← hr]; rfl)
    (fun hs => nomatch hs)]
  subst hr
  simp [need, onSome, Raw.base, Raw.dab, Raw.dabc, Raw.plain, Raw.zero, Raw.noImm, toNat_ofNat8, w1, w2, w3, w4, w5]

theorem RoundTrip.fcvt (h : Hd) (s : Bool) (tgt : Fmt) (src : Fmt) (mid : Option Fmt) (d : Reg) (a : Reg) : RoundTrip.Statement (.fcvt h s tgt src mid d a) := by
  intro hw
  change (h.okFor 0x46 && h.scalarOk s && tgt.conv && src.conv && tgt != src && midOk tgt mid && reg8 d && reg8 a) = true at hw
  simp only [Bool.and_eq_true, reg8, decide_eq_true_eq] at hw
  obtain ⟨⟨⟨⟨⟨⟨⟨w1, w2⟩, w3⟩, w4⟩, w5⟩, w6⟩, w7⟩, w8⟩ := hw
  refine decode_encode_of _ (by nofun) fun r he => ?_
  have hr := Option.some.inj (show some _ = some r from he)
  refine ⟨by rw [← hr]; exact .inl ⟨rfl, rfl, rfl⟩, ?_⟩
  have e : r.opc.toNat = 0x46 := by rw [← hr]; rfl
  refine decodeRaw_of r h _ (by rw [← hr]; rfl) (by rw [← hr]; rfl) (by rw [← hr]; rfl) (by rw [← hr]; exact w1)
    (by rw [← hr]; rfl) ?_
  simp only [decBody, decFloat, e]
  rw [fp_spec r true _ s 0 tgt (by decide) (by rw [← hr]) (by rw [← hr]; rfl) (by rw [← hr]; rfl)
    (fun hs => ⟨rfl, by rw [← hr]; exact scalar_pg w2 hs⟩)]
  have hl : ∀ (c : Fmt) (m : Option Fmt),
      Fmt.ofCode ((BitVec.ofNat 8 ((m.elim 15 Fmt.code) * 16 + c.code)).extractLsb' 0 4).toNat = some c
      ∧ Fmt.ofCode ((BitVec.ofNat 8 ((m.elim 15 Fmt.code) * 16 + c.code)).extractLsb' 4 4).toNat = m
      ∧ ((BitVec.ofNat 8 ((m.elim 15 Fmt.code) * 16 + c.code)).extractLsb' 4 4 == 15#4 || m.isSome) = true := by
    intro c m
    cases m with
    | none => cases c <;> decide
    | some m => cases c <;> cases m <;> decide
  obtain ⟨h1, h2, h3⟩ := hl src mid
  have hx : r.x = BitVec.ofNat 8 ((mid.elim 15 Fmt.code) * 16 + src.code) := by
    rw [← hr]; cases mid <;> rfl
  have z : r.pg = h.pg ∧ r.fs = h.fs ∧ r.bnd = h.bnd ∧ r.b = 0 ∧ r.c = 0 ∧ r.d = BitVec.ofNat 8 d ∧ r.a = BitVec.ofNat 8 a := by
    rw [← hr]; exact ⟨rfl, rfl, rfl, rfl, rfl, rfl, rfl⟩
  obtain ⟨z1, z2, z3, z4, z5, z6, z7⟩ := z
  simp only [hx, onSome, need, Nat.reduceLT, reduceIte, h1, h2, h3, z1, z2, z3, z4, z5, z6, z7, toNat_ofNat8 w7, toNat_ofNat8 w8, w3, w4, w5, w6]
  simp
  intro k hn
  subst hn
  rcases (Bool.or_eq_true _ _).mp h3 with c | c
  · exact k (by simpa using c)
  · exact nomatch c

theorem RoundTrip.ftoi (h : Hd) (s : Bool) (tgt : Fmt) (src : Fmt) (d : Reg) (a : Reg) : RoundTrip.Statement (.ftoi h s tgt src d a) := by
  intro hw
  change (h.okFor 0x47 && h.scalarOk s && tgt.int && src.flt && reg8 d && reg8 a) = true at hw
  simp only [Bool.and_eq_true, reg8, decide_eq_true_eq] at hw
  obtain ⟨⟨⟨⟨⟨w1, w2⟩, w3⟩, w4⟩, w5⟩, w6⟩ := hw
  refine decode_encode_of _ (by nofun) fun r he => ?_
  have hr := Option.some.inj (show some _ = some r from he)
  refine ⟨by rw [← hr]; exact .inl ⟨rfl, rfl, rfl⟩, ?_⟩
  have e : r.opc.toNat = 0x47 := by rw [← hr]; rfl
  refine decodeRaw_of r h _ (by rw [← hr]; rfl) (by rw [← hr]; rfl) (by rw [← hr]; rfl) (by rw [← hr]; exact w1)
    (by rw [← hr]; rfl) ?_
  simp only [decBody, decFloat, e]
  rw [fp_spec r true _ s 0 tgt (by decide) (by rw [← hr]) (by rw [← hr]; rfl) (by rw [← hr]; rfl)
    (fun hs => ⟨rfl, by rw [← hr]; exact scalar_pg w2 hs⟩)]
  subst hr
  simp [need, onSome, Raw.base, Raw.dab, Raw.dabc, Raw.plain, Raw.zero, Raw.noImm, toNat_ofNat8, w1, w2, w3, w4, w5, w6]
  cases src <;> simp_all [Fmt.ofCode, Fmt.code, Nat.mod_eq_of_lt]

theorem RoundTrip.itof (h : Hd) (s : Bool) (tgt : Fmt) (src : Fmt) (d : Reg) (a : Reg) : RoundTrip.Statement (.itof h s tgt src d a) := by
  intro hw
  change (h.okFor 0x48 && h.scalarOk s && tgt.flt && src.int && reg8 d && reg8 a) = true at hw
  simp only [Bool.and_eq_true, reg8, decide_eq_true_eq] at hw
  obtain ⟨⟨⟨⟨⟨w1, w2⟩, w3⟩, w4⟩, w5⟩, w6⟩ := hw
  refine decode_encode_of _ (by nofun) fun r he => ?_
  have hr := Option.some.inj (show some _ = some r from he)
  refine ⟨by rw [← hr]; exact .inl ⟨rfl, rfl, rfl⟩, ?_⟩
  have e : r.opc.toNat = 0x48 := by rw [← hr]; rfl
  refine decodeRaw_of r h _ (by rw [← hr]; rfl) (by rw [← hr]; rfl) (by rw [← hr]; rfl) (by rw [← hr]; exact w1)
    (by rw [← hr]; rfl) ?_
  simp only [decBody, decFloat, e]
  rw [fp_spec r true _ s 0 tgt (by decide) (by rw [← hr]) (by rw [← hr]; rfl) (by rw [← hr]; rfl)
    (fun hs => ⟨rfl, by rw [← hr]; exact scalar_pg w2 hs⟩)]
  subst hr
  simp [need, onSome, Raw.base, Raw.dab, Raw.dabc, Raw.plain, Raw.zero, Raw.noImm, toNat_ofNat8, w1, w2, w3, w4, w5, w6]
  cases src <;> simp_all [Fmt.ofCode, Fmt.code, Nat.mod_eq_of_lt]

theorem RoundTrip.frcp (h : Hd) (s : Bool) (d : Reg) (a : Reg) : RoundTrip.Statement (.frcp h s d a) := by
  intro hw
  change (h.okFor 0x49 && h.scalarOk s && reg8 d && reg8 a) = true at hw
  simp only [Bool.and_eq_true, reg8, decide_eq_true_eq] at hw
  obtain ⟨⟨⟨w1, w2⟩, w3⟩, w4⟩ := hw
  refine decode_encode_of _ (by nofun) fun r he => ?_
  have hr := Option.some.inj (show some _ = some r from he)
  refine ⟨by rw [← hr]; exact .inl ⟨rfl, rfl, rfl⟩, ?_⟩
  have e : r.opc.toNat = 0x49 := by rw [← hr]; rfl
  refine decodeRaw_of r h _ (by rw [← hr]; rfl) (by rw [← hr]; rfl) (by rw [← hr]; rfl) (by rw [← hr]; exact w1)
    (by rw [← hr]; rfl) ?_
  simp only [decBody, decFloat, e]
  rw [fp_spec r true _ s 0 .fp32 (by decide) (by rw [← hr]) (by rw [← hr]; rfl) (by rw [← hr]; rfl)
    (fun hs => ⟨rfl, by rw [← hr]; exact scalar_pg w2 hs⟩)]
  subst hr
  simp [need, onSome, Raw.base, Raw.dab, Raw.dabc, Raw.plain, Raw.zero, Raw.noImm, toNat_ofNat8, w1, w2, w3, w4]

theorem RoundTrip.frsq (h : Hd) (s : Bool) (d : Reg) (a : Reg) : RoundTrip.Statement (.frsq h s d a) := by
  intro hw
  change (h.okFor 0x4A && h.scalarOk s && reg8 d && reg8 a) = true at hw
  simp only [Bool.and_eq_true, reg8, decide_eq_true_eq] at hw
  obtain ⟨⟨⟨w1, w2⟩, w3⟩, w4⟩ := hw
  refine decode_encode_of _ (by nofun) fun r he => ?_
  have hr := Option.some.inj (show some _ = some r from he)
  refine ⟨by rw [← hr]; exact .inl ⟨rfl, rfl, rfl⟩, ?_⟩
  have e : r.opc.toNat = 0x4A := by rw [← hr]; rfl
  refine decodeRaw_of r h _ (by rw [← hr]; rfl) (by rw [← hr]; rfl) (by rw [← hr]; rfl) (by rw [← hr]; exact w1)
    (by rw [← hr]; rfl) ?_
  simp only [decBody, decFloat, e]
  rw [fp_spec r true _ s 0 .fp32 (by decide) (by rw [← hr]) (by rw [← hr]; rfl) (by rw [← hr]; rfl)
    (fun hs => ⟨rfl, by rw [← hr]; exact scalar_pg w2 hs⟩)]
  subst hr
  simp [need, onSome, Raw.base, Raw.dab, Raw.dabc, Raw.plain, Raw.zero, Raw.noImm, toNat_ofNat8, w1, w2, w3, w4]

theorem RoundTrip.fexp2 (h : Hd) (s : Bool) (d : Reg) (a : Reg) : RoundTrip.Statement (.fexp2 h s d a) := by
  intro hw
  change (h.okFor 0x4B && h.scalarOk s && reg8 d && reg8 a) = true at hw
  simp only [Bool.and_eq_true, reg8, decide_eq_true_eq] at hw
  obtain ⟨⟨⟨w1, w2⟩, w3⟩, w4⟩ := hw
  refine decode_encode_of _ (by nofun) fun r he => ?_
  have hr := Option.some.inj (show some _ = some r from he)
  refine ⟨by rw [← hr]; exact .inl ⟨rfl, rfl, rfl⟩, ?_⟩
  have e : r.opc.toNat = 0x4B := by rw [← hr]; rfl
  refine decodeRaw_of r h _ (by rw [← hr]; rfl) (by rw [← hr]; rfl) (by rw [← hr]; rfl) (by rw [← hr]; exact w1)
    (by rw [← hr]; rfl) ?_
  simp only [decBody, decFloat, e]
  rw [fp_spec r true _ s 0 .fp32 (by decide) (by rw [← hr]) (by rw [← hr]; rfl) (by rw [← hr]; rfl)
    (fun hs => ⟨rfl, by rw [← hr]; exact scalar_pg w2 hs⟩)]
  subst hr
  simp [need, onSome, Raw.base, Raw.dab, Raw.dabc, Raw.plain, Raw.zero, Raw.noImm, toNat_ofNat8, w1, w2, w3, w4]

theorem RoundTrip.flog2 (h : Hd) (s : Bool) (d : Reg) (a : Reg) : RoundTrip.Statement (.flog2 h s d a) := by
  intro hw
  change (h.okFor 0x4C && h.scalarOk s && reg8 d && reg8 a) = true at hw
  simp only [Bool.and_eq_true, reg8, decide_eq_true_eq] at hw
  obtain ⟨⟨⟨w1, w2⟩, w3⟩, w4⟩ := hw
  refine decode_encode_of _ (by nofun) fun r he => ?_
  have hr := Option.some.inj (show some _ = some r from he)
  refine ⟨by rw [← hr]; exact .inl ⟨rfl, rfl, rfl⟩, ?_⟩
  have e : r.opc.toNat = 0x4C := by rw [← hr]; rfl
  refine decodeRaw_of r h _ (by rw [← hr]; rfl) (by rw [← hr]; rfl) (by rw [← hr]; rfl) (by rw [← hr]; exact w1)
    (by rw [← hr]; rfl) ?_
  simp only [decBody, decFloat, e]
  rw [fp_spec r true _ s 0 .fp32 (by decide) (by rw [← hr]) (by rw [← hr]; rfl) (by rw [← hr]; rfl)
    (fun hs => ⟨rfl, by rw [← hr]; exact scalar_pg w2 hs⟩)]
  subst hr
  simp [need, onSome, Raw.base, Raw.dab, Raw.dabc, Raw.plain, Raw.zero, Raw.noImm, toNat_ofNat8, w1, w2, w3, w4]

theorem RoundTrip.ftrig (h : Hd) (s : Bool) (cos : Bool) (d : Reg) (a : Reg) : RoundTrip.Statement (.ftrig h s cos d a) := by
  intro hw
  change (h.okFor 0x4D && h.scalarOk s && reg8 d && reg8 a) = true at hw
  simp only [Bool.and_eq_true, reg8, decide_eq_true_eq] at hw
  obtain ⟨⟨⟨w1, w2⟩, w3⟩, w4⟩ := hw
  refine decode_encode_of _ (by nofun) fun r he => ?_
  have hr := Option.some.inj (show some _ = some r from he)
  refine ⟨by rw [← hr]; exact .inl ⟨rfl, rfl, rfl⟩, ?_⟩
  have e : r.opc.toNat = 0x4D := by rw [← hr]; rfl
  refine decodeRaw_of r h _ (by rw [← hr]; rfl) (by rw [← hr]; rfl) (by rw [← hr]; rfl) (by rw [← hr]; exact w1)
    (by rw [← hr]; rfl) ?_
  simp only [decBody, decFloat, e]
  rw [fp_spec r true _ s (if cos then 1 else 0) .fp32 (by split <;> decide) (by rw [← hr]) (by rw [← hr]; rfl) (by rw [← hr]; rfl)
    (fun hs => ⟨rfl, by rw [← hr]; exact scalar_pg w2 hs⟩)]
  subst hr
  simp [need, onSome, Raw.base, Raw.dab, Raw.dabc, Raw.plain, Raw.zero, Raw.noImm, toNat_ofNat8, w1, w2, w3, w4]
  cases cos <;> decide

theorem RoundTrip.fargmax (h : Hd) (fmt : Fmt) (d : Reg) (a : Reg) : RoundTrip.Statement (.fargmax h fmt d a) := by
  intro hw
  change (h.okFor 0x4E && fmt.vec && reg8 d && reg8 a) = true at hw
  simp only [Bool.and_eq_true, reg8, decide_eq_true_eq] at hw
  obtain ⟨⟨⟨w1, w2⟩, w3⟩, w4⟩ := hw
  refine decode_encode_of _ (by nofun) fun r he => ?_
  have hr := Option.some.inj (show some _ = some r from he)
  refine ⟨by rw [← hr]; exact .inl ⟨rfl, rfl, rfl⟩, ?_⟩
  have e : r.opc.toNat = 0x4E := by rw [← hr]; rfl
  refine decodeRaw_of r h _ (by rw [← hr]; rfl) (by rw [← hr]; rfl) (by rw [← hr]; rfl) (by rw [← hr]; exact w1)
    (by rw [← hr]; rfl) ?_
  simp only [decBody, decFloat, e]
  rw [fp_spec r false _ false 0 fmt (by decide) (by rw [← hr]) (by rw [← hr]; rfl) (by rw [← hr]; rfl)
    (fun hs => nomatch hs)]
  subst hr
  simp [need, onSome, Raw.base, Raw.dab, Raw.dabc, Raw.plain, Raw.zero, Raw.noImm, toNat_ofNat8, w1, w2, w3, w4]

theorem RoundTrip.vdot4 (h : Hd) (s : Bool) (fmt : Fmt) (d : Reg) (a : Reg) (b : Reg) (c : Reg) : RoundTrip.Statement (.vdot4 h s fmt d a b c) := by
  intro hw
  change (h.okFor 0x4F && h.scalarOk s && fmt.dot && reg8 d && reg8 a && reg8 b && reg8 c) = true at hw
  simp only [Bool.and_eq_true, reg8, decide_eq_true_eq] at hw
  obtain ⟨⟨⟨⟨⟨⟨w1, w2⟩, w3⟩, w4⟩, w5⟩, w6⟩, w7⟩ := hw
  refine decode_encode_of _ (by nofun) fun r he => ?_
  have hr := Option.some.inj (show some _ = some r from he)
  refine ⟨by rw [← hr]; exact .inl ⟨rfl, rfl, rfl⟩, ?_⟩
  have e : r.opc.toNat = 0x4F := by rw [← hr]; rfl
  refine decodeRaw_of r h _ (by rw [← hr]; rfl) (by rw [← hr]; rfl) (by rw [← hr]; rfl) (by rw [← hr]; exact w1)
    (by rw [← hr]; rfl) ?_
  simp only [decBody, decFloat, e]
  rw [fp_spec r true _ s 0 fmt (by decide) (by rw [← hr]) (by rw [← hr]; rfl) (by rw [← hr]; rfl)
    (fun hs => ⟨rfl, by rw [← hr]; exact scalar_pg w2 hs⟩)]
  subst hr
  simp [need, onSome, Raw.base, Raw.dab, Raw.dabc, Raw.plain, Raw.zero, Raw.noImm, toNat_ofNat8, w1, w2, w3, w4, w5, w6, w7]

theorem RoundTrip.vhad (h : Hd) (wide : Bool) (d : Reg) (a : Reg) : RoundTrip.Statement (.vhad h wide d a) := by
  intro hw
  change (h.okFor 0x50 && reg8 d && reg8 a) = true at hw
  simp only [Bool.and_eq_true, reg8, decide_eq_true_eq] at hw
  obtain ⟨⟨w1, w2⟩, w3⟩ := hw
  refine decode_encode_of _ (by nofun) fun r he => ?_
  have hr := Option.some.inj (show some _ = some r from he)
  refine ⟨by rw [← hr]; exact .inl ⟨rfl, rfl, rfl⟩, ?_⟩
  have e : r.opc.toNat = 0x50 := by rw [← hr]; rfl
  refine decodeRaw_of r h _ (by rw [← hr]; rfl) (by rw [← hr]; rfl) (by rw [← hr]; rfl) (by rw [← hr]; exact w1)
    (by rw [← hr]; rfl) ?_
  simp only [decBody, decFloat, e]
  rw [fp_spec r false _ false (if wide then 1 else 0) .fp32 (by split <;> decide) (by rw [← hr]) (by rw [← hr]; rfl) (by rw [← hr]; rfl)
    (fun hs => nomatch hs)]
  subst hr
  simp [need, onSome, Raw.base, Raw.dab, Raw.dabc, Raw.plain, Raw.zero, Raw.noImm, toNat_ofNat8, w1, w2, w3]
  cases wide <;> decide

theorem RoundTrip.fredux (h : Hd) (op : FReduxOp) (d : Reg) (a : Reg) : RoundTrip.Statement (.fredux h op d a) := by
  intro hw
  change (h.okFor 0x51 && reg8 d && reg8 a) = true at hw
  simp only [Bool.and_eq_true, reg8, decide_eq_true_eq] at hw
  obtain ⟨⟨w1, w2⟩, w3⟩ := hw
  refine decode_encode_of _ (by nofun) fun r he => ?_
  have hr := Option.some.inj (show some _ = some r from he)
  refine ⟨by rw [← hr]; exact .inl ⟨rfl, rfl, rfl⟩, ?_⟩
  have e : r.opc.toNat = 0x51 := by rw [← hr]; rfl
  refine decodeRaw_of r h _ (by rw [← hr]; rfl) (by rw [← hr]; rfl) (by rw [← hr]; rfl) (by rw [← hr]; exact w1)
    (by rw [← hr]; rfl) ?_
  simp only [decBody, decFloat, e]
  rw [fp_spec r false _ false op.code .fp32 (FReduxOp.code_lt _) (by rw [← hr]) (by rw [← hr]; rfl) (by rw [← hr]; rfl)
    (fun hs => nomatch hs)]
  subst hr
  simp [need, onSome, Raw.base, Raw.dab, Raw.dabc, Raw.plain, Raw.zero, Raw.noImm, toNat_ofNat8, w1, w2, w3]

theorem RoundTrip.fpack (h : Hd) (s : Bool) (fmt : Fmt) (d : Reg) (a : Reg) (b : Reg) : RoundTrip.Statement (.fpack h s fmt d a b) := by
  intro hw
  change (h.okFor 0x52 && h.scalarOk s && fmt.packed && reg8 d && reg8 a && reg8 b) = true at hw
  simp only [Bool.and_eq_true, reg8, decide_eq_true_eq] at hw
  obtain ⟨⟨⟨⟨⟨w1, w2⟩, w3⟩, w4⟩, w5⟩, w6⟩ := hw
  refine decode_encode_of _ (by nofun) fun r he => ?_
  have hr := Option.some.inj (show some _ = some r from he)
  refine ⟨by rw [← hr]; exact .inl ⟨rfl, rfl, rfl⟩, ?_⟩
  have e : r.opc.toNat = 0x52 := by rw [← hr]; rfl
  refine decodeRaw_of r h _ (by rw [← hr]; rfl) (by rw [← hr]; rfl) (by rw [← hr]; rfl) (by rw [← hr]; exact w1)
    (by rw [← hr]; rfl) ?_
  simp only [decBody, decFloat, e]
  rw [fp_spec r true _ s 0 fmt (by decide) (by rw [← hr]) (by rw [← hr]; rfl) (by rw [← hr]; rfl)
    (fun hs => ⟨rfl, by rw [← hr]; exact scalar_pg w2 hs⟩)]
  subst hr
  simp [need, onSome, Raw.base, Raw.dab, Raw.dabc, Raw.plain, Raw.zero, Raw.noImm, toNat_ofNat8, w1, w2, w3, w4, w5, w6]

theorem RoundTrip.funpk (h : Hd) (s : Bool) (fmt : Fmt) (d : Reg) (a : Reg) : RoundTrip.Statement (.funpk h s fmt d a) := by
  intro hw
  change (h.okFor 0x53 && h.scalarOk s && fmt.packed && reg8 d && reg8 a) = true at hw
  simp only [Bool.and_eq_true, reg8, decide_eq_true_eq] at hw
  obtain ⟨⟨⟨⟨w1, w2⟩, w3⟩, w4⟩, w5⟩ := hw
  refine decode_encode_of _ (by nofun) fun r he => ?_
  have hr := Option.some.inj (show some _ = some r from he)
  refine ⟨by rw [← hr]; exact .inl ⟨rfl, rfl, rfl⟩, ?_⟩
  have e : r.opc.toNat = 0x53 := by rw [← hr]; rfl
  refine decodeRaw_of r h _ (by rw [← hr]; rfl) (by rw [← hr]; rfl) (by rw [← hr]; rfl) (by rw [← hr]; exact w1)
    (by rw [← hr]; rfl) ?_
  simp only [decBody, decFloat, e]
  rw [fp_spec r true _ s 0 fmt (by decide) (by rw [← hr]) (by rw [← hr]; rfl) (by rw [← hr]; rfl)
    (fun hs => ⟨rfl, by rw [← hr]; exact scalar_pg w2 hs⟩)]
  subst hr
  simp [need, onSome, Raw.base, Raw.dab, Raw.dabc, Raw.plain, Raw.zero, Raw.noImm, toNat_ofNat8, w1, w2, w3, w4, w5]

theorem RoundTrip.fkey (h : Hd) (s : Bool) (desc : Bool) (fmt : Fmt) (d : Reg) (a : Reg) : RoundTrip.Statement (.fkey h s desc fmt d a) := by
  intro hw
  change (h.okFor 0x54 && h.scalarOk s && fmt.vec && reg8 d && reg8 a) = true at hw
  simp only [Bool.and_eq_true, reg8, decide_eq_true_eq] at hw
  obtain ⟨⟨⟨⟨w1, w2⟩, w3⟩, w4⟩, w5⟩ := hw
  refine decode_encode_of _ (by nofun) fun r he => ?_
  have hr := Option.some.inj (show some _ = some r from he)
  refine ⟨by rw [← hr]; exact .inl ⟨rfl, rfl, rfl⟩, ?_⟩
  have e : r.opc.toNat = 0x54 := by rw [← hr]; rfl
  refine decodeRaw_of r h _ (by rw [← hr]; rfl) (by rw [← hr]; rfl) (by rw [← hr]; rfl) (by rw [← hr]; exact w1)
    (by rw [← hr]; rfl) ?_
  simp only [decBody, decFloat, e]
  rw [fp_spec r true _ s (if desc then 1 else 0) fmt (by split <;> decide) (by rw [← hr]) (by rw [← hr]; rfl) (by rw [← hr]; rfl)
    (fun hs => ⟨rfl, by rw [← hr]; exact scalar_pg w2 hs⟩)]
  subst hr
  simp [need, onSome, Raw.base, Raw.dab, Raw.dabc, Raw.plain, Raw.zero, Raw.noImm, toNat_ofNat8, w1, w2, w3, w4, w5]
  cases desc <;> decide

theorem RoundTrip.fclass (h : Hd) (s : Bool) (fmt : Fmt) (d : Reg) (a : Reg) : RoundTrip.Statement (.fclass h s fmt d a) := by
  intro hw
  change (h.okFor 0x55 && h.scalarOk s && fmt.flt && reg8 d && reg8 a) = true at hw
  simp only [Bool.and_eq_true, reg8, decide_eq_true_eq] at hw
  obtain ⟨⟨⟨⟨w1, w2⟩, w3⟩, w4⟩, w5⟩ := hw
  refine decode_encode_of _ (by nofun) fun r he => ?_
  have hr := Option.some.inj (show some _ = some r from he)
  refine ⟨by rw [← hr]; exact .inl ⟨rfl, rfl, rfl⟩, ?_⟩
  have e : r.opc.toNat = 0x55 := by rw [← hr]; rfl
  refine decodeRaw_of r h _ (by rw [← hr]; rfl) (by rw [← hr]; rfl) (by rw [← hr]; rfl) (by rw [← hr]; exact w1)
    (by rw [← hr]; rfl) ?_
  simp only [decBody, decFloat, e]
  rw [fp_spec r true _ s 0 fmt (by decide) (by rw [← hr]) (by rw [← hr]; rfl) (by rw [← hr]; rfl)
    (fun hs => ⟨rfl, by rw [← hr]; exact scalar_pg w2 hs⟩)]
  subst hr
  simp [need, onSome, Raw.base, Raw.dab, Raw.dabc, Raw.plain, Raw.zero, Raw.noImm, toNat_ofNat8, w1, w2, w3, w4, w5]

theorem RoundTrip.hash64 (h : Hd) (s : Bool) (d : Reg) (a : Reg) (b : Reg) (c : Reg) : RoundTrip.Statement (.hash64 h s d a b c) := by
  intro hw
  change (h.okFor 0x60 && h.scalarOk s && reg8 d && reg8 a && reg8 b && reg8 c) = true at hw
  simp only [Bool.and_eq_true, reg8, decide_eq_true_eq] at hw
  obtain ⟨⟨⟨⟨⟨w1, w2⟩, w3⟩, w4⟩, w5⟩, w6⟩ := hw
  refine decode_encode_of _ (by nofun) fun r he => ?_
  have hr := Option.some.inj (show some _ = some r from he)
  refine ⟨by rw [← hr]; exact .inl ⟨rfl, rfl, rfl⟩, ?_⟩
  have e : r.opc.toNat = 0x60 := by rw [← hr]; rfl
  refine decodeRaw_of r h _ (by rw [← hr]; rfl) (by rw [← hr]; rfl) (by rw [← hr]; rfl) (by rw [← hr]; exact w1)
    (by rw [← hr]; rfl) ?_
  simp only [decBody, decFloat, e]
  rw [fp_spec r true _ s 0 .fp32 (by decide) (by rw [← hr]) (by rw [← hr]; rfl) (by rw [← hr]; rfl)
    (fun hs => ⟨rfl, by rw [← hr]; exact scalar_pg w2 hs⟩)]
  subst hr
  simp [need, onSome, Raw.base, Raw.dab, Raw.dabc, Raw.plain, Raw.zero, Raw.noImm, toNat_ofNat8, w1, w2, w3, w4, w5, w6]

theorem RoundTrip.gumb (h : Hd) (s : Bool) (d : Reg) (a : Reg) (b : Reg) (c : Reg) : RoundTrip.Statement (.gumb h s d a b c) := by
  intro hw
  change (h.okFor 0x61 && h.scalarOk s && reg8 d && reg8 a && reg8 b && reg8 c) = true at hw
  simp only [Bool.and_eq_true, reg8, decide_eq_true_eq] at hw
  obtain ⟨⟨⟨⟨⟨w1, w2⟩, w3⟩, w4⟩, w5⟩, w6⟩ := hw
  refine decode_encode_of _ (by nofun) fun r he => ?_
  have hr := Option.some.inj (show some _ = some r from he)
  refine ⟨by rw [← hr]; exact .inl ⟨rfl, rfl, rfl⟩, ?_⟩
  have e : r.opc.toNat = 0x61 := by rw [← hr]; rfl
  refine decodeRaw_of r h _ (by rw [← hr]; rfl) (by rw [← hr]; rfl) (by rw [← hr]; rfl) (by rw [← hr]; exact w1)
    (by rw [← hr]; rfl) ?_
  simp only [decBody, decFloat, e]
  rw [fp_spec r true _ s 0 .fp32 (by decide) (by rw [← hr]) (by rw [← hr]; rfl) (by rw [← hr]; rfl)
    (fun hs => ⟨rfl, by rw [← hr]; exact scalar_pg w2 hs⟩)]
  subst hr
  simp [need, onSome, Raw.base, Raw.dab, Raw.dabc, Raw.plain, Raw.zero, Raw.noImm, toNat_ofNat8, w1, w2, w3, w4, w5, w6]

theorem RoundTrip.ld (h : Hd) (m : MemF) (d : Reg) (a : Reg) (b : Reg) (imm : W32) : RoundTrip.Statement (.ld h m d a b imm) := by
  intro hw
  change (h.okFor 0x70 && h.scalarOk m.s && m.sem.load && (m.s || m.size.plain) && reg8 d && reg8 a && reg8 b) = true at hw
  simp only [Bool.and_eq_true, reg8, decide_eq_true_eq] at hw
  obtain ⟨⟨⟨⟨⟨⟨w1, w2⟩, w3⟩, w4⟩, w5⟩, w6⟩, w7⟩ := hw
  refine decode_encode_of _ (by nofun) fun r he => ?_
  have hr := Option.some.inj (show some _ = some r from he)
  refine ⟨by rw [← hr]; exact .inr (.inl ⟨rfl, rfl⟩), ?_⟩
  have e : r.opc.toNat = 0x70 := by rw [← hr]; rfl
  refine decodeRaw_of r h _ (by rw [← hr]; rfl) (by rw [← hr]; rfl) (by rw [← hr]; rfl) (by rw [← hr]; exact w1)
    (by rw [← hr]; rfl) ?_
  simp only [decBody, decMemory, e]
  have hm : Sem.ofCode false m.sem.code = m.sem := by
    revert w3; cases m.sem <;> decide
  rw [mem_spec r false _ m 0 (by decide) (by rw [← hr]) (by rw [← hr]) hm (fun hs => by rw [← hr]; exact scalar_pg w2 hs)]
  subst hr
  simp [need, onSome, Raw.base, Raw.dab, Raw.dabc, Raw.plain, Raw.zero, Raw.noImm, toNat_ofNat8, w1, w2, w3, w4, w5, w6, w7]

theorem RoundTrip.st (h : Hd) (m : MemF) (a : Reg) (b : Reg) (c : Reg) (imm : W32) : RoundTrip.Statement (.st h m a b c imm) := by
  intro hw
  change (h.okFor 0x71 && h.scalarOk m.s && m.sem.store && (m.s || m.size.plain) && reg8 a && reg8 b && reg8 c) = true at hw
  simp only [Bool.and_eq_true, reg8, decide_eq_true_eq] at hw
  obtain ⟨⟨⟨⟨⟨⟨w1, w2⟩, w3⟩, w4⟩, w5⟩, w6⟩, w7⟩ := hw
  refine decode_encode_of _ (by nofun) fun r he => ?_
  have hr := Option.some.inj (show some _ = some r from he)
  refine ⟨by rw [← hr]; exact .inr (.inl ⟨rfl, rfl⟩), ?_⟩
  have e : r.opc.toNat = 0x71 := by rw [← hr]; rfl
  refine decodeRaw_of r h _ (by rw [← hr]; rfl) (by rw [← hr]; rfl) (by rw [← hr]; rfl) (by rw [← hr]; exact w1)
    (by rw [← hr]; rfl) ?_
  simp only [decBody, decMemory, e]
  have hm : Sem.ofCode true m.sem.code = m.sem := by
    revert w3; cases m.sem <;> decide
  rw [mem_spec r true _ m 0 (by decide) (by rw [← hr]) (by rw [← hr]) hm (fun hs => by rw [← hr]; exact scalar_pg w2 hs)]
  subst hr
  simp [need, onSome, Raw.base, Raw.dab, Raw.dabc, Raw.plain, Raw.zero, Raw.noImm, toNat_ofNat8, w1, w2, w3, w4, w5, w6, w7]

theorem RoundTrip.atom (h : Hd) (m : MemF) (op : AtomOp) (d : Reg) (a : Reg) (b : Reg) (c : Reg) (imm : W32) : RoundTrip.Statement (.atom h m op d a b c imm) := by
  intro hw
  change (h.okFor 0x72 && h.scalarOk m.s && m.sem.atom && m.size.word && reg8 d && reg8 a && reg8 b && reg8 c) = true at hw
  simp only [Bool.and_eq_true, reg8, decide_eq_true_eq] at hw
  obtain ⟨⟨⟨⟨⟨⟨⟨w1, w2⟩, w3⟩, w4⟩, w5⟩, w6⟩, w7⟩, w8⟩ := hw
  refine decode_encode_of _ (by nofun) fun r he => ?_
  have hr := Option.some.inj (show some _ = some r from he)
  refine ⟨by rw [← hr]; exact .inr (.inl ⟨rfl, rfl⟩), ?_⟩
  have e : r.opc.toNat = 0x72 := by rw [← hr]; rfl
  refine decodeRaw_of r h _ (by rw [← hr]; rfl) (by rw [← hr]; rfl) (by rw [← hr]; rfl) (by rw [← hr]; exact w1)
    (by rw [← hr]; rfl) ?_
  simp only [decBody, decMemory, e]
  have hm : Sem.ofCode false m.sem.code = m.sem := by
    revert w3; cases m.sem <;> decide
  rw [mem_spec r false _ m op.code (AtomOp.code_lt _) (by rw [← hr]) (by rw [← hr]) hm (fun hs => by rw [← hr]; exact scalar_pg w2 hs)]
  subst hr
  simp [need, onSome, Raw.base, Raw.dab, Raw.dabc, Raw.plain, Raw.zero, Raw.noImm, toNat_ofNat8, w1, w2, w3, w4, w5, w6, w7, w8]

theorem RoundTrip.red (h : Hd) (m : MemF) (op : AtomOp) (a : Reg) (b : Reg) (c : Reg) (imm : W32) : RoundTrip.Statement (.red h m op a b c imm) := by
  intro hw
  change (h.okFor 0x73 && h.scalarOk m.s && m.sem.red && m.size.word && op.red && reg8 a && reg8 b && reg8 c) = true at hw
  simp only [Bool.and_eq_true, reg8, decide_eq_true_eq] at hw
  obtain ⟨⟨⟨⟨⟨⟨⟨w1, w2⟩, w3⟩, w4⟩, w5⟩, w6⟩, w7⟩, w8⟩ := hw
  refine decode_encode_of _ (by nofun) fun r he => ?_
  have hr := Option.some.inj (show some _ = some r from he)
  refine ⟨by rw [← hr]; exact .inr (.inl ⟨rfl, rfl⟩), ?_⟩
  have e : r.opc.toNat = 0x73 := by rw [← hr]; rfl
  refine decodeRaw_of r h _ (by rw [← hr]; rfl) (by rw [← hr]; rfl) (by rw [← hr]; rfl) (by rw [← hr]; exact w1)
    (by rw [← hr]; rfl) ?_
  simp only [decBody, decMemory, e]
  have hm : Sem.ofCode true m.sem.code = m.sem := by
    revert w3; cases m.sem <;> decide
  rw [mem_spec r true _ m op.code (AtomOp.code_lt _) (by rw [← hr]) (by rw [← hr]) hm (fun hs => by rw [← hr]; exact scalar_pg w2 hs)]
  subst hr
  simp [need, onSome, Raw.base, Raw.dab, Raw.dabc, Raw.plain, Raw.zero, Raw.noImm, toNat_ofNat8, w1, w2, w3, w4, w5, w6, w7, w8]

theorem RoundTrip.stf (h : Hd) (m : MemF) (a : Reg) (b : Reg) (c : Reg) (imm : W32) (fk : Reg) (foff : BitVec 24) : RoundTrip.Statement (.stf h m a b c imm fk foff) := by
  intro hw
  change (h.okFor 0x74 && h.scalarOk m.s && m.sem.store && m.size.plain && reg8 a && reg8 b && reg8 c && reg8 fk) = true at hw
  simp only [Bool.and_eq_true, reg8, decide_eq_true_eq] at hw
  obtain ⟨⟨⟨⟨⟨⟨⟨w1, w2⟩, w3⟩, w4⟩, w5⟩, w6⟩, w7⟩, w8⟩ := hw
  refine decode_encode_of _ (by nofun) fun r he => ?_
  have hr := Option.some.inj (show some _ = some r from he)
  refine ⟨by rw [← hr]; exact .inr (.inr rfl), ?_⟩
  have e : r.opc.toNat = 0x74 := by rw [← hr]; rfl
  refine decodeRaw_of r h _ (by rw [← hr]; rfl) (by rw [← hr]; rfl) (by rw [← hr]; rfl) (by rw [← hr]; exact w1)
    (by rw [← hr]; rfl) ?_
  simp only [decBody, decMemory, e]
  have hm : Sem.ofCode true m.sem.code = m.sem := by
    revert w3; cases m.sem <;> decide
  rw [mem_spec r true _ m 0 (by decide) (by rw [← hr]) (by rw [← hr]) hm (fun hs => by rw [← hr]; exact scalar_pg w2 hs)]
  subst hr
  simp [need, onSome, Raw.base, Raw.dab, Raw.dabc, Raw.plain, Raw.zero, Raw.noImm, toNat_ofNat8, w1, w2, w3, w4, w5, w6, w7, w8]
  refine ⟨?_, (extract_high _ _ _ _ (by decide)).trans (extract_all _)⟩
  have h1 : (foff ++ BitVec.ofNat 8 fk : BitVec 32).extractLsb' 0 8 = BitVec.ofNat 8 fk :=
    (extract_low _ _ _ _ (by decide)).trans (extract_all _)
  have h2 := congrArg BitVec.toNat h1
  rw [BitVec.extractLsb'_toNat] at h2
  simpa [toNat_ofNat8 w8] using h2

theorem RoundTrip.fence (h : Hd) (scope : Scope) (classes : BitVec 3) : RoundTrip.Statement (.fence h scope classes) := by
  intro hw
  change (h.okFor 0x75 && classes != 0) = true at hw
  simp only [Bool.and_eq_true, reg8, decide_eq_true_eq] at hw
  obtain ⟨w1, w2⟩ := hw
  refine decode_encode_of _ (by nofun) fun r he => ?_
  have hr := Option.some.inj (show some _ = some r from he)
  refine ⟨by rw [← hr]; exact .inl ⟨rfl, rfl, rfl⟩, ?_⟩
  have e : r.opc.toNat = 0x75 := by rw [← hr]; rfl
  refine decodeRaw_of r h _ (by rw [← hr]; rfl) (by rw [← hr]; rfl) (by rw [← hr]; rfl) (by rw [← hr]; exact w1)
    (by rw [← hr]; rfl) ?_
  simp only [decBody, decMemory, e]
  rw [scopeX_spec r _ scope (by rw [← hr])]
  subst hr
  simp [need, onSome, Raw.base, Raw.dab, Raw.dabc, Raw.plain, Raw.zero, Raw.noImm, toNat_ofNat8, w1, w2]
  have hl : ∀ v : BitVec 3, BitVec.extractLsb' 3 5 (0#5 ++ v) = 0#5 ∧ BitVec.extractLsb' 0 3 (0#5 ++ v) = v := by decide
  obtain ⟨h1, h2⟩ := hl classes
  simp only [h1, h2]
  simpa using w2

theorem RoundTrip.pfence (h : Hd) (scope : Scope) (wpath : Path) (rpath : Path) : RoundTrip.Statement (.pfence h scope wpath rpath) := by
  intro hw
  change (h.okFor 0x76 && wpath != rpath) = true at hw
  simp only [Bool.and_eq_true, reg8, decide_eq_true_eq] at hw
  obtain ⟨w1, w2⟩ := hw
  refine decode_encode_of _ (by nofun) fun r he => ?_
  have hr := Option.some.inj (show some _ = some r from he)
  refine ⟨by rw [← hr]; exact .inl ⟨rfl, rfl, rfl⟩, ?_⟩
  have e : r.opc.toNat = 0x76 := by rw [← hr]; rfl
  refine decodeRaw_of r h _ (by rw [← hr]; rfl) (by rw [← hr]; rfl) (by rw [← hr]; rfl) (by rw [← hr]; exact w1)
    (by rw [← hr]; rfl) ?_
  simp only [decBody, decMemory, e]
  rw [scopeX_spec r _ scope (by rw [← hr])]
  subst hr
  simp [need, onSome, Raw.base, Raw.dab, Raw.dabc, Raw.plain, Raw.zero, Raw.noImm, toNat_ofNat8, w1, w2]
  cases wpath <;> cases rpath <;> simp_all <;> decide

theorem RoundTrip.vcompst (h : Hd) (m : MemF) (a : Reg) (b : Reg) (c : Reg) (imm : W32) : RoundTrip.Statement (.vcompst h m a b c imm) := by
  intro hw
  change (h.okFor 0x77 && !m.s && m.sem.store && m.size.plain && reg8 a && reg8 b && reg8 c) = true at hw
  simp only [Bool.and_eq_true, reg8, decide_eq_true_eq] at hw
  obtain ⟨⟨⟨⟨⟨⟨w1, w2⟩, w3⟩, w4⟩, w5⟩, w6⟩, w7⟩ := hw
  refine decode_encode_of _ (by nofun) fun r he => ?_
  have hr := Option.some.inj (show some _ = some r from he)
  refine ⟨by rw [← hr]; exact .inr (.inl ⟨rfl, rfl⟩), ?_⟩
  have e : r.opc.toNat = 0x77 := by rw [← hr]; rfl
  refine decodeRaw_of r h _ (by rw [← hr]; rfl) (by rw [← hr]; rfl) (by rw [← hr]; rfl) (by rw [← hr]; exact w1)
    (by rw [← hr]; rfl) ?_
  simp only [decBody, decMemory, e]
  have hm : Sem.ofCode true m.sem.code = m.sem := by
    revert w3; cases m.sem <;> decide
  rw [mem_spec r true _ m 0 (by decide) (by rw [← hr]) (by rw [← hr]) hm (fun hs => by simp [hs] at w2)]
  subst hr
  simp [need, onSome, Raw.base, Raw.dab, Raw.dabc, Raw.plain, Raw.zero, Raw.noImm, toNat_ofNat8, w1, w2, w3, w4, w5, w6, w7]

theorem RoundTrip.vexpld (h : Hd) (m : MemF) (d : Reg) (a : Reg) (b : Reg) (imm : W32) : RoundTrip.Statement (.vexpld h m d a b imm) := by
  intro hw
  change (h.okFor 0x78 && !m.s && m.sem.load && m.size.plain && reg8 d && reg8 a && reg8 b) = true at hw
  simp only [Bool.and_eq_true, reg8, decide_eq_true_eq] at hw
  obtain ⟨⟨⟨⟨⟨⟨w1, w2⟩, w3⟩, w4⟩, w5⟩, w6⟩, w7⟩ := hw
  refine decode_encode_of _ (by nofun) fun r he => ?_
  have hr := Option.some.inj (show some _ = some r from he)
  refine ⟨by rw [← hr]; exact .inr (.inl ⟨rfl, rfl⟩), ?_⟩
  have e : r.opc.toNat = 0x78 := by rw [← hr]; rfl
  refine decodeRaw_of r h _ (by rw [← hr]; rfl) (by rw [← hr]; rfl) (by rw [← hr]; rfl) (by rw [← hr]; exact w1)
    (by rw [← hr]; rfl) ?_
  simp only [decBody, decMemory, e]
  have hm : Sem.ofCode false m.sem.code = m.sem := by
    revert w3; cases m.sem <;> decide
  rw [mem_spec r false _ m 0 (by decide) (by rw [← hr]) (by rw [← hr]) hm (fun hs => by simp [hs] at w2)]
  subst hr
  simp [need, onSome, Raw.base, Raw.dab, Raw.dabc, Raw.plain, Raw.zero, Raw.noImm, toNat_ofNat8, w1, w2, w3, w4, w5, w6, w7]

theorem RoundTrip.capnew (h : Hd) (mode : CapMode) (space : BitVec 4) (mask : BitVec 8) (d : Reg) (a : Reg) (b : Reg) (c : Reg) : RoundTrip.Statement (.capnew h mode space mask d a b c) := by
  intro hw
  change (h.okFor 0x79 && capnewOk mode space mask a b c && reg8 d && reg8 a && reg8 b && reg8 c) = true at hw
  simp only [Bool.and_eq_true, reg8, decide_eq_true_eq] at hw
  obtain ⟨⟨⟨⟨⟨w1, w2⟩, w3⟩, w4⟩, w5⟩, w6⟩ := hw
  refine decode_encode_of _ (by nofun) fun r he => ?_
  have hr := Option.some.inj (show some _ = some r from he)
  refine ⟨by rw [← hr]; exact .inl ⟨rfl, rfl, rfl⟩, ?_⟩
  have e : r.opc.toNat = 0x79 := by rw [← hr]; rfl
  refine decodeRaw_of r h _ (by rw [← hr]; rfl) (by rw [← hr]; rfl) (by rw [← hr]; rfl) (by rw [← hr]; exact w1)
    (by rw [← hr]; rfl) ?_
  simp only [decBody, decMemory, e]
  subst hr
  have hl : ∀ (m : CapMode) (v : BitVec 4), CapMode.ofCode ((BitVec.ofNat 8 (v.toNat * 8 + m.code)).extractLsb' 0 3).toNat = some m
      ∧ (BitVec.ofNat 8 (v.toNat * 8 + m.code)).extractLsb' 3 4 = v
      ∧ (BitVec.ofNat 8 (v.toNat * 8 + m.code)).getLsbD 7 = false := by
    intro m; cases m <;> decide
  obtain ⟨h1, h2, h3⟩ := hl mode space
  simp only [need, onSome, Raw.base, Raw.dab, Raw.dabc, Raw.noImm, toNat_ofNat8 w3, toNat_ofNat8 w4, toNat_ofNat8 w5, toNat_ofNat8 w6,
    h1, h2, h3, w2]
  rfl

theorem RoundTrip.capget (h : Hd) (sel : CapSel) (d : Reg) (a : Reg) : RoundTrip.Statement (.capget h sel d a) := by
  intro hw
  change (h.okFor 0x7A && reg8 d && reg8 a) = true at hw
  simp only [Bool.and_eq_true, reg8, decide_eq_true_eq] at hw
  obtain ⟨⟨w1, w2⟩, w3⟩ := hw
  refine decode_encode_of _ (by nofun) fun r he => ?_
  have hr := Option.some.inj (show some _ = some r from he)
  refine ⟨by rw [← hr]; exact .inl ⟨rfl, rfl, rfl⟩, ?_⟩
  have e : r.opc.toNat = 0x7A := by rw [← hr]; rfl
  refine decodeRaw_of r h _ (by rw [← hr]; rfl) (by rw [← hr]; rfl) (by rw [← hr]; rfl) (by rw [← hr]; exact w1)
    (by rw [← hr]; rfl) ?_
  simp only [decBody, decMemory, e]
  subst hr
  simp [need, onSome, Raw.base, Raw.dab, Raw.dabc, Raw.plain, Raw.zero, Raw.noImm, toNat_ofNat8, w1, w2, w3]
  cases sel <;> simp_all [CapSel.ofCode, CapSel.code, Nat.mod_eq_of_lt]

theorem RoundTrip.capchk (h : Hd) (mask : BitVec 8) (d : Reg) (a : Reg) (b : Reg) (c : Reg) : RoundTrip.Statement (.capchk h mask d a b c) := by
  intro hw
  change (h.okFor 0x7B && !mask.getLsbD 7 && reg8 d && reg8 a && reg8 b && reg8 c) = true at hw
  simp only [Bool.and_eq_true, reg8, decide_eq_true_eq] at hw
  obtain ⟨⟨⟨⟨⟨w1, w2⟩, w3⟩, w4⟩, w5⟩, w6⟩ := hw
  refine decode_encode_of _ (by nofun) fun r he => ?_
  have hr := Option.some.inj (show some _ = some r from he)
  refine ⟨by rw [← hr]; exact .inl ⟨rfl, rfl, rfl⟩, ?_⟩
  have e : r.opc.toNat = 0x7B := by rw [← hr]; rfl
  refine decodeRaw_of r h _ (by rw [← hr]; rfl) (by rw [← hr]; rfl) (by rw [← hr]; rfl) (by rw [← hr]; exact w1)
    (by rw [← hr]; rfl) ?_
  simp only [decBody, decMemory, e]
  subst hr
  simp [need, onSome, Raw.base, Raw.dab, Raw.dabc, Raw.plain, Raw.zero, Raw.noImm, toNat_ofNat8, w1, w2, w3, w4, w5, w6]
  simpa using w2

theorem RoundTrip.stag (h : Hd) (d : Reg) (a : Reg) : RoundTrip.Statement (.stag h d a) := by
  intro hw
  change (h.okFor 0x7C && reg8 d && reg8 a) = true at hw
  simp only [Bool.and_eq_true, reg8, decide_eq_true_eq] at hw
  obtain ⟨⟨w1, w2⟩, w3⟩ := hw
  refine decode_encode_of _ (by nofun) fun r he => ?_
  have hr := Option.some.inj (show some _ = some r from he)
  refine ⟨by rw [← hr]; exact .inl ⟨rfl, rfl, rfl⟩, ?_⟩
  have e : r.opc.toNat = 0x7C := by rw [← hr]; rfl
  refine decodeRaw_of r h _ (by rw [← hr]; rfl) (by rw [← hr]; rfl) (by rw [← hr]; rfl) (by rw [← hr]; exact w1)
    (by rw [← hr]; rfl) ?_
  simp only [decBody, decMemory, e]
  subst hr
  simp [need, onSome, Raw.base, Raw.dab, Raw.dabc, Raw.plain, Raw.zero, Raw.noImm, toNat_ofNat8, w1, w2, w3]

theorem RoundTrip.stagset (h : Hd) (d : Reg) (a : Reg) (b : Reg) : RoundTrip.Statement (.stagset h d a b) := by
  intro hw
  change (h.okFor 0x7D && reg8 d && reg8 a && reg8 b) = true at hw
  simp only [Bool.and_eq_true, reg8, decide_eq_true_eq] at hw
  obtain ⟨⟨⟨w1, w2⟩, w3⟩, w4⟩ := hw
  refine decode_encode_of _ (by nofun) fun r he => ?_
  have hr := Option.some.inj (show some _ = some r from he)
  refine ⟨by rw [← hr]; exact .inl ⟨rfl, rfl, rfl⟩, ?_⟩
  have e : r.opc.toNat = 0x7D := by rw [← hr]; rfl
  refine decodeRaw_of r h _ (by rw [← hr]; rfl) (by rw [← hr]; rfl) (by rw [← hr]; rfl) (by rw [← hr]; exact w1)
    (by rw [← hr]; rfl) ?_
  simp only [decBody, decMemory, e]
  subst hr
  simp [need, onSome, Raw.base, Raw.dab, Raw.dabc, Raw.plain, Raw.zero, Raw.noImm, toNat_ofNat8, w1, w2, w3, w4]

theorem RoundTrip.staginv (h : Hd) (a : Reg) : RoundTrip.Statement (.staginv h a) := by
  intro hw
  change (h.okFor 0x7E && reg8 a) = true at hw
  simp only [Bool.and_eq_true, reg8, decide_eq_true_eq] at hw
  obtain ⟨w1, w2⟩ := hw
  refine decode_encode_of _ (by nofun) fun r he => ?_
  have hr := Option.some.inj (show some _ = some r from he)
  refine ⟨by rw [← hr]; exact .inl ⟨rfl, rfl, rfl⟩, ?_⟩
  have e : r.opc.toNat = 0x7E := by rw [← hr]; rfl
  refine decodeRaw_of r h _ (by rw [← hr]; rfl) (by rw [← hr]; rfl) (by rw [← hr]; rfl) (by rw [← hr]; exact w1)
    (by rw [← hr]; rfl) ?_
  simp only [decBody, decMemory, e]
  subst hr
  simp [need, onSome, Raw.base, Raw.dab, Raw.dabc, Raw.plain, Raw.zero, Raw.noImm, toNat_ofNat8, w1, w2]

theorem RoundTrip.copy (h : Hd) (f : CopyF) (d : Reg) (a : Reg) (b : Reg) (c : Reg) : RoundTrip.Statement (.copy h f d a b c) := by
  intro hw
  change (h.okFor 0x90 && f.ok && reg8 d && reg8 a && reg8 b && reg8 c) = true at hw
  simp only [Bool.and_eq_true, reg8, decide_eq_true_eq] at hw
  obtain ⟨⟨⟨⟨⟨w1, w2⟩, w3⟩, w4⟩, w5⟩, w6⟩ := hw
  refine decode_encode_of _ (by nofun) fun r he => ?_
  have hr := Option.some.inj (show some _ = some r from he)
  refine ⟨by rw [← hr]; exact .inr (.inr rfl), ?_⟩
  have e : r.opc.toNat = 0x90 := by rw [← hr]; rfl
  refine decodeRaw_of r h _ (by rw [← hr]; rfl) (by rw [← hr]; rfl) (by rw [← hr]; rfl) (by rw [← hr]; exact w1)
    (by rw [← hr]; rfl) ?_
  simp only [decBody, decCopy, e]
  rw [copyF_spec r _ f (by rw [← hr]) (by rw [← hr]) (by rw [← hr])]
  subst hr
  simp [need, onSome, Raw.base, Raw.dab, Raw.dabc, Raw.plain, Raw.zero, Raw.noImm, toNat_ofNat8, w1, w2, w3, w4, w5, w6]

theorem RoundTrip.copym (h : Hd) (f : CopyF) (d : Reg) (a : Reg) (b : Reg) (c : Reg) (tmask : BitVec 8) : RoundTrip.Statement (.copym h f d a b c tmask) := by
  intro hw
  change (h.okFor 0x91 && f.ok && tmask != 0 && reg8 d && reg8 a && reg8 b && reg8 c) = true at hw
  simp only [Bool.and_eq_true, reg8, decide_eq_true_eq] at hw
  obtain ⟨⟨⟨⟨⟨⟨w1, w2⟩, w3⟩, w4⟩, w5⟩, w6⟩, w7⟩ := hw
  refine decode_encode_of _ (by nofun) fun r he => ?_
  have hr := Option.some.inj (show some _ = some r from he)
  refine ⟨by rw [← hr]; exact .inr (.inr rfl), ?_⟩
  have e : r.opc.toNat = 0x91 := by rw [← hr]; rfl
  refine decodeRaw_of r h _ (by rw [← hr]; rfl) (by rw [← hr]; rfl) (by rw [← hr]; rfl) (by rw [← hr]; exact w1)
    (by rw [← hr]; rfl) ?_
  simp only [decBody, decCopy, e]
  rw [copyF_spec r _ f (by rw [← hr]) (by rw [← hr]) (by rw [← hr])]
  subst hr
  simp [need, onSome, Raw.base, Raw.dab, Raw.dabc, Raw.plain, Raw.zero, Raw.noImm, toNat_ofNat8, w1, w2, w3, w4, w5, w6, w7]
  have hl : ∀ v : BitVec 8, BitVec.extractLsb' 8 24 (0#24 ++ v) = 0#24 ∧ BitVec.extractLsb' 0 8 (0#24 ++ v) = v := by decide
  obtain ⟨h1, h2⟩ := hl tmask
  simp only [h1, h2]
  simpa using w3

theorem RoundTrip.copysel (h : Hd) (f : CopyF) (d : Reg) (a : Reg) (b : Reg) (c : Reg) : RoundTrip.Statement (.copysel h f d a b c) := by
  intro hw
  change (h.okFor 0x92 && f.ok && reg8 d && reg8 a && reg8 b && reg8 c) = true at hw
  simp only [Bool.and_eq_true, reg8, decide_eq_true_eq] at hw
  obtain ⟨⟨⟨⟨⟨w1, w2⟩, w3⟩, w4⟩, w5⟩, w6⟩ := hw
  refine decode_encode_of _ (by nofun) fun r he => ?_
  have hr := Option.some.inj (show some _ = some r from he)
  refine ⟨by rw [← hr]; exact .inr (.inr rfl), ?_⟩
  have e : r.opc.toNat = 0x92 := by rw [← hr]; rfl
  refine decodeRaw_of r h _ (by rw [← hr]; rfl) (by rw [← hr]; rfl) (by rw [← hr]; rfl) (by rw [← hr]; exact w1)
    (by rw [← hr]; rfl) ?_
  simp only [decBody, decCopy, e]
  rw [copyF_spec r _ f (by rw [← hr]) (by rw [← hr]) (by rw [← hr])]
  subst hr
  simp [need, onSome, Raw.base, Raw.dab, Raw.dabc, Raw.plain, Raw.zero, Raw.noImm, toNat_ofNat8, w1, w2, w3, w4, w5, w6]

theorem RoundTrip.phinit (h : Hd) (bytes : Bool) (a : Reg) (b : Reg) (c : Reg) : RoundTrip.Statement (.phinit h bytes a b c) := by
  intro hw
  change (h.okFor 0x93 && reg8 a && reg8 b && reg8 c) = true at hw
  simp only [Bool.and_eq_true, reg8, decide_eq_true_eq] at hw
  obtain ⟨⟨⟨w1, w2⟩, w3⟩, w4⟩ := hw
  refine decode_encode_of _ (by nofun) fun r he => ?_
  have hr := Option.some.inj (show some _ = some r from he)
  refine ⟨by rw [← hr]; exact .inl ⟨rfl, rfl, rfl⟩, ?_⟩
  have e : r.opc.toNat = 0x93 := by rw [← hr]; rfl
  refine decodeRaw_of r h _ (by rw [← hr]; rfl) (by rw [← hr]; rfl) (by rw [← hr]; rfl) (by rw [← hr]; exact w1)
    (by rw [← hr]; rfl) ?_
  simp only [decBody, decCopy, e]
  subst hr
  simp [need, onSome, Raw.base, Raw.dab, Raw.dabc, Raw.plain, Raw.zero, Raw.noImm, toNat_ofNat8, w1, w2, w3, w4]
  cases bytes <;> decide

theorem RoundTrip.pharr (h : Hd) (a : Reg) (b : Reg) (c : Reg) : RoundTrip.Statement (.pharr h a b c) := by
  intro hw
  change (h.okFor 0x94 && reg8 a && reg8 b && reg8 c) = true at hw
  simp only [Bool.and_eq_true, reg8, decide_eq_true_eq] at hw
  obtain ⟨⟨⟨w1, w2⟩, w3⟩, w4⟩ := hw
  refine decode_encode_of _ (by nofun) fun r he => ?_
  have hr := Option.some.inj (show some _ = some r from he)
  refine ⟨by rw [← hr]; exact .inl ⟨rfl, rfl, rfl⟩, ?_⟩
  have e : r.opc.toNat = 0x94 := by rw [← hr]; rfl
  refine decodeRaw_of r h _ (by rw [← hr]; rfl) (by rw [← hr]; rfl) (by rw [← hr]; rfl) (by rw [← hr]; exact w1)
    (by rw [← hr]; rfl) ?_
  simp only [decBody, decCopy, e]
  subst hr
  simp [need, onSome, Raw.base, Raw.dab, Raw.dabc, Raw.plain, Raw.zero, Raw.noImm, toNat_ofNat8, w1, w2, w3, w4]

theorem RoundTrip.phwait (h : Hd) (d : Reg) (a : Reg) (b : Reg) (c : Reg) : RoundTrip.Statement (.phwait h d a b c) := by
  intro hw
  change (h.okFor 0x95 && reg8 d && reg8 a && reg8 b && reg8 c) = true at hw
  simp only [Bool.and_eq_true, reg8, decide_eq_true_eq] at hw
  obtain ⟨⟨⟨⟨w1, w2⟩, w3⟩, w4⟩, w5⟩ := hw
  refine decode_encode_of _ (by nofun) fun r he => ?_
  have hr := Option.some.inj (show some _ = some r from he)
  refine ⟨by rw [← hr]; exact .inl ⟨rfl, rfl, rfl⟩, ?_⟩
  have e : r.opc.toNat = 0x95 := by rw [← hr]; rfl
  refine decodeRaw_of r h _ (by rw [← hr]; rfl) (by rw [← hr]; rfl) (by rw [← hr]; rfl) (by rw [← hr]; exact w1)
    (by rw [← hr]; rfl) ?_
  simp only [decBody, decCopy, e]
  subst hr
  simp [need, onSome, Raw.base, Raw.dab, Raw.dabc, Raw.plain, Raw.zero, Raw.noImm, toNat_ofNat8, w1, w2, w3, w4, w5]

theorem RoundTrip.phtest (h : Hd) (d : Reg) (a : Reg) (b : Reg) (c : Reg) : RoundTrip.Statement (.phtest h d a b c) := by
  intro hw
  change (h.okFor 0x96 && reg8 d && reg8 a && reg8 b && reg8 c) = true at hw
  simp only [Bool.and_eq_true, reg8, decide_eq_true_eq] at hw
  obtain ⟨⟨⟨⟨w1, w2⟩, w3⟩, w4⟩, w5⟩ := hw
  refine decode_encode_of _ (by nofun) fun r he => ?_
  have hr := Option.some.inj (show some _ = some r from he)
  refine ⟨by rw [← hr]; exact .inl ⟨rfl, rfl, rfl⟩, ?_⟩
  have e : r.opc.toNat = 0x96 := by rw [← hr]; rfl
  refine decodeRaw_of r h _ (by rw [← hr]; rfl) (by rw [← hr]; rfl) (by rw [← hr]; rfl) (by rw [← hr]; exact w1)
    (by rw [← hr]; rfl) ?_
  simp only [decBody, decCopy, e]
  subst hr
  simp [need, onSome, Raw.base, Raw.dab, Raw.dabc, Raw.plain, Raw.zero, Raw.noImm, toNat_ofNat8, w1, w2, w3, w4, w5]

theorem RoundTrip.bar (h : Hd) (d : Reg) (a : Reg) (b : Reg) : RoundTrip.Statement (.bar h d a b) := by
  intro hw
  change (h.okFor 0x97 && reg8 d && reg8 a && reg8 b) = true at hw
  simp only [Bool.and_eq_true, reg8, decide_eq_true_eq] at hw
  obtain ⟨⟨⟨w1, w2⟩, w3⟩, w4⟩ := hw
  refine decode_encode_of _ (by nofun) fun r he => ?_
  have hr := Option.some.inj (show some _ = some r from he)
  refine ⟨by rw [← hr]; exact .inl ⟨rfl, rfl, rfl⟩, ?_⟩
  have e : r.opc.toNat = 0x97 := by rw [← hr]; rfl
  refine decodeRaw_of r h _ (by rw [← hr]; rfl) (by rw [← hr]; rfl) (by rw [← hr]; rfl) (by rw [← hr]; exact w1)
    (by rw [← hr]; rfl) ?_
  simp only [decBody, decCopy, e]
  subst hr
  simp [need, onSome, Raw.base, Raw.dab, Raw.dabc, Raw.plain, Raw.zero, Raw.noImm, toNat_ofNat8, w1, w2, w3, w4]

theorem RoundTrip.apos (h : Hd) (d : Reg) (a : Reg) (b : Reg) (c : Reg) : RoundTrip.Statement (.apos h d a b c) := by
  intro hw
  change (h.okFor 0xA0 && reg8 d && reg8 a && reg8 b && reg8 c) = true at hw
  simp only [Bool.and_eq_true, reg8, decide_eq_true_eq] at hw
  obtain ⟨⟨⟨⟨w1, w2⟩, w3⟩, w4⟩, w5⟩ := hw
  refine decode_encode_of _ (by nofun) fun r he => ?_
  have hr := Option.some.inj (show some _ = some r from he)
  refine ⟨by rw [← hr]; exact .inl ⟨rfl, rfl, rfl⟩, ?_⟩
  have e : r.opc.toNat = 0xA0 := by rw [← hr]; rfl
  refine decodeRaw_of r h _ (by rw [← hr]; rfl) (by rw [← hr]; rfl) (by rw [← hr]; rfl) (by rw [← hr]; exact w1)
    (by rw [← hr]; rfl) ?_
  simp only [decBody, decAttention, e]
  subst hr
  simp [need, onSome, Raw.base, Raw.dab, Raw.dabc, Raw.plain, Raw.zero, Raw.noImm, toNat_ofNat8, w1, w2, w3, w4, w5]

theorem RoundTrip.kvst (h : Hd) (ksrc : Fmt) (vsrc : Fmt) (a : Reg) (b : Reg) (c : Reg) (imm : W32) : RoundTrip.Statement (.kvst h ksrc vsrc a b c imm) := by
  intro hw
  change (h.okFor 0xA1 && ksrc.flt && vsrc.flt && reg8 a && reg8 b && reg8 c) = true at hw
  simp only [Bool.and_eq_true, reg8, decide_eq_true_eq] at hw
  obtain ⟨⟨⟨⟨⟨w1, w2⟩, w3⟩, w4⟩, w5⟩, w6⟩ := hw
  refine decode_encode_of _ (by nofun) fun r he => ?_
  have hr := Option.some.inj (show some _ = some r from he)
  refine ⟨by rw [← hr]; exact .inr (.inr rfl), ?_⟩
  have e : r.opc.toNat = 0xA1 := by rw [← hr]; rfl
  refine decodeRaw_of r h _ (by rw [← hr]; rfl) (by rw [← hr]; rfl) (by rw [← hr]; rfl) (by rw [← hr]; exact w1)
    (by rw [← hr]; rfl) ?_
  simp only [decBody, decAttention, e]
  subst hr
  simp [need, onSome, Raw.base, Raw.dab, Raw.dabc, Raw.plain, Raw.zero, Raw.noImm, toNat_ofNat8, w1, w2, w3, w4, w5, w6]
  cases ksrc <;> cases vsrc <;> simp_all [Fmt.ofCode, Fmt.code, Nat.mod_eq_of_lt]

theorem RoundTrip.kvpub (h : Hd) (void : Bool) (scope : Scope) (a : Reg) (b : Reg) (c : Reg) : RoundTrip.Statement (.kvpub h void scope a b c) := by
  intro hw
  change (h.okFor 0xA2 && reg8 a && reg8 b && reg8 c) = true at hw
  simp only [Bool.and_eq_true, reg8, decide_eq_true_eq] at hw
  obtain ⟨⟨⟨w1, w2⟩, w3⟩, w4⟩ := hw
  refine decode_encode_of _ (by nofun) fun r he => ?_
  have hr := Option.some.inj (show some _ = some r from he)
  refine ⟨by rw [← hr]; exact .inl ⟨rfl, rfl, rfl⟩, ?_⟩
  have e : r.opc.toNat = 0xA2 := by rw [← hr]; rfl
  refine decodeRaw_of r h _ (by rw [← hr]; rfl) (by rw [← hr]; rfl) (by rw [← hr]; rfl) (by rw [← hr]; exact w1)
    (by rw [← hr]; rfl) ?_
  simp only [decBody, decAttention, e]
  rw [scopeX_spec r _ scope (by rw [← hr])]
  subst hr
  simp [need, onSome, Raw.base, Raw.dab, Raw.dabc, Raw.plain, Raw.zero, Raw.noImm, toNat_ofNat8, w1, w2, w3, w4]
  cases void <;> decide

theorem RoundTrip.kvacq (h : Hd) (scope : Scope) (d : Reg) (a : Reg) (b : Reg) : RoundTrip.Statement (.kvacq h scope d a b) := by
  intro hw
  change (h.okFor 0xA3 && reg8 d && reg8 a && reg8 b) = true at hw
  simp only [Bool.and_eq_true, reg8, decide_eq_true_eq] at hw
  obtain ⟨⟨⟨w1, w2⟩, w3⟩, w4⟩ := hw
  refine decode_encode_of _ (by nofun) fun r he => ?_
  have hr := Option.some.inj (show some _ = some r from he)
  refine ⟨by rw [← hr]; exact .inl ⟨rfl, rfl, rfl⟩, ?_⟩
  have e : r.opc.toNat = 0xA3 := by rw [← hr]; rfl
  refine decodeRaw_of r h _ (by rw [← hr]; rfl) (by rw [← hr]; rfl) (by rw [← hr]; rfl) (by rw [← hr]; exact w1)
    (by rw [← hr]; rfl) ?_
  simp only [decBody, decAttention, e]
  rw [scopeX_spec r _ scope (by rw [← hr])]
  subst hr
  simp [need, onSome, Raw.base, Raw.dab, Raw.dabc, Raw.plain, Raw.zero, Raw.noImm, toNat_ofNat8, w1, w2, w3, w4]

theorem RoundTrip.kvld (h : Hd) (v : Bool) (head : BitVec 8) (layer : BitVec 8) (elem : BitVec 16) (d : Reg) (a : Reg) (b : Reg) (c : Reg) : RoundTrip.Statement (.kvld h v head layer elem d a b c) := by
  intro hw
  change (h.okFor 0xA4 && reg8 d && reg8 a && reg8 b && reg8 c) = true at hw
  simp only [Bool.and_eq_true, reg8, decide_eq_true_eq] at hw
  obtain ⟨⟨⟨⟨w1, w2⟩, w3⟩, w4⟩, w5⟩ := hw
  refine decode_encode_of _ (by nofun) fun r he => ?_
  have hr := Option.some.inj (show some _ = some r from he)
  refine ⟨by rw [← hr]; exact .inr (.inr rfl), ?_⟩
  have e : r.opc.toNat = 0xA4 := by rw [← hr]; rfl
  refine decodeRaw_of r h _ (by rw [← hr]; rfl) (by rw [← hr]; rfl) (by rw [← hr]; rfl) (by rw [← hr]; exact w1)
    (by rw [← hr]; rfl) ?_
  simp only [decBody, decAttention, e]
  subst hr
  simp [need, onSome, Raw.base, Raw.dab, Raw.dabc, Raw.plain, Raw.zero, Raw.noImm, toNat_ofNat8, w1, w2, w3, w4, w5]
  refine ⟨⟨?_, ?_⟩, ?_, ?_, ?_, ?_⟩
  all_goals
    repeat first
      | exact extract_all _
      | rfl
      | refine (extract_high _ _ _ _ (by decide)).trans ?_
      | refine (extract_low _ _ _ _ (by decide)).trans ?_
  rw [← BitVec.getLsbD_eq_getElem]
  refine (getLsbD_high _ _ _ (by decide)).trans ?_
  refine (getLsbD_high _ _ _ (by decide)).trans ?_
  cases v <;> rfl

theorem RoundTrip.kvfork (h : Hd) (scope : Scope) (d : Reg) (a : Reg) (c : Reg) : RoundTrip.Statement (.kvfork h scope d a c) := by
  intro hw
  change (h.okFor 0xA5 && reg8 d && reg8 a && reg8 c) = true at hw
  simp only [Bool.and_eq_true, reg8, decide_eq_true_eq] at hw
  obtain ⟨⟨⟨w1, w2⟩, w3⟩, w4⟩ := hw
  refine decode_encode_of _ (by nofun) fun r he => ?_
  have hr := Option.some.inj (show some _ = some r from he)
  refine ⟨by rw [← hr]; exact .inl ⟨rfl, rfl, rfl⟩, ?_⟩
  have e : r.opc.toNat = 0xA5 := by rw [← hr]; rfl
  refine decodeRaw_of r h _ (by rw [← hr]; rfl) (by rw [← hr]; rfl) (by rw [← hr]; rfl) (by rw [← hr]; exact w1)
    (by rw [← hr]; rfl) ?_
  simp only [decBody, decAttention, e]
  rw [scopeX_spec r _ scope (by rw [← hr])]
  subst hr
  simp [need, onSome, Raw.base, Raw.dab, Raw.dabc, Raw.plain, Raw.zero, Raw.noImm, toNat_ofNat8, w1, w2, w3, w4]

theorem RoundTrip.kvrel (h : Hd) (d : Reg) (a : Reg) : RoundTrip.Statement (.kvrel h d a) := by
  intro hw
  change (h.okFor 0xA6 && reg8 d && reg8 a) = true at hw
  simp only [Bool.and_eq_true, reg8, decide_eq_true_eq] at hw
  obtain ⟨⟨w1, w2⟩, w3⟩ := hw
  refine decode_encode_of _ (by nofun) fun r he => ?_
  have hr := Option.some.inj (show some _ = some r from he)
  refine ⟨by rw [← hr]; exact .inl ⟨rfl, rfl, rfl⟩, ?_⟩
  have e : r.opc.toNat = 0xA6 := by rw [← hr]; rfl
  refine decodeRaw_of r h _ (by rw [← hr]; rfl) (by rw [← hr]; rfl) (by rw [← hr]; rfl) (by rw [← hr]; exact w1)
    (by rw [← hr]; rfl) ?_
  simp only [decBody, decAttention, e]
  subst hr
  simp [need, onSome, Raw.base, Raw.dab, Raw.dabc, Raw.plain, Raw.zero, Raw.noImm, toNat_ofNat8, w1, w2, w3]

theorem RoundTrip.qrot (h : Hd) (fmt : Fmt) (d : Reg) (a : Reg) (b : Reg) (c : Reg) : RoundTrip.Statement (.qrot h fmt d a b c) := by
  intro hw
  change (h.okFor 0xA7 && fmt.vec && reg8 d && reg8 a && reg8 b && reg8 c) = true at hw
  simp only [Bool.and_eq_true, reg8, decide_eq_true_eq] at hw
  obtain ⟨⟨⟨⟨⟨w1, w2⟩, w3⟩, w4⟩, w5⟩, w6⟩ := hw
  refine decode_encode_of _ (by nofun) fun r he => ?_
  have hr := Option.some.inj (show some _ = some r from he)
  refine ⟨by rw [← hr]; exact .inl ⟨rfl, rfl, rfl⟩, ?_⟩
  have e : r.opc.toNat = 0xA7 := by rw [← hr]; rfl
  refine decodeRaw_of r h _ (by rw [← hr]; rfl) (by rw [← hr]; rfl) (by rw [← hr]; rfl) (by rw [← hr]; exact w1)
    (by rw [← hr]; rfl) ?_
  simp only [decBody, decAttention, e]
  subst hr
  simp [need, onSome, Raw.base, Raw.dab, Raw.dabc, Raw.plain, Raw.zero, Raw.noImm, toNat_ofNat8, w1, w2, w3, w4, w5, w6]
  cases fmt <;> simp_all [Fmt.ofCode, Fmt.code, Nat.mod_eq_of_lt]

theorem RoundTrip.kvstat (h : Hd) (sel : KvSel) (d : Reg) (a : Reg) (b : Reg) : RoundTrip.Statement (.kvstat h sel d a b) := by
  intro hw
  change (h.okFor 0xA8 && (sel != .pos || b == 0) && reg8 d && reg8 a && reg8 b) = true at hw
  simp only [Bool.and_eq_true, reg8, decide_eq_true_eq] at hw
  obtain ⟨⟨⟨⟨w1, w2⟩, w3⟩, w4⟩, w5⟩ := hw
  refine decode_encode_of _ (by nofun) fun r he => ?_
  have hr := Option.some.inj (show some _ = some r from he)
  refine ⟨by rw [← hr]; exact .inl ⟨rfl, rfl, rfl⟩, ?_⟩
  have e : r.opc.toNat = 0xA8 := by rw [← hr]; rfl
  refine decodeRaw_of r h _ (by rw [← hr]; rfl) (by rw [← hr]; rfl) (by rw [← hr]; rfl) (by rw [← hr]; exact w1)
    (by rw [← hr]; rfl) ?_
  simp only [decBody, decAttention, e]
  subst hr
  simp [need, onSome, Raw.base, Raw.dab, Raw.dabc, Raw.plain, Raw.zero, Raw.noImm, toNat_ofNat8, w1, w2, w3, w4, w5]
  rcases (by simpa using w2 : (¬ sel = .pos) ∨ b = 0) with k | k <;> cases sel <;> simp_all [KvSel.ofCode, KvSel.code, Nat.mod_eq_of_lt]

theorem RoundTrip.mdecl (h : Hd) (d : Reg) (a : Reg) : RoundTrip.Statement (.mdecl h d a) := by
  intro hw
  change (h.okFor 0xB0 && reg8 d && reg8 a) = true at hw
  simp only [Bool.and_eq_true, reg8, decide_eq_true_eq] at hw
  obtain ⟨⟨w1, w2⟩, w3⟩ := hw
  refine decode_encode_of _ (by nofun) fun r he => ?_
  have hr := Option.some.inj (show some _ = some r from he)
  refine ⟨by rw [← hr]; exact .inl ⟨rfl, rfl, rfl⟩, ?_⟩
  have e : r.opc.toNat = 0xB0 := by rw [← hr]; rfl
  refine decodeRaw_of r h _ (by rw [← hr]; rfl) (by rw [← hr]; rfl) (by rw [← hr]; rfl) (by rw [← hr]; exact w1)
    (by rw [← hr]; rfl) ?_
  simp only [decBody, decAttention, e]
  subst hr
  simp [need, onSome, Raw.base, Raw.dab, Raw.dabc, Raw.plain, Raw.zero, Raw.noImm, toNat_ofNat8, w1, w2, w3]

theorem RoundTrip.msign (h : Hd) (attn : Bool) (d : Reg) (b : Reg) : RoundTrip.Statement (.msign h attn d b) := by
  intro hw
  change (h.okFor 0xB1 && reg8 d && reg8 b) = true at hw
  simp only [Bool.and_eq_true, reg8, decide_eq_true_eq] at hw
  obtain ⟨⟨w1, w2⟩, w3⟩ := hw
  refine decode_encode_of _ (by nofun) fun r he => ?_
  have hr := Option.some.inj (show some _ = some r from he)
  refine ⟨by rw [← hr]; exact .inl ⟨rfl, rfl, rfl⟩, ?_⟩
  have e : r.opc.toNat = 0xB1 := by rw [← hr]; rfl
  refine decodeRaw_of r h _ (by rw [← hr]; rfl) (by rw [← hr]; rfl) (by rw [← hr]; rfl) (by rw [← hr]; exact w1)
    (by rw [← hr]; rfl) ?_
  simp only [decBody, decAttention, e]
  subst hr
  simp [need, onSome, Raw.base, Raw.dab, Raw.dabc, Raw.plain, Raw.zero, Raw.noImm, toNat_ofNat8, w1, w2, w3]
  cases attn <;> decide

theorem RoundTrip.mldmask (h : Hd) (d : Reg) (a : Reg) (b : Reg) : RoundTrip.Statement (.mldmask h d a b) := by
  intro hw
  change (h.okFor 0xB2 && reg8 d && reg8 a && reg8 b) = true at hw
  simp only [Bool.and_eq_true, reg8, decide_eq_true_eq] at hw
  obtain ⟨⟨⟨w1, w2⟩, w3⟩, w4⟩ := hw
  refine decode_encode_of _ (by nofun) fun r he => ?_
  have hr := Option.some.inj (show some _ = some r from he)
  refine ⟨by rw [← hr]; exact .inl ⟨rfl, rfl, rfl⟩, ?_⟩
  have e : r.opc.toNat = 0xB2 := by rw [← hr]; rfl
  refine decodeRaw_of r h _ (by rw [← hr]; rfl) (by rw [← hr]; rfl) (by rw [← hr]; rfl) (by rw [← hr]; exact w1)
    (by rw [← hr]; rfl) ?_
  simp only [decBody, decAttention, e]
  subst hr
  simp [need, onSome, Raw.base, Raw.dab, Raw.dabc, Raw.plain, Raw.zero, Raw.noImm, toNat_ofNat8, w1, w2, w3, w4]

theorem RoundTrip.mzero (h : Hd) (mask : BitVec 16) : RoundTrip.Statement (.mzero h mask) := by
  intro hw
  change (h.okFor 0xB3) = true at hw
  have w1 := hw
  refine decode_encode_of _ (by nofun) fun r he => ?_
  have hr := Option.some.inj (show some _ = some r from he)
  refine ⟨by rw [← hr]; exact .inl ⟨rfl, rfl, rfl⟩, ?_⟩
  have e : r.opc.toNat = 0xB3 := by rw [← hr]; rfl
  refine decodeRaw_of r h _ (by rw [← hr]; rfl) (by rw [← hr]; rfl) (by rw [← hr]; rfl) (by rw [← hr]; exact w1)
    (by rw [← hr]; rfl) ?_
  simp only [decBody, decAttention, e]
  subst hr
  simp [need, onSome, Raw.base, Raw.dab, Raw.dabc, Raw.plain, Raw.zero, Raw.noImm, toNat_ofNat8, w1]
  exact split_cat _

theorem RoundTrip.mbudget (h : Hd) (a : Reg) : RoundTrip.Statement (.mbudget h a) := by
  intro hw
  change (h.okFor 0xB4 && reg8 a) = true at hw
  simp only [Bool.and_eq_true, reg8, decide_eq_true_eq] at hw
  obtain ⟨w1, w2⟩ := hw
  refine decode_encode_of _ (by nofun) fun r he => ?_
  have hr := Option.some.inj (show some _ = some r from he)
  refine ⟨by rw [← hr]; exact .inl ⟨rfl, rfl, rfl⟩, ?_⟩
  have e : r.opc.toNat = 0xB4 := by rw [← hr]; rfl
  refine decodeRaw_of r h _ (by rw [← hr]; rfl) (by rw [← hr]; rfl) (by rw [← hr]; rfl) (by rw [← hr]; exact w1)
    (by rw [← hr]; rfl) ?_
  simp only [decBody, decAttention, e]
  subst hr
  simp [need, onSome, Raw.base, Raw.dab, Raw.dabc, Raw.plain, Raw.zero, Raw.noImm, toNat_ofNat8, w1, w2]

theorem RoundTrip.mstat (h : Hd) (sel : BitVec 8) (d : Reg) (a : Reg) : RoundTrip.Statement (.mstat h sel d a) := by
  intro hw
  change (h.okFor 0xB5 && mstatOk sel a && reg8 d && reg8 a) = true at hw
  simp only [Bool.and_eq_true, reg8, decide_eq_true_eq] at hw
  obtain ⟨⟨⟨w1, w2⟩, w3⟩, w4⟩ := hw
  refine decode_encode_of _ (by nofun) fun r he => ?_
  have hr := Option.some.inj (show some _ = some r from he)
  refine ⟨by rw [← hr]; exact .inl ⟨rfl, rfl, rfl⟩, ?_⟩
  have e : r.opc.toNat = 0xB5 := by rw [← hr]; rfl
  refine decodeRaw_of r h _ (by rw [← hr]; rfl) (by rw [← hr]; rfl) (by rw [← hr]; rfl) (by rw [← hr]; exact w1)
    (by rw [← hr]; rfl) ?_
  simp only [decBody, decAttention, e]
  subst hr
  simp [need, onSome, Raw.base, Raw.dab, Raw.dabc, Raw.plain, Raw.zero, Raw.noImm, toNat_ofNat8, w1, w2, w3, w4]
  simpa [Nat.mod_eq_of_lt, w4] using w2

theorem RoundTrip.fill : RoundTrip.Statement (.fill) := by
  intro _ n w he
  cases he
  exact ⟨rfl, rfl⟩

theorem RoundTrip.ideKm (fn : Nat) : RoundTrip.Statement (.ideKm fn) :=
  fun _ _ _ he => nomatch he

theorem RoundTrip.securedSession (up : Bool) : RoundTrip.Statement (.securedSession up) :=
  fun _ _ _ he => nomatch he

theorem RoundTrip.kvPathStep (id : Nat) (peerData : Unit) : RoundTrip.Statement (.kvPathStep id peerData) :=
  fun _ _ _ he => nomatch he

theorem RoundTrip.scopeTableOperation (id : Nat) : RoundTrip.Statement (.scopeTableOperation id) :=
  fun _ _ _ he => nomatch he

end Sys2Proof.Laws
end

