-- ==== Sys2Proof/Laws/Series.lean ====
section
/-! SUPPORT. The error of the fixed-point logarithm: how far the series of Machine/NumFn.lean stands from the real
logarithm (R247, log 6). -/

namespace Sys2Proof

/-- The partial sums of the artanh series, scaled by p. -/
noncomputable def oddReal (y : ℝ) : Nat → ℝ → Nat → ℝ
  | 0, _, _ => 0
  | n + 1, p, i => p / (2 * i + 1) + oddReal y n (p * y) (i + 1)

theorem oddReal_add (y : ℝ) (n : Nat) : ∀ (p q : ℝ) (i : Nat), oddReal y n (p + q) i = oddReal y n p i + oddReal y n q i := by
  induction n with
  | zero => simp [oddReal]
  | succ n ih => intro p q i; simp only [oddReal, add_mul, ih]; ring

theorem oddReal_bounds {y : ℝ} (h0 : 0 ≤ y) (h1 : y ≤ 1 / 2) (n : Nat) :
    ∀ {p : ℝ} (i : Nat), 0 ≤ p → 0 ≤ oddReal y n p i ∧ oddReal y n p i ≤ 2 * p := by
  induction n with
  | zero => intro p i hp; simp [oddReal]; exact hp
  | succ n ih =>
    intro p i hp
    have hy : 0 ≤ p * y := mul_nonneg hp h0
    obtain ⟨l, u⟩ := ih (i + 1) hy
    have hi : (0 : ℝ) ≤ i := i.cast_nonneg
    have hd : p / (2 * i + 1) ≤ p := div_le_self hp (by linarith)
    have hd0 : 0 ≤ p / (2 * (i : ℝ) + 1) := by positivity
    have : p * y ≤ p * (1 / 2) := mul_le_mul_of_nonneg_left h1 hp
    constructor <;> simp only [oddReal] <;> linarith

theorem nat_div_real (a b : Nat) (hb : 0 < b) : ((a / b : Nat) : ℝ) ≤ a / b ∧ (a : ℝ) / b - 1 ≤ ((a / b : Nat) : ℝ) := by
  have hb' : (0 : ℝ) < b := by exact_mod_cast hb
  refine ⟨Nat.cast_div_le, ?_⟩
  rw [sub_le_iff_le_add, div_le_iff₀ hb']
  have := Nat.lt_div_mul_add (a := a) hb
  have h2 : a ≤ (a / b + 1) * b := by rw [add_mul]; omega
  exact_mod_cast h2

theorem fixOne_pos : 0 < fixOne := Nat.two_pow_pos _

theorem fixOne_real : ((fixOne : Nat) : ℝ) = 2 ^ 400 := by rw [fixOne, fixBits]; push_cast; rfl

/-- The floors of the sum lose at most 5 units in each term. -/
theorem oddSum_error {z2 : Nat} {y : ℝ} (h0 : 0 ≤ y) (h1 : y ≤ 1 / 2) (hz : (z2 : ℝ) / fixOne ≤ y)
    (hz' : y ≤ (z2 : ℝ) / fixOne + 1 / fixOne) (n : Nat) :
    ∀ (p i : Nat), p ≤ fixOne → (oddSum z2 n p i : ℝ) ≤ oddReal y n p i ∧ oddReal y n p i - 5 * n ≤ oddSum z2 n p i := by
  have hF : (0 : ℝ) < fixOne := by exact_mod_cast fixOne_pos
  induction n with
  | zero => simp [oddSum, oddReal]
  | succ n ih =>
    intro p i hp
    have hpr : (p : ℝ) ≤ fixOne := by exact_mod_cast hp
    have hp0 : (0 : ℝ) ≤ p := p.cast_nonneg
    obtain ⟨mu, ml⟩ := nat_div_real (p * z2) fixOne fixOne_pos
    have hm : ((p * z2 : Nat) : ℝ) / fixOne = p * ((z2 : ℝ) / fixOne) := by push_cast; ring
    rw [hm] at mu ml
    have mu' : ((fixMul p z2 : Nat) : ℝ) ≤ p * y := mu.trans (mul_le_mul_of_nonneg_left hz hp0)
    have ml' : p * y - 2 ≤ ((fixMul p z2 : Nat) : ℝ) := by
      have e1 : (p : ℝ) * y ≤ p * ((z2 : ℝ) / fixOne + 1 / fixOne) := mul_le_mul_of_nonneg_left hz' hp0
      have e2 : (p : ℝ) * (1 / fixOne) ≤ 1 := by rw [mul_one_div, div_le_one hF]; exact hpr
      have : ((fixMul p z2 : Nat) : ℝ) = ((p * z2 / fixOne : Nat) : ℝ) := rfl
      rw [this]; linarith [mul_add (p : ℝ) ((z2 : ℝ) / fixOne) (1 / fixOne)]
    have hle : fixMul p z2 ≤ fixOne := by
      have : ((fixMul p z2 : Nat) : ℝ) ≤ fixOne := by
        have := mul_le_mul_of_nonneg_left h1 hp0
        linarith
      exact_mod_cast this
    obtain ⟨iu, il⟩ := ih (fixMul p z2) (i + 1) hle
    obtain ⟨du, dl⟩ := nat_div_real p (2 * i + 1) (by omega)
    push_cast at du dl
    have hs : oddReal y n (p * y) (i + 1)
        = oddReal y n (fixMul p z2 : Nat) (i + 1) + oddReal y n (p * y - (fixMul p z2 : Nat)) (i + 1) := by
      rw [← oddReal_add]; ring_nf
    obtain ⟨bl, bu⟩ := oddReal_bounds h0 h1 n (i + 1) (sub_nonneg.2 mu')
    simp only [oddSum, oddReal]
    push_cast
    constructor <;> linarith

theorem oddReal_sum (y : ℝ) (n : Nat) : ∀ (p : ℝ) (i : Nat),
    oddReal y n p i = ∑ j ∈ Finset.range n, p * y ^ j / (2 * ((i + j : Nat) : ℝ) + 1) := by
  induction n with
  | zero => simp [oddReal]
  | succ n ih =>
    intro p i
    rw [Finset.sum_range_succ', oddReal, ih, add_comm]
    congr 1
    · refine Finset.sum_congr rfl fun j _ => ?_
      rw [show i + 1 + j = i + (j + 1) by omega, pow_succ]; ring
    · simp

/-- The first n terms of the series of ln((1 + x) / (1 − x)), and what is left out. -/
theorem series_tail {x : ℝ} (h0 : 0 ≤ x) (h1 : x ≤ 1 / 2) (n : Nat) :
    2 * oddReal (x ^ 2) n x 0 ≤ Real.log (1 + x) - Real.log (1 - x)
    ∧ Real.log (1 + x) - Real.log (1 - x) ≤ 2 * oddReal (x ^ 2) n x 0 + 4 * x ^ (2 * n) := by
  have hs := Real.hasSum_log_sub_log_of_abs_lt_one (x := x) (by rw [abs_of_nonneg h0]; linarith)
  have hfin : ∑ k ∈ Finset.range n, (2 : ℝ) * (1 / (2 * k + 1)) * x ^ (2 * k + 1) = 2 * oddReal (x ^ 2) n x 0 := by
    rw [oddReal_sum, Finset.mul_sum]
    refine Finset.sum_congr rfl fun j _ => ?_
    rw [zero_add, ← pow_mul, pow_succ]; ring
  have ht := (hasSum_nat_add_iff' n).2 hs
  rw [hfin] at ht
  have hg : HasSum (fun k : ℕ => 2 * x ^ (2 * n) * (1 / 2 : ℝ) ^ k) (2 * x ^ (2 * n) * 2) :=
    hasSum_geometric_two.mul_left _
  have hpow : ∀ k : ℕ, x ^ (2 * (k + n) + 1) ≤ x ^ (2 * n) * (1 / 2 : ℝ) ^ k := by
    intro k
    have : x ^ (2 * (k + n) + 1) = x ^ (2 * n) * (x ^ k * x ^ (k + 1)) := by ring
    rw [this]
    refine mul_le_mul_of_nonneg_left ?_ (by positivity)
    calc x ^ k * x ^ (k + 1) ≤ (1 / 2) ^ k * 1 :=
          mul_le_mul (pow_le_pow_left₀ h0 h1 k) (pow_le_one₀ h0 (by linarith)) (by positivity) (by positivity)
      _ = _ := mul_one _
  have hnn := hasSum_le (f := fun _ : ℕ => (0 : ℝ)) (fun k => by positivity) hasSum_zero ht
  have hle := hasSum_le (fun k => ?_) ht hg
  · exact ⟨by linarith, by linarith⟩
  · push_cast
    have hk : (0 : ℝ) ≤ (k : ℝ) + n := by positivity
    have h1' : (1 : ℝ) / (2 * ((k : ℝ) + n) + 1) ≤ 1 := by rw [div_le_one (by linarith)]; linarith
    have := hpow k
    have hx : 0 ≤ x ^ (2 * (k + n) + 1) := by positivity
    nlinarith [mul_le_mul_of_nonneg_right h1' hx]

/-- From (x − F) / (x + F), rounded down to y, back to ln(x / F). -/
theorem log_ratio {F x y : ℝ} (hF : 0 < F) (hx1 : F ≤ x) (hx2 : x ≤ 2 * F) (hy0 : 0 ≤ y) (hyu : y ≤ (x - F) / (x + F))
    (hyl : (x - F) / (x + F) - 1 / F ≤ y) :
    y ≤ 1 / 3 ∧ Real.log (1 + y) - Real.log (1 - y) ≤ Real.log (x / F)
    ∧ Real.log (x / F) ≤ Real.log (1 + y) - Real.log (1 - y) + 3 / F := by
  have hxF : 0 < x + F := by linarith
  obtain ⟨w, hw⟩ : ∃ w, (x - F) / (x + F) = w := ⟨_, rfl⟩
  rw [hw] at hyu hyl
  have hw1 : w ≤ 1 / 3 := by rw [← hw, div_le_iff₀ hxF]; linarith
  have hlog : Real.log (x / F) = Real.log (1 + w) - Real.log (1 - w) := by
    rw [← Real.log_div (by linarith) (by linarith)]
    congr 1
    have e1 : 1 + w = 2 * x / (x + F) := by rw [← hw]; field_simp; ring
    have e2 : 1 - w = 2 * F / (x + F) := by rw [← hw]; field_simp; ring
    rw [e1, e2]; field_simp
  have hinv : 0 < 1 / F := by positivity
  have d1 : Real.log (1 + w) - Real.log (1 + y) ≤ 1 / F := by
    rw [← Real.log_div (by linarith) (by linarith)]
    have := Real.log_le_sub_one_of_pos (x := (1 + w) / (1 + y)) (div_pos (by linarith) (by linarith))
    have e : (1 + w) / (1 + y) - 1 ≤ w - y := by
      rw [div_sub_one (by linarith), div_le_iff₀ (by linarith)]; nlinarith
    linarith
  have d2 : Real.log (1 - y) - Real.log (1 - w) ≤ 2 * (1 / F) := by
    rw [← Real.log_div (by linarith) (by linarith)]
    have := Real.log_le_sub_one_of_pos (x := (1 - y) / (1 - w)) (div_pos (by linarith) (by linarith))
    have e : (1 - y) / (1 - w) - 1 ≤ 2 * (w - y) := by
      rw [div_sub_one (by linarith), div_le_iff₀ (by linarith)]; nlinarith
    linarith
  have m1 : Real.log (1 + y) ≤ Real.log (1 + w) := Real.log_le_log (by linarith) (by linarith)
  have m2 : Real.log (1 - w) ≤ Real.log (1 - y) := Real.log_le_log (by linarith) (by linarith)
  have c : 3 / F = 3 * (1 / F) := by ring
  exact ⟨by linarith, by linarith, by linarith⟩

/-- The sum of 140 terms, each 5 units short at most, against ln(x / F). -/
theorem lnUnit_core {F x z s : ℝ} (hF : 0 < F) (hs : 4 * (1 / 3 : ℝ) ^ 280 ≤ 1 / F) (hx1 : F ≤ x) (hx2 : x ≤ 2 * F)
    (hz0 : 0 ≤ z) (hzu : z ≤ (x - F) / (x + F) * F) (hzl : (x - F) / (x + F) * F - 1 ≤ z)
    (su : s ≤ oddReal ((z / F) ^ 2) 140 z 0) (sl : oddReal ((z / F) ^ 2) 140 z 0 - 700 ≤ s) :
    |2 * s / F - Real.log (x / F)| ≤ 1500 / F := by
  obtain ⟨y, hy⟩ : ∃ y, z / F = y := ⟨_, rfl⟩
  have hzy : z = F * y := by rw [← hy, mul_div_cancel₀ _ hF.ne']
  have hy0 : 0 ≤ y := hy ▸ div_nonneg hz0 hF.le
  have hyu : y ≤ (x - F) / (x + F) := by rw [← hy, div_le_iff₀ hF]; exact hzu
  have hyl : (x - F) / (x + F) - 1 / F ≤ y := by
    rw [← hy, le_div_iff₀ hF, sub_mul, one_div, inv_mul_cancel₀ hF.ne']; exact hzl
  obtain ⟨hy1, l1, l2⟩ := log_ratio hF hx1 hx2 hy0 hyu hyl
  obtain ⟨t1, t2⟩ := series_tail hy0 (by linarith) 140
  have h3 : y ^ (2 * 140) ≤ (1 / 3 : ℝ) ^ 280 := pow_le_pow_left₀ hy0 (by linarith) _
  have hsc : oddReal (y ^ 2) 140 z 0 = F * oddReal (y ^ 2) 140 y 0 := by
    rw [oddReal_sum, oddReal_sum, Finset.mul_sum]
    refine Finset.sum_congr rfl fun j _ => ?_
    rw [hzy]; ring
  rw [hy, hsc] at su sl
  obtain ⟨o, ho⟩ : ∃ o, oddReal (y ^ 2) 140 y 0 = o := ⟨_, rfl⟩
  rw [ho] at su sl t1 t2
  have hs1 : s / F ≤ o := by rw [div_le_iff₀ hF]; linarith
  have hs2 : o - 700 * (1 / F) ≤ s / F := by
    rw [le_div_iff₀ hF, sub_mul, mul_assoc, one_div, inv_mul_cancel₀ hF.ne']; linarith
  have c1 : 2 * s / F = 2 * (s / F) := by ring
  have c2 : 3 / F = 3 * (1 / F) := by ring
  have c3 : 1500 / F = 1500 * (1 / F) := by ring
  have hinv : 0 < 1 / F := by positivity
  rw [abs_le, c1, c3]
  constructor <;> linarith

theorem third_small : 4 * (1 / 3 : ℝ) ^ 280 ≤ 1 / ((fixOne : Nat) : ℝ) := by
  have h : 4 * 2 ^ 200 * 2 ^ 200 ≤ 3 ^ 140 * 3 ^ 140 := by norm_num
  rw [fixOne_real, one_div_pow, mul_one_div, div_le_div_iff₀ (by positivity) (by positivity)]
  have h' : (4 : ℝ) * 2 ^ 200 * 2 ^ 200 ≤ 3 ^ 140 * 3 ^ 140 := by exact_mod_cast h
  rw [mul_assoc, ← pow_add, ← pow_add] at h'
  rw [one_mul]; exact h'

/-- The square of z, rounded down. -/
theorem fixMul_square (z : Nat) (hz : 3 * z ≤ 2 * fixOne) :
    0 ≤ ((z : ℝ) / fixOne) ^ 2 ∧ ((z : ℝ) / fixOne) ^ 2 ≤ 1 / 2 ∧ ((fixMul z z : Nat) : ℝ) / fixOne ≤ ((z : ℝ) / fixOne) ^ 2
    ∧ ((z : ℝ) / fixOne) ^ 2 ≤ ((fixMul z z : Nat) : ℝ) / fixOne + 1 / fixOne := by
  have hF : (0 : ℝ) < fixOne := by exact_mod_cast fixOne_pos
  have hz' : 3 * (z : ℝ) ≤ 2 * fixOne := by exact_mod_cast hz
  obtain ⟨mu, ml⟩ := nat_div_real (z * z) fixOne fixOne_pos
  have hm : ((z * z / fixOne : Nat) : ℝ) = ((fixMul z z : Nat) : ℝ) := rfl
  rw [hm] at mu ml
  obtain ⟨m, hmm⟩ : ∃ m : ℝ, ((fixMul z z : Nat) : ℝ) = m := ⟨_, rfl⟩
  rw [hmm] at mu ml ⊢
  push_cast at mu ml
  obtain ⟨F, hFF⟩ : ∃ F : ℝ, ((fixOne : Nat) : ℝ) = F := ⟨_, rfl⟩
  rw [hFF] at mu ml hF hz' ⊢
  have e : ((z : ℝ) / F) ^ 2 = (z : ℝ) * z / F / F := by ring
  have y1 : (z : ℝ) / F ≤ 2 / 3 := by rw [div_le_iff₀ hF]; linarith
  have y0 : (0 : ℝ) ≤ (z : ℝ) / F := by positivity
  refine ⟨by positivity, by nlinarith, ?_, ?_⟩
  · rw [e]; exact div_le_div_of_nonneg_right mu hF.le
  · rw [e, ← add_div]; exact div_le_div_of_nonneg_right (by linarith) hF.le

/-- ln of a fixed-point value in [1, 2], within 1,500 units in the last place. -/
theorem lnUnit_error {x : Nat} (h1 : fixOne ≤ x) (h2 : x ≤ 2 * fixOne) :
    |(lnUnit x : ℝ) / fixOne - Real.log (x / fixOne)| ≤ 1500 / fixOne := by
  have hF : (0 : ℝ) < fixOne := by exact_mod_cast fixOne_pos
  have hx1 : (fixOne : ℝ) ≤ x := by exact_mod_cast h1
  have hx2 : (x : ℝ) ≤ 2 * fixOne := by exact_mod_cast h2
  obtain ⟨z, hz⟩ : ∃ z, (x - fixOne) * fixOne / (x + fixOne) = z := ⟨_, rfl⟩
  have hp : 0 < x + fixOne := Nat.add_pos_right x fixOne_pos
  obtain ⟨zu, zl⟩ := nat_div_real ((x - fixOne) * fixOne) (x + fixOne) hp
  have hzw : (((x - fixOne) * fixOne : Nat) : ℝ) / ((x + fixOne : Nat) : ℝ)
      = ((x : ℝ) - fixOne) / (x + fixOne) * fixOne := by
    rw [Nat.cast_mul, Nat.cast_sub h1, Nat.cast_add]; ring
  rw [hzw, hz] at zu zl
  have hz1 : z ≤ fixOne := by
    rw [← hz]; apply Nat.div_le_of_le_mul
    exact Nat.mul_le_mul_right _ (by omega)
  have hz3 : 3 * z ≤ 2 * fixOne := by
    have h3 : ((x : ℝ) - fixOne) / (x + fixOne) ≤ 1 / 3 := by rw [div_le_iff₀ (by linarith)]; linarith
    have : 3 * (z : ℝ) ≤ 2 * fixOne := by have := mul_le_mul_of_nonneg_right h3 hF.le; linarith
    exact_mod_cast this
  obtain ⟨q0, q3, q1, q2⟩ := fixMul_square z hz3
  obtain ⟨su, sl⟩ := oddSum_error q0 q3 q1 q2 140 z 0 hz1
  have hln : ((lnUnit x : Nat) : ℝ) = 2 * (oddSum (fixMul z z) 140 z 0 : ℝ) := by
    rw [lnUnit, hz, Nat.cast_mul, Nat.cast_ofNat]
  have hn : (5 : ℝ) * ((140 : Nat) : ℝ) = 700 := by norm_num
  rw [hn] at sl
  rw [hln]
  exact lnUnit_core hF third_small hx1 hx2 z.cast_nonneg zu zl su sl

/-- ln 2, within 1,500 units. -/
theorem fixLn2_error : |(fixLn2 : ℝ) / fixOne - Real.log 2| ≤ 1500 / fixOne := by
  have h := lnUnit_error (x := 2 * fixOne) (by omega) le_rfl
  have hF : (fixOne : ℝ) ≠ 0 := by exact_mod_cast fixOne_pos.ne'
  rwa [show (((2 * fixOne : Nat) : ℝ)) / fixOne = 2 by push_cast; field_simp, show lnUnit (2 * fixOne) = fixLn2 from rfl] at h

/-- The fixed-point logarithm stands within 2^20 units in the last place of the real one, for every value of up to 420
bits. -/
theorem fixLn_error {a : Nat} (ha : 0 < a) (hb : a < 2 ^ 420) :
    |(fixLn a : ℝ) / fixOne - Real.log (a / fixOne)| ≤ 2 ^ 20 / fixOne := by
  have hF : (0 : ℝ) < fixOne := by exact_mod_cast fixOne_pos
  obtain ⟨l, hl⟩ : ∃ l, Nat.log2 a = l := ⟨_, rfl⟩
  have b1 : 2 ^ l ≤ a := hl ▸ Nat.log2_self_le ha.ne'
  have b2 : a < 2 ^ (l + 1) := hl ▸ Nat.lt_log2_self
  have hl2 : l < 420 := (Nat.pow_lt_pow_iff_right (by norm_num)).1 (b1.trans_lt hb)
  have hp : 0 < 2 ^ l := Nat.two_pow_pos l
  obtain ⟨x, hx⟩ : ∃ x, a * fixOne / 2 ^ l = x := ⟨_, rfl⟩
  have x1 : fixOne ≤ x := by rw [← hx, Nat.le_div_iff_mul_le hp, mul_comm]; exact Nat.mul_le_mul_right _ b1
  have x2 : x ≤ 2 * fixOne := by
    rw [← hx]; apply Nat.div_le_of_le_mul
    rw [pow_succ] at b2
    calc a * fixOne ≤ (2 ^ l * 2) * fixOne := Nat.mul_le_mul_right _ b2.le
      _ = _ := by ring
  have e1 := lnUnit_error x1 x2
  have e2 := fixLn2_error
  obtain ⟨xu, xl⟩ := nat_div_real (a * fixOne) (2 ^ l) hp
  rw [hx] at xu xl
  have hpr : (0 : ℝ) < 2 ^ l := by positivity
  have har : (0 : ℝ) < a := by exact_mod_cast ha
  have hx1 : (fixOne : ℝ) ≤ x := by exact_mod_cast x1
  have hf : (fixLn a : ℝ) = lnUnit x + ((l : ℝ) - 400) * fixLn2 := by
    rw [fixLn, hl]
    rw [show a * 2 ^ fixBits / 2 ^ l = x from hx]
    push_cast [fixBits]; ring
  set F : ℝ := (fixOne : ℝ) with hFd
  have hm : (((a * fixOne : Nat) : ℝ)) / ((2 ^ l : Nat) : ℝ) = a / 2 ^ l * F := by push_cast; ring
  rw [hm] at xu xl
  have hlog : Real.log (a / F) = Real.log (a / 2 ^ l) + ((l : ℝ) - 400) * Real.log 2 := by
    rw [hFd, fixOne_real, Real.log_div har.ne' (by positivity), Real.log_div har.ne' hpr.ne', Real.log_pow, Real.log_pow]
    push_cast; ring
  have hr : 1 ≤ (a : ℝ) / 2 ^ l := by
    rw [le_div_iff₀ hpr, one_mul]; exact_mod_cast b1
  have hxp : 0 < (x : ℝ) := by linarith
  have r1 : Real.log (x / F) ≤ Real.log (a / 2 ^ l) :=
    Real.log_le_log (by positivity) (by rw [div_le_iff₀ hF]; exact xu)
  have r2 : Real.log (a / 2 ^ l) - Real.log (x / F) ≤ 1 / F := by
    rw [← Real.log_div (by positivity) (by positivity)]
    have h := Real.log_le_sub_one_of_pos (x := (a / 2 ^ l) / (x / F)) (by positivity)
    have : (a / 2 ^ l) / ((x : ℝ) / F) - 1 ≤ 1 / F := by
      have e : (a / 2 ^ l) / ((x : ℝ) / F) = (a / 2 ^ l * F) / x := by field_simp
      rw [e, div_sub_one hxp.ne', div_le_div_iff₀ hxp hF]
      nlinarith
    linarith
  have hk : |(l : ℝ) - 400| ≤ 400 := by
    have : (l : ℝ) < 420 := by exact_mod_cast hl2
    have h0 : (0 : ℝ) ≤ l := l.cast_nonneg
    rw [abs_le]; constructor <;> linarith
  have hd : (fixLn a : ℝ) / F - Real.log (a / F) = ((lnUnit x : ℝ) / F - Real.log (x / F))
      + (Real.log (x / F) - Real.log (a / 2 ^ l)) + ((l : ℝ) - 400) * ((fixLn2 : ℝ) / F - Real.log 2) := by
    rw [hf, hlog]; ring
  rw [hd]
  have t1 : |((l : ℝ) - 400) * ((fixLn2 : ℝ) / F - Real.log 2)| ≤ 400 * (1500 / F) := by
    rw [abs_mul]; exact mul_le_mul hk e2 (abs_nonneg _) (by norm_num)
  have t2 : |Real.log (x / F) - Real.log (a / 2 ^ l)| ≤ 1 / F := by rw [abs_le]; constructor <;> linarith
  have := abs_add_three ((lnUnit x : ℝ) / F - Real.log (x / F)) (Real.log (x / F) - Real.log (a / 2 ^ l))
    (((l : ℝ) - 400) * ((fixLn2 : ℝ) / F - Real.log 2))
  have c : 1500 / F + 1 / F + 400 * (1500 / F) ≤ 2 ^ 20 / F := by
    rw [← add_div, ← mul_div_assoc, ← add_div]; exact div_le_div_of_nonneg_right (by norm_num) hF.le
  linarith

end Sys2Proof
end

