-- ==== Sys2Proof/Tests/Slice0.lean ====
section
/-! SUPPORT. Tests: decoding of words written out from the spec's encodings, ill-formed terms that `Instr.wf` refuses,
witnesses of the statements' hypotheses, and single steps with results computed by hand. -/

namespace Sys2Proof.Tests

open Sys2Proof Sys2Proof.Machine

set_option maxRecDepth 100000
set_option Elab.async false

/-! ### Decoding: each word is laid out as R286 says: LEN [1:0], BND [2], FS [3], OPC [11:4], PG [15:12], D [23:16],
A [31:24], B [39:32], C [47:40], SUB [55:48], X [63:56], then IMM32 and EXT32 -/

/-- No guard, FS 0, BND 0. -/
def h7 : Hd := ⟨7, false, false⟩
/-- The same with BND 1. -/
def h7b : Hd := ⟨7, false, true⟩
/-- The same with FS 1. -/
def h7f : Hd := ⟨7, true, false⟩

def dec (n w : Nat) (i : Instr) : Bool := decodeTableWord n w == some i

theorem test_decode_control :
    dec 64 0x0000000000007004 (.nop h7b) ∧ dec 64 0x0000002510097010 (.run 0x009 (some 1) (some 2))
    ∧ dec 96 0x00000010_0000000000007045 (.call h7b 0x10) ∧ dec 64 0x0000000003007034 (.brx h7b 3)
    ∧ dec 64 0x0000000000007054 (.ret h7b) ∧ dec 64 0x0000000000007084 (.exit h7b)
    ∧ dec 96 0x00200008_0001000004007061 (.loopBeg h7 1 4 0x20 0x08) ∧ dec 96 0x00000000_0010000000007065 (.loopEnd h7b 0)
    ∧ dec 64 0x0002000000007074 (.lbrk h7b 2) ∧ dec 64 0x0000000005007090 (.waitt h7 5) := by decide +kernel

theorem test_decode_system :
    dec 64 0x0000000000007140 (.kpoint h7) ∧ dec 64 0x03040000000070B0 (.trap h7 0x0304)
    ∧ dec 64 0x01020000000070C0 (.brk h7 0x0102) ∧ dec 64 0x00090000040070E0 (.swreg h7 4)
    ∧ dec 64 0x0001001E060C7130 (.cscope h7 true 12 6 30) ∧ dec 64 0x000000000B0C7118 (.cancel h7f 12 11)
    ∧ dec 64 0x000000000B0C7120 (.cwait h7 12 11) ∧ dec 32 0x00000007 .fill := by decide +kernel

theorem test_decode_integer :
    dec 64 0x0000000302017210 (.isub h7 ⟨false, .u32⟩ 1 2 3) ∧ dec 64 0x0002000604027220 (.imul h7 ⟨false, .u64⟩ 2 4 6)
    ∧ dec 64 0x0003000604027230 (.imulh h7 ⟨false, .s64⟩ 2 4 6) ∧ dec 64 0x0000090302097240 (.imad h7 ⟨false, .u32⟩ 9 2 3 9)
    ∧ dec 64 0x0001000302017250 (.imin h7 ⟨false, .s32⟩ 1 2 3) ∧ dec 64 0x0000000302017260 (.imax h7 ⟨false, .u32⟩ 1 2 3)
    ∧ dec 64 0x0001000002017270 (.iabs h7 ⟨false, .s32⟩ 1 2) := by decide +kernel

theorem test_decode_bits :
    dec 64 0x0000000302017280 (.and h7 ⟨false, .u32⟩ 1 2 3) ∧ dec 64 0x0000000302017290 (.or h7 ⟨false, .u32⟩ 1 2 3)
    ∧ dec 64 0x00000003020172A0 (.xor h7 ⟨false, .u32⟩ 1 2 3) ∧ dec 64 0x00820003020172B0 (.andn h7 ⟨true, .u64⟩ 1 2 3)
    ∧ dec 64 0x00000003020172C0 (.shl h7 ⟨false, .u32⟩ 1 2 3) ∧ dec 64 0x0004000A090972D0 (.shr h7 ⟨false, .u32⟩ .ari 9 9 10 0)
    ∧ dec 64 0x00000003020172E0 (.rol h7 ⟨false, .u32⟩ 1 2 3) ∧ dec 64 0x00010006010472F0 (.bfe h7 ⟨false, .s32⟩ 4 1 6)
    ∧ dec 64 0x0000040302017300 (.bfi h7 ⟨false, .u32⟩ 1 2 3 4) ∧ dec 64 0x0000000002017310 (.popc h7 ⟨false, .u32⟩ 1 2)
    ∧ dec 64 0x0002000002017320 (.clz h7 ⟨false, .u64⟩ 1 2) ∧ dec 64 0x0000000002017330 (.brev h7 ⟨false, .u32⟩ 1 2)
    ∧ dec 64 0x00000403020173E0 (.bswz h7 false 1 2 3 4) := by decide +kernel

theorem test_decode_moves :
    dec 64 0x0009000504027340 (.isetp h7 .s32 .lt 2 4 5) ∧ dec 64 0x0000030201057350 (.sel h7 .u32 5 1 2 3)
    ∧ dec 64 0x0000000002017360 (.mov h7 ⟨false, .u32⟩ 1 2) ∧ dec 96 0x00000004_0000000000067371 (.movi32 h7 false 6 4)
    ∧ dec 128 0x123456789ABCDEF0_00020000000A7372 (.movi64 h7 false 10 0x123456789ABCDEF0)
    ∧ dec 64 0x000200FF03047380 (.lea h7 false 0 4 3 255) ∧ dec 64 0x000C000201037390 (.plog h7 .andn 3 1 2)
    ∧ dec 64 0x00000000010573A0 (.ballot h7 5 1) ∧ dec 64 0x00040000010473B0 (.vote h7 .any 4 1)
    ∧ dec 64 0x00090000030C73D0 (.iredux h7 .s32 .max 12 3) := by decide +kernel

theorem test_decode_float :
    dec 64 0x0000000605047400 (.fadd h7 false .fp32 4 5 6) ∧ dec 64 0x0001000605047410 (.fmul h7 false .bf16 4 5 6)
    ∧ dec 64 0x0002000605047430 (.fmin h7 false .fp16 4 5 6) ∧ dec 64 0x0080001514147440 (.fmax h7 true .fp32 20 20 21)
    ∧ dec 64 0x0020000403017450 (.fsetp h7 .fp32 .lt 1 3 4) ∧ dec 64 0xF003000009037460 (.fcvt h7 false .e4m3 .fp32 none 3 9)
    ∧ dec 64 0x000B000003057470 (.ftoi h7 false .int32 .fp32 5 3) ∧ dec 64 0x0B02000005067480 (.itof h7 false .fp16 .int32 6 5)
    ∧ dec 64 0x0001000302067520 (.fpack h7 false .bf16 6 2 3) ∧ dec 64 0x0006000004087530 (.funpk h7 false .e5f2 8 4)
    ∧ dec 64 0x0000000001037550 (.fclass h7 false .fp32 3 1) := by decide +kernel

theorem test_decode_functions :
    dec 64 0x0000000002017490 (.frcp h7 false 1 2) ∧ dec 64 0x00000000020174A0 (.frsq h7 false 1 2)
    ∧ dec 64 0x00800000020174B0 (.fexp2 h7 true 1 2) ∧ dec 64 0x00000000020174C0 (.flog2 h7 false 1 2)
    ∧ dec 64 0x00100000030774D0 (.ftrig h7 false true 7 3) ∧ dec 64 0x00000000010974E0 (.fargmax h7 .fp32 9 1)
    ∧ dec 64 0x00030903020974F0 (.vdot4 h7 false .e4m3 9 2 3 9) ∧ dec 64 0x0010000004047500 (.vhad h7 true 4 4)
    ∧ dec 64 0x00000000010A7510 (.fredux h7 .add 10 1) ∧ dec 64 0x00000604020A7600 (.hash64 h7 false 10 2 4 6)
    ∧ dec 64 0x00000604020C7610 (.gumb h7 false 12 2 4 6) := by decide +kernel

theorem test_decode_memory :
    dec 96 0x00000008_430B000201047701 (.ld h7 ⟨true, .acq, .om, .mod, .b64⟩ 4 1 2 8)
    ∧ dec 96 0x00000020_230C050802007711 (.st h7 ⟨true, .rlx, .om, .mod, .cap⟩ 2 8 5 0x20)
    ∧ dec 96 0x00000000_64930C04030A7721 (.atom h7 ⟨false, .acqrel, .om, .dom, .b64⟩ .cas 10 3 4 12 0)
    ∧ dec 96 0x00000000_4302030201007731 (.red h7 ⟨false, .rel, .om, .mod, .b32⟩ .add 1 2 3 0)
    ∧ dec 64 0x0109000000007760 (.pfence h7 .coh .cp .mx)
    ∧ dec 96 0x00000000_0002030201007771 (.vcompst h7 ⟨false, .weak, .om, .team, .b32⟩ 1 2 3 0)
    ∧ dec 96 0x00000000_0002000201047781 (.vexpld h7 ⟨false, .weak, .om, .team, .b32⟩ 4 1 2 0) := by decide +kernel

theorem test_decode_capabilities :
    dec 64 0x0000030200047790 (.capnew h7 .bnd 0 0 4 0 2 3) ∧ dec 64 0x4101000004057790 (.capnew h7 .prm 0 0x41 5 4 0 0)
    ∧ dec 64 0x00010000040677A0 (.capget h7 .len 6 4) ∧ dec 64 0x00030302040777B0 (.capchk h7 3 7 4 2 3)
    ∧ dec 64 0x00000000020677C0 (.stag h7 6 2) ∧ dec 64 0x00000004020777D0 (.stagset h7 7 2 4)
    ∧ dec 64 0x00000000020077E0 (.staginv h7 2) := by decide +kernel

theorem test_decode_copy :
    dec 128 0x00000000_0000000F_01010414010C7912 (.copym h7 ⟨.tok, 0, .om, .coh, 0, 0⟩ 12 1 20 4 0x0F)
    ∧ dec 128 0x63010628020C7922 (.copysel h7 ⟨.tok, 3, .om, .mod, 0, 0⟩ 12 2 40 6)
    ∧ dec 64 0x0001090A03007930 (.phinit h7 true 3 10 9) ∧ dec 64 0x00000B0A03007940 (.pharr h7 3 10 11)
    ∧ dec 64 0x00000B0A030C7950 (.phwait h7 12 3 10 11) ∧ dec 64 0x00000B0A030C7960 (.phtest h7 12 3 10 11)
    ∧ dec 64 0x0000000A030C7970 (.bar h7 12 3 10) := by decide +kernel

theorem test_decode_contexts :
    dec 64 0x00000B0A051E7A00 (.apos h7 30 5 10 11)
    ∧ dec 128 0x00000011_00000000_0000041005007A12 (.kvst h7 .bf16 .bf16 5 16 4 0)
    ∧ dec 64 0x0100111405007A20 (.kvpub h7 false .coh 5 20 17) ∧ dec 64 0x01000011050C7A30 (.kvacq h7 .coh 12 5 17)
    ∧ dec 64 0x01000600050C7A50 (.kvfork h7 .coh 12 5 6) ∧ dec 64 0x00000000060C7A60 (.kvrel h7 12 6)
    ∧ dec 64 0x0000080602047A70 (.qrot h7 .fp32 4 2 6 8) ∧ dec 64 0x00010011050C7A80 (.kvstat h7 .front 12 5 17) := by decide +kernel

theorem test_decode_matrix :
    dec 64 0x0000000018027B00 (.mdecl h7 2 24) ∧ dec 64 0x0001001400027B10 (.msign h7 true 2 20)
    ∧ dec 64 0x0000000A04037B20 (.mldmask h7 3 4 10) ∧ dec 64 0x0105000000007B30 (.mzero h7 0x0105)
    ∧ dec 64 0x0000000009007B40 (.mbudget h7 9) := by decide +kernel

/-- Words that the spec refuses: an unassigned OPC, ISETP with `.s` (R303, R306), PG 1111 (R288), a wrong MOVI (R345). -/
theorem test_decode_refuses :
    decodeTableWord 64 0x0000000000007F00 = none ∧ decodeTableWord 64 0x0089000504027340 = none
    ∧ decodeTableWord 64 0x000000060001F200 = none ∧ decodeTableWord 96 0x00000004_0002000000067371 = none := by decide +kernel



/-! ### Terms that `Instr.wf` refuses, one for each check, beside one that it accepts -/

def hBad : Hd := ⟨15, false, false⟩
def h3 : Hd := ⟨3, false, false⟩

theorem test_wf_header :
    (Instr.nop hBad).wf = false ∧ (Instr.waitt h3 5).wf = false ∧ (Instr.iadd h7f ⟨false, .u32⟩ 1 2 3).wf = false
    ∧ (Instr.ret h7).wf = false ∧ (Instr.loopEnd h7 0).wf = false ∧ (Instr.run 0 (some 12) none).wf = false
    ∧ (Instr.run 0 none (some 12)).wf = false ∧ (Instr.nop h3).wf = true ∧ (Instr.ret h7b).wf = true := by decide +kernel

theorem test_wf_fields :
    (Instr.iadd h7 ⟨false, .u32⟩ 256 2 3).wf = false ∧ (Instr.iadd h3 ⟨true, .u32⟩ 1 2 3).wf = false
    ∧ (Instr.iabs h7 ⟨false, .u32⟩ 1 2).wf = false ∧ (Instr.and h7 ⟨false, .s32⟩ 1 2 3).wf = false
    ∧ (Instr.shr h7 ⟨false, .u32⟩ .log 1 2 3 4).wf = false ∧ (Instr.plog h7 .not 1 2 3).wf = false
    ∧ (Instr.sel h7 .s64 2 4 6 1).wf = false ∧ (Instr.shr h7 ⟨false, .u32⟩ .fun_ 1 2 3 4).wf = true := by decide +kernel

theorem test_wf_formats :
    (Instr.fadd h7 false .e4m3 1 2 3).wf = false ∧ (Instr.fcvt h7 false .int8 .fp32 none 1 2).wf = false
    ∧ (Instr.fcvt h7 false .fp32 .cb2 none 1 2).wf = false ∧ (Instr.fcvt h7 false .fp16 .fp16 none 1 2).wf = false
    ∧ (Instr.fcvt h7 false .fp16 .fp32 (some .bf16) 1 2).wf = false ∧ (Instr.ftoi h7 false .fp32 .fp32 1 2).wf = false
    ∧ (Instr.ftoi h7 false .int8 .e8m0 1 2).wf = false ∧ (Instr.itof h7 false .e5f2 .int8 1 2).wf = false
    ∧ (Instr.vdot4 h7 false .fp32 1 2 3 4).wf = false ∧ (Instr.fpack h7 false .fp32 1 2 3).wf = false
    ∧ (Instr.fclass h7 false .e8m0 1 2).wf = false ∧ (Instr.fcvt h7 false .e4m3 .fp32 (some .fp16) 1 2).wf = true := by decide +kernel

def mf (sem : Sem) (size : Size) : MemF := ⟨false, sem, .om, .mod, size⟩

theorem test_wf_memory :
    (Instr.ld h7 (mf .rel .b32) 1 2 3 0).wf = false ∧ (Instr.ld h7 (mf .weak .cap) 1 2 3 0).wf = false
    ∧ (Instr.st h7 (mf .acq .b32) 1 2 3 0).wf = false ∧ (Instr.st h7 (mf .weak .cap) 1 2 3 0).wf = false
    ∧ (Instr.atom h7 (mf .weak .b32) .add 1 2 3 4 0).wf = false ∧ (Instr.atom h7 (mf .rlx .b8) .add 1 2 3 4 0).wf = false
    ∧ (Instr.red h7 (mf .acq .b32) .add 1 2 3 0).wf = false ∧ (Instr.red h7 (mf .rlx .b32) .cas 1 2 3 0).wf = false
    ∧ (Instr.stf h7 (mf .rlx .cap) 1 2 3 0 4 0).wf = false ∧ (Instr.fence h7 .mod 0).wf = false
    ∧ (Instr.pfence h7 .mod .cp .cp).wf = false ∧ (Instr.vcompst h7 ⟨true, .weak, .om, .mod, .b32⟩ 1 2 3 0).wf = false
    ∧ (Instr.vexpld h7 (mf .weak .cap) 1 2 3 0).wf = false ∧ (Instr.ld h7 (mf .acq .b8) 1 2 3 0).wf = true := by decide +kernel

theorem test_wf_capabilities :
    (Instr.capnew h7 .bnd 1 0 1 2 3 4).wf = false ∧ (Instr.capnew h7 .bnd 0 1 1 2 3 4).wf = false
    ∧ (Instr.capnew h7 .prm 0 0x80 1 2 0 0).wf = false ∧ (Instr.capnew h7 .prm 0 1 1 2 3 0).wf = false
    ∧ (Instr.capnew h7 .ctx 0 0 1 2 3 4).wf = false ∧ (Instr.capnew h7 .own 3 1 1 0 3 4).wf = false
    ∧ (Instr.capnew h7 .own 1 1 1 2 3 4).wf = false ∧ (Instr.capchk h7 0x80 1 2 3 4).wf = false
    ∧ (Instr.capnew h7 .own 5 0x7F 1 0 3 4).wf = true := by decide +kernel

theorem test_wf_engines :
    (Instr.copy h7 ⟨.tok, 0, .om, .coh, 3, 0⟩ 1 2 3 4).wf = false ∧ (Instr.copy h7 ⟨.ph, 1, .om, .coh, 3, 7⟩ 1 2 3 4).wf = false
    ∧ (Instr.copym h7 ⟨.tok, 0, .om, .coh, 0, 0⟩ 1 2 3 4 0).wf = false ∧ (Instr.kvst h7 .int8 .bf16 1 2 3 0).wf = false
    ∧ (Instr.kvst h7 .bf16 .e8m0 1 2 3 0).wf = false ∧ (Instr.kvstat h7 .pos 1 2 3).wf = false
    ∧ (Instr.qrot h7 .e4m3 2 4 6 8).wf = false ∧ (Instr.mstat h7 3 1 2).wf = false ∧ (Instr.mstat h7 2 1 2).wf = false
    ∧ (Instr.mstat h7 0xC0 1 2).wf = false ∧ (Instr.copy h7 ⟨.tph, 1, .om, .coh, 3, 7⟩ 1 2 3 4).wf = true := by decide +kernel

/-! ### States for the witnesses

`pr` is the state in which the group of 32 threads of `withFetchWord` issues next: weave 3, group 4, team 2, cohort 1,
field 0, partition 0, whose window 0 maps the direct address 2^54 + d to physical address d. -/

def mkCur (len : Nat) : Cur :=
  { weave := 3, gid := 4, addr := BitVec.ofNat 64 probeBase, len := len, rnd := .rne, sat := false, rep := 0, reps := 1,
    code := [] }

/-- The entry of the own peer, number 0. -/
def ownEnt : W64 := 0xC000000000000000

/-- Peer 1: partition 0 of module 7. -/
def peer1 : W64 := 0xC000000000000007

def prOf (n w : Nat) : State :=
  let s := State.reset.withFetchWord n w
  { s with agenda := [], cur := some (mkCur (n / 8)),
           parts := [(0, { probePart 0 with peers := [(0, ownEnt), (1, peer1)] })] }

def pr : State := prOf 64 0x7000

/-- The issuing weave changed. -/
def prW (f : Weave → Weave) : State := pr.updWeave 3 f

/-- The state, team or cohort changed. -/
def prT (f : Team → Team) : State := pr.updTeam 2 f

/-- No stack is ready. -/
def stackDown (s : State) : State := { s with hd := { s.hd with readyStatus := 0xFFFFFFFFFFFFF0FF } }

/-- Every function and port of the host die ready. -/
def upS (s : State) : State := { s with hd := { s.hd with readyStatus := 0xFFFFFFFFFFFFFFFF } }

/-- Is the instruction at issue with no check of R300 against it, in surroundings that satisfy `f`. -/
def iss (s : State) (i : Instr) (f : Ctx → Bool := fun _ => true) : Bool :=
  match s.ctx i with
  | some x => preTrap x.e x.g x.h i == none && f x
  | none => false

theorem iss_issues {s : State} {i : Instr} {f : Ctx → Bool} (h : iss s i f = true) : ∃ x, s.Issues i x ∧ f x = true := by
  unfold iss at h
  cases hx : s.ctx i with
  | none => simp [hx] at h
  | some x =>
    simp only [hx, Bool.and_eq_true, beq_iff_eq] at h
    exact ⟨x, ⟨hx, .inr h.1⟩, h.2⟩

/-- The state after an outcome. -/
def nx (o : Host.Outcome State Fault Refusal) : Option State :=
  match o with
  | .next t => some t
  | _ => none

/-- A property of the state after an instruction. -/
def after (i : Instr) (s : State) (f : State → Bool) : Bool :=
  match exec i s with
  | .next t => f t
  | _ => false

def vAt (s : State) (r l : Nat) : Option W32 := (s.weave 3).map fun w => w.getV r l
def v64At (s : State) (r l : Nat) : Option W64 := (s.weave 3).map fun w => w.getV64 r l
def sAt (s : State) (r : Nat) : Option W64 := (s.weave 3).map fun w => w.getS r
def pAt (s : State) (r l : Nat) : Option Bool := (s.weave 3).map fun w => w.getP r l
def wstatAt (s : State) : Option W64 := (s.weave 3).map (·.wstat)

/-! ### Witnesses: integer and floating-point instructions -/

def u32 : IntF := ⟨false, .u32⟩

theorem test_wit_IntegerArithmetic :
    [Instr.iadd h7 u32 1 2 3, .isub h7 ⟨false, .s64⟩ 2 4 6, .imul h7 u32 255 2 3, .imad h7 ⟨true, .u64⟩ 1 2 3 4,
     .imulh h7 ⟨false, .s32⟩ 1 2 3, .imin h7 ⟨false, .s32⟩ 1 2 3, .imax h7 ⟨true, .u32⟩ 1 2 3,
     .iabs h7 ⟨false, .s64⟩ 2 4].all (iss pr) = true
    ∧ (Instr.iabs h7 ⟨false, .s64⟩ 2 4).wf = true := by decide +kernel

theorem test_wit_IntegerBitwise :
    [Instr.and h7 u32 1 2 3, .or h7 u32 1 2 3, .xor h7 u32 1 2 3, .andn h7 ⟨true, .u64⟩ 1 2 3, .mov h7 u32 1 2,
     .brev h7 u32 1 2, .shl h7 u32 1 2 3, .shr h7 u32 .log 1 2 3 0, .shr h7 u32 .ari 1 2 3 0,
     .shr h7 ⟨false, .u64⟩ .fun_ 2 4 6 8, .rol h7 u32 1 2 3].all (iss pr) = true := by decide +kernel

theorem test_wit_IntegerFields :
    [Instr.popc h7 u32 1 2, .clz h7 ⟨false, .u64⟩ 1 2, .bfe h7 u32 1 2 3, .bfi h7 ⟨true, .u64⟩ 1 2 3 4,
     .bswz h7 false 1 2 3 4, .movi32 h7 false 1 5, .movi64 h7 true 1 5, .lea h7 false 4 2 3 4].all (iss pr) = true := by decide +kernel

theorem test_wit_PredicatesAndVotes :
    [Instr.isetp h7 .s32 .lt 2 4 5, .plog h7 .and 7 1 2, .sel h7 .u32 1 2 3 4, .vote h7 .maj 1 2, .ballot h7 5 1,
     .shfl h7 .u64 .rotu 2 4 6, .iredux h7 .s32 .min 1 2].all (iss pr) = true := by decide +kernel

theorem test_wit_Float :
    [Instr.fadd h7 false .fp32 1 2 3, .fmul h7 true .bf16 1 2 3, .ffma h7 false .fp16 1 2 3 4, .fmin h7 false .fp32 1 2 3,
     .fmax h7 true .fp32 20 20 21, .fsetp h7 .fp32 .nan 1 2 3, .fkey h7 false true .fp16 1 2, .fclass h7 false .e4m3 1 2,
     .fcvt h7 false .e4m3 .fp32 none 1 2, .itof h7 false .fp16 .int32 1 2, .ftoi h7 true .int8 .fp32 1 2,
     .fpack h7 false .bf16 1 2 3, .fpack h7 false .e4m3 1 2 4, .funpk h7 false .e5f2 8 1, .frcp h7 false 1 2,
     .frsq h7 false 1 2, .fexp2 h7 false 1 2, .flog2 h7 true 1 2, .ftrig h7 false true 1 2, .vdot4 h7 false .e4m3 1 2 3 4,
     .vdot4 h7 true .int8 1 2 3 4, .hash64 h7 false 2 4 6 8, .gumb h7 false 1 2 4 6, .fargmax h7 .fp32 9 1,
     .fredux h7 .add 10 1, .vhad h7 true 4 4, .qrot h7 .fp32 4 2 6 8].all (iss pr) = true := by decide +kernel

/-- FloatRounding: a value in range, one beyond it, and an integer target on both sides of its range. -/
theorem test_wit_FloatRounding :
    (Fmt.isFp .e4m3 = true ∧ |roundedRat .e4m3 .rne false 1 0| ≤ Val.rat (value .e4m3 (maxCode .e4m3)))
    ∧ Val.rat (value .e4m3 (maxCode .e4m3)) < |roundedRat .e4m3 .rne true 1 9|
    ∧ roundInt .rne (Val.rat (.fin false 127 0)) = 127 ∧ roundInt .rz (Val.rat (.fin true 129 0)) = -129 := by
  decide +kernel


/-! ### Witnesses: capabilities and LS accesses -/

/-- A capability of all permissions over 64 KiB of the window, space 0. -/
def capG : Cap := mkCap (2 ^ 54 + 0x200000) 0x10000 0x7F 0
/-- 8 KiB of the team's scratchpad. -/
def capS : Cap := mkCap 0 0x2000 0x7F 1
/-- A capability of peer 1. -/
def capR : Cap := mkCap (2 ^ 55 + 2 ^ 54 + 0x200000) 0x10000 0x7F 0

/-- k1, k2 and k3 hold the three, v2 is 4 × the lane, v3 the lane + 1. -/
def regsW (w : Weave) : Weave :=
  let w := ((w.setK 1 capG).setK 2 capS).setK 3 capR
  (List.range 32).foldl (fun w l => (w.setV 2 l (BitVec.ofNat 32 (4 * l))).setV 3 l (BitVec.ofNat 32 (l + 1))) w

def prM : State := prW regsW

/-- The same with the threads of lanes 0 to `n` − 1 active under p0, and with the weave changed by `f`. -/
def prP (n : Nat) (f : Weave → Weave := id) : State :=
  prW fun w => f { regsW w with p := [(0, BitVec.ofNat 32 (2 ^ n - 1))] }

def hp0 : Hd := ⟨0, false, false⟩

theorem test_wit_CapabilityInstructions :
    [Instr.capget h7 .tag 5 1, .capchk h7 1 5 1 6 7, .stag h7 6 2].all (iss prM) = true
    ∧ iss (prW fun w => (regsW w).setS 5 64) (.capnew h7 .bnd 0 0 4 1 6 5)
        (fun x => (x.w.getK 1).tag && decide ((x.w.getK 1).base + (x.w.getS 6).toNat + (x.w.getS 5).toNat
          ≤ (x.w.getK 1).base + (x.w.getK 1).len) && decide ((x.w.getS 5).toNat < 2 ^ 40)) = true
    ∧ iss (prW fun w => (regsW w).setS 5 0x10001) (.capnew h7 .bnd 0 0 4 1 6 5)
        (fun x => (x.w.getK 1).tag && decide ((x.w.getK 1).base + (x.w.getK 1).len
          < (x.w.getK 1).base + (x.w.getS 6).toNat + (x.w.getS 5).toNat)) = true
    ∧ iss prM (.capnew h7 .prm 0 0x41 5 1 0 0) (fun x => (x.w.getK 1).tag) = true
    ∧ iss prM (.capnew h7 .ctx 0 0 5 1 6 0) (fun x => (x.w.getK 1).space == 0 && (x.w.getK 1).base % 256 == 0) = true
    ∧ iss prM (.capnew h7 .ctx 0 0 5 2 6 0) (fun x => (x.w.getK 2).tag && (x.w.getK 2).space != 0) = true
    ∧ iss (prW fun w => (regsW w).setS 5 1) (.capnew h7 .ctx 0 0 5 1 5 0)
        (fun x => ((x.w.getK 1).base + (x.w.getS 5).toNat) % 256 == 1) = true
    ∧ iss prM (.capnew h7 .bnd 0 0 4 9 6 5) (fun x => !(x.w.getK 9).tag) = true
    ∧ iss (prW fun w => (regsW w).setS 5 0x10000) (.capnew h7 .own 1 3 4 0 6 5)
        (fun x => decide ((x.w.getS 5).toNat ≤ spaceSize x.e.f.lr 1)) = true
    ∧ iss (prW fun w => (regsW w).setS 5 0x10001) (.capnew h7 .own 1 3 4 0 6 5)
        (fun x => decide (spaceSize x.e.f.lr 1 < (x.w.getS 5).toNat)) = true
    ∧ iss (prW fun w => (regsW w).setS 5 4096) (.capnew h7 .own 5 3 4 0 6 5)
        (fun x => decide ((x.w.getS 5).toNat ≤ 4096)) = true
    ∧ iss (prW fun w => (regsW w).setS 5 4097) (.capnew h7 .own 5 3 4 0 6 5)
        (fun x => decide (4096 < (x.w.getS 5).toNat)) = true
    ∧ iss (prW fun w => (regsW w).setS 5 0xFF80) (.capnew h7 .ctx 0 0 5 1 5 0)
        (fun x => ((x.w.getK 1).base + (x.w.getS 5).toNat) % 256 == 128) = true
    ∧ iss (prW fun w => (regsW w).setS 5 0xFF00) (.capnew h7 .ctx 0 0 5 1 5 0)
        (fun x => (x.w.getK 1).base + (x.w.getS 5).toNat + 256 == (x.w.getK 1).base + (x.w.getK 1).len) = true
    ∧ iss (prW fun w => (regsW w).setS 5 0x10000) (.capnew h7 .ctx 0 0 5 1 5 0)
        (fun x => decide ((x.w.getK 1).base + (x.w.getK 1).len < (x.w.getK 1).base + (x.w.getS 5).toNat + 256)
          && ((x.w.getK 1).base + (x.w.getS 5).toNat) % 256 == 0) = true := by decide +kernel

/-- STAGSET by one thread, of a new key, of all ones, with the table full, and by 32 threads; STAGINV. -/
theorem test_wit_TagTable :
    iss (prP 1) (.stagset hp0 7 2 4) (fun x => x.lanes == [0] && x.w.getV 4 0 != 0xFFFFFFFF && x.e.t.stag.isEmpty) = true
    ∧ iss (prP 1 fun w => w.setV 4 0 0xFFFFFFFF) (.stagset hp0 7 2 4) (fun x => x.w.getV 4 0 == 0xFFFFFFFF) = true
    ∧ iss ((prP 1).updTeam 2 fun t => { t with stag := (List.range 256).map fun i => (i + 1, 0#32) }) (.stagset hp0 7 2 4)
        (fun x => Tbl.find x.e.t.stag 0 == none && x.e.t.stag.length == 256) = true
    ∧ iss prM (.stagset h7 7 2 4) (fun x => x.lanes.length == 32) = true ∧ iss prM (.staginv h7 2) = true := by decide +kernel

def passesB (x : Ctx) (u : Use) (a size : Nat) (addr : Int) : Bool :=
  let c := x.w.getK a
  c.tag && decide (c.space ∈ u.spaces) && (c.space != 4 || size == 4 || size == 8) && c.perm &&& u.perm == u.perm
    && decide ((c.base : Int) ≤ addr) && decide (addr + size ≤ (c.base : Int) + c.len) && decide (addr + size ≤ 2 ^ 64)
    && (c.space == 0 || relativeOk x.e c addr.toNat size)

theorem passesB_iff (x : Ctx) (u : Use) (a size : Nat) (addr : Int) :
    passesB x u a size addr = true ↔ x.Passes u a size addr := by
  simp only [passesB, Ctx.Passes, Bool.and_eq_true, Bool.or_eq_true, beq_iff_eq, bne_iff_ne, decide_eq_true_eq, ne_eq]
  constructor
  · rintro ⟨⟨⟨⟨⟨⟨⟨h1, h2⟩, h3⟩, h4⟩, h5⟩, h6⟩, h7⟩, h8⟩
    exact ⟨h1, h2, fun h => by rcases h3 with (h3 | h3) | h3 <;> [exact absurd h h3; exact .inl h3; exact .inr h3], h4, h5, h6,
      h7, fun h => h8.resolve_left h⟩
  · rintro ⟨h1, h2, h3, h4, h5, h6, h7, h8⟩
    refine ⟨⟨⟨⟨⟨⟨⟨h1, h2⟩, ?_⟩, h4⟩, h5⟩, h6⟩, h7⟩, ?_⟩
    · by_cases h : (x.w.getK a).space = 4
      · rcases h3 h with h | h <;> simp [h]
      · exact .inl (.inl h)
    · by_cases h : (x.w.getK a).space = 0
      · exact .inl h
      · exact .inr (h8 h)

/-- The hypotheses of AccessesSent about the elements. -/
def elemsOk (x : Ctx) (i : Instr) : Bool :=
  match lsForm i with
  | some (u, m, a, b, imm) =>
    let z := Size.bytes m.size
    (x.elems m a b imm).all fun e => passesB x u a z e.addr
      && (if u.nat = true ∨ (x.w.getK a).space = 4 ∨ x.remote (x.w.getK a) e.addr = true then e.addr.toNat % z == 0
          else e.addr.toNat / 64 == (e.addr.toNat + z - 1) / 64)
      && ((x.w.getK a).space != 0 || x.s.peerCheck x.e (e.addr.toNat / 2 ^ 55) == none)
  | none => false

/-- The translations of its accesses, and room for them. -/
def goes (x : Ctx) (i : Instr) (kind : LsKind) (dest : Dest) (op : Nat → ReqOp) : Bool :=
  match lsForm i with
  | some (u, m, a, b, imm) =>
    match x.s.xlateAccs x.die x.e.part u.kind (x.asks a (Size.bytes m.size) (x.elems m a b imm) op) with
    | .ok (_, accs) => !(x.elems m a b imm).isEmpty && !x.mustStall { x.lsOp m kind dest with accs := accs }
    | .error _ => false
  | none => false

def mW : MemF := ⟨false, .weak, .om, .mod, .b32⟩
def mRel : MemF := ⟨false, .rel, .om, .mod, .b32⟩
def mAr : MemF := ⟨false, .acqrel, .om, .mod, .b32⟩
def mCap : MemF := ⟨true, .rlx, .om, .mod, .cap⟩

theorem test_wit_AccessesSent :
    iss prM (.ld h7 mW 4 1 2 8) (fun x => elemsOk x (.ld h7 mW 4 1 2 8)
      && goes x (.ld h7 mW 4 1 2 8) .ld (destOf mW 4) fun _ => .read) = true
    ∧ iss prM (.st h7 mRel 2 2 3 0) (fun x => elemsOk x (.st h7 mRel 2 2 3 0)
      && goes x (.st h7 mRel 2 2 3 0) .st .none fun l => x.data mRel 3 l) = true
    ∧ iss prM (.st h7 mCap 1 9 2 0) (fun x => elemsOk x (.st h7 mCap 1 9 2 0)
      && goes x (.st h7 mCap 1 9 2 0) .st .none fun l => x.data mCap 2 l) = true
    ∧ iss (prP 2) (.atom hp0 mAr .add 4 1 2 3 0) (fun x => elemsOk x (.atom hp0 mAr .add 4 1 2 3 0)
      && goes x (.atom hp0 mAr .add 4 1 2 3 0) .atom (destOf mAr 4) fun l => x.atomData mAr .add 3 l) = true
    ∧ iss (prP 2) (.red hp0 mRel .umax 3 2 3 0) (fun x => elemsOk x (.red hp0 mRel .umax 3 2 3 0)
      && goes x (.red hp0 mRel .umax 3 2 3 0) .red .none fun l => x.atomData mRel .umax 3 l) = true
    ∧ iss (prP 0) (.ld hp0 mW 4 1 2 8) (fun x => (x.elems mW 1 2 8).isEmpty) = true := by decide +kernel

/-- One failing step of R126 each, at lane 0, and a misaligned element. -/
theorem test_wit_AccessTraps :
    iss prM (.ld h7 mW 4 9 2 0) (fun x => x.elems mW 9 2 0 != [] && !(x.w.getK 9).tag) = true
    ∧ iss (prW fun w => (regsW w).setK 4 { capG with bits := (mkCap 0 64 0x7F 3).bits }) (.ld h7 mW 4 4 2 0)
        (fun x => (x.w.getK 4).space == 3) = true
    ∧ iss (prW fun w => (regsW w).setK 4 (mkCap 0 64 0x7F 1)) (.st h7 mW 4 2 3 0)
        (fun x => passesB x ⟨[0, 1, 2, 4], 2, 1, false⟩ 4 4 60 && !passesB x ⟨[0, 1, 2, 4], 2, 1, false⟩ 4 4 64) = true
    ∧ iss (prW fun w => (regsW w).setK 4 (mkCap 0 0x100 1 1)) (.st h7 mW 4 2 3 0)
        (fun x => (x.w.getK 4).tag && (x.w.getK 4).perm &&& 2 == 0) = true
    ∧ iss (prW fun w => (regsW w).setK 4 (mkCap 0x10000 0x100 0x7F 1)) (.st h7 mW 4 2 3 0)
        (fun x => !relativeOk x.e (x.w.getK 4) 0x10000 4) = true
    ∧ iss prM (.ld h7 ⟨false, .acq, .om, .mod, .b64⟩ 4 1 2 4)
        (fun x => (x.elems ⟨false, .acq, .om, .mod, .b64⟩ 1 2 4).all fun e =>
          passesB x ⟨[0, 1, 2, 4], 1, 0, true⟩ 1 8 e.addr) = true := by decide +kernel

/-- `prM` with k4 in peer `n`, and peer 1 without ENABLE. -/
def prPeer (n : Nat) : State :=
  let s := prW fun w => (regsW w).setK 4 (mkCap (n * 2 ^ 55 + 2 ^ 54 + 0x200000) 0x10000 0x7F 0)
  { s with parts := [(0, { probePart 0 with peers := [(0, ownEnt), (1, 0x8000000000000007)] })] }

/-- A peer without an entry, and one that is disabled. -/
theorem test_wit_AccessTraps_peers :
    [2, 1].all (fun n => iss (prPeer n) (.ld h7 mW 4 4 2 0) fun x =>
      let es := x.elems mW 4 2 0
      (x.w.getK 4).space == 0 && es != []
      && es.all (fun e => passesB x ⟨[0, 1, 2, 4], 1, 0, true⟩ 4 4 e.addr && e.addr.toNat % 4 == 0 && e.addr.toNat / 2 ^ 55 == n)
      && (let v := x.s.peerEnt x.e.part n
        entValid v == (n == 1) && !entEnable v && n != x.s.ownPeer x.e.part)) = true := by decide +kernel

def mStf : MemF := ⟨false, .rlx, .ad, .dom, .b32⟩

theorem test_wit_FlaggedAndPacked :
    iss (prP 2) (.stf hp0 mStf 1 2 3 0 1 0x8000) (fun x =>
      let es := x.elems mStf 1 2 0
      let fa := capG.base + 0x8000
      es != [] && es.all (fun e => passesB x ⟨[0], 2, 1, true⟩ 1 4 e.addr && e.addr.toNat % 4 == 0
        && e.addr.toNat / 2 ^ 55 == fa / 2 ^ 55) && decide (fa + 8 ≤ capG.base + capG.len) && fa % 8 == 0
        && (x.s.peerCheck x.e (fa / 2 ^ 55) == none)
        && (match x.s.xlateAccs 0 0 1 (x.asks 1 4 es fun l => x.data mStf 3 l) with
          | .ok (s1, d) => (match s1.xlateAccs 0 0 2 (es.map fun e => incAcc e.lane (BitVec.ofNat 64 fa)) with
            | .ok (_, inc) => !x.mustStall { x.lsOp mStf .stf .none with accs := d ++ inc, stf := some (BitVec.ofNat 64 fa) }
            | .error _ => false)
          | .error _ => false)) = true
    ∧ iss (prP 2) (.vexpld hp0 mW 4 1 2 0) (fun x =>
      let es := x.packed 1 2 0 4
      es.length == 2 && es.all (fun e => passesB x ⟨[0, 1, 2, 4], 1, 0, true⟩ 1 4 e.addr)
        && (match x.s.xlateAccs 0 0 0 (x.asks 1 4 es fun _ => .read) with
          | .ok (_, accs) => !x.mustStall { x.lsOp mW .ld (destOf mW 4) with accs := accs }
          | .error _ => false)) = true
    ∧ iss (prP 2) (.vcompst hp0 mW 1 2 3 0) (fun x =>
      let es := x.packed 1 2 0 4
      es.length == 2 && es.all (fun e => passesB x ⟨[0, 1, 2, 4], 2, 1, true⟩ 1 4 e.addr)
        && (x.s.openOf x.e.wid x.g.gid).isNone && x.g.progress == 0 && x.c.reps == 1
        && (match x.s.xlateAccs 0 0 1 (x.asks 1 4 es fun l => x.data mW 3 l) with
          | .ok (_, accs) => !x.mustStall { x.lsOp mW .st .none with accs := accs }
          | .error _ => false)) = true := by decide +kernel

/-! ### Witnesses: accesses that complete -/

def localB (s : State) (id : Nat) (p : LsOp) (w : Weave) : Bool :=
  decide (Tbl.find s.lsOps id = some p) && decide (s.weave p.weave = some w)
    && decide (∀ a ∈ p.accs, a.loc = .mem (Loc.pa a.loc) ∧ s.eccBad (Loc.pa a.loc) = false)
    && decide (∀ a ∈ p.accs, a.got = none ∧ a.inc = false ∧ a.torn = [])
    && decide (∀ a ∈ p.accs, s.locReady a.loc = true ∧ s.ordered id p a = true)
    && decide (p.hole = none ∧ p.err = none ∧ p.ecc = false ∧ someT s.ott (fun _ o => o.op == id) = false)

theorem localB_local {s : State} {id : Nat} {p : LsOp} {w : Weave} (h : localB s id p w = true) : s.Local id p w := by
  simp only [localB, Bool.and_eq_true, decide_eq_true_eq, List.all_eq_true] at h
  obtain ⟨⟨⟨⟨⟨h1, h2⟩, h3⟩, h4⟩, h5⟩, h6⟩ := h
  exact ⟨h1, h2, h3, h4, h5, h6⟩

def plainB (s : State) (pa : Nat) : Bool :=
  s.parts.all fun e => e.2.tdi != .run || (match e.2.directOf pa with
    | some d => decide (0x4000 ≤ d)
    | none => true)

theorem plainB_plain {s : State} {pa : Nat} (h : plainB s pa = true) : s.plainByte pa := by
  intro e he hr d hd
  have := List.all_eq_true.mp h e he
  simpa [hr, hd] using this

/-- The state after an instruction that completes, and the operation that it has sent. -/
def sentBy (s : State) (i : Instr) : State := (nx (exec i s)).getD s
def opOf (s : State) : LsOp := (Tbl.find s.lsOps 5).getD
  { weave := 0, part := 0, ident := s.deviceIdent 0, scopeH := 0, lanes := 0, sc := false, kind := .ld, sem := .weak, cls := .om
    scope := .mod, accs := [], flag := none, dest := .none, stf := none, hole := none, err := none, ecc := false }
def weave3 (s : State) : Weave := (s.weave 3).getD
  { team := 0, idx := 0, slot := 0, age := 0, live := 0, s := [], k := [], cf := [], v := [], p := [], wstat := 0, trapinfo := 0
    frames := [], loops := [], marks := [], errs := [], groups := [], killed := false, dead := 0 }

/-- Loads into a v register, a pair, an s register and a k register; the last reads a tagged capability. -/
theorem test_wit_LoadCompletes :
    [Instr.ld h7 mW 4 1 2 8, .ld h7 ⟨false, .acq, .om, .mod, .b64⟩ 4 1 255 8, .ld h7 ⟨true, .weak, .om, .mod, .b64⟩ 4 1 9 8,
     .ld h7 ⟨true, .weak, .om, .team, .cap⟩ 4 1 9 16].all (fun i =>
      let s := sentBy prM i
      let p := opOf s
      localB s 5 p (weave3 s) && p.kind == .ld && p.lanes &&& ~~~(weave3 s).dead != 0 && (weave3 s).live != 0
        && p.accs.all (fun a => a.op == .read && s.forwarded 5 p a == none && !s.mismatched a.loc a.size p.scope p.ident
          && s.staged p.ident.coreNum .ls a.loc == none)) = true := by decide +kernel

/-- The addresses of neighbouring lanes in pairs alike. -/
def prPairs : State := prW fun w => (List.range 32).foldl (fun w l => w.setV 2 l (BitVec.ofNat 32 (4 * (l / 2)))) (regsW w)

theorem test_wit_WritesComplete :
    [(prM, Instr.st h7 mW 1 2 3 8), (prM, .st h7 mCap 1 9 2 0), (prPairs, .st h7 mW 1 2 3 8)].all (fun q =>
      let s := sentBy q.1 q.2
      let p := opOf s
      localB s 5 p (weave3 s) && p.kind == .st && p.stf == none && p.sem != .acq && p.sem != .acqrel
        && decide (p.accs.map (·.lane)).Nodup
        && p.accs.all (fun a => (match a.op with
          | .write _ _ => true
          | _ => false) && decide (a.size ≤ 16) && decide (0 < a.size)
            && (List.range a.size).all fun n => plainB s (Loc.pa a.loc + n))) = true
    ∧ [(prP 1, Instr.atom hp0 ⟨false, .acqrel, .om, .mod, .b64⟩ .cas 4 1 2 8 0), (prP 1, .red hp0 mRel .add 1 2 3 0),
       (prPairs, .atom h7 mAr .add 4 1 2 3 0)].all (fun q =>
      let s := sentBy q.1 q.2
      let p := opOf s
      localB s 5 p (weave3 s) && (p.kind == .atom || p.kind == .red) && decide (p.accs.Pairwise fun a b => a.lane < b.lane)
        && p.accs.all (fun a => (match a.op with
          | .atom _ _ _ => true
          | _ => false) && (a.size == 4 || a.size == 8) && !s.mismatched a.loc a.size p.scope p.ident
            && (List.range a.size).all fun n => plainB s (Loc.pa a.loc + n))) = true := by decide +kernel

/-- A store by v2 = 4 × lane, then what memory holds; two lanes of one element, of which the higher lane's store stays, and
whose additions follow one another in lane order (R377, R382); a fetching maximum of two signed words (R381). -/
theorem test_store_completes :
    after (.accessComplete 5) (sentBy prM (.st h7 mW 1 2 3 8)) (fun t =>
      Memory.num t.mem 0x200008 4 == 1 && Memory.num t.mem 0x200084 4 == 32 && Memory.num t.mem 0x200088 4 == 0
        && t.lsOps.isEmpty) = true
    ∧ after (.accessComplete 5) (sentBy prPairs (.st h7 mW 1 2 3 8)) (fun t =>
      Memory.num t.mem 0x200008 4 == 2 && Memory.num t.mem 0x200044 4 == 32) = true
    ∧ after (.accessComplete 5) (sentBy prPairs (.atom h7 mAr .add 4 1 2 3 0)) (fun t =>
      Memory.num t.mem 0x200000 4 == 3 && vAt t 4 0 == some 0 && vAt t 4 1 == some 1) = true
    ∧ after (.accessComplete 5) (sentBy (prP 1 fun w => w.setV 3 0 0xFFFFFFFF) (.atom hp0 mAr .smax 4 1 2 3 0)) (fun t =>
      Memory.num t.mem 0x200000 4 == 0 && vAt t 4 0 == some 0) = true
    ∧ after (.accessComplete 5) (sentBy (prP 1 fun w => w.setV 3 0 0xFFFFFFFF) (.atom hp0 mAr .umax 4 1 2 3 0)) (fun t =>
      Memory.num t.mem 0x200000 4 == 0xFFFFFFFF) = true := by decide +kernel

/-! ### Witnesses: exceptions, control, loops and waits -/

def capH : Cap := mkCap (probeBase + 0x800) 0x100 1 0

/-- The field, or the issuing group, changed. -/
def prF (s : State) (f : Field → Field) : State := s.updField 0 f
def prG (s : State) (f : Group → Group) : State := s.updWeave 3 fun w => w.updGroup 4 f

/-- With a handler. -/
def prH (s : State) : State := prF s fun f => { f with lr := { f.lr with trap := capH } }

def envB (s : State) (f : Env → Group → Bool) : Bool :=
  match s.env 3 with
  | some e => (match e.w.group 4 with
    | some g => f e g
    | none => false)
  | none => false

/-- Lane 31 in a trap frame, and the issuing group of lanes 0 to 15 only. -/
def frameT : Frame := .trap 0 .inRun Run.none_ 0
def prIn (l : Nat) : State := prH (prW fun w => (w.setFrame l [frameT]).updGroup 4 fun g => { g with lanes := 0xFFFF })

/-- Under a scope that is being cancelled. -/
def prX : State := { pr with parts := [(0, { probePart 0 with scopes := [(0, { ScopeEnt.root with st := 2 })] })] }

theorem test_wit_ExceptionEntry :
    envB prX (fun e _ => prX.envCancelling e) = true
    ∧ envB (prIn 0) (fun e g => !(prIn 0).envCancelling e && e.w.anyTrap g.lanes) = true
    ∧ envB (prIn 31) (fun e g => !(prIn 31).envCancelling e && !e.w.anyTrap g.lanes && e.w.anyTrap (e.w.live &&& ~~~g.lanes)) = true
    ∧ envB (prH pr) (fun e g => !(prH pr).envCancelling e && !e.w.anyTrap e.w.live && !e.w.anyTrap (e.w.live &&& ~~~g.lanes)
        && e.f.lr.trap.tag) = true
    ∧ (let s := prF { pr with queues := [(5, { Queue.initial with en := true })] } fun f => { f with src := .queue 0 }
       envB s (fun e g => !s.envCancelling e && !e.w.anyTrap g.lanes && !e.w.anyTrap (e.w.live &&& ~~~g.lanes) && !e.f.lr.trap.tag
        && !e.t.ending && e.f.src == .queue 0 && s.queueAt 0 0 == some 5 && s.devWrites.isEmpty && s.memSt 0x4040 == .ready && (s.part 0).direct 0x4040 == some 0x4040
        && (List.range 64).all fun n => !s.kept (0x4040 + n)) = true) := by decide +kernel

theorem test_wit_InstructionTraps :
    iss (prH pr) (.trap h7 0xFFFF) (fun x => x.act != 0 && !x.s.envCancelling x.e && !x.w.anyTrap x.w.live && x.e.f.lr.trap.tag) = true
    ∧ iss (prP 0) (.brk hp0 1) (fun x => x.act == 0) = true
    ∧ (let s := prF pr fun f => { f with lr := { f.lr with vregs := 8 } }
       (match s.ctx (.iadd h7 u32 1 8 255) with
      | some x => !s.continues x.c (.iadd h7 u32 1 8 255)
        && (preTrap x.e x.g x.h (.iadd h7 u32 1 8 255)).map (fun t => (t.code, t.detail)) == some (.regRange, 0x0108)
        && decide (x.g.run.count < 23)
      | none => false) = true) := by decide +kernel

theorem test_wit_SystemRegisters :
    [Instr.nop h7, .sreg h7 0 4, .sreg h7 15 40, .swreg h7 4].all (iss pr) = true
    ∧ iss pr (.kpoint h7) (fun x => !x.s.killDue x.e) = true
    ∧ iss (prF pr fun f => { f with failed := true }) (.kpoint h7) (fun x => x.s.killDue x.e) = true := by decide +kernel

def remErr : Deferred := .remote false (some 0) 1 .om

/-- One state for each clause of RunHeader; the last has an error of an operation that cf0 counted. -/
theorem test_wit_RunHeader :
    let ok (s : State) (f : Cur → Env → Group → Bool) : Bool := match s.issuer with
      | some (c, e, g) => f c e g
      | none => false
    let clear (e : Env) : Bool := e.w.getCf 0 == 0
    ok (prF pr fun f => { f with failed := true }) (fun _ e _ => e.f.failed) = true
    ∧ ok (pr.updCohort 1 fun c => { c with st := .halting }) (fun _ e _ => !pr.killDue e && e.c.st == .halting) = true
    ∧ ok (prW fun w => w.setCf 0 1) (fun _ e _ => !pr.killDue e && e.c.st != .halting && !clear e) = true
    ∧ ok pr (fun _ e _ => !pr.killDue e && e.c.st != .halting && clear e && e.w.errs.isEmpty) = true
    ∧ ok (prH (prW fun w => { w with errs := [.remote false (some 3) 1 .om, remErr] })) (fun _ e g => !pr.killDue e && e.c.st != .halting
        && clear e && !(Deferred.remote false (some 3) 1 .om).atHeader 1 && remErr.atHeader 1 && !e.w.anyTrap e.w.live && !e.w.anyTrap g.lanes
        && e.f.lr.trap.tag) = true := by decide +kernel

/-- Code with a RUN header at `probeBase` + 0x20, FILL at + 0x28 and a RUN header at + 0x2C. -/
def prC : State :=
  let code := natToBytes 8 0x7010 ++ natToBytes 4 7 ++ natToBytes 8 0x7010
  { pr with mem := Memory.writes pr.mem 0x100020 code }

def wordB (x : Ctx) (l : Nat) (a : Int) (f : W32 → Bool) : Bool :=
  a % 4 == 0 && (x.codeOf l).covers a 4 && (match x.s.code { e := x.e, caps := [x.codeOf l], latch := none } a.toNat 4 with
    | .ok n => f (BitVec.ofNat 32 n)
    | .error _ => false)

theorem wordB_at {x : Ctx} {l : Nat} {a : Int} {f : W32 → Bool} (h : wordB x l a f = true) : ∃ w, x.WordAt l a w ∧ f w = true := by
  unfold wordB at h
  cases hc : x.s.code { e := x.e, caps := [x.codeOf l], latch := none } a.toNat 4 with
  | error e => simp [hc] at h
  | ok n =>
    simp only [hc, Bool.and_eq_true, beq_iff_eq] at h
    exact ⟨_, ⟨h.1.1, h.1.2, n, hc, rfl⟩, h.2⟩

def headerB (x : Ctx) (l : Nat) (a : Int) : Bool := wordB x l a isHeader

theorem headerB_header {x : Ctx} {l : Nat} {a : Int} (h : headerB x l a = true) : x.HeaderAt l a := wordB_at h

def noHeaderB (x : Ctx) (l : Nat) (fill : Bool) (a : Int) : Bool :=
  a % 4 != 0 || !(x.codeOf l).covers a 4 || wordB x l a fun w => !isHeader w && (!fill || w != 7)

theorem noHeaderB_none {x : Ctx} {l : Nat} {fill : Bool} {a : Int} (h : noHeaderB x l fill a = true) : x.NoHeaderAt l fill a := by
  simp only [noHeaderB, Bool.or_eq_true, bne_iff_ne, Bool.not_eq_true'] at h
  rcases h with (h | h) | h
  · exact .inl h
  · exact .inr (.inl h)
  · obtain ⟨w, hw, hf⟩ := wordB_at h
    refine .inr (.inr ⟨w, hw, ?_⟩)
    cases fill <;> simp_all

/-- The FILL at + 0x28 and the header behind it, from a lane's code on. -/
def fillsB (x : Ctx) (l : Nat) : Bool := wordB x l (probeBase + 40) (· == 7) && headerB x l (probeBase + 44)

def hEnd0 : Hd := ⟨0, false, true⟩

/-- `prC` with the lanes below `n` active under p0 and the weave changed. -/
def prCP (n : Nat) (f : Weave → Weave) : State := prC.updWeave 3 fun w => f { w with p := [(0, BitVec.ofNat 32 (2 ^ n - 1))] }

def sevenFrames : List Frame := List.replicate 7 (.call 0)

theorem test_wit_ControlTransfers :
    iss prC (.bra h7b 8) (fun x => headerB x 0 (probeBase + 32)) = true
    ∧ iss (prCP 1 fun w => w.setV 2 0 8) (.brx hEnd0 2)
        (fun x => x.lanes == [0] && headerB x 0 ((x.codeOf 0).base + 4 * (x.w.getV 2 0).toNat)) = true
    ∧ iss prC (.call h7b 8) (fun x => headerB x 0 (probeBase + 32) && decide ((x.w.frame 0).length < 7)) = true
    ∧ iss prC (.bra h7b 12) (fun x => x.act.has 0 && noHeaderB x 0 false (probeBase + 48)) = true
    ∧ iss prC (.bra h7b 0x400) (fun x => x.act.has 0 && !(x.codeOf 0).covers (probeBase + 4096) 4) = true
    ∧ iss { prC with cur := some { mkCur 12 with addr := BitVec.ofNat 64 (probeBase + 2) } } (.bra h7b 0)
        (fun x => x.act.has 0 && (x.c.addr.toNat + 4 * (0 : Int)) % 4 != 0) = true
    ∧ iss (prCP 2 fun w => (w.setV 2 0 8).setV 2 1 9) (.brx hEnd0 2) (fun x => x.lanes == [0, 1]
        && headerB x 0 ((x.codeOf 0).base + 32 : Nat) && noHeaderB x 1 false ((x.codeOf 1).base + 36 : Nat)) = true
    ∧ iss (prCP 2 fun w => w.setFrame 1 sevenFrames) (.call hEnd0 8) (fun x => headerB x 1 (probeBase + 32)
        && decide ((x.w.frame 0).length < 7) && !decide ((x.w.frame 1).length < 7)) = true
    ∧ iss (prCP 2 fun w => w.setFrame 1 sevenFrames) (.call hEnd0 12) (fun x => noHeaderB x 0 false (probeBase + 48)
        && decide ((x.w.frame 0).length < 7)) = true := by decide +kernel

theorem test_wit_Returns :
    iss (prC.updWeave 3 fun w => w.setFrame 0 [.call (BitVec.ofNat 64 (probeBase + 32))]) (.ret h7b)
        (fun x => headerB x 0 (probeBase + 32) && x.w.groups.all fun g => g.sleep == .awake) = true
    ∧ iss (prCP 1 fun w => w.setFrame 0 [.call (BitVec.ofNat 64 (probeBase + 40))]) (.ret hEnd0)
        (fun x => fillsB x 0 && x.lanes == [0]) = true
    ∧ iss (prIn 0) (.ret h7b) (fun x => x.w.frame 0 == [frameT]) = true
    ∧ iss (prCP 2 fun w => w.setFrame 0 [.call (BitVec.ofNat 64 (probeBase + 40))]) (.ret hEnd0)
        (fun x => fillsB x 0 && x.lanes == [0, 1] && x.w.frame 1 == []) = true
    ∧ iss (prCP 1 fun w => w.setFrame 0 [.call (BitVec.ofNat 64 (probeBase + 48))]) (.ret hEnd0)
        (fun x => x.lanes == [0] && noHeaderB x 0 true (probeBase + 48)) = true
    ∧ iss (prP 3) (.exit ⟨0, false, true⟩) (fun x => x.lanes == [0, 1, 2] && x.w.groups.all fun g => g.sleep == .awake) = true := by
  decide +kernel

/-- BRA to a word that is no header traps BRANCH_TARGET at lane 0's PC, and CALL takes no frame. -/
theorem test_branch_refused :
    after (.bra h7b 12) (prH prC) (fun t => (t.weave 3).any fun w => (w.trapinfo.extractLsb' 0 8).toNat == TrapCode.branchTarget.code
      && w.groups.all fun g => g.pc == BitVec.ofNat 64 (probeBase + 0x800)) = true
    ∧ after (.call hEnd0 8) (prH (prCP 2 fun w => w.setFrame 1 sevenFrames)) (fun t => (t.weave 3).any fun w =>
      (w.frame 0).length == 1 && (w.frame 1).length == 8) = true := by decide +kernel

def loopAt (iter : W32) : Loop :=
  { iter := iter, start := BitVec.ofNat 64 (probeBase + 32), stop := BitVec.ofNat 64 probeBase, inner := 8 }

theorem test_wit_HardwareLoops :
    let lp (n : Nat) (y : Option Loop) : State := prCP n fun w => w.setLoop 0 0 y
    iss (prP 2) (.loopBeg hp0 0 3 8 4) (fun x => x.lanes == [0, 1]) = true
    ∧ iss (lp 1 (some (loopAt 2))) (.loopEnd hEnd0 0) (fun x => x.lanes == [0] && x.w.loop 0 0 == some (loopAt 2)
          && (loopAt 2).stop == x.c.addr && headerB x 0 (loopAt 2).start.toNat) = true
    ∧ iss (lp 1 (some (loopAt 1))) (.loopEnd hEnd0 0) (fun x => x.w.loop 0 0 == some (loopAt 1)) = true
    ∧ iss (lp 2 (some (loopAt 1))) (.loopEnd hEnd0 0) (fun x => x.lanes == [0, 1] && x.w.loop 1 0 == none) = true
    ∧ iss (lp 1 (some { loopAt 2 with stop := 0 })) (.loopEnd hEnd0 0) (fun x => x.lanes == [0] && x.c.addr != 0) = true
    ∧ iss (lp 1 (some { loopAt 2 with start := BitVec.ofNat 64 (probeBase + 40) })) (.loopEnd hEnd0 0)
        (fun x => (loopAt 2).stop == x.c.addr && noHeaderB x 0 false (probeBase + 40)) = true
    ∧ iss (lp 1 (some { loopAt 2 with stop := BitVec.ofNat 64 (probeBase + 28) })) (.lbrk hEnd0 0) (fun x => fillsB x 0) = true
    ∧ iss (lp 2 (some { loopAt 2 with stop := BitVec.ofNat 64 (probeBase + 28) })) (.lbrk hEnd0 0)
        (fun x => fillsB x 0 && x.lanes == [0, 1] && x.w.loop 1 0 == none) = true
    ∧ iss (lp 1 (some { loopAt 2 with stop := BitVec.ofNat 64 (probeBase + 36) })) (.lbrk hEnd0 0)
        (fun x => noHeaderB x 0 true (probeBase + 48)) = true := by decide +kernel

def aCopy : Copy :=
  { weave := 3, team := 2, cohort := 1, part := 0, core := 0, ident := pr.deviceIdent 0, scopeH := 0, kind := .plain
    f := ⟨.tok, 0, .om, .coh, 0, 0⟩, src := capG, dst := capG, ph := none, srcOff := 0, dstOff := 0x1000, rows := 2, rowBytes := 64
    srcStr := 64, dstStr := 128, promise := 9, st := .queued, xl := [], got := [], put := [], arrived := [], fault := none, err := none }

theorem test_wit_TimedWaits :
    iss (prF pr fun f => { f with failed := true }) (.waitt h7 5) (fun x => x.s.killDue x.e) = true
    ∧ iss (prW fun w => w.setS 5 9) (.waitt h7 5) (fun x => !x.s.killDue x.e && decide (x.s.clock < (x.w.getS 5).toNat)) = true
    ∧ iss { (prW fun w => w.setS 5 9) with copies := [(7, aCopy)], clock := 9 } (.waitt h7 5)
        (fun x => someT x.s.copies fun _ c => c.weave == x.c.weave && decide (c.promise.toNat ≤ (x.w.getS 5).toNat)) = true
    ∧ iss { (prW fun w => w.setS 5 9) with clock := 9 } (.waitt h7 5) (fun x => x.s.copies.isEmpty) = true
    ∧ (let s : State := { prG pr (fun g => { g with sleep := .clock 9 false }) with clock := 9 }
       envB s (fun e g => !s.killDue e && !g.halted && g.sleep == .clock 9 false && s.copies.isEmpty)) = true
    ∧ (let s : State := { prG pr (fun g => { g with sleep := .clock 9 false }) with clock := 9, copies := [(7, aCopy)] }
       envB s (fun e g => !s.killDue e && !g.halted && s.copies.any fun c => c.2.weave == 3 && decide (c.2.promise.toNat ≤ 9))) = true
    ∧ (let s : State := { prG (prF pr fun f => { f with failed := true }) (fun g => { g with sleep := .clock 9 false }) with clock := 9 }
       envB s (fun e g => s.killDue e && !g.halted)) = true
    ∧ envB (prG pr fun g => { g with sleep := .stall }) (fun _ g => !g.halted && g.sleep == .stall) = true := by decide +kernel

/-! ### Witnesses: copies, phase objects and fences -/

/-- A descriptor in s20–s26 of 2 rows of 64 bytes, and k5 for the phase objects of the cohort's instance 1. -/
def capP : Cap := mkCap 4096 4096 0x7F 5
def copyW (w : Weave) : Weave :=
  ((((regsW w).setS 22 (2 * 2 ^ 32 + 64)).setS 23 (128 * 2 ^ 32 + 64)).setS 21 0x1000).setK 5 capP
def prK : State := prW copyW

def copyB (s : State) (i : Instr) : Bool :=
  iss s i fun x =>
    match copyForm x.w i with
    | some (kind, f, _, a, b, k) =>
      let c := x.copyOf kind f a b k
      x.copyChecks c i a b k == none && (x.endPeer a ((List.range c.rows).map c.srcAt) c.rowBytes).isNone
        && (x.endPeer k ((List.range c.outRows).map c.dstAt) c.outBytes).isNone && x.s.copyRoom x.e
        && (match CopyF.token f with
          | some n => decide (x.w.getCf n < 255)
          | none => true)
    | none => false

/-- s20–s26 of a COPYSEL of one entry for each of two rows of 16 logits in accumulator bank 0, at temperature 1.0. -/
def fTok : CopyF := ⟨.tok, 0, .om, .coh, 0, 0⟩
def selW (w : Weave) : Weave :=
  ((((copyW w).setS 24 0x3F800000).setS 25 (2 ^ 48)).setS 23 64).setK 6 (mkCap 0 0x1000 0x7F 4)

theorem test_wit_CopyQueued :
    copyB prK (.copy h7 ⟨.tph, 2, .om, .coh, 5, 7⟩ 12 1 20 1) = true
    ∧ copyB prK (.copy h7 ⟨.ph, 0, .om, .coh, 5, 7⟩ 12 1 20 2) = true
    ∧ copyB prK (.copym h7 fTok 12 1 20 2 1) = true ∧ copyB (prW selW) (.copysel h7 fTok 12 6 20 1) = true := by decide +kernel

/-- A check of a copy instruction that fails, with none before it that does. -/
def copyStop (f : Weave → Weave) (i : Instr) (g : Ctx → Copy → Bool) : Bool :=
  iss (prW fun w => f (copyW w)) i fun x =>
    match copyForm x.w i with
    | some (kind, fs, _, a, b, k) => let c := x.copyOf kind fs a b k; (c.selAlign k).isNone && g x c
    | none => false

/-- Zero rows; a source without a tag, of space 3 and too short for the second row; the same three of the destination; a
full token. -/
theorem test_wit_CopyQueued_traps :
    let i : Instr := .copy h7 fTok 12 1 20 2
    let src (x : Ctx) (c : Copy) := (x.endCheck 1 [0, 1, 2, 4] 0x41 ((List.range c.rows).map c.srcAt) c.rowBytes).isNone
    copyStop (·.setS 22 64) i (fun x c => x.descBad c 20) = true
    ∧ copyStop (·.setK 1 nullCap) i (fun x c => !x.descBad c 20 && !(x.w.getK 1).tag) = true
    ∧ copyStop (·.setK 1 (mkCap 0 64 0x7F 3)) i (fun x c => !x.descBad c 20 && (x.w.getK 1).space == 3) = true
    ∧ copyStop (·.setK 1 (mkCap (2 ^ 54 + 0x200000) 127 0x7F 0)) i
        (fun x c => !x.descBad c 20 && !(x.w.getK 1).covers (c.srcAt 1) c.rowBytes) = true
    ∧ copyStop (·.setK 2 nullCap) i (fun x c => !x.descBad c 20 && src x c && !(x.w.getK 2).tag) = true
    ∧ copyStop (·.setK 2 (mkCap 0 64 0x7F 3)) i (fun x c => !x.descBad c 20 && src x c && (x.w.getK 2).space == 3) = true
    ∧ copyStop (·.setK 2 (mkCap 0 0x1000 0x7F 1)) i
        (fun x c => !x.descBad c 20 && src x c && !(x.w.getK 2).covers (c.dstAt 0) c.rowBytes) = true
    ∧ copyStop (fun w => { w with cf := [(0, 255)] }) i (fun x c => x.copyChecks c i 1 20 2 == none
        && CopyF.token fTok == some 0 && x.w.getCf 0 == 255) = true := by decide +kernel

/-- An accepted copy of 2 × 64 bytes from 0x200000 to 0x201000, stride 128, with an arrival at object 7. -/
def cAcc : Copy := { aCopy with st := .accepted, ph := some (BitVec.ofNat 64 (4096 + 112)), f := ⟨.ph, 0, .om, .coh, 5, 7⟩ }
def prA (c : Copy) : State := { pr with copies := [(7, c)], nextId := 8 }

/-- A queued COPYSEL of two rows of 16 logits of bank 0 with one entry each, with ACCUM where `acc`. -/
def cSel (acc : Bool) : Copy :=
  { aCopy with
    kind := .sel 0x3F800000 (BitVec.ofNat 64 (2 ^ 48 + if acc then 2 ^ 57 else 0)) 0
    src := mkCap 0 0x1000 0x7F 4 }

/-- The copy after COPY_ACCEPT. -/
def accS (c : Copy) : State := sentBy (prA c) (.copyAccept 0)
def accC (c : Copy) : Copy := (Tbl.find (accS c).copies 7).getD c

def hereB (s : State) (c : Copy) (cap : Cap) (kind : Nat) (ps : List Piece) : Bool :=
  ps.all fun p => match s.pieceLoc c cap kind p with
    | some l => !l.isRemote && s.locStop kind (p.addr % 2 ^ 55) l == none
    | none => false

def readsB (s : State) (c : Copy) (old : Bool) (i : Nat) : Bool :=
  (Tbl.find c.got ((if old then 2 ^ 40 else 0) + i)).isSome
    || (if old then c.dstPieces else c.srcPieces).any fun p => match s.pieceLoc c (if old then c.dst else c.src) 0 p with
      | some l => decide (p.first ≤ i) && decide (i < p.first + p.len) && ((s.locBytes l p.len)[i - p.first]?).isSome
      | none => false

/-- The hypotheses of `CopyMoves`, for a destination in memory. -/
def movesB (s : State) (id : Nat) (c : Copy) : Bool :=
  Tbl.find s.copies id == some c && s.copyRuns id c && !s.arrivalEarly id c && c.put.isEmpty && c.arrived.isEmpty && s.legs.isEmpty
    && hereB s c c.src 0 c.srcPieces && (!c.accum || hereB s c c.dst 0 c.dstPieces) && hereB s c c.dst 1 c.dstPieces
    && c.dstPieces.all (fun p => match s.pieceLoc c c.dst 1 p with
      | some l => !s.copyAfter id c p && l == .mem (Loc.pa l) && (List.range p.len).all fun n => plainB s (Loc.pa l + n)
      | none => false)
    && decide (c.dstPieces.Pairwise fun p q => p.addr + p.len ≤ q.addr)
    && (List.range (c.rows * c.rowBytes)).all (readsB s c false) && (!c.accum || (List.range c.count).all (readsB s c true))

theorem test_wit_CopyEngine :
    ([aCopy, cSel true].all fun c =>
      let s := prA c
      let t := { accC c with st := .queued }
      decide (countT s.copies (fun _ o => o.core == 0 && o.st == .accepted) < Config.copyActive) && !s.accumBehind 7 c
        && (s.copies.find? fun e => e.2.core == 0 && e.2.st == .queued && !s.copyHeld e.2) == some (7, c)
        && s.tlb.isEmpty && hereB s t c.dst 1 c.dstPieces && (!c.accum || hereB s t c.dst 0 c.dstPieces)) = true
    ∧ ([{ cAcc with st := .queued }, cSel false, cSel true].all fun c => movesB (accS c) 7 (accC c)) = true
    ∧ ((accS aCopy).cohortOf 0 (phInst 4208) == some 1 && (((accS aCopy).cohort 1).map (·.away)) == some false) = true
    ∧ (({ cAcc with err := some (0, true) } : Copy).err = some (0, true) ∧ cAcc.st = .accepted)
    ∧ ((prA { cAcc with src := capR }).legError (.copy 7) = none) := by decide +kernel

/-- COPY_COMPLETE moves the second row to its place, and arrives. -/
theorem test_copy_moves :
    after (.copyComplete 7 ()) { accS { cAcc with st := .queued } with mem := [(0x200040, 5#8), (0x20007F, 6#8)] } (fun t =>
      Memory.get t.mem 0x201080 == 5 && Memory.get t.mem 0x2010BF == 6 && t.copies.isEmpty) = true := by decide +kernel

/-- Of 16 logits, 2.0 at index 3 and −∞ elsewhere but for 1.0 at index 7: the greatest, the sum 1 + 1/e, and the best entry
(R240–R243). -/
theorem test_copysel :
    let bank : Tbl W32 := (List.range 32).map fun i => (i, if i = 3 then 0x40000000 else if i = 7 then 0x3F800000 else 0xFF800000)
    after (.copyComplete 7 ()) ((accS (cSel false)).updTeam 2 fun t => { t with acc := bank }) (fun t =>
      Memory.num t.mem 0x201000 4 == 0x40000000 && Memory.num t.mem 0x201004 4 == 0x3FAF16AC && Memory.num t.mem 0x201008 4 == 1 && Memory.num t.mem 0x20100C 4 == 0
        && Memory.num t.mem 0x201010 4 == 0x40000000 && Memory.num t.mem 0x201014 4 == 3
        && Memory.num t.mem 0x201018 4 == 0xFF800000 && Memory.num t.mem 0x201020 4 == 0) = true := by decide +kernel

def phB (s : State) (i : Instr) (a b : Nat) (perm : BitVec 8) (release : Bool) (f : Ctx → Phase → Bool) : Bool :=
  iss s i fun x =>
    x.phCheck a perm (x.phAddr a b) == none && !x.phPending && (!release || x.s.lsQuietBefore x.e.wid x.s.nextId)
      && (match x.s.cohortOf x.e.part (phInst (x.phAddr a b)) with
        | some cid => (match x.s.cohort cid with
          | some c => !c.away && c.inst == phInst (x.phAddr a b) && f x (c.phase (phObj (x.phAddr a b)))
          | none => false)
        | none => false)

/-- Object 1 with REMAIN 2, and s10 = 16, s11 = 2. -/
def prO (p : Phase) (n : W64 := 2) : State :=
  (prW fun w => ((copyW w).setS 10 16).setS 11 n).updCohort 1 fun c => { c with phases := [(1, p)] }
def ph2 : Phase := { Phase.initial with remain := 2, expect := 2 }

theorem test_wit_PhaseArrivals :
    phB (prO ph2) (.phinit h7 false 5 10 11) 5 10 2 false (fun _ p => p == ph2) = true
    ∧ iss (prO ph2 0) (.pharr h7 5 10 11) (fun x => x.w.getS 11 == 0 && x.phCheck 5 2 (x.phAddr 5 10) == none) = true
    ∧ phB (prO ph2 1) (.pharr h7 5 10 11) 5 10 2 true (fun _ p => !p.poison && decide (1 < p.remain.toNat)) = true
    ∧ phB (prO ph2) (.pharr h7 5 10 11) 5 10 2 true (fun _ p => decide (p.remain.toNat ≤ 2)) = true
    ∧ phB (prO { ph2 with poison := true }) (.pharr h7 5 10 11) 5 10 2 true (fun _ p => p.poison) = true := by decide +kernel

def heldOp : PhOp := { part := 0, inst := 1, obj := 3, weave := 3, gid := 4, cohort := 1, kind := .arrive 1 }

theorem test_wit_PhaseWaits :
    phB (prO ph2) (.phtest h7 12 5 10 11) 5 10 1 false (fun x p => p == ph2 && !x.phHeld) = true
    ∧ iss { prO ph2 with phOps := [(7, heldOp)] } (.phtest h7 12 5 10 11) (fun x => x.phCheck 5 1 (x.phAddr 5 10) == none
        && x.s.phOps.any fun e => e.2.weave == x.c.weave) = true
    ∧ iss ((prO ph2).updCohort 1 fun c => { c with held := [heldOp] }) (.phtest h7 12 5 10 11) (fun x =>
        x.phCheck 5 1 (x.phAddr 5 10) == none && x.phHeld) = true
    ∧ phB (prO { ph2 with poison := true }) (.phwait h7 12 5 10 11) 5 10 1 false (fun _ p => p.poison) = true
    ∧ phB (prO { ph2 with parity := true }) (.phwait h7 12 5 10 11) 5 10 1 false
        (fun x p => !p.poison && p.parity != (x.w.getS 11).getLsbD 0) = true
    ∧ phB (prO ph2) (.phwait h7 12 5 10 11) 5 10 1 false (fun x p => !p.poison && p.parity == (x.w.getS 11).getLsbD 0) = true
    ∧ phB (prO ph2) (.bar h7 12 5 10) 5 10 3 true (fun x p => !p.poison && decide (1 < p.remain.toNat)
        && x.w.groups.all fun g => g.sleep == .awake) = true
    ∧ phB (prO { ph2 with remain := 1 }) (.bar h7 12 5 10) 5 10 3 true (fun _ p => decide (p.remain.toNat ≤ 1)) = true
    ∧ phB (prO { ph2 with poison := true }) (.bar h7 12 5 10) 5 10 3 true (fun _ p => p.poison) = true := by decide +kernel

/-- A cohort of instance 2 that has been saved, and k5 for its objects. -/
def prSaved : State :=
  let c : Cohort := (pr.cohort 1).getD { field := 0, index := 0, inst := 1, cg := 0, st := .saved, placedAt := 0, phases := [], held := []
                                         lost := false }
  let s : State := (prO ph2).updWeave 3 fun w => w.setK 5 (mkCap 8192 4096 0x7F 5)
  { s with cohorts := s.cohorts ++ [(8, { c with inst := 2, st := .saved })] }

theorem test_wit_PhaseWaitsAway :
    iss prSaved (.phwait h7 12 5 10 11) (fun x => x.phCheck 5 1 (x.phAddr 5 10) == none && !x.phPending
      && x.s.cohortOf x.e.part (phInst (x.phAddr 5 10)) == some 8 && (x.s.cohort 8).map (·.st) == some .saved) = true
    ∧ phB (prO Phase.initial) (.bar h7 12 5 10) 5 10 3 true (fun _ p => p.blank && !p.poison) = true
    ∧ phB (prO ph2) (.bar h7 12 5 10) 5 10 3 true (fun _ p => !p.blank) = true := by decide +kernel

/-- The group that waits for parity 0 wakes when PHARR completes the phase. -/
theorem test_phase_wakes :
    after (.pharr h7 5 10 11) ((prO ph2).updWeave 3 fun w => { w with groups := w.groups ++ [{ (w.groups.headD
        { gid := 4, lanes := 0, pc := 0, pos := .inRun, run := Run.none_, progress := 0, sleep := .awake, halted := false
          skipped := 0, port := false, latch := none }) with gid := 9, sleep := .phase 1 1 false 12 }] }) (fun t =>
      ((t.weave 3).bind fun w => (w.group 9).map (·.sleep)) == some .awake && sAt t 12 == some 0) = true := by decide +kernel

theorem test_wit_Fences :
    iss prM (.fence h7 .dom 7) (fun x => x.s.lsOps.isEmpty && x.w.errs.isEmpty) = true
    ∧ iss { sentBy prM (.st h7 mW 1 2 3 8) with cur := some (mkCur 8) } (.fence h7 .dom 1) (fun x =>
        x.s.lsOps.any fun e => e.2.weave == x.c.weave && e.2.accs.any fun a => a.got.isNone && classBit 1 (e.2.clsOf a)) = true
    ∧ iss (prW fun w => { w with errs := [.remote true none 1 .om] }) (.fence h7 .dom 1)
        (fun x => x.s.lsOps.isEmpty && (Deferred.remote true none 1 .om).atFence 1) = true
    ∧ iss (prW fun w => { w with errs := [.remote true none 1 .rt] }) (.pfence h7 .mod .ls .mx)
        (fun x => x.s.lsOps.isEmpty && (Deferred.remote true none 1 .rt).atFence 7) = true
    ∧ iss { sentBy prM (.st h7 mW 1 2 3 8) with cur := some (mkCur 8) } (.pfence h7 .mod .ls .mx) (fun x =>
        x.s.lsOps.any fun e => e.2.weave == x.c.weave && e.2.accs.any fun a => a.got.isNone) = true
    ∧ iss prM (.pfence h7 .mod .cp .mx) = true ∧ iss prM (.pfence h7 .mod .ls .mx) (fun x => x.s.lsOps.isEmpty) = true := by decide +kernel

/-! ### Witnesses: attention contexts -/

/-- A descriptor of one layer, one head of 8 BF16 elements, 2 sinks, a window of 14 and 2 writers, at physical address
`d`; its page table lies at `d` + 0x2000. -/
def descBytes (d : Nat) : List (BitVec 8) :=
  natToBytes 8 0 ++ natToBytes 2 1 ++ natToBytes 2 1 ++ natToBytes 2 8 ++ natToBytes 1 1 ++ natToBytes 1 1 ++ natToBytes 4 2
    ++ natToBytes 4 14 ++ natToBytes 2 2 ++ natToBytes 6 0
    ++ natToBytes 16 (mkCap (2 ^ 54 + 0x301000) 64 1 0).bits.toNat
    ++ natToBytes 16 (mkCap (2 ^ 54 + d + 0x2000) 0x1010 0x43 0).bits.toNat ++ natToBytes 8 7

def kdOf (d : Nat) : KvDesc :=
  { ctx := 2 ^ 54 + d, layers := 1, heads := 1, dim := 8, kfmt := .bf16, vfmt := .bf16, sinks := 2, window := 14, wlimit := 2
    seed := 7, rot := 2 ^ 54 + 0x301000, pt := 2 ^ 54 + d + 0x2000 }
def kd : KvDesc := kdOf 0x300000

/-- Writer 1 holds positions 0 to 2, of which position 0 is published; POSCNT is 3, the frontier 1, the page lies at
0x310000 and holds, in slot 1, position 1 written and not published. -/
def cellsOf (a : Nat) (bs : List (BitVec 8)) : List Host.Cell :=
  ((List.range bs.length).zip bs).filterMap fun x => if x.2 = 0 then none else some (a + x.1, x.2)

def kvMem (m : Memory) : Memory :=
  m ++ cellsOf 0x300000 (natToBytes 8 3 ++ (descBytes 0x300000).drop 8) ++ cellsOf 0x302000 (natToBytes 8 1)
    ++ cellsOf 0x302820 (natToBytes 8 0 ++ natToBytes 8 3 ++ natToBytes 4 0 ++ natToBytes 4 1 ++ natToBytes 8 1)
    ++ cellsOf 0x303000 (natToBytes 8 (2 ^ 54 + 0x310001)) ++ cellsOf 0x308000 (descBytes 0x308000)
    ++ cellsOf 0x310000 (natToBytes 16 (2 * 2 ^ 48 + 2 ^ 80)) ++ cellsOf 0x310010 (natToBytes 16 (2 ^ 48))
    ++ cellsOf 0x310100 (natToBytes 2 0x3F80)

/-- k8 and k9 name the two contexts, k2 the scratchpad; s10 = 1 and s11 = 256 (writer 1, layer 0). -/
def kvW (w : Weave) : Weave :=
  (((((regsW w).setK 8 (mkCap (2 ^ 54 + 0x300000) 256 0x5B 3)).setK 9 (mkCap (2 ^ 54 + 0x308000) 256 0x5B 3)).setS 10 1).setS 11 256)

def kvS (s : State) : State :=
  { s with
    mem := kvMem s.mem, tags := [0x300020 / 16, 0x300030 / 16, 0x308020 / 16, 0x308030 / 16], bad := []
    pages := [(domKey 0 (2 ^ 54 + 0x310000), { count := 1, origin := domKey 0 (2 ^ 54 + 0x300000), units := 1 })] }

def prV : State := kvS (prW fun w => { kvW w with p := [(0, 3)] })

def kvAtB (x : Ctx) (k : Nat) (perm : BitVec 8) (d : KvDesc) : Bool :=
  let c := x.w.getK k
  c.tag && c.space == 3 && c.perm &&& perm == perm && decide (256 ≤ c.len) && decide (c.base + 256 ≤ 2 ^ 64)
    && (match x.s.readDesc x.kvSite c.base k with
      | .ok (.ok d') => d' == d
      | _ => false)

def okB {α : Type} (m : KM α) (f : α → Bool) : Bool :=
  match m with
  | .ok a => f a
  | .error _ => false

def mayB (x : Ctx) (d : KvDesc) (w l p0 p1 : Nat) : Bool :=
  decide (w < d.wlimit) && decide (l < d.layers) && decide (p0 < p1)
    && okB (x.s.writer x.kvSite d w) (fun r => r.open_ && decide (r.start ≤ p0) && decide (p1 ≤ r.stop))
    && (List.range (p1 - p0)).all fun i => okB (x.s.published x.kvSite d l (p0 + i)) (!·)

/-- The range is in the open reservation, but position 0 is published. -/
def mayNotB (x : Ctx) (d : KvDesc) (w l p0 p1 : Nat) : Bool :=
  okB (x.s.writer x.kvSite d w) (fun r => r.open_ && decide (r.start ≤ p0) && decide (p1 ≤ r.stop))
    && (List.range (p1 - p0)).all (fun i => okB (x.s.published x.kvSite d l (p0 + i)) fun _ => true)
    && (List.range (p1 - p0)).any fun i => okB (x.s.published x.kvSite d l (p0 + i)) id

def room (x : Ctx) : Bool :=
  match x.g.run.slot x.h.fs with
  | some n => decide (x.w.getCf n < 255)
  | none => true

/-- What KVST asks of its source, in k2 at s12, with 48 bytes. -/
def srcB (x : Ctx) : Bool :=
  let cap := x.w.getK 2
  let src : Int := (cap.base : Int) + (x.w.getS 12).toNat
  cap.tag && cap.space == 1 && cap.perm &&& 0x41 == 0x41 && cap.covers src 48 && relativeRow x.e cap src.toNat 48 && src % 16 == 0

/-- s14 = 2, s15 = 3 for KVPUB. -/
def prVp : State := prV.updWeave 3 fun w => (w.setS 14 2).setS 15 3
/-- A register changed. -/
def prVs (r : Nat) (v : W64) : State := prVp.updWeave 3 fun w => w.setS r v

theorem test_wit_KvAccepted :
    iss prV (.apos h7 5 8 10 11) (fun x => kvAtB x 8 0x41 kd && room x) = true
    ∧ iss prV (.kvst h7 .fp32 .bf16 8 10 2 0) (fun x =>
        kvAtB x 8 0x43 kd && room x && srcB x && decide ((x.w.getS 11).toNat < 2 ^ 14) && mayB x kd 1 0 1 2) = true
    ∧ iss prVp (.kvpub h7 false .mod 8 14 11) (fun x => kvAtB x 8 0x51 kd && mayB x kd 1 0 2 3 && room x) = true
    ∧ iss prV (.kvacq h7 .mod 5 8 12) (fun x => kvAtB x 8 0x41 kd && (x.w.getS 12).toNat == 0) = true
    ∧ iss prV (.kvld hp0 true 0 0 7 6 8 2 12) (fun x => kvAtB x 8 0x41 kd && x.lanes == [0, 1]) = true
    ∧ iss prV (.kvfork h7 .mod 5 8 9) (fun x => kvAtB x 8 0x41 kd && kvAtB x 9 0x41 (kdOf 0x308000)) = true
    ∧ iss prV (.kvrel h7 5 8) (fun x => kvAtB x 8 0x41 kd) = true
    ∧ iss prV (.kvstat h7 .state 5 8 11) (fun x => kvAtB x 8 0x41 kd && decide ((x.w.getS 11).toNat / 256 < kd.wlimit)) = true
    ∧ iss prV (.kvstat h7 .front 5 8 12) (fun x => kvAtB x 8 0x41 kd && (x.w.getS 12).toNat == 0) = true := by decide +kernel

/-- Each operand beyond its limit; untagged capabilities. -/
theorem test_wit_KvRefused :
    iss (prVs 10 0) (.kvst h7 .fp32 .bf16 8 10 2 0) (fun x => kvAtB x 8 0x43 kd && srcB x && mayNotB x kd 1 0 0 1) = true
    ∧ iss (prVs 11 0x4000) (.kvst h7 .fp32 .bf16 8 10 2 0) (fun x => kvAtB x 8 0x43 kd && srcB x && decide (2 ^ 14 ≤ (x.w.getS 11).toNat)) = true
    ∧ iss prV (.kvst h7 .fp32 .bf16 8 10 9 0) (fun x => kvAtB x 8 0x43 kd && (x.w.getK 9).space == 3) = true
    ∧ iss prV (.kvst h7 .fp32 .bf16 8 10 12 0) (fun x => kvAtB x 8 0x43 kd && !(x.w.getK 12).tag) = true
    ∧ iss (prVs 12 0x1FE0) (.kvst h7 .fp32 .bf16 8 10 2 0) (fun x => kvAtB x 8 0x43 kd && !(x.w.getK 2).covers 0x1FE0 48) = true
    ∧ iss (prVs 12 8) (.kvst h7 .fp32 .bf16 8 10 2 0) (fun x => kvAtB x 8 0x43 kd && (x.w.getK 2).covers 8 48) = true := by decide +kernel

theorem test_wit_KvRefused2 :
    iss (prVs 14 0) (.kvpub h7 false .mod 8 14 11) (fun x => kvAtB x 8 0x51 kd && mayNotB x kd 1 0 0 3) = true
    ∧ iss (prVs 14 3) (.kvpub h7 false .mod 8 14 11) (fun x => kvAtB x 8 0x51 kd && (x.w.getS 14).toNat == (x.w.getS 15).toNat) = true
    ∧ iss (prVs 15 (2 ^ 48 + 1)) (.kvpub h7 false .mod 8 14 11) (fun x => kvAtB x 8 0x51 kd) = true
    ∧ iss (prVs 11 512) (.kvpub h7 false .mod 8 14 11) (fun x => kvAtB x 8 0x51 kd && decide (kd.wlimit ≤ (x.w.getS 11).toNat / 256)) = true
    ∧ iss prV (.kvacq h7 .mod 5 8 10) (fun x => kvAtB x 8 0x41 kd && decide (kd.layers ≤ (x.w.getS 10).toNat % 256)) = true
    ∧ iss prV (.kvld hp0 true 1 0 7 6 8 2 12) (fun x => kvAtB x 8 0x41 kd && decide (kd.heads ≤ 1)) = true
    ∧ iss prV (.kvld hp0 true 0 0 8 6 8 2 12) (fun x => kvAtB x 8 0x41 kd && decide (kd.dim ≤ 8)) = true
    ∧ iss prV (.kvfork h7 .mod 5 8 8) (fun x => kvAtB x 8 0x41 kd) = true
    ∧ iss (prVs 11 512) (.kvstat h7 .state 5 8 11) (fun x => kvAtB x 8 0x41 kd && decide (kd.wlimit ≤ (x.w.getS 11).toNat / 256)) = true := by decide +kernel

theorem test_wit_KvUntagged :
    ([Instr.apos h7 5 12 10 11, .kvst h7 .fp32 .bf16 12 10 2 0, .kvpub h7 false .mod 12 14 11, .kvacq h7 .mod 5 12 12,
        .kvld hp0 true 0 0 7 6 12 2 12, .kvfork h7 .mod 5 12 9, .kvrel h7 5 12, .kvstat h7 .pos 5 12 11].all fun i =>
      iss prVp i fun x => !(x.w.getK 12).tag) = true
    ∧ iss prV (.kvfork h7 .mod 5 8 12) (fun x => x.kvCap 8 0x41 == none && !(x.w.getK 12).tag) = true := by decide +kernel

/-- The operation that an instruction has sent to the KV path, named 5, may take its step. -/
def kvB (s : State) (f : State → KvOp → Site → Bool) : Bool :=
  match Tbl.find s.kvOps 5, s.weave 3 with
  | some o, some w => o.weave == 3 && o.res.isNone && s.kvReady 5 o && !s.legsOut (.kv 5) && (s.legError (.kv 5)).isNone
      && w.live != 0 && f s o (o.site 5)
  | _, _ => false

/-- An operation of the KV path of the weave, and memory then changed at one place. -/
def kvSent (kind : KvKind) (a : Nat := 0) (bs : List (BitVec 8) := []) : State :=
  let o : KvOp := { weave := 3, part := 0, ident := { pr.deviceIdent 0 with field := 1 }, lanes := 3, scopeH := 0, desc := kd
                    kind := kind, flag := none, at_ := 0, seen := [], res := none, fault := none }
  { prV with nextId := 6, mem := Memory.writes prV.mem a bs, kvOps := [(5, o)] }

def aposB (n : W64) (w : W64) (a : Nat) (bs : List (BitVec 8)) (f : State → KvOp → Site → Writer → Bool) : Bool :=
  kvB (kvSent (.apos w n 5) a bs) fun s o x =>
    o.kind == .apos w n 5 && okB (s.writer x o.desc w.toNat) fun e => f s o x e

theorem test_wit_KvReservations :
    aposB 0 0 0 [] (fun _ _ _ _ => true) = true ∧ aposB 4097 0 0 [] (fun _ _ _ _ => true) = true
    ∧ aposB 4096 2 0 [] (fun _ o _ _ => o.desc.wlimit == 2) = true ∧ aposB 1 1 0 [] (fun _ _ _ e => e.open_) = true
    ∧ aposB 1 0 0x300000 (natToBytes 8 (2 ^ 48)) (fun s o x e => !e.open_ && okB (s.poscnt x o.desc) fun p => p == 2 ^ 48) = true
    ∧ aposB 14 0 0 [] (fun s o x e => !e.open_ && okB (s.fmin x o.desc) fun fm => fm == 1) = true
    ∧ aposB 14 0 0x302000 (natToBytes 8 3) (fun s o x e => !e.open_ && okB (s.poscnt x o.desc) (fun p => p == 3)
        && okB (s.fmin x o.desc) (fun fm => fm == 3) && o.desc.ctx % 64 == 0 && o.desc.pt % 64 == 0
        && okB (s.kvPa x.die x.part o.desc.ctx 1) (fun pa => pa == 0x300000) && okB (s.setPoscnt x o.desc 17) (fun s1 =>
          okB (s1.kvPa x.die x.part (o.desc.pt + 2048) 1) fun pw => pw == 0x302800
            && ((List.range 8).map (0x300000 + ·) ++ (List.range 32).map (0x302800 + ·)).all (plainB s))) = true
    ∧ [KvSel.pos, .front, .start, .end_, .state].all (fun sel =>
      kvB (kvSent (.kvstat sel 0 (if sel = .pos then 0 else 1) 5)) fun s o x => o.kind == .kvstat sel 0 (if sel = .pos then 0 else 1) 5
        && okB (s.poscnt x o.desc) (fun _ => true) && okB (s.frontier x o.desc 0) (fun _ => true)
        && okB (s.writer x o.desc 1) fun _ => true) = true := by decide +kernel

def aSite : Site := ({ weave := 3, part := 0, ident := { pr.deviceIdent 0 with field := 1 }, lanes := 3, scopeH := 0, desc := kd
                       kind := .kvrel 5, flag := none, at_ := 0, seen := [], res := none, fault := none } : KvOp).site 5

/-- KVST at position 1, written already, and KVST at the published position 0; the check of the page for position 2, whose header
is not of its generation; the answer of an operation whose writes at peers are acknowledged. -/
theorem test_wit_KvPublication :
    (let s0 := kvSent (.kvst 1 1 0 .fp32 .bf16 [(.spad 2 0, 48)])
     kvB s0 (fun s o x => okB (s.published x o.desc 0 1) (!·) && okB (s.writer x o.desc 1) (fun e => e.open_ && e.stop == 3)
      && okB (s.head x o.desc 0 1) (fun h => h.gen == 0 && h.st == 1)
      && okB (s.lineRead x o.desc.rot 32) (fun freq => okB (s.kvstPage x o.desc 0 1) fun r => match o.kind with
          | .kvst p _ _ ks vs src =>
            let c := kvConvert kd ks vs p freq (r.2.kvSourceBytes o src)
            okB (r.2.pageWrite x r.1 (kd.kOff 1) c.1) fun s2 => okB (s2.pageWrite x r.1 (kd.vOff 1) c.2.1) fun s3 =>
              !s3.legsOut (.kv 5) && (s3.legError (.kv 5)).isNone
          | _ => false)) = true
     ∧ kvB { s0 with mem := Memory.writes s0.mem 0x310010 (natToBytes 16 (2 * 2 ^ 48)) } (fun s o x =>
        okB (s.published x o.desc 0 1) id) = true)
    ∧ kvB (kvSent (.kvpub 2 3 1 0 false .mod)) (fun s o x => (match o.kind with
        | .kvpub p0 p1 w l void scope =>
          okB (s.publish x o.desc l ((List.range (p1 - p0)).map (p0 + ·)) void (Scope.num scope) (.weave o.ident)) fun s1 =>
            okB (s1.closeWriter x o.desc w) fun s2 => !s2.legsOut (.kv 5)
        | _ => false)) = true
    ∧ (okB (prV.pte aSite kd 0 0) (fun g => g.v && !g.hides 1 && !g.hides 2 && decide ((prV.pageRec 0 g.page).count ≤ 1)
        && decide (1 ≤ (prV.pageRec 0 g.page).units) && g.page % 64 == 0
        && okB (prV.pageLoc aSite (g.page + 16) 1) (fun l => l == .mem 0x310010
          && ((List.range 16).map (0x310010 + ·)).all (plainB prV))
        && okB (prV.head aSite kd 0 1) (fun h => h.gen == 0 && h.st == 1) && okB (prV.head aSite kd 0 2) (fun h => h.st == 0)
        && okB (prV.ownPage aSite kd 0 2) (fun r => okB (r.2.pageWrite aSite r.1 32 (natToBytes 16 (2 ^ 48))) fun _ => true))
       && okB (prV.setPublished aSite kd 0 1 2 4 (.weave (prV.deviceIdent 0))) fun _ => true) = true
    ∧ (okB (prV.frontier aSite kd 0) (· == 1) && okB (prV.poscnt aSite kd) (· == 3) && okB (prV.advance aSite kd 0 2 1) (· == 1)) = true
    ∧ (okB (prV.published aSite kd 0 0) id && okB (prV.published aSite kd 0 1) (!·)
        && okB (prV.kvPa 0 0 kd.ctx 1) fun pa => (List.range 8).all fun n => plainB prV (pa + n)) = true := by decide +kernel

/-- A page that is not there, one of a hidden slot, and one that two contexts share. -/
theorem test_wit_KvPages :
    let pool : Pool := { Pool.initial with en := true, pgsz := 1, free := [BitVec.ofNat 64 (2 ^ 54 + 0x320000)],
                                           arenas := [(BitVec.ofNat 64 (2 ^ 54 + 0x320000), 1)],
                                           trans := [(2 ^ 54 + 0x320000, 0x320000)] }
    let s : State := { prV with pools := [(0, pool)] }
    let at_ (b : Nat) (bs : List (BitVec 8)) : State := { s with mem := Memory.writes s.mem b bs }
    okB ((at_ 0x303000 [0]).pte aSite kd 0 0) (fun g => !g.v) = true
    ∧ okB ((at_ 0x303000 [0]).allocPage aSite kd 0 0) (fun r => okB (r.2.setPte aSite kd 0 0 { v := true, page := r.1, hide := 0 })
        fun _ => true) = true
    ∧ okB ((at_ 0x303008 [4]).pte aSite kd 0 0) (fun g => g.v && g.hides 2 && okB ((at_ 0x303008 [4]).setPte aSite kd 0 0 { g with hide := g.hide - 4 })
        fun _ => true) = true
    ∧ (let s : State := { s with pages := [(domKey 0 (2 ^ 54 + 0x310000), ⟨2, 0, 1⟩)] }
       okB (s.pte aSite kd 0 0) (fun g => g.v && decide (1 < (s.pageRec 0 g.page).count) && okB (s.allocPage aSite kd 0 0) fun r =>
         okB (r.2.copyPage aSite kd g r.1) fun s2 => okB (s2.setPte aSite kd 0 0 { v := true, page := r.1, hide := 0 }) fun _ => true)) = true
    ∧ (let s : State := (nx (exec (.kvPathStep 5 ()) (kvSent (.kvrel 5)))).getD prV
       s.kvOps.isEmpty) = true
    ∧ (let k := kvSent (.kvrel 5)
       let s : State := { k with kvOps := mapT k.kvOps fun _ o => { o with res := some (.s 5 7, []) } }
       s.kvOps.all (fun e => e.2.res == some (.s 5 7, []) && !e.2.kind.isSt && !e.2.kind.isPub) && !s.legsOut (.kv 5)) = true := by decide +kernel

def aVoid : Void :=
  { part := 0, desc := kd, field := 1, cohort := none, scope := 0, cancel := none, report := true, count := 0, at_ := 0, fault := none }

theorem test_wit_Voids :
    (let s := { prV with voids := [(9, aVoid)] }
     let x := s.voidSite 9 aVoid
     !s.unitBusy (some 9) (s.voidReq 9 aVoid) && (s.legError (.void 9)).isNone && s.kvOps.isEmpty
      && okB (s.nextVoid x aVoid) (fun n => n == some (1, 0, 1)) && okB (s.publish x kd 0 [1] true 5 .device) fun s1 =>
       okB (s1.closeWriter x kd 1) fun _ => true) = true
    ∧ (let v : Void := { aVoid with field := 2, count := 3 }
       let s := { prV with voids := [(9, v)] }
       okB (s.stepVoid (s.voidSite 9 v) v) (fun r => r.2 == false) && !s.legsOut (.void 9)) = true := by decide +kernel

def aFork : KvKind := .kvfork (kdOf 0x308000) .mod 5

theorem test_wit_KvQueries :
    kvB (kvSent (.kvacq 0 .mod 5)) (fun s o x => okB (s.frontier x o.desc 0) (fun f => f == 1 && (kd.recent f).all fun p =>
        okB (s.head x o.desc 0 (kd.slotOf p).1) fun _ => true)) = true
    ∧ kvB (kvSent (.kvld true 0 0 7 [(0, 0), (1, 4)] 6)) (fun s o x => (match o.kind with
        | .kvld true _ 0 _ pos 6 => okB (s.poscnt x o.desc) (fun pc => pos.all fun q => decide (q.2 ≥ pc) ||
            okB (s.kvSlot x o 0 (kd.slotOf q.2).1) fun _ => true) && decide (pos.map (·.1)).Nodup && pos.length == 2
        | _ => false)) = true
    ∧ kvB (kvSent aFork) (fun s o x => okB (s.poscnt x (kdOf 0x308000)) (fun p => p == 0)
        && okB (s.anyOpen x (kdOf 0x308000)) (!·) && okB (s.allPtes x kd) (fun es => es.length == 1 && es.all fun e =>
          decide ((s.pageRec 0 e.2.2.page).count < 65535) && e.2.2.hide < 2 ^ 16 && okB (s.childHide x o e.2.1 1 e.2.2) fun _ => true)
        && okB (s.fmin x kd) (fun _ => true) && okB (s.kvStep 5 o) fun _ => true) = true
    ∧ kvB (kvSent aFork 0x308000 [1]) (fun s _ x => okB (s.poscnt x (kdOf 0x308000)) (· == 1)
        && okB (s.anyOpen x (kdOf 0x308000)) (!·)) = true
    ∧ kvB { kvSent aFork with pages := [(domKey 0 (2 ^ 54 + 0x310000), ⟨65535, 0, 1⟩)] } (fun s _ x =>
        okB (s.allPtes x kd) fun es => es.any fun e => decide (65535 ≤ (s.pageRec 0 e.2.2.page).count)) = true
    ∧ kvB (kvSent (.kvrel 5)) (fun s _ x => okB (s.anyOpen x kd) id) = true
    ∧ kvB (kvSent (.kvrel 5) 0x302838 [0]) (fun s o x => okB (s.anyOpen x kd) (!·) && okB (s.allPtes x kd) (·.length == 1)
        && okB (s.kvStep 5 o) fun _ => true) = true := by decide +kernel

/-- APOS reserves 2 positions from 3. -/
theorem test_apos_answers :
    after (.kvPathStep 5 ()) (kvSent (.apos 0 2 5)) (fun t =>
      sAt t 5 == some 3 && Memory.num t.mem 0x300000 8 == 5 && Memory.num t.mem 0x302808 8 == 5) = true := by decide +kernel

/-- KVREL answers 0 and gives the page back. -/
theorem test_kvrel_answers :
    after (.kvPathStep 5 ()) (kvSent (.kvrel 5) 0x302838 [0]) (fun t =>
      sAt t 5 == some 0 && t.pages.isEmpty) = true := by decide +kernel

/-- KVLD of V finds position 0 valid, and position 1, not published, masked. -/
theorem test_kvld_answers :
    after (.kvPathStep 5 ()) (kvSent (.kvld false 0 0 0 [(0, 0), (1, 1)] 6)) (fun t =>
      v64At t 6 0 == some 0x3F800000 && v64At t 6 1 == some (1 <<< 32)) = true := by decide +kernel

/-- KVFORK starts the child at 1; both contexts hold the page. -/
theorem test_kvfork_answers :
    after (.kvPathStep 5 ()) (kvSent aFork) (fun t =>
      sAt t 5 == some 1 && t.pages.map (·.2.count) == [2]) = true := by decide +kernel

/-! ### Witnesses: the matrix engine -/

/-- s40 = 1 (weave 0 alone), s41 = 2, s43 = a GEMM descriptor of one row and one chunk, E4M3 by E4M3: activations at
the base of k1, the tile at + 0x1000, DST block 0, ZERO. -/
def mmaWords : List W64 :=
  [0, 0x1000, BitVec.ofNat 64 (2 ^ 56 + 2 ^ 52 + 2 ^ 44 + 2 ^ 32 + 64 * 2 ^ 16 + 32), BitVec.ofNat 64 (2 ^ 15 + 3 * 16 + 3)]

/-- An attention tile of one query at position 3 over positions 0 to 2, E4M3, MODE 2; Q at the base of k1, context k8. -/
def attnWords : List W64 :=
  [0, 0, BitVec.ofNat 64 3, BitVec.ofNat 64 (2 ^ 60 + 8 * 2 ^ 56 + 1 * 2 ^ 44 + 2 * 2 ^ 40 + 2 ^ 39 + 2 ^ 32 + 0x3F800000 + 2 ^ 52), 3]

def mxW (ws : List W64) (w : Weave) : Weave :=
  let w := ((kvW w).setS 40 1).setS 41 2
  ws.zipIdx.foldl (fun w x => w.setS (43 + x.2) x.1) { w with p := [(0, 3)] }

def cvOf (st : CvSt) (signed : Lanes) (snap : Option Snap) : Cv :=
  { Cv.initial with st := st, set := 1, signed := [(0, signed)], snap := snap }

def mxS (ws : List W64) (c : Cv) : State :=
  (kvS (prW (mxW ws))).updTeam 2 fun t => { t with cv := [(1, c)], acc := [(5, 9)] }

def aReq : MxReq :=
  { team := 2, part := 0, scopeH := 0, cg := 0, cv := 1, snap := ⟨false, mmaWords, [capG, capG]⟩, desc := none, mask := none
    signers := [(3, some 0)], st := .running, batch := some 8, cancelled := false, submittedAt := 0, arrival := 1, rowsRead := []
    fault := none }

theorem test_wit_MatrixInstructions :
    let s := mxS mmaWords (cvOf .declared 0 none)
    iss s (.mdecl h7 1 40) (fun x => (x.w.getS 40 == 1) && x.e.f.lr.weaves == 1 && (x.e.t.cvr 1).st != .signing) = true
    ∧ iss s (.mdecl h7 1 41) (fun x => x.w.getS 41 == 2 && x.e.f.lr.weaves == 1) = true
    ∧ iss s (.mzero h7 0x0012) (fun x => x.e.f.lr.accBlk == 4) = true
    ∧ iss s (.mzero h7 0x0002) (fun x => x.s.mxReqs.isEmpty) = true
    ∧ iss { s with mxReqs := [(4, aReq)] } (.mzero h7 0x0001) (fun x => x.s.mxReqs.any fun e => e.2.team == x.e.tid
        && e.2.st != .forming && e.2.blocks == [0]) = true
    ∧ iss s (.mbudget h7 41) = true
    ∧ [0, 1, 2, 0x45, 0x85].all (fun sel => iss s (.mstat h7 sel 9 1)) = true
    ∧ [(1, 9), (2, 9)].all (fun q => iss s (.mldmask h7 2 q.1 q.2) fun x =>
        let c := x.w.getK q.1
        let at_ := c.base + (x.w.getS q.2).toNat
        c.tag && c.space ≤ 2 && c.perm &&& 0x41 == 0x41 && c.covers at_ 656 && (c.space == 0 || relativeRow x.e c at_ 656)
          && at_ % 16 == 0 && (c.space != 0 || (x.s.peerCheck x.e (at_ / 2 ^ 55) == none
            && x.s.peerCheck x.e ((at_ + 655) / 2 ^ 55) == none)) && room x) = true := by decide +kernel

/-- `mxS` with another capability in k1 and s9 as the offset. -/
def mldStop (c : Cap) (off : W64) (f : Ctx → Nat → Bool) : Bool :=
  iss ((mxS mmaWords (cvOf .declared 0 none)).updWeave 3 fun w => (w.setK 1 c).setS 9 off) (.mldmask h7 2 1 9) fun x =>
    f x ((x.w.getK 1).base + (x.w.getS 9).toNat)

theorem test_wit_MatrixInstructions_mldmask :
    mldStop nullCap 0 (fun x _ => !(x.w.getK 1).tag) = true
    ∧ mldStop (mkCap 0 0x1000 0x7F 3) 0 (fun x _ => (x.w.getK 1).space == 3) = true
    ∧ mldStop capS 0x1FF0 (fun x a => !(x.w.getK 1).covers a 656) = true
    ∧ mldStop capS 8 (fun x a => (x.w.getK 1).covers a 656 && relativeRow x.e (x.w.getK 1) a 656 && a % 16 == 8) = true := by
  decide +kernel

def legalB (x : Ctx) (attn : Bool) (d b : Nat) (f : Ctx → Cv → Snap → Bool) : Bool :=
  let c := x.e.t.cvr d
  let snap := x.snap attn b
  c.st != .clear && c.set.getLsbD x.w.idx && x.act &&& (Tbl.get c.signed 0 x.w.idx : Lanes) == 0 && x.w.errs.isEmpty
    && descTrap attn snap.words x.e.f.lr.accBlk c.mask 0xB1 == none && (x.operandStop attn snap.words).isNone && f x c snap

/-- The register after the issue; then whether every thread has signed, and the check of the submission. -/
def signsAs (x : Ctx) (c : Cv) (snap : Snap) (all : Bool) : Bool :=
  let c' : Cv := { c with st := .signing, snap := some snap, signed := Tbl.put c.signed x.w.idx ((Tbl.get c.signed 0 x.w.idx : Lanes) ||| x.act),
                          signers := c.signers ++ [(x.c.weave, x.g.run.slot x.h.fs)] }
  let s1 := x.s.updWeave x.c.weave fun w => w.countUp (x.g.run.slot x.h.fs)
  room x && s1.allSigned x.e.tid c' == all && !s1.acqPending c'.signers && (!all || (match s1.subCheck x.e c' snap with
    | .ok _ => true
    | .error _ => false))

def snapM : Snap := ⟨false, mmaWords, [capG, capG]⟩

theorem test_wit_Signing :
    iss (mxS mmaWords Cv.initial) (.msign hp0 false 1 43) (fun x => (x.e.t.cvr 1).st == .clear) = true
    ∧ iss (mxS mmaWords (cvOf .declared 0 none)) (.msign ⟨1, false, false⟩ false 1 43)
        (fun x => x.act == 0 && legalB x false 1 43 fun _ _ _ => true) = true
    ∧ iss (mxS mmaWords (cvOf .signing 4 (some ⟨false, [], []⟩))) (.msign hp0 false 1 43)
        (fun x => x.act == 3 && legalB x false 1 43 fun _ c snap => c.st == .signing && c.snap != some snap) = true
    ∧ iss ((mxS mmaWords (cvOf .declared 0 none)).updWeave 3 fun w => { w with errs := [.mask none 1 0x404] }) (.msign hp0 false 1 43)
        (fun x => x.w.errs == [.mask none 1 0x404]) = true
    ∧ iss (mxS mmaWords (cvOf .declared 0 none)) (.msign hp0 false 1 43)
        (fun x => x.act == 3 && legalB x false 1 43 fun x c snap => c.snap == none && signsAs x c snap false) = true
    ∧ iss (mxS mmaWords (cvOf .signing 0xFFFFFFFC (some snapM))) (.msign hp0 false 1 43)
        (fun x => x.act == 3 && legalB x false 1 43 fun x c snap => c.snap == some snap && signsAs x c snap true) = true
    ∧ iss { mxS attnWords (cvOf .declared 0 none) with tags := prV.tags } (.msign h7 true 1 43)
        (fun x => legalB x true 1 43 fun x c snap => c.snap == none && signsAs x c snap true) = true := by decide +kernel

def qReq : MxReq := { aReq with st := .pending, batch := none }
def aBatch : Batch :=
  { cg := 0, reqs := [7], closeAt := 5, closed := true, passed := 0, core := none, got := [], tile := [], pc := none, seen := []
    fault := none }
def mxQ (rs : Tbl MxReq) (bs : Tbl Batch) : State :=
  { pr with mxReqs := rs, batches := bs, nextId := 10, buckets := [(0, { Bucket.initial with units := 5000 })] }

theorem test_wit_SaffronQueue :
    (let s := mxQ [(7, qReq)] []
     s.mayEnter qReq && s.joins qReq == none && (s.team 2).isSome) = true
    ∧ (let s := mxQ [(6, { aReq with st := .queued }), (7, qReq)] [(8, { aBatch with reqs := [6], closed := false })]
       s.mayEnter qReq && s.joins qReq == some 8 && (s.mxReqs.all fun e => !decide (e.2.arrival < qReq.arrival) || !s.mayEnter e.2)) = true
    ∧ (let s := mxQ [(7, { aReq with st := .queued })] [(8, aBatch)]
       s.pickBatch 0 == some (8, aBatch, 0) && s.batchReqs aBatch == [(7, { aReq with st := .queued })]) = true := by decide +kernel

/-- One row and one chunk of E4M3: 1.0 in every activation, and 1.0 in the first row of the tile. -/
def gemmS : State :=
  let s := mxQ [(7, aReq)] [(8, { aBatch with core := some 0 })]
  { s with mem := s.mem ++ cellsOf 0x200000 (List.replicate 32 0x38) ++ cellsOf 0x201000 (List.replicate 64 0x38) }

/-- A mask block of one node, which is a root. -/
def maskBytes (row : Nat) : List (BitVec 8) :=
  [1] ++ natToBytes 15 0 ++ [0xFF] ++ natToBytes 63 0 ++ [1] ++ natToBytes 63 0 ++ natToBytes 8 row ++ natToBytes 504 0

def maskS (row : Nat) : State × MaskLoad :=
  let m : MaskLoad :=
    { weave := 3, team := 2, part := 0, core := 0, cv := 1, cap := capG, addr := capG.base, got := [], flag := some 0, fault := none }
  ({ pr with maskLoads := [(9, m)], nextId := 10, mem := pr.mem ++ cellsOf 0x200000 (maskBytes row) }, m)

/-- One query of 64 elements E4M3 over positions 0 to 2 of the context of `kd`. -/
def attnReq : MxReq := { aReq with snap := ⟨true, attnWords, [capG, mkCap (2 ^ 54 + 0x300000) 256 0x5B 3]⟩, desc := some kd }
def attnS : State := { prV with mxReqs := [(7, attnReq)], batches := [(8, { aBatch with core := some 0 })], nextId := 10 }

def rowsB (n : Nat) (old : List (List (BitVec 8))) (rd : Nat → KM (List (BitVec 8))) : Bool :=
  decide (old.length ≤ n) && (List.range n).all fun i => old[i]?.isSome || okB (rd i) fun _ => true

def doneB (s : State) (q : MxReq) (f : Batch → Bool) : Bool :=
  match Tbl.find s.batches 8 with
  | some bt => Tbl.find s.mxReqs 7 == some q && bt.core.isSome && bt.fault.isNone && bt.reqs.head? == some 7 && decide bt.reqs.Nodup && (s.batchReqs bt).head? == some (7, q)
      && q.fault.isNone && !s.reqAfter 7 q && !q.cancelled && q.batch == some 8 && (s.team q.team).isSome && f bt
  | none => false

theorem test_wit_MatrixCompletion :
    [0, 1].all (fun k =>
      let q := { aReq with rowsRead := (List.replicate 32 0x38#8) :: [] }
      let s := { gemmS with mxReqs := [(7, if k = 0 then aReq else q)] }
      doneB s (if k = 0 then aReq else q) fun bt =>
        let m := mmaOf mmaWords
        rowsB m.wRows bt.tile (fun i => s.mxRead (s.batchSite 8 bt aReq) capG (capG.base + m.wt.toNat + i * m.wstride) m.wRowBytes)
          && rowsB m.rows q.rowsRead (fun i => s.mxRead (s.reqSite 7 bt aReq) capG (capG.base + (m.act.toNat + i * m.astride)) m.aRowBytes)
          && (s.weave 3).isSome) = true
    ∧ doneB attnS attnReq (fun bt =>
        let m := attnOf attnReq.snap.words
        (attnS.tileSlots 8 bt attnReq kd).2.isNone && decide (m.rows ≤ 64)
          && (decide (m.stat < m.out) || decide (m.out + (kd.dim + 63) / 64 ≤ m.stat))
          && rowsB m.rows [] (fun i => attnS.mxRead (attnS.reqSite 7 bt attnReq) capG
            (capG.base + (m.q.toNat + i * (kd.dim * m.qFmt.bytes))) (kd.dim * m.qFmt.bytes))) = true
    ∧ (let q := { aReq with snap := ⟨false, mmaWords, [capG, mkCap 0x4000 0x10000 0x7F 0]⟩ }
       let s := { gemmS with mxReqs := [(7, q)] }
       doneB s q fun bt => match s.weightRows 8 bt q with
        | (rows, some (.xl .resolvable lva _)) => rows.isEmpty && lva == 0x5000
        | _ => false) = true
    ∧ (let s := { gemmS with mxReqs := [(7, aReq), (6, aReq)], batches := [(8, { aBatch with core := some 0, reqs := [7, 6] })] }
       doneB s aReq fun bt => bt.reqs == [7, 6]) = true
    ∧ [1, 3].all (fun row => rowsB (chunksOf capG.base 656).length [] fun i =>
        let c := (chunksOf capG.base 656).getD i (0, 0)
        (maskS row).1.mxRead ((maskS row).2.site 9) capG c.1 c.2) = true
    ∧ [1, 3].all (fun row => okB ((maskS row).1.mxRead ((maskS row).2.site 9) capG capG.base 656) fun bs =>
        bs.length == 656 && (maskOf bs).count == 1 && ((maskOf bs).row.getD 0 0 == 1) == (row == 1)) = true := by decide +kernel

/-- 32 products of 1.0 by 1.0 added to an accumulator of 1.0 give 33.0, and with the sign of one weight changed, 31.0. -/
theorem test_gemm :
    let r := actRow .e4m3 0 .fp32 (List.replicate 32 0x38)
    gemmElem 0x3F800000 [.codes .e4m3 (List.replicate 32 0x38)] r.1 r.2 0 = 0x42040000
    ∧ gemmElem 0x3F800000 [.codes .e4m3 (0xB8 :: List.replicate 31 0x38)] r.1 r.2 0 = 0x41F80000 := by decide +kernel

/-- A mask block whose first row is not its own bit is not latched: an error with detail code 4 waits (R230). -/
theorem test_mask_error :
    after (.mldmaskComplete 9 ()) (maskS 3).1 (fun t =>
      ((t.weave 3).map fun w => w.errs.length) == some 1 && ((t.team 2).map fun tm => (tm.cvr 1).mask.isSome) == some false) = true
    ∧ after (.mldmaskComplete 9 ()) (maskS 1).1 (fun t => ((t.team 2).map fun tm => (tm.cvr 1).mask.isSome) == some true) = true := by
  decide +kernel

/-! ### Witnesses: pools -/

/-- CTRL of pool 0 of die 0 with GO and EN; PGSZ 1, LOWWATER 0, one arena of 2 pages. -/
def poolS (ctrl : Nat) (k0 k16 : Pool) : State :=
  { pr with mem := cellsOf 0x2000 (natToBytes 8 ctrl ++ natToBytes 4 1 ++ natToBytes 20 0 ++ natToBytes 8 (2 ^ 54 + 0x400000) ++ natToBytes 4 2) ++ pr.mem
            pools := [(0, k0), (16, k16)] }

def pOn : Pool := { Pool.initial with en := true, pgsz := 1, asking := true }
def pRich : Pool := { Pool.initial with en := true, pgsz := 1, free := (List.range 64).map fun i => BitVec.ofNat 64 (4096 * i) }

/-- Link session 0 for partition 0. -/
def linkS (s : State) : State := { s with hd := { s.hd with linkSessions := [(0, ⟨0, 0, 0, 4⟩)] } }

/-- The entry of pool 0 held by its stack, behind an access of the device, and neither; and a page that pool 0 gets back. -/
theorem test_wit_PoolsWait :
    (let s := poolS (2 ^ 63 + 1) Pool.initial Pool.initial
     s.memSt 0x2000 == .ready && s.devWrites.isEmpty && (stackDown s).memSt 0x2000 == .held
      && (match (s.part 0).direct (poolOff 0 + 20) with
        | some q => s.memSt q != .held
        | none => false)) = true
    ∧ (let s := poolS 1 { pOn with arenas := [(BitVec.ofNat 64 (2 ^ 54 + 0x400000), 2)] } Pool.initial
       (s.pool 0).owns (2 ^ 54 + 0x401000) && decide (s.ownPeer 0 < 512)
        && (Tbl.find s.pages (domKey 0 (domain (s.ownPeer 0) (2 ^ 54 + 0x401000)).toNat)).isNone
        && (List.range 64).all fun q => (s.pool q).owns (2 ^ 54 + 0x401000) == (q == 0)) = true := by decide +kernel

theorem test_wit_Pools :
    (let s := poolS (2 ^ 63 + 1) Pool.initial Pool.initial
     let new := s.poolEntry 0 (2 ^ 63 + 1)
     (s.part 0).direct (poolOff 0) == some 0x2000 && (s.part 0).tdi == .run && Memory.num s.mem 0x2000 8 == 2 ^ 63 + 1
      && new.en && new.pgsz == 1 && new.arenas == [(BitVec.ofNat 64 (2 ^ 54 + 0x400000), 2), (0, 0), (0, 0), (0, 0), (0, 0), (0, 0)]
      && (s.arenaUnits 0 0 (2 ^ 54 + 0x400000) 0 2).isSome && new.arenas.all (fun a => !s.arenaHeld 0 new.pgsz a) && ((List.range 8).all fun n => s.kept (0x2000 + n))) = true
    ∧ (let s := poolS 1 Pool.initial Pool.initial
       (List.range 8).all fun n => s.kept (0x2000 + n) == (n == 1)) = true
    ∧ (let s := poolS (2 ^ 63) Pool.initial Pool.initial
       !(s.poolEntry 0 (2 ^ 63)).en) = true
    ∧ (let s := poolS (2 ^ 63) pOn Pool.initial
       (s.pool 0).en && !(s.pool 0).accepts (s.poolEntry 0 (2 ^ 63)) && (s.pool 0).asking && !(s.pool 16).canLend none 1
        && (s.pool 0).lendPeer == none) = true
    ∧ (let s := poolS 1 pOn pRich
       (s.pool 0).asking && (s.pool 16).canLend none 1) = true
    ∧ [(1, none), (9, some PeerErr.absent)].all (fun q =>
      let s := poolS 1 { pOn with lendPeer := some (BitVec.ofNat 9 q.1) } Pool.initial
      (s.pool 0).asking && !(s.pool 16).canLend none 1 && s.peerErr 0 0 q.1 == q.2
        && !s.sessionOpen (entSession (s.peerEnt 0 1)) && (linkS s).sessionOpen (entSession (s.peerEnt 0 1))) = true
    ∧ (let s := poolS 1 pRich Pool.initial
       !(s.pool 0).asking && (s.pool 0).canLend (some (s.ownPeer 0)) 1 && !(s.pool 0).canLend (some 5) 1 && entValid (s.peerEnt 0 1) && entEnable (s.peerEnt 0 1) && !entValid (s.peerEnt 0 9)) = true := by decide +kernel

/-- POOL_APPLY makes the two pages free and clears GO. -/
theorem test_pool_apply :
    after (.poolApply 0 0 0) (poolS (2 ^ 63 + 1) Pool.initial Pool.initial) (fun t =>
      (t.pool 0).free == [BitVec.ofNat 64 (2 ^ 54 + 0x400000), BitVec.ofNat 64 (2 ^ 54 + 0x401000)] && Memory.num t.mem 0x2000 8 == 1
        && Memory.num t.mem 0x2014 4 == 2) = true := by decide +kernel

/-! ### Witnesses: cancel scopes -/

/-- A launch record as memory holds it: code at `probeBase`, one cohort of one team of `threads`, and one argument block at
`arg`; word 8 of the dependence is `dep`. -/
def recBytes (threads : Nat) (dep : Cap) (arg : Nat) : List (BitVec 8) :=
  natToBytes 16 (mkCap probeBase 4096 1 0).bits.toNat ++ natToBytes 32 0 ++ natToBytes 4 1 ++ [1, 1] ++ natToBytes 2 threads
    ++ natToBytes 2 16 ++ natToBytes 2 1 ++ [1, 5, 0, 0] ++ natToBytes 16 dep.bits.toNat ++ natToBytes 8 3 ++ natToBytes 8 arg
    ++ natToBytes 32 0

def entOf (st : Nat) (parent depth : Nat) (ack : Cap := nullCap) (flag : Bool := false) (by_ : Option Nat := none) : ScopeEnt :=
  { ScopeEnt.free with st := st, gen := 1, parent := parent, depth := depth, ack := ack, ackFlag := flag, byOp := by_ }

/-- Handle of scope `n` at generation 1. -/
def hdl (n : Nat) : W64 := BitVec.ofNat 64 (4096 + n)

/-- Scopes 1 (live), 2 (cancelling), 3 (live, depth 16), and the record of `recBytes` at 0x200000, tagged. -/
def scPart : Partition :=
  { probePart 0 with
    peers := [(0, ownEnt), (1, peer1)]
    scopes := [(0, ScopeEnt.root), (1, entOf 1 0 2), (2, entOf 2 0 2), (3, entOf 1 0 16)] }

def prSc : State :=
  { (prW fun w => ((regsW w).setS 10 (hdl 1)).setS 11 0x10000) with
    parts := [(0, scPart)]
    mem := pr.mem ++ cellsOf 0x200000 (recBytes 32 nullCap 0), tags := [0x20000] }

theorem test_wit_ScopeInstructions :
    iss prSc (.cancel h7 5 10) room = true ∧ iss prSc (.cwait h7 5 10) room = true
    ∧ iss prSc (.cscope h7 false 5 9 10) (fun x => !(x.w.getK 9).tag && room x) = true
    ∧ iss prSc (.cscope h7 true 5 9 10) (fun x => !(x.w.getK 9).tag) = true
    ∧ iss prSc (.cscope h7 true 5 1 10) (fun x =>
        let c := x.w.getK 1
        c.tag && c.space == 0 && c.perm &&& 34 == 34 && decide (40 ≤ c.len) && c.base % 32 == 0 && c.base / 2 ^ 55 == x.s.ownPeer 0)
      = true
    ∧ iss prSc (.spawn h7 5 1 10 0 true) (fun x =>
        let c := x.w.getK 1
        c.tag && c.space == 0 && c.perm.getLsbD 0 && c.covers c.base 128 && c.base % 128 == 0 && c.base / 2 ^ 55 == x.s.ownPeer 0
          && x.place c c.base == .virt 0x40000000200000 && x.s.currentW 0 (x.w.getS 10)
          && (match x.s.xlateLs x.die 0 0x40000000200000 0 0 with
            | .ok pa => pa == 0x200000
            | .error _ => false)) = true
    ∧ iss prSc (.spawn h7 5 1 11 0 true) (fun x => !x.s.currentW 0 (x.w.getS 11)) = true
    ∧ iss prSc (.spawn h7 5 2 10 0 false) (fun x =>
        let c := x.w.getK 2
        c.tag && c.space == 1 && c.covers c.base 128 && relativeRow x.e c c.base 128 && c.base % 128 == 0) = true := by
  decide +kernel

/-- `prSc` with another capability in k1. -/
def spawnStop (c : Cap) (imm : W32) (f : Ctx → Cap → Int → Bool) : Bool :=
  iss (prSc.updWeave 3 fun w => w.setK 1 c) (.spawn h7 5 1 10 imm true) fun x =>
    room x && f x (x.w.getK 1) ((x.w.getK 1).base + imm.toInt)

theorem test_wit_ScopeInstructions_spawn :
    spawnStop nullCap 0 (fun _ c _ => !c.tag) = true
    ∧ spawnStop (mkCap 0 0x1000 0x7F 3) 0 (fun _ c _ => c.space == 3) = true
    ∧ spawnStop capS 0x1FC0 (fun _ c a => !c.covers a 128) = true
    ∧ spawnStop capS 64 (fun x c a => c.covers a 128 && relativeRow x.e c a.toNat 128 && a % 128 == 64) = true
    ∧ spawnStop capR 0 (fun x c a => c.covers a 128 && a % 128 == 0 && c.space == 0
        && a.toNat / 2 ^ 55 != x.s.ownPeer x.e.part) = true := by decide +kernel

def scOp (kind : ScopeKind) (parts : List (Nat × Partition) := prSc.parts) (records : Tbl Record := []) : State :=
  let o : ScopeOp := { weave := 3, gid := 4, lanes := 3, part := 0, core := 0, scopeH := 0, kind := kind, d := 5, flag := none
                       asleep := false, fault := none }
  { prSc with nextId := 6, scopeOps := [(5, o)], parts := parts, records := records, cur := none }

def scAtB (s : State) (f : State → ScopeOp → Bool) : Bool :=
  match Tbl.find s.scopeOps 5, s.weave 3 with
  | some o, some w => !o.asleep && o.fault.isNone && o.weave == 3 && w.takes o.lanes && s.scopeOps.length == 1 && f s o
  | _, _ => false

def aRec : Record :=
  { part := 0, lr := { probeRec with scope := 1 }, src := .queue 0, addr := 0, scope := 4097, seq := 0, found := false, met := false
    args := [], field := none, next := 0, redo := [], fault := none }

def spawnK (pa : Nat) : ScopeKind := .spawn (some (.mem pa)) 7 (hdl 1) none

/-- A SPAWN that may read its record at `pa`: its mismatch, its bad granules, and what the record is. -/
def spawnB (s : State) (pa : Nat) (f : State → Bool → Bool → Nat → Bool) : Bool :=
  scAtB s fun s o =>
    let l : Loc := .mem pa
    let raw := s.spawnRead l
    o.kind == spawnK pa && s.currentW 0 (hdl 1) && s.locReady l && s.spawnReady 5 o (some l) && (match s.env o.weave with
      | some e => f s (s.mismatched l 64 .mod (s.ident e) || s.mismatched (l.at 64) 64 .mod (s.ident e))
          (s.eccBad pa || s.eccBad (pa + 64)) (s.validate 0 { raw with lr := { raw.lr with scope := 1 } })
        && !raw.lr.dep.tag && raw.lr.argPtr == 0
      | none => false)

theorem test_wit_ScopeTable :
    scAtB (scOp (.cscope 0x9000 nullCap false)) (fun s _ => !s.currentW 0 0x9000) = true
    ∧ scAtB (scOp (.cscope (hdl 2) nullCap false)) (fun s _ => s.currentW 0 (hdl 2) && (s.scopeEnt 0 2).st == 2) = true
    ∧ scAtB (scOp (.cscope (hdl 3) nullCap false)) (fun s _ => s.currentW 0 (hdl 3) && (s.scopeEnt 0 3).depth == 16) = true
    ∧ scAtB (scOp (.cscope (hdl 1) nullCap true)) (fun s _ => s.currentW 0 (hdl 1) && (s.scopeEnt 0 1).st == 1
        && (s.scopeEnt 0 4).st == 0 && [1, 2, 3].all fun n => (s.scopeEnt 0 n).st != 0) = true
    ∧ scAtB (scOp (.cancel 0)) (fun s _ => s.currentW 0 0) = true
    ∧ scAtB (scOp (.cancel (hdl 2))) (fun s _ => (s.scopeEnt 0 2).st == 2 && s.currentW 0 (hdl 2)) = true
    ∧ scAtB (scOp (.cancel (hdl 1)) prSc.parts [(4, aRec)]) (fun s _ => (s.scopeEnt 0 1).st == 1 && s.currentW 0 (hdl 1)
        && handleId aRec.scope == 1) = true
    ∧ scAtB (scOp (.cwait 0x9000)) (fun s _ => !s.currentW 0 0x9000) = true
    ∧ scAtB (scOp (.cwait (hdl 2))) (fun s _ => s.currentW 0 (hdl 2)) = true
    ∧ scAtB (scOp (.spawn none 7 0x9000 none)) (fun s _ => !s.currentW 0 0x9000) = true
    ∧ scAtB (scOp (.spawn none 7 (hdl 1) none)) (fun s o => s.currentW 0 (hdl 1) && s.spawnReady 5 o none) = true
    ∧ spawnB (scOp (spawnK 0x200000)) 0x200000 (fun s mm bad v => !mm && !bad && v == 0 && s.hasEntry 0 true) = true
    ∧ spawnB (scOp (spawnK 0x200080)) 0x200080 (fun _ mm bad v => !mm && !bad && v != 0) = true
    ∧ spawnB { scOp (spawnK 0x200000) with bad := [0x200040 / 64] } 0x200000 (fun _ _ bad _ => bad) = true
    ∧ spawnB { scOp (spawnK 0x200000) with rel := [(0x200040 / 64, ⟨.team, pr.deviceIdent 0, 0xFF⟩)] } 0x200000
        (fun _ mm bad v => mm && !bad && v == 0) = true := by decide +kernel

/-- CSCOPE whose completion capability in k1 is refused at each check in turn (R88). -/
theorem test_wit_ScopeInstructions_cscope :
    let stop (c : Cap) (f : Ctx → Cap → Bool) : Bool :=
      iss (prSc.updWeave 3 fun w => w.setK 1 c) (.cscope h7 true 5 1 10) fun x => room x && f x (x.w.getK 1)
    let base := 2 ^ 54 + 0x200000
    stop (mkCap base 0x1000 0x7F 3) (fun _ c => c.tag && c.space == 3) = true
    ∧ stop (mkCap base 0x1000 2 0) (fun _ c => c.tag && c.space == 0 && c.perm.getLsbD 1 && !c.perm.getLsbD 5) = true
    ∧ stop (mkCap base 39 0x7F 0) (fun _ c => c.tag && c.space == 0 && c.perm.getLsbD 1 && c.perm.getLsbD 5 && c.len == 39) = true
    ∧ stop (mkCap (base + 16) 0x1000 0x7F 0) (fun _ c => c.tag && decide (40 ≤ c.len) && c.base % 32 == 16) = true
    ∧ stop capR (fun x c => c.tag && c.space == 0 && c.perm.getLsbD 1 && c.perm.getLsbD 5 && decide (40 ≤ c.len) && c.base % 32 == 0
        && c.base / 2 ^ 55 != x.s.ownPeer x.e.part) = true := by decide +kernel

/-- CANCEL of scope 1 discards the record under it, and answers 0; CSCOPE under it gives id 4, generation 1. -/
theorem test_cancel :
    after (.scopeTableOperation 5) (scOp (.cancel (hdl 1)) prSc.parts [(4, aRec)]) (fun t =>
      t.records.isEmpty && (t.scopeEnt 0 1).st == 2 && sAt t 5 == some 0) = true
    ∧ after (.scopeTableOperation 5) (scOp (.cscope (hdl 1) nullCap false)) (fun t =>
      sAt t 5 == some 0x1004 && (t.scopeEnt 0 4).depth == 3) = true := by decide +kernel

theorem find_map (e : ScopeEnt) (l : List Nat) (n : Nat) (h : n ∈ l) : Tbl.find (l.map fun n => (n, e)) n = some e := by
  induction l with
  | nil => cases h
  | cons a r ih =>
    by_cases hn : a = n
    · simp [Tbl.find, hn]
    · simp only [List.map_cons, Tbl.find, hn, if_false]
      exact ih ((List.mem_cons.mp h).resolve_left (Ne.symm hn))

/-- Every scope id in use; and every entry of the pending store. -/
theorem test_wit_ScopeFull :
    let p : Partition := { probePart 0 with scopes := (List.range 4096).map fun n => (n, entOf 1 0 2) }
    ∀ n, n < 4096 → ((scOp (.cscope (hdl 1) nullCap false) [(0, p)]).scopeEnt 0 n) = entOf 1 0 2 := by
  intro p n hn
  have : (scOp (.cscope (hdl 1) nullCap false) [(0, p)]).scopeEnt 0 n = (Tbl.find p.scopes n).getD ScopeEnt.free := rfl
  rw [this, find_map _ _ _ (List.mem_range.mpr hn)]; rfl

theorem test_wit_PendingFull :
    spawnB (scOp (spawnK 0x200000) prSc.parts ((List.range 1024).map fun n => (n, { aRec with src := .spawn }))) 0x200000
        (fun s _ bad v => !bad && v == 0 && !s.hasEntry 0 true) = true := by decide +kernel

def aCancel : Cancel :=
  { part := 0, top := 2, marked := [2], killed := 3, records := 1, spawns := 0, copies := 0, status := 0, voided := 0, written := false
    fault := none }

/-- A cancellation of scope 2, whose entry has `ack`, and a CWAIT on it. -/
def canS (ack : Cap) (flag written : Bool) : State :=
  let w : ScopeOp := { weave := 3, gid := 4, lanes := 3, part := 0, core := 0, scopeH := 0, kind := .cwait (hdl 2), d := 5, flag := none
                       asleep := true, fault := none }
  { pr with nextId := 10, cur := none, cancels := [(9, { aCancel with written := written })], scopeOps := [(5, w)]
            parts := [(0, { probePart 0 with scopes := [(0, ScopeEnt.root), (2, entOf 2 0 2 ack flag (some 9))] })] }

def canB (s : State) (f : State → Nat → Cancel → Bool) : Bool :=
  match s.cancels.find? fun e => e.2.part == 0 && e.2.top == 2 with
  | some (id, c) => c.fault.isNone && s.drained id c && f s id c
  | none => false

theorem test_wit_CancelCompletion :
    canB (canS nullCap false false) (fun s _ c => !(s.scopeEnt 0 2).ack.tag && (Tbl.find s.scopeOps 5).isSome
        && (s.handleAt 0 2).setWidth 64 == hdl 2 && c.marked == [2] && (match Tbl.find s.scopeOps 5 with
          | some q => !s.opHalted q && (s.weave q.weave).any fun w => w.takes q.lanes
          | none => false)) = true
    ∧ canB (canS capG false false) (fun s _ c => (s.scopeEnt 0 2).ack.tag && !c.written
        && (match s.kvPa 0 0 (capG.base % 2 ^ 55) 1 with
          | .ok pa => pa == 0x200000 && (List.range 32).all fun n => plainB s (pa + n)
          | .error _ => false)) = true
    ∧ canB (canS capG true true) (fun s _ c => c.written && (match s.kvPa 0 0 (capG.base % 2 ^ 55 + 32) 1 with
          | .ok pa => pa == 0x200020 && !s.eccBad pa && (List.range 8).all fun n => plainB s (pa + n)
          | .error _ => false)) = true := by decide +kernel

/-- The record of R95 Table 4 and the flag behind it. -/
theorem test_cancel_record :
    after (.cancelDrained 0 2) (canS capG true false) (fun t =>
      Memory.num t.mem 0x200000 2 == 2 && Memory.num t.mem 0x200004 4 == 3 && Memory.num t.mem 0x200014 4 == 2 ^ 31
        && Memory.num t.mem 0x200020 8 == 1 && (t.scopeEnt 0 2).st == 0 && sAt t 5 == some 0) = true := by decide +kernel

/-! ### Witnesses: launches and ends -/

/-- Queue 5 of partition 0, local index 1, ring at 0x200000, one record outstanding. -/
def aQueue : Queue :=
  { Queue.initial with en := true, ring := BitVec.ofNat 64 (2 ^ 54 + 0x200000), lidx := 1, log2n := 4, tail := 1, msix := 3 }

def queS (bs : List (BitVec 8)) (records : Tbl Record := []) : State :=
  { pr with cur := none, queues := [(5, aQueue)], records := records, mem := pr.mem ++ cellsOf 0x200000 bs, nextId := 10
            parts := [(0, { probePart 0 with scopes := [(0, ScopeEnt.root), (1, entOf 1 0 2)] })] }

def depRec (v : W64) (arg : W64) : Record :=
  { aRec with lr := { probeRec with scope := 1, dep := mkCap (2 ^ 54 + 0x200000) 8 1 0, depVal := v, argPtr := arg } }

theorem test_wit_RecordTaking :
    [32, 0].all (fun threads =>
      let s := queS (recBytes threads nullCap 0)
      (s.recordDie 0).isSome && s.hasEntry 0 false && s.nextQueue 0 == some 5 && s.queueAt 0 1 == some 5
        && (match s.agentRead 0 (s.queue 5).slot 128 with
          | .ok bs => (s.validate 0 (hostRecord bs) == 0) == (threads == 32) && (hostRecord bs).lr.argPtr == 0
          | _ => false)) = true
    ∧ (let s := { queS [] with bad := [0x200000 / 64] }
       (match s.agentRead 0 (s.queue 5).slot 128 with
        | .failed => true
        | _ => false) && s.nextQueue 0 == some 5) = true
    ∧ (let s := queS [3] [(4, depRec 4 0)]
       (match s.agentRead 0 (2 ^ 54 + 0x200000) 8 with
        | .ok bs => bytesToNat bs == 3
        | _ => false) && (s.agentRead 0 (lvaOf (BitVec.ofNat 64 (2 ^ 54 + 0x201000))) 64 matches .ok _)) = true
    ∧ ((depRec 3 0).lr.dep.tag = true ∧ (depRec 3 0).lr.dep.space = 0 ∧ (depRec 3 0).lr.dep.base % 2 ^ 55 = 2 ^ 54 + 0x200000) := by
  decide +kernel

def placeS : State :=
  { queS [] [(4, { aRec with met := true, lr := { probeRec with scope := 1, threads := 40, vregs := 16 } })] with
    cohorts := [], teams := [], weaves := [], fields := [] }

theorem test_wit_Placement :
    (match placeS.chooseRecord 0 with
    | some (rid, r, cg) => rid == 4 && cg == 0 && r.field.isNone && r.nextCohort == some (0, none) && (placeS.die (cg / 8)).ps == Ps.ps0 && r.part == 0 && placeS.cohorts.isEmpty
    | none => false) = true := by decide +kernel

/-- Two weaves, of 32 and 8 threads. -/
theorem test_placement :
    after (.cohortPlacement 0 []) placeS (fun t => (t.weaves.map fun e => (e.2.live, (e.2.groups.map fun g => g.pc)))
      == [(0xFFFFFFFF, [BitVec.ofNat 64 probeBase]), (0xFF, [BitVec.ofNat 64 probeBase])]) = true := by decide +kernel

def endS : State := { prW fun w => { w with live := 0, groups := [] } with cur := none }

def aField : Field :=
  { part := 0, number := 1, lr := probeRec, src := .spawn, scope := 0, args := [], seq := 0, left := 0, redone := [], failed := false
    lastBy := some none, ended := false }

def ownedVoid : State :=
  { prV with cur := none, cohorts := [], fields := [(0, aField)]
             ctxs := [(ctxKey 0 kd, { desc := kd, fork := none, owners := [] })] }

theorem test_wit_Endings :
    (endS.weave 3).any (fun w => w.live == 0 && (List.range 12).all fun n => w.getCf n == 0) = true
    ∧ (pr.weave 3).any (fun w => w.live != 0) = true
    ∧ (endS.teamEnv 2).any (fun e => !e.t.ended && endS.weaves.all (fun p => p.2.live == 0) && endS.mxReqs.isEmpty
        && endS.teams.length == 1) = true
    ∧ (let s := { endS with teams := endS.teams ++ [(9, { (Tbl.find endS.teams 2).getD (Team.start 1 0 0 0) with num := 1 })] }
       (s.teamEnv 2).any fun e => s.teams.any fun p => p.1 != 2 && p.2.cohort == e.cid && !p.2.ended) = true
    ∧ (let s : State := { (endS.updTeam 2 fun t => { t with killed := true }) with
         cancels := [(9, aCancel)], parts := [(0, { probePart 0 with scopes := [(0, entOf 2 0 1 nullCap false (some 9))] })] }
       (s.teamEnv 2).any fun e => e.t.killed && s.cancelling 0 0x1000 && (s.scopeEnt 0 0).byOp == some 9) = true
    ∧ (ownedVoid.field 0).any (fun f => ownedVoid.fieldDone f && f.lastBy == some none && ownedVoid.ctxs.any (fun e => e.1 / 2 ^ 64 == f.part
        && ownedVoid.mayOwe 0 e.2.desc f.number)) = true := by decide +kernel

/-! ### Witnesses: pre-emption -/

/-- A record of priority 5 that wants all of every core, on the one core group, where the cohort of the probe stands. -/
def preS : State :=
  { pr with cur := none, records := [(9, { aRec with met := true, scope := 0, lr := { probeRec with teams := 8, spadKib := 512, prio := 5, scope := 0 } })] }

def haltS (f : Group → Group) : State := (prG (prOf 64 0x0000002510097010) f).updCohort 1 fun c => { c with st := .halting }
def savS (st : CohSt) : State := (prG pr fun g => { g with halted := true }).updCohort 1 fun c => { c with st := st }

/-- The cohort saved, and its record, which offers it again; with an operation for its object 3 in hand. -/
def resS (st : CohSt) : State :=
  { savS st with cur := none, records := [(9, { aRec with met := true, scope := 0, field := some 0, next := 1, redo := [(0, 2)]
                                                          lr := { probeRec with scope := 0 } })] }

def aOp : PhOp := { part := 0, inst := 1, obj := 3, weave := 3, gid := 4, cohort := 1, kind := .arrive 1 }

/-- Does a RUN header stand at a group's PC. -/
def headB (s : State) (e : Env) (g : Group) : Bool :=
  match s.fetch e g with
  | .word (.run _ _ _) _ => true
  | _ => false

theorem test_wit_Preemption :
    (match preS.preemptChoice 0 with
    | some vs => vs.map Victim.cid == [1] && (preS.cohort 1).isSome
    | none => false) = true
    ∧ envB (haltS fun g => { g with sleep := .header 1, pos := .between }) (fun e g => e.c.st == .halting && !g.halted
        && g.sleep != .awake) = true
    ∧ envB (haltS fun g => { g with pos := .inRun }) (fun e g => g.sleep == .awake && g.pos == .inRun
        && !(haltS fun g => { g with pos := .inRun }).atGap e g) = true
    ∧ (let s := prF (haltS fun g => { g with pos := .between }) fun f => { f with failed := true }
       envB s fun e g => s.killDue e && g.pos == .between && g.sleep == .awake && headB s e g) = true
    ∧ (let s := haltS fun g => { g with pos := .between }
       envB s (fun e g => headB s e g && !s.killDue e) && envB (stackDown s) fun e g => (match (stackDown s).fetch e g with
        | .held => true
        | _ => false)) = true
    ∧ (let s := { resS .saved with lsOps := [(5, { opOf pr with hole := some 0 })] }
       s.lsOps.length == 1) = true
    ∧ ((savS .halting).quiesced 1 && !(haltS id).quiesced 1) = true
    ∧ ((savS .saving).cohort 1).any (fun c => c.st == .saving && ((savS .saving).field c.field).any fun f => !f.failed) = true
    ∧ ((savS .saving).recordOf 0).isNone = true
    ∧ ((resS .saving).recordOf 0 == some 9 && (resS .saving).records.length == 1) = true
    ∧ [CohSt.saving, .saved].all (fun st => (resS st).cohortOf aOp.part aOp.inst == some 1 && ((resS st).cohort 1).any fun c =>
        c.st == st) = true
    ∧ (match (resS .saved).chooseRecord 0 with
      | some (rid, r, cg) => rid == 9 && r.nextCohort == some (0, some 1) && ((resS .saved).die (cg / 8)).ps == Ps.ps0
          && ((resS .saved).cohort 1).isSome && decide ((resS .saved).teams.map Prod.fst).Nodup
          && decide (((resS .saved).teams.filter fun e : Nat × Team => e.2.cohort == 1).length ≤ r.lr.width)
      | none => false) = true
    ∧ [(false, false), (true, false), (false, true)].all (fun q =>
        let p : Phase := { Phase.initial with poison := q.1, parity := q.2 }
        let s := pr.updCohort 1 fun c => { c with phases := [(3, p)] }
        (s.env 3).isSome && s.cohortOf 0 1 == some 1 && (s.cohortOf 0 9).isNone && (s.cohort 1).any fun c => c.phase 3 == p) = true
    ∧ (let s := { resS .saved with copies := [(7, { aCopy with st := .queued }), (8, { aCopy with st := .accepted })], nextId := 10
                                   mxReqs := [(5, { qReq with st := .pending }), (6, { qReq with st := .running })] }
       s.copies.all (fun e => decide (e.1 < s.nextId)) && decide (s.copies.map (·.1)).Nodup && decide (s.mxReqs.map (·.1)).Nodup
        && (s.copies.filter fun e => e.2.cohort == 1 && e.2.st == .queued).length == 1
        && (s.team 2).any fun tm => tm.cohort == 1) = true := by decide +kernel

/-! ### Witnesses: faults and errors -/

def aFlt (lva : Nat) (owner : Owner) (st : FaultSt := .waiting) : Flt :=
  { part := 0, lva := BitVec.ofNat 55 lva, kind := 1, path := .ls, src := 0, core := 0, st := st, at_ := 0, owner := owner, lane := none
    alloc := false }

/-- A fault of the issuing group, and one of copy 7; slot 0 of the ring in state `st`. -/
def fltS (f : Flt) (st : BitVec 8) : State :=
  { (prG pr fun g => { g with sleep := .fault 9 }) with
    cur := none, faults := [(9, f)], copies := [(7, { aCopy with fault := some 9 })], nextId := 10
    mem := cellsOf 0x1010 [st] ++ pr.mem, clock := 100000 * Config.us }

def unmapped : Nat := 0x5000
def mapped : Nat := 2 ^ 54 + 0x200000
def outside : Nat := 2 ^ 54 + 2 ^ 40

def walkB (s : State) (lva : Nat) : Nat :=
  match s.walkTables 0 lva 1 with
  | .ok pa => if s.eccBad pa then 9 else 0
  | .error .resolvable => 1
  | .error (.unresolvable _) => 2
  | .error .held => 3

theorem test_wit_FaultService :
    ([(unmapped, 1), (mapped, 0), (outside, 2)].all fun q => [Owner.group 3 4, .copy 7].all fun o =>
      let s := fltS (aFlt q.1 o) 0
      walkB s q.1 == q.2 && s.ready svcFlt && s.belowDone (aFlt q.1 o) && s.slotState 0 0 == 0
        && (s.part 0).direct 0x1000 == some 0x1000 && (List.range 64).all fun n => !s.kept (0x1000 + n)) = true
    ∧ ([(unmapped, 1), (mapped, 0), (outside, 2)].all fun q => [1, 2, 3].all fun st => [false, true].all fun dead =>
      let s := prF (fltS (aFlt q.1 (.group 3 4) (.posted 0)) (BitVec.ofNat 8 st)) fun f => { f with failed := dead }
      s.slotState 0 0 == st && walkB (s.setSlotState 0 0 0) q.1 == q.2
        && envB s (fun e g => g.sleep == .fault 9 && !g.halted && s.killDue e == dead)
        && (s.openOf 3 4).isNone && decide (100000 * Config.us ≤ s.clock)) = true
    ∧ (let s := fltS (aFlt unmapped (.group 3 4)) 1
       let s := { s with mem := ((List.range 64).flatMap fun k => cellsOf (0x1010 + 64 * k) [1]) ++ pr.mem }
       walkB s unmapped == 1 && s.ready svcFlt && s.belowDone (aFlt unmapped (.group 3 4))
        && (List.range 64).all fun k => s.slotState 0 k == 1) = true
    ∧ (let s := fltS (aFlt unmapped (.group 3 4) (.posted 0)) 1
       s.devWrites.isEmpty && s.memSt 0x1000 == .ready && (stackDown s).memSt 0x1000 == .held && s.memSt 0x208 == .ready
        && (stackDown s).memSt 0x208 == .held && (stackDown s).ready svcFlt) = true
    ∧ walkB { fltS (aFlt unmapped (.group 3 4)) 0 with hd := { pr.hd with readyStatus := pr.hd.readyStatus &&& 0xFFFFFFFFFFFFF0FF } }
        unmapped = 3
    ∧ (let s := { pr with tlb := [⟨0, 0, 0x5000, 0, 0x5000, true, true, false⟩] }
       (s.part 0).direct 0x208 == some 0x208 && (Tbl.find s.shoots 0).isNone && (List.range 8).all fun n => !s.kept (0x208 + n)) = true
    ∧ ((Tbl.find ({ pr with shoots := [(0, ⟨0, 0x5000, 0, [7]⟩)], copies := [(7, aCopy)] }).shoots 0).any fun x =>
        !x.wait.any (pr.pendingOp x)) = true
    ∧ (let s := { pr with shoots := [(0, ⟨0, 0x5000, 0, [5]⟩)], scopeOps := (scOp (spawnK 0x5000)).scopeOps }
       (Tbl.find s.shoots 0).any fun x => x.wait.any (s.pendingOp x)) = true := by decide +kernel

theorem test_wit_MemoryErrors :
    (pr.bank 0 != .absent && pr.bank (4 * Config.stackBytes) == .absent) = true
    ∧ (pr.teamEnv 2).any (fun e => !e.c.lost && e.c.st == .resident && !pr.cancelling e.part e.f.scope && !e.f.failed) = true
    ∧ (let s : State := { prF pr (fun f => { f with scope := 0x1000 }) with parts := [(0, { probePart 0 with scopes := [(0, entOf 2 0 1)] })] }
       (s.teamEnv 2).any fun e => !e.c.lost && e.c.st == .resident && s.cancelling e.part e.f.scope) = true := by decide +kernel

/-- A relaunch of an idempotent field, and the fourth error of it. -/
theorem test_scratch_ecc :
    after (.scratchEcc 2) (prF pr fun f => { f with lr := { f.lr with flags := 1 } }) (fun t =>
      t.records.map (fun r => r.2.redo) == [[(0, 0)]] && ((t.weave 3).map fun w => w.live) == some 0) = true
    ∧ after (.scratchEcc 2) (prF pr fun f => { f with redone := [(0, 3)], lr := { f.lr with flags := 1 } }) (fun t =>
      t.records.isEmpty && ((t.field 0).map (·.failed)) == some true) = true := by decide +kernel

/-! ### Witnesses: the fabric -/

def aPkt (lva : Nat) (op : ReqOp) (phys : Nat := 7) : Packet :=
  { srcPhys := phys, srcPart := 0, dstPart := 0, cls := .om, scope := .dom, rel := false, acq := false, ident := pr.deviceIdent 0
    accs := [⟨0, BitVec.ofNat 55 lva, 4, op⟩], flag := none, path := .ls, session := 0 }

def knownB (s : State) (p : Packet) : Bool :=
  (s.part p.dstPart).tdi == .run && (List.range 512).any fun n =>
    entValid (s.peerEnt p.dstPart n) && entEnable (s.peerEnt p.dstPart n) && entPhys (s.peerEnt p.dstPart n) == p.srcPhys
      && entPart (s.peerEnt p.dstPart n) == p.srcPart

theorem test_wit_Requests :
    (knownB pr (aPkt mapped .read) && !knownB pr (aPkt mapped .read 8) && pr.inbound.isEmpty) = true
    ∧ (let s := { pr with inbound := [(2, { pkt := aPkt unmapped .read, fault := some 1, since := 0, noticed := false })] }
       s.inbound.all fun e => decide (e.1 < s.nextId) && e.2.fault.isSome && e.2.pkt.cls == .om && e.2.pkt.srcPhys == 7
        && e.2.pkt.ident.coreNum == (aPkt mapped .read).ident.coreNum) = true
    ∧ ((match pr.xlateLs 0 0 outside 0 0 with
        | .error (.page _ _) => true
        | _ => false)
      && (match pr.xlateLs 0 0 unmapped 0 0 with
        | .error (.resolvable _ _) => true
        | _ => false)
      && (match (stackDown pr).xlateLs 0 0 unmapped 0 0 with
        | .error .held => true
        | _ => false)
      && (match pr.xlateLs 0 0 mapped 2 0 with
        | .ok pa => pr.memSt pa == .ready && (stackDown pr).memSt pa == .held && (List.range 8).all fun n => plainB pr (pa + n)
        | _ => false)) = true := by decide +kernel

/-- Operation 5 of one remote load, and its entry 6 of the table of outstanding transactions. -/
def ottS (kind : LsKind) (dest : Dest) : State :=
  let a : Acc := { lane := 0, loc := .remote 1 0x40000000200000, size := 4, op := .read, inc := false, got := none, torn := [] }
  let p : LsOp := { weave := 3, part := 0, ident := pr.deviceIdent 0, scopeH := 0, lanes := 1, sc := false, kind := kind, sem := .weak
                    cls := .om, scope := .dom, accs := [a], flag := some 1, dest := dest, stf := none, hole := none, err := none
                    ecc := false }
  let o : Ott := { core := 0, weave := 3, op := 5, peer := 1, granules := [0], cls := .om, writes := false, accs := [0], sent := true
                   heard := 0 }
  { pr with lsOps := [(5, p)], ott := [(6, o)], nextId := 7, cur := none, clock := 2 * Config.us }

theorem test_wit_Responses :
    [(LsKind.ld, Dest.v 4 false), (.ld, .s 4), (.st, .none)].all (fun q =>
      let s := ottS q.1 q.2
      (match Tbl.find s.ott 6, Tbl.find s.lsOps 5 with
      | some o, some p => o.sent && p.accs.length == 1 && o.accs == [0] && p.hole.isNone && !p.ecc && p.err.isNone
          && decide (o.heard + 2 * Config.us ≤ s.clock)
      | _, _ => false) && s.ott.all (fun x => x.2.op != 5 || x.1 == 6) && (s.weave 3).any fun w => w.live != 0 && w.dead == 0) = true
    ∧ (Tbl.find (ottS .ld (.v 4 false)).ott 6).any (fun o =>
        !decide (o.heard + 2 * Config.us ≤ ({ ottS .ld (.v 4 false) with clock := 5 } : State).clock)) = true
    ∧ (let l : Leg := { owner := .copy 7, scopeH := 0, peer := 1, pkt := aPkt mapped .read, heard := 0, answer := none }
       [(l, 5), (l, 2 * Config.us), ({ l with owner := .nobody }, 5)].all fun q => let c := q.2; let s := { pr with legs := [(6, q.1)], clock := c }
        (Tbl.find s.ott 6).isNone && (Tbl.find s.legs 6).any fun l => l.answer.isNone
          && decide (l.heard + 2 * Config.us ≤ s.clock) == (c != 5)) = true
    ∧ (let q : Inbound := { pkt := aPkt unmapped .read, fault := none, since := 0, noticed := false }
       decide (q.since + Config.us < 2 * Config.us) && !q.noticed && pr.replySession q.pkt == 0 && !pr.sessionOpen 0
        && (linkS pr).replySession q.pkt == 0 && (linkS pr).sessionOpen 0) = true
    ∧ (let s := linkS pr
       entSession (s.peerEnt 0 1) == 0 && (Tbl.find s.hd.linkSessions 0).isSome) = true
    ∧ (let s := upS { linkS pr with parts := [(0, { probePart 0 with peers := [(0, ownEnt), (1, peer1), (2, 0xC000000000000009)] })] }
       s.hops 0 0 7 == [9] && s.portsUp 0 7 != [] && (stackDown s).hops 0 0 9 == [7] && pr.hops 0 0 7 == []
        && ((s.takeWireTo 0 3 7 0 .om).1.port == 2)) = true := by decide +kernel

/-- A value reaches lane 0 of v4; an atomic of a request adds 3 to a word of 4. -/
theorem test_remote :
    after (.remoteResponseArrival 6 (.values [(9, false)] false))
        ({ ottS .ld (.v 4 false) with clock := 5 }.updWeave 3 fun w => w.setCf 1 1)
      (fun t => vAt t 4 0 == some 9 && t.ott.isEmpty && ((t.weave 3).map fun w => w.getCf 1) == some 0) = true
    ∧ after (.remoteRequestArrival (aPkt mapped (.atom .add 3 0))) (linkS { pr with mem := pr.mem ++ [(0x200000, 4)] }) (fun t =>
      Memory.num t.mem 0x200000 4 == 7 && t.out.length == 1) = true := by decide +kernel

/-! ### Witnesses: the endpoint -/

def apS (base : Nat) : State := { pr with cur := none, parts := [(0, { probePart 0 with apbase := BitVec.ofNat 64 base })] }
def apX (base : Nat) (w : Nat) : Nat :=
  match (apS base).xlate 0 0 base w with
  | .ok pa => if (apS base).eccBad pa then 9 else 0
  | .error .resolvable => 1
  | .error (.unresolvable _) => 2
  | .error .held => 3

def dbS (q : Queue) : State := { queS [] with queues := [(5, q)] }

/-- Stacks that failed. -/
def stackFail (s : State) : State := let s := stackDown s; { s with hd := { s.hd with readyFail := 0xF00 } }

/-- A held read or write of partition 0 at 0x200000. -/
def anAp (write : Bool) : ApOp :=
  { part := 0, lva := BitVec.ofNat 55 mapped, write := write, len := 8, data := [], bell := none, fault := none }

theorem test_wit_HostAccesses :
    (apX mapped 0 == 0 && apX mapped 1 == 0 && apX unmapped 0 == 1 && apX outside 1 == 2 && mapped / 64 == (mapped + 7) / 64
      && (apS mapped).memSt 0x200000 == .ready && (stackDown (apS mapped)).memSt 0x200000 == .held
      && (stackFail (apS mapped)).memSt 0x200000 == .failed && !pr.hd.recovery && (apS mapped).apOps.isEmpty
      && (List.range 8).all fun n => plainB (apS mapped) (0x200000 + n)) = true
    ∧ ((dbS aQueue).queueAt 0 1 == some 5 && ((dbS aQueue).queueAt 0 2).isNone && ((dbS aQueue).part 0).tdi == .run) = true
    ∧ (let s := { apS mapped with apOps := [(9, anAp false)] }
       (Tbl.find s.lsOps 9).isNone && (Tbl.find s.inbound 9).isNone && (anAp false).fault.isNone && (anAp false).bell.isNone
        && (match s.xlate 0 0 mapped 0 with
          | .ok pa => pa == 0x200000 && !s.eccBad pa && s.memSt pa == .ready && (stackDown s).memSt pa == .held
          | .error _ => false)) = true
    ∧ (let s := { apS mapped with apOps := [(1, anAp true)] }
       s.apOps.all fun e => decide (e.1 < s.nextId) && e.2.part == 0 && e.2.write) = true
    ∧ ((upS pr).ready (rprdy 0) && (Tbl.find pr.hd.iommu 0).isNone
      && pr.parts.any fun e => e.2.key.isSome && e.2.holds 0x200000 64) = true
    ∧ (decide (2 ^ aQueue.log2n.toNat < ((17 : W32) - aQueue.head).toNat) && decide (((0 : W32) - aQueue.head).toNat < (aQueue.tail - aQueue.head).toNat)
      && decide (((16 : W32) - aQueue.head).toNat ≤ 2 ^ aQueue.log2n.toNat)) = true := by decide +kernel

theorem test_doorbell :
    after (.doorbell 1 1 17) (dbS aQueue) (fun t => (t.queue 5).qerr == 1) = true
    ∧ after (.doorbell 1 1 0) (dbS aQueue) (fun t => (t.queue 5).qerr == 2) = true
    ∧ after (.doorbell 1 1 16) (dbS aQueue) (fun t => (t.queue 5).tail == 16 && (t.queue 5).qerr == 0) = true := by decide +kernel

/-- Partition 0 before its lock, over a secured session. -/
def lockS (tdi : Tdi) (locking : Bool) : State :=
  { pr with
    cur := none
    parts := [(0, { probePart 0 with tdi := tdi, locking := locking, key := if locking then some 1 else none, scopes := [], peers := [(0, ownEnt)] })]
    hd := { pr.hd with session := true, ide := [1], linkSessions := [(0, ⟨0, 0, 0, 0⟩)] } }

theorem test_wit_Configuration :
    ((lockS .unlocked false).part 0).tdi = .unlocked ∧ ((lockS .locked false).part 0).tdi = .locked
    ∧ ((lockS .error false).part 0).tdi = .error ∧ ((lockS .unlocked true).part 0).locking = true
    ∧ ((lockS .unlocked false).queue 5).en = false ∧ (dbS aQueue |>.queue 5).en = true ∧ ((dbS aQueue).part 0).tdi = .run := by
  decide +kernel

theorem test_wit_Interfaces :
    ((lockS .unlocked false).secured && (lockS .unlocked false).lockCheck 0 == 0 && !pr.secured) = true
    ∧ ((lockS .unlocked true).part 0).locking = true
    ∧ (lockS .locked false).secured = true ∧ (lockS .run false).secured = true
    ∧ ((lockS .unlocked true).part 0).windows.all (fun w => !(lockS .unlocked true).rangeHeld w.1 w.2) = true
    ∧ ((lockS .unlocked true).part 0).windows.any (fun w => (stackDown (lockS .unlocked true)).rangeHeld w.1 w.2) = true
    ∧ (lockS .locked false).hd.recoveryStatus ≠ 1 ∧ ((lockS .unlocked false).ready svcSpdm && (lockS .unlocked false).hd.session) = true
    ∧ [2, 3, 0].all (fun c =>
       let r : Partition := { probePart 0 with tdi := if c = 0 then .unlocked else .locked, cgmask := if c = 2 then 1 else 2 }
       let s := lockS .unlocked true
       let s := { s with parts := s.parts ++ [(1, r)] }
       s.lockMeets 0 == c && (s.part 0).windows.all fun w => !s.rangeHeld w.1 w.2) = true
    ∧ ({ lockS .unlocked false with hd := { (lockS .unlocked false).hd with ide := [] } }).lockCheck 0 = 7 := by decide +kernel

theorem test_lock :
    after (.lockInterfaceRequest 0) (lockS .unlocked false) (fun t => (t.part 0).locking && (t.part 0).key.isSome) = true
    ∧ after (.lockScrubDone 0) { lockS .unlocked true with mem := [(5, 5#8), (2 ^ 40, 6#8)] } (fun t =>
      (t.part 0).tdi == .locked && t.mem == [(2 ^ 40, 6#8)]) = true
    ∧ after (.startInterfaceRequest 0) (lockS .locked false) (fun t => (t.part 0).tdi == .run && (t.scopeEnt 0 0).st == 1) = true := by
  decide +kernel

theorem test_wit_LinkFailures :
    (let s := { pr with hd := { pr.hd with cxlGiB := [(0, 4)] }
                        parts := [(0, { probePart 0 with win := [(0, 0x8000000001000000 + BitVec.ofNat 64 (Config.tierBase / 2 ^ 30))] })] }
     (s.part 0).gibs.any fun w => s.bank (w.1 * 2 ^ 30) == .cxl 0) = true
    ∧ pr.parts.all (fun e => e.2.gibs.all fun w => (List.range w.2).all fun k => pr.bank ((w.1 + k) * 2 ^ 30) != .cxl 0) = true
    ∧ (let p : Partition := { probePart 0 with tdi := .error, held := 1 }
       let s : State := { ottS .ld (.v 4 false) with parts := [(0, p)], cohorts := [], weaves := [], teams := [], fields := [] }
       !(s.underWay 0).isEmpty && decide (s.clock < (s.part 0).heldAt + 10000 * Config.us)
        && (({ s with ott := [], lsOps := [] } : State).underWay 0).isEmpty && !s.legsAway 0
        && ({ s with legs := [(8, { owner := .copy 7, scopeH := 0, peer := 1, pkt := aPkt mapped .read, heard := 0, answer := none })] } : State).legsAway 0)
      = true := by decide +kernel

/-! ### Witnesses: the host die, and the step -/

theorem test_wit_BringUp :
    (!State.reset.failedBit 8 && !State.reset.ready 8 && decide (State.reset.clock ≤ State.reset.hd.resetAt + 1500000 * Config.us)) = true
    ∧ (let s := { State.reset with clock := 1500000 * Config.us + 1 }
       decide (s.hd.resetAt + 1500000 * Config.us < s.clock) && s.apOps.isEmpty && s.inbound.isEmpty && !s.ready 8) = true
    ∧ (!State.reset.reported 40 && (upS State.reset).ready 40
      && (let s := { State.reset with hd := { HostDie.initial with reported := BitVec.ofNat 64 (2 ^ 40) } }
        s.reported 40 && !s.ready 40)) = true
    ∧ (State.reset.hd.recoveryStatus != 1 && State.reset.parts.all (fun e => e.2.tdi != .run) && pr.parts.any fun e => e.2.tdi == .run)
      = true := by decide +kernel

theorem test_ready :
    after (.functionReady 8) State.reset (fun t => t.ready 8 && t.out == [.msix 0 0]) = true
    ∧ after (.readyLimitExpiry 8) { State.reset with clock := 1500000 * Config.us } (fun t => t.failedBit 8) = true
    ∧ after (.readyLimitExpiry 8) { State.reset with clock := 1500000 * Config.us - 1 } (fun t => !t.failedBit 8) = true := by
  decide +kernel

def powS (l : W32) (d : DieSt) : State :=
  { State.reset with hd := { HostDie.initial with readyStatus := 0xFFFF }, parts := [(0, { Partition.initial with tdi := .locked, cgmask := 1, ltol := l })]
                     dies := [(0, d)] }

theorem test_wit_PowerStates :
    ((powS 20000 DieSt.initial).idleDie 0 && (powS 20000 DieSt.initial).ready svcPwr && !pr.idleDie 0) = true
    ∧ ((powS 0 ⟨.ps3, none⟩).die 0).ps = .ps3 ∧ ((powS 0 ⟨.ps3, some 5⟩).die 0).exiting = some 5
    ∧ ((powS 0 ⟨.ps3, none⟩).idleDie 0 && !(powS 0 ⟨.ps3, none⟩).accessTo 0) = true
    ∧ (let s := { apS mapped with apOps := [(9, anAp false)], dies := [(0, ⟨.ps3, none⟩)] }
       s.accessTo 0 && (s.die 0).ps == Ps.ps3) = true := by decide +kernel

/-- LTOL of 20 µs allows PS2, and 1 ns less PS1. -/
theorem test_power :
    after (.powerStateEntry 0) (powS 20000 DieSt.initial) (fun t => (t.die 0).ps == .ps2) = true
    ∧ after (.powerStateEntry 0) (powS 19999 DieSt.initial) (fun t => (t.die 0).ps == .ps1) = true
    ∧ after (.ltolWrite 0 1000) (powS 250000 ⟨.ps3, none⟩) (fun t => (t.die 0).ps == .ps1) = true := by decide +kernel

def fetchB (n w : Nat) (f : State → Env → Group → Bool) : Bool :=
  let s := State.reset.withFetchWord n w
  match s.agenda with
  | .issue wid gid dt :: rest =>
    let u : State := { s with agenda := rest, clock := s.clock + dt, cur := none }
    (match u.env wid with
    | some e => (match e.w.group gid with
      | some g => u.mayIssue e g && f u e g
      | none => false)
    | none => false)
  | _ => false

def groupB (u : State) (e : Env) (g : Group) (a : Nat) (f : BitVec 128 → Nat → Bool) : Bool :=
  match u.groupAt { e := e, caps := e.codeCaps g.lanes, latch := g.latch } a g.pc with
  | .ok (w, n) => f w n
  | .error _ => false

/-- IADD; FILL; and MOD and REP before FADD. -/
theorem test_wit_StepRunsDecoded :
    fetchB 64 0x0000000302017200 (fun u e g => groupB u e g g.pc.toNat fun w n => decode w == .ok (.iadd h7 u32 1 2 3) && n == 8
        && !isHeader (w.extractLsb' 0 32) && g.pos == .inRun) = true
    ∧ fetchB 64 0x0000002510097010 (fun u e g => groupB u e g g.pc.toNat fun w n => decode w == .ok (.run 0x009 (some 1) (some 2))
        && n == 8 && isHeader (w.extractLsb' 0 32) && g.pos == .between) = true
    ∧ fetchB 32 7 (fun u e g => groupB u e g g.pc.toNat fun w _ => decode w == .ok .fill && g.pos != .arrived) = true
    ∧ [0x10B, 0x4113].all (fun pre => fetchB 128 (0x0000000302017400 * 2 ^ 64 + pre) fun u e g =>
        g.pos == .inRun && groupB u e g g.pc.toNat fun w n => n == 8 && groupB u e g (g.pc.toNat + 8) fun x _ =>
          decode x == .ok (.fadd h7 false .fp32 1 2 3) && prefixKind (x.extractLsb' 0 32) == none && !isHeader (x.extractLsb' 0 32)
            && (match decodePrefix w with
              | some p => p.may x && p.fits (.fadd h7 false .fp32 1 2 3) && (match p with
                | .mod r sat => pre == 0x10B && r == .rz && !sat
                | .rep r => pre == 0x4113 && r.reps == 2 && r.d == 1 && r.a == 0)
              | none => false)) = true := by
  decide +kernel

/-- A step that answers: what `StepSettles` is about, from reset and from a group that issues. -/
theorem test_wit_StepSettles : (nx (step State.reset)).isSome = true ∧ (nx (step (State.reset.withFetchWord 64 0x7000))).isSome = true := by
  decide +kernel

/-- The prefixes `mod.rz`, MOD of RNA with SAT, and REP with COUNT 1, DSTEP 1 and ASTEP 4; and words that are none: mode 6, a
reserved bit of each kind, kind 3 (R292–R294). -/
theorem test_prefixes :
    decodePrefix 0x10B = some (.mod .rz false) ∧ decodePrefix 0xD0B = some (.mod .rna true)
    ∧ decodePrefix 0x34113 = some (.rep { reps := 2, d := 1, a := 4, b := 0, c := 0 })
    ∧ ([0x60B, 0x100B, 0x400013, 0x1B, 0xF] : List (BitVec 128)).all (fun w => decodePrefix w == none) = true := by decide +kernel

theorem test_wit_Encoding :
    ((Instr.iadd h7 u32 1 2 3).wf && !(Instr.iadd h7 u32 1 2 3).isEvent) = true
    ∧ decode 0x0000000302017200 = .ok (.iadd h7 u32 1 2 3) := by decide +kernel

/-! ### Results that the spec writes out -/

/-- FKEY, Table 4 of chapter 20. -/
theorem test_fkey :
    ((List.zip [0x7C00, 0x3C00, 0x0000, 0x8000, 0xBC00] [0xFC00, 0xBC00, 0x8000, 0x7FFF, 0x43FF]).all fun q =>
      after (.fkey h7 false false .fp16 1 2) (prW fun w => w.setV 2 0 q.1) fun t => vAt t 1 0 == some q.2) = true
    ∧ ((List.zip [0x7C00, 0x3C00, 0x0000, 0x8000, 0xBC00] [0x03FF, 0x43FF, 0x7FFF, 0x8000, 0xBC00]).all fun q =>
      after (.fkey h7 false true .fp16 1 2) (prW fun w => w.setV 2 0 q.1) fun t => vAt t 1 0 == some q.2) = true := by
  decide +kernel

/-- Chapter 11: 0.3 is 0x09 in E5F2; 1 + 2^−4 + 2^−12 is 0x39 in E4M3, directly and through FP16 (Table 6). -/
theorem test_fcvt :
    after (.fcvt h7 false .e5f2 .fp32 none 1 2) (prW fun w => w.setV 2 0 0x3E99999A) (fun t => vAt t 1 0 == some 0x09) = true
    ∧ ([none, some Fmt.fp16].all fun via => after (.fcvt h7 false .e4m3 .fp32 via 1 2) (prW fun w => w.setV 2 0 0x3F880800)
      fun t => vAt t 1 0 == some 0x39) = true := by decide +kernel

/-- Chapter 10, Table 5: sine and cosine at 0xD5555555, and at the quadrant 0xC0000000. -/
theorem test_rotation :
    rotGen 0xD5555555 = (0xBF5DB3D7, 0x3F000000) ∧ rotGen 0xC0000000 = (0xBF800000, 0) := by decide +kernel

/-- Chapter 11: index 0x5A3C gives the weights 0.25, 0.25, −0.75, −0.25, 0.75, −0.75, 0.25, −0.25 at the scale 2^−1:
sign and twice the magnitude. -/
theorem test_cb2 :
    (List.range 8).map (fun j => (cb2Weight 0x5A3C j).1) = [false, false, true, true, false, true, false, true] := by
  decide +kernel

/-- By hand: −2.75 to an integer towards zero is −2 and inexact; 0x80000010 shifted right by 4, arithmetically. -/
theorem test_ftoi_shr :
    after (.ftoi h7 false .int32 .fp32 1 2) ({ (prW fun w => w.setV 2 0 0xC0300000) with cur := some { mkCur 8 with rnd := .rz } })
      (fun t => vAt t 1 0 == some 0xFFFFFFFE && (wstatAt t).any fun w => w.getLsbD wsInexact) = true
    ∧ after (.shr h7 u32 .ari 1 2 3 0) (prW fun w => (w.setV 2 0 0x80000010).setV 3 0 4) (fun t => vAt t 1 0 == some 0xF8000001)
      = true := by decide +kernel

end Sys2Proof.Tests
end

section
/-! The device's accesses to direct space (R14, R21, R134), as the fault service and the shootdown make them. -/

namespace Sys2Proof.Machine

open Sys2Proof

/-! ### Waking a die (R21) -/

/-- Waking a die changes nothing but the table of dies. -/
theorem State.wake_eq (s : State) (d : Nat) : s.wake d = { s with dies := (s.wake d).dies } := by
  unfold State.wake
  dsimp only
  split <;> rfl

theorem State.touch_eq (s : State) (pa : Nat) : s.touch pa = { s with dies := (s.touch pa).dies } :=
  State.wake_eq s _

/-- A die that starts to leave its power state is still in it. -/
@[simp] theorem State.wake_ps (s : State) (d e : Nat) : ((s.wake d).die e).ps = (s.die e).ps := by
  unfold State.wake
  dsimp only
  split
  · rfl
  · rw [State.die_setDie]
    split
    · next h => rw [h]
    · rfl

/-- How memory answers depends on the host die and on the power states alone. -/
theorem State.memSt_congr {s t : State} (hhd : t.hd = s.hd) (hps : ∀ d, (t.die d).ps = (s.die d).ps) (pa : Nat) :
    t.memSt pa = s.memSt pa := by
  have hbank : t.bank pa = s.bank pa := by simp only [State.bank, hhd]
  have hhome : t.homeDie pa = s.homeDie pa := by simp only [State.homeDie, hbank]
  unfold State.memSt State.dieServes State.failedBit State.ready
  rw [hbank, hhome, hhd, hps]

@[simp] theorem State.touch_hd (s : State) (pa : Nat) : (s.touch pa).hd = s.hd := by rw [State.touch_eq]

/-- An access that wakes a die does not yet change how memory answers. -/
@[simp] theorem State.touch_memSt (s : State) (pa q : Nat) : (s.touch pa).memSt q = s.memSt q :=
  State.memSt_congr (State.touch_hd s pa) (State.wake_ps s _) q

@[simp] theorem State.touch_kept (s : State) (pa a : Nat) : (s.touch pa).kept a = s.kept a := by
  rw [State.touch_eq]; rfl

/-- An access that waits for memory wakes the die that homes it, and does nothing else. -/
theorem State.devAwait_eq (s : State) (part d : Nat) : s.devAwait part d = { s with dies := (s.devAwait part d).dies } := by
  unfold State.devAwait
  split
  · exact State.touch_eq s _
  · rfl

/-! ### When an access waits (R14) -/

theorem State.devHeld_iff (s : State) (part d : Nat) : s.devHeld part d = true ↔
    (∃ x ∈ s.devWrites, x.part = part) ∨ ∃ q, (s.part part).direct d = some q ∧ s.memSt q = .held := by
  unfold State.devHeld
  cases (s.part part).direct d <;> simp

/-- Where the device has no write waiting and memory is ready, its access is made at once. -/
theorem State.devHeld_of_ready {s : State} {part d pa : Nat} (hw : ∀ x ∈ s.devWrites, x.part ≠ part)
    (hpa : (s.part part).direct d = some pa) (hm : s.memSt pa = .ready) : s.devHeld part d = false := by
  rw [Bool.eq_false_iff, ne_eq, State.devHeld_iff]
  rintro (⟨x, hx, hp⟩ | ⟨q, hq, hh⟩)
  · exact hw x hx hp
  · obtain rfl : pa = q := by simpa [hpa] using hq
    simp [hm] at hh

/-! ### Writes -/

/-- What a write of bytes changes, after the access has woken the die. -/
theorem State.touch_memWrite (s : State) (pa : Nat) (bs : List (BitVec 8)) : (s.touch pa).memWrite pa bs =
    { s with
      mem := Memory.writes s.mem pa bs, tags := clearTags s.tags pa bs.length
      rel := (granulesOf pa bs.length).foldl Tbl.del s.rel, dies := (s.touch pa).dies } := by
  rw [State.touch_eq]; rfl

/-- The device's write in ready memory puts down every byte that no rule keeps. -/
theorem State.directWrite_ready {s : State} {part d pa : Nat} {bs : List (BitVec 8)}
    (hw : ∀ x ∈ s.devWrites, x.part ≠ part) (hpa : (s.part part).direct d = some pa) (hm : s.memSt pa = .ready)
    (hk : ∀ n, n < bs.length → s.kept (pa + n) = false) :
    s.directWrite part d bs = (s.touch pa).memWrite pa bs := by
  have hfree : (s.touch pa).keepBytes pa bs = bs := State.keepBytes_free _ _ _ fun c h1 h2 => by
    rw [State.touch_kept, ← Nat.add_sub_cancel' h1]
    exact hk _ (by omega)
  simp [State.directWrite, State.devWrite, hpa, State.devHeld_of_ready hw hpa hm, State.devPerform, hm, State.locWrite, hfree]

/-- The device's own write in ready memory puts down every byte. -/
theorem State.ctlWrite_ready {s : State} {part d pa : Nat} {bs : List (BitVec 8)}
    (hw : ∀ x ∈ s.devWrites, x.part ≠ part) (hpa : (s.part part).direct d = some pa) (hm : s.memSt pa = .ready) :
    s.ctlWrite part d bs = (s.touch pa).memWrite pa bs := by
  simp [State.ctlWrite, State.devWrite, hpa, State.devHeld_of_ready hw hpa hm, State.devPerform, hm]

/-- Two states that differ at most in memory and in what the device's writes to it leave behind. -/
def State.AlikeButMem (s t : State) : Prop :=
  t = { s with mem := t.mem, tags := t.tags, rel := t.rel, dies := t.dies, devWrites := t.devWrites }

/-- A write of the device into direct space, made or held, changes nothing but memory and what waits for it. -/
theorem State.directWrite_alike (s : State) (part d : Nat) (bs : List (BitVec 8)) :
    s.AlikeButMem (s.directWrite part d bs) := by
  unfold State.AlikeButMem State.directWrite State.devWrite
  split
  · rfl
  · dsimp only
    split
    · rfl
    · unfold State.devPerform
      rw [State.touch_eq]
      dsimp only
      split <;> rfl

section Alike

variable {s t : State}

theorem State.AlikeButMem.refl (s : State) : s.AlikeButMem s := rfl

theorem State.AlikeButMem.clock (h : s.AlikeButMem t) : t.clock = s.clock := by rw [show t = _ from h]

theorem State.AlikeButMem.out (h : s.AlikeButMem t) : t.out = s.out := by rw [show t = _ from h]

theorem State.AlikeButMem.copies (h : s.AlikeButMem t) : t.copies = s.copies := by rw [show t = _ from h]

theorem State.AlikeButMem.weave (h : s.AlikeButMem t) (w : Nat) : t.weave w = s.weave w := by rw [show t = _ from h]; rfl

theorem State.AlikeButMem.env (h : s.AlikeButMem t) (w : Nat) : t.env w = s.env w := by rw [show t = _ from h]; rfl

theorem State.AlikeButMem.openOf (h : s.AlikeButMem t) (w g : Nat) : t.openOf w g = s.openOf w g := by
  rw [show t = _ from h]; rfl

end Alike

/-! ### Reads -/

/-- A number in memory that has not failed. -/
theorem State.directNum_of_ready {s : State} {part d pa : Nat} (n : Nat) (hpa : (s.part part).direct d = some pa)
    (hm : s.memSt pa = .ready) : s.directNum part d n = Memory.num s.mem pa n := by
  simp [State.directNum, hpa, hm]

/-- Bytes written one run after another. -/
theorem Memory.writes_append (m : Memory) (a : Nat) (l r : List (BitVec 8)) :
    Memory.writes m a (l ++ r) = Memory.writes (Memory.writes m a l) (a + l.length) r := by
  induction l generalizing m a with
  | nil => rfl
  | cons b l ih => simp only [List.cons_append, Memory.writes, ih, List.length_cons]; congr 1; omega

/-- A number that lies before what is written is not changed. -/
theorem Memory.num_writes_before (m : Memory) (a : Nat) (bs : List (BitVec 8)) (c n : Nat) (h : c + n ≤ a) :
    Memory.num (Memory.writes m a bs) c n = Memory.num m c n := by
  rw [Memory.num, Memory.reads_writes_other m a bs c n (.inl h), Memory.num]

/-! ### The ring (R138) -/

/-- The lowest slot of the ring whose STATE is 0. -/
def State.LowestFree (s : State) (part k : Nat) : Prop :=
  k < 64 ∧ s.slotState part k = 0 ∧ ∀ j, j < k → s.slotState part j ≠ 0

theorem State.freeSlot_of_lowest {s : State} {part k : Nat} (hring : (s.part part).direct 0x1000 ≠ none)
    (h : s.LowestFree part k) : s.freeSlot part = some k := by
  obtain ⟨hk, hzero, hlow⟩ := h
  have hlost : ((s.part part).direct (ringOff 0)).isNone = false := by
    simpa [ringOff, Option.isSome_iff_ne_none] using hring
  rw [State.freeSlot, hlost, if_neg Bool.false_ne_true, List.find?_range_eq_some]
  exact ⟨by simp [hzero], by simpa using hk, fun j hj => by simpa using hlow j hj⟩

theorem State.freeSlot_of_full {s : State} {part : Nat} (h : ∀ k, k < 64 → s.slotState part k ≠ 0) :
    s.freeSlot part = none := by
  unfold State.freeSlot
  split
  · rfl
  · simpa [List.find?_eq_none] using h

/-- The device has no write of the partition's waiting, and the ring lies in ready memory. -/
def State.RingCalm (s : State) (part : Nat) : Prop :=
  (∀ x ∈ s.devWrites, x.part ≠ part) ∧ ∀ q, (s.part part).direct 0x1000 = some q → s.memSt q = .ready

theorem State.RingCalm.not_held {s : State} {part : Nat} (h : s.RingCalm part) : s.devHeld part (ringOff 0) = false := by
  obtain ⟨hw, hm⟩ := h
  rw [Bool.eq_false_iff, ne_eq, State.devHeld_iff]
  rintro (⟨x, hx, hp⟩ | ⟨q, hq, hh⟩)
  · exact hw x hx hp
  · simp [hm q hq] at hh

theorem State.RingCalm.not_lost {s : State} {part : Nat} (h : s.RingCalm part) : s.ringLost part = false := by
  unfold State.ringLost
  split
  · next q hq => simp [h.2 q hq]
  · rfl

theorem State.RingCalm.atRing {s : State} {part : Nat} (h : s.RingCalm part) (f : State → State) :
    s.atRing part f = f s := by simp [State.atRing, h.not_held]

/-- While memory holds the ring, or an earlier write of the device, the service waits. -/
theorem State.atRing_of_waits {s : State} {part : Nat} (f : State → State)
    (h : (∃ x ∈ s.devWrites, x.part = part) ∨ ∃ q, (s.part part).direct 0x1000 = some q ∧ s.memSt q = .held) :
    s.atRing part f = s.devAwait part (ringOff 0) := by
  have hheld : s.devHeld part (ringOff 0) = true := (State.devHeld_iff s part _).mpr h
  simp [State.atRing, hheld]

/-- What memory holds once a fault's entry is written to a slot (R138 Table 7). -/
structure Flt.EntryAt (f : Flt) (m : Memory) (pa : Nat) : Prop where
  lva  : Memory.num m pa 8 = f.lva.toNat
  kind : Memory.num m (pa + 8) 1 = f.kind % 256
  path : Memory.num m (pa + 9) 1 = f.path.code
  src  : Memory.num m (pa + 10) 2 = f.src % 2 ^ 16
  core : Memory.num m (pa + 12) 4 = f.core % 2 ^ 32
  st   : Memory.num m (pa + 16) 4 = 1

theorem Flt.bytes_length (f : Flt) : f.bytes.length = 64 := by
  simp only [Flt.bytes, List.length_append, natToBytes_length]

/-- Each field of the entry is written once, and what follows it lies behind it. -/
theorem Flt.entryAt_writes (f : Flt) (m : Memory) (pa : Nat) : f.EntryAt (Memory.writes m pa f.bytes) pa := by
  have hpath : f.path.code < 4 := by cases f.path <;> decide
  simp only [Flt.bytes, Memory.writes_append, List.length_append, natToBytes_length]
  constructor <;> simp (disch := omega) only [Memory.num_writes_before, Memory.num_writes] <;> omega

/-! ### What becomes of a fault (R138, R139) -/

section Fates

variable {s u : State} {id : Nat} {f : Flt} {i : Instr}

/-- The state once a fault is over. -/
def State.dropFault (s : State) (id : Nat) : State := { s with faults := Tbl.del s.faults id }

/-- A step posts a fault of `s`, found anew in `u`: its entry goes to the lowest free slot, and VF vector 0 is raised. -/
def FaultPosts (s : State) (id : Nat) (f : Flt) (i : Instr) (u : State) : Prop :=
  ∀ k pa, u.RingCalm f.part → (u.part f.part).direct 0x1000 ≠ none → u.LowestFree f.part k →
    (u.part f.part).direct (0x1000 + 64 * k) = some pa → u.memSt pa = .ready → (∀ n, n < 64 → u.kept (pa + n) = false) →
    ∃ t, exec i s = .next t
      ∧ t = { u with faults := t.faults, mem := t.mem, tags := t.tags, rel := t.rel, dies := t.dies, out := t.out }
      ∧ Tbl.find t.faults id = some { f with st := .posted k, at_ := s.clock }
      ∧ t.out = s.out ++ [.msix (f.part + 1) 0]
      ∧ Memory.num t.mem pa 8 = f.lva.toNat ∧ Memory.num t.mem (pa + 8) 1 = f.kind % 256
      ∧ Memory.num t.mem (pa + 9) 1 = f.path.code ∧ Memory.num t.mem (pa + 10) 2 = f.src % 2 ^ 16
      ∧ Memory.num t.mem (pa + 12) 4 = f.core % 2 ^ 32 ∧ Memory.num t.mem (pa + 16) 4 = 1
      ∧ ∀ z, ¬ (pa ≤ z ∧ z < pa + 64) → Memory.get t.mem z = Memory.get u.mem z

/-- A step lets the access of a served fault go on: its group replays its instruction, its copy moves on. -/
def FaultServes (s : State) (id : Nat) (f : Flt) (i : Instr) (u : State) : Prop :=
  (∀ w g v, f.owner = .group w g → s.weave w = some v → ∃ t, exec i s = .next t
    ∧ t = { u.dropFault id with weaves := t.weaves } ∧ (∀ n, n ≠ w → t.weave n = s.weave n)
    ∧ t.weave w = some { v with groups := v.groups.map fun q =>
        if q.gid = g ∧ q.sleep = .fault id then { q with sleep := .awake } else q })
  ∧ ∀ n c, f.owner = .copy n → Tbl.find s.copies n = some c → c.fault = some id → ∃ t, exec i s = .next t
    ∧ t = { u.dropFault id with copies := t.copies } ∧ Tbl.find t.copies n = some { c with fault := none }
    ∧ ∀ m, m ≠ n → Tbl.find t.copies m = Tbl.find s.copies m

/-- The trap of a group whose access fails (R138, R254). -/
def Flt.trap (f : Flt) (ecc : Bool) : Trap :=
  { Trap.plain .pageFault (f.path.code + f.kind * 4 + if ecc then 16 else 0) with lane := f.lane }

/-- A step fails the access of a fault: its copy fails, its group traps PAGE_FAULT at its instruction. -/
def FaultFails (s : State) (id : Nat) (f : Flt) (i : Instr) (u : State) (ecc : Bool) : Prop :=
  (∀ n c, f.owner = .copy n → Tbl.find s.copies n = some c → c.fault = some id → ∃ t, exec i s = .next t
    ∧ t = { u.dropFault id with copies := t.copies }
    ∧ Tbl.find t.copies n = some { c with fault := none, err := some (f.kind, ecc) }
    ∧ ∀ m, m ≠ n → Tbl.find t.copies m = Tbl.find s.copies m)
  ∧ ∀ w g e q, f.owner = .group w g → s.env w = some e → e.w.group g = some q → q.sleep = .fault id →
    q.halted = false → s.openOf w g = none →
    let awake := (u.dropFault id).updWeave w fun v => v.updGroup g fun q => { q with sleep := .awake }
    (f.kind = 0 → awake.spawnLost w g = none) → exec i s = .next (awake.takeTrap w g q.pc 0 false (f.trap ecc))

/-- The entry of a fault goes to the lowest free slot, where ready memory holds it, with VF vector 0 (R138). -/
theorem State.postFault_of_free {k pa : Nat} (hw : ∀ x ∈ u.devWrites, x.part ≠ f.part)
    (hring : (u.part f.part).direct 0x1000 ≠ none) (hfree : u.LowestFree f.part k)
    (hpa : (u.part f.part).direct (ringOff k) = some pa) (hm : u.memSt pa = .ready)
    (hkept : ∀ n, n < 64 → u.kept (pa + n) = false) :
    ∃ t, u.postFault id f = t
      ∧ t = { u with faults := t.faults, mem := t.mem, tags := t.tags, rel := t.rel, dies := t.dies, out := t.out }
      ∧ t.faults = Tbl.put u.faults id { f with st := .posted k, at_ := u.clock }
      ∧ t.mem = Memory.writes u.mem pa f.bytes ∧ t.out = u.out ++ [.msix (f.part + 1) 0] := by
  rw [State.postFault, State.freeSlot_of_lowest hring hfree]
  dsimp only
  generalize Tbl.put u.faults id { f with st := .posted k, at_ := u.clock } = faults
  obtain ⟨posted, hposted⟩ : ∃ posted : State, posted = { u with faults } := ⟨_, rfl⟩
  rw [← hposted]
  have hwrite : posted.directWrite f.part (ringOff k) f.bytes = (posted.touch pa).memWrite pa f.bytes := by
    apply State.directWrite_ready
    · rw [hposted]; exact hw
    · rw [hposted]; exact hpa
    · rw [hposted]; exact hm
    · rw [hposted, Flt.bytes_length]; exact hkept
  refine ⟨_, rfl, ?_⟩
  rw [hwrite, State.touch_memWrite]
  generalize (posted.touch pa).dies = dies
  subst hposted
  simp only [State.emit, vfOf, and_self]

/-- Writing the entry posts the fault. -/
theorem FaultPosts.of_exec (halike : s.AlikeButMem u) (h : u.RingCalm f.part → exec i s = .next (u.postFault id f)) :
    FaultPosts s id f i u := by
  intro k pa hcalm hring hfree hpa hm hkept
  obtain ⟨t, hpost, hframe, hfaults, hmem, hout⟩ := State.postFault_of_free (id := id) hcalm.1 hring hfree hpa hm hkept
  obtain ⟨hlva, hkind, hpath, hsrc, hcore, hst⟩ := hmem ▸ f.entryAt_writes u.mem pa
  refine ⟨t, hpost ▸ h hcalm, hframe, ?_, ?_, hlva, hkind, hpath, hsrc, hcore, hst, fun z hz => ?_⟩
  · rw [hfaults, Tbl.find_put_self, halike.clock]
  · rw [hout, halike.out]
  · rw [hmem, Memory.get_writes_other _ _ _ _ (by rw [Flt.bytes_length]; omega)]

/-- The group of a served fault is awake again, with nothing else changed. -/
theorem Weave.updGroup_onFault (v : Weave) (g id : Nat) :
    v.updGroup g (fun q => if q.onFault id then { q with sleep := .awake } else q)
      = { v with groups := v.groups.map fun q =>
          if q.gid = g ∧ q.sleep = .fault id then { q with sleep := .awake } else q } := by
  have hgroup (q : Group) : (if q.gid == g then (if q.onFault id then { q with sleep := .awake } else q) else q)
      = if q.gid = g ∧ q.sleep = .fault id then { q with sleep := .awake } else q := by
    by_cases hg : q.gid = g <;> simp [hg, Group.onFault]
  simp only [Weave.updGroup, hgroup]

theorem State.served_group {w g : Nat} (h : f.owner = .group w g) :
    s.served id f = s.updWeave w fun v => v.updGroup g fun q => if q.onFault id then { q with sleep := .awake } else q := by
  simp only [State.served, h, State.groupServed]

theorem State.served_copy {n : Nat} (h : f.owner = .copy n) :
    s.served id f = s.updCopy n fun x => { x with fault := unfault id x.fault } := by
  simp only [State.served, h]

theorem State.failedFault_group {w g : Nat} {ecc : Bool} (h : f.owner = .group w g) :
    s.failedFault id f ecc = s.groupFailed id f w g ecc := by
  simp only [State.failedFault, h]

theorem State.failedFault_copy {n : Nat} {ecc : Bool} (h : f.owner = .copy n) : s.failedFault id f ecc
    = s.updCopy n fun x => if x.fault = some id then { x with fault := none, err := some (f.kind, ecc) } else x := by
  simp only [State.failedFault, h]

/-- Waking the group, or clearing the copy's fault, lets the access go on. -/
theorem FaultServes.of_exec (halike : s.AlikeButMem u) (h : exec i s = .next ((u.dropFault id).served id f)) :
    FaultServes s id f i u := by
  refine ⟨fun w g v howner hv => ?_, fun n c howner hc hfault => ?_⟩
  · rw [State.served_group howner] at h
    refine ⟨_, h, rfl, fun n hn => ?_, ?_⟩
    · rw [State.weave_updWeave, if_neg hn]
      exact halike.weave n
    · have hweave : (u.dropFault id).weave w = some v := (halike.weave w).trans hv
      rw [State.weave_updWeave, if_pos rfl, hweave, Option.map_some, Weave.updGroup_onFault]
  · rw [State.served_copy howner] at h
    have hcopies : (u.dropFault id).copies = s.copies := halike.copies
    refine ⟨_, h, rfl, ?_, fun m hm => ?_⟩
    · rw [State.updCopy_copies, hcopies, Tbl.find_upd_self, hc, Option.map_some, unfault, if_pos hfault]
    · rw [State.updCopy_copies, hcopies, Tbl.find_upd_other _ _ hm]

/-- A group that sleeps on a fault which fails traps at its instruction, unless the instruction is a SPAWN. -/
theorem State.groupFailed_traps {w g : Nat} {e : Env} {q : Group} {ecc : Bool} (he : s.env w = some e)
    (hq : e.w.group g = some q) (hsleep : q.sleep = .fault id) (hhalt : q.halted = false) (hopen : s.openOf w g = none)
    (hspawn : f.kind = 0 →
      (s.updWeave w fun v => v.updGroup g fun q => { q with sleep := .awake }).spawnLost w g = none) :
    s.groupFailed id f w g ecc
      = (s.updWeave w fun v => v.updGroup g fun q => { q with sleep := .awake }).takeTrap w g q.pc 0 false (f.trap ecc) := by
  have hon : q.onFault id = true := by simp [Group.onFault, hsleep]
  rw [State.groupFailed, he]
  dsimp only
  rw [hq]
  dsimp only
  rw [hon, hhalt]
  generalize hawake : (s.updWeave w fun v => v.updGroup g fun q => { q with sleep := .awake }) = awake at hspawn
  have hclose : awake.closeOpen w g = awake := by
    have : awake.openOf w g = none := by rw [← hawake]; exact hopen
    rw [State.closeOpen, this]
  have hlost : (if f.kind = 0 then awake.spawnLost w g else none) = none := by
    split
    · next hk => exact hspawn hk
    · rfl
  simp [hlost, hclose, Flt.trap]

/-- Marking the copy failed, or the trap of the group, fails the access. -/
theorem FaultFails.of_exec {ecc : Bool} (halike : s.AlikeButMem u)
    (h : exec i s = .next ((u.dropFault id).failedFault id f ecc)) : FaultFails s id f i u ecc := by
  refine ⟨fun n c howner hc hfault => ?_, fun w g e q howner he hq hsleep hhalt hopen => ?_⟩
  · rw [State.failedFault_copy howner] at h
    have hcopies : (u.dropFault id).copies = s.copies := halike.copies
    refine ⟨_, h, rfl, ?_, fun m hm => ?_⟩
    · rw [State.updCopy_copies, hcopies, Tbl.find_upd_self, hc, Option.map_some, if_pos hfault]
    · rw [State.updCopy_copies, hcopies, Tbl.find_upd_other _ _ hm]
  · intro awake hspawn
    rw [State.failedFault_group howner] at h
    have henv : (u.dropFault id).env w = some e := (halike.env w).trans he
    have hnone : (u.dropFault id).openOf w g = none := (halike.openOf w g).trans hopen
    rw [h, State.groupFailed_traps henv hq hsleep hhalt hnone hspawn]

/-! ### What the service finds when it walks again (R138) -/

/-- The tables translate the access of a fault, and no memory error stands in its way. -/
def State.WalksWell (s : State) (f : Flt) : Prop :=
  ∃ pa, s.walkTables f.part f.lva.toNat f.kind = .ok pa ∧ (f.kind = 1 ∨ s.eccBad pa = false)

section Walk

variable {retry : Bool} (halloc : f.alloc = false)

include halloc

theorem State.walkFault_held (h : s.walkTables f.part f.lva.toNat f.kind = .error .held) :
    s.walkFault f retry = .held := by
  simp [State.walkFault, halloc, h]

theorem State.walkFault_still (h : s.walkTables f.part f.lva.toNat f.kind = .error .resolvable) :
    s.walkFault f retry = .still := by
  simp [State.walkFault, halloc, h]

theorem State.walkFault_failed {ecc : Bool} (h : s.walkTables f.part f.lva.toNat f.kind = .error (.unresolvable ecc)) :
    s.walkFault f retry = .failed ecc := by
  simp [State.walkFault, halloc, h]

theorem State.walkFault_served (h : s.WalksWell f) : s.walkFault f retry = .served := by
  obtain ⟨pa, hwalk, hgood⟩ := h
  have hno : ¬ (f.kind ≠ 1 ∧ s.eccBad pa = true) := by rcases hgood with h | h <;> simp [h]
  rw [State.walkFault, halloc, if_neg Bool.false_ne_true, hwalk]
  exact if_neg hno

/-- Only memory that holds a table holds the walk. -/
theorem State.walkFault_not_held (h : s.walkTables f.part f.lva.toNat f.kind ≠ .error .held) :
    s.walkFault f retry ≠ .held := by
  match hwalk : s.walkTables f.part f.lva.toNat f.kind with
  | .error .held => exact absurd hwalk h
  | .error .resolvable => simp [State.walkFault_still halloc hwalk]
  | .error (.unresolvable ecc) => simp [State.walkFault_failed halloc hwalk]
  | .ok pa =>
    simp only [State.walkFault, halloc, hwalk, Bool.false_eq_true, if_false]
    split <;> simp

end Walk

/-! ### The events of the service -/

/-- What FAULT_POST does with a fault that it may take up. -/
theorem execFaultPost_waiting (hf : Tbl.find s.faults id = some f) (hst : f.st = .waiting) (hready : s.ready svcFlt = true)
    (hdone : s.belowDone f = true) : execFaultPost id s = .next (s.afterWalk id f (s.walkFault f false)) := by
  simp [execFaultPost, hf, hst, hready, hdone]

/-- The access of a fault fails once its slot is taken up, where software's STATE lets it be. -/
def State.failTaken (s : State) (id want : Nat) : State :=
  match s.slotTaken id want with
  | some (f, s) => (s.dropFault id).failedFault id f false
  | none => s

theorem execFaultFail_eq : execFaultFail id s = .next (s.onSlot id fun s => s.failTaken id 3) := rfl

theorem execFaultTimeout_eq : execFaultTimeout id s
    = .next (if (Tbl.find s.faults id).any fun f => s.clock < f.at_ + faultLimit then s
      else s.onSlot id fun s => s.failTaken id 1) := rfl

theorem execFaultTimeout_early (hf : Tbl.find s.faults id = some f) (hearly : s.clock < f.at_ + faultLimit) :
    execFaultTimeout id s = .next s := by
  have hdue : ((Tbl.find s.faults id).any fun f => s.clock < f.at_ + faultLimit) = true := by
    rw [hf, Option.any_some, decide_eq_true hearly]
  rw [execFaultTimeout_eq, hdue, if_pos rfl]

section Posted

variable {k : Nat} (hf : Tbl.find s.faults id = some f) (hst : f.st = .posted k)

include hf hst

/-- What follows on a posted fault is done at its partition's ring. -/
theorem State.onSlot_posted (F : State → State) : s.onSlot id F = s.atRing f.part F := by
  simp [State.onSlot, State.postedPart, hf, hst]

/-- Software's STATE is taken up, and returns to 0. -/
theorem State.slotTaken_posted {want : Nat} (hslot : s.slotState f.part k = 1 ∨ s.slotState f.part k = want) :
    s.slotTaken id want = some (f, s.setSlotState f.part k 0) := by
  simp only [State.slotTaken, hf, hst]
  rw [if_pos (hslot.imp_right .inl)]

/-- A STATE that asks for something else is left. -/
theorem State.slotTaken_other {want : Nat} (hcalm : s.RingCalm f.part) (hone : s.slotState f.part k ≠ 1)
    (hwant : s.slotState f.part k ≠ want) : s.slotTaken id want = none := by
  simp [State.slotTaken, hf, hst, hone, hwant, hcalm.not_lost]

/-- FAULT_RETRY walks again once the slot's STATE has returned to 0. -/
theorem execFaultRetry_posted (hcalm : s.RingCalm f.part) (hslot : s.slotState f.part k = 1 ∨ s.slotState f.part k = 2)
    (hwalk : s.walkFault f true ≠ .held) : execFaultRetry id s
      = .next ((s.setSlotState f.part k 0).afterWalk id f ((s.setSlotState f.part k 0).walkFault f true)) := by
  rw [execFaultRetry, State.onSlot_posted hf hst, hcalm.atRing, State.slotTaken_posted hf hst hslot]
  simp [hwalk]

/-- What FAULT_FAIL and FAULT_TIMEOUT do with a slot that stands at 1, or as software fails it. -/
theorem State.failTaken_posted {want : Nat} (hslot : s.slotState f.part k = 1 ∨ s.slotState f.part k = want) :
    s.failTaken id want = ((s.setSlotState f.part k 0).dropFault id).failedFault id f false := by
  rw [State.failTaken, State.slotTaken_posted hf hst hslot]

theorem State.failTaken_other {want : Nat} (hcalm : s.RingCalm f.part) (hone : s.slotState f.part k ≠ 1)
    (hwant : s.slotState f.part k ≠ want) : s.failTaken id want = s := by
  rw [State.failTaken, State.slotTaken_other hf hst hcalm hone hwant]

theorem execFaultFail_posted : execFaultFail id s = .next (s.atRing f.part fun s => s.failTaken id 3) := by
  rw [execFaultFail_eq, State.onSlot_posted hf hst]

/-- From 100 ms on FAULT_TIMEOUT acts at the ring. -/
theorem execFaultTimeout_late (hlate : f.at_ + faultLimit ≤ s.clock) :
    execFaultTimeout id s = .next (s.atRing f.part fun s => s.failTaken id 1) := by
  have hdue : ((Tbl.find s.faults id).any fun f => s.clock < f.at_ + faultLimit) = false := by
    rw [hf, Option.any_some, decide_eq_false (Nat.not_lt.mpr hlate)]
  rw [execFaultTimeout_eq, hdue, if_neg Bool.false_ne_true, State.onSlot_posted hf hst]

end Posted

/-- The service waits: the access wakes the die of the memory that holds the ring, and nothing else changes (R14, R21). -/
theorem exec_stays_of_waits {F : State → State}
    (hwaits : (∃ x ∈ s.devWrites, x.part = f.part) ∨ ∃ q, (s.part f.part).direct 0x1000 = some q ∧ s.memSt q = .held)
    (h : exec i s = .next (s.atRing f.part F)) : ∃ t, exec i s = .next t ∧ t = { s with dies := t.dies } :=
  ⟨_, h.trans (congrArg _ (State.atRing_of_waits F hwaits)), State.devAwait_eq s f.part _⟩

/-- What follows a walk that finds the access served, or failed for good, or one whose fault stays. -/
theorem State.afterWalk_served : s.afterWalk id f .served = (s.dropFault id).served id f := rfl

theorem State.afterWalk_failed (ecc : Bool) : s.afterWalk id f (.failed ecc) = (s.dropFault id).failedFault id f ecc := rfl

theorem State.afterWalk_still : s.afterWalk id f .still = s.atRing f.part fun s => s.postFault id f := rfl

/-- Without a free slot a fault goes on waiting. -/
theorem State.postFault_of_full (hf : Tbl.find s.faults id = some f) (hst : f.st = .waiting)
    (hfull : ∀ k, k < 64 → s.slotState f.part k ≠ 0) : ∃ t, s.postFault id f = t ∧ t = { s with faults := t.faults }
      ∧ ∀ n, Tbl.find t.faults n = Tbl.find s.faults n := by
  rw [State.postFault, State.freeSlot_of_full hfull]
  refine ⟨_, rfl, rfl, fun n => ?_⟩
  have hsame : { f with st := .waiting } = f := by rw [← hst]
  rw [Tbl.find_put, hsame]
  split
  · next hn => rw [hn, hf]
  · rfl

end Fates

/-! ### What the service does -/

section Service

variable {s : State} {id : Nat} {f : Flt} (hf : Tbl.find s.faults id = some f) (halloc : f.alloc = false)

include hf halloc

/-- FAULT_POST of a fault that waits, by what the walk finds. -/
theorem faultPost_waiting (hst : f.st = .waiting) (hready : s.ready svcFlt = true) (hdone : s.belowDone f = true) :
    (s.walkTables f.part f.lva.toNat f.kind = .error .resolvable → FaultPosts s id f (.faultPost id) s
      ∧ (exec (.faultPost id) s = .next (s.atRing f.part fun s => s.postFault id f)))
    ∧ (s.walkTables f.part f.lva.toNat f.kind = .error .held → exec (.faultPost id) s = .next s)
    ∧ (s.WalksWell f → FaultServes s id f (.faultPost id) s)
    ∧ ∀ ecc, s.walkTables f.part f.lva.toNat f.kind = .error (.unresolvable ecc) → FaultFails s id f (.faultPost id) s ecc := by
  have hexec : exec (.faultPost id) s = .next (s.afterWalk id f (s.walkFault f false)) :=
    (exec_faultPost id s).trans (execFaultPost_waiting hf hst hready hdone)
  refine ⟨fun hw => ?_, fun hw => ?_, fun hw => ?_, fun ecc hw => ?_⟩
  · rw [State.walkFault_still halloc hw, State.afterWalk_still] at hexec
    exact ⟨FaultPosts.of_exec (.refl s) fun hcalm => hexec.trans (congrArg _ (hcalm.atRing _)), hexec⟩
  · rw [hexec, State.walkFault_held halloc hw]; rfl
  · rw [State.walkFault_served halloc hw, State.afterWalk_served] at hexec
    exact FaultServes.of_exec (.refl s) hexec
  · rw [State.walkFault_failed halloc hw, State.afterWalk_failed] at hexec
    exact FaultFails.of_exec (.refl s) hexec

/-- FAULT_RETRY, once software has asked for it, by what the walk finds. -/
theorem faultRetry_posted {k : Nat} (hst : f.st = .posted k) (hcalm : s.RingCalm f.part)
    (hslot : s.slotState f.part k = 1 ∨ s.slotState f.part k = 2)
    (hheld : s.walkTables f.part f.lva.toNat f.kind ≠ .error .held) :
    let u := s.setSlotState f.part k 0
    (u.walkTables f.part f.lva.toNat f.kind = .error .resolvable → FaultPosts s id f (.faultRetry id) u)
    ∧ (u.WalksWell f → FaultServes s id f (.faultRetry id) u)
    ∧ ∀ ecc, u.walkTables f.part f.lva.toNat f.kind = .error (.unresolvable ecc) → FaultFails s id f (.faultRetry id) u ecc := by
  intro u
  have halike : s.AlikeButMem u := State.directWrite_alike s _ _ _
  have hexec : exec (.faultRetry id) s = .next (u.afterWalk id f (u.walkFault f true)) :=
    (exec_faultRetry id s).trans
      (execFaultRetry_posted hf hst hcalm hslot (State.walkFault_not_held halloc hheld))
  refine ⟨fun hw => ?_, fun hw => ?_, fun ecc hw => ?_⟩
  · rw [State.walkFault_still halloc hw, State.afterWalk_still] at hexec
    exact FaultPosts.of_exec halike fun hcalm' => hexec.trans (congrArg _ (hcalm'.atRing _))
  · rw [State.walkFault_served halloc hw, State.afterWalk_served] at hexec
    exact FaultServes.of_exec halike hexec
  · rw [State.walkFault_failed halloc hw, State.afterWalk_failed] at hexec
    exact FaultFails.of_exec halike hexec

omit halloc

/-- FAULT_FAIL, once software has asked for it. -/
theorem faultFail_posted {k : Nat} (hst : f.st = .posted k) (hcalm : s.RingCalm f.part)
    (hslot : s.slotState f.part k = 1 ∨ s.slotState f.part k = 3) :
    FaultFails s id f (.faultFail id) (s.setSlotState f.part k 0) false := by
  refine FaultFails.of_exec (State.directWrite_alike s _ _ _) ?_
  rw [exec_faultFail, execFaultFail_posted hf hst, hcalm.atRing, State.failTaken_posted hf hst hslot]

/-- FAULT_TIMEOUT from 100 ms on, where software has not answered. -/
theorem faultTimeout_unanswered {k : Nat} (hst : f.st = .posted k) (hcalm : s.RingCalm f.part)
    (hslot : s.slotState f.part k = 1) (hlate : f.at_ + faultLimit ≤ s.clock) :
    FaultFails s id f (.faultTimeout id) (s.setSlotState f.part k 0) false := by
  refine FaultFails.of_exec (State.directWrite_alike s _ _ _) ?_
  rw [exec_faultTimeout, execFaultTimeout_late hf hst hlate, hcalm.atRing, State.failTaken_posted hf hst (.inl hslot)]

/-- FAULT_TIMEOUT leaves a fault that software has answered. -/
theorem faultTimeout_answered {k : Nat} (hst : f.st = .posted k) (hcalm : s.RingCalm f.part)
    (hslot : s.slotState f.part k ≠ 1) : exec (.faultTimeout id) s = .next s := by
  rw [exec_faultTimeout]
  rcases Nat.lt_or_ge s.clock (f.at_ + faultLimit) with hearly | hlate
  · exact execFaultTimeout_early hf hearly
  · rw [execFaultTimeout_late hf hst hlate, hcalm.atRing, State.failTaken_other hf hst hcalm hslot hslot]

end Service

/-! ### Shootdowns (R137) -/

section Shootdown

variable {s : State} {part pa : Nat} {v : W64}

/-- Where the shootdown's word stands, memory lets the device reach it now. -/
def State.WordCalm (s : State) (part pa : Nat) : Prop := (∀ x ∈ s.devWrites, x.part ≠ part) ∧ s.memSt pa = .ready

theorem State.devHeld_of_waits {d : Nat} (hpa : (s.part part).direct d = some pa)
    (hwaits : (∃ x ∈ s.devWrites, x.part = part) ∨ s.memSt pa = .held) : s.devHeld part d = true :=
  (State.devHeld_iff s part d).mpr (hwaits.imp_right fun hm => ⟨pa, hpa, hm⟩)

/-- The state once SHOOTGO is written, and what it finds in the word. -/
theorem State.shootgo_written (hpa : (s.part part).direct 0x208 = some pa) (hcalm : s.WordCalm part pa)
    (hkept : ∀ n, n < 8 → s.kept (pa + n) = false) :
    ∃ u, s.directWrite part 0x208 (natToBytes 8 v.toNat) = u
      ∧ u = { s with mem := u.mem, tags := u.tags, rel := u.rel, dies := u.dies }
      ∧ u.mem = Memory.writes s.mem pa (natToBytes 8 v.toNat) ∧ w64 (u.directNum part 0x208 8) = v := by
  obtain ⟨hw, hm⟩ := hcalm
  have hwrite : s.directWrite part 0x208 (natToBytes 8 v.toNat) = (s.touch pa).memWrite pa (natToBytes 8 v.toNat) :=
    State.directWrite_ready hw hpa hm (by rwa [natToBytes_length])
  have hready : ((s.touch pa).memWrite pa (natToBytes 8 v.toNat)).memSt pa = .ready :=
    (State.touch_memSt s pa pa).trans hm
  have hframe := State.touch_memWrite s pa (natToBytes 8 v.toNat)
  refine ⟨_, hwrite, ?_, ?_, ?_⟩
  · rw [hframe]
  · rw [hframe]
  · rw [State.directNum_of_ready 8 (by rw [hframe]; exact hpa) hready]
    rw [hframe, Memory.num_writes, w64]
    apply BitVec.eq_of_toNat_eq
    rw [BitVec.toNat_ofNat]
    omega

/-- Bytes of the eight that stand at a place, after a number is written there, and elsewhere. -/
theorem Memory.writes_word (m : Memory) (pa x : Nat) (hx : x < 2 ^ 64) :
    Memory.num (Memory.writes m pa (natToBytes 8 x)) pa 8 = x
      ∧ ∀ z, ¬ (pa ≤ z ∧ z < pa + 8) → Memory.get (Memory.writes m pa (natToBytes 8 x)) z = Memory.get m z :=
  ⟨by rw [Memory.num_writes, Nat.mod_eq_of_lt (by omega)],
   fun z hz => Memory.get_writes_other _ _ _ _ (by rw [natToBytes_length]; omega)⟩

/-- A shootdown that starts: the entries of the page leave the TLBs, and what may have used them is waited for (R137). -/
def State.startShootdown (s : State) (part : Nat) (v : W64) : State :=
  let va := s.directNum part 0x200 8 % 2 ^ 55
  let code := Nat.min 9 (v.extractLsb' 0 4).toNat
  { s with
    tlb := s.tlb.filter fun e => !(e.hit part va code)
    shoots := Tbl.put s.shoots part {
      part := part, va := BitVec.ofNat 55 va, code := (v.extractLsb' 0 4).toNat
      wait := s.through part va code (s.tlb.filter fun e => e.hit part va code) } }

theorem execShootgoWrite_busy (h : Tbl.find s.shoots part ≠ none) : execShootgoWrite part v s = .next s := by
  simp [execShootgoWrite, Option.isSome_iff_ne_none.mpr h]

theorem execShootgoWrite_waits (hrun : (s.part part).tdi = .run) (hfree : Tbl.find s.shoots part = none)
    (hheld : s.devHeld part 0x208 = true) : execShootgoWrite part v s = .next (s.devAwait part 0x208) := by
  simp [execShootgoWrite, hrun, hfree, hheld]

theorem execShootgoWrite_calm {u : State} (hrun : (s.part part).tdi = .run) (hfree : Tbl.find s.shoots part = none)
    (hheld : s.devHeld part 0x208 = false) (hu : s.directWrite part 0x208 (natToBytes 8 v.toNat) = u)
    (hword : w64 (u.directNum part 0x208 8) = v) :
    execShootgoWrite part v s = .next (if v.getLsbD 63 then u.startShootdown part v else u) := by
  rw [execShootgoWrite, if_neg (by simp [hrun, hfree]), hheld, if_neg Bool.false_ne_true, hu]
  dsimp only
  rw [hword]
  cases v.getLsbD 63 <;> rfl

theorem execShootdownDone_pending {x : Shoot} (hx : Tbl.find s.shoots part = some x)
    (hpend : x.wait.any (s.pendingOp x) = true) : execShootdownDone part s = .next s := by
  simp only [execShootdownDone, hx, hpend, if_true]

theorem execShootdownDone_waits {x : Shoot} (hx : Tbl.find s.shoots part = some x)
    (hpend : x.wait.any (s.pendingOp x) = false) (hheld : s.devHeld part 0x208 = true) :
    execShootdownDone part s = .next (s.devAwait part 0x208) := by
  simp only [execShootdownDone, hx, hpend, hheld, Bool.false_eq_true, if_true, if_false]

theorem execShootdownDone_calm {x : Shoot} (hx : Tbl.find s.shoots part = some x)
    (hpend : x.wait.any (s.pendingOp x) = false) (hheld : s.devHeld part 0x208 = false) :
    execShootdownDone part s = .next (State.ctlWrite { s with shoots := Tbl.del s.shoots part } part 0x208
      (natToBytes 8 (s.directNum part 0x208 8 % 16))) := by
  simp only [execShootdownDone, hx, hpend, hheld, Bool.false_eq_true, if_false]

/-- SHOOTGO_WRITE where memory lets the word be written: the write, and the shootdown that bit 63 starts. -/
theorem shootgoWrite_calm (hrun : (s.part part).tdi = .run) (hfree : Tbl.find s.shoots part = none)
    (hpa : (s.part part).direct 0x208 = some pa) (hcalm : s.WordCalm part pa)
    (hkept : ∀ n, n < 8 → s.kept (pa + n) = false) : ∃ t, exec (.shootgoWrite part v) s = .next t
      ∧ t = { s with mem := t.mem, tags := t.tags, rel := t.rel, dies := t.dies, tlb := t.tlb, shoots := t.shoots }
      ∧ t.mem = Memory.writes s.mem pa (natToBytes 8 v.toNat)
      ∧ (v.getLsbD 63 = false → t.tlb = s.tlb ∧ t.shoots = s.shoots)
      ∧ (v.getLsbD 63 = true →
        let va := t.directNum part 0x200 8 % 2 ^ 55
        let hit (e : TlbEnt) : Bool := e.hit part va (Nat.min 9 (v.extractLsb' 0 4).toNat)
        (∀ e, e ∈ t.tlb ↔ e ∈ s.tlb ∧ hit e = false)
        ∧ ∃ x, Tbl.find t.shoots part = some x ∧ x.va.toNat = va ∧ x.code = (v.extractLsb' 0 4).toNat
          ∧ x.wait = s.through part va (Nat.min 9 (v.extractLsb' 0 4).toNat) (s.tlb.filter hit)) := by
  obtain ⟨u, hu, hframe, hmem, hword⟩ := State.shootgo_written (v := v) hpa hcalm hkept
  have hheld : s.devHeld part 0x208 = false := State.devHeld_of_ready hcalm.1 hpa hcalm.2
  have hexec : exec (.shootgoWrite part v) s = _ :=
    (exec_shootgoWrite part v s).trans (execShootgoWrite_calm hrun hfree hheld hu hword)
  have htlb : u.tlb = s.tlb := by rw [hframe]
  have hshoots : u.shoots = s.shoots := by rw [hframe]
  have hthrough (va code : Nat) (out : List TlbEnt) : u.through part va code out = s.through part va code out := by
    rw [hframe]; rfl
  have hset (tlb : List TlbEnt) (shoots : Tbl Shoot) : ({ u with tlb, shoots } : State)
      = { s with mem := u.mem, tags := u.tags, rel := u.rel, dies := u.dies, tlb, shoots } := by rw [hframe]
  cases hgo : v.getLsbD 63 with
  | false =>
    rw [hgo, if_neg Bool.false_ne_true] at hexec
    exact ⟨u, hexec, by rw [htlb, hshoots]; exact hframe, hmem, fun _ => ⟨htlb, hshoots⟩, nofun⟩
  | true =>
    rw [hgo, if_pos rfl] at hexec
    refine ⟨_, hexec, ?_, hmem, nofun, fun _ => ⟨fun e => ?_, _, Tbl.find_put_self _ _ _, ?_, rfl, ?_⟩⟩
    · exact hset _ _
    · rw [← htlb]
      exact List.mem_filter.trans (and_congr_right fun _ => by rw [Bool.not_eq_true']; rfl)
    · exact (BitVec.toNat_ofNat _ _).trans (Nat.mod_mod _ _)
    · rw [← htlb]
      exact hthrough _ _ _

/-- SHOOTDOWN_DONE where memory lets the word be written: bit 63 and the reserved bits are zero (R4, R137). -/
theorem shootdownDone_calm {x : Shoot} (hx : Tbl.find s.shoots part = some x)
    (hpend : x.wait.any (s.pendingOp x) = false) (hpa : (s.part part).direct 0x208 = some pa)
    (hcalm : s.WordCalm part pa) : ∃ t, exec (.shootdownDone part) s = .next t
      ∧ t = { s with mem := t.mem, tags := t.tags, rel := t.rel, dies := t.dies, shoots := t.shoots }
      ∧ Tbl.find t.shoots part = none ∧ t.mem = Memory.writes s.mem pa (natToBytes 8 (Memory.num s.mem pa 8 % 16)) := by
  have hheld : s.devHeld part 0x208 = false := State.devHeld_of_ready hcalm.1 hpa hcalm.2
  have hexec := (exec_shootdownDone part s).trans (execShootdownDone_calm hx hpend hheld)
  rw [State.directNum_of_ready 8 hpa hcalm.2] at hexec
  obtain ⟨u, hu⟩ : ∃ u : State, u = { s with shoots := Tbl.del s.shoots part } := ⟨_, rfl⟩
  rw [← hu] at hexec
  have hwrite (bs : List (BitVec 8)) : u.ctlWrite part 0x208 bs = (u.touch pa).memWrite pa bs := by
    apply State.ctlWrite_ready
    · rw [hu]; exact hcalm.1
    · rw [hu]; exact hpa
    · rw [hu]; exact hcalm.2
  refine ⟨_, hexec, ?_⟩
  rw [hwrite, State.touch_memWrite]
  generalize (u.touch pa).dies = dies
  subst hu
  simp only [Tbl.find_del, if_pos, and_self]

end Shootdown

/-! ### The obligation -/

/-- Settles O46: each event of the service is brought to what it makes of the fault (`FaultPosts`, `FaultServes`,
`FaultFails`), and each event of a shootdown to its write of the word. -/
theorem faultService : Obligations.FaultService := by
  refine ⟨fun s id f hf halloc => ?_, fun s part pa v hrun hpa => ?_⟩
  · intro walk good free calm waits stays posts gone served fails
    refine ⟨fun hst hready hdone => ?_, fun k hst => ?_⟩
    · obtain ⟨hstill, hheld, hserved, hfailed⟩ := faultPost_waiting hf halloc hst hready hdone
      refine ⟨fun hw => ?_, fun hw hcalm hfull => ?_, hheld, hserved, hfailed⟩
      · obtain ⟨hposts, hexec⟩ := hstill hw
        exact ⟨hposts, fun hwaits => exec_stays_of_waits hwaits hexec⟩
      · have hexec := (hstill hw).2.trans (congrArg _ (State.RingCalm.atRing hcalm _))
        obtain ⟨t, ht, hframe, hsame⟩ := State.postFault_of_full hf hst hfull
        exact ⟨t, hexec.trans (congrArg _ ht), hframe, hsame⟩
    · intro u st
      refine ⟨fun hwaits => ⟨?_, ?_, fun hlate => ?_⟩, fun hearly => ?_, fun hcalm => ⟨?_, ?_, ?_, ?_⟩⟩
      · exact exec_stays_of_waits hwaits ((exec_faultRetry id s).trans (congrArg _ (State.onSlot_posted hf hst _)))
      · exact exec_stays_of_waits hwaits ((exec_faultFail id s).trans (execFaultFail_posted hf hst))
      · exact exec_stays_of_waits hwaits ((exec_faultTimeout id s).trans (execFaultTimeout_late hf hst hlate))
      · exact (exec_faultTimeout id s).trans (execFaultTimeout_early hf hearly)
      · exact fun hslot hheld => faultRetry_posted hf halloc hst hcalm hslot hheld
      · exact fun hslot => faultFail_posted hf hst hcalm hslot
      · exact fun hslot hlate => faultTimeout_unanswered hf hst hcalm hslot hlate
      · exact fun hslot => faultTimeout_answered hf hst hcalm hslot
  · intro waits calm
    refine ⟨fun hbusy => ?_, fun hfree hwaits => ?_, fun hfree hcalm hkept => ?_, fun x hx => ⟨?_, ?_, ?_⟩⟩
    · exact (exec_shootgoWrite part v s).trans (execShootgoWrite_busy hbusy)
    · exact ⟨_, (exec_shootgoWrite part v s).trans
        (execShootgoWrite_waits hrun hfree (State.devHeld_of_waits hpa hwaits)), State.devAwait_eq s part _⟩
    · obtain ⟨t, hexec, hframe, hmem, hidle, hgo⟩ := shootgoWrite_calm (v := v) hrun hfree hpa hcalm hkept
      obtain ⟨hnum, hother⟩ := Memory.writes_word s.mem pa v.toNat v.isLt
      exact ⟨t, hexec, hframe, hmem ▸ hnum, hmem ▸ hother, hidle, hgo⟩
    · exact fun hpend => (exec_shootdownDone part s).trans (execShootdownDone_pending hx hpend)
    · exact fun hpend hwaits => ⟨_, (exec_shootdownDone part s).trans
        (execShootdownDone_waits hx hpend (State.devHeld_of_waits hpa hwaits)), State.devAwait_eq s part _⟩
    · intro hpend hcalm
      obtain ⟨t, hexec, hframe, hnone, hmem⟩ := shootdownDone_calm hx hpend hpa hcalm
      obtain ⟨hnum, hother⟩ := Memory.writes_word s.mem pa (Memory.num s.mem pa 8 % 16) (by omega)
      exact ⟨t, hexec, hframe, hnone, hmem ▸ hnum, hmem ▸ hother⟩

end Sys2Proof.Machine
end

section
/-! The state right after reset (R11, R22, R55, R58, R63, R65). -/

namespace Sys2Proof.Machine

open Sys2Proof

theorem State.reset_settled : State.reset.Settled := ⟨rfl, fun _ h => nomatch h⟩

/-- Settles O55: no queue and no partition is listed, so each has its reset values, and no weave is there to merge. -/
theorem resetValues : Obligations.ResetValues := by
  refine ⟨fun n => ?_, fun n => ?_, fun _ => rfl, rfl, rfl, rfl, rfl, rfl, rfl, State.reset_settled, State.reset_wf⟩
  · exact ⟨rfl, rfl, rfl, rfl, rfl, rfl, rfl, rfl, rfl⟩
  · exact ⟨rfl, rfl, rfl, rfl⟩

end Sys2Proof.Machine
end

section
/-! A scratchpad error where a weave has a group that sleeps with a trap and whose threads are not live (R255, R261). -/

namespace Sys2Proof.Machine

open Sys2Proof

/-- A launch of one cohort of one team of one thread, in scope 0. -/
def strayLaunch : LaunchRec where
  code := nullCap
  param := nullCap
  trap := nullCap
  dep := nullCap
  cohorts := 1
  stages := 1
  teams := 1
  threads := 1
  vregs := 0
  spadKib := 0
  accBlk := 0
  prio := 0
  scope := 0
  depVal := 0
  argPtr := 0
  flags := 0

/-- A software trap that its group has not taken yet. -/
def strayTrap : Trap where
  code := .software
  detail := 0
  lane := none
  hdr := false
  fnc := false
  resume := .same

/-- A group of thread 0 that waits for its weave's handler. -/
def strayGroup : Group where
  gid := 0
  lanes := 1
  pc := 0
  pos := .arrived
  run := { hdr := 0, slotA := none, slotB := none, count := 0, vl := [] }
  progress := 0
  sleep := .handler 0 0 false strayTrap
  halted := false
  skipped := 0
  port := false
  latch := none

/-- A weave without a live thread that still has the group of thread 0. -/
def strayWeave : Weave where
  team := 2
  idx := 0
  slot := 0
  age := 0
  live := 0
  s := []
  k := []
  cf := []
  v := []
  p := []
  wstat := 0
  trapinfo := 0
  frames := []
  loops := []
  marks := []
  errs := []
  groups := [strayGroup]
  killed := false
  dead := 0

def strayTeam : Team where
  cohort := 1
  num := 0
  core := 0
  place := 0
  spad := []
  spadTags := []
  stag := []
  acc := []
  cv := []
  deadline := 0
  unitcap := 0
  charged := 0
  charges := []
  killed := false
  ending := false
  ended := false

def strayCohort : Cohort where
  field := 0
  index := 0
  inst := 1
  cg := 0
  st := .resident
  placedAt := 0
  phases := []
  held := []
  lost := false

def strayField : Field where
  part := 0
  number := 0
  lr := strayLaunch
  src := .spawn
  scope := 0
  args := []
  seq := 0
  left := 1
  redone := []
  failed := false
  lastBy := none
  ended := false

/-- The module with that weave alone, under a scope that is being cancelled. It is a state of the model's type, not one that a
run is meant to reach: a group of it has a thread that is not live. -/
def strayState : State :=
  { State.reset with
    parts := [(0, { Partition.initial with scopes := [(0, { ScopeEnt.free with st := 2 })] })]
    fields := [(0, strayField)]
    cohorts := [(1, strayCohort)]
    teams := [(2, strayTeam)]
    weaves := [(3, strayWeave)] }

/-- The weave's end releases the handler to the group that waits for it, and its trap goes to LASTTRAP in place of
SCRATCH_ECC (R255). -/
theorem scratchEcc_stray_lasttrap :
    (match exec (.scratchEcc 2) strayState with
      | .next t => (t.weave 3).any fun w => (w.wstat.extractLsb' 8 8).toNat != 0x0E
      | _ => false) = true := by decide +kernel

/-- Refutes O47: the weave of `strayState` ends with the code of its group's trap in LASTTRAP. The statement takes every state,
also one whose groups hold threads that are not live; of the other states this says nothing. -/
theorem not_memoryErrors : ¬ Obligations.MemoryErrors := by
  unfold Obligations.MemoryErrors
  rintro ⟨-, h⟩
  obtain ⟨e, he⟩ : ∃ e, strayState.teamEnv 2 = some e := ⟨_, rfl⟩
  have hc : e.c = strayCohort := by rw [← Option.some.inj he]
  have hcid : e.cid = 1 := by rw [← Option.some.inj he]; rfl
  obtain ⟨t, -, -, hexec, -, -, -, hweaves, -⟩ :=
    h strayState 2 e he (by rw [hc]; rfl) (by rw [hc]; decide) (by rw [hc]; decide)
  have hstray := scratchEcc_stray_lasttrap
  simp only [hexec] at hstray
  obtain ⟨w', hw', hcode⟩ := (Option.any_eq_true _ _).1 hstray
  have hecc := (hweaves 3 strayWeave w' strayTeam rfl rfl hcid.symm hw').2
  simp [hecc] at hcode

end Sys2Proof.Machine
end

section
/-! Power states of the dies (R20–R24): the tolerance, the deepest state that it allows, and moves between states. -/

namespace Sys2Proof.Machine

open Sys2Proof

/-! ### The tolerance (R23) -/

/-- One partition's part in the tolerance of a die. -/
def tighten (die : Nat) (m : Option Nat) (e : Nat × Partition) : Option Nat :=
  if e.2.uses die then
    match m with
    | none => some e.2.ltol.toNat
    | some t => some (Nat.min t e.2.ltol.toNat)
  else m

theorem State.tolerance_eq (s : State) (die : Nat) : s.tolerance die = s.parts.foldl (tighten die) none := rfl

/-- A tolerance of at least `c` nanoseconds; none is unlimited. -/
def Tolerates (tol : Option Nat) (c : Nat) : Prop := ∀ t, tol = some t → c ≤ t

@[simp] theorem tolerates_none (c : Nat) : Tolerates none c := fun _ h => nomatch h

@[simp] theorem tolerates_some (t c : Nat) : Tolerates (some t) c ↔ c ≤ t := by simp [Tolerates]

theorem tolerates_tighten (die c : Nat) (m : Option Nat) (e : Nat × Partition) :
    Tolerates (tighten die m e) c ↔ Tolerates m c ∧ (e.2.uses die = true → c ≤ e.2.ltol.toNat) := by
  unfold tighten
  by_cases hu : e.2.uses die = true
  · cases m with
    | none => simp [hu]
    | some t => simp [hu]
  · simp [hu]

theorem tolerates_foldl (die c : Nat) (l : List (Nat × Partition)) (m : Option Nat) :
    Tolerates (l.foldl (tighten die) m) c
      ↔ Tolerates m c ∧ ∀ e ∈ l, e.2.uses die = true → c ≤ e.2.ltol.toNat := by
  induction l generalizing m with
  | nil => simp
  | cons e l ih => rw [List.foldl_cons, ih, tolerates_tighten, List.forall_mem_cons, and_assoc]

/-- The tolerance is the least LTOL of the partitions that use the die. -/
theorem State.tolerates_tolerance (s : State) (die c : Nat) :
    Tolerates (s.tolerance die) c ↔ ∀ e ∈ s.parts, e.2.uses die = true → c ≤ e.2.ltol.toNat := by
  rw [State.tolerance_eq, tolerates_foldl]
  simp

/-! ### The deepest state allowed -/

/-- `p` is the deepest state whose exit latency the partitions that use a die tolerate. -/
def State.Allows (s : State) (die : Nat) (p : Ps) : Prop :=
  (p = .ps3 ↔ ∀ e ∈ s.parts, e.2.uses die = true → 250000 ≤ e.2.ltol.toNat)
  ∧ (p = .ps3 ∨ p = .ps2 ↔ ∀ e ∈ s.parts, e.2.uses die = true → 20000 ≤ e.2.ltol.toNat)
  ∧ (p = .ps3 ∨ p = .ps2 ∨ p = .ps1 ↔ ∀ e ∈ s.parts, e.2.uses die = true → 1000 ≤ e.2.ltol.toNat)

theorem deepest_spec (tol : Option Nat) :
    (deepest tol = .ps3 ↔ Tolerates tol 250000)
    ∧ (deepest tol = .ps3 ∨ deepest tol = .ps2 ↔ Tolerates tol 20000)
    ∧ (deepest tol = .ps3 ∨ deepest tol = .ps2 ∨ deepest tol = .ps1 ↔ Tolerates tol 1000) := by
  cases tol with
  | none => simp [deepest]
  | some t =>
    simp only [tolerates_some, deepest]
    by_cases h3 : 250000 ≤ t
    · simp [h3]; omega
    by_cases h2 : 20000 ≤ t
    · simp [h3, h2]; omega
    by_cases h1 : 1000 ≤ t
    · simp [h3, h2, h1]
    · simp [h3, h2, h1]

theorem State.allows_deepest (s : State) (die : Nat) : s.Allows die (deepest (s.tolerance die)) := by
  obtain ⟨h3, h2, h1⟩ := deepest_spec (s.tolerance die)
  simp only [State.tolerates_tolerance] at h3 h2 h1
  exact ⟨h3, h2, h1⟩

/-- Only one state is the deepest. -/
theorem State.Allows.unique {s : State} {die : Nat} {p q : Ps} (hp : s.Allows die p) (hq : s.Allows die q) : p = q := by
  obtain ⟨p3, p2, p1⟩ := hp
  obtain ⟨q3, q2, q1⟩ := hq
  have h3 := p3.trans q3.symm
  have h2 := p2.trans q2.symm
  have h1 := p1.trans q1.symm
  cases p with
  | ps3 => exact (h3.1 rfl).symm
  | ps2 => exact ((h2.1 (.inr rfl)).resolve_left (mt h3.2 nofun)).symm
  | ps1 =>
    have hle := (h1.1 (.inr (.inr rfl))).resolve_left (mt h3.2 nofun)
    exact (hle.resolve_left fun h => absurd (h2.2 (.inr h)) (by simp)).symm
  | ps0 =>
    have hno : ¬ (q = .ps3 ∨ q = .ps2 ∨ q = .ps1) := mt h1.2 (by simp)
    cases q with
    | ps0 => rfl
    | ps1 | ps2 | ps3 => simp at hno

theorem State.Allows.eq_deepest {s : State} {die : Nat} {p : Ps} (hp : s.Allows die p) : p = deepest (s.tolerance die) :=
  hp.unique (s.allows_deepest die)

/-! ### Waking and retuning a die (R21, R24) -/

theorem State.wake_die_other {s : State} {d n : Nat} (h : n ≠ d) : (s.wake d).die n = s.die n := by
  unfold State.wake
  dsimp only
  split
  · rfl
  · rw [State.die_setDie, if_neg h]

/-- A die that sleeps and does not leave its state yet begins to leave it. -/
theorem State.wake_die {s : State} {d : Nat} (hps : (s.die d).ps ≠ .ps0) (hex : (s.die d).exiting = none) :
    (s.wake d).die d = { s.die d with exiting := some (s.clock + (s.die d).ps.exit) } := by
  unfold State.wake
  simp [hps, hex, State.die_setDie]

theorem State.retune_eq (s : State) (d : Nat) : s.retune d = { s with dies := (s.retune d).dies } := by
  unfold State.retune
  dsimp only
  split
  · rfl
  · split
    · exact State.wake_eq s d
    · rfl

theorem State.retune_die_other {s : State} {d n : Nat} (h : n ≠ d) : (s.retune d).die n = s.die n := by
  unfold State.retune
  dsimp only
  split
  · rfl
  · split
    · exact State.wake_die_other h
    · rw [State.die_setDie, if_neg h]

/-- What retuning makes of a die depends on that die, on the partitions and on CLOCK alone. -/
theorem State.retune_die_congr {s t : State} {d : Nat} (hp : t.parts = s.parts) (hc : t.clock = s.clock)
    (hd : t.die d = s.die d) : (t.retune d).die d = (s.retune d).die d := by
  have htol : t.tolerance d = s.tolerance d := by rw [State.tolerance_eq, State.tolerance_eq, hp]
  unfold State.retune State.wake
  dsimp only
  rw [htol, hd, hc]
  split
  · exact hd
  · split
    · split
      · exact hd
      · simp [State.die_setDie]
    · simp [State.die_setDie]

/-- Retuning several dies retunes each of them. -/
theorem State.foldl_retune (l : List Nat) (hl : l.Nodup) (s : State) :
    l.foldl State.retune s = { s with dies := (l.foldl State.retune s).dies }
    ∧ ∀ d, (l.foldl State.retune s).die d = if d ∈ l then (s.retune d).die d else s.die d := by
  induction l generalizing s with
  | nil => exact ⟨rfl, fun d => by simp⟩
  | cons a l ih =>
    obtain ⟨ha, hl⟩ := List.nodup_cons.1 hl
    obtain ⟨hframe, hdie⟩ := ih hl (s.retune a)
    have heq := State.retune_eq s a
    refine ⟨by rw [List.foldl_cons, hframe, heq], fun d => ?_⟩
    rw [List.foldl_cons, hdie]
    by_cases hda : d = a
    · subst hda
      simp [ha]
    · have hcongr : ((s.retune a).retune d).die d = (s.retune d).die d :=
        State.retune_die_congr (by rw [heq]) (by rw [heq]) (State.retune_die_other hda)
      simp [hda, hcongr, State.retune_die_other hda]

/-- The exit latency of a power state in cycles (R20). -/
def latency (p : Ps) : Nat := match p with
  | .ps0 => 0
  | .ps1 => Config.us
  | .ps2 => 20 * Config.us
  | .ps3 => 250 * Config.us

theorem Ps.exit_eq (p : Ps) : p.exit = latency p := by cases p <;> rfl

/-- A nanosecond is four cycles. -/
theorem latency_eq (p : Ps) : latency p = 4 * p.exitNs := by cases p <;> rfl

theorem Ps.exitNs_le_iff (p q : Ps) : p.exitNs ≤ q.exitNs ↔ latency p ≤ latency q := by
  rw [latency_eq, latency_eq]
  omega

/-- A die whose state is not too deep, or that is on its way to PS0 already, stays as it is. -/
theorem State.retune_of_le {s : State} {d : Nat}
    (h : latency (s.die d).ps ≤ latency (deepest (s.tolerance d)) ∨ (s.die d).exiting ≠ none) : s.retune d = s := by
  unfold State.retune
  dsimp only
  rw [if_pos]
  rwa [Ps.exitNs_le_iff, Option.isSome_iff_ne_none]

/-- A die whose state is too deep moves to the deepest one allowed, or leaves for PS0 (R24). -/
theorem State.retune_of_lt {s : State} {d : Nat} (hex : (s.die d).exiting = none)
    (h : latency (deepest (s.tolerance d)) < latency (s.die d).ps) :
    (s.retune d).die d = if deepest (s.tolerance d) = .ps0
      then { s.die d with exiting := some (s.clock + (s.die d).ps.exit) }
      else { s.die d with ps := deepest (s.tolerance d) } := by
  have hps : (s.die d).ps ≠ .ps0 := fun h0 => by
    rw [h0] at h
    exact Nat.not_lt_zero _ h
  unfold State.retune
  dsimp only
  rw [if_neg]
  · split
    · exact State.wake_die hps hex
    · rw [State.die_setDie, if_pos rfl]
  · rw [Ps.exitNs_le_iff, hex]
    simpa using h

/-! ### The obligation -/

theorem exec_powerStateEntry_enters {s : State} {d : Nat} (hd : d < 4) (hr : s.ready svcPwr = true)
    (hex : (s.die d).exiting = none) (hidle : s.idleDie d = true) :
    exec (.powerStateEntry d) s = .next (s.setDie d { s.die d with ps := deepest (s.tolerance d) }) := by
  simp [execPowerStateEntry, hr, hex, hidle, Nat.not_le.2 hd]

theorem exec_powerStateEntry_stays {s : State} {d : Nat}
    (h : s.ready svcPwr = false ∨ (s.die d).exiting ≠ none ∨ s.idleDie d = false) :
    exec (.powerStateEntry d) s = .next s := by
  rw [exec_powerStateEntry]
  unfold execPowerStateEntry
  rw [if_pos]
  rcases h with h | h | h
  · simp [h]
  · simp [Option.isSome_iff_ne_none, h]
  · simp [h]

theorem exec_wakeEvent_of_cause {s : State} {d : Nat} (hd : d < 4) (h : s.idleDie d = false ∨ s.accessTo d = true) :
    exec (.wakeEvent d) s = .next (s.wake d) := by
  simp [execWakeEvent, State.wakeCause, hd, h]

theorem exec_wakeEvent_stays {s : State} {d : Nat}
    (h : (s.die d).ps = .ps0 ∨ s.idleDie d = true ∧ s.accessTo d = false) : exec (.wakeEvent d) s = .next s := by
  rcases h with h | ⟨hi, ha⟩
  · simp [execWakeEvent, State.wake, h]
  · simp [execWakeEvent, State.wakeCause, hi, ha]

theorem State.setDie_die_other {s : State} {d n : Nat} {x : DieSt} (h : n ≠ d) : (s.setDie d x).die n = s.die n := by
  rw [State.die_setDie, if_neg h]

/-- What LTOL_WRITE makes of a die that is retuned by it. -/
theorem retuned_die {s : State} {d : Nat} :
    ((s.die d).exiting ≠ none → (s.retune d).die d = s.die d)
    ∧ ((s.die d).exiting = none → ∀ ok, s.Allows d ok →
      (latency (s.die d).ps ≤ latency ok → (s.retune d).die d = s.die d)
      ∧ (latency ok < latency (s.die d).ps →
        (ok ≠ .ps0 → ((s.retune d).die d).ps = ok ∧ ((s.retune d).die d).exiting = none)
        ∧ (ok = .ps0 → ((s.retune d).die d).ps = (s.die d).ps
          ∧ ((s.retune d).die d).exiting = some (s.clock + latency (s.die d).ps)))) := by
  refine ⟨fun h => by rw [State.retune_of_le (.inr h)], fun hex ok hok => ⟨fun hle => ?_, fun hlt => ?_⟩⟩
  · rw [State.retune_of_le (.inl (hok.eq_deepest ▸ hle))]
  · rw [hok.eq_deepest] at hlt ⊢
    rw [State.retune_of_lt hex hlt]
    refine ⟨fun h => ?_, fun h => ?_⟩
    · rw [if_neg h]
      exact ⟨rfl, hex⟩
    · rw [if_pos h, Ps.exit_eq]
      exact ⟨rfl, rfl⟩

/-- Settles O54: the tolerance decides the deepest state; entry, wake and exit each change one die, and LTOL_WRITE retunes
every die under the new tolerance. -/
theorem powerStates : Obligations.PowerStates := by
  intro s lat allowed
  refine ⟨fun d hd => ⟨fun hr hex hi => ?_, exec_powerStateEntry_stays, fun hps hex h => ?_, exec_wakeEvent_stays,
    fun hex => ?_⟩, fun p v hp => ?_⟩
  · refine ⟨_, exec_powerStateEntry_enters hd hr hex hi, rfl, ?_, ?_, fun n hn => State.setDie_die_other hn⟩
    · rw [State.die_setDie, if_pos rfl]
      exact s.allows_deepest d
    · rw [State.die_setDie, if_pos rfl]
      exact hex
  · refine ⟨_, exec_wakeEvent_of_cause hd h, State.wake_eq s d, State.wake_ps s d d, ?_, fun n hn => State.wake_die_other hn⟩
    rw [State.wake_die hps hex, Ps.exit_eq]
    rfl
  · refine ⟨s.setDie d DieSt.initial, by simp [execDieExitComplete, Option.isSome_iff_ne_none, hex], rfl, ?_, ?_,
      fun n hn => State.setDie_die_other hn⟩
    · rw [State.die_setDie, if_pos rfl]; rfl
    · rw [State.die_setDie, if_pos rfl]; rfl
  · let u := s.setPart p { s.part p with ltol := v }
    obtain ⟨hframe, hdie⟩ := State.foldl_retune [0, 1, 2, 3] (by decide) u
    let t := [0, 1, 2, 3].foldl State.retune u
    have ht : t.parts = u.parts := by rw [show t = _ from hframe]
    refine ⟨t, by simp [execLtolWrite, Nat.not_le.2 hp, t, u], ?_, ?_, fun q hq => ?_, fun d hd => ?_⟩
    · rw [show t = _ from hframe]; rfl
    · rw [State.part_congr ht, State.part_setPart, if_pos rfl]
    · rw [State.part_congr ht, State.part_setPart, if_neg hq]
    · have hmem : d ∈ [0, 1, 2, 3] := by simp; omega
      have htd : t.die d = (u.retune d).die d := by rw [show t.die d = _ from hdie d, if_pos hmem]
      have hallow (ok : Ps) (h : allowed t d ok) : u.Allows d ok := by
        simp only [allowed, ht] at h
        exact h
      rw [htd]
      obtain ⟨hstay, hmove⟩ := @retuned_die u d
      exact ⟨hstay, fun hex ok hok => hmove hex ok (hallow ok hok)⟩

end Sys2Proof.Machine
end

section
/-! Bring-up of the host die (R10–R19): the READY registers, module reset, links and recovery. -/

namespace Sys2Proof.Machine

open Sys2Proof

/-! ### The READY registers (R11) -/

theorem getLsbD_setBit64 (v : W64) (n : Nat) (b : Bool) {i : Nat} (hi : i < 64) :
    (setBit64 v n b).getLsbD i = if i = n then b else v.getLsbD i := by
  have hone : (1#64 <<< n).getLsbD i = decide (i = n) := by
    rw [BitVec.getLsbD_shiftLeft, BitVec.getLsbD_one]
    by_cases h : i = n
    · subst h; simp [hi]
    · simp only [h, decide_false]
      by_cases hlt : i < n
      · simp [hlt]
      · have : i - n ≠ 0 := by omega
        simp [this]
  cases b with
  | true =>
    simp only [setBit64, if_true, BitVec.getLsbD_or, hone]
    by_cases h : i = n <;> simp [h]
  | false =>
    simp only [setBit64, Bool.false_eq_true, if_false, BitVec.getLsbD_and, BitVec.getLsbD_not, hone, hi]
    by_cases h : i = n <;> simp [h]

/-- Setting a bit that is set changes nothing. -/
theorem setBit64_of_set {v : W64} {n : Nat} (h : v.getLsbD n = true) : setBit64 v n true = v := by
  refine BitVec.eq_of_getLsbD_eq fun i hi => ?_
  rw [getLsbD_setBit64 v n true hi]
  split
  · next hin => rw [hin, h]
  · rfl

/-- Setting one bit of a register adds it to those that are set. -/
theorem getLsbD_setBit64_true (v : W64) (n : Nat) {i : Nat} (hi : i < 64) :
    (setBit64 v n true).getLsbD i = (v.getLsbD i || i == n) := by
  rw [getLsbD_setBit64 v n true hi]
  by_cases h : i = n <;> simp [h]

theorem State.setReady_same {s : State} {bit : Nat} {b : Bool} (h : s.ready bit = b) : s.setReady bit b = s := if_pos h

/-- A change of a READY bit raises PF0 vector 0. -/
theorem State.setReady_change {s : State} {bit : Nat} {b : Bool} (h : s.ready bit ≠ b) :
    s.setReady bit b = { s with
      hd := { s.hd with readyStatus := setBit64 s.hd.readyStatus bit b
                        reported := if b then setBit64 s.hd.reported bit true else s.hd.reported }
      out := s.out ++ [.msix 0 0] } := if_neg h

/-- A limit belongs to a bit of the register. -/
theorem lt_of_readyLimit {bit l : Nat} (h : readyLimit bit = some l) : bit < 64 := by
  by_contra hge
  have hge : 64 ≤ bit := Nat.not_lt.1 hge
  simp [readyLimit, show ¬ bit < 4 by omega, show ¬ bit < 8 by omega, show ¬ bit < 12 by omega, show ¬ bit < 16 by omega,
    show ¬ bit < 20 by omega, show ¬ bit < 24 by omega, show ¬ bit < 32 by omega, show ¬ bit < 64 by omega] at h

/-! ### Functions that come up or fail (R15) -/

/-- Within its limit, and in recovery mode only where it is no service of the firmware, a function becomes ready. -/
theorem exec_functionReady_intime {s : State} {bit l : Nat} (hl : readyLimit bit = some l) (hf : s.failedBit bit = false)
    (hc : s.clock ≤ s.hd.resetAt + l) (hr : s.hd.recovery = true → bit < 12 ∨ 16 ≤ bit) :
    exec (.functionReady bit) s = .next (s.setReady bit true) := by
  have hserv : (s.hd.recovery && isService bit) = false := by
    cases hrec : s.hd.recovery with
    | false => rfl
    | true =>
      have := hr hrec
      simp only [isService, Bool.true_and, Bool.and_eq_false_iff, decide_eq_false_iff_not]
      omega
  simp [execFunctionReady, hl, hf, hserv, Nat.not_lt.2 hc]

theorem exec_functionReady_late {s : State} {bit l : Nat} (hl : readyLimit bit = some l)
    (hc : s.hd.resetAt + l < s.clock) : exec (.functionReady bit) s = .next s := by
  simp [execFunctionReady, hl, hc]

theorem exec_readyLimitExpiry_at {s : State} {bit l : Nat} (hl : readyLimit bit = some l)
    (hc : s.hd.resetAt + l ≤ s.clock) : exec (.readyLimitExpiry bit) s = .next (s.functionFails bit) := by
  simp [execReadyLimitExpiry, hl, Nat.not_lt.2 hc]

theorem exec_readyLimitExpiry_before {s : State} {bit l : Nat} (hl : readyLimit bit = some l)
    (hc : s.clock < s.hd.resetAt + l) : exec (.readyLimitExpiry bit) s = .next s := by
  simp [execReadyLimitExpiry, hl, hc]

theorem State.functionFails_reported {s : State} {bit : Nat} (h : s.reported bit = true) : s.functionFails bit = s := by
  simp [State.functionFails, h]

/-- Where no access waits, a failure shows in READY_FAIL and in PF0 vector 0 alone. -/
theorem State.functionFails_unheld {s : State} {bit l : Nat} (hl : readyLimit bit = some l) (hf : s.failedBit bit = false)
    (hr : s.reported bit = false) (hap : s.apOps = []) (hin : s.inbound = []) :
    s.functionFails bit = { s with
      hd := { s.hd with readyFail := setBit64 s.hd.readyFail bit true }, out := s.out ++ [.msix 0 0] } := by
  simp [State.functionFails, hl, hf, hr, State.serveAperture, State.serveInbound, State.emit, hap, hin, Tbl.keys]

/-! ### Links (R12) -/

theorem exec_linkStateChange_unreported {s : State} {bit : Nat} (up : Bool) (h : s.reported bit = false) :
    exec (.linkStateChange bit up) s = .next s := by
  simp [execLinkStateChange, h]

theorem exec_linkStateChange_port {s : State} {bit : Nat} (up : Bool) (h24 : 24 ≤ bit) (h64 : bit < 64)
    (h : s.reported bit = true) : exec (.linkStateChange bit up) s = .next (s.setReady bit up) := by
  simp [execLinkStateChange, h, Nat.not_lt.2 h24, Nat.not_le.2 h64]

/-! ### Recovery (R19) -/

theorem exec_recoveryGo_inRun {s : State} (v : W64) (h : ∃ e ∈ s.parts, e.2.tdi = .run) :
    exec (.recoveryGo v) s = .next s := by
  have hany : (s.parts.any fun e => e.2.tdi == .run) = true := by simpa using h
  simp [execRecoveryGo, hany]

theorem exec_recoveryGo_starts {s : State} {v : W64} (hv : v.getLsbD 0 = true) (hs : s.hd.recoveryStatus ≠ 1)
    (h : ∀ e ∈ s.parts, e.2.tdi ≠ .run) :
    exec (.recoveryGo v) s = .next { s with
      hd := { s.hd with recoveryStatus := 1, flash := [] }, out := s.out ++ [.msix 0 0] } := by
  have hany : (s.parts.any fun e => e.2.tdi == .run) = false := by simpa using h
  have hgo : ¬ (!v.getLsbD 0 || s.hd.recoveryStatus == 1 || (s.parts.any fun e => e.2.tdi == .run)) = true := by
    rw [hv, hany, beq_false_of_ne hs]
    decide
  rw [exec_recoveryGo, execRecoveryGo, if_neg hgo, State.setRecovery, if_neg hs]
  rfl

theorem exec_recoveryVerifyDone_good {s : State} (h : s.hd.recoveryStatus = 1) :
    exec (.recoveryVerifyDone true) s = .next (State.moduleReset { s with
      hd := { s.hd with recoveryStatus := 3, flash := s.hd.mailbox }, out := s.out ++ [.msix 0 0] } true) := by
  simp [execRecoveryVerifyDone, h, State.setRecovery, State.emit]

theorem exec_recoveryVerifyDone_bad {s : State} (h : s.hd.recoveryStatus = 1) :
    exec (.recoveryVerifyDone false) s = .next { s with
      hd := { s.hd with recoveryStatus := 2, recovery := true }, out := s.out ++ [.msix 0 0] } := by
  simp [execRecoveryVerifyDone, h, State.setRecovery, State.emit]

/-! ### The obligation -/

/-- Settles O53: each event of bring-up by the lemma that says what it does. -/
theorem bringUp : Obligations.BringUp := by
  intro s ms limit
  refine ⟨fun good => ?_, fun bit l hl hf => ?_, fun bit up => exec_linkStateChange_unreported up,
    fun bit up h24 h64 hrep => ⟨fun h => ?_, fun h => ?_⟩, fun v => ?_,
    fun v hv hs => ⟨exec_recoveryGo_inRun v, fun h => ?_⟩, fun h => ⟨?_, exec_recoveryVerifyDone_bad h⟩⟩
  · exact ⟨s.moduleReset good, rfl, rfl, rfl, rfl, rfl, rfl, rfl, rfl, fun p => ⟨rfl, rfl, rfl⟩, fun q => rfl, rfl, rfl, rfl⟩
  · have hlim : readyLimit bit = some l := hl
    have h64 : bit < 64 := lt_of_readyLimit hlim
    refine ⟨fun hc hr hnot => ?_, exec_functionReady_late hlim, fun hc _ => exec_readyLimitExpiry_at hlim hc,
      fun hr hap hin => ?_, fun h => ?_⟩
    · refine ⟨_, exec_functionReady_intime hlim hf hc hr, ?_⟩
      rw [State.setReady_change (by simp [hnot])]
      exact ⟨rfl, fun b hb => ⟨getLsbD_setBit64_true _ _ hb, getLsbD_setBit64_true _ _ hb⟩⟩
    · rw [State.functionFails_unheld hlim hf hr hap hin]
      exact ⟨rfl, fun b hb => getLsbD_setBit64_true _ _ hb⟩
    · rcases h with h | h
      · exact exec_readyLimitExpiry_before hlim h
      · rcases Nat.lt_or_ge s.clock (s.hd.resetAt + l) with hc | hc
        · exact exec_readyLimitExpiry_before hlim hc
        · rw [exec_readyLimitExpiry_at hlim hc, State.functionFails_reported h]
  · rw [exec_linkStateChange_port up h24 h64 hrep, State.setReady_same h]
  · have hkeep : (if up then setBit64 s.hd.reported bit true else s.hd.reported) = s.hd.reported := by
      split
      · exact setBit64_of_set hrep
      · rfl
    refine ⟨_, exec_linkStateChange_port up h24 h64 hrep, ?_⟩
    rw [State.setReady_change h, hkeep]
    exact ⟨rfl, hrep, fun b hb => getLsbD_setBit64 _ _ _ hb⟩
  · exact ⟨_, rfl, rfl, fun b _ => BitVec.getLsbD_or⟩
  · exact ⟨_, exec_recoveryGo_starts hv hs h, rfl, rfl⟩
  · exact ⟨_, exec_recoveryVerifyDone_good h, rfl, rfl, rfl, rfl, rfl, rfl⟩

end Sys2Proof.Machine
end

section
/-! Accesses of the device and of agents to local memory: what they depend on, and what they leave unchanged (R14,
R134–R138). -/

namespace Sys2Proof.Machine

open Sys2Proof

/-! ### Changes of memory alone -/

theorem State.AlikeButMem.trans {s t u : State} (h : s.AlikeButMem t) (h' : t.AlikeButMem u) : s.AlikeButMem u := by
  unfold State.AlikeButMem at h h' ⊢
  rw [h', h]

theorem State.AlikeButMem.parts {s t : State} (h : s.AlikeButMem t) : t.parts = s.parts := by rw [show t = _ from h]

theorem State.AlikeButMem.part {s t : State} (h : s.AlikeButMem t) (p : Nat) : t.part p = s.part p := State.part_congr h.parts p

theorem State.AlikeButMem.apOps {s t : State} (h : s.AlikeButMem t) : t.apOps = s.apOps := by rw [show t = _ from h]

theorem State.AlikeButMem.hd {s t : State} (h : s.AlikeButMem t) : t.hd = s.hd := by rw [show t = _ from h]

theorem State.AlikeButMem.pools {s t : State} (h : s.AlikeButMem t) : t.pools = s.pools := by rw [show t = _ from h]

/-- Steps that each change memory alone change it alone together. -/
theorem State.alikeButMem_foldl {α : Type} (f : State → α → State) (hf : ∀ (s : State) a, s.AlikeButMem (f s a))
    (l : List α) (s : State) : s.AlikeButMem (l.foldl f s) := by
  induction l generalizing s with
  | nil => exact .refl s
  | cons a l ih => exact (hf s a).trans (ih _)

theorem State.wake_alike (s : State) (d : Nat) : s.AlikeButMem (s.wake d) := by
  unfold State.AlikeButMem
  rw [State.wake_eq]

theorem State.touch_alike (s : State) (pa : Nat) : s.AlikeButMem (s.touch pa) := State.wake_alike s _

theorem State.locWrite_mem_alike (s : State) (pa : Nat) (bs : List (BitVec 8)) : s.AlikeButMem (s.locWrite (.mem pa) bs) := rfl

theorem State.recordRel_alike (s : State) (l : Loc) (n : Nat) (old r : Option Rel) : s.AlikeButMem (s.recordRel l n old r) := by
  unfold State.recordRel
  split <;> rfl

theorem State.devPerform_alike (s : State) (w : DevWrite) : s.AlikeButMem (s.devPerform w) := by
  unfold State.devPerform
  refine (s.touch_alike w.pa).trans ?_
  dsimp only
  split
  · exact .refl _
  · have hwrite : (s.touch w.pa).AlikeButMem
        (if w.own then (s.touch w.pa).memWrite w.pa w.data else (s.touch w.pa).locWrite (.mem w.pa) w.data) := by
      split <;> rfl
    refine hwrite.trans ?_
    cases w.rel with
    | none => exact .refl _
    | some sc => exact State.alikeButMem_foldl _ (fun s g => s.recordRel_alike _ _ _ _) _ _

theorem State.devWrite_alike (s : State) (p d : Nat) (bs : List (BitVec 8)) (own : Bool) (rel : Option Scope) :
    s.AlikeButMem (s.devWrite p d bs own rel) := by
  unfold State.devWrite
  split
  · exact .refl s
  · dsimp only
    split
    · rfl
    · exact s.devPerform_alike _

theorem State.ctlWrite_alike (s : State) (p d : Nat) (bs : List (BitVec 8)) : s.AlikeButMem (s.ctlWrite p d bs) :=
  s.devWrite_alike p d bs true none

/-- An entry of the fault record is numbered by its partition, and changes memory besides. -/
theorem State.record_alike (s : State) (p : Nat) (e : FaultEntry) :
    (s.setPart p { s.part p with faultSeq := (s.part p).faultSeq + 1 }).AlikeButMem (s.record p e) :=
  State.devWrite_alike _ _ _ _ _ _

/-! ### What a translation depends on -/

/-- Two states in which the tables of the partitions, and what memory answers, are the same. -/
structure State.SameWalk (s t : State) : Prop where
  parts : t.parts = s.parts
  tlb : t.tlb = s.tlb
  mem : t.mem = s.mem
  bad : t.bad = s.bad
  memSt : ∀ pa, t.memSt pa = s.memSt pa

theorem State.SameWalk.eccBad {s t : State} (h : s.SameWalk t) (pa : Nat) : t.eccBad pa = s.eccBad pa := by
  rw [State.eccBad, h.bad, h.memSt, State.eccBad]

theorem walkFrom_congr {s t : State} (h : s.SameWalk t) (p : Partition) (lva level table : Nat) :
    walkFrom t p lva level table = walkFrom s p lva level table := by
  induction level generalizing table with
  | zero =>
    rw [walkFrom.eq_1 t, walkFrom.eq_1 s]
    simp only [h.memSt, h.eccBad, h.mem]
  | succ l ih =>
    rw [walkFrom.eq_1 t, walkFrom.eq_1 s]
    simp only [h.memSt, h.eccBad, h.mem, ih]

theorem State.xlate_congr {s t : State} (h : s.SameWalk t) (die part lva kind : Nat) :
    t.xlate die part lva kind = s.xlate die part lva kind := by
  simp only [State.xlate, State.part_congr h.parts, h.tlb, walkFrom_congr h]

theorem State.kvPa_congr {s t : State} (h : s.SameWalk t) (die part lva kind : Nat) :
    t.kvPa die part lva kind = s.kvPa die part lva kind := by
  simp only [State.kvPa, State.xlate_congr h, h.memSt, h.eccBad]

/-! ### An access inside one granule -/

/-- A range inside one granule is one piece. -/
theorem chunksOf_granule {a n : Nat} (hn : 0 < n) (h : a / 64 = (a + n - 1) / 64) : chunksOf a n = [(a, n)] := by
  have hone : (a + n - 1) / 64 - a / 64 + 1 = 1 := by omega
  have hlo : Nat.max a (a / 64 * 64) = a := Nat.max_eq_left (by omega)
  have hhi : Nat.min (a + n) (a / 64 * 64 + 64) = a + n := Nat.min_eq_left (by omega)
  simp [chunksOf, granulesOf, Nat.pos_iff_ne_zero.1 hn, hone, hlo, hhi]

section KvPa

variable {s : State} {die part lva kind pa : Nat}

theorem State.kvPa_ready (hx : s.xlate die part lva kind = .ok pa) (hm : s.memSt pa = .ready)
    (he : kind = 0 → s.eccBad pa = false) : s.kvPa die part lva kind = .ok pa := by
  have hno : ¬ (kind = 0 ∧ s.eccBad pa = true) := fun h => by simp [he h.1] at h
  simp only [State.kvPa, hx, hm, reduceCtorEq, false_or, if_neg hno, if_false]

theorem State.kvPa_held (hx : s.xlate die part lva kind = .ok pa) (hm : s.memSt pa = .held)
    (he : kind = 0 → s.eccBad pa = false) : s.kvPa die part lva kind = .error .wait := by
  have hno : ¬ (kind = 0 ∧ s.eccBad pa = true) := fun h => by simp [he h.1] at h
  simp only [State.kvPa, hx, hm, reduceCtorEq, false_or, if_neg hno, if_true]

theorem State.kvPa_unresolvable {e : Bool} (hx : s.xlate die part lva kind = .error (.unresolvable e)) :
    s.kvPa die part lva kind = .error (.xl (.unresolvable e) lva kind) := by
  simp only [State.kvPa, hx]

theorem State.kvPa_resolvable (hx : s.xlate die part lva kind = .error .resolvable) :
    s.kvPa die part lva kind = .error (.xl .resolvable lva kind) := by
  simp only [State.kvPa, hx]

end KvPa

section Granule

variable {s : State} {die part lva n : Nat}

theorem State.ownRead_granule (hn : 0 < n) (h : lva / 64 = (lva + n - 1) / 64) :
    s.ownRead die part lva n = (s.kvPa die part lva 0).map fun pa => Memory.reads s.mem pa n := by
  rw [State.ownRead, chunksOf_granule hn h]
  cases hk : s.kvPa die part lva 0 <;> simp [List.foldlM, hk, Except.map, bind, Except.bind, pure, Except.pure]

theorem State.ownWrite_granule {bs : List (BitVec 8)} (hn : 0 < bs.length)
    (h : lva / 64 = (lva + bs.length - 1) / 64) :
    s.ownWrite die part lva bs = (s.kvPa die part lva 1).map fun pa => s.locWrite (.mem pa) bs := by
  rw [State.ownWrite, chunksOf_granule hn h]
  cases hk : s.kvPa die part lva 1 <;> simp [List.foldlM, hk, Except.map, bind, Except.bind, pure, Except.pure]

end Granule

/-! ### Bytes that no rule keeps -/

/-- A byte outside the control words of direct space is not read-only. -/
theorem State.kept_of_plainByte {s : State} {pa : Nat} (h : s.plainByte pa) : s.kept pa = false := by
  unfold State.kept
  rw [List.any_eq_false]
  intro e he
  cases hrun : e.2.tdi == .run with
  | false => simp
  | true =>
    cases hd : e.2.directOf pa with
    | none => simp
    | some d =>
      have h4 : 0x4000 ≤ d := h e he (by simpa using hrun) d hd
      simp [keptOffset, show ¬ d < 0x2000 by omega, show ¬ d < 0x4000 by omega]

/-- A write of plain bytes puts them all down. -/
theorem State.keepBytes_plain {s : State} {pa : Nat} {bs : List (BitVec 8)} (h : ∀ k, k < bs.length → s.plainByte (pa + k)) :
    s.keepBytes pa bs = bs :=
  State.keepBytes_free _ _ _ fun c h1 h2 => by
    rw [← Nat.add_sub_cancel' h1]
    exact State.kept_of_plainByte (h _ (by omega))

end Sys2Proof.Machine
end

section
/-! The host's accesses through an aperture, doorbells, and devices behind the root ports (R14, R58, R62, R64–R66). -/

namespace Sys2Proof.Machine

open Sys2Proof

/-! ### Dies that an access wakes -/

/-- Two states that differ at most in the power states of the dies. -/
def State.AlikeButDies (s t : State) : Prop := t = { s with dies := t.dies }

theorem State.AlikeButDies.trans {s t u : State} (h : s.AlikeButDies t) (h' : t.AlikeButDies u) : s.AlikeButDies u := by
  unfold State.AlikeButDies at h h' ⊢
  rw [h', h]

theorem State.alikeButDies_foldl {α : Type} (f : State → α → State) (hf : ∀ (s : State) a, s.AlikeButDies (f s a))
    (l : List α) (s : State) : s.AlikeButDies (l.foldl f s) := by
  induction l generalizing s with
  | nil => rfl
  | cons a l ih => exact (hf s a).trans (ih _)

theorem State.touchRange_alike (s : State) (o : ApOp) : s.AlikeButDies (s.touchRange o) := by
  refine State.alikeButDies_foldl _ (fun s c => ?_) _ s
  split
  · exact State.touch_eq s _
  · rfl

/-! ### One access that waits alone -/

/-- How R138 numbers an access of the host. -/
def ApOp.kind (o : ApOp) : Nat := if o.write then 1 else 0

/-- An access inside one granule, no doorbell and under no fault, that waits alone. -/
structure State.LoneAccess (s : State) (id : Nat) (o : ApOp) : Prop where
  only : s.apOps = [(id, o)]
  fault : o.fault = none
  bell : o.bell = none
  pos : 0 < o.len
  granule : o.lva.toNat / 64 = (o.lva.toNat + o.len - 1) / 64

theorem State.apBehind_lone {s : State} {id : Nat} {o : ApOp} (h : s.apOps = [(id, o)]) (p : Nat) :
    s.apBehind id p = false := by
  simp [State.apBehind, someT, h]

theorem Tbl.find_singleton {α : Type} (id : Nat) (x : α) : Tbl.find [(id, x)] id = some x := by simp [Tbl.find]

theorem Tbl.del_singleton {α : Type} (id : Nat) (x : α) : Tbl.del [(id, x)] id = [] := by simp [Tbl.del]

section Lone

variable {s : State} {id : Nat} {o : ApOp} {pa : Nat}

theorem State.LoneAccess.apFailed (h : s.LoneAccess id o) : s.apFailed o =
    match s.xlate 0 o.part o.lva.toNat o.kind with
    | .ok pa => if s.memSt pa = .failed then some o.lva.toNat else none
    | .error _ => none := by
  rw [State.apFailed, chunksOf_granule h.pos h.granule, List.find?_singleton]
  dsimp only
  rw [Nat.mod_eq_of_lt o.lva.isLt, ← ApOp.kind]
  cases s.xlate 0 o.part o.lva.toNat o.kind with
  | error e => rfl
  | ok pa =>
    dsimp only
    by_cases hf : s.memSt pa = .failed <;> simp [hf]

/-- An access that waits alone is tried: in failed memory it aborts, else its read or write stands or stops. -/
theorem State.LoneAccess.tryAp (h : s.LoneAccess id o) : s.tryAp id =
    let gone : State := { s with apOps := [] }
    match s.apFailed o with
    | some lva => s.apAbort id o lva
    | none =>
      if o.write then
        match gone.ownWrite 0 o.part o.lva.toNat o.data with
        | .ok s' => (s'.touchRange o).emit (.apDone o.part)
        | .error e => s.apStopped id o e
      else
        match gone.ownRead 0 o.part o.lva.toNat o.len with
        | .ok bs => (gone.touchRange o).emit (.apData o.part bs)
        | .error e => s.apStopped id o e := by
  have hfind : Tbl.find s.apOps id = some o := by rw [h.only, Tbl.find_singleton]
  have hdel : Tbl.del s.apOps id = [] := by rw [h.only, Tbl.del_singleton]
  simp only [State.tryAp, hfind, h.fault, h.bell, State.apBehind_lone h.only, hdel, Option.isSome_none, Bool.or_self,
    Bool.false_eq_true, if_false]
  cases s.apFailed o <;> rfl

theorem State.sameWalk_gone (s : State) (l : Tbl ApOp) : s.SameWalk { s with apOps := l } := ⟨rfl, rfl, rfl, rfl, fun _ => rfl⟩

/-- A read in ready memory gives the bytes that are there. -/
theorem State.LoneAccess.tryAp_read (h : s.LoneAccess id o) (hw : o.write = false)
    (hx : s.xlate 0 o.part o.lva.toNat 0 = .ok pa) (hm : s.memSt pa = .ready) (he : s.eccBad pa = false) :
    s.tryAp id = { s with
      apOps := [], dies := (s.tryAp id).dies, out := s.out ++ [.apData o.part (Memory.reads s.mem pa o.len)] } := by
  have hkind : o.kind = 0 := by simp [ApOp.kind, hw]
  have hread : State.ownRead { s with apOps := [] } 0 o.part o.lva.toNat o.len = .ok (Memory.reads s.mem pa o.len) := by
    rw [State.ownRead_granule h.pos h.granule, State.kvPa_congr (s.sameWalk_gone []),
      State.kvPa_ready hx hm fun _ => he]
    rfl
  have hrun := h.tryAp
  simp only [h.apFailed, hkind, hx, hm, hw, hread, reduceCtorEq, if_false, Bool.false_eq_true] at hrun
  rw [hrun, show State.touchRange _ o = _ from State.touchRange_alike _ o]
  rfl

/-- A write of plain bytes in ready memory puts them down. -/
theorem State.LoneAccess.tryAp_write (h : s.LoneAccess id o) (hw : o.write = true) (hlen : o.data.length = o.len)
    (hx : s.xlate 0 o.part o.lva.toNat 1 = .ok pa) (hm : s.memSt pa = .ready)
    (hplain : ∀ k, k < o.len → s.plainByte (pa + k)) :
    s.tryAp id = { State.memWrite { s with apOps := [] } pa o.data with
      dies := (s.tryAp id).dies, out := s.out ++ [.apDone o.part] } := by
  have hkind : o.kind = 1 := by simp [ApOp.kind, hw]
  have hwrite : State.ownWrite { s with apOps := [] } 0 o.part o.lva.toNat o.data
      = .ok (State.memWrite { s with apOps := [] } pa o.data) := by
    rw [State.ownWrite_granule (hlen ▸ h.pos) (hlen ▸ h.granule), State.kvPa_congr (s.sameWalk_gone []),
      State.kvPa_ready hx hm (by simp)]
    simp only [Except.map, State.locWrite]
    rw [State.keepBytes_plain (hlen ▸ hplain)]
  have hrun := h.tryAp
  simp only [h.apFailed, hkind, hx, hm, hw, hwrite, reduceCtorEq, if_false, if_true] at hrun
  rw [hrun, show State.touchRange _ o = _ from State.touchRange_alike _ o]
  rfl

/-- An access that memory holds waits on. -/
theorem State.LoneAccess.tryAp_held (h : s.LoneAccess id o) (hlen : o.write = true → o.data.length = o.len)
    (hx : s.xlate 0 o.part o.lva.toNat o.kind = .ok pa) (hm : s.memSt pa = .held)
    (he : o.write = false → s.eccBad pa = false) : s.tryAp id = s := by
  have hrun := h.tryAp
  simp only [h.apFailed, hx, hm, reduceCtorEq, if_false] at hrun
  rw [hrun]
  cases hw : o.write with
  | false =>
    have hkind : o.kind = 0 := by simp [ApOp.kind, hw]
    rw [State.ownRead_granule h.pos h.granule, State.kvPa_congr (s.sameWalk_gone []),
      State.kvPa_held (hkind ▸ hx) hm fun _ => he hw]
    rfl
  | true =>
    have hkind : o.kind = 1 := by simp [ApOp.kind, hw]
    have hl := hlen hw
    rw [State.ownWrite_granule (hl ▸ h.pos) (hl ▸ h.granule), State.kvPa_congr (s.sameWalk_gone []),
      State.kvPa_held (hkind ▸ hx) hm (by simp)]
    rfl

theorem State.LoneAccess.tryAp_failed (h : s.LoneAccess id o) (hx : s.xlate 0 o.part o.lva.toNat o.kind = .ok pa)
    (hm : s.memSt pa = .failed) : s.tryAp id = s.apAbort id o o.lva.toNat := by
  have hrun := h.tryAp
  simp only [h.apFailed, hx, hm, if_true] at hrun
  exact hrun

/-- An access whose translation fails stops with that error. -/
theorem State.LoneAccess.tryAp_error {e : XErr} (h : s.LoneAccess id o) (hlen : o.write = true → o.data.length = o.len)
    (hx : s.xlate 0 o.part o.lva.toNat o.kind = .error e) (hne : e ≠ .held) :
    s.tryAp id = s.apStopped id o (.xl e o.lva.toNat o.kind) := by
  have hkv : s.kvPa 0 o.part o.lva.toNat o.kind = .error (.xl e o.lva.toNat o.kind) := by
    cases e with
    | held => exact absurd rfl hne
    | resolvable => exact State.kvPa_resolvable hx
    | unresolvable b => exact State.kvPa_unresolvable hx
  have hrun := h.tryAp
  simp only [h.apFailed, hx] at hrun
  rw [hrun]
  cases hw : o.write with
  | false =>
    have hkind : o.kind = 0 := by simp [ApOp.kind, hw]
    rw [hkind] at hkv
    rw [State.ownRead_granule h.pos h.granule, State.kvPa_congr (s.sameWalk_gone []), hkv, hkind]
    rfl
  | true =>
    have hkind : o.kind = 1 := by simp [ApOp.kind, hw]
    have hl := hlen hw
    rw [hkind] at hkv
    rw [State.ownWrite_granule (hl ▸ h.pos) (hl ▸ h.granule), State.kvPa_congr (s.sameWalk_gone []), hkv, hkind]
    rfl

/-- An access that ends with completer abort has an entry in its partition's fault record, and is gone. -/
theorem State.LoneAccess.apAbort (h : s.LoneAccess id o) (lva : Nat) :
    (s.apAbort id o lva).out = s.out ++ [.completerAbort o.part] ∧ (s.apAbort id o lva).apOps = []
    ∧ ((s.apAbort id o lva).part o.part).faultSeq = (s.part o.part).faultSeq + 1 := by
  have halike := State.record_alike (State.emit { s with apOps := Tbl.del s.apOps id } (.completerAbort o.part)) o.part
    { FaultEntry.blank with kind := 4, addr := w64 (lva % 2 ^ 55) }
  refine ⟨halike.out, ?_, ?_⟩
  · refine halike.apOps.trans ?_
    change Tbl.del s.apOps id = []
    rw [h.only, Tbl.del_singleton]
  · refine (congrArg Partition.faultSeq (halike.part o.part)).trans ?_
    rw [State.part_setPart, if_pos rfl]
    rfl

end Lone

/-! ### Accesses through an aperture (R64, R66, R58) -/

theorem State.vfPart_inRange {s : State} {vf : Nat} (hrec : s.hd.recovery = false) (h1 : 1 ≤ vf) (h16 : vf ≤ 16) :
    s.vfPart vf = some (vf - 1) := by simp [State.vfPart, partOf, hrec, h1, h16]

theorem State.vfPart_none {s : State} {vf : Nat} (h : s.hd.recovery = true ∨ vf = 0 ∨ 16 < vf) : s.vfPart vf = none := by
  rcases h with h | h | h
  · simp [State.vfPart, h]
  · simp [State.vfPart, partOf, h]
  · simp [State.vfPart, partOf, Nat.not_le.2 h]

/-- The access of the host that an aperture access in RUN makes. -/
def hostAccess (p a : Nat) (write : Bool) (len : Nat) (data : List (BitVec 8)) : ApOp where
  part := p
  lva := BitVec.ofNat 55 a
  write := write
  len := if write then data.length else len
  data := data
  bell := none
  fault := none

/-- The state in which an access of the host is first tried. -/
def State.withAccess (s : State) (o : ApOp) : State := { s with nextId := s.nextId + 1, apOps := [(s.nextId, o)] }

theorem State.sameWalk_withAccess (s : State) (o : ApOp) : s.SameWalk (s.withAccess o) := ⟨rfl, rfl, rfl, rfl, fun _ => rfl⟩

theorem exec_apertureAccess_run {s : State} {vf : Nat} {off : BitVec 32} {write : Bool} {len : Nat} {data : List (BitVec 8)}
    (hvf : s.vfPart vf = some (vf - 1)) (hrun : (s.part (vf - 1)).tdi = .run) (hap : s.apOps = [])
    (hn : 0 < if write then data.length else len) (hoff : off.toNat + (if write then data.length else len) ≤ 2 ^ 32) :
    exec (.apertureAccess vf off write len data) s = .next
      ((s.withAccess (hostAccess (vf - 1) ((s.part (vf - 1)).apbase.toNat + off.toNat) write len data)).tryAp s.nextId) := by
  have hno : ¬ ((if write then data.length else len) = 0 ∨ off.toNat + (if write then data.length else len) > 2 ^ 32) := by
    omega
  simp only [exec_apertureAccess, execApertureAccess, hvf, hrun, if_neg hno, State.fresh, hap]
  rfl

/-- An access of the host inside one granule, with nothing else waiting. -/
theorem loneAccess_hostAccess (s : State) {p a len : Nat} {write : Bool} {data : List (BitVec 8)}
    (hn : 0 < if write then data.length else len) (ha : a < 2 ^ 55)
    (hg : a / 64 = (a + (if write then data.length else len) - 1) / 64) :
    (s.withAccess (hostAccess p a write len data)).LoneAccess s.nextId (hostAccess p a write len data) where
  only := rfl
  fault := rfl
  bell := rfl
  pos := hn
  granule := by
    simp only [hostAccess, BitVec.toNat_ofNat, Nat.mod_eq_of_lt ha]
    exact hg

section Run

variable {s : State} {p a len : Nat} {write : Bool} {data : List (BitVec 8)}

theorem hostAccess_lva (ha : a < 2 ^ 55) : (hostAccess p a write len data).lva.toNat = a := by
  simp only [hostAccess, BitVec.toNat_ofNat, Nat.mod_eq_of_lt ha]

theorem xlate_hostAccess (ha : a < 2 ^ 55) :
    (s.withAccess (hostAccess p a write len data)).xlate 0 (hostAccess p a write len data).part
      (hostAccess p a write len data).lva.toNat (hostAccess p a write len data).kind
    = s.xlate 0 p a (if write then 1 else 0) := by
  rw [hostAccess_lva ha, State.xlate_congr (s.sameWalk_withAccess _)]
  rfl

/-- A write's data make up its length. -/
theorem hostAccess_data (h : (hostAccess p a write len data).write = true) :
    (hostAccess p a write len data).data.length = (hostAccess p a write len data).len := by
  have hw : write = true := h
  simp [hostAccess, hw]

end Run

/-! ### Doorbells (R65, R66) -/

/-- Outside RUN, or for no queue, a doorbell is dropped. -/
theorem State.ring_dropped {s : State} {p index : Nat} (tail : W32)
    (h : (s.part p).tdi ≠ .run ∨ s.queueAt p index = none) :
    s.ring p index tail =
      if (s.part p).tdi = .error then (s.emit (.dropped p index)).emit (.completerAbort p) else s.emit (.dropped p index) := by
  have hnone : (if (s.part p).tdi = .run then s.queueAt p index else none) = none := by
    rcases h with h | h
    · exact if_neg h
    · split
      · exact h
      · rfl
  simp only [State.ring, hnone]
  rfl

/-- A queue's tail is checked and recorded. -/
theorem State.ring_queue {s : State} {p index q : Nat} (tail : W32) (hrun : (s.part p).tdi = .run)
    (hq : s.queueAt p index = some q) :
    s.ring p index tail =
      if (s.queue q).qerr ≠ 0 then s
      else if 2 ^ (s.queue q).log2n.toNat < (tail - (s.queue q).head).toNat then s.queueError q 1
      else if (tail - (s.queue q).head).toNat < ((s.queue q).tail - (s.queue q).head).toNat then s.queueError q 2
      else s.setQueue q { s.queue q with tail := tail } := by
  simp only [State.ring, if_pos hrun, hq, gt_iff_lt]

/-- A queue that halts raises its vector; every other queue is as before. -/
theorem State.queueError_spec (s : State) (q : Nat) (code : BitVec 8) :
    let t := s.queueError q code
    t = { s with queues := t.queues, out := t.out } ∧ t.queue q = { s.queue q with qerr := code }
    ∧ (∀ n, n ≠ q → t.queue n = s.queue n)
    ∧ t.out = s.out ++ [.msix ((s.queue q).part.toNat + 1) (s.queue q).msix.toNat] := by
  refine ⟨rfl, ?_, fun n hn => ?_, rfl⟩
  · exact (s.queue_setQueue q _ q).trans (if_pos rfl)
  · exact (s.queue_setQueue q _ n).trans (if_neg hn)

/-- A doorbell records the tail, halts the queue, or is dropped. -/
theorem State.ring_rung (s : State) (p index : Nat) (tail : W32) : s.Rung (s.ring p index tail) p index tail := by
  refine ⟨fun h => ?_, fun q hrun hq => ?_⟩
  · rw [State.ring_dropped tail h]
    split
    · simp [State.emit]
    · rfl
  · rw [State.ring_queue tail hrun hq]
    refine ⟨fun he => if_pos he, fun he hlong => ?_, fun he hshort hback => ?_, fun he hshort hfwd => ?_⟩
    · rw [if_neg (not_not.2 he), if_pos hlong]
      exact s.queueError_spec q 1
    · rw [if_neg (not_not.2 he), if_neg (Nat.not_lt.2 hshort), if_pos hback]
      exact s.queueError_spec q 2
    · rw [if_neg (not_not.2 he), if_neg (Nat.not_lt.2 hshort), if_neg (Nat.not_lt.2 hfwd)]
      exact ⟨rfl, (s.queue_setQueue q _ q).trans (if_pos rfl), fun n hn => (s.queue_setQueue q _ n).trans (if_neg hn)⟩

/-- A doorbell that waits alone takes effect. -/
theorem State.tryAp_bell {s : State} {id index : Nat} {tail : W32} {o : ApOp} (honly : s.apOps = [(id, o)])
    (hf : o.fault = none) (hb : o.bell = some (index, tail)) :
    s.tryAp id = State.ring { s with apOps := [] } o.part index tail := by
  have hfind : Tbl.find s.apOps id = some o := by rw [honly, Tbl.find_singleton]
  have hdel : Tbl.del s.apOps id = [] := by rw [honly, Tbl.del_singleton]
  simp only [State.tryAp, hfind, hf, hb, State.apBehind_lone honly, hdel, Option.isSome_none, Bool.or_self, Bool.false_eq_true,
    if_false]

theorem State.tryAp_waits {s : State} {id : Nat} {o : ApOp} (hfind : Tbl.find s.apOps id = some o)
    (h : o.fault.isSome = true ∨ s.apBehind id o.part = true) : s.tryAp id = s := by
  simp only [State.tryAp, hfind]
  rw [if_pos (by simpa using h)]

/-- A held access that is no operation of a weave and no request of a peer is tried. -/
theorem exec_heldAccessRelease_ap {s : State} {id : Nat} (hls : Tbl.find s.lsOps id = none)
    (hin : Tbl.find s.inbound id = none) : exec (.heldAccessRelease id) s = .next (s.tryAp id) := by
  simp only [exec_heldAccessRelease, execHeldAccessRelease, hls, State.tryInbound, hin]

/-- The doorbell that waits as an access of its function. -/
def bellAccess (p index : Nat) (tail : W32) : ApOp where
  part := p
  lva := 0
  write := true
  len := 0
  data := []
  bell := some (index, tail)
  fault := none

theorem exec_doorbell_eq {s : State} {vf : Nat} (index : Nat) (tail : W32) (hvf : s.vfPart vf = some (vf - 1)) :
    exec (.doorbell vf index tail) s = .next (State.tryAp
      { s with nextId := s.nextId + 1, apOps := Tbl.put s.apOps s.nextId (bellAccess (vf - 1) index tail) } s.nextId) := by
  simp only [exec_doorbell, execDoorbell, hvf, State.fresh]
  rfl

/-! ### Devices behind the root ports (R62) -/

/-- A granule that a window holds has the key of a partition. -/
theorem State.keyNum_ne_zero {s : State} {pa : Nat} (h : ∃ e ∈ s.parts, e.2.holds (pa / 64 * 64) 64 = true) :
    s.keyNum pa ≠ 0 := by
  unfold State.keyNum
  split
  · exact Nat.succ_ne_zero _
  · next hnone =>
    obtain ⟨e, he, hh⟩ := h
    exact absurd hh (List.find?_eq_none.1 hnone e he)

/-- No device reaches a place that is not mapped, or that a partition's window holds. -/
theorem State.rpPlace_none {s : State} {addr : Nat} (h : ∀ a, Tbl.find s.hd.iommu (addr / 4096) = some a →
    ∃ e ∈ s.parts, e.2.holds ((a + addr % 4096) / 64 * 64) 64 = true) : s.rpPlace addr = none := by
  unfold State.rpPlace
  cases hmap : Tbl.find s.hd.iommu (addr / 4096) with
  | none => rfl
  | some a => exact if_neg (State.keyNum_ne_zero (h a hmap))

theorem State.rpAccess_refused {s : State} {port addr len : Nat} {write : Bool} {data : List (BitVec 8)} (hport : port < 4)
    (hready : s.ready (rprdy port) = true) (hn : 0 < if write then data.length else len)
    (hg : addr / 64 = (addr + (if write then data.length else len) - 1) / 64) (hplace : s.rpPlace addr = none) :
    s.rpAccess port addr write len data = s.emit (.rpRefused port) := by
  simp [State.rpAccess, chunksOf_granule hn hg, hplace, hready, Nat.not_le.2 hport]

/-! ### The obligation -/

/-- What an aperture access in RUN does, by where its translation leads and by how memory answers there. -/
theorem apertureAccess_run {s : State} {p a len : Nat} {write : Bool} {data : List (BitVec 8)} (hap : s.apOps = [])
    (hn : 0 < if write then data.length else len) (ha : a < 2 ^ 55)
    (hg : a / 64 = (a + (if write then data.length else len) - 1) / 64) :
    let n := if write then data.length else len
    let walk := s.xlate 0 p a (if write then 1 else 0)
    let t := (s.withAccess (hostAccess p a write len data)).tryAp s.nextId
    let aborted := t.out = s.out ++ [.completerAbort p] ∧ t.apOps = [] ∧ (t.part p).faultSeq = (s.part p).faultSeq + 1
    (∀ pa, walk = .ok pa →
      (s.memSt pa = .ready → s.eccBad pa = false → write = false →
        t = { s with nextId := s.nextId + 1, dies := t.dies, out := s.out ++ [.apData p (Memory.reads s.mem pa n)] })
      ∧ (s.memSt pa = .ready → write = true → (∀ k, k < n → s.plainByte (pa + k)) →
        t = { s with
          nextId := s.nextId + 1, mem := t.mem, tags := t.tags, rel := t.rel, dies := t.dies, out := s.out ++ [.apDone p] }
        ∧ (∀ k, k < n → Memory.get t.mem (pa + k) = data.getD k 0)
        ∧ ∀ z, ¬ (pa ≤ z ∧ z < pa + n) → Memory.get t.mem z = Memory.get s.mem z)
      ∧ (s.memSt pa = .held → (write = false → s.eccBad pa = false) → t = s.withAccess (hostAccess p a write len data))
      ∧ (s.memSt pa = .failed → aborted))
    ∧ (∀ e, walk = .error (.unresolvable e) → aborted)
    ∧ (walk = .error .resolvable →
      t = (s.withAccess (hostAccess p a write len data)).apStopped s.nextId (hostAccess p a write len data)
        (.xl .resolvable a (if write then 1 else 0))) := by
  intro n walk
  have hlone := loneAccess_hostAccess s (p := p) hn ha hg
  have hx := xlate_hostAccess (s := s) (p := p) (len := len) (write := write) (data := data) ha
  have hlva := hostAccess_lva (p := p) (len := len) (write := write) (data := data) ha
  refine ⟨fun pa hpa => ⟨fun hm he hw => ?_, fun hm hw hplain => ?_, fun hm he => ?_, fun hm => ?_⟩, fun e he => ?_,
    fun he => ?_⟩
  · subst hw
    rw [hap]
    exact hlone.tryAp_read rfl (hx.trans hpa) hm he
  · subst hw
    rw [hlone.tryAp_write rfl (hostAccess_data rfl) (hx.trans hpa) hm hplain]
    refine ⟨by simp only [← hap]; rfl, fun k hk => ?_, fun z hz => (s.memWrite_get pa data z).trans (if_neg hz)⟩
    refine (s.memWrite_get pa data (pa + k)).trans ?_
    rw [if_pos ⟨Nat.le_add_right _ _, Nat.add_lt_add_left hk _⟩, Nat.add_sub_cancel_left]
  · exact hlone.tryAp_held hostAccess_data (hx.trans hpa) hm he
  · rw [hlone.tryAp_failed (hx.trans hpa) hm]
    exact hlone.apAbort _
  · rw [hlone.tryAp_error hostAccess_data (hx.trans he) (by simp)]
    exact hlone.apAbort _
  · rw [hlone.tryAp_error hostAccess_data (hx.trans he) (by simp), hlva]
    rfl

/-- An access under a resolvable fault waits for the fault service. -/
theorem apStopped_resolvable (s : State) (o : ApOp) (lva kind : Nat) :
    ∃ q f x, let t := (s.withAccess o).apStopped s.nextId o (.xl .resolvable lva kind)
      Tbl.find t.apOps s.nextId = some q ∧ q.fault = some f ∧ Tbl.find t.faults f = some x ∧ x.part = o.part
      ∧ x.lva = BitVec.ofNat 55 lva ∧ x.owner = .aperture s.nextId ∧ t.mem = s.mem ∧ t.out = s.out := by
  refine ⟨{ o with fault := some (s.nextId + 1) }, s.nextId + 1, _, ?_, rfl, Tbl.find_put_self _ _ _, rfl, rfl, rfl, rfl, rfl⟩
  refine (Tbl.find_upd_self [(s.nextId, o)] s.nextId _).trans ?_
  rw [Tbl.find_singleton]
  rfl

/-- Settles O49: accesses through an aperture and held ones by the lemmas about one access that waits alone, a doorbell by
`State.ring_rung`, and a device behind a root port by the place that the IOMMU does not give it. -/
theorem hostAccesses : Obligations.HostAccesses := by
  refine ⟨fun s vf off write len data => ?_, fun s id o honly hls hin => ?_, fun s vf index tail h1 h16 => ?_,
    fun s port addr write len data hport hready hn hg hmap =>
      State.rpAccess_refused hport hready hn hg (State.rpPlace_none hmap)⟩
  · intro i p n a kind walk aborts
    refine ⟨fun h => ?_, fun hrec h1 h16 => ?_⟩
    · simp only [i, exec_apertureAccess, execApertureAccess, State.vfPart_none h]
    have hvf := State.vfPart_inRange hrec h1 h16
    refine ⟨fun h => ?_, fun h => ?_, fun hrun hap hn hoff ha hg => ?_⟩
    · rcases h with h | h <;>
        simp only [i, exec_apertureAccess, execApertureAccess, hvf, show (s.part (vf - 1)).tdi = _ from h]
    · simp only [i, exec_apertureAccess, execApertureAccess, hvf, show (s.part (vf - 1)).tdi = _ from h]
      rfl
    have hexec : exec i s = _ := exec_apertureAccess_run hvf hrun hap hn hoff
    obtain ⟨hok, hunres, hres⟩ := apertureAccess_run (p := p) hap hn ha hg
    refine ⟨fun pa hpa => ?_, fun e he => ⟨_, hexec, hunres e he⟩, fun he => ?_⟩
    · obtain ⟨hread, hwrite, hheld, hfail⟩ := hok pa hpa
      refine ⟨fun hm hecc hw => ⟨_, hexec, hread hm hecc hw⟩, fun hm hw hplain => ⟨_, hexec, hwrite hm hw hplain⟩,
        fun hm hecc => ⟨_, hostAccess p a write len data, hexec, ?_⟩, fun hm => ⟨_, hexec, hfail hm⟩⟩
      rw [hheld hm hecc]
      exact ⟨rfl, Tbl.find_singleton _ _, rfl, hostAccess_lva ha, rfl, rfl, rfl⟩
    · obtain ⟨q, f, x, hq, hf, hx, hpart, hlva, hown, hmem, hout⟩ :=
        apStopped_resolvable s (hostAccess p a write len data) a (if write then 1 else 0)
      rw [← hres he] at hq hx hmem hout
      refine ⟨_, q, f, x, hexec, hq, hf, hx, hpart, ?_, hown, hmem, hout⟩
      rw [hlva, BitVec.toNat_ofNat, Nat.mod_eq_of_lt ha]
  · have hfind : Tbl.find s.apOps id = some o := by rw [honly, Tbl.find_singleton]
    have hexec := exec_heldAccessRelease_ap hls hin
    refine ⟨fun hf => ?_, fun hf index tail hb => ⟨_, hexec, ?_⟩, fun hf hb hw hpos hg pa hx he => ?_⟩
    · rw [hexec, State.tryAp_waits hfind (.inl hf)]
    · rw [State.tryAp_bell honly hf hb]
      exact State.ring_rung _ _ _ _
    · have hlone : s.LoneAccess id o := ⟨honly, hf, hb, hpos, hg⟩
      have hkind : o.kind = 0 := by simp [ApOp.kind, hw]
      refine ⟨fun hm => ?_, fun hm => ⟨_, hexec, hlone.tryAp_read hw hx hm he⟩⟩
      rw [hexec, hlone.tryAp_held (by simp [hw]) (hkind ▸ hx) hm fun _ => he]
  · have hvf (hrec : s.hd.recovery = false) := State.vfPart_inRange hrec h1 h16
    refine ⟨fun hrec => ?_, fun hrec hap => ⟨_, exec_doorbell_eq index tail (hvf hrec), ?_⟩,
      fun hrec k o honly hk hp hw => ?_⟩
    · simp only [exec_doorbell, execDoorbell, State.vfPart_none (.inl hrec)]
    · rw [hap, State.tryAp_bell (id := s.nextId) rfl rfl rfl, ← hap]
      exact State.ring_rung _ _ _ _
    · refine ⟨_, bellAccess (vf - 1) index tail, exec_doorbell_eq index tail (hvf hrec), ?_⟩
      have hne : k ≠ s.nextId := Nat.ne_of_lt hk
      have hself := Tbl.find_put_self s.apOps s.nextId (bellAccess (vf - 1) index tail)
      have hother : Tbl.find (Tbl.put s.apOps s.nextId (bellAccess (vf - 1) index tail)) k = some o := by
        rw [Tbl.find_put_other _ _ hne, honly, Tbl.find_singleton]
      have hbehind : State.apBehind
          { s with nextId := s.nextId + 1, apOps := Tbl.put s.apOps s.nextId (bellAccess (vf - 1) index tail) }
          s.nextId (vf - 1) = true := by
        rw [State.apBehind, someT, List.any_eq_true]
        exact ⟨(k, o), Tbl.mem_of_find hother, by simp [hk, hp, hw]⟩
      rw [State.tryAp_waits hself (.inr hbehind)]
      exact ⟨rfl, hother, hself, rfl, rfl, rfl⟩

end Sys2Proof.Machine
end

section
/-! Pools of KV pages: their configuration, borrowing and lending (R186, R187, R189). -/

namespace Sys2Proof.Machine

open Sys2Proof

/-! ### Words that software writes (R187) -/

/-- A byte that is kept stays, any other is the one written. -/
theorem State.keepBytes_getD (s : State) (a : Nat) (bs : List (BitVec 8)) {i : Nat} (hi : i < bs.length) :
    (s.keepBytes a bs).getD i 0 = if s.kept (a + i) then Memory.get s.mem (a + i) else bs.getD i 0 := by
  induction bs generalizing a i with
  | nil => exact absurd hi (Nat.not_lt_zero i)
  | cons b r ih =>
    cases i with
    | zero => rfl
    | succ i =>
      rw [State.keepBytes, List.getD_cons_succ, ih (a + 1) (Nat.lt_of_succ_lt_succ hi), List.getD_cons_succ,
        show a + 1 + i = a + (i + 1) by omega]

theorem natToBytes_getD (n x i : Nat) (hi : i < n) : (natToBytes n x).getD i 0 = BitVec.ofNat 8 (x / 256 ^ i) := by
  induction n generalizing x i with
  | zero => omega
  | succ n ih =>
    cases i with
    | zero => simp [natToBytes, BitVec.ofNat, Fin.ofNat]
    | succ i =>
      rw [natToBytes, List.getD_cons_succ, ih _ _ (Nat.lt_of_succ_lt_succ hi), Nat.div_div_eq_div_mul, ← Nat.pow_succ']

/-- Byte `i` of a 64-bit word. -/
theorem natToBytes_word (v : W64) {i : Nat} (hi : i < 8) : (natToBytes 8 v.toNat).getD i 0 = v.extractLsb' (8 * i) 8 := by
  rw [natToBytes_getD 8 v.toNat i hi]
  apply BitVec.eq_of_toNat_eq
  rw [BitVec.toNat_ofNat, BitVec.extractLsb'_toNat, Nat.shiftRight_eq_div_pow, Nat.pow_mul]

/-- What a write of software in ready memory leaves at each byte. -/
theorem State.directWrite_get {s : State} {part d pa : Nat} {bs : List (BitVec 8)}
    (hw : ∀ x ∈ s.devWrites, x.part ≠ part) (hpa : (s.part part).direct d = some pa) (hm : s.memSt pa = .ready) (z : Nat) :
    Memory.get (s.directWrite part d bs).mem z =
      if pa ≤ z ∧ z < pa + bs.length ∧ s.kept z = false then bs.getD (z - pa) 0 else Memory.get s.mem z := by
  have hwrite : s.directWrite part d bs = (s.touch pa).locWrite (.mem pa) bs := by
    simp [State.directWrite, State.devWrite, hpa, State.devHeld_of_ready hw hpa hm, State.devPerform, hm]
  have hmem : (s.touch pa).mem = s.mem := by rw [State.touch_eq]
  rw [hwrite]
  refine (State.memWrite_get _ pa _ z).trans ?_
  rw [State.keepBytes_length, hmem]
  by_cases hz : pa ≤ z ∧ z < pa + bs.length
  · obtain ⟨hlo, hhi⟩ := hz
    rw [if_pos ⟨hlo, hhi⟩, State.keepBytes_getD _ _ _ (by omega), Nat.add_sub_cancel' hlo, State.touch_kept, hmem]
    cases s.kept z <;> simp [hlo, hhi]
  · rw [if_neg hz, if_neg fun h => hz ⟨h.1, h.2.1⟩]

/-- A write of software where memory is ready changes memory at once. -/
theorem State.directWrite_frame {s : State} {part d pa : Nat} {bs : List (BitVec 8)}
    (hw : ∀ x ∈ s.devWrites, x.part ≠ part) (hpa : (s.part part).direct d = some pa) (hm : s.memSt pa = .ready) :
    s.directWrite part d bs = { s with
      mem := (s.directWrite part d bs).mem, tags := (s.directWrite part d bs).tags
      rel := (s.directWrite part d bs).rel, dies := (s.directWrite part d bs).dies } := by
  have hwrite : s.directWrite part d bs = (s.touch pa).locWrite (.mem pa) bs := by
    simp [State.directWrite, State.devWrite, hpa, State.devHeld_of_ready hw hpa hm, State.devPerform, hm]
  rw [hwrite, State.touch_eq]
  rfl

/-! ### Lists of pages -/

theorem mem_insertPage (p x : W64) (l : List W64) : x ∈ insertPage p l ↔ x = p ∨ x ∈ l := by
  induction l with
  | nil => simp [insertPage]
  | cons q r ih =>
    rw [insertPage]
    split
    · simp
    · split
      · next hpq => subst hpq; simp
      · rw [List.mem_cons, ih, List.mem_cons]
        exact or_left_comm

theorem length_insertPage {p : W64} {l : List W64} (h : p ∉ l) : (insertPage p l).length = l.length + 1 := by
  induction l with
  | nil => rfl
  | cons q r ih =>
    have hr : p ∉ r := fun hmem => h (List.mem_cons_of_mem q hmem)
    rw [insertPage]
    split
    · rfl
    · have hne : p ≠ q := fun heq => h (heq ▸ List.mem_cons_self ..)
      simp [hne, ih hr]

theorem mem_foldl_insertPage (pages : List W64) (l : List W64) (x : W64) :
    x ∈ pages.foldl (fun l p => insertPage p l) l ↔ x ∈ pages ∨ x ∈ l := by
  induction pages generalizing l with
  | nil => simp
  | cons p r ih =>
    rw [List.foldl_cons, ih, mem_insertPage, List.mem_cons]
    exact or_left_comm.trans or_assoc.symm

/-- Different new pages all add to a list. -/
theorem length_foldl_insertPage (pages : List W64) (l : List W64) (hnodup : pages.Nodup) (hnew : ∀ p ∈ pages, p ∉ l) :
    (pages.foldl (fun l p => insertPage p l) l).length = l.length + pages.length := by
  induction pages generalizing l with
  | nil => rfl
  | cons p r ih =>
    obtain ⟨hp, hr⟩ := List.nodup_cons.1 hnodup
    have hp' : p ∉ l := hnew p (List.mem_cons_self ..)
    rw [List.foldl_cons, ih _ hr, length_insertPage hp', List.length_cons]
    · omega
    · intro q hq hmem
      rcases (mem_insertPage p q l).1 hmem with h | h
      · exact hp (h ▸ hq)
      · exact hnew q (List.mem_cons_of_mem _ hq) h

/-- The LVA of a domain address. -/
theorem domain_lva (peer lva : Nat) : (domain peer lva).toNat % 2 ^ 55 = lva % 2 ^ 55 := by
  simp only [domain, w64, BitVec.toNat_ofNat]
  omega

/-! ### Keys of pools -/

section Key

variable {part die pool : Nat}

theorem poolKey_part (hd : die < 4) (hp : pool < 16) : poolKey part die pool / 64 = part := by
  unfold poolKey; omega

theorem poolKey_die (hd : die < 4) (hp : pool < 16) : poolKey part die pool / 16 % 4 = die := by
  unfold poolKey; omega

theorem poolKey_pool (hp : pool < 16) : poolKey part die pool % 16 = pool := by
  unfold poolKey; omega

/-- The pool of the next die is another one. -/
theorem poolKey_next_ne : poolKey part ((die + 1) % 4) pool ≠ poolKey part die pool := by
  unfold poolKey; omega

end Key

/-! ### A pool and its FREE field (R186) -/

theorem State.setPoolFree_alike (s : State) (k : Nat) (p : Pool) : (s.setPool k p).AlikeButMem (s.setPoolFree k p) :=
  State.ctlWrite_alike _ _ _ _

theorem State.pool_setPoolFree (s : State) (k : Nat) (p : Pool) (n : Nat) :
    (s.setPoolFree k p).pool n = if n = k then p else s.pool n := by
  have hpools := (s.setPoolFree_alike k p).pools
  have hsame : (s.setPoolFree k p).pool n = (s.setPool k p).pool n := congrArg (Tbl.get · Pool.initial n) hpools
  rw [hsame, State.pool_setPool]

@[simp] theorem State.setPoolFree_hd (s : State) (k : Nat) (p : Pool) : (s.setPoolFree k p).hd = s.hd :=
  (s.setPoolFree_alike k p).hd

@[simp] theorem State.setPoolFree_out (s : State) (k : Nat) (p : Pool) : (s.setPoolFree k p).out = s.out :=
  (s.setPoolFree_alike k p).out

@[simp] theorem State.setPoolFree_parts (s : State) (k : Nat) (p : Pool) : (s.setPoolFree k p).parts = s.parts :=
  (s.setPoolFree_alike k p).parts

/-! ### The device's own writes that do not wait -/

/-- The device's own write, where it does not wait, changes memory and wakes a die; it moves none to another state. -/
theorem State.ctlWrite_unheld {s : State} {p d : Nat} (bs : List (BitVec 8)) (h : s.devHeld p d = false) :
    (s.ctlWrite p d bs).devWrites = s.devWrites ∧ ∀ q, (s.ctlWrite p d bs).memSt q = s.memSt q := by
  unfold State.ctlWrite State.devWrite
  cases hpa : (s.part p).direct d with
  | none => exact ⟨rfl, fun _ => rfl⟩
  | some pa =>
    simp only [h, Bool.false_eq_true, if_false, State.devPerform, if_true]
    have hdw : (s.touch pa).devWrites = s.devWrites := by rw [State.touch_eq]
    split
    · exact ⟨hdw, State.touch_memSt s pa⟩
    · exact ⟨hdw, State.touch_memSt s pa⟩

/-- A pool's FREE field is written; then the device's write of its CTRL does not wait either. -/
theorem State.setPoolFree_unheld {s : State} {k : Nat} (p : Pool) (hw : ∀ x ∈ s.devWrites, x.part ≠ k / 64)
    (hq : ∀ q, (s.part (k / 64)).direct (poolOff k + 20) = some q → s.memSt q ≠ .held) :
    (s.setPoolFree k p).devWrites = s.devWrites ∧ ∀ q, (s.setPoolFree k p).memSt q = s.memSt q := by
  refine State.ctlWrite_unheld (s := s.setPool k p) _ ?_
  rw [Bool.eq_false_iff, ne_eq, State.devHeld_iff]
  rintro (⟨x, hx, hp⟩ | ⟨q, hdir, hheld⟩)
  · exact hw x hx hp
  · exact hq q hdir hheld

/-! ### Applying an entry (R187) -/

section Apply

variable {s : State} {part die pool pa : Nat}

/-- CTRL of a pool whose entry is applied: EN stays, GO is clear, ERR says why it was refused. -/
def ctrlWord (ctrl err : Nat) : Nat := ctrl % 2 + err * 256

theorem ctrlWord_lt (ctrl : Nat) {err : Nat} (h : err < 256) : ctrlWord ctrl err < 2 ^ 64 := by unfold ctrlWord; omega

/-- The unit's answer to a change, written to CTRL. -/
theorem State.ctlWrite_ctrl {d : Nat} (hw : ∀ x ∈ s.devWrites, x.part ≠ part) (hpa : (s.part part).direct d = some pa)
    (hm : s.memSt pa = .ready) (ctrl : Nat) {err : Nat} (h : err < 256) :
    Memory.num (s.ctlWrite part d (natToBytes 8 (ctrlWord ctrl err))).mem pa 8 = ctrlWord ctrl err := by
  rw [State.ctlWrite_ready hw hpa hm, State.touch_memWrite]
  exact (Memory.writes_word s.mem pa _ (ctrlWord_lt ctrl h)).1

theorem State.ctlWrite_frame {d : Nat} {bs : List (BitVec 8)} (hw : ∀ x ∈ s.devWrites, x.part ≠ part)
    (hpa : (s.part part).direct d = some pa) (hm : s.memSt pa = .ready) :
    s.ctlWrite part d bs = { s with
      mem := (s.ctlWrite part d bs).mem, tags := (s.ctlWrite part d bs).tags
      rel := (s.ctlWrite part d bs).rel, dies := (s.ctlWrite part d bs).dies } := by
  rw [State.ctlWrite_ready hw hpa hm, State.touch_memWrite]

/-- The unit puts the pool in place, and then answers in CTRL. -/
theorem State.applied (hd : die < 4) (hp : pool < 16) (hw : ∀ x ∈ s.devWrites, x.part ≠ part)
    (hpa : (s.part part).direct (poolOff (poolKey part die pool)) = some pa) (hm : s.memSt pa = .ready)
    (hq : ∀ q, (s.part part).direct (poolOff (poolKey part die pool) + 20) = some q → s.memSt q ≠ .held) (x : Pool)
    (ctrl : Nat) :
    let t := (s.setPoolFree (poolKey part die pool) x).ctlWrite part (poolOff (poolKey part die pool))
      (natToBytes 8 (ctrlWord ctrl 0))
    t.pool (poolKey part die pool) = x ∧ Memory.num t.mem pa 8 = ctrlWord ctrl 0 := by
  have hkey : poolKey part die pool / 64 = part := poolKey_part hd hp
  obtain ⟨hdw, hst⟩ := State.setPoolFree_unheld (s := s) (k := poolKey part die pool) x (hkey.symm ▸ hw) (hkey.symm ▸ hq)
  refine ⟨?_, State.ctlWrite_ctrl (by rwa [hdw]) ?_ ((hst pa).trans hm) ctrl (by omega)⟩
  · refine (congrArg (Tbl.get · Pool.initial _) (State.ctlWrite_alike _ _ _ _).pools).trans ?_
    exact (s.pool_setPoolFree _ x _).trans (if_pos rfl)
  · rw [State.part_congr (s.setPoolFree_parts _ x)]
    exact hpa

/-- The arenas of an entry, applied one after another: the pool, and whether all translate. -/
def State.applyArenas (s : State) (k : Nat) (p : Pool) (arenas : List (W64 × Nat)) : Pool × Bool :=
  arenas.zipIdx.foldl (fun (pb : Pool × Bool) (n, a) =>
    ((s.applyArena k pb.1 a n).1, pb.2 && (s.applyArena k pb.1 a n).2)) (p, true)

/-- A pool `old` whose entry, all of it in memory that answers, is complete and asks for `new`. -/
structure State.Applies (s : State) (part die pool pa ctrl : Nat) (old new : Pool) : Prop where
  hdie : die < 4
  hpool : pool < 16
  run : (s.part part).tdi = .run
  entry : (s.part part).direct (poolOff (poolKey part die pool)) = some pa
  ready : s.memSt pa = .ready
  writes : ∀ x ∈ s.devWrites, x.part ≠ part
  free : ∀ q, (s.part part).direct (poolOff (poolKey part die pool) + 20) = some q → s.memSt q ≠ .held
  word : Memory.num s.mem pa 8 = ctrl
  go : 2 ^ 63 ≤ ctrl
  before : s.pool (poolKey part die pool) = old
  asked : s.poolEntry (poolKey part die pool) ctrl = new
  arenas : ∀ a ∈ new.arenas, s.arenaHeld (poolKey part die pool) new.pgsz a = false

/-- POOL_APPLY once the entry is complete. -/
theorem State.Applies.outcome {ctrl : Nat} {old new : Pool} (h : s.Applies part die pool pa ctrl old new) :
    exec (.poolApply part die pool) s = .next (
      if old.en ∧ !old.accepts new then s.ctlWrite part (poolOff (poolKey part die pool)) (natToBytes 8 (ctrlWord ctrl 1))
      else if !new.en then (s.setPoolFree (poolKey part die pool) { new with arenas := [] }).ctlWrite part
        (poolOff (poolKey part die pool)) (natToBytes 8 (ctrlWord ctrl 0))
      else
        let r := s.applyArenas (poolKey part die pool) (if old.en then old else { new with arenas := [] }) new.arenas
        (s.setPoolFree (poolKey part die pool) r.1).ctlWrite part
          (poolOff (poolKey part die pool)) (natToBytes 8 (ctrlWord ctrl (if r.2 then 0 else 2)))) := by
  have hno : ¬ (die ≥ 4 ∨ pool ≥ 16 ∨ (s.part part).tdi ≠ .run) := by
    have hd := h.hdie
    have hp := h.hpool
    rw [h.run]; simp; omega
  have hany : new.arenas.any (s.arenaHeld (poolKey part die pool) new.pgsz) = false := by
    rw [List.any_eq_false]
    exact fun a ha => by simp [h.arenas a ha]
  have hgo : ¬ ctrl / 2 ^ 63 = 0 := by
    have := h.go
    omega
  rw [exec_poolApply, execPoolApply]
  simp only [if_neg hno, State.directNum_of_ready 8 h.entry h.ready, State.devHeld_of_ready h.writes h.entry h.ready, h.word,
    h.before, h.asked, if_neg hgo, hany, Bool.false_eq_true, if_false]
  rfl

/-! ### The arenas of a new pool -/

/-- The pages of an arena from its first one on. -/
def arenaPages (own lva pgsz n : Nat) : List W64 := (List.range n).map fun i => domain own (lva + 4096 * pgsz * i)

theorem nodup_arenaPages (own : Nat) {lva pgsz n : Nat} (hsz : 1 ≤ pgsz) (h : lva + n * pgsz * 4096 ≤ 2 ^ 55) :
    (arenaPages own lva pgsz n).Nodup := by
  refine List.Nodup.map_on (fun i hi j hj hij => ?_) List.nodup_range
  have hlt {i : Nat} (hi : i < n) : lva + 4096 * pgsz * i < 2 ^ 55 := by
    have hle : i * pgsz + pgsz ≤ n * pgsz := Nat.succ_mul i pgsz ▸ Nat.mul_le_mul_right pgsz hi
    have hcomm : 4096 * pgsz * i = 4096 * (i * pgsz) := by ring
    omega
  have hlva := congrArg (fun a : W64 => a.toNat % 2 ^ 55) hij
  simp only [domain_lva, Nat.mod_eq_of_lt (hlt (List.mem_range.1 hi)), Nat.mod_eq_of_lt (hlt (List.mem_range.1 hj))] at hlva
  exact Nat.eq_of_mul_eq_mul_left (show 0 < 4096 * pgsz by omega) (Nat.add_left_cancel hlva)

/-- An arena without pages adds nothing. -/
theorem State.applyArena_empty (s : State) (k : Nat) (p : Pool) (a : Nat) (lva : W64) :
    s.applyArena k p a (lva, 0) = (p, true) := by simp [State.applyArena]

/-- A new arena, each of whose units translates, gives all its pages. -/
theorem State.applyArena_new {s : State} {k a n : Nat} {p : Pool} {lva : W64} {tr : Tbl Nat}
    (ho : p.arenas.getD a (0, 0) = (0, 0)) (hn : 1 ≤ n) (hal : lva.toNat % 4096 = 0)
    (htr : s.arenaUnits (k / 16 % 4) (k / 64) lva.toNat 0 (n * p.pgsz) = some tr) :
    s.applyArena k p a (lva, n) =
      ({ p with arenas := (List.range 6).map fun i => if i = a then (lva, n) else p.arenas.getD i (0, 0)
                trans := tr.foldl (fun tr e => Tbl.put tr e.1 e.2) p.trans
                free := (arenaPages (s.ownPeer (k / 64)) lva.toNat p.pgsz n).foldl (fun l x => insertPage x l) p.free },
        true) := by
  have hno : ¬ n ≤ 0 := by omega
  simp only [State.applyArena, ho, if_true, if_neg hno, hal, Nat.zero_mul, Nat.sub_zero, htr, Nat.zero_add, arenaPages]

/-- A pool with one arena, the first. -/
theorem State.applyArenas_new {s : State} {k n : Nat} {p : Pool} {lva : W64} {tr : Tbl Nat} (ho : p.arenas = [])
    (hn : 1 ≤ n) (hal : lva.toNat % 4096 = 0)
    (htr : s.arenaUnits (k / 16 % 4) (k / 64) lva.toNat 0 (n * p.pgsz) = some tr) :
    let r := s.applyArenas k p [(lva, n), (0, 0), (0, 0), (0, 0), (0, 0), (0, 0)]
    r.2 = true ∧ r.1.en = p.en
    ∧ r.1.free = (arenaPages (s.ownPeer (k / 64)) lva.toNat p.pgsz n).foldl (fun l x => insertPage x l) p.free := by
  have hfirst := State.applyArena_new (a := 0) (p := p) (by rw [ho]; rfl) hn hal htr
  simp only [State.applyArenas, List.zipIdx_cons, List.zipIdx_nil, List.foldl_cons, List.foldl_nil, hfirst,
    State.applyArena_empty, Bool.and_self, and_self]

end Apply

/-! ### Borrowing and lending (R189) -/

section Lend

/-- How an OM packet travels depends on the partition's table of peers and on the sessions of the host die. -/
theorem State.takeWire_om_congr {s t : State} (hparts : t.parts = s.parts) (hhd : t.hd = s.hd) (part core : Nat)
    (peer : BitVec 9) :
    (t.takeWire part core peer .om).1 = (s.takeWire part core peer .om).1
    ∧ (t.takeWire part core peer .om).2.hd = (s.takeWire part core peer .om).2.hd := by
  simp only [State.takeWire, State.takeWireTo, State.way, State.peerEnt, State.part_congr hparts, hhd, and_self]

/-- A pool that can lend lends 64 pages. -/
theorem Pool.canLend_given {p : Pool} {own : Option Nat} {pgsz : Nat} (h : p.canLend own pgsz = true) :
    ((p.lendable own).take 64).length = 64 := by
  simp only [Pool.canLend, Bool.and_eq_true, decide_eq_true_eq] at h
  rw [List.length_take]
  omega

/-- A pool without the pages that it gives. -/
def Pool.without (p : Pool) (given : List W64) : Pool :=
  { p with free := p.free.filter (!given.contains ·), borrowed := p.borrowed.filter (!given.contains ·) }

/-- A pool's borrow ends with the pages that it is given; with none it keeps the time of its asking. -/
def State.settleBorrow (s : State) (k : Nat) (pages : List W64) : State :=
  s.setPoolFree k { s.pool k with borrowed := (s.pool k).borrowed ++ pages, asking := false
                                  asked := if pages.isEmpty then (s.pool k).asked else none }

theorem State.pool_settleBorrow_nil (s : State) (k : Nat) :
    (s.settleBorrow k []).pool k = { s.pool k with asking := false } := by
  rw [State.settleBorrow, State.pool_setPoolFree, if_pos rfl, List.append_nil]
  rfl

theorem State.pool_settleBorrow {s : State} {k : Nat} {pages : List W64} (h : pages ≠ []) :
    (s.settleBorrow k pages).pool k =
      { s.pool k with borrowed := (s.pool k).borrowed ++ pages, asking := false, asked := none } := by
  rw [State.settleBorrow, State.pool_setPoolFree, if_pos rfl, if_neg (by simpa using h)]

variable {s : State} {part die pool : Nat}

/-- The own pool's borrow: the next die's pool lends, or the peer is asked (R189). -/
theorem exec_poolLend_own (hd : die < 4) (hp : pool < 16) (hrun : (s.part part).tdi = .run) (offer : List W64) :
    exec (.poolLend part die pool none offer) s = .next (
      let k := poolKey part die pool
      let p := s.pool k
      let nk := poolKey part ((die + 1) % 4) pool
      if !p.asking then s
      else if (s.pool nk).canLend none p.pgsz then (s.giveOut nk none).1.settleBorrow k (s.giveOut nk none).2
      else
        match p.lendPeer with
        | none => s.settleBorrow k []
        | some peer =>
          if (s.peerErr part die peer.toNat).isSome then s.settleBorrow k []
          else if !s.sessionOpen (entSession (s.peerEnt part peer.toNat)) then s
          else
            let x := s.takeWire part (die * 64) peer .om
            (x.2.emit (.lendRequest peer p.lendDie p.lendPool x.1)).settleBorrow k
              (if offer.length = 64 then offer.map fun a => domain peer.toNat a.toNat else [])) := by
  have hno : ¬ (die ≥ 4 ∨ pool ≥ 16 ∨ (s.part part).tdi ≠ .run) := by rw [hrun]; simp; omega
  rw [exec_poolLend, execPoolLend, if_neg hno]
  simp only [State.borrow, poolKey_part hd hp, poolKey_die hd hp, poolKey_pool hp]
  rfl

/-- A request of a peer is answered with pages, or declined. -/
theorem exec_poolLend_peer (hd : die < 4) (hp : pool < 16) (hrun : (s.part part).tdi = .run) (peer pgsz : Nat) :
    exec (.poolLend part die pool (some (peer, pgsz)) []) s = .next (
      let k := poolKey part die pool
      let e := s.peerEnt part peer
      let reply (s : State) (pages : List W64) : State :=
        (s.takeWire part (die * 64) (BitVec.ofNat 9 peer) .om).2.emit
          (.lendReply (BitVec.ofNat 9 peer) pages (s.takeWire part (die * 64) (BitVec.ofNat 9 peer) .om).1)
      if !s.sessionOpen (entSession e) then s
      else if entValid e && entEnable e && (s.pool k).canLend (some (s.ownPeer part)) pgsz then
        reply (s.giveOut k (some (s.ownPeer part))).1 ((s.giveOut k (some (s.ownPeer part))).2.map fun a => w64 (lvaOf a))
      else reply s []) := by
  have hno : ¬ (die ≥ 4 ∨ pool ≥ 16 ∨ (s.part part).tdi ≠ .run) := by rw [hrun]; simp; omega
  rw [exec_poolLend, execPoolLend, if_neg hno]

/-- A page that a peer returns goes to its home, unless a context holds it. -/
theorem exec_poolLend_return (hd : die < 4) (hp : pool < 16) (hrun : (s.part part).tdi = .run) (x : Nat × Nat) (a : W64)
    (hfree : Tbl.find s.pages (domKey part (domain (s.ownPeer part) a.toNat).toNat) = none) :
    exec (.poolLend part die pool (some x) [a]) s = .next (s.homePage part (domain (s.ownPeer part) a.toNat).toNat) := by
  simp [execPoolLend, hrun, Nat.not_le.2 hd, Nat.not_le.2 hp, hfree]

/-- A page's home is the one pool of the partition whose arena holds it. -/
theorem State.homePage_unique (hd : die < 4) (hp : pool < 16) {addr : Nat}
    (hown : (s.pool (poolKey part die pool)).owns (addr % 2 ^ 55) = true)
    (hone : ∀ q, q < 64 → (s.pool (part * 64 + q)).owns (addr % 2 ^ 55) = true → q = die * 16 + pool) :
    s.homePage part addr = s.setPoolFree (poolKey part die pool)
      { s.pool (poolKey part die pool) with
        free := insertPage (w64 addr) (s.pool (poolKey part die pool)).free } := by
  have hkey : poolKey part die pool = part * 64 + (die * 16 + pool) := Nat.add_assoc ..
  have hmem : poolKey part die pool ∈ poolKeys part :=
    List.mem_map.2 ⟨die * 16 + pool, List.mem_range.2 (by omega), hkey.symm⟩
  have hfind : ((poolKeys part).find? fun k => (s.pool k).owns (addr % 2 ^ 55)) = some (poolKey part die pool) := by
    cases hf : (poolKeys part).find? fun k => (s.pool k).owns (addr % 2 ^ 55) with
    | none => exact absurd hown (List.find?_eq_none.1 hf _ hmem)
    | some k =>
      obtain ⟨q, hq, rfl⟩ := List.mem_map.1 (List.mem_of_find?_eq_some hf)
      have howns := List.find?_some hf
      rw [hone q (List.mem_range.1 hq) howns, hkey]
  rw [State.homePage, hfind]

end Lend

/-! ### The obligation -/

section Cases

variable {s : State} {part die pool pa : Nat}

/-- While memory or an earlier write of the device holds the entry, a write of CTRL waits, and so does the unit. -/
theorem pool_entry_held (hd : die < 4) (hp : pool < 16) (hrun : (s.part part).tdi = .run)
    (hpa : (s.part part).direct (poolOff (poolKey part die pool)) = some pa)
    (h : s.memSt pa = .held ∨ ∃ x ∈ s.devWrites, x.part = part) :
    (∀ v : W64, exec (.poolCtrlWrite part die pool v) s = .next { s with
      devWrites := s.devWrites ++ [{ part := part, pa := pa, data := natToBytes 8 v.toNat, own := false, rel := none }] })
    ∧ ∃ t, exec (.poolApply part die pool) s = .next t ∧ t = { s with dies := t.dies } := by
  have hno : ¬ (die ≥ 4 ∨ pool ≥ 16 ∨ (s.part part).tdi ≠ .run) := by rw [hrun]; simp; omega
  have hheld : s.devHeld part (poolOff (poolKey part die pool)) = true := by
    rw [State.devHeld_iff]
    rcases h with h | h
    · exact .inr ⟨pa, hpa, h⟩
    · exact .inl h
  refine ⟨fun v => ?_, _, ?_, State.devAwait_eq s part (poolOff (poolKey part die pool))⟩
  · rw [exec_poolCtrlWrite, execPoolCtrlWrite]
    simp only [if_neg hno, State.directWrite, State.devWrite, hpa, hheld, if_true]
  · rw [exec_poolApply, execPoolApply]
    simp only [if_neg hno, hheld, if_true]

/-- A write of CTRL in ready memory leaves every byte that a rule keeps. -/
theorem poolCtrlWrite_ready (hd : die < 4) (hp : pool < 16) (hrun : (s.part part).tdi = .run)
    (hpa : (s.part part).direct (poolOff (poolKey part die pool)) = some pa) (hm : s.memSt pa = .ready)
    (hw : ∀ x ∈ s.devWrites, x.part ≠ part) (v : W64) :
    ∃ t, exec (.poolCtrlWrite part die pool v) s = .next t
      ∧ t = { s with mem := t.mem, tags := t.tags, rel := t.rel, dies := t.dies }
      ∧ ((∀ n, n < 8 → s.kept (pa + n) = true) → ∀ z, Memory.get t.mem z = Memory.get s.mem z)
      ∧ ((∀ n, n < 8 → s.kept (pa + n) = decide (n = 1)) →
        (∀ n, n < 8 → n ≠ 1 → Memory.get t.mem (pa + n) = v.extractLsb' (8 * n) 8)
        ∧ ∀ z, (z = pa + 1 ∨ z < pa ∨ pa + 8 ≤ z) → Memory.get t.mem z = Memory.get s.mem z) := by
  have hno : ¬ (die ≥ 4 ∨ pool ≥ 16 ∨ (s.part part).tdi ≠ .run) := by rw [hrun]; simp; omega
  have hget := State.directWrite_get (bs := natToBytes 8 v.toNat) hw hpa hm
  simp only [natToBytes_length] at hget
  refine ⟨_, by rw [exec_poolCtrlWrite, execPoolCtrlWrite, if_neg hno], State.directWrite_frame hw hpa hm, fun hk z => ?_,
    fun hk => ⟨fun n hn hne => ?_, fun z hz => ?_⟩⟩
  · refine (hget z).trans (if_neg fun h => ?_)
    obtain ⟨hlo, hhi, hfree⟩ := h
    have := hk (z - pa) (by omega)
    rw [Nat.add_sub_cancel' hlo, hfree] at this
    exact Bool.false_ne_true this
  · refine (hget (pa + n)).trans ?_
    rw [if_pos ⟨by omega, by omega, by rw [hk n hn]; simpa using hne⟩, Nat.add_sub_cancel_left, natToBytes_word v hn]
  · refine (hget z).trans (if_neg fun h => ?_)
    obtain ⟨hlo, hhi, hfree⟩ := h
    have hz1 : z = pa + 1 := by omega
    rw [hz1, hk 1 (by omega)] at hfree
    exact absurd hfree (by decide)

/-- A change that an enabled pool does not take is refused (R187). -/
theorem State.Applies.refused {ctrl : Nat} {old new : Pool} (h : s.Applies part die pool pa ctrl old new)
    (hen : old.en = true) (hacc : old.accepts new = false) :
    ∃ t, exec (.poolApply part die pool) s = .next t
      ∧ t = { s with mem := t.mem, tags := t.tags, rel := t.rel, dies := t.dies }
      ∧ Memory.num t.mem pa 8 = ctrlWord ctrl 1 := by
  refine ⟨_, h.outcome.trans (congrArg _ (if_pos ⟨hen, ?_⟩)), State.ctlWrite_frame h.writes h.entry h.ready,
    State.ctlWrite_ctrl h.writes h.entry h.ready ctrl (by decide)⟩
  rw [hacc]
  rfl

/-- A pool that stays disabled, or is disabled, holds nothing. -/
theorem State.Applies.disabled {ctrl : Nat} {old new : Pool} (h : s.Applies part die pool pa ctrl old new)
    (hen : old.en = false) (hnew : new.en = false) :
    ∃ t, exec (.poolApply part die pool) s = .next t ∧ t.pool (poolKey part die pool) = { new with arenas := [] }
      ∧ Memory.num t.mem pa 8 = ctrlWord ctrl 0 := by
  refine ⟨_, h.outcome.trans (congrArg _ ((if_neg ?_).trans (if_pos ?_))),
    State.applied h.hdie h.hpool h.writes h.entry h.ready h.free _ ctrl⟩
  · simp [hen]
  · simp [hnew]

/-- Every page of a new pool's arena becomes free. -/
theorem State.Applies.enabled {ctrl : Nat} {old new : Pool} (h : s.Applies part die pool pa ctrl old new)
    {lva : W64} {n : Nat} {tr : Tbl Nat} (hen : old.en = false) (hnew : new.en = true) (hn : 1 ≤ n) (hsz : 1 ≤ new.pgsz)
    (hal : lva.toNat % 4096 = 0) (hend : lva.toNat + n * new.pgsz * 4096 ≤ 2 ^ 55)
    (har : new.arenas = [(lva, n), (0, 0), (0, 0), (0, 0), (0, 0), (0, 0)])
    (htr : s.arenaUnits die part lva.toNat 0 (n * new.pgsz) = some tr) :
    ∃ t, exec (.poolApply part die pool) s = .next t ∧ Memory.num t.mem pa 8 = ctrlWord ctrl 0
      ∧ (t.pool (poolKey part die pool)).en = true ∧ (t.pool (poolKey part die pool)).free.length = n
      ∧ ∀ j, j < n → domain (s.ownPeer part) (lva.toNat + 4096 * new.pgsz * j) ∈ (t.pool (poolKey part die pool)).free := by
  have hnofree : new.free = [] := by rw [← h.asked]; rfl
  obtain ⟨r, hr⟩ : ∃ r, s.applyArenas (poolKey part die pool) { new with arenas := [] } new.arenas = r := ⟨_, rfl⟩
  obtain ⟨hall, hren, hfree⟩ := State.applyArenas_new (s := s) (k := poolKey part die pool) (p := { new with arenas := [] })
    (lva := lva) (tr := tr) rfl hn hal (by rw [poolKey_die h.hdie h.hpool, poolKey_part h.hdie h.hpool]; exact htr)
  rw [← har, hr] at hall hren hfree
  rw [poolKey_part h.hdie h.hpool, hnofree] at hfree
  have hexec : exec (.poolApply part die pool) s = .next ((s.setPoolFree (poolKey part die pool) r.1).ctlWrite part
      (poolOff (poolKey part die pool)) (natToBytes 8 (ctrlWord ctrl 0))) := by
    rw [h.outcome, if_neg (by simp [hen]), if_neg (by simp [hnew]), if_neg (by simp [hen]), hr]
    simp only [hall, if_true]
  obtain ⟨hpool, hnum⟩ := State.applied h.hdie h.hpool h.writes h.entry h.ready h.free r.1 ctrl
  refine ⟨_, hexec, hnum, ?_, ?_, fun j hj => ?_⟩
  · rw [hpool, hren, hnew]
  · rw [hpool, hfree, length_foldl_insertPage _ _ (nodup_arenaPages _ hsz hend) (by simp)]
    simp [arenaPages]
  · rw [hpool, hfree, mem_foldl_insertPage]
    exact .inl (List.mem_map.2 ⟨j, List.mem_range.2 hj, rfl⟩)

/-- The next die's pool lends 64 pages. -/
theorem poolLend_next (hd : die < 4) (hp : pool < 16) (hrun : (s.part part).tdi = .run) (offer : List W64)
    (hask : (s.pool (poolKey part die pool)).asking = true)
    (hcan : (s.pool (poolKey part ((die + 1) % 4) pool)).canLend none (s.pool (poolKey part die pool)).pgsz = true) :
    let k := poolKey part die pool
    let nk := poolKey part ((die + 1) % 4) pool
    let given := ((s.pool nk).lendable none).take 64
    ∃ t, exec (.poolLend part die pool none offer) s = .next t ∧ given.length = 64
      ∧ t.pool k = { s.pool k with borrowed := (s.pool k).borrowed ++ given, asking := false, asked := none }
      ∧ t.pool nk = (s.pool nk).without given := by
  intro k nk given
  have hlen : given.length = 64 := Pool.canLend_given hcan
  have hne : nk ≠ k := poolKey_next_ne
  have hgiven : given ≠ [] := fun h => by rw [h] at hlen; exact absurd hlen (by decide)
  have hexec : exec (.poolLend part die pool none offer) s = .next
      ((s.setPoolFree nk ((s.pool nk).without given)).settleBorrow k given) := by
    rw [exec_poolLend_own hd hp hrun, if_neg (by rw [hask]; decide), if_pos hcan]
    rfl
  refine ⟨_, hexec, hlen, ?_, ?_⟩
  · rw [State.pool_settleBorrow hgiven, State.pool_setPoolFree, if_neg hne.symm]
  · rw [State.settleBorrow, State.pool_setPoolFree, if_neg hne, State.pool_setPoolFree, if_pos rfl]

/-- A borrow that neither the next die nor a peer can settle ends without pages. -/
theorem poolLend_unlent (hd : die < 4) (hp : pool < 16) (hrun : (s.part part).tdi = .run) (offer : List W64)
    (hask : (s.pool (poolKey part die pool)).asking = true)
    (hcan : (s.pool (poolKey part ((die + 1) % 4) pool)).canLend none (s.pool (poolKey part die pool)).pgsz = false)
    (hpeer : (s.pool (poolKey part die pool)).lendPeer = none
      ∨ ∃ peer, (s.pool (poolKey part die pool)).lendPeer = some peer ∧ s.peerErr part die peer.toNat ≠ none) :
    exec (.poolLend part die pool none offer) s = .next (s.settleBorrow (poolKey part die pool) []) := by
  rw [exec_poolLend_own hd hp hrun]
  rcases hpeer with hnone | ⟨peer, hsome, herr⟩
  · simp only [hask, hcan, hnone, Bool.not_true, Bool.false_eq_true, if_false]
  · have herr' : (s.peerErr part die peer.toNat).isSome = true := Option.isSome_iff_ne_none.2 herr
    simp only [hask, hcan, hsome, herr', Bool.not_true, Bool.false_eq_true, if_false, if_true]

/-- Without a session to the peer the request waits. -/
theorem poolLend_closed {peer : BitVec 9} (hd : die < 4) (hp : pool < 16) (hrun : (s.part part).tdi = .run) (offer : List W64)
    (hask : (s.pool (poolKey part die pool)).asking = true)
    (hcan : (s.pool (poolKey part ((die + 1) % 4) pool)).canLend none (s.pool (poolKey part die pool)).pgsz = false)
    (hpeer : (s.pool (poolKey part die pool)).lendPeer = some peer) (herr : s.peerErr part die peer.toNat = none)
    (hclosed : s.sessionOpen (entSession (s.peerEnt part peer.toNat)) = false) :
    exec (.poolLend part die pool none offer) s = .next s := by
  rw [exec_poolLend_own hd hp hrun]
  simp only [hask, hcan, hpeer, herr, hclosed, Bool.not_true, Bool.not_false, Bool.false_eq_true, Option.isSome_none, if_false,
    if_true]

/-- A pool that asks a peer, to which a session is open. -/
theorem poolLend_ask {peer : BitVec 9} (hd : die < 4) (hp : pool < 16) (hrun : (s.part part).tdi = .run) (offer : List W64)
    (hask : (s.pool (poolKey part die pool)).asking = true)
    (hcan : (s.pool (poolKey part ((die + 1) % 4) pool)).canLend none (s.pool (poolKey part die pool)).pgsz = false)
    (hpeer : (s.pool (poolKey part die pool)).lendPeer = some peer) (herr : s.peerErr part die peer.toNat = none)
    (hopen : s.sessionOpen (entSession (s.peerEnt part peer.toNat)) = true) :
    let k := poolKey part die pool
    let old := s.pool k
    let x := s.takeWire part (64 * die) peer .om
    ∃ t, exec (.poolLend part die pool none offer) s = .next t ∧ t.hd = x.2.hd
      ∧ t.out = s.out ++ [.lendRequest peer old.lendDie old.lendPool x.1]
      ∧ t.pool k = (if offer.length = 64 then
          { old with borrowed := old.borrowed ++ offer.map (fun a => domain peer.toNat a.toNat), asking := false, asked := none }
        else { old with asking := false }) := by
  intro k old x
  have hexec : exec (.poolLend part die pool none offer) s = .next
      ((x.2.emit (.lendRequest peer old.lendDie old.lendPool x.1)).settleBorrow k
        (if offer.length = 64 then offer.map fun a => domain peer.toNat a.toNat else [])) := by
    rw [exec_poolLend_own hd hp hrun, if_neg (by rw [hask]; decide), if_neg (by rw [hcan]; decide)]
    simp only [hpeer, herr, hopen, Option.isSome_none, Bool.false_eq_true, if_false, Bool.not_true, Nat.mul_comm die 64]
    rfl
  refine ⟨_, hexec, by rw [State.settleBorrow, State.setPoolFree_hd]; rfl,
    by rw [State.settleBorrow, State.setPoolFree_out]; rfl, ?_⟩
  split
  · next hlen =>
    have hne : offer.map (fun a => domain peer.toNat a.toNat) ≠ [] := fun h => by
      rw [List.map_eq_nil_iff.1 h] at hlen
      exact absurd hlen (by decide)
    exact State.pool_settleBorrow hne
  · exact State.pool_settleBorrow_nil _ k

/-- The LVA of a domain address, as a word. -/
theorem w64_lvaOf (a : W64) : w64 (lvaOf a) = (a.extractLsb' 0 55).setWidth 64 := by
  apply BitVec.eq_of_toNat_eq
  simp [w64, lvaOf]

/-- A peer that may have them is given 64 pages. -/
theorem poolLend_give {peer pgsz : Nat} (hd : die < 4) (hp : pool < 16) (hrun : (s.part part).tdi = .run)
    (hopen : s.sessionOpen (entSession (s.peerEnt part peer)) = true) (hvalid : entValid (s.peerEnt part peer) = true)
    (hen : entEnable (s.peerEnt part peer) = true)
    (hcan : (s.pool (poolKey part die pool)).canLend (some (s.ownPeer part)) pgsz = true) :
    let k := poolKey part die pool
    let old := s.pool k
    let given := (old.lendable (some (s.ownPeer part))).take 64
    let x := s.takeWire part (64 * die) (BitVec.ofNat 9 peer) .om
    ∃ t, exec (.poolLend part die pool (some (peer, pgsz)) []) s = .next t ∧ given.length = 64
      ∧ t.pool k = old.without given ∧ t.hd = x.2.hd
      ∧ t.out = s.out ++ [.lendReply (BitVec.ofNat 9 peer) (given.map fun a => (a.extractLsb' 0 55).setWidth 64) x.1] := by
  intro k old given x
  let u := s.setPoolFree k (old.without given)
  obtain ⟨hwire, hhd⟩ := State.takeWire_om_congr (s := s) (t := u) (s.setPoolFree_parts _ _) (s.setPoolFree_hd _ _) part
    (64 * die) (BitVec.ofNat 9 peer)
  have hexec : exec (.poolLend part die pool (some (peer, pgsz)) []) s = .next
      ((u.takeWire part (64 * die) (BitVec.ofNat 9 peer) .om).2.emit (.lendReply (BitVec.ofNat 9 peer)
        (given.map fun a => w64 (lvaOf a)) (u.takeWire part (64 * die) (BitVec.ofNat 9 peer) .om).1)) := by
    rw [exec_poolLend_peer hd hp hrun]
    simp only [hopen, hvalid, hen, hcan, Bool.not_true, Bool.false_eq_true, if_false, Bool.and_self, if_true,
      Nat.mul_comm die 64]
    rfl
  refine ⟨_, hexec, Pool.canLend_given hcan, ?_, hhd, ?_⟩
  · exact (s.pool_setPoolFree k _ k).trans (if_pos rfl)
  · rw [hwire]
    simp only [w64_lvaOf]
    exact congrArg (· ++ [Out.lendReply _ _ _]) (s.setPoolFree_out k (old.without given))

/-- Any other peer is declined. -/
theorem poolLend_decline {peer pgsz : Nat} (hd : die < 4) (hp : pool < 16) (hrun : (s.part part).tdi = .run)
    (hopen : s.sessionOpen (entSession (s.peerEnt part peer)) = true)
    (hno : ¬ (entValid (s.peerEnt part peer) = true ∧ entEnable (s.peerEnt part peer) = true
      ∧ (s.pool (poolKey part die pool)).canLend (some (s.ownPeer part)) pgsz = true)) :
    let x := s.takeWire part (64 * die) (BitVec.ofNat 9 peer) .om
    exec (.poolLend part die pool (some (peer, pgsz)) []) s
      = .next { x.2 with out := s.out ++ [.lendReply (BitVec.ofNat 9 peer) [] x.1] } := by
  intro x
  have hno' : ¬ (entValid (s.peerEnt part peer) && entEnable (s.peerEnt part peer)
      && (s.pool (poolKey part die pool)).canLend (some (s.ownPeer part)) pgsz) = true := by
    rw [Bool.and_eq_true, Bool.and_eq_true, and_assoc]
    exact hno
  rw [exec_poolLend_peer hd hp hrun]
  simp only [hopen, Bool.not_true, Bool.false_eq_true, if_false, if_neg hno', Nat.mul_comm die 64]
  rfl

/-- A page that a peer returns is free again in its own pool. -/
theorem poolLend_return (hd : die < 4) (hp : pool < 16) (hrun : (s.part part).tdi = .run) (x : Nat × Nat) (a : W64)
    (hfree : Tbl.find s.pages (domKey part (domain (s.ownPeer part) a.toNat).toNat) = none)
    (hhome : (s.pool (poolKey part die pool)).owns (a.toNat % 2 ^ 55) = true)
    (hone : ∀ q, q < 64 → (s.pool (part * 64 + q)).owns (a.toNat % 2 ^ 55) = true → q = die * 16 + pool) :
    let k := poolKey part die pool
    let page := domain (s.ownPeer part) a.toNat
    ∃ t, exec (.poolLend part die pool (some x) [a]) s = .next t
      ∧ t.pool k = { s.pool k with free := (t.pool k).free } ∧ page ∈ (t.pool k).free
      ∧ (∀ y ∈ (s.pool k).free, y ∈ (t.pool k).free) ∧ ∀ y ∈ (t.pool k).free, y ∈ (s.pool k).free ∨ y = page := by
  intro k page
  have hlva : page.toNat % 2 ^ 55 = a.toNat % 2 ^ 55 := domain_lva _ _
  have hpool : (s.homePage part page.toNat).pool k
      = { s.pool k with free := insertPage page (s.pool k).free } := by
    rw [State.homePage_unique hd hp (by rwa [hlva]) (by rwa [hlva]), State.pool_setPoolFree, if_pos rfl, w64,
      BitVec.ofNat_toNat, BitVec.setWidth_eq]
  refine ⟨_, exec_poolLend_return hd hp hrun x a hfree, ?_⟩
  rw [hpool]
  refine ⟨rfl, (mem_insertPage _ _ _).2 (.inl rfl), fun y hy => (mem_insertPage _ _ _).2 (.inr hy), fun y hy => ?_⟩
  exact ((mem_insertPage _ _ _).1 hy).symm

end Cases

/-- Settles O38: writes of CTRL and the unit's answers by what the device's accesses to the entry do; a borrow by what the next
die's pool and the peer give; a returned page by its home. -/
theorem pools : Obligations.Pools := by
  intro s part die pool pa k old ctrl hd hp hrun hpa
  refine ⟨pool_entry_held hd hp hrun hpa, fun hm hw => ⟨poolCtrlWrite_ready hd hp hrun hpa hm hw, fun hgo hq => ?_⟩, ?_,
    fun peer pgsz => ?_, fun peer pgsz a _ hfree hhome hone => poolLend_return hd hp hrun (peer, pgsz) a hfree hhome hone⟩
  · intro new word hheld
    have happ : s.Applies part die pool pa ctrl old new :=
      ⟨hd, hp, hrun, hpa, hm, hw, hq, rfl, hgo, rfl, rfl, hheld⟩
    exact ⟨happ.refused, happ.disabled, fun lva n tr hen hnew hn hsz hal hend har htr =>
      happ.enabled hen hnew hn hsz hal hend har htr⟩
  · intro nk given
    refine ⟨fun offer hask => ?_, fun offer hask hcan => poolLend_next hd hp hrun offer hask hcan,
      fun offer hask hcan => ⟨?_, ?_⟩⟩
    · rw [exec_poolLend_own hd hp hrun]
      simp only [show (s.pool (poolKey part die pool)).asking = false from hask, Bool.not_false, if_true]
    · intro hnone
      refine ⟨_, poolLend_unlent hd hp hrun offer hask hcan (.inl hnone), State.pool_settleBorrow_nil s k⟩
    · intro peer hpeer session
      refine ⟨fun herr => ?_, fun herr hclosed => ?_, fun herr hopen => ?_⟩
      · exact ⟨_, poolLend_unlent hd hp hrun offer hask hcan (.inr ⟨peer, hpeer, herr⟩), State.pool_settleBorrow_nil s k,
          s.setPoolFree_out k _⟩
      · exact poolLend_closed hd hp hrun offer hask hcan hpeer herr hclosed
      · obtain ⟨t, hexec, hhd, hout, hpool⟩ := poolLend_ask hd hp hrun offer hask hcan hpeer herr hopen
        exact ⟨t, _, hexec, rfl, hhd, hout, hpool⟩
  · intro e own may given w gone
    refine ⟨fun hclosed => ?_, fun hopen _ => ⟨fun hmay => ?_, fun hno => poolLend_decline hd hp hrun hopen hno⟩⟩
    · rw [exec_poolLend_peer hd hp hrun]
      simp only [show s.sessionOpen (entSession (s.peerEnt part peer)) = false from hclosed, Bool.not_false, if_true]
    · obtain ⟨hvalid, hen, hcan⟩ := hmay
      exact poolLend_give hd hp hrun hopen hvalid hen hcan

end Sys2Proof.Machine
end

section
/-! What a held request of a peer can change when it is served (R33–R35, R41, R46). -/

namespace Sys2Proof.Machine

open Sys2Proof

/-! ### Tables -/

theorem Tbl.mem_put {α : Type} {t : Tbl α} {n : Nat} {v : α} {x : Nat × α} (h : x ∈ Tbl.put t n v) : x = (n, v) ∨ x ∈ t := by
  rcases Tbl.mem_ins h with h | h
  · exact .inl h
  · exact .inr (Tbl.mem_del h).1

theorem Tbl.find_mapT {α : Type} (t : Tbl α) (f : Nat → α → α) (n : Nat) :
    Tbl.find (mapT t f) n = (Tbl.find t n).map (f n) := by
  induction t with
  | nil => rfl
  | cons e r ih =>
    obtain ⟨k, v⟩ := e
    by_cases hk : k = n
    · subst hk; simp [mapT, Tbl.find]
    · simpa [mapT, Tbl.find, hk] using ih

/-- A test that a name passes whatever its entry keeps what the name stands for. -/
theorem Tbl.find_keep {α : Type} (t : Tbl α) (f : Nat → α → Bool) {n : Nat} (h : ∀ v, f n v = true) :
    Tbl.find (keep t f) n = Tbl.find t n := by
  induction t with
  | nil => rfl
  | cons e r ih =>
    obtain ⟨k, v⟩ := e
    by_cases hk : k = n
    · subst hk; simp [keep, Tbl.find, h]
    · cases hf : f k v with
      | true => simpa [keep, Tbl.find, hf, hk] using ih
      | false => simpa [keep, Tbl.find, hf, hk] using ih

theorem mem_keep {α : Type} {t : Tbl α} {f : Nat → α → Bool} {e : Nat × α} : e ∈ keep t f ↔ e ∈ t ∧ f e.1 e.2 = true :=
  List.mem_filter

/-- What a table keeps passes its test. -/
theorem Tbl.find_keep_some {α : Type} {t : Tbl α} {f : Nat → α → Bool} {n : Nat} {v : α} (h : Tbl.find (keep t f) n = some v) :
    f n v = true := (mem_keep.1 (Tbl.mem_of_find h)).2

/-! ### Serving requests -/

/-- What serving requests of peers may change: memory, dies, TLBs and faults of partitions in RUN, sequence numbers, and what the
module has sent out; the configuration and all other work stand. -/
structure State.Serves (s t : State) : Prop where
  rest : t = { s with
    hd := t.hd, rtSeq := t.rtSeq, freeIdx := t.freeIdx, nextId := t.nextId, inbound := t.inbound, faults := t.faults
    tlb := t.tlb, mem := t.mem, tags := t.tags, rel := t.rel, dies := t.dies, devWrites := t.devWrites, out := t.out }
  hd : t.hd = { s.hd with linkSessions := t.hd.linkSessions }
  sessions : ∀ k x, Tbl.find t.hd.linkSessions k = some x → ∃ y, Tbl.find s.hd.linkSessions k = some y ∧ x.part = y.part
  faults : ∀ e ∈ t.faults, e ∈ s.faults ∨ (s.part e.2.part).tdi = .run
  tlb : ∀ e ∈ t.tlb, e ∈ s.tlb ∨ (s.part e.part).tdi = .run
  out : s.out <+: t.out

namespace State.Serves

variable {s t u : State}

theorem parts (h : s.Serves t) : t.parts = s.parts := by rw [h.rest]

theorem part (h : s.Serves t) (p : Nat) : t.part p = s.part p := State.part_congr h.parts p

theorem refl (s : State) : s.Serves s :=
  ⟨rfl, rfl, fun _ x h => ⟨x, h, rfl⟩, fun _ h => .inl h, fun _ h => .inl h, List.prefix_refl _⟩

theorem trans (h : s.Serves t) (h' : t.Serves u) : s.Serves u where
  rest := by rw [h'.rest, h.rest]
  hd := by rw [h'.hd, h.hd]
  sessions k x hx := by
    obtain ⟨y, hy, hxy⟩ := h'.sessions k x hx
    obtain ⟨z, hz, hyz⟩ := h.sessions k y hy
    exact ⟨z, hz, hxy.trans hyz⟩
  faults e he := by
    rcases h'.faults e he with hm | hr
    · exact h.faults e hm
    · exact .inr (by rw [← h.part]; exact hr)
  tlb e he := by
    rcases h'.tlb e he with hm | hr
    · exact h.tlb e hm
    · exact .inr (by rw [← h.part]; exact hr)
  out := h.out.trans h'.out

/-- A change of memory alone. -/
theorem of_alike (h : s.AlikeButMem t) : s.Serves t := by
  unfold State.AlikeButMem at h
  rw [h]
  exact ⟨rfl, rfl, fun _ x h => ⟨x, h, rfl⟩, fun _ h => .inl h, fun _ h => .inl h, List.prefix_refl _⟩

/-- Steps that each serve, one after another. -/
theorem foldl {α : Type} (f : State → α → State) (hf : ∀ (s : State) a, s.Serves (f s a)) (l : List α) (s : State) :
    s.Serves (l.foldl f s) := by
  induction l generalizing s with
  | nil => exact refl s
  | cons a l ih => exact (hf s a).trans (ih _)

theorem foldl_fst {α β : Type} (f : State × β → α → State × β) (hf : ∀ (x : State × β) a, x.1.Serves (f x a).1) (l : List α)
    (x : State × β) : x.1.Serves (l.foldl f x).1 := by
  induction l generalizing x with
  | nil => exact refl x.1
  | cons a l ih => exact (hf x a).trans (ih _)

end State.Serves

theorem State.emit_serves (s : State) (o : Out) : s.Serves (s.emit o) :=
  ⟨rfl, rfl, fun _ x h => ⟨x, h, rfl⟩, fun _ h => .inl h, fun _ h => .inl h, List.prefix_append _ _⟩

/-- A packet takes the next number of a session that stands. -/
theorem State.takeWireTo_serves (s : State) (part core phys n : Nat) (cls : RClass) :
    s.Serves (s.takeWireTo part core phys n cls).2 := by
  refine ⟨rfl, rfl, fun k x hx => ?_, fun _ h => .inl h, fun _ h => .inl h, List.prefix_refl _⟩
  rw [State.takeWireTo, Tbl.find_upd] at hx
  split at hx
  · next hk =>
    obtain ⟨y, hy, rfl⟩ := Option.map_eq_some_iff.1 hx
    exact ⟨y, hk ▸ hy, rfl⟩
  · exact ⟨x, hx, rfl⟩

theorem State.inbound_serves (s : State) (l : Tbl Inbound) : s.Serves { s with inbound := l } :=
  ⟨rfl, rfl, fun _ x h => ⟨x, h, rfl⟩, fun _ h => .inl h, fun _ h => .inl h, List.prefix_refl _⟩

theorem State.answer_serves (s : State) (id : Nat) (p : Packet) (r : Reply) : s.Serves (s.answer id p r) :=
  ((s.takeWireTo_serves p.dstPart (inboundDie * 64 + p.ident.coreNum % 64) p.srcPhys (s.replySession p) p.cls).trans
    (State.inbound_serves _ (Tbl.del s.inbound id))).trans (State.emit_serves _ (.response p r (s.replyWire p).1))

/-- A TLB keeps translations of partitions in RUN alone. -/
theorem State.fillTlb_serves (s : State) (die part lva : Nat) : s.Serves (s.fillTlb die part lva) := by
  unfold State.fillTlb
  split
  · exact .refl s
  · next hno =>
    have hrun : (s.part part).tdi = .run := by
      simp only [Bool.or_eq_true, not_or, bne_iff_ne, ne_eq, not_not] at hno
      exact hno.2
    split
    · split
      · refine ⟨rfl, rfl, fun _ x h => ⟨x, h, rfl⟩, fun _ h => .inl h, fun e he => ?_, List.prefix_refl _⟩
        rcases List.mem_cons.1 he with rfl | he
        · exact .inr hrun
        · rcases List.mem_append.1 he with he | he
          · exact .inl (List.mem_filter.1 (List.mem_of_mem_take he)).1
          · exact .inl (List.mem_filter.1 he).1
      · exact .refl s
    · exact .refl s

theorem State.locSetTag_mem_alike (s : State) (pa : Nat) (tag : Bool) : s.AlikeButMem (s.locSetTag (.mem pa) tag) := by
  unfold State.locSetTag
  split <;> rfl

/-- An access to memory changes memory alone. -/
theorem State.doAcc_mem_alike (s : State) (pa size : Nat) (op : ReqOp) (rel : Option Rel) (skip : Nat → Bool) :
    s.AlikeButMem (s.doAcc (.mem pa) size op rel skip).1 := by
  unfold State.doAcc
  cases op with
  | read => exact .refl s
  | fetch => exact .refl s
  | write data tag =>
    dsimp only
    split
    · exact .refl s
    · exact ((s.locWrite_mem_alike pa _).trans (State.locSetTag_mem_alike _ _ _)).trans (State.recordRel_alike _ _ _ _ _)
  | atom o x y =>
    dsimp only
    split
    · exact (s.locWrite_mem_alike pa _).trans (State.recordRel_alike _ _ _ _ _)
    · exact .refl s

theorem State.performReq_serves (s : State) (p : Packet) (locs : List Nat) : s.Serves (s.performReq p locs).1 := by
  refine State.Serves.foldl_fst _ (fun x a => ?_) _ (s, [])
  obtain ⟨u, vs⟩ := x
  obtain ⟨a, i⟩ := a
  have hacc := State.Serves.of_alike (u.doAcc_mem_alike (locs.getD i 0) a.size a.op
    (if p.rel then some (Rel.by_ p.scope p.ident) else none) fun _ => false)
  dsimp only
  split
  · exact hacc.trans (.of_alike (State.doAcc_mem_alike _ _ _ _ _ _))
  · exact hacc

theorem State.serveReq_serves (s : State) (id : Nat) (p : Packet) (locs : List Nat) : s.Serves (s.serveReq id p locs) := by
  unfold State.serveReq
  refine State.Serves.trans ?_ ((State.performReq_serves _ p locs).trans (State.answer_serves _ id p _))
  refine (State.Serves.foldl _ (fun s pa => .of_alike (s.touch_alike pa)) locs s).trans ?_
  exact State.Serves.foldl _ (fun s w => s.fillTlb_serves _ _ _) _ _

/-- A partition whose table accepts a source is in RUN (R60). -/
theorem State.acceptsFrom_run {s : State} {p : Packet} (h : s.acceptsFrom p ≠ none) : (s.part p.dstPart).tdi = .run := by
  by_contra hno
  exact h (by simp [State.acceptsFrom, hno])

theorem State.raise_serves {s : State} {part : Nat} (lva kind : Nat) (path : Path) (src core : Nat) (owner : Owner)
    (lane : Option Nat) (alloc : Bool) (hrun : (s.part part).tdi = .run) :
    s.Serves (s.raise part lva kind path src core owner lane alloc).2 := by
  refine ⟨rfl, rfl, fun _ x h => ⟨x, h, rfl⟩, fun e he => ?_, fun _ h => .inl h, List.prefix_refl _⟩
  rcases Tbl.mem_put he with rfl | he
  · exact .inr hrun
  · exact .inl he

theorem State.tryInbound_serves (s : State) (id : Nat) : s.Serves (s.tryInbound id) := by
  unfold State.tryInbound
  cases hq : Tbl.find s.inbound id with
  | none => exact .refl s
  | some q =>
    dsimp only
    split
    · exact .refl s
    cases hacc : s.acceptsFrom q.pkt with
    | none => exact (s.answer_serves id q.pkt .error).trans (State.emit_serves _ _)
    | some peer =>
      have hrun : (s.part q.pkt.dstPart).tdi = .run := State.acceptsFrom_run (by simp [hacc])
      dsimp only
      split
      · exact .refl s
      split
      · exact s.answer_serves id _ _
      · exact .refl s
      · exact (State.raise_serves _ _ _ _ _ _ _ _ hrun).trans (State.inbound_serves _ _)
      · split
        · exact s.serveReq_serves id _ _
        · exact .refl s

theorem State.serveInbound_serves (s : State) : s.Serves s.serveInbound :=
  State.Serves.foldl _ (fun s id => s.tryInbound_serves id) _ s

end Sys2Proof.Machine
end

section
/-! The end of a partition's RUN, and the failures of links that bring it about (R27, R46, R48, R60, R61, R99). -/

namespace Sys2Proof.Machine

open Sys2Proof

/-! ### The end of RUN (R60) -/

/-- A partition as the end of its RUN leaves it: no key, no scope; its core groups are held from now on. -/
def Partition.released (x : Partition) (clock : Nat) : Partition :=
  { x with key := none, scopes := [], turn := 0, faultSeq := 0, held := x.cgmask, heldAt := clock }

/-- The module without the work, the stores, the sessions and the waiting accesses of a partition; requests of peers that wait
may be served then. -/
def State.stripped (s : State) (p : Nat) : State :=
  { ((s.dropWork p).dropStores p).setPart p ((s.part p).released s.clock) with
    hd := { s.hd with linkSessions := keep s.hd.linkSessions fun _ x => x.part != p }
    apOps := keep s.apOps fun _ o => o.part != p }

theorem State.part_stripped (s : State) (p q : Nat) :
    (s.stripped p).part q = if q = p then (s.part p).released s.clock else s.part q :=
  s.part_setPart p _ q

theorem foldl_emit (l : List Nat) (s : State) (o : Out) :
    l.foldl (fun (s : State) _ => s.emit o) s = { s with out := s.out ++ List.replicate l.length o } := by
  induction l generalizing s with
  | nil => simp
  | cons a l ih =>
    rw [List.foldl_cons, ih]
    simp [State.emit, List.replicate_succ]

/-- The waiting accesses of a partition abort, and the requests to it are answered. -/
theorem State.dropHeld_serves (s : State) (p : Nat) :
    State.Serves { s with apOps := keep s.apOps fun _ o => o.part != p } (s.dropHeld p) := by
  refine State.Serves.trans ?_ (State.serveInbound_serves _)
  rw [foldl_emit]
  exact ⟨rfl, rfl, fun _ x h => ⟨x, h, rfl⟩, fun _ h => .inl h, fun _ h => .inl h, List.prefix_append _ _⟩

theorem State.endRun_serves (s : State) (p : Nat) : (s.stripped p).Serves (s.endRun p) :=
  State.dropHeld_serves { ((s.dropWork p).dropStores p).setPart p ((s.part p).released s.clock) with
    hd := { s.hd with linkSessions := keep s.hd.linkSessions fun _ x => x.part != p } } p

/-- A weave whose surroundings are there belongs to the partition of a field. -/
theorem State.env_field {s : State} {n : Nat} {e : Env} (h : s.env n = some e) : ∃ k, (k, e.f) ∈ s.fields := by
  unfold State.env at h
  split at h
  · cases h
  split at h
  · cases h
  split at h
  · cases h
  split at h
  · cases h
  · next f hf =>
    obtain rfl := Option.some.inj h
    exact ⟨_, Tbl.mem_of_find hf⟩

theorem ne_of_mem_keep {α : Type} {t : Tbl α} {g : α → Nat} {p : Nat} {e : Nat × α} (h : e ∈ keep t fun _ x => g x != p) :
    g e.2 ≠ p := by simpa using (mem_keep.1 h).2

/-- RUN has ended: nothing of a partition that has left it remains. -/
theorem State.endRun_torn {s : State} {p : Nat} (hno : (s.part p).tdi ≠ .run) : s.Torn (s.endRun p) p := by
  have hserve := s.endRun_serves p
  have hpart (q : Nat) : (s.endRun p).part q = if q = p then (s.part p).released s.clock else s.part q :=
    (hserve.part q).trans (s.part_stripped p q)
  have hself : (s.endRun p).part p = (s.part p).released s.clock := (hpart p).trans (if_pos rfl)
  have hstopped : ((s.stripped p).part p).tdi ≠ .run := by
    rw [s.part_stripped, if_pos rfl]
    exact hno
  have hrest := hserve.rest
  have hfields (e) (he : e ∈ (s.endRun p).fields) : e.2.part ≠ p := by
    rw [hrest] at he
    exact ne_of_mem_keep he
  refine ⟨?_, fun q hq => (hpart q).trans (if_neg hq), fun n e he => ?_, hfields, ?_, ?_, ?_, ?_, ?_, ?_, fun e he => ?_, ?_,
    fun e he => ?_, ?_, ?_, fun k x hx => ?_⟩
  · rw [hself]
    rfl
  · obtain ⟨k, hk⟩ := State.env_field he
    exact hfields _ hk
  · rw [hrest]; exact fun e he => ne_of_mem_keep he
  · rw [hrest]; exact fun e he => ne_of_mem_keep he
  · rw [hrest]; exact fun e he => ne_of_mem_keep he
  · rw [hrest]; exact fun e he => ne_of_mem_keep he
  · rw [hrest]; exact fun e he => ne_of_mem_keep he
  · rw [hrest]; exact fun e he => ne_of_mem_keep he
  · rcases hserve.faults e he with hold | hrun
    · exact ne_of_mem_keep hold
    · exact fun hp => hstopped (hp ▸ hrun)
  · rw [hrest]
    exact (Tbl.find_del s.shoots p p).trans (if_pos rfl)
  · rcases hserve.tlb e he with hold | hrun
    · simpa using (List.mem_filter.1 hold).2
    · exact fun hp => hstopped (hp ▸ hrun)
  · rw [hrest]
    intro e he
    have hkept : e ∈ keep s.pools fun k _ => k / 64 != p := he
    simpa using (mem_keep.1 hkept).2
  · rw [hrest]; exact fun e he => ne_of_mem_keep he
  · obtain ⟨y, hy, hxy⟩ := hserve.sessions k x hx
    have hkept : Tbl.find (keep s.hd.linkSessions fun _ x => x.part != p) k = some y := hy
    rw [hxy]
    simpa using Tbl.find_keep_some hkept

/-- What RUN's end says depends on the other partitions, on CLOCK and on the partition but for its state, key and scopes. -/
theorem State.Torn.of_before {s u t : State} {p : Nat} (h : u.Torn t p) (hclock : u.clock = s.clock)
    (hothers : ∀ q, q ≠ p → u.part q = s.part q)
    (hpart : u.part p = { s.part p with
      tdi := (u.part p).tdi, locking := (u.part p).locking, key := (u.part p).key, scopes := (u.part p).scopes }) :
    s.Torn t p := by
  refine { h with config := ?_, others := fun q hq => (h.others q hq).trans (hothers q hq) }
  have hc := h.config
  rw [hclock, hpart] at hc
  exact hc

/-- It says nothing of what the module sends out. -/
theorem State.Torn.emit {s t : State} {p : Nat} (h : s.Torn t p) (o : Out) : s.Torn (t.emit o) p :=
  ⟨h.config, h.others, h.weaves, h.fields, h.records, h.copies, h.kvOps, h.mxReqs, h.scopeOps, h.cancels, h.faults, h.shoot,
    h.tlb, h.pools, h.apOps, h.sessions⟩

/-! ### Entering ERROR (R60) -/

/-- The states of the TDI from which a partition can enter ERROR. -/
def Partition.runs (x : Partition) : Prop := x.tdi = .locked ∨ x.tdi = .run

theorem State.enterError_of_runs {s : State} {p : Nat} (h : (s.part p).runs) :
    s.enterError p = (s.setPart p { s.part p with tdi := .error }).endRun p := by
  unfold State.enterError
  rcases h with h | h <;> rw [h]

theorem State.enterError_of_not_runs {s : State} {p : Nat} (h : ¬ (s.part p).runs) : s.enterError p = s := by
  unfold State.enterError
  split
  · next hl => exact absurd (.inl hl) h
  · next hr => exact absurd (.inr hr) h
  · rfl

/-- A partition that is locked or runs enters ERROR. -/
theorem State.enterError_errs {s : State} {p : Nat} (h : (s.part p).runs) : s.Errs (s.enterError p) p := by
  rw [State.enterError_of_runs h]
  have hset : (s.setPart p { s.part p with tdi := .error }).part p = { s.part p with tdi := .error } :=
    (s.part_setPart p _ p).trans (if_pos rfl)
  have htorn : (s.setPart p { s.part p with tdi := .error }).Torn
      ((s.setPart p { s.part p with tdi := .error }).endRun p) p := State.endRun_torn (by rw [hset]; simp)
  refine ⟨?_, htorn.of_before rfl (fun q hq => (s.part_setPart p _ q).trans (if_neg hq)) (by rw [hset])⟩
  rw [(State.endRun_serves _ p).part, State.part_stripped, if_pos rfl, hset]
  rfl

/-- What the entry into ERROR of any partition leaves of the host die, of what has been sent, and of the fields. -/
structure State.Lessens (s t : State) : Prop where
  hd : t.hd = { s.hd with linkSessions := t.hd.linkSessions }
  out : s.out <+: t.out
  fields : ∀ f ∈ t.fields, f ∈ s.fields

theorem State.Lessens.refl (s : State) : s.Lessens s := ⟨rfl, List.prefix_refl _, fun _ h => h⟩

theorem State.Lessens.trans {s t u : State} (h : s.Lessens t) (h' : t.Lessens u) : s.Lessens u :=
  ⟨by rw [h'.hd, h.hd], h.out.trans h'.out, fun f hf => h.fields f (h'.fields f hf)⟩

theorem State.endRun_lessens (s : State) (p : Nat) : s.Lessens (s.endRun p) := by
  have hserve := s.endRun_serves p
  refine ⟨?_, hserve.out, fun f hf => ?_⟩
  · rw [hserve.hd]; rfl
  · rw [hserve.rest] at hf
    have hkept : f ∈ keep s.fields fun _ f => f.part != p := hf
    exact (mem_keep.1 hkept).1

theorem State.enterError_lessens (s : State) (p : Nat) : s.Lessens (s.enterError p) := by
  by_cases h : (s.part p).runs
  · rw [State.enterError_of_runs h]
    have hset : s.Lessens (s.setPart p { s.part p with tdi := .error }) := ⟨rfl, List.prefix_refl _, fun _ h => h⟩
    exact hset.trans (State.endRun_lessens _ p)
  · rw [State.enterError_of_not_runs h]
    exact .refl s

theorem State.enterError_others (s : State) {p q : Nat} (h : q ≠ p) : (s.enterError p).part q = s.part q := by
  by_cases hr : (s.part p).runs
  · exact (State.enterError_errs hr).2.others q h
  · rw [State.enterError_of_not_runs hr]

/-! ### Several partitions enter ERROR -/

/-- A partition in ERROR, with no key, no scope and no field. -/
structure State.Down (s : State) (p : Nat) : Prop where
  tdi : (s.part p).tdi = .error
  key : (s.part p).key = none
  scopes : (s.part p).scopes = []
  fields : ∀ f ∈ s.fields, f.2.part ≠ p

theorem State.Errs.down {s t : State} {p : Nat} (h : s.Errs t p) : t.Down p := by
  obtain ⟨htdi, htorn⟩ := h
  exact ⟨htdi, by rw [htorn.config], by rw [htorn.config], htorn.fields⟩

theorem State.Down.enterError {s : State} {p : Nat} (h : s.Down p) (q : Nat) : (s.enterError q).Down p := by
  by_cases hqp : p = q
  · subst hqp
    have hno : ¬ (s.part p).runs := by simp [Partition.runs, h.tdi]
    rw [State.enterError_of_not_runs hno]
    exact h
  · have hpart := s.enterError_others hqp
    exact ⟨hpart ▸ h.tdi, hpart ▸ h.key, hpart ▸ h.scopes, fun f hf => h.fields f ((s.enterError_lessens q).fields f hf)⟩

section Fold

variable {p : Nat}

theorem State.foldl_enterError_lessens (l : List Nat) (s : State) : s.Lessens (l.foldl State.enterError s) := by
  induction l generalizing s with
  | nil => exact .refl s
  | cons q l ih => exact (s.enterError_lessens q).trans (ih _)

theorem State.Down.foldl {s : State} (h : s.Down p) (l : List Nat) : (l.foldl State.enterError s).Down p := by
  induction l generalizing s with
  | nil => exact h
  | cons q l ih => exact ih (h.enterError q)

/-- Of several partitions that enter ERROR, each that is locked or runs is in ERROR in the end. -/
theorem State.foldl_enterError_down {l : List Nat} {s : State} (hp : p ∈ l) (h : (s.part p).runs) :
    (l.foldl State.enterError s).Down p := by
  induction l generalizing s with
  | nil => cases hp
  | cons q l ih =>
    by_cases hpq : p = q
    · subst hpq
      exact (State.enterError_errs h).down.foldl l
    · refine ih ((List.mem_cons.1 hp).resolve_left hpq) ?_
      rw [s.enterError_others hpq]
      exact h

/-- A partition that is not among them, or that neither is locked nor runs, stays as it is. -/
theorem State.foldl_enterError_part {l : List Nat} {s : State} (h : p ∉ l ∨ ¬ (s.part p).runs) :
    (l.foldl State.enterError s).part p = s.part p := by
  induction l generalizing s with
  | nil => rfl
  | cons q l ih =>
    have hstep : (s.enterError q).part p = s.part p := by
      by_cases hpq : p = q
      · subst hpq
        rw [State.enterError_of_not_runs (h.resolve_left fun hn => hn (List.mem_cons_self ..))]
      · exact s.enterError_others hpq
    rw [List.foldl_cons, ih, hstep]
    rw [hstep]
    exact h.imp_left fun hn hm => hn (List.mem_cons_of_mem _ hm)

end Fold

/-! ### Failures of links (R46, R48) -/

theorem State.setReady_parts (s : State) (bit : Nat) (b : Bool) : (s.setReady bit b).parts = s.parts := by
  unfold State.setReady
  split <;> rfl

theorem State.setReady_clock (s : State) (bit : Nat) (b : Bool) : (s.setReady bit b).clock = s.clock := by
  unfold State.setReady
  split <;> rfl

theorem State.ready_setReady (s : State) {bit : Nat} (h : bit < 64) (b : Bool) : (s.setReady bit b).ready bit = b := by
  unfold State.setReady
  split
  · assumption
  · exact (getLsbD_setBit64 _ _ _ h).trans (if_pos rfl)

theorem State.Lessens.ready {s t : State} (h : s.Lessens t) (bit : Nat) : t.ready bit = s.ready bit := by
  rw [State.ready, h.hd, State.ready]

theorem State.Lessens.fatal {s t : State} (h : s.Lessens t) : t.hd.fatal = s.hd.fatal := by rw [h.hd]

/-- A partition that is not at its reset values is listed. -/
theorem State.mem_parts_of_tdi {s : State} {p : Nat} (h : (s.part p).tdi ≠ .unlocked) : (p, s.part p) ∈ s.parts := by
  cases hf : Tbl.find s.parts p with
  | none =>
    have hinit : s.part p = Partition.initial := by rw [State.part, Tbl.get, hf]; rfl
    exact absurd (by rw [hinit]; rfl) h
  | some x =>
    have hx : s.part p = x := by rw [State.part, Tbl.get, hf]; rfl
    rw [hx]
    exact Tbl.mem_of_find hf

theorem Partition.runs.locked {x : Partition} (h : x.runs) : x.tdi ≠ .unlocked := by
  rcases h with h | h <;> rw [h] <;> simp

theorem exec_ideIntegrityFailure_vf (s : State) {p : Nat} (hp : p < 16) :
    exec (.ideIntegrityFailure (p + 1)) s = .next (s.enterError p) := by
  simp [execIdeIntegrityFailure, partOf, show p + 1 ≤ 16 by omega]

theorem exec_authTagFailure_eq (s : State) {port p : Nat} (hport : port < 32) (hp : p < 16) :
    exec (.authTagFailure port p) s = .next (((s.setReady (fprdy port) false).enterError p).emit (.authFailure p)) := by
  simp [execAuthTagFailure, Nat.not_le.2 hport, Nat.not_le.2 hp]

theorem exec_cxlIdeFailure_eq (s : State) {port : Nat} (hport : port < 8) :
    exec (.cxlIdeFailure port) s = .next
      ((keysOf s.parts fun _ x => s.onPort x port).foldl State.enterError (s.setReady (cxlrdy port) false)) := by
  simp [execCxlIdeFailure, Nat.not_le.2 hport]

theorem State.onPort_iff (s : State) (x : Partition) (port : Nat) :
    s.onPort x port = true ↔ ∃ w ∈ x.gibs, ∃ k, k < w.2 ∧ s.bank ((w.1 + k) * 2 ^ 30) = .cxl port := by
  simp only [State.onPort, List.any_eq_true, List.mem_range, beq_iff_eq]
  rfl

theorem mem_keysOf {α : Type} {t : Tbl α} {f : Nat → α → Bool} {k : Nat} :
    k ∈ keysOf t f ↔ ∃ x, (k, x) ∈ t ∧ f k x = true := by
  simp [keysOf]

/-- The state in which the partitions of a module that shuts down enter ERROR. -/
def State.withFatal (s : State) : State := { s with hd := { s.hd with fatal := true }, out := s.out ++ [.fatal] }

theorem exec_thermalShutdown_eq (s : State) {die : Nat} (hd : die < 4) :
    exec (.thermalShutdown die) s = .next ((Tbl.keys s.parts).foldl State.enterError s.withFatal) := by
  simp only [exec_thermalShutdown, execThermalShutdown, if_neg (Nat.not_le.2 hd)]
  rfl

theorem Tbl.mem_keys {α : Type} {t : Tbl α} {k : Nat} {x : α} (h : (k, x) ∈ t) : k ∈ Tbl.keys t :=
  List.mem_map.2 ⟨(k, x), h, rfl⟩

/-! ### Core groups that are held (R60) -/

/-- The module in which nothing of what a partition has under way is waited for any more. -/
def State.freed (s : State) (p : Nat) : State :=
  { s with
    legs := keep s.legs fun _ l => l.pkt.srcPart != p
    ott := keep s.ott fun _ o => !(s.underWay p).contains o.op
    lsOps := keep s.lsOps fun k _ => !(s.underWay p).contains k }.setPart p { s.part p with held := 0 }

theorem exec_coreGroupsFreed_done {s : State} {p : Nat} (hheld : (s.part p).held ≠ 0)
    (h : s.underWay p = [] ∧ s.legsAway p = false ∨ (s.part p).heldAt + 10000 * Config.us ≤ s.clock) :
    exec (.coreGroupsFreed p) s = .next (s.freed p) := by
  have hno : ¬ ((s.part p).held = 0 ∨ ((!(s.underWay p).isEmpty) = true ∨ s.legsAway p = true)
      ∧ s.clock < (s.part p).heldAt + 10000 * Config.us) := by
    rintro (h0 | ⟨hway, hearly⟩)
    · exact hheld h0
    · rcases h with ⟨hnone, hnoleg⟩ | hlate
      · simp [hnone, hnoleg] at hway
      · exact absurd hearly (Nat.not_lt.2 hlate)
  simp only [exec_coreGroupsFreed, execCoreGroupsFreed, if_neg hno]
  rfl

theorem exec_coreGroupsFreed_early {s : State} {p : Nat} (h : s.underWay p ≠ [] ∨ s.legsAway p = true)
    (hearly : s.clock < (s.part p).heldAt + 10000 * Config.us) : exec (.coreGroupsFreed p) s = .next s := by
  have hyes : (s.part p).held = 0 ∨ ((!(s.underWay p).isEmpty) = true ∨ s.legsAway p = true)
      ∧ s.clock < (s.part p).heldAt + 10000 * Config.us := .inr ⟨h.imp_left (by simp), hearly⟩
  simp only [exec_coreGroupsFreed, execCoreGroupsFreed, if_pos hyes]

theorem State.freed_spec (s : State) (p : Nat) :
    let t := s.freed p
    t = { s with parts := t.parts, ott := t.ott, lsOps := t.lsOps, legs := t.legs }
    ∧ (∀ e, e ∈ t.legs ↔ e ∈ s.legs ∧ e.2.pkt.srcPart ≠ p) ∧ t.part p = { s.part p with held := 0 }
    ∧ (∀ q, q ≠ p → t.part q = s.part q) ∧ (∀ n, n ∉ s.underWay p → Tbl.find t.lsOps n = Tbl.find s.lsOps n) := by
  refine ⟨rfl, fun e => ?_, (s.part_setPart p _ p).trans (if_pos rfl), fun q hq => (s.part_setPart p _ q).trans (if_neg hq),
    fun n hn => ?_⟩
  · have hkeep : e ∈ keep s.legs (fun _ l => l.pkt.srcPart != p) ↔ e ∈ s.legs ∧ e.2.pkt.srcPart ≠ p := by
      rw [mem_keep, bne_iff_ne]
    exact hkeep
  · exact Tbl.find_keep s.lsOps (fun k _ => !(s.underWay p).contains k) fun _ => by simpa using hn

/-! ### The obligation -/

/-- Settles O52: every failure is an entry into ERROR of one partition or of several, and what the entry leaves alone stays. -/
theorem linkFailures : Obligations.LinkFailures := by
  intro s p hp x runs
  refine ⟨fun h => ⟨_, exec_ideIntegrityFailure_vf s hp, State.enterError_errs h⟩, fun h => ?_, fun port hport => ?_,
    fun port hport => ?_, fun die hd => ?_, fun hheld => ⟨fun h => ?_, fun h hearly => exec_coreGroupsFreed_early h hearly⟩⟩
  · rw [exec_ideIntegrityFailure_vf s hp, State.enterError_of_not_runs h]
  · let u := s.setReady (fprdy port) false
    have hparts : u.parts = s.parts := s.setReady_parts _ _
    have hpart (q : Nat) : u.part q = s.part q := State.part_congr hparts q
    refine ⟨_, exec_authTagFailure_eq s hport hp, ?_, ⟨_, rfl⟩, fun h => ?_, fun h => ?_⟩
    · exact ((u.enterError_lessens p).ready _).trans (s.ready_setReady (by unfold fprdy; omega) false)
    · obtain ⟨htdi, htorn⟩ := State.enterError_errs (s := u) (p := p) (by rw [hpart]; exact h)
      exact ⟨htdi, (htorn.of_before (s.setReady_clock _ _) (fun q _ => hpart q) (by rw [hpart])).emit _⟩
    · have hno : ¬ (u.part p).runs := by rw [hpart]; exact h
      exact (congrArg State.parts (State.enterError_of_not_runs hno)).trans hparts
  · let u := s.setReady (cxlrdy port) false
    have hparts : u.parts = s.parts := s.setReady_parts _ _
    have hpart (q : Nat) : u.part q = s.part q := State.part_congr hparts q
    refine ⟨_, exec_cxlIdeFailure_eq s hport, ?_, fun h hwin => ?_, fun h => ?_⟩
    · exact ((State.foldl_enterError_lessens _ u).ready _).trans (s.ready_setReady (by unfold cxlrdy; omega) false)
    · have hmem : p ∈ keysOf s.parts fun _ x => s.onPort x port :=
        mem_keysOf.2 ⟨x, State.mem_parts_of_tdi (Partition.runs.locked h), (s.onPort_iff x port).2 hwin⟩
      obtain ⟨htdi, hkey, hscopes, hfields⟩ := State.foldl_enterError_down hmem (s := u) (by rw [hpart]; exact h)
      exact ⟨htdi, hkey, hscopes, hfields⟩
    · have hnot : p ∉ keysOf s.parts fun _ x => s.onPort x port := fun hmem => by
        obtain ⟨y, hy, hon⟩ := mem_keysOf.1 hmem
        obtain ⟨w, hw, k, hk, hbank⟩ := (s.onPort_iff y port).1 hon
        exact h (p, y) hy rfl w hw k hk hbank
      exact (State.foldl_enterError_part (.inl hnot)).trans (hpart p)
  · have hless := State.foldl_enterError_lessens (Tbl.keys s.parts) s.withFatal
    refine ⟨_, exec_thermalShutdown_eq s hd, hless.fatal, hless.out.subset (by simp [State.withFatal]), fun h => ?_,
      fun h => ?_⟩
    · have hmem : p ∈ Tbl.keys s.parts := Tbl.mem_keys (State.mem_parts_of_tdi (Partition.runs.locked h))
      obtain ⟨htdi, hkey, hscopes, hfields⟩ := State.foldl_enterError_down hmem (s := s.withFatal) h
      exact ⟨htdi, hkey, hscopes, hfields⟩
    · exact State.foldl_enterError_part (s := s.withFatal) (.inr h)
  · exact ⟨_, exec_coreGroupsFreed_done hheld h, s.freed_spec p⟩

end Sys2Proof.Machine
end

section
/-! The interfaces of the partitions: lock, scrub, START and STOP, reports (R54–R60, R85, R130). -/

namespace Sys2Proof.Machine

open Sys2Proof

/-! ### The lock (R59) -/

section Lock

variable {s : State} {p : Nat}

theorem not_secured_or {p : Nat} (hs : s.secured = true) (hp : p < 16) : ¬ ((!s.secured) = true ∨ p ≥ 16) := by
  rw [hs]
  simp
  omega

theorem not_secured {p : Nat} (hs : s.secured = false) : (!s.secured) = true ∨ p ≥ 16 := .inl (by rw [hs]; rfl)

theorem exec_lock_closed (hs : s.secured = true) (hp : p < 16) (h : (s.part p).tdi ≠ .unlocked ∨ (s.part p).locking = true) :
    exec (.lockInterfaceRequest p) s = .next (s.emit (.tdisp p 8)) := by
  have hclosed : (!(s.part p).open_) = true := by
    rcases h with h | h
    · simp [Partition.open_, h]
    · simp [Partition.open_, h]
  rw [exec_lockInterfaceRequest, execLockInterfaceRequest, if_neg (not_secured_or hs hp), if_pos hclosed]
  rfl

theorem exec_lock_open (hs : s.secured = true) (hp : p < 16) (htdi : (s.part p).tdi = .unlocked)
    (hlock : (s.part p).locking = false) :
    exec (.lockInterfaceRequest p) s = .next (
      if s.lockCheck p = 0 then
        State.setPart { s with nextId := s.nextId + 1 } p { s.part p with locking := true, key := some (s.nextId + 1) }
      else s.emit (.tdisp p (s.lockCheck p))) := by
  have hopen : ¬ (!(s.part p).open_) = true := by simp [Partition.open_, htdi, hlock]
  rw [exec_lockInterfaceRequest, execLockInterfaceRequest, if_neg (not_secured_or hs hp), if_neg hopen]
  cases hc : s.lockCheck p with
  | zero => rfl
  | succ c => rfl

/-- What a lock whose checks pass has found (R59). -/
structure State.LockPasses (s : State) (p : Nat) : Prop where
  cgmask : (s.part p).cgmask ≠ 0
  online : (s.part p).cgmask &&& s.hd.cgOffline = 0
  rivals : ∀ e ∈ s.rivals p, (s.part p).cgmask &&& e.2.cgmask = 0
  windows : s.windowsOk p = true
  msixn : (s.part p).msixn ≠ 0 ∧ (s.part p).msixn.toNat ≤ 64
  ide : p + 1 ∈ s.hd.ide

theorem State.lockPasses_of_check (h : s.lockCheck p = 0) : s.LockPasses p := by
  unfold State.lockCheck at h
  dsimp only at h
  split at h
  · exact absurd h (by decide)
  next h1 =>
  split at h
  · exact absurd h (by decide)
  next h2 =>
  split at h
  · exact absurd h (by decide)
  next h3 =>
  split at h
  · exact absurd h (by decide)
  next h4 =>
  split at h
  · exact absurd h (by decide)
  split at h
  · exact absurd h (by decide)
  split at h
  · exact absurd h (by decide)
  next h7 =>
  obtain ⟨hoff, hriv⟩ := not_or.1 h2
  obtain ⟨hzero, hrest⟩ := not_or.1 h4
  obtain ⟨hbig, -⟩ := not_or.1 hrest
  refine ⟨h1, not_not.1 hoff, fun e he => ?_, by simpa using h3, ⟨hzero, Nat.not_lt.1 hbig⟩, by simpa [vfOf] using h7⟩
  by_contra hne
  exact hriv (List.any_eq_true.2 ⟨e, he, by simpa using hne⟩)

/-- A partition other than `p` that is not in CONFIG_UNLOCKED is a rival. -/
theorem State.mem_rivals {q : Nat} (hq : q ≠ p) (h : (s.part q).tdi ≠ .unlocked) : (q, s.part q) ∈ s.rivals p :=
  List.mem_filter.2 ⟨State.mem_parts_of_tdi h, by simp [hq, h]⟩

theorem State.windowsOk_spec (h : s.windowsOk p = true) {w : Nat × Nat} (hw : w ∈ (s.part p).gibs) :
    1 ≤ w.2 ∧ ∀ e ∈ s.rivals p, ∀ y ∈ e.2.gibs, gibOverlap w y = false := by
  simp only [State.windowsOk, Bool.and_eq_true, List.all_eq_true, decide_eq_true_eq, Bool.not_eq_true', ge_iff_le] at h
  obtain ⟨⟨hown, -⟩, hriv⟩ := h
  exact ⟨(hown w hw).1, fun e he y hy => hriv e he y hy w hw⟩

end Lock

/-! ### The end of the scrub (R59) -/

section Scrub

variable {s : State} {p : Nat}

theorem exec_lockScrubDone_waits (h : (s.part p).locking = false ∨ ∃ w ∈ (s.part p).windows, s.rangeHeld w.1 w.2 = true) :
    exec (.lockScrubDone p) s = .next s := by
  have hwait : (!(s.part p).locking) = true ∨ ((s.part p).windows.any fun w => s.rangeHeld w.1 w.2) = true := by
    rcases h with h | h
    · exact .inl (by rw [h]; rfl)
    · exact .inr (by simpa using h)
  rw [exec_lockScrubDone, execLockScrubDone, if_pos hwait]

theorem exec_lockScrubDone_ends (hlock : (s.part p).locking = true)
    (h : ∀ w ∈ (s.part p).windows, s.rangeHeld w.1 w.2 = false) :
    exec (.lockScrubDone p) s = .next (
      if s.lockMeets p = 0 then
        ((s.scrub p).setPart p { s.part p with tdi := .locked, locking := false, faultSeq := 0 }).emit (.tdisp p 0)
      else (s.setPart p { s.part p with locking := false, key := none }).emit (.tdisp p (s.lockMeets p))) := by
  have hgo : ¬ ((!(s.part p).locking) = true ∨ ((s.part p).windows.any fun w => s.rangeHeld w.1 w.2) = true) := by
    rintro (hl | hheld)
    · simp [hlock] at hl
    · obtain ⟨w, hw, hr⟩ := List.any_eq_true.1 hheld
      simp [h w hw] at hr
  rw [exec_lockScrubDone, execLockScrubDone, if_neg hgo]
  cases hc : s.lockMeets p with
  | zero => rfl
  | succ c => rfl

/-- Another partition that a lock has to do with. -/
def Rival (p : Nat) (e : Nat × Partition) : Prop := e.1 ≠ p ∧ e.2.tdi ≠ .unlocked

theorem State.mem_rivals_iff {e : Nat × Partition} : e ∈ s.rivals p ↔ e ∈ s.parts ∧ Rival p e := by
  simp [State.rivals, Rival]

/-- Partitions that share a core group. -/
def SharesCgs (x y : Partition) : Prop := x.cgmask &&& y.cgmask ≠ 0

/-- Partitions with windows that overlap. -/
def SharesWins (x y : Partition) : Prop := ∃ w ∈ x.gibs, ∃ v ∈ y.gibs, gibOverlap w v = true

theorem State.lockMeets_eq (s : State) (p : Nat) : s.lockMeets p =
    if ((s.rivals p).any fun e => (s.part p).cgmask &&& e.2.cgmask != 0) = true then 2
    else if ((s.rivals p).any fun e => e.2.gibs.any fun v => (s.part p).gibs.any fun w => gibOverlap w v) = true then 3
    else 0 := rfl

theorem State.rivals_any_cgs : ((s.rivals p).any fun e => (s.part p).cgmask &&& e.2.cgmask != 0) = true
    ↔ ∃ e ∈ s.parts, Rival p e ∧ SharesCgs (s.part p) e.2 := by
  simp only [List.any_eq_true, State.mem_rivals_iff, bne_iff_ne, and_assoc]
  rfl

theorem State.rivals_any_wins :
    ((s.rivals p).any fun e => e.2.gibs.any fun v => (s.part p).gibs.any fun w => gibOverlap w v) = true
    ↔ ∃ e ∈ s.parts, Rival p e ∧ SharesWins (s.part p) e.2 := by
  simp only [List.any_eq_true, State.mem_rivals_iff, and_assoc, SharesWins]
  refine exists_congr fun e => and_congr_right fun _ => and_congr_right fun _ => ?_
  exact ⟨fun ⟨v, hv, w, hw, h⟩ => ⟨w, hw, v, hv, h⟩, fun ⟨w, hw, v, hv, h⟩ => ⟨v, hv, w, hw, h⟩⟩

/-- Core groups first, then windows: what another lock has made fail. -/
theorem State.lockMeets_of_fails {c : Nat}
    (h : (c = 2 ∧ ∃ e ∈ s.parts, Rival p e ∧ SharesCgs (s.part p) e.2)
      ∨ (c = 3 ∧ (∀ e ∈ s.parts, Rival p e → ¬ SharesCgs (s.part p) e.2)
        ∧ ∃ e ∈ s.parts, Rival p e ∧ SharesWins (s.part p) e.2)) : s.lockMeets p = c := by
  rw [State.lockMeets_eq]
  rcases h with ⟨rfl, hcg⟩ | ⟨rfl, hno, hwin⟩
  · exact if_pos (State.rivals_any_cgs.2 hcg)
  · rw [if_neg fun h => ?_, if_pos (State.rivals_any_wins.2 hwin)]
    obtain ⟨e, he, hr, hc⟩ := State.rivals_any_cgs.1 h
    exact hno e he hr hc

theorem State.lockMeets_of_passes
    (h : ∀ e ∈ s.parts, Rival p e → ¬ SharesCgs (s.part p) e.2 ∧ ¬ SharesWins (s.part p) e.2) : s.lockMeets p = 0 := by
  rw [State.lockMeets_eq, if_neg, if_neg]
  · exact fun hw => by
      obtain ⟨e, he, hr, hc⟩ := State.rivals_any_wins.1 hw
      exact (h e he hr).2 hc
  · exact fun hw => by
      obtain ⟨e, he, hr, hc⟩ := State.rivals_any_cgs.1 hw
      exact (h e he hr).1 hc

/-! ### Memory after the scrub (R54, R59) -/

/-- Windows lie at whole GiB. -/
theorem Partition.windows_aligned {x : Partition} {w : Nat × Nat} (h : w ∈ x.windows) : 64 ∣ w.1 ∧ 64 ∣ w.2 := by
  obtain ⟨i, -, hi⟩ := List.mem_filterMap.1 h
  unfold winRange at hi
  split at hi
  · obtain rfl := Option.some.inj hi
    exact ⟨Dvd.dvd.mul_left (by decide) _, Dvd.dvd.mul_left (by decide) _⟩
  · cases hi

/-- A window holds a byte if it holds the byte's granule. -/
theorem Partition.holds_iff_granule (x : Partition) (a : Nat) :
    x.holds a 1 = true ↔ ∃ w ∈ x.windows, w.1 ≤ a / 64 * 64 ∧ a / 64 * 64 < w.1 + w.2 := by
  simp only [Partition.holds, List.any_eq_true, Bool.and_eq_true, decide_eq_true_eq]
  refine exists_congr fun w => and_congr_right fun hw => ?_
  obtain ⟨⟨b, hb⟩, ⟨n, hn⟩⟩ := Partition.windows_aligned hw
  omega

/-- Memory in the windows stands under the partition's key, any other as before. -/
theorem State.scrub_keyOf (s : State) (p a : Nat) :
    (s.scrub p).keyOf (a / 64) = if (s.part p).holds a 1 then (s.part p).key.getD 0 else s.keyOf (a / 64) := by
  let ranges := (s.part p).windows.map fun w => (⟨w.1, w.2, (s.part p).key.getD 0⟩ : KeyRange)
  let covers (r : KeyRange) : Bool := r.base ≤ a / 64 * 64 && a / 64 * 64 < r.base + r.len
  have hkey : (s.scrub p).keyOf (a / 64) = (((ranges ++ s.keyed).find? covers).map (·.key)).getD s.hd.deviceKey := rfl
  have hold : s.keyOf (a / 64) = ((s.keyed.find? covers).map (·.key)).getD s.hd.deviceKey := rfl
  rw [hkey, List.find?_append]
  cases hf : ranges.find? covers with
  | some r =>
    obtain ⟨w, hw, hr⟩ := List.mem_map.1 (List.mem_of_find?_eq_some hf)
    have hcov := List.find?_some hf
    rw [← hr] at hcov
    simp only [covers, Bool.and_eq_true, decide_eq_true_eq] at hcov
    rw [if_pos ((Partition.holds_iff_granule _ a).2 ⟨w, hw, hcov⟩), ← hr]
    rfl
  | none =>
    rw [if_neg fun hh => ?_, hold]
    · rfl
    · obtain ⟨w, hw, hcov⟩ := (Partition.holds_iff_granule _ a).1 hh
      have hno := List.find?_eq_none.1 hf _ (List.mem_map.2 ⟨w, hw, rfl⟩)
      simp only [covers, Bool.and_eq_true, decide_eq_true_eq] at hno
      exact hno hcov

theorem contains_filter (l : List Nat) (f : Nat → Bool) (u : Nat) :
    (l.filter fun x => !f x).contains u = (l.contains u && !f u) := by
  rw [Bool.eq_iff_iff]
  simp [List.mem_filter]

/-- The end of a scrub whose checks still pass. -/
theorem State.scrubbed_spec (s : State) (p : Nat) :
    let x := s.part p
    let t := ((s.scrub p).setPart p { x with tdi := .locked, locking := false, faultSeq := 0 }).emit (.tdisp p 0)
    t = { s with parts := t.parts, mem := t.mem, tags := t.tags, rel := t.rel, staging := t.staging, tlb := t.tlb,
                 icache := t.icache, keyed := t.keyed, out := s.out ++ [.tdisp p 0] }
    ∧ (∀ e, e ∈ t.tlb ↔ e ∈ s.tlb ∧ e.part ≠ p)
    ∧ t.part p = { x with tdi := .locked, locking := false, faultSeq := 0 } ∧ (∀ q, q ≠ p → t.part q = s.part q)
    ∧ (∀ a, Memory.get t.mem a = if x.holds a 1 then 0 else Memory.get s.mem a)
    ∧ (∀ a, t.keyOf (a / 64) = if x.holds a 1 then x.key.getD 0 else s.keyOf (a / 64))
    ∧ ∀ u, t.tags.contains u = (s.tags.contains u && !x.holds (u * 16) 1) := by
  intro x t
  refine ⟨rfl, fun e => ?_, ?_, fun q hq => ?_, s.scrub_get p, s.scrub_keyOf p,
    contains_filter s.tags fun u => x.holds (u * 16) 1⟩
  · have hfilter : e ∈ s.tlb.filter (fun e => e.part != p) ↔ e ∈ s.tlb ∧ e.part ≠ p := by
      rw [List.mem_filter, bne_iff_ne]
    exact hfilter
  · exact ((s.scrub p).part_setPart p { x with tdi := .locked, locking := false, faultSeq := 0 } p).trans (if_pos rfl)
  · exact ((s.scrub p).part_setPart p { x with tdi := .locked, locking := false, faultSeq := 0 } q).trans (if_neg hq)

end Scrub

/-! ### START and STOP (R60, R85, R130) -/

section Start

variable {s : State} {p : Nat}

theorem exec_start_refused (hs : s.secured = true) (hp : p < 16) (h : (s.part p).tdi ≠ .locked ∨ s.hd.recoveryStatus = 1) :
    exec (.startInterfaceRequest p) s = .next (s.emit (.tdisp p 8)) := by
  rw [exec_startInterfaceRequest, execStartInterfaceRequest, if_neg (not_secured_or hs hp), if_pos h]
  rfl

/-- A partition at the start of its RUN. -/
def Partition.started (x : Partition) : Partition :=
  { x with tdi := .run, instCtr := 1, fieldCtr := 1, faultSeq := 0, turn := 0, scopes := [(0, ScopeEnt.root)] }

theorem exec_start_runs (hs : s.secured = true) (hp : p < 16) (hl : (s.part p).tdi = .locked) (hr : s.hd.recoveryStatus ≠ 1) :
    exec (.startInterfaceRequest p) s = .next ((s.setPart p (s.part p).started).emit (.tdisp p 0)) := by
  have hgo : ¬ ((s.part p).tdi ≠ .locked ∨ s.hd.recoveryStatus = 1) := fun h => h.elim (· hl) hr
  rw [exec_startInterfaceRequest, execStartInterfaceRequest, if_neg (not_secured_or hs hp), if_neg hgo]
  rfl

/-- In a scope table with a live root alone, every other entry is free. -/
theorem started_scopeEnt {t : State} {x : Partition} (h : t.part p = x.started) :
    (t.scopeEnt p 0).st = 1 ∧ (t.scopeEnt p 0).depth = 1 ∧ ∀ n, n ≠ 0 → (t.scopeEnt p n).st = 0 := by
  have hent (n : Nat) : t.scopeEnt p n = Tbl.get [(0, ScopeEnt.root)] ScopeEnt.free n := by
    rw [State.scopeEnt, h]
    rfl
  refine ⟨by rw [hent]; rfl, by rw [hent]; rfl, fun n hn => ?_⟩
  rw [hent]
  simp [Tbl.get, Tbl.find, hn.symm, ScopeEnt.free]

/-- A partition as STOP leaves it before the work of its RUN ends. -/
def Partition.stopped (x : Partition) : Partition := { x with tdi := .unlocked, locking := false, key := none, scopes := [] }

/-- The module in which the work of a partition's RUN, if it ran, has ended. -/
def State.stopRun (s : State) (p : Nat) : State :=
  if (s.part p).tdi = .run then (s.setPart p (s.part p).stopped).endRun p else s.setPart p (s.part p).stopped

theorem exec_stop_eq (hs : s.secured = true) (hp : p < 16) :
    exec (.stopInterfaceRequest p) s = .next (((s.stopRun p).resetQueues p).emit (.tdisp p 0)) := by
  rw [exec_stopInterfaceRequest, execStopInterfaceRequest, if_neg (not_secured_or hs hp)]
  rfl

/-- The queues of a partition at their reset values. -/
theorem State.Torn.resetQueues {t : State} (h : s.Torn t p) (q : Nat) : s.Torn (t.resetQueues q) p :=
  ⟨h.config, h.others, h.weaves, h.fields, h.records, h.copies, h.kvOps, h.mxReqs, h.scopeOps, h.cancels, h.faults, h.shoot,
    h.tlb, h.pools, h.apOps, h.sessions⟩

theorem State.part_stopped (s : State) (p : Nat) : (s.setPart p (s.part p).stopped).part p = (s.part p).stopped :=
  (s.part_setPart p _ p).trans (if_pos rfl)

theorem State.stopRun_torn (hrun : (s.part p).tdi = .run) : s.Torn (s.stopRun p) p := by
  rw [State.stopRun, if_pos hrun]
  have hnot : ((s.setPart p (s.part p).stopped).part p).tdi ≠ .run := by
    rw [State.part_stopped]
    simp [Partition.stopped]
  exact (State.endRun_torn hnot).of_before rfl (fun q hq => (s.part_setPart p _ q).trans (if_neg hq))
    (by rw [State.part_stopped]; rfl)

/-- From any state STOP leaves CONFIG_UNLOCKED, no key and no scope; the other partitions are as before. -/
theorem State.stopRun_part (s : State) (p : Nat) :
    ((s.stopRun p).part p).tdi = .unlocked ∧ ((s.stopRun p).part p).locking = false ∧ ((s.stopRun p).part p).key = none
    ∧ ((s.stopRun p).part p).scopes = [] ∧ ∀ q, q ≠ p → (s.stopRun p).part q = s.part q := by
  by_cases hrun : (s.part p).tdi = .run
  · have hpart : (s.stopRun p).part p = (s.part p).stopped.released s.clock := by
      rw [State.stopRun, if_pos hrun, (State.endRun_serves _ p).part, State.part_stripped, if_pos rfl, State.part_stopped]
      rfl
    rw [hpart]
    exact ⟨rfl, rfl, rfl, rfl, (State.stopRun_torn hrun).others⟩
  · have hstop : s.stopRun p = s.setPart p (s.part p).stopped := if_neg hrun
    rw [hstop, State.part_stopped]
    exact ⟨rfl, rfl, rfl, rfl, fun q hq => (s.part_setPart p _ q).trans (if_neg hq)⟩

/-- A queue of a partition whose RUN ends loses its fault, any other queue is as before. -/
def Queue.stopRun (p : Nat) (x : Queue) : Queue := if x.en && x.part.toNat == p then { x with fault := none } else x

/-- A queue of a partition in CONFIG_UNLOCKED (R65). -/
def Queue.cleared (p : Nat) (x : Queue) : Queue :=
  if x.en && x.part.toNat == p then { x with head := 0, tail := 0, qerr := 0, fault := none } else x

theorem Queue.cleared_stopRun (p : Nat) (x : Queue) : (x.stopRun p).cleared p = x.cleared p := by
  unfold Queue.stopRun
  split
  · next h => simp [Queue.cleared, h]
  · rfl

theorem State.stopRun_queues (s : State) (p : Nat) :
    (s.stopRun p).queues = s.queues ∨ (s.stopRun p).queues = mapT s.queues fun _ x => x.stopRun p := by
  by_cases hrun : (s.part p).tdi = .run
  · right
    rw [State.stopRun, if_pos hrun, (State.endRun_serves _ p).rest]
    rfl
  · left
    rw [State.stopRun, if_neg hrun]
    rfl

/-- STOP clears the queues of the partition. -/
theorem State.stopRun_cleared (s : State) (p n : Nat) (hen : (s.queue n).en = true) :
    ((s.stopRun p).resetQueues p).queue n = (s.queue n).cleared p := by
  obtain ⟨x, hx⟩ : ∃ x, Tbl.find s.queues n = some x := by
    cases hf : Tbl.find s.queues n with
    | none => rw [State.queue, Tbl.get, hf] at hen; cases hen
    | some x => exact ⟨x, rfl⟩
  have hq : s.queue n = x := by rw [State.queue, Tbl.get, hx]; rfl
  have hfind : Tbl.find (mapT (s.stopRun p).queues fun _ x => x.cleared p) n = some (x.cleared p) := by
    rcases s.stopRun_queues p with h | h
    · rw [h, Tbl.find_mapT, hx]
      rfl
    · rw [h, Tbl.find_mapT, Tbl.find_mapT, hx]
      exact congrArg some (x.cleared_stopRun p)
  rw [hq]
  exact congrArg (·.getD Queue.initial) hfind

end Start

/-- What a report says before its digest (R57). -/
def State.reportHead (s : State) (p : Nat) : List Nat :=
  [p, s.ownPeer p, (s.part p).cgmask.toNat, (s.part p).gibs.length] ++ ((s.part p).gibs.flatMap fun w => [w.1, w.2])
    ++ [(s.queuesOf p).length] ++ s.queuesOf p ++ [(s.part p).msixn.toNat]

theorem exec_report_eq {s : State} {p : Nat} (hs : s.secured = true) (hp : p < 16) :
    exec (.getDeviceInterfaceReport p) s = .next (s.emit (.report p (s.reportHead p ++ sha384 (s.part p).peerBytes))) := by
  rw [exec_getDeviceInterfaceReport, execGetDeviceInterfaceReport, if_neg (not_secured_or hs hp)]
  rfl

theorem mem_addName (l : List Nat) (n m : Nat) : m ∈ addName l n ↔ m = n ∨ m ∈ l := by
  induction l with
  | nil => simp [addName]
  | cons a r ih =>
    rw [addName]
    split
    · simp
    · split
      · next h => subst h; simp
      · rw [List.mem_cons, ih, List.mem_cons]
        exact or_left_comm

/-! ### The obligation -/

/-- Settles O51: each request by the lemma about its outcome; the checks of a lock by `State.lockPasses_of_check`, the end of
the scrub by `State.scrubbed_spec`, STOP by the end of RUN. -/
theorem interfaces : Obligations.Interfaces := by
  intro s p hp x answers
  refine ⟨fun hs => ?_,
    fun hs => ⟨exec_lock_closed hs hp, fun htdi hlock => ?_, exec_start_refused hs hp, fun hl hr => ?_, ?_, ?_⟩,
    fun h => exec_lockScrubDone_waits (.inl h), fun _ w hw hheld => exec_lockScrubDone_waits (.inr ⟨w, hw, hheld⟩), ?_,
    fun hready => ?_⟩
  · have hoff := not_secured (p := p) hs
    refine ⟨?_, ?_, ?_, ?_⟩
    · rw [exec_lockInterfaceRequest, execLockInterfaceRequest, if_pos hoff]
    · rw [exec_startInterfaceRequest, execStartInterfaceRequest, if_pos hoff]
    · rw [exec_stopInterfaceRequest, execStopInterfaceRequest, if_pos hoff]
    · rw [exec_getDeviceInterfaceReport, execGetDeviceInterfaceReport, if_pos hoff]
  · have hexec := exec_lock_open hs hp htdi hlock
    refine ⟨fun hcg => ?_, fun hc => ?_, fun hc => ?_⟩
    · have hc : s.lockCheck p = 1 := if_pos hcg
      rw [hc] at hexec
      exact hexec
    · rw [if_neg hc] at hexec
      exact hexec
    · rw [if_pos hc] at hexec
      obtain ⟨hcg, honline, hriv, hwin, ⟨hms, hms64⟩, hide⟩ := State.lockPasses_of_check hc
      refine ⟨hcg, honline, ?_, hms64, hide, fun q hq h => hriv _ (State.mem_rivals hq h), fun w hw => ?_, _, hexec, rfl,
        (State.part_setPart _ p _ p).trans (if_pos rfl), fun q hq => (State.part_setPart _ p _ q).trans (if_neg hq)⟩
      · exact Nat.one_le_iff_ne_zero.2 fun h0 => hms (BitVec.eq_of_toNat_eq h0)
      · obtain ⟨hlen, hapart⟩ := State.windowsOk_spec hwin hw
        exact ⟨hlen, fun q hq h y hy => hapart _ (State.mem_rivals hq h) y hy⟩
  · have hpart : ((s.setPart p x.started).emit (.tdisp p 0)).part p = x.started :=
      (s.part_setPart p x.started p).trans (if_pos rfl)
    refine ⟨_, exec_start_runs hs hp hl hr, rfl, fun q hq => (s.part_setPart p x.started q).trans (if_neg hq), ?_,
      started_scopeEnt hpart⟩
    rw [show State.part _ p = _ from hpart]
    rfl
  · obtain ⟨htdi, hlock, hkey, hscopes, hothers⟩ := s.stopRun_part p
    refine ⟨_, exec_stop_eq hs hp, htdi, hlock, hkey, hscopes, hothers,
      fun hrun => ((State.stopRun_torn hrun).resetQueues p).emit _, ⟨_, rfl⟩, fun q hen hq => ?_⟩
    refine (s.stopRun_cleared p q hen).trans (if_pos ?_)
    simp [hen, hq]
  · exact ⟨_, exec_report_eq hs hp, rfl, List.suffix_append _ _⟩
  · intro rival cgs wins hlock hfree
    have hexec := exec_lockScrubDone_ends hlock hfree
    refine ⟨fun c hc => ?_, fun hno => ?_⟩
    · have hmeets : s.lockMeets p = c := State.lockMeets_of_fails hc
      have hne : c ≠ 0 := by rcases hc with ⟨h, -⟩ | ⟨h, -⟩ <;> omega
      rw [hmeets, if_neg hne] at hexec
      exact ⟨_, hexec, rfl, (s.part_setPart p _ p).trans (if_pos rfl), fun q hq => (s.part_setPart p _ q).trans (if_neg hq)⟩
    · rw [if_pos (State.lockMeets_of_passes hno)] at hexec
      exact ⟨_, hexec, s.scrubbed_spec p⟩
  · refine ⟨fun up => ?_, fun hsess n hn hrec => ?_, ?_, ?_⟩
    · rw [exec_securedSession, execSecuredSession, if_pos hready]
    · have hgo : ¬ ((!(s.ready svcSpdm && s.hd.session)) = true ∨ n > 16 ∨ (s.hd.recovery = true ∧ n ≠ 0)) := by
        rw [hready, hsess]
        rintro (h | h | ⟨h, h0⟩)
        · cases h
        · omega
        · exact h0 (hrec h)
      refine ⟨_, by rw [exec_ideKm, execIdeKm, if_neg hgo], rfl, mem_addName _ _⟩
    · simp only [exec_getMeasurements, execGetMeasurements, hready, Bool.not_true, Bool.false_eq_true, if_false]
      rfl
    · simp only [exec_getMeasurements, execGetMeasurements, hready, Bool.not_true, Bool.false_eq_true, if_false]
      rfl

end Sys2Proof.Machine
end

section
/-! What an instruction's own answer makes of the machine (R104, R253, R300). -/

namespace Sys2Proof.Machine

open Sys2Proof

variable {s : State} {i : Instr} {x : Ctx}

/-- An instruction that is issued, by the entry that the dispatch gives it. -/
theorem State.Issues.exec_eq {body : Ctx → Res} (h : s.Issues i x) (he : exec i s = issue i s body) :
    exec i s = .next ((body x).apply x i) := he.trans (issue_of h body)

/-- An instruction without an effect goes on, and nothing else changes. -/
theorem Ctx.only_done (h : s.ctx i = some x) :
    x.Only i ((Res.done x.s).apply x i) (x.w.updGroup x.c.gid fun g => g.advance x.c x.h.bnd (lateRegs i))
      [] [] [] [] [] := by
  obtain ⟨hs, -, hw⟩ := State.ctx_weave h
  refine ⟨rfl, fun _ => rfl, fun n hn => ?_, ?_, fun _ _ _ _ => rfl, fun _ _ => rfl, fun _ _ _ _ => rfl, fun _ _ => rfl,
    fun _ => rfl, fun _ _ => rfl, rfl, rfl, rfl, rfl, rfl, ⟨rfl, rfl, rfl, rfl, rfl, rfl, rfl⟩, rfl⟩
  · exact (State.weave_updWeave ..).trans (if_neg hn)
  · exact (State.weave_updWeave ..).trans (by rw [if_pos rfl, hs, hw]; rfl)

end Sys2Proof.Machine
end

section
/-! FENCE and PFENCE (R40, R158–R160). -/

namespace Sys2Proof.Machine

open Sys2Proof

/-- Every LS access of a weave of the classes is performed, and none has ended with an error that is not raised yet (R158). -/
def State.Performed (s : State) (wid : Nat) (classes : BitVec 3) : Prop :=
  ∀ e ∈ s.lsOps, e.2.weave = wid → (e.2.err.isSome = true → classBit classes e.2.cls = false)
    ∧ ∀ a ∈ e.2.accs, a.got.isSome = true ∨ classBit classes (e.2.clsOf a) = false

theorem State.quiet_iff (s : State) (wid : Nat) (classes : BitVec 3) : s.quiet wid classes = true ↔ s.Performed wid classes := by
  simp only [State.quiet, Tbl.vals, List.all_map, List.all_eq_true, Function.comp, Bool.or_eq_true, Bool.and_eq_true,
    Bool.not_eq_true', Bool.and_eq_false_iff, bne_iff_ne, State.Performed]
  refine forall₂_congr fun e _ => ?_
  rw [← imp_iff_not_or]
  cases e.2.err.isSome <;> simp

/-- Only an error of a remote access is one that a FENCE raises, as REMOTE_FAULT behind it (R252, R254). -/
theorem Deferred.trap_atFence {classes : BitVec 3} {d : Deferred} (h : d.atFence classes = true) :
    (d.trap false true).code = .remoteFault ∧ (d.trap false true).fnc = true ∧ (d.trap false true).resume = .after := by
  cases d with
  | remote => exact ⟨rfl, rfl, rfl⟩
  | _ => cases h

theorem Weave.fenceErr_none {w : Weave} {classes : BitVec 3} (h : ∀ d ∈ w.errs, d.atFence classes = false) :
    w.fenceErr classes = none := by
  have hfind : w.errs.find? (·.atFence classes) = none := List.find?_eq_none.2 fun d hd => by simp [h d hd]
  rw [Weave.fenceErr, hfind]

theorem Weave.fenceErr_first {w : Weave} {classes : BitVec 3} {pre post : List Deferred} {d : Deferred}
    (h : w.errs = pre ++ d :: post) (hpre : ∀ q ∈ pre, q.atFence classes = false) (hd : d.atFence classes = true) :
    w.fenceErr classes = some (d.trap false true, { w with errs := w.errs.filter fun q => !q.atFence classes }) := by
  have hfind : w.errs.find? (·.atFence classes) = some d :=
    List.find?_eq_some_iff_append.2 ⟨hd, pre, post, h, fun q hq => by simp [hpre q hq]⟩
  rw [Weave.fenceErr, hfind]

section Answers

variable {x : Ctx} {classes : BitVec 3} {after : State → State}

theorem Ctx.fenceRes_stall (h : ¬ x.s.Performed x.e.wid classes) : x.fenceRes classes after = .stall := by
  rw [← State.quiet_iff, Bool.not_eq_true] at h
  simp [Ctx.fenceRes, h]

theorem Ctx.fenceRes_done (h : x.s.Performed x.e.wid classes) (hcalm : ∀ d ∈ x.w.errs, d.atFence classes = false) :
    x.fenceRes classes after = .done (after x.s) := by
  simp [Ctx.fenceRes, (State.quiet_iff ..).2 h, Weave.fenceErr_none hcalm]

theorem Ctx.fenceRes_trap {pre post : List Deferred} {d : Deferred} (h : x.s.Performed x.e.wid classes)
    (herrs : x.w.errs = pre ++ d :: post) (hpre : ∀ q ∈ pre, q.atFence classes = false) (hd : d.atFence classes = true) :
    x.fenceRes classes after = .trapIn
      (x.s.setWeave x.e.wid { x.w with errs := x.w.errs.filter fun q => !q.atFence classes }) (d.trap false true) := by
  simp [Ctx.fenceRes, (State.quiet_iff ..).2 h, Weave.fenceErr_first herrs hpre hd]

end Answers

section Issue

variable {st : State} {x : Ctx} {h : Hd} {scope : Scope} {wp rp : Path}

theorem exec_fence_eq {cl : BitVec 3} (hi : st.Issues (.fence h scope cl) x) :
    exec (.fence h scope cl) st = .next ((x.fenceRes cl fun s => s).apply x (.fence h scope cl)) :=
  hi.exec_eq (exec_fence ..)

/-- The lines that a PFENCE drops: those of its core on the reading path (R160). -/
def Ctx.dropPath (x : Ctx) (rp : Path) (s : State) : State := s.unstage fun y => y.core == x.e.t.core && y.path == rp

theorem exec_pfence_ls (hi : st.Issues (.pfence h scope .ls rp) x) :
    exec (.pfence h scope .ls rp) st = .next ((x.fenceRes 7 (x.dropPath rp)).apply x (.pfence h scope .ls rp)) :=
  hi.exec_eq (exec_pfence ..)

theorem exec_pfence_other (hi : st.Issues (.pfence h scope wp rp) x) (hwp : wp ≠ .ls) :
    exec (.pfence h scope wp rp) st = .next ((Res.done (x.dropPath rp x.s)).apply x (.pfence h scope wp rp)) := by
  rw [hi.exec_eq (exec_pfence ..), if_neg hwp]
  rfl

/-- A PFENCE that goes on drops its core's lines on the reading path and changes nothing else. -/
theorem Ctx.drops {i : Instr} (hctx : st.ctx i = some x)
    (hex : exec i st = .next ((Res.done (x.dropPath rp x.s)).apply x i)) :
    ∃ u w, x.Only i u w [] [] [] [] []
      ∧ exec i st = .next { u with staging := x.s.staging.filter fun y => !(y.core == x.e.t.core && y.path == rp) } :=
  ⟨_, _, Ctx.only_done hctx, hex⟩

end Issue

/-- Settles O28: each case by what `fenceRes` answers in it. -/
theorem fences : Obligations.Fences := by
  intro h scope cl wp rp st x
  dsimp only
  refine ⟨fun hi => ?_, fun hi => ?_⟩
  · obtain ⟨hs, hwid, -⟩ := State.ctx_weave hi.1
    have hex := exec_fence_eq hi
    rw [← hwid]
    refine ⟨fun hp hcalm => ?_, fun hp => ?_, fun hp pre d post herrs hpre hd => ⟨?_, Deferred.trap_atFence hd⟩⟩
    · rw [Ctx.fenceRes_done hp hcalm] at hex
      exact ⟨_, _, hex, Ctx.only_done hi.1⟩
    · rw [Ctx.fenceRes_stall hp] at hex
      rw [hex, ← hs, hwid]
      rfl
    · rw [Ctx.fenceRes_trap hp herrs hpre hd] at hex
      rw [hex, ← hs]
      simp only [hwid]
      rfl
  · obtain ⟨hs, hwid, -⟩ := State.ctx_weave hi.1
    refine ⟨fun hwp => Ctx.drops hi.1 (exec_pfence_other hi hwp), ?_⟩
    rw [← hwid]
    refine ⟨fun hwp hp hcalm => ?_, fun hwp hp => ?_, fun hwp hp pre d post herrs hpre hd => ?_⟩
    all_goals
      subst hwp
      have hex := exec_pfence_ls hi
    · rw [Ctx.fenceRes_done hp hcalm] at hex
      exact Ctx.drops hi.1 hex
    · rw [Ctx.fenceRes_stall hp] at hex
      rw [hex, ← hs, hwid]
      rfl
    · rw [Ctx.fenceRes_trap hp herrs hpre hd] at hex
      rw [hex, ← hs]
      simp only [hwid]
      rfl

end Sys2Proof.Machine
end

section
/-! A store in flight that names a register as its destination (R376, R378). -/

namespace Sys2Proof.Machine

open Sys2Proof

/-- A weave of one live thread, whose s0 holds 1. -/
def loneWeave : Weave := { strayWeave with live := 1, s := [(0, 1)], groups := [] }

/-- A store of one byte at physical address 0, of a weave 3, that names s0 as a destination. -/
def destStore : LsOp where
  weave := 3
  part := 0
  ident := State.reset.deviceIdent 0
  scopeH := 0
  lanes := 1
  sc := true
  kind := .st
  sem := .weak
  cls := .om
  scope := .mod
  accs := [{ lane := 0, loc := .mem 0, size := 1, op := .write 5 false, inc := false, got := none, torn := [] }]
  flag := none
  dest := .s 0
  stf := none
  hole := none
  err := none
  ecc := false

/-- The module with that store in flight and stack 0 ready. It is a state of the model's type, not one that a run is meant to
reach: ST sends its accesses without a destination. -/
def destState : State :=
  { State.reset with
    hd := { HostDie.initial with readyStatus := 0x100 }
    weaves := [(3, loneWeave)]
    lsOps := [(4, destStore)] }

theorem destState_local : destState.Local 4 destStore loneWeave :=
  ⟨rfl, rfl, by decide, by decide, by decide, rfl, rfl, rfl, rfl⟩

/-- The store's completion writes the register, with 0. -/
theorem accessComplete_destState :
    (match exec (.accessComplete 4) destState with
      | .next t => (t.weave 3).any fun w => w.s != loneWeave.s
      | _ => false) = true := by decide +kernel

/-- Refutes O16: the completion of `destStore` changes s0 of its weave. The statement takes every store in flight, also one that
names a destination; of the others this says nothing. -/
theorem not_writesComplete : ¬ Obligations.WritesComplete := by
  unfold Obligations.WritesComplete
  rintro ⟨h, -⟩
  obtain ⟨t, w', hexec, ⟨-, -, hw', -⟩, -, hs, -⟩ :=
    h destState 4 destStore loneWeave destState_local rfl rfl (by decide) (by decide) (by decide) (by
      intro a ha
      obtain rfl := List.mem_singleton.1 ha
      exact ⟨⟨_, _, rfl⟩, by decide, by decide, fun _ _ _ he => nomatch he⟩)
  have hdest := accessComplete_destState
  simp only [hexec] at hdest
  obtain ⟨v, hv, hne⟩ := (Option.any_eq_true _ _).1 hdest
  obtain rfl := Option.some.inj (hv.symm.trans hw')
  simp [hs] at hne

end Sys2Proof.Machine
end

section
/-! The checks of an LS access (R126, R129, R374, R375) and of its peer (R30, R32). -/

namespace Sys2Proof.Machine

open Sys2Proof

/-! ### One element -/

theorem spaceTakes_iff (space size : Nat) : spaceTakes space size = true ↔ (space = 4 → size = 4 ∨ size = 8) := by
  simp only [spaceTakes, Bool.or_eq_true, bne_iff_ne, beq_iff_eq]
  tauto

theorem covers_iff (c : Cap) (a : Int) (n : Nat) :
    c.covers a n = true ↔ (c.base : Int) ≤ a ∧ a + n ≤ (c.base : Int) + c.len ∧ a + n ≤ 2 ^ 64 := by
  simp only [Cap.covers, Bool.and_eq_true, decide_eq_true_eq, and_assoc]

/-- The space of a capability is one of a use, and one that takes elements of the size (R126 step 2, R375). -/
def Use.admits (u : Use) (c : Cap) (size : Nat) : Prop := c.space ∈ u.spaces ∧ (c.space = 4 → size = 4 ∨ size = 8)

section Element

variable {x : Ctx} {u : Use} {k detail size len : Nat} {addr : Int}

theorem Use.admits_iff {c : Cap} : u.admits c size ↔ (!u.spaces.contains c.space || !spaceTakes c.space size) = false := by
  rw [Bool.or_eq_false_iff, Bool.not_eq_false', Bool.not_eq_false', List.contains_iff_mem, spaceTakes_iff]
  rfl

theorem Ctx.capCheck_untagged (h : (x.w.getK k).tag = false) :
    x.capCheck u k detail size addr len = some (.plain .capTag detail) := by
  simp [Ctx.capCheck, h]

theorem Ctx.capCheck_space (h : (x.w.getK k).tag = true) (hs : ¬ u.admits (x.w.getK k) size) :
    x.capCheck u k detail size addr len = some (.plain .capPerm detail) := by
  rw [Use.admits_iff, Bool.not_eq_false] at hs
  simp only [Ctx.capCheck, h, hs, Bool.not_true, Bool.false_eq_true, if_false, if_true]

theorem Ctx.capCheck_perm (h : (x.w.getK k).tag = true) (hs : u.admits (x.w.getK k) size)
    (hp : (x.w.getK k).perm &&& u.perm ≠ u.perm) : x.capCheck u k detail size addr len = some (.plain .capPerm detail) := by
  rw [Use.admits_iff] at hs
  simp only [Ctx.capCheck, h, hs, bne_iff_ne.2 hp, Bool.not_true, Bool.false_eq_true, if_false, if_true]

/-- Past tag, space and permissions the range alone decides. -/
theorem Ctx.capCheck_range (h : (x.w.getK k).tag = true) (hs : u.admits (x.w.getK k) size)
    (hp : (x.w.getK k).perm &&& u.perm = u.perm) :
    x.capCheck u k detail size addr len = if (x.w.getK k).covers addr len then none else some (.plain .capBounds detail) := by
  rw [Use.admits_iff] at hs
  simp only [Ctx.capCheck, h, hs, hp, bne_self_eq_false, Bool.not_true, Bool.false_eq_true, if_false, Bool.not_eq_true',
    ← Bool.not_eq_true, ite_not]

/-- The check of one element: its capability, then what the relative spaces add (R374). -/
def Ctx.elemCheck (x : Ctx) (u : Use) (a size : Nat) (addr : Int) : Option Trap :=
  (x.capCheck u a a size addr size).or (x.relCheck a size addr)

theorem Ctx.relCheck_none (h : (x.w.getK k).space ≠ 0 → relativeOk x.e (x.w.getK k) addr.toNat size = true) :
    x.relCheck k size addr = none := by
  refine if_neg fun hno => ?_
  simp only [Bool.and_eq_true, bne_iff_ne, ne_eq, Bool.not_eq_true', ← Bool.not_eq_true] at hno
  exact hno.2 (h hno.1)

theorem Ctx.Passes.capCheck (h : x.Passes u k size addr)
    (hlen : addr + len ≤ ((x.w.getK k).base : Int) + (x.w.getK k).len ∧ addr + len ≤ 2 ^ 64) :
    x.capCheck u k detail size addr len = none := by
  obtain ⟨htag, hsp, h4, hperm, hlo, -⟩ := h
  rw [Ctx.capCheck_range htag ⟨hsp, h4⟩ hperm, if_pos ((covers_iff ..).2 ⟨hlo, hlen⟩)]

theorem Ctx.Passes.relCheck (h : x.Passes u k size addr) : x.relCheck k size addr = none :=
  have ⟨_, _, _, _, _, _, _, hrel⟩ := h
  Ctx.relCheck_none hrel

theorem Ctx.Passes.elemCheck (h : x.Passes u k size addr) : x.elemCheck u k size addr = none := by
  have ⟨_, _, _, _, _, hhi, hend, _⟩ := h
  rw [Ctx.elemCheck, h.capCheck ⟨hhi, hend⟩, h.relCheck, Option.none_or]

theorem Ctx.alignCheck_none (h : x.Aligned u k size addr) : x.alignCheck u k size addr = none := by
  unfold Ctx.Aligned at h
  unfold Ctx.alignCheck
  dsimp only
  by_cases hc : u.nat = true ∨ (x.w.getK k).space = 4 ∨ x.remote (x.w.getK k) addr = true
  · rw [if_pos hc] at h
    simp [h, hc, or_assoc]
  · rw [if_neg hc] at h
    simp [← h, hc, or_assoc]

theorem Ctx.alignCheck_trap (h : ¬ x.Aligned u k size addr) : x.alignCheck u k size addr = some (.plain .misaligned k) := by
  unfold Ctx.Aligned at h
  unfold Ctx.alignCheck
  dsimp only
  by_cases hc : u.nat = true ∨ (x.w.getK k).space = 4 ∨ x.remote (x.w.getK k) addr = true
  · rw [if_pos hc] at h
    simp [h, hc, or_assoc]
  · rw [if_neg hc] at h
    simp [h, hc, or_assoc]

end Element

/-! ### All elements -/

section Elements

variable {f : Elem → Option Trap} {pre post es : List Elem} {e : Elem} {t : Trap}

theorem firstBad_none (h : ∀ e ∈ es, f e = none) : firstBad es f = none :=
  List.findSome?_eq_none_iff.2 fun e he => by rw [h e he]; rfl

theorem firstBad_first (hpre : ∀ q ∈ pre, f q = none) (he : f e = some t) :
    firstBad (pre ++ e :: post) f = some (t.atLane e.lane) := by
  have hnone := firstBad_none hpre
  unfold firstBad at hnone ⊢
  rw [List.findSome?_append, hnone, Option.none_or, List.findSome?_cons, he]
  rfl

variable {x : Ctx} {u : Use} {a size : Nat}

theorem Ctx.lsChecks_none (hp : ∀ e ∈ es, x.Passes u a size e.addr) (ha : ∀ e ∈ es, x.Aligned u a size e.addr) :
    x.lsChecks u a size es = none := by
  have helem : firstBad es (fun e => x.elemCheck u a size e.addr) = none := firstBad_none fun e he => (hp e he).elemCheck
  unfold Ctx.elemCheck at helem
  rw [Ctx.lsChecks, helem]
  exact firstBad_none fun e he => Ctx.alignCheck_none (ha e he)

/-- The first element that its capability refuses. -/
theorem Ctx.lsChecks_refused (hpre : ∀ q ∈ pre, x.Passes u a size q.addr) (he : x.elemCheck u a size e.addr = some t) :
    x.lsChecks u a size (pre ++ e :: post) = some (t.atLane e.lane) := by
  have helem : firstBad (pre ++ e :: post) (fun e => x.elemCheck u a size e.addr) = some (t.atLane e.lane) :=
    firstBad_first (fun q hq => (hpre q hq).elemCheck) he
  unfold Ctx.elemCheck at helem
  rw [Ctx.lsChecks, helem]

/-- The first misaligned element, once all have passed their capability. -/
theorem Ctx.lsChecks_misaligned (hp : ∀ q ∈ pre ++ e :: post, x.Passes u a size q.addr)
    (hpre : ∀ q ∈ pre, x.Aligned u a size q.addr) (he : ¬ x.Aligned u a size e.addr) :
    x.lsChecks u a size (pre ++ e :: post) = some ((Trap.plain .misaligned a).atLane e.lane) := by
  have helem : firstBad (pre ++ e :: post) (fun e => x.elemCheck u a size e.addr) = none :=
    firstBad_none fun e he => (hp e he).elemCheck
  unfold Ctx.elemCheck at helem
  rw [Ctx.lsChecks, helem]
  exact firstBad_first (fun q hq => Ctx.alignCheck_none (hpre q hq)) (Ctx.alignCheck_trap he)

end Elements

/-! ### Peers -/

section Peers

variable {s : State} {part die peer : Nat}

theorem State.peerErr_absent (h : entValid (s.peerEnt part peer) = false) : s.peerErr part die peer = some .absent := by
  simp [State.peerErr, h]

theorem State.peerErr_down (h : entValid (s.peerEnt part peer) = true) (hown : peer ≠ s.ownPeer part)
    (hdown : entEnable (s.peerEnt part peer) = false ∨ s.portsUp die (entPhys (s.peerEnt part peer)) = []) :
    s.peerErr part die peer = some .down := by
  simp [State.peerErr, h, hown, State.dieUp, hdown]

variable {x : Ctx} {a : Nat} {pre post es : List Elem} {e : Elem} {p : PeerErr}

theorem Ctx.badPeer_none (h : ∀ e ∈ es, x.Reaches a e.addr) : x.badPeer (x.w.getK a) es = none := by
  unfold Ctx.badPeer
  split
  · rfl
  · next hs =>
    exact List.findSome?_eq_none_iff.2 fun e he => by simp only [h e he (by simpa using hs), Option.map_none]

/-- The first element whose peer fails. -/
theorem Ctx.badPeer_first (hs : (x.w.getK a).space = 0) (hpre : ∀ q ∈ pre, x.Reaches a q.addr)
    (he : x.s.peerCheck x.e (e.addr.toNat / 2 ^ 55) = some p) :
    x.badPeer (x.w.getK a) (pre ++ e :: post) = some (e.addr.toNat / 2 ^ 55, e.lane, p) := by
  have hnone := Ctx.badPeer_none hpre
  have hsp : ¬ ((x.w.getK a).space != 0) = true := by simp [hs]
  unfold Ctx.badPeer at hnone ⊢
  rw [if_neg hsp] at hnone ⊢
  rw [List.findSome?_append, hnone, Option.none_or, List.findSome?_cons]
  simp only [he, Option.map_some]

end Peers

/-! ### Traps of LD, ST, ATOM and RED -/

section Issue

variable {i : Instr} {u : Use} {m : MemF} {a b : Nat} {imm : W32}

/-- The four instructions of the ordinary forms issue alike (R379–R384). -/
theorem exec_lsForm (h : lsForm i = some (u, m, a, b, imm)) :
    ∃ (kind : LsKind) (dest : Dest) (op : Ctx → Nat → ReqOp),
      ∀ s, exec i s = issue i s fun x => x.lsIssue u m kind dest a b imm (op x) := by
  cases i with
  | ld => cases h; exact ⟨_, _, fun _ _ => .read, fun _ => rfl⟩
  | st hd _ _ _ c =>
    cases h
    exact ⟨.st, .none, fun x l => x.data m c l, fun s => by simp [execSt, permW, permC, needsAlign]⟩
  | atom hd _ o _ _ _ c => cases h; exact ⟨_, _, fun x l => x.atomData m o c l, fun _ => rfl⟩
  | red hd _ o _ _ c => cases h; exact ⟨_, _, fun x l => x.atomData m o c l, fun _ => rfl⟩
  | _ => cases h

variable {st : State} {x : Ctx} {t : Trap} {es : List Elem} {peer lane : Nat} {p : PeerErr}

/-- An access that the checks of R374 stop takes the trap, and nothing is sent. -/
theorem Ctx.traps_of_lsChecks (h : lsForm i = some (u, m, a, b, imm)) (hi : st.Issues i x) (hes : x.elems m a b imm = es)
    (ht : x.lsChecks u a (Size.bytes m.size) es = some t) : x.Traps i t := by
  obtain ⟨kind, dest, op, hex⟩ := exec_lsForm h
  obtain ⟨hs, -⟩ := State.ctx_weave hi.1
  subst hes
  rw [Ctx.Traps, hs, hi.exec_eq (hex st), Ctx.lsIssue, ht, Res.apply, hs]

/-- An access whose peer fails answers that failure. -/
theorem exec_badPeer (h : lsForm i = some (u, m, a, b, imm)) (hi : st.Issues i x) (hes : x.elems m a b imm = es)
    (hchecks : x.lsChecks u a (Size.bytes m.size) es = none) (hp : x.badPeer (x.w.getK a) es = some (peer, lane, p)) :
    exec i x.s = .next ((x.peerTrap peer lane p).apply x i) := by
  obtain ⟨kind, dest, op, hex⟩ := exec_lsForm h
  obtain ⟨hs, -⟩ := State.ctx_weave hi.1
  subst hes
  rw [hs, hi.exec_eq (hex st), Ctx.lsIssue, hchecks]
  dsimp only
  rw [Ctx.route, hp]

end Issue

/-- Settles O13: the first element that a check refuses is the one that `lsChecks` or `badPeer` finds. -/
theorem accessTraps : Obligations.AccessTraps := by
  intro i u m a b imm st x pre post e hform hi hes
  dsimp only
  refine ⟨fun hpre => ?_, fun hpass hpre hno => ?_, fun hpass hpre hsp => ?_⟩
  · have refused {t : Trap} (h : x.elemCheck u a (Size.bytes m.size) e.addr = some t) : x.Traps i (t.atLane e.lane) :=
      Ctx.traps_of_lsChecks hform hi hes (Ctx.lsChecks_refused hpre h)
    have bycap {t : Trap} (h : x.capCheck u a a (Size.bytes m.size) e.addr (Size.bytes m.size) = some t) :
        x.Traps i (t.atLane e.lane) := refused (by rw [Ctx.elemCheck, h, Option.some_or])
    refine ⟨fun ht => bycap (Ctx.capCheck_untagged ht), fun ht hs => bycap (Ctx.capCheck_space ht hs),
      fun ht hs hp => bycap (Ctx.capCheck_perm ht hs hp), fun ht hs hp hno => bycap ?_, fun ht hs hp hlies h0 hrel => refused ?_⟩
    · rw [Ctx.capCheck_range ht hs hp, if_neg (by rwa [covers_iff])]
    · rw [Ctx.elemCheck, Ctx.capCheck_range ht hs hp, if_pos ((covers_iff ..).2 hlies), Option.none_or, Ctx.relCheck,
        if_pos (by simp [h0, hrel])]
  · exact Ctx.traps_of_lsChecks hform hi hes (Ctx.lsChecks_misaligned hpass hpre hno)
  · have hchecks : x.lsChecks u a (Size.bytes m.size) (pre ++ e :: post) = none :=
      Ctx.lsChecks_none (fun q hq => (hpass q hq).1) fun q hq => (hpass q hq).2
    refine ⟨fun habs => ?_, fun hval hown hdown => ?_⟩
    · exact exec_badPeer hform hi hes hchecks (Ctx.badPeer_first hsp hpre (State.peerErr_absent habs))
    · exact exec_badPeer hform hi hes hchecks (Ctx.badPeer_first hsp hpre (State.peerErr_down hval hown hdown))

end Sys2Proof.Machine
end

section
/-! Taking an exception, and threads that end (R91, R92, R123, R252–R258). -/

namespace Sys2Proof.Machine

open Sys2Proof

/-! ### TRAPINFO and LASTTRAP (R254) -/

theorem TrapCode.code_lt (c : TrapCode) : c.code < 0x14 := by cases c <;> decide

/-- TRAPINFO as the sum of its fields, the HDR and FNC bits as numbers (R254 Table 2). -/
def trapWord (pcoff lane detail hdr fnc code : Nat) : Nat :=
  pcoff * 2 ^ 40 + lane * 2 ^ 32 + detail * 2 ^ 16 + hdr * 2 ^ 15 + fnc * 2 ^ 14 + code

/-- The fields do not overlap. -/
theorem trapWord_fields {pcoff lane detail hdr fnc code : Nat} (hcode : code < 2 ^ 8) (hfnc : fnc ≤ 1) (hhdr : hdr ≤ 1)
    (hdetail : detail < 2 ^ 16) (hlane : lane < 2 ^ 8) (hpc : pcoff < 2 ^ 24) :
    let n := trapWord pcoff lane detail hdr fnc code
    n < 2 ^ 64 ∧ n / 2 ^ 0 % 2 ^ 8 = code ∧ n / 2 ^ 8 % 2 ^ 6 = 0 ∧ n / 2 ^ 14 % 2 = fnc ∧ n / 2 ^ 15 % 2 = hdr
      ∧ n / 2 ^ 16 % 2 ^ 16 = detail ∧ n / 2 ^ 32 % 2 ^ 8 = lane ∧ n / 2 ^ 40 % 2 ^ 24 = pcoff := by
  unfold trapWord
  refine ⟨?_, ?_, ?_, ?_, ?_, ?_, ?_, ?_⟩ <;> omega

theorem trapInfo_eq (code : Cap) (addr : W64) (t : Trap) (lanes : Lanes) : trapInfo code addr t lanes = w64 (trapWord
    (min ((addr.toNat + 2 ^ 64 - code.base) % 2 ^ 64 / 4) 0xFFFFFF) (t.lane.getD (lanes.toList.headD 0)) t.detail.toNat
    t.hdr.toNat t.fnc.toNat t.code.code) := by
  have hbit (b : Bool) (n : Nat) : (if b then n else 0) = b.toNat * n := by cases b <;> simp
  have hmin (n : Nat) : (if n < 0xFFFFFF then n else 0xFFFFFF) = min n 0xFFFFFF := by split <;> omega
  simp only [trapInfo, trapWord, hbit, hmin]

theorem trapInfo_is (code : Cap) (addr : W64) (t : Trap) (lanes : Lanes) (hl : ∀ l, t.lane = some l → l < 32) :
    TrapInfoIs (trapInfo code addr t lanes) code addr t lanes := by
  have hlane : t.lane.getD (lanes.toList.headD 0) < 32 := by
    cases ht : t.lane with
    | some l => exact hl l ht
    | none =>
      cases hls : lanes.toList with
      | nil => decide
      | cons l r => exact ((Lanes.mem_toList lanes l).1 (hls ▸ List.mem_cons_self)).1
  obtain ⟨hlt, hcode, hzero, hfnc, hhdr, hdetail, hlane', hpc⟩ := trapWord_fields
    (pcoff := min ((addr.toNat + 2 ^ 64 - code.base) % 2 ^ 64 / 4) 0xFFFFFF)
    (Nat.lt_trans t.code.code_lt (by decide)) t.fnc.toNat_le t.hdr.toNat_le t.detail.isLt
    (Nat.lt_trans hlane (by decide)) (Nat.lt_of_le_of_lt (Nat.min_le_right _ _) (by decide))
  unfold TrapInfoIs
  rw [trapInfo_eq]
  generalize trapWord .. = n at *
  have hv : (w64 n).toNat = n := (BitVec.toNat_ofNat ..).trans (Nat.mod_eq_of_lt hlt)
  have hextract (a k : Nat) : ((w64 n).extractLsb' a k).toNat = n / 2 ^ a % 2 ^ k := by
    rw [BitVec.extractLsb'_toNat, hv, Nat.shiftRight_eq_div_pow]
  have hbit (a : Nat) (b : Bool) (h : n / 2 ^ a % 2 = b.toNat) : (w64 n).getLsbD a = b := by
    rw [BitVec.getLsbD, hv, Nat.testBit_eq_decide_div_mod_eq, h]
    cases b <;> rfl
  refine ⟨(hextract ..).trans hcode, BitVec.eq_of_toNat_eq ((hextract ..).trans hzero), hbit _ _ hfnc, hbit _ _ hhdr,
    BitVec.eq_of_toNat_eq ((hextract ..).trans hdetail), (hextract ..).trans (hlane'.trans ?_), (hextract ..).trans hpc⟩
  cases ht : t.lane with
  | some l => rw [ht] at hlane; exact (Nat.mod_eq_of_lt (Nat.lt_trans hlane (by decide))).symm
  | none => rw [ht] at hlane; exact (Nat.mod_eq_of_lt (Nat.lt_trans hlane (by decide))).symm

/-- WSTAT with a new LASTTRAP field (R120). -/
theorem lastTrap_fields (v : W64) {c : Nat} (hc : c < 256) :
    let r := (v &&& ~~~(0xFF00#64)) ||| w64 (c * 256)
    (r.extractLsb' 8 8).toNat = c ∧ ∀ b, b < 8 ∨ 16 ≤ b → r.getLsbD b = v.getLsbD b := by
  have hnew (b : Nat) : (w64 (c * 256)).getLsbD b = (decide (b < 64) && (decide (8 ≤ b) && c.testBit (b - 8))) := by
    rw [w64, BitVec.getLsbD_ofNat, show (256 : Nat) = 2 ^ 8 from rfl, Nat.testBit_mul_two_pow]
  have hin : ∀ b, b < 8 → (0xFF00#64).getLsbD (8 + b) = true := by decide
  have hout : ∀ b, b < 64 → b < 8 ∨ 16 ≤ b → (0xFF00#64).getLsbD b = false := by decide
  refine ⟨?_, fun b hb => ?_⟩
  · have : ((v &&& ~~~(0xFF00#64)) ||| w64 (c * 256)).extractLsb' 8 8 = BitVec.ofNat 8 c := by
      apply BitVec.eq_of_getLsbD_eq
      intro b hb
      rw [BitVec.getLsbD_extractLsb', BitVec.getLsbD_or, BitVec.getLsbD_and, BitVec.getLsbD_not, hin b hb, hnew,
        BitVec.getLsbD_ofNat]
      simp [show 8 + b < 64 by omega]
    rw [this, BitVec.toNat_ofNat, Nat.mod_eq_of_lt hc]
  · by_cases h64 : b < 64
    · have hno : (decide (8 ≤ b) && c.testBit (b - 8)) = false := by
        rcases hb with hb | hb
        · simp [show ¬ 8 ≤ b by omega]
        · rw [Nat.testBit_lt_two_pow (Nat.lt_of_lt_of_le hc
            (Nat.pow_le_pow_right (by decide) (show 8 ≤ b - 8 by omega) : 2 ^ 8 ≤ 2 ^ (b - 8))), Bool.and_false]
      rw [BitVec.getLsbD_or, BitVec.getLsbD_and, BitVec.getLsbD_not, hnew, hno, hout b h64 hb]
      simp [h64]
    · rw [BitVec.getLsbD_of_ge _ _ (by omega), BitVec.getLsbD_of_ge _ _ (by omega)]

/-! ### Frames and groups -/

theorem Weave.frame_setFrame (w : Weave) (n : Nat) (f : List Frame) (l : Nat) :
    (w.setFrame n f).frame l = if l = n then f else w.frame l := Tbl.get_set w.frames [] n f l

theorem Weave.pushTrap_eq (w : Weave) (ls : Lanes) (pc : W64) (pos : Pos) (run : Run) (progress : Nat) :
    w.pushTrap ls pc pos run progress = { w with frames := (w.pushTrap ls pc pos run progress).frames } := by
  unfold Weave.pushTrap
  induction ls.toList generalizing w with
  | nil => rfl
  | cons l r ih => exact (ih _).trans rfl

/-- Each thread of the set gets one frame more. -/
theorem Weave.frame_pushTrap (w : Weave) (ls : Lanes) (pc : W64) (pos : Pos) (run : Run) (progress l : Nat) (hl : l < 32) :
    (w.pushTrap ls pc pos run progress).frame l
      = if ls.has l then Frame.trap pc pos run progress :: w.frame l else w.frame l := by
  have hfold (ns : List Nat) (hd : ns.Nodup) (w : Weave) :
      (ns.foldl (fun w n => w.setFrame n (Frame.trap pc pos run progress :: w.frame n)) w).frame l
        = if l ∈ ns then Frame.trap pc pos run progress :: w.frame l else w.frame l := by
    induction ns generalizing w with
    | nil => rfl
    | cons n r ih =>
      obtain ⟨hn, hr⟩ := List.nodup_cons.1 hd
      rw [List.foldl_cons, ih hr, Weave.frame_setFrame]
      by_cases h : l = n
      · subst h; simp [hn]
      · simp [h]
  rw [Weave.pushTrap, hfold _ (Lanes.toList_nodup ls)]
  simp [Lanes.mem_toList, hl]

theorem Weave.group_gid {w : Weave} {gid : Nat} {g : Group} (h : w.group gid = some g) : g.gid = gid := by
  simpa using List.find?_some h

/-- A change of groups that keeps their names is found under the same name. -/
theorem group_map {w w' : Weave} {gid : Nat} {g : Group} (f : Group → Group) (hf : ∀ q, (f q).gid = q.gid)
    (hw : w'.groups = w.groups.map f) (h : w.group gid = some g) : w'.group gid = some (f g) := by
  have hsame : (fun q : Group => q.gid == gid) ∘ f = fun q => q.gid == gid := funext fun q => by simp [hf]
  have hg : w.groups.find? (fun q => q.gid == gid) = some g := h
  show w'.groups.find? (fun q => q.gid == gid) = _
  rw [hw, List.find?_map, hsame, hg]
  rfl

theorem Weave.group_updGroup {w : Weave} {gid : Nat} {g : Group} (f : Group → Group) (hf : ∀ q, (f q).gid = q.gid)
    (h : w.group gid = some g) : (w.updGroup gid f).group gid = some (f g) := by
  refine (group_map _ (fun q => ?_) rfl h).trans (by rw [if_pos (beq_iff_eq.2 (Weave.group_gid h))])
  split
  · exact hf q
  · rfl

/-- Fewer threads hold no more trap frames. -/
theorem Weave.anyTrap_mono {w : Weave} {a b : Lanes} (hsub : ∀ l, a.has l = true → b.has l = true)
    (h : w.anyTrap b = false) : w.anyTrap a = false := by
  rw [Weave.anyTrap, List.any_eq_false] at h ⊢
  intro l hl
  obtain ⟨h32, hal⟩ := (Lanes.mem_toList a l).1 hl
  exact h l ((Lanes.mem_toList b l).2 ⟨h32, hsub l hal⟩)

theorem lanesMinus_has {a b : Lanes} {l : Nat} (h : (lanesMinus a b).has l = true) : a.has l = true ∧ b.has l = false := by
  simp only [lanesMinus, Lanes.has, BitVec.getLsbD_and, BitVec.getLsbD_not, Bool.and_eq_true, Bool.not_eq_true'] at h
  exact ⟨h.1, h.2.2⟩

/-! ### Entering the handler (R255) -/

section Handler

variable (w : Weave) (lr : LaunchRec) (g : Group) (addr : W64) (len : Nat) (bnd : Bool) (t : Trap)

/-- Entry changes WSTAT, TRAPINFO, frames and groups. -/
theorem Weave.enterHandler_eq : w.enterHandler lr g addr len bnd t =
    { w with
      wstat := (w.wstat &&& ~~~(0xFF00#64)) ||| w64 (t.code.code * 256)
      trapinfo := trapInfo lr.code addr t g.lanes
      frames := (w.pushTrap g.lanes (g.resumeAt addr len bnd t).1 (g.resumeAt addr len bnd t).2.1
        (g.resumeAt addr len bnd t).2.2 g.progress).frames
      groups := w.groups.map fun q => if q.gid == g.gid then
          { q with pc := w64 lr.trap.base, pos := .arrived, progress := 0, sleep := .awake, port := false, latch := none }
        else q } := by
  show Weave.updGroup { w.pushTrap _ _ _ _ _ with trapinfo := _, wstat := _ } _ _ = _
  rw [Weave.pushTrap_eq]
  rfl

theorem Weave.frame_enterHandler {l : Nat} (hl : l < 32) : (w.enterHandler lr g addr len bnd t).frame l =
    if g.lanes.has l then Frame.trap (g.resumeAt addr len bnd t).1 (g.resumeAt addr len bnd t).2.1
        (g.resumeAt addr len bnd t).2.2 g.progress :: w.frame l
      else w.frame l := by
  rw [Weave.enterHandler_eq]
  exact w.frame_pushTrap g.lanes _ _ _ _ l hl

end Handler

/-- A trap whose weave has no thread in a handler, and which has one, is taken in it (R255). -/
theorem State.takeTrap_enters {s : State} {wid gid : Nat} {e : Env} {g : Group} {addr : W64} {len : Nat} {bnd : Bool}
    {tr : Trap} (he : s.env wid = some e) (hg : e.w.group gid = some g) (hl : ∀ l, tr.lane = some l → l < 32)
    (hcan : s.envCancelling e = false) (hhere : e.w.anyTrap g.lanes = false)
    (hthere : e.w.anyTrap (lanesMinus e.w.live g.lanes) = false) (htag : e.f.lr.trap.tag = true) :
    s.Enters (s.takeTrap wid gid addr len bnd tr) e g addr tr (g.resumeAt addr len bnd tr) := by
  obtain ⟨hwid, hw, -⟩ := State.env_some he
  have htake : s.takeTrap wid gid addr len bnd tr = s.updWeave wid fun w => w.enterHandler e.f.lr g addr len bnd tr := by
    simp [State.takeTrap, he, hg, hcan, hhere, hthere, htag]
  rw [htake]
  refine ⟨rfl, fun _ => rfl, fun n hn => ?_, e.w.enterHandler e.f.lr g addr len bnd tr, ?_, ?_,
    fun l h32 => Weave.frame_enterHandler _ _ _ _ _ _ _ h32, ?_, ?_, ?_, ?_⟩
  · exact (State.weave_updWeave ..).trans (if_neg (hwid ▸ hn))
  · rw [State.weave_updWeave, if_pos hwid, hw, Option.map_some]
  all_goals rw [Weave.enterHandler_eq]
  · exact trapInfo_is _ _ _ _ hl
  · exact (lastTrap_fields e.w.wstat (Nat.lt_trans tr.code.code_lt (by decide))).1
  · exact (lastTrap_fields e.w.wstat (Nat.lt_trans tr.code.code_lt (by decide))).2
  · rfl

/-! ### Threads that end (R92, R123) -/

/-- Of a weave, nothing has changed but WSTAT, TRAPINFO, the frames of threads that some group holds, and what its groups
do; every group has the threads of one of before. -/
structure Weave.Released (w w' : Weave) : Prop where
  regs : w' = { w with wstat := w'.wstat, trapinfo := w'.trapinfo, frames := w'.frames, groups := w'.groups }
  frames : ∀ l, l < 32 → (∀ g ∈ w.groups, g.lanes.has l = false) → w'.frame l = w.frame l
  groups : ∀ g ∈ w'.groups, ∃ q ∈ w.groups, g.lanes = q.lanes

theorem Weave.releaseHandler_released (w : Weave) (lr : LaunchRec) : w.Released (w.releaseHandler lr) := by
  have same : w.Released w := ⟨rfl, fun _ _ _ => rfl, fun g hg => ⟨g, hg, rfl⟩⟩
  unfold Weave.releaseHandler
  split
  · exact same
  split
  · next g a n b t hfind =>
    obtain ⟨q, hq, hsleep⟩ := List.exists_of_findSome?_eq_some hfind
    have hgq : g ∈ w.groups := by
      split at hsleep
      · cases hsleep; exact hq
      · cases hsleep
    refine ⟨by rw [Weave.enterHandler_eq], fun l hl hno => ?_, fun r hr => ?_⟩
    · rw [Weave.frame_enterHandler _ _ _ _ _ _ _ hl, hno g hgq]
      rfl
    · rw [Weave.enterHandler_eq] at hr
      obtain ⟨p, hp, rfl⟩ := List.mem_map.1 hr
      refine ⟨p, hp, ?_⟩
      split <;> rfl
  · exact same

theorem Weave.frame_endLanes (w : Weave) {ls : Lanes} {l : Nat} (h : ls.has l = true) : (w.endLanes ls).frame l = [] := by
  show (Tbl.find (keep w.frames fun l _ => !ls.has l) l).getD [] = []
  cases hf : Tbl.find (keep w.frames fun l _ => !ls.has l) l with
  | none => rfl
  | some v => simpa [h] using Tbl.find_keep_some hf

/-- The threads of an ended set are in no group. -/
theorem Weave.endLanes_groups (w : Weave) (ls : Lanes) : ∀ g ∈ (w.endLanes ls).groups, g.lanes &&& ls = 0 ∧ g.lanes ≠ 0 := by
  intro g hg
  obtain ⟨hg, hne⟩ := List.mem_filter.1 hg
  obtain ⟨q, -, rfl⟩ := List.mem_map.1 hg
  refine ⟨?_, by simpa using hne⟩
  apply BitVec.eq_of_getLsbD_eq
  intro l hl
  simp only [lanesMinus, BitVec.getLsbD_and, BitVec.getLsbD_not, hl, decide_true, Bool.true_and]
  cases ls.getLsbD l <;> simp

/-- A weave whose threads of a set have ended by a kill, its handler not yet released. -/
def Weave.cut (w : Weave) (ls : Lanes) (killed : Bool) : Weave :=
  { w.endLanes ls with killed := w.killed || killed, dead := w.dead ||| (w.live &&& ls) }

/-- A kill ends the threads that it names (R92). -/
theorem State.endThreads_ended {s : State} {wid : Nat} {e : Env} (he : s.env wid = some e) (ls : Lanes) (killed : Bool) :
    s.Ended (s.endThreads wid ls killed) e ls := by
  obtain ⟨hwid, hw, -⟩ := State.env_some he
  have hend : s.endThreads wid ls killed = s.updWeave wid fun w => (w.cut ls killed).releaseHandler e.f.lr := by
    simp only [State.endThreads, he]
    rfl
  obtain ⟨hregs, hframes, hgroups⟩ := (e.w.cut ls killed).releaseHandler_released e.f.lr
  rw [hend]
  refine ⟨rfl, fun n hn => (State.weave_updWeave ..).trans (if_neg (hwid ▸ hn)),
    (e.w.cut ls killed).releaseHandler e.f.lr, ?_, ?_⟩
  · rw [State.weave_updWeave, if_pos hwid, hw, Option.map_some]
  refine ⟨by rw [hregs]; rfl, by rw [hregs]; rfl, by rw [hregs]; rfl, by rw [hregs]; rfl, by rw [hregs]; rfl,
    by rw [hregs]; rfl, fun g hg => ?_, fun l hl hls => ?_⟩
  · obtain ⟨q, hq, hlanes⟩ := hgroups g hg
    rw [hlanes]
    exact e.w.endLanes_groups ls q hq
  · refine (hframes l hl fun g hg => ?_).trans (e.w.frame_endLanes hls)
    have hno : (g.lanes &&& ls).getLsbD l = false := by rw [(e.w.endLanes_groups ls g hg).1]; exact BitVec.getLsbD_zero
    rwa [BitVec.getLsbD_and, show ls.getLsbD l = true from hls, Bool.and_true] at hno

end Sys2Proof.Machine
end

section
/-! RUN headers and FILL (R92, R102, R108, R298, R317). -/

namespace Sys2Proof.Machine

open Sys2Proof

/-! ### Changes of the issuing group -/

/-- Nothing but the groups of one weave has changed, each of them by `f` if it bears a name. -/
def State.GroupOnly (s t : State) (c : Cur) (e : Env) (f : Group → Group) : Prop :=
  t = { s with weaves := t.weaves } ∧ (∀ n, n ≠ c.weave → t.weave n = s.weave n)
    ∧ t.weave c.weave = some { e.w with groups := e.w.groups.map fun q => if q.gid == c.gid then f q else q }

section Header

variable {s : State} {c : Cur} {e : Env} {g : Group} {wait : BitVec 12} {a b : Option (BitVec 4)}

theorem State.onGroup_only (h : s.issuer = some (c, e, g)) (f : Group → Group) : s.GroupOnly (s.onGroup c f) c e f := by
  obtain ⟨-, he, -⟩ := State.issuer_some h
  obtain ⟨-, hw, -⟩ := State.env_some he
  refine ⟨rfl, fun n hn => (State.weave_updWeave ..).trans (if_neg hn), ?_⟩
  exact (State.weave_updWeave ..).trans (by rw [if_pos rfl, hw]; rfl)

/-! ### Errors that a header raises (R40, R398) -/

theorem Weave.takeErr_none {w : Weave} {f : Deferred → Bool} (h : ∀ d ∈ w.errs, f d = false) : w.takeErr f = none := by
  rw [Weave.takeErr, List.find?_eq_none.2 fun d hd => by simp [h d hd]]

theorem Weave.takeErr_first {w : Weave} {f : Deferred → Bool} {pre post : List Deferred} {d : Deferred}
    (h : w.errs = pre ++ d :: post) (hpre : ∀ q ∈ pre, f q = false) (hd : f d = true) :
    w.takeErr f = some (d, { w with errs := pre ++ post }) := by
  have hfind : w.errs.find? f = some d :=
    List.find?_eq_some_iff_append.2 ⟨hd, pre, post, h, fun q hq => by simp [hpre q hq]⟩
  have hnot : d ∉ pre := fun hm => by simp [hpre d hm] at hd
  have herase : w.errs.erase d = pre ++ post := by rw [h, List.erase_append_right _ hnot, List.erase_cons_head]
  rw [Weave.takeErr, hfind, ← herase]

/-- The trap of an error at a header: no lane, the return at the first instruction of the run (R252, R254). -/
theorem Deferred.trap_header (d : Deferred) : (d.trap true false).hdr = true ∧ (d.trap true false).fnc = false
    ∧ (d.trap true false).lane = none ∧ (d.trap true false).resume = .runStart := by
  cases d <;> exact ⟨rfl, rfl, rfl, rfl⟩

/-! ### What a header does (R317) -/

/-- A weave whose header raises an error: the error is consumed, and the group stands in the run that the header begins. -/
def Weave.raising (w : Weave) (gid : Nat) (errs : List Deferred) (r : Run) : Weave :=
  ({ w with errs := errs }).updGroup gid fun q => { q with run := r }

theorem exec_run_kill (h : s.issuer = some (c, e, g)) (hk : s.killDue e = true) :
    exec (.run wait a b) s = .next (s.endThreads e.wid g.lanes (s.envCancelling e)) := by
  simp [execRun, h, hk]

theorem exec_run_halt (h : s.issuer = some (c, e, g)) (hk : s.killDue e = false) (hst : e.c.st = .halting) :
    exec (.run wait a b) s
      = .next (s.onGroup c fun q => { q with halted := true, sleep := .awake, port := false }) := by
  simp [execRun, h, hk, hst]

theorem exec_run_wait (h : s.issuer = some (c, e, g)) (hk : s.killDue e = false) (hst : e.c.st ≠ .halting)
    (hclear : e.w.flagsClear wait = false) :
    exec (.run wait a b) s = .next (s.onGroup c fun q =>
      { q with sleep := .header wait, port := false, latch := some (c.addr, c.code) }) := by
  simp [execRun, h, hk, hst, hclear]

theorem exec_run_begin (h : s.issuer = some (c, e, g)) (hk : s.killDue e = false) (hst : e.c.st ≠ .halting)
    (hclear : e.w.flagsClear wait = true) (hcalm : ∀ d ∈ e.w.errs, d.atHeader wait = false) :
    exec (.run wait a b) s = .next (s.enterRun e c (Run.begin_ c.addr a b)) := by
  simp [execRun, h, hk, hst, hclear, Weave.takeErr_none hcalm]

theorem exec_run_error (h : s.issuer = some (c, e, g)) (hk : s.killDue e = false) (hst : e.c.st ≠ .halting)
    (hclear : e.w.flagsClear wait = true) {pre post : List Deferred} {d : Deferred} (herrs : e.w.errs = pre ++ d :: post)
    (hpre : ∀ q ∈ pre, q.atHeader wait = false) (hd : d.atHeader wait = true) :
    exec (.run wait a b) s = .next ((s.setWeave e.wid (e.w.raising g.gid (pre ++ post) (Run.begin_ c.addr a b))).takeTrap
      e.wid g.gid c.addr 8 false (d.trap true false)) := by
  simp [execRun, h, hk, hst, hclear, Weave.takeErr_first herrs hpre hd, Weave.raising]

/-- The run begins behind its header, and only the weave's groups change. -/
theorem State.enterRun_spec (h : s.issuer = some (c, e, g)) (r : Run) :
    s.enterRun e c r = { s with weaves := (s.enterRun e c r).weaves }
      ∧ (∀ n, n ≠ c.weave → (s.enterRun e c r).weave n = s.weave n)
      ∧ ∃ w, (s.enterRun e c r).weave c.weave = some w ∧ w = { e.w with groups := w.groups }
        ∧ ∃ q, w.group c.gid = some q ∧ q.lanes = g.lanes ∧ q.pc = c.addr + 8 ∧ q.pos = .inRun ∧ q.run = r
          ∧ q.progress = 0 ∧ q.sleep = .awake := by
  obtain ⟨-, he, hg⟩ := State.issuer_some h
  obtain ⟨hwid, hw, -⟩ := State.env_some he
  refine ⟨rfl, fun n hn => (State.weave_updWeave ..).trans (if_neg (hwid ▸ hn)), _,
    (State.weave_updWeave ..).trans (by rw [if_pos hwid.symm, hwid, hw]; rfl), rfl, _, group_map _ ?_ rfl hg, ?_⟩
  · intro q
    split
    · rfl
    · split <;> rfl
  · rw [if_pos (Weave.group_gid hg)]
    exact ⟨rfl, rfl, rfl, rfl, rfl, rfl⟩

theorem exec_fill_eq (h : s.issuer = some (c, e, g)) :
    exec .fill s = .next (s.onGroup c fun q => { q with pc := c.addr + 4, latch := none }) := by
  simp [execFill, h]

/-- The surroundings of a weave that has changed and stays in its team. -/
theorem State.env_setWeave {wid : Nat} {w : Weave} (he : s.env wid = some e) (hw : w.team = e.w.team) :
    (s.setWeave wid w).env wid = some { e with w := w } := by
  obtain ⟨hwid, -, htid, ht, hcid, hc, hfid, hf⟩ := State.env_some he
  have hput : (s.setWeave wid w).weave wid = some w := (State.weave_setWeave ..).trans (if_pos rfl)
  have ht' : (s.setWeave wid w).team w.team = some e.t := by rw [hw, ← htid]; exact ht
  have hc' : (s.setWeave wid w).cohort e.t.cohort = some e.c := by rw [← hcid]; exact hc
  have hf' : (s.setWeave wid w).field e.c.field = some e.f := by rw [← hfid]; exact hf
  simp only [State.env, hput, ht', hc', hf']
  rw [hw, ← htid, ← hcid, ← hfid, hwid]

/-- The trap of an error at a header is taken with the return at the first instruction of the run (R252). -/
theorem State.header_enters {wid gid : Nat} {addr : W64} (he : s.env wid = some e) (hg : e.w.group gid = some g)
    (errs : List Deferred) (r : Run) (d : Deferred) (hcan : s.envCancelling e = false)
    (hhere : e.w.anyTrap g.lanes = false) (hlive : e.w.anyTrap e.w.live = false) (htag : e.f.lr.trap.tag = true) :
    let w := e.w.raising gid errs r
    (s.setWeave wid w).Enters ((s.setWeave wid w).takeTrap wid gid addr 8 false (d.trap true false)) { e with w := w }
      { g with run := r } addr (d.trap true false) (r.hdr + 8, .inRun, r) := by
  intro w
  obtain ⟨-, -, hlane, hres⟩ := d.trap_header
  have hresume : ({ g with run := r } : Group).resumeAt addr 8 false (d.trap true false) = (r.hdr + 8, .inRun, r) := by
    rw [Group.resumeAt, hres]
  have hthere : e.w.anyTrap (lanesMinus e.w.live g.lanes) = false :=
    Weave.anyTrap_mono (fun l hl => (lanesMinus_has hl).1) hlive
  have hgroup : w.group gid = some { g with run := r } :=
    Weave.group_updGroup (w := { e.w with errs := errs }) (fun q => { q with run := r }) (fun _ => rfl) hg
  rw [← hresume]
  exact State.takeTrap_enters (State.env_setWeave he rfl) hgroup (fun l hl => by simp [hlane] at hl) hcan hhere hthere htag

end Header

/-- Settles O20: the cases of `execRun` in their order; the trap at the header by `State.takeTrap_enters`. -/
theorem runHeader : Obligations.RunHeader := by
  intro wait a b s c e g h
  obtain ⟨-, he, hg⟩ := State.issuer_some h
  obtain ⟨hwid, hw, -⟩ := State.env_some he
  have hgid := Weave.group_gid hg
  dsimp only
  obtain ⟨t, ht⟩ : ∃ t, exec (.run wait a b) s = .next t := ⟨_, exec_run ..⟩
  have next {u : State} (hu : exec (.run wait a b) s = .next u) : t = u := by
    rw [ht] at hu; exact Host.Outcome.next.inj hu
  refine ⟨t, ht, fun hk => ?_, fun hk hst => ?_, fun hk hst hclear => ?_, fun hk hst hclear hcalm => ?_,
    fun hk hst hclear pre post d herrs hpre hd => ?_, _, exec_fill_eq h, ?_⟩
  · rw [next (exec_run_kill h hk)]
    exact State.endThreads_ended (hwid ▸ he) _ _
  · rw [next (exec_run_halt h hk hst)]
    exact State.onGroup_only h _
  · rw [next (exec_run_wait h hk hst hclear)]
    exact State.onGroup_only h _
  · rw [next (exec_run_begin h hk hst hclear hcalm)]
    exact State.enterRun_spec h _
  · obtain ⟨hhdr, hfnc, hlane, hres⟩ := d.trap_header
    have htrap := next (exec_run_error h hk hst hclear herrs hpre hd)
    rw [hwid, hgid] at htrap
    refine ⟨htrap, hhdr, hfnc, hlane, by cases d <;> rfl, fun hlive hhere htag => ?_⟩
    rw [htrap]
    have hcan : s.envCancelling e = false := by
      simp only [State.killDue, Bool.or_eq_false_iff] at hk
      exact hk.1.1
    exact State.header_enters he hg (pre ++ post) (Run.begin_ c.addr a b) d hcan hhere hlive htag
  · exact State.onGroup_only h _

end Sys2Proof.Machine
end

section
/-! LS accesses that are translated and sent (R36, R37, R106, R109, R137, R385–R389). -/

namespace Sys2Proof.Machine

open Sys2Proof

/-! ### Translations -/

theorem State.SameWalk.refl (s : State) : s.SameWalk s := ⟨rfl, rfl, rfl, rfl, fun _ => rfl⟩

/-- A translation that is kept changes the TLBs alone. -/
theorem State.fillTlb_eq (s : State) (die part lva : Nat) :
    s.fillTlb die part lva = { s with tlb := (s.fillTlb die part lva).tlb } := by
  unfold State.fillTlb
  split
  · rfl
  split
  · split <;> rfl
  · rfl

section Walk

variable {s t : State} {die part : Nat}

theorem State.xlateLs_congr (h : s.SameWalk t) (die part lva kind lane : Nat) :
    t.xlateLs die part lva kind lane = s.xlateLs die part lva kind lane := by
  simp only [State.xlateLs, State.xlate_congr h, h.eccBad, h.memSt]

theorem State.SameWalk.fillTlb (h : s.SameWalk t) (lva : Nat) :
    (s.fillTlb die part lva).SameWalk (t.fillTlb die part lva) := by
  have htlb : (t.fillTlb die part lva).tlb = (s.fillTlb die part lva).tlb := by
    simp only [State.fillTlb, State.part_congr h.parts, h.tlb, walkFrom_congr h]
    split
    · exact h.tlb
    · split
      · split
        · rfl
        · exact h.tlb
      · exact h.tlb
  rw [State.fillTlb_eq t, State.fillTlb_eq s, htlb]
  exact ⟨h.parts, rfl, h.mem, h.bad, h.memSt⟩

/-- What translations in order leave: the TLBs alone change, and no access becomes local that was remote. -/
theorem State.xlateAccs_ok {kind : Nat} {accs out : List Acc} (h : s.xlateAccs die part kind accs = .ok (t, out)) :
    t = { s with tlb := t.tlb } ∧ out.length = accs.length
      ∧ ((∀ a ∈ out, a.loc.isRemote = false) → ∀ a ∈ accs, a.loc.isRemote = false) := by
  induction accs generalizing s out with
  | nil => cases h; exact ⟨rfl, rfl, fun h => h⟩
  | cons a r ih =>
    unfold State.xlateAccs at h
    split at h
    · next lva hloc =>
      split at h
      · cases h
      · split at h
        · cases h
        · next hrest =>
          cases h
          obtain ⟨hs, hlen, hrem⟩ := ih hrest
          refine ⟨by rw [hs, State.fillTlb_eq], by simp [hlen], fun hno b hb => ?_⟩
          rcases List.mem_cons.1 hb with rfl | hb
          · rw [hloc]; rfl
          · exact hrem (fun c hc => hno c (List.mem_cons_of_mem _ hc)) b hb
    · split at h
      · cases h
      · next hrest =>
        cases h
        obtain ⟨hs, hlen, hrem⟩ := ih hrest
        refine ⟨hs, by simp [hlen], fun hno b hb => ?_⟩
        rcases List.mem_cons.1 hb with rfl | hb
        · exact hno b List.mem_cons_self
        · exact hrem (fun c hc => hno c (List.mem_cons_of_mem _ hc)) b hb

/-- Where every access of a VCOMPST is translated, its translation up to the first fault takes them all, in every state that
walks alike. -/
theorem State.xlatePrefix_of_ok {u : State} {accs out : List Acc} (hw : s.SameWalk u)
    (h : s.xlateAccs die part 1 accs = .ok (t, out)) :
    u.xlatePrefix die part accs = ({ u with tlb := t.tlb }, out, [], none) := by
  induction accs generalizing s u out with
  | nil =>
    cases h
    rw [← hw.tlb]
    rfl
  | cons a r ih =>
    unfold State.xlateAccs at h
    unfold State.xlatePrefix
    split at h
    · next lva hloc =>
      rw [State.xlateLs_congr hw]
      split at h
      · cases h
      · next pa hpa =>
        split at h
        · cases h
        · next hrest =>
          cases h
          rw [ih (hw.fillTlb lva.toNat) hrest, State.fillTlb_eq u]
    · next hno =>
      split at h
      · cases h
      · next hrest =>
        cases h
        rw [ih hw hrest]

end Walk

/-! ### Packets and the operation that leaves -/

/-- Accesses of the own module are in no packet. -/
theorem packetsOf_local {accs : List Acc} (h : ∀ a ∈ accs, a.loc.isRemote = false) : packetsOf accs = [] := by
  have hstep (l : List (Acc × Nat)) (hl : ∀ q ∈ l, q.1.loc.isRemote = false) (ps : List (BitVec 9 × Nat × List Nat)) :
      l.foldl (fun ps (a, i) =>
        match a.loc with
        | .remote p lva =>
          let g := lva.toNat / 64
          if ps.any fun q => q.1 == p && q.2.1 == g then
            ps.map fun q => if q.1 == p && q.2.1 == g then (q.1, q.2.1, q.2.2 ++ [i]) else q
          else ps ++ [(p, g, [i])]
        | _ => ps) ps = ps := by
    induction l generalizing ps with
    | nil => rfl
    | cons q r ih =>
      have hq := hl q List.mem_cons_self
      rw [List.foldl_cons]
      refine (ih (fun q hq => hl q (List.mem_cons_of_mem _ hq)) _).trans ?_
      obtain ⟨a, i⟩ := q
      dsimp only at hq ⊢
      split
      · next hloc => rw [hloc] at hq; cases hq
      · rfl
  exact hstep _ (fun q hq => h q.1 (List.fst_mem_of_mem_zipIdx hq)) []

section Launch

variable {st : State} {i : Instr} {x : Ctx}

/-- Sending an operation enters it, counts and marks it, and opens table entries for its packets. -/
theorem Ctx.launch_eq (x : Ctx) (s : State) (p : LsOp) (regs : List (RegCls × Nat)) :
    ∃ n o, x.launch s p regs = { s with
        nextId := n, ott := o, lsOps := Tbl.put s.lsOps s.nextId p
        weaves := Tbl.upd s.weaves x.e.wid fun w => (w.countUp p.flag).mark s.nextId x.g.lanes regs }
      ∧ (packetsOf p.accs = [] → o = s.ott) := by
  have hfold (f : State → BitVec 9 × Nat × List Nat → State)
      (hf : ∀ s q, f s q = { s with nextId := (f s q).nextId, ott := (f s q).ott })
      (ps : List (BitVec 9 × Nat × List Nat)) (s : State) :
      ps.foldl f s = { s with nextId := (ps.foldl f s).nextId, ott := (ps.foldl f s).ott } := by
    induction ps generalizing s with
    | nil => rfl
    | cons q r ih => rw [List.foldl_cons, ih, hf]
  unfold Ctx.launch
  simp only [State.fresh]
  rw [hfold _ (fun _ _ => rfl)]
  refine ⟨_, _, rfl, fun hnone => ?_⟩
  rw [hnone]
  rfl

theorem Weave.getCf_setCf (w : Weave) (n v m : Nat) : (w.setCf n v).getCf m = if m = n then v else w.getCf m :=
  Tbl.get_set w.cf 0 n v m

/-- The flag of an operation counts one more (R106). -/
theorem Weave.getCf_countUp (w : Weave) (flag : Option Nat) (n : Nat) :
    (w.countUp flag).getCf n = w.getCf n + if flag = some n then 1 else 0 := by
  cases flag with
  | none => rfl
  | some f =>
    by_cases h : n = f
    · subst h; simp [Weave.countUp, Weave.getCf_setCf]
    · simp [Weave.countUp, Weave.getCf_setCf, h, Ne.symm h]

theorem Weave.countUp_eq (w : Weave) (flag : Option Nat) : w.countUp flag = { w with cf := (w.countUp flag).cf } := by
  cases flag <;> rfl

/-- The advance of a group sets its progress index anew (R295). -/
theorem Group.advance_progress (g : Group) (n : Nat) (c : Cur) (bnd : Bool) (vl : List (RegCls × Nat)) :
    ({ g with progress := n }).advance c bnd vl = g.advance c bnd vl := by
  unfold Group.advance
  split <;> rfl

/-- A state in which an instruction has entered an operation, its group not yet advanced: at most the progress index of the
group has changed besides. -/
structure Ctx.Entered (x : Ctx) (u : State) (p : LsOp) (regs : List (RegCls × Nat)) : Prop where
  rest : u = { x.s with nextId := u.nextId, ott := u.ott, weaves := u.weaves, lsOps := u.lsOps, tlb := u.tlb }
  sent : Tbl.find u.lsOps x.s.nextId = some p
  others : ∀ n, n ≠ x.s.nextId → Tbl.find u.lsOps n = Tbl.find x.s.lsOps n
  local_ : (∀ a ∈ p.accs, a.loc.isRemote = false) → u.ott = x.s.ott
  weaves : ∀ n, n ≠ x.c.weave → u.weave n = x.s.weave n
  here : ∃ f : Group → Group, (f = id ∨ f = fun g => { g with progress := 0 })
    ∧ u.weave x.c.weave = some (((x.w.countUp p.flag).mark x.s.nextId x.g.lanes regs).updGroup x.c.gid f)

theorem Ctx.Entered.sends {u : State} {p : LsOp} {regs : List (RegCls × Nat)} (h : x.Entered u p regs) :
    x.Sends i ((Res.done u).apply x i) p regs := by
  obtain ⟨hrest, hsent, hothers, hlocal, hweaves, f, hf, hhere⟩ := h
  have hmem (a : Nat) : Memory.get u.mem a = Memory.get x.s.mem a := by rw [hrest]
  refine ⟨?_, hmem, hsent, hothers, hlocal, fun n hn => ?_,
    (((x.w.countUp p.flag).mark x.s.nextId x.g.lanes regs).updGroup x.c.gid f).updGroup x.c.gid
      fun g => g.advance x.c x.h.bnd (lateRegs i), ?_, ?_, x.w.getCf_countUp p.flag, ?_, ?_⟩
  · conv_lhs => rw [hrest]
    rfl
  · exact ((State.weave_updWeave ..).trans (if_neg hn)).trans (hweaves n hn)
  · exact (State.weave_updWeave ..).trans (by rw [if_pos rfl, hhere]; rfl)
  all_goals rw [Weave.countUp_eq]
  · rfl
  · rfl
  · refine List.map_map.trans (List.map_congr_left fun g _ => ?_)
    by_cases hg : g.gid = x.c.gid
    · rcases hf with rfl | rfl
      · simp only [Function.comp, beq_iff_eq, hg, if_true, id]
      · simp only [Function.comp, beq_iff_eq, if_pos hg]
        exact Group.advance_progress g 0 _ _ _
    · simp only [Function.comp, beq_iff_eq, hg, if_false]

/-- Launching a translated operation enters it. -/
theorem Ctx.launch_entered (hctx : st.ctx i = some x) {s : State} (hs : s = { x.s with tlb := s.tlb }) (p : LsOp)
    (regs : List (RegCls × Nat)) : x.Entered (x.launch s p regs) p regs := by
  obtain ⟨hst, hwid, hw⟩ := State.ctx_weave hctx
  obtain ⟨tlb, rfl⟩ : ∃ tlb, s = { x.s with tlb := tlb } := ⟨_, hs⟩
  obtain ⟨n, o, hlaunch, hott⟩ := x.launch_eq { x.s with tlb := tlb } p regs
  rw [hlaunch]
  refine ⟨rfl, Tbl.find_put_self .., fun m hm => Tbl.find_put_other _ _ hm, fun hl => hott (packetsOf_local hl),
    fun m hm => (Tbl.find_upd ..).trans (if_neg (hwid ▸ hm)), id, .inl rfl, ?_⟩
  refine (Tbl.find_upd ..).trans ?_
  rw [if_pos hwid.symm, hwid]
  show (x.s.weave x.c.weave).map _ = _
  rw [hst, hw]
  simp [Weave.updGroup]

end Launch

/-! ### Sending -/

section Send

variable {st : State} {i : Instr} {x : Ctx}

theorem Ctx.send_sends (hctx : st.ctx i = some x) {s : State} (hs : s = { x.s with tlb := s.tlb }) {p : LsOp}
    (hne : p.accs ≠ []) (hgo : x.mustStall p = false) (regs : List (RegCls × Nat)) :
    x.Sends i ((x.send s p regs).apply x i) p regs := by
  have hsend : x.send s p regs = .done (x.launch s p regs) := by simp [Ctx.send, hne, hgo]
  rw [hsend]
  exact (Ctx.launch_entered hctx hs p regs).sends

/-- Elements whose peers answer, translated, are sent. -/
theorem Ctx.route_sends (hctx : st.ctx i = some x) {u : Use} {a : Nat} {es : List Elem} {p : LsOp} {accs out : List Acc} {s' : State}
    (hpeer : ∀ e ∈ es, x.Reaches a e.addr) (hx : x.s.xlateAccs x.die x.e.part u.kind accs = .ok (s', out)) (hne : accs ≠ [])
    (hgo : x.mustStall { p with accs := out } = false) :
    x.Sends i ((x.route u a es p accs).apply x i) { p with accs := out } p.dest.regs := by
  obtain ⟨hs, hlen, -⟩ := State.xlateAccs_ok hx
  have hout : out ≠ [] := fun h => hne (List.length_eq_zero_iff.1 (by rw [← hlen, h]; rfl))
  rw [Ctx.route, Ctx.badPeer_none hpeer]
  dsimp only
  rw [hx]
  exact Ctx.send_sends hctx hs hout hgo _

end Send

/-! ### STF (R44, R385) -/

/-- The flag of an STF passes its checks. -/
theorem Ctx.flagCheck_none {x : Ctx} {fk fa : Nat} (htag : (x.w.getK fk).tag = true) (hsp : (x.w.getK fk).space = 0)
    (hperm : (x.w.getK fk).perm.getLsbD 5 = true) (hlo : (x.w.getK fk).base ≤ fa)
    (hhi : fa + 8 ≤ (x.w.getK fk).base + (x.w.getK fk).len) (hend : fa + 8 ≤ 2 ^ 64) (hal : fa % 8 = 0) :
    x.flagCheck fk fa = none := by
  have hbit : ∀ p : BitVec 8, p.getLsbD 5 = true → p &&& permF = permF := by decide
  have hcap : x.capCheck { spaces := [0], perm := permF, kind := 2, nat := true } fk (fk + 16) 8 fa 8 = none := by
    rw [Ctx.capCheck_range htag ⟨by simp [hsp], fun _ => .inr rfl⟩ (hbit _ hperm),
      if_pos ((covers_iff ..).2 ⟨by omega, by omega, by omega⟩)]
  simp only [Ctx.flagCheck, hcap, Int.toNat_natCast, hal, bne_self_eq_false, Bool.false_eq_true, if_false]

theorem stf_sends {h : Hd} {m : MemF} {a b c fk : Nat} {imm : W32} {foff : BitVec 24} {st : State} {x : Ctx} {s1 s2 : State}
    {data incs : List Acc} (hi : st.Issues (.stf h m a b c imm fk foff) x) (hne : x.elems m a b imm ≠ [])
    (hes : ∀ e ∈ x.elems m a b imm, x.Passes { spaces := [0], perm := 2, kind := 1, nat := true } a (Size.bytes m.size) e.addr
      ∧ e.addr.toNat % Size.bytes m.size = 0 ∧ e.addr.toNat / 2 ^ 55 = ((x.w.getK fk).base + foff.toNat) / 2 ^ 55)
    (hflag : x.flagCheck fk ((x.w.getK fk).base + foff.toNat : Nat) = none)
    (hpeer : x.s.peerCheck x.e (((x.w.getK fk).base + foff.toNat) / 2 ^ 55) = none)
    (hdata : x.s.xlateAccs x.die x.e.part 1 (x.asks a (Size.bytes m.size) (x.elems m a b imm) fun l => x.data m c l) = .ok (s1, data))
    (hincs : s1.xlateAccs x.die x.e.part 2 (if ((x.w.getK fk).base + foff.toNat) / 2 ^ 55 = x.s.ownPeer x.e.part
      then (x.elems m a b imm).map fun e => incAcc e.lane (BitVec.ofNat 64 ((x.w.getK fk).base + foff.toNat)) else []) = .ok (s2, incs))
    (hgo : x.mustStall { x.lsOp m .stf .none with
      accs := data ++ incs, stf := some (BitVec.ofNat 64 ((x.w.getK fk).base + foff.toNat)) } = false) :
    ∃ t, exec (.stf h m a b c imm fk foff) st = .next t ∧ x.Sends (.stf h m a b c imm fk foff) t
      { x.lsOp m .stf .none with accs := data ++ incs, stf := some (BitVec.ofNat 64 ((x.w.getK fk).base + foff.toNat)) } [] := by
  obtain ⟨hs1, hlen, -⟩ := State.xlateAccs_ok hdata
  obtain ⟨hs2, -, -⟩ := State.xlateAccs_ok hincs
  have hchecks : x.lsChecks { spaces := [0], perm := permW, kind := 1, nat := true } a (Size.bytes m.size) (x.elems m a b imm) = none :=
    Ctx.lsChecks_none (fun e he => (hes e he).1) fun e he => by
      rw [Ctx.Aligned, if_pos (.inl rfl)]
      exact (hes e he).2.1
  have hsame : firstBad (x.elems m a b imm) (fun e => if e.addr.toNat / 2 ^ 55 != ((x.w.getK fk).base + foff.toNat) / 2 ^ 55
      then some (.plain .capBounds a) else none) = none :=
    firstBad_none fun e he => by rw [(hes e he).2.2, bne_self_eq_false]; rfl
  have hfa : ((x.w.getK fk).base : Int) + foff.toNat = (((x.w.getK fk).base + foff.toNat : Nat) : Int) := (Int.natCast_add ..).symm
  have hout : data ++ incs ≠ [] := fun h => hne (List.length_eq_zero_iff.1 (by
    rw [(List.append_eq_nil_iff.1 h).1] at hlen
    simpa [Ctx.asks] using hlen.symm))
  refine ⟨_, hi.exec_eq (exec_stf ..), ?_⟩
  dsimp only
  rw [hchecks]
  dsimp only
  rw [hfa, hflag]
  dsimp only
  rw [Int.toNat_natCast, hsame]
  dsimp only
  rw [hpeer]
  dsimp only
  unfold Ctx.asks at hdata
  rw [hdata]
  simp only [beq_iff_eq]
  unfold w64
  rw [hincs]
  exact Ctx.send_sends hi.1 (by rw [hs2, hs1]) hout hgo []

/-! ### Packed elements (R386–R389) -/

section Packed

variable {x : Ctx} {u : Use} {a b l0 size : Nat} {imm : W32}

/-- Consecutive elements from an address on, one for each active lane. -/
def Ctx.run (x : Ctx) (base : Int) (size : Nat) : List Elem :=
  x.lanes.zipIdx.map fun q => { lane := q.1, addr := base + (q.2 * size : Nat) }

theorem Ctx.packed_eq (h : x.lanes.head? = some l0) :
    x.packed a b imm size = x.run ((x.w.getK a).base + (x.w.getV b l0).toNat + imm.toInt) size := by
  unfold Ctx.packed Ctx.run
  cases hl : x.lanes with
  | nil => simp [hl] at h
  | cons l r =>
    rw [hl, List.head?_cons] at h
    cases h
    rfl

theorem Ctx.run_ne_nil {base : Int} (h : x.lanes.head? = some l0) : x.run base size ≠ [] := by
  cases hl : x.lanes with
  | nil => simp [hl] at h
  | cons l r => simp [Ctx.run, hl]

/-- Packed elements that pass under the one range check of the instruction. -/
theorem Ctx.packedChecks_none {base : Int} (h : x.lanes.head? = some l0) (hpass : x.Passes u a size base)
    (hlen : base + ((x.run base size).length * size : Nat) ≤ ((x.w.getK a).base : Int) + (x.w.getK a).len
      ∧ base + ((x.run base size).length * size : Nat) ≤ 2 ^ 64) (hal : base.toNat % size = 0)
    (hall : ∀ e ∈ x.run base size, x.Passes u a size e.addr) : x.packedChecks u a size (x.run base size) = none := by
  obtain ⟨e0, r, hrun⟩ : ∃ e0 r, x.run base size = e0 :: r := List.exists_cons_of_ne_nil (Ctx.run_ne_nil h)
  have h0 : e0.addr = base := by
    cases hl : x.lanes with
    | nil => simp [hl] at h
    | cons l ls =>
      simp only [Ctx.run, hl, List.zipIdx_cons, List.map_cons, List.cons.injEq] at hrun
      rw [← hrun.1]
      simp
  have hrel : firstBad (x.run base size) (fun e => x.relCheck a size e.addr) = none :=
    firstBad_none fun e he => (hall e he).relCheck
  have hcap : x.capCheck u a a size base ((x.run base size).length * size) = none := hpass.capCheck hlen
  rw [hrun] at hrel hcap ⊢
  unfold Ctx.packedChecks
  dsimp only
  rw [h0, hcap]
  dsimp only
  rw [hrel]
  simp [hal]

end Packed

section Compress

variable {x : Ctx} {st s' : State} {h : Hd} {m : MemF} {a b c : Nat} {imm : W32} {accs out : List Acc} {p : LsOp} {i : Instr}

/-- A VCOMPST all of whose elements are translated goes on at once. -/
theorem Ctx.compGo_sends (hctx : st.ctx i = some x) (hx : x.s.xlateAccs x.die x.e.part 1 accs = .ok (s', out))
    (hp : p.accs = accs) (hole : p.hole = none) :
    x.Sends i ((x.compGo (x.launch x.s p []) x.s.nextId 0 p).apply x i) { p with accs := out } [] := by
  obtain ⟨hst, hwid, hw⟩ := State.ctx_weave hctx
  obtain ⟨-, -, hremote⟩ := State.xlateAccs_ok hx
  obtain ⟨n, o, hlaunch, hott⟩ := x.launch_eq x.s p []
  have hprefix := State.xlatePrefix_of_ok (u := x.launch x.s p []) (by rw [hlaunch]; exact ⟨rfl, rfl, rfl, rfl, fun _ => rfl⟩) hx
  have hgo : x.compGo (x.launch x.s p []) x.s.nextId 0 p = .done (State.onGroup { x.launch x.s p [] with
      tlb := s'.tlb, lsOps := Tbl.put (x.launch x.s p []).lsOps x.s.nextId { p with accs := out } } x.c
        fun g => { g with progress := 0 }) := by
    rw [Ctx.compGo, hp, hprefix, ← hole]
  rw [hgo, hlaunch]
  refine Ctx.Entered.sends ⟨rfl, Tbl.find_put_self .., fun m hm => ?_, fun hl => ?_, fun m hm => ?_,
    fun g => { g with progress := 0 }, .inr rfl, ?_⟩
  · exact (Tbl.find_put_other _ _ hm).trans (Tbl.find_put_other _ _ hm)
  · exact hott (packetsOf_local (by rw [hp]; exact hremote hl))
  · exact ((State.weave_updWeave ..).trans (if_neg hm)).trans ((Tbl.find_upd ..).trans (if_neg (hwid ▸ hm)))
  · refine (State.weave_updWeave ..).trans ?_
    rw [if_pos rfl]
    have hnow : Tbl.find (Tbl.upd x.s.weaves x.e.wid fun w => (w.countUp p.flag).mark x.s.nextId x.g.lanes []) x.c.weave
        = some ((x.w.countUp p.flag).mark x.s.nextId x.g.lanes []) := by
      rw [Tbl.find_upd, if_pos hwid.symm, hwid]
      show (x.s.weave x.c.weave).map _ = _
      rw [hst, hw]
      rfl
    exact congrArg (Option.map _) hnow

end Compress

section Packed

variable {x : Ctx} {st s' : State} {h : Hd} {m : MemF} {d a b : Nat} {imm : W32} {accs : List Acc}

theorem vexpld_sends (hi : st.Issues (.vexpld h m d a b imm) x) {es : List Elem}
    (hes : x.packed a b imm (Size.bytes m.size) = es) (hne : es ≠ [])
    (hchecks : x.packedChecks { spaces := [0, 1, 2, 4], perm := permR, kind := 0, nat := true } a (Size.bytes m.size) es = none)
    (hpeer : ∀ e ∈ es, x.Reaches a e.addr)
    (hx : x.s.xlateAccs x.die x.e.part 0 (x.asks a (Size.bytes m.size) es fun _ => .read) = .ok (s', accs))
    (hgo : x.mustStall { x.lsOp m .ld (destOf m d) with accs := accs } = false) :
    ∃ t, exec (.vexpld h m d a b imm) st = .next t
      ∧ x.Sends (.vexpld h m d a b imm) t { x.lsOp m .ld (destOf m d) with accs := accs } (destOf m d).regs := by
  refine ⟨_, hi.exec_eq (exec_vexpld ..), ?_⟩
  dsimp only
  rw [hes, hchecks]
  exact Ctx.route_sends (p := x.lsOp m .ld (destOf m d)) hi.1 hpeer hx (by simpa [Ctx.asks] using hne) hgo

theorem vcompst_sends (hi : st.Issues (.vcompst h m a b d imm) x) {es : List Elem}
    (hes : x.packed a b imm (Size.bytes m.size) = es) (hne : es ≠ [])
    (hchecks : x.packedChecks { spaces := [0, 1, 2, 4], perm := permW, kind := 1, nat := true } a (Size.bytes m.size) es = none)
    (hpeer : ∀ e ∈ es, x.Reaches a e.addr) (hopen : x.s.openOf x.e.wid x.g.gid = none) (hprog : x.g.progress = 0)
    (hx : x.s.xlateAccs x.die x.e.part 1 (x.asks a (Size.bytes m.size) es fun l => x.data m d l) = .ok (s', accs))
    (hgo : x.mustStall { x.lsOp m .st .none with accs := x.asks a (Size.bytes m.size) es fun l => x.data m d l } = false) :
    ∃ t, exec (.vcompst h m a b d imm) st = .next t
      ∧ x.Sends (.vcompst h m a b d imm) t { x.lsOp m .st .none with accs := accs } [] := by
  have hasks : (x.asks a (Size.bytes m.size) es fun l => x.data m d l).isEmpty = false := by simpa [Ctx.asks] using hne
  have hprefix := State.xlatePrefix_of_ok (.refl x.s) hx
  have hsends := Ctx.compGo_sends (i := .vcompst h m a b d imm) (p := { x.lsOp m .st .none with
    accs := x.asks a (Size.bytes m.size) es fun l => x.data m d l }) hi.1 hx rfl rfl
  refine ⟨_, hi.exec_eq (exec_vcompst ..), ?_⟩
  dsimp only
  rw [hopen]
  dsimp only
  rw [hes, hchecks]
  dsimp only
  rw [Ctx.badPeer_none hpeer, hprog, List.drop_zero]
  unfold Ctx.asks at hasks hgo hprefix hsends
  simpa only [hasks, hgo, hprefix, Bool.false_eq_true, if_false] using hsends

end Packed

/-- Settles O14: each of the three passes its checks and sends what the translation leaves. -/
theorem flaggedAndPackedAccessesSent : Obligations.FlaggedAndPackedAccessesSent := by
  refine ⟨fun h m a b c fk imm foff st x s1 s2 data incs => ?_, fun h m d a b imm st x s' accs l0 => ?_⟩
  · intro i u size es f fa own hi hne hes htag hsp hperm hhi hend hal hpeer hdata hincs p hgo
    exact stf_sends hi hne hes (Ctx.flagCheck_none htag hsp hperm (Nat.le_add_right ..) hhi hend hal) hpeer hdata hincs hgo
  · intro size base es clear
    refine ⟨fun hi ⟨hl, hpass, hin, hend, hal, hall⟩ hx hgo => ?_,
      fun hi ⟨hl, hpass, hin, hend, hal, hall⟩ hopen hprog _ hx hgo => ?_⟩
    · exact vexpld_sends hi (Ctx.packed_eq hl) (Ctx.run_ne_nil hl)
        (Ctx.packedChecks_none hl hpass ⟨hin, hend⟩ hal fun e he => (hall e he).1) (fun e he => (hall e he).2) hx hgo
    · exact vcompst_sends hi (Ctx.packed_eq hl) (Ctx.run_ne_nil hl)
        (Ctx.packedChecks_none hl hpass ⟨hin, hend⟩ hal fun e he => (hall e he).1) (fun e he => (hall e he).2) hopen hprog hx hgo

end Sys2Proof.Machine
end

section
/-! How packets travel, and what an engine's request has for an answer (R34, R40, R41, R47). -/

namespace Sys2Proof.Machine

open Sys2Proof

/-! ### Ports and sessions -/

section Wires

variable {s : State} {part core phys n : Nat}

/-- A choice reduced by the length of a list names one of its elements. -/
theorem getElem?_mod_max {α : Type} {l : List α} (h : l ≠ []) (i : Nat) : ∃ x ∈ l, l[i % Nat.max 1 l.length]? = some x := by
  have hpos : 0 < l.length := List.length_pos_iff.2 h
  have hlt : i % Nat.max 1 l.length < l.length := by
    rw [show Nat.max 1 l.length = l.length from Nat.max_eq_right hpos]
    exact Nat.mod_lt _ hpos
  exact ⟨_, List.getElem_mem hlt, List.getElem?_eq_getElem hlt⟩

/-- The free choice of a port takes one that has a path, where there is one (R34). -/
theorem State.adPort_mem (h : s.portsUp (core / 64) phys ≠ []) : s.adPort core phys ∈ s.portsUp (core / 64) phys := by
  obtain ⟨q, hq, hget⟩ := getElem?_mod_max h (Config.freePort s.freeIdx)
  have hport : s.adPort core phys = q := by
    unfold State.adPort coreDie
    rw [List.getD_eq_getElem?_getD, hget, Option.getD_some]
  rwa [hport]

theorem State.portsUp_of_hop {m : Nat} (h : m ∈ s.hops part (core / 64) phys) : s.portsUp (core / 64) m ≠ [] := by
  intro hnone
  have hup : s.dieUp (core / 64) m = true := by
    have hall := (List.mem_filter.1 h).2
    simp only [Bool.and_eq_true] at hall
    exact hall.2
  simp [State.dieUp, hnone] at hup

/-- Without an intermediate module an RT packet takes the AD path. -/
theorem State.way_rt_direct (h : s.hops part (core / 64) phys = []) : s.way part core phys .rt = s.way part core phys .ad := by
  unfold State.way
  dsimp only
  rw [show s.hops part (coreDie core) phys = [] from h, List.getElem?_nil]

theorem State.way_rt_hop (h : s.hops part (core / 64) phys ≠ []) :
    ∃ m ∈ s.hops part (core / 64) phys, s.way part core phys .rt = (s.adPort core m, some m) := by
  obtain ⟨m, hm, hget⟩ := getElem?_mod_max h (Config.freeHop s.physNum phys (Tbl.get s.rtSeq 0 core))
  refine ⟨m, hm, ?_⟩
  unfold State.way coreDie
  dsimp only
  rw [hget]

/-- A packet under an established session takes its next sequence number (R47), and a port of its class (R34). -/
theorem State.takeWireTo_travels {x : LinkSess} (hx : Tbl.find s.hd.linkSessions n = some x) (cls : RClass) :
    ∃ (w : Wire) (t : State), s.takeWireTo part core phys n cls = (w, t)
      ∧ t = { s with hd := { s.hd with linkSessions := t.hd.linkSessions }, rtSeq := t.rtSeq, freeIdx := t.freeIdx }
      ∧ w.session = n ∧ w.gen = x.gen ∧ w.dir = x.dir ∧ w.seq = x.seq
      ∧ (cls = .om → w.port = core / 64 * 8 + (core % 64 + phys) % 8 ∧ w.via = none)
      ∧ (cls = .ad ∨ (cls = .rt ∧ s.hops part (core / 64) phys = []) → w.via = none
        ∧ (s.portsUp (core / 64) phys ≠ [] → w.port ∈ s.portsUp (core / 64) phys))
      ∧ (cls = .rt → s.hops part (core / 64) phys ≠ [] → ∃ m ∈ s.hops part (core / 64) phys, w.via = some m
        ∧ w.port ∈ s.portsUp (core / 64) m)
      ∧ Tbl.find t.hd.linkSessions n = some { x with seq := x.seq + 1 }
      ∧ ∀ m, m ≠ n → Tbl.find t.hd.linkSessions m = Tbl.find s.hd.linkSessions m := by
  refine ⟨_, _, rfl, rfl, rfl, ?_, ?_, ?_, fun hom => ?_, fun had => ?_, fun hrt hhops => ?_, ?_, fun m hm => ?_⟩
  · simp only [hx, Option.getD_some]
  · simp only [hx, Option.getD_some]
  · simp only [hx, Option.getD_some]
  · subst hom
    exact ⟨rfl, rfl⟩
  · have hway : s.way part core phys cls = s.way part core phys .ad := by
      rcases had with rfl | ⟨rfl, hnone⟩
      · rfl
      · exact State.way_rt_direct hnone
    dsimp only
    rw [hway]
    exact ⟨rfl, State.adPort_mem⟩
  · subst hrt
    obtain ⟨m, hm, hway⟩ := State.way_rt_hop hhops
    dsimp only
    rw [hway]
    exact ⟨m, hm, rfl, State.adPort_mem (State.portsUp_of_hop hm)⟩
  · exact (Tbl.find_upd ..).trans (by rw [if_pos rfl, hx]; rfl)
  · exact (Tbl.find_upd ..).trans (if_neg hm)

/-- What a target sends back travels from the die that serves requests. -/
theorem State.replyWire_eq (s : State) (p : Packet) :
    s.replyWire p = s.takeWireTo p.dstPart (p.ident.coreNum % 64) p.srcPhys (s.replySession p) p.cls := by
  rw [State.replyWire, inboundDie, Nat.zero_mul, Nat.zero_add]

end Wires

/-! ### Hold notices (R41) -/

section Notices

variable {s : State} {req : Nat} {q : Inbound}

theorem exec_holdNoticeSend_due (hq : Tbl.find s.inbound req = some q) (hdue : q.noticed = true ∨ q.since + Config.us < s.clock)
    (hmay : s.sessionOpen (s.replySession q.pkt) = true) :
    exec (.holdNoticeSend req) s = .next (({ (s.replyWire q.pkt).2 with
      inbound := Tbl.put s.inbound req { q with noticed := true } } : State).emit (.holdNotice req (s.replyWire q.pkt).1)) := by
  rw [exec_holdNoticeSend, execHoldNoticeSend, hq]
  simp only [Bool.and_eq_true, Bool.or_eq_true, decide_eq_true_eq, gt_iff_lt, hdue, hmay, and_self, if_true]
  rfl

theorem exec_holdNoticeSend_not (hq : Tbl.find s.inbound req = some q)
    (hno : ¬ (q.noticed = true ∨ q.since + Config.us < s.clock) ∨ ¬ s.sessionOpen (s.replySession q.pkt) = true) :
    exec (.holdNoticeSend req) s = .next s := by
  rw [exec_holdNoticeSend, execHoldNoticeSend, hq]
  simp only [Bool.and_eq_true, Bool.or_eq_true, decide_eq_true_eq, gt_iff_lt, if_neg (not_and_or.2 hno)]

end Notices

/-! ### Requests of engines (R39–R41) -/

section Legs

variable {s : State} {id : Nat} {l : Leg}

theorem State.overtime_iff (s : State) (heard : Nat) : s.overtime heard = true ↔ heard + 2 * Config.us ≤ s.clock :=
  decide_eq_true_iff

theorem State.overtime_false {heard : Nat} (h : ¬ heard + 2 * Config.us ≤ s.clock) : s.overtime heard = false :=
  decide_eq_false h

/-- An answer that an owner waits for is left for it. -/
theorem State.legAnswer_kept (hcode : ∀ c, l.owner ≠ .code c) (hsome : l.owner ≠ .nobody) (r : Reply) :
    s.legAnswer id l r = { s with legs := Tbl.put s.legs id { l with answer := some r } } := by
  unfold State.legAnswer
  split
  · next c h => exact absurd h (hcode c)
  · next h => exact absurd h hsome
  · rfl

/-- An entry put in the table of the engines' requests stands there, and the others stay. -/
theorem State.legs_put (s : State) (id : Nat) (l' : Leg) {o : Host.Outcome State Fault Refusal}
    (h : o = .next { s with legs := Tbl.put s.legs id l' }) :
    ∃ t, o = .next t ∧ t = { s with legs := t.legs } ∧ Tbl.find t.legs id = some l'
      ∧ ∀ n, n ≠ id → Tbl.find t.legs n = Tbl.find s.legs n :=
  ⟨_, h, rfl, Tbl.find_put_self .., fun _ hn => Tbl.find_put_other _ _ hn⟩

variable (hott : Tbl.find s.ott id = none) (hl : Tbl.find s.legs id = some l) (hans : l.answer = none)

include hott hl hans

theorem exec_remoteResponse_leg (r : Reply) : exec (.remoteResponseArrival id r) s
    = .next (s.legAnswer id l (if l.heard + 2 * Config.us ≤ s.clock then .error else r)) := by
  rw [exec_remoteResponseArrival, execRemoteResponseArrival, hott]
  dsimp only
  rw [hl]
  simp only [hans, Option.isSome_none, Bool.false_eq_true, if_false, State.overtime_iff]

theorem exec_holdNotice_leg : exec (.holdNoticeArrival id) s = .next (if l.heard + 2 * Config.us ≤ s.clock
    then s.legAnswer id l .error else { s with legs := Tbl.put s.legs id { l with heard := s.clock } }) := by
  rw [exec_holdNoticeArrival, execHoldNoticeArrival, hott]
  dsimp only
  rw [hl]
  simp only [hans, Option.isSome_none, Bool.false_eq_true, if_false, State.overtime_iff]

theorem exec_requestTimeout_leg : exec (.remoteRequestTimeout id) s
    = .next (if l.heard + 2 * Config.us ≤ s.clock then s.legAnswer id l .error else s) := by
  rw [exec_remoteRequestTimeout, execRemoteRequestTimeout, hott]
  dsimp only
  rw [hl]
  simp only [hans, Option.isNone_none, Bool.true_and, State.overtime_iff]

end Legs

end Sys2Proof.Machine
end

section
/-! The response to a packet, and the packet that has none (R37, R39, R40, R376, R378). -/

namespace Sys2Proof.Machine

open Sys2Proof

/-! ### The end of an operation (R106, R109, R376, R40) -/

section Finish

variable {w : Weave} {p : LsOp} {a : Acc} {v : BitVec 128 × Bool}

/-- The flag of an operation counts one less (R106). -/
theorem Weave.getCf_countDown (w : Weave) (flag : Option Nat) (n : Nat) :
    (w.countDown flag).getCf n = w.getCf n - if flag = some n then 1 else 0 := by
  cases flag with
  | none => rfl
  | some f =>
    by_cases h : n = f
    · subst h; simp [Weave.countDown, Weave.getCf_setCf]
    · simp [Weave.countDown, Weave.getCf_setCf, h, Ne.symm h]

theorem Weave.countDown_eq (w : Weave) (flag : Option Nat) :
    w.countDown flag = { w with cf := (w.countDown flag).cf } := by
  cases flag <;> rfl

/-- Destinations are registers. -/
theorem Weave.writeDest_eq (w : Weave) (p : LsOp) :
    w.writeDest p = { w with v := (w.writeDest p).v, s := (w.writeDest p).s, k := (w.writeDest p).k } := by
  have hset (u : Weave) (r l : Nat) (y : W32) : u.setV r l y = { u with v := (u.setV r l y).v } := by
    unfold Weave.setV; split <;> rfl
  have hset64 (u : Weave) (r l : Nat) (y : W64) : u.setV64 r l y = { u with v := (u.setV64 r l y).v } := by
    unfold Weave.setV64
    split
    · rfl
    · rw [hset _ (r + 1), hset u]
  unfold Weave.writeDest
  cases p.dest with
  | none => rfl
  | s r => dsimp only; split <;> rfl
  | k r => dsimp only; split <;> rfl
  | v r wide =>
    dsimp only
    generalize p.accs = as
    induction as generalizing w with
    | nil => rfl
    | cons a as ih =>
      rw [List.foldl_cons, ih]
      split
      · split
        · rfl
        · split
          · rw [hset64]
          · rw [hset]
      · rfl

theorem Weave.takes_of {ls : Lanes} (hlive : w.live ≠ 0) (hls : ls &&& ~~~w.dead ≠ 0) : w.takes ls = true := by
  simpa [Weave.takes, lanesMinus] using ⟨hlive, hls⟩

theorem Weave.getS_writeDest {r : Nat} (hd : p.dest = .s r) (hacc : p.accs = [a]) (hgot : a.got = some v)
    (htakes : w.takes p.lanes = true) : (w.writeDest p).getS r = v.1.extractLsb' 0 64 := by
  simp [Weave.writeDest, hd, hacc, hgot, htakes]

theorem Weave.getV_writeDest {r : Nat} (hd : p.dest = .v r false) (h255 : r ≠ 255) (hacc : p.accs = [a]) (hgot : a.got = some v)
    (hlane : a.lane < 32) (hlive : w.live.has a.lane = true) : (w.writeDest p).getV r a.lane = v.1.extractLsb' 0 32 := by
  simp [Weave.writeDest, hd, hacc, hgot, hlive, Weave.getV_setV w r a.lane _ r a.lane hlane hlane, h255]

theorem Weave.writeDest_none (hd : p.dest = .none) : w.writeDest p = w := by rw [Weave.writeDest, hd]

/-- What the end of an operation makes of its weave. -/
def Weave.finish (w : Weave) (id : Nat) (p : LsOp) : Weave :=
  let u := ((if p.errors.isEmpty then w.writeDest p else w).unmark id).countDown p.flag
  { u with errs := u.errs ++ p.errors }

theorem Weave.finish_done {id : Nat} (h : p.errors = []) : w.finish id p = { w.writeDest p with
    cf := (w.countDown p.flag).cf, marks := w.marks.filter (·.op != id) } := by
  unfold Weave.finish
  rw [h, Weave.countDown_eq, Weave.writeDest_eq]
  cases p.flag <;> simp [Weave.unmark, Weave.countDown, Weave.setCf, Weave.getCf]

theorem Weave.finish_lost {id : Nat} {d : Deferred} (h : p.errors = [d]) : w.finish id p = { w with
    cf := (w.countDown p.flag).cf, marks := w.marks.filter (·.op != id), errs := w.errs ++ [d] } := by
  unfold Weave.finish
  rw [h, Weave.countDown_eq]
  cases p.flag <;> rfl

variable {s : State} {id : Nat}

theorem State.noteStatus_eq (s : State) (part : Nat) (h : W32) (bit : BitVec 3) :
    s.noteStatus part h bit = { s with cancels := (s.noteStatus part h bit).cancels } := by
  unfold State.noteStatus
  split
  · split <;> rfl
  · rfl

theorem State.finishLs_done (s : State) (id : Nat) (h : p.errors = []) : s.finishLs id p = { s with
    weaves := Tbl.upd s.weaves p.weave (·.finish id p), lsOps := Tbl.del s.lsOps id } := by
  unfold State.finishLs
  rw [if_pos (by simpa using h)]
  rfl

theorem State.finishLs_lost (s : State) (id : Nat) (h : p.errors ≠ []) : s.finishLs id p = { s with
    weaves := Tbl.upd s.weaves p.weave (·.finish id p), lsOps := Tbl.del s.lsOps id
    cancels := (s.noteStatus p.part p.scopeH 4).cancels } := by
  unfold State.finishLs
  rw [if_neg (by simpa using h), State.noteStatus_eq]
  rfl

end Finish

/-! ### The response to the packet of an operation's only access -/

/-- A packet that asks for the only access of an operation of a weave, and is the operation's only packet. -/
structure State.OnlyPacket (s : State) (id : Nat) (o : Ott) (p : LsOp) (a : Acc) (w : Weave) : Prop where
  entry : Tbl.find s.ott id = some o
  op : Tbl.find s.lsOps o.op = some p
  access : p.accs = [a]
  covers : o.accs = [0]
  hole : p.hole = none
  ecc : p.ecc = false
  err : p.err = none
  only : ∀ x ∈ s.ott, x.2.op = o.op → x.1 = id
  weave : s.weave p.weave = some w

/-- What a response of values gives an access. -/
def Acc.answered (a : Acc) (vs : List (BitVec 128 × Bool)) : Acc :=
  { a with got := some (BitVec.ofNat 128 ((vs.getD 0 (0, false)).1.toNat % 256 ^ a.size), (vs.getD 0 (0, false)).2) }

theorem LsOp.fill_single {p : LsOp} {a : Acc} (h : p.accs = [a]) (vs : List (BitVec 128 × Bool)) :
    p.fill [0] vs = { p with accs := [a.answered vs] } := by
  simp [LsOp.fill, h, Acc.answered]

/-- An operation that has its answer. -/
def LsOp.answered (p : LsOp) (a : Acc) (vs : List (BitVec 128 × Bool)) : LsOp := { p with accs := [a.answered vs] }

/-- An operation whose packet is lost. -/
def LsOp.lost (p : LsOp) (a : Acc) (peer : BitVec 9) : LsOp := { p with accs := [a.answered []], err := some peer }

/-- The error that an operation leaves whose packet to a peer is lost (R40). -/
def LsOp.lostError (p : LsOp) (peer : BitVec 9) : Deferred :=
  .remote (decide (p.kind ≠ .ld ∧ p.kind ≠ .atom)) p.flag peer p.cls

/-- The destinations that take the answer (R376, R378). -/
theorem LsOp.answered_dest (p : LsOp) (a : Acc) (w : Weave) (vs : List (BitVec 128 × Bool)) :
    let w' := w.writeDest (p.answered a vs)
    (p.dest = .none → w'.v = w.v ∧ w'.s = w.s ∧ w'.k = w.k)
    ∧ (∀ r, p.dest = .v r false → r ≠ 255 → a.lane < 32 → w.live.has a.lane = true →
      w'.getV r a.lane = BitVec.ofNat 32 ((vs.getD 0 (0, false)).1.toNat % 256 ^ a.size))
    ∧ ∀ r, p.dest = .s r → w.live ≠ 0 → p.lanes &&& ~~~w.dead ≠ 0 →
      w'.getS r = BitVec.ofNat 64 ((vs.getD 0 (0, false)).1.toNat % 256 ^ a.size) := by
  have hlow (x : Nat) {n : Nat} (hn : n ≤ 128) : (BitVec.ofNat 128 x).extractLsb' 0 n = BitVec.ofNat n x := by
    apply BitVec.eq_of_toNat_eq
    rw [BitVec.extractLsb'_toNat, BitVec.toNat_ofNat, BitVec.toNat_ofNat, Nat.shiftRight_zero,
      Nat.mod_mod_of_dvd _ (Nat.pow_dvd_pow 2 hn)]
  refine ⟨fun hd => ?_, fun r hd h255 hlane hlive => ?_, fun r hd hlive hls => ?_⟩
  · rw [Weave.writeDest_none (p := p.answered a vs) hd]
    exact ⟨rfl, rfl, rfl⟩
  · exact (Weave.getV_writeDest (p := p.answered a vs) (a := a.answered vs) hd h255 rfl rfl hlane hlive).trans (hlow _ (by decide))
  · exact (Weave.getS_writeDest (p := p.answered a vs) (a := a.answered vs) hd rfl rfl (Weave.takes_of hlive hls)).trans (hlow _ (by decide))

namespace State.OnlyPacket

variable {s : State} {id : Nat} {o : Ott} {p : LsOp} {a : Acc} {w : Weave} {vs : List (BitVec 128 × Bool)}

/-- Its operation is done when the packet has ended. -/
theorem ends (h : s.OnlyPacket id o p a w) {f : LsOp → LsOp} {v : List (BitVec 128 × Bool)} (hhole : (f p).hole = none)
    (haccs : (f p).accs = [a.answered v]) :
    State.finishIfDone { s.updLs o.op f with ott := Tbl.del s.ott id } o.op
      = State.finishLs { s.updLs o.op f with ott := Tbl.del s.ott id } o.op (f p) := by
  have hfind : Tbl.find (s.updLs o.op f).lsOps o.op = some (f p) := by
    rw [State.updLs_lsOps, Tbl.find_upd_self, h.op, Option.map_some]
  have hclosed : someT (Tbl.del s.ott id) (fun _ x => x.op == o.op) = false := by
    rw [someT, List.any_eq_false]
    intro e he hop
    obtain ⟨hmem, hne⟩ := Tbl.mem_del he
    exact hne (h.only e hmem (beq_iff_eq.1 hop))
  have hdone : State.opDone { s.updLs o.op f with ott := Tbl.del s.ott id } o.op (f p) = true := by
    simp [State.opDone, hhole, haccs, Acc.answered, hclosed]
  unfold State.finishIfDone
  dsimp only
  rw [hfind]
  exact if_pos hdone

theorem answered_errors (h : s.OnlyPacket id o p a w) (vs : List (BitVec 128 × Bool)) : (p.answered a vs).errors = [] := by
  simp [LsOp.errors, LsOp.answered, h.err, h.ecc]

theorem lost_errors (h : s.OnlyPacket id o p a w) : (p.lost a o.peer).errors = [p.lostError o.peer] := by
  have hkind : (p.kind != .ld && p.kind != .atom) = decide (p.kind ≠ .ld ∧ p.kind ≠ .atom) := by cases p.kind <;> rfl
  simp only [LsOp.errors, LsOp.lost, LsOp.lostError, h.ecc, hkind, Bool.false_eq_true, if_false, List.append_nil]

theorem ottValues_eq (h : s.OnlyPacket id o p a w) (hacq : p.sem ≠ .acq) (hacqrel : p.sem ≠ .acqrel) (mm : Bool) :
    s.ottValues id o vs mm = { s with
      ott := Tbl.del s.ott id, weaves := Tbl.upd s.weaves p.weave (·.finish o.op (p.answered a vs))
      lsOps := Tbl.del (Tbl.upd s.lsOps o.op fun p => p.fill o.accs vs) o.op } := by
  have hfill : p.fill o.accs vs = p.answered a vs := by rw [h.covers, LsOp.fill_single h.access]; rfl
  unfold State.ottValues
  rw [h.op]
  simp only [beq_eq_false_iff_ne.2 hacq, beq_eq_false_iff_ne.2 hacqrel, Bool.or_self, Bool.not_false, if_true]
  refine (h.ends (by rw [hfill]; exact h.hole) (by rw [hfill]; rfl)).trans ?_
  rw [hfill, State.finishLs_done _ _ (h.answered_errors vs)]
  rfl

theorem ottError_eq (h : s.OnlyPacket id o p a w) : ∃ c, s.ottError id o = { s with
      ott := Tbl.del s.ott id, weaves := Tbl.upd s.weaves p.weave (·.finish o.op (p.lost a o.peer)), cancels := c
      lsOps := Tbl.del (Tbl.upd s.lsOps o.op fun p => { p.fill o.accs [] with err := p.err.or (some o.peer) }) o.op } := by
  have hfill : ({ p.fill o.accs [] with err := p.err.or (some o.peer) } : LsOp) = p.lost a o.peer := by
    rw [h.covers, LsOp.fill_single h.access, h.err]
    rfl
  have hends := h.ends (f := fun p => { p.fill o.accs [] with err := p.err.or (some o.peer) })
    (by rw [hfill]; exact h.hole) (by rw [hfill]; rfl)
  dsimp only at hends
  rw [hfill, State.finishLs_lost _ _ (by simp [h.lost_errors])] at hends
  exact ⟨_, hends⟩

/-- The values of a response complete the operation (R37, R39, R378). -/
theorem ottValues_completed (h : s.OnlyPacket id o p a w) (hacq : p.sem ≠ .acq) (hacqrel : p.sem ≠ .acqrel) (mm : Bool) :
    ∃ w', Tbl.find (s.ottValues id o vs mm).ott id = none ∧ s.Completed (s.ottValues id o vs mm) o.op p w w'
      ∧ (s.ottValues id o vs mm).mem = s.mem
      ∧ w' = { w.writeDest (p.answered a vs) with cf := (w.countDown p.flag).cf, marks := w.marks.filter (·.op != o.op) } := by
  have hw : w.finish o.op (p.answered a vs)
      = { w.writeDest (p.answered a vs) with cf := (w.countDown p.flag).cf, marks := w.marks.filter (·.op != o.op) } :=
    Weave.finish_done (h.answered_errors vs)
  rw [h.ottValues_eq hacq hacqrel]
  refine ⟨w.finish o.op (p.answered a vs), by simp [Tbl.find_del], ⟨by simp [Tbl.find_del], fun n hn => ?_, ?_, fun n hn => ?_, ?_,
    fun n => ?_, ?_⟩, rfl, hw⟩
  · exact (Tbl.find_del ..).trans ((if_neg hn).trans (Tbl.find_upd_other _ _ hn))
  · exact (State.weave_updWeave ..).trans (by rw [if_pos rfl, h.weave]; rfl)
  · exact (State.weave_updWeave ..).trans (if_neg hn)
  · rw [hw, Weave.writeDest_eq]
  · rw [hw]
    exact w.getCf_countDown p.flag n
  · rw [hw]

/-- A packet without values completes the operation and leaves the error (R40). -/
theorem ottError_lost (h : s.OnlyPacket id o p a w) : ∃ w', Tbl.find (s.ottError id o).ott id = none
      ∧ Tbl.find (s.ottError id o).lsOps o.op = none
      ∧ s.ottError id o = { s with
          ott := (s.ottError id o).ott, lsOps := (s.ottError id o).lsOps, weaves := (s.ottError id o).weaves
          cancels := (s.ottError id o).cancels }
      ∧ (s.ottError id o).weave p.weave = some w' ∧ w' = { w with cf := w'.cf, marks := w'.marks, errs := w'.errs }
      ∧ w'.errs = w.errs ++ [p.lostError o.peer]
      ∧ w'.marks = w.marks.filter (fun m => m.op != o.op)
      ∧ ∀ n, w'.getCf n = w.getCf n - if p.flag = some n then 1 else 0 := by
  obtain ⟨c, heq⟩ := h.ottError_eq
  have hw := Weave.finish_lost (w := w) (id := o.op) h.lost_errors
  rw [heq]
  refine ⟨w.finish o.op (p.lost a o.peer), by simp [Tbl.find_del], by simp [Tbl.find_del], rfl, ?_, ?_, ?_, ?_, fun n => ?_⟩
  · exact (State.weave_updWeave ..).trans (by rw [if_pos rfl, h.weave]; rfl)
  all_goals rw [hw]
  exact w.getCf_countDown p.flag n

end State.OnlyPacket

/-! ### What comes for a packet that has left -/

section Arrivals

variable {s : State} {id : Nat} {o : Ott} {vs : List (BitVec 128 × Bool)} {mm : Bool}
variable (ho : Tbl.find s.ott id = some o) (hsent : o.sent = true)

include ho hsent

theorem exec_remoteResponse_error : exec (.remoteResponseArrival id .error) s = .next (s.ottError id o) := by
  rw [exec_remoteResponseArrival, execRemoteResponseArrival, ho]
  simp only [hsent, Bool.not_true, Bool.false_eq_true, if_false]

theorem exec_remoteResponse_values : exec (.remoteResponseArrival id (.values vs mm)) s
    = .next (if o.heard + 2 * Config.us ≤ s.clock then s.ottError id o else s.ottValues id o vs mm) := by
  rw [exec_remoteResponseArrival, execRemoteResponseArrival, ho]
  simp only [hsent, Bool.not_true, Bool.false_eq_true, if_false, State.overtime_iff]

theorem exec_holdNotice_packet : exec (.holdNoticeArrival id) s = .next (if o.heard + 2 * Config.us ≤ s.clock
    then s.ottError id o else { s with ott := Tbl.put s.ott id { o with heard := s.clock } }) := by
  rw [exec_holdNoticeArrival, execHoldNoticeArrival, ho]
  simp only [hsent, Bool.not_true, Bool.false_eq_true, if_false, State.overtime_iff]

theorem exec_requestTimeout_packet : exec (.remoteRequestTimeout id) s
    = .next (if o.heard + 2 * Config.us ≤ s.clock then s.ottError id o else s) := by
  rw [exec_remoteRequestTimeout, execRemoteRequestTimeout, ho]
  simp only [hsent, Bool.true_and, State.overtime_iff]

end Arrivals

end Sys2Proof.Machine
end

section
/-! Requests from peers (R33, R35, R36, R41, R46, R60). -/

namespace Sys2Proof.Machine

open Sys2Proof

/-! ### Accesses to memory (R36, R125, R381) -/

section Access

variable {s : State} {pa size : Nat}

@[simp] theorem State.locSetTag_mem (s : State) (pa : Nat) (tag : Bool) : (s.locSetTag (.mem pa) tag).mem = s.mem := by
  unfold State.locSetTag
  split <;> rfl

/-- An access to memory changes bytes, tags and releases alone. -/
theorem State.doAcc_mem_eq (s : State) (pa size : Nat) (op : ReqOp) (rel : Option Rel) (skip : Nat → Bool) :
    ∃ m tg rl, (s.doAcc (.mem pa) size op rel skip).1 = { s with mem := m, tags := tg, rel := rl } := by
  have hrec (u : State) (l : Loc) (n : Nat) (old r : Option Rel) :
      u.recordRel l n old r = { u with rel := (u.recordRel l n old r).rel } := by
    unfold State.recordRel
    split <;> rfl
  have htag (u : State) (tag : Bool) : u.locSetTag (.mem pa) tag = { u with tags := (u.locSetTag (.mem pa) tag).tags } := by
    unfold State.locSetTag
    split <;> rfl
  unfold State.doAcc
  cases op with
  | read => exact ⟨_, _, _, rfl⟩
  | fetch => exact ⟨_, _, _, rfl⟩
  | write data tag =>
    dsimp only
    split
    · exact ⟨_, _, _, rfl⟩
    · rw [hrec, htag]
      exact ⟨_, _, _, rfl⟩
  | atom o x y =>
    dsimp only
    split
    · rw [hrec]
      exact ⟨_, _, _, rfl⟩
    · exact ⟨_, _, _, rfl⟩

theorem State.locWrite_plain {bs : List (BitVec 8)} (h : ∀ k, k < bs.length → s.plainByte (pa + k)) :
    (s.locWrite (.mem pa) bs).mem = Memory.writes s.mem pa bs := by
  show Memory.writes s.mem pa (s.keepBytes pa bs) = _
  rw [State.keepBytes_plain h]

/-- A whole write of plain bytes puts its data down, the lowest byte first. -/
theorem State.doAcc_write_mem (h : ∀ k, k < size → s.plainByte (pa + k)) (d : BitVec 128) (tag : Bool) (rel : Option Rel) :
    (s.doAcc (.mem pa) size (.write d tag) rel fun _ => false).1.mem = Memory.writes s.mem pa (natToBytes size d.toNat) := by
  have hbytes : ((List.range size).map fun i => (natToBytes size d.toNat).getD i 0) = natToBytes size d.toNat := by
    refine List.ext_getElem (by simp [natToBytes_length]) fun i hi hj => ?_
    rw [List.getElem_map, List.getElem_range, List.getD_eq_getElem _ _ hj]
  unfold State.doAcc
  simp only [Bool.false_eq_true, if_false]
  rw [hbytes]
  split
  · next hall =>
    obtain rfl : size = 0 := by
      by_contra hne
      have := List.all_eq_true.1 hall 0 (List.mem_range.2 (Nat.pos_of_ne_zero hne))
      cases this
    rfl
  · rw [State.recordRel_mem, State.locSetTag_mem, State.locWrite_plain]
    rwa [natToBytes_length]

theorem natToBytes_extract {n i : Nat} (d : BitVec 128) (hi : i < n) :
    (natToBytes n d.toNat).getD i 0 = d.extractLsb' (8 * i) 8 := by
  rw [natToBytes_getD n d.toNat i hi]
  apply BitVec.eq_of_toNat_eq
  rw [BitVec.toNat_ofNat, BitVec.extractLsb'_toNat, Nat.shiftRight_eq_div_pow, Nat.pow_mul]

theorem bytesToNat_lt (l : List (BitVec 8)) : bytesToNat l < 256 ^ l.length := by
  induction l with
  | nil => simp [bytesToNat]
  | cons b r ih =>
    have hb := b.isLt
    simp only [bytesToNat, List.length_cons, Nat.pow_succ]
    omega

theorem Memory.num_lt (m : Memory) (a n : Nat) : Memory.num m a n < 2 ^ (8 * n) := by
  have h := bytesToNat_lt (Memory.reads m a n)
  rwa [Memory.reads_length, show (256 : Nat) = 2 ^ 8 from rfl, ← Nat.pow_mul] at h

/-! ### Atomics (R381) -/

/-- The signed order of the model's atomics is that of words of their width. -/
theorem signed_eq_toInt {n : Nat} (hn : 0 < n) (v : BitVec n) :
    (if v.toNat < 2 ^ n / 2 then (v.toNat : Int) else (v.toNat : Int) - (2 ^ n : Nat)) = v.toInt := by
  obtain ⟨k, rfl⟩ := Nat.exists_eq_succ_of_ne_zero (Nat.pos_iff_ne_zero.1 hn)
  have hhalf : 2 ^ (k + 1) / 2 = 2 ^ k := by rw [Nat.pow_succ, Nat.mul_div_cancel _ (by decide)]
  rw [BitVec.toInt_eq_toNat_cond, hhalf, Nat.pow_succ]
  by_cases h : v.toNat < 2 ^ k
  · rw [if_pos h, if_pos (by omega)]
  · rw [if_neg h, if_neg (by omega)]

theorem atomNew_eq_atomTable (o : AtomOp) {size : Nat} (hsize : 0 < size) (old c y : BitVec (8 * size)) (c' y' : Nat)
    (hc : c' % 2 ^ (8 * size) = c.toNat) (hy : y' % 2 ^ (8 * size) = y.toNat) :
    atomNew o size old.toNat c' y' = (atomTable o old c y).map BitVec.toNat := by
  have hm : 256 ^ size = 2 ^ (8 * size) := by rw [show (256 : Nat) = 2 ^ 8 from rfl, ← Nat.pow_mul]
  have hn : 0 < 8 * size := by omega
  unfold atomNew
  rw [hm]
  dsimp only
  rw [hc, hy]
  cases o with
  | add => simp [atomTable]
  | smin =>
    simp only [signed_eq_toInt hn, atomTable, Option.map_some]
    split <;> rfl
  | umin =>
    simp only [atomTable, Option.map_some]
    split
    · next h => exact congrArg some (Nat.min_eq_left h)
    · next h => exact congrArg some (Nat.min_eq_right (by omega))
  | smax =>
    simp only [signed_eq_toInt hn, atomTable, Option.map_some]
    split <;> rfl
  | umax =>
    simp only [atomTable, Option.map_some]
    split
    · next h => exact congrArg some (Nat.max_eq_left h)
    · next h => exact congrArg some (Nat.max_eq_right (by omega))
  | and => simp [atomTable]
  | or => simp [atomTable]
  | xor => simp [atomTable]
  | exch => rfl
  | cas =>
    simp only [atomTable, BitVec.toNat_inj]
    split <;> rfl

/-- An atomic on plain bytes: what it found, and what it leaves. -/
theorem State.doAcc_atom (h : ∀ k, k < size → s.plainByte (pa + k)) (hsize : 0 < size) (hle : size ≤ 16) (o : AtomOp) (c y : W64)
    (rel : Option Rel) (skip : Nat → Bool) :
    let old : BitVec (8 * size) := BitVec.ofNat _ (Memory.num s.mem pa size)
    let new := atomTable o old (c.setWidth (8 * size)) (y.setWidth (8 * size))
    let r := s.doAcc (.mem pa) size (.atom o c y) rel skip
    r.2.1 = old.setWidth 128 ∧ Memory.num r.1.mem pa size = (new.getD old).toNat
      ∧ ∀ z, ¬ (pa ≤ z ∧ z < pa + size) → Memory.get r.1.mem z = Memory.get s.mem z := by
  intro old new r
  have hlt := Memory.num_lt s.mem pa size
  have hold : old.toNat = Memory.num s.mem pa size := by rw [BitVec.toNat_ofNat, Nat.mod_eq_of_lt hlt]
  have hfound : (s.peek (.mem pa) size).1 = old.setWidth 128 := by
    apply BitVec.eq_of_toNat_eq
    rw [BitVec.toNat_setWidth, hold]
    exact BitVec.toNat_ofNat ..
  have hnat : (s.peek (.mem pa) size).1.toNat = old.toNat := by
    rw [hfound, BitVec.toNat_setWidth, Nat.mod_eq_of_lt]
    exact Nat.lt_of_lt_of_le old.isLt (Nat.pow_le_pow_right (by decide) (by omega))
  have hnew : atomNew o size (s.peek (.mem pa) size).1.toNat c.toNat y.toNat = new.map BitVec.toNat := by
    rw [hnat]
    exact atomNew_eq_atomTable o hsize _ _ _ _ _ (BitVec.toNat_setWidth ..).symm (BitVec.toNat_setWidth ..).symm
  have hr : r = s.doAcc (.mem pa) size (.atom o c y) rel skip := rfl
  unfold State.doAcc at hr
  dsimp only at hr
  rw [hnew] at hr
  cases hopt : new with
  | none =>
    rw [hopt] at hr
    rw [hr]
    exact ⟨hfound, hold.symm, fun _ _ => rfl⟩
  | some x =>
    rw [hopt] at hr
    have hmem : r.1.mem = Memory.writes s.mem pa (natToBytes size x.toNat) := by
      rw [hr]
      refine (State.recordRel_mem ..).trans (State.locWrite_plain ?_)
      rwa [natToBytes_length]
    refine ⟨by rw [hr]; exact hfound, ?_, fun z hz => ?_⟩
    · rw [hmem, Memory.num_writes, show (256 : Nat) = 2 ^ 8 from rfl, ← Nat.pow_mul, Nat.mod_eq_of_lt x.isLt]
      rfl
    · rw [hmem, Memory.get_writes_other]
      rw [natToBytes_length]
      omega

end Access

/-! ### A request that arrives alone -/

section Arrival

variable {s : State} {p : Packet} {a : ReqAcc} {n : Nat}

/-- Entry `n` of the target partition's table names the source of a request and is in use (R33). -/
def State.Names (s : State) (p : Packet) (n : Nat) : Prop :=
  n < 512 ∧ entValid (s.peerEnt p.dstPart n) = true ∧ entEnable (s.peerEnt p.dstPart n) = true
    ∧ entPhys (s.peerEnt p.dstPart n) = p.srcPhys ∧ entPart (s.peerEnt p.dstPart n) = p.srcPart

/-- The test that finds the entry of a source. -/
def State.namesB (s : State) (p : Packet) (n : Nat) : Bool :=
  entValid (s.peerEnt p.dstPart n) && entEnable (s.peerEnt p.dstPart n) && entPhys (s.peerEnt p.dstPart n) == p.srcPhys
    && entPart (s.peerEnt p.dstPart n) == p.srcPart

theorem State.names_iff : s.Names p n ↔ n < 512 ∧ s.namesB p n = true := by
  simp only [State.Names, State.namesB, Bool.and_eq_true, beq_iff_eq, and_assoc]

theorem State.acceptsFrom_eq (s : State) (p : Packet) :
    s.acceptsFrom p = if (s.part p.dstPart).tdi = .run then (List.range 512).find? (s.namesB p) else none := by
  unfold State.acceptsFrom
  by_cases h : (s.part p.dstPart).tdi = .run
  · rw [if_neg (by simp [h]), if_pos h]
    rfl
  · rw [if_pos (by simpa using h), if_neg h]

theorem State.acceptsFrom_none (h : ¬ ((s.part p.dstPart).tdi = .run ∧ ∃ n, s.Names p n)) : s.acceptsFrom p = none := by
  rw [State.acceptsFrom_eq]
  split
  · next hrun =>
    refine List.find?_eq_none.2 fun n hn hyes => h ⟨hrun, n, State.names_iff.2 ⟨List.mem_range.1 hn, hyes⟩⟩
  · rfl

/-- Of several entries that name the source the lowest counts. -/
theorem State.acceptsFrom_first (hrun : (s.part p.dstPart).tdi = .run) (hn : s.Names p n) (hlow : ∀ m, m < n → ¬ s.Names p m) :
    s.acceptsFrom p = some n := by
  obtain ⟨hlt, hyes⟩ := State.names_iff.1 hn
  rw [State.acceptsFrom_eq, if_pos hrun, List.find?_range_eq_some]
  refine ⟨hyes, List.mem_range.2 hlt, fun m hm => ?_⟩
  rw [Bool.not_eq_true', ← Bool.not_eq_true]
  exact fun hyes => hlow m hm (State.names_iff.2 ⟨by omega, hyes⟩)

theorem State.acceptsFrom_some (h : (s.part p.dstPart).tdi = .run ∧ ∃ n, s.Names p n) : ∃ n, s.acceptsFrom p = some n := by
  classical
  obtain ⟨hrun, hex⟩ := h
  exact ⟨_, State.acceptsFrom_first hrun (Nat.find_spec hex) fun m hm => Nat.find_min hex hm⟩

/-- A request as it arrives. -/
def State.taken (s : State) (p : Packet) : Inbound := { pkt := p, fault := none, since := s.clock, noticed := false }

/-- The state in which a request has taken its turn behind those in `l`. -/
def State.arrived (s : State) (l : Tbl Inbound) : State := { s with nextId := s.nextId + 1, inbound := l }

theorem State.sameWalk_arrived (s : State) (l : Tbl Inbound) : s.SameWalk (s.arrived l) :=
  ⟨rfl, rfl, rfl, rfl, fun _ => rfl⟩

theorem exec_request_alone (h : s.inbound = []) : exec (.remoteRequestArrival p) s
    = .next ((s.arrived [(s.nextId, s.taken p)]).tryInbound s.nextId) := by
  rw [exec_remoteRequestArrival, execRemoteRequestArrival, State.fresh]
  dsimp only
  rw [h]
  rfl

theorem exec_request_second {k : Nat} {q : Inbound} (h : s.inbound = [(k, q)]) (hk : k < s.nextId) :
    exec (.remoteRequestArrival p) s
      = .next (((s.arrived [(k, q), (s.nextId, s.taken p)]).tryInbound k).tryInbound s.nextId) := by
  have hput : Tbl.put s.inbound s.nextId (s.taken p) = [(k, q), (s.nextId, s.taken p)] := by
    simp [h, Tbl.put, Tbl.del, Tbl.ins, Nat.ne_of_lt hk, Nat.not_lt_of_gt hk]
  rw [exec_remoteRequestArrival, execRemoteRequestArrival, State.fresh]
  dsimp only
  rw [show ({ pkt := p, fault := none, since := s.clock, noticed := false } : Inbound) = s.taken p from rfl, hput]
  rfl

/-- What a target sends back, and how it travels, depends neither on memory nor on the requests. -/
theorem State.answer_eq {u : State} {l : Tbl Inbound} {r : Reply}
    (hu : u = { s with nextId := s.nextId + 1, inbound := l, mem := u.mem, tags := u.tags, rel := u.rel, tlb := u.tlb, dies := u.dies })
    (id : Nat) : u.answer id p r = { (s.replyWire p).2 with
      nextId := s.nextId + 1, inbound := Tbl.del l id, mem := u.mem, tags := u.tags, rel := u.rel, tlb := u.tlb, dies := u.dies
      out := s.out ++ [.response p r (s.replyWire p).1] } := by
  obtain ⟨m, tg, rl, tl, d, rfl⟩ : ∃ m tg rl tl d,
      u = { s with nextId := s.nextId + 1, inbound := l, mem := m, tags := tg, rel := rl, tlb := tl, dies := d } :=
    ⟨_, _, _, _, _, hu⟩
  rfl

end Arrival

/-! ### The turn of a request (R33, R35, R46) -/

section Turn

/-- A held request whose turn it is. -/
structure State.Turn (u : State) (id : Nat) (q : Inbound) : Prop where
  found : Tbl.find u.inbound id = some q
  fault : q.fault = none
  first : u.omWaits id q.pkt = false

namespace State.Turn

variable {u : State} {id peer : Nat} {q : Inbound}

theorem rejected (h : u.Turn id q) (hacc : u.acceptsFrom q.pkt = none) :
    u.tryInbound id = (u.answer id q.pkt .error).emit (.rejected q.pkt) := by
  simp [State.tryInbound, h.found, h.fault, h.first, hacc]

theorem closed (h : u.Turn id q) (hacc : u.acceptsFrom q.pkt = some peer)
    (hno : u.sessionOpen (u.replySession q.pkt) = false) : u.tryInbound id = u := by
  simp [State.tryInbound, h.found, h.fault, h.first, hacc, hno]

variable (h : u.Turn id q) (hacc : u.acceptsFrom q.pkt = some peer) (hopen : u.sessionOpen (u.replySession q.pkt) = true)

include h hacc hopen

theorem page {l : Nat} {e : Bool} (hx : u.reqLocs q.pkt.dstPart (packetWants q.pkt) = .error (.page l e)) :
    u.tryInbound id = u.answer id q.pkt .error := by
  simp [State.tryInbound, h.found, h.fault, h.first, hacc, hopen, hx]

theorem walkHeld (hx : u.reqLocs q.pkt.dstPart (packetWants q.pkt) = .error .held) : u.tryInbound id = u := by
  simp [State.tryInbound, h.found, h.fault, h.first, hacc, hopen, hx]

theorem faults {lva kind : Nat} (hx : u.reqLocs q.pkt.dstPart (packetWants q.pkt) = .error (.resolvable lva kind)) :
    u.tryInbound id = { (u.raise q.pkt.dstPart lva kind q.pkt.path peer (srcCore q.pkt.ident.coreNum) (.inbound id) none false).2 with
      inbound := Tbl.upd u.inbound id fun q => { q with fault := some u.nextId } } := by
  simp [State.tryInbound, h.found, h.fault, h.first, hacc, hopen, hx, State.raise, State.fresh]

theorem memoryHeld {locs : List Nat} (hx : u.reqLocs q.pkt.dstPart (packetWants q.pkt) = .ok locs)
    (hheld : ∃ pa ∈ locs, u.memSt pa = .held) : u.tryInbound id = u := by
  obtain ⟨pa, hpa, hm⟩ := hheld
  have hall : (locs.all fun pa => u.memSt pa != .held) = false := List.all_eq_false.2 ⟨pa, hpa, by simp [hm]⟩
  simp only [State.tryInbound, h.found, h.fault, h.first, hacc, hopen, hx, hall]
  simp

theorem served {locs : List Nat} (hx : u.reqLocs q.pkt.dstPart (packetWants q.pkt) = .ok locs)
    (hready : ∀ pa ∈ locs, u.memSt pa ≠ .held) : u.tryInbound id = u.serveReq id q.pkt locs := by
  have hall : (locs.all fun pa => u.memSt pa != .held) = true := List.all_eq_true.2 fun pa hpa => by simpa using hready pa hpa
  simp only [State.tryInbound, h.found, h.fault, h.first, hacc, hopen, hx, hall]
  simp

end State.Turn

end Turn

/-! ### A request with one access -/

section Single

variable {s : State} {p : Packet} {a : ReqAcc}

theorem State.turn_alone (s : State) (p : Packet) : (s.arrived [(s.nextId, s.taken p)]).Turn s.nextId (s.taken p) where
  found := Tbl.find_singleton _ _
  fault := rfl
  first := by simp [State.omWaits, State.arrived, someT, State.taken]

/-- The places of a request with one access of a kind, from its one translation; a fault names the kind. -/
def onePlace (kind : Nat) : Except XFault Nat → Except XFault (List Nat)
  | .error (.resolvable lva _) => .error (.resolvable lva kind)
  | .error f => .error f
  | .ok pa => .ok [pa]

theorem State.reqLocs_single (s : State) (haccs : p.accs = [a]) (hflag : p.flag = none) (l : Tbl Inbound) :
    (s.arrived l).reqLocs p.dstPart (packetWants p)
      = onePlace (reqKind a.op) (s.xlateLs 0 p.dstPart a.lva.toNat (reqKind a.op) 0) := by
  have hwants : packetWants p = [(a.lva, reqKind a.op)] := by simp [packetWants, haccs, hflag]
  rw [hwants, State.reqLocs, inboundDie, State.xlateLs_congr (State.sameWalk_arrived s l), State.reqLocs]
  cases s.xlateLs 0 p.dstPart a.lva.toNat (reqKind a.op) 0 with
  | error f => cases f <;> rfl
  | ok pa => rfl

/-- An access and nothing else, performed for a peer. -/
theorem State.serveReq_single (u : State) (id pa : Nat) (haccs : p.accs = [a]) (hflag : p.flag = none) :
    ∃ mm, (p.acq = false → mm = false) ∧ u.serveReq id p [pa] =
      let v := (u.touch pa).fillTlb 0 p.dstPart a.lva.toNat
      let r := v.doAcc (.mem pa) a.size a.op (if p.rel then some (Rel.by_ p.scope p.ident) else none) fun _ => false
      r.1.answer id p (.values [r.2] mm) := by
  refine ⟨p.acq && u.mismatched (.mem pa) a.size p.scope p.ident, fun h => by rw [h]; rfl, ?_⟩
  simp [State.serveReq, State.performReq, packetWants, haccs, hflag, inboundDie]

/-- A request that is performed: its values, and the answer that leaves. -/
theorem State.serveReq_arrived (s : State) {l : Tbl Inbound} (pa : Nat) (haccs : p.accs = [a]) (hflag : p.flag = none) :
    ∃ (v : State) (mm : Bool) (r : State × BitVec 128 × Bool) (u : State), (p.acq = false → mm = false)
      ∧ v = { s.arrived l with tlb := v.tlb, dies := v.dies }
      ∧ r = v.doAcc (.mem pa) a.size a.op (if p.rel then some (Rel.by_ p.scope p.ident) else none) (fun _ => false)
      ∧ u = (s.arrived l).serveReq s.nextId p [pa] ∧ u.mem = r.1.mem
      ∧ u = { (s.replyWire p).2 with
          nextId := s.nextId + 1, inbound := Tbl.del l s.nextId, mem := u.mem, tags := u.tags, rel := u.rel, tlb := u.tlb, dies := u.dies
          out := s.out ++ [.response p (.values [r.2] mm) (s.replyWire p).1] } := by
  obtain ⟨mm, hmm, hserve⟩ := (s.arrived l).serveReq_single s.nextId pa haccs hflag
  obtain ⟨tl, d, hv⟩ : ∃ tl d, ((s.arrived l).touch pa).fillTlb 0 p.dstPart a.lva.toNat = { s.arrived l with tlb := tl, dies := d } :=
    ⟨_, _, by rw [State.fillTlb_eq, State.touch_eq]⟩
  dsimp only at hserve
  rw [hv] at hserve
  refine ⟨{ s.arrived l with tlb := tl, dies := d }, mm, _, _, hmm, rfl, rfl, rfl, ?_⟩
  obtain ⟨m, tg, rl, hacc⟩ := State.doAcc_mem_eq ({ s.arrived l with tlb := tl, dies := d } : State)
    pa a.size a.op (if p.rel then some (Rel.by_ p.scope p.ident) else none) (fun _ => false)
  rw [hserve, State.answer_eq (s := s) (l := l) (by rw [hacc]; rfl)]
  exact ⟨rfl, rfl⟩

/-! ### What becomes of a request -/

/-- A request is held: it stands in the queue and nothing else has changed. -/
def State.Holds (s : State) (p : Packet) (t : State) : Prop :=
  t = { s with nextId := s.nextId + 1, inbound := t.inbound } ∧ Tbl.find t.inbound s.nextId = some (s.taken p)

theorem State.holds_alone (s : State) (p : Packet) : s.Holds p (s.arrived [(s.nextId, s.taken p)]) :=
  ⟨rfl, Tbl.find_singleton ..⟩

/-- The answer to a request that was alone. -/
theorem State.answer_alone (hnone : s.inbound = []) (r : Reply) :
    (s.arrived [(s.nextId, s.taken p)]).answer s.nextId p r = { (s.replyWire p).2 with
      nextId := s.nextId + 1, out := s.out ++ [.response p r (s.replyWire p).1] } := by
  rw [State.answer_eq (s := s) rfl, Tbl.del_singleton, ← hnone]
  rfl

theorem request_rejected (hnone : s.inbound = []) (hacc : s.acceptsFrom p = none) : exec (.remoteRequestArrival p) s
    = .next { (s.replyWire p).2 with
        nextId := s.nextId + 1, out := s.out ++ [.response p .error (s.replyWire p).1, .rejected p] } := by
  rw [exec_request_alone hnone, (State.turn_alone s p).rejected hacc]
  rw [show (s.taken p).pkt = p from rfl, State.answer_alone hnone]
  simp [State.emit]

/-- An OM request waits behind a held one of its core (R35). -/
theorem request_waits {k : Nat} {q : Inbound} (hone : s.inbound = [(k, q)]) (hk : k < s.nextId) (hfault : q.fault.isSome = true)
    (hqom : q.pkt.cls = .om) (hom : p.cls = .om) (hphys : q.pkt.srcPhys = p.srcPhys)
    (hcore : q.pkt.ident.coreNum = p.ident.coreNum) :
    ∃ t, exec (.remoteRequestArrival p) s = .next t ∧ s.Holds p t ∧ Tbl.find t.inbound k = some q := by
  have hother : Tbl.find [(k, q), (s.nextId, s.taken p)] k = some q := by simp [Tbl.find]
  have hself : Tbl.find [(k, q), (s.nextId, s.taken p)] s.nextId = some (s.taken p) := by
    simp [Tbl.find, Nat.ne_of_lt hk]
  have hfirst : (s.arrived [(k, q), (s.nextId, s.taken p)]).tryInbound k = s.arrived [(k, q), (s.nextId, s.taken p)] := by
    simp [State.tryInbound, State.arrived, hother, hfault]
  have hsecond : (s.arrived [(k, q), (s.nextId, s.taken p)]).tryInbound s.nextId = s.arrived [(k, q), (s.nextId, s.taken p)] := by
    simp [State.tryInbound, State.omWaits, State.arrived, State.taken, someT, Tbl.find, hk, hqom, hom, hphys, hcore, Nat.ne_of_lt hk]
  rw [exec_request_second hone hk, hfirst, hsecond]
  exact ⟨_, rfl, ⟨rfl, hself⟩, hother⟩

theorem request_closed {n : Nat} (hnone : s.inbound = []) (hacc : s.acceptsFrom p = some n)
    (hno : ¬ s.sessionOpen (s.replySession p) = true) : ∃ t, exec (.remoteRequestArrival p) s = .next t ∧ s.Holds p t := by
  rw [exec_request_alone hnone, (State.turn_alone s p).closed hacc (Bool.not_eq_true _ ▸ hno)]
  exact ⟨_, rfl, s.holds_alone p⟩

section Open

variable {n : Nat} (hnone : s.inbound = []) (hacc : s.acceptsFrom p = some n) (hopen : s.sessionOpen (s.replySession p) = true)
  (haccs : p.accs = [a]) (hflag : p.flag = none)

include hnone hacc hopen haccs hflag

theorem request_page {l : Nat} {e : Bool} (hwalk : s.xlateLs 0 p.dstPart a.lva.toNat (reqKind a.op) 0 = .error (.page l e)) :
    exec (.remoteRequestArrival p) s = .next { (s.replyWire p).2 with
      nextId := s.nextId + 1, out := s.out ++ [.response p .error (s.replyWire p).1] } := by
  have hlocs := s.reqLocs_single haccs hflag [(s.nextId, s.taken p)]
  rw [hwalk] at hlocs
  rw [exec_request_alone hnone, (State.turn_alone s p).page hacc hopen hlocs]
  exact congrArg _ (State.answer_alone hnone _)

theorem request_walkHeld (hwalk : s.xlateLs 0 p.dstPart a.lva.toNat (reqKind a.op) 0 = .error .held) :
    ∃ t, exec (.remoteRequestArrival p) s = .next t ∧ s.Holds p t := by
  have hlocs := s.reqLocs_single haccs hflag [(s.nextId, s.taken p)]
  rw [hwalk] at hlocs
  rw [exec_request_alone hnone, (State.turn_alone s p).walkHeld hacc hopen hlocs]
  exact ⟨_, rfl, s.holds_alone p⟩

theorem request_memoryHeld {pa : Nat} (hwalk : s.xlateLs 0 p.dstPart a.lva.toNat (reqKind a.op) 0 = .ok pa)
    (hm : s.memSt pa = .held) : ∃ t, exec (.remoteRequestArrival p) s = .next t ∧ s.Holds p t := by
  have hlocs := s.reqLocs_single haccs hflag [(s.nextId, s.taken p)]
  rw [hwalk] at hlocs
  rw [exec_request_alone hnone, (State.turn_alone s p).memoryHeld hacc hopen hlocs ⟨pa, List.mem_singleton_self pa, hm⟩]
  exact ⟨_, rfl, s.holds_alone p⟩

/-- A page that is not there goes to the fault service (R46). -/
theorem request_faults {l k : Nat} (hwalk : s.xlateLs 0 p.dstPart a.lva.toNat (reqKind a.op) 0 = .error (.resolvable l k)) :
    ∃ t n f, exec (.remoteRequestArrival p) s = .next t
      ∧ t = { s with nextId := t.nextId, inbound := t.inbound, faults := t.faults }
      ∧ Tbl.find t.inbound s.nextId = some { pkt := p, fault := some n, since := s.clock, noticed := false }
      ∧ Tbl.find t.faults n = some f ∧ f.path = p.path ∧ f.part = p.dstPart ∧ f.kind = reqKind a.op
      ∧ f.owner = .inbound s.nextId ∧ f.st = .waiting := by
  have hlocs := s.reqLocs_single haccs hflag [(s.nextId, s.taken p)]
  rw [hwalk] at hlocs
  rw [exec_request_alone hnone, (State.turn_alone s p).faults hacc hopen hlocs]
  exact ⟨_, s.nextId + 1, _, rfl, rfl, (Tbl.find_upd_self ..).trans (by rw [State.arrived, Tbl.find_singleton]; rfl),
    Tbl.find_put_self .., rfl, rfl, rfl, rfl, rfl⟩

/-- A request whose memory is ready is performed and answered with what its access found (R35, R36). -/
theorem request_performed {pa : Nat} (hwalk : s.xlateLs 0 p.dstPart a.lva.toNat (reqKind a.op) 0 = .ok pa) (hm : s.memSt pa = .ready) :
    ∃ (v : State) (mm : Bool) (r : State × BitVec 128 × Bool) (t : State), exec (.remoteRequestArrival p) s = .next t
      ∧ v = { s.arrived [(s.nextId, s.taken p)] with tlb := v.tlb, dies := v.dies }
      ∧ r = v.doAcc (.mem pa) a.size a.op (if p.rel then some (Rel.by_ p.scope p.ident) else none) (fun _ => false)
      ∧ t = { (s.replyWire p).2 with
          nextId := s.nextId + 1, mem := t.mem, tags := t.tags, rel := t.rel, tlb := t.tlb, dies := t.dies, out := t.out }
      ∧ t.out = s.out ++ [.response p (.values [r.2] mm) (s.replyWire p).1] ∧ (p.acq = false → mm = false) ∧ t.mem = r.1.mem := by
  have hlocs := s.reqLocs_single haccs hflag [(s.nextId, s.taken p)]
  rw [hwalk] at hlocs
  obtain ⟨v, mm, r, t, hmm, hv, hr, ht, hmem, hrest⟩ :=
    s.serveReq_arrived (l := [(s.nextId, s.taken p)]) pa haccs hflag
  have hout : t.out = s.out ++ [.response p (.values [r.2] mm) (s.replyWire p).1] := by rw [hrest]
  refine ⟨v, mm, r, t, ?_, hv, hr, ?_, hout, hmm, hmem⟩
  · rw [exec_request_alone hnone, (State.turn_alone s p).served hacc hopen hlocs (fun q hq => ?_), ht]
    · rfl
    · obtain rfl := List.mem_singleton.1 hq
      rw [show (s.arrived _).memSt q = s.memSt q from rfl, hm]
      decide
  · rw [Tbl.del_singleton, ← hnone, ← hout] at hrest
    exact hrest

end Open

end Single

/-- What a request that is performed reads, writes or replaces (R36, R377, R381). -/
theorem request_effects {s : State} {p : Packet} {a : ReqAcc} {n pa : Nat} (hnone : s.inbound = []) (hacc : s.acceptsFrom p = some n)
    (hopen : s.sessionOpen (s.replySession p) = true) (haccs : p.accs = [a]) (hflag : p.flag = none)
    (hwalk : s.xlateLs 0 p.dstPart a.lva.toNat (reqKind a.op) 0 = .ok pa) (hm : s.memSt pa = .ready) :
    ∃ (t : State) (v : BitVec 128 × Bool) (mm : Bool), exec (.remoteRequestArrival p) s = .next t
      ∧ t = { (s.replyWire p).2 with
          nextId := s.nextId + 1, mem := t.mem, tags := t.tags, rel := t.rel, tlb := t.tlb, dies := t.dies, out := t.out }
      ∧ t.out = s.out ++ [.response p (.values [v] mm) (s.replyWire p).1] ∧ (p.acq = false → mm = false)
      ∧ (a.op = .read ∨ a.op = .fetch → t.mem = s.mem ∧ v.1 = BitVec.ofNat 128 (Memory.num s.mem pa a.size))
      ∧ (∀ d tag, a.op = .write d tag → a.size ≤ 16 → (∀ n, n < a.size → s.plainByte (pa + n)) →
        (∀ n, n < a.size → Memory.get t.mem (pa + n) = d.extractLsb' (8 * n) 8)
        ∧ ∀ z, ¬ (pa ≤ z ∧ z < pa + a.size) → Memory.get t.mem z = Memory.get s.mem z)
      ∧ ∀ o c y, a.op = .atom o c y → (a.size = 4 ∨ a.size = 8) → (∀ n, n < a.size → s.plainByte (pa + n)) →
        let old : BitVec (8 * a.size) := BitVec.ofNat _ (Memory.num s.mem pa a.size)
        let new := atomTable o old (c.setWidth (8 * a.size)) (y.setWidth (8 * a.size))
        v.1 = old.setWidth 128 ∧ Memory.num t.mem pa a.size = (new.getD old).toNat
          ∧ ∀ z, ¬ (pa ≤ z ∧ z < pa + a.size) → Memory.get t.mem z = Memory.get s.mem z := by
  obtain ⟨v, mm, r, t, hexec, hv, hr, ht, hout, hmm, hmem⟩ := request_performed hnone hacc hopen haccs hflag hwalk hm
  have hvmem : v.mem = s.mem := by rw [hv]; rfl
  have hplain (h : ∀ n, n < a.size → s.plainByte (pa + n)) : ∀ n, n < a.size → v.plainByte (pa + n) := by
    rw [hv]
    exact h
  refine ⟨t, r.2, mm, hexec, ht, hout, hmm, fun hop => ?_, fun d tag hop hsize hb => ?_, fun o c y hop hsize hb => ?_⟩
  · rw [hmem, hr]
    rcases hop with hop | hop <;> rw [hop] <;> exact ⟨hvmem, by rw [← hvmem]; rfl⟩
  · have hbytes : t.mem = Memory.writes s.mem pa (natToBytes a.size d.toNat) := by
      rw [hmem, hr, hop, State.doAcc_write_mem (hplain hb), hvmem]
    rw [hbytes]
    refine ⟨fun n hn => ?_, fun z hz => ?_⟩
    · rw [Memory.get_writes, natToBytes_length, if_pos (by omega), Nat.add_sub_cancel_left, natToBytes_extract d hn]
    · rw [Memory.get_writes_other]
      rw [natToBytes_length]
      omega
  · have hatom := State.doAcc_atom (hplain hb) (by omega) (by omega) o c y
      (if p.rel then some (Rel.by_ p.scope p.ident) else none) (fun _ => false)
    dsimp only at hatom
    rw [← hop, ← hr, hvmem] at hatom
    rw [hmem]
    exact hatom

/-- Settles O48: what the target does in each case of a request, what ends a packet at its source, and how packets travel. -/
theorem requests : Obligations.Requests := by
  refine ⟨fun s p a => ?_, fun s id o p a w ho hsent hop haccs hcovers hhole hecc herr honly hw => ?_,
    fun s id l hott hl hans => ?_, fun s => ⟨fun req q hq => ?_, fun part core phys n cls x hx => State.takeWireTo_travels hx cls,
      fun _ _ _ _ => rfl, s.replyWire_eq, fun p hrt => ?_, fun n x hx => ?_⟩⟩
  · intro i names known open_ kind walk held w gone
    have hkind : reqKind a.op = kind := by
      simp only [kind]
      cases a.op <;> rfl
    refine ⟨fun hno hnone => request_rejected hnone (State.acceptsFrom_none hno), fun n hrun hn hlow => ?_,
      fun k q hone hk hfault hqom hom hphys hcore => ?_, fun hknown hnone hno => ?_, fun hknown hnone hopen haccs hflag => ?_⟩
    · rw [State.replySession, State.acceptsFrom_first hrun hn hlow]
    · obtain ⟨t, hexec, hheld, hk⟩ := request_waits hone hk hfault hqom hom hphys hcore
      exact ⟨t, hexec, hheld, hk⟩
    · obtain ⟨n, hacc⟩ := State.acceptsFrom_some hknown
      exact request_closed hnone hacc hno
    · obtain ⟨n, hacc⟩ := State.acceptsFrom_some hknown
      simp only [walk]
      rw [← hkind]
      exact ⟨fun l e hx => request_page hnone hacc hopen haccs hflag hx, fun l k hx => request_faults hnone hacc hopen haccs hflag hx,
        fun hx => request_walkHeld hnone hacc hopen haccs hflag hx,
        fun pa hx => ⟨fun hm => request_memoryHeld hnone hacc hopen haccs hflag hx hm,
          fun hm => request_effects hnone hacc hopen haccs hflag hx hm⟩⟩
  · have h : s.OnlyPacket id o p a w := ⟨ho, hop, haccs, hcovers, hhole, hecc, herr, honly, hw⟩
    intro lost late
    have ends {i : Instr} (hexec : exec i s = .next (s.ottError id o)) : lost i := by
      obtain ⟨w', hlost⟩ := h.ottError_lost
      exact ⟨_, w', hexec, hlost⟩
    refine ⟨fun vs mm hin hacq hacqrel => ?_, ends (exec_remoteResponse_error ho hsent),
      fun hlate => ⟨ends ?_, ends ?_, fun vs mm => ends ?_⟩,
      fun hin => ⟨?_, ?_⟩⟩
    · rw [exec_remoteResponse_values ho hsent, if_neg hin]
      obtain ⟨w', hott, hdone, hmem, hw'⟩ := h.ottValues_completed (vs := vs) hacq hacqrel mm
      refine ⟨_, w', rfl, hott, hdone, by rw [hw', Weave.writeDest_eq], hmem, ?_⟩
      rw [hw']
      exact LsOp.answered_dest p a w vs
    · rw [exec_requestTimeout_packet ho hsent, if_pos hlate]
    · rw [exec_holdNotice_packet ho hsent, if_pos hlate]
    · rw [exec_remoteResponse_values ho hsent, if_pos hlate]
    · rw [exec_requestTimeout_packet ho hsent, if_neg hin]
    · rw [exec_holdNotice_packet ho hsent, if_neg hin]
      exact ⟨_, rfl, rfl, Tbl.find_put_self .., fun _ hn => Tbl.find_put_other _ _ hn⟩
  · intro late has
    refine ⟨fun hin => ⟨State.legs_put s id _ ?_, ?_⟩, fun hnobody r => ?_, fun hcode hsome r hin => State.legs_put s id _ ?_,
      fun hcode hsome hlate => ⟨State.legs_put s id _ ?_, State.legs_put s id _ ?_, fun r => State.legs_put s id _ ?_⟩⟩
    · rw [exec_holdNotice_leg hott hl hans, if_neg hin]
    · rw [exec_requestTimeout_leg hott hl hans, if_neg hin]
    · rw [exec_remoteResponse_leg hott hl hans, State.legAnswer, hnobody]
    · rw [exec_remoteResponse_leg hott hl hans, if_neg hin, State.legAnswer_kept hcode hsome]
    · rw [exec_requestTimeout_leg hott hl hans, if_pos hlate, State.legAnswer_kept hcode hsome]
    · rw [exec_holdNotice_leg hott hl hans, if_pos hlate, State.legAnswer_kept hcode hsome]
    · rw [exec_remoteResponse_leg hott hl hans, if_pos hlate, State.legAnswer_kept hcode hsome]
  · exact ⟨fun hdue hmay => ⟨_, exec_holdNoticeSend_due hq hdue hmay, rfl, Tbl.find_put_self ..⟩, exec_holdNoticeSend_not hq⟩
  · rw [exec_rtForward, execRtForward, if_pos hrt]
    rfl
  · rw [exec_keyUpdate, execKeyUpdate, hx]
    exact ⟨_, rfl, rfl, Tbl.find_put_self .., fun _ hn => Tbl.find_put_other _ _ hn⟩

end Sys2Proof.Machine
end

section
/-! Writes of the configuration of partitions and queues (R50, R51, R63). -/

namespace Sys2Proof.Machine

open Sys2Proof

/-! ### Who may be written (R51) -/

theorem Partition.open_iff (x : Partition) : x.open_ = true ↔ x.tdi = .unlocked ∧ x.locking = false := by
  simp [Partition.open_]

theorem Partition.runs.closed {x : Partition} (h : x.runs) : x.open_ = false :=
  Bool.eq_false_iff.2 fun ho => h.locked (x.open_iff.1 ho).1

/-- A write that does not take effect puts a partition that is locked or runs in ERROR. -/
theorem State.refuseWrite_errs {s : State} {p : Nat} (h : (s.part p).runs) : s.Errs (s.refuseWrite p) p := by
  rw [State.refuseWrite, h.closed]
  exact State.enterError_errs h

theorem State.refuseWrite_of_not_runs {s : State} {p : Nat} (h : ¬ (s.part p).runs) : s.refuseWrite p = s := by
  rw [State.refuseWrite, State.enterError_of_not_runs h, ite_self]

/-! ### A partition's registers (R50) -/

section Registers

variable {s : State} {p r : Nat} {v : W64} {x : Partition}

/-- The offsets in a partition's block at which there is a register. -/
def IsConfigReg (r : Nat) : Prop := r = 0 ∨ r = 8 ∨ (0x100 ≤ r ∧ r < 0x200) ∨ 0x1000 ≤ r

theorem Partition.write_reserved (h : ¬ IsConfigReg r) : x.write r v = none := by
  simp only [IsConfigReg, not_or] at h
  obtain ⟨h0, h8, hwin, hpeer⟩ := h
  rw [Partition.write, if_neg h0, if_neg h8, if_neg hwin, if_neg fun hr => hpeer hr.1]

/-- The partition as a write of the register at `r` leaves it: one field has changed, and of a table one entry. -/
structure Partition.Wrote (x : Partition) (r : Nat) (v : W64) (y : Partition) : Prop where
  rest : y = { x with cgmask := y.cgmask, msixn := y.msixn, win := y.win, peers := y.peers }
  cgmask : y.cgmask = if r = 0 then v.setWidth 32 else x.cgmask
  msixn : y.msixn = if r = 8 then v.setWidth 7 else x.msixn
  win : ∀ n, Tbl.get y.win 0 n = if r = 0x100 + 8 * n ∧ n < 32 then v else Tbl.get x.win 0 n
  peers : ∀ n, Tbl.get y.peers 0 n = if r = 0x1000 + 8 * n then v else Tbl.get x.peers 0 n

theorem Partition.write_register (hr : r < 0x2000) (h8 : r % 8 = 0) (h : IsConfigReg r) :
    ∃ y, x.write r v = some y ∧ x.Wrote r v y := by
  rcases h with rfl | rfl | hwin | hpeer
  · exact ⟨_, rfl, rfl, (BitVec.setWidth_eq_extractLsb' (by decide)).symm, rfl, fun n => (if_neg (by omega)).symm, fun n => (if_neg (by omega)).symm⟩
  · exact ⟨_, rfl, rfl, rfl, (BitVec.setWidth_eq_extractLsb' (by decide)).symm, fun n => (if_neg (by omega)).symm, fun n => (if_neg (by omega)).symm⟩
  · have hwrite : x.write r v = some { x with win := Tbl.set x.win 0 ((r - 0x100) / 8) v } := by
      rw [Partition.write, if_neg (by omega), if_neg (by omega), if_pos hwin]
    refine ⟨_, hwrite, rfl, (if_neg (by omega)).symm, (if_neg (by omega)).symm, fun n => ?_, fun n => (if_neg (by omega)).symm⟩
    exact (Tbl.get_set ..).trans (if_congr (by omega) rfl rfl)
  · have hwrite : x.write r v = some { x with peers := Tbl.set x.peers 0 ((r - 0x1000) / 8) v } := by
      rw [Partition.write, if_neg (by omega), if_neg (by omega), if_neg (by omega), if_pos ⟨hpeer, hr⟩]
    refine ⟨_, hwrite, rfl, (if_neg (by omega)).symm, (if_neg (by omega)).symm, fun n => (if_neg (by omega)).symm, fun n => ?_⟩
    exact (Tbl.get_set ..).trans (if_congr (by omega) rfl rfl)

theorem exec_configWrite_reserved (hp : p < 16) (hr : r < 0x2000) (h : ¬ IsConfigReg r) :
    exec (.partitionConfigWrite (0x10000 + 0x2000 * p + r) v) s = .next s := by
  simp only [exec_partitionConfigWrite, execPartitionConfigWrite, show (0x10000 + 0x2000 * p + r - 0x10000) % 0x2000 = r by omega,
    Partition.write_reserved h, ite_self]

theorem exec_configWrite_register {y : Partition} (hp : p < 16) (hr : r < 0x2000) (h8 : r % 8 = 0) (h : (s.part p).write r v = some y) :
    exec (.partitionConfigWrite (0x10000 + 0x2000 * p + r) v) s
      = .next (if (s.part p).open_ then s.setPart p y else s.refuseWrite p) := by
  rw [exec_partitionConfigWrite, execPartitionConfigWrite, if_neg (by omega)]
  simp only [show (0x10000 + 0x2000 * p + r - 0x10000) / 0x2000 = p by omega,
    show (0x10000 + 0x2000 * p + r - 0x10000) % 0x2000 = r by omega, h]

/-- In ERROR, and while a lock is in progress, a write of a register has no effect. -/
theorem exec_configWrite_dropped (hp : p < 16) (hr : r < 0x2000) (h8 : r % 8 = 0) (h : IsConfigReg r)
    (hno : (s.part p).tdi = .error ∨ (s.part p).locking = true ∧ (s.part p).tdi = .unlocked) :
    exec (.partitionConfigWrite (0x10000 + 0x2000 * p + r) v) s = .next s := by
  obtain ⟨y, hwrite, -⟩ := Partition.write_register (x := s.part p) (v := v) hr h8 h
  have hclosed : ¬ (s.part p).open_ = true := by
    rw [Partition.open_iff]
    rcases hno with he | ⟨hl, -⟩
    · simp [he]
    · simp [hl]
  have hidle : ¬ (s.part p).runs := by
    rcases hno with he | ⟨-, hun⟩
    · simp [Partition.runs, he]
    · exact fun hruns => hruns.locked hun
  rw [exec_configWrite_register hp hr h8 hwrite, if_neg hclosed, State.refuseWrite_of_not_runs hidle]

end Registers

/-! ### A queue's words (R63) -/

section Queues

variable {s : State} {q word n : Nat} {v : W64} {x : Queue}

/-- A queue with the fields that word 0 names. -/
def Queue.named (x : Queue) (v : W64) : Queue :=
  { x with en := v.getLsbD 63, msix := v.extractLsb' 32 8, part := v.extractLsb' 28 4, lidx := v.extractLsb' 16 12, log2n := v.setWidth 5 }

theorem Queue.write_word0 (x : Queue) (v : W64) : x.write 0 v =
    if (v.getLsbD 63 && !x.en) = true then { x.named v with head := 0, tail := 0, qerr := 0, fault := none } else x.named v := by
  rw [Queue.named, BitVec.setWidth_eq_extractLsb' (show 5 ≤ 64 by decide)]
  rfl

theorem Queue.write_word1 (x : Queue) (v : W64) : x.write 1 v = { x with ring := v &&& 0x007FFFFFFFFFFF80 } := rfl

theorem Queue.write_readonly (h : 2 ≤ word) : x.write word v = x := by
  rw [Queue.write, if_neg (by omega), if_neg (by omega)]

/-- Word 0 alone changes whether a queue is enabled, and whose it is. -/
theorem Queue.write_names (x : Queue) (word : Nat) (v : W64) :
    (x.write word v).en = (if word = 0 then v.getLsbD 63 else x.en)
    ∧ (x.write word v).part = if word = 0 then v.extractLsb' 28 4 else x.part := by
  by_cases h0 : word = 0
  · subst h0
    rw [Queue.write_word0, if_pos rfl, if_pos rfl]
    split <;> exact ⟨rfl, rfl⟩
  · rw [if_neg h0, if_neg h0]
    by_cases h1 : word = 1
    · subst h1
      exact ⟨rfl, rfl⟩
    · rw [Queue.write_readonly (by omega)]
      exact ⟨rfl, rfl⟩

/-- A write of word 0 gives the fields, and clears a queue that it enables. -/
theorem Queue.write_word0_spec (x : Queue) (v : W64) : let y := x.write 0 v
    y.log2n = v.setWidth 5 ∧ y.lidx = v.extractLsb' 16 12 ∧ y.msix = v.extractLsb' 32 8 ∧ y.ring = x.ring
    ∧ (x.en = false → y.en = true → y.head = 0 ∧ y.tail = 0 ∧ y.qerr = 0)
    ∧ (x.en = true ∨ y.en = false → y.head = x.head ∧ y.tail = x.tail ∧ y.qerr = x.qerr) := by
  dsimp only
  rw [Queue.write_word0]
  split
  · next h =>
    refine ⟨rfl, rfl, rfl, rfl, fun _ _ => ⟨rfl, rfl, rfl⟩, fun hno => ?_⟩
    rcases hno with hno | (hno : v.getLsbD 63 = false) <;> rw [hno] at h <;> simp at h
  · next h =>
    refine ⟨rfl, rfl, rfl, rfl, fun hx (hv : v.getLsbD 63 = true) => absurd ?_ h, fun _ => ⟨rfl, rfl, rfl⟩⟩
    rw [hx, hv]
    rfl

/-- The partitions that a write of a queue concerns: the owners before and after it. -/
def Queue.concerns (x y : Queue) : List Nat := (x.owner ++ y.owner).eraseDups

/-- The only partition that owns a queue before or after a write is the only one that the write concerns. -/
theorem Queue.concerns_single {y : Queue} (h : x.en = true ∧ x.part.toNat = n ∧ (y.en = true → y.part.toNat = n)
    ∨ x.en = false ∧ y.en = true ∧ y.part.toNat = n) : x.concerns y = [n] := by
  unfold Queue.concerns Queue.owner
  rcases h with ⟨hx, hxn, hy⟩ | ⟨hx, hy, hyn⟩
  · cases hye : y.en with
    | true => simp [hx, hxn, hy hye, List.eraseDups_cons]
    | false => simp [hx, hxn, List.eraseDups_cons]
  · simp [hx, hy, hyn, List.eraseDups_cons]

theorem Queue.concerns_all {y : Queue} {f : Nat → Bool} (hx : x.en = true → f x.part.toNat = true)
    (hy : y.en = true → f y.part.toNat = true) : (x.concerns y).all f = true := by
  simp only [Queue.concerns, Queue.owner, List.all_eq_true, List.mem_eraseDups, List.mem_append, List.mem_ite_nil_right,
    List.mem_singleton]
  rintro p (⟨he, rfl⟩ | ⟨he, rfl⟩)
  · exact hx he
  · exact hy he

theorem exec_qcfgWrite_eq (hq : q < 4096) (hw : word < 4) (y : Queue) (hy : (s.queue q).write word v = y) :
    exec (.qcfgWrite q word v) s = .next (if ((s.queue q).concerns y).all fun p => (s.part p).open_ then s.setQueue q y
      else ((s.queue q).concerns y).foldl State.refuseWrite s) := by
  subst hy
  rw [exec_qcfgWrite, execQcfgWrite, if_neg (by omega)]
  rfl

theorem exec_qcfgWrite_outside (h : 4096 ≤ q ∨ 4 ≤ word) : exec (.qcfgWrite q word v) s = .next s := by
  rw [exec_qcfgWrite, execQcfgWrite, if_pos h]

/-- A write of a queue whose owners before and after it may be written takes effect. -/
theorem exec_qcfgWrite_open (hq : q < 4096) (hw : word < 4) {y : Queue} (hy : (s.queue q).write word v = y)
    (hbefore : (s.queue q).en = true → (s.part (s.queue q).part.toNat).open_ = true)
    (hafter : y.en = true → (s.part y.part.toNat).open_ = true) :
    exec (.qcfgWrite q word v) s = .next (s.setQueue q y) := by
  rw [exec_qcfgWrite_eq hq hw _ hy, if_pos (Queue.concerns_all hbefore hafter)]

/-- A write of a queue that concerns one partition alone, which is locked or runs, puts it in ERROR. -/
theorem exec_qcfgWrite_errs (hq : q < 4096) (hw : word < 4) (hn : (s.queue q).concerns ((s.queue q).write word v) = [n])
    (h : (s.part n).runs) : ∃ t, exec (.qcfgWrite q word v) s = .next t ∧ s.Errs t n := by
  refine ⟨_, exec_qcfgWrite_eq hq hw _ rfl, ?_⟩
  have hclosed : ¬ ([n].all fun p => (s.part p).open_) = true := by simp [h.closed]
  rw [hn, if_neg hclosed]
  exact State.refuseWrite_errs h

end Queues

/-- Settles O50, register by register of a partition, and by the owners that a write of a queue concerns. -/
theorem configuration : Obligations.Configuration := by
  unfold Obligations.Configuration
  refine ⟨fun s p r v hp hr h8 => ?_, fun s q word v h => exec_qcfgWrite_outside h, fun s q word v hq hw => ?_⟩
  · refine ⟨fun h => exec_configWrite_reserved hp hr h, fun h hun hfree => ?_, fun h hruns => ?_, fun h hno => ?_⟩
    · obtain ⟨y, hwrite, hy⟩ := Partition.write_register hr h8 h
      refine ⟨s.setPart p y, y, ?_, rfl, (s.part_setPart p y p).trans (if_pos rfl),
        fun n hn => (s.part_setPart p y n).trans (if_neg hn), hy.rest, hy.cgmask, hy.msixn, hy.win, hy.peers⟩
      rw [exec_configWrite_register hp hr h8 hwrite, if_pos ((Partition.open_iff _).2 ⟨hun, hfree⟩)]
    · obtain ⟨y, hwrite, -⟩ := Partition.write_register hr h8 h
      refine ⟨s.refuseWrite p, ?_, State.refuseWrite_errs hruns⟩
      rw [exec_configWrite_register hp hr h8 hwrite, Partition.runs.closed hruns]
      rfl
    · exact exec_configWrite_dropped hp hr h8 h hno
  · obtain ⟨hen, hpart⟩ := (s.queue q).write_names word v
    dsimp only
    rw [← hen, ← hpart]
    refine ⟨fun hbefore hafter => ?_, fun n hn hruns => exec_qcfgWrite_errs hq hw (Queue.concerns_single hn) hruns⟩
    refine ⟨_, (s.queue q).write word v, exec_qcfgWrite_open hq hw rfl (fun he => (Partition.open_iff _).2 (hbefore he))
      fun he => (Partition.open_iff _).2 (hafter he), rfl, (s.queue_setQueue q _ q).trans (if_pos rfl),
      fun n hn => (s.queue_setQueue q _ n).trans (if_neg hn), rfl, rfl, ?_, ?_, Queue.write_readonly⟩
    · rintro rfl
      exact (s.queue q).write_word0_spec v
    · rintro rfl
      exact ⟨rfl, rfl⟩

end Sys2Proof.Machine
end

section
/-! The status of a launch record where a table of queues is not in order (R69, R445). -/

namespace Sys2Proof.Machine

open Sys2Proof

/-- An enabled queue of partition 0 with local index 1, its ring at direct address 0. -/
def twinQueue (msix : BitVec 8) (tail : W32) : Queue :=
  { Queue.initial with en := true, ring := BitVec.ofNat 64 (2 ^ 54), lidx := 1, log2n := 4, msix := msix, tail := tail }

/-- Partition 0 in RUN, every function ready, and two queues of one local index: a record of zeros is outstanding in queue 5,
which stands before queue 3. It is a state of the model's type, not one that a run is meant to reach: the names of its queues do
not rise. -/
def twinState : State :=
  { State.reset with
    hd := { HostDie.initial with readyStatus := BitVec.allOnes 64 }
    parts := [(0, probePart 0)]
    queues := [(5, twinQueue 3 1), (3, twinQueue 4 0)] }

theorem twinState_takes : (twinState.recordDie 0).isSome = true ∧ twinState.hasEntry 0 false = true
    ∧ twinState.nextQueue 0 = some 5 ∧ twinState.queueAt 0 1 = some 5
    ∧ twinState.agentRead 0 (twinState.queue 5).slot 128 = .ok (List.replicate 128 0)
    ∧ twinState.validate 0 (hostRecord (List.replicate 128 0)) = 2 := by decide +kernel

/-- Once HEAD has passed the record, queue 3 stands before queue 5, and its vector reports the status. -/
theorem recordTake_twinState :
    (match exec (.queueRecordTake 0) twinState with
      | .next t => t.out == [.msix 1 4]
      | _ => false) = true := by decide +kernel

/-- Refutes O42: in `twinState` the status of queue 5's record is reported on the vector of queue 3. The statement takes every
table of queues, also one in which the first queue of a local index is another one after a write; of the others this says nothing. -/
theorem not_recordTaking : ¬ Obligations.RecordTaking := by
  unfold Obligations.RecordTaking
  intro h
  obtain ⟨htaken, -⟩ := h twinState
  obtain ⟨hdie, hentry, hnext, hat, hread, hstatus⟩ := twinState_takes
  obtain ⟨-, -, t, hexec, -, -, -, -, hfails⟩ := htaken 0 5 _ rfl hdie hentry hnext hread
  obtain ⟨-, -, hout⟩ := hfails (by rw [hstatus]; decide)
  have hreport := recordTake_twinState
  simp only [hexec, hout 5 hat] at hreport
  exact absurd hreport (by decide)

end Sys2Proof.Machine
end

section
/-! Entries of a table that an update leaves, and entries of the scope table (R84–R86). -/

namespace Sys2Proof.Machine

open Sys2Proof

/-! ### Tables -/

section Tables

variable {α : Type} {t : Tbl α} {n : Nat} {x : Nat × α} {f : α → α}

theorem Tbl.mem_ins_of_mem (v : α) (h : x ∈ t) : x ∈ Tbl.ins t n v := by
  induction t with
  | nil => cases h
  | cons e r ih =>
    unfold Tbl.ins
    split
    · exact List.mem_cons_of_mem _ h
    · rcases List.mem_cons.1 h with rfl | h
      · exact List.mem_cons_self
      · exact List.mem_cons_of_mem _ (ih h)

theorem Tbl.mem_del_of_mem (h : x ∈ t) (hn : x.1 ≠ n) : x ∈ Tbl.del t n := by
  induction t with
  | nil => cases h
  | cons e r ih =>
    unfold Tbl.del
    split
    · next he =>
      rcases List.mem_cons.1 h with rfl | h
      · exact absurd he hn
      · exact ih h
    · rcases List.mem_cons.1 h with rfl | h
      · exact List.mem_cons_self
      · exact List.mem_cons_of_mem _ (ih h)

/-- An update leaves the entries of the other names. -/
theorem Tbl.mem_upd_of_mem (h : x ∈ t) (hn : x.1 ≠ n) : x ∈ Tbl.upd t n f := by
  unfold Tbl.upd
  split
  · exact Tbl.mem_ins_of_mem _ (Tbl.mem_del_of_mem h hn)
  · exact h

/-- Of the updated name there is one entry, and the others were there. -/
theorem Tbl.mem_upd_some {v : α} (hf : Tbl.find t n = some v) (h : x ∈ Tbl.upd t n f) : x = (n, f v) ∨ x ∈ t ∧ x.1 ≠ n := by
  unfold Tbl.upd at h
  rw [hf] at h
  exact (Tbl.mem_ins h).imp id Tbl.mem_del

end Tables

/-! ### The scope table -/

theorem State.scopeEnt_setScope (s : State) (p i : Nat) (e : ScopeEnt) (q m : Nat) :
    (s.setScope p i e).scopeEnt q m = if q = p ∧ m = i then e else s.scopeEnt q m := by
  rw [State.scopeEnt, State.setScope, State.part_setPart]
  by_cases hq : q = p
  · subst hq
    simp only [if_true, true_and]
    exact Tbl.get_set (s.part q).scopes ScopeEnt.free i e m
  · simp only [hq, false_and, if_false]
    rfl

theorem State.scopeEnt_updScope (s : State) (p i : Nat) (f : ScopeEnt → ScopeEnt) (q m : Nat) :
    (s.updScope p i f).scopeEnt q m = if q = p ∧ m = i then f (s.scopeEnt p i) else s.scopeEnt q m :=
  s.scopeEnt_setScope p i _ q m

theorem State.scopeEnt_congr {s t : State} (h : t.parts = s.parts) (p i : Nat) : t.scopeEnt p i = s.scopeEnt p i := by
  rw [State.scopeEnt, State.part_congr h, State.scopeEnt]

/-- A change of an entry's counts keeps the handles that are current, and whether their scope is cancelling. -/
theorem State.cancelling_updScope (s : State) {p i : Nat} {f : ScopeEnt → ScopeEnt} (hst : ∀ e, (f e).st = e.st)
    (hgen : ∀ e, (f e).gen = e.gen) (q : Nat) (h : W32) : (s.updScope p i f).cancelling q h = s.cancelling q h := by
  rw [State.cancelling, State.current, State.scopeEnt_updScope]
  by_cases hq : q = p ∧ handleId h = i
  · obtain ⟨rfl, rfl⟩ := hq
    simp only [and_self, if_true, hst, hgen]
    rfl
  · simp only [if_neg hq]
    rfl

@[simp] theorem State.countTeams_cancelling (s : State) (p : Nat) (h : W32) (n : Nat) (up : Bool) (q : Nat) (k : W32) :
    (s.countTeams p h n up).cancelling q k = s.cancelling q k := by
  unfold State.countTeams
  refine State.cancelling_updScope s ?_ ?_ q k <;> exact fun _ => rfl

end Sys2Proof.Machine
end

section
/-! The scope instructions at issue (R82, R88, R330–R332). -/

namespace Sys2Proof.Machine

open Sys2Proof

/-! ### An operation sent to the scope table -/

section Send

variable {st s : State} {i : Instr} {x : Ctx}

/-- What a scope instruction sends. -/
def Ctx.scopeOp (x : Ctx) (kind : ScopeKind) (d : Nat) : ScopeOp :=
  { weave := x.e.wid, gid := x.g.gid, lanes := x.g.lanes, part := x.e.part, core := x.e.t.core, scopeH := x.e.f.scope
    kind := kind, d := d, flag := x.g.run.slot x.h.fs, asleep := false, fault := none }

theorem Ctx.scopeSend_eq (x : Ctx) (s : State) (kind : ScopeKind) (d : Nat) :
    x.scopeSend s kind d = (s.nextId, { s with
      nextId := s.nextId + 1, scopeOps := Tbl.put s.scopeOps s.nextId (x.scopeOp kind d)
      weaves := Tbl.upd s.weaves x.e.wid fun w => (w.countUp (x.g.run.slot x.h.fs)).mark s.nextId x.g.lanes [(.s, d)] }) := rfl

/-- The group of a scope instruction behind it: CWAIT's sleeps on its operation. -/
def Ctx.behind (x : Ctx) (i : Instr) (sleeps : Bool) (g : Group) : Group :=
  if sleeps then { g.advance x.c x.h.bnd (lateRegs i) with sleep := .scope x.s.nextId, port := false }
  else g.advance x.c x.h.bnd (lateRegs i)

/-- An operation that is sent after a translation at most, its group gone on. -/
theorem Ctx.scopeSend_asks (hctx : st.ctx i = some x) (hs : s = { x.s with tlb := s.tlb }) (kind : ScopeKind) (d : Nat)
    (sleeps : Bool) : x.Asks i ((x.scopeSend s kind d).2.onGroup x.c (x.behind i sleeps)) kind d sleeps := by
  obtain ⟨hst, hwid, hw⟩ := State.ctx_weave hctx
  obtain ⟨tlb, rfl⟩ : ∃ tlb, s = { x.s with tlb := tlb } := ⟨_, hs⟩
  have hweave (n : Nat) : ((x.scopeSend { x.s with tlb := tlb } kind d).2.onGroup x.c (x.behind i sleeps)).weave n
      = if n = x.c.weave then some (((x.w.countUp (x.g.run.slot x.h.fs)).mark x.s.nextId x.g.lanes [(.s, d)]).updGroup x.c.gid
          (x.behind i sleeps)) else x.s.weave n := by
    rw [State.onGroup, State.weave_updWeave, Ctx.scopeSend_eq]
    split
    · rw [State.weave, Tbl.find_upd, if_pos hwid.symm, hwid, show Tbl.find x.s.weaves x.c.weave = some x.w from hst ▸ hw]
      rfl
    · next hn => exact (Tbl.find_upd ..).trans (if_neg (hwid ▸ hn))
  have hgid : x.g.gid = x.c.gid := Weave.group_gid (State.issuer_some (State.ctx_some hctx).1).2.2
  refine ⟨rfl, ?_, fun n hn => Tbl.find_put_other _ _ hn, fun n hn => (hweave n).trans (if_neg hn), _,
    (hweave _).trans (if_pos rfl), ?_, x.w.getCf_countUp _, ?_, ?_⟩
  · rw [← hwid, ← hgid]
    exact Tbl.find_put_self ..
  all_goals
    rw [Weave.countUp_eq]
    rfl

theorem Ctx.done_asks (hctx : st.ctx i = some x) (hs : s = { x.s with tlb := s.tlb }) (kind : ScopeKind) (d : Nat) :
    x.Asks i ((Res.done (x.scopeSend s kind d).2).apply x i) kind d false := Ctx.scopeSend_asks hctx hs kind d false

theorem Ctx.sleep_asks (hctx : st.ctx i = some x) (kind : ScopeKind) (d : Nat) :
    x.Asks i ((Res.sleep (x.scopeSend x.s kind d).2 (.scope (x.scopeSend x.s kind d).1)).apply x i) kind d true :=
  Ctx.scopeSend_asks hctx (s := x.s) rfl kind d true

/-- A flag below its top lets the instruction count on it (R106). -/
theorem Ctx.scopeCan_of (h : ∀ n, x.g.run.slot x.h.fs = some n → x.w.getCf n < 255) : x.scopeCan = true := by
  unfold Ctx.scopeCan Weave.canCount
  split
  · next n hn => exact decide_eq_true (h n hn)
  · rfl

/-- An instruction whose own entry answers a trap takes it. -/
theorem Ctx.traps_of_entry {body : Ctx → Res} {t : Trap} (hi : st.Issues i x) (he : exec i st = issue i st body)
    (hb : body x = .trap t) : x.Traps i t := by
  obtain ⟨hs, -⟩ := State.ctx_weave hi.1
  rw [Ctx.Traps, hs, hi.exec_eq he, hb, Res.apply, hs]

end Send

/-! ### CSCOPE (R88, R331) -/

section Cscope

variable {x : Ctx} {k : Nat} {flag : Bool}

/-- Bytes of what a capability of CSCOPE is written by: the record, and the flag. -/
def ackBytes (flag : Bool) : Nat := if flag then 40 else 32

/-- A capability of space 0 with W, and with F where a flag is asked for. -/
def MayAck (c : Cap) (flag : Bool) : Prop := c.space = 0 ∧ c.perm.getLsbD 1 = true ∧ (flag = true → c.perm.getLsbD 5 = true)

def AckLies (c : Cap) (flag : Bool) : Prop := ackBytes flag ≤ c.len ∧ c.base + ackBytes flag ≤ 2 ^ 64

theorem ackPerm_iff (p : BitVec 8) (flag : Bool) :
    p &&& (if flag then permW ||| permF else permW) = (if flag then permW ||| permF else permW)
      ↔ p.getLsbD 1 = true ∧ (flag = true → p.getLsbD 5 = true) := by
  revert p flag
  decide

theorem capTagPerm_ack {c : Cap} (ht : c.tag = true) :
    capTagPerm c [0] (if flag then permW ||| permF else permW) k = none ∧ MayAck c flag
      ∨ capTagPerm c [0] (if flag then permW ||| permF else permW) k = some (.plain .capPerm k) ∧ ¬ MayAck c flag := by
  unfold capTagPerm MayAck
  rw [← ackPerm_iff]
  by_cases hs : c.space = 0
  · by_cases hp : c.perm &&& (if flag then permW ||| permF else permW) = (if flag then permW ||| permF else permW)
    · exact .inl ⟨by simp [ht, hs, hp], hs, hp⟩
    · exact .inr ⟨by simp [ht, hs, hp], fun h => hp h.2⟩
  · exact .inr ⟨by simp [ht, hs], fun h => hs h.1⟩

theorem covers_ack (c : Cap) (flag : Bool) : c.covers c.base (ackBytes flag) = true ↔ AckLies c flag := by
  rw [covers_iff, AckLies]
  omega

theorem Ctx.ackTrap_untagged (ht : (x.w.getK k).tag = false) :
    x.ackTrap k flag = if flag then some (.plain .capTag k) else none := by
  simp [Ctx.ackTrap, ht]

theorem Ctx.ackTrap_perm (ht : (x.w.getK k).tag = true) (hm : ¬ MayAck (x.w.getK k) flag) :
    x.ackTrap k flag = some (.plain .capPerm k) := by
  rcases capTagPerm_ack (flag := flag) (k := k) ht with ⟨-, h⟩ | ⟨h, -⟩
  · exact absurd h hm
  · simp [Ctx.ackTrap, ht, h]

theorem Ctx.ackTrap_bounds (ht : (x.w.getK k).tag = true) (hm : MayAck (x.w.getK k) flag) (hl : ¬ AckLies (x.w.getK k) flag) :
    x.ackTrap k flag = some (.plain .capBounds k) := by
  rw [← covers_ack, ackBytes] at hl
  rcases capTagPerm_ack (flag := flag) (k := k) ht with ⟨h, -⟩ | ⟨-, h⟩
  · simp [Ctx.ackTrap, ht, h, hl]
  · exact absurd hm h

/-- A capability that covers what is written is refused for its alignment, or for a peer that is not the own one. -/
theorem Ctx.ackTrap_lies (ht : (x.w.getK k).tag = true) (hm : MayAck (x.w.getK k) flag) (hl : AckLies (x.w.getK k) flag) :
    x.ackTrap k flag = if (x.w.getK k).base % 32 ≠ 0 then some (.plain .misaligned k)
      else if (x.w.getK k).base / 2 ^ 55 ≠ x.s.ownPeer x.e.part then some (.plain .capBounds k)
      else none := by
  rw [← covers_ack, ackBytes] at hl
  rcases capTagPerm_ack (flag := flag) (k := k) ht with ⟨h, -⟩ | ⟨-, h⟩
  · simp [Ctx.ackTrap, ht, h, hl]
  · exact absurd hm h

end Cscope

/-! ### SPAWN (R82, R330) -/

section Spawn

variable {x : Ctx} {k : Nat} {a : Int}

/-- A capability by which SPAWN may read its record. -/
def MayRecord (c : Cap) : Prop := (c.space = 0 ∨ c.space = 1 ∨ c.space = 2 ∨ c.space = 4) ∧ c.perm.getLsbD 0 = true

/-- The record lies in the capability, and in the team's or cohort's resources (R129). -/
def Ctx.recordLies (x : Ctx) (c : Cap) (a : Int) : Prop :=
  c.covers a 128 = true ∧ (c.space ≠ 0 → relativeRow x.e c a.toNat 128 = true)

theorem permR_iff (p : BitVec 8) : p &&& permR = permR ↔ p.getLsbD 0 = true := by
  revert p
  decide

/-- How SPAWN uses its capability (R126 Table 2). -/
def spawnUse : Use := { spaces := [0, 1, 2, 4], perm := permR, kind := 0, nat := true }

theorem spawnUse_admits (c : Cap) : spawnUse.admits c 4 ↔ c.space = 0 ∨ c.space = 1 ∨ c.space = 2 ∨ c.space = 4 := by
  simp [Use.admits, spawnUse]

theorem Ctx.spawnTrap_untagged (ht : (x.w.getK k).tag = false) : x.spawnTrap k a = some (.plain .capTag k) := by
  rw [Ctx.spawnTrap, Ctx.capCheck_untagged ht]

theorem Ctx.spawnTrap_perm (ht : (x.w.getK k).tag = true) (hm : ¬ MayRecord (x.w.getK k)) :
    x.spawnTrap k a = some (.plain .capPerm k) := by
  have hcap : x.capCheck spawnUse k k 4 a 128 = some (.plain .capPerm k) := by
    by_cases hs : spawnUse.admits (x.w.getK k) 4
    · exact Ctx.capCheck_perm ht hs fun hp => hm ⟨(spawnUse_admits _).1 hs, (permR_iff _).1 hp⟩
    · exact Ctx.capCheck_space ht hs
  unfold spawnUse at hcap
  rw [Ctx.spawnTrap, hcap]

/-- Past tag, space and permissions: the bounds, the alignment and the own peer, in this order. -/
theorem Ctx.spawnTrap_range (ht : (x.w.getK k).tag = true) (hm : MayRecord (x.w.getK k)) :
    x.spawnTrap k a = if (x.w.getK k).covers a 128 then
        if (x.w.getK k).space != 0 && !relativeRow x.e (x.w.getK k) a.toNat 128 then some (.plain .capBounds k)
        else if a % 128 != 0 then some (.plain .misaligned k)
        else if x.remote (x.w.getK k) a then some (.plain .capBounds k)
        else none
      else some (.plain .capBounds k) := by
  have hcap := Ctx.capCheck_range (x := x) (u := spawnUse) (detail := k) (addr := a) (len := 128) ht ((spawnUse_admits _).2 hm.1)
    ((permR_iff _).2 hm.2)
  unfold spawnUse at hcap
  rw [Ctx.spawnTrap, hcap]
  cases (x.w.getK k).covers a 128 <;> rfl

theorem Ctx.spawnTrap_bounds (ht : (x.w.getK k).tag = true) (hm : MayRecord (x.w.getK k)) (hl : ¬ x.recordLies (x.w.getK k) a) :
    x.spawnTrap k a = some (.plain .capBounds k) := by
  rw [Ctx.spawnTrap_range ht hm]
  split
  · next hc =>
    refine if_pos ?_
    by_contra hno
    refine hl ⟨hc, fun h0 => ?_⟩
    simpa [h0] using hno
  · rfl

/-- A record that lies in its capability is refused for its alignment, or for a peer that is not the own one. -/
theorem Ctx.spawnTrap_lies (ht : (x.w.getK k).tag = true) (hm : MayRecord (x.w.getK k)) (hl : x.recordLies (x.w.getK k) a) :
    x.spawnTrap k a = if a % 128 ≠ 0 then some (.plain .misaligned k)
      else if (x.w.getK k).space = 0 ∧ a.toNat / 2 ^ 55 ≠ x.s.ownPeer x.e.part then some (.plain .capBounds k)
      else none := by
  obtain ⟨hc, hrel⟩ := hl
  have hrow : ((x.w.getK k).space != 0 && !relativeRow x.e (x.w.getK k) a.toNat 128) = false := by
    by_cases h0 : (x.w.getK k).space = 0
    · simp [h0]
    · simp [hrel h0]
  rw [Ctx.spawnTrap_range ht hm, if_pos hc, hrow, Ctx.remote]
  simp

end Spawn

/-! ### What the instructions answer -/

section Answers

variable {st : State} {x : Ctx} {h : Hd} {d a b : Nat}

theorem cancel_asks (hi : st.Issues (.cancel h d a) x) (hcan : x.scopeCan = true) :
    ∃ t, exec (.cancel h d a) st = .next t ∧ x.Asks (.cancel h d a) t (.cancel (x.w.getS a)) d false ∧ t.tlb = st.tlb := by
  obtain ⟨hs, -⟩ := State.ctx_weave hi.1
  have hex := hi.exec_eq (exec_cancel ..)
  rw [hcan] at hex
  exact ⟨_, hex, Ctx.done_asks hi.1 rfl _ _, by rw [← hs]; rfl⟩

theorem cwait_asks (hi : st.Issues (.cwait h d a) x) (hcan : x.scopeCan = true) :
    ∃ t, exec (.cwait h d a) st = .next t ∧ x.Asks (.cwait h d a) t (.cwait (x.w.getS a)) d true ∧ t.tlb = st.tlb := by
  obtain ⟨hs, -⟩ := State.ctx_weave hi.1
  have hex := hi.exec_eq (exec_cwait ..)
  dsimp only at hex
  rw [hcan] at hex
  exact ⟨_, hex, Ctx.sleep_asks hi.1 _ _, by rw [← hs]; rfl⟩

/-- CSCOPE's own entry. -/
def Ctx.cscopeBody (flag : Bool) (d a b : Nat) (x : Ctx) : Res :=
  match x.ackTrap a flag with
  | some t => .trap t
  | none => if !x.scopeCan then .stall else .done (x.scopeSend x.s (.cscope (x.w.getS b) (x.w.getK a) flag) d).2

variable {flag : Bool}

theorem exec_cscope_eq : exec (.cscope h flag d a b) st = issue (.cscope h flag d a b) st (Ctx.cscopeBody flag d a b) :=
  exec_cscope ..

theorem cscope_traps {t : Trap} (hi : st.Issues (.cscope h flag d a b) x) (ht : x.ackTrap a flag = some t) :
    x.Traps (.cscope h flag d a b) t := Ctx.traps_of_entry hi exec_cscope_eq (by rw [Ctx.cscopeBody, ht])

theorem cscope_asks (hi : st.Issues (.cscope h flag d a b) x) (hcan : x.scopeCan = true) (ht : x.ackTrap a flag = none) :
    ∃ t, exec (.cscope h flag d a b) st = .next t
      ∧ x.Asks (.cscope h flag d a b) t (.cscope (x.w.getS b) (x.w.getK a) flag) d false ∧ t.tlb = st.tlb := by
  obtain ⟨hs, -⟩ := State.ctx_weave hi.1
  have hex := hi.exec_eq exec_cscope_eq
  rw [Ctx.cscopeBody, ht, hcan] at hex
  exact ⟨_, hex, Ctx.done_asks hi.1 rfl _ _, by rw [← hs]; rfl⟩

variable {imm : W32} {inh : Bool}

theorem exec_spawn_eq :
    exec (.spawn h d a b imm inh) st = issue (.spawn h d a b imm inh) st fun x => x.spawnBody d a b imm inh false :=
  exec_spawn ..

theorem spawn_traps {t : Trap} (hi : st.Issues (.spawn h d a b imm inh) x)
    (ht : x.spawnTrap a ((x.w.getK a).base + imm.toInt) = some t) : x.Traps (.spawn h d a b imm inh) t :=
  Ctx.traps_of_entry hi exec_spawn_eq (by rw [Ctx.spawnBody, sImm, ht])

/-- The operation of a SPAWN whose record lies at a place. -/
def Ctx.spawnKind (x : Ctx) (a b : Nat) (imm : W32) (inh : Bool) (src : Loc) : ScopeKind :=
  .spawn (some src) (w64 ((x.w.getK a).base + imm.toInt).toNat) (x.w.getS b) (if inh then some x.e.f.lr.prio else none)

theorem spawn_asks {s : State} {src : Loc} (hi : st.Issues (.spawn h d a b imm inh) x) (hs : s = { x.s with tlb := s.tlb })
    (hbody : x.spawnBody d a b imm inh false = .done (x.scopeSend s (x.spawnKind a b imm inh src) d).2) :
    ∃ t, exec (.spawn h d a b imm inh) st = .next t
      ∧ x.Asks (.spawn h d a b imm inh) t (x.spawnKind a b imm inh src) d false := by
  have hex := hi.exec_eq exec_spawn_eq
  rw [hbody] at hex
  exact ⟨_, hex, Ctx.done_asks hi.1 hs _ _⟩

variable (hcan : x.scopeCan = true) (ht : x.spawnTrap a ((x.w.getK a).base + imm.toInt) = none)

include hcan ht

/-- A record that lies on the chip is not translated. -/
theorem Ctx.spawnBody_onChip {src : Loc} (hsrc : x.place (x.w.getK a) ((x.w.getK a).base + imm.toInt) = src)
    (hno : ∀ lva, src ≠ .virt lva) :
    x.spawnBody d a b imm inh false = .done (x.scopeSend x.s (x.spawnKind a b imm inh src) d).2 := by
  rw [Ctx.spawnBody, sImm, ht, hcan, hsrc]
  cases src with
  | virt lva => exact absurd rfl (hno lva)
  | _ => rfl

/-- A record in global memory goes untranslated where its scope's handle is not current (log 19). -/
theorem Ctx.spawnBody_dead {lva : BitVec 55} (hsrc : x.place (x.w.getK a) ((x.w.getK a).base + imm.toInt) = .virt lva)
    (hcur : x.s.currentW x.e.part (x.w.getS b) = false) :
    x.spawnBody d a b imm inh false = .done (x.scopeSend x.s (x.spawnKind a b imm inh (.virt lva)) d).2 := by
  rw [Ctx.spawnBody, sImm, ht, hcan, hsrc]
  dsimp only
  rw [hcur]
  rfl

theorem Ctx.spawnBody_translated {lva : BitVec 55} {pa : Nat}
    (hsrc : x.place (x.w.getK a) ((x.w.getK a).base + imm.toInt) = .virt lva)
    (hcur : x.s.currentW x.e.part (x.w.getS b) = true) (hpa : x.s.xlateLs x.die x.e.part lva.toNat 0 0 = .ok pa) :
    x.spawnBody d a b imm inh false = .done (x.scopeSend (x.s.fillTlb x.die x.e.part lva.toNat)
      (x.spawnKind a b imm inh (.mem pa)) d).2 := by
  rw [Ctx.spawnBody, sImm, ht, hcan, hsrc]
  dsimp only
  rw [hcur, hpa]
  rfl

end Answers

/-- A place of another space than global memory is on the chip. -/
theorem Ctx.place_onChip {x : Ctx} {c : Cap} {addr : Int} (hm : MayRecord c) (h0 : c.space ≠ 0) (lva : BitVec 55) :
    x.place c addr ≠ .virt lva := by
  obtain ⟨hs, -⟩ := hm
  unfold Ctx.place
  rcases hs with hs | hs | hs | hs
  · exact absurd hs h0
  all_goals
    rw [hs]
    nofun

/-- Settles O39: each case by what the instruction's own checks answer in it. -/
theorem scopeInstructions : Obligations.ScopeInstructions := by
  intro h d a b imm flag inh st x hflag
  have hcan := Ctx.scopeCan_of hflag
  refine ⟨fun hi => cancel_asks hi hcan, fun hi => cwait_asks hi hcan, fun hi => ?_, fun hi => ?_⟩
  · obtain ⟨hs, -⟩ := State.ctx_weave hi.1
    dsimp only
    refine ⟨fun hok => cscope_asks hi hcan ?_, fun ht hf => cscope_traps hi ?_,
      fun ht hm => cscope_traps hi (Ctx.ackTrap_perm ht hm), fun ht hm hl => cscope_traps hi (Ctx.ackTrap_bounds ht hm hl),
      fun ht hm hl hal => cscope_traps hi ?_, fun ht hm hl hal hpeer => cscope_traps hi ?_⟩
    · rcases hok with ⟨ht, rfl⟩ | ⟨ht, hm, hl, hal, hpeer⟩
      · exact Ctx.ackTrap_untagged ht
      · rw [Ctx.ackTrap_lies ht hm hl, if_neg (not_not.2 hal), if_neg (not_not.2 (hs ▸ hpeer))]
    · rw [Ctx.ackTrap_untagged ht, if_pos hf]
    · rw [Ctx.ackTrap_lies ht hm hl, if_pos hal]
    · rw [Ctx.ackTrap_lies ht hm hl, if_neg (not_not.2 hal), if_pos (hs ▸ hpeer)]
  · obtain ⟨hs, -⟩ := State.ctx_weave hi.1
    dsimp only
    refine ⟨fun ht => spawn_traps hi (Ctx.spawnTrap_untagged ht), fun ht hm => spawn_traps hi (Ctx.spawnTrap_perm ht hm),
      fun ht hm hl => spawn_traps hi (Ctx.spawnTrap_bounds ht hm hl), fun ht hm hl hal => spawn_traps hi ?_,
      fun ht hm hl hal h0 hpeer => spawn_traps hi ?_, fun ht hm hl hal hpeer => ?_⟩
    · rw [Ctx.spawnTrap_lies ht hm hl, if_pos hal]
    · rw [Ctx.spawnTrap_lies ht hm hl, if_neg (not_not.2 hal), if_pos ⟨h0, hs ▸ hpeer⟩]
    · have htrap : x.spawnTrap a ((x.w.getK a).base + imm.toInt) = none := by
        rw [Ctx.spawnTrap_lies ht hm hl, if_neg (not_not.2 hal), if_neg fun hno => hno.2 (hs ▸ hpeer hno.1)]
      refine ⟨fun h0 => ?_, fun lva hsrc hcur => ?_, fun lva pa hsrc hcur hpa => ?_⟩
      · exact spawn_asks hi rfl (Ctx.spawnBody_onChip hcan htrap rfl (Ctx.place_onChip hm h0))
      · exact spawn_asks hi rfl (Ctx.spawnBody_dead hcan htrap hsrc (hs ▸ hcur))
      · exact spawn_asks hi (State.fillTlb_eq ..)
          (Ctx.spawnBody_translated hcan htrap hsrc (hs ▸ hcur) (hs ▸ hpa))

end Sys2Proof.Machine
end

section
/-! Operations at the scope table (R82–R91, R97, R333). -/

namespace Sys2Proof.Machine

open Sys2Proof

/-! ### What every operation does there -/

section Finish

variable {s u : State} {id : Nat} {o : ScopeOp} {w : Weave}

/-- The weave of an operation that has its status. -/
def Weave.answered (w : Weave) (id : Nat) (o : ScopeOp) (v : W64) : Weave :=
  ((((if w.takes o.lanes then w.setS o.d v else w).unmark id).countDown o.flag)).updGroup o.gid fun g =>
    if g.sleep = .scope id then { g with sleep := .awake } else g

theorem State.finishScope_eq (s : State) (id : Nat) (o : ScopeOp) (v : W64) (acq : Bool) : s.finishScope id o v acq = { s with
    staging := if acq then s.staging.filter fun y => !(y.core == o.core && y.path == .ls && y.loc.isMem) else s.staging
    weaves := Tbl.upd s.weaves o.weave fun w => w.answered id o v
    scopeOps := Tbl.del s.scopeOps id } := by
  cases acq <;> rfl

theorem Weave.answered_spec (ht : w.takes o.lanes = true) (v : W64) :
    w.answered id o v = { w with s := (w.answered id o v).s, cf := (w.answered id o v).cf, marks := (w.answered id o v).marks
                                 groups := (w.answered id o v).groups }
      ∧ (w.answered id o v).getS o.d = v ∧ (∀ n, n ≠ o.d → (w.answered id o v).getS n = w.getS n)
      ∧ (∀ n, (w.answered id o v).getCf n = w.getCf n - if o.flag = some n then 1 else 0)
      ∧ (w.answered id o v).marks = w.marks.filter (fun m => m.op != id)
      ∧ (w.answered id o v).groups
        = w.groups.map fun g => if g.gid == o.gid ∧ g.sleep = .scope id then { g with sleep := .awake } else g := by
  have heq : w.answered id o v = (((w.setS o.d v).unmark id).countDown o.flag).updGroup o.gid fun g =>
      if g.sleep = .scope id then { g with sleep := .awake } else g := by rw [Weave.answered, if_pos ht]
  have hcf (n : Nat) := ((w.setS o.d v).unmark id).getCf_countDown o.flag n
  rw [heq]
  refine ⟨?_, ?_, fun n hn => ?_, hcf, ?_, ?_⟩
  all_goals rw [Weave.countDown_eq]
  · rfl
  · exact (Weave.getS_setS ..).trans (if_pos rfl)
  · exact (Weave.getS_setS ..).trans (if_neg hn)
  · rfl
  · refine List.map_congr_left fun g _ => ?_
    by_cases hg : g.gid = o.gid <;> simp [hg]

/-- An operation is answered in a state that has changed neither the table's operations nor a weave. -/
theorem State.finishScope_done (hops : u.scopeOps = s.scopeOps) (hweaves : u.weaves = s.weaves) (hw : s.weave o.weave = some w)
    (ht : w.takes o.lanes = true) (v : W64) (acq : Bool) : s.ScopeDone (u.finishScope id o v acq) id o w v := by
  have hweave (n : Nat) : (u.finishScope id o v acq).weave n = if n = o.weave then some (w.answered id o v) else s.weave n := by
    rw [State.finishScope_eq, State.weave, hweaves, Tbl.find_upd, show Tbl.find s.weaves o.weave = some w from hw]
    rfl
  have hscope (n : Nat) : Tbl.find (u.finishScope id o v acq).scopeOps n = if n = id then none else Tbl.find s.scopeOps n := by
    rw [State.finishScope_eq, hops, Tbl.find_del]
  exact ⟨(hscope id).trans (if_pos rfl), fun n hn => (hscope n).trans (if_neg hn), fun n hn => (hweave n).trans (if_neg hn), _,
    (hweave _).trans (if_pos rfl), Weave.answered_spec ht v⟩

/-- Nothing holds back an operation whose turn it is. -/
theorem State.ScopeAt.turn (h : s.ScopeAt id o w) :
    (o.asleep || o.fault.isSome || someT s.scopeOps fun k q => k < id && q.weave == o.weave && !q.asleep) = false := by
  obtain ⟨-, hawake, hfault, -, -, hearlier⟩ := h
  rw [hawake, hfault, Bool.false_or, Option.isSome_none, Bool.false_or, someT, List.any_eq_false]
  intro e he hno
  simp only [Bool.and_eq_true, decide_eq_true_eq, beq_iff_eq, Bool.not_eq_true'] at hno
  obtain ⟨⟨hlt, hweave⟩, hup⟩ := hno
  rw [hearlier e he hlt hweave] at hup
  cases hup

theorem exec_scopeTable_cscope {parent : W64} {ack : Cap} {flag : Bool} (h : s.ScopeAt id o w)
    (hk : o.kind = .cscope parent ack flag) : exec (.scopeTableOperation id) s
      = .next ((s.createScope o.part parent ack flag).1.finishScope id o (s.createScope o.part parent ack flag).2 false) := by
  rw [exec_scopeTableOperation, execScopeTableOperation, h.1]
  dsimp only
  rw [h.turn, hk]
  rfl

theorem exec_scopeTable_cancel {hd : W64} (h : s.ScopeAt id o w) (hk : o.kind = .cancel hd) :
    exec (.scopeTableOperation id) s
      = .next ((s.markCancel o.part hd).1.finishScope id o (s.markCancel o.part hd).2 false) := by
  rw [exec_scopeTableOperation, execScopeTableOperation, h.1]
  dsimp only
  rw [h.turn, hk]
  rfl

theorem exec_scopeTable_cwait {hd : W64} (h : s.ScopeAt id o w) (hk : o.kind = .cwait hd) :
    exec (.scopeTableOperation id) s = .next (if s.currentW o.part hd then
      { s with scopeOps := Tbl.upd s.scopeOps id fun o => { o with asleep := true } } else s.finishScope id o 1 false) := by
  rw [exec_scopeTableOperation, execScopeTableOperation, h.1]
  dsimp only
  rw [h.turn, hk]
  rfl

theorem exec_scopeTable_spawn {src : Option Loc} {addr hd : W64} {prio : Option Nat} (h : s.ScopeAt id o w)
    (hk : o.kind = .spawn src addr hd prio) :
    exec (.scopeTableOperation id) s = .next (s.spawnStep id o src addr hd prio) := by
  rw [exec_scopeTableOperation, execScopeTableOperation, h.1]
  dsimp only
  rw [h.turn, hk]
  rfl

/-- An operation that is answered with a status, and has no other effect. -/
theorem State.ScopeAt.answered (h : s.ScopeAt id o w) {v : W64}
    (hex : exec (.scopeTableOperation id) s = .next (s.finishScope id o v false)) :
    ∃ t, exec (.scopeTableOperation id) s = .next t ∧ s.ScopeDone t id o w v
      ∧ t = { s with weaves := t.weaves, scopeOps := t.scopeOps } := by
  obtain ⟨-, -, -, hw, ht, -⟩ := h
  exact ⟨_, hex, State.finishScope_done rfl rfl hw ht v false, rfl⟩

end Finish

/-! ### CSCOPE (R85–R88) -/

section Create

variable {s : State} {part : Nat} {parent : W64} {ack : Cap} {flag : Bool}

theorem handleOf_value (gen : BitVec 20) {n : Nat} (hn : n < 4096) :
    (handleOf gen n).setWidth 64 = BitVec.ofNat 64 (gen.toNat * 4096 + n) := by
  apply BitVec.eq_of_toNat_eq
  have hgen := gen.isLt
  rw [handleOf, BitVec.toNat_setWidth, BitVec.toNat_append, BitVec.toNat_ofNat, BitVec.toNat_ofNat,
    Nat.mod_eq_of_lt (show n < 2 ^ 12 from hn), ← Nat.shiftLeft_add_eq_or_of_lt (show n < 2 ^ 12 from hn), Nat.shiftLeft_eq]

/-- The lowest free id of the table. -/
def State.freeScope (s : State) (part : Nat) : Option Nat :=
  ((List.range 4095).map (· + 1)).find? fun i => (s.scopeEnt part i).st == 0

theorem State.freeScope_none (h : ∀ n, 1 ≤ n → n < 4096 → (s.scopeEnt part n).st ≠ 0) : s.freeScope part = none := by
  refine List.find?_eq_none.2 fun n hn => ?_
  obtain ⟨m, hm, rfl⟩ := List.mem_map.1 hn
  have := List.mem_range.1 hm
  simpa using h (m + 1) (by omega) (by omega)

theorem State.freeScope_some {n : Nat} (h1 : 1 ≤ n) (hn : n < 4096) (hfree : (s.scopeEnt part n).st = 0)
    (hlow : ∀ m, 1 ≤ m → m < n → (s.scopeEnt part m).st ≠ 0) : s.freeScope part = some n := by
  obtain ⟨k, rfl⟩ : ∃ k, n = k + 1 := ⟨n - 1, by omega⟩
  rw [State.freeScope, List.find?_map, Option.map_eq_some_iff]
  refine ⟨k, List.find?_range_eq_some.2 ⟨by simpa using hfree, List.mem_range.2 (by omega), fun j hj => ?_⟩, rfl⟩
  simpa using hlow (j + 1) (by omega) (by omega)

variable (hcur : s.currentW part parent = true)

theorem State.createScope_dead (hcur : s.currentW part parent = false) :
    s.createScope part parent ack flag = (s, scopeFail 1) := by
  simp [State.createScope, hcur]

include hcur

theorem State.createScope_cancelling (hst : (s.scopeEnt part (idOf parent)).st = 2) :
    s.createScope part parent ack flag = (s, scopeFail 2) := by
  simp [State.createScope, hcur, hst]

variable (hst : (s.scopeEnt part (idOf parent)).st ≠ 2)

include hst

theorem State.createScope_deep (hd : (s.scopeEnt part (idOf parent)).depth = 16) :
    s.createScope part parent ack flag = (s, scopeFail 4) := by
  simp [State.createScope, hcur, hst, hd]

variable (hd : (s.scopeEnt part (idOf parent)).depth ≠ 16)

include hd

theorem State.createScope_full (hfree : s.freeScope part = none) :
    s.createScope part parent ack flag = (s, scopeFail 5) := by
  unfold State.freeScope at hfree
  simp only [State.createScope, hcur, hst, hd, hfree, Bool.not_true, Bool.false_eq_true, if_false]

/-- The entry of a new scope (R88). -/
def State.newScope (s : State) (part n : Nat) (parent : W64) (ack : Cap) (flag : Bool) : ScopeEnt :=
  { ScopeEnt.free with
    st := 1, gen := (s.scopeEnt part n).gen + 1, parent := idOf parent, depth := (s.scopeEnt part (idOf parent)).depth + 1
    ack := if ack.tag then ack else nullCap, ackFlag := flag }

theorem State.createScope_new {n : Nat} (hfree : s.freeScope part = some n) : s.createScope part parent ack flag
    = (s.setScope part n (s.newScope part n parent ack flag), (handleOf ((s.scopeEnt part n).gen + 1) n).setWidth 64) := by
  unfold State.freeScope at hfree
  simp only [State.createScope, hcur, hst, hd, hfree, Bool.not_true, Bool.false_eq_true, if_false]
  rfl

end Create

/-! ### CANCEL (R90, R91) -/

section Cancel

variable {s : State} {part : Nat}

/-- An entry that a cancellation has marked. -/
def ScopeEnt.markedBy (e : ScopeEnt) (c : Nat) : ScopeEnt := { e with st := 2, byOp := some c }

/-- Entries marked in turn: marking an entry again leaves it as it is. -/
theorem State.scopeEnt_foldl_mark (part c : Nat) (l : List Nat) (s : State) (n : Nat) :
    (l.foldl (fun (s : State) i => s.updScope part i fun e => e.markedBy c) s).scopeEnt part n
      = if n ∈ l then (s.scopeEnt part n).markedBy c else s.scopeEnt part n := by
  induction l generalizing s with
  | nil => rfl
  | cons i l ih =>
    rw [List.foldl_cons, ih, State.scopeEnt_updScope]
    by_cases hn : n = i
    · subst hn
      by_cases hl : n ∈ l <;> simp [hl, ScopeEnt.markedBy]
    · simp [hn]

theorem State.foldl_mark_rest (part c : Nat) (l : List Nat) (s : State) :
    l.foldl (fun (s : State) i => s.updScope part i fun e => e.markedBy c) s
      = { s with parts := (l.foldl (fun (s : State) i => s.updScope part i fun e => e.markedBy c) s).parts } := by
  induction l generalizing s with
  | nil => rfl
  | cons i l ih =>
    rw [List.foldl_cons, ih]
    rfl

/-- What discarding records changes: the pending store, counts of scopes, and what their fields have left. -/
structure State.Discards (s t : State) (gone : Nat → Prop) : Prop where
  rest : t = { s with records := t.records, parts := t.parts, fields := t.fields }
  scopes : ∀ p n, (t.scopeEnt p n).st = (s.scopeEnt p n).st ∧ (t.scopeEnt p n).byOp = (s.scopeEnt p n).byOp
  out : ∀ n, gone n → Tbl.find t.records n = none
  kept : ∀ n, ¬ gone n → Tbl.find t.records n = Tbl.find s.records n

theorem State.countRec_scopes (s : State) (part : Nat) (src : RecSrc) (h : W32) (up : Bool) (p n : Nat) :
    ((s.countRec part src h up).scopeEnt p n).st = (s.scopeEnt p n).st
      ∧ ((s.countRec part src h up).scopeEnt p n).byOp = (s.scopeEnt p n).byOp := by
  rw [State.countRec, State.scopeEnt_updScope]
  split
  · next heq =>
    obtain ⟨rfl, rfl⟩ := heq
    cases src <;> exact ⟨rfl, rfl⟩
  · exact ⟨rfl, rfl⟩

theorem State.dropRecord_discards (s : State) (id : Nat) (r : Record) : s.Discards (s.dropRecord id r) fun n => n = id := by
  have hfind (n : Nat) : Tbl.find (s.dropRecord id r).records n = if n = id then none else Tbl.find s.records n := by
    rw [← Tbl.find_del]
    unfold State.dropRecord
    split <;> rfl
  refine ⟨?_, fun p n => ?_, fun n hn => (hfind n).trans (if_pos hn), fun n hn => (hfind n).trans (if_neg hn)⟩
  all_goals
    unfold State.dropRecord
    split
  · rfl
  · rfl
  · exact State.countRec_scopes _ _ _ _ _ p n
  · exact ⟨rfl, rfl⟩

theorem State.discardRecord_discards (s : State) (id : Nat) (r : Record) :
    s.Discards (s.discardRecord id r) fun n => n = id := by
  have h := s.dropRecord_discards id r
  unfold State.discardRecord
  split
  · refine ⟨?_, h.scopes, h.out, h.kept⟩
    conv_lhs => rw [h.rest]
    rfl
  · exact h

theorem State.discards_foldl (l : List (Nat × Record)) (s : State) :
    s.Discards (l.foldl (fun (s : State) (e : Nat × Record) => s.discardRecord e.1 e.2) s) fun n => ∃ e ∈ l, e.1 = n := by
  induction l generalizing s with
  | nil => exact ⟨rfl, fun _ _ => ⟨rfl, rfl⟩, fun _ ⟨_, h, _⟩ => (nomatch h), fun _ _ => rfl⟩
  | cons e l ih =>
    have h := s.discardRecord_discards e.1 e.2
    have h' := ih (s.discardRecord e.1 e.2)
    rw [List.foldl_cons]
    refine ⟨?_, fun p n => ?_, fun n hn => ?_, fun n hn => ?_⟩
    · rw [h'.rest, h.rest]
    · exact ⟨(h'.scopes p n).1.trans (h.scopes p n).1, (h'.scopes p n).2.trans (h.scopes p n).2⟩
    · by_cases hl : ∃ e ∈ l, e.1 = n
      · exact h'.out n hl
      · obtain ⟨x, hx, rfl⟩ := hn
        rcases List.mem_cons.1 hx with rfl | hx
        · exact (h'.kept _ hl).trans (h.out _ rfl)
        · exact absurd ⟨x, hx, rfl⟩ hl
    · have hl : ¬ ∃ e ∈ l, e.1 = n := fun ⟨x, hx, hn'⟩ => hn ⟨x, List.mem_cons_of_mem _ hx, hn'⟩
      exact (h'.kept n hl).trans (h.kept n fun hne => hn ⟨e, List.mem_cons_self, hne.symm⟩)

/-- The live scopes of a subtree. -/
def State.toMark (s : State) (part top : Nat) : List Nat := (s.subtree part top).filter fun i => (s.scopeEnt part i).st == 1

/-- The records under the scopes that a cancellation marks. -/
def State.recordsUnder (s : State) (part top : Nat) : List (Nat × Record) :=
  s.records.filter fun e => e.2.part == part && (s.toMark part top).contains (handleId e.2.scope)

/-- A cancellation as it begins (R90). -/
def State.newCancel (s : State) (part top : Nat) : Cancel where
  part := part
  top := top
  marked := s.toMark part top
  killed := 0
  records := countT (s.recordsUnder part top) fun _ r => r.pending && !r.src.isSpawn
  spawns := countT (s.recordsUnder part top) fun _ r => r.pending && r.src.isSpawn
  copies := 0
  status := 0
  voided := 0
  written := false
  fault := none

/-- The state with the cancellation entered and the scopes marked. -/
def State.marked (s : State) (part top : Nat) : State :=
  (s.toMark part top).foldl (fun (s' : State) i => s'.updScope part i fun e => e.markedBy s.nextId)
    { s with nextId := s.nextId + 1, cancels := Tbl.put s.cancels s.nextId (s.newCancel part top) }

/-- The state after CANCEL at the table. -/
def State.cancelled (s : State) (part top : Nat) : State :=
  (s.recordsUnder part top).foldl (fun (s : State) (e : Nat × Record) => s.discardRecord e.1 e.2) (s.marked part top)

variable {hd : W64}

theorem State.markCancel_dead (hcur : s.currentW part hd = false) : s.markCancel part hd = (s, 1) := by
  simp [State.markCancel, hcur]

theorem State.markCancel_root (hcur : s.currentW part hd = true) (h0 : idOf hd = 0) : s.markCancel part hd = (s, 3) := by
  simp [State.markCancel, hcur, h0]

theorem State.markCancel_again (hcur : s.currentW part hd = true) (h0 : idOf hd ≠ 0)
    (hst : (s.scopeEnt part (idOf hd)).st = 2) : s.markCancel part hd = (s, 2) := by
  simp [State.markCancel, hcur, h0, hst]

theorem State.markCancel_marks (hcur : s.currentW part hd = true) (h0 : idOf hd ≠ 0)
    (hst : (s.scopeEnt part (idOf hd)).st ≠ 2) : s.markCancel part hd = (s.cancelled part (idOf hd), 0) := by
  simp only [State.markCancel, hcur, h0, hst, Bool.not_true, Bool.false_eq_true, if_false]
  rfl

/-- What CANCEL leaves at the table. -/
theorem State.cancelled_spec (s : State) (part top : Nat) :
    (s.cancelled part top) = { s with
        nextId := s.nextId + 1, cancels := Tbl.put s.cancels s.nextId (s.newCancel part top)
        records := (s.cancelled part top).records, parts := (s.cancelled part top).parts, fields := (s.cancelled part top).fields }
      ∧ (∀ n, ((s.cancelled part top).scopeEnt part n).st
            = (if n ∈ s.toMark part top then 2 else (s.scopeEnt part n).st)
          ∧ ((s.cancelled part top).scopeEnt part n).byOp
            = if n ∈ s.toMark part top then some s.nextId else (s.scopeEnt part n).byOp)
      ∧ (∀ n, (∃ e ∈ s.recordsUnder part top, e.1 = n) → Tbl.find (s.cancelled part top).records n = none)
      ∧ ∀ n, (¬ ∃ e ∈ s.recordsUnder part top, e.1 = n) →
        Tbl.find (s.cancelled part top).records n = Tbl.find s.records n := by
  have h := (s.marked part top).discards_foldl (s.recordsUnder part top)
  have hmark := State.foldl_mark_rest part s.nextId (s.toMark part top)
    { s with nextId := s.nextId + 1, cancels := Tbl.put s.cancels s.nextId (s.newCancel part top) }
  have hent (n : Nat) : (s.marked part top).scopeEnt part n
      = if n ∈ s.toMark part top then (s.scopeEnt part n).markedBy s.nextId else s.scopeEnt part n :=
    State.scopeEnt_foldl_mark part s.nextId (s.toMark part top) _ n
  have hrecords : (s.marked part top).records = s.records := by rw [State.marked, hmark]
  refine ⟨?_, fun n => ?_, h.out, fun n hn => (h.kept n hn).trans (by rw [hrecords])⟩
  · rw [State.cancelled, h.rest, State.marked, hmark]
  · obtain ⟨hst, hby⟩ := h.scopes part n
    rw [State.cancelled, hst, hby, hent]
    split <;> exact ⟨rfl, rfl⟩

end Cancel

/-! ### SPAWN (R82, R162, R330) -/

section Spawn

variable {s : State} {part : Nat} {lr : LaunchRec} {src : RecSrc} {addr : W64}

/-- A record as it enters the pending store. -/
def State.newRecord (s : State) (part : Nat) (lr : LaunchRec) (src : RecSrc) (addr : W64) : Record where
  part := part
  lr := lr
  src := src
  addr := addr
  scope := s.handleAt part lr.scope
  seq := s.nextId
  found := false
  met := false
  args := []
  field := none
  next := 0
  redo := []
  fault := none

/-- The state with a new record in the pending store, and counted. -/
def State.stored (s : State) (part : Nat) (lr : LaunchRec) (src : RecSrc) (addr : W64) : State :=
  State.countRec { s with nextId := s.nextId + 1, records := Tbl.put s.records s.nextId (s.newRecord part lr src addr) }
    part src (s.handleAt part lr.scope) true

/-- A record without a dependence and without arguments is ready at once (R70). -/
theorem State.accept_eq (h : lr.dep.tag = true ∨ lr.argPtr = 0) : s.accept part lr src addr
    = if lr.dep.tag then s.stored part lr src addr else { s.stored part lr src addr with
      records := Tbl.put (s.stored part lr src addr).records s.nextId
        { s.newRecord part lr src addr with found := true, met := true } } := by
  have hstored : s.accept part lr src addr = if lr.dep.tag then s.stored part lr src addr
      else (s.stored part lr src addr).watch s.nextId (s.newRecord part lr src addr) := rfl
  rw [hstored]
  cases ht : lr.dep.tag with
  | true => rfl
  | false =>
    have hargs : lr.argPtr = 0 := h.resolve_left (by simp [ht])
    simp [State.watch, State.readArgs, State.newRecord, ht, hargs]

theorem State.accept_spec (h : lr.dep.tag = true ∨ lr.argPtr = 0) :
    s.accept part lr src addr = { s with nextId := s.nextId + 1, records := (s.accept part lr src addr).records
                                         parts := (s.stored part lr src addr).parts }
      ∧ Tbl.find (s.accept part lr src addr).records s.nextId
        = some { s.newRecord part lr src addr with found := !lr.dep.tag, met := !lr.dep.tag }
      ∧ ∀ n, n ≠ s.nextId → Tbl.find (s.accept part lr src addr).records n = Tbl.find s.records n := by
  rw [State.accept_eq h]
  cases lr.dep.tag with
  | true => exact ⟨rfl, Tbl.find_put_self .., fun n hn => Tbl.find_put_other _ _ hn⟩
  | false =>
    exact ⟨rfl, Tbl.find_put_self .., fun n hn => (Tbl.find_put_other _ _ hn).trans (Tbl.find_put_other _ _ hn)⟩

/-- The count of spawned records of a new one's scope rises (R84). -/
theorem State.stored_spawns (s : State) (part : Nat) (lr : LaunchRec) (addr : W64) (n : Nat) (hn : n = handleId (s.handleAt part lr.scope)) :
    ((s.stored part lr .spawn addr).scopeEnt part n).spawns = (s.scopeEnt part n).spawns + 1 := by
  subst hn
  rw [State.stored, State.countRec, State.scopeEnt_updScope, if_pos ⟨rfl, rfl⟩]
  rfl

section Step

variable {id : Nat} {o : ScopeOp} {w : Weave} {l : Loc} {hd : W64} {prio : Option Nat}

theorem State.spawnStep_dead {src : Option Loc} (hcur : s.currentW o.part hd = false) :
    s.spawnStep id o src addr hd prio = s.finishScope id o 5 false := by
  simp [State.spawnStep, hcur]

theorem State.spawnStep_unread (hcur : s.currentW o.part hd = true) (hready : s.spawnReady id o none = true) :
    s.spawnStep id o none addr hd prio = s.finishScope id o 7 false := by
  simp only [State.spawnStep, hcur, hready]
  rfl

/-- A SPAWN whose record may be read reaches the table, and reports a release with which its read cannot pair (R162). -/
theorem State.spawnStep_reads (hcur : s.currentW o.part hd = true) (hl : ∀ v, l ≠ .virt v) (hmem : s.locReady l = true)
    (hready : s.spawnReady id o (some l) = true) : s.spawnStep id o (some l) addr hd prio
      = ((s.spawnAt o.part (some l) addr hd prio).1.stickyIf o.weave wsMismatch (s.spawnMismatch o (some l))).finishScope id o
        (s.spawnAt o.part (some l) addr hd prio).2 (!s.spawnMismatch o (some l)) := by
  cases l with
  | virt v => exact absurd rfl (hl v)
  | _ =>
    simp only [State.spawnStep, hcur, hready, hmem]
    rfl

/-- A SPAWN's answer, where its work has left weaves, operations and staged lines alone. -/
theorem State.spawn_done {u : State} (hops : u.scopeOps = s.scopeOps) (hweaves : u.weaves = s.weaves)
    (hstaging : u.staging = s.staging) (hw : s.weave o.weave = some w) (ht : w.takes o.lanes = true) (v : W64) (mm : Bool) :
    (s.stickyIf o.weave wsMismatch mm).ScopeDone ((u.stickyIf o.weave wsMismatch mm).finishScope id o v (!mm)) id o
        (if mm then w.sticky wsMismatch else w) v
      ∧ ((u.stickyIf o.weave wsMismatch mm).finishScope id o v (!mm)).staging = if mm then s.staging
        else s.staging.filter fun y => !(y.core == o.core && y.path == .ls && y.loc.isMem) := by
  rw [← hstaging]
  cases mm with
  | false => exact ⟨State.finishScope_done hops hweaves hw ht v true, rfl⟩
  | true =>
    have hsticky : (s.stickyIf o.weave wsMismatch true).weave o.weave = some (w.sticky wsMismatch) :=
      (State.weave_updWeave ..).trans (by rw [if_pos rfl, hw]; rfl)
    have hsame : (u.stickyIf o.weave wsMismatch true).weaves = (s.stickyIf o.weave wsMismatch true).weaves := by
      show Tbl.upd u.weaves _ _ = Tbl.upd s.weaves _ _
      rw [hweaves]
    exact ⟨State.finishScope_done (s := s.stickyIf o.weave wsMismatch true)
      (u := u.stickyIf o.weave wsMismatch true) hops hsame hsticky ht v false, rfl⟩

/-- What the operation of a SPAWN does at the table besides its answer. -/
theorem State.spawnStep_after (u : State) (mm acq : Bool) (v : W64) :
    ((u.stickyIf o.weave wsMismatch mm).finishScope id o v acq).records = u.records
      ∧ ((u.stickyIf o.weave wsMismatch mm).finishScope id o v acq).parts = u.parts := by
  rw [State.finishScope_eq]
  cases mm <;> exact ⟨rfl, rfl⟩

theorem State.spawnBad_iff (s : State) (l : Loc) :
    s.spawnBad l = true ↔ ∃ pa, l = .mem pa ∧ (s.eccBad pa = true ∨ s.eccBad (pa + 64) = true) := by
  cases l with
  | mem pa => simp [State.spawnBad]
  | _ => simp [State.spawnBad]

theorem State.spawnAt_bad (hbad : s.spawnBad l = true) : s.spawnAt o.part (some l) addr hd prio = (s, 7) := by
  simp [State.spawnAt, hbad]

/-- The record that a SPAWN hands to the pending store: its scope and its priority are the instruction's. -/
def State.spawnLaunch (s : State) (l : Loc) (hd : W64) (prio : Option Nat) : LaunchRec :=
  { (s.spawnRead l).lr with scope := idOf hd, prio := prio.getD (s.spawnRead l).lr.prio }

def State.spawnStatus (s : State) (part : Nat) (l : Loc) (hd : W64) (prio : Option Nat) : Nat :=
  s.validate part { s.spawnRead l with lr := s.spawnLaunch l hd prio }

variable (hgood : s.spawnBad l = false)

include hgood

theorem State.spawnAt_refused (hst : s.spawnStatus o.part l hd prio ≠ 0) :
    s.spawnAt o.part (some l) addr hd prio = (s, BitVec.ofNat 64 (s.spawnStatus o.part l hd prio)) := by
  unfold State.spawnStatus State.spawnLaunch at hst ⊢
  simp only [State.spawnAt, hgood, Bool.false_eq_true, if_false]
  rfl

theorem State.spawnAt_full (hst : s.spawnStatus o.part l hd prio = 0) (hroom : s.hasEntry o.part true = false) :
    s.spawnAt o.part (some l) addr hd prio = (s, 8) := by
  unfold State.spawnStatus State.spawnLaunch at hst
  simp [State.spawnAt, hgood, hst, hroom]

theorem State.spawnAt_accepted (hst : s.spawnStatus o.part l hd prio = 0) (hroom : s.hasEntry o.part true = true) :
    s.spawnAt o.part (some l) addr hd prio = (s.accept o.part (s.spawnLaunch l hd prio) .spawn addr, 0) := by
  unfold State.spawnStatus State.spawnLaunch at hst
  simp [State.spawnAt, hgood, hst, hroom, State.spawnLaunch]

end Step

end Spawn

/-! ### What an operation answers -/

section Answers

variable {s : State} {id : Nat} {o : ScopeOp} {w : Weave} (h : s.ScopeAt id o w)

include h

theorem scopeTable_cscope {parent : W64} {ack : Cap} {flag : Bool} (hk : o.kind = .cscope parent ack flag)
    (hcur : s.currentW o.part parent = true) (hst : (s.scopeEnt o.part (idOf parent)).st ≠ 2)
    (hd : (s.scopeEnt o.part (idOf parent)).depth ≠ 16) {n : Nat} (hn : n < 4096) (hfree : s.freeScope o.part = some n) :
    ∃ t, exec (.scopeTableOperation id) s = .next t
      ∧ s.ScopeDone t id o w (BitVec.ofNat 64 (((s.scopeEnt o.part n).gen + 1).toNat * 4096 + n))
      ∧ t = { s with weaves := t.weaves, scopeOps := t.scopeOps, parts := t.parts }
      ∧ t.scopeEnt o.part n = s.newScope o.part n parent ack flag
      ∧ ∀ q m, (q ≠ o.part ∨ m ≠ n) → t.scopeEnt q m = s.scopeEnt q m := by
  have hex := exec_scopeTable_cscope h hk
  rw [State.createScope_new hcur hst hd hfree, handleOf_value _ hn] at hex
  have hent (q m : Nat) := s.scopeEnt_setScope o.part n (s.newScope o.part n parent ack flag) q m
  obtain ⟨-, -, -, hw, ht, -⟩ := h
  refine ⟨_, hex, State.finishScope_done rfl rfl hw ht _ false, rfl, (hent _ _).trans (if_pos ⟨rfl, rfl⟩), fun q m hne => ?_⟩
  exact (hent q m).trans (if_neg fun ⟨hq, hm⟩ => hne.elim (fun h => h hq) fun h => h hm)

omit h in
/-- A live scope of the subtree of `top`: CANCEL marks it. -/
theorem State.mem_toMark {part top n : Nat} : n ∈ s.toMark part top ↔ n ∈ s.subtree part top ∧ (s.scopeEnt part n).st = 1 := by
  simp [State.toMark]

omit h in
theorem State.mem_recordsUnder {part top : Nat} {e : Nat × Record} : e ∈ s.recordsUnder part top ↔ e ∈ s.records
    ∧ e.2.part = part ∧ handleId e.2.scope ∈ s.subtree part top ∧ (s.scopeEnt part (handleId e.2.scope)).st = 1 := by
  simp [State.recordsUnder, State.mem_toMark]

/-- CANCEL of a live scope: the answer, and the cancellation as `cancelled_spec` describes it. -/
theorem scopeTable_cancel {hd : W64} (hk : o.kind = .cancel hd) (hcur : s.currentW o.part hd = true) (h0 : idOf hd ≠ 0)
    (hst : (s.scopeEnt o.part (idOf hd)).st ≠ 2) :
    ∃ t, exec (.scopeTableOperation id) s = .next t ∧ s.ScopeDone t id o w 0
      ∧ t = { s.cancelled o.part (idOf hd) with weaves := t.weaves, scopeOps := t.scopeOps } := by
  have hex := exec_scopeTable_cancel h hk
  rw [State.markCancel_marks hcur h0 hst] at hex
  obtain ⟨hrest, -⟩ := s.cancelled_spec o.part (idOf hd)
  obtain ⟨-, -, -, hw, ht, -⟩ := h
  exact ⟨_, hex, State.finishScope_done (by rw [hrest]) (by rw [hrest]) hw ht 0 false, rfl⟩

/-- A SPAWN is answered; its read of the record at `l` has acquired, or reports that it could not (R162). -/
def State.SpawnDone (s t : State) (id : Nat) (o : ScopeOp) (w : Weave) (l : Loc) (e : Env) (v : W64) : Prop :=
  let mm := s.mismatched l 64 .mod (s.ident e) || s.mismatched (l.at 64) 64 .mod (s.ident e)
  (s.stickyIf o.weave wsMismatch mm).ScopeDone t id o (if mm then w.sticky wsMismatch else w) v
    ∧ t.staging = if mm then s.staging else s.staging.filter fun y => !(y.core == o.core && y.path == .ls && y.loc.isMem)

/-- SPAWN whose record may be read: the answer, and what its work at the table leaves. -/
theorem scopeTable_spawn {l : Loc} {addr hd : W64} {prio : Option Nat} {e : Env} {u : State} {v : W64}
    (hk : o.kind = .spawn (some l) addr hd prio) (hcur : s.currentW o.part hd = true) (hl : ∀ v, l ≠ .virt v)
    (hmem : s.locReady l = true) (hready : s.spawnReady id o (some l) = true) (he : s.env o.weave = some e)
    (hat : s.spawnAt o.part (some l) addr hd prio = (u, v)) (hops : u.scopeOps = s.scopeOps) (hweaves : u.weaves = s.weaves)
    (hstaging : u.staging = s.staging) :
    ∃ t, exec (.scopeTableOperation id) s = .next t ∧ s.SpawnDone t id o w l e v ∧ t.records = u.records ∧ t.parts = u.parts := by
  have hex := exec_scopeTable_spawn h hk
  have hmm : s.spawnMismatch o (some l)
      = (s.mismatched l 64 .mod (s.ident e) || s.mismatched (l.at 64) 64 .mod (s.ident e)) := by
    simp only [State.spawnMismatch, he]
  rw [State.spawnStep_reads hcur hl hmem hready, hmm, hat] at hex
  obtain ⟨-, -, -, hw, ht, -⟩ := h
  exact ⟨_, hex, State.spawn_done hops hweaves hstaging hw ht v _, State.spawnStep_after u _ _ v⟩

end Answers

/-- Settles O40: each operation by what the table makes of it in each case, and the status that it answers. -/
theorem scopeTable : Obligations.ScopeTable := by
  intro s id o w h
  have ⟨_, _, _, hw, ht, _⟩ := h
  refine ⟨fun parent ack flag hk => ?_, fun hd hk => ?_, fun hd hk => ?_, fun src addr hd prio hk => ?_⟩
  · have hex := exec_scopeTable_cscope h hk
    dsimp only
    refine ⟨fun hcur => ?_, fun hcur hst => ?_, fun hcur hst hdeep => ?_, fun hcur hst hdeep => ⟨fun hfull => ?_,
      fun n h1 hn hfree hlow => ?_⟩⟩
    · rw [State.createScope_dead hcur] at hex
      exact h.answered hex
    · rw [State.createScope_cancelling hcur hst] at hex
      exact h.answered hex
    · rw [State.createScope_deep hcur hst hdeep] at hex
      exact h.answered hex
    · rw [State.createScope_full hcur hst hdeep (State.freeScope_none hfull)] at hex
      exact h.answered hex
    · exact scopeTable_cscope h hk hcur hst hdeep hn (State.freeScope_some h1 hn hfree hlow)
  · have hex := exec_scopeTable_cancel h hk
    dsimp only
    refine ⟨fun hcur => ?_, fun hcur h0 => ?_, fun hcur h0 hst => ?_, fun hcur h0 hst => ?_⟩
    · rw [State.markCancel_dead hcur] at hex
      exact h.answered hex
    · rw [State.markCancel_root hcur h0] at hex
      exact h.answered hex
    · rw [State.markCancel_again hcur h0 hst] at hex
      exact h.answered hex
    · obtain ⟨t, hex, hdone, ht⟩ := scopeTable_cancel h hk hcur h0 hst
      obtain ⟨hrest, hent, hout, hkept⟩ := s.cancelled_spec o.part (idOf hd)
      have hscope (n : Nat) : t.scopeEnt o.part n = (s.cancelled o.part (idOf hd)).scopeEnt o.part n :=
        State.scopeEnt_congr (by rw [ht]) _ _
      have hrecords : t.records = (s.cancelled o.part (idOf hd)).records := by rw [ht]
      refine ⟨t, s.newCancel o.part (idOf hd), hex, hdone, ?_, rfl, rfl, fun n => State.mem_toMark, rfl, rfl, rfl,
        fun n hn => ?_, fun n hn => ?_, fun e he hit => ?_, fun n hno => ?_, ?_, ?_⟩
      · rw [ht, hrest]
        exact Tbl.find_put_self ..
      · have hn' := State.mem_toMark.2 hn
        rw [hscope, (hent n).1, (hent n).2, if_pos hn', if_pos hn']
        exact ⟨rfl, rfl⟩
      · have hn' := fun h => hn (State.mem_toMark.1 h)
        rw [hscope, (hent n).1, (hent n).2, if_neg hn', if_neg hn']
        exact ⟨rfl, rfl⟩
      · rw [hrecords]
        exact hout e.1 ⟨e, State.mem_recordsUnder.2 ⟨he, hit⟩, rfl⟩
      · rw [hrecords]
        refine hkept n fun ⟨e, he, hne⟩ => ?_
        obtain ⟨he, hit⟩ := State.mem_recordsUnder.1 he
        exact hno e he hit hne
      · rw [ht, hrest]
      · rw [ht, hrest]
  · have hex := exec_scopeTable_cwait h hk
    refine ⟨fun hcur => ?_, fun hcur => ?_⟩
    · rw [if_neg (by simp [hcur])] at hex
      exact h.answered hex
    · rw [if_pos hcur] at hex
      exact hex
  · have hex := exec_scopeTable_spawn h hk
    dsimp only
    refine ⟨fun hcur => ?_, fun hsrc hcur hready => ?_, fun l e hsrc hcur hl hmem hready he => ?_⟩
    · rw [State.spawnStep_dead hcur] at hex
      exact h.answered hex
    · rw [hsrc, State.spawnStep_unread hcur hready] at hex
      exact h.answered hex
    · subst hsrc
      have answers {u : State} {v : W64} (hat : s.spawnAt o.part (some l) addr hd prio = (u, v))
          (hops : u.scopeOps = s.scopeOps) (hweaves : u.weaves = s.weaves) (hstaging : u.staging = s.staging) :=
        scopeTable_spawn h hk hcur hl hmem hready he hat hops hweaves hstaging
      have refused {v : W64} (hat : s.spawnAt o.part (some l) addr hd prio = (s, v)) :
          ∃ t, exec (.scopeTableOperation id) s = .next t ∧ s.SpawnDone t id o w l e v ∧ t.records = s.records :=
        have ⟨t, hex, hdone, hrecords, _⟩ := answers hat rfl rfl rfl
        ⟨t, hex, hdone, hrecords⟩
      rw [← State.spawnBad_iff]
      refine ⟨fun hbad => refused (State.spawnAt_bad hbad), fun hgood => ?_⟩
      rw [Bool.not_eq_true] at hgood
      refine ⟨fun hst => refused (State.spawnAt_refused hgood hst), fun hst hroom => refused (State.spawnAt_full hgood hst hroom),
        fun hst hroom hargs => ?_⟩
      obtain ⟨hrest, hnew, hold⟩ := State.accept_spec (s := s) (part := o.part) (lr := s.spawnLaunch l hd prio) (src := .spawn)
        (addr := addr) hargs
      obtain ⟨t, hex, hdone, hrecords, hparts⟩ :=
        answers (State.spawnAt_accepted hgood hst hroom) (by rw [hrest]) (by rw [hrest]) (by rw [hrest])
      refine ⟨t, _, hex, hdone, (congrArg (Tbl.find · s.nextId) hrecords).trans hnew, rfl, rfl, rfl, rfl, rfl, rfl, rfl,
        iff_of_eq (Bool.not_eq_true' _), fun n hn => (congrArg (Tbl.find · n) hrecords).trans (hold n hn), ?_⟩
      rw [State.scopeEnt_congr hparts, hrest]
      exact s.stored_spawns o.part _ addr _ rfl

end Sys2Proof.Machine
end

section
/-! The choice of a record, of its core group and of its cores (R74, R75, R77). -/

namespace Sys2Proof.Machine

open Sys2Proof

/-! ### One of a list -/

/-- A fold that keeps what it holds or takes the next ends with an entry of the list, or with what it began with. -/
theorem foldl_takes {α : Type} {f : Option α → α → Option α} (hf : ∀ b a, f b a = some a ∨ f b a = b) {l : List α} {b : Option α}
    {x : α} (h : l.foldl f b = some x) : x ∈ l ∨ b = some x := by
  induction l generalizing b with
  | nil => exact .inr h
  | cons a l ih =>
    rcases ih h with hx | hx
    · exact .inl (List.mem_cons_of_mem _ hx)
    · rcases hf b a with ha | hb
      · exact .inl (List.mem_cons.2 (.inl (Option.some.inj (hx.symm.trans ha))))
      · exact .inr (hb.symm.trans hx)

theorem pickFrom_mem {α : Type} {l : List α} (h : l ≠ []) (picks : List Nat) :
    ∃ x rest, pickFrom picks l = (some x, rest) ∧ x ∈ l := by
  have hpos : 0 < l.length := List.length_pos_iff.2 h
  cases picks with
  | nil =>
    obtain ⟨a, r, rfl⟩ := List.exists_cons_of_ne_nil h
    exact ⟨a, [], rfl, List.mem_cons_self⟩
  | cons p r =>
    have hlt : p % Nat.max 1 l.length < l.length := by
      rw [show Nat.max 1 l.length = l.length from Nat.max_eq_right hpos]
      exact Nat.mod_lt _ hpos
    exact ⟨_, r, by rw [pickFrom, List.getElem?_eq_getElem hlt], List.getElem_mem hlt⟩

/-- As many cores as there are teams, all of them out of those that take one. -/
theorem chooseCores_spec (n : Nat) {cores : List Nat} (hnodup : cores.Nodup) (hn : n ≤ cores.length) (picks : List Nat) :
    (chooseCores n cores picks).1.length = n ∧ ∀ c ∈ (chooseCores n cores picks).1, c ∈ cores := by
  induction n generalizing cores picks with
  | zero => exact ⟨rfl, fun _ h => nomatch h⟩
  | succ n ih =>
    obtain ⟨c, rest, hpick, hc⟩ := pickFrom_mem (List.ne_nil_of_length_pos (by omega : 0 < cores.length)) picks
    have hrest : cores.filter (· != c) = cores.erase c := (hnodup.erase_eq_filter c).symm
    have hlen : n ≤ (cores.erase c).length := by
      rw [List.length_erase_of_mem hc]
      omega
    obtain ⟨hlength, hmem⟩ := ih (hnodup.erase c) hlen rest
    rw [chooseCores, hpick]
    dsimp only
    rw [hrest]
    refine ⟨by rw [List.length_cons, hlength], fun x hx => ?_⟩
    rcases List.mem_cons.1 hx with rfl | hx
    · exact hc
    · exact List.mem_of_mem_erase (hmem x hx)

theorem chooseSlots_length (order : List Nat) (n i : Nat) (used picks : List Nat) :
    (chooseSlots order n i used picks).1.length = n := by
  induction n generalizing i used picks with
  | zero => rfl
  | succ n ih =>
    rw [chooseSlots]
    dsimp only
    rw [List.length_cons, ih]

/-! ### The core group -/

section Choice

variable {s : State} {part rid cg : Nat} {r : Record}

theorem State.bestCg_some {lr : LaunchRec} (h : s.bestCg part lr = some cg) :
    cg ∈ s.usableCgs part ∧ lr.width ≤ (s.fitting (fun _ => false) cg lr).length := by
  have hmem := foldl_takes (fun b g => ?_) h
  · have hin := (hmem.resolve_right (by simp))
    obtain ⟨hin, hfit⟩ := List.mem_filter.1 hin
    exact ⟨hin, of_decide_eq_true hfit⟩
  · cases b with
    | none => exact .inl rfl
    | some x =>
      dsimp only
      split
      · exact .inl rfl
      · exact .inr rfl

/-- A core group that a partition may use is one of its own. -/
theorem State.usableCgs_mem (h : cg ∈ s.usableCgs part) : cg < 32 ∧ (s.part part).cgmask.getLsbD cg = true := by
  obtain ⟨hlt, huse⟩ := List.mem_filter.1 h
  simp only [Bool.and_eq_true] at huse
  exact ⟨List.mem_range.1 hlt, huse.1.1.1.1.2⟩

theorem State.chooseRecord_some (h : s.chooseRecord part = some (rid, r, cg)) : s.bestCg part r.lr = some cg := by
  obtain ⟨p, -, hp⟩ := List.exists_of_findSome?_eq_some h
  split at hp
  · cases hp
  · next id q _ =>
    obtain ⟨g, hg, heq⟩ := Option.map_eq_some_iff.1 hp
    cases heq
    exact hg

theorem coresOf_nodup (cg : Nat) : (coresOf cg).Nodup :=
  List.nodup_range.map fun _ _ h => Nat.add_left_cancel h

theorem mem_coresOf {core : Nat} (h : core ∈ coresOf cg) : core / 8 = cg := by
  obtain ⟨i, hi, rfl⟩ := List.mem_map.1 h
  have := List.mem_range.1 hi
  omega

/-- A cohort that fits has cores for all its teams, on its core group. -/
theorem State.chooseCores_fitting {lr : LaunchRec} (h : s.bestCg part lr = some cg) (picks : List Nat) :
    (chooseCores lr.width (s.fitting (fun _ => false) cg lr) picks).1.length = lr.width
      ∧ ∀ c ∈ (chooseCores lr.width (s.fitting (fun _ => false) cg lr) picks).1, c / 8 = cg := by
  obtain ⟨hlen, hmem⟩ := chooseCores_spec lr.width ((coresOf_nodup cg).filter _) (State.bestCg_some h).2 picks
  exact ⟨hlen, fun c hc => mem_coresOf (List.mem_filter.1 (hmem c hc)).1⟩

/-- Which cores take a team depends on the teams, their weaves and the launch records of their cohorts alone. -/
theorem State.fitting_congr {t : State} (hteams : t.teams = s.teams) (hweaves : t.weaves = s.weaves)
    (hcohorts : t.cohorts = s.cohorts) (hlr : ∀ c, t.lrOf c = s.lrOf c) (out : Nat → Bool) (lr : LaunchRec) :
    t.fitting out cg lr = s.fitting out cg lr := by
  have hon (c : Nat) : t.onCore out c = s.onCore out c := by
    rw [State.onCore, show t.cohort c = s.cohort c from congrArg (Tbl.find · c) hcohorts, State.onCore]
  have hcoreTeams (core : Nat) : t.coreTeams out core = s.coreTeams out core := by
    simp only [State.coreTeams, hteams, hon, hlr]
  have hcoreSlots (core : Nat) : t.coreSlots out core = s.coreSlots out core := by
    have hteam (n : Nat) : t.team n = s.team n := congrArg (Tbl.find · n) hteams
    unfold State.coreSlots
    simp only [hweaves, hteam, hon, hlr]
  simp only [State.fitting, State.coreFits, hcoreTeams, hcoreSlots]

end Choice

end Sys2Proof.Machine
end

section
/-! A cohort placed for the first time (R75, R79, R101, R122, R130). -/

namespace Sys2Proof.Machine

open Sys2Proof

/-! ### A weave at launch (R122) -/

/-- Arguments written in turn from register `k` on. -/
theorem get_foldl_set (args : List W64) (k : Nat) (t : Tbl W64) (n : Nat) :
    Tbl.get ((args.zipIdx k).foldl (fun t (v, i) => Tbl.set t 0 i v) t) 0 n
      = if k ≤ n ∧ n < k + args.length then args.getD (n - k) 0 else Tbl.get t 0 n := by
  induction args generalizing k t with
  | nil => rw [if_neg (by simp)]; rfl
  | cons a args ih =>
    rw [List.zipIdx_cons, List.foldl_cons, ih, Tbl.get_set]
    by_cases hn : n = k
    · subst hn
      simp
    · by_cases hin : k + 1 ≤ n ∧ n < k + 1 + args.length
      · obtain ⟨j, rfl⟩ : ∃ j, n = k + 1 + j := ⟨n - (k + 1), by omega⟩
        rw [if_pos hin, if_pos (by rw [List.length_cons]; omega)]
        rw [show k + 1 + j - (k + 1) = j by omega, show k + 1 + j - k = j + 1 by omega, List.getD_cons_succ]
      · rw [if_neg hin, if_neg hn, if_neg (by rw [List.length_cons]; omega)]

theorem Weave.start_launched (tid idx slot age gid : Nat) (f : Field) : (Weave.start tid idx slot age gid f).Launched f tid idx := by
  have hk (n : Nat) : (Weave.start tid idx slot age gid f).getK n = if n = 0 then f.lr.param else nullCap :=
    Tbl.get_set [] nullCap 0 f.lr.param n
  refine ⟨rfl, rfl, fun l hl => ?_, fun n => ?_, hk 0, fun n hn => (hk n).trans (if_neg hn), rfl, rfl, rfl, rfl, rfl, rfl, rfl,
    rfl, _, rfl, rfl, rfl, rfl, rfl⟩
  · show (Lanes.ofFn fun l => 32 * idx + l < f.lr.threads).getLsbD l = true ↔ _
    rw [ofFn_bit]
    simp [hl]
  · refine (get_foldl_set f.args 0 [] n).trans ?_
    split
    · rfl
    · next hn => rw [List.getD_eq_default _ _ (by omega)]; rfl

/-! ### Teams and weaves enter -/

/-- What each step of a fold brings about and later steps keep holds of every entry in the end. -/
theorem foldl_forall_mem {σ α : Type} {f : σ → α → σ} {R : σ → σ → Prop} {P : α → σ → Prop} (hrefl : ∀ s, R s s)
    (htrans : ∀ {s t u}, R s t → R t u → R s u) (hstep : ∀ s a, R s (f s a)) (hget : ∀ s a, P a (f s a))
    (hkeep : ∀ {s t a}, R s t → P a s → P a t) (l : List α) (s : σ) : R s (l.foldl f s) ∧ ∀ a ∈ l, P a (l.foldl f s) := by
  induction l generalizing s with
  | nil => exact ⟨hrefl s, fun _ h => nomatch h⟩
  | cons a l ih =>
    obtain ⟨hrest, hall⟩ := ih (f s a)
    refine ⟨htrans (hstep s a) hrest, fun x hx => ?_⟩
    rcases List.mem_cons.1 hx with rfl | hx
    · exact hkeep hrest (hget s x)
    · exact hall x hx

/-- Teams and weaves have entered under new names; those that were there stand. -/
structure State.Admits (s t : State) : Prop where
  rest : t = { s with nextId := t.nextId, teams := t.teams, weaves := t.weaves, staging := t.staging }
  later : s.nextId ≤ t.nextId
  team : ∀ n, n < s.nextId → t.team n = s.team n
  weave : ∀ n, n < s.nextId → t.weave n = s.weave n

theorem State.Admits.refl (s : State) : s.Admits s := ⟨rfl, le_rfl, fun _ _ => rfl, fun _ _ => rfl⟩

theorem State.Admits.trans {s t u : State} (h : s.Admits t) (h' : t.Admits u) : s.Admits u where
  rest := by rw [h'.rest, h.rest]
  later := h.later.trans h'.later
  team n hn := (h'.team n (hn.trans_le h.later)).trans (h.team n hn)
  weave n hn := (h'.weave n (hn.trans_le h.later)).trans (h.weave n hn)

/-- A weave takes a slot: a step of the fold in `State.startTeam`. -/
def State.startWeave (s : State) (tid : Nat) (f : Field) (x : Nat × Nat) : State :=
  { s with nextId := s.nextId + 2, weaves := Tbl.put s.weaves s.nextId (Weave.start tid x.2 x.1 s.nextId (s.nextId + 1) f) }

/-- Weave `i` of a team is there as it was started. -/
def State.HasWeave (t : State) (tid : Nat) (f : Field) (i : Nat) : Prop :=
  ∃ wid slot age gid, wid < t.nextId ∧ t.weave wid = some (Weave.start tid i slot age gid f)

/-- Team `j` of a cohort is there as it was started, with all its weaves. -/
def State.HasTeam (t : State) (cid : Nat) (f : Field) (core j : Nat) : Prop :=
  ∃ tid place, tid < t.nextId ∧ t.team tid = some (Team.start cid j core place) ∧ ∀ i, i < f.lr.weaves → t.HasWeave tid f i

theorem State.HasWeave.mono {s t : State} {tid i : Nat} {f : Field} (h : s.Admits t) : s.HasWeave tid f i → t.HasWeave tid f i :=
  fun ⟨wid, slot, age, gid, hlt, hw⟩ => ⟨wid, slot, age, gid, hlt.trans_le h.later, (h.weave wid hlt).trans hw⟩

theorem State.HasTeam.mono {s t : State} {cid core j : Nat} {f : Field} (h : s.Admits t) :
    s.HasTeam cid f core j → t.HasTeam cid f core j :=
  fun ⟨tid, place, hlt, ht, hws⟩ => ⟨tid, place, hlt.trans_le h.later, (h.team tid hlt).trans ht, fun i hi => (hws i hi).mono h⟩

theorem State.startWeave_admits (s : State) (tid : Nat) (f : Field) (x : Nat × Nat) : s.Admits (s.startWeave tid f x) where
  rest := rfl
  later := Nat.le_add_right _ 2
  team _ _ := rfl
  weave _ hn := Tbl.find_put_other _ _ hn.ne

theorem State.startWeave_hasWeave (s : State) (tid : Nat) (f : Field) (x : Nat × Nat) :
    (s.startWeave tid f x).HasWeave tid f x.2 :=
  ⟨s.nextId, x.1, s.nextId, s.nextId + 1, Nat.lt_add_of_pos_right Nat.two_pos, Tbl.find_put_self _ _ _⟩

/-- The weaves of a team take their slots. -/
theorem State.foldl_startWeave (s : State) (tid : Nat) (f : Field) (slots : List Nat) :
    s.Admits (slots.zipIdx.foldl (fun s x => s.startWeave tid f x) s)
      ∧ ∀ i, i < slots.length → (slots.zipIdx.foldl (fun s x => s.startWeave tid f x) s).HasWeave tid f i := by
  obtain ⟨hadm, hall⟩ := foldl_forall_mem (R := State.Admits) (P := fun x t => t.HasWeave tid f x.2) .refl .trans
    (fun s x => s.startWeave_admits tid f x) (fun s x => s.startWeave_hasWeave tid f x) .mono slots.zipIdx s
  exact ⟨hadm, fun i hi => hall (slots[i], i) (List.mem_zipIdx_iff_getElem?.2 (List.getElem?_eq_getElem hi))⟩

theorem State.slotsFor_length (s : State) (core : Nat) (lr : LaunchRec) (picks : List Nat) :
    (s.slotsFor core lr picks).1.length = lr.weaves := chooseSlots_length ..

/-- A team enters with all its weaves. -/
theorem State.startTeam_enters (s : State) (cid : Nat) (f : Field) (num core : Nat) (picks : List Nat) :
    s.Admits (s.startTeam cid f num core picks).1 ∧ (s.startTeam cid f num core picks).1.HasTeam cid f core num := by
  let u : State := { s with nextId := s.nextId + 1, teams := Tbl.put s.teams s.nextId (Team.start cid num core (s.freePlace core)) }
  have hu : s.Admits u := ⟨rfl, Nat.le_succ _, fun n hn => Tbl.find_put_other _ _ hn.ne, fun _ _ => rfl⟩
  obtain ⟨hadm, hws⟩ := u.foldl_startWeave s.nextId f (s.slotsFor core f.lr picks).1
  rw [s.slotsFor_length] at hws
  have hacq (v : State) : v.Admits (v.acquireAt core) := ⟨rfl, le_rfl, fun _ _ => rfl, fun _ _ => rfl⟩
  have hall := hadm.trans (hacq _)
  have hlt : s.nextId < u.nextId := Nat.lt_succ_self _
  refine ⟨hu.trans hall, s.nextId, s.freePlace core, hlt.trans_le hall.later, ?_, fun i hi => (hws i hi).mono (hacq _)⟩
  exact (hall.team _ hlt).trans (Tbl.find_put_self _ _ _)

/-- The teams of a cohort enter on their cores. -/
def State.startTeams (s : State) (cid : Nat) (f : Field) (cores picks : List Nat) : State :=
  (cores.zipIdx.foldl (fun (x : State × List Nat) (core, j) => x.1.startTeam cid f j core x.2) (s, picks)).1

theorem State.startTeams_enters (s : State) (cid : Nat) (f : Field) (cores picks : List Nat) :
    s.Admits (s.startTeams cid f cores picks)
      ∧ ∀ j (hj : j < cores.length), (s.startTeams cid f cores picks).HasTeam cid f cores[j] j := by
  obtain ⟨hadm, hall⟩ := foldl_forall_mem (R := fun (x y : State × List Nat) => x.1.Admits y.1)
    (P := fun (a : Nat × Nat) (x : State × List Nat) => x.1.HasTeam cid f a.1 a.2) (fun x => .refl x.1) .trans
    (fun x a => (x.1.startTeam_enters cid f a.2 a.1 x.2).1) (fun x a => (x.1.startTeam_enters cid f a.2 a.1 x.2).2) .mono
    cores.zipIdx (s, picks)
  exact ⟨hadm, fun j hj => hall (cores[j], j) (List.mem_zipIdx_iff_getElem?.2 (List.getElem?_eq_getElem hj))⟩

/-! ### The field and its cohort -/

/-- The field of a record as its first cohort starts it. -/
def Field.StartedBy (f : Field) (r : Record) : Prop :=
  f.lr = r.lr ∧ f.part = r.part ∧ f.scope = r.scope ∧ f.args = r.args ∧ f.left = r.lr.cohorts ∧ f.failed = false

/-- A cohort as it is placed for the first time. -/
def Cohort.start (fid index inst cg clock : Nat) : Cohort where
  field := fid
  index := index
  inst := inst
  cg := cg
  st := .resident
  placedAt := clock
  phases := []
  held := []
  lost := false

/-- The state with a partition's counter of cohorts behind a number that was given (R130). -/
def State.givenInst (s : State) (p inst : Nat) : State :=
  s.setPart p { s.part p with instCtr := afterNumber (2 ^ 36 - 1) inst }

@[simp] theorem State.givenInst_fitting (s : State) (p inst : Nat) (out : Nat → Bool) (cg : Nat) (lr : LaunchRec) :
    (s.givenInst p inst).fitting out cg lr = s.fitting out cg lr := State.fitting_congr rfl rfl rfl (fun _ => rfl) out lr

/-- A cohort enters, with no team yet. -/
def State.addCohort (s : State) (c : Cohort) : State :=
  { s with nextId := s.nextId + 1, cohorts := Tbl.put s.cohorts s.nextId c }

/-- A change of a partition's configuration that leaves its scope table leaves every entry of it. -/
theorem State.scopeEnt_setPart (s : State) {p : Nat} {x : Partition} (hx : x.scopes = (s.part p).scopes) (q i : Nat) :
    (s.setPart p x).scopeEnt q i = s.scopeEnt q i := by
  rw [State.scopeEnt, State.part_setPart]
  split
  · next hq => rw [hx, hq, State.scopeEnt]
  · rfl

/-- A record's field has entered under the next name. -/
structure State.Opens (s t : State) (f : Field) : Prop where
  rest : t = { s with nextId := s.nextId + 1, parts := t.parts, fields := Tbl.put s.fields s.nextId f, records := t.records }
  scopes : ∀ p i, t.scopeEnt p i = s.scopeEnt p i

theorem State.fieldFor_new {s : State} {r : Record} (rid : Nat) (hfield : r.field = none) :
    ∃ t f, s.fieldFor rid r = (s.nextId, t) ∧ s.Opens t f ∧ f.StartedBy r := by
  rw [State.fieldFor, hfield]
  exact ⟨_, _, rfl, ⟨rfl, s.scopeEnt_setPart rfl⟩, rfl, rfl, rfl, rfl, rfl, rfl⟩

section Opens

variable {s t : State} {f : Field} (h : s.Opens t f)
include h

theorem State.Opens.nextId : t.nextId = s.nextId + 1 := by rw [h.rest]

theorem State.Opens.field : t.field s.nextId = some f := by
  rw [h.rest]
  exact Tbl.find_put_self _ _ _

/-- A new field under a name that no cohort bears leaves the launch records of the cohorts. -/
theorem State.Opens.lrOf (hold : ∀ p ∈ s.cohorts, p.2.field < s.nextId) (cid : Nat) : t.lrOf cid = s.lrOf cid := by
  have hcohort : t.cohort cid = s.cohort cid := by rw [h.rest]; rfl
  rw [State.lrOf, State.lrOf, hcohort]
  cases hc : s.cohort cid with
  | none => rfl
  | some c =>
    have hlt : c.field < s.nextId := hold _ (Tbl.mem_of_find hc)
    have hfield : t.field c.field = s.field c.field := by
      rw [h.rest]
      exact Tbl.find_put_other _ _ hlt.ne
    simp only [Option.bind_some, hfield]

theorem State.Opens.fitting (hold : ∀ p ∈ s.cohorts, p.2.field < s.nextId) (cg : Nat) (lr : LaunchRec) :
    t.fitting (fun _ => false) cg lr = s.fitting (fun _ => false) cg lr :=
  State.fitting_congr (by rw [h.rest]) (by rw [h.rest]) (by rw [h.rest]) (h.lrOf hold) _ lr

end Opens

/-- The numbers of the cohorts of a partition that have not ended. -/
def State.instsHeld (s : State) (p : Nat) : List Nat :=
  s.cohorts.filterMap fun (_, c) =>
    match s.field c.field with
    | some g => if g.part == p && c.st != .ended then some c.inst else none
    | none => none

/-- The number that the next cohort of a partition gets (R130). -/
def State.nextInst (s : State) (p : Nat) : Nat :=
  nextNumber (2 ^ 36 - 1) (s.instsHeld p) ((s.instsHeld p).length + 1) (s.part p).instCtr

/-- The first cohort of a record enters, and its teams on the cores that are chosen for them. -/
theorem State.placeNew_of_fieldFor {s t : State} {r : Record} {f : Field} {rid fid : Nat} (index cg : Nat) (picks : List Nat)
    (hfor : s.fieldFor rid r = (fid, t)) (hfield : t.field fid = some f) :
    let chosen := chooseCores r.lr.width (t.fitting (fun _ => false) cg r.lr) picks
    let u := (t.givenInst r.part (t.nextInst r.part)).addCohort (Cohort.start fid index (t.nextInst r.part) cg t.clock)
    let v := u.startTeams t.nextId f chosen.1 chosen.2
    s.placeNew rid r index cg picks
      = (if r.freshCode then v.dropCodeOf chosen.1 else v).countTeams r.part r.scope r.lr.width true := by
  rw [State.placeNew, hfor]
  dsimp only
  rw [hfield, ← t.givenInst_fitting r.part (t.nextInst r.part)]
  rfl

/-! ### What is left of the step -/

/-- Cores that drop their code change nothing else but requests at peers. -/
theorem State.dropCodeOf_rest (s : State) (cores : List Nat) :
    s.dropCodeOf cores = { s with icache := (s.dropCodeOf cores).icache, legs := (s.dropCodeOf cores).legs } := by
  have hfold (l : List Nat) (u : State) : ∃ legs, l.foldl (fun s c => s.dropLegs (.code c)) u = { u with legs := legs } := by
    induction l generalizing u with
    | nil => exact ⟨_, rfl⟩
    | cons c l ih =>
      obtain ⟨legs, h⟩ := ih (u.dropLegs (.code c))
      exact ⟨legs, h⟩
  obtain ⟨legs, h⟩ := hfold cores { s with icache := s.icache.filter fun x => !cores.contains x.core }
  rw [State.dropCodeOf, h]

theorem State.scopeEnt_countTeams (s : State) (p : Nat) (h : W32) (n : Nat) :
    ((s.countTeams p h n true).scopeEnt p (handleId h)).teams = (s.scopeEnt p (handleId h)).teams + n := by
  rw [State.countTeams, State.scopeEnt_updScope, if_pos ⟨rfl, rfl⟩]
  rfl

/-- The count of a record leaves how many teams a scope has. -/
theorem State.teams_countRec (s : State) (part : Nat) (src : RecSrc) (h : W32) (up : Bool) (p i : Nat) :
    ((s.countRec part src h up).scopeEnt p i).teams = (s.scopeEnt p i).teams := by
  rw [State.countRec, State.scopeEnt_updScope]
  split
  · next hp =>
    obtain ⟨rfl, rfl⟩ := hp
    cases src <;> rfl
  · rfl

/-- A record goes on, or leaves the store: nothing changes but records and what scopes count of them. -/
theorem State.afterPlacement_rest (s : State) (rid index : Nat) (saved : Option Nat) :
    s.afterPlacement rid index saved = { s with
        parts := (s.afterPlacement rid index saved).parts, records := (s.afterPlacement rid index saved).records }
      ∧ ∀ p i, ((s.afterPlacement rid index saved).scopeEnt p i).teams = (s.scopeEnt p i).teams := by
  unfold State.afterPlacement
  split
  · exact ⟨rfl, fun _ _ => rfl⟩
  · next r _ =>
    extract_lets again r' u
    have hu : u = { s with parts := u.parts } ∧ ∀ p i, (u.scopeEnt p i).teams = (s.scopeEnt p i).teams := by
      by_cases hlast : (r.pending && !r'.pending) = true
      · rw [show u = s.countRec r.part r.src r.scope false from if_pos hlast]
        exact ⟨rfl, s.teams_countRec _ _ _ _⟩
      · rw [show u = s from if_neg hlast]
        exact ⟨rfl, fun _ _ => rfl⟩
    obtain ⟨hrest, hteams⟩ := hu
    clear_value u
    split
    · exact ⟨by rw [hrest], hteams⟩
    · exact ⟨by rw [hrest], hteams⟩

/-! ### The step -/

/-- A record's field is there with its first cohort, which has no team yet. -/
structure State.Awaits (s u : State) (f : Field) (c : Cohort) : Prop where
  field : u.field s.nextId = some f
  cohort : u.cohort (s.nextId + 1) = some c
  nextId : u.nextId = s.nextId + 2
  mem : u.mem = s.mem
  teams : u.teams = s.teams
  weaves : u.weaves = s.weaves
  scopes : ∀ p i, u.scopeEnt p i = s.scopeEnt p i

theorem State.Opens.addCohort {s t : State} {f : Field} (h : s.Opens t f) (p inst : Nat) (c : Cohort) :
    s.Awaits ((t.givenInst p inst).addCohort c) f c where
  field := h.field
  cohort := by
    rw [← h.nextId]
    exact Tbl.find_put_self _ _ _
  nextId := congrArg (· + 1) h.nextId
  mem := by
    rw [h.rest]
    rfl
  teams := by
    rw [h.rest]
    rfl
  weaves := by
    rw [h.rest]
    rfl
  scopes q i := (State.scopeEnt_setPart t (p := p) (by rfl) q i).trans (h.scopes q i)

/-- A record's field is there with its first cohort, and the teams of that on cores of its core group. -/
structure State.Places (s t : State) (r : Record) (index inst cg : Nat) (f : Field) : Prop where
  field : t.field s.nextId = some f
  started : f.StartedBy r
  cohort : t.cohort (s.nextId + 1) = some (Cohort.start s.nextId index inst cg s.clock)
  mem : t.mem = s.mem
  team : ∀ n, n < s.nextId → t.team n = s.team n
  weave : ∀ n, n < s.nextId → t.weave n = s.weave n
  scope : (t.scopeEnt r.part (handleId r.scope)).teams = (s.scopeEnt r.part (handleId r.scope)).teams + r.lr.width
  teams : ∀ j, j < r.lr.width → ∃ core, core / 8 = cg ∧ t.HasTeam (s.nextId + 1) f core j

theorem State.placeNew_places {s : State} {r : Record} {cg part : Nat} (rid index : Nat) (picks : List Nat) (hfield : r.field = none)
    (hbest : s.bestCg part r.lr = some cg) (hold : ∀ p ∈ s.cohorts, p.2.field < s.nextId) :
    ∃ inst f, s.Places (s.placeNew rid r index cg picks) r index inst cg f := by
  obtain ⟨t, f, hfor, hopen, hstart⟩ := s.fieldFor_new rid hfield
  have hplace := State.placeNew_of_fieldFor index cg picks hfor hopen.field
  obtain ⟨hlen, hcg⟩ := State.chooseCores_fitting hbest picks
  rw [hopen.fitting hold] at hplace
  dsimp only at hplace
  generalize (chooseCores _ _ _).1 = cores at hplace hlen hcg
  generalize (chooseCores _ _ _).2 = picks' at hplace
  generalize t.nextInst r.part = inst at hplace
  have hclock : t.clock = s.clock := by rw [hopen.rest]
  rw [hopen.nextId, hclock] at hplace
  have hu := hopen.addCohort r.part inst (Cohort.start s.nextId index inst cg s.clock)
  generalize (t.givenInst r.part inst).addCohort _ = u at hplace hu
  obtain ⟨hadm, hteams⟩ := u.startTeams_enters (s.nextId + 1) f cores picks'
  generalize u.startTeams (s.nextId + 1) f cores picks' = v at hplace hadm hteams
  obtain ⟨icache, legs, hw⟩ : ∃ icache legs, (if r.freshCode then v.dropCodeOf cores else v)
      = { v with icache := icache, legs := legs } := by
    split
    · exact ⟨_, _, v.dropCodeOf_rest cores⟩
    · exact ⟨_, _, rfl⟩
  rw [hw] at hplace
  rw [hplace]
  have hlt : s.nextId < u.nextId := hu.nextId ▸ Nat.lt_add_of_pos_right Nat.two_pos
  refine ⟨inst, f, ?_⟩
  exact {
    field := by
      show v.field s.nextId = some f
      rw [hadm.rest]
      exact hu.field
    started := hstart
    cohort := by
      show v.cohort (s.nextId + 1) = _
      rw [hadm.rest]
      exact hu.cohort
    mem := by
      show v.mem = s.mem
      rw [hadm.rest]
      exact hu.mem
    team := fun n hn => (hadm.team n (hn.trans hlt)).trans (congrArg (Tbl.find · n) hu.teams)
    weave := fun n hn => (hadm.weave n (hn.trans hlt)).trans (congrArg (Tbl.find · n) hu.weaves)
    scope := by
      have hparts : v.parts = u.parts := by rw [hadm.rest]
      rw [State.scopeEnt_countTeams, State.scopeEnt_congr (t := { v with icache := icache, legs := legs }) hparts, hu.scopes]
    teams := fun j hj => ⟨cores[j]'(by omega), hcg _ (List.getElem_mem _), hteams j (by omega)⟩ }

/-- What becomes of the record leaves what it has placed. -/
theorem State.Places.afterPlacement {s t : State} {r : Record} {index inst cg : Nat} {f : Field} (h : s.Places t r index inst cg f)
    (rid : Nat) (saved : Option Nat) : s.Places (t.afterPlacement rid index saved) r index inst cg f := by
  obtain ⟨hrest, hteams⟩ := t.afterPlacement_rest rid index saved
  generalize t.afterPlacement rid index saved = u at hrest hteams
  exact {
    field := by
      rw [hrest]
      exact h.field
    started := h.started
    cohort := by
      rw [hrest]
      exact h.cohort
    mem := by
      rw [hrest]
      exact h.mem
    team := by
      rw [hrest]
      exact h.team
    weave := by
      rw [hrest]
      exact h.weave
    scope := (hteams _ _).trans h.scope
    teams := by
      rw [hrest]
      exact h.teams }

/-- Settles O43: the field and the cohort get the next two names, and every team then enters with its weaves. -/
theorem placement : Obligations.Placement := by
  intro s part rid cg index r picks htdi hchoose hps hnext hfield hpart hold
  have hbest := State.chooseRecord_some hchoose
  obtain ⟨hcg, hmask⟩ := State.usableCgs_mem (State.bestCg_some hbest).1
  obtain ⟨inst, f, h⟩ := State.placeNew_places rid index picks hfield hbest hold
  have hexec : exec (.cohortPlacement part picks) s = .next ((s.placeNew rid r index cg picks).afterPlacement rid index none) := by
    rw [exec_cohortPlacement, execCohortPlacement, if_neg (not_not.2 htdi), hchoose]
    dsimp only
    rw [if_neg (not_not.2 hps), hnext]
  have hplaces := h.afterPlacement rid none
  generalize (s.placeNew rid r index cg picks).afterPlacement rid index none = t at hexec hplaces
  obtain ⟨hlr, hfpart, hscope, hargs, hleft, hfailed⟩ := hplaces.started
  refine ⟨t, s.nextId + 1, _, s.nextId, f, hexec, hplaces.cohort, hplaces.field, hlr, hfpart.trans hpart, hscope, hargs, hleft, hfailed,
    rfl, rfl, rfl, rfl, rfl, rfl, rfl, hcg, hmask, hpart ▸ hplaces.scope, hplaces.mem,
    fun n hn => ⟨hplaces.team n hn, hplaces.weave n hn⟩, fun j hj => ?_⟩
  obtain ⟨core, hcore, tid, place, -, hteam, hweaves⟩ := hplaces.teams j hj
  refine ⟨tid, _, hteam, rfl, rfl, hcore, rfl, rfl, rfl, rfl, rfl, rfl, rfl, fun i hi => ?_⟩
  obtain ⟨wid, slot, age, gid, -, hweave⟩ := hweaves i (hlr ▸ hi)
  exact ⟨wid, _, hweave, Weave.start_launched tid i slot age gid f⟩

end Sys2Proof.Machine
end

section
/-! What the barrier unit changes when it applies operations and wakes groups (R144–R147, R268, R406). -/

namespace Sys2Proof.Machine

open Sys2Proof

/-- Nothing has changed but weaves, staged lines, and of cohorts their objects and what is held for them. -/
structure State.PhaseOnly (s t : State) : Prop where
  rest : t = { s with weaves := t.weaves, staging := t.staging, cohorts := t.cohorts }
  stands : ∀ n c, s.cohort n = some c → ∃ c', t.cohort n = some c' ∧ c'.st = c.st

namespace State.PhaseOnly

variable {s t u : State}

theorem refl (s : State) : s.PhaseOnly s := ⟨rfl, fun _ c h => ⟨c, h, rfl⟩⟩

theorem trans (h : s.PhaseOnly t) (h' : t.PhaseOnly u) : s.PhaseOnly u where
  rest := by rw [h'.rest, h.rest]
  stands n c hc := by
    obtain ⟨d, hd, hst⟩ := h.stands n c hc
    obtain ⟨e, he, hst'⟩ := h'.stands n d hd
    exact ⟨e, he, hst'.trans hst⟩

theorem foldl {α : Type} {f : State → α → State} (hf : ∀ (s : State) a, s.PhaseOnly (f s a)) (l : List α) (s : State) :
    s.PhaseOnly (l.foldl f s) := by
  induction l generalizing s with
  | nil => exact refl s
  | cons a l ih => exact (hf s a).trans (ih _)

end State.PhaseOnly

theorem State.updWeave_phaseOnly (s : State) (n : Nat) (f : Weave → Weave) : s.PhaseOnly (s.updWeave n f) :=
  ⟨rfl, fun _ c h => ⟨c, h, rfl⟩⟩

theorem State.acquireAt_phaseOnly (s : State) (core : Nat) : s.PhaseOnly (s.acquireAt core) := ⟨rfl, fun _ c h => ⟨c, h, rfl⟩⟩

theorem State.endThreads_phaseOnly (s : State) (wid : Nat) (ls : Lanes) (killed : Bool) :
    s.PhaseOnly (s.endThreads wid ls killed) := by
  unfold State.endThreads
  split
  · exact .refl s
  · exact s.updWeave_phaseOnly _ _

theorem State.stickyIf_phaseOnly (s : State) (wid bit : Nat) (b : Bool) : s.PhaseOnly (s.stickyIf wid bit b) := by
  unfold State.stickyIf
  split
  · exact s.updWeave_phaseOnly _ _
  · exact .refl s

theorem State.phSeen_phaseOnly (s : State) (e : Env) (p : Phase) (cid : Nat) : s.PhaseOnly (s.phSeen e p cid) := by
  refine State.PhaseOnly.trans ?_ (State.stickyIf_phaseOnly _ _ _ _)
  split
  · exact s.acquireAt_phaseOnly _
  · exact .refl s

theorem State.phWake_phaseOnly (s : State) (wid gid d : Nat) (kill : Bool) (status : W64) (seen : Option (Phase × Nat)) :
    s.PhaseOnly (s.phWake wid gid d kill status seen) := by
  unfold State.phWake
  split
  · exact .refl s
  split
  · exact .refl s
  split
  · exact s.endThreads_phaseOnly _ _ _
  · refine State.PhaseOnly.trans ?_ (State.updWeave_phaseOnly _ _ _)
    split
    · exact s.phSeen_phaseOnly _ _ _
    · exact .refl s

/-- A change of a cohort that leaves where it stands. -/
theorem State.updCohort_phaseOnly (s : State) (cid : Nat) {f : Cohort → Cohort} (hf : ∀ c, (f c).st = c.st) :
    s.PhaseOnly (s.updCohort cid f) := by
  refine ⟨rfl, fun n c hc => ?_⟩
  have hfind : (s.updCohort cid f).cohort n = if n = cid then (s.cohort cid).map f else s.cohort n := Tbl.find_upd ..
  rw [hfind]
  split
  · next hn => exact ⟨f c, by rw [← hn, hc]; rfl, hf c⟩
  · exact ⟨c, hc, rfl⟩

theorem State.phSettle_phaseOnly (s : State) (part cid obj : Nat) : s.PhaseOnly (s.phSettle part cid obj) := by
  unfold State.phSettle
  split
  · exact .refl s
  · refine State.PhaseOnly.foldl (fun s x => ?_) _ s
    dsimp only
    split
    · exact s.phWake_phaseOnly _ _ _ _ _ _
    split
    · exact s.phWake_phaseOnly _ _ _ _ _ _
    · exact .refl s

theorem State.setPhase_settled (s : State) (part cid obj : Nat) (p : Phase) :
    s.PhaseOnly ((s.setPhase cid obj p).phSettle part cid obj) := by
  have hset : s.PhaseOnly (s.setPhase cid obj p) := s.updCohort_phaseOnly cid fun _ => rfl
  exact hset.trans (State.phSettle_phaseOnly _ _ _ _)

theorem State.phArrive_phaseOnly (s : State) (part cid obj u : Nat) (by_ : Option Nat) :
    s.PhaseOnly (s.phArrive part cid obj u by_) := by
  unfold State.phArrive
  split
  · exact .refl s
  · exact s.setPhase_settled _ _ _ _

theorem State.phAct_phaseOnly (s : State) (op : PhOp) (cid : Nat) (c : Cohort) : s.PhaseOnly (s.phAct op cid c) := by
  have hsleep (u : State) (q : Bool) (d : Nat) : u.PhaseOnly (u.phSleep op q d) := u.updWeave_phaseOnly _ _
  have hwake (u : State) (d : Nat) (v : W64) (seen : Option (Phase × Nat)) :
      u.PhaseOnly (u.phWake op.weave op.gid d false v seen) := u.phWake_phaseOnly _ _ _ _ _ _
  unfold State.phAct
  dsimp only
  cases op.kind with
  | init b x o => exact s.setPhase_settled _ _ _ _
  | arrive u => exact s.phArrive_phaseOnly _ _ _ _ _
  | copy n => exact s.phArrive_phaseOnly _ _ _ _ _
  | wait q d =>
    dsimp only
    split
    · exact hwake ..
    split
    · exact hwake ..
    · exact hsleep ..
  | bar d =>
    dsimp only
    split
    · exact hwake ..
    split
    · exact hsleep ..
    · refine (s.phArrive_phaseOnly op.part cid op.obj 1 (some op.cohort)).trans ?_
      split
      · exact .refl _
      split
      · exact hwake ..
      · exact hsleep ..

theorem State.phApply_phaseOnly (s : State) (op : PhOp) : s.PhaseOnly (s.phApply op) := by
  unfold State.phApply
  split
  · split
    · exact s.phWake_phaseOnly _ _ _ _ _ _
    · exact s.phWake_phaseOnly _ _ _ _ _ _
    · exact .refl s
  split
  · exact .refl s
  split
  · unfold State.phHold
    split
    · exact s.updWeave_phaseOnly _ _
    · exact s.updCohort_phaseOnly _ fun _ => rfl
  · exact s.phAct_phaseOnly _ _ _

end Sys2Proof.Machine
end

section
/-! The ends of weaves, teams, cohorts and fields (R81, R94, R123, R130, R182, R222). -/

namespace Sys2Proof.Machine

open Sys2Proof

variable {s : State}

/-! ### Weaves -/

theorem Weave.flagsClear_all (w : Weave) : w.flagsClear (BitVec.allOnes 12) = true ↔ ∀ n, n < 12 → w.getCf n = 0 := by
  simp only [Weave.flagsClear, List.all_eq_true, List.mem_range, BitVec.getLsbD_allOnes]
  refine forall₂_congr fun n hn => ?_
  simp [hn]

theorem exec_weaveSlotRelease_ends {wid : Nat} {w : Weave} (hw : s.weave wid = some w) (hlive : w.live = 0)
    (hclear : ∀ n, n < 12 → w.getCf n = 0) : exec (.weaveSlotRelease wid) s = .next { s with
      teams := Tbl.upd s.teams w.team fun t => { t with killed := t.killed || w.killed }
      weaves := Tbl.del s.weaves wid } := by
  rw [exec_weaveSlotRelease, execWeaveSlotRelease, hw]
  dsimp only
  rw [if_neg fun hno => hno.elim (fun h => h hlive) fun h => by rw [w.flagsClear_all.2 hclear] at h; cases h]
  rfl

theorem exec_weaveSlotRelease_stays {wid : Nat} {w : Weave} (hw : s.weave wid = some w)
    (h : w.live ≠ 0 ∨ ∃ n, n < 12 ∧ w.getCf n ≠ 0) : exec (.weaveSlotRelease wid) s = .next s := by
  rw [exec_weaveSlotRelease, execWeaveSlotRelease, hw]
  dsimp only
  refine congrArg _ (if_pos (h.imp id fun ⟨n, hn, hcf⟩ => ?_))
  rw [Bool.not_eq_true', ← Bool.not_eq_true, w.flagsClear_all]
  exact fun hall => hcf (hall n hn)

/-! ### Cohorts -/

/-- A cohort that has ended stays ended, whatever its waiters and held arrivals do. -/
theorem State.endCohort_ends {cid : Nat} {c : Cohort} (hc : s.cohort cid = some c) :
    s.endCohort cid = { s with weaves := (s.endCohort cid).weaves, staging := (s.endCohort cid).staging
                               cohorts := (s.endCohort cid).cohorts
                               fields := Tbl.upd s.fields c.field fun f => { f with left := f.left - 1 } }
      ∧ ∃ c', (s.endCohort cid).cohort cid = some c' ∧ c'.st = .ended := by
  obtain ⟨u, hu⟩ : ∃ u, u = (s.updCohort cid fun c => { c with st := .ended, held := [] }).updField c.field
      fun f => { f with left := f.left - 1 } := ⟨_, rfl⟩
  have huc : u.cohort cid = some { c with st := .ended, held := [] } := by
    rw [hu]
    exact (Tbl.find_upd_self ..).trans (by rw [show Tbl.find s.cohorts cid = some c from hc]; rfl)
  have hend : u.PhaseOnly (s.endCohort cid) := by
    rw [State.endCohort, hc]
    dsimp only
    rw [← hu]
    split
    · exact .refl u
    · exact (State.PhaseOnly.foldl (fun s x => s.phWake_phaseOnly _ _ _ _ _ _) _ u).trans
        (State.PhaseOnly.foldl (fun s op => s.phApply_phaseOnly op) _ _)
  refine ⟨?_, hend.stands cid _ huc⟩
  conv_lhs => rw [hend.rest, hu]
  rfl

/-! ### Teams -/

section Teams

variable {tid : Nat} {e : Env}

theorem State.teamEnv_some (h : s.teamEnv tid = some e) : s.team tid = some e.t ∧ s.cohort e.cid = some e.c := by
  unfold State.teamEnv at h
  split at h
  · cases h
  next ht =>
  split at h
  · cases h
  next hc =>
  split at h
  · cases h
  · cases h
    exact ⟨ht, hc⟩

/-- Has a kill ended threads of a team. -/
def State.teamKilled (s : State) (tid : Nat) (e : Env) : Bool :=
  e.t.killed || someT s.weaves fun _ w => w.team == tid && w.killed

theorem State.teamKilled_iff {e : Env} : s.teamKilled tid e = true
    ↔ e.t.killed = true ∨ ∃ p ∈ s.weaves, p.2.team = tid ∧ p.2.killed = true := by
  simp [State.teamKilled, someT]

/-- A team that has ended, before its cancellation counts it: its part of the tag table is clear, and its scope counts one less. -/
def State.teamOver (s : State) (tid : Nat) (e : Env) : State :=
  (s.updTeam tid fun t => { t with ended := true, stag := [] }).countTeams e.part e.f.scope 1 false

/-- The cancellation that a team's scope is under counts a team that it has killed (R91). -/
def State.countKilled (s u : State) (tid : Nat) (e : Env) : State :=
  if s.teamKilled tid e && u.cancelling e.part e.f.scope then
    match (u.scopeEnt e.part (handleId e.f.scope)).byOp with
    | some c => { u with cancels := Tbl.upd u.cancels c fun x => { x with killed := x.killed + 1 } }
    | none => u
  else u

/-- A team that has ended, counted. -/
def State.teamGone (s : State) (tid : Nat) (e : Env) : State := s.countKilled (s.teamOver tid e) tid e

theorem exec_teamEnd_ends (he : s.teamEnv tid = some e) (hended : e.t.ended = false)
    (hlive : ∀ p ∈ s.weaves, p.2.team = tid → p.2.live = 0) (hreqs : ∀ p ∈ s.mxReqs, p.2.team ≠ tid) :
    exec (.teamEnd tid) s = .next (if someT (s.teamGone tid e).teams fun _ t => t.cohort == e.cid && !t.ended
      then s.teamGone tid e else (s.teamGone tid e).endCohort e.cid) := by
  have hw : (someT s.weaves fun _ w => w.team == tid && w.live != 0) = false := by
    rw [someT, List.any_eq_false]
    intro p hp hno
    simp only [Bool.and_eq_true, beq_iff_eq, bne_iff_ne] at hno
    exact hno.2 (hlive p hp hno.1)
  have hq : (someT s.mxReqs fun _ q => q.team == tid) = false := by
    rw [someT, List.any_eq_false]
    exact fun p hp hno => hreqs p hp (beq_iff_eq.1 hno)
  rw [exec_teamEnd, execTeamEnd, he]
  dsimp only
  rw [hended, hw, hq]
  rfl

/-- All that the end of a team changes, its cohort's end apart. -/
theorem State.teamGone_eq (s : State) (tid : Nat) (e : Env) : s.teamGone tid e = { s with
    teams := Tbl.upd s.teams tid fun t => { t with ended := true, stag := [] }
    parts := (s.teamOver tid e).parts, cancels := (s.teamGone tid e).cancels } := by
  unfold State.teamGone State.countKilled
  split
  · split <;> rfl
  · rfl

theorem State.teamOver_scopeEnt (s : State) (tid : Nat) (e : Env) :
    (s.teamOver tid e).scopeEnt e.part (handleId e.f.scope)
      = { s.scopeEnt e.part (handleId e.f.scope) with teams := (s.scopeEnt e.part (handleId e.f.scope)).teams - 1 } :=
  (State.scopeEnt_updScope ..).trans (if_pos ⟨rfl, rfl⟩)

theorem State.teamOver_cancelling (s : State) (tid : Nat) (e : Env) :
    (s.teamOver tid e).cancelling e.part e.f.scope = s.cancelling e.part e.f.scope := by
  rw [State.teamOver, State.countTeams_cancelling]
  rfl

theorem State.teamGone_cancels {n : Nat} {x : Cancel} (hkilled : s.teamKilled tid e = true)
    (hcan : s.cancelling e.part e.f.scope = true) (hby : (s.scopeEnt e.part (handleId e.f.scope)).byOp = some n)
    (hx : Tbl.find s.cancels n = some x) :
    Tbl.find (s.teamGone tid e).cancels n = some { x with killed := x.killed + 1 } := by
  have hby' : ((s.teamOver tid e).scopeEnt e.part (handleId e.f.scope)).byOp = some n := by
    rw [State.teamOver_scopeEnt]
    exact hby
  rw [State.teamGone, State.countKilled, hkilled, State.teamOver_cancelling, hcan, hby']
  exact (Tbl.find_upd_self ..).trans (by rw [show Tbl.find (s.teamOver tid e).cancels n = some x from hx]; rfl)

/-- Teams of a cohort still run where one of the others has not ended. -/
theorem State.teamGone_others (ht : s.team tid = some e.t) :
    (someT (s.teamGone tid e).teams fun _ t => t.cohort == e.cid && !t.ended) = true
      ↔ ∃ p ∈ s.teams, p.1 ≠ tid ∧ p.2.cohort = e.cid ∧ p.2.ended = false := by
  rw [show (s.teamGone tid e).teams = _ from congrArg State.teams (s.teamGone_eq tid e), someT, List.any_eq_true]
  simp only [Bool.and_eq_true, beq_iff_eq, Bool.not_eq_true']
  constructor
  · rintro ⟨p, hp, hcid, hended⟩
    rcases Tbl.mem_upd_some ht hp with rfl | ⟨hp, hne⟩
    · cases hended
    · exact ⟨p, hp, hne, hcid, hended⟩
  · rintro ⟨p, hp, hne, hcid, hended⟩
    exact ⟨p, Tbl.mem_upd_of_mem hp hne, hcid, hended⟩

/-- The last team of a cohort ends it; where others still run, the cohorts stand. -/
theorem teamEnd_cohort (he : s.teamEnv tid = some e) (hended : e.t.ended = false)
    (hlive : ∀ p ∈ s.weaves, p.2.team = tid → p.2.live = 0) (hreqs : ∀ p ∈ s.mxReqs, p.2.team ≠ tid) :
    ∃ t, exec (.teamEnd tid) s = .next t
      ∧ t = { s.teamGone tid e with weaves := t.weaves, staging := t.staging, cohorts := t.cohorts, fields := t.fields }
      ∧ ((∃ p ∈ s.teams, p.1 ≠ tid ∧ p.2.cohort = e.cid ∧ p.2.ended = false) → t.cohorts = s.cohorts)
      ∧ ((∀ p ∈ s.teams, p.1 ≠ tid → p.2.cohort = e.cid → p.2.ended = true) → ∃ c, t.cohort e.cid = some c ∧ c.st = .ended) := by
  obtain ⟨ht, hc⟩ := State.teamEnv_some he
  have hothers := State.teamGone_others (e := e) ht
  have hcohorts : (s.teamGone tid e).cohorts = s.cohorts := by rw [s.teamGone_eq]
  refine ⟨_, exec_teamEnd_ends he hended hlive hreqs, ?_⟩
  split
  · next hsome =>
    refine ⟨rfl, fun _ => hcohorts, fun hall => ?_⟩
    obtain ⟨p, hp, hne, hcid, hrun⟩ := hothers.1 hsome
    exact absurd (hall p hp hne hcid) (by simp [hrun])
  · next hnone =>
    obtain ⟨hrest, hends⟩ := State.endCohort_ends (s := s.teamGone tid e) (cid := e.cid) (c := e.c) (by
      rw [State.cohort, hcohorts]
      exact hc)
    refine ⟨?_, fun hsome => absurd (hothers.2 hsome) hnone, fun _ => hends⟩
    conv_lhs => rw [hrest]
    rw [hrest]

end Teams

/-! ### Fields -/

section Fields

variable {f : Field} {by_ : Option Nat}

/-- What is to be voided of an ended field in one context. -/
def Field.voidIn (f : Field) (by_ : Option Nat) (now : Nat) (d : KvDesc) : Void where
  part := f.part
  desc := d
  field := f.number
  cohort := none
  scope := f.scope
  cancel := by_
  report := by_.isNone
  count := 0
  at_ := now
  fault := none

/-- A void of an ended field is asked for. -/
def State.askVoid (f : Field) (by_ : Option Nat) (s : State) (d : KvDesc) : State :=
  { s with nextId := s.nextId + 1, voids := Tbl.put s.voids s.nextId (f.voidIn by_ s.clock d) }

/-- Voids asked for in turn take names of their own. -/
theorem State.askVoids_spec (f : Field) (by_ : Option Nat) (ds : List KvDesc) (s : State) :
    ds.foldl (State.askVoid f by_) s = { s with
        voids := (ds.foldl (State.askVoid f by_) s).voids, nextId := (ds.foldl (State.askVoid f by_) s).nextId }
      ∧ (∀ n, n < s.nextId → Tbl.find (ds.foldl (State.askVoid f by_) s).voids n = Tbl.find s.voids n)
      ∧ ∀ d ∈ ds, ∃ n, Tbl.find (ds.foldl (State.askVoid f by_) s).voids n = some (f.voidIn by_ s.clock d) := by
  induction ds generalizing s with
  | nil => exact ⟨rfl, fun _ _ => rfl, fun _ h => nomatch h⟩
  | cons d ds ih =>
    obtain ⟨hrest, hold, hnew⟩ := ih (State.askVoid f by_ s d)
    rw [List.foldl_cons]
    refine ⟨by rw [hrest]; rfl, fun n hn => ?_, fun x hx => ?_⟩
    · exact (hold n (Nat.lt_succ_of_lt hn)).trans (Tbl.find_put_other _ _ (Nat.ne_of_lt hn))
    · rcases List.mem_cons.1 hx with rfl | hx
      · exact ⟨s.nextId, (hold s.nextId (Nat.lt_succ_self _)).trans (Tbl.find_put_self ..)⟩
      · exact hnew x hx

/-- The contexts in which a field may hold an open reservation. -/
def State.owing (s : State) (f : Field) : List KvDesc :=
  s.ctxs.filterMap fun (k, c) => if k / 2 ^ 64 == f.part && s.mayOwe f.part c.desc f.number then some c.desc else none

theorem State.mem_owing {k : Nat} {x : CtxRec} (hx : (k, x) ∈ s.ctxs) (hk : k / 2 ^ 64 = f.part)
    (howe : s.mayOwe f.part x.desc f.number = true) : x.desc ∈ s.owing f :=
  List.mem_filterMap.2 ⟨_, hx, if_pos (by rw [hk, howe, beq_self_eq_true]; rfl)⟩

/-- The cancellation that counts the voids of a field. -/
def State.voidsBy (s : State) (f : Field) : Option Nat := f.lastBy.getD (s.cancelOf f.part f.scope)

theorem State.voidIn_spec (s : State) (f : Field) (d : KvDesc) :
    let v := f.voidIn (s.voidsBy f) s.clock d
    v.part = f.part ∧ v.desc = d ∧ v.field = f.number ∧ v.count = 0 ∧ (∀ c, f.lastBy = some c → v.cancel = c)
      ∧ (v.report = true ↔ v.cancel = none) :=
  ⟨rfl, rfl, rfl, rfl, fun c hc => by simp [Field.voidIn, State.voidsBy, hc], Option.isNone_iff_eq_none⟩

/-- A field marked as ended, and its voids asked for. -/
def State.fieldOver (s : State) (fid : Nat) (f : Field) : State :=
  (s.owing f).foldl (State.askVoid f (s.voidsBy f)) (s.updField fid fun f => { f with ended := true })

theorem State.fieldOver_spec {fid : Nat} (hf : s.field fid = some f) :
    s.fieldOver fid f = { s with
        fields := (s.fieldOver fid f).fields, voids := (s.fieldOver fid f).voids, nextId := (s.fieldOver fid f).nextId }
      ∧ (s.fieldOver fid f).field fid = some { f with ended := true }
      ∧ ∀ k x, (k, x) ∈ s.ctxs → k / 2 ^ 64 = f.part → s.mayOwe f.part x.desc f.number = true →
        ∃ n, Tbl.find (s.fieldOver fid f).voids n = some (f.voidIn (s.voidsBy f) s.clock x.desc) := by
  obtain ⟨hrest, -, hnew⟩ := State.askVoids_spec f (s.voidsBy f) (s.owing f) (s.updField fid fun f => { f with ended := true })
  refine ⟨?_, ?_, fun k x hx hk howe => hnew _ (State.mem_owing hx hk howe)⟩
  · rw [State.fieldOver, hrest]
    rfl
  · rw [State.fieldOver, State.field, hrest]
    exact (Tbl.find_upd_self ..).trans (by rw [show Tbl.find s.fields fid = some f from hf]; rfl)

theorem exec_fieldEnd_ends {fid : Nat} (hf : s.field fid = some f) (hdone : s.fieldDone f = true) :
    exec (.fieldEnd fid) s = .next (if someT s.cohorts fun _ x => x.field == fid then s.fieldOver fid f
      else { s.fieldOver fid f with fields := Tbl.del (s.fieldOver fid f).fields fid }) := by
  have hcohorts : (s.fieldOver fid f).cohorts = s.cohorts := by
    rw [State.fieldOver, (State.askVoids_spec f (s.voidsBy f) (s.owing f) _).1]
    rfl
  rw [exec_fieldEnd, execFieldEnd, hf]
  dsimp only
  rw [hdone, ← hcohorts]
  rfl

end Fields

/-- Settles O44: a weave, a team with its cohort, and a field each end by the step of their own. -/
theorem endings : Obligations.Endings := by
  intro s
  refine ⟨fun wid w hw => ⟨fun hlive hclear => ?_, exec_weaveSlotRelease_stays hw⟩,
    fun tid e he hended hlive hreqs => ?_, fun fid f hf hdone => ?_⟩
  · exact ⟨_, exec_weaveSlotRelease_ends hw hlive hclear, rfl, (Tbl.find_del ..).trans (if_pos rfl),
      fun n hn => (Tbl.find_del ..).trans (if_neg hn)⟩
  · obtain ⟨ht, -⟩ := State.teamEnv_some he
    obtain ⟨t, hexec, hrest, hothers, hlast⟩ := teamEnd_cohort he hended hlive hreqs
    have hteams : t.teams = Tbl.upd s.teams tid fun t => { t with ended := true, stag := [] } := by rw [hrest, s.teamGone_eq]
    have hparts : t.parts = (s.teamOver tid e).parts := by rw [hrest, s.teamGone_eq]
    have hcancels : t.cancels = (s.teamGone tid e).cancels := by rw [hrest]
    refine ⟨t, _, hexec, ?_, rfl, ?_, hothers, hlast, fun n x hkilled hcan hby hx =>
      ⟨{ x with killed := x.killed + 1 }, ?_, rfl⟩⟩
    · rw [State.team, hteams]
      exact (Tbl.find_upd_self ..).trans (by rw [show Tbl.find s.teams tid = some e.t from ht]; rfl)
    · rw [State.scopeEnt_congr hparts, State.teamOver_scopeEnt]
    · rw [hcancels]
      exact State.teamGone_cancels (State.teamKilled_iff.2 hkilled) hcan hby hx
  · have hend := exec_fieldEnd_ends hf hdone
    obtain ⟨hrest, hfield, hvoids⟩ := State.fieldOver_spec hf
    split at hend
    · next hsome =>
      refine ⟨_, hend, fun g hg => Option.some.inj (hg.symm.trans hfield), hrest, fun hnone => ?_, fun k x hx hk howe => ?_⟩
      · obtain ⟨p, hp, hfid⟩ := List.any_eq_true.1 hsome
        exact absurd (beq_iff_eq.1 hfid) (hnone p hp)
      · obtain ⟨n, hn⟩ := hvoids k x hx hk howe
        exact ⟨n, _, hn, s.voidIn_spec f x.desc⟩
    · have hdel : Tbl.find (Tbl.del (s.fieldOver fid f).fields fid) fid = none := (Tbl.find_del ..).trans (if_pos rfl)
      refine ⟨_, hend, fun g hg => ?_, ?_, fun _ => hdel, fun k x hx hk howe => ?_⟩
      · exact absurd (hg.symm.trans hdel) (by simp)
      · conv_lhs => rw [hrest]
      · obtain ⟨n, hn⟩ := hvoids k x hx hk howe
        exact ⟨n, _, hn, s.voidIn_spec f x.desc⟩

end Sys2Proof.Machine
end

section
/-! The last request of a batch that owns a request at a peer, withdrawn for a save (R236, R265). -/

namespace Sys2Proof.Machine

open Sys2Proof

/-- A request of the stray team that waits in batch 5. -/
def withdrawnReq : MxReq where
  team := 2
  part := 0
  scopeH := 0
  cg := 0
  cv := 0
  snap := { attn := false, words := [], caps := [] }
  desc := none
  mask := none
  signers := []
  st := .queued
  batch := some 5
  cancelled := false
  submittedAt := 0
  arrival := 0
  rowsRead := []
  fault := none

/-- The batch of that request alone, still open. -/
def lastBatch : Batch where
  cg := 0
  reqs := [4]
  closeAt := 0
  closed := false
  passed := 0
  core := none
  got := []
  tile := []
  pc := none
  seen := []
  fault := none

/-- A read of that batch at peer 1, without an answer yet. -/
def batchLeg : Leg where
  owner := .batch 5
  scopeH := 0
  peer := 1
  pkt := { srcPhys := 0, srcPart := 0, dstPart := 0, cls := .om, scope := .dom, rel := false, acq := false
           ident := State.reset.deviceIdent 0, accs := [], flag := none, path := .mx, session := 0 }
  heard := 0
  answer := none

/-- A halting cohort at rest: its one team has one request, in a batch of its own. It is a state of the model's type, not one that a
run is meant to reach: the batch has not been dispatched and has asked a peer all the same. -/
def withdrawalState : State :=
  { State.reset with
    fields := [(0, strayField)]
    cohorts := [(1, { strayCohort with st := .halting })]
    teams := [(2, strayTeam)]
    mxReqs := [(4, withdrawnReq)]
    batches := [(5, lastBatch)]
    legs := [(6, batchLeg)] }

theorem withdrawalState_quiesced : withdrawalState.quiesced 1 = true := by decide +kernel

/-- The withdrawal leaves the batch empty; it goes, and its request at the peer is nobody's. -/
theorem cohortQuiesced_withdrawalState :
    (match exec (.cohortQuiesced 1) withdrawalState with
      | .next t => t.legs.any fun e => e.2.owner == .nobody
      | _ => false) = true := by decide +kernel

/-- Refutes O45: `withdrawalState` passes to the save with a change in the table of requests at peers, which the statement's frame of
that step leaves out. The statement takes every state, also one whose waiting batch has asked a peer; of the other states, and of
the other steps of pre-emption, this says nothing. -/
theorem not_preemption : ¬ Obligations.Preemption := by
  unfold Obligations.Preemption
  intro h
  obtain ⟨-, -, hquiesced, -⟩ := h withdrawalState
  obtain ⟨t, hexec, ht, -⟩ := (hquiesced 1 _ rfl).1 rfl withdrawalState_quiesced
  have hlegs : t.legs = withdrawalState.legs := by rw [ht]
  have hleg := cohortQuiesced_withdrawalState
  simp only [hexec, hlegs] at hleg
  exact absurd hleg (by decide)

end Sys2Proof.Machine
end

section
/-! The special registers, NOP and KPOINT (R92, R119–R121, R313, R326, R328, R329). -/

namespace Sys2Proof.Machine

open Sys2Proof

/-! ### SREG (R119 Table 6, R120, R328) -/

section Sreg

variable {st : State} {x : Ctx} {h : Hd} {d : Nat}

theorem exec_sreg_tid (hi : st.Issues (.sreg h 0 d) x) : exec (.sreg h 0 d) st
    = .next ((Res.done (x.putV d fun l => BitVec.ofNat 32 (x.w.idx * 32 + l))).apply x (.sreg h 0 d)) :=
  hi.exec_eq (exec_sreg ..)

theorem exec_sreg_uniform {num : BitVec 4} (hnum : num ≠ 0) (hi : st.Issues (.sreg h num d) x) : exec (.sreg h num d) st
    = .next ((Res.done (x.putS d (x.sregVal num.toNat))).apply x (.sreg h num d)) := by
  rw [hi.exec_eq (exec_sreg ..), if_neg hnum]

/-- The bits of WSTAT that hold the progress index as it is read. -/
theorem getLsbD_progressMask (b : Nat) : (0xFFFF00000000#64).getLsbD b = (decide (32 ≤ b) && decide (b < 48)) := by
  rw [BitVec.getLsbD_ofNat, show 0xFFFF00000000 = (2 ^ 16 - 1) * 2 ^ 32 from rfl, Nat.testBit_mul_two_pow,
    Nat.testBit_two_pow_sub_one, Bool.eq_iff_iff]
  simp only [Bool.and_eq_true, decide_eq_true_eq]
  omega

/-- The low half of WSTAT as it is read holds the weave's own bits. -/
theorem Ctx.wstatVal_low (x : Ctx) {b : Nat} (hb : b < 32) : x.wstatVal.getLsbD b = x.w.wstat.getLsbD b := by
  have hprog : (w64 (x.progress % 2 ^ 16 * 2 ^ 32)).getLsbD b = false := by
    rw [w64, BitVec.getLsbD_ofNat, Nat.testBit_mul_two_pow]
    simp [show ¬ 32 ≤ b by omega]
  rw [Ctx.wstatVal, BitVec.getLsbD_or, BitVec.getLsbD_and, BitVec.getLsbD_not, getLsbD_progressMask, hprog]
  simp [show b < 64 by omega, show ¬ 32 ≤ b by omega]

/-- Bits 32 to 47 of WSTAT as it is read are the progress index. -/
theorem Ctx.wstatVal_progress (x : Ctx) {b : Nat} (hb : b < 16) : x.wstatVal.getLsbD (32 + b) = x.progress.testBit b := by
  rw [Ctx.wstatVal, BitVec.getLsbD_or, BitVec.getLsbD_and, BitVec.getLsbD_not, getLsbD_progressMask, w64,
    BitVec.getLsbD_ofNat, Nat.testBit_mul_two_pow, Nat.testBit_mod_two_pow]
  simp [hb, show 32 + b < 64 by omega, show 32 + b < 48 by omega]

end Sreg

/-! ### SWREG (R121, R329) -/

/-- The sticky bits that SWREG may clear. -/
theorem getLsbD_sticky (b : Nat) : (0x17#64).getLsbD b = (b == 0 || b == 1 || b == 2 || b == 4) := by
  by_cases hb : b < 5
  · interval_cases b <;> rfl
  · rw [BitVec.getLsbD_ofNat, Nat.testBit_lt_two_pow (lt_of_lt_of_le (by decide) (Nat.pow_le_pow_right (by decide) (not_lt.1 hb)))]
    simp
    omega

/-- The weave after SWREG. -/
def Weave.clearSticky (w : Weave) (a : Nat) : Weave := { w with wstat := w.wstat &&& ~~~(w.getS a &&& 0x17) }

theorem Weave.clearSticky_bit (w : Weave) (a b : Nat) : (w.clearSticky a).wstat.getLsbD b
    = (w.wstat.getLsbD b && !((b == 0 || b == 1 || b == 2 || b == 4) && (w.getS a).getLsbD b)) := by
  show (w.wstat &&& ~~~(w.getS a &&& 0x17#64)).getLsbD b = _
  rw [BitVec.getLsbD_and, BitVec.getLsbD_not, BitVec.getLsbD_and, getLsbD_sticky, Bool.and_comm ((w.getS a).getLsbD b)]
  by_cases hb : b < 64
  · rw [decide_eq_true hb, Bool.true_and]
  · rw [BitVec.getLsbD_of_ge w.wstat b (not_lt.1 hb), Bool.false_and, Bool.false_and]

theorem Weave.clearSticky_other (w : Weave) (a : Nat) {b : Nat} (hb : b ∉ [0, 1, 2, 4]) :
    (w.clearSticky a).wstat.getLsbD b = w.wstat.getLsbD b := by
  have hno : (b == 0 || b == 1 || b == 2 || b == 4) = false := by simpa [and_assoc] using hb
  rw [Weave.clearSticky_bit, hno, Bool.false_and, Bool.not_false, Bool.and_true]

theorem Weave.sameBut_clearSticky (w : Weave) (a : Nat) : w.SameBut (w.clearSticky a) :=
  ⟨rfl, rfl, rfl, rfl, rfl, rfl, rfl, rfl, rfl, rfl, rfl, rfl, rfl, rfl⟩

/-! ### Each instruction -/

theorem completes_nop (h : Hd) : Completes (.nop h) [] [] [] [] [] fun _ _ => True :=
  fun _ _ hi => ⟨_, _, hi.exec_eq (exec_nop ..), Ctx.only_done hi.1, trivial⟩

theorem completes_sreg_tid (h : Hd) (d : Nat) : Completes (.sreg h 0 d) (destV false d) [] [] [] [] fun x w =>
    d ≠ 255 → ∀ l, l < 32 → x.act.has l = true → w.getV d l = BitVec.ofNat 32 (x.w.idx * 32 + l) := by
  intro st x hi
  obtain ⟨w, honly, hv⟩ := Ctx.only_putV hi.1 d fun l => BitVec.ofNat 32 (x.w.idx * 32 + l)
  exact ⟨_, w, exec_sreg_tid hi, honly, fun hd l hl hact => hv l hl hact hd⟩

theorem completes_sreg_uniform (h : Hd) {num : BitVec 4} (d : Nat) (hnum : num ≠ 0) :
    Completes (.sreg h num d) [] [d] [] [] [] fun x w =>
      w.getS d = if x.act = 0 then x.w.getS d else x.sregVal num.toNat := by
  intro st x hi
  obtain ⟨w, honly, hs⟩ := Ctx.only_putS hi.1 d (x.sregVal num.toNat)
  exact ⟨_, w, exec_sreg_uniform hnum hi, honly, hs⟩

theorem completes_swreg (h : Hd) (a : Nat) : Completes (.swreg h a) [] [] [] [] [0, 1, 2, 4] fun x w =>
    w.wstat = (x.w.clearSticky a).wstat :=
  fun _ x hi => ⟨_, _, hi.exec_eq (exec_swreg ..), Ctx.only_of hi.1 (fun w => w.clearSticky a) (x.w.sameBut_clearSticky a)
    _ _ _ _ _ (fun _ _ _ _ => rfl) (fun _ _ => rfl) (fun _ _ _ _ => rfl) (fun _ _ => rfl)
    fun _ hb => x.w.clearSticky_other a hb, rfl⟩

/-- What completes with a property completes with each that follows from it. -/
theorem Completes.imp {i : Instr} {v s p k sticky : List Nat} {P Q : Ctx → Weave → Prop} (h : Completes i v s p k sticky P)
    (hPQ : ∀ x w, P x w → Q x w) : Completes i v s p k sticky Q := by
  intro st x hi
  obtain ⟨t, w, hexec, honly, hP⟩ := h st x hi
  exact ⟨t, w, hexec, honly, hPQ x w hP⟩

section Kpoint

variable {st : State} {x : Ctx} {h : Hd}

theorem exec_kpoint_due (hi : st.Issues (.kpoint h) x) (hdue : st.killDue x.e = true) :
    exec (.kpoint h) st = .next (st.endThreads x.e.wid x.g.lanes (st.envCancelling x.e)) := by
  obtain ⟨rfl, -⟩ := State.ctx_weave hi.1
  rw [hi.exec_eq (exec_kpoint ..), if_pos hdue]
  rfl

theorem exec_kpoint_passes (hi : st.Issues (.kpoint h) x) (hdue : st.killDue x.e = false) :
    exec (.kpoint h) st = .next (st.onGroup x.c fun g =>
      { g.advance x.c x.h.bnd [] with sleep := .awake, port := false }) := by
  obtain ⟨rfl, -⟩ := State.ctx_weave hi.1
  rw [hi.exec_eq (exec_kpoint ..), hdue, if_neg Bool.false_ne_true]
  rfl

end Kpoint

/-- Settles O19: each instruction by what its own entry writes; SREG by the value that Table 6 gives the register's number. -/
theorem systemRegisters : Obligations.SystemRegisters := by
  intro h num d
  refine ⟨completes_nop h, completes_sreg_tid h d, fun hnum => (completes_sreg_uniform h d hnum).imp fun x w hs => ?_,
    (completes_swreg h d).imp fun x w hw b _ => by rw [hw, Weave.clearSticky_bit], fun st x hi => ⟨?_, fun hdue => ?_⟩⟩
  · intro r
    refine ⟨fun hact => hs.trans (if_pos hact), fun hact => ?_⟩
    rw [hs, if_neg hact]
    have hteams (hpos : 0 < r.teams) : Nat.max 1 r.teams = r.teams := Nat.max_eq_right hpos
    refine ⟨fun hn hpos => ?tnum, fun hn => ?_, fun hn hpos => ?stage, fun hn => ?_, fun hn => ?_, fun hn => ?_, fun hn => ?_,
      fun hn => ?_, fun hn b hb => ?wstat, fun hn => ?_, fun hn => ?_, fun hn => ?_, fun hn => ?_, fun hn => ?_, fun hn => ?_⟩
    all_goals subst hn
    case tnum => exact congrArg (fun n => w64 (x.e.t.num % n)) (hteams hpos)
    case stage => exact congrArg (fun n => w64 (x.e.t.num / n)) (hteams hpos)
    case wstat => exact ⟨x.wstatVal_low hb, fun hb => x.wstatVal_progress hb⟩
    all_goals rfl
  · exact exec_kpoint_passes hi
  · obtain ⟨hissuer, -⟩ := State.ctx_some hi.1
    obtain ⟨-, henv, -⟩ := State.issuer_some hissuer
    have hwid : x.e.wid = x.c.weave := (State.env_some henv).1
    exact ⟨_, exec_kpoint_due hi hdue, State.endThreads_ended (hwid ▸ henv) x.g.lanes (st.envCancelling x.e)⟩

end Sys2Proof.Machine
end

section
/-! A drained cancellation (R95–R97): its record, its flag, the CWAITs that it wakes and the entries that it frees. -/

namespace Sys2Proof.Machine

open Sys2Proof

/-! ### CWAITs answered in turn -/

/-- What the answers 0 to scope operations leave of a weave: which threads take a status, which groups are halted, and zeros. -/
structure Weave.Answers (w w' : Weave) : Prop where
  takes : ∀ ls, w'.takes ls = w.takes ls
  halted : ∀ gid, (w'.group gid).map (·.halted) = (w.group gid).map (·.halted)
  zero : ∀ d, w.getS d = 0 → w'.getS d = 0

theorem Weave.Answers.refl (w : Weave) : w.Answers w := ⟨fun _ => rfl, fun _ => rfl, fun _ h => h⟩

theorem Weave.Answers.trans {a b c : Weave} (h : a.Answers b) (h' : b.Answers c) : a.Answers c where
  takes ls := (h'.takes ls).trans (h.takes ls)
  halted gid := (h'.halted gid).trans (h.halted gid)
  zero d hd := h'.zero d (h.zero d hd)

theorem Weave.getS_answered (w : Weave) (id : Nat) (o : ScopeOp) (v : W64) (d : Nat) :
    (w.answered id o v).getS d = if w.takes o.lanes = true ∧ d = o.d then v else w.getS d := by
  rw [Weave.answered, Weave.countDown_eq]
  split
  · next ht => exact (Weave.getS_setS ..).trans (by simp only [ht, true_and])
  · next ht => exact (if_neg fun h => ht h.1).symm

theorem Weave.takes_answered (w : Weave) (id : Nat) (o : ScopeOp) (v : W64) (ls : Lanes) :
    (w.answered id o v).takes ls = w.takes ls := by
  rw [Weave.answered, Weave.countDown_eq]
  split <;> rfl

/-- An answer wakes groups, and halts none and lets none of them go on. -/
theorem Weave.halted_answered (w : Weave) (id : Nat) (o : ScopeOp) (v : W64) (gid : Nat) :
    ((w.answered id o v).group gid).map (·.halted) = (w.group gid).map (·.halted) := by
  obtain ⟨f, hf, hgid, hhalted⟩ : ∃ f : Group → Group, (w.answered id o v).groups = w.groups.map f
      ∧ (∀ g, (f g).gid = g.gid) ∧ ∀ g, (f g).halted = g.halted := by
    refine ⟨fun g => if g.gid == o.gid then (if g.sleep = .scope id then { g with sleep := .awake } else g) else g, ?_,
      fun g => ?_, fun g => ?_⟩
    · rw [Weave.answered, Weave.countDown_eq]
      split <;> rfl
    all_goals
      dsimp only
      split
      · split <;> rfl
      · rfl
  have hsame : (fun g : Group => g.gid == gid) ∘ f = fun g => g.gid == gid := funext fun g => by simp [hgid]
  have hkept : (fun g : Group => g.halted) ∘ f = fun g => g.halted := funext hhalted
  rw [Weave.group, hf, List.find?_map, hsame, Option.map_map, hkept, Weave.group]

theorem Weave.answers_answered (w : Weave) (id : Nat) (o : ScopeOp) : w.Answers (w.answered id o 0) where
  takes := w.takes_answered id o 0
  halted := w.halted_answered id o 0
  zero d hd := by
    rw [Weave.getS_answered, hd, ite_self]

/-- Scope operations have been answered with 0: they are gone from the table, and nothing is entered there. -/
structure State.Answers (s t : State) : Prop where
  rest : t = { s with staging := t.staging, weaves := t.weaves, scopeOps := t.scopeOps }
  gone : ∀ k, Tbl.find s.scopeOps k = none → Tbl.find t.scopeOps k = none
  weave : ∀ n, ∃ f : Weave → Weave, t.weave n = (s.weave n).map f ∧ ∀ w : Weave, w.Answers (f w)

theorem State.Answers.refl (s : State) : s.Answers s :=
  ⟨rfl, fun _ h => h, fun _ => ⟨id, Option.map_id'.symm, Weave.Answers.refl⟩⟩

theorem State.Answers.trans {s t u : State} (h : s.Answers t) (h' : t.Answers u) : s.Answers u where
  rest := by rw [h'.rest, h.rest]
  gone k hk := h'.gone k (h.gone k hk)
  weave n := by
    obtain ⟨f, hf, hw⟩ := h.weave n
    obtain ⟨g, hg, hw'⟩ := h'.weave n
    exact ⟨g ∘ f, by rw [hg, hf, Option.map_map], fun w => (hw w).trans (hw' (f w))⟩

theorem State.opHalted_eq (s : State) (o : ScopeOp) :
    s.opHalted o = (((s.weave o.weave).bind fun w => (w.group o.gid).map (·.halted))).getD false := by
  unfold State.opHalted
  cases s.weave o.weave with
  | none => rfl
  | some w =>
    dsimp only [Option.bind_some]
    cases w.group o.gid <;> rfl

theorem State.Answers.opHalted {s t : State} (h : s.Answers t) (o : ScopeOp) : t.opHalted o = s.opHalted o := by
  obtain ⟨f, hf, hw⟩ := h.weave o.weave
  rw [State.opHalted_eq, State.opHalted_eq, hf]
  cases s.weave o.weave with
  | none => rfl
  | some w => exact congrArg (Option.getD · false) ((hw w).halted o.gid)

/-- A CWAIT is answered with 0, unless its group is halted: a step of the fold in `State.endCancel`. -/
def State.answerWait (s : State) (e : Nat × ScopeOp) : State :=
  if s.opHalted e.2 then s else s.finishScope e.1 e.2 0 true

/-- A CWAIT has its answer, or its group is halted. -/
def State.WaitDone (t : State) (e : Nat × ScopeOp) : Prop := t.opHalted e.2 = false → Tbl.find t.scopeOps e.1 = none
  ∧ ∀ w, t.weave e.2.weave = some w → w.takes e.2.lanes = true → w.getS e.2.d = 0

theorem State.finishScope_answers (s : State) (id : Nat) (o : ScopeOp) : s.Answers (s.finishScope id o 0 true) where
  rest := rfl
  gone k hk := by
    rw [State.finishScope_eq, Tbl.find_del, hk, ite_self]
  weave n := by
    have hweave : (s.finishScope id o 0 true).weave n
        = if n = o.weave then (s.weave n).map fun w => w.answered id o 0 else s.weave n := by
      rw [State.finishScope_eq]
      refine (Tbl.find_upd ..).trans ?_
      split
      · next h => rw [h]; rfl
      · rfl
    by_cases hn : n = o.weave
    · exact ⟨_, hweave.trans (if_pos hn), fun w => w.answers_answered id o⟩
    · exact ⟨fun w => w, hweave.trans ((if_neg hn).trans Option.map_id'.symm), Weave.Answers.refl⟩

theorem State.answerWait_answers (s : State) (e : Nat × ScopeOp) : s.Answers (s.answerWait e) := by
  unfold State.answerWait
  split
  · exact .refl s
  · exact s.finishScope_answers e.1 e.2

theorem State.Answers.waitDone {s t : State} {e : Nat × ScopeOp} (h : s.Answers t) (hdone : s.WaitDone e) : t.WaitDone e := by
  intro hrun
  obtain ⟨hgone, hzero⟩ := hdone (h.opHalted e.2 ▸ hrun)
  refine ⟨h.gone e.1 hgone, fun w' hw' htakes => ?_⟩
  obtain ⟨f, hf, hans⟩ := h.weave e.2.weave
  obtain ⟨w, hw, rfl⟩ := Option.map_eq_some_iff.1 (hf.symm.trans hw')
  exact (hans w).zero _ (hzero w hw ((hans w).takes _ ▸ htakes))

theorem State.answerWait_waitDone (s : State) (e : Nat × ScopeOp) : (s.answerWait e).WaitDone e := by
  intro hrun
  have hrun' : s.opHalted e.2 = false := (s.answerWait_answers e).opHalted e.2 ▸ hrun
  have hstep : s.answerWait e = s.finishScope e.1 e.2 0 true := by
    rw [State.answerWait, hrun', if_neg Bool.false_ne_true]
  rw [hstep, State.finishScope_eq]
  refine ⟨(Tbl.find_del ..).trans (if_pos rfl), fun w' hw' htakes => ?_⟩
  obtain ⟨w, -, rfl⟩ := Option.map_eq_some_iff.1 ((Tbl.find_upd_self ..).symm.trans hw')
  rw [Weave.takes_answered] at htakes
  rw [Weave.getS_answered, if_pos ⟨htakes, rfl⟩]

/-- CWAITs answered in turn: each is done in the end. -/
theorem State.answerWaits_spec (s : State) (l : List (Nat × ScopeOp)) :
    s.Answers (l.foldl State.answerWait s) ∧ ∀ e ∈ l, (l.foldl State.answerWait s).WaitDone e :=
  foldl_forall_mem .refl .trans State.answerWait_answers (P := fun e t => t.WaitDone e) State.answerWait_waitDone
    State.Answers.waitDone l s

/-! ### The entries become free -/

/-- A free entry that keeps the generation of its last scope (R96). -/
def ScopeEnt.freed (e : ScopeEnt) : ScopeEnt := { ScopeEnt.free with gen := e.gen }

/-- Entries freed in turn: freeing an entry again leaves it as it is. -/
theorem State.scopeEnt_foldl_freed (part : Nat) (l : List Nat) (s : State) (n : Nat) :
    (l.foldl (fun (s : State) i => s.updScope part i ScopeEnt.freed) s).scopeEnt part n
      = if n ∈ l then (s.scopeEnt part n).freed else s.scopeEnt part n := by
  induction l generalizing s with
  | nil => rfl
  | cons i l ih =>
    rw [List.foldl_cons, ih, State.scopeEnt_updScope]
    by_cases hn : n = i
    · subst hn
      by_cases hl : n ∈ l <;> simp [hl, ScopeEnt.freed]
    · simp [hn]

theorem State.foldl_freed_rest (part : Nat) (l : List Nat) (s : State) :
    l.foldl (fun (s : State) i => s.updScope part i ScopeEnt.freed) s
      = { s with parts := (l.foldl (fun (s : State) i => s.updScope part i ScopeEnt.freed) s).parts } := by
  induction l generalizing s with
  | nil => rfl
  | cons i l ih =>
    rw [List.foldl_cons, ih]
    rfl

/-! ### The end of a cancellation -/

section End

variable (s : State) (id : Nat) (c : Cancel)

/-- The CWAITs that the end of a cancellation answers. -/
def State.cancelWaits : List (Nat × ScopeOp) :=
  let hs := c.marked.map fun i => (s.handleAt c.part i).setWidth 64
  s.scopeOps.filter fun e => e.2.part == c.part && e.2.asleep && (match e.2.kind with
    | .cwait h => hs.contains h
    | _ => false)

theorem State.mem_cancelWaits {k n : Nat} {q : ScopeOp} (hmem : (k, q) ∈ s.scopeOps) (hpart : q.part = c.part)
    (hasleep : q.asleep = true) (hkind : q.kind = .cwait ((s.handleAt c.part n).setWidth 64)) (hn : n ∈ c.marked) :
    (k, q) ∈ s.cancelWaits c := by
  refine List.mem_filter.2 ⟨hmem, ?_⟩
  rw [hpart, hasleep, hkind, beq_self_eq_true, Bool.true_and, Bool.true_and]
  exact List.contains_iff_mem.2 (List.mem_map.2 ⟨n, hn, rfl⟩)

/-- The state once the CWAITs of a cancellation are answered. -/
def State.woken : State := (s.cancelWaits c).foldl State.answerWait s

theorem State.endCancel_eq : s.endCancel id c = { s with
    staging := (s.woken c).staging, weaves := (s.woken c).weaves, scopeOps := (s.woken c).scopeOps
    parts := (c.marked.foldl (fun (s : State) i => s.updScope c.part i ScopeEnt.freed) (s.woken c)).parts
    cancels := Tbl.del s.cancels id } := by
  have hend : s.endCancel id c = { c.marked.foldl (fun (s : State) i => s.updScope c.part i ScopeEnt.freed) (s.woken c) with
      cancels := Tbl.del (c.marked.foldl (fun (s : State) i => s.updScope c.part i ScopeEnt.freed) (s.woken c)).cancels id } := rfl
  have hwoken := (s.answerWaits_spec (s.cancelWaits c)).1.rest
  rw [hend, State.foldl_freed_rest]
  generalize (c.marked.foldl (fun (s : State) i => s.updScope c.part i ScopeEnt.freed) (s.woken c)).parts = parts
  rw [show s.woken c = _ from hwoken]

@[simp] theorem State.endCancel_mem : (s.endCancel id c).mem = s.mem := by rw [State.endCancel_eq]

@[simp] theorem State.find_endCancel_cancels : Tbl.find (s.endCancel id c).cancels id = none := by
  rw [State.endCancel_eq]
  exact (Tbl.find_del ..).trans (if_pos rfl)

theorem State.endCancel_scopeEnt (n : Nat) : (s.endCancel id c).scopeEnt c.part n
    = if n ∈ c.marked then (s.scopeEnt c.part n).freed else s.scopeEnt c.part n := by
  have hparts : (s.woken c).parts = s.parts := by rw [show s.woken c = _ from (s.answerWaits_spec (s.cancelWaits c)).1.rest]
  rw [State.endCancel_eq, ← State.scopeEnt_congr hparts c.part n, ← State.scopeEnt_foldl_freed]
  rfl

/-- A CWAIT on a marked scope whose group is not halted goes with status 0, which its threads take. -/
theorem State.endCancel_waiter {k n : Nat} {q : ScopeOp} {w : Weave} (hmem : (k, q) ∈ s.scopeOps) (hpart : q.part = c.part)
    (hasleep : q.asleep = true) (hkind : q.kind = .cwait ((s.handleAt c.part n).setWidth 64)) (hn : n ∈ c.marked)
    (hrun : s.opHalted q = false) (hw : s.weave q.weave = some w) (htakes : w.takes q.lanes = true) :
    Tbl.find (s.endCancel id c).scopeOps k = none
      ∧ ∃ w', (s.endCancel id c).weave q.weave = some w' ∧ w'.getS q.d = 0 := by
  obtain ⟨hans, hdone⟩ := s.answerWaits_spec (s.cancelWaits c)
  obtain ⟨hgone, hzero⟩ := hdone _ (s.mem_cancelWaits c hmem hpart hasleep hkind hn) ((hans.opHalted q).trans hrun)
  obtain ⟨f, hf, hw'⟩ := hans.weave q.weave
  rw [hw] at hf
  rw [State.endCancel_eq]
  exact ⟨hgone, f w, hf, hzero (f w) hf (((hw' w).takes _).trans htakes)⟩

end End

/-! ### The record and the flag (R95 Table 4) -/

/-- What memory holds once a cancellation's record is written (R95 Table 4). -/
structure Cancel.RecordAt (c : Cancel) (m : Memory) (pa : Nat) : Prop where
  top     : Memory.num m pa 2 = c.top % 2 ^ 16
  killed  : Memory.num m (pa + 4) 4 = c.killed % 2 ^ 32
  records : Memory.num m (pa + 8) 4 = c.records % 2 ^ 32
  spawns  : Memory.num m (pa + 12) 4 = c.spawns % 2 ^ 32
  copies  : Memory.num m (pa + 16) 4 = c.copies % 2 ^ 32
  status  : Memory.num m (pa + 20) 4 = 2 ^ 31 + c.status.toNat
  voided  : Memory.num m (pa + 24) 4 = c.voided % 2 ^ 32

theorem Cancel.bytes_length (c : Cancel) : c.bytes.length = 32 := by
  simp only [Cancel.bytes, List.length_append, natToBytes_length]

/-- Each field of the record is written once, and what follows it lies behind it. -/
theorem Cancel.recordAt_writes (c : Cancel) (m : Memory) (pa : Nat) : c.RecordAt (Memory.writes m pa c.bytes) pa := by
  have hstatus := c.status.isLt
  simp only [Cancel.bytes, Memory.writes_append, List.length_append, natToBytes_length]
  constructor <;> simp (disch := omega) only [Memory.num_writes_before, Memory.num_writes] <;> omega

section Ack

variable {s : State} {part lva pa id : Nat} {c : Cancel}

/-- Bytes inside one granule, none of which a rule keeps, are written whole, as a release. -/
theorem State.ackWrite_granule {bs : List (BitVec 8)} (hn : 0 < bs.length) (h : lva / 64 = (lva + bs.length - 1) / 64)
    (hpa : s.kvPa 0 part lva 1 = .ok pa) (hplain : ∀ n, n < bs.length → s.plainByte (pa + n)) :
    ∃ t, s.ackWrite part lva bs = .ok t ∧ s.AlikeButMem t ∧ t.mem = Memory.writes s.mem pa bs := by
  have hmem := State.locWrite_plain hplain
  have halike := s.locWrite_mem_alike pa bs
  rw [State.ackWrite, State.ownWrite_granule hn h, hpa, chunksOf_granule hn h]
  refine ⟨_, rfl, ?_⟩
  simp only [List.foldl_cons, List.foldl_nil]
  split
  · exact ⟨halike.trans (State.recordRel_alike ..), (State.recordRel_mem ..).trans hmem⟩
  · exact ⟨halike, hmem⟩

/-- A cancellation whose record stands in memory. -/
def Cancel.recorded (c : Cancel) : Cancel := { c with written := true }

/-- The state in which a cancellation is known to have its record in memory. -/
def State.noteRecorded (s : State) (id : Nat) (c : Cancel) : State := { s with cancels := Tbl.put s.cancels id c.recorded }

theorem State.ackFlagStep_unflagged (h : (s.scopeEnt c.part c.top).ack.tag = false ∨ (s.scopeEnt c.part c.top).ackFlag = false) :
    s.ackFlagStep id c lva = s.endCancel id c := by
  have hno : ((s.scopeEnt c.part c.top).ack.tag && (s.scopeEnt c.part c.top).ackFlag) = false := by
    rcases h with h | h <;> simp [h]
  simp only [State.ackFlagStep, hno, Bool.not_false, if_true]

theorem State.ackFlagStep_flagged {t : State} (htag : (s.scopeEnt c.part c.top).ack.tag = true)
    (hflag : (s.scopeEnt c.part c.top).ackFlag = true) (hpa : s.kvPa 0 c.part (lva + 32) 1 = .ok pa) (hgood : s.eccBad pa = false)
    (hwrite : s.ackWrite c.part (lva + 32) (natToBytes 8 ((Memory.num s.mem pa 8 + 1) % 2 ^ 64)) = .ok t) :
    s.ackFlagStep id c lva = t.endCancel id c := by
  simp only [State.ackFlagStep, htag, hflag, hpa, hgood, hwrite, Bool.and_self, Bool.not_true, Bool.false_eq_true, if_false]

/-- Nothing holds back a drained cancellation without a fault. -/
theorem cancel_ready (hfault : c.fault = none) (hdrained : s.drained id c = true) :
    (c.fault.isSome || !s.drained id c) = false := by
  rw [hfault, hdrained]
  rfl

variable {scope : Nat} (hfind : s.cancels.find? (fun e => e.2.part == part && e.2.top == scope) = some (id, c))

include hfind

theorem cancel_found : c.part = part ∧ c.top = scope := by
  simpa using List.find?_some hfind

variable (hfault : c.fault = none) (hdrained : s.drained id c = true)

include hfault hdrained

/-- Without a capability, or with the record written, the flag is what is left to do. -/
theorem exec_cancelDrained_flag (h : (s.scopeEnt part scope).ack.tag = false ∨ c.written = true) :
    exec (.cancelDrained part scope) s
      = .next (s.ackFlagStep id c ((s.scopeEnt part scope).ack.base % 2 ^ 55)) := by
  have hskip : (!(s.scopeEnt part scope).ack.tag || c.written) = true := by rcases h with h | h <;> simp [h]
  simp only [exec_cancelDrained, execCancelDrained, hfind, cancel_ready hfault hdrained, hskip, Bool.false_eq_true, if_false,
    if_true]

theorem exec_cancelDrained_record {u : State} (htag : (s.scopeEnt part scope).ack.tag = true) (hw : c.written = false)
    (hwrite : s.ackWrite part ((s.scopeEnt part scope).ack.base % 2 ^ 55) c.bytes = .ok u) :
    exec (.cancelDrained part scope) s = .next
      ((u.noteRecorded id c).ackFlagStep id c.recorded ((s.scopeEnt part scope).ack.base % 2 ^ 55)) := by
  simp only [exec_cancelDrained, execCancelDrained, hfind, cancel_ready hfault hdrained, htag, hw, hwrite, Bool.not_true,
    Bool.or_self, Bool.false_eq_true, if_false]
  rfl

/-! ### The three ways to the end -/

/-- A cancellation without a capability ends at once. -/
theorem cancelDrained_silent (htag : (s.scopeEnt part scope).ack.tag = false) :
    exec (.cancelDrained part scope) s = .next (s.endCancel id c) := by
  obtain ⟨rfl, rfl⟩ := cancel_found hfind
  rw [exec_cancelDrained_flag hfind hfault hdrained (.inl htag), State.ackFlagStep_unflagged (.inl htag)]

/-- A cancellation that has a record to write and no flag writes it and ends. -/
theorem cancelDrained_records (htag : (s.scopeEnt part scope).ack.tag = true) (hflag : (s.scopeEnt part scope).ackFlag = false)
    (hw : c.written = false) (halign : (s.scopeEnt part scope).ack.base % 2 ^ 55 % 32 = 0)
    (hpa : s.kvPa 0 part ((s.scopeEnt part scope).ack.base % 2 ^ 55) 1 = .ok pa)
    (hplain : ∀ n, n < 32 → s.plainByte (pa + n)) :
    ∃ t, exec (.cancelDrained part scope) s = .next t ∧ Tbl.find t.cancels id = none
      ∧ t.mem = Memory.writes s.mem pa c.bytes := by
  obtain ⟨rfl, rfl⟩ := cancel_found hfind
  have hlen := c.bytes_length
  obtain ⟨u, hwrite, halike, hmem⟩ := State.ackWrite_granule (bs := c.bytes) (by omega) (by omega) hpa (by rwa [hlen])
  have hent : (u.noteRecorded id c).scopeEnt c.part c.top = s.scopeEnt c.part c.top := State.scopeEnt_congr halike.parts ..
  refine ⟨_, exec_cancelDrained_record hfind hfault hdrained htag hw hwrite, ?_⟩
  rw [State.ackFlagStep_unflagged (c := c.recorded) (.inr ((congrArg ScopeEnt.ackFlag hent).trans hflag))]
  exact ⟨State.find_endCancel_cancels .., (State.endCancel_mem ..).trans hmem⟩

/-- A cancellation whose record is written adds one to its flag and ends. -/
theorem cancelDrained_flags (htag : (s.scopeEnt part scope).ack.tag = true) (hflag : (s.scopeEnt part scope).ackFlag = true)
    (hw : c.written = true) (halign : (s.scopeEnt part scope).ack.base % 2 ^ 55 % 32 = 0)
    (hpa : s.kvPa 0 part ((s.scopeEnt part scope).ack.base % 2 ^ 55 + 32) 1 = .ok pa) (hgood : s.eccBad pa = false)
    (hplain : ∀ n, n < 8 → s.plainByte (pa + n)) :
    ∃ t, exec (.cancelDrained part scope) s = .next t ∧ Tbl.find t.cancels id = none
      ∧ t.mem = Memory.writes s.mem pa (natToBytes 8 ((Memory.num s.mem pa 8 + 1) % 2 ^ 64)) := by
  obtain ⟨rfl, rfl⟩ := cancel_found hfind
  have hlen := natToBytes_length 8 ((Memory.num s.mem pa 8 + 1) % 2 ^ 64)
  obtain ⟨u, hwrite, -, hmem⟩ := State.ackWrite_granule
    (bs := natToBytes 8 ((Memory.num s.mem pa 8 + 1) % 2 ^ 64)) (by omega) (by omega) hpa (by rwa [hlen])
  refine ⟨_, exec_cancelDrained_flag hfind hfault hdrained (.inr hw), ?_⟩
  rw [State.ackFlagStep_flagged htag hflag hpa hgood hwrite]
  exact ⟨State.find_endCancel_cancels .., (State.endCancel_mem ..).trans hmem⟩

end Ack

/-- Settles O41: without a capability by what the end of a cancellation leaves of the table and of each CWAIT; with one by the
bytes that the device writes on the way to that end. -/
theorem cancelCompletion : Obligations.CancelCompletion := by
  intro s part scope id c e lva waits hfind hfault hdrained
  refine ⟨fun htag => ⟨_, cancelDrained_silent hfind hfault hdrained htag, ?_⟩,
    fun pa htag hflag hw halign hpa hplain htop => ?_, fun pf htag hflag hw halign hpf hgood hplain => ?_⟩
  · obtain ⟨rfl, rfl⟩ := cancel_found hfind
    refine ⟨s.find_endCancel_cancels id c, s.endCancel_mem id c, fun n hn => (s.endCancel_scopeEnt id c n).trans (if_pos hn),
      fun n hn => (s.endCancel_scopeEnt id c n).trans (if_neg hn), ?_⟩
    rintro k q n w - hmem ⟨hpart, hasleep, hkind, hn⟩ hrun hweave htakes
    exact s.endCancel_waiter id c hmem hpart hasleep hkind hn hrun hweave htakes
  · obtain ⟨t, hexec, hnone, hmem⟩ := cancelDrained_records hfind hfault hdrained htag hflag hw halign hpa hplain
    obtain ⟨htop', hkilled, hrecords, hspawns, hcopies, hstatus, hvoided⟩ := c.recordAt_writes s.mem pa
    rw [← hmem] at htop' hkilled hrecords hspawns hcopies hstatus hvoided
    refine ⟨t, hexec, hnone, htop'.trans (Nat.mod_eq_of_lt htop), hkilled, hrecords, hspawns, hcopies, hstatus, hvoided,
      fun z hz => ?_⟩
    rw [hmem, Memory.get_writes_other _ _ _ _ (by rw [c.bytes_length]; omega)]
  · obtain ⟨t, hexec, hnone, hmem⟩ := cancelDrained_flags hfind hfault hdrained htag hflag hw halign hpf hgood hplain
    obtain ⟨hnum, hother⟩ := Memory.writes_word s.mem pf ((Memory.num s.mem pf 8 + 1) % 2 ^ 64) (Nat.mod_lt _ (by decide))
    exact ⟨t, hexec, hnone, hmem ▸ hnum, hmem ▸ hother⟩

end Sys2Proof.Machine
end

section
/-! Groups that stand at one PC merge (R113), and every step ends with that. -/

namespace Sys2Proof.Machine

open Sys2Proof

/-! ### Two groups -/

theorem Group.twins_iff (a b : Group) : a.twins b = true ↔
    a.mergeable = true ∧ b.mergeable = true ∧ a.pc = b.pc ∧ (a.withTrap = true → b.withTrap = false) := by
  simp only [Group.twins, Bool.and_eq_true, beq_iff_eq, Bool.not_eq_true', Bool.and_eq_false_imp, and_assoc]

theorem Group.twins_comm (a b : Group) : a.twins b = b.twins a := by
  rw [Group.twins, Group.twins, Bool.and_comm a.mergeable, BEq.comm (a := a.pc), Bool.and_comm a.withTrap]

theorem Group.join_pc {a b : Group} (h : a.pc = b.pc) : (a.join b).pc = a.pc := by
  show (if a.withTrap then a else if b.withTrap || b.faulted then b else a).pc = a.pc
  split
  · rfl
  · split
    · exact h.symm
    · rfl

/-- A group that waits with a trap waits with it in the merged group too. -/
theorem Group.join_withTrap {a : Group} (b : Group) (h : a.withTrap = true) : (a.join b).withTrap = true := by
  rw [Group.join, if_pos h, h, Bool.true_or, if_pos rfl]
  exact h

/-- A twin of the merged group was a twin of the group that took the other in: that one stood at the same PC, with no more traps. -/
theorem Group.twins_of_join {a b c : Group} (hab : a.twins b = true) (h : (a.join b).twins c = true) : a.twins c = true := by
  obtain ⟨ha, -, hpc, -⟩ := (Group.twins_iff a b).1 hab
  obtain ⟨-, hc, hjoin, htrap⟩ := (Group.twins_iff _ c).1 h
  exact (Group.twins_iff a c).2 ⟨ha, hc, (Group.join_pc hpc).symm.trans hjoin, fun hw => htrap (a.join_withTrap b hw)⟩

/-! ### The groups of a weave -/

theorem mergeInto_apart {g c : Group} {gs : List Group} (hgs : ∀ q ∈ gs, q.twins c = false) (hg : g.twins c = false) :
    ∀ q ∈ mergeInto g gs, q.twins c = false := by
  induction gs with
  | nil => exact List.forall_mem_singleton.2 hg
  | cons h r ih =>
    obtain ⟨hh, hr⟩ := List.forall_mem_cons.1 hgs
    rw [mergeInto]
    split
    · next hhg =>
      refine List.forall_mem_cons.2 ⟨?_, hr⟩
      rw [Bool.eq_false_iff] at hh ⊢
      exact fun hj => hh (Group.twins_of_join hhg hj)
    · exact List.forall_mem_cons.2 ⟨hh, ih hr⟩

/-- Groups of which no two are twins stay such when one more is merged into them. -/
theorem mergeInto_pairwise (g : Group) {gs : List Group} (h : gs.Pairwise fun a b => a.twins b = false) :
    (mergeInto g gs).Pairwise fun a b => a.twins b = false := by
  induction gs with
  | nil => exact List.pairwise_singleton ..
  | cons a r ih =>
    obtain ⟨ha, hr⟩ := List.pairwise_cons.1 h
    rw [mergeInto]
    split
    · next hag =>
      refine List.pairwise_cons.2 ⟨fun q hq => ?_, hr⟩
      have hq := ha q hq
      rw [Bool.eq_false_iff] at hq ⊢
      exact fun hj => hq (Group.twins_of_join hag hj)
    · next hag =>
      refine List.pairwise_cons.2 ⟨fun q hq => ?_, ih hr⟩
      rw [Group.twins_comm]
      refine mergeInto_apart (fun p hp => ?_) ?_ q hq
      · rw [Group.twins_comm]
        exact ha p hp
      · rw [Group.twins_comm]
        exact Bool.eq_false_iff.2 hag

theorem mergeGroups_pairwise (gs : List Group) : (mergeGroups gs).Pairwise fun a b => a.twins b = false :=
  List.foldlRecOn gs (fun acc g => mergeInto g acc) List.Pairwise.nil fun _ hacc g _ => mergeInto_pairwise g hacc

/-! ### What a step leaves (log 1) -/

/-- What follows every step leaves the invariant, whatever the step did. -/
theorem State.settle_settled (s : State) : s.settle.Settled := by
  unfold State.settle
  generalize s.housekeep = u
  refine ⟨rfl, fun e he => ?_⟩
  obtain ⟨q, -, rfl⟩ := List.mem_map.1 he
  exact mergeGroups_pairwise q.2.groups

theorem settled_next {o : Host.Outcome State Fault Refusal} {t : State} (h : settled o = .next t) :
    ∃ u : State, t = u.settle := by
  cases o with
  | next u => exact ⟨u, (Host.Outcome.next.inj h).symm⟩
  | fault f => cases h
  | refused r => cases h

theorem step_next_settle {s t : State} (h : step s = .next t) : ∃ u : State, t = u.settle := by
  rw [step, State.advanceOne] at h
  split at h
  · exact settled_next h
  · exact ⟨_, (Host.Outcome.next.inj h).symm⟩

/-- Settles O57: every step that answers a next state ends in `settle`. -/
theorem stepSettles : Obligations.StepSettles := by
  intro s t h
  obtain ⟨u, rfl⟩ := step_next_settle h
  exact u.settle_settled

end Sys2Proof.Machine
end

section
/-! The checks before an effect, TRAP and BRK (R109, R116, R117, R252, R300, R326, R327). -/

namespace Sys2Proof.Machine

open Sys2Proof

/-! ### The checks of R300 -/

/-- A program instruction, which has a header part, is issued under the checks of R300. -/
theorem exec_issue {i : Instr} {h : Hd} (hh : hdOf i = some h) : ∃ body, ∀ s, exec i s = issue i s body := by
  cases i
  all_goals cases hh
  all_goals exact ⟨_, fun _ => by unfold exec; exact rfl⟩

/-- An instruction that a check stops takes that trap. -/
theorem exec_stopped {st : State} {i : Instr} {x : Ctx} {tr : Trap} (hctx : st.ctx i = some x)
    (hcont : st.continues x.c i = false) (hpre : preTrap x.e x.g x.h i = some tr) : exec i st = .next (st.trapNow x tr) := by
  obtain ⟨-, hh, -⟩ := State.ctx_some hctx
  obtain ⟨body, hbody⟩ := exec_issue hh
  rw [hbody, issue_ctx hctx, hcont, if_neg Bool.false_ne_true, hpre]

/-- The first field outside its class traps. -/
theorem regRange_first {alloc : Nat} {pre post : List Opnd} {o : Opnd} (hpre : ∀ q ∈ pre, q.kind.inClass q.n alloc = true)
    (ho : o.kind.inClass o.n alloc = false) :
    regRange alloc (pre ++ o :: post) = some (.plain .regRange (o.n % 256 + o.fld * 256)) := by
  induction pre with
  | nil => rw [List.nil_append, regRange, if_neg (by rw [ho]; exact Bool.false_ne_true)]
  | cons q r ih =>
    obtain ⟨hq, hr⟩ := List.forall_mem_cons.1 hpre
    rw [List.cons_append, regRange, if_pos hq, ih hr]

theorem tooLong_none {g : Group} {h : Hd} (i : Instr) (hcount : g.run.count < 23 ∨ h.bnd = true) : tooLong g h i = none := by
  refine if_neg fun hlong => ?_
  obtain ⟨hmany, hno⟩ := hlong
  rcases hcount with hcount | hbnd
  · omega
  · simp [hbnd] at hno

theorem preTrap_regRange {e : Env} {g : Group} {h : Hd} {i : Instr} {t : Trap} (hlong : tooLong g h i = none)
    (hrange : regRange e.f.lr.vAlloc (operands i) = some t) : preTrap e g h i = some t := by
  simp only [preTrap, hlong, hrange]

/-! ### TRAP and BRK -/

section Soft

variable {st : State} {i : Instr} {x : Ctx} {code : TrapCode} {imm : BitVec 16}

/-- The trap of TRAP or BRK: no lane, the immediate in DETAIL, the return behind it (R327). -/
def softTrap (code : TrapCode) (imm : BitVec 16) : Trap :=
  { code := code, detail := imm, lane := none, hdr := false, fnc := false, resume := .after }

theorem Ctx.soft_idle (h : x.act = 0) : x.soft code imm = .done x.s := if_pos h

theorem Ctx.soft_active (h : x.act ≠ 0) : x.soft code imm = .trap (softTrap code imm) := by
  rw [Ctx.soft, if_neg h, Trap.plain, BitVec.ofNat_toNat, BitVec.setWidth_eq]
  rfl

theorem exec_soft (hform : ∃ h, (i = .trap h imm ∧ code = .software) ∨ (i = .brk h imm ∧ code = .break_)) :
    exec i st = issue i st fun x => x.soft code imm := by
  obtain ⟨h, ⟨rfl, rfl⟩ | ⟨rfl, rfl⟩⟩ := hform
  · exact exec_trap ..
  · exact exec_brk ..

/-- A trap without a lane that the issuing group takes in its weave's handler (R255). -/
theorem Ctx.trapNow_enters {tr : Trap} (hctx : st.ctx i = some x) (hlane : tr.lane = none)
    (hcan : st.envCancelling x.e = false) (hhere : x.w.anyTrap x.g.lanes = false)
    (hthere : x.w.anyTrap (x.w.live &&& ~~~x.g.lanes) = false) (htag : x.e.f.lr.trap.tag = true) :
    st.Enters (st.trapNow x tr) x.e x.g x.c.addr tr (x.g.resumeAt x.c.addr x.c.len x.h.bnd tr) := by
  obtain ⟨hissuer, -⟩ := State.ctx_some hctx
  obtain ⟨-, henv, hgroup⟩ := State.issuer_some hissuer
  exact State.takeTrap_enters henv hgroup (fun l hl => by rw [hlane] at hl; cases hl) hcan hhere hthere htag

end Soft

/-- Settles O18: TRAP and BRK by what their own entry answers; the checks by their order in `preTrap`. -/
theorem instructionTraps : Obligations.InstructionTraps := by
  refine ⟨fun h imm st x i code hform hi => ⟨fun hact => ?_, fun hact hcan hhere hthere htag => ?_⟩,
    fun i st x tr hctx hcont hpre => ⟨exec_stopped hctx hcont hpre, fun pre post o hops hin hout hcount => ?_⟩⟩
  · have hexec := hi.exec_eq (exec_soft ⟨h, hform⟩)
    rw [Ctx.soft_idle hact] at hexec
    exact ⟨_, _, hexec, Ctx.only_done hi.1⟩
  · obtain ⟨hs, -⟩ := State.ctx_weave hi.1
    have hexec := hi.exec_eq (exec_soft ⟨h, hform⟩)
    rw [Ctx.soft_active hact, Res.apply, hs] at hexec
    exact ⟨_, hexec, Ctx.trapNow_enters hi.1 rfl hcan hhere hthere htag⟩
  · have hrange := regRange_first (post := post) hin hout
    rw [← hops] at hrange
    have htrap := hpre.symm.trans (preTrap_regRange (tooLong_none i hcount) hrange)
    cases htrap
    exact ⟨rfl, rfl, rfl⟩

end Sys2Proof.Machine
end

section
/-! WAITT, WAITT_WAKE and STALL_RESUME (R92, R104, R142, R325). -/

namespace Sys2Proof.Machine

open Sys2Proof

/-! ### WAITT -/

section Waitt

variable {st : State} {x : Ctx} {h : Hd} {a : Nat}

theorem exec_waitt_due (hi : st.Issues (.waitt h a) x) (hdue : st.killDue x.e = true) :
    exec (.waitt h a) st = .next (st.endThreads x.e.wid x.g.lanes (st.envCancelling x.e)) := by
  obtain ⟨rfl, -⟩ := State.ctx_weave hi.1
  rw [hi.exec_eq (exec_waitt ..), if_pos hdue]
  rfl

theorem exec_waitt_sleeps (hi : st.Issues (.waitt h a) x) (hdue : st.killDue x.e = false)
    (hearly : st.clock < (x.w.getS a).toNat) : exec (.waitt h a) st = .next (st.onGroup x.c fun g =>
      { g with sleep := .clock (x.w.getS a) x.h.bnd, port := false }) := by
  obtain ⟨rfl, -⟩ := State.ctx_weave hi.1
  rw [hi.exec_eq (exec_waitt ..), hdue, if_neg Bool.false_ne_true, if_pos hearly]
  rfl

/-- At its promise a WAITT goes on, unless a copy is late. -/
theorem exec_waitt_passes (hi : st.Issues (.waitt h a) x) (hdue : st.killDue x.e = false)
    (htime : (x.w.getS a).toNat ≤ st.clock) : exec (.waitt h a) st = .next
      ((if st.promiseMissed x.c.weave (x.w.getS a) then Res.trap missedTrap else .done x.s).apply x (.waitt h a)) := by
  obtain ⟨rfl, hwid, -⟩ := State.ctx_weave hi.1
  rw [hi.exec_eq (exec_waitt ..), hdue, if_neg Bool.false_ne_true, if_neg (Nat.not_lt.2 htime), hwid]

end Waitt

/-! ### Groups that wake -/

section Wake

variable {s : State} {wid gid : Nat} {e : Env} {g : Group}

/-- Of the state, nothing but the groups of one weave has changed, and the group of that name is now `f` of what it was. -/
theorem State.updGroup_spec (he : s.env wid = some e) (hg : e.w.group gid = some g) (f : Group → Group)
    (hf : ∀ q, (f q).gid = q.gid) :
    let u := s.updWeave wid fun w => w.updGroup gid f
    u = { s with weaves := u.weaves } ∧ u.weave wid = some (e.w.updGroup gid f)
      ∧ (e.w.updGroup gid f).group gid = some (f g) := by
  obtain ⟨-, hw, -⟩ := State.env_some he
  exact ⟨rfl, by rw [State.weave_updWeave, if_pos rfl, hw, Option.map_some], Weave.group_updGroup f hf hg⟩

variable {t : W64} {bnd : Bool}

/-- WAITT_WAKE of a group whose promise has come: it ends at the kill point, traps for a late copy, or goes on (R325). -/
theorem exec_waittWake_reached (he : s.env wid = some e) (hg : e.w.group gid = some g) (hhalt : g.halted = false)
    (hsleep : g.sleep = .clock t bnd) (htime : t.toNat ≤ s.clock) : exec (.waittWake wid gid) s = .next
      (if s.killDue e then s.endThreads wid g.lanes (s.envCancelling e)
        else if s.promiseMissed wid t then s.takeTrap wid gid g.pc 8 bnd missedTrap
        else s.updWeave wid fun w => w.updGroup gid fun q => q.afterWaitt bnd) := by
  simp [execWaittWake, he, hg, hsleep, hhalt, Nat.not_lt.2 htime]

theorem Group.afterWaitt_spec (g : Group) (bnd : Bool) : (g.afterWaitt bnd).gid = g.gid ∧ (g.afterWaitt bnd).sleep = .awake
    ∧ (g.afterWaitt bnd).lanes = g.lanes ∧ (g.afterWaitt bnd).pc = g.pc + 8
    ∧ (g.afterWaitt bnd).pos = if bnd then .between else g.pos := by
  cases bnd <;> exact ⟨rfl, rfl, rfl, rfl, rfl⟩

/-- What STALL_RESUME makes of a group. -/
def Group.resumed (g : Group) : Group := if g.sleep = .stall && !g.halted then { g with sleep := .awake } else g

theorem Group.resumed_gid (g : Group) : g.resumed.gid = g.gid := by
  unfold Group.resumed
  split <;> rfl

theorem Group.resumed_stalled (hsleep : g.sleep = .stall) (hhalt : g.halted = false) :
    g.resumed = { g with sleep := .awake } := if_pos (by simp [hsleep, hhalt])

theorem exec_stallResume_eq :
    exec (.stallResume wid gid) s = .next (s.updWeave wid fun w => w.updGroup gid Group.resumed) := exec_stallResume ..

end Wake

/-- Settles O23: a WAITT and its wake by the kill point, CLOCK and the copies of the weave, in this order. -/
theorem timedWaits : Obligations.TimedWaits := by
  refine ⟨fun h a st x hi => ?_, fun s wid gid e g he hg hhalt => ⟨fun t bnd hsleep htime => ?_,
    fun t bnd hsleep htime hdue hcalm => ?_, fun hsleep => ?_⟩⟩
  · obtain ⟨hissuer, -⟩ := State.ctx_some hi.1
    obtain ⟨-, henv, -⟩ := State.issuer_some hissuer
    obtain ⟨hwid, -⟩ := State.env_some henv
    refine ⟨fun hdue => ?_, exec_waitt_sleeps hi, fun hdue htime hmissed => ?_, fun hdue htime hcalm => ?_⟩
    · exact ⟨_, exec_waitt_due hi hdue, State.endThreads_ended (hwid ▸ henv) x.g.lanes (st.envCancelling x.e)⟩
    · obtain ⟨hs, -⟩ := State.ctx_weave hi.1
      have hexec := exec_waitt_passes hi hdue htime
      rw [State.promiseMissed, if_pos hmissed] at hexec
      rw [Ctx.Traps, hs, hexec, Res.apply, hs]
      rfl
    · have hexec := exec_waitt_passes hi hdue htime
      rw [State.promiseMissed, if_neg (Bool.eq_false_iff.1 hcalm)] at hexec
      exact ⟨_, _, hexec, Ctx.only_done hi.1⟩
  · have hexec := exec_waittWake_reached he hg hhalt hsleep htime
    refine ⟨fun hdue => ?_, fun hdue hmissed => ?_⟩
    · rw [if_pos hdue] at hexec
      exact ⟨_, hexec, State.endThreads_ended he g.lanes (s.envCancelling e)⟩
    · rw [hdue, if_neg Bool.false_ne_true, State.promiseMissed, if_pos hmissed] at hexec
      exact hexec
  · have hexec := exec_waittWake_reached he hg hhalt hsleep htime
    rw [hdue, if_neg Bool.false_ne_true, State.promiseMissed, if_neg (Bool.eq_false_iff.1 hcalm)] at hexec
    obtain ⟨hu, hw, hq⟩ := State.updGroup_spec he hg (fun q => q.afterWaitt bnd) fun q => (q.afterWaitt_spec bnd).1
    obtain ⟨-, hawake, hlanes, hpc, hpos⟩ := g.afterWaitt_spec bnd
    exact ⟨_, _, _, hexec, hu, hw, rfl, hq, hawake, hlanes, hpc, hpos⟩
  · obtain ⟨hu, hw, hq⟩ := State.updGroup_spec he hg Group.resumed Group.resumed_gid
    exact ⟨_, _, _, exec_stallResume_eq, hu, hw, rfl, hq, Group.resumed_stalled hsleep hhalt⟩

end Sys2Proof.Machine
end

section
/-! COPY, COPYM and COPYSEL at issue (R104, R140, R142, R394–R396, R401, R402). -/

namespace Sys2Proof.Machine

open Sys2Proof

/-! ### The check of one end (R126, R396) -/

section Tag

variable {c : Cap} {spaces : List Nat} {perm : BitVec 8} {detail : Nat}

theorem capTagPerm_untagged (h : c.tag = false) : capTagPerm c spaces perm detail = some (.plain .capTag detail) := by
  simp [capTagPerm, h]

theorem capTagPerm_unfit (h : c.tag = true) (hfit : ¬ (c.space ∈ spaces ∧ c.perm &&& perm = perm)) :
    capTagPerm c spaces perm detail = some (.plain .capPerm detail) := by
  by_cases hs : c.space ∈ spaces
  · simp [capTagPerm, h, hs, show ¬ c.perm &&& perm = perm from fun hp => hfit ⟨hs, hp⟩]
  · simp [capTagPerm, h, hs]

theorem capTagPerm_fit (h : c.tag = true) (hfit : c.space ∈ spaces ∧ c.perm &&& perm = perm) :
    capTagPerm c spaces perm detail = none := by
  obtain ⟨hs, hp⟩ := hfit
  simp [capTagPerm, h, hs, hp]

end Tag

section RowCheck

variable {x : Ctx} {k : Nat} {spaces : List Nat} {perm : BitVec 8} {rows n : Nat} {row : Nat → Nat}

theorem Ctx.endCheck_untagged (h : (x.w.getK k).tag = false) (l : List Nat) :
    x.endCheck k spaces perm l n = some (.plain .capTag k) := by
  rw [Ctx.endCheck, capTagPerm_untagged h]

theorem Ctx.endCheck_unfit (h : (x.w.getK k).tag = true)
    (hfit : ¬ ((x.w.getK k).space ∈ spaces ∧ (x.w.getK k).perm &&& perm = perm)) (l : List Nat) :
    x.endCheck k spaces perm l n = some (.plain .capPerm k) := by
  rw [Ctx.endCheck, capTagPerm_unfit h hfit]

/-- One row outside the capability or its space is enough. -/
theorem Ctx.endCheck_row (h : (x.w.getK k).tag = true)
    (hfit : (x.w.getK k).space ∈ spaces ∧ (x.w.getK k).perm &&& perm = perm) {j : Nat} (hj : j < rows)
    (hout : (x.w.getK k).covers (row j) n = false ∨ relativeRow x.e (x.w.getK k) (row j) n = false) :
    x.endCheck k spaces perm ((List.range rows).map row) n = some (.plain .capBounds k) := by
  rw [Ctx.endCheck, capTagPerm_fit h hfit]
  refine if_neg fun hall => ?_
  have hrow := List.all_eq_true.1 hall (row j) (List.mem_map.2 ⟨j, List.mem_range.2 hj, rfl⟩)
  rw [Bool.and_eq_true] at hrow
  rcases hout with hout | hout
  · exact Bool.eq_false_iff.1 hout hrow.1
  · exact Bool.eq_false_iff.1 hout hrow.2

/-- The three ways in which an end stops an instruction that traps where its check does. -/
theorem Ctx.endCheck_traps {i : Instr}
    (htrap : ∀ t, x.endCheck k spaces perm ((List.range rows).map row) n = some t → x.Traps i t) :
    ((x.w.getK k).tag = false → x.Traps i (.plain .capTag k))
    ∧ ((x.w.getK k).tag = true → ¬ ((x.w.getK k).space ∈ spaces ∧ (x.w.getK k).perm &&& perm = perm) →
      x.Traps i (.plain .capPerm k))
    ∧ ∀ j, (x.w.getK k).tag = true → (x.w.getK k).space ∈ spaces ∧ (x.w.getK k).perm &&& perm = perm → j < rows →
      (x.w.getK k).covers (row j) n = false ∨ relativeRow x.e (x.w.getK k) (row j) n = false →
      x.Traps i (.plain .capBounds k) :=
  ⟨fun h => htrap _ (Ctx.endCheck_untagged h _), fun h hfit => htrap _ (Ctx.endCheck_unfit h hfit _),
    fun _ h hfit hj hout => htrap _ (Ctx.endCheck_row h hfit hj hout)⟩

end RowCheck

/-! ### The order of the checks (R396) -/

section Checks

variable {x : Ctx} {c : Copy} {i : Instr} {a b k : Nat} {t : Trap}

theorem Ctx.copyChecks_desc (h : x.descBad c b = true) : x.copyChecks c i a b k = some (illegal (opcOf i)) := if_pos h

theorem Ctx.copyChecks_src (h : x.descBad c b = false) (hal : c.selAlign k = none)
    (hsrc : x.endCheck a c.srcSpaces 0x41 ((List.range c.rows).map c.srcAt) c.rowBytes = some t) :
    x.copyChecks c i a b k = some t := by
  have hsrc' : x.endCheck a c.srcSpaces (permR ||| permM) ((List.range c.rows).map c.srcAt) c.rowBytes = some t := hsrc
  simp only [Ctx.copyChecks, h, Bool.false_eq_true, if_false, hal, Option.none_or, hsrc']

theorem Ctx.copyChecks_dst (h : x.descBad c b = false) (hal : c.selAlign k = none)
    (hsrc : x.endCheck a c.srcSpaces 0x41 ((List.range c.rows).map c.srcAt) c.rowBytes = none)
    (hdst : x.endCheck k c.dstSpaces c.dstPerm ((List.range c.outRows).map c.dstAt) c.outBytes = some t) :
    x.copyChecks c i a b k = some t := by
  have hsrc' : x.endCheck a c.srcSpaces (permR ||| permM) ((List.range c.rows).map c.srcAt) c.rowBytes = none := hsrc
  simp only [Ctx.copyChecks, h, Bool.false_eq_true, if_false, hal, Option.none_or, hsrc', hdst]

end Checks

/-! ### What a copy instruction answers -/

/-- The promise of a copy that is queued now: a free value within the bounds of R142 (log 4). -/
def State.promise (s : State) : W64 := w64 (s.clock + Nat.min (Config.freePromise s.freeIdx).toNat (2 ^ 32))

theorem State.promise_bounds {s : State} (h : s.clock + 2 ^ 32 < 2 ^ 64) :
    s.clock ≤ s.promise.toNat ∧ s.promise.toNat ≤ s.clock + 2 ^ 32 := by
  have hmin : Nat.min (Config.freePromise s.freeIdx).toNat (2 ^ 32) ≤ 2 ^ 32 := Nat.min_le_right ..
  rw [State.promise, w64, BitVec.toNat_ofNat, Nat.mod_eq_of_lt (by omega)]
  omega

/-- The copy stands in the queue, counts on its token, and its promise is in the destination register. -/
def Ctx.queueCopy (x : Ctx) (c : Copy) (d : Nat) : State :=
  { x.s with nextId := x.s.nextId + 1, freeIdx := x.s.freeIdx + 1
             copies := Tbl.put x.s.copies x.s.nextId { c with promise := x.s.promise } }.updWeave x.e.wid
    fun w => (w.countUp (CopyF.token c.f)).setS d x.s.promise

section Issue

variable {st : State} {x : Ctx} {i : Instr} {kind : CopyKind} {f : CopyF} {d a b k : Nat}

theorem Ctx.copyIssue_trap {t : Trap} (h : x.copyChecks (x.copyOf kind f a b k) i a b k = some t) :
    x.copyIssue kind f i d a b k = .trap t := by
  simp only [Ctx.copyIssue, h]

/-- A copy that passes every check is queued where there is room and its token can count it. -/
theorem Ctx.copyIssue_passed (h : x.copyChecks (x.copyOf kind f a b k) i a b k = none)
    (hsrc : x.endPeer a ((List.range (x.copyOf kind f a b k).rows).map (x.copyOf kind f a b k).srcAt)
      (x.copyOf kind f a b k).rowBytes = none)
    (hdst : x.endPeer k ((List.range (x.copyOf kind f a b k).outRows).map (x.copyOf kind f a b k).dstAt)
      (x.copyOf kind f a b k).outBytes = none) :
    x.copyIssue kind f i d a b k = if !(x.s.copyRoom x.e && x.w.canCount (CopyF.token f)) then .stall
      else .done (x.queueCopy (x.copyOf kind f a b k) d) := by
  simp only [Ctx.copyIssue, h, hsrc, hdst]
  rfl

/-- Each copy instruction is issued by `copyIssue`, with its own kind and opcode. -/
theorem exec_copyForm (hform : copyForm x.w i = some (kind, f, d, a, b, k)) : ∃ body, (∀ s, exec i s = issue i s body)
    ∧ body x = x.copyIssue kind f i d a b k := by
  cases i
  case copy => cases hform; exact ⟨_, fun s => exec_copy (st := s) .., rfl⟩
  case copym => cases hform; exact ⟨_, fun s => exec_copym (st := s) .., rfl⟩
  case copysel => cases hform; exact ⟨_, fun s => exec_copysel (st := s) .., rfl⟩
  all_goals cases hform

theorem Ctx.copy_traps {t : Trap} (hform : copyForm x.w i = some (kind, f, d, a, b, k)) (hi : st.Issues i x)
    (h : x.copyChecks (x.copyOf kind f a b k) i a b k = some t) : x.Traps i t := by
  obtain ⟨body, hexec, hbody⟩ := exec_copyForm hform
  exact Ctx.traps_of_entry hi (hexec st) (hbody.trans (Ctx.copyIssue_trap h))

theorem Weave.canCount_iff (w : Weave) (tok : Option Nat) :
    w.canCount tok = true ↔ ¬ ∃ n, tok = some n ∧ 255 ≤ w.getCf n := by
  cases tok <;> simp [Weave.canCount]

/-- A weave whose copy was queued: its token counts one more, the promise stands in its register, the group goes on. -/
theorem Ctx.queueCopy_weave (hctx : st.ctx i = some x) (c : Copy) (d : Nat) :
    let t := (Res.done (x.queueCopy c d)).apply x i
    ∃ w, t.weave x.c.weave = some w ∧ w = { x.w with s := w.s, cf := w.cf, groups := w.groups } ∧ w.getS d = st.promise
      ∧ (∀ n, n ≠ d → w.getS n = x.w.getS n)
      ∧ ∀ n, w.getCf n = x.w.getCf n + if CopyF.token c.f = some n then 1 else 0 := by
  obtain ⟨rfl, hwid, hw⟩ := State.ctx_weave hctx
  refine ⟨((x.w.countUp (CopyF.token c.f)).setS d x.s.promise).updGroup x.c.gid fun g => g.advance x.c x.h.bnd (lateRegs i),
    ?_, ?_, ?_, fun n hn => ?_, fun n => Weave.getCf_countUp ..⟩
  · rw [Res.apply, State.onGroup, State.weave_updWeave, if_pos rfl, Ctx.queueCopy, State.weave_updWeave, if_pos hwid.symm]
    show ((x.s.weave x.e.wid).map _).map _ = _
    rw [hwid, hw]
    rfl
  · rw [Weave.countUp_eq]
    rfl
  · exact (Weave.getS_setS ..).trans (if_pos rfl)
  · refine (Weave.getS_setS ..).trans ((if_neg hn).trans ?_)
    rw [Weave.countUp_eq]
    rfl

theorem Ctx.queueCopy_others (hctx : st.ctx i = some x) (c : Copy) (d : Nat) {n : Nat} (hn : n ≠ x.c.weave) :
    ((Res.done (x.queueCopy c d)).apply x i).weave n = st.weave n := by
  obtain ⟨rfl, hwid, -⟩ := State.ctx_weave hctx
  rw [Res.apply, State.onGroup, State.weave_updWeave, if_neg hn, Ctx.queueCopy, State.weave_updWeave, if_neg (hwid ▸ hn)]
  rfl

end Issue

/-- Settles O24: the traps by the order of the checks; what passes them by room in the queue and on the token. -/
theorem copyQueued : Obligations.CopyQueued := by
  intro i st x kind f d a b k hform hi
  obtain ⟨hs, -⟩ := State.ctx_weave hi.1
  obtain ⟨body, hexec, hbody⟩ := exec_copyForm hform
  replace hexec := hi.exec_eq (hexec st)
  rw [hbody] at hexec
  intro c ends asks
  have hopc : opcOf i = asks.1 := by
    cases i
    case copy => cases hform; rfl
    case copym => cases hform; rfl
    case copysel => cases hform; rfl
    all_goals cases hform
  have hsrcSpaces : c.srcSpaces = asks.2.1 := by cases kind <;> rfl
  have hdstSpaces : c.dstSpaces = asks.2.2.1 := by cases kind <;> rfl
  have hdstPerm : c.dstPerm = asks.2.2.2 := by
    cases kind
    case sel s0 s1 s2 =>
      show permW ||| permM ||| (if s1.getLsbD 57 then permR else 0) = if s1.getLsbD 57 then 0x43 else 0x42
      split <;> rfl
    all_goals rfl
  refine ⟨fun hbad => ?_, fun hok hal => ?_, fun hok hal hsrc => ?_, fun hpass hsrc hdst => ?_⟩
  · rw [← hopc]
    exact Ctx.copy_traps hform hi (Ctx.copyChecks_desc hbad)
  · rw [← hsrcSpaces]
    exact Ctx.endCheck_traps fun t ht => Ctx.copy_traps hform hi (Ctx.copyChecks_src hok hal ht)
  · rw [← hsrcSpaces] at hsrc
    rw [← hdstSpaces, ← hdstPerm]
    exact Ctx.endCheck_traps fun t ht => Ctx.copy_traps hform hi (Ctx.copyChecks_dst hok hal hsrc ht)
  · rw [Ctx.copyIssue_passed hpass hsrc hdst] at hexec
    refine ⟨fun hfull => ?_, fun hroom hfree => ?_⟩
    · rw [if_pos] at hexec
      · rw [hexec, Res.apply, hs]
        rfl
      · rcases hfull with hroom | hfull
        · simp [hroom]
        · have hcount : x.w.canCount (CopyF.token f) = false :=
            Bool.eq_false_iff.2 fun hcan => (Weave.canCount_iff ..).1 hcan hfull
          simp [hcount]
    · rw [hroom, (Weave.canCount_iff ..).2 hfree, if_neg (by decide)] at hexec
      obtain ⟨w, hw, hweave, hpromise, hregs, hflags⟩ := Ctx.queueCopy_weave hi.1 c d
      refine ⟨_, w, st.promise, hexec, ?_, ?_, fun n hn => ?_, State.promise_bounds,
        fun n hn => Ctx.queueCopy_others hi.1 c d hn, hw, hweave, hpromise, hregs, hflags⟩
      all_goals subst hs
      · rfl
      · exact Tbl.find_put_self ..
      · exact Tbl.find_put_other _ _ hn

end Sys2Proof.Machine
end

section
/-! CAPNEW, CAPGET, CAPCHK and the scratchpad tag table (R131, R390–R393). -/

namespace Sys2Proof.Machine

open Sys2Proof

/-! ### CAPGET, CAPCHK and STAG (R391–R393) -/

theorem doesS_capget (h : Hd) (sel : CapSel) (d a : Nat) :
    DoesS (.capget h sel d a) d fun x => capField sel (x.w.getK a) :=
  doesS_of (fun x => capField sel (x.w.getK a)) (fun _ => exec_capget ..) (fun _ => rfl) (fun _ => rfl) fun _ => rfl

theorem doesS_capchk (h : Hd) (mask : BitVec 8) (d a b c : Nat) : DoesS (.capchk h mask d a b c) d fun x =>
    capchkVal (x.w.getK a) mask (x.w.getS b).toNat (x.w.getS c).toNat :=
  doesS_of (fun x => capchkVal (x.w.getK a) mask (x.w.getS b).toNat (x.w.getS c).toNat) (fun _ => exec_capchk ..) (fun _ => rfl)
    (fun _ => rfl) fun _ => rfl

/-- A range check that fails. -/
theorem not_decide_and {p q : Prop} [Decidable p] [Decidable q] : (!(decide p && decide q)) = true ↔ ¬ (p ∧ q) := by
  rw [Bool.not_eq_true', ← Bool.not_eq_true, Bool.and_eq_true, decide_eq_true_iff, decide_eq_true_iff]

/-- The answer of CAPCHK, by the first check that fails. -/
theorem capchkVal_eq (k : Cap) (mask : BitVec 8) (sb sc : Nat) : capchkVal k mask sb sc =
    if k.tag = false then 7
    else if k.perm &&& mask ≠ mask then 6
    else if k.base + k.len < k.base + sb + sc ∨ 2 ^ 64 < k.base + sb + sc then 5
    else 0 := by
  have hrange : (!(decide (k.base + sb + sc ≤ k.base + k.len) && decide (k.base + sb + sc ≤ 2 ^ 64))) = true
      ↔ k.base + k.len < k.base + sb + sc ∨ 2 ^ 64 < k.base + sb + sc := by
    rw [not_decide_and, not_and_or, not_le, not_le]
  rw [capchkVal, if_congr hrange rfl rfl]
  simp only [Bool.not_eq_true', bne_iff_ne]

theorem does32_stag (h : Hd) (d a : Nat) : Does32 (.stag h d a) false d [] fun x l =>
    (Tbl.find x.e.t.stag ((x.w.getV64 a l).toNat % 2 ^ 48)).getD 0xFFFFFFFF :=
  does32_of (fun x l => Tbl.get x.e.t.stag noSlot (x.stagKey a l)) (fun _ => exec_stag ..) (fun _ => rfl) (fun _ => rfl)
    fun _ _ => rfl

/-! ### CAPNEW (R390) -/

section New

variable {x : Ctx} {space : BitVec 4} {mask : BitVec 8} {a b c : Nat}

theorem Ctx.capnewVal_untagged {mode : CapMode} (hmode : mode ≠ .own) (htag : (x.w.getK a).tag = false) :
    x.capnewVal mode space mask a b c = .error (.plain .capTag a) := by
  cases mode with
  | own => exact absurd rfl hmode
  | _ => simp [Ctx.capnewVal, htag]

theorem Ctx.capnewVal_prm (htag : (x.w.getK a).tag = true) : x.capnewVal .prm space mask a b c
    = .ok (mkCap (x.w.getK a).base (x.w.getK a).len ((x.w.getK a).perm &&& mask) (x.w.getK a).space) := by
  simp [Ctx.capnewVal, htag]

/-- BND takes the range if it lies in the capability and can be written in its fields. -/
theorem Ctx.capnewVal_bnd (htag : (x.w.getK a).tag = true) : x.capnewVal .bnd space mask a b c =
    if (x.w.getK a).base + (x.w.getS b).toNat + (x.w.getS c).toNat ≤ (x.w.getK a).base + (x.w.getK a).len
        ∧ (x.w.getK a).base + (x.w.getS b).toNat + (x.w.getS c).toNat ≤ 2 ^ 64 ∧ (x.w.getS c).toNat < 2 ^ 40 then
      .ok (mkCap ((x.w.getK a).base + (x.w.getS b).toNat) (x.w.getS c).toNat (x.w.getK a).perm (x.w.getK a).space)
    else .error (.plain .capBounds a) := by
  simp only [Ctx.capnewVal, htag, Bool.not_true, Bool.false_eq_true, if_false]
  rw [← ite_not]
  refine if_congr ?_ rfl rfl
  rw [Bool.or_eq_true, not_decide_and, decide_eq_true_iff]
  omega

/-- CTX refuses another space than 0, a base that is not aligned, and a range outside the capability, in this order. -/
theorem Ctx.capnewVal_ctx (htag : (x.w.getK a).tag = true) : x.capnewVal .ctx space mask a b c =
    if (x.w.getK a).space ≠ 0 then .error (.plain .capPerm a)
    else if ((x.w.getK a).base + (x.w.getS b).toNat) % 256 ≠ 0 then .error (.plain .misaligned a)
    else if (x.w.getK a).base + (x.w.getS b).toNat + 256 ≤ (x.w.getK a).base + (x.w.getK a).len
        ∧ (x.w.getK a).base + (x.w.getS b).toNat + 256 ≤ 2 ^ 64 then
      .ok (mkCap ((x.w.getK a).base + (x.w.getS b).toNat) 256 ((x.w.getK a).perm &&& 0x53) 3)
    else .error (.plain .capBounds a) := by
  simp only [Ctx.capnewVal, htag, Bool.not_true, Bool.false_eq_true, if_false, bne_iff_ne]
  refine if_congr Iff.rfl rfl (if_congr Iff.rfl rfl ?_)
  rw [← ite_not]
  exact if_congr (by rw [not_decide_and, not_not]) rfl rfl

theorem Ctx.capnewVal_own (hspace : space ≠ 5) : x.capnewVal .own space mask a b c =
    if (x.w.getS b).toNat + (x.w.getS c).toNat ≤ spaceSize x.e.f.lr space.toNat then
      .ok (mkCap (x.w.getS b).toNat (x.w.getS c).toNat mask space.toNat)
    else .error (.plain .capBounds 0) := by
  simp only [Ctx.capnewVal, if_neg hspace]

theorem Ctx.capnewVal_phases : x.capnewVal .own 5 mask a b c =
    if (x.w.getS b).toNat + (x.w.getS c).toNat ≤ 4096 then
      .ok (mkCap (x.s.ownPeer x.e.part * 2 ^ 48 + x.e.c.inst * 4096 + (x.w.getS b).toNat) (x.w.getS c).toNat mask 5)
    else .error (.plain .capBounds 0) := by
  simp only [Ctx.capnewVal, if_true]

variable {st : State} {h : Hd} {mode : CapMode} {d : Nat}

theorem exec_capnew_eq : exec (.capnew h mode space mask d a b c) st = issue (.capnew h mode space mask d a b c) st fun x =>
    match x.capnewVal mode space mask a b c with
    | .error t => .trap t
    | .ok k => .done (x.upd fun w => w.setK d k) := exec_capnew ..

theorem capnew_writes {k : Cap} (hi : st.Issues (.capnew h mode space mask d a b c) x)
    (hv : x.capnewVal mode space mask a b c = .ok k) :
    ∃ t w, exec (.capnew h mode space mask d a b c) st = .next t
      ∧ x.Only (.capnew h mode space mask d a b c) t w [] [] [] [d] [] ∧ w.getK d = k := by
  obtain ⟨w, honly, hk⟩ := Ctx.only_setK (i := .capnew h mode space mask d a b c) hi.1 d k
  have hexec := hi.exec_eq exec_capnew_eq
  simp only [hv] at hexec
  exact ⟨_, w, hexec, honly, hk⟩

theorem capnew_traps {t : Trap} (hi : st.Issues (.capnew h mode space mask d a b c) x)
    (hv : x.capnewVal mode space mask a b c = .error t) : x.Traps (.capnew h mode space mask d a b c) t :=
  Ctx.traps_of_entry hi exec_capnew_eq (by simp only [hv])

end New

/-! ### The tag table (R131, R393) -/

theorem stagBind_ones (t : Tbl W32) (key : Nat) : stagBind t key noSlot = (t, 2) := if_pos rfl

theorem stagBind_full {t : Tbl W32} {key : Nat} {v : W32} (hv : v ≠ noSlot) (hfree : Tbl.find t key = none)
    (hlen : 256 ≤ t.length) : stagBind t key v = (t, 1) := by
  simp [stagBind, hv, hfree, hlen]

theorem stagBind_binds {t : Tbl W32} {key : Nat} {v : W32} (hv : v ≠ noSlot)
    (hroom : Tbl.find t key ≠ none ∨ t.length < 256) : stagBind t key v = (Tbl.put t key v, 0) := by
  rw [stagBind, if_neg hv]
  split
  · rfl
  · next hfree =>
    have hlen : t.length < 256 := hroom.resolve_left fun hbound => hfree (Option.isSome_iff_ne_none.2 hbound)
    rw [if_neg (Nat.not_le.2 hlen)]

/-- The table when STAGSET comes to lane `l`: the active lanes below have bound their keys. -/
def Ctx.tagsAt (x : Ctx) (a b : Nat) : Nat → Tbl W32
  | 0 => x.e.t.stag
  | l + 1 =>
    if x.act.has l then (stagBind (x.tagsAt a b l) (x.stagKey a l) (x.w.getV b l)).1 else x.tagsAt a b l

/-- What STAGSET answers to lane `l`. -/
def Ctx.tagAnswer (x : Ctx) (a b l : Nat) : W32 := (stagBind (x.tagsAt a b l) (x.stagKey a l) (x.w.getV b l)).2

/-- STAGSET of one lane: the table, and the answers so far. -/
def Ctx.stagStep (x : Ctx) (a b : Nat) (r : Tbl W32 × Tbl W32) (l : Nat) : Tbl W32 × Tbl W32 :=
  ((stagBind r.1 (x.stagKey a l) (x.w.getV b l)).1, Tbl.put r.2 l (stagBind r.1 (x.stagKey a l) (x.w.getV b l)).2)

/-- STAGSET of every active lane. -/
def Ctx.stagRun (x : Ctx) (a b : Nat) : Tbl W32 × Tbl W32 := x.lanes.foldl (x.stagStep a b) (x.e.t.stag, [])

theorem Ctx.foldl_stagStep (x : Ctx) (a b n : Nat) :
    let r := ((List.range n).filter fun l => x.act.has l).foldl (x.stagStep a b) (x.e.t.stag, [])
    r.1 = x.tagsAt a b n ∧ ∀ l, l < n → x.act.has l = true → Tbl.find r.2 l = some (x.tagAnswer a b l) := by
  induction n with
  | zero => exact ⟨rfl, fun l hl => absurd hl (Nat.not_lt_zero l)⟩
  | succ n ih =>
    obtain ⟨htags, hout⟩ := ih
    rw [List.range_succ, List.filter_append, List.foldl_append]
    by_cases hact : x.act.has n = true
    · rw [List.filter_cons_of_pos hact]
      refine ⟨?_, fun l hl hactl => ?_⟩
      · show (stagBind _ _ _).1 = _
        rw [htags, Ctx.tagsAt, if_pos hact]
      · show Tbl.find (Tbl.put _ n _) l = _
        rw [Tbl.find_put]
        split
        · next hln => rw [htags, hln]; rfl
        · next hln => exact hout l (by omega) hactl
    · rw [List.filter_cons_of_neg hact]
      refine ⟨?_, fun l hl hactl => ?_⟩
      · rw [Ctx.tagsAt, if_neg hact]
        exact htags
      · have hln : l ≠ n := fun he => hact (he ▸ hactl)
        exact hout l (by omega) hactl

theorem Ctx.stagRun_table (x : Ctx) (a b : Nat) : (x.stagRun a b).1 = x.tagsAt a b 32 := (x.foldl_stagStep a b 32).1

theorem Ctx.stagRun_answer (x : Ctx) (a b : Nat) {l : Nat} (hl : l < 32) (hact : x.act.has l = true) :
    Tbl.get (x.stagRun a b).2 0 l = x.tagAnswer a b l := by
  show (Tbl.find _ l).getD 0 = _
  rw [show Tbl.find (x.stagRun a b).2 l = _ from (x.foldl_stagStep a b 32).2 l hl hact]
  rfl

/-- Keys that are unbound one after the other. -/
theorem find_foldl_del {β : Type} (key : Nat → Nat) (ls : List Nat) (t : Tbl β) (n : Nat) :
    Tbl.find (ls.foldl (fun t l => Tbl.del t (key l)) t) n = if ls.any (fun l => key l == n) then none else Tbl.find t n := by
  induction ls generalizing t with
  | nil => rfl
  | cons l r ih =>
    rw [List.foldl_cons, ih, Tbl.find_del, List.any_cons]
    by_cases hl : key l = n
    · simp [hl]
    · simp [hl, Ne.symm hl]

section Tags

variable {st : State} {x : Ctx} {i : Instr}

theorem State.ctx_team (hctx : st.ctx i = some x) : st.team x.e.tid = some x.e.t := by
  obtain ⟨hissuer, -⟩ := State.ctx_some hctx
  obtain ⟨-, henv, -⟩ := State.issuer_some hissuer
  obtain ⟨-, -, -, hteam, -⟩ := State.env_some henv
  exact hteam

/-- A write of one v register by the active threads changes the v registers alone. -/
theorem Weave.foldl_setV_eq (ls : List Nat) (d : Nat) (f : Nat → W32) (w : Weave) :
    ls.foldl (fun w l => w.setV d l (f l)) w = { w with v := (ls.foldl (fun w l => w.setV d l (f l)) w).v } := by
  induction ls generalizing w with
  | nil => rfl
  | cons l r ih =>
    rw [List.foldl_cons, ih]
    unfold Weave.setV
    split <;> rfl

/-- Per-thread results with a change of the issuing team's table: of the weave, the v registers and the group change. -/
theorem Ctx.putV_weave (hctx : st.ctx i = some x) (d : Nat) (f : Nat → W32) :
    ∃ w, ((Res.done (x.putV d f)).apply x i).weave x.c.weave = some w
      ∧ (∀ n l, l < 32 → (n ≠ d ∨ x.act.has l = false) → w.getV n l = x.w.getV n l)
      ∧ w = { x.w with v := w.v, groups := w.groups }
      ∧ w.groups = x.w.groups.map (fun g => if g.gid == x.c.gid then g.advance x.c x.h.bnd (lateRegs i) else g)
      ∧ ∀ l, l < 32 → x.act.has l = true → d ≠ 255 → w.getV d l = f l := by
  obtain ⟨w, honly, hval⟩ := Ctx.only_putV (i := i) hctx d f
  obtain ⟨hs, -, hw⟩ := State.ctx_weave hctx
  have hself : w = (x.lanes.foldl (fun w l => w.setV d l (f l)) x.w).updGroup x.c.gid
      fun g => g.advance x.c x.h.bnd (lateRegs i) := by
    have hhere := honly.here
    rw [Res.apply, State.onGroup, State.weave_updWeave, if_pos rfl, Ctx.putV, Ctx.upd, State.weave_updWeave, if_pos rfl, hs,
      hw] at hhere
    exact (Option.some.inj hhere).symm
  refine ⟨w, honly.here, fun n l hl hn => honly.keepV n l hl (hn.imp_left fun hne hmem => ?_), ?_, honly.groups, hval⟩
  · unfold destV at hmem
    split at hmem
    · cases hmem
    · exact hne (List.mem_singleton.1 hmem)
  · rw [hself, Weave.foldl_setV_eq]
    rfl

/-- The issuing team's table, once an instruction has changed it. -/
theorem Ctx.team_tags (hctx : st.ctx i = some x) {s : State} (hteams : s.teams = st.teams) (f : Tbl W32 → Tbl W32) :
    let t := (Res.done (s.updTeam x.e.tid fun tm => { tm with stag := f tm.stag })).apply x i
    t.team x.e.tid = some { x.e.t with stag := f x.e.t.stag } ∧ ∀ n, n ≠ x.e.tid → t.team n = st.team n := by
  have hsame (m : Nat) : s.team m = st.team m := by rw [State.team, State.team, hteams]
  have hteam (n : Nat) : ((Res.done (s.updTeam x.e.tid fun tm => { tm with stag := f tm.stag })).apply x i).team n
      = if n = x.e.tid then (s.team x.e.tid).map fun tm => { tm with stag := f tm.stag } else s.team n :=
    State.team_updTeam ..
  exact ⟨by rw [hteam, if_pos rfl, hsame, State.ctx_team hctx]; rfl, fun n hn => by rw [hteam, if_neg hn, hsame]⟩

end Tags

/-- Each lane of STAGSET, by what `stagBind` answers for it. -/
theorem Ctx.tagsAt_step (x : Ctx) (a b l : Nat) :
    let t := x.tagsAt a b l
    let u := x.tagsAt a b (l + 1)
    let key := x.stagKey a l
    let v := x.w.getV b l
    (x.act.has l = false → u = t)
    ∧ (x.act.has l = true → v = noSlot → u = t ∧ x.tagAnswer a b l = 2)
    ∧ (x.act.has l = true → v ≠ noSlot → Tbl.find t key = none → 256 ≤ t.length → u = t ∧ x.tagAnswer a b l = 1)
    ∧ (x.act.has l = true → v ≠ noSlot → (Tbl.find t key ≠ none ∨ t.length < 256) →
      u = Tbl.put t key v ∧ x.tagAnswer a b l = 0) := by
  have hstep : x.tagsAt a b (l + 1) = if x.act.has l then
      (stagBind (x.tagsAt a b l) (x.stagKey a l) (x.w.getV b l)).1 else x.tagsAt a b l := rfl
  refine ⟨fun hact => ?_, fun hact hv => ?_, fun hact hv hfree hlen => ?_, fun hact hv hroom => ?_⟩
  all_goals simp only [hstep, hact, Ctx.tagAnswer]
  · exact if_neg Bool.false_ne_true
  · rw [hv, stagBind_ones]
    exact ⟨rfl, rfl⟩
  · rw [stagBind_full hv hfree hlen]
    exact ⟨rfl, rfl⟩
  · rw [stagBind_binds hv hroom]
    exact ⟨rfl, rfl⟩

theorem exec_stagset_eq {st : State} {x : Ctx} {h : Hd} {d a b : Nat} (hi : st.Issues (.stagset h d a b) x) :
    exec (.stagset h d a b) st = .next ((Res.done ((x.putV d fun l => Tbl.get (x.stagRun a b).2 0 l).updTeam x.e.tid
      fun tm => { tm with stag := (x.stagRun a b).1 })).apply x (.stagset h d a b)) := hi.exec_eq (exec_stagset ..)

theorem exec_staginv_eq {st : State} {x : Ctx} {h : Hd} {a : Nat} (hi : st.Issues (.staginv h a) x) :
    exec (.staginv h a) st = .next ((Res.done (x.s.updTeam x.e.tid
      fun tm => { tm with stag := x.lanes.foldl (fun t l => Tbl.del t (x.stagKey a l)) tm.stag })).apply x (.staginv h a)) :=
  hi.exec_eq (exec_staginv ..)

/-- Settles O11: CAPGET, CAPCHK and STAG by what they write, CAPNEW by `capnewVal` in each mode, STAGSET by the tables between
its lanes, STAGINV by the keys that it deletes. -/
theorem capabilityInstructions : Obligations.CapabilityInstructions := by
  refine ⟨fun h sel mask d a b c => ⟨?_, ?_, does32_stag h d a⟩, fun h space mask d a b c => ?_, fun h d a b st x => ?_⟩
  · have hget := doesS_capget h sel d a
    cases sel <;> exact hget
  · have hchk := doesS_capchk h mask d a b c
    simp only [capchkVal_eq] at hchk
    exact hchk
  · refine ⟨fun st x hi hok => ?_, fun st x hi hbad => ?_, fun st x hi hok => ?_, fun st x hi hok => ?_, fun st x hi hbad => ?_,
      fun st x hi hbad => ?_, fun st x hi hbad => ?_, fun mode hmode st x hi hbad => ?_, fun hspace st x hi hok => ?_,
      fun hspace st x hi hbad => ?_, fun st x hi hbad => ?_, fun st x hi hok => ?_⟩
    · obtain ⟨htag, hfit⟩ := hok
      exact capnew_writes hi ((Ctx.capnewVal_bnd htag).trans (if_pos hfit))
    · obtain ⟨htag, hfit⟩ := hbad
      exact capnew_traps hi ((Ctx.capnewVal_bnd htag).trans (if_neg hfit))
    · exact capnew_writes hi (Ctx.capnewVal_prm hok)
    · obtain ⟨htag, hspace, halign, hfit⟩ := hok
      refine capnew_writes hi ((Ctx.capnewVal_ctx htag).trans ?_)
      rw [if_neg (not_not.2 hspace), if_neg (not_not.2 halign), if_pos hfit]
    · obtain ⟨htag, hspace⟩ := hbad
      exact capnew_traps hi ((Ctx.capnewVal_ctx htag).trans (if_pos hspace))
    · obtain ⟨htag, hspace, halign⟩ := hbad
      refine capnew_traps hi ((Ctx.capnewVal_ctx htag).trans ?_)
      rw [if_neg (not_not.2 hspace), if_pos halign]
    · obtain ⟨htag, hspace, halign, hfit⟩ := hbad
      refine capnew_traps hi ((Ctx.capnewVal_ctx htag).trans ?_)
      rw [if_neg (not_not.2 hspace), if_neg (not_not.2 halign), if_neg hfit]
    · exact capnew_traps hi (Ctx.capnewVal_untagged hmode hbad)
    · exact capnew_writes hi ((Ctx.capnewVal_own hspace).trans (if_pos hok))
    · exact capnew_traps hi ((Ctx.capnewVal_own hspace).trans (if_neg (Nat.not_le.2 hbad)))
    · exact capnew_traps hi (Ctx.capnewVal_phases.trans (if_neg (Nat.not_le.2 hbad)))
    · exact capnew_writes hi (Ctx.capnewVal_phases.trans (if_pos hok))
  · refine ⟨fun hi => ?_, fun hi => ?_⟩
    · obtain ⟨hs, -⟩ := State.ctx_weave hi.1
      obtain ⟨hteam, hothers⟩ := Ctx.team_tags (s := x.putV d fun l => Tbl.get (x.stagRun a b).2 0 l) hi.1
        (by rw [← hs]; rfl) fun _ => (x.stagRun a b).1
      obtain ⟨w, hw, hkeep, hweave, hgroups, hval⟩ := Ctx.putV_weave hi.1 d fun l => Tbl.get (x.stagRun a b).2 0 l
      refine ⟨_, w, _, exec_stagset_eq hi, by rw [← hs]; rfl, hteam, rfl, hothers, hw, hkeep, hweave, hgroups,
        x.tagsAt a b, rfl, (x.stagRun_table a b).symm, fun l hl => ?_⟩
      have hanswers (hact : x.act.has l = true) {r : W32} (hr : x.tagAnswer a b l = r) (hd : d ≠ 255) : w.getV d l = r :=
        (hval l hl hact hd).trans ((x.stagRun_answer a b hl hact).trans hr)
      obtain ⟨hidle, hones, hfull, hbinds⟩ := x.tagsAt_step a b l
      refine ⟨hidle, fun hact hv => ?_, fun hact hv hfree hlen => ?_, fun hact hv hroom => ?_⟩
      · obtain ⟨htable, hr⟩ := hones hact hv
        exact ⟨htable, hanswers hact hr⟩
      · obtain ⟨htable, hr⟩ := hfull hact hv hfree hlen
        exact ⟨htable, hanswers hact hr⟩
      · obtain ⟨htable, hr⟩ := hbinds hact hv hroom
        refine ⟨htable, hanswers hact hr, ?_, fun n hn => ?_⟩
        all_goals rw [htable]
        · exact Tbl.find_put_self ..
        · exact Tbl.find_put_other _ _ hn
    · obtain ⟨hs, -⟩ := State.ctx_weave hi.1
      obtain ⟨hteam, -⟩ := Ctx.team_tags (s := x.s) hi.1 (by rw [hs])
        fun g => x.lanes.foldl (fun t l => Tbl.del t (x.stagKey a l)) g
      refine ⟨_, _, exec_staginv_eq hi, by rw [← hs]; rfl, hteam, rfl, fun n => ?_⟩
      rw [find_foldl_del, Ctx.lanes, Lanes.toList_eq, List.any_filter]
      rfl

end Sys2Proof.Machine
end

section
/-! PHINIT and PHARR: what the barrier unit makes of an object, and the groups that it wakes (R144–R146, R403–R405). -/

namespace Sys2Proof.Machine

open Sys2Proof

/-! ### Operations that are applied at once (R399) -/

section Applied

variable {x : Ctx} {a b cid : Nat} {perm : BitVec 8} {rel : Bool} {p : Phase}

theorem Ctx.PhaseAt.phWaits (hat : x.PhaseAt a b perm rel cid p) {kind : PhKind} (hrel : kind.releases = true → rel = true) :
    x.phWaits kind = false := by
  rw [Ctx.phWaits, hat.first, Bool.false_or]
  by_cases hk : kind.releases = true
  · rw [hat.quiet (hrel hk), Bool.not_true, Bool.and_false]
  · rw [Bool.not_eq_true] at hk
    rw [hk, Bool.false_and]

/-- An operation on the object is applied at once and acts on it. -/
theorem Ctx.PhaseAt.phSend (hat : x.PhaseAt a b perm rel cid p) (kind : PhKind) (hrel : kind.releases = true → rel = true) :
    ∃ c, x.s.cohort cid = some c ∧ c.inst = phInst (x.phAddr a b) ∧ p = c.phase (phObj (x.phAddr a b))
      ∧ x.phSend (x.phAddr a b) kind = .done (x.s.phAct (x.phOp (x.phAddr a b) kind) cid c) := by
  obtain ⟨c, hc, haway, hinst, hp⟩ := hat.object
  have hcohort : x.s.cohortOf (x.phOp (x.phAddr a b) kind).part (x.phOp (x.phAddr a b) kind).inst = some cid := hat.cohort
  refine ⟨c, hc, hinst, hp, ?_⟩
  simp only [Ctx.phSend, hat.phWaits hrel, State.phApply, hcohort, hc, haway, Bool.false_eq_true, if_false]

end Applied

section Entry

variable {st : State} {x : Ctx} {h : Hd} {a b c : Nat}

theorem exec_phinit_passed {bytes : Bool} (hi : st.Issues (.phinit h bytes a b c) x)
    (hcap : x.phCheck a 2 (x.phAddr a b) = none) : exec (.phinit h bytes a b c) st = .next ((x.phSend (x.phAddr a b)
      (.init bytes (if (x.w.getS c).extractLsb' 0 32 = 0 then 1 else (x.w.getS c).extractLsb' 0 32) x.e.f.scope)).apply x
        (.phinit h bytes a b c)) := by
  have hcap' : x.phCheck a permW (x.phAddr a b) = none := hcap
  rw [hi.exec_eq (exec_phinit ..), hcap']

theorem exec_pharr_passed (hi : st.Issues (.pharr h a b c) x) (hcap : x.phCheck a 2 (x.phAddr a b) = none) :
    exec (.pharr h a b c) st = .next ((if (x.w.getS c).extractLsb' 0 32 = 0 then Res.done x.s
      else x.phSend (x.phAddr a b) (.arrive ((x.w.getS c).extractLsb' 0 32))).apply x (.pharr h a b c)) := by
  have hcap' : x.phCheck a permW (x.phAddr a b) = none := hcap
  rw [hi.exec_eq (exec_pharr ..), hcap']

end Entry

/-! ### An arrival (R145) -/

theorem Phase.arrive_arrived (p : Phase) {u : Nat} (hu : u < 2 ^ 32) (by_ : Option Nat) :
    Phase.Arrived p (p.arrive u by_) u := by
  refine ⟨fun hpoison => if_pos hpoison, fun hpoison hless => ?_, fun hpoison hmore => ?_⟩
  all_goals
    unfold Phase.arrive
    rw [if_neg (Bool.eq_false_iff.1 hpoison)]
  · have hsub : (p.remain - w32 u).toNat = p.remain.toNat - u := by
      have hword : (w32 u).toNat = u := (BitVec.toNat_ofNat ..).trans (Nat.mod_eq_of_lt hu)
      rw [BitVec.toNat_sub_of_le (BitVec.le_def.2 (hword.symm ▸ hless.le)), hword]
    dsimp only
    rw [if_pos hless]
    exact ⟨hsub, rfl⟩
  · dsimp only
    rw [if_neg (Nat.not_lt.2 hmore)]

theorem Phase.arrive_completes {p : Phase} {u : Nat} (hpoison : p.poison = false) (hmore : p.remain.toNat ≤ u)
    (by_ : Option Nat) : (p.arrive u by_).poison = false ∧ (p.arrive u by_).parity = !p.parity := by
  unfold Phase.arrive
  rw [if_neg (Bool.eq_false_iff.1 hpoison)]
  dsimp only
  rw [if_neg (Nat.not_lt.2 hmore)]
  exact ⟨hpoison, rfl⟩

/-! ### What waking changes -/

/-- Nothing but weaves and staged lines has changed, and every weave is in the team of before. -/
structure State.WeavesOnly (s t : State) : Prop where
  rest : t = { s with weaves := t.weaves, staging := t.staging }
  teams : ∀ n w, s.weave n = some w → ∃ w', t.weave n = some w' ∧ w'.team = w.team

namespace State.WeavesOnly

variable {s t u : State}

theorem refl (s : State) : s.WeavesOnly s := ⟨rfl, fun _ w h => ⟨w, h, rfl⟩⟩

theorem trans (h : s.WeavesOnly t) (h' : t.WeavesOnly u) : s.WeavesOnly u where
  rest := by rw [h'.rest, h.rest]
  teams n w hw := by
    obtain ⟨v, hv, hteam⟩ := h.teams n w hw
    obtain ⟨y, hy, hteam'⟩ := h'.teams n v hv
    exact ⟨y, hy, hteam'.trans hteam⟩

theorem foldl {α : Type} {f : State → α → State} (hf : ∀ (s : State) a, s.WeavesOnly (f s a)) (l : List α)
    (s : State) : s.WeavesOnly (l.foldl f s) := by
  induction l generalizing s with
  | nil => exact refl s
  | cons a l ih => exact (hf s a).trans (ih _)

theorem updWeave (s : State) (n : Nat) {f : Weave → Weave} (hf : ∀ w, (f w).team = w.team) :
    s.WeavesOnly (s.updWeave n f) := by
  refine ⟨rfl, fun m w hw => ?_⟩
  rw [State.weave_updWeave]
  split
  · next hm => exact ⟨f w, by rw [← hm, hw]; rfl, hf w⟩
  · exact ⟨w, hw, rfl⟩

/-- The surroundings of a weave are the same but for the weave itself, and it is due to end if it was before. -/
theorem env (h : s.WeavesOnly t) {n : Nat} {e : Env} (he : s.env n = some e) :
    ∃ w, t.env n = some { e with w := w } ∧ t.killDue { e with w := w } = s.killDue e := by
  obtain ⟨hwid, hw, htid, hteam, hcid, hcohort, hfid, hfield⟩ := State.env_some he
  obtain ⟨w, hw', hsame⟩ := h.teams n e.w hw
  have ht : t.team w.team = some e.t := by rw [h.rest, hsame, ← htid]; exact hteam
  have hc : t.cohort e.t.cohort = some e.c := by rw [h.rest, ← hcid]; exact hcohort
  have hf : t.field e.c.field = some e.f := by rw [h.rest, ← hfid]; exact hfield
  refine ⟨w, ?_, by rw [h.rest]; rfl⟩
  simp only [State.env, hw', ht, hc, hf]
  rw [hsame, ← htid, ← hcid, ← hfid, hwid]

end State.WeavesOnly

theorem State.endThreads_weavesOnly (s : State) (wid : Nat) (ls : Lanes) (killed : Bool) :
    s.WeavesOnly (s.endThreads wid ls killed) := by
  unfold State.endThreads
  split
  · exact .refl s
  · next e _ =>
    refine .updWeave s wid fun w => ?_
    show ((w.cut ls killed).releaseHandler e.f.lr).team = w.team
    rw [((w.cut ls killed).releaseHandler_released e.f.lr).regs]
    rfl

theorem State.stickyIf_weavesOnly (s : State) (wid bit : Nat) (b : Bool) : s.WeavesOnly (s.stickyIf wid bit b) := by
  unfold State.stickyIf
  split
  · exact .updWeave _ _ fun _ => rfl
  · exact .refl s

theorem State.phSeen_weavesOnly (s : State) (e : Env) (p : Phase) (cid : Nat) : s.WeavesOnly (s.phSeen e p cid) := by
  have hacquired : s.WeavesOnly (if p.paired cid e.cid then s.acquireAt e.t.core else s) := by
    split
    · exact ⟨rfl, fun _ w h => ⟨w, h, rfl⟩⟩
    · exact .refl s
  exact hacquired.trans (State.stickyIf_weavesOnly _ _ _ _)

theorem State.phWake_weavesOnly (s : State) (wid gid d : Nat) (kill : Bool) (status : W64) (seen : Option (Phase × Nat)) :
    s.WeavesOnly (s.phWake wid gid d kill status seen) := by
  unfold State.phWake
  split
  · exact .refl s
  split
  · exact .refl s
  split
  · exact s.endThreads_weavesOnly _ _ _
  · refine State.WeavesOnly.trans ?_ (.updWeave _ _ fun _ => rfl)
    split
    · exact s.phSeen_weavesOnly _ _ _
    · exact .refl s

/-! ### The groups that wake (R146) -/

/-- A weave whose group has gone on from a wait: the status is in its register, SCOPE_MISMATCH is set if `b`. -/
def Weave.wakes (w : Weave) (b : Bool) (gid d : Nat) (status : W64) : Weave :=
  ((w.stickyIf wsMismatch b).setS d status).updGroup gid fun g => { g with sleep := .awake }

theorem Weave.getS_wakes (w : Weave) (b : Bool) (gid d : Nat) (status : W64) (n : Nat) :
    (w.wakes b gid d status).getS n = if n = d then status else w.getS n := by
  refine (Weave.getS_setS (w.stickyIf wsMismatch b) d status n).trans ?_
  rw [Weave.getS, (w.stickyIf_regs wsMismatch b).2.1]
  rfl

theorem Weave.group_wakes {w : Weave} {n : Nat} {g : Group} (hg : w.group n = some g) (b : Bool) (gid d : Nat) (status : W64) :
    (w.wakes b gid d status).group n = some (if n = gid then { g with sleep := .awake } else g) := by
  have hgroups : (w.wakes b gid d status).groups
      = w.groups.map fun q => if q.gid == gid then { q with sleep := .awake } else q := by
    rw [← (w.sameBut_stickyIf wsMismatch b).groups]
    rfl
  rw [group_map _ (fun q => by split <;> rfl) hgroups hg, Weave.group_gid hg]
  simp only [beq_iff_eq]

section Wake

variable {s : State} {wid gid d n : Nat} {e : Env} {g : Group} {kill : Bool} {status : W64} {seen : Option (Phase × Nat)}

theorem State.weave_phSeen (s : State) (e : Env) (p : Phase) (cid n : Nat) : (s.phSeen e p cid).weave n
    = if n = e.wid then (s.weave e.wid).map fun w => w.stickyIf wsMismatch (p.unpaired cid e.cid) else s.weave n := by
  have hacquired (m : Nat) : (if p.paired cid e.cid then s.acquireAt e.t.core else s).weave m = s.weave m := by
    split <;> rfl
  rw [State.phSeen, State.stickyIf_weave, hacquired, hacquired]

/-- A wake changes its own weave alone. -/
theorem State.weave_phWake_other (hn : n ≠ wid) : (s.phWake wid gid d kill status seen).weave n = s.weave n := by
  unfold State.phWake
  split
  · rfl
  next e he =>
  obtain ⟨hwid, -⟩ := State.env_some he
  split
  · rfl
  split
  · unfold State.endThreads
    simp only [he]
    exact (State.weave_updWeave ..).trans (if_neg hn)
  · refine (State.weave_updWeave ..).trans ((if_neg hn).trans ?_)
    split
    · rw [State.weave_phSeen, if_neg (hwid ▸ hn)]
    · rfl

/-- A wake that no kill point ends. -/
theorem State.weave_phWake (he : s.env wid = some e) (hg : e.w.group gid = some g) (hkill : (kill && s.killDue e) = false) :
    ∃ b, (s.phWake wid gid d kill status seen).weave wid = some (e.w.wakes b gid d status) := by
  obtain ⟨hwid, hw, -⟩ := State.env_some he
  simp only [State.phWake, he, hg, hkill, Bool.false_eq_true, if_false, State.weave_updWeave, if_true]
  cases seen with
  | none => exact ⟨false, by rw [hw]; rfl⟩
  | some q =>
    refine ⟨q.1.unpaired q.2 e.cid, ?_⟩
    rw [State.weave_phSeen, if_pos hwid.symm, hwid, hw]
    rfl

theorem State.phWake_no_group (he : s.env wid = some e) (hg : e.w.group gid = none) :
    s.phWake wid gid d kill status seen = s := by
  simp only [State.phWake, he, hg]

end Wake

/-- A group stands in a weave that is not due to end; once `woken`, it is awake and its status is 0. -/
def State.Waiter (s : State) (wid gid d : Nat) (woken : Prop) : Prop :=
  ∃ e g, s.env wid = some e ∧ s.killDue e = false ∧ e.w.group gid = some g
    ∧ (woken → g.sleep = .awake ∧ e.w.getS d = 0)

section Waiters

variable {s : State} {wid gid d : Nat} {woken : Prop}

/-- A wake with status 0 leaves a waiter and wakes it if it is its own. -/
theorem State.Waiter.phWake (h : s.Waiter wid gid d woken) (n i r : Nat) (seen : Option (Phase × Nat)) :
    (s.phWake n i r true 0 seen).Waiter wid gid d (woken ∨ (n = wid ∧ i = gid ∧ r = d)) := by
  obtain ⟨e, g, he, hdue, hg, hwoken⟩ := h
  obtain ⟨w, henv, hkill⟩ := (s.phWake_weavesOnly n i r true 0 seen).env he
  obtain ⟨-, hw, -⟩ := State.env_some he
  obtain ⟨-, hw', -⟩ := State.env_some henv
  rw [hdue] at hkill
  by_cases hn : n = wid
  · subst hn
    cases hi : e.w.group i with
    | none =>
      rw [State.phWake_no_group he hi]
      refine ⟨e, g, he, hdue, hg, fun hor => hwoken (hor.resolve_right ?_)⟩
      rintro ⟨-, rfl, -⟩
      rw [hi] at hg
      cases hg
    | some gi =>
      obtain ⟨b, hb⟩ := State.weave_phWake (d := r) (status := 0) (seen := seen) (kill := true) he hi (by rw [hdue]; rfl)
      obtain rfl := Option.some.inj (hw'.symm.trans hb)
      refine ⟨_, _, henv, hkill, Weave.group_wakes hg b i r 0, fun hor => ⟨?_, ?_⟩⟩
      · split
        · rfl
        · next hne => exact (hwoken (hor.resolve_right fun hown => hne hown.2.1.symm)).1
      · rw [Weave.getS_wakes]
        split
        · rfl
        · next hne => exact (hwoken (hor.resolve_right fun hown => hne hown.2.2.symm)).2
  · rw [State.weave_phWake_other (Ne.symm hn), hw] at hw'
    obtain rfl := Option.some.inj hw'
    exact ⟨_, g, henv, hkill, hg, fun hor => hwoken (hor.resolve_right fun hown => hn hown.1)⟩

/-- One waiter of an object is examined. -/
def State.phExamine (p : Phase) (cid : Nat) (s : State) (y : Nat × Nat × Bool × Nat) : State :=
  if p.poison then s.phWake y.1 y.2.1 y.2.2.2 true 1 none
  else if p.parity != y.2.2.1 then s.phWake y.1 y.2.1 y.2.2.2 true 0 (some (p, cid))
  else s

theorem State.phSettle_eq {c : Cohort} {part cid obj : Nat} (hc : s.cohort cid = some c) :
    s.phSettle part cid obj = (s.phWaiters part c.inst obj).foldl (State.phExamine (c.phase obj) cid) s := by
  simp only [State.phSettle, hc]
  rfl

theorem State.phExamine_weavesOnly (p : Phase) (cid : Nat) (s : State) (y : Nat × Nat × Bool × Nat) :
    s.WeavesOnly (s.phExamine p cid y) := by
  unfold State.phExamine
  split
  · exact s.phWake_weavesOnly _ _ _ _ _ _
  split
  · exact s.phWake_weavesOnly _ _ _ _ _ _
  · exact .refl s

theorem State.phSettle_weavesOnly (s : State) (part cid obj : Nat) : s.WeavesOnly (s.phSettle part cid obj) := by
  cases hc : s.cohort cid with
  | none =>
    simp only [State.phSettle, hc]
    exact .refl s
  | some c =>
    rw [State.phSettle_eq hc]
    exact .foldl (State.phExamine_weavesOnly _ cid) _ s

/-- A waiter whose parity is over is awake once every waiter has been examined. -/
theorem State.Waiter.examined {p : Phase} (hpoison : p.poison = false) (cid : Nat) {q : Bool} (hq : p.parity ≠ q)
    (ys : List (Nat × Nat × Bool × Nat)) (h : s.Waiter wid gid d woken) (hmem : woken ∨ (wid, gid, q, d) ∈ ys) :
    (ys.foldl (State.phExamine p cid) s).Waiter wid gid d True := by
  induction ys generalizing s woken with
  | nil =>
    obtain ⟨e, g, he, hdue, hg, hwoken⟩ := h
    exact ⟨e, g, he, hdue, hg, fun _ => hwoken (hmem.resolve_right List.not_mem_nil)⟩
  | cons y r ih =>
    rw [List.foldl_cons, State.phExamine, hpoison, if_neg Bool.false_ne_true]
    split
    · refine ih (h.phWake y.1 y.2.1 y.2.2.2 (some (p, cid))) ?_
      rcases hmem with hwoken | hmem
      · exact .inl (.inl hwoken)
      rcases List.mem_cons.1 hmem with rfl | hmem
      · exact .inl (.inr ⟨rfl, rfl, rfl⟩)
      · exact .inr hmem
    · next hsame =>
      refine ih h (hmem.imp_right fun hmem => (List.mem_cons.1 hmem).resolve_left ?_)
      rintro rfl
      exact hsame (bne_iff_ne.2 hq)

end Waiters

/-! ### An object takes a new value -/

section Object

variable {s : State} {cid obj wid : Nat} {p q : Phase} {e : Env}

theorem State.cohort_setPhase (s : State) (cid obj : Nat) (q : Phase) (n : Nat) : (s.setPhase cid obj q).cohort n
    = if n = cid then (s.cohort cid).map fun c => { c with phases := Tbl.set c.phases Phase.initial obj q }
      else s.cohort n := Tbl.find_upd ..

theorem Cohort.phase_set (c : Cohort) (obj : Nat) (q : Phase) (o : Nat) :
    Cohort.phase { c with phases := Tbl.set c.phases Phase.initial obj q } o = if o = obj then q else c.phase o :=
  Tbl.get_set c.phases Phase.initial obj q o

/-- The surroundings of a weave change in nothing but the objects of its cohort. -/
theorem State.env_setPhase (he : s.env wid = some e) (cid obj : Nat) (q : Phase) :
    ∃ c, (s.setPhase cid obj q).env wid = some { e with c := c } := by
  obtain ⟨hwid, hw, htid, hteam, hcid, hcohort, hfid, hfield⟩ := State.env_some he
  obtain ⟨c, hc, hsame⟩ : ∃ c, (s.setPhase cid obj q).cohort e.cid = some c ∧ c.field = e.c.field := by
    rw [State.cohort_setPhase]
    split
    · next hn => exact ⟨{ e.c with phases := Tbl.set e.c.phases Phase.initial obj q }, by rw [← hn, hcohort]; rfl, rfl⟩
    · exact ⟨e.c, hcohort, rfl⟩
  have hw' : (s.setPhase cid obj q).weave wid = some e.w := hw
  have ht : (s.setPhase cid obj q).team e.w.team = some e.t := htid ▸ hteam
  have hc' : (s.setPhase cid obj q).cohort e.t.cohort = some c := hcid ▸ hc
  have hf : (s.setPhase cid obj q).field c.field = some e.f := by rw [hsame, ← hfid]; exact hfield
  refine ⟨c, ?_⟩
  simp only [State.env, hw', ht, hc', hf]
  rw [hsame, ← htid, ← hcid, ← hfid, hwid]

theorem State.mem_phWaiters {part inst d : Nat} {w : Weave} {g : Group} {r : Bool} (hmem : (wid, w) ∈ s.weaves)
    (he : s.env wid = some e) (hpart : e.part = part) (hg : g ∈ w.groups) (hsleep : g.sleep = .phase inst obj r d)
    (hhalt : g.halted = false) : (wid, g.gid, r, d) ∈ s.phWaiters part inst obj := by
  refine List.mem_flatMap.2 ⟨(wid, w), hmem, ?_⟩
  simp only [he, hpart, bne_self_eq_false, Bool.false_eq_true, if_false]
  exact List.mem_filterMap.2 ⟨g, hg, by simp [hsleep, hhalt]⟩

end Object

section Settled

variable {st : State} {x : Ctx} {i : Instr} {a b cid : Nat} {c : Cohort} {q : Phase}

/-- The state once the object that the operand names has a new value and its waiters have been examined. -/
def Ctx.phSet (x : Ctx) (a b cid : Nat) (q : Phase) : State :=
  (x.s.setPhase cid (phObj (x.phAddr a b)) q).phSettle x.e.part cid (phObj (x.phAddr a b))

theorem Ctx.phSet_cohorts (x : Ctx) (a b cid : Nat) (q : Phase) :
    (x.phSet a b cid q).cohorts = (x.s.setPhase cid (phObj (x.phAddr a b)) q).cohorts := by
  rw [Ctx.phSet, (State.phSettle_weavesOnly _ x.e.part cid (phObj (x.phAddr a b))).rest]

theorem Ctx.phSet_rest (hctx : st.ctx i = some x) (a b cid : Nat) (q : Phase) :
    let t := (Res.done (x.phSet a b cid q)).apply x i
    t = { st with cohorts := t.cohorts, weaves := t.weaves, staging := t.staging } := by
  obtain ⟨rfl, -⟩ := State.ctx_weave hctx
  intro t
  exact congrArg (fun u : State => { u with weaves := t.weaves })
    (State.setPhase_settled x.s x.e.part cid (phObj (x.phAddr a b)) q).rest

theorem Ctx.phSet_phaseIs (hc : x.s.cohort cid = some c) (a b : Nat) (q : Phase) :
    x.PhaseIs a b cid ((Res.done (x.phSet a b cid q)).apply x i) q := by
  have hcohort (n : Nat) : ((Res.done (x.phSet a b cid q)).apply x i).cohort n
      = (x.s.setPhase cid (phObj (x.phAddr a b)) q).cohort n := congrArg (Tbl.find · n) (x.phSet_cohorts a b cid q)
  refine ⟨c, _, hc, by rw [hcohort, State.cohort_setPhase, if_pos rfl, hc]; rfl, rfl, ?_, fun o ho => ?_, fun n hn => ?_⟩
  · rw [Cohort.phase_set, if_pos rfl]
  · rw [Cohort.phase_set, if_neg ho]
  · rw [hcohort, State.cohort_setPhase, if_neg hn]

theorem Group.advance_gid (g : Group) (c : Cur) (bnd : Bool) (vl : List (RegCls × Nat)) :
    (g.advance c bnd vl).gid = g.gid := by
  unfold Group.advance
  dsimp only
  split
  · rfl
  split <;> rfl

theorem Group.advance_sleep (g : Group) (c : Cur) (bnd : Bool) (vl : List (RegCls × Nat)) :
    (g.advance c bnd vl).sleep = g.sleep := by
  unfold Group.advance
  dsimp only
  split
  · rfl
  split <;> rfl

/-- A waiter that is awake stays so when the issuing group goes on. -/
theorem State.Waiter.apply {s : State} {wid gid d : Nat} (h : s.Waiter wid gid d True) (x : Ctx) (i : Instr) :
    ∃ w q, ((Res.done s).apply x i).weave wid = some w ∧ w.group gid = some q ∧ q.sleep = .awake ∧ w.getS d = 0 := by
  obtain ⟨e, g, he, -, hg, hwoken⟩ := h
  obtain ⟨hawake, hstatus⟩ := hwoken trivial
  obtain ⟨-, hw, -⟩ := State.env_some he
  have hweave : ((Res.done s).apply x i).weave wid = if wid = x.c.weave then (s.weave x.c.weave).map fun w =>
      w.updGroup x.c.gid fun g => g.advance x.c x.h.bnd (lateRegs i) else s.weave wid := State.weave_updWeave ..
  split at hweave
  · next hn =>
    rw [← hn, hw] at hweave
    refine ⟨_, _, hweave, group_map (fun q => if q.gid == x.c.gid then q.advance x.c x.h.bnd (lateRegs i) else q)
      (fun q => ?_) rfl hg, ?_, hstatus⟩
    · split
      · exact Group.advance_gid ..
      · rfl
    · split
      · exact (Group.advance_sleep ..).trans hawake
      · exact hawake
  · exact ⟨e.w, g, hweave.trans hw, hg, hawake, hstatus⟩

/-- A group that waits for a parity wakes with status 0 when the object takes another one. -/
theorem Ctx.phSet_wakes {wid d : Nat} {e : Env} {g : Group} {r : Bool} (hc : x.s.cohort cid = some c)
    (hinst : c.inst = phInst (x.phAddr a b)) (hpoison : q.poison = false) (hparity : q.parity ≠ r)
    (he : x.s.env wid = some e) (hpart : e.part = x.e.part) (hmem : (wid, e.w) ∈ x.s.weaves)
    (hg : e.w.group g.gid = some g) (hsleep : g.sleep = .phase (phInst (x.phAddr a b)) (phObj (x.phAddr a b)) r d)
    (hhalt : g.halted = false) (hdue : x.s.killDue e = false) : (x.phSet a b cid q).Waiter wid g.gid d True := by
  obtain ⟨c', henv⟩ := State.env_setPhase he cid (phObj (x.phAddr a b)) q
  have hcohort := State.cohort_setPhase x.s cid (phObj (x.phAddr a b)) q cid
  rw [if_pos rfl, hc, Option.map_some] at hcohort
  rw [Ctx.phSet, State.phSettle_eq hcohort, Cohort.phase_set, if_pos rfl]
  refine State.Waiter.examined (woken := False) hpoison cid hparity _ ⟨_, g, henv, hdue, hg, False.elim⟩ (.inr ?_)
  exact State.mem_phWaiters hmem henv hpart (List.mem_of_find?_eq_some hg) (hinst ▸ hsleep) hhalt

end Settled

/-- Settles O26: PHINIT and PHARR each put a new value in place of the object, whose waiters are then examined. -/
theorem phaseArrivals : Obligations.PhaseArrivals := by
  intro h bytes a b c cid p st x
  dsimp only
  refine ⟨fun hi hat => ?_, fun hi hn hcap => ?_, fun hi hn hat => ?_⟩
  · obtain ⟨o, ho, -, -, hsend⟩ := hat.phSend (.init bytes
      (if (x.w.getS c).extractLsb' 0 32 = 0 then 1 else (x.w.getS c).extractLsb' 0 32) x.e.f.scope) fun hrel => hrel
    have hexec := exec_phinit_passed hi hat.cap
    rw [hsend] at hexec
    exact ⟨_, hexec, Ctx.phSet_rest hi.1 a b cid _, Ctx.phSet_phaseIs ho a b _⟩
  · have hexec := exec_pharr_passed hi hcap
    rw [if_pos hn] at hexec
    exact ⟨_, _, hexec, Ctx.only_done hi.1⟩
  · obtain ⟨o, ho, hinst, rfl, hsend⟩ := hat.phSend (.arrive ((x.w.getS c).extractLsb' 0 32)) fun _ => rfl
    have hexec := exec_pharr_passed hi hat.cap
    rw [if_neg hn, hsend] at hexec
    have hact : x.s.phAct (x.phOp (x.phAddr a b) (.arrive ((x.w.getS c).extractLsb' 0 32))) cid o
        = x.phSet a b cid ((o.phase (phObj (x.phAddr a b))).arrive ((x.w.getS c).extractLsb' 0 32).toNat (some x.e.cid)) := by
      show x.s.phArrive x.e.part cid _ _ _ = _
      simp only [State.phArrive, ho]
      rfl
    rw [hact] at hexec
    obtain ⟨hs, -⟩ := State.ctx_weave hi.1
    refine ⟨_, _, hexec, Ctx.phSet_rest hi.1 a b cid _, Ctx.phSet_phaseIs ho a b _,
      Phase.arrive_arrived _ (BitVec.isLt _) _, fun wid e g d he hpart hmem hg hsleep hhalt hdue hpoison hmore => ?_⟩
    obtain ⟨hpoison', hparity⟩ := Phase.arrive_completes hpoison hmore (some x.e.cid)
    subst hs
    refine (Ctx.phSet_wakes ho hinst hpoison' ?_ he hpart hmem hg hsleep hhalt hdue).apply x _
    rw [hparity]
    exact Bool.not_ne_self _

end Sys2Proof.Machine
end

section
/-! BAR where two entries of the table of weaves bear one name (R146, R408). -/

namespace Sys2Proof.Machine

open Sys2Proof

/-- An object in its second phase with two units to come. -/
def barPhase : Phase := { Phase.initial with parity := true, remain := 2, expect := 2 }

def barGroup : Group := { strayGroup with pos := .inRun, sleep := .awake }

/-- A weave whose k0 names the phase objects of cohort 1, whose s1 is 0 and whose s2 is 1. -/
def barWeave : Weave :=
  { strayWeave with live := 1, s := [(2, 1)], k := [(0, mkCap 4096 4096 3 5)], groups := [barGroup] }

/-- The same weave while its group waits for the end of the object's first phase, with s2 for the status. -/
def barWaiting : Weave := { barWeave with groups := [{ barGroup with sleep := .phase 1 0 false 2 }] }

def barCohort : Cohort := { strayCohort with phases := [(0, barPhase)] }

def barCur : Cur where
  weave := 3
  gid := 0
  addr := 0
  len := 8
  rnd := .rne
  sat := false
  rep := 0
  reps := 1
  code := []

/-- The group of weave 3 issues, and a second entry of that name stands behind the weave's own. It is a state of the model's type,
not one that a run is meant to reach: the names of its weaves do not rise. -/
def barState : State :=
  { State.reset with
    cur := some barCur
    fields := [(0, strayField)]
    cohorts := [(1, barCohort)]
    teams := [(2, strayTeam)]
    weaves := [(3, barWeave), (3, barWaiting)] }

/-- BAR on object 0 of cohort 1, with s1 for the status. -/
def barInstr : Instr := .bar ⟨7, false, false⟩ 1 0 1

def barCtx : Ctx where
  s := barState
  e := { wid := 3, w := barWeave, tid := 2, t := strayTeam, cid := 1, c := barCohort, fid := 0, f := strayField }
  g := barGroup
  c := barCur
  h := ⟨7, false, false⟩
  act := 1

theorem barState_issues : barState.Issues barInstr barCtx := ⟨by decide +kernel, .inr (by decide +kernel)⟩

theorem barCtx_phaseAt : barCtx.PhaseAt 0 1 3 true 1 barPhase :=
  ⟨by decide +kernel, by decide +kernel, fun _ => by decide +kernel, by decide +kernel, _, rfl, by decide +kernel,
    by decide +kernel, by decide +kernel⟩

theorem barCtx_quiet : barCtx.phQuiet 0 1 := by
  intro g hg q d
  obtain rfl := List.mem_singleton.1 hg
  exact nofun

/-- The waiter of the second entry is examined, and its status 0 goes to s2 of the weave. -/
theorem bar_barState :
    (match exec barInstr barState with
      | .next t => (t.weave 3).any fun w => w.s != barWeave.s
      | _ => false) = true := by decide +kernel

/-- Refutes O27: the BAR of `barState` changes s2 of its weave, which then sleeps. The statement takes every table of weaves, also
one with two entries of one name, of which only the first is asked for quiet; of the others, and of PHTEST and PHWAIT, this says
nothing. -/
theorem not_phaseWaits : ¬ Obligations.PhaseWaits := by
  unfold Obligations.PhaseWaits
  intro h
  obtain ⟨-, -, -, -, hbar⟩ := h ⟨7, false, false⟩ 1 0 1 0 1 barPhase barState barCtx
  obtain ⟨t, hexec, -, -, -, -, hsleeps, -⟩ := hbar barState_issues barCtx_phaseAt
  obtain ⟨w, -, hw, hweave, -⟩ := hsleeps rfl (by decide) barCtx_quiet
  have hstatus := bar_barState
  have hexec' : exec barInstr barState = .next t := hexec
  have hw' : t.weave 3 = some w := hw
  have hregs : w.s = barWeave.s := by rw [hweave]; rfl
  simp [hexec', hw', hregs] at hstatus

end Sys2Proof.Machine
end

section
/-! COPY_ACCEPT where the page table holds different entries for one page (R136, R137, R396). -/

namespace Sys2Proof.Machine

open Sys2Proof

/-- The tables of partition 0: one table of each level for the first pages, and in the last one two entries of 16 KiB pages that may
be read. R136 asks for four equal entries of a page of that size; the entry of LVA 0 names the page at 0x10000, that of LVA 0x1000
the page at 0x20000. -/
def splitTables : Memory :=
  [(0x0, 0x01), (0x1, 0x1F), (0x1000, 0x01), (0x1001, 0x2F), (0x2000, 0x01), (0x2001, 0x3F), (0x3000, 0x01), (0x3001, 0x4F),
   (0x4000, 0x05), (0x4001, 0x01), (0x4002, 0x01), (0x4008, 0x05), (0x4009, 0x01), (0x400A, 0x02)]

/-- A queued copy of 64 bytes from LVA 0 and 64 bytes from LVA 0x1000 to a scratchpad. -/
def splitCopy : Copy where
  weave := 3
  team := 2
  cohort := 1
  part := 0
  core := 0
  ident := State.reset.deviceIdent 0
  scopeH := 0
  kind := .plain
  f := ⟨.tok, 0, .om, .coh, 0, 0⟩
  src := mkCap 0 0x2000 0x41 0
  dst := mkCap 0 0x1000 0x42 1
  ph := none
  srcOff := 0
  dstOff := 0
  rows := 2
  rowBytes := 64
  srcStr := 0x1000
  dstStr := 64
  promise := 0
  st := .queued
  xl := []
  got := []
  put := []
  arrived := []
  fault := none
  err := none

/-- Partition 0 in RUN with those tables, every function ready, nothing in a TLB, and the copy alone in the queue. -/
def splitState : State :=
  { State.reset with
    hd := { HostDie.initial with readyStatus := BitVec.allOnes 64 }
    parts := [(0, probePart 0)]
    mem := splitTables
    copies := [(7, splitCopy)] }

/-- The second row is at 0x21000 by its own entry. -/
theorem splitState_xlate : splitState.xlate 0 0 0x1000 0 = .ok 0x21000 := by decide +kernel

theorem splitState_accepts :
    countT splitState.copies (fun _ o => o.core == splitCopy.core && o.st == .accepted) < Config.copyActive
    ∧ splitState.accumBehind 7 splitCopy = false
    ∧ (splitState.copies.find? fun e => e.2.core == splitCopy.core && e.2.st == .queued && !splitState.copyHeld e.2)
      = some (7, splitCopy)
    ∧ (0x1000, 0) ∈ splitState.copyWants splitCopy := by decide +kernel

/-- The first row's translation is in the TLB by then and maps all of its 16 KiB: the copy keeps 0x11000 for the second row. -/
theorem copyAccept_splitState :
    (match exec (.copyAccept 0) splitState with
      | .next t => (Tbl.find t.copies 7).any fun c => Tbl.find c.xl (xlKey 0x1000 0) == some (0x11000 / 64)
      | _ => false) = true := by decide +kernel

/-- Refutes O25: the copy of `splitState` keeps for its second row a translation that the TLB gives and the tables do not. The
statement takes every page table, also one that holds different entries for one page, against R136; of the others, and of
COPY_COMPLETE and COPY_FAIL, this says nothing. -/
theorem not_copyEngine : ¬ Obligations.CopyEngine := by
  unfold Obligations.CopyEngine
  intro h
  obtain ⟨hactive, hbehind, hnext, hwants⟩ := splitState_accepts
  obtain ⟨haccept, -⟩ := h splitState 7 splitCopy rfl
  obtain ⟨t, c, hexec, hc, -, -, -, -, -, -, -, hxl, -⟩ := haccept hactive hbehind hnext
  have hown := hxl nofun (0x1000, 0) hwants 0x21000 splitState_xlate
  have htlb := copyAccept_splitState
  have hexec' : exec (.copyAccept 0) splitState = .next t := hexec
  simp only [hexec', hc, Option.any_some, hown] at htlb
  exact absurd htlb (by decide)

end Sys2Proof.Machine
end

section
/-! ACCESS_COMPLETE of a load from memory of this module (R133, R152–R154, R376–R378). -/

namespace Sys2Proof.Machine

open Sys2Proof

/-! ### What a load makes of the staged lines (R133, R153) -/

/-- A state with other staged lines, of which none is new. -/
structure State.Relined (s t : State) : Prop where
  rest : t = { s with staging := t.staging }
  none_new : ∀ core path l, s.staged core path l = none → t.staged core path l = none

section Lines

variable {s t u : State}

theorem State.Relined.refl (s : State) : s.Relined s := ⟨rfl, fun _ _ _ h => h⟩

theorem State.Relined.trans (h : s.Relined t) (h' : t.Relined u) : s.Relined u :=
  ⟨by rw [h'.rest, h.rest], fun core path l hl => h'.none_new core path l (h.none_new core path l hl)⟩

theorem State.relined_refreshL1 (s : State) (core : Nat) (l : Loc) (n : Nat) : s.Relined (s.refreshL1 core l n) := by
  refine ⟨rfl, fun core path l hl => ?_⟩
  rw [State.staged, List.find?_eq_none] at hl ⊢
  intro x hx
  obtain ⟨y, hy, rfl⟩ := List.mem_map.1 hx
  have hmiss := hl y hy
  split
  · exact hmiss
  · exact hmiss

theorem State.relined_acquireAt (s : State) (core : Nat) : s.Relined (s.acquireAt core) := by
  refine ⟨rfl, fun core path l hl => ?_⟩
  rw [State.staged, List.find?_eq_none] at hl ⊢
  exact fun x hx => hl x (List.mem_filter.1 hx).1

end Lines

/-! ### One access of a load -/

/-- An access with what is at its home. -/
def Acc.readAt (a : Acc) (s : State) : Acc := { a with got := some (s.peek a.loc a.size) }

/-- A load all of whose accesses have been read. -/
def LsOp.readAt (p : LsOp) (s : State) : LsOp := { p with accs := p.accs.map (·.readAt s) }

/-- An access without its value. -/
def Acc.unread (a : Acc) : Acc := { a with got := none }

/-- Accesses of which the one at `i` takes a value, and with it those that share it (R377). -/
def Acc.fill (l : List Acc) (a : Acc) (i : Nat) (v : BitVec 128 × Bool) : List Acc :=
  (l.set i { a with got := some v }).map fun b => if b.got.isNone && a.shares b then { b with got := some v } else b

/-- An access of a load from sound memory that serves, which no earlier access holds back, no store of its own threads serves and
no release keeps from pairing, and whose line is not staged where a line may serve it (R14, R133, R152–R157, R162). -/
structure State.Readable (s : State) (id : Nat) (p : LsOp) (a : Acc) : Prop where
  op : a.op = .read
  fresh : a.inc = false ∧ a.torn = []
  loc : a.loc = .mem (Loc.pa a.loc)
  sound : s.eccBad (Loc.pa a.loc) = false
  ready : s.locReady a.loc = true
  ordered : s.ordered id p a = true
  unserved : s.forwarded id p a = none
  paired : p.sem = .acq ∨ p.sem = .acqrel → s.mismatched a.loc a.size p.scope p.ident = false
  unstaged : p.scope = .team → s.staged p.ident.coreNum .ls a.loc = none

section Access

variable {s : State} {id : Nat} {p : LsOp} {a b : Acc}

/-- Without a staged line a load reads its home. -/
theorem State.Readable.loadVal (h : s.Readable id p a) : s.loadVal p a = s.peek a.loc a.size := by
  have htorn (v : BitVec 128) : a.withTorn v = v := by simp [Acc.withTorn, h.fresh.2]
  unfold State.loadVal
  split
  · next hline =>
    have hmem : a.loc.isMem = true := by rw [h.loc]; rfl
    simp only [LsOp.viaLine, h.op, hmem, Bool.and_eq_true, decide_eq_true_eq, Bool.not_true, Bool.false_or, beq_iff_eq] at hline
    obtain ⟨⟨-, hsize⟩, hteam, -⟩ := hline
    have htag : (a.size == 16) = false := beq_eq_false_iff_ne.2 (by omega)
    rw [State.readVia, h.unstaged hteam, htorn, State.peek, htag, Bool.false_and]
  · simp only [htorn]

theorem State.Readable.eligible (h : s.Readable id p a) (hkind : p.kind = .ld) (i : Nat) :
    s.eligible id p a i = a.got.isNone := by
  simp [State.eligible, State.inner, h.ready, h.ordered, h.fresh.1, hkind]

/-- A read changes at most staged lines, and its value is what is at its home. -/
theorem State.Readable.performOp (h : s.Readable id p a) :
    ∃ u, s.Relined u ∧ ∀ rel bad, s.performOp id p a rel bad = (u, s.peek a.loc a.size) := by
  refine ⟨if p.viaLine a then s else s.refreshL1 p.ident.coreNum a.loc a.size, ?_, fun rel bad => ?_⟩
  · split
    · exact .refl s
    · exact s.relined_refreshL1 _ _ _
  · simp only [State.performOp, h.op, h.unserved, h.loadVal]

/-- A readable access takes what is at its home, and so do those that share it. -/
theorem State.Readable.performAcc (h : s.Readable id p a) (i : Nat) :
    ∃ u, s.Relined u ∧ s.performAcc id p a i
      = u.updLs id fun o => { o with accs := Acc.fill o.accs a i (s.peek a.loc a.size) } := by
  obtain ⟨pa, hloc, hsound⟩ : ∃ pa, a.loc = .mem pa ∧ s.eccBad pa = false := ⟨_, h.loc, h.sound⟩
  obtain ⟨u, hu, hop⟩ := h.performOp
  unfold State.performAcc
  simp only [hloc, hsound]
  rw [← hloc]
  simp only [hop, Bool.false_and, Bool.or_false]
  cases hacq : (p.sem == .acq || p.sem == .acqrel) with
  | false => exact ⟨u, hu, by simp only [Bool.false_and, Bool.false_eq_true, if_false]; rfl⟩
  | true =>
    have hpaired := h.paired (by simpa using hacq)
    refine ⟨_, hu.trans (u.relined_acquireAt p.ident.coreNum), ?_⟩
    simp only [hpaired, Bool.and_false, Bool.false_and, Bool.false_eq_true, if_false, if_true]
    rfl

end Access

/-! ### The accesses of a load, one after another -/

section Reading

variable {s t : State} {id : Nat} {p : LsOp} {a b : Acc} {l : List Acc}

/-- Which threads an access stands with does not depend on the values that have come. -/
theorem LsOp.threads_unread (hl : l.map Acc.unread = p.accs) (a : Acc) :
    ({ p with accs := l } : LsOp).threads a = p.threads a := by
  unfold LsOp.threads
  dsimp only
  rw [← hl, List.foldl_map]
  rfl

theorem State.blocks_unread (hl : l.map Acc.unread = p.accs) (s : State) (q : LsOp) (b : Acc) (sent : Bool) (a : Acc) :
    s.blocks q b sent { p with accs := l } a = s.blocks q b sent p a := by
  simp only [State.blocks, LsOp.forwards, LsOp.threads_unread hl]
  rfl

/-- Where a load stands after some of its accesses have been read: of its state at most staged lines have changed, and an access
has no value or what is at its home. -/
structure State.Reading (s t : State) (id : Nat) (p : LsOp) (l : List Acc) : Prop where
  rest : t = { s with lsOps := t.lsOps, staging := t.staging }
  found : Tbl.find t.lsOps id = some { p with accs := l }
  others : ∀ e ∈ t.lsOps, e.1 ≠ id → e ∈ s.lsOps
  same : ∀ n, n ≠ id → Tbl.find t.lsOps n = Tbl.find s.lsOps n
  none_new : ∀ core path loc, s.staged core path loc = none → t.staged core path loc = none
  unread : l.map Acc.unread = p.accs
  values : ∀ b ∈ l, b.got = none ∨ b.got = some (s.peek b.loc b.size)

/-- The other operations of the weave are those of before. -/
theorem State.Reading.ordered (h : s.Reading t id p l) (ha : s.ordered id p a = true) :
    t.ordered id { p with accs := l } a = true := by
  simp only [State.ordered, Bool.and_eq_true, List.all_eq_true] at ha ⊢
  obtain ⟨hbehind, hops⟩ := ha
  refine ⟨by rw [h.rest]; exact hbehind, fun e he => ?_⟩
  by_cases hid : e.1 = id
  · simp [hid]
  · have hkeep := hops e (h.others e he hid)
    rw [h.rest]
    simp only [State.blocks_unread h.unread]
    exact hkeep

theorem State.Reading.forwarded (h : s.Reading t id p l) (ha : s.forwarded id p a = none) :
    t.forwarded id { p with accs := l } a = none := by
  simp only [State.forwarded, List.getLast?_eq_none_iff, List.flatMap_eq_nil_iff] at ha ⊢
  intro e he
  by_cases hid : e.1 = id
  · simp [hid]
  · have hkeep := ha e (h.others e he hid)
    simp only [LsOp.forwards, LsOp.threads_unread h.unread]
    exact hkeep

/-- What is left to read is readable still. -/
theorem State.Reading.readable (h : s.Reading t id p l) (ha : s.Readable id p a) : t.Readable id { p with accs := l } a where
  op := ha.op
  fresh := ha.fresh
  loc := ha.loc
  sound := by rw [h.rest]; exact ha.sound
  ready := by rw [h.rest]; exact ha.ready
  ordered := h.ordered ha.ordered
  unserved := h.forwarded ha.unserved
  paired := by rw [h.rest]; exact ha.paired
  unstaged := fun hteam => h.none_new _ _ _ (ha.unstaged hteam)

theorem State.Reading.peek (h : s.Reading t id p l) (ha : a.loc = .mem (Loc.pa a.loc)) :
    t.peek a.loc a.size = s.peek a.loc a.size := by
  rw [h.rest, ha]
  rfl

theorem State.Reading.start (hfound : Tbl.find s.lsOps id = some p) (hfresh : ∀ a ∈ p.accs, a.got = none) :
    s.Reading s id p p.accs := by
  refine ⟨rfl, hfound, fun e he _ => he, fun _ _ => rfl, fun _ _ _ h => h, ?_, fun b hb => .inl (hfresh b hb)⟩
  refine (List.map_congr_left fun a ha => ?_).trans p.accs.map_id
  rw [Acc.unread, ← hfresh a ha, id_eq]

section Fill

variable {i j : Nat} {v : BitVec 128 × Bool}

/-- Filling changes values alone. -/
theorem Acc.map_unread_fill (hi : l[i]? = some a) (v : BitVec 128 × Bool) :
    (Acc.fill l a i v).map Acc.unread = l.map Acc.unread := by
  have hkeep : (Acc.unread ∘ fun b => if b.got.isNone && a.shares b then { b with got := some v } else b) = Acc.unread := by
    funext b
    simp only [Function.comp_apply]
    split <;> rfl
  obtain ⟨hlt, rfl⟩ := List.getElem?_eq_some_iff.1 hi
  have hthere : Acc.unread { l[i] with got := some v } = (l.map Acc.unread)[i]'(by simpa) := by
    rw [List.getElem_map]
    rfl
  rw [Acc.fill, List.map_map, hkeep, List.map_set, hthere, List.set_getElem_self]

/-- An access that filling gives was there or has the value of the access read, whose place and size it has. -/
theorem Acc.mem_fill (hb : b ∈ Acc.fill l a i v) : b ∈ l ∨ b.got = some v ∧ b.loc = a.loc ∧ b.size = a.size := by
  obtain ⟨c, hc, rfl⟩ := List.mem_map.1 hb
  split
  · next hshares =>
    simp only [Acc.shares, Bool.and_eq_true, beq_iff_eq] at hshares
    obtain ⟨-, ⟨⟨-, hloc⟩, hsize⟩, -⟩ := hshares
    exact .inr ⟨rfl, hloc.symm, hsize.symm⟩
  · rcases List.mem_or_eq_of_mem_set hc with hc | rfl
    · exact .inl hc
    · exact .inr ⟨rfl, rfl, rfl⟩

/-- After filling, the access at `i` has its value, and each that had one. -/
theorem Acc.got_fill (hj : ∀ c, l[j]? = some c → j = i ∨ c.got.isSome = true) (hb : (Acc.fill l a i v)[j]? = some b) :
    b.got.isSome = true := by
  obtain ⟨c, hc, rfl⟩ := Option.map_eq_some_iff.1 (List.getElem?_map.symm.trans hb)
  split
  · rfl
  · rw [List.getElem?_set] at hc
    split at hc
    · obtain rfl := Option.some.inj (Option.ite_none_right_eq_some.1 hc).2
      rfl
    · next hne => exact (hj c hc).resolve_left (Ne.symm hne)

end Fill

theorem State.Reading.perform (h : s.Reading t id p l) {i : Nat} (hi : l[i]? = some a) (ha : s.Readable id p a) :
    s.Reading (t.performAcc id { p with accs := l } a i) id p (Acc.fill l a i (s.peek a.loc a.size)) := by
  obtain ⟨u, hu, hperform⟩ := (h.readable ha).performAcc i
  have hops : u.lsOps = t.lsOps := by rw [hu.rest]
  rw [hperform, h.peek ha.loc]
  refine ⟨?_, ?_, fun e he hid => ?_, fun n hn => ?_, fun core path loc hs => ?_, ?_, fun b hb => ?_⟩
  · rw [hu.rest, h.rest]
    rfl
  · rw [State.updLs_lsOps, hops, Tbl.find_upd_self, h.found, Option.map_some]
  · rw [State.updLs_lsOps, hops] at he
    rcases Tbl.mem_upd_some h.found he with rfl | ⟨hmem, -⟩
    · exact absurd rfl hid
    · exact h.others e hmem hid
  · rw [State.updLs_lsOps, hops, Tbl.find_upd_other _ _ hn, h.same n hn]
  · exact hu.none_new core path loc (h.none_new core path loc hs)
  · rw [Acc.map_unread_fill hi, h.unread]
  · rcases Acc.mem_fill hb with hb | ⟨hgot, hloc, hsize⟩
    · exact h.values b hb
    · exact .inr (by rw [hgot, hloc, hsize])

/-- A load of which every access is readable. -/
def State.Loads (s : State) (id : Nat) (p : LsOp) : Prop := p.kind = .ld ∧ ∀ a ∈ p.accs, s.Readable id p a

/-- The attempt at access `n` reads it, if it has not been read. -/
theorem State.Reading.tryAcc (h : s.Reading t id p l) (hp : s.Loads id p) {n : Nat} (hn : n < p.accs.length)
    (hdone : ∀ j < n, ∀ b, l[j]? = some b → b.got.isSome = true) :
    ∃ l', s.Reading (t.tryAcc id n) id p l' ∧ ∀ j < n + 1, ∀ b, l'[j]? = some b → b.got.isSome = true := by
  obtain ⟨hkind, hreadable⟩ := hp
  have hlen : l.length = p.accs.length := by rw [← h.unread, List.length_map]
  obtain ⟨a, ha⟩ : ∃ a, l[n]? = some a := ⟨_, List.getElem?_eq_getElem (hlen ▸ hn)⟩
  have htry : t.tryAcc id n
      = if t.eligible id { p with accs := l } a n then t.performAcc id { p with accs := l } a n else t := by
    unfold State.tryAcc
    simp only [h.found, ha]
  have hsplit {j : Nat} (hj : j < n + 1) : j < n ∨ j = n := by omega
  rw [htry]
  cases hgot : a.got with
  | some v =>
    have hnot : t.eligible id { p with accs := l } a n = false := by simp [State.eligible, hgot]
    rw [hnot]
    refine ⟨l, h, fun j hj b hb => ?_⟩
    rcases hsplit hj with hj | rfl
    · exact hdone j hj b hb
    · obtain rfl := Option.some.inj (ha.symm.trans hb)
      rw [hgot]
      rfl
  | none =>
    have hmem : a ∈ p.accs := by
      rw [← h.unread]
      exact List.mem_map.2 ⟨a, List.mem_of_getElem? ha, by rw [Acc.unread, ← hgot]⟩
    rw [(h.readable (hreadable a hmem)).eligible hkind, hgot]
    refine ⟨_, h.perform ha (hreadable a hmem), fun j hj b hb => Acc.got_fill (fun c hc => ?_) hb⟩
    exact (hsplit hj).symm.imp_right fun hj => hdone j hj c hc

/-- When the accesses have been attempted in their order, each has what is at its home. -/
theorem State.Loads.tryOp (hp : s.Loads id p) (hfound : Tbl.find s.lsOps id = some p) (hfresh : ∀ a ∈ p.accs, a.got = none) :
    s.Reading (s.tryOp id) id p (p.readAt s).accs := by
  have hloop : ∀ n ≤ p.accs.length, ∃ l, s.Reading ((List.range n).foldl (fun s i => s.tryAcc id i) s) id p l
      ∧ ∀ j < n, ∀ b, l[j]? = some b → b.got.isSome = true := by
    intro n
    induction n with
    | zero => exact fun _ => ⟨_, .start hfound hfresh, nofun⟩
    | succ n ih =>
      intro hn
      obtain ⟨l, hl, hdone⟩ := ih (by omega)
      rw [List.range_succ, List.foldl_append]
      exact hl.tryAcc hp hn hdone
  obtain ⟨l, hl, hdone⟩ := hloop _ (le_refl _)
  have hall : l = (p.readAt s).accs := by
    rw [LsOp.readAt, ← hl.unread, List.map_map]
    refine (List.map_id l).symm.trans (List.map_congr_left fun b hb => ?_)
    obtain ⟨j, hj, hbj⟩ := List.mem_iff_getElem.1 hb
    have hgot : b.got.isSome = true := hdone j (by rwa [← hl.unread, List.length_map]) b
      (List.getElem?_eq_some_iff.2 ⟨hj, hbj⟩)
    rcases hl.values b hb with hnone | hsome
    · rw [hnone] at hgot
      cases hgot
    · exact congrArg (fun g => ({ b with got := g } : Acc)) hsome
  have htry : s.tryOp id = (List.range p.accs.length).foldl (fun s i => s.tryAcc id i) s := by
    unfold State.tryOp
    rw [hfound]
  rw [htry, ← hall]
  exact hl

/-- An operation that is whole leaves no error. -/
theorem State.Local.errors {w : Weave} (h : s.Local id p w) : p.errors = [] := by
  obtain ⟨-, herr, hecc, -⟩ := h.whole
  simp [LsOp.errors, herr, hecc]

/-- ACCESS_COMPLETE of such a load ends it with the values at their homes. -/
theorem State.Loads.accessComplete {w : Weave} (hp : s.Loads id p) (h : s.Local id p w) : ∃ t,
    s.Reading t id p (p.readAt s).accs ∧ exec (.accessComplete id) s = .next { t with
      weaves := Tbl.upd s.weaves p.weave (·.finish id (p.readAt s)), lsOps := Tbl.del t.lsOps id } := by
  obtain ⟨hhole, -, -, hott⟩ := h.whole
  have hread := hp.tryOp h.found fun a ha => (h.fresh a ha).1
  have hdone : State.opDone (s.tryOp id) id (p.readAt s) = true := by
    rw [hread.rest]
    simp [State.opDone, LsOp.readAt, Acc.readAt, hhole, hott]
  have herrors : (p.readAt s).errors = [] := h.errors
  have hclose : s.closeHole id p = s := by rw [State.closeHole, hhole]
  have hfinish : (s.tryOp id).finishIfDone id = (s.tryOp id).finishLs id (p.readAt s) := by
    unfold State.finishIfDone
    rw [hread.found]
    exact if_pos hdone
  have hweaves : (s.tryOp id).weaves = s.weaves := by rw [hread.rest]
  refine ⟨s.tryOp id, hread, ?_⟩
  rw [exec_accessComplete, execAccessComplete, h.found]
  dsimp only
  rw [hclose, hfinish, State.finishLs_done _ _ herrors, hweaves]
  rfl

end Reading

/-! ### Destinations (R376) -/

section Dest

variable {w : Weave} {p : LsOp} {r : Nat} {wide : Bool} {a : Acc} {v : BitVec 128 × Bool} {as : List Acc}

/-- A per-thread destination takes the value of an access, where the thread lives. -/
def Weave.takeAcc (w : Weave) (r : Nat) (wide : Bool) (a : Acc) : Weave :=
  match a.got with
  | some (x, _) =>
    if !w.live.has a.lane then w
    else if wide then w.setV64 r a.lane (x.extractLsb' 0 64) else w.setV r a.lane (x.extractLsb' 0 32)
  | none => w

theorem Weave.writeDest_v (hd : p.dest = .v r wide) (w : Weave) : w.writeDest p = p.accs.foldl (·.takeAcc r wide ·) w := by
  unfold Weave.writeDest
  rw [hd]
  rfl

theorem Weave.takeAcc_live (hgot : a.got = some v) (hlive : w.live.has a.lane = true) : w.takeAcc r wide a
    = if wide then w.setV64 r a.lane (v.1.extractLsb' 0 64) else w.setV r a.lane (v.1.extractLsb' 0 32) := by
  unfold Weave.takeAcc
  simp [hgot, hlive]

/-- Of a thread that has ended or an access without a value nothing is written. -/
theorem Weave.takeAcc_cases (w : Weave) (r : Nat) (wide : Bool) (a : Acc) : w.takeAcc r wide a = w
    ∨ w.live.has a.lane = true ∧ ∃ x : BitVec 128, w.takeAcc r wide a
      = if wide then w.setV64 r a.lane (x.extractLsb' 0 64) else w.setV r a.lane (x.extractLsb' 0 32) := by
  cases hgot : a.got with
  | none => exact .inl (by rw [Weave.takeAcc, hgot])
  | some v =>
    by_cases hlive : w.live.has a.lane = true
    · exact .inr ⟨hlive, v.1, Weave.takeAcc_live hgot hlive⟩
    · exact .inl (by simp [Weave.takeAcc, hgot, hlive])

theorem Weave.live_takeAcc (w : Weave) (r : Nat) (wide : Bool) (a : Acc) : (w.takeAcc r wide a).live = w.live := by
  rcases w.takeAcc_cases r wide a with h | ⟨-, x, h⟩
  · rw [h]
  · rw [h]
    split
    · obtain ⟨-, -, -, -, hlive, -⟩ := (w.sameBut_setV64 r a.lane (x.extractLsb' 0 64)).names
      exact hlive
    · obtain ⟨-, -, -, -, hlive, -⟩ := (w.sameBut_setV r a.lane (x.extractLsb' 0 32)).names
      exact hlive

theorem Weave.getV_setV_lane (w : Weave) (r : Nat) (x : W32) {l j : Nat} (hl : l < 32) (hj : j < 32) (hne : l ≠ j) (m : Nat) :
    (w.setV r l x).getV m j = w.getV m j := by
  rw [Weave.getV_setV w r l x m j hl hj, if_neg fun h => hne h.2.1.symm]

/-- The registers of the other threads stay. -/
theorem Weave.getV_takeAcc_other {l : Nat} (hl : l < 32) (hne : a.lane ≠ l) (w : Weave) (m : Nat) :
    (w.takeAcc r wide a).getV m l = w.getV m l := by
  rcases w.takeAcc_cases r wide a with h | ⟨hlive, x, h⟩
  · rw [h]
  · have hlane : a.lane < 32 := BitVec.lt_of_getLsbD hlive
    rw [h]
    cases wide with
    | false => exact w.getV_setV_lane r _ hlane hl hne m
    | true =>
      rw [if_pos rfl, Weave.setV64]
      split
      · rfl
      · rw [Weave.getV_setV_lane _ _ _ hlane hl hne, Weave.getV_setV_lane _ _ _ hlane hl hne]

theorem Weave.foldl_takeAcc_other {l : Nat} (hl : l < 32) (hne : ∀ b ∈ as, b.lane ≠ l) (w : Weave) (m : Nat) :
    (as.foldl (·.takeAcc r wide ·) w).getV m l = w.getV m l := by
  induction as generalizing w with
  | nil => rfl
  | cons b as ih =>
    rw [List.foldl_cons, ih fun c hc => hne c (List.mem_cons_of_mem _ hc), Weave.getV_takeAcc_other hl (hne b List.mem_cons_self)]

theorem Weave.live_foldl_takeAcc (w : Weave) : (as.foldl (·.takeAcc r wide ·) w).live = w.live := by
  induction as generalizing w with
  | nil => rfl
  | cons b as ih => rw [List.foldl_cons, ih, Weave.live_takeAcc]

/-- A thread of which there is one access has in its registers what that access leaves. -/
theorem Weave.getV_foldl_takeAcc (hlanes : (as.map (·.lane)).Nodup) (ha : a ∈ as) (hlane : a.lane < 32) (w : Weave) :
    ∃ u : Weave, u.live = w.live ∧ ∀ m, (as.foldl (·.takeAcc r wide ·) w).getV m a.lane = (u.takeAcc r wide a).getV m a.lane := by
  obtain ⟨pre, post, rfl⟩ := List.append_of_mem ha
  rw [List.map_append, List.map_cons, List.nodup_append, List.nodup_cons] at hlanes
  obtain ⟨-, ⟨hpost, -⟩, -⟩ := hlanes
  refine ⟨pre.foldl (·.takeAcc r wide ·) w, w.live_foldl_takeAcc, fun m => ?_⟩
  rw [List.foldl_append, List.foldl_cons]
  exact Weave.foldl_takeAcc_other hlane (fun b hb he => hpost (List.mem_map.2 ⟨b, hb, he⟩)) _ m

/-- A 32-bit destination. -/
theorem Weave.getV_writeDest_lane (hd : p.dest = .v r false) (hr : r ≠ 255) (hlanes : (p.accs.map (·.lane)).Nodup)
    (ha : a ∈ p.accs) (hgot : a.got = some v) (hlive : w.live.has a.lane = true) (hlane : a.lane < 32) :
    (w.writeDest p).getV r a.lane = v.1.extractLsb' 0 32 := by
  obtain ⟨u, hu, hlast⟩ := Weave.getV_foldl_takeAcc (r := r) (wide := false) hlanes ha hlane w
  rw [Weave.writeDest_v hd, hlast, Weave.takeAcc_live hgot (hu ▸ hlive)]
  simp [Weave.getV_setV u r a.lane _ r a.lane hlane hlane, hr]

theorem Weave.getV64_setV64 (w : Weave) {l : Nat} (hr : r < 254) (hl : l < 32) (x : W64) : (w.setV64 r l x).getV64 r l = x := by
  have h255 : ¬ r = 255 := by omega
  have h254 : r + 1 ≠ 255 := by omega
  simp only [Weave.setV64, Weave.getV64, if_neg h255]
  rw [Weave.getV_setV _ _ _ _ (r + 1) l hl hl, Weave.getV_setV _ _ _ _ r l hl hl, Weave.getV_setV _ _ _ _ r l hl hl]
  simp only [and_true, h254, h255, ne_eq, not_false_eq_true, if_true, Nat.left_eq_add, one_ne_zero, if_false]
  exact split_cat (m := 32) (k := 32) x

/-- A 64-bit destination. -/
theorem Weave.getV64_writeDest_lane (hd : p.dest = .v r true) (hr : r < 254) (hlanes : (p.accs.map (·.lane)).Nodup)
    (ha : a ∈ p.accs) (hgot : a.got = some v) (hlive : w.live.has a.lane = true) (hlane : a.lane < 32) :
    (w.writeDest p).getV64 r a.lane = v.1.extractLsb' 0 64 := by
  obtain ⟨u, hu, hlast⟩ := Weave.getV_foldl_takeAcc (r := r) (wide := true) hlanes ha hlane w
  rw [Weave.getV64, if_neg (by omega), Weave.writeDest_v hd, hlast, hlast, Weave.takeAcc_live hgot (hu ▸ hlive)]
  have hpair := u.getV64_setV64 hr hlane (v.1.extractLsb' 0 64)
  rwa [Weave.getV64, if_neg (by omega)] at hpair

theorem Weave.getK_writeDest (hd : p.dest = .k r) (hacc : p.accs = [a]) (hgot : a.got = some v) (htakes : w.takes p.lanes = true) :
    (w.writeDest p).getK r = capLoaded v.1 v.2 := by
  simp [Weave.writeDest, hd, hacc, hgot, htakes]

end Dest

/-! ### What has come of a load that has completed -/

section Completed

variable {s t : State} {id : Nat} {p : LsOp} {w : Weave} {a : Acc} {l : List Acc}

theorem extractLsb'_ofNat_low (x : Nat) {n : Nat} (hn : n ≤ 128) : (BitVec.ofNat 128 x).extractLsb' 0 n = BitVec.ofNat n x := by
  apply BitVec.eq_of_toNat_eq
  rw [BitVec.extractLsb'_toNat, BitVec.toNat_ofNat, BitVec.toNat_ofNat, Nat.shiftRight_zero,
    Nat.mod_mod_of_dvd _ (Nat.pow_dvd_pow 2 hn)]

/-- The value of an access is the bytes of memory, the lowest first. -/
theorem State.peek_low (s : State) (ha : a.loc = .mem (Loc.pa a.loc)) {n : Nat} (hn : n ≤ 128) :
    (s.peek a.loc a.size).1.extractLsb' 0 n = BitVec.ofNat n (Memory.num s.mem (Loc.pa a.loc) a.size) := by
  rw [State.peek, extractLsb'_ofNat_low _ hn, ha]
  rfl

/-- The value of 16 bytes is theirs with their tag (R125). -/
theorem State.peek_cap (s : State) (ha : a.loc = .mem (Loc.pa a.loc)) (hsize : a.size = 16) : s.peek a.loc a.size
    = (BitVec.ofNat 128 (Memory.num s.mem (Loc.pa a.loc) 16), s.tags.contains (Loc.pa a.loc / 16)) := by
  rw [State.peek, hsize, ha]
  rfl

/-- A load that has been read and ends has completed (R106, R109, R378). -/
theorem State.Reading.completed (h : s.Reading t id p l) (hweave : s.weave p.weave = some w) (herrors : p.errors = []) :
    s.Completed { t with
      weaves := Tbl.upd s.weaves p.weave (·.finish id { p with accs := l }), lsOps := Tbl.del t.lsOps id } id p w
      (w.finish id { p with accs := l }) := by
  have hfinish := Weave.finish_done (w := w) (id := id) (p := { p with accs := l }) herrors
  refine ⟨by simp [Tbl.find_del], fun n hn => ?_, ?_, fun n hn => ?_, ?_, fun n => ?_, ?_⟩
  · exact (Tbl.find_del ..).trans ((if_neg hn).trans (h.same n hn))
  · exact (State.weave_updWeave ..).trans (by rw [if_pos rfl, hweave]; rfl)
  · exact (State.weave_updWeave ..).trans (if_neg hn)
  · rw [hfinish, Weave.writeDest_eq]
  · rw [hfinish]
    exact w.getCf_countDown p.flag n
  · rw [hfinish]

theorem State.Local.loads (h : s.Local id p w) (hkind : p.kind = .ld)
    (haccs : ∀ a ∈ p.accs, a.op = .read ∧ s.forwarded id p a = none
      ∧ (p.sem = .acq ∨ p.sem = .acqrel → s.mismatched a.loc a.size p.scope p.ident = false)
      ∧ (p.scope = .team → s.staged p.ident.coreNum .ls a.loc = none)) : s.Loads id p := by
  refine ⟨hkind, fun a ha => ?_⟩
  obtain ⟨hop, hown, hpaired, hunstaged⟩ := haccs a ha
  obtain ⟨hloc, hsound⟩ := h.inMem a ha
  obtain ⟨-, hinc, htorn⟩ := h.fresh a ha
  obtain ⟨hready, hordered⟩ := h.ready a ha
  exact ⟨hop, ⟨hinc, htorn⟩, hloc, hsound, hready, hordered, hown, hpaired, hunstaged⟩

end Completed

/-- Settles O15: the load reads each access at its home (`State.Loads.accessComplete`), and what has been read goes to the
destination. -/
theorem loadCompletes : Obligations.LoadCompletes := by
  unfold Obligations.LoadCompletes
  intro s id p w hlocal hkind haccs alive
  have hmem {a : Acc} (ha : a ∈ p.accs) : a.loc = .mem (Loc.pa a.loc) := (hlocal.inMem a ha).1
  obtain ⟨t, hread, hexec⟩ := (hlocal.loads hkind haccs).accessComplete hlocal
  have hfinish := Weave.finish_done (w := w) (id := id) (p := p.readAt s) hlocal.errors
  have hlanes : ((p.readAt s).accs.map (·.lane)) = p.accs.map (·.lane) := List.map_map
  have hreadAt {a : Acc} (ha : a ∈ p.accs) : a.readAt s ∈ (p.readAt s).accs := List.mem_map_of_mem ha
  have hsingle {a : Acc} (ha : p.accs = [a]) : (p.readAt s).accs = [a.readAt s] := by rw [LsOp.readAt, ha]; rfl
  refine ⟨_, w.finish id (p.readAt s), hexec, hread.completed hlocal.weave hlocal.errors, ?_, ?_,
    fun r hd hr hnodup a ha hlive hlane => ?_,
    fun r hd hr hnodup a ha hlive hlane => ?_, fun r a hd ha halive => ?_, fun r a hd ha hsize halive => ?_⟩
  · rw [hread.rest]
  · rw [hfinish, Weave.writeDest_eq]
  · rw [hfinish, ← s.peek_low (hmem ha) (by decide)]
    exact Weave.getV_writeDest_lane (p := p.readAt s) (a := a.readAt s) hd hr (hlanes ▸ hnodup) (hreadAt ha) rfl hlive hlane
  · rw [hfinish, ← s.peek_low (hmem ha) (by decide)]
    exact Weave.getV64_writeDest_lane (p := p.readAt s) (a := a.readAt s) hd hr (hlanes ▸ hnodup) (hreadAt ha) rfl hlive hlane
  · have hmem_a : a ∈ p.accs := by simp [ha]
    rw [hfinish, ← s.peek_low (hmem hmem_a) (by decide)]
    exact Weave.getS_writeDest (p := p.readAt s) hd (hsingle ha) rfl (Weave.takes_of halive.1 halive.2)
  · have hmem_a : a ∈ p.accs := by simp [ha]
    have htakes := Weave.getK_writeDest (p := p.readAt s) hd (hsingle ha) rfl (Weave.takes_of halive.1 halive.2)
    rw [s.peek_cap (hmem hmem_a) hsize] at htakes
    rw [hfinish]
    exact htakes

end Sys2Proof.Machine
end

section
/-! Computations of the KV path: what holds of whatever they answer, and what each leaves unchanged (R184, R188–R192). -/

namespace Sys2Proof.Machine

open Sys2Proof

/-! ### Computations that may stop -/

section Ensures

variable {α β : Type}

theorem KM.ok_bind (a : α) (f : α → KM β) : ((Except.ok a : KM α) >>= f) = f a := rfl

theorem KM.bind_eq_ok {m : KM α} {f : α → KM β} {b : β} : (m >>= f) = .ok b ↔ ∃ a, m = .ok a ∧ f a = .ok b := by
  cases m with
  | error e => simp [bind, Except.bind]
  | ok a => simp [bind, Except.bind]

theorem KM.pure_eq_ok {a b : α} : (pure a : KM α) = .ok b ↔ a = b := Except.ok.injEq a b ▸ Iff.rfl

/-- Whatever the computation answers satisfies `P`. -/
def KM.Ensures (m : KM α) (P : α → Prop) : Prop := ∀ a, m = .ok a → P a

variable {P : β → Prop}

theorem KM.ensures_pure {b : β} (h : P b) : KM.Ensures (pure b) P := fun _ hb => KM.pure_eq_ok.1 hb ▸ h

theorem KM.ensures_error (e : KErr) : KM.Ensures (.error e) P := nofun

theorem KM.ensures_true (m : KM α) : m.Ensures fun _ => True := fun _ _ => trivial

theorem KM.Ensures.bind {Q : α → Prop} {m : KM α} {f : α → KM β} (hm : m.Ensures Q) (hf : ∀ a, Q a → (f a).Ensures P) :
    (m >>= f).Ensures P := fun b hb => by
  obtain ⟨a, ha, hfa⟩ := KM.bind_eq_ok.1 hb
  exact hf a (hm a ha) b hfa

/-- A read before a computation changes nothing. -/
theorem KM.ensures_read {m : KM α} {f : α → KM β} (hf : ∀ a, (f a).Ensures P) : (m >>= f).Ensures P :=
  (KM.ensures_true m).bind fun a _ => hf a

theorem KM.ensures_map {m : KM α} {f : α → β} (hf : ∀ a, P (f a)) : KM.Ensures (m.map f) P := by
  cases m with
  | error e => exact nofun
  | ok a => exact KM.ensures_pure (hf a)

/-- What every step of a fold keeps holds at its end. -/
theorem KM.ensures_foldlM {f : β → α → KM β} (hf : ∀ b a, P b → (f b a).Ensures P) {l : List α} {b : β} (hb : P b) :
    (l.foldlM f b).Ensures P := by
  induction l generalizing b with
  | nil => exact KM.ensures_pure hb
  | cons a l ih => exact (hf b a hb).bind fun c hc => ih hc

/-- A fold of tests, all of which answer. -/
theorem KM.foldlM_or {f : Bool → α → KM Bool} {g : α → Bool} {l : List α} (hf : ∀ a ∈ l, ∀ b, f b a = .ok (b || g a)) (b : Bool) :
    l.foldlM f b = .ok (b || l.any g) := by
  induction l generalizing b with
  | nil => simp [pure, Except.pure]
  | cons a l ih =>
    rw [List.foldlM_cons, hf a List.mem_cons_self, KM.ok_bind, ih fun c hc => hf c (List.mem_cons_of_mem _ hc), List.any_cons,
      Bool.or_assoc]

end Ensures

/-! ### What the KV path never touches -/

/-- The weaves and the operations of the KV path stand as they were. -/
structure State.SameWork (s t : State) : Prop where
  weaves : t.weaves = s.weaves
  kvOps  : t.kvOps = s.kvOps
  voids  : t.voids = s.voids

/-- Moreover nothing has been asked of a peer. -/
structure State.SameAsks (s t : State) : Prop extends s.SameWork t where
  legs : t.legs = s.legs

/-- Only bytes of memory have changed, with what stands for them. -/
def State.OnlyStores (s t : State) : Prop := t = { s with mem := t.mem, tags := t.tags, rel := t.rel, staging := t.staging }

section Relations

variable {s t u : State}

theorem State.SameWork.refl (s : State) : s.SameWork s := ⟨rfl, rfl, rfl⟩

theorem State.SameWork.trans (h : s.SameWork t) (h' : t.SameWork u) : s.SameWork u :=
  ⟨h'.weaves.trans h.weaves, h'.kvOps.trans h.kvOps, h'.voids.trans h.voids⟩

theorem State.SameAsks.refl (s : State) : s.SameAsks s := ⟨.refl s, rfl⟩

theorem State.SameAsks.trans (h : s.SameAsks t) (h' : t.SameAsks u) : s.SameAsks u :=
  ⟨h.toSameWork.trans h'.toSameWork, h'.legs.trans h.legs⟩

theorem State.OnlyStores.refl (s : State) : s.OnlyStores s := rfl

theorem State.OnlyStores.trans (h : s.OnlyStores t) (h' : t.OnlyStores u) : s.OnlyStores u := by
  unfold State.OnlyStores at h h' ⊢
  rw [h', h]

theorem State.OnlyStores.sameAsks (h : s.OnlyStores t) : s.SameAsks t := by
  rw [show t = _ from h]
  exact ⟨⟨rfl, rfl, rfl⟩, rfl⟩

theorem State.OnlyStores.plainByte (h : s.OnlyStores t) {pa : Nat} (hp : s.plainByte pa) : t.plainByte pa := by
  rw [show t = _ from h]
  exact hp

theorem State.OnlyStores.pages (h : s.OnlyStores t) : t.pages = s.pages := by rw [show t = _ from h]

theorem State.AlikeButMem.sameAsks (h : s.AlikeButMem t) : s.SameAsks t := by
  rw [show t = _ from h]
  exact ⟨⟨rfl, rfl, rfl⟩, rfl⟩

theorem State.SameAsks.peersAnswered (h : s.SameAsks t) {o : Owner} (ho : s.PeersAnswered o) : t.PeersAnswered o := by
  simpa only [State.PeersAnswered, State.legsOut, State.legError, h.legs] using ho

end Relations

/-! ### Writes in this module -/

section Writes

variable {s : State} {x : Site} {lva pa : Nat} {bs : List (BitVec 8)}

theorem State.kvPut_onlyStores (s : State) (pa : Nat) (bs : List (BitVec 8)) : s.OnlyStores (s.kvPut (.mem pa) bs) := rfl

theorem State.kvWrite_onlyStores (s : State) (x : Site) (lva : Nat) (bs : List (BitVec 8)) :
    (s.kvWrite x lva bs).Ensures s.OnlyStores :=
  KM.ensures_foldlM (fun u _ hu => KM.ensures_map fun pa => hu.trans (u.kvPut_onlyStores pa _)) (.refl s)

/-- Plain bytes inside one granule are written whole. -/
theorem State.kvWrite_plain (hn : 0 < bs.length) (hgran : lva % 64 + bs.length ≤ 64) (hpa : s.kvPa x.die x.part lva 1 = .ok pa)
    (hplain : ∀ n, n < bs.length → s.plainByte (pa + n)) :
    ∃ t, s.kvWrite x lva bs = .ok t ∧ s.OnlyStores t ∧ t.mem = Memory.writes s.mem pa bs := by
  refine ⟨s.kvPut (.mem pa) bs, ?_, s.kvPut_onlyStores pa bs, State.locWrite_plain hplain⟩
  rw [State.kvWrite, chunksOf_granule hn (by omega), List.foldlM_cons, hpa]
  simp only [Nat.sub_self, List.drop_zero, List.take_length]
  rfl

end Writes

/-! ### Pages, at this module and at peers -/

section Pages

variable (s : State) (x : Site) (d : KvDesc)

theorem State.kvPut_sameWork (l : Loc) (bs : List (BitVec 8)) : s.SameWork (s.kvPut l bs) := by
  cases l <;> exact ⟨rfl, rfl, rfl⟩

theorem State.ask_sameWork (a : Ask) (accs : List ReqAcc) : s.SameWork (s.ask a accs) := by
  unfold State.ask
  split
  · exact .refl s
  · exact ⟨rfl, rfl, rfl⟩

theorem State.farPut_sameWork (peer : BitVec 9) (lva : Nat) (bs : List (BitVec 8)) : (s.farPut x peer lva bs).Ensures s.SameWork := by
  unfold State.farPut
  split
  · exact KM.ensures_error _
  · split
    · exact KM.ensures_error _
    · obtain ⟨hweaves, hkv, hvoids⟩ := State.ask_sameWork _ (x.ask peer) (writeAccs lva bs)
      exact KM.ensures_pure ⟨hweaves, hkv, hvoids⟩

theorem State.domWrite_sameWork (addr : Nat) (bs : List (BitVec 8)) : (s.domWrite x addr bs).Ensures s.SameWork := by
  refine KM.ensures_foldlM (fun u c hu => ?_) (.refl s)
  dsimp only
  split
  · exact KM.ensures_error _
  · exact fun t ht => hu.trans (u.farPut_sameWork _ _ _ _ t ht)
  · exact KM.ensures_pure (hu.trans (u.kvPut_sameWork _ _))

theorem State.pageWrite_sameWork (page off : Nat) (bs : List (BitVec 8)) : (s.pageWrite x page off bs).Ensures s.SameWork :=
  s.domWrite_sameWork x _ _

theorem State.kvWrite_sameWork (lva : Nat) (bs : List (BitVec 8)) : (s.kvWrite x lva bs).Ensures s.SameWork :=
  fun t ht => (s.kvWrite_onlyStores x lva bs t ht).sameAsks.toSameWork

theorem State.setPte_sameWork (l j : Nat) (e : Pte) : (s.setPte x d l j e).Ensures s.SameWork := s.kvWrite_sameWork x _ _

theorem State.zeroPage_sameWork (addr pgsz : Nat) : (s.zeroPage x addr pgsz).Ensures s.SameWork := by
  refine KM.ensures_foldlM (fun u i hu => ?_) (.refl s)
  split
  · exact KM.ensures_error _
  · exact KM.ensures_pure (hu.trans ⟨rfl, rfl, rfl⟩)
  · exact fun t ht => hu.trans (u.domWrite_sameWork x _ _ t ht)

theorem State.setPoolFree_sameAsks (k : Nat) (p : Pool) : s.SameAsks (s.setPoolFree k p) :=
  have h := (s.setPoolFree_alike k p).sameAsks
  ⟨⟨h.weaves, h.kvOps, h.voids⟩, h.legs⟩

theorem State.poolAsk_sameWork (k : Nat) : s.SameWork (s.poolAsk k) := by
  unfold State.poolAsk
  split
  · exact ⟨rfl, rfl, rfl⟩
  · exact .refl s

theorem State.takePage_sameWork {k : Nat} {r : W64 × State} (h : s.takePage k = some r) : s.SameWork r.2 := by
  have htaken (p : Pool) : s.SameWork ((s.setPoolFree k p).poolAsk k) :=
    (s.setPoolFree_sameAsks k p).toSameWork.trans (State.poolAsk_sameWork _ k)
  unfold State.takePage at h
  dsimp only at h
  split at h
  · exact Option.some.inj h ▸ htaken _
  · exact Option.some.inj h ▸ htaken _
  · cases h

theorem State.allocPage_sameWork (l j : Nat) : (s.allocPage x d l j).Ensures fun r => s.SameWork r.2 := by
  refine KM.ensures_read fun k? => ?_
  cases k? with
  | none => exact KM.ensures_error _
  | some k =>
    dsimp only
    split
    · exact KM.ensures_error _
    · next a u htake =>
      refine (State.zeroPage_sameWork u x _ _).bind fun v hv => KM.ensures_pure ?_
      exact (s.takePage_sameWork htake).trans (hv.trans ⟨rfl, rfl, rfl⟩)

/-- A page that returns home, or to its lender. -/
theorem State.freePage_sameAsks (part addr : Nat) : s.SameAsks (s.freePage part addr) := by
  unfold State.freePage
  dsimp only
  split
  · exact ⟨⟨rfl, rfl, rfl⟩, rfl⟩
  · unfold State.homePage
    split
    · obtain ⟨⟨hweaves, hkv, hvoids⟩, hlegs⟩ := State.setPoolFree_sameAsks _ _ _
      exact ⟨⟨hweaves, hkv, hvoids⟩, hlegs⟩
    · exact ⟨⟨rfl, rfl, rfl⟩, rfl⟩

theorem State.dropRef_sameAsks (part page : Nat) : s.SameAsks (s.dropRef part page) := by
  unfold State.dropRef
  dsimp only
  split
  · exact s.freePage_sameAsks part page
  · exact ⟨⟨rfl, rfl, rfl⟩, rfl⟩

theorem State.copyPage_sameWork (e : Pte) (np : Nat) : (s.copyPage x d e np).Ensures s.SameWork := by
  refine KM.ensures_foldlM (fun u i hu => ?_) (.refl s)
  split
  · exact KM.ensures_pure hu
  · refine KM.ensures_read fun h => KM.ensures_read fun k => KM.ensures_read fun v => ?_
    refine (u.pageWrite_sameWork x _ _ _).bind fun u1 h1 => (u1.pageWrite_sameWork x _ _ _).bind fun u2 h2 =>
      (u2.pageWrite_sameWork x _ _ _).bind fun u3 h3 => ?_
    have hall := hu.trans (h1.trans (h2.trans h3))
    split
    · exact KM.ensures_pure (hall.trans ⟨rfl, rfl, rfl⟩)
    · exact KM.ensures_pure hall

theorem State.ownPage_sameWork (l slot : Nat) : (s.ownPage x d l slot).Ensures fun r => s.SameWork r.2 := by
  refine KM.ensures_read fun e => ?_
  dsimp only
  split
  · refine (s.allocPage_sameWork x d _ _).bind fun ⟨np, u⟩ hu => (u.setPte_sameWork x d _ _ _).bind fun v hv => ?_
    exact KM.ensures_pure (hu.trans hv)
  · split
    · refine (s.allocPage_sameWork x d _ _).bind fun ⟨np, u⟩ hu => (u.copyPage_sameWork x d _ _).bind fun v hv =>
        (v.setPte_sameWork x d _ _ _).bind fun w hw => ?_
      exact KM.ensures_pure (hu.trans (hv.trans (hw.trans (w.dropRef_sameAsks _ _).toSameWork)))
    · split
      · exact (s.setPte_sameWork x d _ _ _).bind fun u hu => KM.ensures_pure hu
      · exact KM.ensures_pure (.refl s)

end Pages

/-! ### Publication -/

section Publication

variable (s : State) (x : Site) (d : KvDesc)

theorem State.setPublished_sameWork (l p st scope : Nat) (by_ : Publisher) :
    (s.setPublished x d l p st scope by_).Ensures s.SameWork := by
  refine (s.ownPage_sameWork x d _ _).bind fun ⟨page, u⟩ hu => (u.pageWrite_sameWork x _ _ _).bind fun v hv => ?_
  cases by_ <;> exact KM.ensures_pure (hu.trans (hv.trans ⟨rfl, rfl, rfl⟩))

theorem State.settleFrontier_sameWork (l : Nat) : (s.settleFrontier x d l).Ensures s.SameWork := by
  refine KM.ensures_read fun f => KM.ensures_read fun pc => KM.ensures_read fun f' => ?_
  split
  · exact KM.ensures_pure (.refl s)
  · exact s.kvWrite_sameWork x _ _

theorem State.publish_sameWork (l : Nat) (ps : List Nat) (void : Bool) (scope : Nat) (by_ : Publisher) :
    (s.publish x d l ps void scope by_).Ensures s.SameWork := by
  refine (KM.ensures_foldlM (P := s.SameWork) (fun u p hu => KM.ensures_read fun done => ?_) (.refl s)).bind fun u hu v hv =>
    hu.trans (u.settleFrontier_sameWork x d l v hv)
  split
  · exact KM.ensures_pure hu
  · exact KM.ensures_read fun h t ht => hu.trans (u.setPublished_sameWork x d _ _ _ _ _ t ht)

theorem State.closeWriter_sameWork (w : Nat) : (s.closeWriter x d w).Ensures s.SameWork := by
  refine KM.ensures_read fun r => ?_
  split
  · exact KM.ensures_pure (.refl s)
  · refine KM.ensures_read fun done => ?_
    split
    · exact s.kvWrite_sameWork x _ _
    · exact KM.ensures_pure (.refl s)

theorem State.kvstPage_sameWork (l p : Nat) : (s.kvstPage x d l p).Ensures fun r => s.SameWork r.2 := by
  refine KM.ensures_read fun h => ?_
  split
  · exact KM.ensures_read fun e => KM.ensures_pure (.refl s)
  · refine (s.ownPage_sameWork x d _ _).bind fun ⟨page, u⟩ hu => (u.pageWrite_sameWork x _ _ _).bind fun v hv => ?_
    exact KM.ensures_pure (hu.trans hv)

end Publication

end Sys2Proof.Machine
end

section
/-! An operation of the KV path at its end: the step that completes it, and what that leaves of its weave (R91, R106, R109,
R184, R414). -/

namespace Sys2Proof.Machine

open Sys2Proof

/-! ### The weave -/

/-- The weave after an operation of the KV path has left without an error. -/
def Weave.afterKv (w : Weave) (id : Nat) (o : KvOp) (out : KvOut) (bits : List Nat) : Weave :=
  ((bits.foldl (fun w b => w.sticky b) (w.kvResult o out)).unmark id).countDown o.flag

section Weaves

variable {w : Weave} {id : Nat} {o : KvOp}

theorem Weave.foldl_sticky_eq (bits : List Nat) (w : Weave) :
    bits.foldl (fun w b => w.sticky b) w = { w with wstat := bits.foldl (fun v b => setBit64 v b true) w.wstat } := by
  induction bits generalizing w with
  | nil => rfl
  | cons b bits ih => rw [List.foldl_cons, ih]; rfl

/-- Sticky bits that are not named stay. -/
theorem getLsbD_foldl_setBit64_other {bits : List Nat} {b : Nat} (hb : b ∉ bits) (v : W64) :
    (bits.foldl (fun v b => setBit64 v b true) v).getLsbD b = v.getLsbD b := by
  induction bits generalizing v with
  | nil => rfl
  | cons c bits ih =>
    obtain ⟨hbc, hbits⟩ := List.ne_and_not_mem_of_not_mem_cons hb
    rw [List.foldl_cons, ih hbits]
    by_cases hlt : b < 64
    · rw [getLsbD_setBit64 v c true hlt, if_neg hbc]
    · rw [BitVec.getLsbD_of_ge _ _ (by omega), BitVec.getLsbD_of_ge _ _ (by omega)]

/-- A value for each thread goes to the threads that live. -/
theorem Weave.kvResult_v (o : KvOp) (d : Nat) (vals : List (Nat × W64)) (w : Weave) :
    w.kvResult o (.v d vals) = (vals.filter fun x => w.live.has x.1).foldl (fun w x => w.setV64 d x.1 x.2) w := by
  unfold Weave.kvResult
  dsimp only
  induction vals generalizing w with
  | nil => rfl
  | cons x vals ih =>
    rw [List.foldl_cons]
    by_cases hx : w.live.has x.1 = true
    · obtain ⟨-, -, -, -, hlive, -⟩ := (w.sameBut_setV64 d x.1 x.2).names
      rw [if_pos hx, ih, hlive, List.filter_cons_of_pos (p := fun x : Nat × W64 => w.live.has x.1) hx, List.foldl_cons]
    · rw [if_neg hx, ih, List.filter_cons_of_neg (p := fun x : Nat × W64 => w.live.has x.1) hx]

theorem Weave.setV64_eq (w : Weave) (d l : Nat) (y : W64) : w.setV64 d l y = { w with v := (w.setV64 d l y).v } := by
  have hset (u : Weave) (r : Nat) (z : W32) : u.setV r l z = { u with v := (u.setV r l z).v } := by
    unfold Weave.setV
    split <;> rfl
  unfold Weave.setV64
  split
  · rfl
  · rw [hset _ (d + 1), hset w]

theorem Weave.foldl_setV64_eq (d : Nat) (l : List (Nat × W64)) (w : Weave) : l.foldl (fun w x => w.setV64 d x.1 x.2) w
    = { w with v := (l.foldl (fun w x => w.setV64 d x.1 x.2) w).v } := by
  induction l generalizing w with
  | nil => rfl
  | cons x l ih => rw [List.foldl_cons, ih, Weave.setV64_eq]

theorem Weave.kvResult_v_s (w : Weave) (o : KvOp) (d : Nat) (vals : List (Nat × W64)) : (w.kvResult o (.v d vals)).s = w.s := by
  rw [Weave.kvResult_v, Weave.foldl_setV64_eq]

theorem Weave.kvResult_eq (w : Weave) (o : KvOp) (out : KvOut) :
    w.kvResult o out = { w with v := (w.kvResult o out).v, s := (w.kvResult o out).s } := by
  cases out with
  | none => rfl
  | s d v =>
    unfold Weave.kvResult
    dsimp only
    split <;> rfl
  | v d vals =>
    rw [Weave.kvResult_v, Weave.foldl_setV64_eq]

/-- The value that a list has for a thread. -/
def laneValue (vals : List (Nat × W64)) (l : Nat) : W64 := Tbl.get vals 0 l

theorem laneValue_of_mem {vals : List (Nat × W64)} (hnodup : (vals.map (·.1)).Nodup) {y : Nat × W64} (hy : y ∈ vals) :
    laneValue vals y.1 = y.2 := by
  unfold laneValue Tbl.get
  induction vals with
  | nil => cases hy
  | cons x vals ih =>
    obtain ⟨hx, hvals⟩ := List.nodup_cons.1 hnodup
    rcases List.mem_cons.1 hy with rfl | hmem
    · simp [Tbl.find]
    · obtain ⟨k, v⟩ := x
      have hne : k ≠ y.1 := fun h => hx (List.mem_map.2 ⟨y, hmem, h.symm⟩)
      rw [Tbl.find, if_neg hne]
      exact ih hvals hmem

/-- The pair of each living thread that has a value takes it, and every other register stays. -/
theorem Weave.getV_kvResult {d : Nat} (hd : d < 254) {vals : List (Nat × W64)} (hnodup : (vals.map (·.1)).Nodup) {l : Nat} (hl : l < 32)
    (m : Nat) : (w.kvResult o (.v d vals)).getV m l =
      if m = d ∧ l ∈ vals.map (·.1) ∧ w.live.has l = true then (laneValue vals l).extractLsb' 0 32
      else if m = d + 1 ∧ l ∈ vals.map (·.1) ∧ w.live.has l = true then (laneValue vals l).extractLsb' 32 32 else w.getV m l := by
  have hmem (j : Nat) : j ∈ (vals.filter fun x => w.live.has x.1).map (·.1) ↔ j ∈ vals.map (·.1) ∧ w.live.has j = true := by
    simp only [List.mem_map, List.mem_filter]
    constructor
    · rintro ⟨x, ⟨hx, hlive⟩, rfl⟩
      exact ⟨⟨x, hx, rfl⟩, hlive⟩
    · rintro ⟨⟨x, hx, rfl⟩, hlive⟩
      exact ⟨x, ⟨hx, hlive⟩, rfl⟩
  have hlanes : (vals.filter fun x => w.live.has x.1).foldl (fun w x => w.setV64 d x.1 x.2) w
      = ((vals.filter fun x => w.live.has x.1).map (·.1)).foldl (fun w l => w.setV64 d l (laneValue vals l)) w := by
    rw [List.foldl_map]
    refine List.foldl_ext _ _ _ fun u x hx => ?_
    rw [laneValue_of_mem hnodup (List.mem_filter.1 hx).1]
  have h255 : d ≠ 255 := by omega
  rw [Weave.kvResult_v, hlanes, Weave.getV_foldl64 _ (fun j hj => BitVec.lt_of_getLsbD ((hmem j).1 hj).2)
    ((List.filter_sublist.map _).nodup hnodup) d (by omega) _ w m l hl]
  simp only [hmem, ne_eq, h255, not_false_eq_true, and_true]

theorem Weave.getV64_kvResult {d : Nat} (hd : d < 254) {vals : List (Nat × W64)} (hnodup : (vals.map (·.1)).Nodup) {y : Nat × W64}
    (hy : y ∈ vals) (hl : y.1 < 32) (hlive : w.live.has y.1 = true) : (w.kvResult o (.v d vals)).getV64 d y.1 = y.2 := by
  have hmem : y.1 ∈ vals.map (·.1) := List.mem_map_of_mem hy
  rw [Weave.getV64, if_neg (by omega), Weave.getV_kvResult hd hnodup hl, Weave.getV_kvResult hd hnodup hl,
    if_neg fun h => absurd h.1 (Nat.succ_ne_self d), if_pos ⟨rfl, hmem, hlive⟩, if_pos ⟨rfl, hmem, hlive⟩, laneValue_of_mem hnodup hy]
  exact split_cat (m := 32) (k := 32) y.2

theorem Weave.getV_kvResult_other {d : Nat} (hd : d < 254) {vals : List (Nat × W64)} (hnodup : (vals.map (·.1)).Nodup) {m l : Nat}
    (hl : l < 32) (h : (m ≠ d ∧ m ≠ d + 1) ∨ l ∉ vals.map (·.1)) : (w.kvResult o (.v d vals)).getV m l = w.getV m l := by
  rw [Weave.getV_kvResult hd hnodup hl, if_neg, if_neg]
  · exact fun h' => h.elim (fun h => h.2 h'.1) fun h => h h'.2.1
  · exact fun h' => h.elim (fun h => h.1 h'.1) fun h => h h'.2.1

/-- What has become of each part of the weave. -/
theorem Weave.afterKv_eq (w : Weave) (id : Nat) (o : KvOp) (out : KvOut) (bits : List Nat) :
    w.afterKv id o out bits = { w with
      v := (w.kvResult o out).v, s := (w.kvResult o out).s, cf := (w.countDown o.flag).cf
      marks := w.marks.filter (fun m => m.op != id), wstat := bits.foldl (fun v b => setBit64 v b true) w.wstat } := by
  unfold Weave.afterKv
  rw [Weave.countDown_eq, Weave.foldl_sticky_eq, Weave.kvResult_eq]
  cases o.flag <;> rfl

theorem Weave.afterKv_v (out : KvOut) (bits : List Nat) : (w.afterKv id o out bits).v = (w.kvResult o out).v := by
  rw [Weave.afterKv_eq]

theorem Weave.getV_afterKv (out : KvOut) (bits : List Nat) (m l : Nat) :
    (w.afterKv id o out bits).getV m l = (w.kvResult o out).getV m l := by rw [Weave.getV, Weave.afterKv_v, Weave.getV]

theorem Weave.getV64_afterKv (out : KvOut) (bits : List Nat) (m l : Nat) :
    (w.afterKv id o out bits).getV64 m l = (w.kvResult o out).getV64 m l := by
  rw [Weave.getV64, Weave.getV_afterKv, Weave.getV_afterKv, Weave.getV64]

theorem Weave.afterKv_s (out : KvOut) (bits : List Nat) : (w.afterKv id o out bits).s = (w.kvResult o out).s := by
  rw [Weave.afterKv_eq]

theorem Weave.afterKv_wstat (out : KvOut) (bits : List Nat) :
    (w.afterKv id o out bits).wstat = bits.foldl (fun v b => setBit64 v b true) w.wstat := by
  rw [Weave.afterKv_eq]

/-- A scalar result is the only change of a register. -/
theorem Weave.putS_afterKv (htakes : w.takes o.lanes = true) (d : Nat) (v : W64) (bits : List Nat) :
    w.PutS (w.afterKv id o (.s d v) bits) d v := by
  have hres : w.kvResult o (.s d v) = w.setS d v := if_pos htakes
  have hgetS (n : Nat) : (w.afterKv id o (.s d v) bits).getS n = (w.setS d v).getS n := by
    rw [Weave.getS, Weave.afterKv_s, hres, Weave.getS]
  refine ⟨?_, fun n hn => ?_, ?_⟩
  · rw [hgetS, Weave.getS_setS, if_pos rfl]
  · rw [hgetS, Weave.getS_setS, if_neg hn]
  · rw [Weave.afterKv_v, hres]
    rfl

theorem mem_of_mem_bitIf {c : Bool} {b i : Nat} (h : i ∈ if c then [b] else []) : i ∈ [b] := by
  cases c with
  | false => cases h
  | true => exact h

/-- Bit `b` of WSTAT is set where the operation reports it. -/
theorem Weave.afterKv_reports (out : KvOut) (c : Bool) {b : Nat} (hb : b < 64) :
    (w.afterKv id o out (if c then [b] else [])).wstat.getLsbD b = true ↔ w.wstat.getLsbD b = true ∨ c = true := by
  rw [Weave.afterKv_wstat]
  cases c with
  | false => simp
  | true => simp [getLsbD_setBit64_true w.wstat b hb]

end Weaves

/-! ### The step -/

/-- The event that steps an operation of a kind. -/
def KvKind.event (k : KvKind) (id : Nat) : Instr :=
  if k.isSt then .kvstSlotWrite id else if k.isPub then .kvpubStep id else .kvPathStep id ()

section Step

variable {s u : State} {id : Nat} {o : KvOp} {w : Weave} {out : KvOut} {bits allowed : List Nat}

/-- The event of a kind performs the step of its operations. -/
theorem exec_kvEvent (k : KvKind) (id : Nat) (s : State) :
    ∃ f : KvKind → Bool, f k = true ∧ exec (k.event id) s = .next (s.kvGo id f) := by
  unfold KvKind.event
  split
  · next h => exact ⟨KvKind.isSt, h, exec_kvstSlotWrite id s⟩
  · next hst =>
    split
    · next h => exact ⟨KvKind.isPub, h, exec_kvpubStep id s⟩
    · next hpub => exact ⟨fun k => !(k.isSt || k.isPub), by simp [hst, hpub], exec_kvPathStep id () s⟩

theorem exec_kvEvent_acked (ho : Tbl.find s.kvOps id = some o) (hres : o.res = some (out, bits)) :
    exec (o.kind.event id) s = .next (s.kvAcked id o out bits) := by
  obtain ⟨f, hf, hexec⟩ := exec_kvEvent o.kind id s
  simp only [hexec, State.kvGo, ho, hf, hres, Bool.not_true, Bool.false_eq_true, if_false]

theorem State.KvAt.exec_event {r : Machine.KvDone} (h : s.KvAt id o w) (hstep : s.kvStep id o = .ok r) :
    exec (o.kind.event id) s = .next (r.s.kvAcked id o r.out r.bits) := by
  obtain ⟨ho, hres, hready, -⟩ := h
  obtain ⟨f, hf, hexec⟩ := exec_kvEvent o.kind id s
  simp only [hexec, State.kvGo, ho, hf, hres, hready, hstep, Bool.not_true, Bool.false_eq_true, if_false]

/-- With its peers' answers there, the operation leaves. -/
theorem State.kvAcked_answered (h : u.PeersAnswered (.kv id)) : u.kvAcked id o out bits = u.finishKv id o out bits none := by
  obtain ⟨hout, herr⟩ := h
  simp only [State.kvAcked, hout, herr, Bool.false_eq_true, if_false]

/-- Until then it keeps its result. -/
theorem State.kvAcked_waits (h : u.legsOut (.kv id) = true) :
    u.kvAcked id o out bits = u.updKv id fun o => { o with res := some (out, bits) } := if_pos h

theorem State.finishKv_eq (u : State) (id : Nat) (o : KvOp) (out : KvOut) (bits : List Nat) :
    u.finishKv id o out bits none = { u.dropLegs (.kv id) with
      weaves := Tbl.upd u.weaves o.weave (·.afterKv id o out bits), kvOps := Tbl.del u.kvOps id } := rfl

/-- An operation that leaves is done, whatever its step has changed elsewhere. -/
theorem State.kvDone_finishKv (hu : s.SameWork u) (hw : s.weave o.weave = some w) (hbits : ∀ b ∈ bits, b ∈ allowed) :
    s.KvDone (u.finishKv id o out bits none) id o w (w.afterKv id o out bits) allowed := by
  have hweave (n : Nat) : (u.finishKv id o out bits none).weave n
      = if n = o.weave then (s.weave o.weave).map (·.afterKv id o out bits) else s.weave n := by
    rw [State.finishKv_eq, State.weave, State.weave, State.weave, ← hu.weaves]
    exact Tbl.find_upd ..
  have hkv (n : Nat) : Tbl.find (u.finishKv id o out bits none).kvOps n = if n = id then none else Tbl.find s.kvOps n := by
    rw [State.finishKv_eq, ← hu.kvOps]
    exact Tbl.find_del ..
  refine ⟨by rw [hkv, if_pos rfl], fun n hn => by rw [hkv, if_neg hn], by rw [hweave, if_pos rfl, hw, Option.map_some],
    fun n hn => by rw [hweave, if_neg hn], ?_, fun n => ?_, ?_, fun b hb => ?_⟩
  · rw [Weave.afterKv_eq]
  · rw [Weave.afterKv_eq]
    exact w.getCf_countDown o.flag n
  · rw [Weave.afterKv_eq]
  · rw [Weave.afterKv_wstat]
    exact getLsbD_foldl_setBit64_other (fun h => hb (hbits b h)) _

/-- The step of an operation that asks no peer completes it. -/
theorem State.KvAt.completes {r : Machine.KvDone} (h : s.KvAt id o w) (hstep : s.kvStep id o = .ok r) (hasks : s.SameAsks r.s) :
    exec (o.kind.event id) s = .next (r.s.finishKv id o r.out r.bits none) := by
  have hexec := h.exec_event hstep
  obtain ⟨-, -, -, hpeers, -⟩ := h
  rw [hexec, State.kvAcked_answered (hasks.peersAnswered hpeers)]

section Answers

variable {r : Machine.KvDone} {d : Nat} {v : W64} {F : State → Prop}

/-- Where the step's result is a scalar, the operation answers it; `F` is what is known of everything else. -/
theorem State.KvAt.answers_afterKv (h : s.KvAt id o w)
    (hevent : o.kind.event id = .kvPathStep id ()) (hstep : s.kvStep id o = .ok r) (hout : r.out = .s d v)
    (hbits : ∀ b ∈ r.bits, b ∈ allowed) (hasks : s.SameAsks r.s)
    (hF : ∀ weaves kvOps, F { r.s.dropLegs (.kv id) with weaves := weaves, kvOps := kvOps }) :
    ∃ t, exec (.kvPathStep id ()) s = .next t ∧ s.KvDone t id o w (w.afterKv id o r.out r.bits) allowed ∧ F t
      ∧ w.PutS (w.afterKv id o r.out r.bits) d v := by
  have hexec := h.completes hstep hasks
  obtain ⟨-, -, -, -, hw, htakes⟩ := h
  exact ⟨_, hevent ▸ hexec, State.kvDone_finishKv hasks.toSameWork hw hbits, hF _ _, hout ▸ Weave.putS_afterKv htakes d v _⟩

theorem State.KvAt.answers (h : s.KvAt id o w) (hevent : o.kind.event id = .kvPathStep id ()) (hstep : s.kvStep id o = .ok r)
    (hout : r.out = .s d v) (hbits : r.bits = []) (hasks : s.SameAsks r.s)
    (hF : ∀ weaves kvOps, F { r.s.dropLegs (.kv id) with weaves := weaves, kvOps := kvOps }) :
    ∃ t w', exec (.kvPathStep id ()) s = .next t ∧ s.KvDone t id o w w' [] ∧ F t ∧ w.PutS w' d v := by
  obtain ⟨t, hexec, hdone, hrest, hput⟩ := h.answers_afterKv hevent hstep hout (fun _ hb => hbits ▸ hb) hasks hF
  exact ⟨t, _, hexec, hdone, hrest, hput⟩

/-- A step that changes nothing and answers a scalar. -/
theorem State.KvAt.answers_only (h : s.KvAt id o w) (hevent : o.kind.event id = .kvPathStep id ())
    (hstep : s.kvStep id o = .ok { s := s, out := .s d v, bits := [] }) :
    ∃ t w', exec (.kvPathStep id ()) s = .next t ∧ s.KvDone t id o w w' []
      ∧ t = { s.dropLegs (.kv id) with weaves := t.weaves, kvOps := t.kvOps } ∧ w.PutS w' d v :=
  h.answers hevent hstep rfl rfl (.refl s) fun _ _ => rfl

end Answers

end Step

end Sys2Proof.Machine
end

section
/-! APOS and KVSTAT at their context (R165, R167–R169, R413, R415, R424). -/

namespace Sys2Proof.Machine

open Sys2Proof

/-! ### Entries of the writer table (R165) -/

/-- A number is not changed by a write beside it. -/
theorem Memory.num_writes_other (m : Memory) (a : Nat) (bs : List (BitVec 8)) (c n : Nat) (h : c + n ≤ a ∨ a + bs.length ≤ c) :
    Memory.num (Memory.writes m a bs) c n = Memory.num m c n := by
  rw [Memory.num, Memory.reads_writes_other m a bs c n h, Memory.num]

/-- The bytes of an entry. -/
def Writer.bytes (r : Writer) : List (BitVec 8) :=
  natToBytes 8 r.start ++ natToBytes 8 r.stop ++ natToBytes 4 r.scope ++ natToBytes 4 r.field ++ natToBytes 8 (if r.open_ then 1 else 0)

theorem State.setWriter_eq (s : State) (x : Site) (d : KvDesc) (w : Nat) (r : Writer) :
    s.setWriter x d w r = s.kvWrite x (d.pt + 2048 + 32 * w) r.bytes := rfl

theorem Writer.bytes_length (r : Writer) : r.bytes.length = 32 := by
  simp only [Writer.bytes, List.length_append, natToBytes_length]

/-- What memory holds where an entry is written. -/
structure Writer.EntryAt (r : Writer) (m : Memory) (pa : Nat) : Prop where
  start : Memory.num m pa 8 = r.start % 2 ^ 64
  stop  : Memory.num m (pa + 8) 8 = r.stop % 2 ^ 64
  scope : Memory.num m (pa + 16) 4 = r.scope % 2 ^ 32
  field : Memory.num m (pa + 20) 4 = r.field % 2 ^ 32
  open_ : Memory.num m (pa + 24) 8 = if r.open_ then 1 else 0

theorem Writer.entryAt_writes (r : Writer) (m : Memory) (pa : Nat) : r.EntryAt (Memory.writes m pa r.bytes) pa := by
  simp only [Writer.bytes, Memory.writes_append, List.length_append, natToBytes_length]
  constructor
  case open_ =>
    rw [Memory.num_writes]
    split <;> rfl
  all_goals
    simp (disch := omega) only [Memory.num_writes_before, Memory.num_writes]
    omega

/-! ### APOS -/

section Apos

variable {s s1 s2 : State} {x : Site} {o : KvOp} {wr n : W64} {d p0 fm : Nat} {e : Writer}

/-- APOS answers a status and does nothing else. -/
def State.AposFails (s : State) (x : Site) (o : KvOp) (wr n : W64) (d code : Nat) : Prop :=
  s.stepApos x o wr n d = .ok { s := s, out := .s d (w64 (2 ^ 63 + code)), bits := [] }

theorem State.stepApos_count (hn : n.toNat = 0 ∨ 4096 < n.toNat) : s.AposFails x o wr n d 5 := if_pos hn

/-- What APOS does where nothing stands against it: POSCNT, the writer's entry, and who made the reservation. -/
def State.reserve (s : State) (x : Site) (o : KvOp) (wr n : W64) (d p0 : Nat) : KM Machine.KvDone := do
  let s ← s.setPoscnt x o.desc (p0 + n.toNat)
  let s ← s.setWriter x o.desc wr.toNat
    { start := p0, stop := p0 + n.toNat, scope := o.scopeH.toNat, field := o.ident.field, open_ := true }
  let old := Tbl.find s.ctxs (ctxKey o.part o.desc)
  let c : CtxRec := { desc := o.desc, fork := old.bind (·.fork)
                      owners := Tbl.put ((old.map (·.owners)).getD []) wr.toNat o.ident.cohort }
  pure { s := { s with ctxs := Tbl.put s.ctxs (ctxKey o.part o.desc) c }, out := .s d (w64 p0), bits := [] }

variable (hn : ¬ (n.toNat = 0 ∨ n.toNat > 4096))

include hn

theorem State.stepApos_writer (hw : o.desc.wlimit ≤ wr.toNat) : s.AposFails x o wr n d 4 := (if_neg hn).trans (if_pos hw)

variable (hw : ¬ wr.toNat ≥ o.desc.wlimit) (he : s.writer x o.desc wr.toNat = .ok e)

include hw he

theorem State.stepApos_open (hopen : e.open_ = true) : s.AposFails x o wr n d 1 := by
  simp only [State.AposFails, State.stepApos, if_neg hn, if_neg hw, he, KM.ok_bind, hopen, if_true]
  rfl

variable (hclosed : e.open_ = false) (hp : s.poscnt x o.desc = .ok p0) (hf : s.fmin x o.desc = .ok fm)

include hclosed hp hf

/-- What is left of the step for a writer that is free. -/
theorem State.stepApos_free : s.stepApos x o wr n d =
    if p0 + n.toNat - 1 ≥ 2 ^ 48 then .ok { s := s, out := .s d (kvFail 3), bits := [] }
    else if p0 + n.toNat - 1 ≥ o.desc.sinks + o.desc.window ∧ p0 + n.toNat - 1 - o.desc.window ≥ fm then
      .ok { s := s, out := .s d (kvFail 2), bits := [] }
    else s.reserve x o wr n d p0 := by
  simp only [State.stepApos, if_neg hn, if_neg hw, he, KM.ok_bind, hclosed, Bool.false_eq_true, if_false, hp, hf]
  rfl

theorem State.stepApos_limit (hq : 2 ^ 48 ≤ p0 + n.toNat - 1) : s.AposFails x o wr n d 3 := by
  rw [State.AposFails, State.stepApos_free hn hw he hclosed hp hf, if_pos hq]
  rfl

theorem State.stepApos_wraps (hq : p0 + n.toNat - 1 < 2 ^ 48)
    (hwrap : o.desc.sinks + o.desc.window ≤ p0 + n.toNat - 1 ∧ fm ≤ p0 + n.toNat - 1 - o.desc.window) :
    s.AposFails x o wr n d 2 := by
  rw [State.AposFails, State.stepApos_free hn hw he hclosed hp hf, if_neg (Nat.not_le.2 hq), if_pos hwrap]
  rfl

theorem State.stepApos_reserves (hq : p0 + n.toNat - 1 < 2 ^ 48)
    (hwrap : ¬ (o.desc.sinks + o.desc.window ≤ p0 + n.toNat - 1 ∧ fm ≤ p0 + n.toNat - 1 - o.desc.window))
    (h1 : s.setPoscnt x o.desc (p0 + n.toNat) = .ok s1)
    (h2 : s1.setWriter x o.desc wr.toNat
      { start := p0, stop := p0 + n.toNat, scope := o.scopeH.toNat, field := o.ident.field, open_ := true } = .ok s2) :
    ∃ ctxs, s.stepApos x o wr n d = .ok { s := { s2 with ctxs := ctxs }, out := .s d (w64 p0), bits := [] } := by
  rw [State.stepApos_free hn hw he hclosed hp hf, if_neg (Nat.not_le.2 hq), if_neg hwrap, State.reserve, h1, KM.ok_bind, h2, KM.ok_bind]
  exact ⟨_, rfl⟩

end Apos

/-! ### The obligation -/

/-- A count of positions and the entry of its writer, both written. -/
theorem Memory.reserved_of_writes {m m1 m2 : Memory} {pa pw c : Nat} {r : Writer} (hc : c < 2 ^ 64)
    (h1 : m1 = Memory.writes m pa (natToBytes 8 c)) (h2 : m2 = Memory.writes m1 pw r.bytes) (hapart : pw + 32 ≤ pa ∨ pa + 8 ≤ pw) :
    Memory.num m2 pa 8 = c ∧ r.EntryAt m2 pw
      ∧ ∀ z, ¬ (pa ≤ z ∧ z < pa + 8) → ¬ (pw ≤ z ∧ z < pw + 32) → Memory.get m2 z = Memory.get m z := by
  have hlen := r.bytes_length
  obtain ⟨hnum, hother⟩ := Memory.writes_word m pa c hc
  subst h1 h2
  refine ⟨?_, r.entryAt_writes _ _, fun z hz hz' => ?_⟩
  · rw [Memory.num_writes_other _ _ _ _ _ (by omega), hnum]
  · rw [Memory.get_writes_other _ _ _ _ (by omega), hother z hz]

/-- Settles O31: APOS by the checks of its step in their order, and by the two writes that a reservation makes; KVSTAT by what it
reads. -/
theorem kvReservations : Obligations.KvReservations := by
  unfold Obligations.KvReservations
  intro s id o w hat k x answers
  have hanswers {d v : Nat} (hevent : o.kind.event id = .kvPathStep id ())
      (hstep : s.kvStep id o = .ok { s := s, out := .s d (w64 v), bits := [] }) : answers d v := hat.answers_only hevent hstep
  refine ⟨fun wr n d hk => ?_, fun l wr d v => ?_⟩
  · have hevent : o.kind.event id = .kvPathStep id () := by rw [hk]; rfl
    have hstep : s.kvStep id o = s.stepApos x o wr n d := by simp only [State.kvStep, hk]; rfl
    have hfails {code : Nat} (h : s.AposFails x o wr n d code) : answers d (2 ^ 63 + code) := hanswers hevent (hstep.trans h)
    refine ⟨fun hn => hfails (State.stepApos_count hn), fun h1 h4096 hwr => hfails (State.stepApos_writer (by omega) hwr),
      fun e h1 h4096 hwr he => ?_⟩
    have hn : ¬ (n.toNat = 0 ∨ n.toNat > 4096) := by omega
    have hw : ¬ wr.toNat ≥ k.wlimit := by omega
    refine ⟨fun hopen => hfails (State.stepApos_open hn hw he hopen), fun p0 fm hclosed hp hf => ⟨fun hq =>
      hfails (State.stepApos_limit hn hw he hclosed hp hf hq), fun hq hwrap =>
      hfails (State.stepApos_wraps hn hw he hclosed hp hf hq hwrap), fun hq hwrap pa s1 pw hctx hpt hpa hs1 hpw hapart hplain => ?_⟩⟩
    let r : Writer := { start := p0, stop := p0 + n.toNat, scope := o.scopeH.toNat, field := o.ident.field, open_ := true }
    have hlen : (natToBytes 8 (p0 + n.toNat)).length = 8 := natToBytes_length ..
    obtain ⟨u, hu, hstores1, hmem1⟩ := State.kvWrite_plain (bs := natToBytes 8 (p0 + n.toNat)) (by omega) (by omega) hpa
      fun z hz => hplain _ (.inl (by omega))
    obtain rfl : u = s1 := Except.ok.inj (hu.symm.trans hs1)
    have hrlen := r.bytes_length
    obtain ⟨s2, hs2, hstores2, hmem2⟩ := State.kvWrite_plain (bs := r.bytes) (by omega) (by omega) hpw
      fun z hz => hstores1.plainByte (hplain _ (.inr (by omega)))
    obtain ⟨ctxs, happos⟩ := State.stepApos_reserves (d := d) hn hw he hclosed hp hf hq hwrap hs1
      ((u.setWriter_eq x k wr.toNat r).trans hs2)
    have hstores := hstores1.trans hstores2
    obtain ⟨t, w', hexec, hdone, ⟨hrest, hmem⟩, hput⟩ := hat.answers
      (F := fun t => t = { s.dropLegs (.kv id) with
        weaves := t.weaves, kvOps := t.kvOps, mem := t.mem, tags := t.tags, rel := t.rel, ctxs := t.ctxs, staging := t.staging }
        ∧ t.mem = s2.mem) hevent (hstep.trans happos) rfl rfl
      (hstores.sameAsks.trans ⟨⟨rfl, rfl, rfl⟩, rfl⟩) fun _ _ => ⟨by rw [show s2 = _ from hstores]; rfl, rfl⟩
    obtain ⟨hcount, hentry, hother⟩ := Memory.reserved_of_writes (r := r) (by omega) hmem1 hmem2 hapart
    rw [← hmem] at hcount hentry hother
    exact ⟨t, w', hexec, hdone, hrest, hput, hcount, hentry.start.trans (Nat.mod_eq_of_lt (by dsimp only [r]; omega)),
      hentry.stop.trans (Nat.mod_eq_of_lt (by dsimp only [r]; omega)), hentry.scope.trans (Nat.mod_eq_of_lt o.scopeH.isLt),
      hentry.field, hentry.open_, hother⟩
  · have hstat {sel : KvSel} {v : Nat} (hk : o.kind = .kvstat sel l wr d)
        (hv : s.stepKvstat x o sel l wr d = .ok { s := s, out := .s d (w64 v), bits := [] }) : answers d v :=
      hanswers (by rw [hk]; rfl) (by simp only [State.kvStep, hk]; exact hv)
    refine ⟨fun hk h => hstat hk ?_, fun hk h => hstat hk ?_, fun e h => ⟨fun hk => hstat hk ?_, fun hk => hstat hk ?_,
      fun hk => hstat hk ?_⟩⟩
    · exact congrArg (· >>= _) h
    · exact congrArg (· >>= _) h
    all_goals
      dsimp only [State.stepKvstat]
      rw [show s.writer x o.desc wr = .ok e from h]
      rfl

end Sys2Proof.Machine
end

section
/-! KVST, KVPUB and voids: pages, headers and the frontier (R172, R173, R175, R182–R184, R192, R417, R418, R448). -/

namespace Sys2Proof.Machine

open Sys2Proof

/-! ### The page of a slot (R188, R192) -/

section Pages

variable {s s1 s2 s3 : State} {x : Site} {k : KvDesc} {l p slot page np : Nat} {g : Pte} {h : Head}

theorem State.kvstPage_eq (s : State) (x : Site) (k : KvDesc) (l p : Nat) : s.kvstPage x k l p = (do
    let h ← s.head x k l (k.slotOf p).1
    if h.gen = (k.slotOf p).2 ∧ h.st = 1 then pure ((← s.pte x k l ((k.slotOf p).1 / 16)).page, s)
    else
      let (page, s) ← s.ownPage x k l (k.slotOf p).1
      pure (page, ← s.pageWrite x page (16 * ((k.slotOf p).1 % 16)) (natToBytes 16 ((k.slotOf p).2 + 2 ^ 48)))) := rfl

/-- A position that is written already. -/
theorem State.kvstPage_again (hg : s.pte x k l ((k.slotOf p).1 / 16) = .ok g) (hh : s.head x k l (k.slotOf p).1 = .ok h)
    (hgen : h.gen = (k.slotOf p).2) (hst : h.st = 1) : s.kvstPage x k l p = .ok (g.page, s) := by
  rw [State.kvstPage_eq, hh, KM.ok_bind, if_pos ⟨hgen, hst⟩, hg]
  rfl

/-- The first KVST of a position takes a page that is the context's alone and heads the slot. -/
theorem State.kvstPage_first (hh : s.head x k l (k.slotOf p).1 = .ok h) (hnew : h.gen ≠ (k.slotOf p).2 ∨ h.st ≠ 1)
    (hown : s.ownPage x k l (k.slotOf p).1 = .ok (page, s1))
    (hwrite : s1.pageWrite x page (16 * ((k.slotOf p).1 % 16)) (natToBytes 16 ((k.slotOf p).2 + 2 ^ 48)) = .ok s2) :
    s.kvstPage x k l p = .ok (page, s2) := by
  rw [State.kvstPage_eq, hh, KM.ok_bind, if_neg (not_and_or.2 hnew), hown, KM.ok_bind]
  dsimp only
  rw [hwrite]
  rfl

variable (hg : s.pte x k l (slot / 16) = .ok g)

include hg

theorem State.ownPage_absent (hv : g.v = false) (halloc : s.allocPage x k l (slot / 16) = .ok (np, s1))
    (hset : s1.setPte x k l (slot / 16) { v := true, page := np, hide := 0 } = .ok s2) :
    s.ownPage x k l slot = .ok (np, s2) := by
  simp only [State.ownPage, hg, KM.ok_bind, hv, Bool.not_false, if_true, halloc, hset]
  rfl

variable (hv : g.v = true)

include hv

theorem State.ownPage_shared (hcount : 1 < (s.pageRec x.part g.page).count) (halloc : s.allocPage x k l (slot / 16) = .ok (np, s1))
    (hcopy : s1.copyPage x k g np = .ok s2) (hset : s2.setPte x k l (slot / 16) { v := true, page := np, hide := 0 } = .ok s3) :
    s.ownPage x k l slot = .ok (np, s3.dropRef x.part g.page) := by
  simp only [State.ownPage, hg, KM.ok_bind, hv, Bool.not_true, Bool.false_eq_true, if_false, if_pos hcount, halloc, hcopy, hset]
  rfl

variable (hcount : (s.pageRec x.part g.page).count ≤ 1)

include hcount

theorem State.ownPage_hidden (hhides : g.hides (slot % 16) = true)
    (hset : s.setPte x k l (slot / 16) { g with hide := g.hide - 2 ^ (slot % 16) } = .ok s1) :
    s.ownPage x k l slot = .ok (g.page, s1) := by
  rw [hv] at hset
  simp only [State.ownPage, hg, KM.ok_bind, hv, Bool.not_true, Bool.false_eq_true, if_false, if_neg (Nat.not_lt.2 hcount), hhides,
    if_true, hset]
  rfl

theorem State.ownPage_unshared (hhides : g.hides (slot % 16) = false) : s.ownPage x k l slot = .ok (g.page, s) := by
  simp only [State.ownPage, hg, KM.ok_bind, hv, Bool.not_true, Bool.false_eq_true, if_false, if_neg (Nat.not_lt.2 hcount), hhides]
  rfl

end Pages

/-! ### KVST (R172) -/

section Kvst

variable {s s1 s2 s3 : State} {x : Site} {o : KvOp} {p wr l page : Nat} {ks vs : Fmt} {src : List (Loc × Nat)} {e : Writer} {q : Bool}
  {freq : List (BitVec 8)}

/-- The bits of WSTAT that KVST sets. -/
def kvBits (f : Fl) : List Nat := (if f.sat then [wsSat] else []) ++ (if f.inexact then [wsInexact] else [])

theorem mem_kvBits {f : Fl} {b : Nat} (h : b ∈ kvBits f) : b ∈ [wsSat, wsInexact] := by
  rcases List.mem_append.1 h with h | h
  · split at h
    · exact List.mem_cons.2 (.inl (List.mem_singleton.1 h))
    · cases h
  · split at h
    · exact List.mem_cons_of_mem _ h
    · cases h

/-- Outside an open reservation, or once the position is published, KVST is dropped. -/
theorem State.stepKvst_dropped (he : s.writer x o.desc wr = .ok e) (hq : s.published x o.desc l p = .ok q)
    (h : e.open_ = false ∨ p < e.start ∨ e.stop ≤ p ∨ q = true) :
    s.stepKvst x o p wr l ks vs src = .ok { s := s, out := .none, bits := [] } := by
  have hdrop : (!(e.open_ && decide (e.start ≤ p) && decide (p < e.stop)) || q) = true := by
    rcases h with h | h | h | h
    · simp [h]
    · simp [Nat.not_le.2 h]
    · simp [Nat.not_lt.2 h]
    · simp [h]
  simp only [State.stepKvst, he, hq, KM.ok_bind, hdrop, if_true]
  rfl

theorem State.stepKvst_writes (he : s.writer x o.desc wr = .ok e) (hq : s.published x o.desc l p = .ok false) (hopen : e.open_ = true)
    (hstart : e.start ≤ p) (hstop : p < e.stop) (hfreq : s.lineRead x o.desc.rot (4 * o.desc.dim) = .ok freq)
    (hpage : s.kvstPage x o.desc l p = .ok (page, s1))
    (hk : s1.pageWrite x page (o.desc.kOff ((o.desc.slotOf p).1 % 16)) (kvConvert o.desc ks vs p freq (s1.kvSourceBytes o src)).1 = .ok s2)
    (hv : s2.pageWrite x page (o.desc.vOff ((o.desc.slotOf p).1 % 16)) (kvConvert o.desc ks vs p freq (s1.kvSourceBytes o src)).2.1
      = .ok s3) :
    s.stepKvst x o p wr l ks vs src = .ok
      { s := s3, out := .none, bits := kvBits (kvConvert o.desc ks vs p freq (s1.kvSourceBytes o src)).2.2 } := by
  have hgo : (!(e.open_ && decide (e.start ≤ p) && decide (p < e.stop)) || false) = false := by simp [hopen, hstart, hstop]
  simp only [State.stepKvst, he, hq, KM.ok_bind, hgo, Bool.false_eq_true, if_false, hfreq, hpage, hk, hv]
  rfl

end Kvst

/-! ### Publication (R173, R175, R448) -/

section Publish

variable {s s1 : State} {x : Site} {k : KvDesc} {l p f f' pc : Nat} {void : Bool} {scope : Nat} {by_ : Publisher}

theorem State.publish_nil : s.publish x k l [] void scope by_ = s.settleFrontier x k l := rfl

/-- What is published already stays as it is. -/
theorem State.publish_cons_published (h : s.published x k l p = .ok true) (ps : List Nat) :
    s.publish x k l (p :: ps) void scope by_ = s.publish x k l ps void scope by_ := by
  simp only [State.publish, List.foldlM_cons, h, KM.ok_bind, if_true]
  rfl

/-- The state of a header: valid where the position is written in its generation, else void. -/
theorem State.publish_cons_new {h : Head} (hp : s.published x k l p = .ok false) (hh : s.head x k l (k.slotOf p).1 = .ok h)
    (hset : s.setPublished x k l p (if void = false ∧ h.gen = (k.slotOf p).2 ∧ h.st = 1 then 2 else 3) scope by_ = .ok s1)
    (ps : List Nat) : s.publish x k l (p :: ps) void scope by_ = s1.publish x k l ps void scope by_ := by
  have hok : (if (!void && h.gen == (k.slotOf p).2 && h.st == 1) = true then 2 else 3)
      = if void = false ∧ h.gen = (k.slotOf p).2 ∧ h.st = 1 then 2 else 3 := by
    simp only [Bool.and_eq_true, Bool.not_eq_true', beq_iff_eq, and_assoc]
  simp only [State.publish, List.foldlM_cons, hp, hh, KM.ok_bind, Bool.false_eq_true, if_false, hok, hset]

/-- The frontier moves over published positions, to one that is not or to the limit. -/
theorem State.advance_spec {n : Nat} (h : s.advance x k l n f = .ok f') : f ≤ f' ∧ f' ≤ f + n
    ∧ (∀ p, f ≤ p → p < f' → s.published x k l p = .ok true) ∧ (f' < f + n → s.published x k l f' = .ok false) := by
  induction n generalizing f with
  | zero =>
    obtain rfl := KM.pure_eq_ok.1 h
    exact ⟨Nat.le_refl _, Nat.le_refl _, fun p h1 h2 => absurd h1 (Nat.not_le.2 h2), fun h => absurd h (Nat.lt_irrefl _)⟩
  | succ n ih =>
    obtain ⟨b, hb, h⟩ := KM.bind_eq_ok.1 h
    cases b with
    | false =>
      obtain rfl := KM.pure_eq_ok.1 h
      exact ⟨Nat.le_refl _, by omega, fun p h1 h2 => absurd h1 (Nat.not_le.2 h2), fun _ => hb⟩
    | true =>
      obtain ⟨hle, hlim, hall, hnext⟩ := ih h
      refine ⟨by omega, by omega, fun p h1 h2 => ?_, fun hlt => hnext (by omega)⟩
      rcases Nat.eq_or_lt_of_le h1 with rfl | hlt
      · exact hb
      · exact hall p hlt h2

theorem State.settleFrontier_eq (hf : s.frontier x k l = .ok f) (hpc : s.poscnt x k = .ok pc)
    (hadv : s.advance x k l (pc - f) f = .ok f') : s.settleFrontier x k l
      = if f' = f then .ok s else s.kvWrite x (k.pt + 8 * l) (natToBytes 8 f') := by
  simp only [State.settleFrontier, hf, hpc, hadv, KM.ok_bind]
  rfl

end Publish

/-! ### A published header (R183) -/

section Header

variable {s t : State} {x : Site} {k : KvDesc} {l p pa : Nat} {g : Pte}

theorem State.domWrite_granule {addr : Nat} {bs : List (BitVec 8)} (hn : 0 < bs.length) (hgran : addr % 64 + bs.length ≤ 64)
    (hloc : s.pageLoc x addr 1 = .ok (.mem pa)) : s.domWrite x addr bs = .ok (s.kvPut (.mem pa) bs) := by
  rw [State.domWrite, chunksOf_granule hn (by omega), List.foldlM_cons]
  simp only [hloc, Nat.sub_self, List.drop_zero, List.take_length, KM.ok_bind]
  rfl

/-- The header of a slot of a page of this module is written whole. -/
theorem State.pageWrite_header {i : Nat} {bs : List (BitVec 8)} (hbs : bs.length = 16) (hi : i < 16)
    (hunits : 1 ≤ (s.pageRec x.part g.page).units) (hpage : g.page % 64 = 0) (hloc : s.pageLoc x (g.page + 16 * i) 1 = .ok (.mem pa)) :
    s.pageWrite x g.page (16 * i) bs = .ok (s.kvPut (.mem pa) bs) := by
  have hin : s.inPage x.part g.page (16 * i) bs.length = bs.length := Nat.min_eq_left (by omega)
  rw [State.pageWrite, hin, List.take_length]
  exact State.domWrite_granule (by omega) (by omega) hloc

theorem State.pubBits_lt (hpeer : s.ownPeer x.part < 512) (by_ : Publisher) : s.pubBits x.part by_ < 2 ^ 112 := by
  cases by_ with
  | weave i =>
    dsimp only [State.pubBits]
    omega
  | device =>
    dsimp only [State.pubBits]
    omega

theorem State.setPublished_mem {state scope : Nat} {by_ : Publisher} (hg : s.pte x k l ((k.slotOf p).1 / 16) = .ok g) (hv : g.v = true)
    (hhides : g.hides ((k.slotOf p).1 % 16) = false) (hcount : (s.pageRec x.part g.page).count ≤ 1)
    (hunits : 1 ≤ (s.pageRec x.part g.page).units) (hpage : g.page % 64 = 0)
    (hloc : s.pageLoc x (g.page + 16 * ((k.slotOf p).1 % 16)) 1 = .ok (.mem pa)) (hplain : ∀ n, n < 16 → s.plainByte (pa + n))
    (hset : s.setPublished x k l p state scope by_ = .ok t) :
    t.mem = Memory.writes s.mem pa
      (natToBytes 16 ((k.slotOf p).2 + state * 2 ^ 48 + s.pubBits x.part by_ + scope * 2 ^ 112)) := by
  have hlen := natToBytes_length 16 ((k.slotOf p).2 + state * 2 ^ 48 + s.pubBits x.part by_ + scope * 2 ^ 112)
  have hwrite := State.pageWrite_header hlen (Nat.mod_lt _ (by decide)) hunits hpage hloc
  obtain ⟨⟨page, u⟩, hown, hset⟩ := KM.bind_eq_ok.1 hset
  cases (State.ownPage_unshared hg hv hcount hhides).symm.trans hown
  obtain ⟨v, hput, hset⟩ := KM.bind_eq_ok.1 hset
  cases hwrite.symm.trans hput
  have hmem : (s.kvPut (.mem pa) _).mem = _ := State.locWrite_plain (hlen ▸ hplain)
  rw [← hmem]
  cases by_ with
  | weave i => exact KM.pure_eq_ok.1 hset ▸ rfl
  | device => exact KM.pure_eq_ok.1 hset ▸ rfl

end Header

/-! ### Voids (R94, R182) -/

section Voids

variable {s s1 s2 : State} {id : Nat} {v : Void}

/-- One void more is counted, by the cancellation too where one asked for it. -/
def State.countVoid (s : State) (id : Nat) (v : Void) : State :=
  { s with voids := Tbl.upd s.voids id fun v => { v with count := v.count + 1 }
           cancels := match v.cancel with
             | some c => Tbl.upd s.cancels c fun x => { x with voided := x.voided + 1 }
             | none => s.cancels }

/-- A void that nothing holds back is written, or the voids of the context are at their end. -/
theorem exec_voidWrite_of {s' : State} {more : Bool} (hv : Tbl.find s.voids id = some v) (hfault : v.fault = none)
    (hearly : ∀ c, v.cohort = some c → ∀ e ∈ s.kvOps, e.2.ident.cohort ≠ c)
    (hbusy : s.unitBusy (some id) (s.voidReq id v) = false)
    (herr : s.legError (.void id) = none) (hstep : s.stepVoid (s.voidSite id v) v = .ok (s', more)) :
    exec (.voidWrite id) s = .next (if more then s'.countVoid id v else if s.legsOut (.void id) then s else s'.endVoid id v) := by
  have hno (c : Nat) (hc : v.cohort = some c) : (someT s.kvOps fun _ o => o.ident.cohort == c) = false := by
    rw [someT, List.any_eq_false]
    exact fun e he => by simpa using hearly c hc e he
  have herr' : s.legError (s.voidSite id v).owner = none := herr
  simp only [exec_voidWrite, execVoidWrite, hv]
  split
  all_goals
    simp (disch := assumption) only [hno, hfault, hbusy, herr', hstep, Option.isSome_none, Bool.or_self, Bool.false_eq_true, if_false]
    cases more with
    | false => rfl
    | true => cases hcancel : v.cancel <;> simp only [State.countVoid, hcancel, if_true]

theorem State.stepVoid_next {wr l p : Nat} {x : Site} (hnext : s.nextVoid x v = .ok (some (wr, l, p)))
    (hpub : s.publish x v.desc l [p] true 5 .device = .ok s1) (hclose : s1.closeWriter x v.desc wr = .ok s2) :
    s.stepVoid x v = .ok (s2, true) := by
  have hpub' : s.publish x v.desc l [p] true (Scope.num .sys) .device = .ok s1 := hpub
  simp only [State.stepVoid, hnext, hpub', hclose, KM.ok_bind]
  rfl

/-- At their end the voids are gone, and reported where the field was not cancelled. -/
theorem State.endVoid_spec (s : State) (id : Nat) (v : Void) : Tbl.find (s.endVoid id v).voids id = none
    ∧ ((s.endVoid id v).part v.part).faultSeq = (s.part v.part).faultSeq + if v.report = true ∧ v.count ≠ 0 then 1 else 0 := by
  let u : State := State.dropLegs { s with voids := Tbl.del s.voids id } (.void id)
  have hgone : Tbl.find u.voids id = none := (Tbl.find_del ..).trans (if_pos rfl)
  by_cases hrep : v.report = true ∧ v.count ≠ 0
  · obtain ⟨hreport, hcount⟩ := hrep
    have hend : s.endVoid id v = u.record v.part { FaultEntry.blank with
        kind := 3, field := v.field, addr := domain (u.ownPeer v.part) v.desc.ctx, info := w64 v.count, scope := v.scope } :=
      if_neg (by simp [hreport, hcount])
    have halike := u.record_alike v.part { FaultEntry.blank with
        kind := 3, field := v.field, addr := domain (u.ownPeer v.part) v.desc.ctx, info := w64 v.count, scope := v.scope }
    rw [hend, halike.sameAsks.voids, halike.part, State.part_setPart, if_pos rfl, if_pos ⟨hreport, hcount⟩]
    exact ⟨hgone, rfl⟩
  · have hend : s.endVoid id v = u := if_pos (by
      rcases not_and_or.1 hrep with h | h
      · simp [h]
      · simp [not_not.1 h])
    rw [hend, if_neg hrep]
    exact ⟨hgone, rfl⟩

end Voids

/-! ### The obligation -/

section Ends

variable {s : State} {id : Nat} {o : KvOp} {w : Weave} {bits : List Nat}

/-- An operation without a result completes once its writes at peers are acknowledged, and waits for them until then. -/
theorem State.KvAt.ends {u : State} {bs : List Nat} (h : s.KvAt id o w) (hstep : s.kvStep id o = .ok { s := u, out := .none, bits := bs })
    (hwork : s.SameWork u) (hbits : ∀ b ∈ bs, b ∈ bits) :
    (u.PeersAnswered (.kv id) → ∃ t w', exec (o.kind.event id) s = .next t ∧ s.KvDone t id o w w' bits ∧ w'.v = w.v ∧ w'.s = w.s
      ∧ t = { u.dropLegs (.kv id) with weaves := t.weaves, kvOps := t.kvOps })
    ∧ (u.legsOut (.kv id) = true → ∃ t o', exec (o.kind.event id) s = .next t ∧ t = { u with kvOps := t.kvOps }
      ∧ Tbl.find t.kvOps id = some o' ∧ o'.res.isSome = true ∧ o' = { o with res := o'.res }) := by
  have hexec := h.exec_event hstep
  obtain ⟨ho, -, -, -, hw, -⟩ := h
  refine ⟨fun hans => ⟨_, _, hexec.trans (by rw [State.kvAcked_answered hans]), State.kvDone_finishKv hwork hw hbits,
    Weave.afterKv_v .none bs, Weave.afterKv_s .none bs, rfl⟩, fun hout =>
    ⟨_, { o with res := some (.none, bs) }, hexec.trans (by rw [State.kvAcked_waits hout]), rfl, ?_, rfl, rfl⟩⟩
  rw [State.updKv_kvOps, Tbl.find_upd_self, hwork.kvOps, ho, Option.map_some]

end Ends

/-- Settles O32: each event by the equation of its step, whose writes are followed through the page of the slot, the header and
the frontier. -/
theorem kvPublication : Obligations.KvPublication := by
  unfold Obligations.KvPublication
  intro s
  refine ⟨?steps, ?acknowledged, ?pages, ?positions, ?frontier, ?bytes, ?header, ?voids⟩
  case steps =>
    intro id o w hat k x ends
    refine ⟨fun p wr l ks vs src e hk he => ?_, fun p0 p1 wr l void scope s1 s2 hk hpub hclose => ?_⟩
    · have hevent : o.kind.event id = .kvstSlotWrite id := by rw [hk]; rfl
      have hstep : s.kvStep id o = s.stepKvst x o p wr l ks vs src := by simp only [State.kvStep, hk]; rfl
      refine ⟨fun q hq hdrop => ?_, ?_⟩
      · exact hevent ▸ hat.ends (hstep.trans (State.stepKvst_dropped he hq hdrop)) (.refl s) fun _ hb => hb
      · intro freq page s1 s2 s3 hq hopen hstart hstop i hfreq hpage hkw hvw
        have hdone := State.stepKvst_writes he hq hopen hstart hstop hfreq hpage hkw hvw
        have hwork := (s.kvstPage_sameWork x k l p _ hpage).trans
          ((s1.pageWrite_sameWork x _ _ _ _ hkw).trans (s2.pageWrite_sameWork x _ _ _ _ hvw))
        exact hevent ▸ hat.ends (hstep.trans hdone) hwork fun _ hb => mem_kvBits hb
    · have hevent : o.kind.event id = .kvpubStep id := by rw [hk]; rfl
      have hstep : s.kvStep id o = .ok { s := s2, out := .none, bits := [] } := by
        simp only [State.kvStep, hk, State.stepKvpub]
        rw [hpub, KM.ok_bind, hclose]
        rfl
      have hwork := (s.publish_sameWork x k _ _ _ _ _ _ hpub).trans (s1.closeWriter_sameWork x k _ _ hclose)
      exact hevent ▸ hat.ends hstep hwork fun _ hb => hb
  case acknowledged =>
    intro id o w out bits ho hres hans hw _
    have hexec := exec_kvEvent_acked ho hres
    rw [State.kvAcked_answered hans] at hexec
    exact ⟨_, _, hexec, State.kvDone_finishKv (.refl s) hw fun _ hb => hb, rfl⟩
  case pages =>
    intro x k l p g slot gen hg
    refine ⟨fun h hh => ⟨fun hgen hst => State.kvstPage_again hg hh hgen hst, fun hnew page s1 s2 hown hwrite =>
      State.kvstPage_first hh hnew hown hwrite⟩, fun hv hcount => ⟨fun hhides => State.ownPage_unshared hg hv hcount hhides,
      fun hhides t hset => State.ownPage_hidden hg hv hcount hhides hset⟩, fun np s1 halloc => ⟨fun hv s2 hset =>
      State.ownPage_absent hg hv halloc hset, fun hv hcount s2 s3 hcopy hset => State.ownPage_shared hg hv hcount halloc hcopy hset⟩⟩
  case positions =>
    intro x k l void scope by_
    exact ⟨State.publish_nil, fun p ps => ⟨fun hp => State.publish_cons_published hp ps,
      fun h s1 hp hh hset => State.publish_cons_new hp hh hset ps⟩⟩
  case frontier =>
    intro x k l f pc f' hf hpc hadv
    have hsettle := State.settleFrontier_eq hf hpc hadv
    refine ⟨fun hle => ?_, fun heq => hsettle.trans (if_pos heq), fun hne => hsettle.trans (if_neg hne)⟩
    obtain ⟨hmin, hmax, hall, hnext⟩ := State.advance_spec hadv
    exact ⟨hmin, by omega, hall, fun hlt => hnext (by omega)⟩
  case bytes =>
    intro x lva bs pa hbs hgran hpa hplain
    obtain ⟨t, hwrite, hstores, hmem⟩ := State.kvWrite_plain (List.length_pos_iff.2 hbs) hgran hpa hplain
    refine ⟨t, hwrite, fun n hn => ?_, hstores, fun z hz => ?_⟩
    · rw [hmem, Memory.get_writes, if_pos ⟨Nat.le_add_right .., by omega⟩, Nat.add_sub_cancel_left, List.getD_eq_getElem _ _ hn,
        List.getElem?_eq_getElem hn]
    · rw [hmem, Memory.get_writes_other _ _ _ _ (by omega)]
  case header =>
    intro x k l p state scope by_ g pa t hg hv hhides hcount hunits hpage hloc hplain hgen hstate hscope hpeer hset
    have hlt := s.pubBits_lt hpeer by_
    rw [State.setPublished_mem hg hv hhides hcount hunits hpage hloc hplain hset]
    refine ⟨?_, fun z hz => Memory.get_writes_other _ _ _ _ (by rw [natToBytes_length]; omega)⟩
    rw [Memory.num_writes, Nat.mod_eq_of_lt (by omega)]
    cases by_ <;> rfl
  case voids =>
    intro id v hv hfault hearly hbusy herr x
    refine ⟨fun wr l p s1 s2 hnext hpub hclose => ?_, fun s1 hstep => ?_⟩
    · have hexec := exec_voidWrite_of hv hfault hearly hbusy herr (State.stepVoid_next hnext hpub hclose)
      have hwork := (s.publish_sameWork _ _ _ _ _ _ _ _ hpub).trans (s1.closeWriter_sameWork _ _ _ _ hclose)
      have hcount : Tbl.find (s2.countVoid id v).voids id = some { v with count := v.count + 1 } := by
        rw [State.countVoid, Tbl.find_upd_self, hwork.voids, hv, Option.map_some]
      exact ⟨_, hexec, rfl, hcount⟩
    · have hexec := exec_voidWrite_of hv hfault hearly hbusy herr hstep
      rw [if_neg Bool.false_ne_true] at hexec
      refine ⟨fun hout => hexec.trans (by rw [if_pos hout]), fun hout => ?_⟩
      rw [if_neg (by rw [hout]; exact Bool.false_ne_true)] at hexec
      obtain ⟨hgone, hseq⟩ := s1.endVoid_spec id v
      exact ⟨_, hexec, hgone, hseq⟩

end Sys2Proof.Machine
end

section
/-! KVACQ, KVLD, KVFORK and KVREL at their contexts (R171, R176–R178, R181, R190, R191, R419–R422). -/

namespace Sys2Proof.Machine

open Sys2Proof

/-! ### KVACQ (R176) -/

section Kvacq

variable {s : State} {x : Site} {o : KvOp} {l f d : Nat} {scope : Scope} {hd : Nat → Head}

/-- Does a publication below the frontier not pair with the acquire: neither the device's, nor one whose scope and the acquire's include
the other side. -/
def State.unpaired (s : State) (o : KvOp) (scope : Scope) (p : Nat) (h : Head) : Bool :=
  decide (h.gen = (o.desc.slotOf p).2 ∧ 2 ≤ h.st) && match s.publisherOf o.part o.desc p h with
    | some (who, psc) => !(s.includes (some o.part) scope o.ident who && s.includes (some o.part) psc who o.ident)
    | none => false

theorem State.unpaired_iff {p : Nat} {h : Head} : s.unpaired o scope p h = true ↔ ∃ who psc,
    h.gen = (o.desc.slotOf p).2 ∧ 2 ≤ h.st ∧ s.publisherOf o.part o.desc p h = some (who, psc)
      ∧ (s.includes (some o.part) scope o.ident who = false ∨ s.includes (some o.part) psc who o.ident = false) := by
  unfold State.unpaired
  cases hpub : s.publisherOf o.part o.desc p h with
  | none => simp
  | some q =>
    obtain ⟨who, psc⟩ := q
    simp only [Bool.and_eq_true, decide_eq_true_eq, Bool.not_eq_true', Bool.and_eq_false_iff, Option.some.injEq]
    constructor
    · rintro ⟨⟨hgen, hst⟩, hinc⟩
      exact ⟨who, psc, hgen, hst, rfl, hinc⟩
    · rintro ⟨_, _, hgen, hst, hq, hinc⟩
      cases hq
      exact ⟨⟨hgen, hst⟩, hinc⟩

theorem State.stepKvacq_eq (hf : s.frontier x o.desc l = .ok f)
    (hhd : ∀ p ∈ o.desc.recent f, s.head x o.desc l (o.desc.slotOf p).1 = .ok (hd p)) :
    s.stepKvacq x o l scope d = .ok { s := s.acquireAt o.ident.coreNum, out := .s d (w64 f)
                                      bits := if (o.desc.recent f).any fun p => s.unpaired o scope p (hd p) then [wsMismatch] else [] } := by
  simp only [State.stepKvacq, hf, KM.ok_bind]
  rw [KM.foldlM_or (g := fun p => s.unpaired o scope p (hd p)) fun p hp b => ?_]
  · rfl
  · rw [hhd p hp, KM.ok_bind]
    unfold State.unpaired
    by_cases hpub : (hd p).gen = (o.desc.slotOf p).2 ∧ 2 ≤ (hd p).st
    · rw [if_neg (by omega), decide_eq_true hpub, Bool.true_and]
      cases s.publisherOf o.part o.desc p (hd p) with
      | none => simp [pure, Except.pure]
      | some q => rfl
    · rw [if_pos (by omega), decide_eq_false hpub, Bool.false_and, Bool.or_false]
      rfl

end Kvacq

/-! ### KVLD (R171, R178) -/

section Kvld

variable {s : State} {x : Site} {o : KvOp} {l pc d head elem : Nat} {v : Bool} {pos : List (Nat × Nat)} {view : Nat → SlotView}

/-- What KVLD answers for a position. -/
def Found.answer (k : KvDesc) (v : Bool) (head elem : Nat) : Found → W64
  | .valid w => (k.elem w v head elem).setWidth 64
  | .masked => 1#64 <<< 32
  | .stale => 2#64 <<< 32

def Found.isStale : Found → Bool
  | .stale => true
  | _ => false

theorem KvDesc.answer_found (k : KvDesc) (pc p : Nat) (w : SlotView) (v : Bool) (head elem : Nat) :
    (k.found pc p w).answer k v head elem = if pc ≤ p then 1#64 <<< 32
      else if (k.slotOf p).2 < w.gen then 2#64 <<< 32
      else if w.gen = (k.slotOf p).2 ∧ w.st = 2 then (k.elem w v head elem).setWidth 64
      else 1#64 <<< 32 := by
  unfold KvDesc.found
  simp only [ge_iff_le, gt_iff_lt, apply_ite (Found.answer k v head elem)]
  rfl

theorem KvDesc.isStale_found (k : KvDesc) (pc p : Nat) (w : SlotView) :
    (k.found pc p w).isStale = true ↔ p < pc ∧ (k.slotOf p).2 < w.gen := by
  unfold KvDesc.found
  by_cases hp : p ≥ pc
  · simp [hp, Found.isStale]
  · rw [if_neg hp]
    by_cases hgen : w.gen > (k.slotOf p).2
    · simpa [hgen, Found.isStale] using hp
    · rw [if_neg hgen]
      split <;> simp [hgen, Found.isStale]

/-- Positions looked up one after another, where each answers. -/
theorem foldlM_found {f : List (Nat × W64) × Bool → Nat × Nat → KM (List (Nat × W64) × Bool)} {k : KvDesc} {found : Nat → Found}
    (hf : ∀ q ∈ pos, ∀ acc, f acc q
      = .ok (acc.1 ++ [(q.1, (found q.2).answer k v head elem)], acc.2 || (found q.2).isStale)) (acc : List (Nat × W64) × Bool) :
    pos.foldlM f acc = .ok (acc.1 ++ pos.map (fun q => (q.1, (found q.2).answer k v head elem)),
      acc.2 || pos.any fun q => (found q.2).isStale) := by
  induction pos generalizing acc with
  | nil => simp [pure, Except.pure]
  | cons q pos ih =>
    rw [List.foldlM_cons, hf q List.mem_cons_self, KM.ok_bind, ih fun r hr => hf r (List.mem_cons_of_mem _ hr), List.map_cons,
      List.any_cons, List.append_assoc, Bool.or_assoc]
    rfl

/-- What KVLD answers for each thread, the slots read as `view` says. -/
def KvDesc.answers (k : KvDesc) (pc : Nat) (view : Nat → SlotView) (v : Bool) (head elem : Nat) (pos : List (Nat × Nat)) :
    List (Nat × W64) := pos.map fun q => (q.1, (k.found pc q.2 (view q.2)).answer k v head elem)

theorem KvDesc.lanes_answers (k : KvDesc) : (k.answers pc view v head elem pos).map (·.1) = pos.map (·.1) := List.map_map

theorem KvDesc.mem_answers (k : KvDesc) {q : Nat × Nat} (hq : q ∈ pos) :
    (q.1, (k.found pc q.2 (view q.2)).answer k v head elem) ∈ k.answers pc view v head elem pos :=
  List.mem_map.2 ⟨q, hq, rfl⟩

theorem State.stepKvld_eq (hpc : s.poscnt x o.desc = .ok pc) (hlt : pc < 2 ^ 64)
    (hview : ∀ q ∈ pos, q.2 < pc → s.kvSlot x o l (o.desc.slotOf q.2).1 = .ok (view q.2)) :
    s.stepKvld x o v head l elem pos d = .ok
      { s := s, out := .v d (o.desc.answers pc view v head elem pos)
        bits := if pos.any fun q => (o.desc.found pc q.2 (view q.2)).isStale then [wsStale] else [] } := by
  simp only [State.stepKvld, hpc, KM.ok_bind]
  rw [foldlM_found (v := v) (head := head) (elem := elem) (k := o.desc) (found := fun p => o.desc.found pc p (view p)) fun q hq acc => ?_]
  · rfl
  · have hfound : (if q.2 ≥ Nat.min pc (2 ^ 64) then pure Found.masked
        else do
          let w ← s.kvSlot x o l (o.desc.slotOf q.2).1
          pure (o.desc.found pc q.2 w) : KM Found) = .ok (o.desc.found pc q.2 (view q.2)) := by
      rw [show Nat.min pc (2 ^ 64) = pc from Nat.min_eq_left hlt.le]
      by_cases hq2 : q.2 ≥ pc
      · rw [if_pos hq2, KvDesc.found, if_pos hq2]
        rfl
      · rw [if_neg hq2, hview q hq (Nat.not_le.1 hq2)]
        rfl
    rw [hfound, KM.ok_bind]
    cases o.desc.found pc q.2 (view q.2) <;> simp [Found.answer, Found.isStale, pure, Except.pure]

end Kvld

/-! ### Reference counts (R190, R191) -/

section Counts

variable {s t u : State} {part : Nat}

/-- How many entries of a page table name a page. -/
def usesOf (es : List (Nat × Nat × Pte)) (page : Nat) : Nat := (es.filter fun e => e.2.2.page == page).length

theorem usesOf_cons (e : Nat × Nat × Pte) (es : List (Nat × Nat × Pte)) (page : Nat) :
    usesOf (e :: es) page = usesOf es page + if e.2.2.page = page then 1 else 0 := by
  unfold usesOf
  by_cases h : e.2.2.page = page
  · rw [List.filter_cons_of_pos (by simpa using h), if_pos h, List.length_cons]
  · rw [List.filter_cons_of_neg (by simpa using h), if_neg h, Nat.add_zero]

theorem domKey_inj {a b : Nat} (h : domKey part a = domKey part b) : a = b := Nat.add_left_cancel h

theorem State.pageRec_of_find {page : Nat} {r : PageRec} (h : Tbl.find s.pages (domKey part page) = some r) :
    s.pageRec part page = r := by
  rw [State.pageRec, h]
  rfl

theorem State.pageRec_congr {page : Nat} (h : Tbl.find t.pages (domKey part page) = Tbl.find s.pages (domKey part page)) :
    t.pageRec part page = s.pageRec part page := by rw [State.pageRec, h, State.pageRec]

/-- The records of pages of which those that entries name have been changed, as a function of the record and the number of
entries. -/
structure State.Recounts (s t : State) (part : Nat) (es : List (Nat × Nat × Pte)) (f : PageRec → Nat → Option PageRec) : Prop where
  named : ∀ page, usesOf es page ≠ 0 → Tbl.find t.pages (domKey part page) = f (s.pageRec part page) (usesOf es page)
  others : ∀ key, (∀ e ∈ es, key ≠ domKey part e.2.2.page) → Tbl.find t.pages key = Tbl.find s.pages key

/-- `n` references more. -/
def PageRec.more (r : PageRec) (n : Nat) : Option PageRec := some { r with count := r.count + n }

/-- `n` references fewer; a page without any is not kept. -/
def PageRec.fewer (r : PageRec) (n : Nat) : Option PageRec := if n < r.count then some { r with count := r.count - n } else none

theorem State.Recounts.nil (s : State) (part : Nat) (f : PageRec → Nat → Option PageRec) : s.Recounts s part [] f :=
  ⟨fun _ h => absurd rfl h, fun _ _ => rfl⟩

theorem State.Recounts.congr {es : List (Nat × Nat × Pte)} {f : PageRec → Nat → Option PageRec} (h : s.Recounts t part es f)
    (hp : u.pages = t.pages) : s.Recounts u part es f :=
  ⟨fun page hn => by rw [hp]; exact h.named page hn, fun key hk => by rw [hp]; exact h.others key hk⟩

/-- One entry after another: `f` is given for one reference, and a record that has been changed goes on to be. -/
theorem State.Recounts.cons {e : Nat × Nat × Pte} {es : List (Nat × Nat × Pte)} {f : PageRec → Nat → Option PageRec}
    (hone : Tbl.find u.pages (domKey part e.2.2.page) = f (s.pageRec part e.2.2.page) 1)
    (hrest : ∀ key, key ≠ domKey part e.2.2.page → Tbl.find u.pages key = Tbl.find s.pages key)
    (hf : ∀ n, n ≠ 0 → f (u.pageRec part e.2.2.page) n = f (s.pageRec part e.2.2.page) (n + 1))
    (h : u.Recounts t part es f) : s.Recounts t part (e :: es) f := by
  refine ⟨fun page hn => ?_, fun key hk => ?_⟩
  · have hothers (hzero : usesOf es page = 0) : Tbl.find t.pages (domKey part page) = Tbl.find u.pages (domKey part page) := by
      refine h.others _ fun e' he' heq => ?_
      have hmem : e' ∈ es.filter fun e => e.2.2.page == page := List.mem_filter.2 ⟨he', beq_iff_eq.2 (domKey_inj heq).symm⟩
      exact absurd hzero (List.length_pos_iff.2 (List.ne_nil_of_mem hmem)).ne'
    rw [usesOf_cons] at hn ⊢
    by_cases he : e.2.2.page = page
    · subst he
      rw [if_pos rfl]
      by_cases hzero : usesOf es e.2.2.page = 0
      · rw [hothers hzero, hzero, hone]
      · rw [h.named _ hzero, hf _ hzero]
    · rw [if_neg he, Nat.add_zero] at hn ⊢
      rw [h.named page hn, State.pageRec_congr (hrest _ fun heq => he (domKey_inj heq).symm)]
  · rw [h.others key fun e' he' => hk e' (List.mem_cons_of_mem _ he'), hrest key (hk e List.mem_cons_self)]

end Counts

/-! ### KVFORK (R181, R190) -/

section Kvfork

variable {s s1 s2 s3 t : State} {x : Site} {o : KvOp} {child : KvDesc} {fm : Nat} {es : List (Nat × Nat × Pte)}

/-- An entry of the parent enters the child's page table. -/
def State.forkEntry (x : Site) (o : KvOp) (child : KvDesc) (fm : Nat) (s : State) (e : Nat × Nat × Pte) : KM State := do
  let hide ← s.childHide x o e.2.1 fm e.2.2
  let s ← s.kvWrite x (child.pteAt e.1 e.2.1) (natToBytes 16 (if e.2.2.v then 1 + e.2.2.page + hide * 2 ^ 64 else 0))
  let r := s.pageRec o.part e.2.2.page
  pure { s with pages := Tbl.put s.pages (domKey o.part e.2.2.page) { r with count := r.count + 1 } }

theorem State.forkEntries_counts (h : es.foldlM (State.forkEntry x o child fm) s = .ok t) :
    s.Recounts t o.part es PageRec.more ∧ s.SameAsks t := by
  induction es generalizing s with
  | nil => exact KM.pure_eq_ok.1 h ▸ ⟨.nil s _ _, .refl s⟩
  | cons e es ih =>
    obtain ⟨u, hu, h⟩ := KM.bind_eq_ok.1 ((List.foldlM_cons (m := KM)).symm.trans h)
    obtain ⟨hide, -, hu⟩ := KM.bind_eq_ok.1 hu
    obtain ⟨v, hv, hu⟩ := KM.bind_eq_ok.1 hu
    obtain rfl := KM.pure_eq_ok.1 hu
    obtain ⟨hcounts, hasks⟩ := ih h
    have hstores := s.kvWrite_onlyStores x _ _ v hv
    have hrec : v.pageRec o.part e.2.2.page = s.pageRec o.part e.2.2.page := State.pageRec_congr (by rw [hstores.pages])
    refine ⟨.cons ?_ (fun key hk => ?_) (fun n _ => ?_) hcounts, ?_⟩
    · rw [← hrec]
      exact Tbl.find_put_self ..
    · rw [← hstores.pages]
      exact Tbl.find_put_other _ _ hk
    · rw [State.pageRec_of_find (Tbl.find_put_self ..), hrec, PageRec.more, PageRec.more, Nat.add_assoc, Nat.add_comm 1 n]
    · obtain ⟨⟨hweaves, hkv, hvoids⟩, hlegs⟩ := hasks
      exact hstores.sameAsks.trans ⟨⟨hweaves, hkv, hvoids⟩, hlegs⟩

variable {d : Nat} {r : Machine.KvDone}

theorem State.stepKvfork_used {cpos : Nat} {copen : Bool} (hpos : s.poscnt x child = .ok cpos) (hopen : s.anyOpen x child = .ok copen)
    (h : cpos ≠ 0 ∨ copen = true) (scope : Scope) :
    s.stepKvfork x o child scope d = .ok { s := s, out := .s d (w64 (2 ^ 63 + 7)), bits := [] } := by
  simp only [State.stepKvfork, hpos, hopen, KM.ok_bind, if_pos h]
  rfl

variable (hpos : s.poscnt x child = .ok 0) (hopen : s.anyOpen x child = .ok false) (hes : s.allPtes x o.desc = .ok es)

include hpos hopen hes

theorem State.stepKvfork_full (h : ∃ e ∈ es, 65535 ≤ (s.pageRec o.part e.2.2.page).count) (scope : Scope) :
    s.stepKvfork x o child scope d = .ok { s := s, out := .s d (w64 (2 ^ 63 + 6)), bits := [] } := by
  have hany : (es.any fun e => decide ((s.pageRec o.part e.2.2.page).count ≥ 65535)) = true := by simpa using h
  simp only [State.stepKvfork, hpos, hopen, hes, KM.ok_bind, hany, ne_eq, not_true_eq_false, Bool.false_eq_true, or_self, if_false,
    if_true]
  rfl

theorem State.stepKvfork_forks (hroom : ∀ e ∈ es, (s.pageRec o.part e.2.2.page).count < 65535) (hfm : s.fmin x o.desc = .ok fm)
    {scope : Scope} (h : s.stepKvfork x o child scope d = .ok r) :
    ∃ s1 s2 s3, es.foldlM (State.forkEntry x o child fm) s = .ok s1 ∧ s1.kvWrite x child.ctx (natToBytes 8 fm) = .ok s2
      ∧ s2.kvWrite x child.pt (forkArea child fm) = .ok s3
      ∧ r = { s := { s3 with ctxs := Tbl.put s3.ctxs (ctxKey o.part child)
                               { desc := child, fork := some (o.ident, scope, fm), owners := [] } }
              out := .s d (w64 fm), bits := [] } := by
  have hany : (es.any fun e => decide ((s.pageRec o.part e.2.2.page).count ≥ 65535)) = false := by
    simpa using hroom
  simp only [State.stepKvfork, hpos, hopen, hes, hfm, KM.ok_bind, hany, ne_eq, not_true_eq_false, Bool.false_eq_true, or_self,
    if_false] at h
  obtain ⟨s1, h1, h⟩ := KM.bind_eq_ok.1 h
  obtain ⟨s2, h2, h⟩ := KM.bind_eq_ok.1 h
  obtain ⟨s3, h3, h⟩ := KM.bind_eq_ok.1 h
  exact ⟨s1, s2, s3, h1, h2, h3, (KM.pure_eq_ok.1 h).symm⟩

end Kvfork

/-! ### What a child does not see (R190) -/

section Hide

variable {s : State} {x : Site} {o : KvOp} {j fm : Nat} {e : Pte}

theorem Pte.hides_iff (e : Pte) (i : Nat) : e.hides i = e.hide.testBit i := by
  rw [Pte.hides, Nat.testBit_eq_decide_div_mod_eq]
  rfl

/-- Does a header say that the child must not see its slot: written, or published at or above the child's start. -/
def KvDesc.unseen (k : KvDesc) (fm slot n : Nat) : Prop :=
  n / 2 ^ 48 % 4 = 1 ∨ (n / 2 ^ 48 % 4 ≠ 0 ∧ fm ≤ k.posOf slot (n % 2 ^ 48))

/-- A bit that is not set is added to a number, and no other bit changes. -/
theorem testBit_add_two_pow {n i : Nat} (h : n.testBit i = false) (m : Nat) :
    (n + 2 ^ i).testBit m = (n.testBit m || decide (m = i)) := by
  have hlt : n % 2 ^ i < 2 ^ i := Nat.mod_lt _ (Nat.two_pow_pos i)
  have heven : n / 2 ^ i % 2 = 0 := by
    rw [Nat.testBit_eq_decide_div_mod_eq] at h
    simpa using h
  have hsum : n + 2 ^ i = 2 ^ i * (n / 2 ^ i + 1) + n % 2 ^ i := by
    rw [Nat.mul_add, Nat.mul_one, Nat.add_right_comm, Nat.div_add_mod]
  rw [hsum, Nat.testBit_two_pow_mul_add _ hlt]
  by_cases hm : m < i
  · simp [hm, Nat.testBit_mod_two_pow, hm.ne]
  · obtain ⟨k, rfl⟩ := Nat.exists_eq_add_of_le' (Nat.not_lt.1 hm)
    rw [if_neg hm, Nat.add_sub_cancel, ← Nat.testBit_div_two_pow]
    cases k with
    | zero => simp [Nat.testBit_zero, show (n / 2 ^ i + 1) % 2 = 1 by omega]
    | succ k => simp [Nat.testBit_succ, show (n / 2 ^ i + 1) / 2 = n / 2 ^ i / 2 by omega]

/-- One slot of a page that is shared with a child. -/
def State.hideSlot (s : State) (x : Site) (o : KvOp) (j fm : Nat) (e : Pte) (hide i : Nat) : KM Nat := do
  if e.hides i then pure hide
  else
    let bs ← s.pageRead x e.page (16 * i) 16
    let h := headOf (bytesToNat bs) 0
    if h.st = 1 ∨ (h.st ≠ 0 ∧ o.desc.posOf (16 * j + i) h.gen ≥ fm) then pure (hide + 2 ^ i) else pure hide

theorem State.childHide_eq (s : State) (x : Site) (o : KvOp) (j fm : Nat) (e : Pte) :
    s.childHide x o j fm e = (List.range 16).foldlM (s.hideSlot x o j fm e) e.hide := rfl

/-- Is a slot that the parent sees hidden from the child. -/
def State.Hides (s : State) (x : Site) (o : KvOp) (j fm : Nat) (e : Pte) (i : Nat) : Prop :=
  e.hides i = false ∧ ∃ bs, s.pageRead x e.page (16 * i) 16 = .ok bs ∧ o.desc.unseen fm (16 * j + i) (bytesToNat bs)

theorem State.hideSlot_spec {a b i : Nat} (ha : e.hides i = false → a.testBit i = false)
    (h : s.hideSlot x o j fm e a i = .ok b) (m : Nat) :
    b.testBit m = true ↔ a.testBit m = true ∨ (m = i ∧ s.Hides x o j fm e i) := by
  unfold State.hideSlot at h
  unfold State.Hides
  cases hi : e.hides i with
  | true =>
    rw [if_pos hi] at h
    obtain rfl := KM.pure_eq_ok.1 h
    simp
  | false =>
    rw [if_neg (by rw [hi]; exact Bool.false_ne_true)] at h
    obtain ⟨bs, hbs, h⟩ := KM.bind_eq_ok.1 h
    have hunseen : (∃ bs, s.pageRead x e.page (16 * i) 16 = .ok bs ∧ o.desc.unseen fm (16 * j + i) (bytesToNat bs))
        ↔ o.desc.unseen fm (16 * j + i) (bytesToNat bs) := by
      constructor
      · rintro ⟨bs', hbs', hu⟩
        exact Except.ok.inj (hbs.symm.trans hbs') ▸ hu
      · exact fun hu => ⟨bs, hbs, hu⟩
    simp only [hunseen, true_and]
    by_cases hu : o.desc.unseen fm (16 * j + i) (bytesToNat bs)
    · obtain rfl := KM.pure_eq_ok.1 ((if_pos hu).symm.trans h)
      simp [testBit_add_two_pow (ha hi), hu]
    · obtain rfl := KM.pure_eq_ok.1 ((if_neg hu).symm.trans h)
      simp [hu]

/-- Slot after slot: each adds its own bit. -/
theorem State.foldlM_hideSlot {l : List Nat} (hnodup : l.Nodup) {a b : Nat} (ha : ∀ i ∈ l, e.hides i = false → a.testBit i = false)
    (h : l.foldlM (s.hideSlot x o j fm e) a = .ok b) (m : Nat) :
    b.testBit m = true ↔ a.testBit m = true ∨ (m ∈ l ∧ s.Hides x o j fm e m) := by
  induction l generalizing a with
  | nil =>
    obtain rfl := KM.pure_eq_ok.1 h
    simp
  | cons i l ih =>
    obtain ⟨hi, hl⟩ := List.nodup_cons.1 hnodup
    obtain ⟨c, hc, h⟩ := KM.bind_eq_ok.1 ((List.foldlM_cons (m := KM)).symm.trans h)
    have hslot := State.hideSlot_spec (ha i List.mem_cons_self) hc
    have hfree (k : Nat) (hk : k ∈ l) (hside : e.hides k = false) : c.testBit k = false := by
      rw [Bool.eq_false_iff, ne_eq, hslot k, ha k (List.mem_cons_of_mem _ hk) hside]
      rintro (h | ⟨rfl, -⟩)
      · cases h
      · exact hi hk
    rw [ih hl hfree h, hslot m, List.mem_cons, or_assoc]
    refine or_congr_right ⟨?_, ?_⟩
    · rintro (⟨rfl, hh⟩ | ⟨hm, hh⟩)
      · exact ⟨.inl rfl, hh⟩
      · exact ⟨.inr hm, hh⟩
    · rintro ⟨rfl | hm, hh⟩
      · exact .inl ⟨rfl, hh⟩
      · exact .inr ⟨hm, hh⟩

/-- The child does not see what the parent does not see, and what the parent's start hides. -/
theorem State.childHide_spec {hide : Nat} (h : s.childHide x o j fm e = .ok hide) {i : Nat} (hi : i < 16) : hide / 2 ^ i % 2 = 1 ↔
    e.hides i = true ∨ ∃ bs, s.pageRead x e.page (16 * i) 16 = .ok bs ∧ o.desc.unseen fm (16 * j + i) (bytesToNat bs) := by
  have hbit := State.foldlM_hideSlot List.nodup_range (fun k _ hk => e.hides_iff k ▸ hk) (s.childHide_eq x o j fm e ▸ h) i
  rw [← decide_eq_true_iff (p := hide / 2 ^ i % 2 = 1), ← Nat.testBit_eq_decide_div_mod_eq, hbit, ← Pte.hides_iff, State.Hides]
  cases e.hides i with
  | true => simp
  | false => simp [hi]

end Hide

/-! ### KVREL (R191) -/

section Kvrel

variable {s t : State} {x : Site} {o : KvOp} {es : List (Nat × Nat × Pte)} {d : Nat} {r : Machine.KvDone}

theorem State.freePage_pages (s : State) (part page : Nat) : (s.freePage part page).pages = Tbl.del s.pages (domKey part page) := by
  unfold State.freePage
  dsimp only
  split
  · rfl
  · unfold State.homePage
    split
    · rw [show State.pages _ = State.pages _ from congrArg State.pages (State.setPoolFree_alike _ _ _)]
      rfl
    · rfl

/-- One reference fewer. -/
theorem State.find_dropRef (s : State) (part page key : Nat) : Tbl.find (s.dropRef part page).pages key
    = if key = domKey part page then (s.pageRec part page).fewer 1 else Tbl.find s.pages key := by
  unfold State.dropRef PageRec.fewer
  dsimp only
  by_cases hcount : (s.pageRec part page).count ≤ 1
  · rw [if_pos hcount, if_neg (Nat.not_lt.2 hcount), State.freePage_pages, Tbl.find_del]
  · rw [if_neg hcount, if_pos (Nat.not_le.1 hcount), Tbl.find_put]

/-- References that are dropped one by one. -/
theorem State.fewer_dropRef (s : State) (part page : Nat) {n : Nat} (hn : n ≠ 0) :
    ((s.dropRef part page).pageRec part page).fewer n = (s.pageRec part page).fewer (n + 1) := by
  have hfind := s.find_dropRef part page (domKey part page)
  rw [if_pos rfl, PageRec.fewer] at hfind
  by_cases hcount : 1 < (s.pageRec part page).count
  · rw [if_pos hcount] at hfind
    rw [State.pageRec_of_find hfind]
    simp only [PageRec.fewer, Nat.lt_sub_iff_add_lt, Nat.sub_sub, Nat.add_comm 1 n]
  · rw [if_neg hcount] at hfind
    have hnone : (s.dropRef part page).pageRec part page = { count := 1, origin := 0, units := 0 } := by
      rw [State.pageRec, hfind]
      rfl
    rw [hnone, PageRec.fewer, PageRec.fewer, if_neg (show ¬ n < 1 by omega), if_neg (by omega)]

/-- An entry of a page table is cleared. -/
def State.relEntry (x : Site) (o : KvOp) (s : State) (e : Nat × Nat × Pte) : KM State := do
  let s ← s.kvWrite x (o.desc.pteAt e.1 e.2.1) (natToBytes 16 0)
  pure (s.dropRef o.part e.2.2.page)

theorem State.relEntries_counts (h : es.foldlM (State.relEntry x o) s = .ok t) : s.Recounts t o.part es PageRec.fewer ∧ s.SameAsks t := by
  induction es generalizing s with
  | nil => exact KM.pure_eq_ok.1 h ▸ ⟨.nil s _ _, .refl s⟩
  | cons e es ih =>
    obtain ⟨u, hu, h⟩ := KM.bind_eq_ok.1 ((List.foldlM_cons (m := KM)).symm.trans h)
    obtain ⟨v, hv, hu⟩ := KM.bind_eq_ok.1 hu
    obtain rfl := KM.pure_eq_ok.1 hu
    obtain ⟨hcounts, hasks⟩ := ih h
    have hstores := s.kvWrite_onlyStores x _ _ v hv
    have hrec : v.pageRec o.part e.2.2.page = s.pageRec o.part e.2.2.page := State.pageRec_congr (by rw [hstores.pages])
    refine ⟨.cons ?_ (fun key hk => ?_) (fun n hn => ?_) hcounts, ?_⟩
    · rw [State.find_dropRef, if_pos rfl, hrec]
    · rw [State.find_dropRef, if_neg hk, hstores.pages]
    · rw [State.fewer_dropRef _ _ _ hn, hrec]
    · exact hstores.sameAsks.trans ((v.dropRef_sameAsks _ _).trans hasks)

theorem State.stepKvrel_open (hopen : s.anyOpen x o.desc = .ok true) :
    s.stepKvrel x o d = .ok { s := s, out := .s d (w64 (2 ^ 63 + 1)), bits := [] } := by
  simp only [State.stepKvrel, hopen, KM.ok_bind, if_true]
  rfl

theorem State.stepKvrel_releases (hopen : s.anyOpen x o.desc = .ok false) (hes : s.allPtes x o.desc = .ok es)
    (h : s.stepKvrel x o d = .ok r) :
    ∃ s1 s2 s3, es.foldlM (State.relEntry x o) s = .ok s1 ∧ s1.kvWrite x o.desc.ctx (natToBytes 8 0) = .ok s2
      ∧ s2.kvWrite x o.desc.pt (natToBytes 4096 0) = .ok s3
      ∧ r = { s := { s3 with ctxs := Tbl.del s3.ctxs (ctxKey o.part o.desc) }, out := .s d 0, bits := [] } := by
  simp only [State.stepKvrel, hopen, hes, KM.ok_bind, Bool.false_eq_true, if_false] at h
  obtain ⟨s1, h1, h⟩ := KM.bind_eq_ok.1 h
  obtain ⟨s2, h2, h⟩ := KM.bind_eq_ok.1 h
  obtain ⟨s3, h3, h⟩ := KM.bind_eq_ok.1 h
  exact ⟨s1, s2, s3, h1, h2, h3, (KM.pure_eq_ok.1 h).symm⟩

end Kvrel

/-! ### The obligation -/

/-- Settles O33: KVACQ and KVLD by what each position answers in their folds, KVFORK and KVREL by the entries of the page table one
after another, of which each changes the count of its page. -/
theorem kvQueries : Obligations.KvQueries := by
  unfold Obligations.KvQueries
  intro s id o w hat k x answers same uses
  refine ⟨?acquire, ?load, ?fork, ?hide, ?release⟩
  case acquire =>
    intro l scope d f hd hk hf hhd
    have hstep : s.kvStep id o = s.stepKvacq x o l scope d := by simp only [State.kvStep, hk]; rfl
    obtain ⟨t, hexec, hdone, hrest, hput⟩ := hat.answers_afterKv (allowed := [wsMismatch])
      (F := fun t => t = { s.dropLegs (.kv id) with
        weaves := t.weaves, kvOps := t.kvOps
        staging := s.staging.filter fun y => !(y.core == o.ident.coreNum && y.path == .ls && y.loc.isMem) })
      (by rw [hk]; rfl) (hstep.trans (State.stepKvacq_eq hf hhd)) rfl (fun _ hb => mem_of_mem_bitIf hb)
      ⟨⟨rfl, rfl, rfl⟩, rfl⟩ fun _ _ => rfl
    refine ⟨t, _, hexec, hdone, hput, hrest, ?_⟩
    rw [Weave.afterKv_reports _ _ (by decide), List.any_eq_true]
    simp only [State.unpaired_iff]
    rfl
  case load =>
    intro v head l elem pos d pc view hk hpc hlt hview hnodup hd
    have hstep : s.kvStep id o = s.stepKvld x o v head l elem pos d := by simp only [State.kvStep, hk]; rfl
    have hevent : o.kind.event id = .kvPathStep id () := by rw [hk]; rfl
    have hexec := hat.completes (hstep.trans (State.stepKvld_eq hpc hlt hview)) (.refl s)
    rw [hevent] at hexec
    obtain ⟨-, -, -, -, hw, -⟩ := hat
    have hlanes : (o.desc.answers pc view v head elem pos).map (·.1) = pos.map (·.1) := KvDesc.lanes_answers _
    have hnodup' := hlanes ▸ hnodup
    refine ⟨_, _, hexec, State.kvDone_finishKv (.refl s) hw (fun _ hb => mem_of_mem_bitIf hb), rfl, ?_, fun q hq hlane hlive => ?_,
      fun n j hj h => ?_, ?_⟩
    · rw [Weave.afterKv_s, Weave.kvResult_v_s]
    · have hget := Weave.getV64_kvResult (w := w) (o := o) hd hnodup' (KvDesc.mem_answers _ hq) hlane hlive
      rw [Weave.getV64_afterKv, ← KvDesc.answer_found]
      exact hget
    · rw [Weave.getV_afterKv]
      exact Weave.getV_kvResult_other hd hnodup' hj (by rwa [hlanes])
    · rw [Weave.afterKv_reports _ _ (by decide), List.any_eq_true]
      simp only [KvDesc.isStale_found]
      rfl
  case fork =>
    intro child scope d cpos copen hk hpos hopen
    have hevent : o.kind.event id = .kvPathStep id () := by rw [hk]; rfl
    have hstep : s.kvStep id o = s.stepKvfork x o child scope d := by simp only [State.kvStep, hk]; rfl
    refine ⟨fun hused => ?_, fun es hcpos hcopen hes => ?_⟩
    · exact hat.answers_only hevent (hstep.trans (State.stepKvfork_used hpos hopen hused scope))
    · subst hcpos hcopen
      refine ⟨fun hfull => ?_, fun fm r hroom hfm hr => ?_⟩
      · exact hat.answers_only hevent (hstep.trans (State.stepKvfork_full hpos hopen hes hfull scope))
      · obtain ⟨s1, s2, s3, h1, h2, h3, rfl⟩ := State.stepKvfork_forks hpos hopen hes hroom hfm (hstep.symm.trans hr)
        obtain ⟨hcounts, hasks⟩ := State.forkEntries_counts h1
        have hstores := (s1.kvWrite_onlyStores x _ _ s2 h2).trans (s2.kvWrite_onlyStores x _ _ s3 h3)
        have hcounts3 := hcounts.congr hstores.pages
        obtain ⟨⟨hweaves, hkv, hvoids⟩, hlegs⟩ := hasks.trans hstores.sameAsks
        exact hat.answers hevent hr rfl rfl ⟨⟨hweaves, hkv, hvoids⟩, hlegs⟩
          fun _ _ => ⟨s1, s2, s3, h1, h2, h3, hcounts3.named, hcounts3.others, rfl, Tbl.find_put_self ..⟩
  case hide =>
    intro j fm e hide _ hhide i hi
    exact State.childHide_spec hhide hi
  case release =>
    intro d hk
    have hevent : o.kind.event id = .kvPathStep id () := by rw [hk]; rfl
    have hstep : s.kvStep id o = s.stepKvrel x o d := by simp only [State.kvStep, hk]; rfl
    refine ⟨fun hopen => hat.answers_only hevent (hstep.trans (State.stepKvrel_open hopen)), fun r es hopen hes hr => ?_⟩
    obtain ⟨s1, s2, s3, h1, h2, h3, rfl⟩ := State.stepKvrel_releases hopen hes (hstep.symm.trans hr)
    obtain ⟨hcounts, hasks⟩ := State.relEntries_counts h1
    have hstores := (s1.kvWrite_onlyStores x _ _ s2 h2).trans (s2.kvWrite_onlyStores x _ _ s3 h3)
    have hcounts3 := hcounts.congr hstores.pages
    obtain ⟨⟨hweaves, hkv, hvoids⟩, hlegs⟩ := hasks.trans hstores.sameAsks
    exact hat.answers hevent hr rfl rfl ⟨⟨hweaves, hkv, hvoids⟩, hlegs⟩
      fun _ _ => ⟨s1, s2, s3, h1, h2, h3, hcounts3.named, hcounts3.others, rfl, (Tbl.find_del ..).trans (if_pos rfl)⟩

end Sys2Proof.Machine
end

section
/-! QROT: the rotated pair of each active thread (R195, R423), and the sticky bits that the stored elements report (R197). -/

namespace Sys2Proof.Machine

open Sys2Proof

/-! ### A register-only effect that reports sticky bits (R120, R205) -/

section Report

variable {s : State} {i : Instr} {x : Ctx} {w w' : Weave} {v sr p k : List Nat}

/-- What leaves every sticky bit leaves those outside a list. -/
theorem Ctx.Only.allowSticky {t : State} (h : x.Only i t w v sr p k []) (bits : List Nat) : x.Only i t w v sr p k bits :=
  { h with status := fun b _ => h.status b List.not_mem_nil }

/-- The computing lanes report SAT and INEXACT after a change of registers, which stays as it is. -/
theorem Ctx.Only.report (h : x.Only i ((Res.done s).apply x i) w v sr p k []) (sc : Bool) (f : Nat → Fl) :
    ∃ w', x.Only i ((Res.done (s.report x.c.weave (x.flags sc f))).apply x i) w' v sr p k [wsSat, wsInexact]
      ∧ w'.v = w.v ∧ x.Sets w' wsSat sc (fun l => (f l).sat) ∧ x.Sets w' wsInexact sc fun l => (f l).inexact := by
  obtain ⟨w1, honly1, hv1, -, -, -, hbits1⟩ :=
    (h.allowSticky [wsSat, wsInexact]).stickyIf wsSat (by decide) (x.flags sc f).sat fun _ => by simp
  obtain ⟨w2, honly2, hv2, -, -, -, hbits2⟩ := honly1.stickyIf wsInexact (by decide) (x.flags sc f).inexact fun _ => by simp
  have hbits : ∀ b, w2.wstat.getLsbD b = ((x.w.wstat.getLsbD b || ((x.flags sc f).sat && decide (b = wsSat)))
      || ((x.flags sc f).inexact && decide (b = wsInexact))) := fun b => by
    rw [hbits2, hbits1, h.status b List.not_mem_nil]
  refine ⟨w2, honly2, hv2.trans hv1, ?_, ?_⟩
  · simp only [Ctx.Sets, hbits, Ctx.flags_eq, show wsSat ≠ wsInexact by decide, decide_true, decide_false, Bool.and_true,
      Bool.and_false, Bool.or_false]
  · simp only [Ctx.Sets, hbits, Ctx.flags_eq, show wsInexact ≠ wsSat by decide, decide_true, decide_false, Bool.and_true,
      Bool.and_false, Bool.or_false]

/-- What a pair holds depends on the v registers alone. -/
theorem Weave.getV64_congr (h : w'.v = w.v) (n l : Nat) : w'.getV64 n l = w.getV64 n l :=
  congrArg (fun t => Weave.getV64 { w with v := t } n l) h

end Report

/-! ### QROT -/

section Qrot

variable {st : State} {x : Ctx}

/-- A pair whose registers are real ones never begins at v254 (R116, R423). -/
theorem State.Issues.realPair {i : Instr} (h : st.Issues i x) {o : Opnd} (ho : o ∈ operands i) (hk : o.kind = .v2c) (hw : o.wr = true) :
    o.n ≠ 254 := by
  have hin := h.inClass (State.continues_wr ho hw) o ho
  have halloc : x.e.f.lr.vAlloc ≤ 255 := Nat.min_le_left _ _
  simp only [hk, Kind.inClass, Bool.and_eq_true, decide_eq_true_eq] at hin
  omega

/-- A QROT at issue writes x′ and y′ of each active thread and reports what storing them reports. -/
theorem exec_qrot_eq {h : Hd} {fm : Fmt} {d a b c : Nat} (hi : st.Issues (.qrot h fm d a b c) x) :
    exec (.qrot h fm d a b c) st = .next ((Res.done
      ((x.putV64 d fun l => (x.qrot fm a b c l).1.2 ++ (x.qrot fm a b c l).1.1).report x.c.weave
        (x.flags false fun l => (x.qrot fm a b c l).2))).apply x (.qrot h fm d a b c)) := by
  obtain ⟨-, hwid, -⟩ := State.ctx_weave hi.1
  rw [hi.exec_eq (exec_qrot ..), hwid]
  rfl

end Qrot

/-- Settles O30: QROT by what it writes, whose halves are the two stored elements, and by what it reports of them; that these
are the rotated values is the definition of `Ctx.qrot`. -/
theorem queryRotation : Obligations.QueryRotation := by
  intro h fm d a b c sc u v first second st x hi
  have hd : d ≠ 254 := hi.realPair (o := opD .v2c d) List.mem_cons_self rfl rfl
  obtain ⟨w, honly, hpair⟩ := Ctx.only_putV64 hi.1 d hd fun l => (x.qrot fm a b c l).1.2 ++ (x.qrot fm a b c l).1.1
  obtain ⟨w', honly', hv, hsat, hinexact⟩ := honly.report false fun l => (x.qrot fm a b c l).2
  refine ⟨_, w', exec_qrot_eq hi, honly', fun hd255 l hl hact => ?_, hsat, hinexact⟩
  rw [Weave.getV64_congr hv, hpair l hl hact hd255]
  constructor
  · exact (extract_low _ _ _ _ (by decide)).trans (extract_all _)
  · exact (extract_high _ _ _ _ (by decide)).trans (extract_all _)

end Sys2Proof.Machine
end

section
/-! The decoder's fields, read back: what a field decoder accepts is what its field encoder lays out (R284–R313), so a word
group that decodes is the encoding of its instruction. -/

namespace Sys2Proof

/-! ### Codes: a code that a decoder accepts is the code of what it answers -/

@[simp] theorem Fmt.ofCode_eq_some {n : Nat} {o : Fmt} : Fmt.ofCode n = some o ↔ n = o.code := by
  constructor
  · intro h
    unfold Fmt.ofCode at h
    split at h <;> cases h <;> rfl
  · rintro rfl
    exact Fmt.ofCode_code o

@[simp] theorem Scope.ofCode_eq_some {n : Nat} {o : Scope} : Scope.ofCode n = some o ↔ n = o.code := by
  constructor
  · intro h
    unfold Scope.ofCode at h
    split at h <;> cases h <;> rfl
  · rintro rfl
    exact Scope.ofCode_code o

@[simp] theorem RClass.ofCode_eq_some {n : Nat} {o : RClass} : RClass.ofCode n = some o ↔ n = o.code := by
  constructor
  · intro h
    unfold RClass.ofCode at h
    split at h <;> cases h <;> rfl
  · rintro rfl
    cases o <;> rfl

@[simp] theorem Size.ofCode_eq_some {n : Nat} {o : Size} : Size.ofCode n = some o ↔ n = o.code := by
  constructor
  · intro h
    unfold Size.ofCode at h
    split at h <;> cases h <;> rfl
  · rintro rfl
    cases o <;> rfl

@[simp] theorem ShrOp.ofCode_eq_some {n : Nat} {o : ShrOp} : ShrOp.ofCode n = some o ↔ n = o.code := by
  constructor
  · intro h
    unfold ShrOp.ofCode at h
    split at h <;> cases h <;> rfl
  · rintro rfl
    exact ShrOp.ofCode_code o

@[simp] theorem ICond.ofCode_eq_some {n : Nat} {o : ICond} : ICond.ofCode n = some o ↔ n = o.code := by
  constructor
  · intro h
    unfold ICond.ofCode at h
    split at h <;> cases h <;> rfl
  · rintro rfl
    exact ICond.ofCode_code o

@[simp] theorem PlogOp.ofCode_eq_some {n : Nat} {o : PlogOp} : PlogOp.ofCode n = some o ↔ n = o.code := by
  constructor
  · intro h
    unfold PlogOp.ofCode at h
    split at h <;> cases h <;> rfl
  · rintro rfl
    exact PlogOp.ofCode_code o

@[simp] theorem VoteOp.ofCode_eq_some {n : Nat} {o : VoteOp} : VoteOp.ofCode n = some o ↔ n = o.code := by
  constructor
  · intro h
    unfold VoteOp.ofCode at h
    split at h <;> cases h <;> rfl
  · rintro rfl
    exact VoteOp.ofCode_code o

@[simp] theorem ShflOp.ofCode_eq_some {n : Nat} {o : ShflOp} : ShflOp.ofCode n = some o ↔ n = o.code := by
  constructor
  · intro h
    unfold ShflOp.ofCode at h
    split at h <;> cases h <;> rfl
  · rintro rfl
    exact ShflOp.ofCode_code o

@[simp] theorem ReduxOp.ofCode_eq_some {n : Nat} {o : ReduxOp} : ReduxOp.ofCode n = some o ↔ n = o.code := by
  constructor
  · intro h
    unfold ReduxOp.ofCode at h
    split at h <;> cases h <;> rfl
  · rintro rfl
    exact ReduxOp.ofCode_code o

@[simp] theorem FReduxOp.ofCode_eq_some {n : Nat} {o : FReduxOp} : FReduxOp.ofCode n = some o ↔ n = o.code := by
  constructor
  · intro h
    unfold FReduxOp.ofCode at h
    split at h <;> cases h <;> rfl
  · rintro rfl
    exact FReduxOp.ofCode_code o

@[simp] theorem AtomOp.ofCode_eq_some {n : Nat} {o : AtomOp} : AtomOp.ofCode n = some o ↔ n = o.code := by
  constructor
  · intro h
    unfold AtomOp.ofCode at h
    split at h <;> cases h <;> rfl
  · rintro rfl
    exact AtomOp.ofCode_code o

@[simp] theorem CapMode.ofCode_eq_some {n : Nat} {o : CapMode} : CapMode.ofCode n = some o ↔ n = o.code := by
  constructor
  · intro h
    unfold CapMode.ofCode at h
    split at h <;> cases h <;> rfl
  · rintro rfl
    exact CapMode.ofCode_code o

@[simp] theorem CapSel.ofCode_eq_some {n : Nat} {o : CapSel} : CapSel.ofCode n = some o ↔ n = o.code := by
  constructor
  · intro h
    unfold CapSel.ofCode at h
    split at h <;> cases h <;> rfl
  · rintro rfl
    exact CapSel.ofCode_code o

@[simp] theorem CopyMode.ofCode_eq_some {n : Nat} {o : CopyMode} : CopyMode.ofCode n = some o ↔ n = o.code := by
  constructor
  · intro h
    unfold CopyMode.ofCode at h
    split at h <;> cases h <;> rfl
  · rintro rfl
    exact CopyMode.ofCode_code o

@[simp] theorem KvSel.ofCode_eq_some {n : Nat} {o : KvSel} : KvSel.ofCode n = some o ↔ n = o.code := by
  constructor
  · intro h
    unfold KvSel.ofCode at h
    split at h <;> cases h <;> rfl
  · rintro rfl
    exact KvSel.ofCode_code o

@[simp] theorem FCond.code_ofCode {n : Nat} (h : n < 8) : (FCond.ofCode n).code = n := by
  interval_cases n <;> rfl

theorem Sem.code_ofCode (store : Bool) {n : Nat} (h : n < 4) : (Sem.ofCode store n).code = n := by
  cases store <;> interval_cases n <;> rfl

theorem Path.code_ofCode {n : Nat} (h : n < 4) : (Path.ofCode n).code = n := by
  interval_cases n <;> rfl

/-! ### Conditions of a field, and what is common to all groups -/

theorem need_eq_some {β : Type} {b : Bool} {v : Option β} {y : β} : need b v = some y ↔ b = true ∧ v = some y := by
  cases b <;> simp [need]

theorem onSome_eq_some {β : Type} {o : Option β} {k : β → Option Instr} {i : Instr} :
    onSome o k = some i ↔ ∃ v, o = some v ∧ k v = some i := by
  cases o <;> simp [onSome]

/-- The guard, flag slot and boundary of a word group. -/
def Raw.head (r : Raw) : Hd := ⟨r.pg, r.fs, r.bnd⟩

/-- Does the rule of the group's opcode allow its length, guard, flag slot and boundary. -/
def Raw.admits (r : Raw) : Prop :=
  r.head.okFor r.opc = true ∧ ((opRule r.opc).any fun u => u.lens.contains r.len) = true

/-- The fields are those of one well-formed instruction. -/
def Raw.Encodes (r : Raw) (i : Instr) : Prop := i.wf = true ∧ encodeRaw i = some r

@[simp] theorem toNat_eq_zero {n : Nat} {x : BitVec n} : x.toNat = 0 ↔ x = 0#n := by
  rw [BitVec.toNat_eq, BitVec.toNat_ofNat, Nat.zero_mod]

@[simp] theorem reg8_toNat (x : BitVec 8) : reg8 x.toNat = true := by simp [reg8, x.isLt]

theorem opc_eq {opc : BitVec 8} {n : Nat} (h : opc.toNat = n) : opc = BitVec.ofNat 8 n := by
  rw [← h, BitVec.ofNat_toNat, BitVec.setWidth_eq]

theorem len_eq {l len : BitVec 2} (h : [l].contains len = true) : len = l := by simpa using h

/-- The high part named, a bit vector is that part over its low part. -/
theorem cat_low {m k : Nat} {x : BitVec (m + k)} {hi : BitVec m} (h : x.extractLsb' k m = hi) :
    hi ++ x.extractLsb' 0 k = x := by
  rw [← h, split_cat]

/-- The two parts of an appended bit vector. -/
theorem cat_fields {m k : Nat} (hi : BitVec m) (lo : BitVec k) :
    (hi ++ lo).extractLsb' k m = hi ∧ (hi ++ lo).extractLsb' 0 k = lo := by
  constructor
  · rw [extract_high _ _ _ _ le_rfl, Nat.sub_self, extract_all]
  · rw [extract_low _ _ _ _ (Nat.zero_add k).le, extract_all]

/-- A byte with one flag in bit 0. -/
theorem flag_byte {v : BitVec 8} (h : v.extractLsb' 1 7 = 0) : 0#7 ++ BitVec.ofBool (v.getLsbD 0) = v := by
  have : ∀ v : BitVec 8, v.extractLsb' 1 7 = 0 → 0#7 ++ BitVec.ofBool (v.getLsbD 0) = v := by decide
  exact this v h

/-- Two fields that stand side by side are one field. -/
theorem extract_cat {w : Nat} (x : BitVec w) (s k m : Nat) :
    x.extractLsb' (s + k) m ++ x.extractLsb' s k = x.extractLsb' s (m + k) := by
  apply BitVec.eq_of_getLsbD_eq
  intro j hj
  simp only [BitVec.getLsbD_append, BitVec.getLsbD_extractLsb']
  by_cases hjk : j < k
  · simp [hjk, hj]
  · simp [hjk, hj, show s + k + (j - k) = s + j by omega, show j - k < m by omega]

/-- EXT32 of KVST: the two source formats (R410). -/
theorem kvst_ext {ext : BitVec 32} (h : ext.extractLsb' 8 24 = 0) :
    BitVec.ofNat 32 ((ext.extractLsb' 4 4).toNat * 16 + (ext.extractLsb' 0 4).toNat) = ext := by
  have hext : ext.toNat / 256 % 2 ^ 24 = 0 := by
    simpa [BitVec.extractLsb'_toNat, Nat.shiftRight_eq_div_pow] using congrArg BitVec.toNat h
  apply BitVec.eq_of_toNat_eq
  simp only [BitVec.extractLsb'_toNat, BitVec.toNat_ofNat, Nat.shiftRight_eq_div_pow]
  omega

/-- EXT32 of KVLD: the flag K/V, the head and the layer (R410). -/
theorem kvld_ext {ext : BitVec 32} (h : ext.extractLsb' 17 15 = 0) :
    0#15 ++ BitVec.ofBool (ext.getLsbD 16) ++ ext.extractLsb' 8 8 ++ ext.extractLsb' 0 8 = ext := by
  have h1 := extract_cat ext 0 8 24
  have h2 := extract_cat ext 8 8 16
  have h3 := extract_cat ext 16 1 15
  have hv : BitVec.ofBool (ext.getLsbD 16) = ext.extractLsb' 16 1 := by
    apply BitVec.eq_of_getLsbD_eq; intro j hj; obtain rfl : j = 0 := by omega
    simp
  rw [hv, show (0#15) = _ from h.symm, h3, h2, h1]
  exact extract_all ext

/-- EXT32 of SPAWN: the flag of inheritance (R313). -/
theorem spawn_ext {ext : BitVec 32} (h : ext.extractLsb' 0 31 = 0) : BitVec.ofBool (ext.getLsbD 31) ++ 0#31 = ext := by
  have h1 := extract_cat ext 0 31 1
  have hv : BitVec.ofBool (ext.getLsbD 31) = ext.extractLsb' 31 1 := by
    apply BitVec.eq_of_getLsbD_eq; intro j hj; obtain rfl : j = 0 := by omega
    simp
  rw [hv, show (0#31) = _ from h.symm, h1]
  exact extract_all ext

/-! ### The field decoders -/

/-- The condition under which a `.s` form is accepted (R304). -/
theorem scalar_cond {p s g : Bool} (h : (!s || (p && g)) = true) : (!s || g) = true ∧ (p = false → s = false) := by
  cases p <;> cases s <;> simp_all

theorem int_inv {r : Raw} {scalar : Bool} {k : IntF → Nat → Option Instr} {i : Instr} (h : r.int scalar k = some i) :
    ∃ f o, r.sub = intSub f o ∧ r.x = 0 ∧ r.imm = 0 ∧ r.ext = 0 ∧ r.head.scalarOk f.s = true
      ∧ (scalar = false → f.s = false) ∧ k f o = some i := by
  have hsub : ∀ v : BitVec 8,
      v = intSub ⟨v.getLsbD 7, Ty.ofCode (v.extractLsb' 0 2).toNat⟩ (v.extractLsb' 2 5).toNat := by decide
  simp only [Raw.int, need_eq_some, Raw.noImm, Bool.and_eq_true, beq_iff_eq] at h
  obtain ⟨⟨⟨hx, himm, hext⟩, hs⟩, hk⟩ := h
  exact ⟨_, _, hsub r.sub, hx, himm, hext, (scalar_cond hs).1, (scalar_cond hs).2, hk⟩

theorem fp_inv {r : Raw} {scalar : Bool} {k : Bool → Nat → Fmt → Option Instr} {i : Instr} (h : r.fp scalar k = some i) :
    ∃ s o fm, o < 8 ∧ r.sub = fpSub s o fm ∧ r.imm = 0 ∧ r.ext = 0 ∧ r.head.scalarOk s = true
      ∧ (scalar = false → s = false) ∧ k s o fm = some i := by
  have hsub : ∀ (v : BitVec 8) (fm : Fmt), Fmt.ofCode (v.extractLsb' 0 4).toNat = some fm →
      v = fpSub (v.getLsbD 7) (v.extractLsb' 4 3).toNat fm := by
    intro v fm hf
    have := Fmt.ofCode_eq_some.1 hf
    have e : ∀ v : BitVec 8, v = BitVec.ofNat 8 ((if v.getLsbD 7 then 128 else 0) + (v.extractLsb' 4 3).toNat * 16
      + (v.extractLsb' 0 4).toNat) := by decide
    rw [fpSub, ← this]
    exact e v
  simp only [Raw.fp, need_eq_some, Raw.noImm, Bool.and_eq_true, beq_iff_eq] at h
  obtain ⟨⟨⟨himm, hext⟩, hs⟩, hk⟩ := h
  split at hk
  · next fm hf =>
    exact ⟨_, _, fm, (r.sub.extractLsb' 4 3).isLt, hsub r.sub fm hf, himm, hext, (scalar_cond hs).1, (scalar_cond hs).2, hk⟩
  · cases hk

theorem mem_inv {r : Raw} {store : Bool} {k : MemF → Nat → Option Instr} {i : Instr} (h : r.mem store k = some i) :
    ∃ m o, r.sub = memSub m o ∧ r.x = memX m ∧ r.head.scalarOk m.s = true ∧ k m o = some i := by
  unfold Raw.mem at h
  split at h
  · next cls scope size hcls hscope hsize =>
    simp only [need_eq_some, Bool.and_eq_true, Bool.not_eq_true'] at h
    obtain ⟨⟨h7, hs⟩, hk⟩ := h
    have hsub : ∀ v : BitVec 8, v = BitVec.ofNat 8 ((v.extractLsb' 4 4).toNat * 16 + (if v.getLsbD 3 then 8 else 0)
      + (v.extractLsb' 0 3).toNat) := by decide
    have hx : ∀ v : BitVec 8, v.getLsbD 7 = false → v = BitVec.ofNat 8 ((v.extractLsb' 5 2).toNat * 32
      + (v.extractLsb' 3 2).toNat * 8 + (v.extractLsb' 0 3).toNat) := by decide
    refine ⟨_, _, ?_, ?_, ?_, hk⟩
    · rw [memSub, ← Size.ofCode_eq_some.1 hsize]; exact hsub r.sub
    · rw [memX, ← Scope.ofCode_eq_some.1 hscope, ← RClass.ofCode_eq_some.1 hcls, Sem.code_ofCode _ (BitVec.isLt _)]; exact hx r.x h7
    · simpa [Hd.scalarOk, Raw.head] using hs
  · cases h

theorem copyF_inv {r : Raw} {k : CopyF → Option Instr} {i : Instr} (h : r.copyF k = some i) :
    ∃ f : CopyF, r.sub = BitVec.ofNat 8 f.mode.code ∧ r.x = copyX f ∧ r.ext = copyExt f ∧ k f = some i := by
  unfold Raw.copyF at h
  split at h
  · next mode cls scope hmode hcls hscope =>
    simp only [need_eq_some, beq_iff_eq] at h
    obtain ⟨hext, hk⟩ := h
    have hx : ∀ v : BitVec 8, v = BitVec.ofNat 8 ((v.extractLsb' 5 3).toNat * 32
      + (v.extractLsb' 3 2).toNat * 8 + (v.extractLsb' 0 3).toNat) := by decide
    refine ⟨_, ?_, ?_, ?_, hk⟩
    · rw [← CopyMode.ofCode_eq_some.1 hmode]; exact opc_eq rfl
    · rw [copyX, ← Scope.ofCode_eq_some.1 hscope, ← RClass.ofCode_eq_some.1 hcls]; exact hx r.x
    · have hobj := extract_cat r.ext 4 8 20
      have hpk := extract_cat r.ext 0 4 28
      rw [copyExt, show (0#20) = _ from hext.symm, hobj, hpk]
      exact (extract_all r.ext).symm
  · cases h

theorem scopeX_inv {r : Raw} {k : Scope → Option Instr} {i : Instr} (h : r.scopeX k = some i) :
    ∃ sc : Scope, r.x = BitVec.ofNat 8 sc.code ∧ k sc = some i := by
  simp only [Raw.scopeX, need_eq_some, beq_iff_eq] at h
  obtain ⟨hx, hk⟩ := h
  split at hk
  · next sc hsc =>
    refine ⟨sc, ?_, hk⟩
    rw [← Scope.ofCode_eq_some.1 hsc]
    have hlow : ∀ v : BitVec 8, v.extractLsb' 3 5 = 0 → v = BitVec.ofNat 8 (v.extractLsb' 0 3).toNat := by decide
    exact hlow r.x hx
  · cases hk

end Sys2Proof
end

section
/-! Word groups that decode are encodings, group of opcodes by group (R284–R313). -/

namespace Sys2Proof

/-- SUB of MOVI, whose OP5 is zero. -/
theorem movi_sub {sub : BitVec 8} (h : sub.extractLsb' 2 5 = 0) :
    sub = intSub ⟨sub.getLsbD 7, Ty.ofCode (sub.extractLsb' 0 2).toNat⟩ 0 := by
  have : ∀ v : BitVec 8, v.extractLsb' 2 5 = 0 → v = intSub ⟨v.getLsbD 7, Ty.ofCode (v.extractLsb' 0 2).toNat⟩ 0 := by
    decide
  exact this sub h

theorem decInteger_encodes {r : Raw} {i : Instr} (ha : r.admits) (hd : decInteger r r.head = some i) : r.Encodes i := by
  obtain ⟨ext, imm, x, sub, c, b, a, d, pg, opc, fs, bnd, len⟩ := r
  obtain ⟨hok, hl⟩ := ha
  unfold decInteger at hd
  dsimp only at hd hok hl
  split at hd
  case h_32 => cases hd
  case h_24 heq =>
    obtain rfl := opc_eq heq
    simp only [need_eq_some, Bool.and_eq_true, beq_iff_eq, Raw.zero] at hd
    obtain ⟨⟨⟨⟨rfl, hop⟩, hz⟩, hs⟩, hd⟩ := hd
    have hlen : len = 1 ∨ len = 2 := by simpa using (show ([1, 2] : List (BitVec 2)).contains len = true from hl)
    have hsub := movi_sub hop
    split at hd <;> simp only [need_eq_some, Bool.and_eq_true, beq_iff_eq, Option.some.injEq] at hd
    · next h1 =>
      obtain ⟨⟨hty, rfl⟩, rfl⟩ := hd
      rw [hty] at hsub
      simp [Raw.head] at hs hok hz h1
      simp [Raw.Encodes, Instr.wf.eq_def, encodeRaw.eq_def, Raw.dab, Raw.base, Raw.head, hok, hs, hz, h1]
      exact hsub.symm
    · next h1 =>
      obtain ⟨hty, rfl⟩ := hd
      rw [hty] at hsub
      simp [Raw.head] at hs hok hz h1
      obtain rfl := hlen.resolve_left h1
      have hlow : (ext ++ imm).extractLsb' 0 32 = imm := (extract_low ext imm 0 32 (by decide)).trans (extract_all _)
      have hhigh : (ext ++ imm).extractLsb' 32 32 = ext := (extract_high ext imm 32 32 (by decide)).trans (extract_all _)
      simp [Raw.Encodes, Instr.wf.eq_def, encodeRaw.eq_def, Raw.dab, Raw.base, Raw.head, hok, hs, hz, hlow, hhigh]
      exact hsub.symm
  case h_25 heq =>
    obtain rfl := opc_eq heq
    obtain rfl := len_eq hl
    obtain ⟨⟨s, ty⟩, o, rfl, rfl, rfl, rfl, hs, -, hk⟩ := int_inv hd
    split at hk
    · simp only [need_eq_some, Option.some.injEq, Bool.and_eq_true, beq_iff_eq] at hk
      obtain ⟨⟨rfl, rfl⟩, rfl⟩ := hk
      simpa [Raw.Encodes, Instr.wf.eq_def, encodeRaw.eq_def, Raw.dab, Raw.base, Raw.head] using ⟨hok, hs⟩
    · cases hk
  -- SHR, ISETP, PLOG, VOTE, SHFL, IREDUX: OP5 names the operation
  case h_14 | h_21 | h_26 | h_28 | h_29 | h_30 =>
    obtain ⟨⟨s, ty⟩, o, rfl, rfl, rfl, rfl, hs, hsf, hk⟩ := int_inv hd
    obtain ⟨op, ho, hk⟩ := onSome_eq_some.1 hk
    simp only [need_eq_some, Option.some.injEq] at hk
    obtain ⟨hc, rfl⟩ := hk
    next heq =>
    obtain rfl := opc_eq heq
    obtain rfl := len_eq hl
    simp [Raw.head] at hsf hc ho hs hok
    simp [Raw.Encodes, Instr.wf.eq_def, encodeRaw.eq_def, Raw.dab, Raw.dabc, Raw.base, Raw.head, hok, ho, hc, hs, hsf]
  all_goals
    obtain ⟨⟨s, ty⟩, o, rfl, rfl, rfl, rfl, hs, hsf, hk⟩ := int_inv hd
    simp only [need_eq_some, Option.some.injEq] at hk
    obtain ⟨hc, rfl⟩ := hk
    next heq =>
    obtain rfl := opc_eq heq
    obtain rfl := len_eq hl
    simp [Raw.head] at hsf hc hs hok
    simp [Raw.Encodes, Instr.wf.eq_def, encodeRaw.eq_def, Raw.dab, Raw.dabc, Raw.base, Raw.head, hok, hc, hs, hsf]

/-- A field of one flag reads as its number. -/
theorem flag_of_le {o : Nat} (h : o ≤ 1) : (if o = 1 then 1 else 0) = o := by split <;> omega

/-- X of FCVT: the intermediate format, 15 for none, over the source format (R358). -/
theorem fcvt_x {x : BitVec 8} {src : Fmt} (hsrc : Fmt.ofCode (x.extractLsb' 0 4).toNat = some src)
    (hmid : (x.extractLsb' 4 4 == 15 || (Fmt.ofCode (x.extractLsb' 4 4).toNat).isSome) = true) :
    BitVec.ofNat 8 ((Fmt.ofCode (x.extractLsb' 4 4).toNat).elim 15 Fmt.code * 16 + src.code) = x := by
  have hx : ∀ v : BitVec 8, BitVec.ofNat 8 ((v.extractLsb' 4 4).toNat * 16 + (v.extractLsb' 0 4).toNat) = v := by decide
  refine Eq.trans ?_ (hx x)
  rw [← Fmt.ofCode_eq_some.1 hsrc]
  congr 3
  cases hm : Fmt.ofCode (x.extractLsb' 4 4).toNat with
  | some m => exact (Fmt.ofCode_eq_some.1 hm).symm
  | none =>
    rw [hm] at hmid
    simp only [Option.isSome_none, Bool.or_false, beq_iff_eq] at hmid
    rw [hmid]
    rfl

theorem decFloat_encodes {r : Raw} {i : Instr} (ha : r.admits) (hd : decFloat r r.head = some i) : r.Encodes i := by
  obtain ⟨ext, imm, x, sub, c, b, a, d, pg, opc, fs, bnd, len⟩ := r
  obtain ⟨hok, hl⟩ := ha
  unfold decFloat at hd
  dsimp only at hd hok hl
  split at hd
  case h_25 => cases hd
  -- FCVT
  case h_7 heq =>
    obtain ⟨s, o, fm, ho, rfl, rfl, rfl, hs, -, hk⟩ := fp_inv hd
    obtain ⟨src, hsrc, hk⟩ := onSome_eq_some.1 hk
    simp only [need_eq_some, Option.some.injEq, Bool.and_eq_true, beq_iff_eq, bne_iff_ne] at hk
    obtain ⟨⟨⟨⟨⟨⟨⟨⟨rfl, htgt⟩, hconv⟩, hne⟩, hmid⟩, hok'⟩, rfl⟩, rfl⟩, rfl⟩ := hk
    obtain rfl := opc_eq heq
    obtain rfl := len_eq hl
    have hx := fcvt_x hsrc hmid
    simp only [Raw.head] at hs hok
    generalize Fmt.ofCode (x.extractLsb' 4 4).toNat = mid at hx hok' ⊢
    cases mid <;> simp only [Option.elim] at hx <;>
    simp [Raw.Encodes, Instr.wf.eq_def, encodeRaw.eq_def, Raw.dab, Raw.base, Raw.head, hok, hs, htgt, hconv, hne, hok', hx]
  -- FTOI, ITOF
  case h_8 | h_9 =>
    obtain ⟨s, o, fm, ho, rfl, rfl, rfl, hs, hsf, hk⟩ := fp_inv hd
    obtain ⟨src, hx, hk⟩ := onSome_eq_some.1 hk
    simp only [need_eq_some, Option.some.injEq] at hk
    obtain ⟨hc, rfl⟩ := hk
    next heq =>
    obtain rfl := opc_eq heq
    obtain rfl := len_eq hl
    simp [Raw.head] at hc hx hs hok
    simp [Raw.Encodes, Instr.wf.eq_def, encodeRaw.eq_def, Raw.dab, Raw.base, Raw.head, hok, hc, hs, ← hx]
  -- FTRIG, VHAD, FKEY: OP3 is one flag
  case h_14 | h_17 | h_21 =>
    obtain ⟨s, o, fm, ho, rfl, rfl, rfl, hs, hsf, hk⟩ := fp_inv hd
    simp only [need_eq_some, Option.some.injEq] at hk
    obtain ⟨hc, rfl⟩ := hk
    next heq =>
    obtain rfl := opc_eq heq
    obtain rfl := len_eq hl
    simp [Raw.head] at hsf hc hs hok
    obtain ⟨⟨⟨⟨ho1, hx⟩, hfm⟩, hb⟩, hz⟩ := hc
    simp [Raw.Encodes, Instr.wf.eq_def, encodeRaw.eq_def, Raw.dab, Raw.base, Raw.head, hok, hs, hsf, flag_of_le ho1, hx, hfm,
      hb, hz]
  -- FREDUX
  case h_18 heq =>
    obtain ⟨s, o, fm, ho, rfl, rfl, rfl, hs, hsf, hk⟩ := fp_inv hd
    obtain ⟨op, hx, hk⟩ := onSome_eq_some.1 hk
    simp only [need_eq_some, Option.some.injEq] at hk
    obtain ⟨hc, rfl⟩ := hk
    obtain rfl := opc_eq heq
    obtain rfl := len_eq hl
    simp [Raw.head] at hsf hc hx hs hok
    simp [Raw.Encodes, Instr.wf.eq_def, encodeRaw.eq_def, Raw.dab, Raw.base, Raw.head, hok, hc, hsf, hx]
  all_goals
    obtain ⟨s, o, fm, ho, rfl, rfl, rfl, hs, hsf, hk⟩ := fp_inv hd
    simp only [need_eq_some, Option.some.injEq] at hk
    obtain ⟨hc, rfl⟩ := hk
    next heq =>
    obtain rfl := opc_eq heq
    obtain rfl := len_eq hl
    simp [Raw.head] at hsf hc hs hok
    simp [Raw.Encodes, Instr.wf.eq_def, encodeRaw.eq_def, Raw.dab, Raw.dabc, Raw.base, Raw.head, hok, hc, hs, hsf, ho]


end Sys2Proof
end

section
/-! Word groups that decode are encodings, the other groups of opcodes (R284–R313). -/

namespace Sys2Proof

theorem decMemory_encodes {r : Raw} {i : Instr} (ha : r.admits) (hd : decMemory r r.head = some i) : r.Encodes i := by
  obtain ⟨ext, imm, x, sub, c, b, a, d, pg, opc, fs, bnd, len⟩ := r
  obtain ⟨hok, hl⟩ := ha
  unfold decMemory at hd
  dsimp only at hd hok hl
  split at hd
  case h_16 => cases hd
  -- ATOM, RED
  case h_3 | h_4 =>
    obtain ⟨m, o, rfl, rfl, hs, hk⟩ := mem_inv hd
    obtain ⟨op, ho, hk⟩ := onSome_eq_some.1 hk
    simp only [need_eq_some, Option.some.injEq] at hk
    obtain ⟨hc, rfl⟩ := hk
    next heq =>
    obtain rfl := opc_eq heq
    obtain rfl := len_eq hl
    simp [Raw.head] at hc ho hs hok
    simp [Raw.Encodes, Instr.wf.eq_def, encodeRaw.eq_def, Raw.dab, Raw.dabc, Raw.base, Raw.head, hok, hc, hs, ho]
  -- STF
  case h_5 heq =>
    obtain ⟨m, o, rfl, rfl, hs, hk⟩ := mem_inv hd
    simp only [need_eq_some, Option.some.injEq] at hk
    obtain ⟨hc, rfl⟩ := hk
    obtain rfl := opc_eq heq
    obtain rfl := len_eq hl
    have hext : ext.extractLsb' 8 24 ++ ext.extractLsb' 0 8 = ext := split_cat (m := 24) (k := 8) ext
    simp only [Raw.head, Bool.and_eq_true, beq_iff_eq] at hc hs hok
    simp [Raw.Encodes, Instr.wf.eq_def, encodeRaw.eq_def, Raw.dab, Raw.dabc, Raw.base, Raw.head, hok, hc, hs, hext,
      -BitVec.extractLsb'_toNat]
  -- LD, ST, VCOMPST, VEXPLD
  case h_1 | h_2 | h_8 | h_9 =>
    obtain ⟨m, o, rfl, rfl, hs, hk⟩ := mem_inv hd
    simp only [need_eq_some, Option.some.injEq] at hk
    obtain ⟨hc, rfl⟩ := hk
    next heq =>
    obtain rfl := opc_eq heq
    obtain rfl := len_eq hl
    simp [Raw.head] at hc hs hok
    simp [Raw.Encodes, Instr.wf.eq_def, encodeRaw.eq_def, Raw.dab, Raw.dabc, Raw.base, Raw.head, hok, hc, hs]
  -- FENCE
  case h_6 heq =>
    obtain ⟨sc, rfl, hk⟩ := scopeX_inv hd
    simp only [need_eq_some, Option.some.injEq, Bool.and_eq_true, beq_iff_eq, bne_iff_ne, Raw.noImm, Raw.zero] at hk
    obtain ⟨⟨⟨⟨hi, hsub⟩, hcls⟩, hz⟩, rfl⟩ := hk
    obtain rfl := opc_eq heq
    obtain rfl := len_eq hl
    have hcat : 0#5 ++ sub.extractLsb' 0 3 = sub := cat_low (m := 5) (k := 3) hsub
    simp [Raw.head] at hok hi hz
    simp [Raw.Encodes, Instr.wf.eq_def, encodeRaw.eq_def, Raw.base, Raw.head, hok, hi, hz, hcat]
    exact hcls
  -- PFENCE
  case h_7 heq =>
    obtain ⟨sc, rfl, hk⟩ := scopeX_inv hd
    simp only [need_eq_some, Option.some.injEq, Bool.and_eq_true, beq_iff_eq, bne_iff_ne, Raw.noImm, Raw.zero] at hk
    obtain ⟨⟨⟨⟨hi, hsub⟩, hne⟩, hz⟩, rfl⟩ := hk
    obtain rfl := opc_eq heq
    obtain rfl := len_eq hl
    have hpaths : ∀ v : BitVec 8, v.extractLsb' 4 4 = 0 →
        BitVec.ofNat 8 ((v.extractLsb' 2 2).toNat * 4 + (v.extractLsb' 0 2).toNat) = v := by decide
    have hs := hpaths sub hsub
    rw [← Path.code_ofCode (sub.extractLsb' 2 2).isLt, ← Path.code_ofCode (sub.extractLsb' 0 2).isLt] at hs
    simp only [Raw.head] at hok
    simp at hi hz
    generalize Path.ofCode (sub.extractLsb' 0 2).toNat = w at hne hs ⊢
    generalize Path.ofCode (sub.extractLsb' 2 2).toNat = p at hne hs ⊢
    simp [Raw.Encodes, Instr.wf.eq_def, encodeRaw.eq_def, Raw.base, Raw.head, hok, hi, hz, hne, hs]
  -- CAPNEW
  case h_10 heq =>
    obtain ⟨mode, hmode, hk⟩ := onSome_eq_some.1 hd
    simp only [need_eq_some, Option.some.injEq, Bool.and_eq_true, Bool.not_eq_true', Raw.noImm, beq_iff_eq] at hk
    obtain ⟨⟨⟨hi, h7⟩, hcap⟩, rfl⟩ := hk
    obtain rfl := opc_eq heq
    obtain rfl := len_eq hl
    have hsub : ∀ v : BitVec 8, v.getLsbD 7 = false →
        BitVec.ofNat 8 ((v.extractLsb' 3 4).toNat * 8 + (v.extractLsb' 0 3).toNat) = v := by decide
    have hs := hsub sub h7
    rw [CapMode.ofCode_eq_some.1 hmode] at hs
    simp only [Raw.head] at hok
    simp only [Raw.Encodes, Instr.wf.eq_def, encodeRaw.eq_def, Raw.dab, Raw.dabc, Raw.base, Raw.head, hs, hcap]
    simp [hi, hok]
  -- CAPGET
  case h_11 heq =>
    obtain ⟨q, hq, hk⟩ := onSome_eq_some.1 hd
    simp only [need_eq_some, Option.some.injEq, Raw.noImm] at hk
    obtain ⟨hc, rfl⟩ := hk
    obtain rfl := opc_eq heq
    obtain rfl := len_eq hl
    simp [Raw.head] at hc hq hok
    simp [Raw.Encodes, Instr.wf.eq_def, encodeRaw.eq_def, Raw.dab, Raw.base, Raw.head, hok, hc, ← hq]
  -- CAPCHK, STAG, STAGSET, STAGINV
  all_goals
    simp only [need_eq_some, Option.some.injEq, Raw.plain, Raw.noImm, Raw.zero] at hd
    obtain ⟨hc, rfl⟩ := hd
    next heq =>
    obtain rfl := opc_eq heq
    obtain rfl := len_eq hl
    simp [Raw.head] at hc hok
    simp [Raw.Encodes, Instr.wf.eq_def, encodeRaw.eq_def, Raw.dab, Raw.dabc, Raw.base, Raw.head, hok, hc]

theorem decCopy_encodes {r : Raw} {i : Instr} (ha : r.admits) (hd : decCopy r r.head = some i) : r.Encodes i := by
  obtain ⟨ext, imm, x, sub, c, b, a, d, pg, opc, fs, bnd, len⟩ := r
  obtain ⟨hok, hl⟩ := ha
  unfold decCopy at hd
  dsimp only at hd hok hl
  split at hd
  case h_9 => cases hd
  -- COPY, COPYSEL
  case h_1 | h_3 =>
    obtain ⟨f, rfl, rfl, rfl, hk⟩ := copyF_inv hd
    simp only [need_eq_some, Option.some.injEq] at hk
    obtain ⟨hc, rfl⟩ := hk
    next heq =>
    obtain rfl := opc_eq heq
    obtain rfl := len_eq hl
    simp [Raw.head] at hc hok
    simp [Raw.Encodes, Instr.wf.eq_def, encodeRaw.eq_def, Raw.dab, Raw.dabc, Raw.base, Raw.head, hok, hc]
  -- COPYM
  case h_2 heq =>
    obtain ⟨f, rfl, rfl, rfl, hk⟩ := copyF_inv hd
    simp only [need_eq_some, Option.some.injEq, Bool.and_eq_true, beq_iff_eq, bne_iff_ne] at hk
    obtain ⟨⟨⟨hf, himm⟩, hne⟩, rfl⟩ := hk
    obtain rfl := opc_eq heq
    obtain rfl := len_eq hl
    have hcat : 0#24 ++ imm.extractLsb' 0 8 = imm := cat_low (m := 24) (k := 8) himm
    simp only [Raw.head] at hok
    simp [Raw.Encodes, Instr.wf.eq_def, encodeRaw.eq_def, Raw.dab, Raw.dabc, Raw.base, Raw.head, hok, hf, hcat]
    exact hne
  -- PHINIT
  case h_4 heq =>
    simp only [need_eq_some, Option.some.injEq, Bool.and_eq_true, beq_iff_eq, Raw.noImm] at hd
    obtain ⟨⟨⟨⟨hsub, hx⟩, hi⟩, hz⟩, rfl⟩ := hd
    obtain rfl := opc_eq heq
    obtain rfl := len_eq hl
    simp only [Raw.head] at hok
    simp only [Raw.Encodes, Instr.wf.eq_def, encodeRaw.eq_def, Raw.dab, Raw.dabc, Raw.base, Raw.head, flag_byte hsub]
    simp [hx, hi, hz, hok]
  -- PHARR, PHWAIT, PHTEST, BAR
  all_goals
    simp only [need_eq_some, Option.some.injEq, Raw.plain, Raw.noImm] at hd
    obtain ⟨hc, rfl⟩ := hd
    next heq =>
    obtain rfl := opc_eq heq
    obtain rfl := len_eq hl
    simp [Raw.head] at hc hok
    simp [Raw.Encodes, Instr.wf.eq_def, encodeRaw.eq_def, Raw.dab, Raw.dabc, Raw.base, Raw.head, hok, hc]

end Sys2Proof
end

section
/-! Word groups that decode are encodings: the control, attention and matrix groups (R284–R313). -/

namespace Sys2Proof

theorem decAttention_encodes {r : Raw} {i : Instr} (ha : r.admits) (hd : decAttention r r.head = some i) : r.Encodes i := by
  obtain ⟨ext, imm, x, sub, c, b, a, d, pg, opc, fs, bnd, len⟩ := r
  obtain ⟨hok, hl⟩ := ha
  unfold decAttention at hd
  dsimp only at hd hok hl
  split at hd
  case h_16 => cases hd
  -- KVST
  case h_2 heq =>
    obtain ⟨ks, hks, hk⟩ := onSome_eq_some.1 hd
    obtain ⟨vs, hvs, hk⟩ := onSome_eq_some.1 hk
    simp only [need_eq_some, Option.some.injEq, Bool.and_eq_true, beq_iff_eq] at hk
    obtain ⟨⟨⟨⟨⟨⟨hsub, hx⟩, hz⟩, hext⟩, hkf⟩, hvf⟩, rfl⟩ := hk
    obtain rfl := opc_eq heq
    obtain rfl := len_eq hl
    have he := kvst_ext hext
    rw [Fmt.ofCode_eq_some.1 hks, Fmt.ofCode_eq_some.1 hvs] at he
    simp only [Raw.head] at hok
    simp only [Raw.Encodes, Instr.wf.eq_def, encodeRaw.eq_def, Raw.dab, Raw.dabc, Raw.base, Raw.head, hkf, hvf, he]
    simp [hsub, hx, hz, hok]
  -- KVPUB
  case h_3 heq =>
    obtain ⟨sc, rfl, hk⟩ := scopeX_inv hd
    simp only [need_eq_some, Option.some.injEq, Bool.and_eq_true, beq_iff_eq, Raw.noImm] at hk
    obtain ⟨⟨⟨hi, hsub⟩, hz⟩, rfl⟩ := hk
    obtain rfl := opc_eq heq
    obtain rfl := len_eq hl
    simp only [Raw.head] at hok
    simp only [Raw.Encodes, Instr.wf.eq_def, encodeRaw.eq_def, Raw.dab, Raw.dabc, Raw.base, Raw.head, flag_byte hsub]
    simp [hi, hz, hok]
  -- KVACQ, KVFORK
  case h_4 | h_6 =>
    obtain ⟨sc, rfl, hk⟩ := scopeX_inv hd
    simp only [need_eq_some, Option.some.injEq, Raw.noImm] at hk
    obtain ⟨hc, rfl⟩ := hk
    next heq =>
    obtain rfl := opc_eq heq
    obtain rfl := len_eq hl
    simp [Raw.head] at hc hok
    simp [Raw.Encodes, Instr.wf.eq_def, encodeRaw.eq_def, Raw.dab, Raw.dabc, Raw.base, Raw.head, hok, hc]
  -- KVLD
  case h_5 heq =>
    simp only [need_eq_some, Option.some.injEq, Bool.and_eq_true, beq_iff_eq] at hd
    obtain ⟨⟨⟨⟨hsub, hx⟩, himm⟩, hext⟩, rfl⟩ := hd
    obtain rfl := opc_eq heq
    obtain rfl := len_eq hl
    have hi : 0#16 ++ imm.extractLsb' 0 16 = imm := cat_low (m := 16) (k := 16) himm
    simp only [Raw.head] at hok
    simp only [Raw.Encodes, Instr.wf.eq_def, encodeRaw.eq_def, Raw.dab, Raw.dabc, Raw.base, Raw.head, hi, kvld_ext hext]
    simp [hsub, hx, hok]
  -- QROT, KVSTAT
  case h_8 | h_9 =>
    obtain ⟨q, hq, hk⟩ := onSome_eq_some.1 hd
    simp only [need_eq_some, Option.some.injEq, Raw.noImm] at hk
    obtain ⟨hc, rfl⟩ := hk
    next heq =>
    obtain rfl := opc_eq heq
    obtain rfl := len_eq hl
    simp [Raw.head] at hc hq hok
    simp [Raw.Encodes, Instr.wf.eq_def, encodeRaw.eq_def, Raw.dab, Raw.dabc, Raw.base, Raw.head, hok, hc, ← hq]
  -- MSIGN
  case h_11 heq =>
    simp only [need_eq_some, Option.some.injEq, Bool.and_eq_true, beq_iff_eq, Raw.noImm] at hd
    obtain ⟨⟨⟨⟨⟨hsub, hx⟩, hi⟩, hza⟩, hzc⟩, rfl⟩ := hd
    obtain rfl := opc_eq heq
    obtain rfl := len_eq hl
    simp only [Raw.head] at hok
    simp only [Raw.Encodes, Instr.wf.eq_def, encodeRaw.eq_def, Raw.dab, Raw.base, Raw.head, flag_byte hsub]
    simp [hx, hi, hza, hzc, hok]
  -- MZERO
  case h_13 heq =>
    simp only [need_eq_some, Option.some.injEq, Raw.noImm, Raw.zero] at hd
    obtain ⟨hc, rfl⟩ := hd
    obtain rfl := opc_eq heq
    obtain rfl := len_eq hl
    simp [Raw.head] at hc hok
    simp [Raw.Encodes, Instr.wf.eq_def, encodeRaw.eq_def, Raw.base, Raw.head, hok, hc, cat_fields x sub]
  -- APOS, KVREL, MDECL, MLDMASK, MBUDGET, MSTAT
  all_goals
    simp only [need_eq_some, Option.some.injEq, Raw.plain, Raw.noImm, Raw.zero] at hd
    obtain ⟨hc, rfl⟩ := hd
    next heq =>
    obtain rfl := opc_eq heq
    obtain rfl := len_eq hl
    simp [Raw.head] at hc hok
    simp [Raw.Encodes, Instr.wf.eq_def, encodeRaw.eq_def, Raw.dab, Raw.dabc, Raw.base, Raw.head, hok, hc]

/-- SUB of LOOP (R313). -/
theorem loop_sub {sub : BitVec 8} {n : BitVec 6} (h : sub.extractLsb' 2 6 = n) : n ++ sub.extractLsb' 0 2 = sub :=
  cat_low (m := 6) (k := 2) h

/-- B of RUN: whether each flag slot is set, and the second one's flag (R291). -/
theorem run_b {b : BitVec 8} (h : b.extractLsb' 6 2 = 0) :
    0#2 ++ BitVec.ofBool (b.getLsbD 5) ++ b.extractLsb' 1 4 ++ BitVec.ofBool (b.getLsbD 0) = b := by
  have : ∀ b : BitVec 8, b.extractLsb' 6 2 = 0 →
      0#2 ++ BitVec.ofBool (b.getLsbD 5) ++ b.extractLsb' 1 4 ++ BitVec.ofBool (b.getLsbD 0) = b := by decide
  exact this b h

/-- A flag slot of RUN: set with a flag, or not set with the flag's field zero (R291). -/
theorem slot_field {v : Bool} {f : BitVec 4} (h : (if v = true then decide (f ≤ 11) else f == 0) = true) :
    (if v = true then some f else none).isSome = v ∧ (if v = true then some f else none).getD 0 = f
      ∧ (if v = true then some f else none).all (fun f => decide (f ≤ 11)) = true := by
  cases v <;> simp_all

theorem decControl_encodes {r : Raw} {i : Instr} (ha : r.admits) (hd : decControl r r.head = some i) : r.Encodes i := by
  obtain ⟨ext, imm, x, sub, c, b, a, d, pg, opc, fs, bnd, len⟩ := r
  obtain ⟨hok, hl⟩ := ha
  unfold decControl at hd
  dsimp only at hd hok hl
  split at hd
  case h_20 => cases hd
  -- RUN
  case h_2 heq =>
    simp only [need_eq_some, Option.some.injEq, Bool.and_eq_true, beq_iff_eq, Raw.noImm, Bool.not_eq_true'] at hd
    obtain ⟨⟨⟨⟨⟨⟨⟨⟨hsub, hx⟩, hz⟩, hi⟩, rfl⟩, hb⟩, hfa⟩, hfb⟩, rfl⟩ := hd
    obtain rfl := opc_eq heq
    obtain rfl := len_eq hl
    obtain ⟨sa, ga, ka⟩ := slot_field hfa
    obtain ⟨sb, gb, kb⟩ := slot_field hfb
    have hb' : 0#2 ++ BitVec.ofBool (b.getLsbD 5) ++ b.extractLsb' 1 4 ++ BitVec.ofBool (b.getLsbD 0) = b := run_b hb
    have ha' : a.extractLsb' 4 4 ++ a.extractLsb' 0 4 = a := split_cat (m := 4) (k := 4) a
    obtain ⟨hw1, hw2⟩ := cat_fields (a.extractLsb' 0 4) d
    generalize (if b.getLsbD 0 = true then some (a.extractLsb' 4 4) else none) = va at sa ga ka ⊢
    generalize (if b.getLsbD 5 = true then some (b.extractLsb' 1 4) else none) = vb at sb gb kb ⊢
    simp only [Raw.head] at hok
    have hobeys : (⟨pg, fs, false⟩ : Hd).obeys ⟨[0], true, true, false⟩ = true := hok
    obtain ⟨⟨-, hpg⟩, hfs⟩ : (pg ≠ 15 ∧ pg = 7) ∧ fs = false := by simpa [Hd.obeys] using hobeys
    simp only [Raw.Encodes, Instr.wf.eq_def, encodeRaw.eq_def, Raw.base, sa, ga, ka, sb, gb, kb, hw1, hw2, hb', extract_all, ha']
    simp [hsub, hx, hz, hi, hpg, hfs]
  -- LOOP
  case h_8 heq =>
    obtain rfl := opc_eq heq
    obtain rfl := len_eq hl
    simp only [Raw.head] at hok
    split at hd
    · simp only [need_eq_some, Option.some.injEq, Bool.and_eq_true, beq_iff_eq, Raw.noImm, Raw.zero] at hd
      obtain ⟨⟨⟨⟨⟨hsub, hx⟩, hi⟩, hz⟩, rfl⟩, rfl⟩ := hd
      simp at hz
      simp [Raw.Encodes, Instr.wf.eq_def, encodeRaw.eq_def, Raw.base, Raw.head, hok, hx, hi, hz]
      exact loop_sub hsub
    · simp only [need_eq_some, Option.some.injEq, Bool.and_eq_true, beq_iff_eq, Raw.zero] at hd
      obtain ⟨⟨⟨⟨hsub, hx⟩, he⟩, hz⟩, rfl⟩ := hd
      simp at hz
      have himm : imm.extractLsb' 16 16 ++ imm.extractLsb' 0 16 = imm := split_cat (m := 16) (k := 16) imm
      simp [Raw.Encodes, Instr.wf.eq_def, encodeRaw.eq_def, Raw.dab, Raw.base, Raw.head, hok, hx, he, hz, himm]
      exact loop_sub hsub
  -- LBRK
  case h_9 heq =>
    simp only [need_eq_some, Option.some.injEq, Bool.and_eq_true, beq_iff_eq, Raw.noImm, Raw.zero] at hd
    obtain ⟨⟨⟨⟨hsub, hx⟩, hi⟩, hz⟩, rfl⟩ := hd
    obtain rfl := opc_eq heq
    obtain rfl := len_eq hl
    simp [Raw.head] at hok hz
    simp [Raw.Encodes, Instr.wf.eq_def, encodeRaw.eq_def, Raw.base, Raw.head, hok, hx, hi, hz]
    exact loop_sub hsub
  -- TRAP, BRK
  case h_11 | h_12 =>
    simp only [need_eq_some, Option.some.injEq, Raw.noImm, Raw.zero] at hd
    obtain ⟨hc, rfl⟩ := hd
    next heq =>
    obtain rfl := opc_eq heq
    obtain rfl := len_eq hl
    simp [Raw.head] at hc hok
    simp [Raw.Encodes, Instr.wf.eq_def, encodeRaw.eq_def, Raw.base, Raw.head, hok, hc, cat_fields x sub]
  -- SREG
  case h_13 heq =>
    simp only [need_eq_some, Option.some.injEq, Bool.and_eq_true, beq_iff_eq, Raw.noImm, Raw.zero] at hd
    obtain ⟨⟨⟨⟨hsub, hx⟩, hi⟩, hz⟩, rfl⟩ := hd
    obtain rfl := opc_eq heq
    obtain rfl := len_eq hl
    have hcat : 0#4 ++ sub.extractLsb' 0 4 = sub := cat_low (m := 4) (k := 4) hsub
    simp [Raw.head] at hok hz
    simp [Raw.Encodes, Instr.wf.eq_def, encodeRaw.eq_def, Raw.dab, Raw.base, Raw.head, hok, hx, hi, hz, hcat]
  -- SPAWN
  case h_15 heq =>
    simp only [need_eq_some, Option.some.injEq, Bool.and_eq_true, beq_iff_eq] at hd
    obtain ⟨⟨⟨⟨hsub, hx⟩, hext⟩, hz⟩, rfl⟩ := hd
    obtain rfl := opc_eq heq
    obtain rfl := len_eq hl
    simp only [Raw.head] at hok
    simp only [Raw.Encodes, Instr.wf.eq_def, encodeRaw.eq_def, Raw.dab, Raw.base, Raw.head, spawn_ext hext]
    simp [hsub, hx, hz, hok]
  -- CSCOPE
  case h_18 heq =>
    simp only [need_eq_some, Option.some.injEq, Bool.and_eq_true, beq_iff_eq, Raw.noImm] at hd
    obtain ⟨⟨⟨⟨hsub, hx⟩, hi⟩, hz⟩, rfl⟩ := hd
    obtain rfl := opc_eq heq
    obtain rfl := len_eq hl
    simp only [Raw.head] at hok
    simp only [Raw.Encodes, Instr.wf.eq_def, encodeRaw.eq_def, Raw.dab, Raw.base, Raw.head, flag_byte hsub]
    simp [hx, hi, hz, hok]
  all_goals
    simp only [need_eq_some, Option.some.injEq, Raw.plain, Raw.noImm, Raw.zero] at hd
    obtain ⟨hc, rfl⟩ := hd
    next heq =>
    obtain rfl := opc_eq heq
    obtain rfl := len_eq hl
    simp [Raw.head] at hc hok
    simp [Raw.Encodes, Instr.wf.eq_def, encodeRaw.eq_def, Raw.dab, Raw.base, Raw.head, hok, hc]

end Sys2Proof
end

section
/-! Decoding undoes encoding, and every word group that decodes has one meaning (R284–R313). -/

namespace Sys2Proof

/-! ### Word groups and their lengths -/

theorem groupBytes_cases (w0 : W32) :
    groupBytes w0 = 4 ∨ groupBytes w0 = 8 ∨ groupBytes w0 = 12 ∨ groupBytes w0 = 16 := by
  unfold groupBytes
  split_ifs <;> simp

/-- Trimming keeps the bits of the group's own length. -/
theorem trimGroup_toNat (v : BitVec 128) :
    (trimGroup v).toNat = v.toNat % 2 ^ (groupBytes (v.extractLsb' 0 32) * 8) := by
  unfold trimGroup
  have hmask (k : Nat) (hk : k ≤ 128) : (v &&& BitVec.ofNat 128 (2 ^ k - 1)).toNat = v.toNat % 2 ^ k := by
    have hlt : 2 ^ k - 1 < 2 ^ 128 := by have := Nat.pow_le_pow_right (n := 2) (by decide) hk; omega
    rw [BitVec.toNat_and, BitVec.toNat_ofNat, Nat.mod_eq_of_lt hlt, Nat.and_two_pow_sub_one_eq_mod]
  rcases groupBytes_cases (v.extractLsb' 0 32) with h | h | h | h <;> rw [h]
  · exact hmask 32 (by decide)
  · exact hmask 64 (by decide)
  · exact hmask 96 (by decide)
  · exact (Nat.mod_eq_of_lt v.isLt).symm

/-- The first word of a group, from any word that agrees with it in the group's own bits. -/
theorem first_word_congr {v w : BitVec 128} {n : Nat} (hn : 32 ≤ n) (h : v.toNat % 2 ^ n = w.toNat % 2 ^ n) :
    v.extractLsb' 0 32 = w.extractLsb' 0 32 := by
  have hd : 2 ^ 32 ∣ 2 ^ n := Nat.pow_dvd_pow 2 hn
  apply BitVec.eq_of_toNat_eq
  simp only [BitVec.extractLsb'_toNat, Nat.shiftRight_zero]
  rw [← Nat.mod_mod_of_dvd v.toNat hd, h, Nat.mod_mod_of_dvd w.toNat hd]

theorem groupBits_ge (w0 : W32) : 32 ≤ groupBytes w0 * 8 := by
  rcases groupBytes_cases w0 with h | h | h | h <;> rw [h] <;> decide

@[simp] theorem trimGroup_first (v : BitVec 128) : (trimGroup v).extractLsb' 0 32 = v.extractLsb' 0 32 :=
  first_word_congr (groupBits_ge (v.extractLsb' 0 32)) (by rw [trimGroup_toNat, Nat.mod_mod])

/-- A word that agrees with a trimmed group in the group's own bits trims to it. -/
theorem trimGroup_eq_of_mod {v w : BitVec 128} (hw : trimGroup w = w)
    (h : v.toNat % 2 ^ (groupBytes (w.extractLsb' 0 32) * 8) = w.toNat) : trimGroup v = w := by
  have hmod := h
  rw [← hw, trimGroup_toNat, trimGroup_first] at hmod
  apply BitVec.eq_of_toNat_eq
  rw [trimGroup_toNat, first_word_congr (groupBits_ge _) hmod, h]

@[simp] theorem trimGroup_trimGroup (v : BitVec 128) : trimGroup (trimGroup v) = trimGroup v := by
  apply BitVec.eq_of_toNat_eq
  rw [trimGroup_toNat, trimGroup_first, trimGroup_toNat, Nat.mod_mod]

/-- The decoder looks at the group's own bits only. -/
theorem decode_trimGroup (v : BitVec 128) : decode (trimGroup v) = decode v := by
  unfold decode
  rw [trimGroup_trimGroup]

/-! ### One meaning -/

theorem toBits_ofBits (w : BitVec 128) : (Raw.ofBits w).toBits = w := by
  have hb (i : Nat) : BitVec.ofBool (w.getLsbD i) = w.extractLsb' i 1 := by
    apply BitVec.eq_of_getLsbD_eq; intro j hj; obtain rfl : j = 0 := by omega
    simp
  simp only [Raw.ofBits, Raw.toBits, hb]
  rw [extract_cat w 64 32 32, extract_cat w 56 8 64, extract_cat w 48 8 72, extract_cat w 40 8 80, extract_cat w 32 8 88,
    extract_cat w 24 8 96, extract_cat w 16 8 104, extract_cat w 12 4 112, extract_cat w 4 8 116, extract_cat w 3 1 124,
    extract_cat w 2 1 125, extract_cat w 0 2 126]
  exact extract_all w

theorem decBody_encodes {r : Raw} {i : Instr} (ha : r.admits) (hd : decBody r = some i) : r.Encodes i := by
  unfold decBody at hd
  dsimp only at hd
  split_ifs at hd
  · exact decControl_encodes ha hd
  · exact decInteger_encodes ha hd
  · exact decFloat_encodes ha hd
  · exact decMemory_encodes ha hd
  · exact decCopy_encodes ha hd
  · exact decAttention_encodes ha hd

theorem decodeRaw_encodes {r : Raw} {i : Instr} (h : decodeRaw r = .ok i) : r.Encodes i := by
  unfold decodeRaw at h
  split at h
  · cases h
  · next rule hrule =>
    split_ifs at h with hlen hguard hslot hbnd
    split at h
    · next i' hbody =>
      obtain rfl : i' = i := by simpa using h
      refine decBody_encodes ⟨?_, ?_⟩ hbody
      · simp only [Hd.okFor, Raw.head, hrule, Hd.obeys]
        push Not at hguard
        cases h1 : rule.pg7 <;> cases h2 : rule.fs0 <;> cases h3 : rule.bnd1 <;> simp_all
      · simpa [hrule] using hlen
    · cases h

theorem encode_of_encodeRaw {i : Instr} {r : Raw} (h : encodeRaw i = some r) :
    ∃ n, encode i = some (n, r.toBits) := by
  unfold encode
  split
  · cases h
  · rw [h]
    exact ⟨_, rfl⟩

/-- Settles O60: a word group that decodes is FILL, or its fields are what the encoder lays out for the instruction. -/
theorem decodeOneMeaning : Obligations.DecodeOneMeaning := by
  intro v i h
  unfold decode at h
  dsimp only at h
  split_ifs at h with h3 h2 hfill
  · obtain rfl : Instr.fill = i := by simpa using h
    exact ⟨rfl, 32, congrArg (fun w => some (32, w)) hfill.symm⟩
  · obtain ⟨hwf, hr⟩ := decodeRaw_encodes h
    obtain ⟨n, hn⟩ := encode_of_encodeRaw hr
    exact ⟨hwf, n, by rw [hn, toBits_ofBits]⟩

/-! ### Decoding undoes encoding -/

open Laws in
/-- Each instruction of the program is read back, by the round trip of its own (Laws/PerInstr.lean). -/
theorem roundTrip (i : Instr) : RoundTrip.Statement i := by
  cases i with
  | nop => exact RoundTrip.nop _
  | run => exact RoundTrip.run _ _ _
  | bra => exact RoundTrip.bra _ _
  | call => exact RoundTrip.call _ _
  | brx => exact RoundTrip.brx _ _
  | ret => exact RoundTrip.ret _
  | exit => exact RoundTrip.exit _
  | loopBeg => exact RoundTrip.loopBeg _ _ _ _ _
  | loopEnd => exact RoundTrip.loopEnd _ _
  | lbrk => exact RoundTrip.lbrk _ _
  | waitt => exact RoundTrip.waitt _ _
  | kpoint => exact RoundTrip.kpoint _
  | trap => exact RoundTrip.trap _ _
  | brk => exact RoundTrip.brk _ _
  | sreg => exact RoundTrip.sreg _ _ _
  | swreg => exact RoundTrip.swreg _ _
  | spawn => exact RoundTrip.spawn _ _ _ _ _ _
  | cscope => exact RoundTrip.cscope _ _ _ _ _
  | cancel => exact RoundTrip.cancel _ _ _
  | cwait => exact RoundTrip.cwait _ _ _
  | iadd => exact RoundTrip.iadd _ _ _ _ _
  | isub => exact RoundTrip.isub _ _ _ _ _
  | imul => exact RoundTrip.imul _ _ _ _ _
  | imulh => exact RoundTrip.imulh _ _ _ _ _
  | imad => exact RoundTrip.imad _ _ _ _ _ _
  | imin => exact RoundTrip.imin _ _ _ _ _
  | imax => exact RoundTrip.imax _ _ _ _ _
  | iabs => exact RoundTrip.iabs _ _ _ _
  | and => exact RoundTrip.and _ _ _ _ _
  | or => exact RoundTrip.or _ _ _ _ _
  | xor => exact RoundTrip.xor _ _ _ _ _
  | andn => exact RoundTrip.andn _ _ _ _ _
  | shl => exact RoundTrip.shl _ _ _ _ _
  | shr => exact RoundTrip.shr _ _ _ _ _ _ _
  | rol => exact RoundTrip.rol _ _ _ _ _
  | bfe => exact RoundTrip.bfe _ _ _ _ _
  | bfi => exact RoundTrip.bfi _ _ _ _ _ _
  | popc => exact RoundTrip.popc _ _ _ _
  | clz => exact RoundTrip.clz _ _ _ _
  | brev => exact RoundTrip.brev _ _ _ _
  | bswz => exact RoundTrip.bswz _ _ _ _ _ _
  | isetp => exact RoundTrip.isetp _ _ _ _ _ _
  | sel => exact RoundTrip.sel _ _ _ _ _ _
  | plog => exact RoundTrip.plog _ _ _ _ _
  | mov => exact RoundTrip.mov _ _ _ _
  | movi32 => exact RoundTrip.movi32 _ _ _ _
  | movi64 => exact RoundTrip.movi64 _ _ _ _
  | lea => exact RoundTrip.lea _ _ _ _ _ _
  | ballot => exact RoundTrip.ballot _ _ _
  | vote => exact RoundTrip.vote _ _ _ _
  | shfl => exact RoundTrip.shfl _ _ _ _ _ _
  | iredux => exact RoundTrip.iredux _ _ _ _ _
  | fadd => exact RoundTrip.fadd _ _ _ _ _ _
  | fmul => exact RoundTrip.fmul _ _ _ _ _ _
  | ffma => exact RoundTrip.ffma _ _ _ _ _ _ _
  | fmin => exact RoundTrip.fmin _ _ _ _ _ _
  | fmax => exact RoundTrip.fmax _ _ _ _ _ _
  | fsetp => exact RoundTrip.fsetp _ _ _ _ _ _
  | fcvt => exact RoundTrip.fcvt _ _ _ _ _ _ _
  | ftoi => exact RoundTrip.ftoi _ _ _ _ _ _
  | itof => exact RoundTrip.itof _ _ _ _ _ _
  | frcp => exact RoundTrip.frcp _ _ _ _
  | frsq => exact RoundTrip.frsq _ _ _ _
  | fexp2 => exact RoundTrip.fexp2 _ _ _ _
  | flog2 => exact RoundTrip.flog2 _ _ _ _
  | ftrig => exact RoundTrip.ftrig _ _ _ _ _
  | fargmax => exact RoundTrip.fargmax _ _ _ _
  | vdot4 => exact RoundTrip.vdot4 _ _ _ _ _ _ _
  | vhad => exact RoundTrip.vhad _ _ _ _
  | fredux => exact RoundTrip.fredux _ _ _ _
  | fpack => exact RoundTrip.fpack _ _ _ _ _ _
  | funpk => exact RoundTrip.funpk _ _ _ _ _
  | fkey => exact RoundTrip.fkey _ _ _ _ _ _
  | fclass => exact RoundTrip.fclass _ _ _ _ _
  | hash64 => exact RoundTrip.hash64 _ _ _ _ _ _
  | gumb => exact RoundTrip.gumb _ _ _ _ _ _
  | ld => exact RoundTrip.ld _ _ _ _ _ _
  | st => exact RoundTrip.st _ _ _ _ _ _
  | atom => exact RoundTrip.atom _ _ _ _ _ _ _ _
  | red => exact RoundTrip.red _ _ _ _ _ _ _
  | stf => exact RoundTrip.stf _ _ _ _ _ _ _ _
  | fence => exact RoundTrip.fence _ _ _
  | pfence => exact RoundTrip.pfence _ _ _ _
  | vcompst => exact RoundTrip.vcompst _ _ _ _ _ _
  | vexpld => exact RoundTrip.vexpld _ _ _ _ _ _
  | capnew => exact RoundTrip.capnew _ _ _ _ _ _ _ _
  | capget => exact RoundTrip.capget _ _ _ _
  | capchk => exact RoundTrip.capchk _ _ _ _ _ _
  | stag => exact RoundTrip.stag _ _ _
  | stagset => exact RoundTrip.stagset _ _ _ _
  | staginv => exact RoundTrip.staginv _ _
  | copy => exact RoundTrip.copy _ _ _ _ _ _
  | copym => exact RoundTrip.copym _ _ _ _ _ _ _
  | copysel => exact RoundTrip.copysel _ _ _ _ _ _
  | phinit => exact RoundTrip.phinit _ _ _ _ _
  | pharr => exact RoundTrip.pharr _ _ _ _
  | phwait => exact RoundTrip.phwait _ _ _ _ _
  | phtest => exact RoundTrip.phtest _ _ _ _ _
  | bar => exact RoundTrip.bar _ _ _ _
  | apos => exact RoundTrip.apos _ _ _ _ _
  | kvst => exact RoundTrip.kvst _ _ _ _ _ _ _
  | kvpub => exact RoundTrip.kvpub _ _ _ _ _ _
  | kvacq => exact RoundTrip.kvacq _ _ _ _ _
  | kvld => exact RoundTrip.kvld _ _ _ _ _ _ _ _ _
  | kvfork => exact RoundTrip.kvfork _ _ _ _ _
  | kvrel => exact RoundTrip.kvrel _ _ _
  | qrot => exact RoundTrip.qrot _ _ _ _ _ _
  | kvstat => exact RoundTrip.kvstat _ _ _ _ _
  | mdecl => exact RoundTrip.mdecl _ _ _
  | msign => exact RoundTrip.msign _ _ _ _
  | mldmask => exact RoundTrip.mldmask _ _ _ _
  | mzero => exact RoundTrip.mzero _ _
  | mbudget => exact RoundTrip.mbudget _ _
  | mstat => exact RoundTrip.mstat _ _ _ _
  | fill => exact RoundTrip.fill
  | _ => exact fun _ _ _ he => nomatch he

/-- Every instruction but the steps of the device and the outside has a word group. -/
theorem encode_isSome (i : Instr) : (encode i).isSome = !i.isEvent := by
  cases i <;> rfl

/-- A well-formed instruction's word has no bit above its own length. -/
theorem trimGroup_encode {i : Instr} {n : Nat} {w : BitVec 128} (hi : i.wf = true) (he : encode i = some (n, w)) :
    trimGroup w = w := by
  obtain ⟨-, n', hn'⟩ := decodeOneMeaning w i (roundTrip i hi n w he).1
  rw [he] at hn'
  simp only [Option.some.injEq, Prod.mk.injEq] at hn'
  exact hn'.2.symm

/-- The first part of O59: an instruction, its word group and every word that begins with it. -/
theorem decode_encode (i : Instr) (hwf : i.wf = true) (hev : i.isEvent = false) :
    ∃ n w, encode i = some (n, w) ∧ w.toNat < 2 ^ n
      ∧ groupBytes (w.extractLsb' 0 32) * 8 = n ∧ decodeTableWord n w.toNat = some i
      ∧ ∀ v : BitVec 128, v.toNat % 2 ^ n = w.toNat → decode v = .ok i := by
  have hsome := encode_isSome i
  rw [hev] at hsome
  obtain ⟨⟨n, w⟩, he⟩ := Option.isSome_iff_exists.1 hsome
  obtain ⟨hdec, hlen⟩ := roundTrip i hwf n w he
  have htrim := trimGroup_encode hwf he
  have hlt : w.toNat < 2 ^ n := by
    rw [← htrim, trimGroup_toNat, hlen]
    exact Nat.mod_lt _ (by positivity)
  have hany (v : BitVec 128) (hv : v.toNat % 2 ^ n = w.toNat) : decode v = .ok i := by
    rw [← decode_trimGroup, trimGroup_eq_of_mod htrim (by rw [hlen, hv]), hdec]
  refine ⟨n, w, he, hlt, hlen, ?_, hany⟩
  rw [decodeTableWord, Nat.mod_eq_of_lt hlt, BitVec.ofNat_toNat, BitVec.setWidth_eq, hdec]

end Sys2Proof
end

section
/-! The prefixes MOD and REP as words (R292–R294). -/

namespace Sys2Proof

/-- A bit field as a number. -/
theorem extract_eq_iff {w s n : Nat} {x : BitVec w} {k : BitVec n} :
    x.extractLsb' s n = k ↔ x.toNat / 2 ^ s % 2 ^ n = k.toNat := by
  rw [BitVec.toNat_eq, BitVec.extractLsb'_toNat, Nat.shiftRight_eq_div_pow]

/-- A bit of a word as a number. -/
theorem getLsbD_eq_decide {w : Nat} (x : BitVec w) (i : Nat) : x.getLsbD i = decide (x.toNat / 2 ^ i % 2 = 1) := by
  rw [BitVec.getLsbD, Nat.testBit_eq_decide_div_mod_eq]

theorem prefixKind_eq_some {w0 : W32} {k : BitVec 5} :
    prefixKind w0 = some k ↔ w0.toNat % 8 = 3 ∧ w0.toNat / 8 % 32 = k.toNat := by
  unfold prefixKind
  split
  · next h =>
    have h3 : w0.toNat % 8 = 3 := by simpa using extract_eq_iff.1 h
    rw [Option.some.injEq, extract_eq_iff]
    simp [h3]
  · next h =>
    have h3 : ¬ w0.toNat % 8 = 3 := fun e => h (extract_eq_iff.2 (by simpa using e))
    simp [h3]

/-- The fields of a MOD word above its first byte (R293 Table 5). -/
theorem decodeMod_eq_some {u : W64} {m : Rnd} {sat : Bool} :
    decodeMod u = some (m, sat) ↔
      u.toNat / 2 ^ 12 = 0 ∧ u.toNat / 2 ^ 8 % 8 = m.code ∧ u.toNat / 2 ^ 11 % 2 = if sat then 1 else 0 := by
  have hu := u.isLt
  have hcode : ∀ {n : Nat}, Rnd.ofCode n = some m ↔ n = m.code := by
    intro n
    constructor
    · intro h
      unfold Rnd.ofCode at h
      split at h <;> cases h <;> rfl
    · rintro rfl
      cases m <;> rfl
  have hhigh : u.extractLsb' 12 52 = 0#52 ↔ u.toNat / 2 ^ 12 = 0 := by
    rw [extract_eq_iff]
    simp
    omega
  unfold decodeMod
  rw [if_congr hhigh rfl rfl]
  split
  · next h0 =>
    split
    · next m' hm' =>
      have hm : (u.extractLsb' 8 3).toNat = m.code ↔ m' = m := by
        rw [← hcode, hm', Option.some.injEq]
      rw [Option.some.injEq, Prod.mk.injEq, ← hm, getLsbD_eq_decide, BitVec.extractLsb'_toNat, Nat.shiftRight_eq_div_pow]
      refine ⟨fun ⟨h1, h2⟩ => ⟨h0, h1, ?_⟩, fun ⟨_, h1, h2⟩ => ⟨h1, ?_⟩⟩
      · cases sat <;> simp at h2 ⊢ <;> omega
      · cases sat <;> simp at h2 ⊢ <;> omega
    · next hm' =>
      refine ⟨nofun, fun ⟨_, h1, _⟩ => ?_⟩
      rw [hcode.2 (by rw [BitVec.extractLsb'_toNat, Nat.shiftRight_eq_div_pow]; exact h1)] at hm'
      cases hm'
  · next h0 => exact ⟨nofun, fun h => absurd h.1 h0⟩

/-- A step code of REP as its step. -/
theorem stepOf_extract {u : W64} (k : Nat) :
    stepOf (u.extractLsb' k 2) = if u.toNat / 2 ^ k % 4 = 3 then 4 else u.toNat / 2 ^ k % 4 := by
  have h : ∀ c : BitVec 2, stepOf c = if c.toNat = 3 then 4 else c.toNat := by decide
  rw [h, BitVec.extractLsb'_toNat, Nat.shiftRight_eq_div_pow]

/-- The fields of a REP word above its first byte (R294 Table 6). -/
theorem decodeRep_eq_some {u : W64} {r : RepF} :
    decodeRep u = some r ↔ u.toNat / 2 ^ 22 = 0 ∧ r = {
      reps := u.toNat / 2 ^ 8 % 64 + 1
      d := if u.toNat / 2 ^ 14 % 4 = 3 then 4 else u.toNat / 2 ^ 14 % 4
      a := if u.toNat / 2 ^ 16 % 4 = 3 then 4 else u.toNat / 2 ^ 16 % 4
      b := if u.toNat / 2 ^ 18 % 4 = 3 then 4 else u.toNat / 2 ^ 18 % 4
      c := if u.toNat / 2 ^ 20 % 4 = 3 then 4 else u.toNat / 2 ^ 20 % 4 } := by
  have hu := u.isLt
  have hhigh : u.extractLsb' 22 42 = 0#42 ↔ u.toNat / 2 ^ 22 = 0 := by
    rw [extract_eq_iff]
    simp
    omega
  unfold decodeRep
  rw [if_congr hhigh rfl rfl]
  split
  · next h0 =>
    simp only [stepOf_extract, BitVec.extractLsb'_toNat, Nat.shiftRight_eq_div_pow, h0, true_and, Option.some.injEq]
    exact eq_comm
  · next h0 => exact ⟨nofun, fun h => absurd h.1 h0⟩

end Sys2Proof

namespace Sys2Proof.Machine

open Sys2Proof

theorem decodePrefix_eq_some {v : BitVec 128} {p : Prefix} : decodePrefix v = some p ↔
    (prefixKind (lowW v) = some 1 ∧ ∃ m sat, decodeMod (v.extractLsb' 0 64) = some (m, sat) ∧ p = .mod m sat)
    ∨ (prefixKind (lowW v) = some 2 ∧ ∃ r, decodeRep (v.extractLsb' 0 64) = some r ∧ p = .rep r) := by
  unfold decodePrefix
  dsimp only
  split
  · next h =>
    rw [h]
    cases hm : decodeMod (v.extractLsb' 0 64) with
    | none => simp
    | some ms =>
      obtain ⟨m, sat⟩ := ms
      cases sat <;> simp [eq_comm]
  · next h =>
    split
    · next h2 =>
      rw [h2]
      cases hm : decodeRep (v.extractLsb' 0 64) with
      | none => simp
      | some ms => simp [eq_comm]
    · next h2 => exact ⟨nofun, fun h' => h'.elim (fun c => absurd c.1 h) fun c => absurd c.1 h2⟩

theorem word_eq_ofNat {u : W64} {n : Nat} (hn : n < 2 ^ 64) : u = BitVec.ofNat 64 n ↔ u.toNat = n := by
  rw [BitVec.toNat_eq, BitVec.toNat_ofNat, Nat.mod_eq_of_lt hn]

/-- The MOD and REP words are the prefixes, and there are no others (R293, R294). -/
theorem decodePrefix_iff (v : BitVec 128) (p : Prefix) : decodePrefix v = some p ↔
    (∃ (m : Rnd) (sat : Bool), p = .mod m sat
      ∧ v.extractLsb' 0 64 = BitVec.ofNat 64 (3 + 1 * 2 ^ 3 + m.code * 2 ^ 8 + (if sat then 1 else 0) * 2 ^ 11))
    ∨ ∃ n d a b c : Nat, n < 64 ∧ d < 4 ∧ a < 4 ∧ b < 4 ∧ c < 4
      ∧ p = .rep { reps := n + 1, d := if d = 3 then 4 else d, a := if a = 3 then 4 else a, b := if b = 3 then 4 else b
                   c := if c = 3 then 4 else c }
      ∧ v.extractLsb' 0 64
        = BitVec.ofNat 64 (3 + 2 * 2 ^ 3 + n * 2 ^ 8 + d * 2 ^ 14 + a * 2 ^ 16 + b * 2 ^ 18 + c * 2 ^ 20) := by
  have hlow : (lowW v).toNat = (v.extractLsb' 0 64).toNat % 2 ^ 32 := by
    simp [lowW, BitVec.extractLsb'_toNat]
  rw [decodePrefix_eq_some, prefixKind_eq_some, prefixKind_eq_some, hlow]
  generalize hu : v.extractLsb' 0 64 = u
  have h1 : (1 : BitVec 5).toNat = 1 := rfl
  have h2 : (2 : BitVec 5).toNat = 2 := rfl
  rw [h1, h2]
  refine or_congr ⟨?_, ?_⟩ ⟨?_, ?_⟩
  · rintro ⟨hk, m, sat, hm, rfl⟩
    obtain ⟨h0, hc, hs⟩ := decodeMod_eq_some.1 hm
    have hm5 : m.code < 6 := by cases m <;> decide
    refine ⟨m, sat, rfl, (word_eq_ofNat ?_).2 ?_⟩ <;> cases sat <;> simp at hs ⊢ <;> omega
  · rintro ⟨m, sat, rfl, hw⟩
    have hm5 : m.code < 6 := by cases m <;> decide
    have hs : (if sat then 1 else 0) < 2 := by cases sat <;> decide
    rw [word_eq_ofNat (by omega)] at hw
    refine ⟨by omega, m, sat, decodeMod_eq_some.2 ⟨by omega, by omega, by omega⟩, rfl⟩
  · rintro ⟨hk, r, hr, rfl⟩
    obtain ⟨h0, rfl⟩ := decodeRep_eq_some.1 hr
    refine ⟨u.toNat / 2 ^ 8 % 64, u.toNat / 2 ^ 14 % 4, u.toNat / 2 ^ 16 % 4, u.toNat / 2 ^ 18 % 4, u.toNat / 2 ^ 20 % 4,
      by omega, by omega, by omega, by omega, by omega, rfl, (word_eq_ofNat (by omega)).2 (by omega)⟩
  · rintro ⟨n, d, a, b, c, hn, hd, ha, hb, hc, rfl, hw⟩
    rw [word_eq_ofNat (by omega)] at hw
    have e8 : u.toNat / 2 ^ 8 % 64 = n := by omega
    have e14 : u.toNat / 2 ^ 14 % 4 = d := by omega
    have e16 : u.toNat / 2 ^ 16 % 4 = a := by omega
    have e18 : u.toNat / 2 ^ 18 % 4 = b := by omega
    have e20 : u.toNat / 2 ^ 20 % 4 = c := by omega
    exact ⟨by omega, _, decodeRep_eq_some.2 ⟨by omega, by rw [e8, e14, e16, e18, e20]⟩, rfl⟩

/-- Settles O59: the word of an instruction by its round trip and by its one meaning; the words of MOD and REP by their
fields. -/
theorem decodeEncode : Obligations.DecodeEncode := ⟨decode_encode, decodePrefix_iff⟩

/-- Settles O58: each word by running the decoder on it. -/
theorem decodeWords : Obligations.DecodeWords := by
  unfold Obligations.DecodeWords
  dsimp only
  refine ⟨?_, ?_, ?_, ?_, ?_, ?_, ?_, ?_, ?_, ?_, ?_, ?_, ?_, ?_, ?_⟩ <;> decide

end Sys2Proof.Machine
end

section
/-! Integer arithmetic, bitwise operations and shifts (R338, R339): the forms with a "w" destination, and the statements
about them. -/

namespace Sys2Proof.Machine

open Sys2Proof

/-! ### Words as numbers -/

theorem add_eq_ofInt {n : Nat} (a b : BitVec n) : a + b = BitVec.ofInt n (a.toInt + b.toInt) := by
  rw [BitVec.ofInt_add, BitVec.ofInt_toInt, BitVec.ofInt_toInt]

theorem mul_eq_ofInt {n : Nat} (a b : BitVec n) : a * b = BitVec.ofInt n (a.toInt * b.toInt) := by
  rw [BitVec.ofInt_mul, BitVec.ofInt_toInt, BitVec.ofInt_toInt]

theorem sub_eq_ofInt {n : Nat} (a b : BitVec n) : a - b = BitVec.ofInt n (a.toInt - b.toInt) := by
  rw [Int.sub_eq_add_neg, BitVec.ofInt_add, BitVec.ofInt_neg, BitVec.ofInt_toInt, BitVec.ofInt_toInt, BitVec.sub_eq_add_neg]

theorem mul_add_eq_ofInt {n : Nat} (a b c : BitVec n) : a * b + c = BitVec.ofInt n (a.toInt * b.toInt + c.toInt) := by
  rw [BitVec.ofInt_add, BitVec.ofInt_mul, BitVec.ofInt_toInt, BitVec.ofInt_toInt, BitVec.ofInt_toInt]

/-! ### The entries of the integer forms -/

section Forms

variable {i : Instr} {f : IntF} {d a b c : Nat} {ex : State → Host.Outcome State Fault Refusal} {body : Ctx → Res}

/-- A form with one "w" source, by what its operation gives on words. -/
theorem intDoes_int1 {op f' : {n : Nat} → BitVec n → BitVec n} (hx : ∀ s, exec i s = ex s)
    (he : ∀ s, ex s = issue i s body) (hb : ∀ x, body x = x.int1 f d a op) (ho : opD (kw f.s f.ty) d ∈ operands i)
    (hop : ∀ {n : Nat} (p : BitVec n), op p = f' p) :
    IntDoes i f d (fun x l => f' (x.src32 f.s a l)) (fun x l => f' (x.src64 f.s a l)) :=
  intDoes_of _ _ hx he hb ho (fun _ _ => hop _) (fun _ _ => hop _)

/-- A form with two "w" sources. -/
theorem intDoes_int2 {op f' : {n : Nat} → BitVec n → BitVec n → BitVec n} (hx : ∀ s, exec i s = ex s)
    (he : ∀ s, ex s = issue i s body) (hb : ∀ x, body x = x.int2 f d a b op) (ho : opD (kw f.s f.ty) d ∈ operands i)
    (hop : ∀ {n : Nat} (p q : BitVec n), op p q = f' p q) :
    IntDoes i f d (fun x l => f' (x.src32 f.s a l) (x.src32 f.s b l)) (fun x l => f' (x.src64 f.s a l) (x.src64 f.s b l)) :=
  intDoes_of _ _ hx he hb ho (fun _ _ => hop _ _) (fun _ _ => hop _ _)

/-- A form with three "w" sources. -/
theorem intDoes_int3 {op f' : {n : Nat} → BitVec n → BitVec n → BitVec n → BitVec n} (hx : ∀ s, exec i s = ex s)
    (he : ∀ s, ex s = issue i s body) (hb : ∀ x, body x = x.int3 f d a b c op) (ho : opD (kw f.s f.ty) d ∈ operands i)
    (hop : ∀ {n : Nat} (p q r : BitVec n), op p q r = f' p q r) :
    IntDoes i f d (fun x l => f' (x.src32 f.s a l) (x.src32 f.s b l) (x.src32 f.s c l))
      (fun x l => f' (x.src64 f.s a l) (x.src64 f.s b l) (x.src64 f.s c l)) :=
  intDoes_of _ _ hx he hb ho (fun _ _ => hop _ _ _) (fun _ _ => hop _ _ _)

/-- A form with a "w" source and a 32-bit control word. -/
theorem intDoes_intC {op f' : {n : Nat} → BitVec n → W32 → BitVec n} (hx : ∀ s, exec i s = ex s)
    (he : ∀ s, ex s = issue i s body) (hb : ∀ x, body x = x.intC f d a b op) (ho : opD (kw f.s f.ty) d ∈ operands i)
    (hop : ∀ {n : Nat} (p : BitVec n) (k : W32), op p k = f' p k) :
    IntDoes i f d (fun x l => f' (x.src32 f.s a l) (x.src32 f.s b l)) (fun x l => f' (x.src64 f.s a l) (x.src32 f.s b l)) :=
  intDoes_of _ _ hx he hb ho (fun _ _ => hop _ _) (fun _ _ => hop _ _)

/-- A form with two "w" sources around a 32-bit control word. -/
theorem intDoes_intCW {op f' : {n : Nat} → BitVec n → W32 → BitVec n → BitVec n} (hx : ∀ s, exec i s = ex s)
    (he : ∀ s, ex s = issue i s body) (hb : ∀ x, body x = x.intCW f d a b c op) (ho : opD (kw f.s f.ty) d ∈ operands i)
    (hop : ∀ {n : Nat} (p : BitVec n) (k : W32) (q : BitVec n), op p k q = f' p k q) :
    IntDoes i f d (fun x l => f' (x.src32 f.s a l) (x.src32 f.s b l) (x.src32 f.s c l))
      (fun x l => f' (x.src64 f.s a l) (x.src32 f.s b l) (x.src64 f.s c l)) :=
  intDoes_of _ _ hx he hb ho (fun _ _ => hop _ _ _) (fun _ _ => hop _ _ _)

end Forms

/-- IABS is encoded with a signed TY alone (R338). -/
theorem signed_of_iabs_wf {h : Hd} {f : IntF} {d a : Nat} (hw : (Instr.iabs h f d a).wf = true) : f.ty.signed = true := by
  rw [Instr.wf.eq_def] at hw
  simp only [Bool.and_eq_true] at hw
  obtain ⟨⟨⟨_, hs⟩, _⟩, _⟩ := hw
  exact hs

/-- Settles O1: each entry is a form of the "w" operands, and its operation on words is the one of their values. -/
theorem integerArithmetic : Obligations.IntegerArithmetic := by
  unfold Obligations.IntegerArithmetic
  refine ⟨fun h f d a b c => ⟨?_, ?_, ?_, ?_, ?_⟩, fun h f d a b => ⟨?_, ?_, ?_, signed_of_iabs_wf, ?_, ?_, ?_⟩⟩
  · exact intDoes_int2 (exec_iadd h f d a b) (fun _ => rfl) (fun _ => rfl) (by simp [operands]) add_eq_ofInt
  · exact intDoes_int2 (exec_isub h f d a b) (fun _ => rfl) (fun _ => rfl) (by simp [operands]) sub_eq_ofInt
  · exact intDoes_int2 (exec_imul h f d a b) (fun _ => rfl) (fun _ => rfl) (by simp [operands]) mul_eq_ofInt
  · exact intDoes_int3 (exec_imad h f d a b c) (fun _ => rfl) (fun _ => rfl) (by simp [operands]) mul_add_eq_ofInt
  · exact intDoes_int2 (exec_imulh h f d a b) (fun _ => rfl) (fun _ => rfl) (by simp [operands]) (vMulh_eq f.ty.signed)
  · exact intDoes_int2 (exec_imin h f d a b) (fun _ => rfl) (fun _ => rfl) (by simp [operands]) (vMin_eq f.ty.signed)
  · exact intDoes_int2 (exec_imax h f d a b) (fun _ => rfl) (fun _ => rfl) (by simp [operands]) (vMax_eq f.ty.signed)
  · exact intDoes_int1 (exec_iabs h f d a) (fun _ => rfl) (fun _ => rfl) (by simp [operands]) vAbs_eq
  all_goals decide

/-- Settles O2: each entry is a form of the "w" operands or of a "w" operand and a count. -/
theorem integerBitwise : Obligations.IntegerBitwise := by
  unfold Obligations.IntegerBitwise
  refine ⟨fun h f d a b => ⟨?_, ?_, ?_, ?_, ?_, ?_⟩, fun h f d a b c => ⟨?_, ?_, ?_, ?_, ?_⟩⟩
  · exact intDoes_int2 (exec_and h f d a b) (fun _ => rfl) (fun _ => rfl) (by simp [operands]) fun _ _ => rfl
  · exact intDoes_int2 (exec_or h f d a b) (fun _ => rfl) (fun _ => rfl) (by simp [operands]) fun _ _ => rfl
  · exact intDoes_int2 (exec_xor h f d a b) (fun _ => rfl) (fun _ => rfl) (by simp [operands]) fun _ _ => rfl
  · exact intDoes_int2 (exec_andn h f d a b) (fun _ => rfl) (fun _ => rfl) (by simp [operands]) fun _ _ => rfl
  · exact intDoes_int1 (exec_mov h f d a) (fun _ => rfl) (fun _ => rfl) (by simp [operands]) fun _ => rfl
  · exact intDoes_int1 (exec_brev h f d a) (fun _ => rfl) (fun _ => rfl) (by simp [operands]) vBrev_eq
  · exact intDoes_intC (exec_shl h f d a b) (fun _ => rfl) (fun _ => rfl) (by simp [operands]) fun p k => vShl_eq p k.toNat
  · exact intDoes_intC (exec_shr h f .log d a b c) (fun _ => rfl) (fun _ => rfl) (by simp [operands])
      fun p k => vShrLog_eq p k.toNat
  · exact intDoes_intC (exec_shr h f .ari d a b c) (fun _ => rfl) (fun _ => rfl) (by simp [operands])
      fun p k => vShrAri_eq p k.toNat
  · exact intDoes_intCW (exec_shr h f .fun_ d a b c) (fun _ => rfl) (fun _ => rfl) (by simp [operands])
      fun p k q => vShrFun_eq p q k.toNat
  · exact intDoes_intC (exec_rol h f d a b) (fun _ => rfl) (fun _ => rfl) (by simp [operands]) fun p k => vRol_eq p k.toNat

end Sys2Proof.Machine
end

section
/-! Bit fields, counts, bytes and addresses (R340, R341, R345, R346), predicates and weave operations (R342–R344,
R348–R351): the statements about them. -/

namespace Sys2Proof.Machine

open Sys2Proof

/-! ### What a completed instruction says, restated -/

/-- A set of lanes that holds one is not empty. -/
theorem Lanes.ne_zero_of_has {m : Lanes} {l : Nat} (h : m.has l = true) : m ≠ 0 := by
  rintro rfl
  simp [Lanes.has] at h

/-- The value of a form with a "32" destination, in the register that it wrote. -/
theorem Ctx.Result32.value {x : Ctx} {sc : Bool} {d l : Nat} {w : Weave} {r : Nat → W32} (h : x.Result32 sc d w r)
    (hl : l < 32) (ha : x.act.has l = true) (hd : sc = false → d ≠ 255) :
    ((if sc then (w.getS d).extractLsb' 0 32 else w.getV d l) : W32) = if sc then r 0 else r l := by
  obtain ⟨hv, hs⟩ := h
  cases sc with
  | false => exact hv rfl (hd rfl) l hl ha
  | true =>
    rw [if_pos rfl, if_pos rfl, hs rfl, if_neg (Lanes.ne_zero_of_has ha)]
    exact BitVec.eq_of_getLsbD_eq fun i hi => by simp [hi]; omega

/-! ### Bit fields, bytes and addresses -/

/-- The bits that BFI leaves (R340), from the field of its control word. -/
theorem vBfi_bit_of_word {n : Nat} (p q : BitVec n) (k : W32) (i : Nat) (hi : i < n) :
    (vBfi p k q).getLsbD i =
      let pos := min (k.toNat % 256) n
      let len := min (k.toNat / 256 % 256) (n - pos)
      if pos ≤ i ∧ i < pos + len then p.getLsbD (i - pos) else q.getLsbD i := by
  rw [vBfi_bit _ _ _ _ hi, bfe_len, bfe_pos]

theorem intDoes_bfi (h : Hd) (f : IntF) (d a b c : Nat) :
    IntDoes (.bfi h f d a b c) f d (fun x l => vBfi (x.src32 f.s a l) (x.src32 f.s b l) (x.src32 f.s c l))
      (fun x l => vBfi (x.src64 f.s a l) (x.src32 f.s b l) (x.src64 f.s c l)) :=
  intDoes_intCW (exec_bfi h f d a b c) (fun _ => rfl) (fun _ => rfl) (by simp [operands]) fun _ _ _ => rfl

/-- A byte of BSWZ (R341). -/
theorem vBswz_byte_eq (a b k : W32) (i : Nat) (hi : i < 4) : (vBswz a b k).extractLsb' (8 * i) 8 =
    let byte : BitVec 8 := (b ++ a : W64).extractLsb' (8 * (k.toNat / 2 ^ (3 * i) % 8)) 8
    let byte : BitVec 8 := if k.getLsbD (16 + i) then (if byte.getLsbD 7 then 255 else 0) else byte
    if k.getLsbD (12 + i) then 0 else byte := by
  rw [vBswz_byte _ _ _ _ hi, bswzByte_eq]

theorem does32_bswz (h : Hd) (sc : Bool) (d a b c : Nat) : Does32 (.bswz h sc d a b c) sc d [] fun x l =>
    vBswz (x.src32 sc a l) (x.src32 sc b l) (x.src32 sc c l) :=
  does32_of _ (exec_bswz h sc d a b c) (fun _ => rfl) (fun _ => rfl) fun _ _ => rfl

/-- A shift to the left is a multiplication, of numbers. -/
theorem add_shiftLeft_eq_ofNat (p q : W64) (k : Nat) : p + q <<< k = BitVec.ofNat 64 (p.toNat + q.toNat * 2 ^ k) := by
  apply BitVec.eq_of_toNat_eq
  simp [BitVec.toNat_add, BitVec.toNat_shiftLeft, Nat.shiftLeft_eq]

/-- Settles O3: each entry by its form; the bits of BFI and the bytes of BSWZ by their own lemmas. -/
theorem integerFields : Obligations.IntegerFields := by
  unfold Obligations.IntegerFields
  refine ⟨fun h f d a b c => ⟨?_, ?_, ?_, ?_⟩, fun h sc d a b c i32 i64 sh => ⟨?_, ?_, ?_, ?_⟩⟩
  · refine does32_of _ (exec_popc h f d a) (fun _ => rfl) (fun _ => rfl) fun x l => ?_
    rw [vPopc_eq, vPopc_eq]
  · refine does32_of _ (exec_clz h f d a) (fun _ => rfl) (fun _ => rfl) fun x l => ?_
    rw [vClz_eq, vClz_eq]; rfl
  · exact intDoes_intC (exec_bfe h f d a b) (fun _ => rfl) (fun _ => rfl) (by simp [operands]) (vBfe_eq f.ty.signed)
  · refine (intDoes_bfi h f d a b c).imp fun x w hr => ?_
    obtain ⟨h32, h64, hs⟩ := hr
    refine ⟨fun hf hw hd l hl ha i hi => ?_, fun hf hw hd l hl ha i hi => ?_, fun hf hw ha i hi => ?_⟩
    · rw [h32 hf hw hd l hl ha, vBfi_bit_of_word _ _ _ _ hi, hf]; rfl
    · rw [h64 hf hw hd l hl ha, vBfi_bit_of_word _ _ _ _ hi, hf]; rfl
    · rw [hs hf, if_neg ha, if_pos hw, vBfi_bit_of_word _ _ _ _ hi, hf]; rfl
  · refine (does32_bswz h sc d a b c).imp fun x w hr l hl ha hd i hi => ?_
    dsimp only
    rw [hr.value hl ha hd]
    cases sc <;> exact vBswz_byte_eq _ _ _ _ hi
  · exact does32_of _ (exec_movi32 h sc d i32) (fun _ => rfl) (fun _ => rfl) fun _ _ => rfl
  · exact does64_of _ (exec_movi64 h sc d i64) (fun _ => rfl) (fun _ => rfl) (by simp [operands]) fun _ _ => rfl
  · refine does64_of _ (exec_lea h sc sh d a b) (fun _ => rfl) (fun _ => rfl) (by simp [operands]) fun x l => ?_
    rw [add_shiftLeft_eq_ofNat]
    cases sc with
    | false => rw [if_neg (by simp), BitVec.toNat_setWidth_of_le (by omega)]; rfl
    | true => rfl

/-! ### Predicates and weave operations -/

/-- PLOG (R344), as a table. -/
theorem plogVal_eq (op : PlogOp) (p q : Bool) : plogVal op p q = match op with
    | .and => p && q
    | .or => p || q
    | .xor => xor p q
    | .andn => p && !q
    | .orn => p || !q
    | .not => !p
    | .mov => p := by
  cases op with
  | xor => cases p <;> cases q <;> rfl
  | _ => rfl

/-- VOTE (R349), as a table. -/
theorem voteVal_eq (op : VoteOp) (n t : Nat) : voteVal op n t = match op with
    | .all => decide (t = n)
    | .any => decide (1 ≤ t)
    | .eq => decide (t = 0 ∨ t = n)
    | .maj => decide (n < 2 * t)
    | .none => decide (t = 0) := by
  cases op with
  | eq => simp [voteVal, Bool.decide_or, Bool.beq_eq_decide_eq]
  | all => exact Bool.beq_eq_decide_eq t n
  | none => exact Bool.beq_eq_decide_eq t 0
  | _ => rfl

theorem Ctx.lanes_eq (x : Ctx) : x.lanes = (List.range 32).filter fun l => x.act.has l := Lanes.toList_eq _

/-- The active threads (R349). -/
theorem Ctx.length_lanes (x : Ctx) : x.lanes.length = (List.range 32).countP fun l => x.act.has l := by
  rw [x.lanes_eq, List.countP_eq_length_filter]

/-- Those of them for which something holds. -/
theorem Ctx.length_filter_lanes (x : Ctx) (p : Nat → Bool) :
    (x.lanes.filter p).length = (List.range 32).countP fun l => x.act.has l && p l := by
  rw [x.lanes_eq, List.filter_filter, List.countP_eq_length_filter]
  exact congrArg List.length (List.filter_congr fun l _ => Bool.and_comm _ _)

/-- The source lane of SHFL (R350), from the numbers in its word. -/
theorem shflSrc_eq (op : ShflOp) (v : W32) (l : Nat) : shflSrc op v l =
    let k := v.toNat % 32
    let g := 32 / 2 ^ min (v.toNat / 32 % 8) 5
    let r := l % g
    l - r + (match op with
      | .idx => k % g
      | .rotu => (r + g - k % g) % g
      | .rotd => (r + k) % g
      | .xor => (r ^^^ k) % g) := by
  have hk : (v.extractLsb' 0 5).toNat = v.toNat % 32 := by simp [BitVec.extractLsb'_toNat]
  have hg : (v.extractLsb' 5 3).toNat = v.toNat / 32 % 8 := by simp [BitVec.extractLsb'_toNat, Nat.shiftRight_eq_div_pow]
  unfold shflSrc
  rw [hk, hg]
  cases op <;> rfl

/-- The fold of IREDUX over the active threads (R351). -/
theorem Ctx.redux_lanes (x : Ctx) (op : ReduxOp) (sg : Bool) {n : Nat} (hn : 0 < n) (g : Nat → BitVec n) :
    ReduxOp.Combines op sg (((List.range 32).filter fun l => x.act.has l).map g)
      (x.lanes.foldl (fun r l => reduxStep op sg r (g l)) (reduxUnit op sg n)) := by
  have h := redux_combines op sg hn (x.lanes.map g)
  rwa [List.foldl_map, x.lanes_eq] at h

/-- Settles O4: ISETP, PLOG, SEL and VOTE write per thread; BALLOT and IREDUX their s register; SHFL reads its source
lane. -/
theorem predicatesAndVotes : Obligations.PredicatesAndVotes := by
  unfold Obligations.PredicatesAndVotes
  refine ⟨fun h ty d a b c => ⟨fun op => ?_, fun op => ?_, ?_, fun op => ?_⟩, fun h ty d a b => ⟨?_, fun op => ?_, fun op => ?_⟩⟩
  · refine doesP_of _ (exec_isetp h ty op d a b) (fun _ => rfl) (fun _ => rfl) fun x l _ _ => ?_
    by_cases hw : Ty.wide ty = true
    · simp only [if_pos hw]; exact vCmp_eq op ty.signed _ _
    · simp only [if_neg hw]; exact vCmp_eq op ty.signed _ _
  · exact doesP_of _ (exec_plog h op d a b) (fun _ => rfl) (fun _ => rfl) fun x l _ _ => plogVal_eq op _ _
  · exact intDoes_of _ _ (exec_sel h ty d a b c) (fun _ => rfl) (fun _ => rfl) (by simp [operands]) (fun _ _ => rfl)
      fun _ _ => rfl
  · refine doesP_of (fun x _ => voteVal op x.lanes.length (x.lanes.filter fun l => x.w.getP a l).length)
      (exec_vote h op d a) (fun _ => rfl) (fun _ => rfl) fun x l _ _ => ?_
    rw [voteVal_eq, x.length_lanes, x.length_filter_lanes] <;> rfl
  · refine (doesS_of _ (exec_ballot h d a) (fun _ => rfl) (fun _ => rfl) fun _ => rfl).imp fun x w hw i => ?_
    rw [hw, BitVec.getLsbD_setWidth, ofFn_bit]
    by_cases hi : i < 32
    · simp [hi, Nat.lt_trans hi (by decide : 32 < 64)]
    · simp [hi]
  · refine intDoes_of _ _ (exec_shfl h ty op d a b) (fun _ => rfl) (fun _ => rfl) (by simp [operands]) (fun x l => ?_)
      fun x l => ?_
    · dsimp only
      rw [shflSrc_eq]
      exact apply_ite (fun m => x.w.getV a m) _ _ _
    · dsimp only
      rw [shflSrc_eq]
      exact apply_ite (fun m => x.w.getV64 a m) _ _ _
  · refine (doesS_of _ (exec_iredux h ty op d a) (fun _ => rfl) (fun _ => rfl) fun _ => rfl).imp fun x w hw => ?_
    dsimp only at hw
    refine ⟨fun hty => ?_, fun hty => ⟨_, x.redux_lanes op ty.signed (by decide) _, ?_⟩⟩
    · rw [hw, if_pos hty]
      exact x.redux_lanes op ty.signed (by decide) _
    · rw [hw, if_neg (by simp [hty])]

end Sys2Proof.Machine
end

section
/-! A step and the instruction that it fetches (R285, R293–R301): the statement is refuted by a group whose latch ends inside
the word group at its PC. -/

namespace Sys2Proof.Machine

open Sys2Proof

/-- The machine that runs an IADD next, whose group holds a latch (R301) of the four bytes 0x10097010, the first half of a RUN
header. The first four bytes at its PC are then those of the latch, and the whole eight are read from memory, where the
IADD stands. -/
def shortLatch : State :=
  (State.reset.withFetchWord 64 0x0000000600017200).updWeave 3 fun w =>
    { w with groups := w.groups.map fun g => { g with latch := some (g.pc, natToBytes 4 0x10097010) } }

/-- The state in which the item of `shortLatch` is carried out. -/
def shortLatchNow : State := { shortLatch with agenda := [], clock := shortLatch.clock + 1, cur := none }

def shortLatchEnv : Env := (shortLatchNow.env 3).get (by decide +kernel)

def shortLatchGroup : Group := (shortLatchEnv.w.group 4).get (by decide +kernel)

/-- The IADD at issue. -/
def shortLatchCur : Cur :=
  { weave := 3, gid := 4, addr := shortLatchGroup.pc, len := 8, code := natToBytes 8 0x0000000600017200
    rnd := .rne, sat := false, rep := 0, reps := 1 }

/-- The groups of each weave in the state that is answered. -/
def groupCounts : Host.Outcome State Fault Refusal → List Nat
  | .next t => t.weaves.map fun e => e.2.groups.length
  | _ => []

theorem shortLatch_mayIssue : shortLatchNow.mayIssue shortLatchEnv shortLatchGroup = true := by decide +kernel

theorem shortLatch_groupAt : shortLatchNow.groupAt
    { e := shortLatchEnv, caps := shortLatchEnv.codeCaps shortLatchGroup.lanes, latch := shortLatchGroup.latch }
    shortLatchGroup.pc.toNat shortLatchGroup.pc = .ok (0x0000000600017200, 8) := by
  decide +kernel

/-- The step takes the four bytes of the latch for a header inside a run: the trap ends the team's threads. -/
theorem groupCounts_step : groupCounts (step shortLatch) = [0] := by decide +kernel

/-- The IADD would have left its group where it is. -/
theorem groupCounts_iadd :
    groupCounts (settled (exec (.iadd ⟨7, false, false⟩ ⟨false, .u32⟩ 1 0 6) { shortLatchNow with cur := some shortLatchCur }))
      = [1] := by decide +kernel

/-- Refutes O56: with the latch of `shortLatch` the word group at the PC decodes to an IADD, and the step is the trap of a
header inside a run. -/
theorem not_stepRunsDecoded : ¬ Obligations.StepRunsDecoded := by
  unfold Obligations.StepRunsDecoded
  intro h
  obtain ⟨hword, -, -⟩ := h shortLatch 3 4 1 [] shortLatchEnv shortLatchGroup (by decide +kernel)
    (Option.some_get _).symm (Option.some_get _).symm shortLatch_mayIssue
  have hstep := hword 0x0000000600017200 8 (.iadd ⟨7, false, false⟩ ⟨false, .u32⟩ 1 0 6) shortLatch_groupAt
    (by decide +kernel) (by decide +kernel) (by decide +kernel)
  have hcount := congrArg groupCounts hstep
  rw [groupCounts_step] at hcount
  exact absurd (hcount.trans groupCounts_iadd) (by decide)

end Sys2Proof.Machine
end

section
/-! Taking an exception (R252–R258, R432): what a team that ends without a handler leaves behind, and the cases of the
statement about it. -/

namespace Sys2Proof.Machine

open Sys2Proof

/-! ### Numbers inside a written range -/

/-- A number among the bytes of a write is read back. -/
theorem num_writes_field (m : Memory) (a n x : Nat) (pre post : List (BitVec 8)) :
    Memory.num (Memory.writes m a (pre ++ (natToBytes n x ++ post))) (a + pre.length) n = x % 256 ^ n := by
  rw [Memory.writes_append, Memory.writes_append, natToBytes_length, Memory.num_writes_before _ _ _ _ _ (Nat.le_refl _),
    Memory.num_writes]

/-! ### The fault record (R257, R432) -/

theorem mem_tblSet {α : Type} [DecidableEq α] {t : Tbl α} {d v : α} {n : Nat} {x : Nat × α} (h : x ∈ Tbl.set t d n v) :
    x = (n, v) ∨ x ∈ t := by
  unfold Sys2Proof.Tbl.set at h
  split at h
  · exact .inr (Sys2Proof.Tbl.mem_del h).1
  · exact Tbl.mem_put h

/-- What a partition keeps of a byte that software writes (R137). -/
def Partition.keepsAt (p : Partition) (a : Nat) (lock : Bool) : Bool :=
  p.tdi == .run && (match p.directOf a with
    | some d => keptOffset d lock
    | none => false)

theorem State.kept_false_iff (s : State) (a : Nat) :
    s.kept a = false ↔ ∀ e ∈ s.parts, e.2.keepsAt a ((Memory.get s.mem (a / 8 * 8 + 7)).getLsbD 7) = false := by
  have hany : s.kept a = s.parts.any fun e => e.2.keepsAt a ((Memory.get s.mem (a / 8 * 8 + 7)).getLsbD 7) := rfl
  rw [hany, List.any_eq_false]
  simp only [Bool.not_eq_true]

/-- The partition that stands under a number keeps what the state keeps. -/
theorem State.keepsAt_part {s : State} {a : Nat} (h : s.kept a = false) (p : Nat) :
    (s.part p).keepsAt a ((Memory.get s.mem (a / 8 * 8 + 7)).getLsbD 7) = false := by
  unfold State.part Tbl.get
  cases hp : Tbl.find s.parts p with
  | none => rfl
  | some x => exact (s.kept_false_iff a).1 h _ (Tbl.mem_of_find hp)

/-- A change of a partition that leaves its state and windows makes no byte one that is kept. -/
theorem State.kept_setPart {s : State} {p : Nat} {x : Partition} (htdi : x.tdi = (s.part p).tdi) (hwin : x.win = (s.part p).win)
    {a : Nat} (h : s.kept a = false) : (s.setPart p x).kept a = false := by
  have hx : ∀ b, x.keepsAt a b = (s.part p).keepsAt a b := fun b => by
    simp only [Partition.keepsAt, Partition.directOf, Partition.windows, htdi, hwin]
  rw [State.kept_false_iff]
  intro e he
  rcases mem_tblSet he with rfl | he
  · rw [hx]; exact State.keepsAt_part h p
  · exact (s.kept_false_iff a).1 h e he

/-- The bytes of an entry of the fault record (R432). -/
def FaultEntry.bytes (e : FaultEntry) (seq : Nat) : List (BitVec 8) :=
  natToBytes 8 seq ++ natToBytes 1 e.kind ++ natToBytes 1 e.status ++ natToBytes 1 (if e.double then 1 else 0)
      ++ natToBytes 1 0 ++ natToBytes 2 e.queue ++ natToBytes 2 e.team ++ natToBytes 4 e.cohort
      ++ natToBytes 4 e.field ++ natToBytes 8 e.addr.toNat ++ natToBytes 8 e.info.toNat ++ natToBytes 4 e.scope.toNat
      ++ natToBytes 20 0

theorem FaultEntry.length_bytes (e : FaultEntry) (seq : Nat) : (e.bytes seq).length = 64 := by
  simp only [FaultEntry.bytes, List.length_append, natToBytes_length]

/-- The number, the kind, the status and the double bit of an entry that has been written. -/
theorem FaultEntry.num_bytes (e : FaultEntry) (seq : Nat) (m : Memory) (a : Nat) :
    let m' := Memory.writes m a (e.bytes seq)
    Memory.num m' a 8 = seq % 256 ^ 8 ∧ Memory.num m' (a + 8) 1 = e.kind % 256 ∧ Memory.num m' (a + 9) 1 = e.status % 256
      ∧ Memory.num m' (a + 10) 1 = if e.double then 1 else 0 := by
  simp only [FaultEntry.bytes, List.append_assoc]
  refine ⟨num_writes_field m a 8 seq [] _, ?_, ?_, ?_⟩
  · simpa [natToBytes_length] using num_writes_field m a 1 e.kind (natToBytes 8 seq) _
  · simpa [natToBytes_length] using num_writes_field m a 1 e.status (natToBytes 8 seq ++ natToBytes 1 e.kind) _
  · have hd : (if e.double then 1 else 0) % 256 = if e.double then 1 else 0 := by cases e.double <;> rfl
    simpa [natToBytes_length, hd] using num_writes_field m a 1 (if e.double then 1 else 0)
      (natToBytes 8 seq ++ (natToBytes 1 e.kind ++ natToBytes 1 e.status)) _

theorem State.record_eq (s : State) (p : Nat) (e : FaultEntry) : s.record p e =
    (s.setPart p { s.part p with faultSeq := (s.part p).faultSeq + 1 }).devWrite p
      (0x4000 + 64 * (((s.part p).faultSeq + 1) % 64)) (e.bytes ((s.part p).faultSeq + 1)) false (some .sys) := rfl

/-- Release records are no memory. -/
theorem foldl_recordRel_mem (f : Nat → Loc) (n : Nat) (old r : Option Rel) (l : List Nat) (s : State) :
    (l.foldl (fun (s : State) g => s.recordRel (f g) n old r) s).mem = s.mem := by
  induction l generalizing s with
  | nil => rfl
  | cons g l ih => rw [List.foldl_cons, ih, State.recordRel_mem]

/-- The device's release in ready memory puts down every byte that no rule keeps. -/
theorem State.devWrite_release_mem {s : State} {part d pa : Nat} {bs : List (BitVec 8)} (sc : Scope)
    (hw : ∀ x ∈ s.devWrites, x.part ≠ part) (hpa : (s.part part).direct d = some pa) (hm : s.memSt pa = .ready)
    (hk : ∀ n, n < bs.length → s.kept (pa + n) = false) :
    (s.devWrite part d bs false (some sc)).mem = Memory.writes s.mem pa bs := by
  have hfree : (s.touch pa).keepBytes pa bs = bs := State.keepBytes_free _ _ _ fun c h1 h2 => by
    rw [State.touch_kept, ← Nat.add_sub_cancel' h1]
    exact hk _ (by omega)
  have hmem : (s.touch pa).mem = s.mem := by rw [State.touch_eq]
  simp only [State.devWrite, hpa, State.devHeld_of_ready hw hpa hm, State.devPerform, State.touch_memSt, hm, State.locWrite, hfree]
  exact (foldl_recordRel_mem ..).trans (by rw [← hmem]; rfl)

/-- An entry of the fault record stands in memory at once where memory is ready. -/
theorem State.record_mem {s : State} {p pa : Nat} (e : FaultEntry)
    (hpa : (s.part p).direct (0x4000 + 64 * (((s.part p).faultSeq + 1) % 64)) = some pa)
    (hw : ∀ x ∈ s.devWrites, x.part ≠ p) (hm : s.memSt pa = .ready) (hk : ∀ n, n < 64 → s.kept (pa + n) = false) :
    (s.record p e).mem = Memory.writes s.mem pa (e.bytes ((s.part p).faultSeq + 1)) := by
  rw [State.record_eq]
  refine State.devWrite_release_mem _ hw ?_ hm fun n hn => State.kept_setPart (by rfl) (by rfl) (hk n (by rwa [e.length_bytes] at hn))
  rw [State.part_setPart, if_pos rfl]
  exact hpa

theorem State.record_faultSeq (s : State) (p : Nat) (e : FaultEntry) :
    ((s.record p e).part p).faultSeq = (s.part p).faultSeq + 1 := by
  rw [(s.record_alike p e).part, State.part_setPart, if_pos rfl]

/-- A report raises a vector at most (R69). -/
theorem State.reportVector_eq (s : State) (p : Nat) (src : RecSrc) :
    s.reportVector p src = { s with out := (s.reportVector p src).out } := by
  unfold State.reportVector
  split <;> split <;> rfl

theorem State.reportVector_queue {s : State} {p l n : Nat} (h : s.queueAt p l = some n) :
    (s.reportVector p (.queue l)).out = s.out ++ [.msix (p + 1) (s.queue n).msix.toNat] := by
  simp only [State.reportVector, h]
  rfl

/-! ### A team without a handler (R257) -/

/-- Threads of a weave have ended because their team has no handler for the trap (R257, R258); `info` is the trap's
TRAPINFO. -/
def State.lostEntry (e : Env) (code : Nat) (info : W64) (double : Bool) : FaultEntry :=
  { FaultEntry.blank with
    kind := 2, status := code, double := double, queue := e.f.src.entry, team := e.t.num, cohort := e.c.index,
    field := e.f.number, info := info, scope := e.f.scope }

/-- The state in which the threads have ended and the team is ending. -/
def State.teamEnding (s : State) (e : Env) (lanes : Lanes) : State :=
  (s.endThreads e.wid lanes false).updTeam e.tid fun tm => { tm with ending := true }

theorem State.teamNoHandler_eq (s : State) (e : Env) (lanes : Lanes) (code : Nat) (info : W64) (double : Bool) :
    s.teamNoHandler e lanes code info double = if e.t.ending then s.teamEnding e lanes
      else ((s.teamEnding e lanes).record e.part (State.lostEntry e code info double)).reportVector e.part e.f.src := rfl

section Lost

variable {s : State} {wid : Nat} {e : Env} {lanes : Lanes} {code : Nat} {info : W64} {double : Bool}

/-- Nothing but weaves and teams differs once the team is ending. -/
theorem State.teamEnding_eq (he : s.env wid = some e) : s.teamEnding e lanes =
    { s with weaves := (s.teamEnding e lanes).weaves, teams := (s.teamEnding e lanes).teams } := by
  obtain ⟨rfl, -⟩ := State.env_some he
  rw [State.teamEnding, (State.endThreads_ended he lanes false).rest]
  rfl

theorem State.teamEnding_team (he : s.env wid = some e) : (s.teamEnding e lanes).team e.tid = some { e.t with ending := true } := by
  obtain ⟨rfl, -, -, ht, -⟩ := State.env_some he
  have hteams : (s.endThreads e.wid lanes false).teams = s.teams := by rw [(State.endThreads_ended he lanes false).rest]
  have hteam : (s.endThreads e.wid lanes false).team e.tid = some e.t := by rw [State.team, hteams]; exact ht
  rw [State.teamEnding, State.team_updTeam, if_pos rfl, hteam]
  rfl

theorem State.teamEnding_weave (he : s.env wid = some e) :
    ∃ w, (s.teamEnding e lanes).weave wid = some w ∧ w.live = e.w.live &&& ~~~lanes := by
  obtain ⟨rfl, -⟩ := State.env_some he
  obtain ⟨-, -, w, hw, hlive, -⟩ := State.endThreads_ended he lanes false
  exact ⟨w, hw, hlive⟩

/-- The report, seen from the state in which the team is ending: fault record, memory and reports alone differ. -/
theorem State.teamNoHandler_rest (s : State) (e : Env) (lanes : Lanes) (code : Nat) (info : W64) (double : Bool) :
    (s.teamNoHandler e lanes code info double).teams = (s.teamEnding e lanes).teams
      ∧ (s.teamNoHandler e lanes code info double).weaves = (s.teamEnding e lanes).weaves := by
  rw [State.teamNoHandler_eq]
  split
  · exact ⟨rfl, rfl⟩
  · rw [State.reportVector_eq, State.record_alike _ _ _]
    exact ⟨rfl, rfl⟩

theorem State.teamNoHandler_faultSeq (he : s.env wid = some e) :
    ((s.teamNoHandler e lanes code info double).part e.part).faultSeq
      = (s.part e.part).faultSeq + (if e.t.ending then 0 else 1) := by
  have hpart : (s.teamEnding e lanes).part e.part = s.part e.part :=
    State.part_congr (by rw [State.teamEnding_eq he]) _
  rw [State.teamNoHandler_eq]
  cases e.t.ending with
  | true => exact congrArg Partition.faultSeq hpart
  | false =>
    rw [if_neg (by simp), if_neg (by simp), State.reportVector_eq, ← hpart]
    exact State.record_faultSeq _ _ _

theorem State.teamNoHandler_out (he : s.env wid = some e) (hend : e.t.ending = false) {q n : Nat} (hsrc : e.f.src = .queue q)
    (hq : s.queueAt e.part q = some n) :
    (s.teamNoHandler e lanes code info double).out = s.out ++ [.msix (e.part + 1) (s.queue n).msix.toNat] := by
  have hu := State.teamEnding_eq (lanes := lanes) he
  have hr := State.record_alike (s.teamEnding e lanes) e.part (State.lostEntry e code info double)
  rw [State.teamNoHandler_eq, if_neg (by simp [hend]), hsrc]
  generalize (s.teamEnding e lanes).record e.part (State.lostEntry e code info double) = r at hr ⊢
  have hqueues : r.queues = s.queues := by rw [hr, hu]; rfl
  have hout : r.out = s.out := by rw [hr, hu]; rfl
  have hqr : r.queueAt e.part q = some n := by rw [State.queueAt, hqueues]; exact hq
  have hqueue : r.queue n = s.queue n := by rw [State.queue, hqueues]; rfl
  rw [State.reportVector_queue hqr, hout, hqueue]

theorem State.teamNoHandler_mem (he : s.env wid = some e) (hend : e.t.ending = false) {pa : Nat}
    (hpa : (s.part e.part).direct (0x4000 + 64 * (((s.part e.part).faultSeq + 1) % 64)) = some pa)
    (hw : ∀ x ∈ s.devWrites, x.part ≠ e.part) (hm : s.memSt pa = .ready) (hk : ∀ n, n < 64 → s.kept (pa + n) = false) :
    (s.teamNoHandler e lanes code info double).mem
      = Memory.writes s.mem pa ((State.lostEntry e code info double).bytes ((s.part e.part).faultSeq + 1)) := by
  have hu := State.teamEnding_eq (lanes := lanes) he
  have hpart : (s.teamEnding e lanes).part e.part = s.part e.part := State.part_congr (by rw [hu]) _
  rw [State.teamNoHandler_eq, if_neg (by simp [hend]), State.reportVector_eq, ← hpart]
  refine (State.record_mem _ (by rw [hpart]; exact hpa) ?_ ?_ ?_).trans ?_
  · rw [hu]; exact hw
  · rw [hu]; exact hm
  · rw [hu]; exact hk
  · rw [hu]

/-- What a trap that no handler takes leaves (R257, R258, R432): the team is ending, the threads are gone, and the first time
an entry stands in the fault record and the queue's vector is raised. -/
def State.Lost (s t : State) (wid : Nat) (e : Env) (lanes : Lanes) (code : Nat) (double : Bool) : Prop :=
  (∃ tm, t.team e.tid = some tm ∧ tm.ending = true)
  ∧ (∃ w, t.weave wid = some w ∧ w.live = e.w.live &&& ~~~lanes)
  ∧ (t.part e.part).faultSeq = (s.part e.part).faultSeq + (if e.t.ending then 0 else 1)
  ∧ (e.t.ending = false → ∀ q, e.f.src = .queue q → ∀ n, s.queueAt e.part q = some n →
    t.out = s.out ++ [.msix (e.part + 1) (s.queue n).msix.toNat])
  ∧ (e.t.ending = false → ∀ pa, (s.part e.part).direct (0x4000 + 64 * (((s.part e.part).faultSeq + 1) % 64)) = some pa →
    (∀ x ∈ s.devWrites, x.part ≠ e.part) → s.memSt pa = .ready → (∀ n, n < 64 → s.kept (pa + n) = false) →
    Memory.num t.mem pa 8 = ((s.part e.part).faultSeq + 1) % 2 ^ 64 ∧ Memory.num t.mem (pa + 8) 1 = 2
    ∧ Memory.num t.mem (pa + 9) 1 = code ∧ Memory.num t.mem (pa + 10) 1 = if double then 1 else 0)

theorem State.teamNoHandler_lost (he : s.env wid = some e) (hcode : code < 256) :
    s.Lost (s.teamNoHandler e lanes code info double) wid e lanes code double := by
  obtain ⟨hteams, hweaves⟩ := State.teamNoHandler_rest s e lanes code info double
  refine ⟨⟨{ e.t with ending := true }, ?_, rfl⟩, ?_, State.teamNoHandler_faultSeq he, fun hend q hsrc n hq => State.teamNoHandler_out he hend hsrc hq,
    fun hend pa hpa hw hm hk => ?_⟩
  · rw [State.team, hteams]; exact State.teamEnding_team he
  · rw [State.weave, hweaves]; exact State.teamEnding_weave he
  · rw [State.teamNoHandler_mem he hend hpa hw hm hk]
    obtain ⟨hseq, hkind, hstatus, hdouble⟩ := FaultEntry.num_bytes (State.lostEntry e code info double)
      ((s.part e.part).faultSeq + 1) s.mem pa
    exact ⟨hseq, hkind, hstatus.trans (Nat.mod_eq_of_lt hcode), hdouble⟩

end Lost

/-! ### The statement -/

/-- Settles O17: a cancelled scope ends the threads, a trap that no handler takes ends the team's, and else the weave waits
or enters the handler. -/
theorem exceptionEntry : Obligations.ExceptionEntry := by
  intro s wid gid addr len bnd tr e g he hg hl
  have hcode : tr.code.code < 256 := Nat.lt_trans tr.code.code_lt (by decide)
  have htrap : s.takeTrap wid gid addr len bnd tr = if s.envCancelling e then s.endThreads wid g.lanes true
      else if e.w.anyTrap g.lanes then
        s.teamNoHandler e g.lanes tr.code.code (trapInfo e.f.lr.code addr tr g.lanes) true
      else if e.w.anyTrap (lanesMinus e.w.live g.lanes) then
        s.updWeave wid fun w => w.updGroup gid fun g => { g with sleep := .handler addr len bnd tr, port := false }
      else if !e.f.lr.trap.tag then
        s.teamNoHandler e g.lanes tr.code.code (trapInfo e.f.lr.code addr tr g.lanes) false
      else s.updWeave wid fun w => w.enterHandler e.f.lr g addr len bnd tr := by
    simp only [State.takeTrap, he, hg]
  refine ⟨fun hc => ?_, fun hc hh => ?_, fun hc hh hth => ?_, fun hc hh hth htag => ?_, fun hc hh hth htag => ?_⟩
  · rw [htrap, if_pos hc]
    exact State.endThreads_ended he g.lanes true
  · rw [htrap, if_neg (by simp [hc]), if_pos hh]
    exact State.teamNoHandler_lost he hcode
  · rw [htrap, if_neg (by simp [hc]), if_neg (by simp [hh])]
    exact if_pos hth
  · have hrest : e.w.anyTrap (lanesMinus e.w.live g.lanes) = false := hth
    rw [htrap, if_neg (by simp [hc]), if_neg (by simp [hh]), if_neg (by simp [hrest]), if_pos (by simp [htag])]
    exact State.teamNoHandler_lost he hcode
  · exact State.takeTrap_enters he hg hl hc hh hth htag

end Sys2Proof.Machine
end

section
/-! Transfers of control (R314–R316, R318–R324): targets, the places of the threads, and the group that divides. -/

namespace Sys2Proof.Machine

open Sys2Proof

/-! ### Words of code -/

theorem bytesToNat_take_lt (l : List (BitVec 8)) (n : Nat) : bytesToNat (l.take n) < 256 ^ n :=
  Nat.lt_of_lt_of_le (bytesToNat_lt _) (Nat.pow_le_pow_right (by decide) (List.length_take_le n l))

theorem State.codeLine_lt {s : State} {core : Nat} {b : Loc} {off n v : Nat} (h : s.codeLine core b off n = some v) :
    v < 256 ^ n := by
  obtain ⟨x, -, rfl⟩ := Option.map_eq_some_iff.1 h
  exact bytesToNat_take_lt _ n

theorem State.localCode_lt {s : State} {x : CodeSrc} {a n v : Nat} (h : s.localCode x a n = .ok v) : v < 256 ^ n := by
  unfold State.localCode at h
  dsimp only at h
  split at h
  · cases h
  · cases h
  · cases h
  · split at h
    · next hline => cases h; exact State.codeLine_lt hline
    · split at h
      · cases h
      · split at h
        · cases h
        · cases h
          exact (Memory.num_lt _ _ n).trans_eq (by rw [show 256 = 2 ^ 8 from rfl, ← Nat.pow_mul])

/-- Code that is not latched is a number of as many bytes as are asked for. -/
theorem State.code_lt {s : State} {e : Env} {caps : List Cap} {a n v : Nat}
    (h : s.code { e := e, caps := caps, latch := none } a n = .ok v) : v < 256 ^ n := by
  unfold State.code at h
  simp only [CodeSrc.latched] at h
  split at h
  · cases h
  · split at h
    · cases h
    · split at h
      · exact State.localCode_lt h
      · split at h
        · next hline => cases h; exact State.codeLine_lt hline
        · cases h

/-! ### Targets (R315) -/

section Target

variable {x : Ctx} {l n : Nat} {own : Option Nat} {fill : Bool} {a b : Int}

/-- A word inside the code capability, by what the search for a header makes of it. -/
theorem Ctx.headerAt_word {w : W32} (h : x.WordAt l a w) (own : Option Nat) (fill : Bool) (n : Nat) :
    x.headerAt l own fill (n + 1) a = if fill = true ∧ w = 7 then x.headerAt l own fill n (a + 4)
      else if isHeader w then .ok (w64 a.toNat) else .error (.branch own) := by
  obtain ⟨hal, hcov, v, hcode, rfl⟩ := h
  have hv : v < 2 ^ 32 := State.code_lt hcode
  have h7 : (BitVec.ofNat 32 v = 7) ↔ v = 7 := by
    constructor
    · intro h
      have ht : v % 2 ^ 32 = 7 := congrArg BitVec.toNat h
      rwa [Nat.mod_eq_of_lt hv] at ht
    · rintro rfl; rfl
  simp only [Ctx.headerAt, hcode, h7]
  rw [if_neg (by simp [hal, hcov])]
  rfl

theorem Ctx.headerAt_header (h : x.HeaderAt l a) : x.headerAt l own fill (n + 1) a = .ok (w64 a.toNat) := by
  obtain ⟨w, hw, hh⟩ := h
  have h7 : w ≠ 7 := by rintro rfl; exact absurd hh (by decide)
  rw [Ctx.headerAt_word hw, if_neg (fun h => h7 h.2), if_pos hh]

theorem Ctx.headerAt_none (h : x.NoHeaderAt l fill a) : x.headerAt l own fill (n + 1) a = .error (.branch own) := by
  rcases h with h | h | ⟨w, hw, hh, h7⟩
  · simp only [Ctx.headerAt]
    rw [if_pos (.inl h)]
  · simp only [Ctx.headerAt]
    rw [if_pos (.inr (by simp [h]))]
  · rw [Ctx.headerAt_word hw, if_neg (fun h => h7 h.1 h.2), if_neg (by simp [hh])]

/-- FILL words are passed over. -/
theorem Ctx.headerAt_fills {k : Nat} (h : ∀ j : Nat, j < k → x.WordAt l (a + 4 * j) 7) :
    x.headerAt l own true (k + n) a = x.headerAt l own true n (a + 4 * k) := by
  induction k generalizing a with
  | zero => simp
  | succ k ih =>
    have h0 : x.WordAt l a 7 := by simpa using h 0 (Nat.succ_pos k)
    rw [Nat.add_right_comm, Ctx.headerAt_word h0, if_pos ⟨rfl, rfl⟩, ih fun j hj => ?_]
    · congr 1; push_cast; ring
    · have := h (j + 1) (by omega)
      have e : a + 4 * ((j + 1 : Nat) : Int) = a + 4 + 4 * (j : Int) := by push_cast; ring
      rwa [e] at this

/-- All words of a code capability may be FILL. -/
theorem Ctx.fills_le {k : Nat} (h : ∀ j : Nat, j < k → x.WordAt l (a + 4 * j) 7) : k ≤ (x.codeOf l).len / 4 := by
  cases k with
  | zero => exact Nat.zero_le _
  | succ k =>
    obtain ⟨-, h0, -⟩ := h 0 (Nat.succ_pos k)
    obtain ⟨-, hk, -⟩ := h k (Nat.lt_succ_self k)
    simp only [Cap.covers, Bool.and_eq_true, decide_eq_true_eq] at h0 hk
    omega

theorem Ctx.target_header (h : x.HeaderAt l a) : x.target l own false a = .ok (w64 a.toNat) := Ctx.headerAt_header h

theorem Ctx.target_none (h : x.NoHeaderAt l false a) : x.target l own false a = .error (.branch own) := Ctx.headerAt_none h

/-- The search behind FILL words goes on from the first other word with at least one step to spare. -/
theorem Ctx.target_fills (h : x.FillsTo l a b) : ∃ n, x.target l own true a = x.headerAt l own true (n + 1) b := by
  obtain ⟨k, rfl, hk⟩ := h
  have hle := Ctx.fills_le hk
  refine ⟨(x.codeOf l).len / 4 - k, ?_⟩
  rw [← Ctx.headerAt_fills hk, Ctx.target, if_pos rfl]
  congr 1
  omega

theorem Ctx.target_fills_header (h : x.FillsTo l a b) (hb : x.HeaderAt l b) : x.target l own true a = .ok (w64 b.toNat) := by
  obtain ⟨n, hn⟩ := Ctx.target_fills h
  rw [hn, Ctx.headerAt_header hb]

theorem Ctx.target_fills_none (h : x.FillsTo l a b) (hb : x.NoHeaderAt l true b) :
    x.target l own true a = .error (.branch own) := by
  obtain ⟨n, hn⟩ := Ctx.target_fills h
  rw [hn, Ctx.headerAt_none hb]

end Target

/-! ### The places of the active threads -/

section Targets

variable {x : Ctx} {f : Nat → Except Stop Place} {place : Nat → Place}

/-- A step of the collection of places: it adds one, or stops. -/
def Collects (f : Nat → Except Stop Place) (F : List (Nat × Place) → Nat → Except Stop (List (Nat × Place))) : Prop :=
  ∀ acc l, F acc l = (f l).map fun p => acc ++ [(l, p)]

theorem Collects.ok {F : List (Nat × Place) → Nat → Except Stop (List (Nat × Place))} (hF : Collects f F) {ls : List Nat}
    (h : ∀ l ∈ ls, f l = .ok (place l)) (acc : List (Nat × Place)) :
    ls.foldlM F acc = .ok (acc ++ ls.map fun l => (l, place l)) := by
  induction ls generalizing acc with
  | nil => simp [pure, Except.pure]
  | cons l r ih =>
    have hl : F acc l = .ok (acc ++ [(l, place l)]) := by rw [hF, h l List.mem_cons_self]; rfl
    rw [List.foldlM_cons, hl]
    exact (ih (fun q hq => h q (List.mem_cons_of_mem _ hq)) _).trans (by simp)

theorem Collects.error {F : List (Nat × Place) → Nat → Except Stop (List (Nat × Place))} (hF : Collects f F) {pre post : List Nat}
    {k : Nat} {e : Stop} (h : ∀ l ∈ pre, f l = .ok (place l)) (hk : f k = .error e) :
    (pre ++ k :: post).foldlM F [] = .error e := by
  have hstep : F (pre.map fun l => (l, place l)) k = .error e := by rw [hF, hk]; rfl
  rw [List.foldlM_append, hF.ok h]
  show List.foldlM F (pre.map fun l => (l, place l)) (k :: post) = _
  rw [List.foldlM_cons, hstep]
  rfl

theorem Ctx.targets_collects (x : Ctx) (f : Nat → Except Stop Place) :
    ∃ F, Collects f F ∧ x.targets f = x.lanes.foldlM F [] := by
  refine ⟨_, fun acc l => ?_, rfl⟩
  cases f l <;> rfl

theorem Ctx.mem_lanes (x : Ctx) (l : Nat) : l ∈ x.lanes ↔ l < 32 ∧ x.act.has l = true := Lanes.mem_toList x.act l

theorem Ctx.targets_ok (h : ∀ l, l < 32 → x.act.has l = true → f l = .ok (place l)) :
    x.targets f = .ok (x.lanes.map fun l => (l, place l)) := by
  obtain ⟨F, hF, he⟩ := x.targets_collects f
  rw [he, hF.ok fun l hl => h l ((x.mem_lanes l).1 hl).1 ((x.mem_lanes l).1 hl).2]
  rfl

/-- The active threads in the order of their lanes, cut at one of them. -/
theorem Ctx.lanes_cut {k : Nat} (hk : k < 32) (ha : x.act.has k = true) :
    ∃ pre post, x.lanes = pre ++ k :: post ∧ ∀ l ∈ pre, l < k ∧ x.act.has l = true := by
  have hmem : k ∈ x.lanes := (x.mem_lanes k).2 ⟨hk, ha⟩
  obtain ⟨pre, post, hcut⟩ := List.append_of_mem hmem
  refine ⟨pre, post, hcut, fun l hl => ⟨?_, ((x.mem_lanes l).1 (hcut ▸ List.mem_append_left _ hl)).2⟩⟩
  have hsorted : x.lanes.Pairwise (· < ·) := List.pairwise_lt_range.filter _
  rw [hcut] at hsorted
  exact (List.pairwise_append.1 hsorted).2.2 l hl k List.mem_cons_self

theorem Ctx.targets_error {k : Nat} {e : Stop} (hk : k < 32) (ha : x.act.has k = true)
    (h : ∀ l, l < k → x.act.has l = true → ∃ p, f l = .ok p) (he : f k = .error e) : x.targets f = .error e := by
  obtain ⟨F, hF, ht⟩ := x.targets_collects f
  obtain ⟨pre, post, hcut, hpre⟩ := x.lanes_cut hk ha
  have hok : ∀ l ∈ pre, f l = .ok ((f l).toOption.getD x.fall) := fun l hl => by
    obtain ⟨p, hp⟩ := h l (hpre l hl).1 (hpre l hl).2
    rw [hp]
    rfl
  rw [ht, hcut, hF.error hok he]

theorem find_map_pair {ls : List Nat} {l : Nat} (h : l ∈ ls) : Tbl.find (ls.map fun l => (l, place l)) l = some (place l) := by
  induction ls with
  | nil => cases h
  | cons q r ih =>
    by_cases hq : q = l
    · subst hq; simp [Tbl.find]
    · have hl : l ∈ r := (List.mem_cons.1 h).resolve_left (Ne.symm hq)
      simpa [Tbl.find, hq] using ih hl

/-- The places of a group depend on its active threads alone. -/
theorem Ctx.places_congr {f g : Nat → Place} (h : ∀ l, l < 32 → x.act.has l = true → f l = g l) : x.places f = x.places g := by
  refine List.map_congr_left fun l hl => ?_
  by_cases ha : x.act.has l = true
  · rw [if_pos ha, if_pos ha, h l ((Lanes.mem_toList _ _).1 hl).1 ha]
  · rw [if_neg ha, if_neg ha]

/-- A transfer whose every target stands is made. -/
theorem Ctx.transfer_ok (edit : Weave → Weave) (h : ∀ l, l < 32 → x.act.has l = true → f l = .ok (place l)) :
    x.transfer f edit = .stay (x.split (x.upd edit) (x.places place)) := by
  have hplaces : x.places (fun l => (Tbl.find (x.lanes.map fun l => (l, place l)) l).getD x.fall) = x.places place :=
    Ctx.places_congr fun l hl ha => by rw [find_map_pair ((x.mem_lanes l).2 ⟨hl, ha⟩)]; rfl
  simp only [Ctx.transfer, Ctx.targets_ok h, hplaces]

/-- The first thread in lane order whose target does not stand stops all. -/
theorem Ctx.transfer_error (edit : Weave → Weave) {k : Nat} {e : Stop} (hk : k < 32) (ha : x.act.has k = true)
    (h : ∀ l, l < k → x.act.has l = true → ∃ p, f l = .ok p) (he : f k = .error e) : x.transfer f edit = x.stopped e := by
  simp only [Ctx.transfer, Ctx.targets_error hk ha h he]

end Targets

/-! ### The group divides (R110, R113) -/

/-- A lane stands in the part of a place where the list says so. -/
theorem lanesAt_has (ps : List (Nat × Place)) (hps : ∀ q ∈ ps, q.1 < 32) (p : Place) (l : Nat) :
    (lanesAt ps p).has l = true ↔ (l, p) ∈ ps := by
  have hone (j : Nat) (hj : j < 32) : (1#32 <<< j).getLsbD l = decide (l = j) := by
    rw [BitVec.getLsbD_shiftLeft, BitVec.getLsbD_one]
    by_cases h : l = j
    · subst h; simp [hj]
    · by_cases hlt : l < j
      · simp [hlt, h]
      · simp [h, show ¬ l - j = 0 by omega]
  have hfold (ps : List (Nat × Place)) (hps : ∀ q ∈ ps, q.1 < 32) (m : Lanes) :
      (ps.foldl (fun (m : Lanes) x => if x.2 = p then m ||| (1#32 <<< x.1) else m) m).getLsbD l = true
        ↔ m.getLsbD l = true ∨ (l, p) ∈ ps := by
    induction ps generalizing m with
    | nil => simp
    | cons q r ih =>
      obtain ⟨j, w⟩ := q
      rw [List.foldl_cons, ih fun q hq => hps q (List.mem_cons_of_mem _ hq)]
      have hj : j < 32 := hps _ List.mem_cons_self
      by_cases hw : w = p
      · subst hw
        rw [if_pos rfl, BitVec.getLsbD_or, hone j hj]
        simp [or_assoc]
      · rw [if_neg hw]
        simp [Ne.symm hw]
  simpa [lanesAt, Lanes.has] using hfold ps hps 0

/-- The parts into which the issuing group divides; the first keeps its name, the others are named from `base` on. -/
def Ctx.partsOf (x : Ctx) (base : Nat) (ps : List (Nat × Place)) : List Group :=
  (ps.map (·.2)).eraseDups.zipIdx.map fun (p, i) =>
    { x.g with
      gid := if i = 0 then x.g.gid else base + i, lanes := lanesAt ps p, pc := p.pc, pos := p.pos, run := p.run
      progress := p.progress, sleep := .awake, port := false, latch := none }

/-- The weave in which the issuing group has divided. -/
def Ctx.divided (x : Ctx) (base : Nat) (ps : List (Nat × Place)) (w : Weave) : Weave :=
  { w with groups := w.groups.flatMap fun g => if g.gid = x.g.gid then x.partsOf base ps else [g] }

theorem Ctx.split_eq (x : Ctx) (s : State) (ps : List (Nat × Place)) : ∃ n,
    x.split s ps = ({ s with nextId := n } : State).updWeave x.e.wid (x.divided s.nextId ps) := ⟨_, rfl⟩

theorem Ctx.mem_partsOf {x : Ctx} {base : Nat} {ps : List (Nat × Place)} {q : Group} (h : q ∈ x.partsOf base ps) :
    ∃ p, q.lanes = lanesAt ps p ∧ q.pc = p.pc ∧ q.pos = p.pos ∧ q.run = p.run ∧ q.progress = p.progress ∧ q.sleep = .awake := by
  obtain ⟨⟨p, i⟩, -, rfl⟩ := List.mem_map.1 h
  exact ⟨p, rfl, rfl, rfl, rfl, rfl, rfl⟩

theorem Ctx.exists_part {x : Ctx} (base : Nat) {ps : List (Nat × Place)} {l : Nat} {p : Place} (h : (l, p) ∈ ps) :
    ∃ q ∈ x.partsOf base ps, q.lanes = lanesAt ps p ∧ q.pc = p.pc ∧ q.pos = p.pos ∧ q.run = p.run ∧ q.progress = p.progress
      ∧ q.sleep = .awake := by
  have hp : p ∈ (ps.map (·.2)).eraseDups := List.mem_eraseDups.2 (List.mem_map.2 ⟨_, h, rfl⟩)
  obtain ⟨i, hi, hget⟩ := List.mem_iff_getElem.1 hp
  have hz : (p, i) ∈ (ps.map (·.2)).eraseDups.zipIdx := by
    rw [List.mem_zipIdx_iff_getElem?]
    simp [hi, hget]
  exact ⟨_, List.mem_map.2 ⟨_, hz, rfl⟩, rfl, rfl, rfl, rfl, rfl, rfl⟩

theorem Ctx.mem_places {x : Ctx} {f : Nat → Place} {q : Nat × Place} :
    q ∈ x.places f ↔ (q.1 < 32 ∧ x.g.lanes.has q.1 = true) ∧ q.2 = if x.act.has q.1 then f q.1 else x.fall := by
  obtain ⟨l, p⟩ := q
  refine List.mem_map.trans ⟨?_, ?_⟩
  · rintro ⟨j, hj, heq⟩
    cases heq
    exact ⟨(Lanes.mem_toList _ _).1 hj, rfl⟩
  · rintro ⟨hl, hp⟩
    exact ⟨l, (Lanes.mem_toList _ _).2 hl, Prod.ext rfl hp.symm⟩

/-- Active threads are threads of the group (R110). -/
theorem State.ctx_act {s : State} {i : Instr} {x : Ctx} (h : s.ctx i = some x) {l : Nat} (ha : x.act.has l = true) :
    x.g.lanes.has l = true := by
  obtain ⟨-, -, -, hact⟩ := State.ctx_some h
  rw [hact, Lanes.has, Weave.active, ofFn_bit] at ha
  simp only [Bool.and_eq_true] at ha
  exact ha.2.1

section Divided

variable {s : State} {i : Instr} {x : Ctx} {f : Nat → Place} {base : Nat}

theorem Ctx.mem_divided {w : Weave} {ps : List (Nat × Place)} {q : Group} : q ∈ (x.divided base ps w).groups ↔
    ∃ g ∈ w.groups, q ∈ if g.gid = x.g.gid then x.partsOf base ps else [g] := List.mem_flatMap

/-- The groups of a weave whose group has divided: those of before, and parts of it. -/
theorem Ctx.divided_only {w : Weave} {q : Group} (h : q ∈ (x.divided base (x.places f) w).groups) :
    q ∈ w.groups ∨ q.lanes &&& ~~~x.g.lanes = 0 ∧ q.sleep = .awake := by
  obtain ⟨g, hg, hq⟩ := Ctx.mem_divided.1 h
  split at hq
  · obtain ⟨p, hl, -, -, -, -, hawake⟩ := Ctx.mem_partsOf hq
    refine .inr ⟨BitVec.eq_of_getLsbD_eq fun l hlt => ?_, hawake⟩
    have hsub : q.lanes.getLsbD l = true → x.g.lanes.getLsbD l = true := fun hb => by
      rw [hl] at hb
      exact (Ctx.mem_places.1 ((lanesAt_has _ (fun q hq => (Ctx.mem_places.1 hq).1.1) p l).1 hb)).1.2
    rw [BitVec.getLsbD_and, BitVec.getLsbD_not]
    cases hb : q.lanes.getLsbD l with
    | false => simp
    | true => simp [hsub hb]
  · rw [List.mem_singleton] at hq
    exact .inl (hq ▸ hg)

/-- A thread of the group that divides stands at its place. -/
theorem Ctx.divided_moved {w : Weave} {g : Group} (hg : g ∈ w.groups) (hgid : g.gid = x.g.gid) {l : Nat} (hl : l < 32)
    (hlane : x.g.lanes.has l = true) :
    ∃ q ∈ (x.divided base (x.places f) w).groups, q.lanes.has l = true
      ∧ (let p := if x.act.has l then f l else x.fall
        q.pc = p.pc ∧ q.pos = p.pos ∧ q.run = p.run ∧ q.progress = p.progress) ∧ q.sleep = .awake := by
  have hmem : (l, if x.act.has l then f l else x.fall) ∈ x.places f := Ctx.mem_places.2 ⟨⟨hl, hlane⟩, rfl⟩
  obtain ⟨q, hq, hlanes, hpc, hpos, hrun, hprog, hawake⟩ := Ctx.exists_part (x := x) base hmem
  refine ⟨q, Ctx.mem_divided.2 ⟨g, hg, by rwa [if_pos hgid]⟩, ?_, ⟨hpc, hpos, hrun, hprog⟩, hawake⟩
  rw [hlanes]
  exact (lanesAt_has _ (fun q hq => (Ctx.mem_places.1 hq).1.1) _ l).2 hmem

/-- An edit of a weave that changes frames and loop levels alone. -/
def KeepsGroups (edit : Weave → Weave) : Prop :=
  ∀ w, edit w = { w with frames := (edit w).frames, loops := (edit w).loops }

/-- The issuing group among those of its weave. -/
theorem State.ctx_group (h : s.ctx i = some x) : x.g ∈ x.w.groups ∧ x.g.gid = x.c.gid := by
  obtain ⟨-, -, hg⟩ := State.issuer_some (State.ctx_some h).1
  exact ⟨List.mem_of_find?_eq_some hg, Weave.group_gid hg⟩

/-- The weave of the issuing group, once it has divided. -/
theorem Ctx.split_weave (h : s.ctx i = some x) {u : State} {w : Weave} (hu : u.weave x.c.weave = some w)
    (ps : List (Nat × Place)) : (x.split u ps).weave x.c.weave = some (x.divided u.nextId ps w) := by
  obtain ⟨-, hwid, -⟩ := State.ctx_weave h
  obtain ⟨n, hn⟩ := x.split_eq u ps
  have hw : ({ u with nextId := n } : State).weave x.c.weave = some w := hu
  rw [hn, State.weave_updWeave, if_pos hwid.symm, hwid, hw]
  rfl

theorem Ctx.upd_weave (h : s.ctx i = some x) (edit : Weave → Weave) : (x.upd edit).weave x.c.weave = some (edit x.w) := by
  obtain ⟨rfl, -, hw⟩ := State.ctx_weave h
  exact (State.weave_updWeave ..).trans (by rw [if_pos rfl, hw]; rfl)

/-- A transfer moves the threads of the issuing group and nothing else. -/
theorem Ctx.split_moves (h : s.ctx i = some x) {edit : Weave → Weave} (hedit : KeepsGroups edit) (f : Nat → Place) :
    x.Moves (x.split (x.upd edit) (x.places f)) (x.divided s.nextId (x.places f) (edit x.w))
      (fun l => if x.act.has l then f l else x.after) := by
  obtain ⟨hs, hwid, -⟩ := State.ctx_weave h
  obtain ⟨hg, -⟩ := State.ctx_group h
  obtain ⟨n, hn⟩ := x.split_eq (x.upd edit) (x.places f)
  have hgroups : (edit x.w).groups = x.w.groups := by rw [hedit x.w]
  refine ⟨?_, fun _ => by rw [hn]; rfl, fun m hm => ?_, ?_, ?_, fun l hl hlane => ?_, fun q hq hne => ?_,
    fun q hq => ?_⟩
  · rw [hn]; rfl
  · rw [hn, State.weave_updWeave, if_neg (hwid ▸ hm)]
    exact (State.weave_updWeave ..).trans (if_neg hm)
  · rw [Ctx.split_weave h (Ctx.upd_weave h edit), Ctx.upd, hs]; rfl
  · rw [Ctx.divided, hedit x.w]
  · obtain ⟨q, hq, hlanes, ⟨hpc, hpos, hrun, hprog⟩, hawake⟩ :=
      Ctx.divided_moved (f := f) (base := s.nextId) (hgroups ▸ hg) rfl hl hlane
    exact ⟨q, hq, hlanes, hpc, hpos, hrun, hprog, hawake⟩
  · exact Ctx.mem_divided.2 ⟨q, hgroups ▸ hq, by rw [if_neg hne]; exact List.mem_singleton.2 rfl⟩
  · rcases Ctx.divided_only hq with hq | ⟨hlanes, -⟩
    · exact .inl (hgroups ▸ hq)
    · exact .inr hlanes

end Divided

end Sys2Proof.Machine
end

section
/-! BRA, BRX, CALL, RET and EXIT (R256, R314–R316, R318–R321): the statement about them. -/

namespace Sys2Proof.Machine

open Sys2Proof

/-! ### Edits of each active thread -/

theorem keepsGroups_id : KeepsGroups id := fun _ => rfl

/-- Edits of single threads leave what each of them leaves. -/
theorem keepsGroups_eachLane (x : Ctx) {g : Weave → Nat → Weave} (hg : ∀ l, KeepsGroups fun w => g w l) :
    KeepsGroups (x.eachLane g) := by
  intro w
  unfold Ctx.eachLane
  induction x.lanes generalizing w with
  | nil => rfl
  | cons l r ih =>
    have hl : g w l = { w with frames := (g w l).frames, loops := (g w l).loops } := hg l w
    rw [List.foldl_cons, ih (g w l), hl]

/-- What an edit of single threads makes of a thread: `get` reads it, and no edit of another thread changes it. -/
theorem Ctx.eachLane_get {α : Type} (x : Ctx) {g : Weave → Nat → Weave} {get : Weave → α} {F : α → α} {l : Nat} (hl : l < 32)
    (hsame : ∀ w, get (g w l) = F (get w)) (hother : ∀ w j, j ≠ l → get (g w j) = get w) (w : Weave) :
    get (x.eachLane g w) = if x.act.has l then F (get w) else get w := by
  have hfold (ns : List Nat) (hd : ns.Nodup) (w : Weave) : get (ns.foldl g w) = if l ∈ ns then F (get w) else get w := by
    induction ns generalizing w with
    | nil => rfl
    | cons n r ih =>
      obtain ⟨hn, hr⟩ := List.nodup_cons.1 hd
      rw [List.foldl_cons, ih hr]
      by_cases h : n = l
      · subst h; simp [hn, hsame]
      · simp [Ne.symm h, hother w n h]
  have hmem : l ∈ x.lanes ↔ x.act.has l = true := by simp [x.mem_lanes, hl]
  exact (hfold x.lanes (Lanes.toList_nodup x.act) w).trans (if_congr hmem rfl rfl)

/-- Frames of the active threads, each changed alike. -/
def framesBy (F : List Frame → List Frame) (w : Weave) (l : Nat) : Weave := w.setFrame l (F (w.frame l))

theorem keepsGroups_framesBy (x : Ctx) (F : List Frame → List Frame) : KeepsGroups (x.eachLane (framesBy F)) :=
  keepsGroups_eachLane x fun _ _ => rfl

theorem Ctx.frame_framesBy (x : Ctx) (F : List Frame → List Frame) {l : Nat} (hl : l < 32) (w : Weave) :
    (x.eachLane (framesBy F) w).frame l = if x.act.has l then F (w.frame l) else w.frame l := by
  refine x.eachLane_get (get := fun w => w.frame l) hl (fun w => ?_) (fun w j hj => ?_) w
  · exact (Weave.frame_setFrame ..).trans (if_pos rfl)
  · exact (Weave.frame_setFrame ..).trans (if_neg (Ne.symm hj))

theorem Ctx.loops_framesBy (x : Ctx) (F : List Frame → List Frame) (w : Weave) :
    (x.eachLane (framesBy F) w).loops = w.loops :=
  Weave.foldl_keep x.lanes (framesBy F) Weave.loops (fun _ _ => rfl) w

/-! ### A transfer as a whole -/

section Transfer

variable {st : State} {i : Instr} {x : Ctx} {body : Ctx → Res} {f : Nat → Except Stop Place} {edit : Weave → Weave}
  {place : Nat → Place}

theorem Ctx.moves_of_transfer (hi : st.Issues i x) (he : exec i st = issue i st body) (hb : body x = x.transfer f edit)
    (hedit : KeepsGroups edit) (h : ∀ l, l < 32 → x.act.has l = true → f l = .ok (place l)) :
    ∃ t w, exec i st = .next t ∧ x.Moves t w (fun l => if x.act.has l then place l else x.after)
      ∧ w.frames = (edit x.w).frames ∧ w.loops = (edit x.w).loops :=
  ⟨_, _, by rw [hi.exec_eq he, hb, Ctx.transfer_ok edit h]; rfl, Ctx.split_moves hi.1 hedit place, rfl, rfl⟩

theorem Ctx.traps_of_transfer (hi : st.Issues i x) (he : exec i st = issue i st body) (hb : body x = x.transfer f edit)
    {k : Nat} {lane : Option Nat} (hk : k < 32) (ha : x.act.has k = true)
    (h : ∀ l, l < k → x.act.has l = true → ∃ p, f l = .ok p) (hf : f k = .error (.branch lane)) :
    x.Traps i { Trap.plain .branchTarget 0 with lane := lane } :=
  Ctx.traps_of_entry hi he (hb.trans (Ctx.transfer_error edit hk ha h hf))

end Transfer

/-! ### Places -/

section Places

variable {x : Ctx} {l : Nat} {own : Option Nat} {a b : Int}

theorem Ctx.header_place (h : x.HeaderAt l a) :
    (x.target l own false a).map Place.header = .ok (Place.header (BitVec.ofNat 64 a.toNat)) := by
  rw [Ctx.target_header h]; rfl

theorem Ctx.no_header_place (h : x.NoHeaderAt l false a) :
    (x.target l own false a).map Place.header = .error (.branch own) := by
  rw [Ctx.target_none h]; rfl

theorem Ctx.fills_header_place (h : x.FillsTo l a b) (hb : x.HeaderAt l b) :
    (x.target l own true a).map Place.header = .ok (Place.header (BitVec.ofNat 64 b.toNat)) := by
  rw [Ctx.target_fills_header h hb]; rfl

theorem Ctx.fills_no_header_place (h : x.FillsTo l a b) (hb : x.NoHeaderAt l true b) :
    (x.target l own true a).map Place.header = .error (.branch own) := by
  rw [Ctx.target_fills_none h hb]; rfl

/-- Where CALL takes a thread (R316). -/
def Ctx.callPlace (x : Ctx) (imm : W32) (l : Nat) : Except Stop Place := do
  let a ← x.target l none false (x.relative imm)
  if (x.w.frame l).length ≥ 7 then .error (.branch (some l)) else .ok (Place.header a)

theorem Ctx.callPlace_ok {imm : W32} (h : x.HeaderAt l (x.relative imm)) (hroom : (x.w.frame l).length < 7) :
    x.callPlace imm l = .ok (Place.header (BitVec.ofNat 64 (x.relative imm).toNat)) := by
  rw [Ctx.callPlace, Ctx.target_header h]
  exact if_neg (by omega)

theorem Ctx.callPlace_none {imm : W32} (h : x.NoHeaderAt l false (x.relative imm)) :
    x.callPlace imm l = .error (.branch none) := by
  rw [Ctx.callPlace, Ctx.target_none h]; rfl

theorem Ctx.callPlace_full {imm : W32} (h : x.HeaderAt l (x.relative imm)) (hroom : ¬ (x.w.frame l).length < 7) :
    x.callPlace imm l = .error (.branch (some l)) := by
  rw [Ctx.callPlace, Ctx.target_header h]
  exact if_pos (by omega)

/-- A return pops a call frame, whose address is followed over FILL words, or a trap frame (R256, R320). -/
def Ctx.ReturnsTo (x : Ctx) (place : Nat → Place) (l : Nat) : Prop :=
  (∃ a b r, x.w.frame l = .call a :: r ∧ x.FillsTo l a.toNat b ∧ x.HeaderAt l b
      ∧ place l = Place.header (BitVec.ofNat 64 b.toNat))
    ∨ ∃ pc pos run n r, x.w.frame l = .trap pc pos run n :: r
      ∧ place l = { pc := pc, pos := pos, run := { run with vl := [] }, progress := n }

theorem Ctx.retPlace_ok {place : Nat → Place} (h : x.ReturnsTo place l) : x.retPlace l = .ok (place l) := by
  rcases h with ⟨a, b, r, hf, hfill, hb, hp⟩ | ⟨pc, pos, run, n, r, hf, hp⟩
  · rw [Ctx.retPlace, hf, hp]
    exact Ctx.fills_header_place hfill hb
  · rw [Ctx.retPlace, hf, hp]
    rfl

theorem Ctx.retPlace_error (h : x.w.frame l = [] ∨ ∃ a b r, x.w.frame l = .call a :: r ∧ x.FillsTo l a.toNat b
    ∧ x.NoHeaderAt l true b) : x.retPlace l = .error (.branch (some l)) := by
  rcases h with hf | ⟨a, b, r, hf, hfill, hb⟩
  · rw [Ctx.retPlace, hf]
  · rw [Ctx.retPlace, hf]
    exact Ctx.fills_no_header_place hfill hb

end Places

/-! ### Groups that wait with a trap (R255) -/

/-- No group of a weave waits with a trap that it has not taken. -/
def Weave.NoneWaits (w : Weave) : Prop := ∀ g ∈ w.groups, ∀ a n b t, g.sleep ≠ .handler a n b t

theorem Weave.releaseHandler_of_noneWaits {w : Weave} (h : w.NoneWaits) (lr : LaunchRec) : w.releaseHandler lr = w := by
  unfold Weave.releaseHandler
  split
  · rfl
  split
  · next g a n b t hfind =>
    obtain ⟨q, hq, hsleep⟩ := List.exists_of_findSome?_eq_some hfind
    split at hsleep
    · next hs => exact absurd hs (h q hq _ _ _ _)
    · cases hsleep
  · rfl

theorem Weave.NoneWaits.endLanes {w : Weave} (h : w.NoneWaits) (ls : Lanes) : (w.endLanes ls).NoneWaits := by
  intro g hg
  obtain ⟨q, hq, rfl⟩ := List.mem_map.1 (List.mem_of_mem_filter hg)
  exact h q hq

/-- The threads of a group that divides are awake. -/
theorem Ctx.divided_noneWaits {x : Ctx} {w : Weave} (h : w.NoneWaits) (base : Nat) (f : Nat → Place) :
    (x.divided base (x.places f) w).NoneWaits := by
  intro g hg a n b t
  rcases Ctx.divided_only hg with hg | ⟨-, hawake⟩
  · exact h g hg a n b t
  · rw [hawake]; exact fun h => by cases h

/-- A change that leaves the issuing weave as it is makes no difference to where its threads have gone. -/
theorem Ctx.Moves.updWeave {x : Ctx} {t : State} {w : Weave} {place : Nat → Place} (h : x.Moves t w place) {f : Weave → Weave}
    (hf : f w = w) : x.Moves (t.updWeave x.c.weave f) w place := by
  refine ⟨?_, h.memory, fun n hn => ?_, ?_, h.regs, h.moved, h.kept, h.only⟩
  · have hrest := h.rest
    calc t.updWeave x.c.weave f = { t with weaves := (t.updWeave x.c.weave f).weaves } := rfl
      _ = _ := by rw [hrest]; rfl
  · exact (State.weave_updWeave ..).trans ((if_neg hn).trans (h.others n hn))
  · rw [State.weave_updWeave, if_pos rfl, h.here, Option.map_some, hf]

section Returns

variable {st : State} {x : Ctx} {h : Hd}

/-- RET with every frame good (R256, R320). -/
theorem Ctx.moves_of_ret {place : Nat → Place} (hnone : x.w.NoneWaits) (hi : st.Issues (.ret h) x)
    (hret : ∀ l, l < 32 → x.act.has l = true → x.ReturnsTo place l) : ∃ t w, exec (.ret h) st = .next t
      ∧ x.Moves t w (fun l => if x.act.has l then place l else x.after) ∧ w.loops = x.w.loops
      ∧ ∀ l, l < 32 → w.frame l = if x.act.has l then (x.w.frame l).tail else x.w.frame l := by
  obtain ⟨-, hwid, -⟩ := State.ctx_weave hi.1
  have hkeep := keepsGroups_framesBy x List.tail
  have hmoves := Ctx.split_moves hi.1 hkeep place
  have hgroups : (x.eachLane (framesBy List.tail) x.w).groups = x.w.groups := by rw [hkeep x.w]
  have hwaits : (x.eachLane (framesBy List.tail) x.w).NoneWaits := by rw [Weave.NoneWaits, hgroups]; exact hnone
  have htransfer := Ctx.transfer_ok (x.eachLane (framesBy List.tail)) fun l hl ha => Ctx.retPlace_ok (hret l hl ha)
  have hexec : exec (.ret h) st = .next ((x.split (x.upd (x.eachLane (framesBy List.tail))) (x.places place)).updWeave
      x.c.weave fun w => w.releaseHandler x.e.f.lr) := by
    refine (hi.exec_eq (exec_ret h st)).trans ?_
    rw [← hwid]
    show Host.Outcome.next (Res.apply (match x.transfer x.retPlace (x.eachLane (framesBy List.tail)) with
      | .stay s => .stay (s.updWeave x.e.wid fun w => w.releaseHandler x.e.f.lr)
      | r => r) x (.ret h)) = _
    rw [htransfer]
    rfl
  refine ⟨_, _, hexec, hmoves.updWeave (Weave.releaseHandler_of_noneWaits (Ctx.divided_noneWaits hwaits _ _) _),
    x.loops_framesBy _ _, fun l hl => x.frame_framesBy _ hl _⟩

/-- RET that some thread cannot make. -/
theorem Ctx.traps_of_ret {place : Nat → Place} {k : Nat} (hk : k < 32) (ha : x.act.has k = true) (hi : st.Issues (.ret h) x)
    (hret : ∀ l, l < k → x.act.has l = true → x.ReturnsTo place l) (hstop : x.retPlace k = .error (.branch (some k))) :
    x.Traps (.ret h) { Trap.plain .branchTarget 0 with lane := some k } := by
  refine Ctx.traps_of_entry hi (exec_ret h st) ?_
  show (match x.transfer x.retPlace (x.eachLane (framesBy List.tail)) with
      | .stay s => Res.stay (s.updWeave x.e.wid fun w => w.releaseHandler x.e.f.lr)
      | r => r) = _
  rw [Ctx.transfer_error _ hk ha (fun l hl hla => ⟨_, Ctx.retPlace_ok (hret l hl hla)⟩) hstop]
  rfl

end Returns

/-! ### EXIT (R123, R321) -/

section Exit

variable {st : State} {i : Instr} {x : Ctx}

/-- The field of a weave depends on its team, cohort and field alone. -/
theorem State.env_of_weave {s t : State} {wid : Nat} {e : Env} {w : Weave} (he : s.env wid = some e) (hw : t.weave wid = some w)
    (hteam : w.team = e.w.team) (ht : t.teams = s.teams) (hc : t.cohorts = s.cohorts) (hf : t.fields = s.fields) :
    t.env wid = some { e with w := w } := by
  obtain ⟨h1, -, h3, h4, h5, h6, h7, h8⟩ := State.env_some he
  have hteam' : t.team w.team = some e.t := by rw [hteam, ← h3, State.team, ht]; exact h4
  have hcoh : t.cohort e.t.cohort = some e.c := by rw [← h5, State.cohort, hc]; exact h6
  have hfld : t.field e.c.field = some e.f := by rw [← h7, State.field, hf]; exact h8
  simp only [State.env, hw, hteam', hcoh, hfld]
  rw [hteam, h1, h3, h5, h7]

/-- EXIT ends the active threads, and the others go on behind it. -/
theorem Ctx.exit_ends (hctx : st.ctx i = some x) (hnone : x.w.NoneWaits) :
    let t := (x.split x.s (x.places fun _ => x.fall)).exitThreads x.e.wid x.act
    ∃ w, t = { st with weaves := t.weaves, nextId := t.nextId } ∧ (∀ n, n ≠ x.c.weave → t.weave n = st.weave n)
      ∧ t.weave x.c.weave = some w ∧ w.live = x.w.live &&& ~~~x.act ∧ w.v = x.w.v ∧ w.s = x.w.s ∧ w.p = x.w.p ∧ w.k = x.w.k
      ∧ (∀ l, l < 32 → x.act.has l = true → (∀ g ∈ w.groups, g.lanes.has l = false) ∧ w.frame l = [])
      ∧ ∀ l, l < 32 → x.g.lanes.has l = true → x.act.has l = false → ∃ q ∈ w.groups, q.lanes.has l = true
        ∧ q.pc = x.after.pc ∧ q.pos = .between := by
  obtain ⟨hs, hwid, hw⟩ := State.ctx_weave hctx
  obtain ⟨-, he, -⟩ := State.issuer_some (State.ctx_some hctx).1
  obtain ⟨hg, -⟩ := State.ctx_group hctx
  obtain ⟨n, hn⟩ := x.split_eq x.s (x.places fun _ => x.fall)
  have hsplit := Ctx.split_weave hctx (u := x.s) (hs ▸ hw) (x.places fun _ => x.fall)
  have henv : (x.split x.s (x.places fun _ => x.fall)).env x.c.weave
      = some { x.e with w := x.divided x.s.nextId (x.places fun _ => x.fall) x.w } :=
    State.env_of_weave (s := x.s) (hs ▸ he) hsplit rfl (by rw [hn]; rfl) (by rw [hn]; rfl) (by rw [hn]; rfl)
  have hwaits := (Ctx.divided_noneWaits (x := x) hnone x.s.nextId fun _ => x.fall).endLanes x.act
  have hexit : (x.split x.s (x.places fun _ => x.fall)).exitThreads x.e.wid x.act
      = (x.split x.s (x.places fun _ => x.fall)).updWeave x.c.weave fun w =>
        (w.endLanes x.act).releaseHandler x.e.f.lr := by
    rw [hwid]; simp only [State.exitThreads, henv]
  dsimp only
  rw [hexit]
  refine ⟨(x.divided x.s.nextId (x.places fun _ => x.fall) x.w).endLanes x.act, ?_, fun m hm => ?_, ?_, rfl, rfl, rfl, rfl, rfl,
    fun l hl ha => ⟨fun g hgm => ?_, Weave.frame_endLanes _ ha⟩, fun l hl hlane hna => ?_⟩
  · rw [hn, hs]; rfl
  · rw [State.weave_updWeave, if_neg hm, hn, State.weave_updWeave, if_neg (hwid ▸ hm), hs]; rfl
  · rw [State.weave_updWeave, if_pos rfl, hsplit, Option.map_some, Weave.releaseHandler_of_noneWaits hwaits]
  · have hzero := congrArg (fun m => BitVec.getLsbD m l) (Weave.endLanes_groups _ _ g hgm).1
    simpa [BitVec.getLsbD_and, show x.act.getLsbD l = true from ha, Lanes.has] using hzero
  · obtain ⟨q, hq, hql, ⟨hpc, hpos, -, -⟩, -⟩ := Ctx.divided_moved (f := fun _ => x.fall) (base := x.s.nextId) hg rfl hl hlane
    have hstays : (lanesMinus q.lanes x.act).has l = true := by
      rw [Lanes.has] at hql
      rw [lanesMinus, Lanes.has, BitVec.getLsbD_and, BitVec.getLsbD_not, hql, show x.act.getLsbD l = false from hna,
        decide_eq_true hl]
      rfl
    have hne : lanesMinus q.lanes x.act ≠ 0 := Lanes.ne_zero_of_has hstays
    refine ⟨{ q with lanes := lanesMinus q.lanes x.act },
      List.mem_filter.2 ⟨List.mem_map.2 ⟨q, hq, rfl⟩, by simpa using hne⟩, hstays, ?_, ?_⟩
    · simp only [hna] at hpc; exact hpc
    · simp only [hna] at hpos; exact hpos

end Exit

/-! ### The statement -/

/-- Settles O21: each instruction is a transfer; what is said of its threads is what the search for a header at their targets
answers. -/
theorem controlTransfers : Obligations.ControlTransfers := by
  refine ⟨fun h imm n st x => ⟨fun hi hall => ?_, fun k hk ha => ⟨fun hi hb hk' => ?_, fun hi hb hk' => ?_,
    fun hi hb hroom => ⟨fun hk' => ?_, fun hk' hfull => ?_⟩⟩, fun hi hall => ?_, fun hi hall hroom => ?_⟩,
    fun h st x => ⟨fun place k hk ha hi hb hstop => ?_, fun hnone => ⟨fun place hi hall => ?_, fun hi => ?_⟩⟩⟩
  · exact Ctx.moves_of_transfer hi (exec_bra h imm st) rfl keepsGroups_id fun l hl ha => Ctx.header_place (hall l hl ha)
  · exact Ctx.traps_of_transfer hi (exec_bra h imm st) rfl hk ha (fun l hl hla => ⟨_, Ctx.header_place (hb l hl hla)⟩)
      (Ctx.no_header_place hk')
  · exact Ctx.traps_of_transfer hi (exec_brx h n st) rfl hk ha (fun l hl hla => ⟨_, Ctx.header_place (hb l hl hla)⟩)
      (Ctx.no_header_place hk')
  · exact Ctx.traps_of_transfer (f := x.callPlace imm) hi (exec_call h imm st) rfl hk ha
      (fun l hl hla => ⟨_, Ctx.callPlace_ok (hb l hl hla) (hroom l hl hla)⟩) (Ctx.callPlace_none hk')
  · exact Ctx.traps_of_transfer (f := x.callPlace imm) hi (exec_call h imm st) rfl hk ha
      (fun l hl hla => ⟨_, Ctx.callPlace_ok (hb l hl hla) (hroom l hl hla)⟩) (Ctx.callPlace_full hk' hfull)
  · exact Ctx.moves_of_transfer hi (exec_brx h n st) rfl keepsGroups_id fun l hl ha => Ctx.header_place (hall l hl ha)
  · obtain ⟨t, w, hexec, hmoves, hframes, hloops⟩ := Ctx.moves_of_transfer (f := x.callPlace imm) hi (exec_call h imm st) rfl
      (keepsGroups_framesBy x (.call (x.c.addr + 12) :: ·)) fun l hl ha => Ctx.callPlace_ok (hall l hl ha) (hroom l hl ha)
    refine ⟨t, w, hexec, hmoves, hloops.trans (x.loops_framesBy _ _), fun l hl => ?_⟩
    rw [Weave.frame, hframes]
    exact x.frame_framesBy _ hl _
  · exact Ctx.traps_of_ret hk ha hi hb (Ctx.retPlace_error hstop)
  · exact Ctx.moves_of_ret hnone hi hall
  · obtain ⟨w, hw⟩ := Ctx.exit_ends hi.1 hnone
    exact ⟨_, w, hi.exec_eq (exec_exit h st), hw⟩

end Sys2Proof.Machine
end

section
/-! LOOP and LBRK (R322–R324): the levels of a thread, and the statement about them. -/

namespace Sys2Proof.Machine

open Sys2Proof

/-! ### Levels -/

theorem Weave.loop_setLoop (w : Weave) {v u : Nat} (hv : v < 4) (hu : u < 4) (l j : Nat) (o : Option Loop) :
    (w.setLoop l v o).loop j u = if j = l ∧ u = v then o else w.loop j u := by
  have hkey : j * 4 + u = l * 4 + v ↔ j = l ∧ u = v := by omega
  cases o with
  | some y => exact (Tbl.find_put w.loops (l * 4 + v) y (j * 4 + u)).trans (if_congr hkey rfl rfl)
  | none => exact (Tbl.find_del w.loops (l * 4 + v) (j * 4 + u)).trans (if_congr hkey rfl rfl)

theorem keepsGroups_setLoop (l v : Nat) (o : Option Loop) : KeepsGroups fun w => w.setLoop l v o := by
  intro w
  cases o <;> rfl

theorem Weave.frames_setLoop (w : Weave) (l v : Nat) (o : Option Loop) : (w.setLoop l v o).frames = w.frames := by
  cases o <;> rfl

/-- A level around one that opens notes it (R323). -/
def Loop.note (lvl : Nat) (y : Loop) : Loop := { y with inner := y.inner ||| (1#4 <<< lvl) }

/-- A step that lets one level of a thread note another. -/
structure Notes (l lvl : Nat) (F : Weave → Nat → Weave) : Prop where
  loop : ∀ w v, v < 4 → ∀ j u, u < 4 → (F w v).loop j u
    = if j = l ∧ u = v ∧ v ≠ lvl then (w.loop j u).map (Loop.note lvl) else w.loop j u
  keeps : ∀ w v, F w v = { w with loops := (F w v).loops }

theorem Notes.foldl {l lvl : Nat} {F : Weave → Nat → Weave} (hF : Notes l lvl F) {ns : List Nat} (hns : ∀ v ∈ ns, v < 4)
    (hd : ns.Nodup) (w : Weave) {u : Nat} (hu : u < 4) (j : Nat) : (ns.foldl F w).loop j u
      = if j = l ∧ u ∈ ns ∧ u ≠ lvl then (w.loop j u).map (Loop.note lvl) else w.loop j u := by
  induction ns generalizing w with
  | nil => simp
  | cons v r ih =>
    obtain ⟨hv, hr⟩ := List.nodup_cons.1 hd
    rw [List.foldl_cons, ih (fun v h => hns v (List.mem_cons_of_mem _ h)) hr, hF.loop _ _ (hns v List.mem_cons_self) _ _ hu]
    by_cases h : u = v
    · subst h; simp [hv]
    · simp [h]

theorem Notes.foldl_keeps {l lvl : Nat} {F : Weave → Nat → Weave} (hF : Notes l lvl F) (ns : List Nat) (w : Weave) :
    ns.foldl F w = { w with loops := (ns.foldl F w).loops } := by
  induction ns generalizing w with
  | nil => rfl
  | cons v r ih =>
    have hv := hF.keeps w v
    rw [List.foldl_cons, ih (F w v), hv]

/-- LOOP .beg lets the other levels note the new one, then opens it. -/
theorem Weave.openLoop_notes (l lvl : Nat) (x : Loop) : ∃ F, Notes l lvl F
    ∧ ∀ w : Weave, w.openLoop l lvl x = ([0, 1, 2, 3].foldl F w).setLoop l lvl (some x) := by
  refine ⟨_, ⟨fun w v hv j u hu => ?_, fun w v => ?_⟩, fun w => rfl⟩
  · cases hloop : w.loop l v with
    | none =>
      by_cases h : j = l ∧ u = v ∧ v ≠ lvl
      · obtain ⟨rfl, rfl, -⟩ := h; simp [hloop]
      · simp [h]
    | some y =>
      by_cases hvl : v = lvl
      · simp [hvl]
      · simp only [if_neg hvl]
        rw [Weave.loop_setLoop _ hv hu]
        by_cases h : j = l ∧ u = v
        · obtain ⟨rfl, rfl⟩ := h; simp [hloop, hvl, Loop.note]
        · rw [if_neg h, if_neg fun h' => h ⟨h'.1, h'.2.1⟩]
  · cases w.loop l v with
    | none => rfl
    | some y =>
      by_cases hvl : v = lvl
      · simp [hvl]
      · simp only [if_neg hvl]; rfl

/-- The levels after a LOOP .beg of a thread. -/
theorem Weave.loop_openLoop (w : Weave) {l lvl u : Nat} (hlvl : lvl < 4) (hu : u < 4) (x : Loop) (j : Nat) :
    (w.openLoop l lvl x).loop j u = if j = l then (if u = lvl then some x else (w.loop j u).map (Loop.note lvl))
      else w.loop j u := by
  obtain ⟨F, hF, hopen⟩ := Weave.openLoop_notes l lvl x
  have hmem : u ∈ [0, 1, 2, 3] := by simp; omega
  rw [hopen, Weave.loop_setLoop _ hlvl hu, hF.foldl (by simp) (by decide) w hu]
  by_cases hj : j = l
  · by_cases hul : u = lvl
    · simp [hj, hul]
    · rw [if_neg fun h => hul h.2, if_pos ⟨hj, hmem, hul⟩, if_pos hj, if_neg hul]
  · simp [hj]

theorem Weave.openLoop_keeps (w : Weave) (l lvl : Nat) (x : Loop) :
    w.openLoop l lvl x = { w with loops := (w.openLoop l lvl x).loops } := by
  obtain ⟨F, hF, hopen⟩ := Weave.openLoop_notes l lvl x
  rw [hopen, hF.foldl_keeps]
  rfl

/-- Edits of the levels alone, one thread after another. -/
theorem Ctx.eachLane_loops (x : Ctx) {g : Weave → Nat → Weave} (hg : ∀ w l, g w l = { w with loops := (g w l).loops })
    (w : Weave) : x.eachLane g w = { w with loops := (x.eachLane g w).loops } := by
  unfold Ctx.eachLane
  induction x.lanes generalizing w with
  | nil => rfl
  | cons l r ih =>
    have hl := hg w l
    rw [List.foldl_cons, ih (g w l), hl]

/-- The level of a LOOP .end afterwards (R323). -/
def nextLoop (o : Option Loop) : Option Loop :=
  o.bind fun y => if y.iter = 1 then none else some { y with iter := y.iter - 1 }

theorem Weave.nextIter_eq (w : Weave) (l lvl : Nat) : w.nextIter l lvl = w ∧ w.loop l lvl = none
    ∨ w.nextIter l lvl = w.setLoop l lvl (nextLoop (w.loop l lvl)) := by
  unfold Weave.nextIter nextLoop
  cases w.loop l lvl with
  | none => exact .inl ⟨rfl, rfl⟩
  | some y => exact .inr rfl

theorem Weave.loop_nextIter (w : Weave) {lvl : Nat} (hlvl : lvl < 4) (l j : Nat) :
    (w.nextIter l lvl).loop j lvl = if j = l then nextLoop (w.loop j lvl) else w.loop j lvl := by
  rcases w.nextIter_eq l lvl with ⟨h, hnone⟩ | h
  · rw [h]
    split
    · next hj => rw [hj, hnone]; rfl
    · rfl
  · rw [h, Weave.loop_setLoop _ hlvl hlvl]
    by_cases hj : j = l
    · simp [hj]
    · simp [hj]

theorem keepsGroups_nextIter (l lvl : Nat) : KeepsGroups fun w => w.nextIter l lvl := by
  intro w
  rcases w.nextIter_eq l lvl with ⟨h, -⟩ | h
  · simp only [h]
  · simp only [h]; exact keepsGroups_setLoop l lvl _ w

theorem Weave.frames_nextIter (w : Weave) (l lvl : Nat) : (w.nextIter l lvl).frames = w.frames := by
  rcases w.nextIter_eq l lvl with ⟨h, -⟩ | h
  · rw [h]
  · rw [h, Weave.frames_setLoop]

/-- Closing levels of a thread. -/
theorem Weave.loop_closeLoops (w : Weave) {vs : List Nat} (hvs : ∀ v ∈ vs, v < 4) {u : Nat} (hu : u < 4) (l j : Nat) :
    (w.closeLoops l vs).loop j u = if j = l ∧ u ∈ vs then none else w.loop j u := by
  unfold Weave.closeLoops
  induction vs generalizing w with
  | nil => simp
  | cons v r ih =>
    rw [List.foldl_cons, ih _ fun v h => hvs v (List.mem_cons_of_mem _ h), Weave.loop_setLoop _ (hvs v List.mem_cons_self) hu]
    by_cases hj : j = l
    · by_cases hr : u ∈ r
      · simp [hj, hr]
      · simp [hj, hr]
    · simp [hj]

theorem keepsGroups_closeLoops (l : Nat) (vs : List Nat) : KeepsGroups fun w => w.closeLoops l vs := by
  intro w
  unfold Weave.closeLoops
  induction vs generalizing w with
  | nil => rfl
  | cons v r ih =>
    have hv := keepsGroups_setLoop l v none w
    dsimp only at hv ih ⊢
    rw [List.foldl_cons, ih, hv]

theorem Weave.frames_closeLoops (w : Weave) (l : Nat) (vs : List Nat) : (w.closeLoops l vs).frames = w.frames :=
  Weave.foldl_keep vs _ Weave.frames (fun w v => w.frames_setLoop l v none) w

/-- The levels of a thread after an LBRK, from those before (R324). -/
def brokenLoops (lvl : Fin 4) (o : Fin 4 → Option Loop) (u : Fin 4) : Option Loop :=
  match o lvl with
  | some y => if u = lvl ∨ y.inner.getLsbD u = true then none else o u
  | none => o u

theorem Weave.brokenBy_lt (w : Weave) (l : Nat) {lvl : Nat} (hlvl : lvl < 4) : ∀ v ∈ w.brokenBy l lvl, v < 4 := by
  intro v hv
  unfold Weave.brokenBy at hv
  split at hv
  · rcases List.mem_cons.1 hv with rfl | hv
    · exact hlvl
    · have := List.mem_of_mem_filter hv
      simp at this
      omega
  · cases hv

theorem Weave.mem_brokenBy {w : Weave} {l lvl u : Nat} {y : Loop} (hy : w.loop l lvl = some y) (hu : u < 4) :
    u ∈ w.brokenBy l lvl ↔ u = lvl ∨ y.inner.getLsbD u = true := by
  have hmem : u ∈ [0, 1, 2, 3] := by simp; omega
  simp only [Weave.brokenBy, hy, List.mem_cons, List.mem_filter]
  simp only [← List.mem_cons, hmem, true_and]

theorem Weave.loops_broken (w : Weave) (l : Nat) (lvl : Fin 4) :
    (fun u : Fin 4 => (w.closeLoops l (w.brokenBy l lvl)).loop l u) = brokenLoops lvl fun u => w.loop l u := by
  funext u
  rw [Weave.loop_closeLoops _ (w.brokenBy_lt l lvl.isLt) u.isLt, brokenLoops]
  cases hy : w.loop l lvl with
  | none => simp [Weave.brokenBy, hy]
  | some y =>
    dsimp only
    refine if_congr ?_ rfl rfl
    rw [and_iff_right rfl, Weave.mem_brokenBy hy u.isLt, Fin.ext_iff]

end Sys2Proof.Machine
end

section
/-! LOOP .beg, LOOP .end and LBRK as they issue (R322–R324). -/

namespace Sys2Proof.Machine

open Sys2Proof

variable {st : State} {x : Ctx} {h : Hd} {lvl : BitVec 2}

/-- Where LOOP .end takes a thread (R323). -/
def Ctx.endPlace (x : Ctx) (v l : Nat) : Place :=
  match x.w.loop l v with
  | some y => if y.iter ≠ 1 then Place.header y.start else x.after
  | none => x.after

/-- What LOOP .end asks of a thread. -/
def Ctx.EndsAt (x : Ctx) (v l : Nat) : Prop :=
  ∃ y, x.w.loop l v = some y ∧ y.stop = x.c.addr ∧ (y.iter ≠ 1 → x.HeaderAt l y.start.toNat)

theorem Ctx.loopPlace_ok {v l : Nat} (he : x.EndsAt v l) : x.loopPlace v l = .ok (x.endPlace v l) := by
  obtain ⟨y, hy, hstop, hhead⟩ := he
  simp only [Ctx.loopPlace, Ctx.endPlace, hy, hstop, ne_eq, not_true_eq_false, if_false]
  by_cases hone : y.iter = 1
  · rw [if_pos hone, if_neg (not_not_intro hone)]; rfl
  · rw [if_neg hone, if_pos hone, Ctx.header_place (hhead hone), Int.toNat_natCast, BitVec.ofNat_toNat, BitVec.setWidth_eq]

theorem Ctx.loopPlace_error {v l : Nat}
    (he : ∀ y, x.w.loop l v = some y → y.stop = x.c.addr → y.iter ≠ 1 ∧ x.NoHeaderAt l false y.start.toNat) :
    x.loopPlace v l = .error (.branch (some l)) := by
  unfold Ctx.loopPlace
  cases hy : x.w.loop l v with
  | none => rfl
  | some y =>
    dsimp only
    by_cases hstop : y.stop = x.c.addr
    · obtain ⟨hone, hnone⟩ := he y hy hstop
      rw [if_neg (not_not_intro hstop), if_neg hone, Ctx.no_header_place hnone]
    · rw [if_pos hstop]

/-- LBRK as a place for each thread. -/
def Ctx.breakPlace (x : Ctx) (v l : Nat) : Except Stop Place :=
  match x.w.loop l v with
  | none => .error (.branch (some l))
  | some y => (x.target l (some l) true (y.stop.toNat + 12 : Nat)).map Place.header

/-- What LBRK asks of a thread: `b` is the header behind the loop. -/
def Ctx.BreaksTo (x : Ctx) (v l : Nat) (b : Int) : Prop :=
  ∃ y, x.w.loop l v = some y ∧ x.FillsTo l (y.stop.toNat + 12 : Nat) b ∧ x.HeaderAt l b

theorem Ctx.breakPlace_ok {v l : Nat} {b : Int} (hb : x.BreaksTo v l b) :
    x.breakPlace v l = .ok (Place.header (BitVec.ofNat 64 b.toNat)) := by
  obtain ⟨y, hy, hfill, hhead⟩ := hb
  rw [Ctx.breakPlace, hy]
  exact Ctx.fills_header_place hfill hhead

theorem Ctx.breakPlace_error {v l : Nat}
    (hb : ∀ y, x.w.loop l v = some y → ∃ b, x.FillsTo l (y.stop.toNat + 12 : Nat) b ∧ x.NoHeaderAt l true b) :
    x.breakPlace v l = .error (.branch (some l)) := by
  rw [Ctx.breakPlace]
  cases hy : x.w.loop l v with
  | none => rfl
  | some y =>
    obtain ⟨b, hfill, hnone⟩ := hb y hy
    exact Ctx.fills_no_header_place hfill hnone

/-- The level that LOOP .beg opens in a thread. -/
def Ctx.opened (x : Ctx) (a : Nat) (fin beg : BitVec 16) (l : Nat) : Loop :=
  { iter := if x.w.getV a l = 0 then 1 else x.w.getV a l, start := x.c.addr + 4 * beg.setWidth 64,
    stop := x.c.addr + 4 * fin.setWidth 64, inner := 0 }

/-- LOOP .beg opens its level in each active thread, and changes nothing else but the group's position. -/
theorem Ctx.loopBeg_does {a : Nat} {fin beg : BitVec 16} (hi : st.Issues (.loopBeg h lvl a fin beg) x) :
    ∃ t w, exec (.loopBeg h lvl a fin beg) st = .next t
      ∧ t = { st with weaves := t.weaves } ∧ (∀ n, n ≠ x.c.weave → t.weave n = st.weave n) ∧ t.weave x.c.weave = some w
      ∧ w = { x.w with loops := w.loops, groups := w.groups }
      ∧ ∀ l, l < 32 → ∀ u, u < 4 → w.loop l u = if x.act.has l = true then
          (if u = lvl.toNat then some (x.opened a fin beg l) else (x.w.loop l u).map (Loop.note lvl.toNat)) else x.w.loop l u := by
  obtain ⟨hs, -, hw⟩ := State.ctx_weave hi.1
  have hloops := x.eachLane_loops (g := fun w l => w.openLoop l lvl.toNat (x.opened a fin beg l))
    (fun w l => w.openLoop_keeps _ _ _) x.w
  refine ⟨_, (x.eachLane (fun w l => w.openLoop l lvl.toNat (x.opened a fin beg l)) x.w).updGroup x.c.gid
    (·.advance x.c x.h.bnd (lateRegs (.loopBeg h lvl a fin beg))), hi.exec_eq (exec_loopBeg h lvl a fin beg st), ?_,
    fun n hn => ?_, ?_, ?_, fun l hl u hu => ?_⟩
  · rw [← hs]; rfl
  · exact (State.weave_updWeave ..).trans ((if_neg hn).trans ((State.weave_updWeave ..).trans ((if_neg hn).trans (by rw [hs]))))
  · exact (State.weave_updWeave ..).trans (by rw [if_pos rfl, Ctx.upd_weave hi.1]; rfl)
  · rw [hloops]; rfl
  · refine x.eachLane_get (get := fun w => w.loop l u)
      (F := fun o => if u = lvl.toNat then some (x.opened a fin beg l) else o.map (Loop.note lvl.toNat)) hl (fun w => ?_)
      (fun w j hj => ?_) x.w
    · rw [Weave.loop_openLoop _ lvl.isLt hu, if_pos rfl]
    · rw [Weave.loop_openLoop _ lvl.isLt hu, if_neg (Ne.symm hj)]

/-- LOOP .end in every active thread. -/
theorem Ctx.loopEnd_moves (hi : st.Issues (.loopEnd h lvl) x)
    (hall : ∀ l, l < 32 → x.act.has l = true → x.EndsAt lvl.toNat l) :
    ∃ t w, exec (.loopEnd h lvl) st = .next t ∧ w.frames = x.w.frames
      ∧ x.Moves t w (fun l => if x.act.has l then x.endPlace lvl.toNat l else x.after)
      ∧ ∀ l, l < 32 → w.loop l lvl.toNat = if x.act.has l then nextLoop (x.w.loop l lvl.toNat) else x.w.loop l lvl.toNat := by
  obtain ⟨t, w, hexec, hmoves, hframes, hloops⟩ := Ctx.moves_of_transfer
    (edit := x.eachLane fun w l => w.nextIter l lvl.toNat) hi (exec_loopEnd h lvl st) rfl
    (keepsGroups_eachLane x fun l => keepsGroups_nextIter l lvl.toNat) fun l hl ha => Ctx.loopPlace_ok (hall l hl ha)
  refine ⟨t, w, hexec, hframes.trans ?_, hmoves, fun l hl => ?_⟩
  · exact Weave.foldl_keep x.lanes _ Weave.frames (fun w l => w.frames_nextIter l lvl.toNat) x.w
  · rw [Weave.loop, hloops]
    refine x.eachLane_get (get := fun w => w.loop l lvl.toNat) hl (fun w => ?_) (fun w j hj => ?_) x.w
    · rw [Weave.loop_nextIter _ lvl.isLt, if_pos rfl]
    · rw [Weave.loop_nextIter _ lvl.isLt, if_neg (Ne.symm hj)]

/-- LBRK in every active thread. -/
theorem Ctx.lbrk_moves {exits : Nat → Place} (hi : st.Issues (.lbrk h lvl) x)
    (hall : ∀ l, l < 32 → x.act.has l = true → ∃ b, x.BreaksTo lvl.toNat l b ∧ exits l = Place.header (BitVec.ofNat 64 b.toNat)) :
    ∃ t w, exec (.lbrk h lvl) st = .next t ∧ w.frames = x.w.frames
      ∧ x.Moves t w (fun l => if x.act.has l then exits l else x.after)
      ∧ ∀ l, l < 32 → x.act.has l = true → (fun u : Fin 4 => w.loop l u) = brokenLoops ⟨lvl.toNat, lvl.isLt⟩ fun u => x.w.loop l u := by
  obtain ⟨t, w, hexec, hmoves, hframes, hloops⟩ := Ctx.moves_of_transfer (f := x.breakPlace lvl.toNat) (place := exits)
    (edit := x.eachLane fun w l => w.closeLoops l (w.brokenBy l lvl.toNat)) hi (exec_lbrk h lvl st) rfl
    (keepsGroups_eachLane x fun l w => keepsGroups_closeLoops l (w.brokenBy l lvl.toNat) w) fun l hl ha => by
      obtain ⟨b, hb, he⟩ := hall l hl ha
      rw [Ctx.breakPlace_ok hb, he]
  refine ⟨t, w, hexec, hframes.trans ?_, hmoves, fun l hl ha => ?_⟩
  · exact Weave.foldl_keep x.lanes _ Weave.frames (fun w l => w.frames_closeLoops l _) x.w
  · have hget : (fun u : Fin 4 => w.loop l u)
        = fun u : Fin 4 => (x.eachLane (fun w l => w.closeLoops l (w.brokenBy l lvl.toNat)) x.w).loop l u := by
      funext u; rw [Weave.loop, hloops]; rfl
    rw [hget]
    refine (x.eachLane_get (get := fun w (u : Fin 4) => w.loop l u) hl (fun w => w.loops_broken l ⟨lvl.toNat, lvl.isLt⟩) (fun w j hj => ?_)
      x.w).trans (if_pos ha)
    funext u
    rw [Weave.loop_closeLoops _ (w.brokenBy_lt j lvl.isLt) u.isLt, if_neg fun h => hj h.1.symm]

/-- Settles O22: the levels by what each edit leaves, the threads as transfers. -/
theorem hardwareLoops : Obligations.HardwareLoops := by
  intro h lvl a fin beg st x
  refine ⟨fun hi => ?_, fun hi hall => ?_, fun k hk ha hi hb hstop => ?_, fun k hk ha hi hb hstop => ?_, fun exits hi hall => ?_⟩
  · obtain ⟨t, w, hexec, hrest, hothers, hhere, hsame, hloop⟩ := Ctx.loopBeg_does hi
    refine ⟨t, w, hexec, hrest, hothers, hhere, hsame, fun l hl => ⟨fun ha u hu => ?_, fun ha => ⟨?_, fun u hu hne => ?_⟩⟩⟩
    · rw [hloop l hl u hu, if_neg (by simp [ha])]
    · rw [hloop l hl _ lvl.isLt, if_pos ha, if_pos rfl]; rfl
    · rw [hloop l hl u hu, if_pos ha, if_neg hne]; rfl
  · obtain ⟨t, w, hexec, hframes, hmoves, hloop⟩ := Ctx.loopEnd_moves hi hall
    refine ⟨t, w, hexec, hframes, ?_, fun l hl => (hloop l hl).trans ?_⟩
    · convert hmoves using 2 with l
      rw [Ctx.endPlace]
      cases x.w.loop l lvl.toNat <;> cases x.act.has l <;> simp
    · cases x.w.loop l lvl.toNat <;> rfl
  · exact Ctx.traps_of_transfer (edit := x.eachLane fun w l => w.nextIter l lvl.toNat) hi (exec_loopEnd h lvl st) rfl hk ha
      (fun l hl hla => ⟨_, Ctx.loopPlace_ok (hb l hl hla)⟩) (Ctx.loopPlace_error hstop)
  · refine Ctx.traps_of_transfer (f := x.breakPlace lvl.toNat) hi (exec_lbrk h lvl st) rfl hk ha (fun l hl hla => ?_)
      (Ctx.breakPlace_error hstop)
    obtain ⟨y, b, hy, hfill, hhead⟩ := hb l hl hla
    exact ⟨_, Ctx.breakPlace_ok ⟨y, hy, hfill, hhead⟩⟩
  · obtain ⟨t, w, hexec, hframes, hmoves, hloop⟩ := Ctx.lbrk_moves (exits := exits) hi fun l hl ha => by
      obtain ⟨y, b, hy, hfill, hhead, he⟩ := hall l hl ha
      exact ⟨b, ⟨y, hy, hfill, hhead⟩, he⟩
    refine ⟨t, w, hexec, hframes, hmoves, fun l y hl ha hy u hu => ?_⟩
    have hlevel : w.loop l u = brokenLoops ⟨lvl.toNat, lvl.isLt⟩ (fun u => x.w.loop l u) ⟨u, hu⟩ :=
      congrFun (hloop l hl ha) ⟨u, hu⟩
    rw [hlevel, brokenLoops]
    simp only [hy]
    exact if_congr (by rw [Fin.ext_iff]) rfl rfl

end Sys2Proof.Machine
end

section
/-! FADD, FMUL, FFMA, FMIN and FMAX (R355, R356): the statement about them. -/

namespace Sys2Proof.Machine

open Sys2Proof

/-- An instruction that rounds one exact value for each computing lane; `hb` is `rfl`. -/
theorem doesFp_arith {i : Instr} {sc : Bool} {d : Nat} {fm : Fmt} {ex : State → Host.Outcome State Fault Refusal} {body : Ctx → Res}
    (v : Ctx → Nat → Val) (hx : ∀ s, exec i s = ex s) (he : ∀ s, ex s = issue i s body)
    (hb : ∀ x, body x = x.arith sc fm d (v x)) : DoesFp i sc d [wsSat] fun x l => x.rounded fm (v x l) :=
  doesFp_of _ hx he hb (fun _ _ => rfl) (by simp) (.inr fun _ _ => rfl)

/-- The formats of R356 Table 1. -/
theorem arithmetic_formats {fm : Fmt} (h : fm.vec = true) : fm = .fp32 ∨ fm = .bf16 ∨ fm = .fp16 := by
  cases fm <;> simp_all [Fmt.vec]

/-- Settles O5: the first three round an exact value, FMIN and FMAX give the bits that the model's own choice gives. -/
theorem floatArithmetic : Obligations.FloatArithmetic := by
  intro h sc fm d a b c
  refine ⟨?_, ?_, ?_, ?_, ?_, fun hw => ?_, by decide +kernel, by decide +kernel⟩
  · exact doesFp_arith _ (exec_fadd h sc fm d a b) (fun _ => rfl) fun _ => rfl
  · exact doesFp_arith _ (exec_fmul h sc fm d a b) (fun _ => rfl) fun _ => rfl
  · exact doesFp_arith _ (exec_ffma h sc fm d a b c) (fun _ => rfl) fun _ => rfl
  · exact does32_of _ (exec_fmin h sc fm d a b) (fun _ => rfl) (fun _ => rfl) fun x l => fMinMax_min fm _ _
  · exact does32_of _ (exec_fmax h sc fm d a b) (fun _ => rfl) (fun _ => rfl) fun x l => fMinMax_max fm _ _
  · apply arithmetic_formats
    rcases hw with hw | hw | hw | hw | hw <;> rw [Instr.wf.eq_def] at hw <;> simp only [Bool.and_eq_true] at hw <;> tauto

end Sys2Proof.Machine
end

section
/-! VDOT4, HASH64 and GUMB (R246, R247, R364, R371): the noise stands near its real value, and the statement. -/

namespace Sys2Proof

/-! ### The noise (R247) -/

/-- Near a value the logarithm changes by no more than the relative distance. -/
theorem abs_log_sub_log_le {x y b e : ℝ} (hb : 0 < b) (hx : b ≤ x) (hy : b ≤ y) (h : |y - x| ≤ e) :
    |Real.log y - Real.log x| ≤ e / b := by
  have hx0 : 0 < x := hb.trans_le hx
  have hy0 : 0 < y := hb.trans_le hy
  have he : 0 ≤ e := (abs_nonneg _).trans h
  have half {x y : ℝ} (hx : b ≤ x) (hx0 : 0 < x) (hy0 : 0 < y) (h : y - x ≤ e) : Real.log y - Real.log x ≤ e / b := by
    rw [← Real.log_div hy0.ne' hx0.ne']
    calc Real.log (y / x) ≤ y / x - 1 := Real.log_le_sub_one_of_pos (by positivity)
      _ = (y - x) / x := div_sub_one hx0.ne'
      _ ≤ e / x := div_le_div_of_nonneg_right h hx0.le
      _ ≤ e / b := div_le_div_of_nonneg_left he hb hx
  obtain ⟨h1, h2⟩ := abs_le.1 h
  rw [abs_le]
  constructor
  · linarith [half hy hy0 hx0 (by linarith : x - y ≤ e)]
  · exact half hx hx0 hy0 h2

/-- The integer that a sticky value holds, in units of its last place. -/
def stickyInt (x : Int) : Int := if x < 0 then -(2 * x.natAbs + 1) else 2 * x.natAbs + 1

theorem sticky2_eq (x : Int) : sticky2 x 0 = .fin (decide (stickyInt x < 0)) (stickyInt x).natAbs (-401) := by
  have hneg : stickyInt x < 0 ↔ x < 0 := by unfold stickyInt; split <;> omega
  have habs : (stickyInt x).natAbs = 2 * x.natAbs + 1 := by unfold stickyInt; split <;> omega
  rw [habs, sticky2, decide_eq_decide.2 hneg]
  rfl

/-- The sticky bit moves a value by half a unit. -/
theorem stickyInt_near (x : Int) : |(stickyInt x : ℝ) / 2 ^ 401 - (x : ℝ) / fixOne| ≤ 1 / (fixOne : ℝ) := by
  have hF : (0 : ℝ) < fixOne := by exact_mod_cast fixOne_pos
  have hdist : |(stickyInt x : ℝ) - 2 * x| ≤ 1 := by
    have h : |stickyInt x - 2 * x| ≤ 1 := by unfold stickyInt; split <;> rw [abs_le] <;> omega
    exact_mod_cast h
  have heq : (stickyInt x : ℝ) / 2 ^ 401 - (x : ℝ) / fixOne = ((stickyInt x : ℝ) - 2 * x) / (2 * fixOne) := by
    rw [fixOne_real, pow_succ]; field_simp
  rw [heq, abs_div, abs_of_pos (show (0 : ℝ) < 2 * fixOne by positivity)]
  calc |(stickyInt x : ℝ) - 2 * x| / (2 * fixOne) ≤ 1 / (2 * fixOne) := div_le_div_of_nonneg_right hdist (by positivity)
    _ ≤ 1 / fixOne := div_le_div_of_nonneg_left zero_le_one hF (by linarith)

/-- The uniform number of R247 in fixed point is exact. -/
theorem uniform_exact (v : Nat) : (((2 * v + 1) * fixOne / 2 ^ 25 : Nat) : ℝ) / fixOne = (v + 1 / 2) / 2 ^ 24 := by
  have hone : fixOne = 2 ^ 25 * 2 ^ 375 := (pow_add 2 25 375)
  have hF : (fixOne : ℝ) = 2 ^ 25 * 2 ^ 375 := by exact_mod_cast hone
  have hdiv : (2 * v + 1) * fixOne / 2 ^ 25 = (2 * v + 1) * 2 ^ 375 := by
    rw [hone, Nat.mul_left_comm, Nat.mul_div_cancel_left _ (by positivity)]
  rw [hdiv, hF]
  push_cast
  field_simp

/-- The inner logarithm −ln u: bounded away from 0, and below 18. -/
theorem negLog_uniform {v : Nat} (hv : v < 2 ^ 24) :
    1 / 2 ^ 25 ≤ -Real.log ((v + 1 / 2) / 2 ^ 24) ∧ -Real.log ((v + 1 / 2) / 2 ^ 24) ≤ 25 := by
  have hvr : (v : ℝ) + 1 ≤ 2 ^ 24 := by exact_mod_cast hv
  have hv0 : (0 : ℝ) ≤ v := v.cast_nonneg
  have hu : (0 : ℝ) < (v + 1 / 2) / 2 ^ 24 := by positivity
  constructor
  · have h := Real.log_le_sub_one_of_pos hu
    have hle : ((v : ℝ) + 1 / 2) / 2 ^ 24 ≤ 1 - 1 / 2 ^ 25 := by rw [div_le_iff₀ (by positivity)]; norm_num at *; linarith
    linarith
  · have hlow : (1 : ℝ) / 2 ^ 25 ≤ (v + 1 / 2) / 2 ^ 24 := by
      rw [div_le_div_iff₀ (by positivity) (by positivity)]; norm_num at *; linarith
    have h := Real.log_le_log (by positivity) hlow
    rw [one_div, Real.log_inv, Real.log_pow] at h
    have h2 := Real.log_two_lt_d9
    push_cast at h
    linarith

/-- The fixed-point −ln −ln u stands within 2^47 units of the real one. -/
theorem gumbel_error {v : Nat} (hv : v < 2 ^ 24) : let l := (-(fixLn ((2 * v + 1) * fixOne / 2 ^ 25))).toNat
    |((-(fixLn l) : Int) : ℝ) / fixOne - -Real.log (-Real.log ((v + 1 / 2) / 2 ^ 24))| ≤ 2 ^ 47 / fixOne := by
  intro l
  have hF : (0 : ℝ) < fixOne := by exact_mod_cast fixOne_pos
  have hbig : (2 : ℝ) ^ 50 ≤ fixOne := by rw [fixOne_real]; exact pow_le_pow_right₀ (by norm_num) (by norm_num)
  set L : ℝ := -Real.log ((v + 1 / 2) / 2 ^ 24) with hL
  obtain ⟨hL1, hL2⟩ := negLog_uniform hv
  rw [← hL] at hL1 hL2
  have hu0 : 0 < (2 * v + 1) * fixOne / 2 ^ 25 := by
    apply Nat.div_pos _ (by positivity)
    calc 2 ^ 25 ≤ 2 ^ fixBits := Nat.pow_le_pow_right (by norm_num) (by decide)
      _ ≤ (2 * v + 1) * fixOne := Nat.le_mul_of_pos_left _ (Nat.succ_pos _)
  have hu1 : (2 * v + 1) * fixOne / 2 ^ 25 < 2 ^ 420 := by
    apply Nat.div_lt_of_lt_mul
    calc (2 * v + 1) * fixOne < 2 ^ 25 * fixOne := Nat.mul_lt_mul_of_pos_right (by omega) fixOne_pos
      _ ≤ 2 ^ 25 * 2 ^ 420 := Nat.mul_le_mul_left _ (Nat.pow_le_pow_right (by norm_num) (by decide))
  have hinner := fixLn_error hu0 hu1
  rw [uniform_exact] at hinner
  set A : Int := -(fixLn ((2 * v + 1) * fixOne / 2 ^ 25)) with hA
  have hAL : |(A : ℝ) / fixOne - L| ≤ 2 ^ 20 / fixOne := by
    have heq : (A : ℝ) / fixOne - L
        = -((fixLn ((2 * v + 1) * fixOne / 2 ^ 25) : ℝ) / fixOne - Real.log ((v + 1 / 2) / 2 ^ 24)) := by
      rw [hA, hL]; push_cast; ring
    rw [heq, abs_neg]; exact hinner
  have hsmall : (2 : ℝ) ^ 20 / fixOne ≤ 1 / 2 ^ 26 := by
    rw [div_le_div_iff₀ hF (by positivity)]
    norm_num at hbig ⊢
    linarith
  obtain ⟨hA1, hA2⟩ := abs_le.1 hAL
  have hAlow : 1 / 2 ^ 26 ≤ (A : ℝ) / fixOne := by norm_num at hL1 hsmall hA1 ⊢; linarith
  have hApos : (0 : ℝ) < A := by
    have : (0 : ℝ) < (A : ℝ) / fixOne := lt_of_lt_of_le (by positivity) hAlow
    exact (div_pos_iff_of_pos_right hF).1 this
  have hl : (l : ℝ) = A := by
    have : ((A.toNat : Int) : ℝ) = A := by rw [Int.toNat_of_nonneg (by exact_mod_cast hApos.le)]
    exact_mod_cast this
  have hl0 : 0 < l := by exact_mod_cast hl ▸ hApos
  have hl1 : l < 2 ^ 420 := by
    have hAup : (A : ℝ) ≤ 26 * fixOne := by
      rw [← div_le_iff₀ hF]; norm_num at hsmall hA2 ⊢; linarith
    have h420 : (26 : ℝ) * fixOne < 2 ^ 420 := by
      rw [fixOne_real, show (420 : Nat) = 20 + 400 from rfl, pow_add]
      exact mul_lt_mul_of_pos_right (by norm_num) (by positivity)
    have : (l : ℝ) < 2 ^ 420 := hl ▸ hAup.trans_lt h420
    exact_mod_cast this
  have houter := fixLn_error hl0 hl1
  rw [hl] at houter
  have hlogs := abs_log_sub_log_le (b := 1 / 2 ^ 26) (by positivity) (by norm_num at hL1 ⊢; linarith) hAlow hAL
  have htri := abs_sub_le ((fixLn l : ℝ) / fixOne) (Real.log (A / fixOne)) (Real.log L)
  have heq : ((-(fixLn l) : Int) : ℝ) / fixOne - -Real.log L = -((fixLn l : ℝ) / fixOne - Real.log L) := by push_cast; ring
  rw [heq, abs_neg]
  calc |(fixLn l : ℝ) / fixOne - Real.log L| ≤ 2 ^ 20 / fixOne + 2 ^ 20 / fixOne / (1 / 2 ^ 26) := htri.trans (add_le_add houter hlogs)
    _ = (2 ^ 20 + 2 ^ 46) / fixOne := by field_simp
    _ ≤ 2 ^ 47 / fixOne := div_le_div_of_nonneg_right (by norm_num) hF.le

theorem lt_of_shift_hash (h : W64) : (h >>> 40).toNat < 2 ^ 24 := by
  rw [BitVec.toNat_ushiftRight, Nat.shiftRight_eq_div_pow]
  have := h.isLt
  omega

/-- GUMB is the noise of its hash (R247). -/
theorem Machine.gumbelIs (seed pos : W64) (index : W32) : Machine.GumbelIs (hash64 seed pos index) (gumbel seed pos index) := by
  have hF : (0 : ℝ) < fixOne := by exact_mod_cast fixOne_pos
  set v := (hash64 seed pos index >>> 40).toNat with hv
  set x : Int := -(fixLn (-(fixLn ((2 * v + 1) * fixOne / 2 ^ 25))).toNat) with hx
  refine ⟨stickyInt x, ?_, ?_⟩
  · have hnear := stickyInt_near x
    have herr := gumbel_error (lt_of_shift_hash (hash64 seed pos index))
    rw [← hv] at herr ⊢
    refine (abs_sub_le _ ((x : ℝ) / fixOne) _).trans ((add_le_add hnear herr).trans ?_)
    rw [← add_div, fixOne_real, show (400 : Nat) = 100 + 300 from rfl, pow_add,
      div_le_div_iff₀ (by positivity) (by positivity), one_mul]
    exact mul_le_mul_of_nonneg_right (by norm_num) (by positivity)
  · rw [← sticky2_eq]
    rfl

end Sys2Proof

namespace Sys2Proof.Machine

open Sys2Proof

/-! ### VDOT4 (R364) -/

/-- Byte `i` of a word, as a number. -/
theorem byteOf_eq (v : W32) (i : Nat) : byteOf v i = v.toNat / 2 ^ (8 * i) % 256 := by
  rw [byteOf, BitVec.extractLsb'_toNat, Nat.shiftRight_eq_div_pow]

/-- The exact dot product, written out. -/
theorem dotFp_eq (fm : Fmt) (a b : W32) (c : Val) (mode : Rnd) : dotFp fm a b c mode =
    let el (v : W32) (i : Nat) : Val := value fm (v.toNat / 2 ^ (8 * i) % 256)
    let t (v : Val) (i : Nat) : Val := v.add ((el a i).mul (el b i)) mode
    t (t (t (t c 0) 1) 2) 3 := by
  simp only [dotFp, byteOf_eq]
  rfl

/-- The value of a byte of an integer dot product. -/
def dotElt (signed : Bool) (v : W32) (i : Nat) : Int :=
  let e : BitVec 8 := v.extractLsb' (8 * i) 8
  if signed then e.toInt else (e.toNat : Int)

theorem dotTerm_eq (signed : Bool) (a b : W32) (i : Nat) :
    (let p : BitVec 8 := a.extractLsb' (8 * i) 8
     let q : BitVec 8 := b.extractLsb' (8 * i) 8
     if signed then p.signExtend 32 * q.signExtend 32 else p.setWidth 32 * q.setWidth 32)
      = BitVec.ofInt 32 (dotElt signed a i * dotElt signed b i) := by
  rw [BitVec.ofInt_mul]
  cases signed with
  | true => rfl
  | false =>
    simp only [dotElt, Bool.false_eq_true, if_false]
    rw [BitVec.ofInt_natCast, BitVec.ofInt_natCast, BitVec.ofNat_toNat, BitVec.ofNat_toNat]

/-- The integer dot product is that of the numbers, modulo 2^32. -/
theorem dotInt_eq (signed : Bool) (a b c : W32) : dotInt signed a b c =
    BitVec.ofInt 32 (c.toInt + (dotElt signed a 0 * dotElt signed b 0 + dotElt signed a 1 * dotElt signed b 1
      + dotElt signed a 2 * dotElt signed b 2 + dotElt signed a 3 * dotElt signed b 3)) := by
  have hfold : dotInt signed a b c = (List.range 4).foldl (fun t i => t + BitVec.ofInt 32 (dotElt signed a i * dotElt signed b i)) c := by
    rw [dotInt]
    exact congrFun (congrFun (congrArg List.foldl (funext fun t => funext fun i => congrArg (t + ·) (dotTerm_eq signed a b i))) c) _
  rw [hfold]
  show c + _ + _ + _ + _ = _
  rw [BitVec.ofInt_add, BitVec.ofInt_toInt]
  simp only [BitVec.ofInt_add, BitVec.add_assoc]

theorem does32_vdot4 (h : Hd) (sc : Bool) {fm : Fmt} (hfm : ¬ (fm = .e4m3 ∨ fm = .e5m2)) (d a b c : Nat) :
    Does32 (.vdot4 h sc fm d a b c) sc d [] fun x l =>
      dotInt (fm == .int8) (x.src32 sc a l) (x.src32 sc b l) (x.src32 sc c l) :=
  does32_of _ (exec_vdot4 h sc fm d a b c) (fun _ => rfl) (fun _ => if_neg hfm) fun _ _ => rfl

/-- Settles O9: VDOT4 by its products, the hash by its definition, the noise by the error of the fixed-point logarithms. -/
theorem dotAndHash : Obligations.DotAndHash := by
  intro h sc fm d a b c
  refine ⟨fun hfm => ?_, fun hfm => ?_, ?_, ?_, fun seed pos index => gumbelIs seed pos index⟩
  · have hdot := doesFp_arith (d := d) (sc := sc) (fm := .fp32)
      (fun x l => dotFp fm (x.src32 sc a l) (x.src32 sc b l) (x.val sc .fp32 c l) x.c.rnd)
      (exec_vdot4 h sc fm d a b c) (fun _ => rfl) fun _ => if_pos hfm
    simp only [dotFp_eq] at hdot
    exact hdot
  · have hne : ¬ (fm = .e4m3 ∨ fm = .e5m2) := by rcases hfm with rfl | rfl <;> decide
    have hsigned (v : W32) (i : Nat) : dotElt (fm == .int8) v i
        = (let e : BitVec 8 := v.extractLsb' (8 * i) 8; if fm = .int8 then e.toInt else (e.toNat : Int)) := by
      rcases hfm with rfl | rfl <;> rfl
    refine (does32_vdot4 h sc hne d a b c).imp fun x w hr => ?_
    obtain ⟨hv, hs⟩ := hr
    simp only [dotInt_eq, hsigned] at hv hs
    exact ⟨hv, fun hsc ha => (hs hsc).trans (if_neg ha)⟩
  · exact does64_of _ (exec_hash64 h sc d a b c) (fun _ => rfl) (fun _ => rfl) (by simp [operands]) fun _ _ => rfl
  · exact does32_of _ (exec_gumb h sc d a b c) (fun _ => rfl) (fun _ => rfl) fun _ _ => rfl

end Sys2Proof.Machine
end

section
/-! FSETP, FKEY, FCLASS and the conversions (R357–R362, R365, R366): the statement about them. -/

namespace Sys2Proof.Machine

open Sys2Proof

/-! ### Comparisons, keys and classes -/

theorem cmp_eq_none_iff (p q : Val) : p.cmp q = none ↔ p.isNan = true ∨ q.isNan = true := by
  cases p <;> cases q <;> simp [Val.cmp, Val.isNan]

/-- FSETP (R357), as a table. -/
theorem fCond_eq (op : FCond) (p q : Val) : fCond op (p.cmp q) =
    let o := p.cmp q
    match op with
    | .eq => o == some .eq
    | .ne => o != some .eq
    | .lt => o == some .lt
    | .le => o == some .lt || o == some .eq
    | .gt => o == some .gt
    | .ge => o == some .gt || o == some .eq
    | .nan => p.isNan || q.isNan
    | .num => !(p.isNan || q.isNan) := by
  have hnan : (p.isNan || q.isNan) = (p.cmp q).isNone := by
    rw [Bool.eq_iff_iff, Bool.or_eq_true, ← cmp_eq_none_iff, Option.isNone_iff_eq_none]
  rw [hnan]
  cases p.cmp q with
  | none => cases op <;> rfl
  | some o => cases op <;> cases o <;> rfl

/-- FKEY (R365). -/
theorem fkeyVal_eq (fm : Fmt) (desc : Bool) (a : W32) : fkeyVal fm desc a =
    let c := a.toNat % 2 ^ fm.bits
    let asc := if 2 ^ (fm.bits - 1) ≤ c then 2 ^ fm.bits - 1 - c else 2 ^ (fm.bits - 1) + c
    BitVec.ofNat 32 (if desc then 2 ^ fm.bits - 1 - asc else asc) := by
  simp only [fkeyVal, ascKey, Nat.add_comm (a.toNat % 2 ^ fm.bits)]
  rfl

theorem abs_rat_fin (s : Bool) (m : Nat) (e : Int) : |Val.rat (.fin s m e)| = (m : Rat) * 2 ^ e := by
  have h2 : (0 : Rat) < 2 ^ e := zpow_pos (by norm_num) e
  have h : (0 : Rat) ≤ m * 2 ^ e := mul_nonneg m.cast_nonneg h2.le
  cases s with
  | true => rw [Val.rat, if_pos rfl, mul_assoc, abs_mul, abs_of_nonneg h]; norm_num
  | false => rw [Val.rat, if_neg (by simp), mul_assoc, abs_mul, abs_of_nonneg h]; norm_num

theorem value_fp {fm : Fmt} (h : Fmt.isFp fm = true) (c : Nat) : value fm c = fpValue fm c :=
  match fm, h with
  | .fp32, _ | .bf16, _ | .fp16, _ | .e4m3, _ | .e5m2, _ => rfl

/-- The finite values of a floating-point format: a subnormal significand with the smallest exponent, or a normal one with at
least that (R200). -/
theorem value_fin {fm : Fmt} (hfm : Fmt.isFp fm = true) {c m : Nat} {s : Bool} {e : Int} (h : value fm c = .fin s m e) :
    e = 1 - fm.shape.2.2 - fm.shape.2.1 ∧ m < 2 ^ fm.shape.2.1 ∨ 1 - fm.shape.2.2 - fm.shape.2.1 ≤ e ∧ 2 ^ fm.shape.2.1 ≤ m := by
  rw [value_fp hfm, fpValue] at h
  have hcase (ex fr fb : Nat) (bias : Int) (s' : Bool) (hfr : fr < 2 ^ fb)
      (h : (if ex = 0 then Val.fin s' fr (1 - bias - fb) else .fin s' (2 ^ fb + fr) (ex - bias - fb)) = .fin s m e) :
      e = 1 - bias - fb ∧ m < 2 ^ fb ∨ 1 - bias - fb ≤ e ∧ 2 ^ fb ≤ m := by
    split at h
    · cases h; exact .inl ⟨rfl, hfr⟩
    · cases h; exact .inr ⟨by omega, Nat.le_add_right _ _⟩
  dsimp only at h
  split at h
  · split at h
    · cases h
    · exact hcase _ _ _ _ _ (Nat.mod_lt _ (Nat.two_pow_pos _)) h
  · split at h
    · split at h <;> cases h
    · exact hcase _ _ _ _ _ (Nat.mod_lt _ (Nat.two_pow_pos _)) h

/-- A significand is subnormal where the value lies below the smallest normal one. -/
theorem subnormal_iff {fm : Fmt} (hfm : Fmt.isFp fm = true) {c m : Nat} {s : Bool} {e : Int} (h : value fm c = .fin s m e) :
    m < 2 ^ fm.shape.2.1 ↔ |Val.rat (.fin s m e)| < 2 ^ (1 - fm.shape.2.2) := by
  rw [abs_rat_fin]
  have hsplit : (2 : Rat) ^ (1 - fm.shape.2.2) = 2 ^ fm.shape.2.1 * 2 ^ (1 - fm.shape.2.2 - fm.shape.2.1) := by
    rw [← zpow_natCast, ← zpow_add₀ (by norm_num)]; congr 1; ring
  rw [hsplit]
  rcases value_fin hfm h with ⟨rfl, hm⟩ | ⟨he, hm⟩
  · have hpos : (0 : Rat) < 2 ^ (1 - fm.shape.2.2 - fm.shape.2.1 : Int) := zpow_pos (by norm_num) _
    rw [mul_lt_mul_iff_left₀ hpos]
    exact_mod_cast Iff.rfl
  · have hle : (2 : Rat) ^ fm.shape.2.1 * 2 ^ (1 - fm.shape.2.2 - fm.shape.2.1 : Int) ≤ m * 2 ^ e :=
      mul_le_mul (by exact_mod_cast hm) (zpow_le_zpow_right₀ (by norm_num) he) (zpow_pos (by norm_num) _).le m.cast_nonneg
    constructor
    · intro hlt; omega
    · intro hlt; exact absurd hlt (not_lt.2 hle)

/-- FCLASS (R366), by the value. -/
theorem class_eq {fm : Fmt} (hfm : Fmt.isFp fm = true) (a : W32) : w32 (2 ^ classBitOf fm a) =
    match value fm a.toNat with
    | .nan _ => 0x100
    | .inf s => if s then 1 else 0x80
    | .fin s m e =>
      if m = 0 then (if s then 8 else 0x10)
      else if |Val.rat (.fin s m e)| < 2 ^ (1 - fm.shape.2.2) then (if s then 4 else 0x20)
      else if s then 2 else 0x40 := by
  rw [classBitOf]
  cases hv : value fm a.toNat with
  | nan s => rfl
  | inf s => cases s <;> rfl
  | fin s m e =>
    simp only [← subnormal_iff hfm hv]
    by_cases h0 : m = 0
    · simp only [if_pos h0]; cases s <;> rfl
    · by_cases h1 : m < 2 ^ fm.shape.2.1
      · simp only [if_neg h0, if_pos h1]; cases s <;> rfl
      · simp only [if_neg h0, if_neg h1]; cases s <;> rfl

/-! ### Conversions -/

section Report

variable {s : State} {i : Instr} {x : Ctx} {w : Weave} {v sr p k : List Nat}

/-- The computing lanes report after a change of registers, which stay as they are. -/
theorem Ctx.Only.reported (h : x.Only i ((Res.done s).apply x i) w v sr p k []) (sc : Bool) (f : Nat → Fl) :
    ∃ w', x.Only i ((Res.done (s.report x.c.weave (x.flags sc f))).apply x i) w' v sr p k [wsSat, wsInexact]
      ∧ w'.v = w.v ∧ w'.s = w.s ∧ x.Sets w' wsSat sc (fun l => (f l).sat) ∧ x.Sets w' wsInexact sc fun l => (f l).inexact := by
  obtain ⟨w1, honly1, hv1, hs1, -, -, hbits1⟩ :=
    (h.allowSticky [wsSat, wsInexact]).stickyIf wsSat (by decide) (x.flags sc f).sat fun _ => by simp
  obtain ⟨w2, honly2, hv2, hs2, -, -, hbits2⟩ := honly1.stickyIf wsInexact (by decide) (x.flags sc f).inexact fun _ => by simp
  obtain ⟨w', honly', -, hsat, hinexact⟩ := h.report sc f
  have hsame : w2 = w' := Option.some.inj (honly2.here.symm.trans honly'.here)
  exact ⟨w2, honly2, hv2.trans hv1, hs2.trans hs1, hsame ▸ hsat, hsame ▸ hinexact⟩

end Report

/-- An instruction that converts one value for each computing lane. -/
theorem doesFp_conv {i : Instr} {sc : Bool} {d : Nat} {ex : State → Host.Outcome State Fault Refusal} {body : Ctx → Res}
    {r : Ctx → Nat → W32 × Fl} (g : Ctx → Nat → Nat × Fl) (hx : ∀ s, exec i s = ex s) (he : ∀ s, ex s = issue i s body)
    (hb : ∀ x, body x = x.conv32 sc d (g x)) (hr : ∀ x l, (BitVec.ofNat 32 (g x l).1, (g x l).2) = r x l) :
    DoesFp i sc d [wsSat, wsInexact] r :=
  doesFp_of g hx he hb hr (by simp) (.inl (by simp))

/-- FTOI writes its integer in the width of its destination (R354, R359). -/
theorem ftoi_does (h : Hd) (sc : Bool) (tgt src : Fmt) (d a : Nat) :
    Completes (.ftoi h sc tgt src d a) (if sc then [] else destV false d) (if sc then [d] else []) [] [] [wsSat, wsInexact]
      fun x w =>
        let r (l : Nat) := convert tgt src (x.src32 sc a l).toNat x.c.rnd x.c.sat
        (sc = false → d ≠ 255 → ∀ l, l < 32 → x.act.has l = true → w.getV d l = intExt tgt 32 (r l).1)
        ∧ (sc = true → w.getS d = if x.act = 0 then x.w.getS d else intExt tgt 64 (r 0).1)
        ∧ x.Sets w wsSat sc (fun l => (r l).2.sat) ∧ x.Sets w wsInexact sc fun l => (r l).2.inexact := by
  intro st x hi
  cases sc with
  | false =>
    obtain ⟨w, honly, hval⟩ := Ctx.only_putV hi.1 d fun l =>
      intExt tgt 32 (convert tgt src (x.src32 false a l).toNat x.c.rnd x.c.sat).1
    obtain ⟨w', honly', hv, -, hsat, hinex⟩ := honly.reported false fun l =>
      (convert tgt src (x.src32 false a l).toNat x.c.rnd x.c.sat).2
    refine ⟨_, w', hi.exec_eq (exec_ftoi ..), honly', fun _ hd l hl ha => ?_, by simp, hsat, hinex⟩
    exact (congrArg (fun t => Weave.getV { w with v := t } d l) hv).trans (hval l hl ha hd)
  | true =>
    obtain ⟨w, honly, hval⟩ := Ctx.only_putS hi.1 d
      (intExt tgt 64 (convert tgt src (x.src32 true a 0).toNat x.c.rnd x.c.sat).1)
    obtain ⟨w', honly', -, hs, hsat, hinex⟩ := honly.reported true fun l =>
      (convert tgt src (x.src32 true a l).toNat x.c.rnd x.c.sat).2
    refine ⟨_, w', hi.exec_eq (exec_ftoi ..), honly', by simp, fun _ => ?_, hsat, hinex⟩
    exact (congrArg (fun t => Tbl.get t 0 d) hs).trans hval

/-! ### FUNPK (R362) -/

/-- Successive s registers, written once. -/
theorem Weave.getS_block (w : Weave) (d n : Nat) (f : Nat → W64) (m : Nat) :
    ((List.range n).foldl (fun w i => w.setS (d + i) (f i)) w).getS m
      = if d ≤ m ∧ m < d + n then f (m - d) else w.getS m := by
  induction n with
  | zero => rw [if_neg (by omega)]; rfl
  | succ n ih =>
    rw [List.range_succ, List.foldl_append, List.foldl_cons, List.foldl_nil, Weave.getS_setS, ih]
    by_cases h : m = d + n
    · subst h; rw [if_pos rfl, if_pos (by omega), Nat.add_sub_cancel_left]
    · rw [if_neg h]
      by_cases hm : d ≤ m ∧ m < d + n
      · rw [if_pos hm, if_pos (by omega)]
      · rw [if_neg hm, if_neg (by omega)]

/-- Successive v registers of one lane. -/
theorem Weave.getV_block (w : Weave) {d n l : Nat} (hd : d + n ≤ 255) (hl : l < 32) (f : Nat → W32) (m : Nat) {j : Nat} (hj : j < 32) :
    ((List.range n).foldl (fun w i => w.setV (d + i) l (f i)) w).getV m j
      = if j = l ∧ d ≤ m ∧ m < d + n then f (m - d) else w.getV m j := by
  induction n with
  | zero => rw [if_neg (by omega)]; rfl
  | succ n ih =>
    rw [List.range_succ, List.foldl_append, List.foldl_cons, List.foldl_nil, Weave.getV_setV _ _ _ _ _ _ hl hj, ih (by omega)]
    by_cases h : m = d + n ∧ j = l
    · obtain ⟨rfl, rfl⟩ := h
      rw [if_pos ⟨rfl, rfl, by omega⟩, if_pos (by omega), Nat.add_sub_cancel_left]
    · rw [if_neg (by omega)]
      by_cases hm : j = l ∧ d ≤ m ∧ m < d + n
      · rw [if_pos hm, if_pos (by omega)]
      · rw [if_neg hm, if_neg (by omega)]

/-- A register of a thread after every active thread has written its block. -/
theorem Weave.getV_blocks {ls : List Nat} (hls : ∀ l ∈ ls, l < 32) (hnd : ls.Nodup) {d n : Nat} (hd : d + n ≤ 255)
    (f : Nat → Nat → W32) (w : Weave) (m : Nat) {j : Nat} (hj : j < 32) :
    (ls.foldl (fun w l => (List.range n).foldl (fun w i => w.setV (d + i) l (f l i)) w) w).getV m j
      = if j ∈ ls ∧ d ≤ m ∧ m < d + n then f j (m - d) else w.getV m j := by
  induction ls generalizing w with
  | nil => simp
  | cons l r ih =>
    obtain ⟨hl, hr⟩ := List.nodup_cons.1 hnd
    rw [List.foldl_cons, ih (fun a h => hls a (List.mem_cons_of_mem _ h)) hr, Weave.getV_block _ hd (hls l List.mem_cons_self) _ _ hj]
    by_cases h : j = l
    · subst h; simp [hl]
    · simp [h]

/-- Blocks of registers differ in registers alone. -/
theorem Weave.sameBut_block (ns : List Nat) (g : Weave → Nat → Weave) (hg : ∀ (w : Weave) i, w.SameBut (g w i)) (w : Weave) :
    w.SameBut (ns.foldl g w) := Weave.sameBut_foldl ns g hg w

theorem mem_block {d n m : Nat} : m ∈ (List.range n).map (fun i => d + i) ↔ d ≤ m ∧ m < d + n := by
  simp only [List.mem_map, List.mem_range]
  constructor
  · rintro ⟨i, hi, rfl⟩; omega
  · intro h; exact ⟨m - d, by omega, by omega⟩

/-- A block of s registers. -/
theorem Ctx.only_blockS {s : State} {i : Instr} {x : Ctx} (h : s.ctx i = some x) (d n : Nat) (f : Nat → W64) :
    ∃ w, x.Only i ((Res.done (x.upd fun w => (List.range n).foldl (fun w i => w.setS (d + i) (f i)) w)).apply x i) w []
        ((List.range n).map fun i => d + i) [] [] []
      ∧ ∀ i, i < n → w.getS (d + i) = f i := by
  have hget := fun m => x.w.getS_block d n f m
  have hkeep {α : Type} (g : Weave → α) (hg : ∀ (w : Weave) i, g (w.setS (d + i) (f i)) = g w) :=
    Weave.foldl_keep (List.range n) (fun w i => w.setS (d + i) (f i)) g hg x.w
  refine ⟨_, Ctx.only_of h (fun w => (List.range n).foldl (fun w i => w.setS (d + i) (f i)) w)
    (Weave.sameBut_foldl _ _ (fun w i => w.sameBut_setS _ _) _) _ _ _ _ _ (fun m l _ _ => ?_) (fun m hm => ?_)
    (fun m l _ _ => ?_) (fun m _ => ?_) (fun b _ => ?_), fun i hi => ?_⟩
  · exact congrArg (fun t => Weave.getV { x.w with v := t } m l) (hkeep Weave.v fun _ _ => rfl)
  · exact (hget m).trans (if_neg fun h => hm (mem_block.2 h))
  · exact congrArg (fun t => Weave.getP { x.w with p := t } m l) (hkeep Weave.p fun _ _ => rfl)
  · exact congrArg (fun t => Tbl.get t nullCap m) (hkeep Weave.k fun _ _ => rfl)
  · exact congrArg (fun t => BitVec.getLsbD t b) (hkeep Weave.wstat fun _ _ => rfl)
  · exact (hget (d + i)).trans (by rw [if_pos (by omega), Nat.add_sub_cancel_left])

/-- A block of v registers of each active thread. -/
theorem Ctx.only_blockV {s : State} {i : Instr} {x : Ctx} (h : s.ctx i = some x) {d n : Nat} (hd : d + n ≤ 255)
    (f : Nat → Nat → W32) :
    ∃ w, x.Only i ((Res.done (x.upd fun w => x.lanes.foldl (fun w l =>
          (List.range n).foldl (fun w i => w.setV (d + i) l (f l i)) w) w)).apply x i) w
        ((List.range n).map fun i => d + i) [] [] [] []
      ∧ ∀ l i, l < 32 → x.act.has l = true → i < n → w.getV (d + i) l = f l i := by
  have hls : ∀ l ∈ x.lanes, l < 32 := fun l hl => ((Lanes.mem_toList _ _).1 hl).1
  have hget := fun m {j : Nat} (hj : j < 32) => Weave.getV_blocks hls (Lanes.toList_nodup x.act) hd f x.w m hj
  have hinner {α : Type} (g : Weave → α) (hg : ∀ (w : Weave) n l y, g (w.setV n l y) = g w) (w : Weave) (l : Nat) :
      g ((List.range n).foldl (fun w i => w.setV (d + i) l (f l i)) w) = g w :=
    Weave.foldl_keep _ _ g (fun w i => hg w _ _ _) w
  have hkeep {α : Type} (g : Weave → α) (hg : ∀ (w : Weave) n l y, g (w.setV n l y) = g w) :=
    Weave.foldl_keep x.lanes (fun w l => (List.range n).foldl (fun w i => w.setV (d + i) l (f l i)) w) g
      (fun w l => hinner g hg w l) x.w
  refine ⟨_, Ctx.only_of h (fun w => x.lanes.foldl (fun w l => (List.range n).foldl (fun w i => w.setV (d + i) l (f l i)) w) w)
    (Weave.sameBut_foldl _ _ (fun w l => Weave.sameBut_foldl _ _ (fun w i => w.sameBut_setV _ _ _) w) _) _ _ _ _ _
    (fun m l hl hn => ?_) (fun m _ => ?_) (fun m l _ _ => ?_) (fun m _ => ?_) (fun b _ => ?_), fun l i hl ha hi => ?_⟩
  · refine (hget m hl).trans (if_neg fun hm => ?_)
    rcases hn with hn | hn
    · exact hn (mem_block.2 hm.2)
    · exact absurd ((Lanes.mem_toList _ _).1 hm.1).2 (by simp [hn])
  · exact congrArg (fun t => Tbl.get t 0 m) (hkeep Weave.s fun w n l y => (w.setV_other n l y).1)
  · exact congrArg (fun t => Weave.getP { x.w with p := t } m l) (hkeep Weave.p fun w n l y => (w.setV_other n l y).2.1)
  · exact congrArg (fun t => Tbl.get t nullCap m) (hkeep Weave.k fun w n l y => (w.setV_other n l y).2.2.1)
  · exact congrArg (fun t => BitVec.getLsbD t b) (hkeep Weave.wstat fun w n l y => (w.setV_other n l y).2.2.2)
  · exact (hget (d + i) hl).trans (by rw [if_pos ⟨(Lanes.mem_toList _ _).2 ⟨hl, ha⟩, by omega⟩, Nat.add_sub_cancel_left])

/-- A destination of FUNPK ends below v255 (R116, R362). -/
theorem funpk_block {st : State} {h : Hd} {tgt : Fmt} {d a : Nat} {x : Ctx} (hi : st.Issues (.funpk h false tgt d a) x)
    (hd : d ≠ 255) : d + (if Fmt.byte tgt then 4 else 2) ≤ 255 := by
  have halloc : x.e.f.lr.vAlloc ≤ 255 := Nat.min_le_left _ _
  have hin := hi.inClass rfl (opD (if Fmt.byte tgt then .v4 else .v2) d) (by simp [operands])
  cases hb : Fmt.byte tgt with
  | true =>
    simp only [hb, if_true, opD, Kind.inClass, Bool.and_eq_true, decide_eq_true_eq] at hin ⊢
    omega
  | false =>
    simp only [hb, Bool.false_eq_true, if_false, opD, Kind.inClass, Bool.or_eq_true, beq_iff_eq, hd, false_or, Bool.and_eq_true,
      decide_eq_true_eq] at hin ⊢
    omega

/-- FUNPK widens each element (R362). -/
theorem funpk_does (h : Hd) (sc : Bool) (tgt : Fmt) (d a : Nat) :
    let n := if Fmt.byte tgt then 4 else 2
    Completes (.funpk h sc tgt d a) (if sc ∨ d = 255 then [] else (List.range n).map fun i => d + i)
      (if sc then (List.range (n / 2)).map fun i => d + i else []) [] [] [] fun x w =>
        (sc = false → d ≠ 255 → ∀ l i, l < 32 → x.act.has l = true → i < n → w.getV (d + i) l = unpackElt tgt (x.src32 sc a l) i)
        ∧ (sc = true → ∀ i, i < n / 2 →
          w.getS (d + i) = unpackElt tgt (x.src32 sc a 0) (2 * i + 1) ++ unpackElt tgt (x.src32 sc a 0) (2 * i)) := by
  intro n st x hi
  have hexec := hi.exec_eq (exec_funpk h sc tgt d a st)
  cases sc with
  | true =>
    obtain ⟨w, honly, hval⟩ := Ctx.only_blockS hi.1 d (n / 2) fun i =>
      unpackElt tgt (x.src32 true a 0) (2 * i + 1) ++ unpackElt tgt (x.src32 true a 0) (2 * i)
    exact ⟨_, w, hexec, by simpa using honly, by simp, fun _ i hi => hval i hi⟩
  | false =>
    by_cases hd : d = 255
    · subst hd
      exact ⟨_, _, hexec, Ctx.only_done hi.1, fun _ h => absurd rfl h, by simp⟩
    · obtain ⟨w, honly, hval⟩ := Ctx.only_blockV hi.1 (funpk_block hi hd) fun l i => unpackElt tgt (x.src32 false a l) i
      refine ⟨_, w, hexec, ?_, fun _ _ l i hl ha hi => hval l i hl ha hi, by simp⟩
      simp only [Bool.false_eq_true, if_false, hd, or_false]
      exact honly

/-! ### The statement -/

/-- Settles O7: the comparisons, keys and classes by their tables, the conversions by the form that writes and reports them. -/
theorem floatConversions : Obligations.FloatConversions := by
  refine ⟨fun h sc fm d a b => ⟨fun op => ?_, fun desc => ?_, fun hfm => ?_⟩,
    fun h sc tgt src mid d a b => ⟨?_, ?_, ?_, fun hb => ?_, fun hb => ?_, ?_⟩, by decide +kernel⟩
  · exact doesP_of _ (exec_fsetp h fm op d a b) (fun _ => rfl) (fun _ => rfl) fun x l _ _ => fCond_eq op _ _
  · exact does32_of _ (exec_fkey h sc desc fm d a) (fun _ => rfl) (fun _ => rfl) fun x l => fkeyVal_eq fm desc _
  · exact does32_of _ (exec_fclass h sc fm d a) (fun _ => rfl) (fun _ => rfl) fun x l => class_eq hfm _
  · exact doesFp_conv _ (exec_fcvt h sc tgt src mid d a) (fun _ => rfl) (fun _ => rfl) fun _ _ => rfl
  · exact doesFp_conv _ (exec_itof h sc tgt src d a) (fun _ => rfl) (fun _ => rfl) fun _ _ => rfl
  · exact ftoi_does h sc tgt src d a
  · refine doesFp_conv _ (exec_fpack h sc tgt d a b) (fun _ => rfl) (fun _ => rfl) fun x l => ?_
    simp [Ctx.packSrc, hb, packBits, convert, Fl.or, Fl.none_]
  · refine doesFp_conv _ (exec_fpack h sc tgt d a b) (fun _ => rfl) (fun _ => rfl) fun x l => ?_
    simp [Ctx.packSrc, hb, packBits, convert, Fl.or, Fl.none_]
  · exact funpk_does h sc tgt d a

end Sys2Proof.Machine
end

section
/-! FRCP, FRSQ, FEXP2, FLOG2 and FTRIG (R363): the statement about them. -/

namespace Sys2Proof.Machine

open Sys2Proof

theorem pow2_ofNat (n : Nat) : pow2 (n : Int) = 2 ^ n := rfl

theorem pow2_neg (n : Nat) : pow2 (-(n : Int)) = 1 := by
  rw [pow2, Int.toNat_eq_zero.2 (by omega), pow_zero]

theorem bitLen_two_pow (k : Nat) : bitLen (2 ^ k) = k + 1 := by
  rw [bitLen, if_neg (Nat.two_pow_pos k).ne', Nat.log2_two_pow]

/-- A positive or negative whole number. -/
theorem rat_whole (n : Int) : Val.rat (.fin (decide (n < 0)) n.natAbs 0) = n := by
  rw [Val.rat, zpow_zero, mul_one]
  by_cases h : n < 0
  · rw [if_pos (by simpa using h)]
    have : (n.natAbs : Int) = -n := by omega
    rw [← Int.cast_natCast n.natAbs, this]; push_cast; ring
  · rw [if_neg (by simpa using h)]
    have : (n.natAbs : Int) = n := by omega
    rw [← Int.cast_natCast n.natAbs, this]; ring

/-! ### 2 to a whole power and its logarithm -/

theorem exp2Val_whole (s : Bool) {n : Nat} (hn : n ≤ 149) : exp2Val s n 0 = .fin false 1 (if s then -n else n) := by
  have hsmall : ¬ 512 ≤ n * pow2 0 / pow2 (-0) := by
    rw [neg_zero, show pow2 0 = 1 from rfl, mul_one, Nat.div_one]; omega
  have hx : n * pow2 (0 + fixBits) / pow2 (-(0 + fixBits)) = n * fixOne := by
    rw [zero_add, pow2_ofNat, pow2_neg, Nat.div_one, fixOne]
  have hone : (fixOne : Int) ≠ 0 := by exact_mod_cast fixOne_pos.ne'
  have hsplit : splitFix s n 0 = (if s then -(n : Int) else n, 0) := by
    simp only [splitFix, hx]
    cases s with
    | true =>
      simp only [if_true, Nat.cast_mul, ← neg_mul]
      rw [Int.mul_ediv_cancel _ hone, Int.mul_emod_left]; rfl
    | false =>
      simp only [Bool.false_eq_true, if_false, Nat.cast_mul]
      rw [Int.mul_ediv_cancel _ hone, Int.mul_emod_left]; rfl
  rw [exp2Val, if_neg hsmall, hsplit]
  rfl

/-- FEXP2 of a whole number. -/
theorem exp2_whole {n : Nat} (hn : n ≤ 149) (s : Bool) :
    fnVal .exp2 (.fin s n 0) = .fin false 1 (if s then -n else n) := by
  by_cases h0 : n = 0
  · subst h0; cases s <;> rfl
  · simp only [fnVal, if_neg h0]; exact exp2Val_whole s hn

/-- FLOG2 of a power of two. -/
theorem log2_pow (k : Nat) (e : Int) :
    fnVal .log2 (.fin false (2 ^ k) e) = .fin (decide (k + e < 0)) (k + e).natAbs 0 := by
  have hl : e + bitLen (2 ^ k) - 1 = k + e := by rw [bitLen_two_pow]; push_cast; ring
  simp only [fnVal, if_neg (Nat.two_pow_pos k).ne', Bool.false_eq_true, if_false, log2Val, hl]
  rw [if_pos (by rw [bitLen_two_pow, Nat.add_sub_cancel])]

/-- FRCP of a power of two. -/
theorem rcp_pow (s : Bool) (k : Nat) (e : Int) : fnVal .rcp (.fin s (2 ^ k) e) = .fin s (2 ^ 66) (-e - k - 66) := by
  have hq : 1 * 2 ^ (bitLen (2 ^ k) + 64) = 2 ^ 65 * 2 ^ k := by rw [bitLen_two_pow, one_mul, ← pow_add]; congr 1; omega
  simp only [fnVal, if_neg (Nat.two_pow_pos k).ne', quotient, hq, Nat.mul_mod_left, if_true, Nat.mul_div_cancel _ (Nat.two_pow_pos k)]
  rw [bitLen_two_pow]
  exact congrArg₂ (Val.fin s) (by norm_num) (by push_cast; ring)

/-! ### Quarter turns -/

theorem turns_quarter {q : Nat} (hq : q < 4) : Sys2Proof.turns q 2 =
    match q with
    | 0 => (.fin false 0 0, .fin false 1 0)
    | 1 => (.fin false 1 0, .fin false 0 0)
    | 2 => (.fin false 0 0, .fin true 1 0)
    | _ => (.fin true 1 0, .fin false 0 0) := by
  interval_cases q <;> rfl

theorem turnsOf_quarter (n : Nat) : turnsOf false n (-2) = Sys2Proof.turns (n % 4) 2 := rfl

/-- The sine and the cosine of a number of quarter turns. -/
theorem rat_turns {q : Nat} (hq : q < 4) : Val.rat (Sys2Proof.turns q 2).1 = (if q = 1 then 1 else if q = 3 then -1 else 0)
    ∧ Val.rat (Sys2Proof.turns q 2).2 = if q = 0 then 1 else if q = 2 then -1 else 0 := by
  rw [turns_quarter hq]
  interval_cases q <;> simp [Val.rat]

/-- FTRIG of a number of quarter turns. -/
theorem trig_quarter (n : Nat) : Val.rat (fnVal .sin (.fin false n (-2))) = Val.rat (Sys2Proof.turns (n % 4) 2).1
    ∧ Val.rat (fnVal .cos (.fin false n (-2))) = Val.rat (Sys2Proof.turns (n % 4) 2).2 := by
  by_cases h0 : n = 0
  · subst h0; exact ⟨rfl, rfl⟩
  · simp only [fnVal, if_neg h0, turnsOf_quarter, and_self]

/-! ### The statement -/

/-- Settles O8: each instruction rounds the model's function once, whose special inputs stand in its table; the exact cases
are the ones that the series does not reach. -/
theorem floatFunctions : Obligations.FloatFunctions := by
  refine ⟨fun h sc cos d a => ⟨?_, ?_, ?_, ?_, ?_⟩, fun s => ?_, fun m e hm => ?_, fun n hn => ?_, fun k e => ?_, fun n => ?_,
    fun s k e => ?_⟩
  · exact doesFp_arith _ (exec_frcp h sc d a) (fun _ => rfl) fun _ => rfl
  · exact doesFp_arith _ (exec_frsq h sc d a) (fun _ => rfl) fun _ => rfl
  · exact doesFp_arith _ (exec_fexp2 h sc d a) (fun _ => rfl) fun _ => rfl
  · exact doesFp_arith _ (exec_flog2 h sc d a) (fun _ => rfl) fun _ => rfl
  · exact doesFp_arith _ (exec_ftrig h sc cos d a) (fun _ => rfl) fun _ => rfl
  · exact ⟨rfl, rfl, rfl, rfl, rfl, rfl, rfl, rfl, rfl, rfl, rfl, fun _ => rfl⟩
  · simp [fnVal, hm]
  · rw [exp2_whole hn true, exp2_whole hn false]
    simp [Val.rat, zpow_neg]
  · rw [log2_pow, rat_whole]; push_cast; rfl
  · obtain ⟨hsin, hcos⟩ := trig_quarter n
    obtain ⟨hs, hc⟩ := rat_turns (Nat.mod_lt n (show 0 < 4 by decide))
    exact ⟨hsin.trans hs, hcos.trans hc⟩
  · rw [rcp_pow, Val.rat, eq_div_iff (mul_ne_zero (pow_ne_zero k two_ne_zero) (zpow_ne_zero e two_ne_zero)), mul_assoc, mul_assoc]
    have hpow : ((2 ^ 66 : Nat) : Rat) * (2 ^ (-e - k - 66) * (2 ^ k * 2 ^ e)) = 1 := by
      rw [show ((2 ^ 66 : Nat) : Rat) = 2 ^ (66 : Int) by norm_num, ← zpow_natCast, ← zpow_add₀ two_ne_zero, ← zpow_add₀ two_ne_zero,
        ← zpow_add₀ two_ne_zero]
      rw [show (66 : Int) + (-e - k - 66 + (k + e)) = 0 by ring, zpow_zero]
    rw [hpow, mul_one]

end Sys2Proof.Machine
end

section
/-! FARGMAX, FREDUX and VHAD (R367–R370): the statement about them. -/

namespace Sys2Proof.Machine

open Sys2Proof

/-! ### The largest number of the active lanes -/

/-- `best` is the member of `ls` with the largest key, the first of equal ones, among those that are no NaN. -/
def BestOf (nan : Nat → Bool) (key : Nat → Nat) (ls : List Nat) : Option Nat → Prop
  | none => ∀ l ∈ ls, nan l = true
  | some b => (b ∈ ls ∧ nan b = false) ∧ ∀ l ∈ ls, nan l = false → key l < key b ∨ (key l = key b ∧ b ≤ l)

/-- One lane of FARGMAX. -/
def bestStep (nan : Nat → Bool) (key : Nat → Nat) (best : Option Nat) (l : Nat) : Option Nat :=
  if nan l then best
  else
    match best with
    | none => some l
    | some k => if key k < key l then some l else best

theorem Ctx.argmax_eq (x : Ctx) (fm : Fmt) (a : Nat) : x.argmax fm a = x.lanes.foldl
    (bestStep (fun l => (x.val false fm a l).isNan) fun l => ascKey fm.bits (x.w.getV a l).toNat) none := rfl

section Best

variable {nan : Nat → Bool} {key : Nat → Nat}

theorem bestStep_nan {l : Nat} (h : nan l = true) (best : Option Nat) : bestStep nan key best l = best := by simp [bestStep, h]

theorem bestStep_first {l : Nat} (h : nan l = false) : bestStep nan key none l = some l := by simp [bestStep, h]

theorem bestStep_next {l : Nat} (h : nan l = false) (k : Nat) :
    bestStep nan key (some k) l = if key k < key l then some l else some k := by simp [bestStep, h]

theorem BestOf.step {ls : List Nat} {best : Option Nat} (h : BestOf nan key ls best) {l : Nat} (hl : ∀ k ∈ ls, k < l) :
    BestOf nan key (ls ++ [l]) (bestStep nan key best l) := by
  by_cases hn : nan l = true
  · rw [bestStep_nan hn]
    cases best with
    | none =>
      intro k hk
      rcases List.mem_append.1 hk with hk | hk
      · exact h k hk
      · exact List.mem_singleton.1 hk ▸ hn
    | some b =>
      refine ⟨⟨List.mem_append_left _ h.1.1, h.1.2⟩, fun k hk hnum => ?_⟩
      rcases List.mem_append.1 hk with hk | hk
      · exact h.2 k hk hnum
      · rw [List.mem_singleton.1 hk, hn] at hnum; exact absurd hnum (by simp)
  · have hnum : nan l = false := by simpa using hn
    have hnew (hlt : ∀ k ∈ ls, nan k = false → key k < key l) : BestOf nan key (ls ++ [l]) (some l) := by
      refine ⟨⟨List.mem_append_right _ List.mem_cons_self, hnum⟩, fun k hk hk' => ?_⟩
      rcases List.mem_append.1 hk with hk | hk
      · exact .inl (hlt k hk hk')
      · rw [List.mem_singleton.1 hk]; exact .inr ⟨rfl, le_rfl⟩
    cases best with
    | none => rw [bestStep_first hnum]; exact hnew fun k hk hk' => absurd (h k hk) (by simp [hk'])
    | some b =>
      rw [bestStep_next hnum]
      by_cases hlt : key b < key l
      · rw [if_pos hlt]
        exact hnew fun k hk hk' => by rcases h.2 k hk hk' with h | h <;> omega
      · rw [if_neg hlt]
        refine ⟨⟨List.mem_append_left _ h.1.1, h.1.2⟩, fun k hk hk' => ?_⟩
        rcases List.mem_append.1 hk with hk | hk
        · exact h.2 k hk hk'
        · rw [List.mem_singleton.1 hk]
          have hb := hl b h.1.1
          omega

/-- The lanes in increasing order give the best of them. -/
theorem bestOf_foldl (ls : List Nat) (hls : ls.Pairwise (· < ·)) : BestOf nan key ls (ls.foldl (bestStep nan key) none) := by
  induction ls using List.reverseRecOn with
  | nil => intro l hl; cases hl
  | append_singleton ls l ih =>
    obtain ⟨hpre, -, hlast⟩ := List.pairwise_append.1 hls
    rw [List.foldl_append]
    exact (ih hpre).step fun k hk => hlast k hk l List.mem_cons_self

/-- Two lanes that are both the best of one list are one. -/
theorem BestOf.unique {ls : List Nat} {b c : Nat} (hb : BestOf nan key ls (some b)) (hc : BestOf nan key ls (some c)) : b = c := by
  have h1 := hb.2 c hc.1.1 hc.1.2
  have h2 := hc.2 b hb.1.1 hb.1.2
  omega

end Best

theorem Ctx.pairwise_lanes (x : Ctx) : x.lanes.Pairwise (· < ·) := by
  rw [x.lanes_eq]
  exact List.Pairwise.filter _ List.pairwise_lt_range

theorem Ctx.bestOf_argmax (x : Ctx) (fm : Fmt) (a : Nat) :
    BestOf (fun l => (x.val false fm a l).isNan) (fun l => ascKey fm.bits (x.w.getV a l).toNat) x.lanes (x.argmax fm a) :=
  bestOf_foldl x.lanes x.pairwise_lanes

/-- The first active lane. -/
theorem Ctx.lanes_first {x : Ctx} {b : Nat} (hb : b < 32) (ha : x.act.has b = true) (hlow : ∀ l, l < b → x.act.has l = false) :
    ∃ r, x.lanes = b :: r := by
  have hmem : b ∈ x.lanes := (x.mem_lanes _).2 ⟨hb, ha⟩
  have hsort := x.pairwise_lanes
  cases hls : x.lanes with
  | nil => rw [hls] at hmem; cases hmem
  | cons c r =>
    have hc : c ∈ x.lanes := hls ▸ List.mem_cons_self
    rw [hls] at hmem hsort
    have hnot : ¬ c < b := fun h => absurd (hlow c h) (by simp [((x.mem_lanes _).1 hc).2])
    rcases List.mem_cons.1 hmem with h | h
    · exact ⟨r, by rw [h]⟩
    · exact absurd (List.rel_of_pairwise_cons hsort h) hnot

/-- What FARGMAX writes (R368). -/
def Ctx.argmaxWord (x : Ctx) (fm : Fmt) (a : Nat) : Nat :=
  match x.argmax fm a, x.lanes with
  | some l, _ => l * 2 ^ 32 + (x.w.getV a l).toNat % 2 ^ fm.bits
  | none, l :: _ => l * 2 ^ 32 + canonNan fm
  | none, [] => 0xFFFFFFFF00000000 + signCode fm true + infCode fm

theorem Ctx.argmaxWord_some {x : Ctx} {fm : Fmt} {a l : Nat} (h : x.argmax fm a = some l) :
    x.argmaxWord fm a = l * 2 ^ 32 + (x.w.getV a l).toNat % 2 ^ fm.bits := by rw [argmaxWord, h]

theorem Ctx.argmaxWord_first {x : Ctx} {fm : Fmt} {a l : Nat} {r : List Nat} (h : x.argmax fm a = none) (hls : x.lanes = l :: r) :
    x.argmaxWord fm a = l * 2 ^ 32 + canonNan fm := by rw [argmaxWord, h, hls]

theorem Ctx.argmaxWord_nil {x : Ctx} {fm : Fmt} {a : Nat} (hls : x.lanes = []) :
    x.argmaxWord fm a = 0xFFFFFFFF00000000 + signCode fm true + infCode fm := by
  rw [argmaxWord, argmax_eq, hls]; rfl

/-! ### The tree of FREDUX -/

/-- Two neighbouring nodes combined (R369). -/
def pairNode (comb : W32 → W32 → W32 × Bool) : Option W32 → Option W32 → Option W32 × Bool
  | some u, some v => (some (comb u v).1, (comb u v).2)
  | none, q => (q, false)
  | p, none => (p, false)

section Tree

variable (comb : W32 → W32 → W32 × Bool)

theorem treeLevel_cons (p q : Option W32) (r : List (Option W32)) : treeLevel comb (p :: q :: r)
    = ((pairNode comb p q).1 :: (treeLevel comb r).1, (treeLevel comb r).2 || (pairNode comb p q).2) := by
  cases p <;> cases q <;> simp [treeLevel, pairNode]

theorem treeNode_succ (leaf : Nat → Option W32) (k i : Nat) : treeNode comb leaf (k + 1) i =
    let p := treeNode comb leaf k (2 * i)
    let q := treeNode comb leaf k (2 * i + 1)
    ((pairNode comb p.1 q.1).1, p.2 || q.2 || (pairNode comb p.1 q.1).2) := by
  rw [treeNode]
  rcases treeNode comb leaf k (2 * i) with ⟨_ | u, f⟩ <;> rcases treeNode comb leaf k (2 * i + 1) with ⟨_ | v, g⟩ <;>
    simp [pairNode]

/-- The nodes above the leaves. -/
def upper (leaf : Nat → Option W32) (i : Nat) : Option W32 × Bool := pairNode comb (leaf (2 * i)) (leaf (2 * i + 1))

/-- A level over neighbouring leaves. -/
theorem treeLevel_leaves (leaf : Nat → Option W32) (m b : Nat) : treeLevel comb ((List.range' (2 * b) (2 * m)).map leaf)
    = ((List.range' b m).map fun i => (upper comb leaf i).1, (List.range' b m).any fun i => (upper comb leaf i).2) := by
  induction m generalizing b with
  | zero => rfl
  | succ m ih =>
    rw [Nat.mul_succ, List.range'_succ, List.range'_succ, List.map_cons, List.map_cons, treeLevel_cons,
      show 2 * b + 1 + 1 = 2 * (b + 1) by ring, ih (b + 1), List.range'_succ, List.map_cons, List.any_cons, Bool.or_comm]
    rfl

/-- A node from the level above the leaves. -/
theorem treeNode_upper (leaf : Nat → Option W32) (k i : Nat) : treeNode comb leaf (k + 1) i =
    let g := treeNode comb (fun j => (upper comb leaf j).1) k i
    (g.1, g.2 || (List.range' (i * 2 ^ k) (2 ^ k)).any fun j => (upper comb leaf j).2) := by
  induction k generalizing i with
  | zero => rw [treeNode_succ]; simp [treeNode, upper]
  | succ k ih =>
    have hrange : List.range' (i * 2 ^ (k + 1)) (2 ^ (k + 1))
        = List.range' (2 * i * 2 ^ k) (2 ^ k) ++ List.range' ((2 * i + 1) * 2 ^ k) (2 ^ k) := by
      rw [show (2 * i + 1) * 2 ^ k = 2 * i * 2 ^ k + 1 * 2 ^ k by ring, List.range'_append,
        show i * 2 ^ (k + 1) = 2 * i * 2 ^ k by ring, show 2 ^ (k + 1) = 2 ^ k + 2 ^ k by ring]
    rw [treeNode_succ, ih, ih, treeNode_succ, hrange, List.any_append]
    refine Prod.ext rfl ?_
    dsimp only
    ac_rfl

/-- The level-wise reduction is the tree's node. -/
theorem treeReduce_eq (n : Nat) (leaf : Nat → Option W32) :
    treeReduce comb n ((List.range' 0 (2 ^ n)).map leaf) = treeNode comb leaf n 0 := by
  induction n generalizing leaf with
  | zero => rfl
  | succ n ih =>
    have hlevel := treeLevel_leaves comb leaf (2 ^ n) 0
    rw [Nat.mul_zero, ← pow_succ'] at hlevel
    rw [treeReduce, hlevel, treeNode_upper]
    simp only [ih, Nat.zero_mul, Bool.or_comm]

end Tree

/-- What FREDUX combines (R369). -/
def Ctx.redComb (x : Ctx) (op : FReduxOp) (u v : W32) : W32 × Bool :=
  match op with
  | .add => x.addBits (value .fp32 u.toNat) (value .fp32 v.toNat)
  | .min => (fMinMax .fp32 false u v, false)
  | .max => (fMinMax .fp32 true u v, false)

/-- The leaves of FREDUX: a value for each active lane. -/
def Ctx.leaves (x : Ctx) (a l : Nat) : Option W32 := if x.act.has l then some (x.w.getV a l) else none

/-- The identity of FREDUX. -/
def redUnit : FReduxOp → W32
  | .add => 0
  | .min => 0x7F800000
  | .max => 0xFF800000

theorem execFredux_eq (h : Hd) (op : FReduxOp) (d a : Nat) (s : State) : execFredux h op d a s =
    issue (.fredux h op d a) s fun x =>
      let r := treeNode (x.redComb op) (x.leaves a) 5 0
      .done ((x.upd fun w => w.setS d ((r.1.getD (redUnit op)).setWidth 64)).stickyIf x.c.weave wsSat r.2) := by
  refine congrArg (issue _ s) (funext fun x => ?_)
  have hr : treeReduce (x.redComb op) 5 ((List.range 32).map (x.leaves a)) = treeNode (x.redComb op) (x.leaves a) 5 0 := by
    rw [List.range_eq_range']; exact treeReduce_eq _ 5 _
  show (match treeReduce (x.redComb op) 5 ((List.range 32).map (x.leaves a)) with
    | (r, sat) => Res.done ((x.upd fun w => w.setS d ((r.getD (redUnit op)).setWidth 64)).stickyIf x.c.weave wsSat sat)) = _
  rw [hr]

/-! ### The butterfly of VHAD -/

/-- One sum and one difference of VHAD. -/
def Ctx.hadAdd (x : Ctx) (p q : W32) : W32 := (x.addBits (value .fp32 p.toNat) (value .fp32 q.toNat)).1

def Ctx.hadSub (x : Ctx) (p q : W32) : W32 := (x.addBits (value .fp32 p.toNat) (value .fp32 q.toNat).neg).1

section Butterfly

variable (x : Ctx)

/-- A stage takes the lanes of level `k` to those of level `k + 1`. -/
theorem hadStage_lane (leaf : Nat → W32) {k : Nat} (hk : k < 5) :
    (hadStage x (2 ^ k) ((List.range 32).map (hadLane x.hadAdd x.hadSub leaf k))).1
      = (List.range 32).map (hadLane x.hadAdd x.hadSub leaf (k + 1)) := by
  have hget {l : Nat} (hl : l < 32) : ((List.range 32).map (hadLane x.hadAdd x.hadSub leaf k)).getD l 0
      = hadLane x.hadAdd x.hadSub leaf k l := by
    rw [List.getD_eq_getElem _ _ (by simpa using hl), List.getElem_map, List.getElem_range]
  rw [hadStage]
  simp only [List.length_map, List.length_range, List.map_map]
  refine List.map_congr_left fun l hl => ?_
  have hl' : l < 32 := List.mem_range.1 hl
  rw [Function.comp, hadLane]
  by_cases hbit : l / 2 ^ k % 2 = 0
  · have hup : l + 2 ^ k < 32 := by interval_cases k <;> omega
    simp only [if_pos hbit, hget hl', hget hup]; rfl
  · have hdn : l - 2 ^ k < 32 := (Nat.sub_le _ _).trans_lt hl'
    simp only [if_neg hbit, hget hl', hget hdn]; rfl

theorem packFp_sat (fm : Fmt) (v : Val) (mode : Rnd) : (packFp fm v mode false).2.sat = false := by
  cases v with
  | nan s => rfl
  | inf s => simp only [packFp]; split <;> rfl
  | fin s m e =>
    simp only [packFp]
    split
    · rfl
    · split
      · rfl
      · simp only [Bool.false_eq_true, if_false]; split <;> rfl

/-- Without MOD SAT no stage saturates (R355). -/
theorem hadStage_sat (hsat : x.c.sat = false) (dist : Nat) (v : List W32) : (hadStage x dist v).2 = false := by
  have hadd (p q : Val) : (x.addBits p q).2 = false := by simp only [Ctx.addBits, hsat, packFp_sat]
  rw [hadStage, List.any_eq_false]
  intro r hr
  obtain ⟨l, -, rfl⟩ := List.mem_map.1 hr
  split
  · simp [hadd]
  · simp [hadd]

/-- The stages of VHAD at the distances `ds`. -/
def Ctx.hadRun (v : List W32) (ds : List Nat) : List W32 × Bool :=
  ds.foldl (fun (acc : List W32 × Bool) n =>
    let (v', b) := hadStage x n acc.1
    (v', acc.2 || b)) (v, false)

/-- The first `n` stages. -/
def Ctx.hadStages (v : List W32) (n : Nat) : List W32 × Bool := x.hadRun v ((List.range n).map fun k => 2 ^ k)

theorem Ctx.hadStages_succ (v : List W32) (n : Nat) : x.hadStages v (n + 1) =
    ((hadStage x (2 ^ n) (x.hadStages v n).1).1, (x.hadStages v n).2 || (hadStage x (2 ^ n) (x.hadStages v n).1).2) := by
  rw [hadStages, hadRun, List.range_succ, List.map_append, List.foldl_append]; rfl

theorem Ctx.hadStages_lanes (leaf : Nat → W32) {n : Nat} (hn : n ≤ 5) :
    (x.hadStages ((List.range 32).map leaf) n).1 = (List.range 32).map (hadLane x.hadAdd x.hadSub leaf n) := by
  induction n with
  | zero => rfl
  | succ n ih => rw [hadStages_succ, ih (by omega)]; exact hadStage_lane x leaf (by omega)

theorem Ctx.hadStages_sat (hsat : x.c.sat = false) (v : List W32) (n : Nat) : (x.hadStages v n).2 = false := by
  induction n with
  | zero => rfl
  | succ n ih => rw [hadStages_succ, ih, hadStage_sat x hsat]; rfl

end Butterfly

theorem execVhad_eq (h : Hd) (wide : Bool) (d a : Nat) (s : State) : execVhad h wide d a s =
    issue (.vhad h wide d a) s fun x =>
      let r := x.hadStages ((List.range 32).map fun l => if x.act.has l then x.w.getV a l else 0) (if wide then 5 else 4)
      .done ((x.putV d fun l => r.1.getD l 0).stickyIf x.c.weave wsSat r.2) := by
  refine congrArg (issue _ s) (funext fun x => ?_)
  have hds : (List.range (if wide then 5 else 4)).map (fun k => 2 ^ k) = [1, 2, 4, 8] ++ (if wide then [16] else []) := by
    cases wide <;> rfl
  show (match x.hadRun ((List.range 32).map fun l => if x.act.has l then x.w.getV a l else 0)
      ([1, 2, 4, 8] ++ (if wide then [16] else [])) with
    | (r, sat) => Res.done ((x.putV d fun l => r.getD l 0).stickyIf x.c.weave wsSat sat)) = _
  rw [← hds]
  unfold Ctx.hadStages
  rcases x.hadRun _ _ with ⟨r, sat⟩
  rfl

/-! ### The statement -/

/-- FARGMAX (R368). -/
theorem fargmax_does (h : Hd) (fm : Fmt) (d a : Nat) : DoesS (.fargmax h fm d a) d fun x => BitVec.ofNat 64 (x.argmaxWord fm a) :=
  doesS_of _ (exec_fargmax h fm d a) (fun _ => rfl) (fun _ => rfl) fun _ => rfl

/-- FREDUX (R369). -/
theorem fredux_does (h : Hd) (op : FReduxOp) (d a : Nat) : Completes (.fredux h op d a) [] [d] [] [] [wsSat] fun x w =>
    let r := treeNode (x.redComb op) (x.leaves a) 5 0
    w.getS d = (r.1.getD (redUnit op)).setWidth 64 ∧ w.wstat.getLsbD wsSat = (x.w.wstat.getLsbD wsSat || r.2) := by
  intro st x hi
  obtain ⟨w, honly, hval⟩ := Ctx.only_setS hi.1 d
    (((treeNode (x.redComb op) (x.leaves a) 5 0).1.getD (redUnit op)).setWidth 64)
  obtain ⟨w', honly', -, hs, -, -, hbits⟩ := (honly.allowSticky [wsSat]).stickyIf wsSat (by decide)
    (treeNode (x.redComb op) (x.leaves a) 5 0).2 fun _ => by simp
  refine ⟨_, w', hi.exec_eq ((exec_fredux ..).trans (execFredux_eq ..)), honly', (congrArg (fun t => Tbl.get t 0 d) hs).trans hval, ?_⟩
  rw [hbits, honly.status wsSat (by simp)]
  simp

/-- VHAD (R370). -/
theorem vhad_does (h : Hd) (wide : Bool) (d a : Nat) : Completes (.vhad h wide d a) (destV false d) [] [] [] [wsSat] fun x w =>
    (d ≠ 255 → ∀ l, l < 32 → x.act.has l = true → w.getV d l = hadLane x.hadAdd x.hadSub
      (fun l => if x.act.has l then x.w.getV a l else 0) (if wide then 5 else 4) l)
    ∧ (x.c.sat = false → w.wstat = x.w.wstat) := by
  intro st x hi
  set leaf : Nat → W32 := fun l => if x.act.has l then x.w.getV a l else 0 with hleaf
  set n := if wide then 5 else 4 with hn
  obtain ⟨w, honly, hval⟩ := Ctx.only_putV hi.1 d fun l => (x.hadStages ((List.range 32).map leaf) n).1.getD l 0
  obtain ⟨w', honly', hv, -, -, -, hbits⟩ := (honly.allowSticky [wsSat]).stickyIf wsSat (by decide)
    (x.hadStages ((List.range 32).map leaf) n).2 fun _ => by simp
  refine ⟨_, w', hi.exec_eq ((exec_vhad ..).trans (execVhad_eq ..)), honly', fun hd l hl ha => ?_, fun hsat => ?_⟩
  · refine (congrArg (fun t => Weave.getV { w with v := t } d l) hv).trans ((hval l hl ha hd).trans ?_)
    rw [x.hadStages_lanes leaf (by rw [hn]; split <;> decide), List.getD_eq_getElem _ _ (by simpa using hl), List.getElem_map,
      List.getElem_range]
  · refine BitVec.eq_of_getLsbD_eq fun b _ => ?_
    rw [hbits, x.hadStages_sat hsat, Bool.false_and, Bool.or_false]
    exact honly.status b (by simp)

/-- Settles O10: FARGMAX folds the best of the lanes, FREDUX's levels make its tree, and VHAD's stages its butterfly. -/
theorem floatWeaveOperations : Obligations.FloatWeaveOperations := by
  intro h fm d a
  refine ⟨(fargmax_does h fm d a).imp fun x w hw => ⟨fun b hb hbest => ?_, fun hnone b hb ha hlow => ?_, fun hact => ?_⟩,
    fun op => (fredux_does h op d a).imp fun x w hw => ?_, fun wide => vhad_does h wide d a⟩
  · have hargmax := x.bestOf_argmax fm a
    cases hm : x.argmax fm a with
    | none =>
      rw [hm] at hargmax
      exact absurd (hargmax b ((x.mem_lanes _).2 ⟨hb.1, hb.2.1⟩)) (by simp [hb.2.2])
    | some c =>
      rw [hm] at hargmax
      have hbc : b = c := BestOf.unique (ls := x.lanes) ⟨⟨(x.mem_lanes _).2 ⟨hb.1, hb.2.1⟩, hb.2.2⟩, fun l hl hnum =>
        hbest l ⟨((x.mem_lanes _).1 hl).1, ((x.mem_lanes _).1 hl).2, hnum⟩⟩ hargmax
      rw [hbc]; exact hw.trans (congrArg (BitVec.ofNat 64) (Ctx.argmaxWord_some hm))
  · have hargmax := x.bestOf_argmax fm a
    cases hm : x.argmax fm a with
    | none =>
      obtain ⟨r, hr⟩ := Ctx.lanes_first hb ha hlow
      exact hw.trans (congrArg (BitVec.ofNat 64) (Ctx.argmaxWord_first hm hr))
    | some c =>
      rw [hm] at hargmax
      obtain ⟨hc, hca⟩ := (x.mem_lanes _).1 hargmax.1.1
      exact absurd ⟨hc, hca, hargmax.1.2⟩ (hnone c)
  · exact hw.trans (congrArg (BitVec.ofNat 64) (Ctx.argmaxWord_nil ((Lanes.toList_eq_nil _).2 hact)))
  · cases op
    all_goals
      refine ⟨hw.1.trans ?_, hw.2⟩
      dsimp only
      congr 1
      split <;> rename_i hr <;> exact congrArg (fun t => Option.getD t _) hr

end Sys2Proof.Machine
end

section
/-! The exact values of R355 as rational numbers, and the rounding to an integer of R204. -/

namespace Sys2Proof.Machine

open Sys2Proof

/-! ### Exact sums, products and order (R355) -/

/-- The sign of a value as a factor. -/
def signRat (s : Bool) : Rat := if s then -1 else 1

theorem signRat_mul (s t : Bool) : signRat (s != t) = signRat s * signRat t := by cases s <;> cases t <;> norm_num [signRat]

theorem abs_signRat (s : Bool) : |signRat s| = 1 := by cases s <;> norm_num [signRat]

theorem rat_fin (s : Bool) (m : Nat) (e : Int) : Val.rat (.fin s m e) = signRat s * (m * 2 ^ e) := by
  rw [Val.rat, signRat, mul_assoc]

theorem two_zpow_pos (e : Int) : (0 : Rat) < 2 ^ e := zpow_pos two_pos e

theorem pow2_cast {k : Int} (hk : 0 ≤ k) : (pow2 k : Rat) = 2 ^ k := by
  rw [pow2, Nat.cast_pow, Nat.cast_ofNat, ← zpow_natCast, Int.toNat_of_nonneg hk]

/-- The integer of units of 2^q that a value is. -/
theorem rat_scaled (s : Bool) (m : Nat) {e q : Int} (hq : q ≤ e) : Val.rat (.fin s m e) = scaled s m e q * 2 ^ q := by
  have hpow : (pow2 (e - q) : Rat) * 2 ^ q = 2 ^ e := by
    rw [pow2_cast (by omega), ← zpow_add₀ two_ne_zero, sub_add_cancel]
  have habs : ((m * pow2 (e - q) : Nat) : Rat) * 2 ^ q = m * 2 ^ e := by push_cast; rw [mul_assoc, hpow]
  rw [rat_fin, ← habs, scaled, signRat]
  cases s with
  | true => simp
  | false => simp

/-- A number of units from its sign and magnitude. -/
theorem rat_units (x q : Int) : Val.rat (.fin (decide (x < 0)) x.natAbs q) = x * 2 ^ q := by
  have hcast : ((x.natAbs : Int) : Rat) = (x.natAbs : Rat) := Int.cast_natCast _
  rw [rat_fin, signRat, ← hcast]
  by_cases h : x < 0
  · rw [if_pos (by simpa using h), show ((x.natAbs : Int)) = -x by omega]; push_cast; ring
  · rw [if_neg (by simpa using h), show ((x.natAbs : Int)) = x by omega, one_mul]

theorem add_fin (mode : Rnd) (s t : Bool) (m n : Nat) (e f : Int) :
    let x := scaled s m e (min e f) + scaled t n f (min e f)
    Val.add (.fin s m e) (.fin t n f) mode = if x = 0 then
        (if m = 0 ∧ n = 0 ∧ s = t then .fin s 0 0 else .fin (mode == .rd) 0 0)
      else .fin (x < 0) x.natAbs (min e f) := rfl

theorem rat_zero (s : Bool) (e : Int) : Val.rat (.fin s 0 e) = 0 := by rw [rat_fin]; simp

/-- The sum of two numbers in units of the smaller exponent. -/
theorem rat_add_units (s t : Bool) (m n : Nat) (e f : Int) : Val.rat (.fin s m e) + Val.rat (.fin t n f)
    = ((scaled s m e (min e f) + scaled t n f (min e f) : Int) : Rat) * 2 ^ min e f := by
  rw [rat_scaled s m (min_le_left e f), rat_scaled t n (min_le_right e f)]; push_cast; ring

theorem add_exact (mode : Rnd) (s t : Bool) (m n : Nat) (e f : Int) :
    Val.isFin (Val.add (.fin s m e) (.fin t n f) mode) = true
    ∧ Val.rat (Val.add (.fin s m e) (.fin t n f) mode) = Val.rat (.fin s m e) + Val.rat (.fin t n f) := by
  rw [rat_add_units, add_fin]
  split
  next h =>
    rw [h, Int.cast_zero, zero_mul]
    split <;> exact ⟨rfl, rat_zero _ _⟩
  next h => exact ⟨rfl, rat_units _ _⟩

theorem add_zero_sign (mode : Rnd) {s t : Bool} {m n : Nat} {e f : Int} (h : Val.rat (.fin s m e) + Val.rat (.fin t n f) = 0)
    (hne : m ≠ 0 ∨ s ≠ t) : (Val.add (.fin s m e) (.fin t n f) mode).sign = decide (mode = .rd) := by
  rw [rat_add_units, mul_eq_zero, or_iff_left (two_zpow_pos _).ne', Int.cast_eq_zero] at h
  rw [add_fin, if_pos h, if_neg (by tauto)]
  cases mode <;> rfl

theorem mul_exact (s t : Bool) (m n : Nat) (e f : Int) :
    Val.rat (Val.mul (.fin s m e) (.fin t n f)) = Val.rat (.fin s m e) * Val.rat (.fin t n f) := by
  rw [Val.mul, rat_fin, rat_fin, rat_fin, signRat_mul, zpow_add₀ two_ne_zero]; push_cast; ring

theorem cmp_exact (s t : Bool) (m n : Nat) (e f : Int) :
    Val.cmp (.fin s m e) (.fin t n f) = some (compare (Val.rat (.fin s m e)) (Val.rat (.fin t n f))) := by
  rw [rat_scaled s m (min_le_left e f), rat_scaled t n (min_le_right e f), Val.cmp]
  have hpos := two_zpow_pos (min e f)
  congr 1
  rcases lt_trichotomy (scaled s m e (min e f)) (scaled t n f (min e f)) with h | h | h
  · rw [compare_lt_iff_lt.2 h, compare_lt_iff_lt.2 (mul_lt_mul_of_pos_right (by exact_mod_cast h) hpos)]
  · rw [h, compare_eq_iff_eq.2 rfl, compare_eq_iff_eq.2 rfl]
  · rw [compare_gt_iff_gt.2 h, compare_gt_iff_gt.2 (mul_lt_mul_of_pos_right (by exact_mod_cast h) hpos)]

theorem rat_eq_zero (s : Bool) (m : Nat) (e : Int) : Val.rat (.fin s m e) = 0 ↔ m = 0 := by
  rw [← abs_eq_zero, abs_rat_fin, mul_eq_zero, or_iff_left (two_zpow_pos e).ne', Nat.cast_eq_zero]

/-- The special operands of R355. -/
theorem special_operands (mode : Rnd) (a b : Val) (s t : Bool) :
    (a.isNan = true ∨ b.isNan = true → Val.add a b mode = .nan false ∧ Val.mul a b = .nan false ∧ Val.cmp a b = none)
    ∧ Val.add (.inf s) (.inf t) mode = (if s = t then .inf s else .nan false)
    ∧ (Val.isFin a = true → Val.add (.inf s) a mode = .inf s ∧ Val.add a (.inf s) mode = .inf s)
    ∧ (Val.isFin a = true → Val.rat a = 0 → Val.mul (.inf s) a = .nan false ∧ Val.mul a (.inf s) = .nan false)
    ∧ (Val.isFin a = true → Val.rat a ≠ 0 → Val.mul (.inf s) a = .inf (s != a.sign) ∧ Val.mul a (.inf s) = .inf (s != a.sign)) := by
  refine ⟨fun h => ?_, rfl, fun h => ?_, fun h h0 => ?_, fun h h0 => ?_⟩
  · cases a with
    | nan u => exact ⟨rfl, rfl, rfl⟩
    | inf u =>
      cases b with
      | nan v => exact ⟨rfl, rfl, rfl⟩
      | inf v => simp [Val.isNan] at h
      | fin v n f => simp [Val.isNan] at h
    | fin u m e =>
      cases b with
      | nan v => exact ⟨rfl, rfl, rfl⟩
      | inf v => simp [Val.isNan] at h
      | fin v n f => simp [Val.isNan] at h
  all_goals
    cases a with
    | nan u => cases h
    | inf u => cases h
    | fin u m e => ?_
  · exact ⟨rfl, rfl⟩
  · rw [rat_eq_zero] at h0
    simp [Val.mul, h0]
  · rw [Ne, rat_eq_zero] at h0
    simp [Val.mul, h0, Val.sign, bne_comm]

/-! ### Rounding to an integer (R204) -/

theorem roundInt_int (mode : Rnd) (n : Int) : roundInt mode n = n := by
  have hf : (n : Rat).floor = n := Rat.floor_intCast n
  simp only [roundInt, hf, sub_self, if_true]

/-- A number strictly between `f` and `f + 1`. -/
theorem roundInt_between (mode : Rnd) {q : Rat} {f : Int} (h0 : (f : Rat) < q) (h1 : q < f + 1) : roundInt mode q =
    match mode with
    | .rne => if q - f < 1 / 2 then f else if 1 / 2 < q - f then f + 1 else if f % 2 = 0 then f else f + 1
    | .rz => if 0 ≤ q then f else f + 1
    | .ru => f + 1
    | .rd => f
    | .ro => if f % 2 = 0 then f + 1 else f
    | .rna => if q - f < 1 / 2 then f else if 1 / 2 < q - f then f + 1 else if 0 ≤ q then f + 1 else f := by
  have hf : q.floor = f := (Int.floor_eq_iff (a := q)).2 ⟨h0.le, h1⟩
  simp only [roundInt, hf]
  exact if_neg (by linarith [sub_pos.2 h0] : ¬ q - f = 0)

/-- An integer from a sign and a magnitude. -/
def signInt (s : Bool) (n : Nat) : Int := if s then -(n : Int) else n

theorem signInt_cast (s : Bool) (n : Nat) : (signInt s n : Rat) = signRat s * n := by
  cases s <;> simp [signInt, signRat]

/-- Is the magnitude `q + r / n` rounded away from zero (R204 Table 4). -/
def roundsUp (mode : Rnd) (s : Bool) (q r n : Nat) : Bool :=
  match mode with
  | .rne => decide (n < 2 * r) || (2 * r == n && q % 2 == 1)
  | .rz => false
  | .ru => !s
  | .rd => s
  | .ro => q % 2 == 0
  | .rna => decide (n ≤ 2 * r)

theorem roundMag_up (mode : Rnd) (s : Bool) {m sh : Nat} (hr : m % 2 ^ sh ≠ 0) : roundMag mode s m sh =
    (if roundsUp mode s (m / 2 ^ sh) (m % 2 ^ sh) (2 ^ sh) then m / 2 ^ sh + 1 else m / 2 ^ sh, true) := if_neg hr

section Fraction

variable {q r n : Nat} (hr : r ≠ 0) (hrn : r < n)
include hr hrn

theorem fraction_bounds : (0 : Rat) < r / n ∧ (r : Rat) / n < 1 := by
  have hn : (0 : Rat) < n := by exact_mod_cast Nat.zero_lt_of_lt hrn
  exact ⟨div_pos (by exact_mod_cast Nat.pos_of_ne_zero hr) hn, (div_lt_one hn).2 (by exact_mod_cast hrn)⟩

omit hr in
/-- A fraction against a half. -/
theorem fraction_half : ((r : Rat) / n < 1 / 2 ↔ 2 * r < n) ∧ (1 / 2 < (r : Rat) / n ↔ n < 2 * r) := by
  have hn : (0 : Rat) < n := by exact_mod_cast Nat.zero_lt_of_lt hrn
  constructor
  · rw [div_lt_div_iff₀ hn two_pos, one_mul, mul_comm]; exact_mod_cast Iff.rfl
  · rw [div_lt_div_iff₀ two_pos hn, one_mul, mul_comm]; exact_mod_cast Iff.rfl

/-- A positive number between two integers. -/
theorem roundInt_pos (mode : Rnd) :
    roundInt mode (q + r / n) = if roundsUp mode false q r n then ((q + 1 : Nat) : Int) else (q : Nat) := by
  obtain ⟨h0, h1⟩ := fraction_bounds hr hrn
  obtain ⟨hlo, hhi⟩ := fraction_half hrn
  have hq : (0 : Rat) ≤ q := q.cast_nonneg
  rw [roundInt_between mode (f := (q : Int)) (by push_cast; linarith) (by push_cast; linarith)]
  have hsub : (q : Rat) + r / n - ((q : Int) : Rat) = r / n := by push_cast; ring
  have hpos : (0 : Rat) ≤ q + r / n := by linarith
  simp only [hsub, hlo, hhi, if_pos hpos]
  cases mode with
  | rne => simp only [roundsUp, Bool.or_eq_true, Bool.and_eq_true, decide_eq_true_eq, beq_iff_eq]; split_ifs <;> omega
  | rna => simp only [roundsUp, decide_eq_true_eq]; split_ifs <;> omega
  | ro => simp only [roundsUp, beq_iff_eq]; split_ifs <;> omega
  | _ => simp [roundsUp]

/-- A negative number between two integers. -/
theorem roundInt_neg (mode : Rnd) :
    roundInt mode (-(q + r / n)) = if roundsUp mode true q r n then -((q + 1 : Nat) : Int) else -(q : Nat) := by
  obtain ⟨h0, h1⟩ := fraction_bounds hr hrn
  obtain ⟨hlo, hhi⟩ := fraction_half hrn
  have hq : (0 : Rat) ≤ q := q.cast_nonneg
  rw [roundInt_between mode (f := -((q : Int) + 1)) (by push_cast; linarith) (by push_cast; linarith)]
  have hsub : -((q : Rat) + r / n) - ((-((q : Int) + 1) : Int) : Rat) = 1 - r / n := by push_cast; ring
  have hneg : ¬ (0 : Rat) ≤ -(q + r / n) := by linarith
  have hlo' : 1 - (r : Rat) / n < 1 / 2 ↔ n < 2 * r := by rw [← hhi]; constructor <;> intro h <;> linarith
  have hhi' : 1 / 2 < 1 - (r : Rat) / n ↔ 2 * r < n := by rw [← hlo]; constructor <;> intro h <;> linarith
  simp only [hsub, hlo', hhi', if_neg hneg]
  cases mode with
  | rne => simp only [roundsUp, Bool.or_eq_true, Bool.and_eq_true, decide_eq_true_eq, beq_iff_eq]; split_ifs <;> omega
  | rna => simp only [roundsUp, decide_eq_true_eq]; split_ifs <;> omega
  | ro => simp only [roundsUp, beq_iff_eq]; split_ifs <;> omega
  | _ => simp [roundsUp]

/-- Neither of the two neighbours is the number. -/
theorem between_ne (s : Bool) (k : Nat) (hk : k = q ∨ k = q + 1) : ((signInt s k : Int) : Rat) ≠ signRat s * (q + r / n) := by
  obtain ⟨h0, h1⟩ := fraction_bounds hr hrn
  rw [signInt_cast]
  intro h
  have hs : signRat s ≠ 0 := abs_ne_zero.1 (by rw [abs_signRat]; exact one_ne_zero)
  have hkq := mul_left_cancel₀ hs h
  rcases hk with rfl | rfl
  · linarith
  · push_cast at hkq; linarith

end Fraction

/-- `roundMag` rounds the signed number `m / 2^sh` in the mode, and says whether it changed it. -/
theorem roundMag_spec (mode : Rnd) (s : Bool) (m sh : Nat) :
    signInt s (roundMag mode s m sh).1 = roundInt mode (signRat s * (m / 2 ^ sh))
    ∧ ((roundMag mode s m sh).2 = true ↔ ((signInt s (roundMag mode s m sh).1 : Int) : Rat) ≠ signRat s * (m / 2 ^ sh)) := by
  have hN : 0 < 2 ^ sh := Nat.two_pow_pos sh
  have hNrat : ((2 ^ sh : Nat) : Rat) ≠ 0 := by exact_mod_cast hN.ne'
  have hsplit : (m : Rat) / 2 ^ sh = (m / 2 ^ sh : Nat) + (m % 2 ^ sh : Nat) / (2 ^ sh : Nat) := by
    rw [← Nat.cast_two, ← Nat.cast_pow, eq_comm, eq_div_iff hNrat, add_mul, div_mul_cancel₀ _ hNrat]
    exact_mod_cast Nat.div_add_mod' m (2 ^ sh)
  rw [hsplit]
  by_cases hr : m % 2 ^ sh = 0
  · have hround : roundMag mode s m sh = (m / 2 ^ sh, false) := if_pos hr
    have hx : signRat s * ((m / 2 ^ sh : Nat) + (m % 2 ^ sh : Nat) / (2 ^ sh : Nat) : Rat) = (signInt s (m / 2 ^ sh) : Int) := by
      rw [signInt_cast, hr, Nat.cast_zero, zero_div, add_zero]
    rw [hround, hx, roundInt_int]
    simp
  · have hlt := Nat.mod_lt m hN
    rw [roundMag_up mode s hr]
    refine ⟨?_, fun _ => between_ne hr hlt s _ (by split <;> simp), fun _ => rfl⟩
    cases s with
    | true =>
      rw [show signRat true = -1 from rfl, neg_one_mul, roundInt_neg hr hlt]
      exact apply_ite (fun k : Nat => -(k : Int)) _ _ _
    | false =>
      rw [show signRat false = 1 from rfl, one_mul, roundInt_pos hr hlt]
      exact apply_ite (fun k : Nat => (k : Int)) _ _ _

/-- `roundTo` rounds a value in units of 2^q. -/
theorem roundTo_spec (mode : Rnd) (s : Bool) (m : Nat) (e q : Int) :
    signInt s (roundTo mode s m e q).1 = roundInt mode (Val.rat (.fin s m e) / 2 ^ q)
    ∧ ((roundTo mode s m e q).2 = true ↔ ((signInt s (roundTo mode s m e q).1 : Int) : Rat) ≠ Val.rat (.fin s m e) / 2 ^ q) := by
  rw [rat_fin, mul_div_assoc, mul_div_assoc, ← zpow_sub₀ two_ne_zero]
  by_cases hq : q ≤ e
  · have hround : roundTo mode s m e q = (m * pow2 (e - q), false) := if_pos hq
    have hx : signRat s * ((m : Rat) * 2 ^ (e - q)) = (signInt s (m * pow2 (e - q)) : Int) := by
      rw [signInt_cast, Nat.cast_mul, pow2_cast (by omega)]
    rw [hround, hx, roundInt_int]
    simp
  · have hround : roundTo mode s m e q = roundMag mode s m (q - e).toNat := if_neg hq
    have hx : (m : Rat) * 2 ^ (e - q) = m / 2 ^ (q - e).toNat := by
      rw [div_eq_mul_inv, ← zpow_natCast, ← zpow_neg, Int.toNat_of_nonneg (by omega), neg_sub]
    rw [hround, hx]
    exact roundMag_spec mode s m _

end Sys2Proof.Machine
end

section
/-! The codes of a floating-point format in the order of their magnitudes (R200), and the one rounding of `packFp` (R204, R205). -/

namespace Sys2Proof.Machine

open Sys2Proof

/-! ### The floating-point formats (R199) -/

/-- The smallest exponent of a significand. -/
def qmin (fm : Fmt) : Int := 1 - fm.shape.2.2 - fm.shape.2.1

/-- Fraction bits. -/
def fbits (fm : Fmt) : Nat := fm.shape.2.1

theorem isFp_bits {fm : Fmt} (h : Fmt.isFp fm = true) : fm.bits - 1 = fm.shape.1 + fbits fm ∧ 0 < fm.bits :=
  match fm, h with
  | .fp32, _ | .bf16, _ | .fp16, _ | .e4m3, _ | .e5m2, _ => by decide

/-- The largest finite code ends below the special ones. -/
theorem isFp_maxCode {fm : Fmt} (h : Fmt.isFp fm = true) : maxCode fm < 2 ^ (fm.shape.1 + fbits fm)
    ∧ (fm ≠ .e4m3 → maxCode fm + 1 = (2 ^ fm.shape.1 - 1) * 2 ^ fbits fm) ∧ (fm = .e4m3 → maxCode fm = 126) :=
  match fm, h with
  | .fp32, _ | .bf16, _ | .fp16, _ | .e4m3, _ | .e5m2, _ => by decide

/-! ### Magnitudes of codes -/

/-- The magnitude of a code without sign. -/
def magAt (fm : Fmt) (c : Nat) : Rat :=
  if c / 2 ^ fbits fm = 0 then c * 2 ^ qmin fm
  else (2 ^ fbits fm + c % 2 ^ fbits fm : Nat) * 2 ^ (qmin fm + (c / 2 ^ fbits fm - 1 : Nat))

/-- The code of a significand `r` in units of 2^(qmin + k). -/
theorem magAt_code (fm : Fmt) {k r : Nat} (hlo : k = 0 ∨ 2 ^ fbits fm ≤ r) (hhi : r ≤ 2 * 2 ^ fbits fm) :
    magAt fm (k * 2 ^ fbits fm + r) = r * 2 ^ (qmin fm + k) := by
  have hB : 0 < 2 ^ fbits fm := Nat.two_pow_pos _
  generalize hb : 2 ^ fbits fm = B at *
  rw [magAt, hb]
  rcases Nat.lt_or_ge r B with hr | hr
  · obtain rfl : k = 0 := hlo.resolve_right (by omega)
    rw [Nat.zero_mul, Nat.zero_add, Nat.div_eq_of_lt hr, if_pos rfl, Nat.cast_zero, add_zero]
  · rcases Nat.lt_or_ge r (2 * B) with hr2 | hr2
    · have hc : k * B + r = B * (k + 1) + (r - B) := by rw [Nat.mul_succ, Nat.mul_comm]; omega
      have hlt : r - B < B := by omega
      rw [hc, Nat.mul_add_div hB, Nat.div_eq_of_lt hlt, Nat.mul_add_mod, Nat.mod_eq_of_lt hlt, if_neg (by omega),
        Nat.add_sub_cancel' hr]
      rfl
    · obtain rfl : r = 2 * B := by omega
      have hc : k * B + 2 * B = B * (k + 2) := by ring
      rw [hc, Nat.mul_div_cancel_left _ hB, Nat.mul_mod_right, if_neg (by omega), Nat.add_zero,
        show k + 2 - 1 = k + 1 by omega]
      push_cast
      rw [← add_assoc, zpow_add_one₀ two_ne_zero]; ring

theorem magAt_succ (fm : Fmt) (c : Nat) : magAt fm c < magAt fm (c + 1) := by
  have hB : 0 < 2 ^ fbits fm := Nat.two_pow_pos _
  set B := 2 ^ fbits fm with hb
  have step {k r : Nat} (hlo : k = 0 ∨ B ≤ r) (hhi : r < 2 * B) : magAt fm (k * B + r) < magAt fm (k * B + (r + 1)) := by
    rw [magAt_code fm hlo hhi.le, magAt_code fm (hlo.imp_right fun h => h.trans (Nat.le_succ r)) hhi]
    exact mul_lt_mul_of_pos_right (by exact_mod_cast Nat.lt_succ_self r) (two_zpow_pos _)
  rcases Nat.lt_or_ge c B with hc | hc
  · have h := step (k := 0) (r := c) (.inl rfl) (by omega)
    rwa [Nat.zero_mul, Nat.zero_add, Nat.zero_add] at h
  · have hdiv := Nat.div_add_mod' c B
    have hq : 0 < c / B := Nat.div_pos hc hB
    have hmod := Nat.mod_lt c hB
    have hsplit : (c / B - 1) * B + (B + c % B) = c := by
      rw [Nat.sub_mul, Nat.one_mul]
      have : B ≤ c / B * B := Nat.le_mul_of_pos_left B hq
      omega
    have h := step (k := c / B - 1) (r := B + c % B) (.inr (Nat.le_add_right _ _)) (by omega)
    have hnext : (c / B - 1) * B + (B + c % B + 1) = c + 1 := by omega
    rwa [hsplit, hnext] at h

theorem magAt_strictMono (fm : Fmt) : StrictMono (magAt fm) := strictMono_nat_of_lt_succ (magAt_succ fm)

/-- The value of a finite code with a sign. -/
theorem value_code {fm : Fmt} (hfm : Fmt.isFp fm = true) {c : Nat} (hc : c ≤ maxCode fm) (s : Bool) :
    ∃ m e, value fm (signCode fm s + c) = .fin s m e ∧ (m : Rat) * 2 ^ e = magAt fm c := by
  obtain ⟨hbits, hpos⟩ := isFp_bits hfm
  obtain ⟨hlt, hmax, hmax'⟩ := isFp_maxCode hfm
  have hB : 0 < 2 ^ fbits fm := Nat.two_pow_pos _
  have hE : 0 < 2 ^ fm.shape.1 := Nat.two_pow_pos _
  have hEB : 2 ^ (fm.bits - 1) = 2 ^ fm.shape.1 * 2 ^ fbits fm := by rw [hbits, pow_add]
  have hall : 2 ^ fm.bits = 2 * 2 ^ (fm.bits - 1) := by rw [← pow_succ', Nat.sub_add_cancel hpos]
  have hcEB : c < 2 ^ fm.shape.1 * 2 ^ fbits fm := by rw [← pow_add]; omega
  have hsign : signCode fm s = (if s then 2 ^ fm.shape.1 else 0) * 2 ^ fbits fm := by
    rw [signCode, hEB]; cases s <;> simp
  have hmod : (signCode fm s + c) % 2 ^ fm.bits = signCode fm s + c := by
    apply Nat.mod_eq_of_lt
    rw [hall, signCode]
    split <;> omega
  have hs : decide (2 ^ (fm.bits - 1) ≤ signCode fm s + c) = s := by
    rw [signCode, hEB]
    cases s with
    | true => simp
    | false => simpa using hcEB
  have hex : (signCode fm s + c) / 2 ^ fbits fm % 2 ^ fm.shape.1 = c / 2 ^ fbits fm := by
    have hdlt : c / 2 ^ fbits fm < 2 ^ fm.shape.1 := Nat.div_lt_of_lt_mul (by rwa [Nat.mul_comm])
    rw [hsign, Nat.add_comm, Nat.add_mul_div_right _ _ hB]
    cases s with
    | true => simp [Nat.mod_eq_of_lt hdlt]
    | false => simp [Nat.mod_eq_of_lt hdlt]
  have hfr : (signCode fm s + c) % 2 ^ fbits fm = c % 2 ^ fbits fm := by rw [hsign, Nat.mul_add_mod_self_right]
  have hspecial : ¬ (if fm = .e4m3 then c / 2 ^ fbits fm = 15 ∧ c % 2 ^ fbits fm = 7 else c / 2 ^ fbits fm = 2 ^ fm.shape.1 - 1) := by
    have hdiv := Nat.div_add_mod' c (2 ^ fbits fm)
    by_cases he : fm = .e4m3
    · rw [if_pos he]
      rintro ⟨h15, h7⟩
      subst he
      rw [h15, h7] at hdiv
      have hmax126 := hmax' rfl
      simp only [fbits, Fmt.shape] at hdiv
      omega
    · rw [if_neg he]
      intro h
      have hmax1 := hmax he
      rw [h] at hdiv
      omega
  have hval : value fm (signCode fm s + c) = if c / 2 ^ fbits fm = 0 then .fin s (c % 2 ^ fbits fm) (qmin fm)
      else .fin s (2 ^ fbits fm + c % 2 ^ fbits fm) (c / 2 ^ fbits fm - fm.shape.2.2 - fbits fm) := by
    rw [value_fp hfm, fpValue]
    simp only [hmod, hs]
    rw [show fm.shape.2.1 = fbits fm from rfl, hex, hfr]
    by_cases he : fm = .e4m3
    · rw [if_pos he] at hspecial ⊢
      rw [if_neg hspecial]; rfl
    · rw [if_neg he] at hspecial ⊢
      rw [if_neg hspecial]; rfl
  rw [hval, magAt]
  by_cases h0 : c / 2 ^ fbits fm = 0
  · rw [if_pos h0, if_pos h0]
    refine ⟨_, _, rfl, ?_⟩
    rw [Nat.mod_eq_of_lt ((Nat.div_eq_zero_iff_lt hB).1 h0)]
  · rw [if_neg h0, if_neg h0]
    refine ⟨_, _, rfl, ?_⟩
    congr 2
    rw [qmin, Nat.cast_sub (Nat.one_le_iff_ne_zero.2 h0)]
    simp only [fbits]; push_cast; ring

/-- A finite code is a number of its magnitude and its sign. -/
theorem value_code_rat {fm : Fmt} (hfm : Fmt.isFp fm = true) {c : Nat} (hc : c ≤ maxCode fm) (s : Bool) :
    Val.isFin (value fm (signCode fm s + c)) = true ∧ Val.rat (value fm (signCode fm s + c)) = signRat s * magAt fm c
      ∧ (value fm (signCode fm s + c)).sign = s := by
  obtain ⟨m, e, hval, hmag⟩ := value_code hfm hc s
  rw [hval, rat_fin, hmag]
  exact ⟨rfl, rfl, rfl⟩

/-- The largest finite value. -/
theorem rat_maxCode {fm : Fmt} (hfm : Fmt.isFp fm = true) : Val.rat (value fm (maxCode fm)) = magAt fm (maxCode fm) := by
  have h := (value_code_rat hfm le_rfl false).2.1
  rwa [show signCode fm false = 0 from rfl, Nat.zero_add, show signRat false = 1 from rfl, one_mul] at h

/-! ### The one rounding -/

/-- The exponent of the unit in which `packFp` rounds. -/
def qOf (fm : Fmt) (m : Nat) (e : Int) : Int := max (e + bitLen m - (fbits fm + 1)) (qmin fm)

/-- The code that `packFp` forms with an unbounded exponent. -/
def rawCode (fm : Fmt) (mode : Rnd) (s : Bool) (m : Nat) (e : Int) : Nat :=
  (qOf fm m e - qmin fm).toNat * 2 ^ fbits fm + (roundTo mode s m e (qOf fm m e)).1

theorem packFp_fin (fm : Fmt) (mode : Rnd) (sat s : Bool) {m : Nat} (hm : m ≠ 0) (e : Int) :
    packFp fm (.fin s m e) mode sat =
      if rawCode fm mode s m e ≤ maxCode fm then (signCode fm s + rawCode fm mode s m e, .inex (roundTo mode s m e (qOf fm m e)).2)
      else if sat then (signCode fm s + maxCode fm, .both)
      else if fm = .e4m3 then (signCode fm s + canonNan fm, .inex true)
      else (signCode fm s + (if toInf mode s then infCode fm else maxCode fm), .inex true) := by
  rw [packFp, if_neg hm]; rfl

theorem bitLen_bounds {m : Nat} (hm : m ≠ 0) : 2 ^ (bitLen m - 1) ≤ m ∧ m < 2 ^ bitLen m ∧ 0 < bitLen m := by
  rw [bitLen, if_neg hm, Nat.add_sub_cancel]
  exact ⟨Nat.log2_self_le hm, Nat.lt_log2_self, Nat.succ_pos _⟩

theorem natCast_two_pow (n : Nat) : ((2 ^ n : Nat) : Rat) = 2 ^ (n : Int) := by push_cast; rw [zpow_natCast]

theorem roundMag_bounds (mode : Rnd) (s : Bool) (m sh : Nat) :
    m / 2 ^ sh ≤ (roundMag mode s m sh).1 ∧ (roundMag mode s m sh).1 * 2 ^ sh < m + 2 ^ sh := by
  have hN : 0 < 2 ^ sh := Nat.two_pow_pos sh
  have hdiv := Nat.div_add_mod' m (2 ^ sh)
  by_cases hr : m % 2 ^ sh = 0
  · rw [show roundMag mode s m sh = (m / 2 ^ sh, false) from if_pos hr]
    exact ⟨le_rfl, by dsimp only; omega⟩
  · rw [roundMag_up mode s hr]
    split
    · exact ⟨Nat.le_succ _, by rw [Nat.add_mul, Nat.one_mul]; omega⟩
    · exact ⟨le_rfl, by dsimp only; omega⟩

/-- A magnitude in units of 2^q, below 2^q. -/
theorem units_sub {e q : Int} (h : ¬ q ≤ e) (m : Nat) : (m : Rat) * 2 ^ (e - q) = m / (2 ^ (q - e).toNat : Nat) := by
  rw [natCast_two_pow, Int.toNat_of_nonneg (by omega), div_eq_mul_inv, ← zpow_neg, neg_sub]

theorem units_mul {e q : Int} (h : q ≤ e) (m : Nat) : (m : Rat) * 2 ^ (e - q) = (m * pow2 (e - q) : Nat) := by
  rw [Nat.cast_mul, pow2_cast (by omega)]

section Bounds

variable {mode : Rnd} {s : Bool} {m : Nat} {e q : Int} {B : Nat}

/-- A magnitude of at most a whole number rounds to at most that, and one of at least it to at least that. -/
theorem roundTo_le (h : (m : Rat) * 2 ^ (e - q) ≤ B) : (roundTo mode s m e q).1 ≤ B := by
  by_cases hq : q ≤ e
  · rw [units_mul hq] at h
    rw [show roundTo mode s m e q = (m * pow2 (e - q), false) from if_pos hq]
    exact_mod_cast h
  · have hN : 0 < 2 ^ (q - e).toNat := Nat.two_pow_pos _
    rw [units_sub hq, div_le_iff₀ (by exact_mod_cast hN)] at h
    have hm : m ≤ B * 2 ^ (q - e).toNat := by exact_mod_cast h
    rw [show roundTo mode s m e q = roundMag mode s m (q - e).toNat from if_neg hq]
    have hlt := (roundMag_bounds mode s m (q - e).toNat).2
    have hB : (roundMag mode s m (q - e).toNat).1 * 2 ^ (q - e).toNat < (B + 1) * 2 ^ (q - e).toNat := by
      rw [Nat.add_mul, Nat.one_mul]; omega
    exact Nat.lt_succ_iff.1 (Nat.lt_of_mul_lt_mul_right hB)

theorem le_roundTo (h : (B : Rat) ≤ m * 2 ^ (e - q)) : B ≤ (roundTo mode s m e q).1 := by
  by_cases hq : q ≤ e
  · rw [units_mul hq] at h
    rw [show roundTo mode s m e q = (m * pow2 (e - q), false) from if_pos hq]
    exact_mod_cast h
  · have hN : 0 < 2 ^ (q - e).toNat := Nat.two_pow_pos _
    rw [units_sub hq, le_div_iff₀ (by exact_mod_cast hN)] at h
    have hm : B * 2 ^ (q - e).toNat ≤ m := by exact_mod_cast h
    rw [show roundTo mode s m e q = roundMag mode s m (q - e).toNat from if_neg hq]
    exact ((Nat.le_div_iff_mul_le hN).2 hm).trans (roundMag_bounds mode s m _).1

end Bounds

section Pack

variable (fm : Fmt) (mode : Rnd) (s : Bool) {m : Nat} (hm : m ≠ 0) (e : Int)
include hm

/-- The significand that `packFp` rounds to fits the format. -/
theorem significand_bounds : (roundTo mode s m e (qOf fm m e)).1 ≤ 2 * 2 ^ fbits fm
    ∧ (qOf fm m e = qmin fm ∨ 2 ^ fbits fm ≤ (roundTo mode s m e (qOf fm m e)).1) := by
  obtain ⟨hlo, hhi, hlen⟩ := bitLen_bounds hm
  constructor
  · apply roundTo_le
    have hexp : (bitLen m : Int) + (e - qOf fm m e) ≤ (fbits fm + 1 : Nat) := by
      have hle : e + bitLen m - (fbits fm + 1) ≤ qOf fm m e := le_max_left _ _
      push_cast; omega
    calc (m : Rat) * 2 ^ (e - qOf fm m e) ≤ (2 ^ bitLen m : Nat) * 2 ^ (e - qOf fm m e) :=
          mul_le_mul_of_nonneg_right (by exact_mod_cast hhi.le) (two_zpow_pos _).le
      _ = 2 ^ ((bitLen m : Int) + (e - qOf fm m e)) := by rw [natCast_two_pow, zpow_add₀ two_ne_zero]
      _ ≤ 2 ^ ((fbits fm + 1 : Nat) : Int) := zpow_le_zpow_right₀ one_le_two hexp
      _ = (2 * 2 ^ fbits fm : Nat) := by rw [← natCast_two_pow, pow_succ']
  · by_cases hq : qOf fm m e = qmin fm
    · exact .inl hq
    · refine .inr (le_roundTo ?_)
      have hexp : (fbits fm : Int) = (bitLen m - 1 : Nat) + (e - qOf fm m e) := by
        have hmax : qOf fm m e = e + bitLen m - (fbits fm + 1) := (max_choice _ _).resolve_right hq
        omega
      calc ((2 ^ fbits fm : Nat) : Rat) = (2 ^ (bitLen m - 1) : Nat) * 2 ^ (e - qOf fm m e) := by
            rw [natCast_two_pow, natCast_two_pow, ← zpow_add₀ two_ne_zero, ← hexp]
        _ ≤ m * 2 ^ (e - qOf fm m e) := mul_le_mul_of_nonneg_right (by exact_mod_cast hlo) (two_zpow_pos _).le

/-- The raw code stands for the rounded magnitude. -/
theorem magAt_rawCode : magAt fm (rawCode fm mode s m e) = (roundTo mode s m e (qOf fm m e)).1 * 2 ^ qOf fm m e := by
  obtain ⟨hhi, hlo⟩ := significand_bounds fm mode s hm e
  have hq : qmin fm ≤ qOf fm m e := le_max_right _ _
  rw [rawCode, magAt_code fm (hlo.imp_left fun h => by rw [h]; simp) hhi, Int.toNat_of_nonneg (by omega), add_sub_cancel]

omit hm in
theorem ulpOf_eq : ulpOf fm m e = 2 ^ qOf fm m e := rfl

/-- The rounded value is the raw code's magnitude with the sign. -/
theorem roundedRat_eq : roundedRat fm mode s m e = signRat s * magAt fm (rawCode fm mode s m e) := by
  rw [roundedRat, ulpOf_eq, ← (roundTo_spec mode s m e (qOf fm m e)).1, signInt_cast, magAt_rawCode fm mode s hm]
  ring

theorem abs_roundedRat : |roundedRat fm mode s m e| = magAt fm (rawCode fm mode s m e) := by
  rw [roundedRat_eq fm mode s hm, abs_mul, abs_signRat, one_mul, magAt_rawCode fm mode s hm, abs_of_nonneg]
  exact mul_nonneg (Nat.cast_nonneg _) (two_zpow_pos _).le

omit hm in
/-- INEXACT says whether the value was changed. -/
theorem inexact_iff : (roundTo mode s m e (qOf fm m e)).2 = true ↔ roundedRat fm mode s m e ≠ Val.rat (.fin s m e) := by
  obtain ⟨hround, hinex⟩ := roundTo_spec mode s m e (qOf fm m e)
  rw [hinex, roundedRat, ulpOf_eq, ← hround, Ne, Ne, eq_div_iff (two_zpow_pos _).ne', mul_comm]

end Pack

/-- The codes of the special values. -/
theorem value_special {fm : Fmt} (hfm : Fmt.isFp fm = true) (s : Bool) :
    if fm = .e4m3 then value fm (signCode fm s + canonNan fm) = .nan s else value fm (signCode fm s + infCode fm) = .inf s :=
  match fm, hfm, s with
  | .fp32, _, true | .fp32, _, false | .bf16, _, true | .bf16, _, false | .fp16, _, true | .fp16, _, false
  | .e4m3, _, true | .e4m3, _, false | .e5m2, _, true | .e5m2, _, false => by decide

theorem toInf_iff (mode : Rnd) (s : Bool) :
    toInf mode s = true ↔ mode = .rne ∨ mode = .rna ∨ (mode = .ru ∧ s = false) ∨ (mode = .rd ∧ s = true) := by
  cases mode <;> simp [toInf]

/-- The largest finite code with a sign. -/
theorem value_largest {fm : Fmt} (hfm : Fmt.isFp fm = true) (s : Bool) :
    Val.isFin (value fm (signCode fm s + maxCode fm)) = true
    ∧ Val.rat (value fm (signCode fm s + maxCode fm)) = if s then -Val.rat (value fm (maxCode fm)) else Val.rat (value fm (maxCode fm)) := by
  obtain ⟨hfin, hrat, -⟩ := value_code_rat hfm le_rfl s
  refine ⟨hfin, ?_⟩
  rw [hrat, rat_maxCode hfm]
  cases s <;> simp [signRat]

/-- `packFp` rounds once: in range the rounded value, beyond it the format's answer to an overflow (R204, R205). -/
theorem packFp_spec {fm : Fmt} (hfm : Fmt.isFp fm = true) (mode : Rnd) (sat s : Bool) {m : Nat} (hm : m ≠ 0) (e : Int) :
    let r := roundedRat fm mode s m e
    let top := Val.rat (value fm (maxCode fm))
    let p := packFp fm (.fin s m e) mode sat
    (|r| ≤ top → Val.isFin (value fm p.1) = true ∧ Val.rat (value fm p.1) = r ∧ (value fm p.1).sign = s
      ∧ p.2.sat = false ∧ (p.2.inexact = true ↔ r ≠ Val.rat (.fin s m e)))
    ∧ (top < |r| → sat = true → Val.isFin (value fm p.1) = true ∧ Val.rat (value fm p.1) = (if s then -top else top)
      ∧ p.2 = ⟨true, true⟩)
    ∧ (top < |r| → sat = false → p.2 = ⟨false, true⟩
      ∧ if fm = .e4m3 then value fm p.1 = .nan s
        else if mode = .rne ∨ mode = .rna ∨ (mode = .ru ∧ s = false) ∨ (mode = .rd ∧ s = true) then value fm p.1 = .inf s
        else Val.isFin (value fm p.1) = true ∧ Val.rat (value fm p.1) = if s then -top else top) := by
  dsimp only
  have hpack := packFp_fin fm mode sat s hm e
  have hle : |roundedRat fm mode s m e| ≤ Val.rat (value fm (maxCode fm)) ↔ rawCode fm mode s m e ≤ maxCode fm := by
    rw [abs_roundedRat fm mode s hm, rat_maxCode hfm, (magAt_strictMono fm).le_iff_le]
  refine ⟨fun hin => ?_, fun hout hsat => ?_, fun hout hsat => ?_⟩
  · rw [hle] at hin
    rw [hpack, if_pos hin]
    obtain ⟨hfin, hrat, hsign⟩ := value_code_rat hfm hin s
    exact ⟨hfin, hrat.trans (roundedRat_eq fm mode s hm e).symm, hsign, rfl, inexact_iff fm mode s e⟩
  · rw [← not_le, hle] at hout
    rw [hpack, if_neg hout, hsat, if_pos rfl]
    exact ⟨(value_largest hfm s).1, (value_largest hfm s).2, rfl⟩
  · rw [← not_le, hle] at hout
    rw [hpack, if_neg hout, hsat, if_neg (by simp)]
    have hspecial := value_special hfm s
    by_cases he : fm = .e4m3
    · rw [if_pos he] at hspecial
      rw [if_pos he, if_pos he]
      exact ⟨rfl, hspecial⟩
    · rw [if_neg he] at hspecial
      rw [if_neg he, if_neg he]
      refine ⟨rfl, ?_⟩
      simp only [← toInf_iff]
      by_cases hinf : toInf mode s = true
      · rw [if_pos hinf, if_pos hinf]; exact hspecial
      · rw [if_neg hinf, if_neg hinf]; exact value_largest hfm s

end Sys2Proof.Machine
end

section
/-! Widening to FP32, rounding to the integer formats, and the statement on rounding (R204, R205, R355, R359). -/

namespace Sys2Proof.Machine

open Sys2Proof

/-! ### Widening is exact -/

theorem bitLen_le {m k : Nat} (h : m < 2 ^ k) : bitLen m ≤ k := by
  rw [bitLen]
  split
  next => exact Nat.zero_le k
  next hm => exact (Nat.log2_lt hm).2 h

/-- A value with a significand of 24 bits within FP32's exponents is an FP32 number. -/
theorem pack32_exact (s : Bool) {m : Nat} {e : Int} (hlen : m < 2 ^ 24) (hlo : -149 ≤ e) (hhi : e + bitLen m ≤ 128) (mode : Rnd)
    (sat : Bool) :
    let p := packFp .fp32 (.fin s m e) mode sat
    p.2 = ⟨false, false⟩ ∧ Val.isFin (value .fp32 p.1) = true ∧ Val.rat (value .fp32 p.1) = Val.rat (.fin s m e)
      ∧ (value .fp32 p.1).sign = s := by
  dsimp only
  by_cases hm : m = 0
  · obtain ⟨hfin, hrat, hsign⟩ := value_code_rat (fm := .fp32) rfl (Nat.zero_le _) s
    rw [packFp, if_pos hm]
    refine ⟨rfl, hfin, hrat.trans ?_, hsign⟩
    rw [hm, rat_zero, magAt]; simp
  · have hbits := bitLen_le hlen
    obtain ⟨-, hlt, -⟩ := bitLen_bounds hm
    set q := qOf .fp32 m e with hqdef
    have hq : q = max (e + bitLen m - 24) (-149) := rfl
    have hqe : q ≤ e := by omega
    have hround : roundTo mode s m e q = (m * pow2 (e - q), false) := if_pos hqe
    have hsig : m * pow2 (e - q) < 2 ^ 24 :=
      calc m * pow2 (e - q) < 2 ^ bitLen m * pow2 (e - q) := Nat.mul_lt_mul_of_pos_right hlt (Nat.two_pow_pos _)
        _ = 2 ^ (bitLen m + (e - q).toNat) := by rw [pow2, ← pow_add]
        _ ≤ 2 ^ 24 := Nat.pow_le_pow_right (by decide) (by omega)
    have hcode : rawCode .fp32 mode s m e ≤ maxCode .fp32 := by
      have hk : (q - qmin .fp32).toNat ≤ 253 := by
        have hqmin : qmin .fp32 = -149 := rfl
        omega
      have hmul : (q - qmin .fp32).toNat * 2 ^ fbits .fp32 ≤ 253 * 2 ^ 23 := Nat.mul_le_mul_right _ hk
      rw [rawCode, ← hqdef, hround]
      show _ ≤ 0x7F7FFFFF
      omega
    have hexact : roundedRat .fp32 mode s m e = Val.rat (.fin s m e) := by
      have hinex := inexact_iff .fp32 mode s (m := m) e
      rw [← hqdef, hround] at hinex
      exact not_not.1 fun h => absurd (hinex.2 h) (by simp)
    obtain ⟨hfin, hrat, hsign⟩ := value_code_rat (fm := .fp32) rfl hcode s
    rw [packFp_fin .fp32 mode sat s hm e, if_pos hcode, ← hqdef, hround]
    exact ⟨rfl, hfin, hrat.trans ((roundedRat_eq .fp32 mode s hm e).symm.trans hexact), hsign⟩

/-- The significand and the exponent of a floating-point number. -/
theorem fpValue_fin {fm : Fmt} {c m : Nat} {s : Bool} {e : Int} (h : fpValue fm c = .fin s m e) :
    m < 2 * 2 ^ fbits fm ∧ qmin fm ≤ e ∧ ∃ ex : Nat, ex < 2 ^ fm.shape.1 ∧ (fm ≠ .e4m3 → ex ≠ 2 ^ fm.shape.1 - 1)
      ∧ e ≤ qmin fm + (ex - 1 : Nat) := by
  have hfr (x : Nat) : x % 2 ^ fbits fm < 2 ^ fbits fm := Nat.mod_lt _ (Nat.two_pow_pos _)
  have hex (x : Nat) : x % 2 ^ fm.shape.1 < 2 ^ fm.shape.1 := Nat.mod_lt _ (Nat.two_pow_pos _)
  have hcase (ex fr : Nat) (s' : Bool) (hfr : fr < 2 ^ fbits fm)
      (h : (if ex = 0 then Val.fin s' fr (qmin fm) else .fin s' (2 ^ fbits fm + fr) (ex - fm.shape.2.2 - fbits fm)) = .fin s m e) :
      m < 2 * 2 ^ fbits fm ∧ qmin fm ≤ e ∧ e ≤ qmin fm + (ex - 1 : Nat) := by
    split at h
    next => cases h; exact ⟨by omega, le_rfl, by omega⟩
    next h0 => cases h; simp only [qmin, fbits] at hfr ⊢; exact ⟨by omega, by omega, by omega⟩
  rw [fpValue] at h
  dsimp only at h
  split at h
  next he =>
    split at h
    · cases h
    · obtain ⟨hm, hlo, hhi⟩ := hcase _ _ _ (hfr _) h
      exact ⟨hm, hlo, _, hex _, fun hne => absurd he hne, hhi⟩
  next =>
    split at h
    · split at h <;> cases h
    next hspecial =>
      obtain ⟨hm, hlo, hhi⟩ := hcase _ _ _ (hfr _) h
      exact ⟨hm, hlo, _, hex _, fun _ => hspecial, hhi⟩

/-- FP32 has a place for every finite value of a floating-point format. -/
theorem isFp_within {fm : Fmt} (h : Fmt.isFp fm = true) : 2 * 2 ^ fbits fm ≤ 2 ^ 24 ∧ -149 ≤ qmin fm
    ∧ 4 ≤ 2 ^ fm.shape.1 ∧ qmin fm + (2 ^ fm.shape.1 : Nat) - 3 + fbits fm + 1 ≤ 128
    ∧ (fm = .e4m3 → qmin fm = -9 ∧ fbits fm = 3 ∧ fm.shape.1 = 4) :=
  match fm, h with
  | .fp32, _ | .bf16, _ | .fp16, _ | .e4m3, _ | .e5m2, _ => by decide

/-- Finite values of the formats that widen to FP32. -/
theorem value_within {fm : Fmt} (hfm : Fmt.isFp fm = true ∨ fm = .e8m0 ∨ fm = .e5f2) {c m : Nat} {s : Bool} {e : Int}
    (h : value fm c = .fin s m e) : m < 2 ^ 24 ∧ -149 ≤ e ∧ e + bitLen m ≤ 128 := by
  rcases hfm with hfm | rfl | rfl
  · rw [value_fp hfm] at h
    obtain ⟨hm, hlo, ex, hex, hspecial, hhi⟩ := fpValue_fin h
    obtain ⟨hfrac, hqmin, hexps, htop, he4⟩ := isFp_within hfm
    have hlen : bitLen m ≤ fbits fm + 1 := bitLen_le (by rw [pow_succ']; exact hm)
    refine ⟨by omega, by omega, ?_⟩
    by_cases h4 : fm = .e4m3
    · obtain ⟨hq, hf, hs⟩ := he4 h4
      rw [hs] at hex
      omega
    · have hne := hspecial h4
      omega
  · simp only [value] at h
    split at h
    · cases h
    · cases h; exact ⟨by decide, by omega, by rw [show bitLen 1 = 1 from rfl]; omega⟩
  · simp only [value] at h
    split at h
    · cases h; exact ⟨by decide, by decide, by decide⟩
    · cases h
      have hlen : bitLen (4 + c % 256 % 4) ≤ 3 := bitLen_le (by omega)
      exact ⟨by omega, by omega, by omega⟩

/-- Widening to FP32 (R205). -/
theorem widen_exact {fm : Fmt} (hfm : Fmt.isFp fm = true ∨ fm = .e8m0 ∨ fm = .e5f2) (c : Nat) (mode : Rnd) (sat : Bool) :
    let p := pack .fp32 (value fm c) mode sat
    p.2 = ⟨false, false⟩
    ∧ (Val.isFin (value fm c) = true → Val.isFin (value .fp32 p.1) = true ∧ Val.rat (value .fp32 p.1) = Val.rat (value fm c)
        ∧ (value .fp32 p.1).sign = (value fm c).sign)
    ∧ (∀ s, value fm c = .nan s → p.1 = (if s then 0xFFC00000 else 0x7FC00000))
    ∧ (∀ s, value fm c = .inf s → p.1 = (if s then 0xFF800000 else 0x7F800000)) := by
  cases hv : value fm c with
  | nan s => refine ⟨rfl, fun h => (by cases h), fun t ht => ?_, fun t ht => (by cases ht)⟩; cases ht; cases s <;> rfl
  | inf s => refine ⟨rfl, fun h => (by cases h), fun t ht => (by cases ht), fun t ht => ?_⟩; cases ht; cases s <;> rfl
  | fin s m e =>
    obtain ⟨hm, hlo, hhi⟩ := value_within hfm hv
    obtain ⟨hflags, hfin, hrat, hsign⟩ := pack32_exact s hm hlo hhi mode sat
    exact ⟨hflags, fun _ => ⟨hfin, hrat, hsign⟩, fun t ht => (by cases ht), fun t ht => (by cases ht)⟩

/-! ### Integer formats -/

/-- The bounds of an integer format. -/
def intLo (fm : Fmt) : Int := if fm == .int8 || fm == .int16 || fm == .int32 then -(2 ^ (fm.bits - 1) : Nat) else 0

def intHi (fm : Fmt) : Int :=
  if fm == .int8 || fm == .int16 || fm == .int32 then (2 ^ (fm.bits - 1) : Nat) - 1 else (2 ^ fm.bits : Nat) - 1

theorem packInt_fin (fm : Fmt) (mode : Rnd) (s : Bool) (m : Nat) (e : Int) : packInt fm (.fin s m e) mode =
    let x := signInt s (roundTo mode s m e 0).1
    if x < intLo fm then ((intLo fm % (2 ^ fm.bits : Nat)).toNat, .both)
    else if intHi fm < x then ((intHi fm % (2 ^ fm.bits : Nat)).toNat, .both)
    else ((x % (2 ^ fm.bits : Nat)).toNat, .inex (roundTo mode s m e 0).2) := rfl

theorem code_cast (x : Int) (n : Nat) : (((x % (2 ^ n : Nat)).toNat : Nat) : Int) = x % 2 ^ n := by
  rw [Int.toNat_of_nonneg (Int.emod_nonneg x (by exact_mod_cast (Nat.two_pow_pos n).ne'))]
  push_cast; rfl

/-- A number that is not the integer it rounds to is not a bound that the integer lies beyond. -/
theorem bound_ne (mode : Rnd) {v : Rat} {b : Int} (h : roundInt mode v ≠ b) : (b : Rat) ≠ v := by
  rintro rfl
  exact h (roundInt_int mode b)

/-- Rounding to an integer format: to an integer in the mode, then into the range (R203, R205). -/
theorem packInt_spec {fm : Fmt} (hrange : intLo fm ≤ intHi fm) (mode : Rnd) (s : Bool) (m : Nat) (e : Int) :
    let r := roundInt mode (Val.rat (.fin s m e))
    let p := packInt fm (.fin s m e) mode
    (p.1 : Int) = (max (intLo fm) (min (intHi fm) r)) % 2 ^ fm.bits
    ∧ p.2.sat = decide (r < intLo fm ∨ intHi fm < r)
    ∧ (p.2.inexact = true ↔ ((max (intLo fm) (min (intHi fm) r) : Int) : Rat) ≠ Val.rat (.fin s m e)) := by
  have hround := roundTo_spec mode s m e 0
  rw [zpow_zero, div_one] at hround
  obtain ⟨hx, hinex⟩ := hround
  dsimp only
  rw [packInt_fin, hx]
  rw [hx] at hinex
  set r := roundInt mode (Val.rat (.fin s m e)) with hr
  dsimp only
  by_cases hlo : r < intLo fm
  · rw [if_pos hlo, min_eq_right (by omega), max_eq_left hlo.le]
    exact ⟨code_cast _ _, by simp [Fl.both, hlo], by simpa [Fl.both] using bound_ne mode (hr ▸ hlo.ne)⟩
  · rw [if_neg hlo]
    by_cases hhi : intHi fm < r
    · rw [if_pos hhi, min_eq_left hhi.le, max_eq_right hrange]
      exact ⟨code_cast _ _, by simp [Fl.both, hhi], by simpa [Fl.both] using bound_ne mode (hr ▸ hhi.ne')⟩
    · rw [if_neg hhi, min_eq_right (by omega), max_eq_right (by omega)]
      exact ⟨code_cast _ _, by simp [Fl.inex, hlo, hhi], hinex⟩

/-! ### The statement -/

/-- Settles O6: exact arithmetic in units of the smaller exponent; one rounding, by the order of the codes; widening, whose
values FP32 holds; and the integer formats. -/
theorem floatRounding : Obligations.FloatRounding := by
  refine ⟨⟨fun mode s t m n e f => ⟨(add_exact mode s t m n e f).1, (add_exact mode s t m n e f).2, add_zero_sign mode, rfl,
    mul_exact s t m n e f, rfl, cmp_exact s t m n e f⟩, special_operands⟩, fun fm mode sat s m e hfm hm => ?_,
    fun fm c mode sat hfm => widen_exact hfm c mode sat, fun fm mode sat s m e hfm => ?_⟩
  · exact packFp_spec hfm mode sat s hm e
  · have hspec := packInt_spec (fm := fm) (by rcases hfm with rfl | rfl | rfl | rfl | rfl <;> decide) mode s m e
    obtain ⟨hcode, hsat, hinex⟩ := hspec
    rcases hfm with rfl | rfl | rfl | rfl | rfl <;> exact ⟨hcode, hsat, hinex, rfl⟩

end Sys2Proof.Machine
end

section
/-! LD, ST, ATOM and RED whose elements pass every check (R374–R378): the statement about them. -/

namespace Sys2Proof.Machine

open Sys2Proof

section Issue

variable {x : Ctx} {u : Use} {m : MemF} {kind : LsKind} {dest : Dest} {a b : Nat} {imm : W32} {op : Nat → ReqOp}

/-- Every element passes the checks of R374 and R32. -/
def Ctx.AllPass (x : Ctx) (u : Use) (m : MemF) (a : Nat) (es : List Elem) : Prop :=
  ∀ e ∈ es, x.Passes u a (Size.bytes m.size) e.addr ∧ x.Aligned u a (Size.bytes m.size) e.addr ∧ x.Reaches a e.addr

theorem Ctx.lsIssue_route (h : x.AllPass u m a (x.elems m a b imm)) : x.lsIssue u m kind dest a b imm op =
    x.route u a (x.elems m a b imm) (x.lsOp m kind dest) (x.asks a (Size.bytes m.size) (x.elems m a b imm) op) := by
  rw [Ctx.lsIssue, Ctx.lsChecks_none (fun e he => (h e he).1) fun e he => (h e he).2.1]
  rfl

/-- Without an element nothing is sent. -/
theorem Ctx.lsIssue_nil (h : x.elems m a b imm = []) : x.lsIssue u m kind dest a b imm op = .done x.s := by
  rw [Ctx.lsIssue_route (by rw [h]; intro e he; cases he), h, Ctx.route, Ctx.badPeer_none (by intro e he; cases he)]
  rfl

/-- The accesses of the elements are sent. -/
theorem Ctx.lsIssue_sends {st s' : State} {i : Instr} {accs : List Acc} (hctx : st.ctx i = some x)
    (h : x.AllPass u m a (x.elems m a b imm)) (hne : x.elems m a b imm ≠ [])
    (hx : x.s.xlateAccs x.die x.e.part u.kind (x.asks a (Size.bytes m.size) (x.elems m a b imm) op) = .ok (s', accs))
    (hgo : x.mustStall { x.lsOp m kind dest with accs := accs } = false) :
    x.Sends i ((x.lsIssue u m kind dest a b imm op).apply x i) { x.lsOp m kind dest with accs := accs } dest.regs := by
  rw [Ctx.lsIssue_route h]
  exact Ctx.route_sends hctx (fun e he => (h e he).2.2) hx (fun hnil => hne (List.map_eq_nil_iff.1 hnil)) hgo

end Issue

/-- Settles O12: the four instructions issue alike, and `route_sends` says what is in flight afterwards. -/
theorem accessesSent : Obligations.AccessesSent := by
  intro i u m a b imm st x hform hi hpass
  refine ⟨fun hnil => ?_, fun s' accs kind dest op hkind hne hx hgo => ?_⟩
  · obtain ⟨kind, dest, op, hex⟩ := exec_lsForm hform
    exact ⟨_, _, (hi.exec_eq (hex st)).trans (by rw [Ctx.lsIssue_nil hnil]), Ctx.only_done hi.1⟩
  · have sent {body : Ctx → Res} (he : exec i st = issue i st body) (hb : body x = x.lsIssue u m kind dest a b imm op) :
        ∃ t, exec i st = .next t ∧ x.Sends i t { x.lsOp m kind dest with accs := accs } dest.regs :=
      ⟨_, (hi.exec_eq he).trans (by rw [hb]), Ctx.lsIssue_sends hi.1 hpass hne hx hgo⟩
    cases i with
    | ld =>
      obtain ⟨rfl, rfl, rfl⟩ := hkind
      cases hform
      exact sent (exec_ld ..) rfl
    | st =>
      obtain ⟨rfl, rfl, rfl⟩ := hkind
      cases hform
      exact sent (exec_st ..) (by simp [permW, permC, needsAlign])
    | atom =>
      obtain ⟨rfl, rfl, rfl⟩ := hkind
      cases hform
      exact sent (exec_atom ..) rfl
    | red =>
      obtain ⟨rfl, rfl, rfl⟩ := hkind
      cases hform
      exact sent (exec_red ..) rfl
    | _ => exact hkind.elim

end Sys2Proof.Machine
end

section
/-! Context instructions at their issue (R410–R412, R414–R422): what their checks answer, and the statement about them. -/

namespace Sys2Proof.Machine

open Sys2Proof

/-! ### Checks that may stop -/

section Checks

variable {α β : Type}

theorem Ctx.ok_bind (a : α) (f : α → Except Res β) : ((Except.ok a : Except Res α) >>= f) = f a := rfl

theorem Ctx.stop_bind (r : Res) (f : α → Except Res β) : ((Except.error r : Except Res α) >>= f) = .error r := rfl

theorem Ctx.need_none : Ctx.need none = .ok () := rfl

theorem Ctx.need_some (t : Trap) : Ctx.need (some t) = .error (.trap t) := rfl

theorem Ctx.limit_ok {ok : Bool} (h : ok = true) (k : Nat) : Ctx.limit ok k = .ok () := if_pos h

theorem Ctx.limit_stop {ok : Bool} (h : ok = false) (k : Nat) : Ctx.limit ok k = .error (.trap (.plain .capBounds k)) := by
  rw [Ctx.limit, h, if_neg (by simp)]

theorem Ctx.orStop_ok (r : Res) : Ctx.orStop (.ok r) = r := rfl

theorem Ctx.orStop_stop (r : Res) : Ctx.orStop (.error r) = r := rfl

theorem Ctx.ctl_ok {w : W64} {k : Nat} (h : w.toNat < 2 ^ 14) : Ctx.ctl w k = .ok (w.toNat / 256, w.toNat % 256) :=
  if_neg (by omega)

theorem Ctx.ctl_stop {w : W64} {k : Nat} (h : 2 ^ 14 ≤ w.toNat) : Ctx.ctl w k = .error (.trap (.plain .capBounds k)) := if_pos h

end Checks

section Descriptor

variable {x : Ctx} {n : Nat} {perm : BitVec 8} {k : KvDesc}

/-- Steps 1 and 2 of R411. -/
theorem Ctx.KvAt.kvCap (h : x.KvAt n perm k) : x.kvCap n perm = none := by
  obtain ⟨htag, hspace, hperm, hlen, hend, -⟩ := h
  rw [Ctx.kvCap, Ctx.capCheck_range htag ⟨by simp [hspace], fun h4 => by omega⟩ hperm,
    if_pos ((covers_iff ..).2 ⟨le_rfl, by omega, by omega⟩)]

theorem Ctx.KvAt.kvDesc (h : x.KvAt n perm k) : x.kvDesc n = .ok k := by
  obtain ⟨-, -, -, -, -, hread⟩ := h
  rw [Ctx.kvDesc, hread]; rfl

theorem Ctx.kvCap_untagged (h : (x.w.getK n).tag = false) (perm : BitVec 8) : x.kvCap n perm = some (.plain .capTag n) :=
  Ctx.capCheck_untagged h

end Descriptor

/-! ### The limits of a writer -/

section MayWrite

variable {x : Ctx} {k : KvDesc} {w l p0 p1 a : Nat}

/-- Is a position of the range published at the layer. -/
theorem Ctx.anyPublished_eq {q : Nat → Bool} (h : ∀ i, i < p1 - p0 → x.s.published x.kvSite k l (p0 + i) = .ok (q i)) :
    ((List.range (p1 - p0)).foldlM (fun b i => do
      let q ← x.s.published x.kvSite k l (p0 + i)
      pure (b || q)) false : KM Bool) = .ok ((List.range (p1 - p0)).any q) := by
  rw [KM.foldlM_or (g := q) fun i hi b => by rw [h i (List.mem_range.1 hi)]; rfl]
  rw [Bool.false_or]

theorem Ctx.MayWrite.mayWrite (h : x.MayWrite k w l p0 p1) : x.mayWrite k w l p0 p1 a = .ok () := by
  obtain ⟨hw, hl, hp, ⟨r, hr, hopen, hlo, hhi⟩, hnone⟩ := h
  rw [Ctx.mayWrite, Ctx.limit_ok (by simp [hw, hl, hp]), Ctx.ok_bind, hr]
  show (Ctx.limit _ a >>= _) = _
  rw [Ctx.limit_ok (by simp [hopen, hlo, hhi]), Ctx.ok_bind, Ctx.anyPublished_eq hnone]
  show Ctx.limit _ a = _
  exact Ctx.limit_ok (by simp) a

theorem Ctx.MayNotWrite.mayWrite (h : x.MayNotWrite k w l p0 p1) :
    x.mayWrite k w l p0 p1 a = .error (.trap (.plain .capBounds a)) := by
  by_cases hin : w < k.wlimit ∧ l < k.layers ∧ p0 < p1
  · obtain ⟨hw, hl, hp⟩ := hin
    obtain ⟨r, hr, h⟩ : ∃ r, x.s.writer x.kvSite k w = .ok r ∧ (r.open_ = false ∨ p0 < r.start ∨ r.stop < p1
        ∨ ∃ q : Nat → Bool, (∀ i, i < p1 - p0 → x.s.published x.kvSite k l (p0 + i) = .ok (q i)) ∧ ∃ i, i < p1 - p0 ∧ q i = true) := by
      rcases h with h | h | h | h
      · omega
      · omega
      · omega
      · exact h
    rw [Ctx.mayWrite, Ctx.limit_ok (by simp [hw, hl, hp]), Ctx.ok_bind, hr]
    show (Ctx.limit _ a >>= _) = _
    by_cases hopen : r.open_ = true ∧ r.start ≤ p0 ∧ p1 ≤ r.stop
    · obtain ⟨ho, hlo, hhi⟩ := hopen
      obtain ⟨q, hq, i, hi, hpub⟩ : ∃ q : Nat → Bool, (∀ i, i < p1 - p0 → x.s.published x.kvSite k l (p0 + i) = .ok (q i))
          ∧ ∃ i, i < p1 - p0 ∧ q i = true := by
        rcases h with h | h | h | h
        · rw [ho] at h; cases h
        · omega
        · omega
        · exact h
      rw [Ctx.limit_ok (by simp [ho, hlo, hhi]), Ctx.ok_bind, Ctx.anyPublished_eq hq]
      have hany : (List.range (p1 - p0)).any q = true := List.any_eq_true.2 ⟨i, List.mem_range.2 hi, hpub⟩
      show Ctx.limit _ a = _
      exact Ctx.limit_stop (by rw [hany]; rfl) a
    · rw [Ctx.limit_stop (by simpa [and_assoc] using hopen), Ctx.stop_bind]
  · rw [Ctx.mayWrite, Ctx.limit_stop (by simpa [and_assoc] using hin), Ctx.stop_bind]

end MayWrite

/-! ### Acceptance -/

section Accept

variable {st : State} {i : Instr} {x : Ctx} {k : KvDesc} {kind : KvKind} {regs : List (RegCls × Nat)} {body : Ctx → Res}

/-- Every flag that the instruction may count on has room (R106). -/
def Ctx.FlagRoom (x : Ctx) : Prop := ∀ n, x.g.run.slot x.h.fs = some n → x.w.getCf n < 255

theorem Ctx.FlagRoom.canCount (h : x.FlagRoom) : x.w.canCount (x.g.run.slot x.h.fs) = true := by
  cases hf : x.g.run.slot x.h.fs with
  | none => rfl
  | some n => exact decide_eq_true (h n hf)

/-- The operation that the KV path takes. -/
def Ctx.kvOp (x : Ctx) (k : KvDesc) (kind : KvKind) : KvOp where
  weave := x.e.wid
  part := x.e.part
  ident := x.s.ident x.e
  lanes := x.act
  scopeH := x.e.f.scope
  desc := k
  kind := kind
  flag := x.g.run.slot x.h.fs
  at_ := x.s.clock
  seen := []
  res := none
  fault := none

theorem Ctx.kvSend_eq (h : x.FlagRoom) : ∃ n, x.kvSend k kind regs = .done { x.s with
    nextId := n, kvOps := Tbl.put x.s.kvOps x.s.nextId (x.kvOp k kind)
    weaves := Tbl.upd x.s.weaves x.e.wid fun w => (w.countUp (x.g.run.slot x.h.fs)).mark x.s.nextId x.g.lanes regs } := by
  rw [Ctx.kvSend, h.canCount]
  exact ⟨_, rfl⟩

/-- An operation that the KV path takes is accepted. -/
theorem Ctx.kvSend_accepts (hctx : st.ctx i = some x) (h : x.FlagRoom) : x.Accepts i ((x.kvSend k kind regs).apply x i) k kind regs := by
  obtain ⟨hst, hwid, hw⟩ := State.ctx_weave hctx
  obtain ⟨n, hsend⟩ := Ctx.kvSend_eq (k := k) (kind := kind) (regs := regs) h
  rw [hsend]
  have hupd (m : Nat) : Tbl.find (Tbl.upd x.s.weaves x.e.wid fun w =>
      (w.countUp (x.g.run.slot x.h.fs)).mark x.s.nextId x.g.lanes regs) m
      = if m = x.c.weave then some ((x.w.countUp (x.g.run.slot x.h.fs)).mark x.s.nextId x.g.lanes regs) else x.s.weave m := by
    rw [Tbl.find_upd, hwid]
    split
    next hm => rw [← hst] at hw; exact congrArg (Option.map _) hw
    next hm => rfl
  refine ⟨rfl, ?_, fun m hm => Tbl.find_put_other _ _ hm, fun m hm => ?_,
    ((x.w.countUp (x.g.run.slot x.h.fs)).mark x.s.nextId x.g.lanes regs).updGroup x.c.gid
      fun g => g.advance x.c x.h.bnd (lateRegs i), ?_, ?_, x.w.getCf_countUp _, ?_, ?_⟩
  · rw [← hwid]; exact Tbl.find_put_self ..
  · exact ((State.weave_updWeave ..).trans (if_neg hm)).trans ((hupd m).trans (if_neg hm))
  · refine (State.weave_updWeave ..).trans ?_
    rw [if_pos rfl]
    exact congrArg (Option.map _) ((hupd x.c.weave).trans (if_pos rfl))
  all_goals rw [Weave.countUp_eq]
  all_goals rfl

/-- An instruction whose entry hands an operation over. -/
theorem Ctx.accepts_of_entry (hi : st.Issues i x) (h : x.FlagRoom) (he : exec i st = issue i st body)
    (hb : body x = x.kvSend k kind regs) : ∃ t, exec i st = .next t ∧ x.Accepts i t k kind regs :=
  ⟨_, hi.exec_eq he, by rw [hb]; exact Ctx.kvSend_accepts hi.1 h⟩

end Accept

end Sys2Proof.Machine
end

section
/-! The statement about context instructions whose checks pass or trap (R410–R412, R414–R422). -/

namespace Sys2Proof.Machine

open Sys2Proof

theorem permKv_eq : permKv = 0x41 := rfl

section Entries

variable {st : State} {x : Ctx} {k : KvDesc} {h : Hd} {scope : Scope} {a b c d : Nat}

/-- KVST up to its writer's limits: the source and the control word (R416, R417). -/
def Ctx.KvstSource (x : Ctx) (k : KvDesc) (ks vs : Fmt) (b c : Nat) (imm : W32) : Prop :=
  (x.w.getK c).covers ((x.w.getK c).base + (x.w.getS (b + 2)).toNat + imm.toInt) (k.heads * k.dim * (ks.bytes + vs.bytes)) = true
  ∧ relativeRow x.e (x.w.getK c) (((x.w.getK c).base : Int) + (x.w.getS (b + 2)).toNat + imm.toInt).toNat
      (k.heads * k.dim * (ks.bytes + vs.bytes)) = true

/-- What KVST does behind the check of its two capabilities. -/
def Ctx.kvstRest (x : Ctx) (k : KvDesc) (ks vs : Fmt) (a b c : Nat) (imm : W32) : Except Res Res := do
  let cap := x.w.getK c
  let src : Int := (cap.base : Int) + (x.w.getS (b + 2)).toNat + sImm imm
  let n := k.heads * k.dim * (ks.bytes + vs.bytes)
  Ctx.limit (cap.covers src n && relativeRow x.e cap src.toNat n) c
  Ctx.need (if src % 16 = 0 then none else some (.plain .misaligned c))
  let wl ← Ctx.ctl (x.w.getS (b + 1)) a
  let p := (x.w.getS b).toNat
  x.mayWrite k wl.1 wl.2 p (p + 1) a
  pure (x.kvSend k (.kvst p wl.1 wl.2 ks vs (x.kvSource c src.toNat n)) [])

theorem exec_kvst_rest {ks vs : Fmt} {imm : W32} (hi : st.Issues (.kvst h ks vs a b c imm) x) (hk : x.KvAt a 0x43 k)
    (htag : (x.w.getK c).tag = true) (hspace : (x.w.getK c).space = 1 ∨ (x.w.getK c).space = 2)
    (hperm : (x.w.getK c).perm &&& 0x41 = 0x41) : exec (.kvst h ks vs a b c imm) st
      = .next ((Ctx.orStop (x.kvstRest k ks vs a b c imm)).apply x (.kvst h ks vs a b c imm)) := by
  have hcap : x.kvCap a (permKv ||| permW) = none := hk.kvCap
  have hsrc : capTagPerm (x.w.getK c) [1, 2] permKv c = none := capTagPerm_fit htag ⟨by simpa using hspace, hperm⟩
  rw [hi.exec_eq (exec_kvst ..), hcap, hsrc, Ctx.need_none, Ctx.ok_bind, Ctx.ok_bind, hk.kvDesc, Ctx.ok_bind]
  rfl

section Source

variable {ks vs : Fmt} {imm : W32}

theorem Ctx.kvstRest_outside (hin : ¬ x.KvstSource k ks vs b c imm) :
    x.kvstRest k ks vs a b c imm = .error (.trap (.plain .capBounds c)) := by
  rw [Ctx.kvstRest]
  dsimp only
  rw [Ctx.limit_stop (by rw [Bool.eq_false_iff]; simpa [Ctx.KvstSource, sImm] using hin), Ctx.stop_bind]

variable (hin : x.KvstSource k ks vs b c imm)
include hin

theorem Ctx.kvstRest_misaligned (hal : (((x.w.getK c).base : Int) + (x.w.getS (b + 2)).toNat + imm.toInt) % 16 ≠ 0) :
    x.kvstRest k ks vs a b c imm = .error (.trap (.plain .misaligned c)) := by
  rw [Ctx.kvstRest]
  dsimp only
  rw [Ctx.limit_ok (by simpa [Ctx.KvstSource, sImm] using hin), Ctx.ok_bind, if_neg (by simpa [sImm] using hal), Ctx.need_some, Ctx.stop_bind]

variable (hal : (((x.w.getK c).base : Int) + (x.w.getS (b + 2)).toNat + imm.toInt) % 16 = 0)
include hal

theorem Ctx.kvstRest_aligned : x.kvstRest k ks vs a b c imm = (do
    let wl ← Ctx.ctl (x.w.getS (b + 1)) a
    x.mayWrite k wl.1 wl.2 (x.w.getS b).toNat ((x.w.getS b).toNat + 1) a
    pure (x.kvSend k (.kvst (x.w.getS b).toNat wl.1 wl.2 ks vs (x.kvSource c
      (((x.w.getK c).base : Int) + (x.w.getS (b + 2)).toNat + imm.toInt).toNat (k.heads * k.dim * (ks.bytes + vs.bytes)))) [])) := by
  rw [Ctx.kvstRest]
  dsimp only
  rw [Ctx.limit_ok (by simpa [Ctx.KvstSource, sImm] using hin), Ctx.ok_bind, if_pos (by simpa [sImm] using hal), Ctx.need_none, Ctx.ok_bind]
  rfl

end Source

/-- A body that stops with a trap. -/
theorem Ctx.traps_of_stop {i : Instr} {r : Except Res Res} {t : Trap} (hi : st.Issues i x)
    (he : exec i st = .next ((Ctx.orStop r).apply x i)) (hr : r = .error (.trap t)) : x.Traps i t := by
  obtain ⟨hs, -⟩ := State.ctx_weave hi.1
  rw [Ctx.Traps, hs, he, hr, Ctx.orStop_stop, Res.apply, hs]

/-- A body that hands an operation over. -/
theorem Ctx.accepts_of_ok {i : Instr} {r : Except Res Res} {kind : KvKind} {regs : List (RegCls × Nat)} (hi : st.Issues i x)
    (hroom : x.FlagRoom) (he : exec i st = .next ((Ctx.orStop r).apply x i)) (hr : r = .ok (x.kvSend k kind regs)) :
    ∃ t, exec i st = .next t ∧ x.Accepts i t k kind regs :=
  ⟨_, he, by rw [hr, Ctx.orStop_ok]; exact Ctx.kvSend_accepts hi.1 hroom⟩

/-- What KVPUB does behind the check of its capability (R418). -/
def Ctx.kvpubRest (x : Ctx) (k : KvDesc) (void : Bool) (scope : Scope) (a b c : Nat) : Except Res Res := do
  let wl ← Ctx.ctl (x.w.getS c) a
  Ctx.limit ((x.w.getS (b + 1)).toNat ≤ 2 ^ 48) a
  x.mayWrite k wl.1 wl.2 (x.w.getS b).toNat (x.w.getS (b + 1)).toNat a
  pure (x.kvSend k (.kvpub (x.w.getS b).toNat (x.w.getS (b + 1)).toNat wl.1 wl.2 void scope) [])

theorem exec_kvpub_rest {void : Bool} (hi : st.Issues (.kvpub h void scope a b c) x) (hk : x.KvAt a 0x51 k) :
    exec (.kvpub h void scope a b c) st
      = .next ((Ctx.orStop (x.kvpubRest k void scope a b c)).apply x (.kvpub h void scope a b c)) := by
  have hcap : x.kvCap a (permKv ||| permP) = none := hk.kvCap
  rw [hi.exec_eq (exec_kvpub ..), hcap, Ctx.need_none, Ctx.ok_bind, hk.kvDesc, Ctx.ok_bind]
  rfl

/-- What KVACQ does behind the check of its capability (R419). -/
def Ctx.kvacqRest (x : Ctx) (k : KvDesc) (scope : Scope) (d a b : Nat) : Except Res Res := do
  let wl ← Ctx.ctl (x.w.getS b) a
  Ctx.limit (wl.2 < k.layers) a
  pure (x.kvSend k (.kvacq wl.2 scope d) [(.s, d)])

theorem exec_kvacq_rest (hi : st.Issues (.kvacq h scope d a b) x) (hk : x.KvAt a 0x41 k) :
    exec (.kvacq h scope d a b) st = .next ((Ctx.orStop (x.kvacqRest k scope d a b)).apply x (.kvacq h scope d a b)) := by
  have hcap : x.kvCap a permKv = none := hk.kvCap
  rw [hi.exec_eq (exec_kvacq ..), hcap, Ctx.need_none, Ctx.ok_bind, hk.kvDesc, Ctx.ok_bind]
  rfl

/-- What KVLD does behind the check of its capability (R420). -/
def Ctx.kvldRest (x : Ctx) (k : KvDesc) (v : Bool) (head layer : BitVec 8) (elem : BitVec 16) (d a b c : Nat) : Except Res Res := do
  Ctx.limit (head.toNat < k.heads && layer.toNat < k.layers && elem.toNat < k.dim) a
  pure (x.kvSend k (.kvld v head.toNat layer.toNat elem.toNat (x.lanes.map fun l => (l, (x.w.getS c).toNat + (x.w.getV b l).toNat)) d)
    (Dest.regs (.v d true)))

theorem exec_kvld_rest {v : Bool} {head layer : BitVec 8} {elem : BitVec 16} (hi : st.Issues (.kvld h v head layer elem d a b c) x)
    (hk : x.KvAt a 0x41 k) : exec (.kvld h v head layer elem d a b c) st
      = .next ((Ctx.orStop (x.kvldRest k v head layer elem d a b c)).apply x (.kvld h v head layer elem d a b c)) := by
  have hcap : x.kvCap a permKv = none := hk.kvCap
  rw [hi.exec_eq (exec_kvld ..), hcap, Ctx.need_none, Ctx.ok_bind, hk.kvDesc, Ctx.ok_bind]
  rfl

/-- What KVFORK does behind the check of its capabilities (R421). -/
def Ctx.kvforkRest (x : Ctx) (k child : KvDesc) (scope : Scope) (d c : Nat) : Except Res Res := do
  Ctx.limit (child.ctx != k.ctx && { child with ctx := k.ctx, seed := k.seed, rot := k.rot, pt := k.pt } == k) c
  pure (x.kvSend k (.kvfork child scope d) [(.s, d)])

theorem exec_kvfork_rest {child : KvDesc} (hi : st.Issues (.kvfork h scope d a c) x) (hk : x.KvAt a 0x41 k)
    (hc : x.KvAt c 0x41 child) : exec (.kvfork h scope d a c) st
      = .next ((Ctx.orStop (x.kvforkRest k child scope d c)).apply x (.kvfork h scope d a c)) := by
  have hcap : x.kvCap a permKv = none := hk.kvCap
  have hcap' : x.kvCap c permKv = none := hc.kvCap
  rw [hi.exec_eq (exec_kvfork ..), hcap, hcap', Ctx.need_none, Ctx.ok_bind, Ctx.ok_bind, hk.kvDesc, Ctx.ok_bind, hc.kvDesc, Ctx.ok_bind]
  rfl

/-- Two descriptors that differ in context, seed, rotation and page table alone (R421). -/
theorem alike_iff (k child : KvDesc) :
    (child.ctx != k.ctx && { child with ctx := k.ctx, seed := k.seed, rot := k.rot, pt := k.pt } == k) = true
      ↔ child.ctx ≠ k.ctx ∧ child = { k with ctx := child.ctx, seed := child.seed, rot := child.rot, pt := child.pt } := by
  rcases k with ⟨⟩
  rcases child with ⟨⟩
  simp only [Bool.and_eq_true, bne_iff_ne, beq_iff_eq, KvDesc.mk.injEq, true_and, and_true]

/-- What KVSTAT does behind the check of its capability (R424). -/
def Ctx.kvstatRest (x : Ctx) (k : KvDesc) (sel : KvSel) (d a b : Nat) : Except Res Res := do
  let wl ← if sel = .pos then pure (0, 0) else Ctx.ctl (x.w.getS b) a
  Ctx.limit (sel == .pos || (if sel = .front then wl.2 < k.layers else wl.1 < k.wlimit)) a
  pure (x.kvSend k (.kvstat sel wl.2 wl.1 d) [(.s, d)])

theorem exec_kvstat_rest {sel : KvSel} (hi : st.Issues (.kvstat h sel d a b) x) (hk : x.KvAt a 0x41 k) :
    exec (.kvstat h sel d a b) st = .next ((Ctx.orStop (x.kvstatRest k sel d a b)).apply x (.kvstat h sel d a b)) := by
  have hcap : x.kvCap a permKv = none := hk.kvCap
  rw [hi.exec_eq (exec_kvstat ..), hcap, Ctx.need_none, Ctx.ok_bind, hk.kvDesc, Ctx.ok_bind]
  rfl

/-- The numbers that KVSTAT takes from its control word (R424). -/
def Ctx.KvstatIn (x : Ctx) (k : KvDesc) (sel : KvSel) (b : Nat) : Prop :=
  (x.w.getS b).toNat < 2 ^ 14 ∧ if sel = .front then (x.w.getS b).toNat % 256 < k.layers else (x.w.getS b).toNat / 256 < k.wlimit

theorem Ctx.kvstatRest_pos : x.kvstatRest k .pos d a b = .ok (x.kvSend k (.kvstat .pos 0 0 d) [(.s, d)]) := rfl

theorem Ctx.kvstatRest_in {sel : KvSel} (hsel : sel ≠ .pos) (hin : x.KvstatIn k sel b) : x.kvstatRest k sel d a b
    = .ok (x.kvSend k (.kvstat sel ((x.w.getS b).toNat % 256) ((x.w.getS b).toNat / 256) d) [(.s, d)]) := by
  obtain ⟨hctl, hlim⟩ := hin
  rw [Ctx.kvstatRest, if_neg hsel, Ctx.ctl_ok hctl, Ctx.ok_bind]
  dsimp only
  rw [Ctx.limit_ok, Ctx.ok_bind]
  · rfl
  · split at hlim <;> simp_all

theorem Ctx.kvstatRest_out {sel : KvSel} (hsel : sel ≠ .pos) (hin : ¬ x.KvstatIn k sel b) :
    x.kvstatRest k sel d a b = .error (.trap (.plain .capBounds a)) := by
  rw [Ctx.kvstatRest, if_neg hsel]
  by_cases hctl : (x.w.getS b).toNat < 2 ^ 14
  · rw [Ctx.ctl_ok hctl, Ctx.ok_bind]
    dsimp only
    rw [Ctx.limit_stop, Ctx.stop_bind]
    have hlim := fun hl => hin ⟨hctl, hl⟩
    split at hlim <;> simp_all
  · rw [Ctx.ctl_stop (by omega), Ctx.stop_bind]

/-- An untagged capability traps in each (R411). -/
theorem untagged_traps {ks vs : Fmt} {imm : W32} {void v : Bool} {head layer : BitVec 8} {elem : BitVec 16} {sel : KvSel} {i : Instr}
    (hmem : i ∈ ([.apos h d a b c, .kvst h ks vs a b c imm, .kvpub h void scope a b c, .kvacq h scope d a b,
      .kvld h v head layer elem d a b c, .kvfork h scope d a c, .kvrel h d a, .kvstat h sel d a b] : List Instr))
    (hi : st.Issues i x) (htag : (x.w.getK a).tag = false) : x.Traps i (.plain .capTag a) := by
  have hcap := Ctx.kvCap_untagged htag
  simp only [List.mem_cons, List.not_mem_nil, or_false] at hmem
  rcases hmem with rfl | rfl | rfl | rfl | rfl | rfl | rfl | rfl
  · exact Ctx.traps_of_entry hi (exec_apos ..) (by rw [hcap]; rfl)
  · exact Ctx.traps_of_entry hi (exec_kvst ..) (by rw [hcap]; rfl)
  · exact Ctx.traps_of_entry hi (exec_kvpub ..) (by rw [hcap]; rfl)
  · exact Ctx.traps_of_entry hi (exec_kvacq ..) (by rw [hcap]; rfl)
  · exact Ctx.traps_of_entry hi (exec_kvld ..) (by rw [hcap]; rfl)
  · exact Ctx.traps_of_entry hi (exec_kvfork ..) (by rw [hcap]; rfl)
  · exact Ctx.traps_of_entry hi (exec_kvrel ..) (by rw [hcap]; rfl)
  · exact Ctx.traps_of_entry hi (exec_kvstat ..) (by rw [hcap]; rfl)

end Entries

/-- Settles O29: each instruction's checks in their order; behind them it hands its operation over. -/
theorem kvAccepted : Obligations.KvAccepted := by
  intro h scope a b c d st x k
  dsimp only
  intro hroom
  have hroom : x.FlagRoom := hroom
  refine ⟨fun hi hk => ?_, fun ks vs imm hi hk => ⟨fun htag => ?_, fun htag hspace hperm => ?_⟩, fun void hi hk => ?_, fun hi hk => ?_,
    fun v head layer elem hi hk => ?_, fun child hi hk hc => ?_, fun hi hk => ?_, fun sel hi hk => ?_,
    fun ks vs imm void v head layer elem sel i hmem hi htag => untagged_traps hmem hi htag, fun hi hcap htag => ?_⟩
  · have hcap : x.kvCap a permKv = none := hk.kvCap
    exact Ctx.accepts_of_entry hi hroom (exec_apos ..) (by rw [hcap, Ctx.need_none, Ctx.ok_bind, hk.kvDesc]; rfl)
  · have hcap : x.kvCap a (permKv ||| permW) = none := hk.kvCap
    exact Ctx.traps_of_entry hi (exec_kvst ..) (by rw [hcap, capTagPerm_untagged htag]; rfl)
  · have hexec := exec_kvst_rest hi hk htag hspace hperm
    refine ⟨fun hin => Ctx.traps_of_stop hi hexec (Ctx.kvstRest_outside hin),
      fun hin hal => Ctx.traps_of_stop hi hexec (Ctx.kvstRest_misaligned hin hal), fun hin hal => ?_⟩
    have hrest := Ctx.kvstRest_aligned (a := a) hin hal
    refine ⟨fun hctl => Ctx.traps_of_stop hi hexec (by rw [hrest, Ctx.ctl_stop hctl, Ctx.stop_bind]), fun hctl => ⟨fun hno => ?_,
      fun hmay => ?_⟩⟩
    · exact Ctx.traps_of_stop hi hexec (by rw [hrest, Ctx.ctl_ok hctl, Ctx.ok_bind, hno.mayWrite, Ctx.stop_bind])
    · exact Ctx.accepts_of_ok hi hroom hexec (by rw [hrest, Ctx.ctl_ok hctl, Ctx.ok_bind, hmay.mayWrite]; rfl)
  · have hexec := exec_kvpub_rest hi hk
    refine ⟨fun hbad => Ctx.traps_of_stop hi hexec ?_, fun hctl hend => ⟨fun hno => ?_, fun hmay => ?_⟩⟩
    · rw [Ctx.kvpubRest]
      by_cases hctl : (x.w.getS c).toNat < 2 ^ 14
      · rw [Ctx.ctl_ok hctl, Ctx.ok_bind, Ctx.limit_stop (by simp; omega), Ctx.stop_bind]
      · rw [Ctx.ctl_stop (by omega), Ctx.stop_bind]
    · exact Ctx.traps_of_stop hi hexec (by
        rw [Ctx.kvpubRest, Ctx.ctl_ok hctl, Ctx.ok_bind, Ctx.limit_ok (by simpa using hend), Ctx.ok_bind, hno.mayWrite, Ctx.stop_bind])
    · exact Ctx.accepts_of_ok hi hroom hexec (by
        rw [Ctx.kvpubRest, Ctx.ctl_ok hctl, Ctx.ok_bind, Ctx.limit_ok (by simpa using hend), Ctx.ok_bind, hmay.mayWrite]; rfl)
  · have hexec := exec_kvacq_rest hi hk
    refine ⟨fun hctl hl => ?_, fun hbad => Ctx.traps_of_stop hi hexec ?_⟩
    · exact Ctx.accepts_of_ok hi hroom hexec (by
        rw [Ctx.kvacqRest, Ctx.ctl_ok hctl, Ctx.ok_bind, Ctx.limit_ok (by simpa using hl)]; rfl)
    · rw [Ctx.kvacqRest]
      by_cases hctl : (x.w.getS b).toNat < 2 ^ 14
      · rw [Ctx.ctl_ok hctl, Ctx.ok_bind, Ctx.limit_stop (by simp; omega), Ctx.stop_bind]
      · rw [Ctx.ctl_stop (by omega), Ctx.stop_bind]
  · have hexec := exec_kvld_rest hi hk
    refine ⟨fun hno => Ctx.traps_of_stop hi hexec ?_, fun hin => Ctx.accepts_of_ok hi hroom hexec ?_⟩
    · rw [Ctx.kvldRest, Ctx.limit_stop (by rw [Bool.eq_false_iff]; simpa [and_assoc] using hno), Ctx.stop_bind]
    · rw [Ctx.kvldRest, Ctx.limit_ok (by simpa [and_assoc] using hin)]; rfl
  · have hexec := exec_kvfork_rest hi hk hc
    refine ⟨fun hno => Ctx.traps_of_stop hi hexec ?_, fun hin => Ctx.accepts_of_ok hi hroom hexec ?_⟩
    · rw [Ctx.kvforkRest, Ctx.limit_stop (by rw [Bool.eq_false_iff, Ne, alike_iff]; exact hno), Ctx.stop_bind]
    · rw [Ctx.kvforkRest, Ctx.limit_ok ((alike_iff ..).2 hin)]; rfl
  · have hcap : x.kvCap a permKv = none := hk.kvCap
    exact Ctx.accepts_of_entry hi hroom (exec_kvrel ..) (by rw [hcap, Ctx.need_none, Ctx.ok_bind, hk.kvDesc]; rfl)
  · have hexec := exec_kvstat_rest hi hk
    refine ⟨fun hsel hno => Ctx.traps_of_stop hi hexec (Ctx.kvstatRest_out hsel hno), fun hin => ?_⟩
    by_cases hsel : sel = .pos
    · subst hsel
      exact Ctx.accepts_of_ok hi hroom hexec Ctx.kvstatRest_pos
    · rw [if_neg hsel, if_neg hsel]
      exact Ctx.accepts_of_ok hi hroom hexec (Ctx.kvstatRest_in hsel (hin.resolve_left hsel))
  · have hcap : x.kvCap a permKv = none := hcap
    have hcap' : x.kvCap c permKv = some (.plain .capTag c) := Ctx.kvCap_untagged htag _
    exact Ctx.traps_of_entry hi (exec_kvfork ..) (by rw [hcap, Ctx.need_none, Ctx.ok_bind, hcap']; rfl)

end Sys2Proof.Machine
end

section
/-! MDECL, MZERO and MBUDGET (R218, R234, R237, R425, R429, R430): instructions that change their team. -/

namespace Sys2Proof.Machine

open Sys2Proof

/-! ### An instruction that changes its team -/

section Team

variable {st : State} {i : Instr} {x : Ctx}

/-- An effect on the issuing team, with a flag that counts one more, before the group goes on. -/
theorem Ctx.onTeam_of (hctx : st.ctx i = some x) {s : State} {tm : Team} {flag : Option Nat} (hteam : s.team x.e.tid = some tm)
    (hteams : ∀ n, n ≠ x.e.tid → s.team n = st.team n)
    (hweave : ∀ n, s.weave n = if n = x.c.weave then some (x.w.countUp flag) else st.weave n) :
    x.OnTeam i ((Res.done s).apply x i) tm flag := by
  obtain ⟨hst, hwid, hw⟩ := State.ctx_weave hctx
  refine ⟨hteam, fun n hn => hst ▸ hteams n hn, fun n hn => ?_,
    (x.w.countUp flag).updGroup x.c.gid fun g => g.advance x.c x.h.bnd (lateRegs i), ?_, ?_, x.w.getCf_countUp flag, ?_⟩
  · rw [hst]
    exact ((State.weave_updWeave ..).trans (if_neg hn)).trans ((hweave n).trans (if_neg hn))
  · exact (State.weave_updWeave ..).trans (by rw [if_pos rfl, hweave, if_pos rfl]; rfl)
  · rw [Weave.countUp_eq]; rfl
  · rw [Weave.countUp_eq]; rfl

/-- A change of the issuing team alone. -/
theorem Ctx.onTeam_updTeam (hctx : st.ctx i = some x) (f : Team → Team) :
    x.OnTeam i ((Res.done (x.s.updTeam x.e.tid f)).apply x i) (f x.e.t) none := by
  obtain ⟨hst, hwid, hw⟩ := State.ctx_weave hctx
  have hteam := State.ctx_team hctx
  rw [hst]
  refine Ctx.onTeam_of hctx ?_ (fun n hn => ?_) fun n => ?_
  · rw [State.team_updTeam, if_pos rfl, hteam]; rfl
  · rw [State.team_updTeam, if_neg hn]
  · split
    next hn => rw [hn]; exact hw
    next => rfl

/-- An instruction whose entry changes its team. -/
theorem Ctx.onTeam_of_entry {body : Ctx → Res} (hi : st.Issues i x) (he : exec i st = issue i st body) (f : Team → Team)
    (hb : body x = .done (x.s.updTeam x.e.tid f)) : ∃ t, exec i st = .next t ∧ t = { st with teams := t.teams, weaves := t.weaves }
      ∧ x.OnTeam i t (f x.e.t) none := by
  refine ⟨_, hi.exec_eq he, ?_, by rw [hb]; exact Ctx.onTeam_updTeam hi.1 f⟩
  obtain ⟨hst, -⟩ := State.ctx_weave hi.1
  rw [hb, hst]
  rfl

/-- An instruction that stalls: its group sleeps before it, with the word it holds. -/
theorem Ctx.stalls_of_entry {body : Ctx → Res} (hi : st.Issues i x) (he : exec i st = issue i st body) (hb : body x = .stall) :
    exec i st = .next (st.updWeave x.c.weave fun w => w.updGroup x.c.gid fun g =>
      { g with sleep := .stall, port := false, latch := some (x.c.addr, x.c.code) }) := by
  obtain ⟨hst, -⟩ := State.ctx_weave hi.1
  rw [hi.exec_eq he, hb, ← hst]
  rfl

end Team

/-! ### MDECL (R218) -/

/-- The team with one convergence register changed. -/
def Team.setCv (t : Team) (r : Nat) (c : Cv) : Team := { t with cv := Tbl.set t.cv Cv.initial r c }

theorem Team.cvr_setCv (t : Team) (r : Nat) (c : Cv) (n : Nat) : (t.setCv r c).cvr n = if n = r then c else t.cvr n :=
  Tbl.get_set t.cv Cv.initial r c n

theorem State.setCv_eq (s : State) (tid r : Nat) (c : Cv) : s.setCv tid r c = s.updTeam tid fun t => t.setCv r c := rfl

/-- A set of weaves within the first `n`. -/
theorem weaveSet_iff (m : W32) (n : Nat) : m.toNat / 2 ^ n = 0 ↔ ∀ j, n ≤ j → m.getLsbD j = false := by
  constructor
  · intro h j hj
    rw [Nat.div_eq_zero_iff_lt (Nat.two_pow_pos n)] at h
    exact Nat.testBit_lt_two_pow (h.trans_le (Nat.pow_le_pow_right two_pos hj))
  · intro h
    refine Nat.eq_of_testBit_eq fun i => ?_
    rw [Nat.testBit_div_two_pow, Nat.zero_testBit]
    exact h (i + n) (by omega)

/-- MDECL's sets that it declares. -/
def Ctx.MayDeclare (x : Ctx) (d : Nat) (m : W32) : Prop :=
  m ≠ 0 ∧ (∀ j, x.e.f.lr.weaves ≤ j → m.getLsbD j = false) ∧ (x.e.t.cvr d).st ≠ .signing

theorem Ctx.mayDeclare_iff (x : Ctx) (d : Nat) (m : W32) : x.MayDeclare d m
    ↔ ¬ (m = 0 ∨ m.toNat / 2 ^ x.e.f.lr.weaves ≠ 0 ∨ (x.e.t.cvr d).st = .signing) := by
  rw [Ctx.MayDeclare, ← weaveSet_iff]; tauto

section Mdecl

variable {st : State} {x : Ctx} {h : Hd} {d a : Nat}

theorem mdecl_declares (hi : st.Issues (.mdecl h d a) x) (hlegal : x.MayDeclare d ((x.w.getS a).extractLsb' 0 32)) :
    ∃ t, exec (.mdecl h d a) st = .next t ∧ t = { st with teams := t.teams, weaves := t.weaves }
      ∧ x.OnTeam (.mdecl h d a) t (x.e.t.setCv d { x.e.t.cvr d with
          st := .declared, set := (x.w.getS a).extractLsb' 0 32, signed := [], signers := [], snap := none }) none :=
  Ctx.onTeam_of_entry hi (exec_mdecl ..) (fun t => t.setCv d { x.e.t.cvr d with
    st := .declared, set := (x.w.getS a).extractLsb' 0 32, signed := [], signers := [], snap := none })
    (if_neg ((x.mayDeclare_iff d _).1 hlegal))

theorem mdecl_traps (hi : st.Issues (.mdecl h d a) x) (hno : ¬ x.MayDeclare d ((x.w.getS a).extractLsb' 0 32)) :
    x.Traps (.mdecl h d a) (.plain .convMismatch d) :=
  Ctx.traps_of_entry hi (exec_mdecl ..) (if_pos (not_not.1 fun hn => hno ((x.mayDeclare_iff d _).2 hn)))

end Mdecl

/-! ### MZERO (R234, R429) -/

/-- A table's entries after those of some names are dropped. -/
theorem Tbl.find_keep_names {α : Type} (t : Tbl α) (f : Nat → Bool) (n : Nat) :
    Tbl.find (keep t fun k _ => f k) n = if f n then Tbl.find t n else none := by
  cases hf : f n with
  | true => rw [if_pos rfl]; exact Tbl.find_keep t _ fun _ => hf
  | false =>
    rw [if_neg (by simp)]
    cases hfind : Tbl.find (keep t fun k _ => f k) n with
    | none => rfl
    | some v => exact absurd (Tbl.find_keep_some hfind) (by simp [hf])

/-- The blocks that MZERO names. -/
def zeroBlocks (mask : BitVec 16) : List Nat := (List.range 16).filter fun i => mask.getLsbD i

theorem mem_zeroBlocks {mask : BitVec 16} {n : Nat} : n ∈ zeroBlocks mask ↔ mask.getLsbD n = true := by
  simp only [zeroBlocks, List.mem_filter, List.mem_range, and_iff_right_iff_imp]
  exact fun h => BitVec.lt_of_getLsbD h

/-- The lowest block outside the team's. -/
theorem find_zeroBlocks {mask : BitVec 16} {n blocks : Nat} (hn : mask.getLsbD n = true) (hout : blocks ≤ n)
    (hlow : ∀ j, j < n → mask.getLsbD j = true → j < blocks) : (zeroBlocks mask).find? (· ≥ blocks) = some n := by
  rw [zeroBlocks, List.find?_filter, List.find?_range_eq_some]
  refine ⟨by simp [hn, hout], List.mem_range.2 (BitVec.lt_of_getLsbD hn), fun j hj => ?_⟩
  have := hlow j hj
  cases hb : mask.getLsbD j <;> simp_all

theorem find_zeroBlocks_none {mask : BitVec 16} {blocks : Nat} (h : ∀ n, mask.getLsbD n = true → n < blocks) :
    (zeroBlocks mask).find? (· ≥ blocks) = none := by
  rw [List.find?_eq_none]
  intro n hn
  have := h n (mem_zeroBlocks.1 hn)
  simpa using this

/-- A submitted request of the team targets one of the blocks. -/
def State.Targets (s : State) (tid : Nat) (mask : BitVec 16) : Prop :=
  ∃ e ∈ s.mxReqs, e.2.team = tid ∧ e.2.st ≠ .forming ∧ ∃ n ∈ e.2.blocks, mask.getLsbD n = true

theorem State.blocksBusy_iff (s : State) (tid : Nat) (mask : BitVec 16) : s.blocksBusy tid (zeroBlocks mask) = true ↔ s.Targets tid mask := by
  simp only [State.blocksBusy, someT, List.any_eq_true, Bool.and_eq_true, beq_iff_eq, bne_iff_ne, List.contains_iff_mem,
    mem_zeroBlocks, and_assoc, State.Targets]

/-- The team with the named blocks zeroed. -/
def Team.zeroed (t : Team) (mask : BitVec 16) : Team :=
  { t with acc := keep t.acc fun i _ => !(zeroBlocks mask).contains (i / 4096) }

theorem Team.acc_zeroed (t : Team) (mask : BitVec 16) (i : Nat) :
    Tbl.get (t.zeroed mask).acc (0 : W32) i = if mask.getLsbD (i / 4096) then 0 else Tbl.get t.acc 0 i := by
  rw [Tbl.get, Team.zeroed, Tbl.find_keep_names t.acc fun i => !(zeroBlocks mask).contains (i / 4096)]
  have hcontains : (zeroBlocks mask).contains (i / 4096) = mask.getLsbD (i / 4096) := by
    rw [Bool.eq_iff_iff, List.contains_iff_mem, mem_zeroBlocks]
  rw [hcontains]
  cases mask.getLsbD (i / 4096) <;> rfl

section Mzero

variable {st : State} {x : Ctx} {h : Hd} {mask : BitVec 16}

theorem mzero_traps (hi : st.Issues (.mzero h mask) x) {n : Nat} (hn : mask.getLsbD n = true) (hout : x.e.f.lr.accBlk ≤ n)
    (hlow : ∀ j, j < n → mask.getLsbD j = true → j < x.e.f.lr.accBlk) : x.Traps (.mzero h mask) (.plain .regRange (n + 5 * 256)) := by
  refine Ctx.traps_of_entry hi (exec_mzero ..) ?_
  have hfind := find_zeroBlocks hn hout hlow
  rw [zeroBlocks] at hfind
  dsimp only
  rw [hfind]
  rfl

variable (hi : st.Issues (.mzero h mask) x) (hin : ∀ n, mask.getLsbD n = true → n < x.e.f.lr.accBlk)
include hi hin

theorem mzero_stalls (hbusy : x.s.Targets x.e.tid mask) : exec (.mzero h mask) st = .next (st.updWeave x.c.weave fun w =>
    w.updGroup x.c.gid fun g => { g with sleep := .stall, port := false, latch := some (x.c.addr, x.c.code) }) := by
  refine Ctx.stalls_of_entry hi (exec_mzero ..) ?_
  have hfind := find_zeroBlocks_none hin
  have hbusy := (x.s.blocksBusy_iff x.e.tid mask).2 hbusy
  rw [zeroBlocks] at hfind hbusy
  dsimp only
  rw [hfind]
  exact if_pos hbusy

theorem mzero_zeroes (hfree : ¬ x.s.Targets x.e.tid mask) : ∃ t, exec (.mzero h mask) st = .next t
    ∧ t = { st with teams := t.teams, weaves := t.weaves } ∧ x.OnTeam (.mzero h mask) t (x.e.t.zeroed mask) none := by
  refine Ctx.onTeam_of_entry hi (exec_mzero ..) (fun t => t.zeroed mask) ?_
  have hfind := find_zeroBlocks_none hin
  have hbusy := mt (x.s.blocksBusy_iff x.e.tid mask).1 hfree
  rw [zeroBlocks] at hfind hbusy
  dsimp only
  rw [hfind]
  exact if_neg hbusy

end Mzero

/-! ### MBUDGET (R237, R430) -/

theorem bitsOf_eq (v : W64) (lo n : Nat) : bitsOf v lo n = (v.extractLsb' lo n).toNat := by
  rw [bitsOf, BitVec.extractLsb'_toNat, Nat.shiftRight_eq_div_pow]

theorem mbudget_sets {st : State} {x : Ctx} {h : Hd} {a : Nat} (hi : st.Issues (.mbudget h a) x) :
    ∃ t, exec (.mbudget h a) st = .next t ∧ t = { st with teams := t.teams, weaves := t.weaves }
      ∧ x.OnTeam (.mbudget h a) t { x.e.t with
          deadline := ((x.w.getS a).extractLsb' 0 16).toNat, unitcap := ((x.w.getS a).extractLsb' 32 16).toNat } none := by
  refine Ctx.onTeam_of_entry hi (exec_mbudget ..) (fun t => { t with
    deadline := ((x.w.getS a).extractLsb' 0 16).toNat, unitcap := ((x.w.getS a).extractLsb' 32 16).toNat }) ?_
  rw [← bitsOf_eq, ← bitsOf_eq]

end Sys2Proof.Machine
end

section
/-! MLDMASK and MSTAT (R229, R238, R428, R431), and the statement on the matrix instructions. -/

namespace Sys2Proof.Machine

open Sys2Proof

/-! ### MLDMASK at issue (R230 step 1) -/

section Range

variable {e : Env} {c : Cap} {r : Range}

theorem rangeTrap_untagged (h : c.tag = false) : rangeTrap e c r = some (.plain .capTag r.k) := by
  rw [rangeTrap, capTagPerm_untagged h]

/-- What an operand's capability needs (R220 step 4). -/
def MxReadable (c : Cap) : Prop := (c.space = 0 ∨ c.space = 1 ∨ c.space = 2) ∧ c.perm &&& 0x41 = 0x41

theorem mxReadable_iff : MxReadable c ↔ c.space ∈ [0, 1, 2] ∧ c.perm &&& (permR ||| permM) = permR ||| permM := by
  simp only [MxReadable, List.mem_cons, List.not_mem_nil, or_false]
  rfl

theorem rangeTrap_unfit (h : c.tag = true) (hno : ¬ MxReadable c) : rangeTrap e c r = some (.plain .capPerm r.k) := by
  rw [rangeTrap, capTagPerm_unfit h (mt mxReadable_iff.2 hno)]

/-- Every row of the operand lies in the capability, and in its space. -/
def Range.Lies (r : Range) (e : Env) (c : Cap) : Prop :=
  ∀ i, i < r.rows → c.covers (c.base + r.off + i * r.stride : Nat) r.len = true
    ∧ (c.space ≠ 0 → relativeRow e c (c.base + r.off + i * r.stride) r.len = true)

theorem rangeTrap_fit (h : c.tag = true) (hread : MxReadable c) :
    (r.Lies e c → rangeTrap e c r = none) ∧ (¬ r.Lies e c → rangeTrap e c r = some (.plain .capBounds r.k)) := by
  have hbad : ((List.range r.rows).any fun i => !(c.covers (c.base + r.off + i * r.stride : Nat) r.len
      && (c.space == 0 || relativeRow e c (c.base + r.off + i * r.stride) r.len))) = true ↔ ¬ r.Lies e c := by
    rw [List.any_eq_true, Range.Lies, not_forall]
    refine exists_congr fun i => ?_
    rw [List.mem_range, Classical.not_imp, Bool.not_eq_true', Bool.eq_false_iff, Ne, Bool.and_eq_true, Bool.or_eq_true, beq_iff_eq]
    tauto
  have hrange : rangeTrap e c r = if ((List.range r.rows).any fun i => !(c.covers (c.base + r.off + i * r.stride : Nat) r.len
      && (c.space == 0 || relativeRow e c (c.base + r.off + i * r.stride) r.len))) = true then some (.plain .capBounds r.k) else none := by
    rw [rangeTrap, capTagPerm_fit h (mxReadable_iff.1 hread)]
  exact ⟨fun hin => by rw [hrange, if_neg (by rw [hbad]; exact not_not.2 hin)], fun hno => by rw [hrange, if_pos (hbad.2 hno)]⟩

theorem rangePeer_none {s : State} (h : c.space = 0 → s.peerCheck e ((c.base + r.off) / 2 ^ 55) = none
    ∧ s.peerCheck e ((c.base + r.off + (r.rows - 1) * r.stride + r.len - 1) / 2 ^ 55) = none) : s.rangePeer e c r = none := by
  rw [State.rangePeer]
  by_cases h0 : c.space = 0
  · obtain ⟨h1, h2⟩ := h h0
    simp [h0, h1, h2, -Nat.reducePow]
  · simp [h0]

end Range

section Mldmask

variable {st : State} {x : Ctx} {h : Hd} {d a b : Nat}

/-- The range of a mask block (R229). -/
def Ctx.maskRange (x : Ctx) (a b : Nat) : Range := { k := a, off := (x.w.getS b).toNat, rows := 1, stride := 0, len := 656 }

/-- The mask block lies in the capability. -/
def Ctx.MaskLies (x : Ctx) (a b : Nat) : Prop :=
  (x.w.getK a).covers ((x.w.getK a).base + (x.w.getS b).toNat : Nat) 656 = true
    ∧ ((x.w.getK a).space ≠ 0 → relativeRow x.e (x.w.getK a) ((x.w.getK a).base + (x.w.getS b).toNat) 656 = true)

theorem Ctx.maskLies_iff : (x.maskRange a b).Lies x.e (x.w.getK a) ↔ x.MaskLies a b := by
  constructor
  · intro hin
    simpa [Ctx.maskRange, Ctx.MaskLies] using hin 0 Nat.one_pos
  · intro hin i hi
    obtain rfl : i = 0 := Nat.lt_one_iff.1 hi
    simpa [Ctx.maskRange, Ctx.MaskLies] using hin

/-- A range that the checks refuse traps. -/
theorem mldmask_traps (hi : st.Issues (.mldmask h d a b) x) {t : Trap} (ht : rangeTrap x.e (x.w.getK a) (x.maskRange a b) = some t) :
    x.Traps (.mldmask h d a b) t := by
  refine Ctx.traps_of_entry hi (exec_mldmask ..) ?_
  rw [Ctx.maskRange] at ht
  dsimp only
  rw [ht]

variable (hi : st.Issues (.mldmask h d a b) x) (hrange : rangeTrap x.e (x.w.getK a) (x.maskRange a b) = none)
include hi hrange

theorem mldmask_misaligned (hal : ((x.w.getK a).base + (x.w.getS b).toNat) % 16 ≠ 0) :
    x.Traps (.mldmask h d a b) (.plain .misaligned a) := by
  refine Ctx.traps_of_entry hi (exec_mldmask ..) ?_
  rw [Ctx.maskRange] at hrange
  dsimp only
  rw [hrange]
  exact if_pos hal

/-- The load starts, and counts on its flag. -/
theorem mldmask_starts (hal : ((x.w.getK a).base + (x.w.getS b).toNat) % 16 = 0)
    (hpeer : x.s.rangePeer x.e (x.w.getK a) (x.maskRange a b) = none) (hroom : x.FlagRoom) :
    ∃ t, exec (.mldmask h d a b) st = .next t ∧ x.OnTeam (.mldmask h d a b) t x.e.t (x.g.run.slot x.h.fs)
      ∧ t = { st with nextId := t.nextId, maskLoads := t.maskLoads, weaves := t.weaves }
      ∧ Tbl.find t.maskLoads st.nextId = some
        { weave := x.c.weave, team := x.e.tid, part := x.e.part, core := x.e.t.core, cv := d, cap := x.w.getK a
          addr := (x.w.getK a).base + (x.w.getS b).toNat, got := [], flag := x.g.run.slot x.h.fs, fault := none } := by
  obtain ⟨hst, hwid, hw⟩ := State.ctx_weave hi.1
  have hexec := hi.exec_eq (exec_mldmask h d a b st)
  rw [Ctx.maskRange] at hrange hpeer
  dsimp only at hexec
  rw [hrange] at hexec
  dsimp only at hexec
  rw [if_neg (by rw [hal]; simp), hpeer, hroom.canCount] at hexec
  refine ⟨_, hexec, ?_, by rw [hst]; rfl, by rw [hst, hwid]; exact Tbl.find_put_self ..⟩
  refine Ctx.onTeam_of hi.1 ?_ (fun n _ => by rw [hst]; rfl) fun n => ?_
  · rw [hst]; exact State.ctx_team (st := st) hi.1
  · refine (State.weave_updWeave ..).trans ?_
    rw [hwid, hst]
    split
    next => exact congrArg (Option.map _) hw
    next => rfl

end Mldmask

/-! ### MSTAT (R238, R431) -/

/-- A word with the fields of selector 0. -/
def statWord (set signed st pend mask : Nat) : Nat := set + signed * 2 ^ 32 + st * 2 ^ 48 + pend * 2 ^ 50 + mask * 2 ^ 51

section StatWord

variable {set signed st pend mask : Nat} (hset : set < 2 ^ 32) (hsigned : signed < 2 ^ 11) (hst : st < 4) (hpend : pend ≤ 1)
  (hmask : mask ≤ 1)
include hset hsigned hst hpend hmask

theorem statWord_parts : statWord set signed st pend mask < 2 ^ 64 ∧ statWord set signed st pend mask / 2 ^ 0 % 2 ^ 32 = set
    ∧ statWord set signed st pend mask / 2 ^ 32 % 2 ^ 11 = signed ∧ statWord set signed st pend mask / 2 ^ 48 % 2 ^ 2 = st
    ∧ statWord set signed st pend mask / 2 ^ 50 % 2 = pend ∧ statWord set signed st pend mask / 2 ^ 51 % 2 = mask := by
  unfold statWord
  omega

theorem statWord_fields {v : W64} (hv : v = BitVec.ofNat 64 (statWord set signed st pend mask)) :
    (v.extractLsb' 0 32).toNat = set ∧ (v.extractLsb' 32 11).toNat = signed ∧ (v.extractLsb' 48 2).toNat = st
      ∧ v.getLsbD 50 = decide (pend = 1) ∧ v.getLsbD 51 = decide (mask = 1) := by
  obtain ⟨hlt, h0, h1, h2, h3, h4⟩ := statWord_parts hset hsigned hst hpend hmask
  have hn : v.toNat = statWord set signed st pend mask := by rw [hv, BitVec.toNat_ofNat, Nat.mod_eq_of_lt hlt]
  have hbit (k : Nat) : v.getLsbD k = decide (statWord set signed st pend mask / 2 ^ k % 2 = 1) := by
    rw [BitVec.getLsbD, hn, Nat.testBit_eq_decide_div_mod_eq]
  have hfield (lo n : Nat) : (v.extractLsb' lo n).toNat = statWord set signed st pend mask / 2 ^ lo % 2 ^ n := by
    rw [BitVec.extractLsb'_toNat, hn, Nat.shiftRight_eq_div_pow]
  exact ⟨(hfield 0 32).trans h0, (hfield 32 11).trans h1, (hfield 48 2).trans h2, by rw [hbit, h3], by rw [hbit, h4]⟩

end StatWord

theorem setWeaves_length (m : W32) : (setWeaves m).length ≤ 32 := (List.length_filter_le ..).trans (by simp)

/-- The threads of a set that have signed, summed. -/
theorem State.signedCount_eq (s : State) (tid : Nat) (c : Cv) :
    s.signedCount tid c = ((setWeaves c.set).map fun i => 32 - (s.unsigned tid c i).toList.length).sum :=
  (List.sum_eq_foldl ..).symm

theorem State.signedCount_lt (s : State) (tid : Nat) (c : Cv) : s.signedCount tid c < 2 ^ 11 := by
  rw [State.signedCount_eq]
  have hsum := List.sum_le_card_nsmul ((setWeaves c.set).map fun i => 32 - (s.unsigned tid c i).toList.length) 32 (by simp)
  rw [List.length_map, smul_eq_mul] at hsum
  have hlen := setWeaves_length c.set
  omega

/-- The state of a register as MSTAT writes it. -/
def cvCode : CvSt → Nat
  | .clear => 0
  | .declared => 1
  | .signing => 2

theorem State.cvWord_eq (s : State) (tid : Nat) (c : Cv) : s.cvWord tid c = statWord c.set.toNat
    (if c.st = .signing then s.signedCount tid c else 0) (cvCode c.st) (if c.pend.isEmpty then 0 else 1) (if c.mask.isSome then 1 else 0) := by
  have hcode : s.cvWord tid c = c.set.toNat + (if c.st = .signing then s.signedCount tid c * 2 ^ 32 else 0) + cvCode c.st * 2 ^ 48
      + (if c.pend.isEmpty then 0 else 2 ^ 50) + (if c.mask.isSome then 2 ^ 51 else 0) := rfl
  rw [hcode, statWord, ite_mul, ite_mul, ite_mul, Nat.zero_mul, Nat.zero_mul, Nat.zero_mul, Nat.one_mul, Nat.one_mul]

/-- Selector 0 of MSTAT. -/
theorem State.cvWord_fields (s : State) (tid : Nat) (c : Cv) {v : W64} (hv : v = BitVec.ofNat 64 (s.cvWord tid c)) :
    v.extractLsb' 0 32 = c.set
    ∧ (v.extractLsb' 32 11).toNat = (if c.st = .signing then
        ((setWeaves c.set).map fun i => 32 - (s.unsigned tid c i).toList.length).sum else 0)
    ∧ (v.extractLsb' 48 2).toNat = cvCode c.st ∧ v.getLsbD 50 = !c.pend.isEmpty ∧ v.getLsbD 51 = c.mask.isSome := by
  have hsigned : (if c.st = .signing then s.signedCount tid c else 0) < 2 ^ 11 := by
    split
    · exact s.signedCount_lt tid c
    · decide
  have hfields := statWord_fields c.set.isLt hsigned (by cases c.st <;> decide : cvCode c.st < 4)
    (by split <;> decide : (if c.pend.isEmpty then 0 else 1) ≤ 1) (by split <;> decide : (if c.mask.isSome then 1 else 0) ≤ 1)
    (hv.trans (congrArg _ (s.cvWord_eq tid c)))
  rw [State.signedCount_eq] at hfields
  obtain ⟨hset, hsigned, hst, hpend, hmask⟩ := hfields
  refine ⟨BitVec.eq_of_toNat_eq hset, hsigned, hst, hpend.trans ?_, hmask.trans ?_⟩
  · cases c.pend.isEmpty <;> rfl
  · cases c.mask.isSome <;> rfl

/-- What MSTAT writes. -/
def Ctx.statValue (x : Ctx) (sel : BitVec 8) (a : Nat) : Nat :=
  if sel = 0 then x.s.cvWord x.e.tid (x.e.t.cvr a)
  else if sel = 2 then x.e.t.charged.toNat * 2 ^ 32 + (x.s.bucket (x.e.t.core / 8)).units % 2 ^ 32
  else maskWord (x.e.t.cvr a).mask sel.toNat

theorem mstat_does (h : Hd) (sel : BitVec 8) (d a : Nat) : DoesS (.mstat h sel d a) d fun x => BitVec.ofNat 64 (x.statValue sel a) :=
  doesS_of _ (exec_mstat h sel d a) (fun _ => rfl) (fun _ => rfl) fun _ => rfl

/-- A mask selector, for a register that has a mask or has none. -/
theorem Ctx.statValue_mask {x : Ctx} {sel : BitVec 8} {a : Nat} (h0 : sel.toNat ≠ 0) (h2 : sel.toNat ≠ 2) {f : MaskBlk → Nat}
    (hf : ∀ m, maskWord (some m) sel.toNat = f m) : x.statValue sel a = match (x.e.t.cvr a).mask with
      | some m => f m
      | none => 0 := by
  rw [Ctx.statValue, if_neg (fun h => h0 (by rw [h]; rfl)), if_neg (fun h => h2 (by rw [h]; rfl))]
  cases (x.e.t.cvr a).mask with
  | none => rfl
  | some m => exact hf m

/-- Settles O34: the three instructions that change the team, the load that MLDMASK starts, and the word that MSTAT reads. -/
theorem matrixInstructions : Obligations.MatrixInstructions := by
  intro h d a b mask sel st x
  dsimp only
  refine ⟨fun hi => ⟨fun hlegal => ?_, fun hno => mdecl_traps hi hno⟩, fun hi => ⟨fun n hn hout hlow => mzero_traps hi hn hout hlow,
    fun hin => ⟨fun hbusy => ?_, fun hfree => ?_⟩⟩, fun hi => ?_, fun hi => ⟨fun htag => ?_, fun htag hno => ?_, fun htag hmay hno => ?_,
      fun htag hmay hin hal => ?_, fun htag hmay hin hal hpeer hroom => ?_⟩, (mstat_does h sel d a).imp fun x w hw => ?_⟩
  · obtain ⟨t, hexec, honly, hteam⟩ := mdecl_declares hi hlegal
    exact ⟨t, _, hexec, honly, hteam, rfl, fun r hr => (Team.cvr_setCv ..).trans (if_neg hr), (Team.cvr_setCv ..).trans (if_pos rfl)⟩
  · obtain ⟨hst, -⟩ := State.ctx_weave hi.1
    exact mzero_stalls hi hin (hst.symm ▸ hbusy)
  · obtain ⟨hst, -⟩ := State.ctx_weave hi.1
    obtain ⟨t, hexec, honly, hteam⟩ := mzero_zeroes hi hin (hst.symm ▸ hfree)
    exact ⟨t, _, hexec, honly, hteam, rfl, x.e.t.acc_zeroed mask⟩
  · obtain ⟨t, hexec, honly, hteam⟩ := mbudget_sets hi
    exact ⟨t, _, hexec, honly, hteam, rfl⟩
  · exact mldmask_traps hi (rangeTrap_untagged htag)
  · exact mldmask_traps hi (rangeTrap_unfit htag hno)
  · exact mldmask_traps hi ((rangeTrap_fit htag hmay).2 (mt Ctx.maskLies_iff.1 hno))
  · exact mldmask_misaligned hi ((rangeTrap_fit htag hmay).1 (Ctx.maskLies_iff.2 hin)) hal
  · obtain ⟨hst, -⟩ := State.ctx_weave hi.1
    exact mldmask_starts hi ((rangeTrap_fit htag hmay).1 (Ctx.maskLies_iff.2 hin)) hal (rangePeer_none fun h0 => hst.symm ▸ hpeer h0) hroom
  · refine ⟨fun h0 => ?_, fun h1 => ?_, fun h2 => ?_, fun hlo hhi => ?_, fun hlo hhi => ?_⟩
    · have hv : w.getS d = BitVec.ofNat 64 (x.s.cvWord x.e.tid (x.e.t.cvr a)) :=
        hw.trans (congrArg _ (if_pos h0))
      obtain ⟨hset, hsigned, hcode, hpend, hmask⟩ := x.s.cvWord_fields _ _ hv
      exact ⟨hset, hsigned, hcode.trans (by cases (x.e.t.cvr a).st <;> rfl), hpend, hmask⟩
    · exact hw.trans (congrArg _ (Ctx.statValue_mask (by rw [h1]; decide) (by rw [h1]; decide) fun m => by rw [h1]; rfl))
    · exact hw.trans (congrArg _ ((if_neg (by rw [h2]; decide)).trans (if_pos h2)))
    · refine hw.trans (congrArg _ (Ctx.statValue_mask (by omega) (by omega) fun m => ?_))
      rw [maskWord, if_neg (by omega), if_pos hhi]
    · refine hw.trans (congrArg _ (Ctx.statValue_mask (by omega) (by omega) fun m => ?_))
      rw [maskWord, if_neg (by omega), if_neg (by omega)]

end Sys2Proof.Machine
end

section
/-! MSIGN (R219–R221, R230, R426, R427): the statement on signing and submission. -/

namespace Sys2Proof.Machine

open Sys2Proof

/-! ### The error of a failed MLDMASK (R230) -/

/-- Is a deferred error one of a mask load into register `r`. -/
def Deferred.isMask (r : Nat) : Deferred → Bool
  | .mask _ cv _ => cv == r
  | _ => false

theorem Deferred.isMask_iff {r : Nat} {d : Deferred} : d.isMask r = true ↔ ∃ f e, d = .mask f r e := by
  cases d with
  | mask f cv e => simp [Deferred.isMask]
  | _ => simp [Deferred.isMask]

theorem Weave.maskErr_eq (w : Weave) (r : Nat) : w.maskErr r = match w.errs.find? (Deferred.isMask r) with
    | some (.mask f cv detail) => some (detail, { w with errs := w.errs.erase (.mask f cv detail) })
    | _ => none := rfl

section MaskErr

variable {w : Weave} {d : Nat}

theorem Weave.maskErr_none (h : ∀ f cv e, Deferred.mask f cv e ∈ w.errs → cv ≠ d) : w.maskErr d = none := by
  have hfind : w.errs.find? (Deferred.isMask d) = none := by
    refine List.find?_eq_none.2 fun q hq hmask => ?_
    obtain ⟨f, e, rfl⟩ := Deferred.isMask_iff.1 hmask
    exact h f d e hq rfl
  rw [Weave.maskErr_eq, hfind]

theorem Weave.maskErr_first {pre post : List Deferred} {f : Option Nat} {e : BitVec 16} (h : w.errs = pre ++ .mask f d e :: post)
    (hpre : ∀ f cv e, Deferred.mask f cv e ∈ pre → cv ≠ d) : w.maskErr d = some (e, { w with errs := pre ++ post }) := by
  have hfind : w.errs.find? (Deferred.isMask d) = some (.mask f d e) := by
    refine List.find?_eq_some_iff_append.2 ⟨Deferred.isMask_iff.2 ⟨f, e, rfl⟩, pre, post, h, fun q hq => ?_⟩
    rw [Bool.not_eq_true', Bool.eq_false_iff]
    intro hmask
    obtain ⟨f', e', rfl⟩ := Deferred.isMask_iff.1 hmask
    exact hpre f' d e' hq rfl
  have herase : w.errs.erase (.mask f d e) = pre ++ post := by
    rw [h, List.erase_append_right _ fun hmem => hpre f d e hmem rfl, List.erase_cons_head]
  rw [Weave.maskErr_eq, hfind]
  dsimp only
  rw [herase]

end MaskErr

/-! ### The checks of MSIGN (R219, R220) -/

section Msign

variable {st : State} {x : Ctx} {h : Hd} {attn : Bool} {d b : Nat}

/-- The threads of the issuing weave that have signed a register. -/
def Ctx.oldSigned (x : Ctx) (d : Nat) : Lanes := Tbl.get (x.e.t.cvr d).signed 0 x.w.idx

/-- May the active threads sign the register (R219, R426). -/
def Ctx.MaySign (x : Ctx) (d : Nat) : Prop :=
  (x.e.t.cvr d).st ≠ .clear ∧ (x.e.t.cvr d).set.getLsbD x.w.idx = true ∧ x.act &&& x.oldSigned d = 0

theorem Ctx.maySign_iff (x : Ctx) (d : Nat) : ((x.e.t.cvr d).st = .clear ∨ (!(x.e.t.cvr d).set.getLsbD x.w.idx) = true
    ∨ ((x.act &&& (Tbl.get (x.e.t.cvr d).signed 0 x.w.idx : Lanes)) != 0) = true) ↔ ¬ x.MaySign d := by
  rw [Ctx.MaySign, Ctx.oldSigned, Bool.not_eq_true', Bool.eq_false_iff, bne_iff_ne]
  tauto

/-- What MSIGN does once the register may be signed and the descriptor and its operands have passed. -/
def Ctx.msignGo (x : Ctx) (attn : Bool) (d b : Nat) : Res :=
  if x.act = 0 then .done x.s
  else if (x.e.t.cvr d).st = .signing ∧ (x.e.t.cvr d).snap ≠ some (x.snap attn b) then .trap (convMismatch d)
  else x.sign d (x.snap attn b)

section Calm

variable (hi : st.Issues (.msign h attn d b) x) (hcalm : ∀ f cv e, Deferred.mask f cv e ∈ x.w.errs → cv ≠ d)
include hi hcalm

theorem msign_illegal (hno : ¬ x.MaySign d) : x.Traps (.msign h attn d b) (.plain .convMismatch d) := by
  refine Ctx.traps_of_entry hi (exec_msign ..) ?_
  dsimp only
  rw [Weave.maskErr_none hcalm]
  exact if_pos ((x.maySign_iff d).2 hno)

theorem msign_go (hlegal : x.MaySign d)
    (hdesc : descTrap attn (x.snap attn b).words x.e.f.lr.accBlk (x.e.t.cvr d).mask 0xB1 = none)
    (hop : x.operandStop attn (x.snap attn b).words = none) :
    exec (.msign h attn d b) st = .next ((x.msignGo attn d b).apply x (.msign h attn d b)) := by
  have hexec := hi.exec_eq (exec_msign h attn d b st)
  dsimp only at hexec
  rw [Weave.maskErr_none hcalm] at hexec
  dsimp only at hexec
  rw [if_neg (fun hn => (x.maySign_iff d).1 hn hlegal), hdesc] at hexec
  dsimp only at hexec
  rw [hop] at hexec
  exact hexec

end Calm

/-- The waiting error is raised, and waits no more. -/
theorem msign_maskError (hi : st.Issues (.msign h attn d b) x) {pre post : List Deferred} {f : Option Nat} {e : BitVec 16}
    (herrs : x.w.errs = pre ++ .mask f d e :: post) (hpre : ∀ f cv e, Deferred.mask f cv e ∈ pre → cv ≠ d) :
    exec (.msign h attn d b) st = .next ((st.setWeave x.c.weave { x.w with errs := pre ++ post }).takeTrap x.c.weave x.c.gid
      x.c.addr x.c.len x.h.bnd (.plain .maskTopology e.toNat)) := by
  obtain ⟨hs, hwid, -⟩ := State.ctx_weave hi.1
  have hexec := hi.exec_eq (exec_msign h attn d b st)
  dsimp only at hexec
  rw [Weave.maskErr_first herrs hpre] at hexec
  rw [hexec, ← hs]
  simp only [hwid]
  rfl

/-! ### A signature, and the last one (R220, R221) -/

/-- The register with this issue's signature. -/
def Ctx.newCv (x : Ctx) (attn : Bool) (d b : Nat) : Cv :=
  { x.e.t.cvr d with
    st := .signing, snap := some (x.snap attn b)
    signed := Tbl.put (x.e.t.cvr d).signed x.w.idx (x.oldSigned d ||| x.act)
    signers := (x.e.t.cvr d).signers ++ [(x.c.weave, x.g.run.slot x.h.fs)] }

/-- The issuing weave's flag counts one more. -/
def Ctx.counted (x : Ctx) (s : State) : State := s.updWeave x.c.weave fun w => w.countUp (x.g.run.slot x.h.fs)

/-- The register is not signed yet, or the first signer's snapshot is this one. -/
def Ctx.Joins (x : Ctx) (attn : Bool) (d b : Nat) : Prop :=
  ((x.e.t.cvr d).st = .signing ∧ (x.e.t.cvr d).snap = some (x.snap attn b)) ∨ ((x.e.t.cvr d).st = .declared ∧ (x.e.t.cvr d).snap = none)

theorem Ctx.Joins.msignGo (hact : x.act ≠ 0) (hj : x.Joins attn d b) : x.msignGo attn d b = x.sign d (x.snap attn b) := by
  rw [Ctx.msignGo, if_neg hact, if_neg]
  rintro ⟨hsigning, hsnap⟩
  rcases hj with ⟨-, h⟩ | ⟨h, -⟩
  · exact hsnap h
  · rw [h] at hsigning; cases hsigning

theorem Ctx.Joins.snap_getD (hj : x.Joins attn d b) : (x.e.t.cvr d).snap.getD (x.snap attn b) = x.snap attn b := by
  rcases hj with ⟨-, h⟩ | ⟨-, h⟩ <;> rw [h] <;> rfl

theorem Ctx.Joins.signed (hwid : x.e.wid = x.c.weave) (hj : x.Joins attn d b) :
    x.signed (x.e.t.cvr d) (x.snap attn b) = x.newCv attn d b := by
  rw [Ctx.signed, hj.snap_getD, hwid]; rfl

/-- The answer of a signature with room on its flag. -/
theorem Ctx.Joins.sign (hi : st.Issues (.msign h attn d b) x) (hj : x.Joins attn d b) (hroom : x.FlagRoom) :
    x.sign d (x.snap attn b) =
      if !(x.counted st).allSigned x.e.tid (x.newCv attn d b) then .done ((x.counted st).setCv x.e.tid d (x.newCv attn d b))
      else if attn && (x.counted st).acqPending (x.newCv attn d b).signers then .stall
      else
        match (x.counted st).subCheck x.e (x.newCv attn d b) (x.snap attn b) with
        | .ok k => .done ((x.counted st).submit x.e d (x.newCv attn d b) (x.snap attn b) k)
        | .error (.trap t) => .trap t
        | .error (.peer p w) => x.peerTrap p (x.g.lanes.toList.headD 0) w
        | .error (.err e) => x.kvErr e := by
  obtain ⟨hs, hwid, -⟩ := State.ctx_weave hi.1
  rw [Ctx.sign, hj.signed hwid, hroom.canCount, hwid, hs]
  rfl

theorem Ctx.weave_counted (hi : st.Issues (.msign h attn d b) x) (n : Nat) : (x.counted st).weave n
    = if n = x.c.weave then some (x.w.countUp (x.g.run.slot x.h.fs)) else st.weave n := by
  obtain ⟨-, -, hw⟩ := State.ctx_weave hi.1
  rw [Ctx.counted, State.weave_updWeave]
  split
  · rw [hw]; rfl
  · rfl

/-- A change of one register of the issuing team, with the flag counted. -/
theorem Ctx.onTeam_counted (hi : st.Issues (.msign h attn d b) x) {s : State} {c : Cv} (hteams : s.teams = (x.counted st).teams)
    (hweaves : s.weaves = (x.counted st).weaves) :
    x.OnTeam (.msign h attn d b) ((Res.done (s.setCv x.e.tid d c)).apply x (.msign h attn d b)) (x.e.t.setCv d c)
      (x.g.run.slot x.h.fs) := by
  have hteam (n : Nat) : s.team n = st.team n := by rw [State.team, hteams]; rfl
  have hweave (n : Nat) : s.weave n = (x.counted st).weave n := by rw [State.weave, hweaves]; rfl
  refine Ctx.onTeam_of hi.1 ?_ (fun n hn => ?_) fun n => ?_
  · rw [State.setCv_eq, State.team_updTeam, if_pos rfl, hteam, State.ctx_team hi.1]; rfl
  · rw [State.setCv_eq, State.team_updTeam, if_neg hn, hteam]
  · exact (hweave n).trans (Ctx.weave_counted hi n)

section Signs

variable (hi : st.Issues (.msign h attn d b) x) (hj : x.Joins attn d b) (hroom : x.FlagRoom)
  (hexec : exec (.msign h attn d b) st = .next ((x.sign d (x.snap attn b)).apply x (.msign h attn d b)))
include hi hj hroom hexec

/-- A signature that is not the last. -/
theorem msign_signs (hmore : (x.counted st).allSigned x.e.tid (x.newCv attn d b) = false) :
    ∃ t, exec (.msign h attn d b) st = .next t
      ∧ x.OnTeam (.msign h attn d b) t (x.e.t.setCv d (x.newCv attn d b)) (x.g.run.slot x.h.fs)
      ∧ t = { st with teams := t.teams, weaves := t.weaves } := by
  rw [hj.sign hi hroom, hmore, if_pos (by rfl)] at hexec
  exact ⟨_, hexec, Ctx.onTeam_counted hi rfl rfl, rfl⟩

/-- The last signature submits. -/
theorem msign_submits {k : Option KvDesc} (hall : (x.counted st).allSigned x.e.tid (x.newCv attn d b) = true)
    (hacq : attn = true → (x.counted st).acqPending (x.newCv attn d b).signers = false)
    (hsub : (x.counted st).subCheck x.e (x.newCv attn d b) (x.snap attn b) = .ok k) :
    ∃ t, exec (.msign h attn d b) st = .next t
      ∧ x.OnTeam (.msign h attn d b) t (x.e.t.setCv d { x.e.t.cvr d with
          st := .declared, signed := [], signers := [], snap := none, pend := (x.e.t.cvr d).pend ++ [st.nextId] })
        (x.g.run.slot x.h.fs)
      ∧ t = { st with nextId := t.nextId, teams := t.teams, weaves := t.weaves, mxReqs := t.mxReqs }
      ∧ t.mxReqs = Tbl.put st.mxReqs st.nextId
        { team := x.e.tid, part := x.e.part, scopeH := x.e.f.scope, cg := x.e.t.core / 8, cv := d, snap := x.snap attn b
          desc := k, mask := (x.e.t.cvr d).mask, signers := (x.newCv attn d b).signers, st := .pending, batch := none
          cancelled := false, submittedAt := st.clock, arrival := st.nextId, rowsRead := [], fault := none } := by
  have hgo : ¬ (attn && (x.counted st).acqPending (x.newCv attn d b).signers) = true := by
    intro hn
    obtain ⟨ha, hp⟩ := Bool.and_eq_true_iff.1 hn
    rw [hacq ha] at hp
    cases hp
  rw [hj.sign hi hroom, hall, if_neg (by simp), if_neg hgo, hsub] at hexec
  exact ⟨_, hexec, Ctx.onTeam_counted hi rfl rfl, rfl, rfl⟩

end Signs

end Msign

/-- Settles O35: the checks in their order, then the signature, which submits when it is the last. -/
theorem signing : Obligations.Signing := by
  intro h attn d b st x
  dsimp only
  intro hi
  refine ⟨fun f e pre post herrs hpre => msign_maskError hi herrs hpre, fun hcalm => ⟨fun hno => msign_illegal hi hcalm hno,
    fun hlegal hdesc hop => ?_⟩⟩
  have hgo := msign_go hi hcalm hlegal hdesc hop
  obtain ⟨hs, -⟩ := State.ctx_weave hi.1
  refine ⟨fun hact => ?_, fun hact hsigning hsnap => ?_, fun hact hj hroom => ?_⟩
  · rw [Ctx.msignGo, if_pos hact] at hgo
    exact ⟨_, _, hgo, Ctx.only_done hi.1⟩
  · rw [Ctx.msignGo, if_neg hact, if_pos ⟨hsigning, hsnap⟩] at hgo
    rw [Ctx.Traps, hs, hgo, Res.apply, hs]
    rfl
  · have hj : x.Joins attn d b := hj
    rw [hj.msignGo hact] at hgo
    refine ⟨fun hmore => ?_, fun k hall hacq hsub => ?_⟩
    · obtain ⟨t, hexec, hteam, honly⟩ := msign_signs hi hj hroom hgo hmore
      exact ⟨t, _, hexec, hteam, honly, rfl, (Team.cvr_setCv ..).trans (if_pos rfl), fun r hr => (Team.cvr_setCv ..).trans (if_neg hr)⟩
    · obtain ⟨t, hexec, hteam, honly, hreqs⟩ := msign_submits hi hj hroom hgo hall hacq hsub
      refine ⟨t, _, hexec, hteam, honly, rfl, fun r hr => (Team.cvr_setCv ..).trans (if_neg hr), (Team.cvr_setCv ..).trans (if_pos rfl),
        fun n hn => ?_, ?_⟩
      · rw [hreqs]; exact Tbl.find_put_other _ _ hn
      · rw [hreqs]; exact Tbl.find_put_self ..

end Sys2Proof.Machine
end

section
/-! The Saffron queue (R232, R233, R237): requests join batches, batches close and are dispatched. -/

namespace Sys2Proof.Machine

open Sys2Proof

/-! ### A request enters (R232, R233) -/

section Enter

variable {s : State} {req : Nat} {q : MxReq}

/-- The request that is next to enter: it may, and none of an earlier arrival may. -/
def State.NextIn (s : State) (req : Nat) (q : MxReq) : Prop :=
  Tbl.find s.mxReqs req = some q ∧ s.mayEnter q = true
    ∧ ∀ e ∈ s.mxReqs, e.2.arrival < q.arrival → e.2.cg = q.cg → s.mayEnter e.2 = false

/-- The request, as an entry of a batch. -/
def MxReq.enter (q : MxReq) (b : Nat) : MxReq := { q with st := .queued, batch := some b }

theorem State.unpend_rest (s : State) (id : Nat) (q : MxReq) : s.unpend id q = { s with teams := (s.unpend id q).teams } := by
  rw [State.unpend]; split <;> rfl

/-- The register no longer waits for the request. -/
theorem State.unpend_team (s : State) (id : Nat) (q : MxReq) {tm : Team} (h : s.team q.team = some tm) : ∃ tm',
    (s.unpend id q).team q.team = some tm' ∧ tm' = { tm with cv := tm'.cv } ∧ id ∉ (tm'.cvr q.cv).pend := by
  have hunpend : s.unpend id q = s.setCv q.team q.cv { tm.cvr q.cv with pend := dropName (tm.cvr q.cv).pend id } := by
    rw [State.unpend, h]
  refine ⟨tm.setCv q.cv { tm.cvr q.cv with pend := dropName (tm.cvr q.cv).pend id }, ?_, rfl, ?_⟩
  · rw [hunpend, State.setCv_eq, State.team_updTeam, if_pos rfl, h]; rfl
  · rw [Team.cvr_setCv, if_pos rfl]
    simp [dropName]

/-- A batch in the state after a request has entered it: full ones close. -/
def State.closedFull (s : State) (x : Batch) : Batch := { x with closed := x.closed || decide (256 ≤ s.batchRows x) }

theorem State.closeFull_spec (s : State) {b : Nat} {x : Batch} (h : Tbl.find s.batches b = some x) :
    s.closeFull b = { s with batches := (s.closeFull b).batches }
    ∧ ∀ n, Tbl.find (s.closeFull b).batches n = if n = b then some (s.closedFull x) else Tbl.find s.batches n := by
  rw [State.closeFull, h]
  dsimp only
  by_cases hfull : s.batchRows x ≥ Config.batchRows
  · rw [if_pos hfull]
    refine ⟨rfl, fun n => (Tbl.find_upd ..).trans ?_⟩
    rw [h, State.closedFull, decide_eq_true (show 256 ≤ s.batchRows x from hfull), Bool.or_true]; rfl
  · rw [if_neg hfull]
    refine ⟨rfl, fun n => ?_⟩
    rw [State.closedFull, decide_eq_false (show ¬ 256 ≤ s.batchRows x from hfull), Bool.or_false]
    split
    next hn => rw [hn, h]
    next => rfl

/-- Entering leaves the rows of a batch's requests as they are. -/
theorem State.batchRows_enter {t : State} {b : Nat} (hq : Tbl.find s.mxReqs req = some q)
    (ht : ∀ n, Tbl.find t.mxReqs n = if n = req then some (q.enter b) else Tbl.find s.mxReqs n) (x : Batch) : t.batchRows x = s.batchRows x := by
  have hone (i : Nat) : ((Tbl.find t.mxReqs i).map fun q => (i, q)).map (·.2.rows) = ((Tbl.find s.mxReqs i).map fun q => (i, q)).map (·.2.rows) := by
    rw [ht]
    split
    next hi => rw [hi, hq]; rfl
    next => rfl
  simp only [State.batchRows, State.batchReqs, List.map_filterMap, hone]

theorem State.batchRows_append (s : State) (x : Batch) (hq : Tbl.find s.mxReqs req = some q) :
    s.batchRows { x with reqs := x.reqs ++ [req] } = s.batchRows x + q.rows := by
  simp [State.batchRows, State.batchReqs, hq]

/-- A request has at most 255 rows, as many as its descriptor's field holds. -/
theorem MxReq.rows_lt (q : MxReq) : q.rows < 256 := by
  rw [MxReq.rows]
  split
  · exact (Nat.mod_lt _ (by decide) : (attnOf q.snap.words).rows < 2 ^ 7).trans (by decide)
  · exact (Nat.mod_lt _ (by decide) : (mmaOf q.snap.words).rows < 2 ^ 8)

/-- The batch that a request opens. -/
def State.newBatch (s : State) (req : Nat) (q : MxReq) : Batch where
  cg := q.cg
  reqs := [req]
  closeAt := s.clock + ((s.team q.team).map Team.deadlineCycles).getD 2000
  closed := false
  passed := 0
  core := none
  got := []
  tile := []
  pc := none
  seen := []
  fault := none

/-- The state in which the request stands in its new batch, before full ones close. -/
def State.opened (s : State) (req : Nat) (q : MxReq) : State :=
  State.updReq { s.unpend req q with nextId := s.nextId + 1, batches := Tbl.put s.batches s.nextId (s.newBatch req q) } req
    fun q => q.enter s.nextId

/-- The state in which the request stands in an open batch. -/
def State.joined (s : State) (req : Nat) (q : MxReq) (n : Nat) : State :=
  State.updReq ((s.unpend req q).updBatch n fun x => { x with reqs := x.reqs ++ [req] }) req fun q => q.enter n

variable (hin : s.NextIn req q)
include hin

/-- A request that is next opens a batch where it joins none. -/
theorem exec_enqueue_opens (hj : s.joins q = none) :
    exec (.saffronEnqueue req) s = .next ((s.opened req q).closeFull s.nextId) := by
  obtain ⟨hq, hmay, hfirst⟩ := hin
  have hnone : someT s.mxReqs (fun _ o => o.arrival < q.arrival && o.cg == q.cg && s.mayEnter o) = false := by
    refine List.any_eq_false.2 fun e he => ?_
    simp only [Bool.and_eq_true, decide_eq_true_eq, beq_iff_eq, not_and, Bool.not_eq_true, and_imp]
    exact hfirst e he
  rw [exec_saffronEnqueue, execSaffronEnqueue, hq]
  dsimp only
  rw [hmay, hnone, hj, State.opened, State.unpend_rest]
  rfl

/-- … and joins the open batch of its key where there is one. -/
theorem exec_enqueue_joins {n : Nat} (hj : s.joins q = some n) :
    exec (.saffronEnqueue req) s = .next ((s.joined req q n).closeFull n) := by
  obtain ⟨hq, hmay, hfirst⟩ := hin
  have hnone : someT s.mxReqs (fun _ o => o.arrival < q.arrival && o.cg == q.cg && s.mayEnter o) = false := by
    refine List.any_eq_false.2 fun e he => ?_
    simp only [Bool.and_eq_true, decide_eq_true_eq, beq_iff_eq, not_and, Bool.not_eq_true, and_imp]
    exact hfirst e he
  rw [exec_saffronEnqueue, execSaffronEnqueue, hq]
  dsimp only
  rw [hmay, hnone, hj]
  rfl

end Enter

end Sys2Proof.Machine
end

section
/-! Entry, closing, refill and dispatch of the Saffron queue (R232, R233, R237), and the statement about it. -/

namespace Sys2Proof.Machine

open Sys2Proof

/-! ### What entry leaves -/

section Enter

variable {s : State} {req : Nat} {q : MxReq} (hin : s.NextIn req q)
include hin

omit hin in
theorem State.updReq_find (u : State) (id : Nat) (f : MxReq → MxReq) (n : Nat) :
    Tbl.find (u.updReq id f).mxReqs n = if n = id then (Tbl.find u.mxReqs id).map f else Tbl.find u.mxReqs n := Tbl.find_upd ..

theorem enqueue_opens (hj : s.joins q = none) : ∃ t, exec (.saffronEnqueue req) s = .next t
    ∧ t = { s with nextId := t.nextId, teams := t.teams, mxReqs := t.mxReqs, batches := t.batches }
    ∧ t.teams = (s.unpend req q).teams
    ∧ (∀ n, Tbl.find t.mxReqs n = if n = req then some (q.enter s.nextId) else Tbl.find s.mxReqs n)
    ∧ ∀ n, Tbl.find t.batches n = if n = s.nextId then some (s.newBatch req q) else Tbl.find s.batches n := by
  have hexec := exec_enqueue_opens hin hj
  obtain ⟨hq, -, -⟩ := hin
  have hrest := s.unpend_rest req q
  have hreqs (n : Nat) : Tbl.find (s.opened req q).mxReqs n = if n = req then some (q.enter s.nextId) else Tbl.find s.mxReqs n := by
    rw [State.opened, State.updReq_find, hrest]
    simp only [hq, Option.map_some]
  have hfind : Tbl.find (s.opened req q).batches s.nextId = some (s.newBatch req q) := Tbl.find_put_self ..
  have hopen : (s.opened req q).closedFull (s.newBatch req q) = s.newBatch req q := by
    have hrows : s.batchRows (s.newBatch req q) = q.rows := by
      simp [State.batchRows, State.batchReqs, State.newBatch, hq]
    rw [State.closedFull, State.batchRows_enter hq hreqs, hrows, decide_eq_false (Nat.not_le.2 q.rows_lt), Bool.or_false]
  obtain ⟨hsame, hbatches⟩ := (s.opened req q).closeFull_spec hfind
  rw [hopen] at hbatches
  refine ⟨_, hexec, ?_, ?_, fun n => ?_, fun n => (hbatches n).trans ?_⟩
  · rw [hsame, State.opened, hrest]; rfl
  · rw [hsame]; rfl
  · rw [hsame]; exact hreqs n
  · split
    next => rfl
    next hn => exact Tbl.find_put_other _ _ hn

theorem enqueue_joins {n : Nat} {bt : Batch} (hj : s.joins q = some n) (hb : Tbl.find s.batches n = some bt) :
    ∃ t, exec (.saffronEnqueue req) s = .next t ∧ t = { s with teams := t.teams, mxReqs := t.mxReqs, batches := t.batches }
      ∧ Tbl.find t.mxReqs req = some (q.enter n)
      ∧ Tbl.find t.batches n = some { bt with
          reqs := bt.reqs ++ [req], closed := bt.closed || decide (256 ≤ s.batchRows bt + q.rows) } := by
  have hexec := exec_enqueue_joins hin hj
  obtain ⟨hq, -, -⟩ := hin
  have hrest := s.unpend_rest req q
  have hreqs (k : Nat) : Tbl.find (s.joined req q n).mxReqs k = if k = req then some (q.enter n) else Tbl.find s.mxReqs k := by
    have hmx : ((s.unpend req q).updBatch n fun x => { x with reqs := x.reqs ++ [req] }).mxReqs = s.mxReqs := by rw [hrest]; rfl
    rw [State.joined, State.updReq_find, hmx, hq]; rfl
  have hfind : Tbl.find (s.joined req q n).batches n = some { bt with reqs := bt.reqs ++ [req] } := by
    have hbs : (s.unpend req q).batches = s.batches := by rw [hrest]
    exact (Tbl.find_upd ..).trans (by rw [if_pos rfl, hbs, hb]; rfl)
  obtain ⟨hsame, hbatches⟩ := (s.joined req q n).closeFull_spec hfind
  refine ⟨_, hexec, ?_, ?_, (hbatches n).trans ?_⟩
  · rw [hsame, State.joined, hrest]; rfl
  · rw [hsame]; exact (hreqs req).trans (if_pos rfl)
  · rw [if_pos rfl, State.closedFull, State.batchRows_enter hq hreqs, State.batchRows_append s bt hq]

end Enter

/-! ### Deadline and refill (R233, R237) -/

theorem batchDeadline_closes {s : State} {n : Nat} {bt : Batch} (h : Tbl.find s.batches n = some bt) :
    ∃ t, exec (.batchDeadline n) s = .next t ∧ t = { s with batches := t.batches }
      ∧ Tbl.find t.batches n = some { bt with closed := bt.closed || decide (bt.closeAt ≤ s.clock) }
      ∧ ∀ k, k ≠ n → Tbl.find t.batches k = Tbl.find s.batches k := by
  rw [exec_batchDeadline, execBatchDeadline, h]
  dsimp only
  by_cases hover : s.clock ≥ bt.closeAt
  · rw [if_pos hover]
    refine ⟨_, rfl, rfl, (Tbl.find_upd ..).trans ?_, fun k hk => Tbl.find_upd_other _ _ hk⟩
    rw [if_pos rfl, h, decide_eq_true (show bt.closeAt ≤ s.clock from hover), Bool.or_true]; rfl
  · rw [if_neg hover]
    refine ⟨_, rfl, rfl, ?_, fun _ _ => rfl⟩
    rw [h, decide_eq_false (show ¬ bt.closeAt ≤ s.clock from hover), Bool.or_false]

theorem budgetRefill_fills (s : State) {cg : Nat} (hcg : cg < 32) (units : W32) :
    ∃ t, exec (.budgetRefill cg units) s = .next t ∧ t = { s with buckets := t.buckets }
      ∧ t.bucket cg = { s.bucket cg with units := min (2 ^ 32 - 1) ((s.bucket cg).units + units.toNat) }
      ∧ ∀ k, k ≠ cg → t.bucket k = s.bucket k := by
  rw [exec_budgetRefill, execBudgetRefill, if_pos hcg]
  exact ⟨_, rfl, rfl, (State.bucket_setBucket ..).trans (if_pos rfl), fun k hk => (State.bucket_setBucket ..).trans (if_neg hk)⟩

/-! ### The batch that is picked (R236, R237) -/

/-- A batch that may be dispatched to an array of a core group. -/
structure State.MayRun (s : State) (cg : Nat) (bt : Batch) (core : Nat) : Prop where
  group : bt.cg = cg
  closed : bt.closed = true
  waits : bt.core = none
  array : core ∈ s.freeArrays cg
  capped : ∀ e ∈ s.batchReqs bt, s.overCap bt core e.2.team = false

theorem State.arrayFor_mem {s : State} {bt : Batch} {arrays : List Nat} {c : Nat} (h : s.arrayFor bt arrays = some c) : c ∈ arrays := by
  rw [State.arrayFor] at h
  split at h
  next c' hc => cases h; exact List.mem_of_find?_eq_some hc
  next => exact List.mem_of_mem_head? h

/-- The waiting batches of a core group with their arrays and units. -/
def State.readyBatches (s : State) (cg : Nat) : List (Nat × Batch × Nat × Nat) :=
  (s.batches.filter fun e => e.2.cg == cg && e.2.closed && e.2.core.isNone).filterMap fun e =>
    (s.arrayFor e.2 (s.freeArrays cg)).bind fun c =>
      if (s.batchReqs e.2).any fun q => s.overCap e.2 c q.2.team then none else some (e.1, e.2, c, s.batchUnits e.2 c)

theorem State.mem_readyBatches {s : State} {cg : Nat} {y : Nat × Batch × Nat × Nat} (h : y ∈ s.readyBatches cg) :
    (y.1, y.2.1) ∈ s.batches ∧ s.MayRun cg y.2.1 y.2.2.1 ∧ y.2.2.2 = s.batchUnits y.2.1 y.2.2.1 := by
  obtain ⟨e, he, hy⟩ := List.mem_filterMap.1 h
  obtain ⟨hmem, hwait⟩ := List.mem_filter.1 he
  obtain ⟨c, hc, hy⟩ := Option.bind_eq_some_iff.1 hy
  split at hy
  · cases hy
  next hcap =>
    cases hy
    simp only [Bool.and_eq_true, beq_iff_eq, Option.isNone_iff_eq_none] at hwait
    rw [Bool.not_eq_true, List.any_eq_false] at hcap
    exact ⟨hmem, ⟨hwait.1.1, hwait.1.2, hwait.2, State.arrayFor_mem hc, fun e he => by simpa using hcap e he⟩, rfl⟩

/-- The cheaper of two. -/
def cheaper (b y : Nat × Batch × Nat × Nat) : Nat × Batch × Nat × Nat := if y.2.2.2 < b.2.2.2 then y else b

theorem foldl_cheaper_mem (r : List (Nat × Batch × Nat × Nat)) (x : Nat × Batch × Nat × Nat) : r.foldl cheaper x ∈ x :: r := by
  induction r generalizing x with
  | nil => exact List.mem_cons_self
  | cons y r ih =>
    rw [List.foldl_cons]
    rcases List.mem_cons.1 (ih (cheaper x y)) with h | h
    · rw [h, cheaper]
      split
      · exact List.mem_cons_of_mem _ List.mem_cons_self
      · exact List.mem_cons_self
    · exact List.mem_cons_of_mem _ (List.mem_cons_of_mem _ h)

/-- What the bucket covers. -/
def pickIf (units : Nat) (x : Nat × Batch × Nat × Nat) : Option (Nat × Batch × Nat) :=
  if x.2.2.2 ≤ units then some (x.1, x.2.1, x.2.2.1) else none

theorem State.pickBatch_eq (s : State) (cg : Nat) : s.pickBatch cg =
    match (s.readyBatches cg).find? fun x => x.2.1.passed ≥ 64 with
    | some x => pickIf (s.bucket cg).units x
    | none =>
      match s.readyBatches cg with
      | [] => none
      | x :: r =>
        match pickIf (s.bucket cg).units x with
        | some y => some y
        | none => pickIf (s.bucket cg).units (r.foldl cheaper x) := rfl

/-- The batch that is picked is one that may run, and the bucket covers it. -/
theorem State.pickBatch_spec {s : State} {cg n core : Nat} {bt : Batch} (h : s.pickBatch cg = some (n, bt, core)) :
    (n, bt) ∈ s.batches ∧ s.MayRun cg bt core ∧ s.batchUnits bt core ≤ (s.bucket cg).units := by
  have of_pick {y : Nat × Batch × Nat × Nat} (hy : y ∈ s.readyBatches cg) (hp : pickIf (s.bucket cg).units y = some (n, bt, core)) :
      (n, bt) ∈ s.batches ∧ s.MayRun cg bt core ∧ s.batchUnits bt core ≤ (s.bucket cg).units := by
    obtain ⟨hmem, hmay, hunits⟩ := State.mem_readyBatches hy
    rw [pickIf] at hp
    split at hp
    next hle => cases hp; exact ⟨hmem, hmay, hunits ▸ hle⟩
    next => cases hp
  rw [State.pickBatch_eq] at h
  split at h
  next y hy => exact of_pick (List.mem_of_find?_eq_some hy) h
  next =>
    split at h
    next => cases h
    next y r hready =>
      split at h
      next z hz => cases h; exact of_pick (hready ▸ List.mem_cons_self) hz
      next => exact of_pick (hready ▸ foldl_cheaper_mem r y) h

section MayRun

variable {s : State} {cg core : Nat} {bt : Batch} (h : s.MayRun cg bt core)
include h

theorem State.MayRun.free : core / 8 = cg ∧ ∀ e ∈ s.batches, e.2.core ≠ some core := by
  obtain ⟨hmem, hfree⟩ := List.mem_filter.1 h.array
  obtain ⟨i, hi, rfl⟩ := List.mem_map.1 hmem
  have hi := List.mem_range.1 hi
  refine ⟨by omega, fun e he hcore => ?_⟩
  rw [Bool.not_eq_true', someT, List.any_eq_false] at hfree
  exact hfree e he (by rw [hcore]; exact beq_self_eq_true _)

/-- The charges pass no team's UNITCAP where something else is charged to it. -/
theorem State.MayRun.cap {r : Nat} {q : MxReq} {tm : Team} (hr : (r, q) ∈ s.batchReqs bt) (htm : s.team q.team = some tm) :
    tm.unitcap = 0 ∨ tm.recent s.clock = 0
      ∨ tm.recent s.clock + (((s.batchCharges bt core).filter fun c => c.1 == q.team).map (·.2)).sum ≤ tm.unitcap := by
  have hcap := h.capped (r, q) hr
  rw [State.overCap, htm] at hcap
  rw [List.sum_eq_foldl]
  simp only [Bool.and_eq_false_iff, bne_eq_false_iff_eq, decide_eq_false_iff_not, Nat.not_lt, or_assoc] at hcap
  exact hcap

end MayRun

end Sys2Proof.Machine
end

section
/-! Dispatch of a batch (R233, R237), and O36. -/

namespace Sys2Proof.Machine

open Sys2Proof

/-! ### What a dispatch changes -/

/-- A request that has started. -/
def MxReq.run (q : MxReq) : MxReq := { q with st := .running }

/-- Requests start. -/
def State.runAll (s : State) (rs : List (Nat × MxReq)) : State := rs.foldl (fun s r => s.updReq r.1 MxReq.run) s

theorem State.runAll_rest (s : State) (rs : List (Nat × MxReq)) : s.runAll rs = { s with mxReqs := (s.runAll rs).mxReqs } := by
  induction rs generalizing s with
  | nil => rfl
  | cons r rs ih =>
    have hcons : s.runAll (r :: rs) = (s.updReq r.1 MxReq.run).runAll rs := rfl
    rw [hcons, ih]; rfl

/-- Each of them runs, however often it stands in the list. -/
theorem State.runAll_find (s : State) (rs : List (Nat × MxReq)) (r : Nat) : Tbl.find (s.runAll rs).mxReqs r =
    if r ∈ rs.map (·.1) then (Tbl.find s.mxReqs r).map MxReq.run else Tbl.find s.mxReqs r := by
  induction rs generalizing s with
  | nil => rfl
  | cons e rs ih =>
    have hcons : s.runAll (e :: rs) = (s.updReq e.1 MxReq.run).runAll rs := rfl
    rw [hcons, ih, State.updReq_find, List.map_cons]
    by_cases he : r = e.1
    · subst he
      simp only [if_true, List.mem_cons_self, Option.map_map]
      split <;> rfl
    · simp only [List.mem_cons, he, false_or, if_false]

/-- Teams are charged. -/
def State.chargeAll (s : State) (cs : List (Nat × Nat)) : State := cs.foldl (fun s c => s.charge c.1 c.2) s

theorem State.chargeAll_rest (s : State) (cs : List (Nat × Nat)) : s.chargeAll cs = { s with teams := (s.chargeAll cs).teams } := by
  induction cs generalizing s with
  | nil => rfl
  | cons c cs ih =>
    have hcons : s.chargeAll (c :: cs) = (s.charge c.1 c.2).chargeAll cs := rfl
    rw [hcons, ih]; rfl

/-- The bucket of a batch's core group after its dispatch. -/
def State.spent (s : State) (bt : Batch) (core : Nat) : Bucket where
  units := (s.bucket bt.cg).units - s.batchUnits bt core
  latched := match s.batchReqs bt with
    | (_, q) :: _ => if q.snap.attn then Tbl.del (s.bucket bt.cg).latched core
        else Tbl.put (s.bucket bt.cg).latched core (s.tileKey q (((mmaOf q.snap.words).kch - 1) / 2))
    | [] => (s.bucket bt.cg).latched

/-- What a dispatch makes of each batch: that one has its array, and older waiting ones are passed over. -/
def Batch.passedBy (n : Nat) (bt : Batch) (core k : Nat) (x : Batch) : Batch :=
  if k = n then { x with core := some core }
  else if k < n ∧ x.cg = bt.cg ∧ x.closed ∧ x.core = none then { x with passed := x.passed + 1 } else x

theorem State.dispatch_eq (s : State) (n : Nat) (bt : Batch) (core : Nat) : s.dispatch n bt core =
    { ((s.setBucket bt.cg (s.spent bt core)).chargeAll (s.batchCharges bt core)).runAll (s.batchReqs bt) with
      batches := mapT (((s.setBucket bt.cg (s.spent bt core)).chargeAll (s.batchCharges bt core)).runAll (s.batchReqs bt)).batches
        (Batch.passedBy n bt core) } := by
  rw [State.dispatch]
  rfl

theorem State.mem_batchReqs {s : State} {bt : Batch} {r : Nat} {q : MxReq} (h : (r, q) ∈ s.batchReqs bt) : Tbl.find s.mxReqs r = some q := by
  rw [State.batchReqs, List.mem_filterMap] at h
  obtain ⟨i, -, hi⟩ := h
  obtain ⟨q', hq', he⟩ := Option.map_eq_some_iff.1 hi
  cases he
  exact hq'

/-- The charge of a batch of one request. -/
theorem State.batchCharges_one {s : State} {bt : Batch} {r : Nat} {q : MxReq} (h : s.batchReqs bt = [(r, q)]) (core : Nat) :
    s.batchCharges bt core = [(q.team, s.batchUnits bt core)] := by
  simp [State.batchCharges, State.batchUnits, h]

section Dispatch

variable (s : State) {n : Nat} {bt : Batch} (core : Nat)

theorem dispatch_rest : s.dispatch n bt core = { s with
    teams := (s.dispatch n bt core).teams, mxReqs := (s.dispatch n bt core).mxReqs
    batches := (s.dispatch n bt core).batches, buckets := (s.dispatch n bt core).buckets } := by
  rw [State.dispatch_eq, State.runAll_rest, State.chargeAll_rest]
  rfl

theorem dispatch_batch (h : Tbl.find s.batches n = some bt) :
    Tbl.find (s.dispatch n bt core).batches n = some { bt with core := some core } := by
  have hbatches : (((s.setBucket bt.cg (s.spent bt core)).chargeAll (s.batchCharges bt core)).runAll (s.batchReqs bt)).batches = s.batches := by
    rw [State.runAll_rest, State.chargeAll_rest]; rfl
  rw [State.dispatch_eq, hbatches]
  refine (Tbl.find_mapT ..).trans ?_
  rw [h, Option.map_some, Batch.passedBy, if_pos rfl]

theorem dispatch_bucket : ((s.dispatch n bt core).bucket bt.cg).units = (s.bucket bt.cg).units - s.batchUnits bt core := by
  have hbucket : (s.dispatch n bt core).bucket bt.cg = (s.setBucket bt.cg (s.spent bt core)).bucket bt.cg := by
    rw [State.dispatch_eq, State.runAll_rest, State.chargeAll_rest]; rfl
  rw [hbucket, State.bucket_setBucket, if_pos rfl]
  rfl

theorem dispatch_runs {r : Nat} {q : MxReq} (h : (r, q) ∈ s.batchReqs bt) :
    Tbl.find (s.dispatch n bt core).mxReqs r = some { q with st := .running } := by
  rw [State.dispatch_eq]
  refine (State.runAll_find ..).trans ?_
  rw [if_pos (List.mem_map_of_mem (f := (·.1)) h), State.chargeAll_rest]
  exact congrArg (Option.map MxReq.run) (State.mem_batchReqs h)

theorem dispatch_charges {r : Nat} {q : MxReq} {tm : Team} (h : s.batchReqs bt = [(r, q)]) (htm : s.team q.team = some tm) :
    ∃ tm', (s.dispatch n bt core).team q.team = some tm' ∧ tm'.charged = tm.charged + BitVec.ofNat 32 (s.batchUnits bt core) := by
  have hteam : (s.dispatch n bt core).team q.team
      = ((s.setBucket bt.cg (s.spent bt core)).charge q.team (s.batchUnits bt core)).team q.team := by
    rw [State.dispatch_eq, State.runAll_rest, State.batchCharges_one h]; rfl
  rw [hteam, State.charge, State.team_updTeam, if_pos rfl]
  have hsame : (s.setBucket bt.cg (s.spent bt core)).team q.team = some tm := htm
  rw [hsame]
  exact ⟨_, rfl, rfl⟩

end Dispatch

/-! ### O36 -/

/-- Settles O36: a request that is next enters, a deadline closes, the bucket fills, and the picked batch is dispatched. -/
theorem saffronQueue : Obligations.SaffronQueue := by
  unfold Obligations.SaffronQueue
  intro s
  refine ⟨fun req q hq hmay hfirst => ?_, fun n bt hb => batchDeadline_closes hb,
    fun cg units hcg => budgetRefill_fills s hcg units, fun cg n bt core hpick hb => ?_⟩
  · have hin : s.NextIn req q := ⟨hq, hmay, hfirst⟩
    refine ⟨fun hj => ?_, fun n bt hj hb => ?_⟩
    · obtain ⟨t, hexec, hrest, hteams, hreqs, hbatches⟩ := enqueue_opens hin hj
      refine ⟨t, hexec, hrest, (hreqs req).trans (if_pos rfl), fun n hn => (hreqs n).trans (if_neg hn),
        fun n hn => (hbatches n).trans (if_neg hn), fun tm htm => ⟨?_, ?_⟩⟩
      · rw [hbatches, if_pos rfl, State.newBatch, htm]
        rfl
      · obtain ⟨tm', htm', hsame, hpend⟩ := s.unpend_team req q htm
        exact ⟨tm', (congrArg (Tbl.find · q.team) hteams).trans htm', hsame, hpend⟩
    · obtain ⟨t, hexec, hrest, hreq, hbatch⟩ := enqueue_joins hin hj hb
      refine ⟨t, _, hexec, hrest, hreq, hbatch, rfl, fun hopen => ?_⟩
      simp [hopen]
  · obtain ⟨-, hmay, hunits⟩ := State.pickBatch_spec hpick
    obtain ⟨hcore, hfree⟩ := hmay.free
    have hexec : exec (.batchDispatch cg) s = .next (s.dispatch n bt core) := by
      rw [exec_batchDispatch, execBatchDispatch, hpick]
    have hbucket := dispatch_bucket s core (n := n) (bt := bt)
    rw [hmay.group] at hbucket
    exact ⟨hmay.group, hmay.closed, hmay.waits, hunits, hcore, hfree, fun r q tm hr htm => hmay.cap hr htm, _, hexec,
      dispatch_rest s core, dispatch_batch s core hb, hbucket, fun r q hr => dispatch_runs s core hr,
      fun r q tm hone htm => dispatch_charges s core hone htm⟩

end Sys2Proof.Machine
end

section
/-! The chunk sums of the matrix array (R212–R215): sums of cut products, and their special values. -/

namespace Sys2Proof.Machine

open Sys2Proof

/-! ### Sums of cut terms (R213, R214) -/

/-- A finite product as the array adds it: its value is `±mag × 2^exp`, and `key` is the exponent that it is aligned by. -/
structure CutTerm where
  neg : Bool
  mag : Nat
  key : Int
  exp : Int

/-- A term cut below 2^(X − bits), in units of that. -/
def CutTerm.units (bits X : Int) (t : CutTerm) : Int :=
  signInt t.neg (t.mag * pow2 (t.exp - X + bits) / pow2 (-(t.exp - X + bits)))

/-- The largest key of some terms, from a first one on. -/
def maxKey (x : Int) (ts : List CutTerm) : Int := ts.foldl (fun x t => max x t.key) x

/-- The sum of some terms. -/
def sumTerms (bits : Int) : List CutTerm → Val
  | [] => .fin false 0 0
  | t :: ts =>
    let X := maxKey t.key ts
    let S := ((t :: ts).map (CutTerm.units bits X)).sum
    .fin (decide (S < 0)) S.natAbs (X - bits)

theorem maxKey_spec (x : Int) (ts : List CutTerm) :
    x ≤ maxKey x ts ∧ (∀ t ∈ ts, t.key ≤ maxKey x ts) ∧ (maxKey x ts = x ∨ ∃ t ∈ ts, t.key = maxKey x ts) := by
  induction ts generalizing x with
  | nil => exact ⟨le_rfl, by simp, .inl rfl⟩
  | cons t ts ih =>
    obtain ⟨hle, hall, hmem⟩ := ih (max x t.key)
    have hcons : maxKey x (t :: ts) = maxKey (max x t.key) ts := rfl
    rw [hcons]
    refine ⟨(le_max_left ..).trans hle, List.forall_mem_cons.2 ⟨(le_max_right ..).trans hle, hall⟩, ?_⟩
    rcases hmem with h | ⟨u, hu, h⟩
    · rcases max_choice x t.key with hx | ht
      · exact .inl (h.trans hx)
      · exact .inr ⟨t, List.mem_cons_self, (h.trans ht).symm⟩
    · exact .inr ⟨u, List.mem_cons_of_mem _ hu, h⟩

/-- The key that is reached and passed by none is the largest. -/
theorem maxKey_eq {X : Int} {t : CutTerm} {ts : List CutTerm} (hex : ∃ u ∈ t :: ts, u.key = X) (hle : ∀ u ∈ t :: ts, u.key ≤ X) :
    maxKey t.key ts = X := by
  obtain ⟨hfirst, hall, hmem⟩ := maxKey_spec t.key ts
  obtain ⟨u, hu, rfl⟩ := hex
  refine le_antisymm ?_ ?_
  · rcases hmem with h | ⟨v, hv, h⟩
    · rw [h]; exact hle t List.mem_cons_self
    · rw [← h]; exact hle v (List.mem_cons_of_mem _ hv)
  · rcases List.mem_cons.1 hu with rfl | hu
    · exact hfirst
    · exact hall u hu

/-- A shift by a signed number of places is the floor of a product. -/
theorem floor_shift (n : Nat) (k : Int) : ((n : Rat) * 2 ^ k).floor = (n * pow2 k / pow2 (-k) : Nat) := by
  have hprod : (n : Rat) * 2 ^ k = ((n * pow2 k : Nat) : Int) / ((pow2 (-k) : Nat) : Rat) := by
    rcases le_total 0 k with hk | hk
    · have hone : pow2 (-k) = 1 := by rw [pow2, Int.toNat_of_nonpos (by omega)]; rfl
      rw [hone]
      push_cast
      rw [pow2_cast hk, div_one]
    · have hone : pow2 k = 1 := by rw [pow2, Int.toNat_of_nonpos hk]; rfl
      rw [hone]
      push_cast
      rw [pow2_cast (by omega), mul_one, zpow_neg, div_inv_eq_mul]
  rw [hprod]
  exact (Rat.floor_intCast_div_natCast _ _).trans (Int.natCast_div _ _).symm

/-- What makes the term of a product that product's: no term where it is zero, and else its value and exponent. -/
structure TermOf (o : Option CutTerm) (q : Rat × Int) : Prop where
  zero : o = none → q.1 = 0
  some : ∀ t, o = some t → t.mag ≠ 0 ∧ q.1 = signRat t.neg * (t.mag * 2 ^ t.exp) ∧ q.2 = t.key

theorem TermOf.ne_zero {t : CutTerm} {q : Rat × Int} (h : TermOf (.some t) q) : q.1 ≠ 0 := by
  obtain ⟨hmag, hval, -⟩ := h.some t rfl
  rw [hval, ← rat_fin, Ne, rat_eq_zero]
  exact hmag

/-- The units of a term are the product's magnitude, cut, with its sign. -/
theorem TermOf.units {t : CutTerm} {q : Rat × Int} (h : TermOf (.some t) q) (bits X : Int) :
    t.units bits X = if q.1 < 0 then -(|q.1| * 2 ^ (bits - X)).floor else (|q.1| * 2 ^ (bits - X)).floor := by
  obtain ⟨hmag, hval, -⟩ := h.some t rfl
  have hpos : (0 : Rat) < t.mag * 2 ^ t.exp := mul_pos (Nat.cast_pos.2 (Nat.pos_of_ne_zero hmag)) (two_zpow_pos _)
  have habs : |q.1| = t.mag * 2 ^ t.exp := by rw [hval, abs_mul, abs_signRat, one_mul, abs_of_pos hpos]
  have hcut : |q.1| * 2 ^ (bits - X) = t.mag * 2 ^ (t.exp - X + bits) := by
    rw [habs, mul_assoc, ← zpow_add₀ (two_ne_zero)]
    congr 2; ring
  have hsign : q.1 < 0 ↔ t.neg = true := by
    rw [hval, signRat]
    cases t.neg with
    | false => simp [hpos.le]
    | true => simp [hpos]
  rw [hcut, floor_shift, CutTerm.units, signInt]
  simp only [hsign]

section Sums

variable {α : Type} {l : List α} {q : α → Rat × Int} {term : α → Option CutTerm} (h : ∀ p ∈ l, TermOf (term p) (q p))
include h

theorem sum_units (bits X : Int) : ((l.filterMap term).map (CutTerm.units bits X)).sum = ((l.map q).map fun q =>
    if q.1 < 0 then -(|q.1| * 2 ^ (bits - X)).floor else (|q.1| * 2 ^ (bits - X)).floor).sum := by
  induction l with
  | nil => rfl
  | cons p l ih =>
    obtain ⟨hp, hl⟩ := List.forall_mem_cons.1 h
    cases ht : term p with
    | none =>
      rw [List.filterMap_cons_none ht, ih hl]
      rw [List.map_cons, List.map_cons, List.sum_cons, hp.zero ht, if_neg (lt_irrefl _), abs_zero, zero_mul]
      exact (zero_add _).symm
    | some t =>
      rw [ht] at hp
      rw [List.filterMap_cons_some ht, List.map_cons, List.sum_cons, ih hl, hp.units]
      simp

/-- The sum of the terms is the chunk's (R213). -/
theorem chunkSum_sumTerms (bits k : Int) : ChunkSum (l.map q) bits k (promote (Val.scale (sumTerms bits (l.filterMap term)) k)) := by
  refine ⟨fun hzero => ?_, fun X hex hle => ?_⟩
  · have hnil : l.filterMap term = [] := by
      refine List.filterMap_eq_nil_iff.2 fun p hp => ?_
      cases ht : term p with
      | none => rfl
      | some t => exact absurd (hzero _ (List.mem_map_of_mem hp)) (ht ▸ h p hp).ne_zero
    rw [hnil]
    simp [sumTerms, Val.scale, promote, packFp, signCode]
  · have hkey : ∀ t ∈ l.filterMap term, ∃ p ∈ l, (q p).1 ≠ 0 ∧ (q p).2 = t.key := by
      intro t ht
      obtain ⟨p, hp, ht⟩ := List.mem_filterMap.1 ht
      have hterm := ht ▸ h p hp
      exact ⟨p, hp, hterm.ne_zero, (hterm.some t rfl).2.2⟩
    have hreach : ∃ t ∈ l.filterMap term, t.key = X := by
      obtain ⟨e, he, hne, rfl⟩ := hex
      obtain ⟨p, hp, rfl⟩ := List.mem_map.1 he
      cases ht : term p with
      | none => exact absurd ((h p hp).zero ht) hne
      | some t => exact ⟨t, List.mem_filterMap.2 ⟨p, hp, ht⟩, (((h p hp).some t ht).2.2).symm⟩
    have hbound : ∀ t ∈ l.filterMap term, t.key ≤ X := by
      intro t ht
      obtain ⟨p, hp, hne, hk⟩ := hkey t ht
      exact hk ▸ hle _ (List.mem_map_of_mem hp) hne
    have hsum := sum_units h bits X
    obtain ⟨t, ts, hts⟩ : ∃ t ts, l.filterMap term = t :: ts := by
      obtain ⟨t, ht, -⟩ := hreach
      exact List.exists_cons_of_ne_nil (List.ne_nil_of_mem ht)
    rw [hts] at hreach hbound hsum ⊢
    refine ⟨((t :: ts).map (CutTerm.units bits X)).sum.natAbs, X - bits + k, ?_, ?_⟩
    · rw [← hsum]; exact rat_units _ _
    · rw [← hsum, sumTerms, maxKey_eq hreach hbound]; rfl

end Sums

/-! ### Infinite products (R215) -/

/-- What infinite products of some signs add to. -/
def signsSum (s : Bool) (r : List Bool) : Val := if r.all (· == s) then .inf s else .nan false

section Infinities

variable {α : Type} {l : List α} {sign : α → Option Bool} {inf : Bool → α → Prop} (h : ∀ p ∈ l, ∀ b, sign p = some b ↔ inf b p)
include h

theorem mem_signs (b : Bool) : b ∈ l.filterMap sign ↔ ∃ p ∈ l, inf b p := by
  rw [List.mem_filterMap]
  exact exists_congr fun p => and_congr_right fun hp => h p hp b

theorem signsSum_both {s : Bool} {r : List Bool} (hs : l.filterMap sign = s :: r) (ht : ∃ p ∈ l, inf true p) (hf : ∃ p ∈ l, inf false p) :
    signsSum s r = .nan false := by
  rw [← mem_signs h, hs] at ht hf
  refine if_neg fun hall => ?_
  have hsame : ∀ b ∈ s :: r, b = s := List.forall_mem_cons.2 ⟨rfl, fun b hb => by simpa using List.all_eq_true.1 hall b hb⟩
  exact Bool.false_ne_true ((hsame _ hf).trans (hsame _ ht).symm)

theorem signsSum_one {s b : Bool} {r : List Bool} (hs : l.filterMap sign = s :: r) (hn : ∀ p ∈ l, ¬ inf (!b) p) :
    signsSum s r = .inf b := by
  have hsame : ∀ c ∈ s :: r, c = b := by
    intro c hc
    rw [← hs, mem_signs h] at hc
    obtain ⟨p, hp, hinf⟩ := hc
    by_contra hne
    have hc : c = !b := by cases c <;> cases b <;> simp at hne ⊢
    exact hn p hp (hc ▸ hinf)
  obtain rfl := hsame s List.mem_cons_self
  refine if_pos (List.all_eq_true.2 fun c hc => ?_)
  rw [hsame c (List.mem_cons_of_mem _ hc), beq_self_eq_true]

/-- A chunk with an infinite product, promoted. -/
theorem promote_infinite {v : Val} (hv : ∀ s r, l.filterMap sign = s :: r → v = signsSum s r) (k : Int) :
    let r := promote (Val.scale v k)
    ((∃ p ∈ l, inf true p) → (∃ p ∈ l, inf false p) → r = 0x7FC00000)
    ∧ ((∃ p ∈ l, inf true p) → (∀ p ∈ l, ¬ inf false p) → r = 0xFF800000)
    ∧ ((∃ p ∈ l, inf false p) → (∀ p ∈ l, ¬ inf true p) → r = 0x7F800000) := by
  have hcons {b : Bool} (hb : ∃ p ∈ l, inf b p) : ∃ s r, l.filterMap sign = s :: r :=
    List.exists_cons_of_ne_nil (List.ne_nil_of_mem ((mem_signs h b).2 hb))
  refine ⟨fun ht hf => ?_, fun ht hf => ?_, fun hf ht => ?_⟩
  · obtain ⟨s, r, hs⟩ := hcons ht
    rw [hv s r hs, signsSum_both h hs ht hf]; rfl
  · obtain ⟨s, r, hs⟩ := hcons ht
    rw [hv s r hs, signsSum_one h hs (b := true) hf]; rfl
  · obtain ⟨s, r, hs⟩ := hcons hf
    rw [hv s r hs, signsSum_one h hs (b := false) ht]; rfl

end Infinities

/-! ### Significands (R200–R202) -/

/-- The exponent of a finite value's significand, its fraction bits counted. -/
theorem value_sigExp {fm : Fmt} (hfm : Fmt.isFp fm = true ∨ fm = .e5f2) {c m : Nat} {s : Bool} {e : Int} (h : value fm c = .fin s m e)
    (hm : m ≠ 0) : e + fracBits fm = sigExp fm c := by
  rcases hfm with hfm | rfl
  · have hne : fm ≠ .e5f2 := by rintro rfl; cases hfm
    have hexp : c % 2 ^ fm.bits / 2 ^ fbits fm % 2 ^ fm.shape.1 = c / 2 ^ fbits fm % 2 ^ fm.shape.1 := by
      obtain ⟨hbits, hpos⟩ := isFp_bits hfm
      have hsplit : 2 ^ fm.bits = 2 ^ fbits fm * (2 ^ fm.shape.1 * 2) := by
        rw [← Nat.pow_succ, ← Nat.pow_add, show fm.bits = fbits fm + (fm.shape.1 + 1) by omega]
      rw [hsplit, Nat.mod_mul_right_div_self, Nat.mod_mod_of_dvd _ (Dvd.intro _ rfl)]
    have hcase (ex fr : Nat) (s' : Bool)
        (h : (if ex = 0 then Val.fin s' fr (1 - fm.shape.2.2 - fbits fm) else .fin s' (2 ^ fbits fm + fr) (ex - fm.shape.2.2 - fbits fm))
          = .fin s m e) : e + fbits fm = (max 1 ex : Nat) - fm.shape.2.2 := by
      split at h
      next h0 => cases h; subst h0; simp
      next h0 => cases h; rw [max_eq_right (by omega)]; ring
    rw [value_fp hfm, fpValue] at h
    rw [sigExp, if_neg hne, fracBits, if_neg hne]
    change e + fbits fm = (max 1 (c / 2 ^ fbits fm % 2 ^ fm.shape.1) : Nat) - fm.shape.2.2
    rw [← hexp]
    dsimp only at h
    split at h
    next =>
      split at h
      · cases h
      · exact hcase _ _ _ h
    next =>
      split at h
      · split at h <;> cases h
      · exact hcase _ _ _ h
  · change (if 128 ≤ c % 256 then Val.fin false 0 0 else .fin false (4 + c % 256 % 4) (-(c % 256 / 4 : Nat) - 2)) = .fin s m e at h
    rw [sigExp, if_pos rfl, fracBits, if_pos rfl]
    split at h
    · cases h; exact absurd rfl hm
    next hlt => cases h; omega

end Sys2Proof.Machine
end

section
/-! A chunk of a GEMM or of an attention tile (R212–R215), and a block of an attention row (R228). -/

namespace Sys2Proof.Machine

open Sys2Proof

/-! ### The three results of a chunk (R215) -/

/-- A chunk's value: NaN first, then the infinite products, then the sum. -/
def chunkOf (nan : Bool) (signs : List Bool) (terms : Val) : Val :=
  if nan then .nan false
  else match signs with
    | s :: r => signsSum s r
    | [] => terms

theorem chunkOf_nan (signs : List Bool) (terms : Val) : chunkOf true signs terms = .nan false := rfl

theorem chunkOf_signs {signs : List Bool} (terms : Val) {s : Bool} {r : List Bool} (h : signs = s :: r) :
    chunkOf false signs terms = signsSum s r := by subst h; rfl

theorem chunkOf_terms {signs : List Bool} (terms : Val) (h : signs = []) : chunkOf false signs terms = terms := by subst h; rfl

/-- A sum in the array's order of terms that are given as other data. -/
theorem sumTerms_map {τ : Type} (bits : Int) (norm : τ → CutTerm) (t : τ) (ts : List τ) :
    let X := ts.foldl (fun x t => max x (norm t).key) (norm t).key
    let S := (t :: ts).foldl (fun acc t => acc + (norm t).units bits X) 0
    sumTerms bits ((t :: ts).map norm) = .fin (decide (S < 0)) S.natAbs (X - bits) := by
  intro X S
  have hX : maxKey (norm t).key (ts.map norm) = X := List.foldl_map
  have hS : (((t :: ts).map norm).map (CutTerm.units bits X)).sum = S := by
    rw [List.sum_eq_foldl, List.foldl_map, List.foldl_map]
  rw [List.map_cons] at hS ⊢
  rw [sumTerms, hX, hS]

/-! ### Products of two codes (R213) -/

/-- A finite nonzero product as a term. -/
def Prod.cutOf (t : Bool × Nat × Int × Nat) : CutTerm where
  neg := t.1
  mag := t.2.1
  key := t.2.2.1
  exp := t.2.2.1 - t.2.2.2

def Prod.cut (p : Prod) : Option CutTerm := p.term.map Prod.cutOf

theorem chunk48_eq (ps : List Prod) :
    chunk48 ps = chunkOf (ps.any Prod.nan) (ps.filterMap Prod.infSign) (sumTerms 40 (ps.filterMap Prod.cut)) := by
  have hcut : ps.filterMap Prod.cut = (ps.filterMap Prod.term).map Prod.cutOf := List.map_filterMap.symm
  rw [chunk48, hcut]
  unfold chunkOf
  split
  · rfl
  cases ps.filterMap Prod.infSign with
  | cons s r => rfl
  | nil =>
    cases ps.filterMap Prod.term with
    | nil => rfl
    | cons t ts =>
      refine Eq.trans ?_ (sumTerms_map 40 Prod.cutOf t ts).symm
      have hplace (t : Bool × Nat × Int × Nat) (X : Int) : t.2.2.1 - X + 40 - t.2.2.2 = t.2.2.1 - t.2.2.2 - X + 40 := by ring
      simp only [hplace]
      rfl

/-- The product of an activation's and a weight's code. -/
def codeProd (f g : Fmt) (p : Nat × Nat) : Prod where
  a := value f p.1
  fa := fracBits f
  b := value g p.2
  fb := fracBits g

theorem exists_fin {v : Val} (h : Val.isFin v = true) : ∃ s m e, v = .fin s m e := by
  cases v with
  | fin s m e => exact ⟨s, m, e, rfl⟩
  | inf s => cases h
  | nan s => cases h

theorem isFin_zero (v : Val) : (Val.isFin v = true ∧ Val.rat v = 0) ↔ ∃ s e, v = .fin s 0 e := by
  cases v with
  | fin s m e => simp [Val.isFin, rat_eq_zero]
  | inf s => simp [Val.isFin]
  | nan s => simp [Val.isFin]

theorem isInf_iff (v : Val) : (v = .inf true ∨ v = .inf false) ↔ ∃ s, v = .inf s := by
  constructor
  · rintro (h | h) <;> exact ⟨_, h⟩
  · rintro ⟨s, rfl⟩; cases s <;> simp

/-- The products that are NaN: of a NaN, and of an infinity and zero. -/
theorem prod_nan_iff (p : Prod) : p.nan = true ↔ p.a.isNan = true ∨ p.b.isNan = true
    ∨ ((p.a = .inf true ∨ p.a = .inf false) ∧ Val.isFin p.b = true ∧ Val.rat p.b = 0)
    ∨ ((p.b = .inf true ∨ p.b = .inf false) ∧ Val.isFin p.a = true ∧ Val.rat p.a = 0) := by
  simp only [isFin_zero, isInf_iff, Prod.nan]
  cases p.a <;> cases p.b <;> simp [Val.isNan]

theorem prod_infSign_iff (p : Prod) (s : Bool) : p.infSign = some s ↔
    ((p.a = .inf true ∨ p.a = .inf false) ∨ (p.b = .inf true ∨ p.b = .inf false)) ∧ (p.a.sign != p.b.sign) = s := by
  simp only [isInf_iff, Prod.infSign]
  cases p.a <;> cases p.b <;> simp [Val.sign]

theorem codeProd_term {f g : Fmt} (hf : Fmt.isFp f = true ∨ f = .e5f2) (hg : Fmt.isFp g = true ∨ g = .e5f2) {p : Nat × Nat}
    (ha : Val.isFin (value f p.1) = true) (hb : Val.isFin (value g p.2) = true) : TermOf (codeProd f g p).cut
      (Val.rat (value f p.1) * Val.rat (value g p.2), sigExp f p.1 + sigExp g p.2) := by
  obtain ⟨s, m, e, hva⟩ := exists_fin ha
  obtain ⟨t, n, e', hvb⟩ := exists_fin hb
  rw [hva, hvb]
  have hterm : (codeProd f g p).term = if m * n = 0 then none
      else some (s != t, m * n, e + fracBits f + (e' + fracBits g), fracBits f + fracBits g) := by
    rw [Prod.term, codeProd, hva, hvb]
  rw [Prod.cut, hterm]
  by_cases hmn : m * n = 0
  · rw [if_pos hmn]
    refine ⟨fun _ => ?_, fun u hu => by cases hu⟩
    rcases Nat.mul_eq_zero.1 hmn with rfl | rfl
    · simp [rat_zero]
    · simp [rat_zero]
  · rw [if_neg hmn]
    refine ⟨fun hu => (by cases hu), fun u hu => ?_⟩
    cases hu
    refine ⟨hmn, ?_, ?_⟩
    · simp only [Prod.cutOf, rat_fin, signRat_mul]
      have hexp : e + fracBits f + (e' + fracBits g) - ((fracBits f + fracBits g : Nat) : Int) = e + e' := by push_cast; ring
      rw [hexp, zpow_add₀ two_ne_zero]
      push_cast
      ring
    · have hm := value_sigExp hf hva (left_ne_zero_of_mul hmn)
      have hn := value_sigExp hg hvb (right_ne_zero_of_mul hmn)
      simp only [Prod.cutOf]
      rw [hm, hn]

section CodeChunk

variable {f g : Fmt} {ps : List (Nat × Nat)} (k : Int)

theorem chunk48_nan (h : ∃ p ∈ ps, (codeProd f g p).nan = true) : promote (Val.scale (chunk48 (ps.map (codeProd f g))) k) = 0x7FC00000 := by
  obtain ⟨p, hp, hnan⟩ := h
  have hany : (ps.map (codeProd f g)).any Prod.nan = true := List.any_eq_true.2 ⟨_, List.mem_map_of_mem hp, hnan⟩
  rw [chunk48_eq, hany, chunkOf_nan]
  rfl

variable (h : ∀ p ∈ ps, ¬ (codeProd f g p).nan = true)
include h

theorem chunk48_not_nan : (ps.map (codeProd f g)).any Prod.nan = false := by
  rw [List.any_map, List.any_eq_false]
  exact h

theorem chunk48_infinite (s : Bool) (r : List Bool) (hs : ps.filterMap (fun p => (codeProd f g p).infSign) = s :: r) :
    chunk48 (ps.map (codeProd f g)) = signsSum s r := by
  rw [chunk48_eq, chunk48_not_nan h]
  exact chunkOf_signs _ (List.filterMap_map.trans hs)

theorem chunk48_finite (hf : Fmt.isFp f = true ∨ f = .e5f2) (hg : Fmt.isFp g = true ∨ g = .e5f2)
    (hinf : ∀ p ∈ ps, (codeProd f g p).infSign = none) :
    ChunkSum (ps.map fun p => (Val.rat (value f p.1) * Val.rat (value g p.2), sigExp f p.1 + sigExp g p.2)) 40 k
      (promote (Val.scale (chunk48 (ps.map (codeProd f g))) k)) := by
  have hterm (p : Nat × Nat) (hp : p ∈ ps) := by
    have hnan := h p hp
    have hsign := hinf p hp
    refine codeProd_term (p := p) hf hg ?_ ?_
    · rw [prod_nan_iff] at hnan
      cases hva : value f p.1 with
      | fin s m e => rfl
      | inf s => rw [Prod.infSign, codeProd, hva] at hsign; cases hsign
      | nan s => exact absurd (.inl (by rw [codeProd, hva]; rfl)) hnan
    · rw [prod_nan_iff] at hnan
      cases hvb : value g p.2 with
      | fin s m e => rfl
      | inf s => rw [Prod.infSign, codeProd, hvb] at hsign; cases hva : value f p.1 <;> rw [hva] at hsign <;> cases hsign
      | nan s => exact absurd (.inr (.inl (by rw [codeProd, hvb]; rfl))) hnan
  have hsum := chunkSum_sumTerms (l := ps) (term := fun p => (codeProd f g p).cut) hterm 40 k
  rw [chunk48_eq, chunk48_not_nan h, chunkOf_terms _ (List.filterMap_map.trans (List.filterMap_eq_nil_iff.2 hinf)), List.filterMap_map]
  exact hsum

end CodeChunk

/-! ### CB2 chunks (R214) -/

/-- The sign of an infinite product with a CB2 weight. -/
def cb2Sign (p : (Bool × Nat) × Val) : Option Bool :=
  match p.2 with
  | .inf s => some (s != p.1.1)
  | _ => none

/-- A finite nonzero product with a CB2 weight: sign, integer magnitude and exponent; twice the weight is an integer. -/
def cb2Product (p : (Bool × Nat) × Val) : Option (Bool × Nat × Int) :=
  match p.2 with
  | .fin s m e => if m = 0 then none else some (s != p.1.1, p.1.2 * m, e - 1)
  | _ => none

/-- A term of a CB2 chunk, as a cut term. -/
def cb2Term (t : Bool × Nat × Int) : CutTerm where
  neg := t.1
  mag := t.2.1
  key := t.2.2
  exp := t.2.2

def cb2Cut (p : (Bool × Nat) × Val) : Option CutTerm := (cb2Product p).map cb2Term

theorem chunk20_eq (ws : List (Bool × Nat)) (as : List Val) : chunk20 ws as
    = chunkOf (as.any Val.isNan) ((ws.zip as).filterMap cb2Sign) (sumTerms 7 ((ws.zip as).filterMap cb2Cut)) := by
  have hcut : (ws.zip as).filterMap cb2Cut = ((ws.zip as).filterMap cb2Product).map cb2Term := List.map_filterMap.symm
  rw [chunk20, hcut]
  unfold chunkOf
  split
  · rfl
  cases hsigns : (ws.zip as).filterMap cb2Sign with
  | cons s r =>
    dsimp only
    split
    next s' r' hs => cases hsigns.symm.trans hs; rfl
    next hs => cases hsigns.symm.trans hs
  | nil =>
    dsimp only
    split
    next hs => cases hsigns.symm.trans hs
    next =>
      split
      next ht =>
        have hnil : (ws.zip as).filterMap cb2Product = [] := ht
        rw [hnil]; rfl
      next t ts ht =>
        have hcons : (ws.zip as).filterMap cb2Product = t :: ts := ht
        rw [hcons]
        exact (sumTerms_map 7 cb2Term t ts).symm

theorem cb2Weight_pos (idx : BitVec 16) {j : Nat} (hj : j < 8) : 0 < (cb2Weight idx j).2 := by
  have hentry (n j : Nat) (hj : j < 4) : 0 < (cb2Entry n).getD j 0 := by
    have hj : j ∈ List.range 4 := List.mem_range.2 hj
    revert j
    unfold cb2Entry
    split <;> decide
  rw [cb2Weight]
  split
  · exact hentry _ _ (by omega)
  · exact hentry _ _ (by omega)

/-- The weights of some CB2 indices. -/
def cb2Weights (idx : List (BitVec 16)) : List (Bool × Nat) := idx.flatMap fun i => (List.range 8).map fun j => cb2Weight i j

theorem cb2Weights_pos {idx : List (BitVec 16)} {w : Bool × Nat} (h : w ∈ cb2Weights idx) : 0 < w.2 := by
  obtain ⟨i, -, hw⟩ := List.mem_flatMap.1 h
  obtain ⟨j, hj, rfl⟩ := List.mem_map.1 hw
  exact cb2Weight_pos i (List.mem_range.1 hj)

theorem cb2_term {f : Fmt} (hf : Fmt.isFp f = true) {p : (Bool × Nat) × Nat} (hw : 0 < p.1.2) (ha : Val.isFin (value f p.2) = true) :
    TermOf (cb2Cut (p.1, value f p.2)) ((if p.1.1 then -1 else 1) * ((p.1.2 : Rat) / 2) * Val.rat (value f p.2),
      sigExp f p.2 - f.shape.2.1 - 1) := by
  obtain ⟨s, m, e, hva⟩ := exists_fin ha
  have hterm : cb2Cut (p.1, .fin s m e) = if m = 0 then none else some ⟨s != p.1.1, p.1.2 * m, e - 1, e - 1⟩ := by
    change Option.map cb2Term (if m = 0 then none else some (s != p.1.1, p.1.2 * m, e - 1)) = _
    split <;> rfl
  rw [hva, hterm]
  by_cases hm : m = 0
  · rw [if_pos hm]
    refine ⟨fun _ => ?_, fun u hu => by cases hu⟩
    rw [hm, rat_zero, mul_zero]
  · rw [if_neg hm]
    refine ⟨fun hu => (by cases hu), fun u hu => ?_⟩
    cases hu
    refine ⟨Nat.mul_ne_zero hw.ne' hm, ?_, ?_⟩
    · rw [rat_fin, signRat_mul, zpow_sub_one₀ two_ne_zero]
      change signRat p.1.1 * _ * _ = _
      push_cast
      ring
    · have hexp := value_sigExp (.inl hf) hva hm
      have hne : f ≠ .e5f2 := by rintro rfl; cases hf
      rw [fracBits, if_neg hne] at hexp
      rw [← hexp]
      ring

section Cb2Chunk

variable {f : Fmt} {as : List Nat} {idx : List (BitVec 16)} (k : Int)

theorem chunk20_nan (h : ∃ c ∈ as, (value f c).isNan = true) :
    promote (Val.scale (chunk20 (cb2Weights idx) (as.map (value f))) k) = 0x7FC00000 := by
  have hany : (as.map (value f)).any Val.isNan = true := by rw [List.any_map, List.any_eq_true]; exact h
  rw [chunk20_eq, hany, chunkOf_nan]
  rfl

theorem zip_values (ws : List (Bool × Nat)) : ws.zip (as.map (value f)) = (ws.zip as).map fun p => (p.1, value f p.2) :=
  List.zip_map_right ..

variable (h : ∀ c ∈ as, (value f c).isNan = false)
include h

theorem chunk20_infinite (s : Bool) (r : List Bool) (hs : ((cb2Weights idx).zip as).filterMap (fun p => cb2Sign (p.1, value f p.2)) = s :: r) :
    chunk20 (cb2Weights idx) (as.map (value f)) = signsSum s r := by
  have hany : (as.map (value f)).any Val.isNan = false := by
    rw [List.any_map, List.any_eq_false]; exact fun c hc => by simpa using h c hc
  rw [chunk20_eq, hany, zip_values]
  exact chunkOf_signs _ (List.filterMap_map.trans hs)

omit h in
theorem chunk20_finite (hf : Fmt.isFp f = true) (h : ∀ c ∈ as, Val.isFin (value f c) = true) :
    ChunkSum (((cb2Weights idx).zip as).map fun p =>
      ((if p.1.1 then -1 else 1) * ((p.1.2 : Rat) / 2) * Val.rat (value f p.2), sigExp f p.2 - f.shape.2.1 - 1)) 7 k
      (promote (Val.scale (chunk20 (cb2Weights idx) (as.map (value f))) k)) := by
  have hany : (as.map (value f)).any Val.isNan = false := by
    rw [List.any_map, List.any_eq_false]
    intro c hc
    obtain ⟨s, m, e, hv⟩ := exists_fin (h c hc)
    rw [Function.comp_apply, hv]
    exact Bool.false_ne_true
  have hsigns : ((cb2Weights idx).zip as).filterMap (fun p => cb2Sign (p.1, value f p.2)) = [] := by
    refine List.filterMap_eq_nil_iff.2 fun p hp => ?_
    have hfin := h p.2 (List.of_mem_zip hp).2
    obtain ⟨s, m, e, hv⟩ := exists_fin hfin
    rw [hv]; rfl
  have hterm (p : (Bool × Nat) × Nat) (hp : p ∈ (cb2Weights idx).zip as) :=
    cb2_term (p := p) hf (cb2Weights_pos (List.of_mem_zip hp).1) (h p.2 (List.of_mem_zip hp).2)
  have hsum := chunkSum_sumTerms (term := fun p : (Bool × Nat) × Nat => cb2Cut (p.1, value f p.2)) hterm 7 k
  rw [chunk20_eq, hany, zip_values, chunkOf_terms _ (List.filterMap_map.trans hsigns), List.filterMap_map]
  exact hsum

end Cb2Chunk

/-! ### A block of an attention row (R228) -/

theorem value_e5f2_fin (c : Nat) : Val.isFin (value .e5f2 c) = true := by
  change Val.isFin (if 128 ≤ c % 256 then .fin false 0 0 else .fin false (4 + c % 256 % 4) (-(c % 256 / 4 : Nat) - 2)) = true
  split <;> rfl

/-- Finite values are added exactly, in order. -/
theorem foldl_add_exact (fm : Fmt) (ps : List Nat) (h : ∀ p ∈ ps, Val.isFin (value fm p) = true) (v : Val) (hv : Val.isFin v = true) :
    let sum := ps.foldl (fun (v : Val) p => v.add (value fm p) .rne) v
    Val.isFin sum = true ∧ Val.rat sum = Val.rat v + (ps.map fun p => Val.rat (value fm p)).sum := by
  induction ps generalizing v with
  | nil => exact ⟨hv, by simp⟩
  | cons p ps ih =>
    obtain ⟨hp, hps⟩ := List.forall_mem_cons.1 h
    have hstep : Val.isFin (v.add (value fm p) .rne) = true
        ∧ Val.rat (v.add (value fm p) .rne) = Val.rat v + Val.rat (value fm p) := by
      obtain ⟨s, m, e, rfl⟩ := exists_fin hv
      obtain ⟨t, n, f, hpv⟩ := exists_fin hp
      rw [hpv]
      exact add_exact ..
    obtain ⟨hfin, hrat⟩ := ih hps _ hstep.1
    refine ⟨hfin, hrat.trans ?_⟩
    rw [hstep.2, List.map_cons, List.sum_cons, add_assoc]

theorem attnBlock_idle {qf kf vf : Fmt} {scale : W32} {q : List Nat} {st : AttnSt} {vis : List KvRow} (h : st.stop = true ∨ vis = []) :
    attnBlock qf kf vf scale q st vis = st := by
  rw [attnBlock, if_pos]
  rcases h with h | rfl
  · rw [h]; rfl
  · exact Bool.or_true _

section Block

variable {qf kf vf : Fmt} {scale : W32} {q : List Nat} {st : AttnSt} {vis : List KvRow} (hstop : st.stop = false) (hvis : vis ≠ [])
include hstop hvis

theorem attnBlock_stops (h : ∃ x ∈ vis.map fun r => f32Mul scale (attnDot qf kf q r.k), f32Finite x = false) :
    attnBlock qf kf vf scale q st vis = { m := f32Nan, l := f32Nan, o := st.o.map fun _ => f32Nan, stop := true } := by
  have hgo : ¬ (st.stop || vis.isEmpty) = true := by simp [hstop, hvis]
  rw [attnBlock, if_neg hgo]
  refine if_pos ?_
  rw [Bool.not_eq_true', List.all_eq_false]
  obtain ⟨x, hx, hinf⟩ := h
  exact ⟨x, hx, by rw [hinf]; exact Bool.false_ne_true⟩

theorem attnBlock_goes (h : ∀ x ∈ vis.map fun r => f32Mul scale (attnDot qf kf q r.k), f32Finite x = true) :
    let xs := vis.map fun r => f32Mul scale (attnDot qf kf q r.k)
    let top := xs.foldl f32Max st.m
    let corr : W32 := if st.m = f32NegInf then 0 else BitVec.ofNat 32 (packFp .fp32 (expVal (f32Diff st.m top)) .rne false).1
    let ps := xs.map fun x => (packE5f2 (expVal (f32Diff x top))).1
    attnBlock qf kf vf scale q st vis = {
      m := top
      l := promote ((value .fp32 (f32Mul st.l corr).toNat).add (ps.foldl (fun (v : Val) p => v.add (value .e5f2 p) .rne) (.fin false 0 0)) .rne)
      o := st.o.zipIdx.map fun x => f32Add (f32Mul x.1 corr) (promote (chunk48 ((ps.zip vis).map fun p =>
        { a := value .e5f2 p.1, fa := fracBits .e5f2, b := value vf (p.2.v.getD x.2 0), fb := fracBits vf })))
      stop := false } := by
  intro xs top corr ps
  have hgo : ¬ (st.stop || vis.isEmpty) = true := by simp [hstop, hvis]
  rw [attnBlock, if_neg hgo]
  refine if_neg ?_
  rw [Bool.not_eq_true', Bool.not_eq_false]
  exact List.all_eq_true.2 h

end Block

/-- A block does not change the number of outputs. -/
theorem attnBlock_length (qf kf vf : Fmt) (scale : W32) (q : List Nat) (st : AttnSt) (vis : List KvRow) :
    (attnBlock qf kf vf scale q st vis).o.length = st.o.length := by
  by_cases hidle : st.stop = true ∨ vis = []
  · rw [attnBlock_idle hidle]
  · obtain ⟨hstop, hvis⟩ := not_or.1 hidle
    rw [Bool.not_eq_true] at hstop
    by_cases hfin : ∀ x ∈ vis.map fun r => f32Mul scale (attnDot qf kf q r.k), f32Finite x = true
    · rw [attnBlock_goes hstop hvis hfin]; simp
    · push Not at hfin
      simp only [ne_eq, Bool.not_eq_true] at hfin
      rw [attnBlock_stops hstop hvis hfin]; simp

end Sys2Proof.Machine
end

section
/-! Reads of the matrix engine row by row (R235), and the end of a mask load (R230). -/

namespace Sys2Proof.Machine

open Sys2Proof

/-! ### Rows (R235) -/

/-- What has been read is the beginning of the rows. -/
theorem RowsRead.old_eq {n : Nat} {old : List (List (BitVec 8))} {rd : Nat → KM (List (BitVec 8))} {row : Nat → List (BitVec 8)}
    (h : RowsRead n old rd row) : old = (List.range old.length).map row := by
  obtain ⟨hlen, hrows⟩ := h
  refine List.ext_getElem? fun i => ?_
  rw [List.getElem?_map]
  by_cases hi : i < old.length
  · rw [List.getElem?_range hi]
    rcases hrows i (by omega) with h | ⟨h, -⟩
    · exact h
    · exact absurd (List.getElem?_eq_none_iff.1 h) (by omega)
  · rw [List.getElem?_eq_none (by omega), List.getElem?_eq_none (by simpa using hi)]
    rfl

/-- Rows that can all be read are read. -/
theorem loadRows_all {n : Nat} {old : List (List (BitVec 8))} {rd : Nat → KM (List (BitVec 8))} {row : Nat → List (BitVec 8)}
    (h : RowsRead n old rd row) : loadRows rd (n - old.length) old = ((List.range n).map row, none) := by
  have hold := h.old_eq
  have hlen := h.1
  generalize hk : n - old.length = k
  induction k generalizing old with
  | zero =>
    have hn : old.length = n := by omega
    rw [hn] at hold
    rw [loadRows, hold]
  | succ k ih =>
    have hlt : old.length < n := by omega
    have hread : rd old.length = .ok (row old.length) := by
      rcases h.2 old.length hlt with hin | ⟨-, hok⟩
      · rw [List.getElem?_eq_none le_rfl] at hin; cases hin
      · exact hok
    have hnew : (old ++ [row old.length]).length = old.length + 1 := List.length_append
    have hsplit : old ++ [row old.length] = (List.range (old ++ [row old.length]).length).map row := by
      rw [hnew, List.range_succ, List.map_append, ← hold]; rfl
    have hnext : RowsRead n (old ++ [row old.length]) rd row := by
      refine ⟨by omega, fun i hi => ?_⟩
      by_cases hlast : i < old.length + 1
      · refine .inl ?_
        rw [hsplit, List.getElem?_map, List.getElem?_range (by omega)]
        rfl
      · refine .inr ⟨List.getElem?_eq_none (by omega), ?_⟩
        rcases h.2 i hi with hin | ⟨-, hok⟩
        · rw [List.getElem?_eq_none (by omega)] at hin; cases hin
        · exact hok
    rw [loadRows, hread]
    exact ih hnext hsplit (by omega) (by omega)

/-! ### The checks of a mask block (R230) -/

/-- The rules of R230 for a node. -/
def nodeGood (b : MaskBlk) (i : Nat) : Prop :=
  (b.parent.getD i 0 = 0xFF ∧ b.depth.getD i 0 = 1 ∧ b.row.getD i 0 = 1#64 <<< i)
  ∨ (b.parent.getD i 0 < i ∧ b.depth.getD i 0 = b.depth.getD (b.parent.getD i 0) 0 + 1
    ∧ b.row.getD i 0 = (b.row.getD (b.parent.getD i 0) 0 ||| 1#64 <<< i))

theorem checks_none_iff {p q : Prop} [Decidable p] [Decidable q] (x y : Nat) :
    (if ¬ p then some x else if ¬ q then some y else none) = none ↔ p ∧ q := by
  by_cases hp : p <;> by_cases hq : q <;> simp [hp, hq]

theorem nodeErr_none_iff (b : MaskBlk) {i : Nat} (hi : i < 64) : nodeErr b i = none ↔ nodeGood b i := by
  rw [nodeErr, nodeGood]
  by_cases hroot : b.parent.getD i 0 = 0xFF
  · have hnot : ¬ 0xFF < i := by omega
    simp only [hroot, ne_eq, not_true_eq_false, false_and, if_false, if_true, BitVec.zero_or, true_and, hnot, or_false]
    exact checks_none_iff ..
  · simp only [hroot, ne_eq, not_false_eq_true, true_and, if_false, false_and, false_or]
    by_cases hp : b.parent.getD i 0 < i
    · have hge : ¬ b.parent.getD i 0 ≥ i := by omega
      simp only [hge, if_false, hp, true_and]
      exact checks_none_iff ..
    · have hge : b.parent.getD i 0 ≥ i := by omega
      simp only [hge, if_true, hp, reduceCtorEq, false_and]

theorem checks_code {p q r : Prop} {_ : Decidable p} {_ : Decidable q} {_ : Decidable r} {c : Nat}
    (h : (if p then some 2 else if q then some 3 else if r then some 4 else none) = some c) : 1 ≤ c ∧ c ≤ 5 := by
  split at h
  · cases h; decide
  · split at h
    · cases h; decide
    · split at h <;> cases h
      decide

theorem nodeErr_code {b : MaskBlk} {i c : Nat} (h : nodeErr b i = some c) : 1 ≤ c ∧ c ≤ 5 := by
  rw [nodeErr] at h
  exact checks_code h

/-- Bytes 1 to 7 of a block are zero. -/
theorem reserved_zero (bs : List (BitVec 8)) : ((bs.drop 1).take 7).any (· != 0) = false ↔ ∀ i, 1 ≤ i → i < 8 → bs.getD i 0 = 0 := by
  rw [List.any_eq_false]
  constructor
  · intro h i h1 h8
    rw [List.getD_eq_getElem?_getD]
    cases hi : bs[i]? with
    | none => rfl
    | some x =>
      have hmem : x ∈ (bs.drop 1).take 7 := by
        refine List.mem_of_getElem? (i := i - 1) ?_
        rw [List.getElem?_take_of_lt (by omega), List.getElem?_drop, Nat.add_sub_cancel' h1, hi]
      simpa using h x hmem
  · intro h x hx
    obtain ⟨i, hi⟩ := List.mem_iff_getElem?.1 hx
    have hlt : i < 7 := by
      by_contra hge
      rw [List.getElem?_eq_none (by rw [List.length_take]; omega)] at hi
      cases hi
    rw [List.getElem?_take_of_lt hlt, List.getElem?_drop] at hi
    have hzero := h (1 + i) (by omega) (by omega)
    rw [List.getD_eq_getElem?_getD, hi] at hzero
    simpa using hzero

/-- The entries behind the last node are zero. -/
def tailGood (b : MaskBlk) : Prop := ∀ i, b.count ≤ i → i < 64 → b.parent.getD i 0 = 0 ∧ b.depth.getD i 0 = 0 ∧ b.row.getD i 0 = 0

/-- The last check of R230: the first entry behind the last node that is not zero. -/
def tailErr (b : MaskBlk) : Option (Nat × Nat) :=
  ((List.range (64 - b.count)).map (b.count + ·)).findSome? fun i =>
    if b.parent.getD i 0 ≠ 0 ∨ b.depth.getD i 0 ≠ 0 ∨ b.row.getD i 0 ≠ 0 then some (5, i) else none

theorem tailErr_none_iff (b : MaskBlk) : tailErr b = none ↔ tailGood b := by
  rw [tailErr, List.findSome?_eq_none_iff, tailGood, List.forall_mem_map]
  constructor
  · intro h i hlo hhi
    have hi := h (i - b.count) (List.mem_range.2 (by omega))
    rw [Nat.add_sub_cancel' hlo] at hi
    by_contra hne
    rw [if_pos (by tauto)] at hi
    cases hi
  · intro h k hk
    obtain ⟨hp, hd, hr⟩ := h (b.count + k) (by omega) (by have := List.mem_range.1 hk; omega)
    exact if_neg (by rw [hp, hd, hr]; simp)

theorem tailErr_code {b : MaskBlk} {c i : Nat} (hb : b.count ≤ 64) (h : tailErr b = some (c, i)) : c = 5 ∧ i < 64 := by
  obtain ⟨k, hk, hsome⟩ := List.exists_of_findSome?_eq_some h
  obtain ⟨j, hj, rfl⟩ := List.mem_map.1 hk
  have hj := List.mem_range.1 hj
  split at hsome
  · cases hsome; exact ⟨rfl, by omega⟩
  · cases hsome

/-- The first node that breaks a rule. -/
def badNode (b : MaskBlk) : Option (Nat × Nat) := (List.range b.count).findSome? fun i => (nodeErr b i).map fun c => (c, i)

theorem badNode_none_iff {b : MaskBlk} (hb : b.count ≤ 64) : badNode b = none ↔ ∀ i, i < b.count → nodeGood b i := by
  rw [badNode, List.findSome?_eq_none_iff]
  refine forall_congr' fun i => ?_
  rw [List.mem_range]
  refine forall_congr' fun hi => ?_
  rw [Option.map_eq_none_iff, nodeErr_none_iff b (by omega)]

theorem badNode_code {b : MaskBlk} {c i : Nat} (hb : b.count ≤ 64) (h : badNode b = some (c, i)) : (1 ≤ c ∧ c ≤ 5) ∧ i < 64 := by
  obtain ⟨k, hk, hsome⟩ := List.exists_of_findSome?_eq_some h
  obtain ⟨c', hc, he⟩ := Option.map_eq_some_iff.1 hsome
  cases he
  exact ⟨nodeErr_code hc, by have := List.mem_range.1 hk; omega⟩

theorem maskFault_eq (bs : List (BitVec 8)) : maskFault bs =
    if (maskOf bs).count = 0 ∨ (maskOf bs).count > 64 then some (1, 0)
    else (badNode (maskOf bs)).or
      (if ((bs.drop 1).take 7).any (· != 0) || (maskOf bs).base / 2 ^ 48 != 0 then some (5, 0) else tailErr (maskOf bs)) := by
  rw [maskFault]
  split
  · rfl
  · split
    next r hr =>
      have hbad : badNode (maskOf bs) = some r := hr
      rw [hbad]; rfl
    next hr =>
      have hbad : badNode (maskOf bs) = none := hr
      rw [hbad]; rfl

/-- No check of R230 fails just when its rules hold. -/
theorem maskFault_none_iff (bs : List (BitVec 8)) : maskFault bs = none ↔ maskGood bs := by
  have hgood : maskGood bs ↔ 1 ≤ (maskOf bs).count ∧ (maskOf bs).count ≤ 64 ∧ (∀ i, i < (maskOf bs).count → nodeGood (maskOf bs) i)
    ∧ (∀ i, 1 ≤ i → i < 8 → bs.getD i 0 = 0) ∧ (maskOf bs).base < 2 ^ 48 ∧ tailGood (maskOf bs) := Iff.rfl
  rw [maskFault_eq, hgood]
  by_cases hcount : (maskOf bs).count = 0 ∨ (maskOf bs).count > 64
  · rw [if_pos hcount]
    refine ⟨fun h => (by cases h), fun h => ?_⟩
    obtain ⟨h1, h64, -⟩ := h
    omega
  · have hle : (maskOf bs).count ≤ 64 := by omega
    rw [if_neg hcount, Option.or_eq_none_iff, badNode_none_iff hle, ← tailErr_none_iff, ← reserved_zero]
    have hbase : ((maskOf bs).base / 2 ^ 48 != 0) = false ↔ (maskOf bs).base < 2 ^ 48 := by
      rw [bne_eq_false_iff_eq, Nat.div_eq_zero_iff]
      omega
    have hone : 1 ≤ (maskOf bs).count := by omega
    rw [← hbase]
    cases ((bs.drop 1).take 7).any (· != 0) with
    | true => simp
    | false => cases ((maskOf bs).base / 2 ^ 48 != 0) <;> simp [hone, hle]

theorem maskFault_code {bs : List (BitVec 8)} {c i : Nat} (h : maskFault bs = some (c, i)) : (1 ≤ c ∧ c ≤ 5) ∧ i < 64 := by
  rw [maskFault_eq] at h
  split at h
  · cases h; decide
  next hcount =>
    have hle : (maskOf bs).count ≤ 64 := by omega
    rcases Option.or_eq_some_iff.1 h with hbad | ⟨-, hrest⟩
    · exact badNode_code hle hbad
    · split at hrest
      · cases hrest; decide
      · obtain ⟨rfl, hi⟩ := tailErr_code hle hrest
        exact ⟨by decide, hi⟩

/-! ### The end of a mask load -/

section MaskEnd

variable {s : State} {id : Nat} {m : MaskLoad} (err : Option Deferred)

theorem endMask_rest : s.endMask id m err
    = { s.dropLegs (.maskLoad id) with weaves := (s.endMask id m err).weaves, maskLoads := (s.endMask id m err).maskLoads } := rfl

theorem endMask_gone : Tbl.find (s.endMask id m err).maskLoads id = none :=
  (Tbl.find_del ..).trans (if_pos rfl)

/-- The weave of an ended mask load: its flag counts one less, and an error waits for it. -/
theorem endMask_weave {w : Weave} (hw : s.weave m.weave = some w) : ∃ w', (s.endMask id m err).weave m.weave = some w'
    ∧ w' = { w with cf := w'.cf, errs := w'.errs } ∧ (∀ k, w'.getCf k = w.getCf k - if m.flag = some k then 1 else 0)
    ∧ w'.errs = w.errs ++ err.toList := by
  have hweave : (s.endMask id m err).weave m.weave = some (match err with
      | some d => (w.countDown m.flag).defer d
      | none => w.countDown m.flag) := by
    refine (State.weave_updWeave ..).trans ?_
    rw [if_pos rfl, hw]
    rfl
  have hcount := w.countDown_eq m.flag
  refine ⟨_, hweave, ?_, fun k => ?_, ?_⟩
  · rw [hcount]; cases err <;> rfl
  · cases err <;> exact w.getCf_countDown m.flag k
  · cases err with
    | none => rw [hcount]; exact (List.append_nil _).symm
    | some d => rw [hcount]; rfl

end MaskEnd

/-- A mask load whose block can be read ends: what passes is latched, and what does not waits for its weave. -/
theorem mldmask_completes {s : State} {id : Nat} {m : MaskLoad} {row : Nat → List (BitVec 8)} {tm : Team} {w : Weave}
    (hm : Tbl.find s.maskLoads id = some m) (hfault : m.fault = none) (htm : s.team m.team = some tm) (hw : s.weave m.weave = some w)
    (hread : RowsRead (chunksOf m.addr 656).length m.got (fun i => s.mxRead (m.site id) m.cap ((chunksOf m.addr 656).getD i (0, 0)).1
      ((chunksOf m.addr 656).getD i (0, 0)).2) row) :
    let bs := ((List.range (chunksOf m.addr 656).length).map row).flatten
    ∃ t tm' w', exec (.mldmaskComplete id ()) s = .next t
      ∧ t = { s.dropLegs (.maskLoad id) with teams := t.teams, weaves := t.weaves, maskLoads := t.maskLoads }
      ∧ Tbl.find t.maskLoads id = none ∧ t.team m.team = some tm' ∧ t.weave m.weave = some w'
      ∧ w' = { w with cf := w'.cf, errs := w'.errs }
      ∧ (∀ k, w'.getCf k = w.getCf k - if m.flag = some k then 1 else 0)
      ∧ (maskGood bs → w'.errs = w.errs ∧ tm' = { tm with cv := tm'.cv }
        ∧ tm'.cvr m.cv = { tm.cvr m.cv with mask := some (maskOf bs) })
      ∧ (¬ maskGood bs → tm' = tm ∧ ∃ detail : BitVec 16, w'.errs = w.errs ++ [.mask m.flag m.cv detail]
        ∧ 1 ≤ detail.toNat / 256 ∧ detail.toNat / 256 ≤ 5) := by
  intro bs
  have hrows : s.maskRows id m = ((List.range (chunksOf m.addr 656).length).map row, none) := loadRows_all hread
  have hexec : exec (.mldmaskComplete id ()) s = .next (s.latchMask id m bs) := by
    rw [exec_mldmaskComplete, execMldmaskComplete, hm]
    dsimp only
    rw [hfault, hrows]
    rfl
  cases hbad : maskFault bs with
  | none =>
    have hgood := (maskFault_none_iff bs).1 hbad
    obtain ⟨w', hw', hsame, hcf, herrs⟩ := endMask_weave (s := s) (id := id) none hw
    have hteam : (s.endMask id m none).team m.team = some tm := htm
    have hlatch : s.latchMask id m bs = (s.endMask id m none).setCv m.team m.cv { tm.cvr m.cv with mask := some (maskOf bs) } := by
      rw [State.latchMask, hbad]
      dsimp only
      rw [hteam]
    rw [hlatch] at hexec
    refine ⟨_, tm.setCv m.cv { tm.cvr m.cv with mask := some (maskOf bs) }, w', hexec, rfl, endMask_gone none, ?_, hw', hsame, hcf,
      fun _ => ⟨?_, rfl, ?_⟩, fun h => absurd hgood h⟩
    · rw [State.setCv_eq, State.team_updTeam, if_pos rfl, hteam]; rfl
    · rw [herrs]; exact List.append_nil _
    · rw [Team.cvr_setCv, if_pos rfl]
  | some r =>
    obtain ⟨code, node⟩ := r
    have hnot : ¬ maskGood bs := fun h => by rw [(maskFault_none_iff bs).2 h] at hbad; cases hbad
    obtain ⟨⟨hlo, hhi⟩, hnode⟩ := maskFault_code hbad
    have hdetail : (BitVec.ofNat 16 (node + code * 256)).toNat / 256 = code := by
      rw [BitVec.toNat_ofNat, Nat.mod_eq_of_lt (by omega)]; omega
    obtain ⟨w', hw', hsame, hcf, herrs⟩ :=
      endMask_weave (s := s) (id := id) (some (.mask m.flag m.cv (BitVec.ofNat 16 (node + code * 256)))) hw
    have hlatch : s.latchMask id m bs = s.endMask id m (some (.mask m.flag m.cv (BitVec.ofNat 16 (node + code * 256)))) := by
      rw [State.latchMask, hbad]
    rw [hlatch] at hexec
    exact ⟨_, tm, w', hexec, rfl, endMask_gone _, htm, hw', hsame, hcf, fun h => absurd h hnot,
      fun _ => ⟨rfl, _, herrs, by rw [hdetail]; exact hlo, by rw [hdetail]; exact hhi⟩⟩

end Sys2Proof.Machine
end

section
/-! The end of a request of a dispatched batch, and how the batch goes on (R221, R233–R235). -/

namespace Sys2Proof.Machine

open Sys2Proof

/-! ### Tables -/

theorem Tbl.del_absent {β : Type} {t : Tbl β} {n : Nat} (h : ∀ e ∈ t, e.1 ≠ n) : Tbl.del t n = t := by
  induction t with
  | nil => rfl
  | cons e t ih =>
    obtain ⟨hne, ht⟩ := List.forall_mem_cons.1 h
    rw [Tbl.del, if_neg hne, ih ht]

theorem Tbl.del_ins {β : Type} {t : Tbl β} {n : Nat} (h : ∀ e ∈ t, e.1 ≠ n) (x : β) : Tbl.del (Tbl.ins t n x) n = t := by
  induction t with
  | nil => exact if_pos rfl
  | cons e t ih =>
    obtain ⟨hne, ht⟩ := List.forall_mem_cons.1 h
    rw [Tbl.ins]
    split
    · rw [Tbl.del, if_pos rfl]
      exact Tbl.del_absent h
    · rw [Tbl.del, if_neg hne, ih ht]

/-- The later of two entries of a name stands. -/
theorem Tbl.put_put {β : Type} (t : Tbl β) (n : Nat) (x y : β) : Tbl.put (Tbl.put t n x) n y = Tbl.put t n y := by
  have habsent : ∀ e ∈ Tbl.del t n, e.1 ≠ n := fun e he => (Tbl.mem_del he).2
  rw [Tbl.put, Tbl.put, Tbl.put, Tbl.del_ins habsent]

theorem Tbl.upd_some {β : Type} {t : Tbl β} {n : Nat} {x : β} (h : Tbl.find t n = some x) (f : β → β) : Tbl.upd t n f = Tbl.put t n (f x) := by
  rw [Tbl.upd, h]

/-- What is written to a table that the written names all agree about. -/
theorem get_unwritten {es : List (Nat × W32)} {z : Nat} (h : ∀ e ∈ es, e.1 ≠ z) (acc : Tbl W32) :
    Tbl.get (es.foldl (fun a e => Tbl.set a 0 e.1 e.2) acc) 0 z = Tbl.get acc 0 z := by
  induction es generalizing acc with
  | nil => rfl
  | cons e es ih =>
    obtain ⟨hne, hes⟩ := List.forall_mem_cons.1 h
    rw [List.foldl_cons, ih hes, Tbl.get_set_other _ _ _ (Ne.symm hne)]

theorem get_written {es : List (Nat × W32)} {z : Nat} {v : W32} (hval : ∀ e ∈ es, e.1 = z → e.2 = v) (hex : ∃ e ∈ es, e.1 = z)
    (acc : Tbl W32) : Tbl.get (es.foldl (fun a e => Tbl.set a 0 e.1 e.2) acc) 0 z = v := by
  induction es generalizing acc with
  | nil => obtain ⟨e, he, -⟩ := hex; cases he
  | cons e es ih =>
    obtain ⟨hfirst, hes⟩ := List.forall_mem_cons.1 hval
    rw [List.foldl_cons]
    by_cases hlater : ∃ e ∈ es, e.1 = z
    · exact ih hes hlater _
    · have hnone : ∀ e ∈ es, e.1 ≠ z := fun e he hz => hlater ⟨e, he, hz⟩
      obtain ⟨f, hf, hz⟩ := hex
      rcases List.mem_cons.1 hf with rfl | hf
      · rw [get_unwritten hnone, ← hz, Tbl.get_set_self]
        exact hfirst hz
      · exact absurd hz (hnone f hf)

/-- Elements are written as `elem` says. -/
def Writes (es : List (Nat × W32)) (elem : Nat → Option W32) : Prop :=
  ∀ z, (∀ e ∈ es, e.1 = z → elem z = some e.2) ∧ (elem z ≠ none → ∃ e ∈ es, e.1 = z)

theorem Writes.get {es : List (Nat × W32)} {elem : Nat → Option W32} (h : Writes es elem) (acc : Tbl W32) (z : Nat) :
    Tbl.get (es.foldl (fun a e => Tbl.set a 0 e.1 e.2) acc) 0 z = (elem z).getD (Tbl.get acc 0 z) := by
  obtain ⟨hval, hex⟩ := h z
  cases hz : elem z with
  | none =>
    refine get_unwritten (fun e he hez => ?_) acc
    rw [hval e he hez] at hz
    cases hz
  | some v =>
    refine get_written (fun e he hez => ?_) (hex (by rw [hz]; exact Option.some_ne_none v)) acc
    have hsame := (hval e he hez).symm.trans hz
    cases hsame
    rfl

/-! ### The end of a request (R221, R235) -/

theorem foldl_updWeave_rest {α : Type} (l : List α) (id : α → Nat) (f : α → Weave → Weave) (s : State) :
    l.foldl (fun s w => s.updWeave (id w) (f w)) s = { s with weaves := (l.foldl (fun s w => s.updWeave (id w) (f w)) s).weaves } := by
  induction l generalizing s with
  | nil => rfl
  | cons w l ih => rw [List.foldl_cons, ih]; rfl

/-- The signing weaves are told of a stale slot, and their flags fall. -/
def State.signersEnd (s : State) (q : MxReq) (stale : Bool) : State :=
  (q.signers.eraseDups.foldl (fun s w => s.updWeave w.1 fun x => if stale then x.sticky wsStale else x) s).signersDown q.signers

theorem State.signersEnd_rest (s : State) (q : MxReq) (stale : Bool) :
    s.signersEnd q stale = { s with weaves := (s.signersEnd q stale).weaves } := by
  rw [State.signersEnd, State.signersDown, foldl_updWeave_rest, foldl_updWeave_rest]

theorem State.signersEnd_weave (s : State) {q : MxReq} (stale : Bool) {wid f : Nat} {w : Weave} (hs : q.signers = [(wid, some f)])
    (hw : s.weave wid = some w) :
    (s.signersEnd q stale).weave wid = some (Weave.countDown (if stale then w.sticky wsStale else w) (some f)) := by
  have hone : s.signersEnd q stale = (s.updWeave wid fun x => if stale then x.sticky wsStale else x).updWeave wid fun x => x.countDown (some f) := by
    rw [State.signersEnd, hs]; rfl
  rw [hone, State.weave_updWeave, if_pos rfl, State.weave_updWeave, if_pos rfl, hw]
  rfl

/-- A request ends after its elements are written. -/
def State.reqEnds (s : State) (n r : Nat) (q : MxReq) (o : MxOut) : State :=
  let u := ((s.updTeam q.team fun t => { t with acc := o.elems.foldl (fun a e => Tbl.set a 0 e.1 e.2) t.acc }).signersEnd q o.stale).unpend r q
  (State.dropLegs { u with mxReqs := Tbl.del u.mxReqs r } (.mx r)).updBatch n fun x => { x with reqs := x.reqs.filter (· != r) }

theorem endReq_eq (s : State) {n : Nat} (r : Nat) {q : MxReq} (o : MxOut) (hb : q.batch = some n) (hc : q.cancelled = false) :
    (s.writeElems q o.elems).endReq r q o.stale none = s.reqEnds n r q o := by
  rw [State.endReq, State.writeElems, hc, hb]
  rfl

section ReqEnds

variable (s : State) (n r : Nat) (q : MxReq) (o : MxOut)

theorem reqEnds_rest : s.reqEnds n r q o = { s.dropLegs (.mx r) with
    teams := (s.reqEnds n r q o).teams, weaves := (s.reqEnds n r q o).weaves
    mxReqs := (s.reqEnds n r q o).mxReqs, batches := (s.reqEnds n r q o).batches } := by
  rw [State.reqEnds, State.unpend_rest, State.signersEnd_rest]
  rfl

theorem reqEnds_mxReqs : (s.reqEnds n r q o).mxReqs = Tbl.del s.mxReqs r := by
  rw [State.reqEnds, State.unpend_rest, State.signersEnd_rest]
  rfl

theorem reqEnds_batches : (s.reqEnds n r q o).batches = Tbl.upd s.batches n fun x => { x with reqs := x.reqs.filter (· != r) } := by
  rw [State.reqEnds, State.unpend_rest, State.signersEnd_rest]
  rfl

theorem reqEnds_weaves : (s.reqEnds n r q o).weaves = (s.signersEnd q o.stale).weaves := by
  have hsame (u v : State) (h : u.weaves = v.weaves) : (u.signersEnd q o.stale).weaves = (v.signersEnd q o.stale).weaves := by
    have hfold {α : Type} (l : List α) (id : α → Nat) (f : α → Weave → Weave) (u v : State) (h : u.weaves = v.weaves) :
        (l.foldl (fun s w => s.updWeave (id w) (f w)) u).weaves = (l.foldl (fun s w => s.updWeave (id w) (f w)) v).weaves := by
      induction l generalizing u v with
      | nil => exact h
      | cons w l ih => exact ih _ _ (congrArg (Tbl.upd · (id w) (f w)) h)
    exact hfold _ _ _ _ _ (hfold _ _ _ _ _ h)
  rw [State.reqEnds, State.unpend_rest]
  exact hsame _ _ rfl

theorem reqEnds_team {tm : Team} (htm : s.team q.team = some tm) : ∃ tm', (s.reqEnds n r q o).team q.team = some tm'
    ∧ tm' = { tm with acc := o.elems.foldl (fun a e => Tbl.set a 0 e.1 e.2) tm.acc, cv := tm'.cv } := by
  have hwrite : ((s.updTeam q.team fun t => { t with acc := o.elems.foldl (fun a e => Tbl.set a 0 e.1 e.2) t.acc }).signersEnd q o.stale).team q.team
      = some { tm with acc := o.elems.foldl (fun a e => Tbl.set a 0 e.1 e.2) tm.acc } := by
    rw [State.signersEnd_rest]
    refine (State.team_updTeam ..).trans ?_
    rw [if_pos rfl, htm]
    rfl
  obtain ⟨tm', htm', hsame, -⟩ := State.unpend_team _ r q hwrite
  exact ⟨tm', htm', hsame⟩

end ReqEnds

/-- A request that ends in a batch that has read what it shares. -/
theorem mxDone_of_reqEnds {s : State} {n r : Nat} {rs : List Nat} {q : MxReq} {tm : Team} {o : MxOut} {bt b1 : Batch}
    {elem : Nat → Option W32} {stale : Prop} (hb : Tbl.find s.batches n = some bt) (hreqs : b1.reqs = r :: rs) (hr : r ∉ rs)
    (htm : s.team q.team = some tm) (hw : Writes o.elems elem) (hstale : o.stale = true ↔ stale) :
    s.MxDone ((s.updBatch n fun _ => b1).reqEnds n r q o) n r q tm { b1 with reqs := rs } elem stale := by
  have hbatch : Tbl.find (s.updBatch n fun _ => b1).batches n = some b1 := (Tbl.find_upd ..).trans (by rw [if_pos rfl, hb]; rfl)
  refine ⟨?_, ?_, ?_, ?_, ?_⟩
  · rw [reqEnds_rest]; rfl
  · obtain ⟨tm', htm', hsame⟩ := reqEnds_team (s.updBatch n fun _ => b1) n r q o htm
    refine ⟨tm', htm', ?_, fun z => ?_⟩
    · rw [hsame]
    · rw [hsame]; exact hw.get tm.acc z
  · rw [reqEnds_mxReqs]
    exact ⟨(Tbl.find_del ..).trans (if_pos rfl), fun k hk => (Tbl.find_del ..).trans (if_neg hk)⟩
  · rw [reqEnds_batches]
    refine ⟨?_, fun k hk => ?_⟩
    · refine (Tbl.find_upd ..).trans ?_
      rw [if_pos rfl, hbatch]
      have hfilter : (r :: rs).filter (· != r) = rs := by
        rw [List.filter_cons_of_neg (by simp), List.filter_eq_self]
        intro k hk
        have hne : k ≠ r := fun h => hr (h ▸ hk)
        simpa using hne
      simp [hreqs, hfilter]
    · exact (Tbl.find_upd_other _ _ hk).trans (Tbl.find_upd_other _ _ hk)
  · intro wid w f hs hw
    have hweave : ((s.updBatch n fun _ => b1).reqEnds n r q o).weave wid
        = some (Weave.countDown (if o.stale then w.sticky wsStale else w) (some f)) :=
      (congrArg (Tbl.find · wid) (reqEnds_weaves ..)).trans (State.signersEnd_weave _ o.stale hs hw)
    have hcount := Weave.countDown_eq (if o.stale then w.sticky wsStale else w) (some f)
    refine ⟨_, hweave, ?_, fun k => ?_, fun b hb => ?_, ?_⟩
    · rw [hcount]; cases o.stale <;> rfl
    · rw [Weave.getCf_countDown]
      have hflag : (some f = some k) = (k = f) :=
        propext ⟨fun h => (Option.some.inj h).symm, fun h => congrArg some h.symm⟩
      simp only [hflag]
      cases o.stale <;> rfl
    · rw [hcount]
      cases o.stale with
      | false => rfl
      | true => exact (setBit64_bit w.wstat wsStale b (by decide)).trans (by simp [hb])
    · rw [hcount, ← hstale]
      cases o.stale with
      | false => simp
      | true => exact iff_of_true ((setBit64_bit w.wstat wsStale wsStale (by decide)).trans (by simp)) (.inr rfl)

end Sys2Proof.Machine
end

section
/-! BATCH_COMPLETE over the requests of a batch (R221, R233, R235). -/

namespace Sys2Proof.Machine

open Sys2Proof

/-- A batch goes on after the read of what it shares: what stops the read is seen to, or its requests are computed. -/
def State.afterLoad (s : State) (n : Nat) (reqs : List Nat) (b : Batch) (q : MxReq) : Option KErr → State
  | some e => s.batchStopped n b q e
  | none => (reqs.foldl (State.completeReq b) s).dropEmpty n

section BatchStep

variable {s : State} {n : Nat} {bt : Batch} (hb : Tbl.find s.batches n = some bt) (hcore : bt.core.isSome = true)
  (hfault : bt.fault = none)
include hb hcore hfault

theorem exec_batchComplete_eq {r : Nat} {q : MxReq} {rest : List (Nat × MxReq)} {b1 : Batch} {e : Option KErr}
    (hfirst : s.batchReqs bt = (r, q) :: rest) (hload : s.loadShared n bt q = (b1, e)) :
    exec (.batchComplete n ()) s = .next ((s.updBatch n fun _ => b1).afterLoad n bt.reqs b1 q e) := by
  rw [exec_batchComplete, execBatchComplete, hb]
  dsimp only
  rw [Option.isNone_eq_false_iff.2 hcore, hfault, hfirst]
  dsimp only
  rw [hload]
  rfl

/-- A batch that can read what it shares computes its requests in order. -/
theorem exec_batchComplete_loaded {r : Nat} {q : MxReq} {rest : List (Nat × MxReq)} {b1 : Batch} (hfirst : s.batchReqs bt = (r, q) :: rest)
    (hload : s.loadShared n bt q = (b1, none)) :
    exec (.batchComplete n ()) s = .next ((bt.reqs.foldl (State.completeReq b1) (s.updBatch n fun _ => b1)).dropEmpty n) :=
  exec_batchComplete_eq hb hcore hfault hfirst hload

theorem exec_batchComplete_empty (hnone : s.batchReqs bt = []) : exec (.batchComplete n ()) s = .next (s.dropEmpty n) := by
  rw [exec_batchComplete, execBatchComplete, hb]
  dsimp only
  rw [Option.isNone_eq_false_iff.2 hcore, hfault, hnone]
  rfl

/-- A read of what a batch shares that faults keeps what has been read (R235). -/
theorem batchComplete_faults {r : Nat} {q : MxReq} {rest : List (Nat × MxReq)} {b1 : Batch} {lva kind : Nat}
    (hfirst : s.batchReqs bt = (r, q) :: rest) (hload : s.loadShared n bt q = (b1, some (.xl .resolvable lva kind))) :
    ∃ t fid, exec (.batchComplete n ()) s = .next t
      ∧ Tbl.find t.batches n = some { b1 with fault := some fid } ∧ t.teams = s.teams ∧ t.mxReqs = s.mxReqs := by
  have hexec := exec_batchComplete_eq hb hcore hfault hfirst hload
  refine ⟨_, s.nextId, hexec, ?_, rfl, rfl⟩
  have hloaded : Tbl.find (Tbl.upd s.batches n fun _ => b1) n = some b1 := (Tbl.find_upd ..).trans (by rw [if_pos rfl, hb]; rfl)
  refine (Tbl.find_upd (Tbl.upd s.batches n fun _ => b1) n (fun b => { b with fault := some s.nextId }) n).trans ?_
  rw [if_pos rfl, hloaded]
  rfl

end BatchStep

/-- A request whose own rows can all be read ends. -/
theorem completeReq_ends {s : State} {b : Batch} {n r : Nat} {q : MxReq} {rows : List (List (BitVec 8))} (hq : Tbl.find s.mxReqs r = some q)
    (hfault : q.fault = none) (hafter : s.reqAfter r q = false) (hbatch : q.batch = some n) (hcancel : q.cancelled = false)
    (hrows : s.ownRows r b q = (rows, none)) :
    State.completeReq b s r = s.reqEnds n r q (s.runReq b { q with rowsRead := rows }) := by
  rw [State.completeReq, hq]
  dsimp only
  rw [hfault, hafter, hrows]
  exact endReq_eq s r _ hbatch hcancel

theorem completeReq_absent {s : State} {b : Batch} {r : Nat} (h : Tbl.find s.mxReqs r = none) : State.completeReq b s r = s := by
  rw [State.completeReq, h]

/-- Which requests a batch still has does not matter to one of them. -/
theorem completeReq_reqs (b : Batch) (rs : List Nat) : State.completeReq { b with reqs := rs } = State.completeReq b := rfl

theorem foldl_completeReq_absent {s : State} {b : Batch} {rs : List Nat} (h : ∀ k ∈ rs, Tbl.find s.mxReqs k = none) :
    rs.foldl (State.completeReq b) s = s := by
  induction rs with
  | nil => rfl
  | cons k rs ih =>
    obtain ⟨hk, hrs⟩ := List.forall_mem_cons.1 h
    rw [List.foldl_cons, completeReq_absent hk, ih hrs]

section GoesOn

variable {s : State} {n r : Nat} {rs : List Nat} {q : MxReq} {o : MxOut} {bt b1 : Batch} (hb : Tbl.find s.batches n = some bt)
  (hreqs : b1.reqs = r :: rs) (hr : r ∉ rs) (hcore : b1.core.isSome = true) (hfault : b1.fault = none)
include hb hreqs hr

/-- The batches after the end of a batch's first request. -/
theorem reqEnds_batches_put : ((s.updBatch n fun _ => b1).reqEnds n r q o).batches = Tbl.put s.batches n { b1 with reqs := rs } := by
  have hloaded : (s.updBatch n fun _ => b1).batches = Tbl.put s.batches n b1 := Tbl.upd_some hb _
  have hfilter : b1.reqs.filter (· != r) = rs := by
    rw [hreqs, List.filter_cons_of_neg (by simp), List.filter_eq_self]
    intro k hk
    have hne : k ≠ r := fun h => hr (h ▸ hk)
    simpa using hne
  rw [reqEnds_batches, hloaded, Tbl.upd_some (Tbl.find_put_self ..), Tbl.put_put, hfilter]

include hcore hfault

/-- The batch goes on as from the state in which its first request has ended, where the others find all that the batch shares. -/
theorem goesOn_of_shared {rest : List (Nat × MxReq)} (hbc : bt.core.isSome = true) (hbf : bt.fault = none)
    (hbr : bt.reqs = r :: rs) (hfirst : s.batchReqs bt = (r, q) :: rest) (hload : s.loadShared n bt q = (b1, none))
    (hends : State.completeReq b1 (s.updBatch n fun _ => b1) r = (s.updBatch n fun _ => b1).reqEnds n r q o)
    (hshared : ∀ (t : State) k, k ∈ rs → ∀ p, Tbl.find s.mxReqs k = some p →
      t.loadShared n { b1 with reqs := rs } p = ({ b1 with reqs := rs }, none)) :
    s.GoesOn ((s.updBatch n fun _ => b1).reqEnds n r q o) n rs := by
  have hput := reqEnds_batches_put (q := q) (o := o) hb hreqs hr
  generalize ht : (s.updBatch n fun _ => b1).reqEnds n r q o = t at *
  have hbatch : Tbl.find t.batches n = some { b1 with reqs := rs } := by rw [hput]; exact Tbl.find_put_self ..
  have hexec : exec (.batchComplete n ()) s = .next ((rs.foldl (State.completeReq b1) t).dropEmpty n) := by
    rw [exec_batchComplete_loaded hb hbc hbf hfirst hload, hbr, List.foldl_cons, hends]
  rw [State.GoesOn, hexec]
  by_cases hnil : rs = []
  · rw [if_pos hnil, hnil, List.foldl_nil, State.dropEmpty, hbatch, hnil]
    rfl
  · have hstays : t.dropEmpty n = t := by
      rw [State.dropEmpty, hbatch]
      dsimp only
      rw [List.isEmpty_eq_false_iff.2 hnil, if_neg Bool.false_ne_true]
    rw [if_neg hnil]
    have hmx : t.mxReqs = Tbl.del s.mxReqs r := by rw [← ht, reqEnds_mxReqs]; rfl
    cases hleft : t.batchReqs { b1 with reqs := rs } with
    | nil =>
      have habsent : ∀ k ∈ rs, Tbl.find t.mxReqs k = none := by
        intro k hk
        have hnone := List.filterMap_eq_nil_iff.1 hleft k hk
        exact Option.map_eq_none_iff.1 hnone
      rw [foldl_completeReq_absent habsent, exec_batchComplete_empty hbatch hcore hfault hleft]
    | cons e rest' =>
      obtain ⟨k, p⟩ := e
      have hmem : (k, p) ∈ t.batchReqs { b1 with reqs := rs } := hleft ▸ List.mem_cons_self
      have hk : k ∈ rs := by
        obtain ⟨i, hi, he⟩ := List.mem_filterMap.1 hmem
        obtain ⟨p', -, he⟩ := Option.map_eq_some_iff.1 he
        cases he
        exact hi
      have hp : Tbl.find s.mxReqs k = some p := by
        have hfind := State.mem_batchReqs hmem
        rw [hmx, Tbl.find_del, if_neg fun h : k = r => hr (h ▸ hk)] at hfind
        exact hfind
      have hsame : (t.updBatch n fun _ => { b1 with reqs := rs }) = t := by
        have hbatches : Tbl.upd t.batches n (fun _ => { b1 with reqs := rs }) = t.batches := by
          rw [Tbl.upd_some hbatch, hput, Tbl.put_put]
        rw [State.updBatch, hbatches]
      rw [exec_batchComplete_loaded hbatch hcore hfault hleft (hshared t k hk p hp), hsame, completeReq_reqs b1 rs]

end GoesOn

/-! ### Reads and batches -/

/-- What a batch has read does not matter to a read. -/
theorem mxRead_updBatch (s : State) (n : Nat) (f : Batch → Batch) : (s.updBatch n f).mxRead = s.mxRead := by
  have hwalk : s.SameWalk (s.updBatch n f) := ⟨rfl, rfl, rfl, rfl, fun _ => rfl⟩
  have hloc : (s.updBatch n f).mxLoc = s.mxLoc := by
    funext die part tid c a
    simp only [State.mxLoc, State.kvPa_congr hwalk]
    rfl
  funext x c a len
  rw [State.mxRead, State.mxRead, hloc]
  rfl

end Sys2Proof.Machine
end

section
/-! What a GEMM writes (R225). -/

namespace Sys2Proof.Machine

open Sys2Proof

/-- A list that a range gives, with its places. -/
theorem mem_zipIdx_range {α : Type} {f : Nat → α} {n : Nat} {x : α × Nat} :
    x ∈ ((List.range n).map f).zipIdx ↔ x.2 < n ∧ x.1 = f x.2 := by
  rw [List.mem_zipIdx_iff_getElem?, List.getElem?_map]
  by_cases h : x.2 < n
  · rw [List.getElem?_range h]
    simp [h, eq_comm]
  · rw [List.getElem?_eq_none (by simpa using h)]
    simp [h]

theorem zipIdx_range {α : Type} (f : Nat → α) (n : Nat) : ((List.range n).map f).zipIdx = (List.range n).map fun i => (f i, i) := by
  refine List.ext_getElem? fun i => ?_
  rw [List.getElem?_zipIdx, List.getElem?_map, List.getElem?_map, Nat.zero_add]
  by_cases h : i < n
  · rw [List.getElem?_range h]; rfl
  · rw [List.getElem?_eq_none (by simpa using h)]; rfl

/-- The running sum of an element over its chunks, in increasing k. -/
theorem gemmElem_range (acc : W32) (w : Nat → WChunk) (k : Nat) (as : List Val) (fa had : Nat) :
    gemmElem acc ((List.range k).map w) as fa had
      = (List.range k).foldl (fun acc j => f32Add acc (chunkValue (w j) ((as.drop (32 * j)).take 32) fa had)) acc := by
  rw [gemmElem, zipIdx_range, List.foldl_map]

/-- The element that row `i` and column `c` of a GEMM give. -/
def State.mmaElem (s : State) (b : Batch) (q : MxReq) (row : Nat → List (BitVec 8)) (i c : Nat) : W32 :=
  let m := mmaOf q.snap.words
  let codes := actRow m.aFmt m.had m.hFmt (codesOf m.aFmt (row i))
  (List.range m.kch).foldl
    (fun acc j => f32Add acc (chunkValue (tileChunk m b.tile c j) ((codes.1.drop (32 * j)).take 32) codes.2 m.had))
    (if m.zero then 0 else s.accRead b.got q.team (accIdx m.dst i c))

theorem mem_runMma {s : State} {b : Batch} {q : MxReq} {row : Nat → List (BitVec 8)} {e : Nat × W32} :
    e ∈ (s.runMma b { q with rowsRead := (List.range (mmaOf q.snap.words).rows).map row }).elems
      ↔ ∃ i c, i < (mmaOf q.snap.words).rows ∧ c < 64 ∧ e = (accIdx (mmaOf q.snap.words).dst i c, s.mmaElem b q row i c) := by
  rw [State.runMma]
  dsimp only
  rw [List.mem_flatMap]
  constructor
  · rintro ⟨x, hx, he⟩
    obtain ⟨hi, hrow⟩ := mem_zipIdx_range.1 hx
    obtain ⟨y, hy, rfl⟩ := List.mem_map.1 he
    obtain ⟨hc, hws⟩ := mem_zipIdx_range.1 hy
    refine ⟨x.2, y.2, hi, hc, ?_⟩
    rw [hrow, hws, gemmElem_range]
    rfl
  · rintro ⟨i, c, hi, hc, rfl⟩
    refine ⟨(row i, i), mem_zipIdx_range.2 ⟨hi, rfl⟩, List.mem_map.2
      ⟨((List.range (mmaOf q.snap.words).kch).map fun j => tileChunk (mmaOf q.snap.words) b.tile c j, c), mem_zipIdx_range.2 ⟨hc, rfl⟩, ?_⟩⟩
    dsimp only
    rw [gemmElem_range]
    rfl

/-- A GEMM writes the elements of its rows and no others. -/
theorem runMma_writes (s : State) (b : Batch) (q : MxReq) (row : Nat → List (BitVec 8)) :
    let m := mmaOf q.snap.words
    Writes (s.runMma b { q with rowsRead := (List.range m.rows).map row }).elems fun z =>
      if m.dst * 4096 ≤ z ∧ (z - m.dst * 4096) / 64 < m.rows then some (s.mmaElem b q row ((z - m.dst * 4096) / 64) (z % 64)) else none := by
  intro m z
  refine ⟨fun e he hz => ?_, fun hsome => ?_⟩
  · obtain ⟨i, c, hi, hc, rfl⟩ := mem_runMma.1 he
    have hz : m.dst * 4096 + i * 64 + c = z := hz
    have hrow : (z - m.dst * 4096) / 64 = i := by omega
    have hcol : z % 64 = c := by omega
    dsimp only
    rw [hrow, hcol, if_pos ⟨by omega, hi⟩]
  · by_cases hz : m.dst * 4096 ≤ z ∧ (z - m.dst * 4096) / 64 < m.rows
    · obtain ⟨hlo, hi⟩ := hz
      refine ⟨_, mem_runMma.2 ⟨_, z % 64, hi, Nat.mod_lt _ (by decide), rfl⟩, ?_⟩
      change m.dst * 4096 + (z - m.dst * 4096) / 64 * 64 + z % 64 = z
      omega
    · exact absurd (if_neg hz) hsome

end Sys2Proof.Machine
end

section
/-! What an attention tile writes (R227, R228), and the slots that it has read (R233). -/

namespace Sys2Proof.Machine

open Sys2Proof

/-! ### The slots of a tile (R233) -/

theorem loadSlots_keeps (rd : Nat → KM SlotView) (slots : List Nat) {seen : Tbl SlotView} {k : Nat} (h : (Tbl.find seen k).isSome = true) :
    (Tbl.find (loadSlots rd slots seen).1 k).isSome = true := by
  induction slots generalizing seen with
  | nil => exact h
  | cons slot slots ih =>
    rw [loadSlots]
    split
    · exact ih h
    · split
      · exact h
      · refine ih ?_
        rw [Tbl.find_put]
        split
        · rfl
        · exact h

/-- A load that nothing stops has read each of its slots. -/
theorem loadSlots_all {rd : Nat → KM SlotView} {slots : List Nat} {seen : Tbl SlotView} (h : (loadSlots rd slots seen).2 = none)
    {k : Nat} (hk : k ∈ slots) : (Tbl.find (loadSlots rd slots seen).1 k).isSome = true := by
  induction slots generalizing seen with
  | nil => cases hk
  | cons slot slots ih =>
    rw [loadSlots] at h ⊢
    split at h
    next hseen =>
      rw [if_pos hseen]
      rcases List.mem_cons.1 hk with rfl | hk
      · exact loadSlots_keeps rd slots hseen
      · exact ih h hk
    next hseen =>
      rw [if_neg hseen]
      split at h
      next => cases h
      next v hv =>
        rcases List.mem_cons.1 hk with rfl | hk
        · exact loadSlots_keeps rd slots (by rw [Tbl.find_put_self]; rfl)
        · exact ih h hk

/-- Slots that have been read are not read again. -/
theorem loadSlots_seen (rd : Nat → KM SlotView) {slots : List Nat} {seen : Tbl SlotView} (h : ∀ k ∈ slots, (Tbl.find seen k).isSome = true) :
    loadSlots rd slots seen = (seen, none) := by
  induction slots with
  | nil => rfl
  | cons slot slots ih =>
    obtain ⟨hslot, hslots⟩ := List.forall_mem_cons.1 h
    rw [loadSlots, if_pos hslot, ih hslots]

/-- A batch that has read all the slots of a tile. -/
structure Batch.Read (b b1 : Batch) (m : Attn) (d : KvDesc) (pc : Nat) : Prop where
  rest : b1 = { b with pc := some pc, seen := b1.seen }
  slots : ∀ p ∈ m.range pc, (Tbl.find b1.seen (d.slotOf p).1).isSome = true

theorem read_of_tileSlots {s : State} {n : Nat} {b b1 : Batch} {q : MxReq} {d : KvDesc} (h : s.tileSlots n b q d = (b1, none)) :
    ∃ pc, b.Read b1 (attnOf q.snap.words) d pc := by
  rw [State.tileSlots] at h
  dsimp only at h
  split at h
  next => cases h
  next pc hpc =>
    obtain ⟨rfl, hnone⟩ := Prod.ext_iff.1 h
    exact ⟨pc, rfl, fun p hp => loadSlots_all hnone (List.mem_map_of_mem hp)⟩

/-- What a batch has read serves a tile of the same positions. -/
theorem tileSlots_of_read {b b1 : Batch} {m : Attn} {d : KvDesc} {pc : Nat} (h : b.Read b1 m d pc) (t : State) (n : Nat) (rs : List Nat)
    {q : MxReq} (hfirst : (attnOf q.snap.words).kfirst = m.kfirst) (hend : (attnOf q.snap.words).kend = m.kend) :
    t.tileSlots n { b1 with reqs := rs } q d = ({ b1 with reqs := rs }, none) := by
  obtain ⟨hrest, hslots⟩ := h
  have hpc : b1.pc = some pc := by rw [hrest]
  have hrange : (attnOf q.snap.words).range pc = m.range pc := by rw [Attn.range, Attn.range, hfirst, hend]
  have hload (rd : Nat → KM SlotView) : loadSlots rd ((m.range pc).map fun p => (d.slotOf p).1) b1.seen = (b1.seen, none) :=
    loadSlots_seen rd (List.forall_mem_map.2 hslots)
  rw [State.tileSlots]
  dsimp only
  rw [hpc]
  dsimp only
  rw [hrange, hload, ← hpc]

/-! ### Visible positions (R170, R227) -/

/-- What a batch has read of a position's slot. -/
def Batch.view (b : Batch) (d : KvDesc) (p : Nat) : Option SlotView := Tbl.find b.seen (d.slotOf p).1

/-- What a tile finds at a position of its range. -/
def Batch.foundAt (b : Batch) (d : KvDesc) (p : Nat) : Found :=
  match b.view d p with
  | some v => d.found (b.pc.getD 0) p v
  | none => .masked

theorem found_eq (b : Batch) (m : Attn) (d : KvDesc) : b.found m d = (m.range (b.pc.getD 0)).map fun p => (p, b.foundAt d p) := rfl

theorem mem_range {m : Attn} {pc p : Nat} : p ∈ m.range pc ↔ m.kfirst ≤ p ∧ p < m.kend ∧ p < pc := by
  rw [Attn.range, List.mem_map]
  simp only [List.mem_range, Nat.min_def]
  constructor
  · rintro ⟨k, hk, rfl⟩
    split at hk <;> omega
  · rintro ⟨hlo, hend, hpc⟩
    exact ⟨p - m.kfirst, by split <;> omega, by omega⟩

theorem foundAt_stale_iff {b : Batch} {d : KvDesc} {p : Nat} (hp : p < b.pc.getD 0) :
    b.foundAt d p = .stale ↔ ∃ v, b.view d p = some v ∧ (d.slotOf p).2 < v.gen := by
  rw [Batch.foundAt]
  cases b.view d p with
  | none => simp
  | some v =>
    dsimp only
    rw [KvDesc.found, if_neg (by omega)]
    split
    next h => simpa using h
    next h =>
      have hnot : ¬ (d.slotOf p).2 < v.gen := h
      split <;> simp [hnot]

/-- The key and value row of a position that a row sees. -/
def Batch.rowAt (b : Batch) (m : Attn) (d : KvDesc) (p : Nat) : Option KvRow :=
  (b.view d p).map fun v => { k := d.headCodes v false m.kvh, v := d.headCodes v true m.kvh }

/-- What a row takes from a position's entry. -/
def takes (m : Attn) (d : KvDesc) (mask : Option MaskBlk) (i : Nat) (x : Nat × Found) : Option KvRow :=
  match x.2 with
  | .valid v => if m.sees mask i x.1 then some { k := d.headCodes v false m.kvh, v := d.headCodes v true m.kvh } else none
  | _ => none

theorem sees_iff (m : Attn) (mask : Option MaskBlk) (i p : Nat) : m.sees mask i p = ((m.mode != 0 || decide (p ≤ m.qpos + i))
    && (m.mode != 1 || (match mask with
      | some b => decide (p < b.base) || (decide (p < b.base + b.count) && (b.row.getD i 0).getLsbD (p - b.base))
      | none => false))) := by
  unfold Attn.sees
  split
  next h => simp [h]
  next h =>
    simp only [h]
    cases mask with
    | none => rfl
    | some b =>
      by_cases hlt : p < b.base
      · simp [hlt]
      · have hle : b.base ≤ p := by omega
        simp [hlt, hle]
  next h0 h1 =>
    have hcausal : (m.mode != 0) = true := bne_iff_ne.2 h0
    have htree : (m.mode != 1) = true := bne_iff_ne.2 h1
    rw [hcausal, htree]
    rfl

/-- A row takes a position just when it is visible to it. -/
theorem takes_foundAt {b : Batch} {m : Attn} {d : KvDesc} {mask : Option MaskBlk} {i p : Nat} (hp : p ∈ m.range (b.pc.getD 0)) :
    takes m d mask i (p, b.foundAt d p) = if m.visible mask d (b.pc.getD 0) i p (b.view d p) then b.rowAt m d p else none := by
  obtain ⟨hlo, hend, hpc⟩ := mem_range.1 hp
  have hsees := sees_iff m mask i p
  have hvisible (v : SlotView) : m.visible mask d (b.pc.getD 0) i p (some v)
      = ((v.gen == (d.slotOf p).2 && v.st == 2) && m.sees mask i p) := by
    rw [hsees]
    unfold Attn.visible
    rw [decide_eq_true ⟨hlo, hend, hpc⟩, Bool.true_and, Bool.and_assoc] <;> rfl
  rw [Batch.foundAt, Batch.rowAt, takes]
  cases hview : b.view d p with
  | none =>
    have hnot : m.visible mask d (b.pc.getD 0) i p none = false := by simp [Attn.visible]
    rw [hnot]
    rfl
  | some v =>
    dsimp only [Option.map_some]
    rw [hvisible, KvDesc.found, if_neg (by omega)]
    by_cases hstale : v.gen > (d.slotOf p).2
    · have hne : (v.gen == (d.slotOf p).2) = false := beq_false_of_ne (by omega)
      rw [if_pos hstale, hne]
      rfl
    · rw [if_neg hstale]
      by_cases hvalid : v.gen = (d.slotOf p).2 ∧ v.st = 2
      · rw [if_pos hvalid, hvalid.1, hvalid.2]
        simp
      · rw [if_neg hvalid]
        have hne : (v.gen == (d.slotOf p).2 && v.st == 2) = false := by
          rw [← Bool.not_eq_true, Bool.and_eq_true, beq_iff_eq, beq_iff_eq]
          exact hvalid
        rw [hne]
        rfl

/-! ### The rows of a tile (R228) -/

theorem filterMap_range {α β : Type} (g : α → Option β) (l : List α) (n : Nat) :
    (List.range n).filterMap (fun k => l[k]?.bind g) = (l.take n).filterMap g := by
  induction n with
  | zero => rfl
  | succ n ih =>
    rw [List.range_succ, List.filterMap_append, ih, List.take_add_one, List.filterMap_append]
    congr 1
    cases hl : l[n]? with
    | none => simp [hl]
    | some x => cases hg : g x <;> simp [hl, hg]

/-- The rows that a block takes are those of its visible positions. -/
theorem block_rows (b : Batch) (m : Attn) (d : KvDesc) (mask : Option MaskBlk) (i k : Nat) :
    (((b.found m d).drop (32 * k)).take 32).filterMap (takes m d mask i)
      = (((List.range 32).map (m.kfirst + 32 * k + ·)).filter fun p => m.visible mask d (b.pc.getD 0) i p (b.view d p)).filterMap
        (b.rowAt m d) := by
  rw [← filterMap_range, List.filterMap_filter, List.filterMap_map]
  refine List.filterMap_congr fun j _ => ?_
  rw [Function.comp_apply, List.getElem?_drop, found_eq, List.getElem?_map]
  by_cases hj : 32 * k + j < Nat.min m.kend (b.pc.getD 0) - m.kfirst
  · have hget : (m.range (b.pc.getD 0))[32 * k + j]? = some (m.kfirst + 32 * k + j) := by
      rw [Attn.range, List.getElem?_map, List.getElem?_range hj, Option.map_some, Nat.add_assoc]
    rw [hget]
    exact takes_foundAt (List.mem_of_getElem? hget)
  · have hget : (m.range (b.pc.getD 0))[32 * k + j]? = none := by
      refine List.getElem?_eq_none ?_
      rw [Attn.range, List.length_map, List.length_range]
      omega
    have hout : m.kfirst + 32 * k + j ∉ m.range (b.pc.getD 0) := by
      rw [mem_range]
      simp only [Nat.min_def] at hj
      split at hj <;> omega
    have hnot : m.visible mask d (b.pc.getD 0) i (m.kfirst + 32 * k + j) (b.view d (m.kfirst + 32 * k + j)) = false := by
      rw [mem_range] at hout
      unfold Attn.visible
      rw [decide_eq_false hout]
      simp only [Bool.false_and]
    rw [hget, hnot]
    rfl

/-- The state of a row after its blocks. -/
def Batch.rowEnds (b : Batch) (m : Attn) (d : KvDesc) (mask : Option MaskBlk) (i : Nat) (q : List Nat) (st : AttnSt) : AttnSt :=
  (List.range ((m.kend - m.kfirst + 31) / 32)).foldl (fun st k => attnBlock m.qFmt d.kfmt d.vfmt m.scale q st
    ((((List.range 32).map (m.kfirst + 32 * k + ·)).filter fun p => m.visible mask d (b.pc.getD 0) i p (b.view d p)).filterMap
      (b.rowAt m d))) st

theorem attnRow_eq (b : Batch) (m : Attn) (d : KvDesc) (mask : Option MaskBlk) (i : Nat) (q : List Nat) (st : AttnSt) :
    attnRow m d mask (b.found m d) i q st = b.rowEnds m d mask i q st := by
  have hblock (k : Nat) := block_rows b m d mask i k
  rw [Batch.rowEnds]
  simp only [← hblock]
  rfl

theorem rowEnds_length (b : Batch) (m : Attn) (d : KvDesc) (mask : Option MaskBlk) (i : Nat) (q : List Nat) (st : AttnSt) :
    (b.rowEnds m d mask i q st).o.length = st.o.length := by
  rw [Batch.rowEnds]
  generalize List.range ((m.kend - m.kfirst + 31) / 32) = blocks
  induction blocks generalizing st with
  | nil => rfl
  | cons k blocks ih => rw [List.foldl_cons, ih, attnBlock_length]

/-- The elements of a row. -/
theorem mem_rowOut {m : Attn} {i : Nat} {st : AttnSt} {e : Nat × W32} : e ∈ m.rowOut i st ↔
    e = (accIdx m.stat i 0, st.m) ∨ e = (accIdx m.stat i 1, st.l)
    ∨ ∃ x, st.o[x]? = some e.2 ∧ e.1 = accIdx (m.out + x / 64) i (x % 64) := by
  rw [Attn.rowOut, List.mem_append, List.mem_pair, or_assoc, List.mem_map]
  refine or_congr_right (or_congr_right ?_)
  constructor
  · rintro ⟨y, hy, rfl⟩
    exact ⟨y.2, List.mem_zipIdx_iff_getElem?.1 hy, rfl⟩
  · rintro ⟨x, hx, hz⟩
    exact ⟨(e.2, x), List.mem_zipIdx_iff_getElem?.2 hx, Prod.ext_iff.2 ⟨hz.symm, rfl⟩⟩

/-- The elements that an attention tile gives, from the states of its rows. -/
def Attn.elem (m : Attn) (dim : Nat) (ends : Nat → AttnSt) (z : Nat) : Option W32 :=
  if m.rows ≤ z % 4096 / 64 then none
  else if z / 4096 = m.stat ∧ z % 64 < 2 then some (if z % 64 = 0 then (ends (z % 4096 / 64)).m else (ends (z % 4096 / 64)).l)
  else if m.out ≤ z / 4096 ∧ (z / 4096 - m.out) * 64 + z % 64 < dim then (ends (z % 4096 / 64)).o[(z / 4096 - m.out) * 64 + z % 64]?
  else none

/-- The places of an index. -/
theorem accIdx_places {blk row col : Nat} (hrow : row < 64) (hcol : col < 64) : accIdx blk row col / 4096 = blk
    ∧ accIdx blk row col % 4096 / 64 = row ∧ accIdx blk row col % 64 = col := by
  rw [accIdx]
  omega

theorem accIdx_of_places (z : Nat) : accIdx (z / 4096) (z % 4096 / 64) (z % 64) = z := by
  rw [accIdx]
  omega

/-- What an attention tile writes is what its rows give. -/
theorem mem_runAttn {s : State} {b : Batch} {q : MxReq} {d : KvDesc} {row : Nat → List (BitVec 8)} {ends : Nat → AttnSt} {e : Nat × W32}
    (hends : ∀ i, ends i = attnRow (attnOf q.snap.words) d q.mask (b.found (attnOf q.snap.words) d) i
      (codesOf (attnOf q.snap.words).qFmt (row i)) (s.attnStart b q (attnOf q.snap.words) d i)) :
    e ∈ (s.runAttn b { q with rowsRead := (List.range (attnOf q.snap.words).rows).map row } d).elems
      ↔ ∃ i, i < (attnOf q.snap.words).rows ∧ e ∈ (attnOf q.snap.words).rowOut i (ends i) := by
  rw [State.runAttn]
  dsimp only
  rw [List.mem_flatMap]
  constructor
  · rintro ⟨x, hx, he⟩
    obtain ⟨hi, hrow⟩ := mem_zipIdx_range.1 hx
    refine ⟨x.2, hi, ?_⟩
    rw [hends, ← hrow]
    exact he
  · rintro ⟨i, hi, he⟩
    refine ⟨(row i, i), mem_zipIdx_range.2 ⟨hi, rfl⟩, ?_⟩
    rw [hends] at he
    exact he

/-- An attention tile writes the elements of its rows and no others. -/
theorem runAttn_writes (s : State) (b : Batch) (q : MxReq) (d : KvDesc) (row : Nat → List (BitVec 8)) (ends : Nat → AttnSt) :
    let m := attnOf q.snap.words
    m.rows ≤ 64 → (m.stat < m.out ∨ m.out + (d.dim + 63) / 64 ≤ m.stat) →
    (∀ i, ends i = attnRow m d q.mask (b.found m d) i (codesOf m.qFmt (row i)) (s.attnStart b q m d i)) →
    Writes (s.runAttn b { q with rowsRead := (List.range m.rows).map row } d).elems (m.elem d.dim ends) := by
  intro m hrows hblocks hends
  have hlen (i : Nat) : (ends i).o.length = d.dim := by
    rw [hends, attnRow_eq, rowEnds_length, State.attnStart, List.length_map, List.length_range]
  have hmem (e : Nat × W32) := mem_runAttn (s := s) (q := q) (row := row) (e := e) hends
  intro z
  refine ⟨fun e he hz => ?_, fun hsome => ?_⟩
  · obtain ⟨i, hi, he⟩ := (hmem e).1 he
    have hi : i < m.rows := hi
    have hi64 : i < 64 := by omega
    rcases mem_rowOut.1 he with rfl | rfl | ⟨x, hx, hidx⟩
    · obtain ⟨hblk, hrow, hcol⟩ := accIdx_places (blk := m.stat) hi64 (show 0 < 64 by decide)
      rw [← hz, Attn.elem, hblk, hrow, hcol, if_neg (by omega), if_pos ⟨rfl, by decide⟩, if_pos rfl]
    · obtain ⟨hblk, hrow, hcol⟩ := accIdx_places (blk := m.stat) hi64 (show 1 < 64 by decide)
      rw [← hz, Attn.elem, hblk, hrow, hcol, if_neg (by omega), if_pos ⟨rfl, by decide⟩, if_neg (by decide)]
    · have hxlen : x < d.dim := by
        rw [← hlen i]
        exact (List.getElem?_eq_some_iff.1 hx).1
      obtain ⟨hblk, hrow, hcol⟩ := accIdx_places (blk := m.out + x / 64) hi64 (Nat.mod_lt x (show 0 < 64 by decide))
      have hx' : (m.out + x / 64 - m.out) * 64 + x % 64 = x := by omega
      rw [← hz, hidx, Attn.elem, hblk, hrow, hcol, hx', if_neg (by omega), if_neg (by omega), if_pos ⟨by omega, hxlen⟩]
      exact hx
  · have hplace := accIdx_of_places z
    by_cases hi : m.rows ≤ z % 4096 / 64
    · exact absurd (if_pos hi) hsome
    · rw [Attn.elem, if_neg hi] at hsome
      have hfrom (e : Nat × W32) (he : e ∈ m.rowOut (z % 4096 / 64) (ends (z % 4096 / 64))) (hz : e.1 = z) :
          ∃ e ∈ (s.runAttn b { q with rowsRead := (List.range m.rows).map row } d).elems, e.1 = z :=
        ⟨e, (hmem e).2 ⟨_, Nat.not_le.1 hi, he⟩, hz⟩
      by_cases hstat : z / 4096 = m.stat ∧ z % 64 < 2
      · obtain ⟨hblk, hcol⟩ := hstat
        rw [hblk] at hplace
        by_cases h0 : z % 64 = 0
        · rw [h0] at hplace
          exact hfrom _ (mem_rowOut.2 (.inl rfl)) hplace
        · rw [show z % 64 = 1 by omega] at hplace
          exact hfrom _ (mem_rowOut.2 (.inr (.inl rfl))) hplace
      · rw [if_neg hstat] at hsome
        by_cases hout : m.out ≤ z / 4096 ∧ (z / 4096 - m.out) * 64 + z % 64 < d.dim
        · rw [if_pos hout] at hsome
          obtain ⟨v, hv⟩ := Option.ne_none_iff_exists'.1 hsome
          refine hfrom (z, v) (mem_rowOut.2 (.inr (.inr ⟨_, hv, ?_⟩))) rfl
          rw [← hplace, accIdx, accIdx]
          omega
        · exact absurd (if_neg hout) hsome

/-- A tile finds a stale slot just when it has read one of a later generation. -/
theorem runAttn_stale_iff (s : State) (b : Batch) (q : MxReq) (d : KvDesc) (rows : List (List (BitVec 8))) :
    let m := attnOf q.snap.words
    (s.runAttn b { q with rowsRead := rows } d).stale = true
      ↔ ∃ p v, m.kfirst ≤ p ∧ p < m.kend ∧ p < b.pc.getD 0 ∧ b.view d p = some v ∧ (d.slotOf p).2 < v.gen := by
  intro m
  have hstale : (s.runAttn b { q with rowsRead := rows } d).stale = (b.found m d).any fun x => x.2 == .stale := rfl
  rw [hstale, found_eq, List.any_map, List.any_eq_true]
  constructor
  · rintro ⟨p, hp, hst⟩
    obtain ⟨hlo, hend, hpc⟩ := mem_range.1 hp
    obtain ⟨v, hv, hgen⟩ := (foundAt_stale_iff hpc).1 (beq_iff_eq.1 hst)
    exact ⟨p, v, hlo, hend, hpc, hv, hgen⟩
  · rintro ⟨p, v, hlo, hend, hpc, hv, hgen⟩
    exact ⟨p, mem_range.2 ⟨hlo, hend, hpc⟩, beq_iff_eq.2 ((foundAt_stale_iff hpc).2 ⟨v, hv, hgen⟩)⟩

end Sys2Proof.Machine
end

section
/-! O37: BATCH_COMPLETE, the chunk sums, the blocks of R228 and MLDMASK_COMPLETE together. -/

namespace Sys2Proof.Machine

open Sys2Proof

/-! ### The first request of a batch ends (R221, R225, R227) -/

/-- A request that is the first of a dispatched batch and that may complete. -/
structure State.First (s : State) (n : Nat) (bt : Batch) (r : Nat) (rs : List Nat) (q : MxReq) (tm : Team) : Prop where
  batch : Tbl.find s.batches n = some bt
  core : bt.core.isSome = true
  fault : bt.fault = none
  reqs : bt.reqs = r :: rs
  once : r ∉ rs
  req : Tbl.find s.mxReqs r = some q
  goes : q.fault = none
  turn : s.reqAfter r q = false
  writes : q.cancelled = false
  queued : q.batch = some n
  team : s.team q.team = some tm

section First

variable {s : State} {n r : Nat} {bt : Batch} {rs : List Nat} {q : MxReq} {tm : Team} (h : s.First n bt r rs q tm)
include h

theorem State.First.batchReqs : ∃ rest, s.batchReqs bt = (r, q) :: rest := by
  refine ⟨rs.filterMap fun i => (Tbl.find s.mxReqs i).map fun q => (i, q), ?_⟩
  rw [State.batchReqs, h.reqs]
  exact List.filterMap_cons_some (by rw [h.req]; rfl)

/-- The first request ends with what it computes, where the batch `b1` has all that it shares and the request's rows can be read. -/
theorem first_completes {b1 : Batch} {rows : List (List (BitVec 8))} {elem : Nat → Option W32} {stale : Prop}
    (hload : s.loadShared n bt q = (b1, none)) (hreqs : b1.reqs = bt.reqs) (hcore : b1.core = bt.core) (hfault : b1.fault = bt.fault)
    (hrows : (s.updBatch n fun _ => b1).ownRows r b1 q = (rows, none))
    (hshared : ∀ (t : State) k, k ∈ rs → ∀ p, Tbl.find s.mxReqs k = some p →
      t.loadShared n { b1 with reqs := rs } p = ({ b1 with reqs := rs }, none))
    (hw : Writes (State.runReq (s.updBatch n fun _ => b1) b1 { q with rowsRead := rows }).elems elem)
    (hstale : (State.runReq (s.updBatch n fun _ => b1) b1 { q with rowsRead := rows }).stale = true ↔ stale) :
    ∃ t, s.GoesOn t n rs ∧ s.MxDone t n r q tm { b1 with reqs := rs } elem stale := by
  obtain ⟨rest, hfirst⟩ := h.batchReqs
  have hends : State.completeReq b1 (s.updBatch n fun _ => b1) r
      = (s.updBatch n fun _ => b1).reqEnds n r q (State.runReq (s.updBatch n fun _ => b1) b1 { q with rowsRead := rows }) :=
    completeReq_ends h.req h.goes h.turn h.queued h.writes hrows
  exact ⟨_, goesOn_of_shared h.batch (hreqs.trans h.reqs) h.once (hcore ▸ h.core) (hfault.trans h.fault) h.core h.fault h.reqs hfirst hload
    hends hshared, mxDone_of_reqEnds h.batch (hreqs.trans h.reqs) h.once h.team hw hstale⟩

/-- A GEMM completes (R225). -/
theorem gemm_completes (hattn : q.snap.attn = false) {wt row : Nat → List (BitVec 8)} :
    let m := mmaOf q.snap.words
    let cw := q.snap.caps.getD 1 nullCap
    let ca := q.snap.caps.getD 0 nullCap
    RowsRead m.wRows bt.tile (fun i => s.mxRead (s.batchSite n bt q) cw (cw.base + m.wt.toNat + i * m.wstride) m.wRowBytes) wt →
    RowsRead m.rows q.rowsRead (fun i => s.mxRead (s.reqSite r bt q) ca (ca.base + (m.act.toNat + i * m.astride)) m.aRowBytes) row →
    (∀ k ∈ rs, ∀ o, Tbl.find s.mxReqs k = some o → o.snap.attn = false ∧ (mmaOf o.snap.words).wRows = m.wRows) →
    ∃ t, s.GoesOn t n rs ∧ s.MxDone t n r q tm { bt with tile := (List.range m.wRows).map wt, reqs := rs } (fun z =>
      if m.dst * 4096 ≤ z ∧ (z - m.dst * 4096) / 64 < m.rows then
        some (s.mmaElem { bt with tile := (List.range m.wRows).map wt } q row ((z - m.dst * 4096) / 64) (z % 64)) else none) False := by
  intro m cw ca hweights hacts hothers
  have hload : s.loadShared n bt q = ({ bt with tile := (List.range m.wRows).map wt }, none) := by
    have hrows : s.weightRows n bt q = ((List.range m.wRows).map wt, none) := loadRows_all hweights
    unfold State.loadShared
    rw [hattn]
    dsimp only
    rw [hrows]
  have hrows : (s.updBatch n fun _ => { bt with tile := (List.range m.wRows).map wt }).ownRows r { bt with tile := (List.range m.wRows).map wt } q
      = ((List.range m.rows).map row, none) := by
    rw [State.ownRows]
    dsimp only
    rw [mxRead_updBatch, hattn]
    exact loadRows_all hacts
  have hrun (rows : List (List (BitVec 8))) :
      State.runReq (s.updBatch n fun _ => { bt with tile := (List.range m.wRows).map wt }) { bt with tile := (List.range m.wRows).map wt }
        { q with rowsRead := rows } = State.runMma s { bt with tile := (List.range m.wRows).map wt } { q with rowsRead := rows } := by
    unfold State.runReq
    dsimp only
    rw [hattn]
    rfl
  refine first_completes h hload rfl rfl rfl hrows (fun t k hk p hp => ?_) ?_ ?_
  · obtain ⟨hgemm, hsize⟩ := hothers k hk p hp
    have hnone : t.weightRows n { bt with tile := (List.range m.wRows).map wt, reqs := rs } p = ((List.range m.wRows).map wt, none) := by
      have hlen : ((List.range m.wRows).map wt).length = m.wRows := by rw [List.length_map, List.length_range]
      rw [State.weightRows]
      dsimp only
      rw [hsize, hlen, Nat.sub_self, loadRows]
    unfold State.loadShared
    rw [hgemm]
    dsimp only
    rw [hnone]
  · rw [hrun]
    exact runMma_writes s _ q row
  · rw [hrun]
    exact iff_of_false Bool.false_ne_true id

/-- An attention tile completes (R227, R228). -/
theorem attention_completes {d : KvDesc} {b1 : Batch} {row : Nat → List (BitVec 8)} (hattn : q.snap.attn = true) (hdesc : q.desc = some d)
    (hslots : s.tileSlots n bt q d = (b1, none)) :
    let m := attnOf q.snap.words
    let c := q.snap.caps.getD 0 nullCap
    let len := d.dim * m.qFmt.bytes
    let ends (i : Nat) : AttnSt := b1.rowEnds m d q.mask i (codesOf m.qFmt (row i)) (s.attnStart bt q m d i)
    RowsRead m.rows q.rowsRead (fun i => s.mxRead (s.reqSite r bt q) c (c.base + (m.q.toNat + i * len)) len) row →
    m.rows ≤ 64 → (m.stat < m.out ∨ m.out + (d.dim + 63) / 64 ≤ m.stat) →
    (∀ k ∈ rs, ∀ o, Tbl.find s.mxReqs k = some o → o.snap.attn = true ∧ o.desc = some d
      ∧ (attnOf o.snap.words).kfirst = m.kfirst ∧ (attnOf o.snap.words).kend = m.kend) →
    ∃ t, s.GoesOn t n rs ∧ s.MxDone t n r q tm { b1 with reqs := rs } (m.elem d.dim ends)
      (∃ p v, m.kfirst ≤ p ∧ p < m.kend ∧ p < b1.pc.getD 0 ∧ b1.view d p = some v ∧ (d.slotOf p).2 < v.gen) := by
  intro m c len ends hqueries hcount hblocks hothers
  obtain ⟨pc, hread⟩ := read_of_tileSlots hslots
  have hrest := hread.rest
  have hload : s.loadShared n bt q = (b1, none) := by
    unfold State.loadShared
    rw [hattn, hdesc]
    exact hslots
  have hsite : (s.updBatch n fun _ => b1).reqSite r b1 q = s.reqSite r bt q := by rw [hrest]; rfl
  have hstart (i : Nat) : State.attnStart (s.updBatch n fun _ => b1) b1 q m d i = s.attnStart bt q m d i := by rw [hrest]; rfl
  have hrows : (s.updBatch n fun _ => b1).ownRows r b1 q = ((List.range m.rows).map row, none) := by
    rw [State.ownRows]
    dsimp only
    rw [mxRead_updBatch, hattn, hdesc, hsite]
    exact loadRows_all hqueries
  have hrun (rows : List (List (BitVec 8))) : State.runReq (s.updBatch n fun _ => b1) b1 { q with rowsRead := rows }
      = State.runAttn (s.updBatch n fun _ => b1) b1 { q with rowsRead := rows } d := by
    unfold State.runReq
    dsimp only
    rw [hattn, hdesc]
  refine first_completes h hload (by rw [hrest]) (by rw [hrest]) (by rw [hrest]) hrows (fun t k hk p hp => ?_) ?_ ?_
  · obtain ⟨hattn', hdesc', hfirst, hend⟩ := hothers k hk p hp
    unfold State.loadShared
    rw [hattn', hdesc']
    exact tileSlots_of_read hread t n rs hfirst hend
  · rw [hrun]
    refine runAttn_writes _ b1 q d row ends hcount hblocks fun i => ?_
    rw [attnRow_eq, hstart]
  · rw [hrun]
    exact runAttn_stale_iff _ b1 q d _

end First

/-! ### Chunks and blocks as O37 states them (R212–R215, R228) -/

theorem codeProd_infSign_iff (f g : Fmt) (p : Nat × Nat) (s : Bool) : (codeProd f g p).infSign = some s ↔
    ((value f p.1 = .inf true ∨ value f p.1 = .inf false) ∨ (value g p.2 = .inf true ∨ value g p.2 = .inf false))
      ∧ ((value f p.1).sign != (value g p.2).sign) = s := prod_infSign_iff ..

theorem cb2Sign_iff (f : Fmt) (p : (Bool × Nat) × Nat) (s : Bool) : cb2Sign (p.1, value f p.2) = some s ↔
    ∃ t, value f p.2 = .inf t ∧ (t != p.1.1) = s := by
  rw [cb2Sign]
  dsimp only
  cases value f p.2 <;> simp

theorem chunkValue_codes (f g : Fmt) (ps : List (Nat × Nat)) (had : Nat) :
    chunkValue (.codes g (ps.map (·.2))) (ps.map fun p => value f p.1) (fracBits f) had
      = promote (Val.scale (chunk48 (ps.map (codeProd f g))) (hadShift had)) := by
  have hzip : (ps.map fun p => value f p.1).zip (ps.map (·.2)) = ps.map fun p => (value f p.1, p.2) := List.zip_map'
  rw [chunkValue, hzip, List.map_map]
  rfl

theorem chunkValue_cb2 (f : Fmt) (as : List Nat) (idx : List (BitVec 16)) {scale : Nat} (hs : scale ≠ 255) (had : Nat) :
    chunkValue (.cb2 idx scale) (as.map (value f)) (fracBits f) had
      = promote (Val.scale (chunk20 (cb2Weights idx) (as.map (value f))) ((scale : Int) - 127 + hadShift had)) := by
  rw [chunkValue, if_neg hs]
  rfl

theorem chunkValue_cb2_scale (as : List Val) (idx : List (BitVec 16)) (fa had : Nat) : chunkValue (.cb2 idx 255) as fa had = 0x7FC00000 := rfl

/-- Settles O37: the first request of a batch completes and the batch goes on; chunks, blocks and mask loads are what R212–R230 say. -/
theorem matrixCompletion : Obligations.MatrixCompletion := by
  unfold Obligations.MatrixCompletion
  intro s
  refine ⟨fun n bt r rs q tm row hb hcore hfault hreqs honce hq hgoes hturn hwrites hqueued htm => ?_,
    fun n bt r q rs rows lva kind hb hcore hfault hfirst hattn hload => ?_, fun f g ps had hf hg => ?_,
    fun f as idx scale had hf => ?_, fun qf kf vf scale q st vis => ?_, fun id m row tm w hm hfault htm hw hread =>
      mldmask_completes hm hfault htm hw hread⟩
  · have h : s.First n bt r rs q tm := ⟨hb, hcore, hfault, hreqs, honce, hq, hgoes, hturn, hwrites, hqueued, htm⟩
    refine ⟨fun hattn wt hweights hacts hothers => ?_, fun d b1 hattn hdesc hslots hqueries hcount hblocks hothers => ?_⟩
    · obtain ⟨t, hgoes, hdone⟩ := gemm_completes h hattn hweights hacts hothers
      refine ⟨t, hgoes, ?_⟩
      convert hdone using 1
      funext z
      refine ite_congr rfl (fun hin => ?_) fun _ => rfl
      have hz : accIdx (mmaOf q.snap.words).dst ((z - (mmaOf q.snap.words).dst * 4096) / 64) (z % 64) = z := by
        rw [accIdx]
        omega
      rw [State.mmaElem, hz]
    · exact attention_completes h hattn hdesc hslots hqueries hcount hblocks hothers
  · refine batchComplete_faults (b1 := { bt with tile := rows }) (lva := lva) (kind := kind) hb hcore hfault hfirst ?_
    unfold State.loadShared
    rw [hattn]
    dsimp only
    rw [hload]
  · have hnan (p : Nat × Nat) := prod_nan_iff (codeProd f g p)
    have hsign (p : Nat × Nat) (_ : p ∈ ps) := codeProd_infSign_iff f g p
    refine ⟨fun ⟨p, hp, hbad⟩ => chunk48_nan _ ⟨p, hp, (hnan p).2 hbad⟩, fun hgood => ?_, chunkValue_codes f g ps had⟩
    have hgood : ∀ p ∈ ps, ¬ (codeProd f g p).nan = true := fun p hp hbad => hgood p hp ((hnan p).1 hbad)
    obtain ⟨hboth, hneg, hpos⟩ := promote_infinite hsign (chunk48_infinite hgood) (hadShift had)
    refine ⟨hboth, hneg, hpos, fun hnone => chunk48_finite _ hgood hf hg fun p hp => ?_⟩
    obtain ⟨ht, hf⟩ := hnone p hp
    cases hs : (codeProd f g p).infSign with
    | none => rfl
    | some b =>
      cases b with
      | true => exact absurd ((hsign p hp true).1 hs) ht
      | false => exact absurd ((hsign p hp false).1 hs) hf
  · have hfp : Fmt.isFp f = true := by rcases hf with rfl | rfl <;> rfl
    have hsign (p : (Bool × Nat) × Nat) (_ : p ∈ (cb2Weights idx).zip as) := cb2Sign_iff f p
    refine ⟨fun hnan => ?_, fun hs hgood => ?_, fun hs hfin => ?_⟩
    · by_cases hs : scale = 255
      · rw [hs]; rfl
      · rw [chunkValue_cb2 f as idx hs]
        exact chunk20_nan _ (hnan.resolve_left hs)
    · rw [chunkValue_cb2 f as idx hs]
      exact promote_infinite hsign (chunk20_infinite hgood) _
    · rw [chunkValue_cb2 f as idx hs]
      exact chunk20_finite _ hfp hfin
  · refine ⟨attnBlock_idle, attnBlock_stops, fun hstop hvis hfin => ?_, fun k => rfl⟩
    have hgoes := attnBlock_goes (vf := vf) hstop hvis hfin
    dsimp only at hgoes
    rw [hgoes]
    refine ⟨rfl, rfl, ⟨_, ?_, ?_, rfl⟩, ?_, fun d x hx => ?_⟩
    · exact (foldl_add_exact .e5f2 _ (fun p _ => value_e5f2_fin p) _ rfl).1
    · rw [(foldl_add_exact .e5f2 _ (fun p _ => value_e5f2_fin p) _ rfl).2, rat_zero, zero_add]
    · rw [List.length_map, List.length_zipIdx]
    · rw [List.getElem?_map, List.getElem?_zipIdx, hx, Nat.zero_add]
      rfl

end Sys2Proof.Machine
end
